-- ==== Sys2Proof/Word.lean ====
section
/-! DEFINITION. The word types of the machine and the names of its places: registers' words, cores, contexts,
forges (R7, R16), fabric links (R15, R400), and who writes a device register (R278, R344). -/

namespace Sys2Proof

/-- A doubleword: a g or f register, a control register, an address (R54). -/
abbrev Word := BitVec 64
/-- A v register or a queue entry (R54, R57). -/
abbrev Vec := BitVec 128
/-- One byte of memory (R3). -/
abbrev Byte := BitVec 8
/-- A core id, y·128 + x (R7). -/
abbrev CoreId := BitVec 13
/-- One of the four hardware contexts of a core (R16). -/
abbrev CtxId := BitVec 2
/-- A forge number, also the number of the pseudo-channel under it (R7, R17). -/
abbrev ForgeId := BitVec 10
/-- A fabric link, 2k + l for link l of direction k (R400). -/
abbrev Link := Fin 12

/-- Who writes a device register (R278, R344, R368). -/
inductive Writer where
  /-- a user context -/
  | user
  /-- a supervisor context of a partition -/
  | supervisor (part : BitVec 6)
  /-- the host, over CXL.io function 0 -/
  | host
  /-- the launch unit -/
  | launchUnit
  /-- the switch engine -/
  | switchEngine
deriving DecidableEq, Repr

/-- The structure a soft error strikes (R395). -/
inductive Struck where
  /-- a word of DRAM, the Hearth, forge SRAM or an L1D, by its physical address -/
  | word (addr : Nat)
  /-- a word of a Welt engine's storage: of what it holds of a handle's region, by its offset -/
  | welt (heap off : Nat)
  /-- a word of an accumulator tile -/
  | accumulator (core : CoreId) (tile : BitVec 1) (w : Nat)
  /-- L1I, a TLB, a walk cache, a forge cache or a proxy read copy -/
  | cleanCopy
  /-- a register file, queue, class table or inbox of a context -/
  | context (core : CoreId) (ctx : CtxId)
  /-- a directory, filter, forwarding or token entry of a die -/
  | directory (die : BitVec 2)
deriving DecidableEq, Repr

end Sys2Proof
end

