-- ==== Sys2Proof/Syntax.lean ====
section
/-! DEFINITION. The instructions and events of the Prizo ISA, one constructor for each row of the opcode table
(R71 to R87 for the encodings). Operand fields keep the widths of their encodings, and a field split over two
places of the word is one operand here. An event of the table carries the place it happens at. -/

namespace Sys2Proof

/-- One row of the opcode table: an instruction with its operand fields, or an event with its place. -/
inductive Instr where
  /-- Adds two g registers at 64 or 32 bits, wrapping (R92). -/
  | add (d : BitVec 5) (a : BitVec 5) (b : BitVec 5) (w : BitVec 1)
  /-- Subtracts g[b] from g[a], wrapping (R92). -/
  | sub (d : BitVec 5) (a : BitVec 5) (b : BitVec 5) (w : BitVec 1)
  /-- Writes the low bits of the product of g[a] and g[b] (R92). -/
  | mul (d : BitVec 5) (a : BitVec 5) (b : BitVec 5) (w : BitVec 1)
  /-- Writes the high half of the signed product (R92). -/
  | mulh (d : BitVec 5) (a : BitVec 5) (b : BitVec 5) (w : BitVec 1)
  /-- Writes the high half of the unsigned product (R92). -/
  | mulhn (d : BitVec 5) (a : BitVec 5) (b : BitVec 5) (w : BitVec 1)
  /-- Signed division toward zero, saturating on a zero divisor or on overflow (R93). -/
  | div (d : BitVec 5) (a : BitVec 5) (b : BitVec 5) (w : BitVec 1)
  /-- Unsigned division, saturating on a zero divisor (R93). -/
  | divn (d : BitVec 5) (a : BitVec 5) (b : BitVec 5) (w : BitVec 1)
  /-- Signed remainder taken with the delivered quotient (R93). -/
  | rem (d : BitVec 5) (a : BitVec 5) (b : BitVec 5) (w : BitVec 1)
  /-- Unsigned remainder (R93). -/
  | remn (d : BitVec 5) (a : BitVec 5) (b : BitVec 5) (w : BitVec 1)
  /-- Bitwise AND of two g registers (R92). -/
  | and (d : BitVec 5) (a : BitVec 5) (b : BitVec 5) (w : BitVec 1)
  /-- Bitwise OR of two g registers (R92). -/
  | or (d : BitVec 5) (a : BitVec 5) (b : BitVec 5) (w : BitVec 1)
  /-- Bitwise XOR of two g registers (R92). -/
  | xor (d : BitVec 5) (a : BitVec 5) (b : BitVec 5) (w : BitVec 1)
  /-- g[a] AND NOT g[b] (R92). -/
  | andn (d : BitVec 5) (a : BitVec 5) (b : BitVec 5) (w : BitVec 1)
  /-- Shifts left by g[b] mod width (R94). -/
  | shl (d : BitVec 5) (a : BitVec 5) (b : BitVec 5) (w : BitVec 1)
  /-- Logical shift right by g[b] mod width (R94). -/
  | shr (d : BitVec 5) (a : BitVec 5) (b : BitVec 5) (w : BitVec 1)
  /-- Arithmetic shift right by g[b] mod width (R94). -/
  | sra (d : BitVec 5) (a : BitVec 5) (b : BitVec 5) (w : BitVec 1)
  /-- Rotates left by g[b] mod width (R94). -/
  | rol (d : BitVec 5) (a : BitVec 5) (b : BitVec 5) (w : BitVec 1)
  /-- Rotates right by g[b] mod width (R94). -/
  | ror (d : BitVec 5) (a : BitVec 5) (b : BitVec 5) (w : BitVec 1)
  /-- Signed minimum (R92). -/
  | min (d : BitVec 5) (a : BitVec 5) (b : BitVec 5) (w : BitVec 1)
  /-- Signed maximum (R92). -/
  | max (d : BitVec 5) (a : BitVec 5) (b : BitVec 5) (w : BitVec 1)
  /-- Unsigned minimum (R92). -/
  | minn (d : BitVec 5) (a : BitVec 5) (b : BitVec 5) (w : BitVec 1)
  /-- Unsigned maximum (R92). -/
  | maxn (d : BitVec 5) (a : BitVec 5) (b : BitVec 5) (w : BitVec 1)
  /-- Writes 1 when g[a] is less than g[b] as signed values (R92). -/
  | slt (d : BitVec 5) (a : BitVec 5) (b : BitVec 5) (w : BitVec 1)
  /-- Writes 1 when g[a] is less than g[b] as unsigned values (R92). -/
  | sltn (d : BitVec 5) (a : BitVec 5) (b : BitVec 5) (w : BitVec 1)
  /-- Writes 1 when the operands are equal (R92). -/
  | seq (d : BitVec 5) (a : BitVec 5) (b : BitVec 5) (w : BitVec 1)
  /-- Counts leading zero bits (R92). -/
  | clz (d : BitVec 5) (a : BitVec 5) (w : BitVec 1)
  /-- Counts trailing zero bits (R92). -/
  | ctz (d : BitVec 5) (a : BitVec 5) (w : BitVec 1)
  /-- Counts one bits (R92). -/
  | popc (d : BitVec 5) (a : BitVec 5) (w : BitVec 1)
  /-- Reverses the bit order (R92). -/
  | brev (d : BitVec 5) (a : BitVec 5) (w : BitVec 1)
  /-- Adds a sign-extended 11-bit immediate (R95). -/
  | addi (d : BitVec 5) (a : BitVec 5) (i : BitVec 11) (w : BitVec 1)
  /-- ANDs g[a] with a sign-extended immediate (R95). -/
  | andi (d : BitVec 5) (a : BitVec 5) (i : BitVec 11)
  /-- ORs g[a] with a sign-extended immediate (R95). -/
  | ori (d : BitVec 5) (a : BitVec 5) (i : BitVec 11)
  /-- XORs g[a] with a sign-extended immediate (R95). -/
  | xori (d : BitVec 5) (a : BitVec 5) (i : BitVec 11)
  /-- Writes 1 when g[a] is less than the immediate as signed values (R95). -/
  | slti (d : BitVec 5) (a : BitVec 5) (i : BitVec 11)
  /-- Selects g[a] when g[c] is nonzero, and g[b] otherwise (R99). -/
  | sel (d : BitVec 5) (a : BitVec 5) (b : BitVec 5) (c : BitVec 5)
  /-- Shifts left by an immediate amount (R95). -/
  | shli (d : BitVec 5) (a : BitVec 5) (w : BitVec 1) (s : BitVec 6)
  /-- Logical shift right by an immediate amount (R95). -/
  | shri (d : BitVec 5) (a : BitVec 5) (w : BitVec 1) (s : BitVec 6)
  /-- Arithmetic shift right by an immediate amount (R95). -/
  | srai (d : BitVec 5) (a : BitVec 5) (w : BitVec 1) (s : BitVec 6)
  /-- Inserts a 16-bit immediate at halfword k of g[d] (R96). -/
  | ldhi (d : BitVec 5) (i : BitVec 16) (k : BitVec 2)
  /-- Computes g[a] plus an immediate (R97). -/
  | lea (d : BitVec 5) (a : BitVec 5) (i : BitVec 11)
  /-- Computes g[a] plus g[b] shifted left by s (R97). -/
  | leaScaled (d : BitVec 5) (a : BitVec 5) (b : BitVec 5) (s : BitVec 3)
  /-- Computes a named-region address, with the region bounds checked (R97). -/
  | leaRegion (d : BitVec 5) (a : BitVec 5) (n : BitVec 4) (o : BitVec 7)
  /-- Extracts a bit field, sign-extended (R98). -/
  | bfx (d : BitVec 5) (a : BitVec 5) (l : BitVec 5) (p : BitVec 6)
  /-- Extracts a bit field, zero-extended (R98). -/
  | bfxn (d : BitVec 5) (a : BitVec 5) (l : BitVec 5) (p : BitVec 6)
  /-- Inserts a bit field into g[d] (R98). -/
  | bfi (d : BitVec 5) (a : BitVec 5) (l : BitVec 5) (p : BitVec 6)
  /-- Branches when g[a] equals g[b] (R103). -/
  | beq (a : BitVec 5) (b : BitVec 5) (o : BitVec 13)
  /-- Branches when g[a] differs from g[b] (R103). -/
  | bne (a : BitVec 5) (b : BitVec 5) (o : BitVec 13)
  /-- Branches when g[a] is less than g[b], signed (R103). -/
  | blt (a : BitVec 5) (b : BitVec 5) (o : BitVec 13)
  /-- Branches when g[a] is greater than or equal to g[b], signed (R103). -/
  | bge (a : BitVec 5) (b : BitVec 5) (o : BitVec 13)
  /-- Branches when g[a] is less than g[b], unsigned (R103). -/
  | bltn (a : BitVec 5) (b : BitVec 5) (o : BitVec 13)
  /-- Branches when g[a] is greater than or equal to g[b], unsigned (R103). -/
  | bgen (a : BitVec 5) (b : BitVec 5) (o : BitVec 13)
  /-- Jumps by a PC-relative offset without a link (R104). -/
  | j (o : BitVec 18)
  /-- Jumps by a PC-relative offset and writes the link (R104). -/
  | jal (d : BitVec 5) (o : BitVec 18)
  /-- Jumps to g[a] plus an immediate and writes the link (R105). -/
  | jalr (d : BitVec 5) (a : BitVec 5) (i : BitVec 11)
  /-- Starts a hardware loop over the following body (R106). -/
  | loop (a : BitVec 5) (i : BitVec 11)
  /-- Ends the task; the context becomes FREE once the results owed to it have arrived (R111). -/
  | endTask
  /-- Takes a program trap with code 0x0A (R110). -/
  | trap (i : BitVec 9)
  /-- Takes a breakpoint trap with code 0x09 (R110). -/
  | brk (i : BitVec 9)
  /-- 16-bit ADD d, d, a (R72). -/
  | addCr (d : BitVec 4) (a : BitVec 4)
  /-- 16-bit OR d, a, g0 (R72). -/
  | moveCr (d : BitVec 4) (a : BitVec 4)
  /-- 16-bit SUB d, d, a (R72). -/
  | subCr (d : BitVec 4) (a : BitVec 4)
  /-- 16-bit AND d, d, a (R72). -/
  | andCr (d : BitVec 4) (a : BitVec 4)
  /-- 16-bit OR d, d, a (R72). -/
  | orCr (d : BitVec 4) (a : BitVec 4)
  /-- 16-bit XOR d, d, a (R72). -/
  | xorCr (d : BitVec 4) (a : BitVec 4)
  /-- 16-bit SHL d, d, a (R72). -/
  | shlCr (d : BitVec 4) (a : BitVec 4)
  /-- 16-bit SHR d, d, a (R72). -/
  | shrCr (d : BitVec 4) (a : BitVec 4)
  /-- 16-bit SRA d, d, a (R72). -/
  | sraCr (d : BitVec 4) (a : BitVec 4)
  /-- 16-bit MUL d, d, a (R72). -/
  | mulCr (d : BitVec 4) (a : BitVec 4)
  /-- 16-bit JALR g31, a, 0 (R72). -/
  | jalrLinkCr (a : BitVec 4)
  /-- 16-bit JALR g0, a, 0 (R72). -/
  | jalrNolinkCr (a : BitVec 4)
  /-- 16-bit ADDI d, d, imm (R72). -/
  | addiCi (d : BitVec 4) (i : BitVec 6)
  /-- 16-bit ADDI d, g0, imm (R72). -/
  | addiZeroCi (d : BitVec 4) (i : BitVec 6)
  /-- 16-bit SHLI d, d, imm (R72). -/
  | shliCi (d : BitVec 4) (i : BitVec 6)
  /-- 16-bit SHRI d, d, imm (R72). -/
  | shriCi (d : BitVec 4) (i : BitVec 6)
  /-- 16-bit SRAI d, d, imm (R72). -/
  | sraiCi (d : BitVec 4) (i : BitVec 6)
  /-- 16-bit ANDI d, d, imm (R72). -/
  | andiCi (d : BitVec 4) (i : BitVec 6)
  /-- 16-bit doubleword load at g[b] + 8 × off4 (R73). -/
  | ldDCm (d : BitVec 4) (b : BitVec 4) (o : BitVec 4)
  /-- 16-bit doubleword store at g[b] + 8 × off4 (R73). -/
  | stDCm (d : BitVec 4) (b : BitVec 4) (o : BitVec 4)
  /-- 16-bit BEQ of g[a] with g0 (R73). -/
  | beqCb (a : BitVec 4) (o : BitVec 7)
  /-- 16-bit BNE of g[a] with g0 (R73). -/
  | bneCb (a : BitVec 4) (o : BitVec 7)
  /-- 16-bit BLT of g[a] with g0 (R73). -/
  | bltCb (a : BitVec 4) (o : BitVec 7)
  /-- 16-bit BGE of g[a] with g0 (R73). -/
  | bgeCb (a : BitVec 4) (o : BitVec 7)
  /-- 16-bit J (R73). -/
  | jCj (o : BitVec 13)
  /-- 16-bit END (R74). -/
  | endCt
  /-- 16-bit DONE of g[a] (R74). -/
  | doneCt (a : BitVec 4)
  /-- 16-bit SEND of class 16 + k with payload g1 to g6 (R74). -/
  | sendC (a : BitVec 4) (k : BitVec 4)
  /-- 16-bit VOR vd, va, va (R75). -/
  | vorCv (d : BitVec 4) (a : BitVec 4)
  /-- 16-bit VADD.s32 vd, vd, va (R75). -/
  | vaddS32Cv (d : BitVec 4) (a : BitVec 4)
  /-- 16-bit VSUB.s32 vd, vd, va (R75). -/
  | vsubS32Cv (d : BitVec 4) (a : BitVec 4)
  /-- 16-bit VADD.f32 vd, vd, va (R75). -/
  | vaddF32Cv (d : BitVec 4) (a : BitVec 4)
  /-- 16-bit VSUB.f32 vd, vd, va (R75). -/
  | vsubF32Cv (d : BitVec 4) (a : BitVec 4)
  /-- 16-bit VMUL.f32 vd, vd, va (R75). -/
  | vmulF32Cv (d : BitVec 4) (a : BitVec 4)
  /-- 16-bit VMAX.f32 vd, vd, va (R75). -/
  | vmaxF32Cv (d : BitVec 4) (a : BitVec 4)
  /-- 16-bit VMIN.f32 vd, vd, va (R75). -/
  | vminF32Cv (d : BitVec 4) (a : BitVec 4)
  /-- 16-bit VAND vd, vd, va (R75). -/
  | vandCv (d : BitVec 4) (a : BitVec 4)
  /-- 16-bit VXOR vd, vd, va (R75). -/
  | vxorCv (d : BitVec 4) (a : BitVec 4)
  /-- 16-bit VNOT vd, va (R75). -/
  | vnotCv (d : BitVec 4) (a : BitVec 4)
  /-- Loads 1 to 8 bytes at g[a] + offset, sign-extended (R144). -/
  | ld (d : BitVec 5) (a : BitVec 5) (o : BitVec 2) (s : BitVec 3) (i : BitVec 5) (w : BitVec 2)
  /-- Load at g[a] + g[b] (R144). -/
  | ldIndex (d : BitVec 5) (a : BitVec 5) (b : BitVec 5) (o : BitVec 2) (s : BitVec 3) (w : BitVec 2)
  /-- Plain load from a named region, with its bounds checked (R139). -/
  | ldRegion (d : BitVec 5) (a : BitVec 5) (n : BitVec 4) (i : BitVec 5) (w : BitVec 2)
  /-- Stores the low bytes of g[d] at g[a] + offset (R144). -/
  | st (d : BitVec 5) (a : BitVec 5) (o : BitVec 2) (s : BitVec 3) (i : BitVec 5) (w : BitVec 2)
  /-- Store at g[a] + g[b] (R144). -/
  | stIndex (d : BitVec 5) (a : BitVec 5) (b : BitVec 5) (o : BitVec 2) (s : BitVec 3) (w : BitVec 2)
  /-- Plain store to a named region (R139). -/
  | stRegion (d : BitVec 5) (a : BitVec 5) (n : BitVec 4) (i : BitVec 5) (w : BitVec 2)
  /-- Loads 16 bytes into v[d] (R145). -/
  | ldv (d : BitVec 5) (a : BitVec 5) (o : BitVec 2) (s : BitVec 3) (i : BitVec 5)
  /-- LDV at g[a] + g[b] (R145). -/
  | ldvIndex (d : BitVec 5) (a : BitVec 5) (b : BitVec 5) (o : BitVec 2) (s : BitVec 3)
  /-- LDV from a named region (R145). -/
  | ldvRegion (d : BitVec 5) (a : BitVec 5) (n : BitVec 4) (i : BitVec 5)
  /-- Stores 16 bytes of v[d] (R145). -/
  | stv (d : BitVec 5) (a : BitVec 5) (o : BitVec 2) (s : BitVec 3) (i : BitVec 5)
  /-- STV at g[a] + g[b] (R145). -/
  | stvIndex (d : BitVec 5) (a : BitVec 5) (b : BitVec 5) (o : BitVec 2) (s : BitVec 3)
  /-- STV to a named region (R145). -/
  | stvRegion (d : BitVec 5) (a : BitVec 5) (n : BitVec 4) (i : BitVec 5)
  /-- Waits until the doubleword is full, then reads it (R147). -/
  | ldf (d : BitVec 5) (a : BitVec 5) (o : BitVec 2) (s : BitVec 3) (i : BitVec 5)
  /-- LDF at g[a] + g[b] (R147). -/
  | ldfIndex (d : BitVec 5) (a : BitVec 5) (b : BitVec 5) (o : BitVec 2) (s : BitVec 3)
  /-- Stores a doubleword and sets it full (R147). -/
  | stf (d : BitVec 5) (a : BitVec 5) (o : BitVec 2) (s : BitVec 3) (i : BitVec 5)
  /-- STF at g[a] + g[b] (R147). -/
  | stfIndex (d : BitVec 5) (a : BitVec 5) (b : BitVec 5) (o : BitVec 2) (s : BitVec 3)
  /-- Stores a doubleword and sets it empty (R147). -/
  | ste (d : BitVec 5) (a : BitVec 5) (o : BitVec 2) (s : BitVec 3) (i : BitVec 5)
  /-- STE at g[a] + g[b] (R147). -/
  | steIndex (d : BitVec 5) (a : BitVec 5) (b : BitVec 5) (o : BitVec 2) (s : BitVec 3)
  /-- Atomic add; returns the old value (R149). -/
  | aadd (d : BitVec 5) (a : BitVec 5) (b : BitVec 5) (o : BitVec 2) (s : BitVec 3) (w : BitVec 1)
  /-- Atomic AND (R149). -/
  | aand (d : BitVec 5) (a : BitVec 5) (b : BitVec 5) (o : BitVec 2) (s : BitVec 3) (w : BitVec 1)
  /-- Atomic OR (R149). -/
  | aor (d : BitVec 5) (a : BitVec 5) (b : BitVec 5) (o : BitVec 2) (s : BitVec 3) (w : BitVec 1)
  /-- Atomic XOR (R149). -/
  | axor (d : BitVec 5) (a : BitVec 5) (b : BitVec 5) (o : BitVec 2) (s : BitVec 3) (w : BitVec 1)
  /-- Atomic signed minimum (R149). -/
  | amin (d : BitVec 5) (a : BitVec 5) (b : BitVec 5) (o : BitVec 2) (s : BitVec 3) (w : BitVec 1)
  /-- Atomic signed maximum (R149). -/
  | amax (d : BitVec 5) (a : BitVec 5) (b : BitVec 5) (o : BitVec 2) (s : BitVec 3) (w : BitVec 1)
  /-- Atomic unsigned minimum (R149). -/
  | aminn (d : BitVec 5) (a : BitVec 5) (b : BitVec 5) (o : BitVec 2) (s : BitVec 3) (w : BitVec 1)
  /-- Atomic unsigned maximum (R149). -/
  | amaxn (d : BitVec 5) (a : BitVec 5) (b : BitVec 5) (o : BitVec 2) (s : BitVec 3) (w : BitVec 1)
  /-- Atomic swap (R149). -/
  | aswp (d : BitVec 5) (a : BitVec 5) (b : BitVec 5) (o : BitVec 2) (s : BitVec 3) (w : BitVec 1)
  /-- Atomic compare-and-swap against g[d] (R150). -/
  | acas (d : BitVec 5) (a : BitVec 5) (b : BitVec 5) (o : BitVec 2) (s : BitVec 3) (w : BitVec 1)
  /-- Atomic floating-point add with RNE, raising no flag (R151). -/
  | afadd (d : BitVec 5) (a : BitVec 5) (b : BitVec 5) (o : BitVec 2) (s : BitVec 3) (w : BitVec 1)
  /-- Decrements a continuation counter and sends its message when the counter reaches zero (R153). -/
  | adf (d : BitVec 5) (a : BitVec 5) (b : BitVec 5) (o : BitVec 2) (s : BitVec 3) (w : BitVec 1)
  /-- Acquire, release or full fence at a scope (R156). -/
  | fence (o : BitVec 2) (s : BitVec 3)
  /-- Makes the two DRAM windows agree over a range, then acts as a full fence (R157). -/
  | aliasf (a : BitVec 5) (b : BitVec 5)
  /-- Drains stores to core scope and discards fetched instructions and the L1I (R158). -/
  | ifence
  /-- Prefetches a line into the L1D or the Hearth, optionally with write intent (R159). -/
  | pfx (a : BitVec 5) (i : BitVec 5) (w : BitVec 1) (l : BitVec 2)
  /-- Return-free add at the home slice or the bank (R160). -/
  | nmadd (a : BitVec 5) (b : BitVec 5) (t : BitVec 5)
  /-- Return-free min, max, and, or or xor at the bank side (R160). -/
  | nmred (a : BitVec 5) (b : BitVec 5) (o : BitVec 3) (t : BitVec 2)
  /-- Waits until the context's earlier NM operations are performed and reflected (R160). -/
  | nmfence
  /-- Floating-point add, rounded once (R116). -/
  | fadd (d : BitVec 5) (a : BitVec 5) (b : BitVec 5) (r : BitVec 3) (p : BitVec 1)
  /-- Floating-point subtract (R116). -/
  | fsub (d : BitVec 5) (a : BitVec 5) (b : BitVec 5) (r : BitVec 3) (p : BitVec 1)
  /-- Floating-point multiply (R116). -/
  | fmul (d : BitVec 5) (a : BitVec 5) (b : BitVec 5) (r : BitVec 3) (p : BitVec 1)
  /-- Floating-point divide (R116). -/
  | fdiv (d : BitVec 5) (a : BitVec 5) (b : BitVec 5) (r : BitVec 3) (p : BitVec 1)
  /-- Floating-point square root (R116). -/
  | fsqrt (d : BitVec 5) (a : BitVec 5) (r : BitVec 3) (p : BitVec 1)
  /-- Fused a × b + d with one rounding (R117). -/
  | ffma (d : BitVec 5) (a : BitVec 5) (b : BitVec 5) (r : BitVec 3) (p : BitVec 1)
  /-- Fused a × b − d (R117). -/
  | ffms (d : BitVec 5) (a : BitVec 5) (b : BitVec 5) (r : BitVec 3) (p : BitVec 1)
  /-- Fused −(a × b) + d (R117). -/
  | ffnma (d : BitVec 5) (a : BitVec 5) (b : BitVec 5) (r : BitVec 3) (p : BitVec 1)
  /-- Floating-point minimum (R118). -/
  | fmin (d : BitVec 5) (a : BitVec 5) (b : BitVec 5) (p : BitVec 1)
  /-- Floating-point maximum (R118). -/
  | fmax (d : BitVec 5) (a : BitVec 5) (b : BitVec 5) (p : BitVec 1)
  /-- Writes all ones to g[d] when equal (R118). -/
  | feq (d : BitVec 5) (a : BitVec 5) (b : BitVec 5) (p : BitVec 1)
  /-- Writes all ones to g[d] when less (R118). -/
  | flt (d : BitVec 5) (a : BitVec 5) (b : BitVec 5) (p : BitVec 1)
  /-- Writes all ones to g[d] when less or equal (R118). -/
  | fle (d : BitVec 5) (a : BitVec 5) (b : BitVec 5) (p : BitVec 1)
  /-- Writes the class word of f[a] to g[d] (R118). -/
  | fclass (d : BitVec 5) (a : BitVec 5) (p : BitVec 1)
  /-- Takes the sign of f[b] (R119). -/
  | fsgnj (d : BitVec 5) (a : BitVec 5) (b : BitVec 5) (p : BitVec 1)
  /-- Takes the inverted sign of f[b] (R119). -/
  | fsgnjn (d : BitVec 5) (a : BitVec 5) (b : BitVec 5) (p : BitVec 1)
  /-- Takes the XOR of the two signs (R119). -/
  | fsgnjx (d : BitVec 5) (a : BitVec 5) (b : BitVec 5) (p : BitVec 1)
  /-- Converts between the floating-point and integer types of R67 (R122). -/
  | fcvt (d : BitVec 5) (a : BitVec 5) (r : BitVec 3) (s : BitVec 4) (t : BitVec 4)
  /-- Copies f[a] to g[d] (R120). -/
  | fmvg (d : BitVec 5) (a : BitVec 5)
  /-- Copies g[a] to f[d] (R120). -/
  | fmvf (d : BitVec 5) (a : BitVec 5)
  /-- Bit-exact reciprocal estimate (R123). -/
  | frcpa (d : BitVec 5) (a : BitVec 5) (p : BitVec 1)
  /-- Bit-exact reciprocal square-root estimate (R124). -/
  | frsqa (d : BitVec 5) (a : BitVec 5) (p : BitVec 1)
  /-- One Newton step for the reciprocal (R125). -/
  | frcpr (d : BitVec 5) (a : BitVec 5) (b : BitVec 5) (r : BitVec 3) (p : BitVec 1)
  /-- One Newton step for the reciprocal square root (R125). -/
  | frsqr (d : BitVec 5) (a : BitVec 5) (b : BitVec 5) (r : BitVec 3) (p : BitVec 1)
  /-- Lane-wise add (R127). -/
  | vadd (d : BitVec 4) (a : BitVec 4) (b : BitVec 4) (c : BitVec 4) (t : BitVec 3)
  /-- Lane-wise subtract (R127). -/
  | vsub (d : BitVec 4) (a : BitVec 4) (b : BitVec 4) (c : BitVec 4) (t : BitVec 3)
  /-- Lane-wise multiply (R127). -/
  | vmul (d : BitVec 4) (a : BitVec 4) (b : BitVec 4) (c : BitVec 4) (t : BitVec 3)
  /-- Lane-wise va × vb + vc (R127). -/
  | vfma (d : BitVec 4) (a : BitVec 4) (b : BitVec 4) (c : BitVec 4) (t : BitVec 3)
  /-- Lane-wise minimum (R127). -/
  | vmin (d : BitVec 4) (a : BitVec 4) (b : BitVec 4) (c : BitVec 4) (t : BitVec 3)
  /-- Lane-wise maximum (R127). -/
  | vmax (d : BitVec 4) (a : BitVec 4) (b : BitVec 4) (c : BitVec 4) (t : BitVec 3)
  /-- Lane-wise absolute value (R127). -/
  | vabs (d : BitVec 4) (a : BitVec 4) (c : BitVec 4) (t : BitVec 3)
  /-- Lane-wise absolute difference (R127). -/
  | vabsd (d : BitVec 4) (a : BitVec 4) (b : BitVec 4) (c : BitVec 4) (t : BitVec 3)
  /-- Lane-wise negation (R127). -/
  | vneg (d : BitVec 4) (a : BitVec 4) (c : BitVec 4) (t : BitVec 3)
  /-- Dot products accumulated into the 32-bit lanes of vd (R128). -/
  | vdot (d : BitVec 4) (a : BitVec 4) (b : BitVec 4) (t : BitVec 3)
  /-- Bitwise AND over 128 bits (R127). -/
  | vand (d : BitVec 4) (a : BitVec 4) (b : BitVec 4)
  /-- Bitwise OR over 128 bits (R127). -/
  | vor (d : BitVec 4) (a : BitVec 4) (b : BitVec 4)
  /-- Bitwise XOR over 128 bits (R127). -/
  | vxor (d : BitVec 4) (a : BitVec 4) (b : BitVec 4)
  /-- Bitwise NOT over 128 bits (R127). -/
  | vnot (d : BitVec 4) (a : BitVec 4)
  /-- Lane-wise shift left (R127). -/
  | vshl (d : BitVec 4) (a : BitVec 4) (b : BitVec 4) (t : BitVec 3)
  /-- Lane-wise logical shift right (R127). -/
  | vshr (d : BitVec 4) (a : BitVec 4) (b : BitVec 4) (t : BitVec 3)
  /-- Lane-wise arithmetic shift right (R127). -/
  | vsra (d : BitVec 4) (a : BitVec 4) (b : BitVec 4) (t : BitVec 3)
  /-- Lane-wise compare for equality into a mask (R127). -/
  | vcmpeq (d : BitVec 4) (a : BitVec 4) (b : BitVec 4) (t : BitVec 3)
  /-- Lane-wise less-than mask (R127). -/
  | vcmplt (d : BitVec 4) (a : BitVec 4) (b : BitVec 4) (c : BitVec 4) (t : BitVec 3)
  /-- Lane-wise less-or-equal mask (R127). -/
  | vcmple (d : BitVec 4) (a : BitVec 4) (b : BitVec 4) (c : BitVec 4) (t : BitVec 3)
  /-- Lane-wise selection by the mask in vc (R127). -/
  | vsel (d : BitVec 4) (a : BitVec 4) (b : BitVec 4) (c : BitVec 4) (t : BitVec 3)
  /-- Byte permute from va:vb by vc (R129). -/
  | vperm (d : BitVec 4) (a : BitVec 4) (b : BitVec 4) (c : BitVec 4)
  /-- Broadcasts g[vb] to every lane (R129). -/
  | vbcast (d : BitVec 4) (b : BitVec 4) (t : BitVec 3)
  /-- Inserts g[vb] into lane vc (R129). -/
  | vins (d : BitVec 4) (b : BitVec 4) (c : BitVec 4) (t : BitVec 3)
  /-- Extracts lane vc into g[vd] (R129). -/
  | vext (d : BitVec 4) (a : BitVec 4) (c : BitVec 4) (t : BitVec 3)
  /-- Pairwise-tree sum reduction into lane 0 (R130). -/
  | vredadd (d : BitVec 4) (a : BitVec 4) (t : BitVec 3)
  /-- Minimum reduction into lane 0 (R130). -/
  | vredmin (d : BitVec 4) (a : BitVec 4) (c : BitVec 4) (t : BitVec 3)
  /-- Maximum reduction into lane 0 (R130). -/
  | vredmax (d : BitVec 4) (a : BitVec 4) (c : BitVec 4) (t : BitVec 3)
  /-- Converts packed elements between the type codes in vb and vc (R131). -/
  | vcvt (d : BitVec 4) (a : BitVec 4) (b : BitVec 4) (c : BitVec 4) (r : BitVec 3)
  /-- Narrows the lanes of va and vb by half (R132). -/
  | vpack (d : BitVec 4) (a : BitVec 4) (b : BitVec 4) (c : BitVec 4) (t : BitVec 3)
  /-- Widens half-width elements to full lanes (R132). -/
  | vunpk (d : BitVec 4) (a : BitVec 4) (c : BitVec 4) (t : BitVec 3)
  /-- Zeroes lanes below the activation threshold and accumulates the dropped magnitudes and count (R133). -/
  | vthr (d : BitVec 4) (a : BitVec 4) (t : BitVec 3)
  /-- Lane-wise reciprocal estimate (R134). -/
  | vrcpa (d : BitVec 4) (a : BitVec 4) (t : BitVec 3)
  /-- Lane-wise reciprocal square-root estimate (R134). -/
  | vrsqa (d : BitVec 4) (a : BitVec 4) (t : BitVec 3)
  /-- Builds a message from a descriptor and six payload registers and queues or spills it (R167). -/
  | send (d : BitVec 5) (a : BitVec 5) (b : BitVec 5)
  /-- Sends the 64-byte record at g[a] (R170). -/
  | sendr (d : BitVec 5) (a : BitVec 5)
  /-- Pushes a task onto the core's deque (R172). -/
  | fork (a : BitVec 5) (b : BitVec 5)
  /-- Merges a status word into the core's done record (R173). -/
  | done (a : BitVec 5)
  /-- Binds, unbinds or drain-binds an entry of the core's class table (R174). -/
  | clsbind (d : BitVec 5) (a : BitVec 5) (b : BitVec 5)
  /-- Sends v[a] to a neighbour's inbound queue register, consuming window credit (R176). -/
  | nsend (a : BitVec 5) (m : BitVec 2)
  /-- Sets the four send windows (R177). -/
  | winset (a : BitVec 5)
  /-- Binds or unbinds a queue register to a g or v register (R178). -/
  | qcfg (a : BitVec 5)
  /-- Puts a register into stream mode over a tensor-map pattern (R180). -/
  | strm (d : BitVec 5) (a : BitVec 5) (b : BitVec 5) (k : BitVec 1)
  /-- Ends stream mode and discards prefetched entries (R181). -/
  | strmoff (d : BitVec 5) (k : BitVec 1)
  /-- Sets the staggers and starts recording the repetition buffer (R182). -/
  | repb (d : BitVec 5) (a : BitVec 5) (b : BitVec 5)
  /-- Ends recording (R182). -/
  | repe
  /-- Replays the buffer n times with staggered registers in the vector stream (R183). -/
  | repgo (a : BitVec 5)
  /-- Loads and checks a tensor map into tm[d] (R185). -/
  | tmld (d : BitVec 5) (a : BitVec 5) (i : BitVec 11)
  /-- Scaled e4m3 by e4m3 matrix accumulate (R198). -/
  | mmaE4m3E4m3 (a : BitVec 4) (b : BitVec 4) (fF : BitVec 5) (g : BitVec 1) (t : BitVec 1)
  /-- Scaled e4m3 by e5m2 matrix accumulate (R198). -/
  | mmaE4m3E5m2 (a : BitVec 4) (b : BitVec 4) (fF : BitVec 5) (g : BitVec 1) (t : BitVec 1)
  /-- Scaled e5m2 by e4m3 matrix accumulate (R198). -/
  | mmaE5m2E4m3 (a : BitVec 4) (b : BitVec 4) (fF : BitVec 5) (g : BitVec 1) (t : BitVec 1)
  /-- Scaled e5m2 by e5m2 matrix accumulate (R198). -/
  | mmaE5m2E5m2 (a : BitVec 4) (b : BitVec 4) (fF : BitVec 5) (g : BitVec 1) (t : BitVec 1)
  /-- Scaled FP4 matrix accumulate with K 512 (R198). -/
  | mmaE2m1E2m1 (a : BitVec 4) (b : BitVec 4) (fF : BitVec 5) (g : BitVec 1) (t : BitVec 1)
  /-- Scaled e2m1 by e4m3 matrix accumulate (R198). -/
  | mmaE2m1E4m3 (a : BitVec 4) (b : BitVec 4) (fF : BitVec 5) (g : BitVec 1) (t : BitVec 1)
  /-- Scaled ec8 by ec8 matrix accumulate, decoding at operand entry (R198). -/
  | mmaEc8Ec8 (a : BitVec 4) (b : BitVec 4) (fF : BitVec 5) (g : BitVec 1) (t : BitVec 1)
  /-- Scaled ec8 by e4m3 matrix accumulate (R198). -/
  | mmaEc8E4m3 (a : BitVec 4) (b : BitVec 4) (fF : BitVec 5) (g : BitVec 1) (t : BitVec 1)
  /-- bf16 matrix accumulate into f32 (R198). -/
  | mmaBf16Bf16 (a : BitVec 4) (b : BitVec 4) (t : BitVec 1)
  /-- f16 matrix accumulate into f32 (R198). -/
  | mmaF16F16 (a : BitVec 4) (b : BitVec 4) (t : BitVec 1)
  /-- s8 matrix accumulate into wrapping s32 (R198). -/
  | mmaS8S8 (a : BitVec 4) (b : BitVec 4) (t : BitVec 1)
  /-- s4 by s8 matrix accumulate into s32 (R198). -/
  | mmaS4S8 (a : BitVec 4) (b : BitVec 4) (t : BitVec 1)
  /-- bf16 by s4 matrix accumulate into f32 (R198). -/
  | mmaBf16S4 (a : BitVec 4) (b : BitVec 4) (t : BitVec 1)
  /-- Paired-filter sparse e4m3 matrix accumulate with scales (R199). -/
  | mmapE4m3 (a : BitVec 4) (b : BitVec 4) (fF : BitVec 5) (t : BitVec 1)
  /-- Paired-filter sparse bf16 matrix accumulate (R199). -/
  | mmapBf16 (a : BitVec 4) (b : BitVec 4) (t : BitVec 1)
  /-- Accumulates L1 distances over bf16 data (R201). -/
  | distL1Bf16 (a : BitVec 4) (b : BitVec 4) (t : BitVec 1)
  /-- Accumulates L1 distances over e4m3 data (R201). -/
  | distL1E4m3 (a : BitVec 4) (b : BitVec 4) (t : BitVec 1)
  /-- Accumulates L1 distances over s8 data (R201). -/
  | distL1S8 (a : BitVec 4) (b : BitVec 4) (t : BitVec 1)
  /-- Accumulates squared distances over bf16 data (R201). -/
  | distL2Bf16 (a : BitVec 4) (b : BitVec 4) (t : BitVec 1)
  /-- Accumulates squared distances over e4m3 data (R201). -/
  | distL2E4m3 (a : BitVec 4) (b : BitVec 4) (t : BitVec 1)
  /-- Accumulates squared distances over s8 data (R201). -/
  | distL2S8 (a : BitVec 4) (b : BitVec 4) (t : BitVec 1)
  /-- Merges each row's distances into a best-k list in the other tile and zeroes the tile (R202). -/
  | adrain (h : BitVec 1) (k : BitVec 3) (n : BitVec 1) (t : BitVec 1)
  /-- Adds queries into the centroid sums of their best indices (R203). -/
  | cupd (d : BitVec 5) (a : BitVec 4) (y : BitVec 2) (t : BitVec 1)
  /-- Waits until no command owns the tile(s) and returns the next sequence number (R206). -/
  | async (d : BitVec 5) (l : BitVec 1) (t : BitVec 1)
  /-- Configures a ring once it is idle, resetting its positions (R190). -/
  | ringcfgSet (d : BitVec 5) (r : BitVec 3)
  /-- Adds ready tiles to a ring as a forge-scope release (R191). -/
  | ringcfgPush (d : BitVec 5) (r : BitVec 3)
  /-- Unconfigures a ring once it is idle (R190). -/
  | ringcfgReset (r : BitVec 3)
  /-- Returns free slots and unread tiles as a forge-scope acquire (R191). -/
  | ringcfgQuery (d : BitVec 5) (r : BitVec 3)
  /-- Zeroes an accumulator tile (R205). -/
  | accz (t : BitVec 1)
  /-- Stores an accumulator tile to memory (R205). -/
  | accrd (d : BitVec 5) (t : BitVec 1)
  /-- Loads an accumulator tile from memory (R205). -/
  | accwr (d : BitVec 5) (t : BitVec 1)
  /-- Scales an accumulator tile by f[F] (R205). -/
  | accsc (fF : BitVec 5) (s : BitVec 1) (t : BitVec 1)
  /-- Copies and converts the elements of map SM into map DM (R215). -/
  | cpy (d : BitVec 5) (a : BitVec 5) (b : BitVec 5)
  /-- Gathers KV tokens through a block table, widens them to bf16 and fills ring tiles (R218). -/
  | cpykv (d : BitVec 5) (a : BitVec 5) (b : BitVec 5)
  /-- Appends a token to a paged KV sequence, popping and copying a block when needed (R219). -/
  | kvapp (d : BitVec 5) (a : BitVec 5) (b : BitVec 5)
  /-- Gathers indexed rows and adds the row count to a counter word (R220). -/
  | get (d : BitVec 5) (a : BitVec 5) (b : BitVec 5)
  /-- Scatters rows to indexed rows and adds the row count to a counter word (R220). -/
  | put (d : BitVec 5) (a : BitVec 5) (b : BitVec 5)
  /-- Sends border strips to neighbours and counts each one in their cr.mbx (R221). -/
  | halo (d : BitVec 5) (a : BitVec 5) (b : BitVec 5)
  /-- Cancels a transfer of this context when it can (R222). -/
  | cpycan (d : BitVec 5) (a : BitVec 5)
  /-- Writes dirty lines of a range back home (R227). -/
  | flushr (d : BitVec 5) (a : BitVec 5) (b : BitVec 5)
  /-- Writes back and drops every package copy of the lines of a range (R227). -/
  | invr (d : BitVec 5) (a : BitVec 5) (b : BitVec 5)
  /-- Requests conversion of Hearth ways into compute lanes for the context (R223). -/
  | waygive (d : BitVec 5) (a : BitVec 5)
  /-- Returns the context's granted ways to cache once earlier work is done (R224). -/
  | waytake (d : BitVec 5)
  /-- Runs a bank-engine microprogram over DRAM rows (R226). -/
  | rowop (d : BitVec 5) (a : BitVec 5)
  /-- Bit-serial add over the lanes of a range (R225). -/
  | bsopAdd (a : BitVec 5) (b : BitVec 5) (n : BitVec 5) (s : BitVec 1)
  /-- Bit-serial subtract (R225). -/
  | bsopSub (a : BitVec 5) (b : BitVec 5) (n : BitVec 5) (s : BitVec 1)
  /-- Bit-serial AND (R225). -/
  | bsopAnd (a : BitVec 5) (b : BitVec 5) (n : BitVec 5)
  /-- Bit-serial OR (R225). -/
  | bsopOr (a : BitVec 5) (b : BitVec 5) (n : BitVec 5)
  /-- Bit-serial XOR (R225). -/
  | bsopXor (a : BitVec 5) (b : BitVec 5) (n : BitVec 5)
  /-- Bit-serial NOT (R225). -/
  | bsopNot (a : BitVec 5) (b : BitVec 5) (n : BitVec 5)
  /-- Bit-serial equality compare into one row (R225). -/
  | bsopCmpeq (a : BitVec 5) (b : BitVec 5) (n : BitVec 5) (s : BitVec 1)
  /-- Bit-serial less-than compare (R225). -/
  | bsopCmplt (a : BitVec 5) (b : BitVec 5) (n : BitVec 5) (s : BitVec 1)
  /-- Bit-serial less-or-equal compare (R225). -/
  | bsopCmple (a : BitVec 5) (b : BitVec 5) (n : BitVec 5) (s : BitVec 1)
  /-- Bit-serial select by row C (R225). -/
  | bsopSel (a : BitVec 5) (b : BitVec 5) (n : BitVec 5) (s : BitVec 1)
  /-- Bit-serial shift by C (R225). -/
  | bsopShr (a : BitVec 5) (b : BitVec 5) (n : BitVec 5) (s : BitVec 1)
  /-- Bit-serial popcount-accumulate into 16 rows (R225). -/
  | bsopPopc (a : BitVec 5) (b : BitVec 5) (n : BitVec 5) (s : BitVec 1)
  /-- Bit-serial minimum (R225). -/
  | bsopMin (a : BitVec 5) (b : BitVec 5) (n : BitVec 5) (s : BitVec 1)
  /-- Bit-serial maximum (R225). -/
  | bsopMax (a : BitVec 5) (b : BitVec 5) (n : BitVec 5) (s : BitVec 1)
  /-- Bit-serial multiply mod 2^n (R225). -/
  | bsopMul (a : BitVec 5) (b : BitVec 5) (n : BitVec 5) (s : BitVec 1)
  /-- Configures or releases a heap handle (R233). -/
  | egcfg (d : BitVec 5) (a : BitVec 5) (h : BitVec 2)
  /-- Inserts a term into the heap, returning its class id (R235). -/
  | egins (d : BitVec 5) (a : BitVec 5) (b : BitVec 5) (h : BitVec 2)
  /-- Returns the canonical root of an id (R236). -/
  | egfind (d : BitVec 5) (a : BitVec 5) (h : BitVec 2)
  /-- Unions two classes and spreads congruence (R237). -/
  | egmrg (d : BitVec 5) (a : BitVec 5) (b : BitVec 5) (h : BitVec 2)
  /-- Matches a pattern over an id range and sends binding messages (R242). -/
  | egmatch (d : BitVec 5) (a : BitVec 5) (b : BitVec 5) (h : BitVec 2)
  /-- Reads one node into three registers (R238). -/
  | egnode (d : BitVec 5) (a : BitVec 5) (h : BitVec 2)
  /-- Lists the nodes of a class into a buffer (R239). -/
  | egenum (d : BitVec 5) (a : BitVec 5) (b : BitVec 5) (h : BitVec 2)
  /-- Loads or unloads the handle's ranking unit (R244). -/
  | egrank (d : BitVec 5) (a : BitVec 5) (h : BitVec 2)
  /-- Returns one heap statistic (R240). -/
  | egstat (d : BitVec 5) (a : BitVec 5) (h : BitVec 2)
  /-- Reads a control register (R247). -/
  | csrrd (d : BitVec 5) (c : BitVec 11)
  /-- Writes a control register and returns the old value (R247). -/
  | csrwr (d : BitVec 5) (a : BitVec 5) (c : BitVec 11)
  /-- Sets bits of a control register (R247). -/
  | csrset (d : BitVec 5) (a : BitVec 5) (c : BitVec 11)
  /-- Clears bits of a control register (R247). -/
  | csrclr (d : BitVec 5) (a : BitVec 5) (c : BitVec 11)
  /-- Returns from a trap to cr.epc with the saved privilege, resuming a replay if flagged (R249). -/
  | eret
  /-- Broadcasts a translation shootdown after a package-scope release (R250). -/
  | tlbsd (d : BitVec 5) (a : BitVec 5)
  /-- Drops the core's private TLB entries (R251). -/
  | tlbinv (a : BitVec 5)
  /-- Removes the head of the supervisor queue into memory (R252). -/
  | suprd (d : BitVec 5) (a : BitVec 5)
  /-- Forms, dissolves or rekeys a partition (R253). -/
  | partset (d : BitVec 5) (a : BitVec 5)
  /-- A buffered store obtains its line's write token in state X and is performed (R289). -/
  | storePerform (core : CoreId) (ctx : CtxId) (k : Nat)
  /-- The locality monitor performs an NM operation at the slice or hands it to the bank engine (R286). -/
  | nmPerform (core : CoreId) (ctx : CtxId) (k : Nat) (hot : Bool)
  /-- The bank engine completes a read-modify-write and the home clears bank-pending (R286). -/
  | bankEngineAck (k : Nat)
  /-- A line moves to another slice of its home die after four requests from one target (R283). -/
  | lineMigrate (line : Nat) (target : BitVec 7)
  /-- A memory controller performs a sorted request within 512 fast cycles (R285). -/
  | memoryRequestPerform (k : Nat)
  /-- The remote home acknowledges a write passed through the proxy slice, clearing pending (R292). -/
  | remoteWriteAck (line : Nat)
  /-- A message from the mesh is capability-checked and enters the inbox, held or ready (R258). -/
  | messageArrival (k : Nat)
  /-- A class-7 RETRY restores pc and privilege and makes the HELD context READY (R268). -/
  | heldContextRetry (core : CoreId)
  /-- A class-7 ENTER sets pc and supervisor privilege and makes the context READY (R268). -/
  | heldContextEnter (core : CoreId)
  /-- A class-7 TERMINATE merges g2 into the done record and ends the task (R268). -/
  | heldContextTerminate (core : CoreId)
  /-- A queued message leaves the send queue when its virtual network holds credit (R168). -/
  | sendqTransmit (core : CoreId) (ctx : CtxId) (vnet : BitVec 2)
  /-- A posted write refused by an absent endpoint is dropped and reported by a KIND 01 notice (R163). -/
  | postedWriteRefused (core : CoreId) (ctx : CtxId) (k : Nat)
  /-- A neighbour vector lands in the inbound queue register one cycle later (R176). -/
  | nsendArrival (k : Nat)
  /-- A popped vector returns a credit to the sender's window counter (R177). -/
  | nsendCreditReturn (k : Nat)
  /-- The copy unit fills a stream's queue with the next element (R180). -/
  | streamFill (core : CoreId) (ctx : CtxId) (q : BitVec 2)
  /-- When the issuing context leaves, the core chooses the next context or new task after the issue delay (R255). -/
  | contextSelect (core : CoreId)
  /-- A wait exceeding cr.parkt cycles parks the context (R266). -/
  | parkTimeout (core : CoreId) (ctx : CtxId)
  /-- The awaited event makes a PARKED context READY (R266). -/
  | parkedWake (core : CoreId) (ctx : CtxId)
  /-- A ready message's effective priority rises by one every 4,096 cycles (R263). -/
  | runQueueAging (core : CoreId) (k : Nat)
  /-- An idle core sends a steal request to a random victim after its back-off (R271). -/
  | stealAttempt (core : CoreId)
  /-- The victim's done unit hands over its oldest deque entry or answers empty (R271). -/
  | stealRequest (k : Nat)
  /-- A quiescent core whose children have reported sends its class-3 report to its parent (R273). -/
  | doneWaveReport (core : CoreId)
  /-- The arbiter starts a startable command, binding its tiles and advancing RD (R195). -/
  | anvilCmdStart (forge : ForgeId)
  /-- A command retires, merging flags and freeing ring slots (R196). -/
  | anvilCmdRetire (core : CoreId)
  /-- An engine starts a queued transfer, reading its parameter block (R212). -/
  | transferStart (k : Nat)
  /-- CPYKV writes one tile into a ring slot and advances TAIL, waiting for a free slot (R218). -/
  | cpykvTileFill (k : Nat)
  /-- A transfer finishes its writes, replays fix-ups, writes STATUS and sends class 4 (R213). -/
  | transferComplete (k : Nat)
  /-- A ring makes engines re-read fix-up states, replaying resolved pages or abandoning them (R366). -/
  | fixbellRing (die : BitVec 2)
  /-- A queued BSOP is performed after the earlier compute-way transfers of its context (R225). -/
  | bsopPerform (core : CoreId) (ctx : CtxId)
  /-- The ways are written back and owned, or refused, and the completion word is set full (R223). -/
  | waygiveConversionComplete (core : CoreId) (ctx : CtxId)
  /-- The grant's ways return to cache and the completion word is set full (R224). -/
  | waytakeComplete (core : CoreId) (ctx : CtxId)
  /-- FLUSHR or INVR completes and writes the line count full (R227). -/
  | rangeMaintenanceComplete (k : Nat)
  /-- The last acknowledgement arrives and the TLBSD completion word is written full (R250). -/
  | shootdownComplete (k : Nat)
  /-- The partition change completes and its code is written full (R253). -/
  | partsetComplete (k : Nat)
  /-- A union publishes PARENT at the absorbed root's home and merges its lists (R316). -/
  | unionStep (heap : Nat) (k : Nat)
  /-- A parent node is re-signed, possibly marking it STALE and enqueuing a union (R317). -/
  | resign (heap : Nat) (k : Nat)
  /-- When no tagged work remains, the EGMRG completion word is written (R318). -/
  | mergeComplete (heap : Nat) (k : Nat)
  /-- A Welt engine sends one binding message, ranked by the ranking unit (R243). -/
  | bindingSend (heap : Nat)
  /-- A Welt engine writes a heap result word or register result (R231). -/
  | heapOpComplete (heap : Nat) (k : Nat)
  /-- A write of LQTAIL rings the launch queue's doorbell (R344). -/
  | lqtailDoorbell (q : BitVec 10) (v : Word)
  /-- The launch unit copies the next descriptor and checks it, posting a rejection if bad (R344). -/
  | launchCopy (q : BitVec 10)
  /-- The launch unit starts the first eligible launch of a free partition (R348). -/
  | launchStart (part : BitVec 6)
  /-- The completion record is posted, DONEW written and the partition released (R349). -/
  | launchCompletionPost (k : Nat)
  /-- The host's consumption of records frees room for a waiting completion record (R349). -/
  | cqheadWrite (q : BitVec 10) (v : Word)
  /-- Cores of the resident launch stop issue within 350 cycles (R350). -/
  | preemptHalt (part : BitVec 6)
  /-- After the drain ends, the switch engine saves the launch state (R350). -/
  | preemptSave (part : BitVec 6)
  /-- A saved launch is restored, its ways regranted and held traffic released (R352). -/
  | launchResume (part : BitVec 6)
  /-- A write of FRGROLE is checked whole and then changes bank roles (R279). -/
  | frgroleWrite (forge : ForgeId) (v : Word) (by_ : Writer)
  /-- A zeroing request for a frame is accepted or ignored (R368). -/
  | fzreqWrite (die : BitVec 2) (v : Word) (by_ : Writer)
  /-- The controllers finish zeroing a frame and FZDONE increments (R369). -/
  | frameZeroingComplete (die : BitVec 2)
  /-- DIECTL fence command fences a die (R403). -/
  | diectlFence (die : BitVec 2)
  /-- DIECTL warm reset fences the die, keeps DRAM in self-refresh and reruns the start steps (R403). -/
  | diectlWarmReset (die : BitVec 2)
  /-- DIECTL cold reset fences the die, loses its DRAM and reruns the start steps (R403). -/
  | diectlColdReset (die : BitVec 2)
  /-- DIECTL rejoin rejoins a healthy fenced die (R403). -/
  | diectlRejoin (die : BitVec 2)
  /-- A write with TRIGSET fires freeze trigger 3 (R406). -/
  | bbctlTrigset (v : Word)
  /-- Writing 1 to FROZEN resumes recording (R406). -/
  | bbctlFrozenClear (v : Word)
  /-- A write to +0x1020 requests a signed attestation report over the nonce (R409). -/
  | attestRequest (v : Word)
  /-- The island writes the report and sets the ready bit (R409). -/
  | attestReportReady
  /-- A write to a device register without its own row, ignored whole when out of limits (R344). -/
  | registerWrite (off : BitVec 48) (v : Word) (by_ : Writer)
  /-- A die sends the island a heartbeat every 10 µs (R401). -/
  | dieHeartbeat (die : BitVec 2)
  /-- No heartbeat for 1 ms makes the island fence the die (R401). -/
  | heartbeatTimeout (die : BitVec 2)
  /-- A die runs its start steps and joins or stays fenced (R407). -/
  | dieStartSteps (die : BitVec 2) (ok : BitVec 12)
  /-- ISL_PGOOD rises and the island checks its firmware, entering ALONE (R399). -/
  | islandPowerUp (ok : Bool) (alt : Bool)
  /-- ISL_PGOOD falls and the island goes OFF (R399). -/
  | islandPowerOff
  /-- The island resets while the dies run, and its neighbours detour (R404). -/
  | islandReset
  /-- DIE_PWREN rises; the die starts, held in reset until the island is up (R397). -/
  | diePowerEnable (die : BitVec 2)
  /-- A die's power domain goes off (R397). -/
  | diePowerOff (die : BitVec 2)
  /-- PWRBRAKE_N low limits Anvil starts within 20 µs until it rises (R398). -/
  | pwrbrakeAssert
  /-- PWRBRAKE_N rising restores normal starts (R398). -/
  | pwrbrakeRelease
  /-- The 1 ms power average crossing WATTS throttles or restores the die (R398). -/
  | powerLimitThrottle (die : BitVec 2) (above : Bool)
  /-- At 115 °C the die is fenced, held in reset and drives THERMTRIP_N low (R398). -/
  | thermalTrip (die : BitVec 2)
  /-- Below 100 °C the die releases THERMTRIP_N (R398). -/
  | thermalRecover (die : BitVec 2)
  /-- A fabric flit is checked by CRC and sequence and accepted or NAKed (R380). -/
  | fabricFlitReceive (link : Link) (flit : BitVec 576)
  /-- A received NAK makes the sender replay from its buffer, downing the link after 16 replays (R380). -/
  | fabricNakReplay (link : Link) (ack : BitVec 12)
  /-- A link trains and the island learns its torus coordinates (R378). -/
  | fabricLinkUp (link : Link) (x : BitVec 4) (y : BitVec 4) (z : BitVec 5)
  /-- A downed link makes neighbours move traffic to the detour in order (R404). -/
  | fabricLinkDown (link : Link)
  /-- A fabric request unanswered for 8 ms is answered endpoint-absent (R402). -/
  | fabricRequestTimeout (k : Nat)
  /-- The island answers a request to an absent endpoint, or drops a late reply and counts ORPHCNT (R402). -/
  | endpointAbsentReply (late : Bool) (k : Nat)
  /-- A host SnpData snoop is answered after recalling the line from cores (R375). -/
  | cxlSnpdata (line : Nat)
  /-- A host SnpInv snoop invalidates the line after recall (R375). -/
  | cxlSnpinv (line : Nat)
  /-- A host SnpCur snoop returns the current line (R375). -/
  | cxlSnpcur (line : Nat)
  /-- A CXL.mem host read is served at the line's home slice (R376). -/
  | hostMemRead (h : BitVec 48)
  /-- A CXL.mem host write is performed at home after dropping cached copies (R376). -/
  | hostMemWrite (h : BitVec 48) (size : BitVec 4) (v : Word)
  /-- The controllers read and correct every DRAM word within 24 hours (R395). -/
  | dramScrub (addr : Nat)
  /-- A soft error strikes a protected structure and is corrected, poisons its word, holds the context, or fences the die as the structure's protection gives (R395). -/
  | softError (where_ : Struck) (correctable : Bool)
  /-- A die link or die boundary fails, or one mesh flit is replayed 16 times in a row, and the island fences the die (R401). -/
  | dieLinkFailure (die : BitVec 2)
  /-- An island reset ends when its firmware passes again, so the island returns to ALONE and neighbours move traffic back from the detour (R399). -/
  | islandResetComplete (ok : Bool)
  /-- A fault in island firmware fires freeze trigger 4 of the black-box record (R406). -/
  | islandFirmwareFault
  /-- The CXL host link finishes training and comes up (R399). -/
  | hostLinkTrained
  /-- The host answers a RdShared, RdOwn or ItoMWr request from a host line's home slice, granting the copy or the token (R375). -/
  | cxlCacheResponse (k : Nat)
  /-- The host responds to a BISnpInv or BISnpData, and the home clears or keeps the host bit and passes the line on (R376). -/
  | bisnpResponse (line : Nat) (keep : Bool)
  /-- ALIASF finishes writing back and invalidating every line of its range, acts as its full fence, and releases the waiting context (R157). -/
  | aliasfComplete (core : CoreId) (ctx : CtxId)
deriving DecidableEq, Repr

end Sys2Proof
end

