-- ==== Sys2Proof/WellFormed.lean ====
section
/-! DEFINITION. Which operand fields an encoded instruction may hold (R71 to R88, R115, R121, R126 to R134, R140,
R155, R165, R188, R209, R229). An instruction whose fields break these is a reserved encoding: the decoder refuses it
and the core takes the illegal-instruction trap (R88). Events have no encoding, so none of them is well formed. -/

namespace Sys2Proof

/-- Lane types 000 to 011 are the integer lanes (R77). -/
def intLane (t : BitVec 3) : Bool := t < 4

/-- Lane width in bits of a lane type (R77). -/
def laneBits (t : BitVec 3) : Nat :=
  if t = 0 then 8 else if t = 1 ∨ t = 6 ∨ t = 7 then 16 else if t = 2 ∨ t = 4 then 32 else 64

/-- A lane number below the lane count 128 / w (R129). -/
def laneInRange (t : BitVec 3) (c : BitVec 4) : Bool := c.toNat * laneBits t < 128

/-- Ordering and scope of a load: plain with scope field 0, or acquire with a scope below 111 (R78, R140). -/
def loadOrder (o : BitVec 2) (s : BitVec 3) : Bool := (o == 0 && s == 0) || (o == 1 && s != 7)

/-- Ordering and scope of a store: plain with scope field 0, or release with a scope below 111 (R78, R140). -/
def storeOrder (o : BitVec 2) (s : BitVec 3) : Bool := (o == 0 && s == 0) || (o == 2 && s != 7)

/-- Ordering and scope of an atomic: any order, but a plain one carries scope 000 (R140, R149). -/
def atomicOrder (o : BitVec 2) (s : BitVec 3) : Bool := (o == 0 && s == 0) || (o != 0 && s != 7)

/-- The two ring fields of an MMA, MMAP or DIST name different rings (R188). -/
def ringsDiffer (a b : BitVec 4) : Bool := a.extractLsb' 0 3 != b.extractLsb' 0 3

/-- The row has an encoding: it is an instruction, not an event. -/
def Instr.isEvent : Instr → Bool
  | .add _ _ _ _ => false
  | .sub _ _ _ _ => false
  | .mul _ _ _ _ => false
  | .mulh _ _ _ _ => false
  | .mulhn _ _ _ _ => false
  | .div _ _ _ _ => false
  | .divn _ _ _ _ => false
  | .rem _ _ _ _ => false
  | .remn _ _ _ _ => false
  | .and _ _ _ _ => false
  | .or _ _ _ _ => false
  | .xor _ _ _ _ => false
  | .andn _ _ _ _ => false
  | .shl _ _ _ _ => false
  | .shr _ _ _ _ => false
  | .sra _ _ _ _ => false
  | .rol _ _ _ _ => false
  | .ror _ _ _ _ => false
  | .min _ _ _ _ => false
  | .max _ _ _ _ => false
  | .minn _ _ _ _ => false
  | .maxn _ _ _ _ => false
  | .slt _ _ _ _ => false
  | .sltn _ _ _ _ => false
  | .seq _ _ _ _ => false
  | .clz _ _ _ => false
  | .ctz _ _ _ => false
  | .popc _ _ _ => false
  | .brev _ _ _ => false
  | .addi _ _ _ _ => false
  | .andi _ _ _ => false
  | .ori _ _ _ => false
  | .xori _ _ _ => false
  | .slti _ _ _ => false
  | .sel _ _ _ _ => false
  | .shli _ _ _ _ => false
  | .shri _ _ _ _ => false
  | .srai _ _ _ _ => false
  | .ldhi _ _ _ => false
  | .lea _ _ _ => false
  | .leaScaled _ _ _ _ => false
  | .leaRegion _ _ _ _ => false
  | .bfx _ _ _ _ => false
  | .bfxn _ _ _ _ => false
  | .bfi _ _ _ _ => false
  | .beq _ _ _ => false
  | .bne _ _ _ => false
  | .blt _ _ _ => false
  | .bge _ _ _ => false
  | .bltn _ _ _ => false
  | .bgen _ _ _ => false
  | .j _ => false
  | .jal _ _ => false
  | .jalr _ _ _ => false
  | .loop _ _ => false
  | .endTask => false
  | .trap _ => false
  | .brk _ => false
  | .addCr _ _ => false
  | .moveCr _ _ => false
  | .subCr _ _ => false
  | .andCr _ _ => false
  | .orCr _ _ => false
  | .xorCr _ _ => false
  | .shlCr _ _ => false
  | .shrCr _ _ => false
  | .sraCr _ _ => false
  | .mulCr _ _ => false
  | .jalrLinkCr _ => false
  | .jalrNolinkCr _ => false
  | .addiCi _ _ => false
  | .addiZeroCi _ _ => false
  | .shliCi _ _ => false
  | .shriCi _ _ => false
  | .sraiCi _ _ => false
  | .andiCi _ _ => false
  | .ldDCm _ _ _ => false
  | .stDCm _ _ _ => false
  | .beqCb _ _ => false
  | .bneCb _ _ => false
  | .bltCb _ _ => false
  | .bgeCb _ _ => false
  | .jCj _ => false
  | .endCt => false
  | .doneCt _ => false
  | .sendC _ _ => false
  | .vorCv _ _ => false
  | .vaddS32Cv _ _ => false
  | .vsubS32Cv _ _ => false
  | .vaddF32Cv _ _ => false
  | .vsubF32Cv _ _ => false
  | .vmulF32Cv _ _ => false
  | .vmaxF32Cv _ _ => false
  | .vminF32Cv _ _ => false
  | .vandCv _ _ => false
  | .vxorCv _ _ => false
  | .vnotCv _ _ => false
  | .ld _ _ _ _ _ _ => false
  | .ldIndex _ _ _ _ _ _ => false
  | .ldRegion _ _ _ _ _ => false
  | .st _ _ _ _ _ _ => false
  | .stIndex _ _ _ _ _ _ => false
  | .stRegion _ _ _ _ _ => false
  | .ldv _ _ _ _ _ => false
  | .ldvIndex _ _ _ _ _ => false
  | .ldvRegion _ _ _ _ => false
  | .stv _ _ _ _ _ => false
  | .stvIndex _ _ _ _ _ => false
  | .stvRegion _ _ _ _ => false
  | .ldf _ _ _ _ _ => false
  | .ldfIndex _ _ _ _ _ => false
  | .stf _ _ _ _ _ => false
  | .stfIndex _ _ _ _ _ => false
  | .ste _ _ _ _ _ => false
  | .steIndex _ _ _ _ _ => false
  | .aadd _ _ _ _ _ _ => false
  | .aand _ _ _ _ _ _ => false
  | .aor _ _ _ _ _ _ => false
  | .axor _ _ _ _ _ _ => false
  | .amin _ _ _ _ _ _ => false
  | .amax _ _ _ _ _ _ => false
  | .aminn _ _ _ _ _ _ => false
  | .amaxn _ _ _ _ _ _ => false
  | .aswp _ _ _ _ _ _ => false
  | .acas _ _ _ _ _ _ => false
  | .afadd _ _ _ _ _ _ => false
  | .adf _ _ _ _ _ _ => false
  | .fence _ _ => false
  | .aliasf _ _ => false
  | .ifence => false
  | .pfx _ _ _ _ => false
  | .nmadd _ _ _ => false
  | .nmred _ _ _ _ => false
  | .nmfence => false
  | .fadd _ _ _ _ _ => false
  | .fsub _ _ _ _ _ => false
  | .fmul _ _ _ _ _ => false
  | .fdiv _ _ _ _ _ => false
  | .fsqrt _ _ _ _ => false
  | .ffma _ _ _ _ _ => false
  | .ffms _ _ _ _ _ => false
  | .ffnma _ _ _ _ _ => false
  | .fmin _ _ _ _ => false
  | .fmax _ _ _ _ => false
  | .feq _ _ _ _ => false
  | .flt _ _ _ _ => false
  | .fle _ _ _ _ => false
  | .fclass _ _ _ => false
  | .fsgnj _ _ _ _ => false
  | .fsgnjn _ _ _ _ => false
  | .fsgnjx _ _ _ _ => false
  | .fcvt _ _ _ _ _ => false
  | .fmvg _ _ => false
  | .fmvf _ _ => false
  | .frcpa _ _ _ => false
  | .frsqa _ _ _ => false
  | .frcpr _ _ _ _ _ => false
  | .frsqr _ _ _ _ _ => false
  | .vadd _ _ _ _ _ => false
  | .vsub _ _ _ _ _ => false
  | .vmul _ _ _ _ _ => false
  | .vfma _ _ _ _ _ => false
  | .vmin _ _ _ _ _ => false
  | .vmax _ _ _ _ _ => false
  | .vabs _ _ _ _ => false
  | .vabsd _ _ _ _ _ => false
  | .vneg _ _ _ _ => false
  | .vdot _ _ _ _ => false
  | .vand _ _ _ => false
  | .vor _ _ _ => false
  | .vxor _ _ _ => false
  | .vnot _ _ => false
  | .vshl _ _ _ _ => false
  | .vshr _ _ _ _ => false
  | .vsra _ _ _ _ => false
  | .vcmpeq _ _ _ _ => false
  | .vcmplt _ _ _ _ _ => false
  | .vcmple _ _ _ _ _ => false
  | .vsel _ _ _ _ _ => false
  | .vperm _ _ _ _ => false
  | .vbcast _ _ _ => false
  | .vins _ _ _ _ => false
  | .vext _ _ _ _ => false
  | .vredadd _ _ _ => false
  | .vredmin _ _ _ _ => false
  | .vredmax _ _ _ _ => false
  | .vcvt _ _ _ _ _ => false
  | .vpack _ _ _ _ _ => false
  | .vunpk _ _ _ _ => false
  | .vthr _ _ _ => false
  | .vrcpa _ _ _ => false
  | .vrsqa _ _ _ => false
  | .send _ _ _ => false
  | .sendr _ _ => false
  | .fork _ _ => false
  | .done _ => false
  | .clsbind _ _ _ => false
  | .nsend _ _ => false
  | .winset _ => false
  | .qcfg _ => false
  | .strm _ _ _ _ => false
  | .strmoff _ _ => false
  | .repb _ _ _ => false
  | .repe => false
  | .repgo _ => false
  | .tmld _ _ _ => false
  | .mmaE4m3E4m3 _ _ _ _ _ => false
  | .mmaE4m3E5m2 _ _ _ _ _ => false
  | .mmaE5m2E4m3 _ _ _ _ _ => false
  | .mmaE5m2E5m2 _ _ _ _ _ => false
  | .mmaE2m1E2m1 _ _ _ _ _ => false
  | .mmaE2m1E4m3 _ _ _ _ _ => false
  | .mmaEc8Ec8 _ _ _ _ _ => false
  | .mmaEc8E4m3 _ _ _ _ _ => false
  | .mmaBf16Bf16 _ _ _ => false
  | .mmaF16F16 _ _ _ => false
  | .mmaS8S8 _ _ _ => false
  | .mmaS4S8 _ _ _ => false
  | .mmaBf16S4 _ _ _ => false
  | .mmapE4m3 _ _ _ _ => false
  | .mmapBf16 _ _ _ => false
  | .distL1Bf16 _ _ _ => false
  | .distL1E4m3 _ _ _ => false
  | .distL1S8 _ _ _ => false
  | .distL2Bf16 _ _ _ => false
  | .distL2E4m3 _ _ _ => false
  | .distL2S8 _ _ _ => false
  | .adrain _ _ _ _ => false
  | .cupd _ _ _ _ => false
  | .async _ _ _ => false
  | .ringcfgSet _ _ => false
  | .ringcfgPush _ _ => false
  | .ringcfgReset _ => false
  | .ringcfgQuery _ _ => false
  | .accz _ => false
  | .accrd _ _ => false
  | .accwr _ _ => false
  | .accsc _ _ _ => false
  | .cpy _ _ _ => false
  | .cpykv _ _ _ => false
  | .kvapp _ _ _ => false
  | .get _ _ _ => false
  | .put _ _ _ => false
  | .halo _ _ _ => false
  | .cpycan _ _ => false
  | .flushr _ _ _ => false
  | .invr _ _ _ => false
  | .waygive _ _ => false
  | .waytake _ => false
  | .rowop _ _ => false
  | .bsopAdd _ _ _ _ => false
  | .bsopSub _ _ _ _ => false
  | .bsopAnd _ _ _ => false
  | .bsopOr _ _ _ => false
  | .bsopXor _ _ _ => false
  | .bsopNot _ _ _ => false
  | .bsopCmpeq _ _ _ _ => false
  | .bsopCmplt _ _ _ _ => false
  | .bsopCmple _ _ _ _ => false
  | .bsopSel _ _ _ _ => false
  | .bsopShr _ _ _ _ => false
  | .bsopPopc _ _ _ _ => false
  | .bsopMin _ _ _ _ => false
  | .bsopMax _ _ _ _ => false
  | .bsopMul _ _ _ _ => false
  | .egcfg _ _ _ => false
  | .egins _ _ _ _ => false
  | .egfind _ _ _ => false
  | .egmrg _ _ _ _ => false
  | .egmatch _ _ _ _ => false
  | .egnode _ _ _ => false
  | .egenum _ _ _ _ => false
  | .egrank _ _ _ => false
  | .egstat _ _ _ => false
  | .csrrd _ _ => false
  | .csrwr _ _ _ => false
  | .csrset _ _ _ => false
  | .csrclr _ _ _ => false
  | .eret => false
  | .tlbsd _ _ => false
  | .tlbinv _ => false
  | .suprd _ _ => false
  | .partset _ _ => false
  | .storePerform _ _ _ => true
  | .nmPerform _ _ _ _ => true
  | .bankEngineAck _ => true
  | .lineMigrate _ _ => true
  | .memoryRequestPerform _ => true
  | .remoteWriteAck _ => true
  | .messageArrival _ => true
  | .heldContextRetry _ => true
  | .heldContextEnter _ => true
  | .heldContextTerminate _ => true
  | .sendqTransmit _ _ _ => true
  | .postedWriteRefused _ _ _ => true
  | .nsendArrival _ => true
  | .nsendCreditReturn _ => true
  | .streamFill _ _ _ => true
  | .contextSelect _ => true
  | .parkTimeout _ _ => true
  | .parkedWake _ _ => true
  | .runQueueAging _ _ => true
  | .stealAttempt _ => true
  | .stealRequest _ => true
  | .doneWaveReport _ => true
  | .anvilCmdStart _ => true
  | .anvilCmdRetire _ => true
  | .transferStart _ => true
  | .cpykvTileFill _ => true
  | .transferComplete _ => true
  | .fixbellRing _ => true
  | .bsopPerform _ _ => true
  | .waygiveConversionComplete _ _ => true
  | .waytakeComplete _ _ => true
  | .rangeMaintenanceComplete _ => true
  | .shootdownComplete _ => true
  | .partsetComplete _ => true
  | .unionStep _ _ => true
  | .resign _ _ => true
  | .mergeComplete _ _ => true
  | .bindingSend _ => true
  | .heapOpComplete _ _ => true
  | .lqtailDoorbell _ _ => true
  | .launchCopy _ => true
  | .launchStart _ => true
  | .launchCompletionPost _ => true
  | .cqheadWrite _ _ => true
  | .preemptHalt _ => true
  | .preemptSave _ => true
  | .launchResume _ => true
  | .frgroleWrite _ _ _ => true
  | .fzreqWrite _ _ _ => true
  | .frameZeroingComplete _ => true
  | .diectlFence _ => true
  | .diectlWarmReset _ => true
  | .diectlColdReset _ => true
  | .diectlRejoin _ => true
  | .bbctlTrigset _ => true
  | .bbctlFrozenClear _ => true
  | .attestRequest _ => true
  | .attestReportReady => true
  | .registerWrite _ _ _ => true
  | .dieHeartbeat _ => true
  | .heartbeatTimeout _ => true
  | .dieStartSteps _ _ => true
  | .islandPowerUp _ _ => true
  | .islandPowerOff => true
  | .islandReset => true
  | .diePowerEnable _ => true
  | .diePowerOff _ => true
  | .pwrbrakeAssert => true
  | .pwrbrakeRelease => true
  | .powerLimitThrottle _ _ => true
  | .thermalTrip _ => true
  | .thermalRecover _ => true
  | .fabricFlitReceive _ _ => true
  | .fabricNakReplay _ _ => true
  | .fabricLinkUp _ _ _ _ => true
  | .fabricLinkDown _ => true
  | .fabricRequestTimeout _ => true
  | .endpointAbsentReply _ _ => true
  | .cxlSnpdata _ => true
  | .cxlSnpinv _ => true
  | .cxlSnpcur _ => true
  | .hostMemRead _ => true
  | .hostMemWrite _ _ _ => true
  | .dramScrub _ => true
  | .softError _ _ => true
  | .dieLinkFailure _ => true
  | .islandResetComplete _ => true
  | .islandFirmwareFault => true
  | .hostLinkTrained => true
  | .cxlCacheResponse _ => true
  | .bisnpResponse _ _ => true
  | .aliasfComplete _ _ => true

/-- Length of the instruction in bytes: 2 for the 16-bit forms of R71, 4 for the others; 0 for an event (R69). -/
def Instr.len : Instr → Nat
  | .add _ _ _ _ => 4
  | .sub _ _ _ _ => 4
  | .mul _ _ _ _ => 4
  | .mulh _ _ _ _ => 4
  | .mulhn _ _ _ _ => 4
  | .div _ _ _ _ => 4
  | .divn _ _ _ _ => 4
  | .rem _ _ _ _ => 4
  | .remn _ _ _ _ => 4
  | .and _ _ _ _ => 4
  | .or _ _ _ _ => 4
  | .xor _ _ _ _ => 4
  | .andn _ _ _ _ => 4
  | .shl _ _ _ _ => 4
  | .shr _ _ _ _ => 4
  | .sra _ _ _ _ => 4
  | .rol _ _ _ _ => 4
  | .ror _ _ _ _ => 4
  | .min _ _ _ _ => 4
  | .max _ _ _ _ => 4
  | .minn _ _ _ _ => 4
  | .maxn _ _ _ _ => 4
  | .slt _ _ _ _ => 4
  | .sltn _ _ _ _ => 4
  | .seq _ _ _ _ => 4
  | .clz _ _ _ => 4
  | .ctz _ _ _ => 4
  | .popc _ _ _ => 4
  | .brev _ _ _ => 4
  | .addi _ _ _ _ => 4
  | .andi _ _ _ => 4
  | .ori _ _ _ => 4
  | .xori _ _ _ => 4
  | .slti _ _ _ => 4
  | .sel _ _ _ _ => 4
  | .shli _ _ _ _ => 4
  | .shri _ _ _ _ => 4
  | .srai _ _ _ _ => 4
  | .ldhi _ _ _ => 4
  | .lea _ _ _ => 4
  | .leaScaled _ _ _ _ => 4
  | .leaRegion _ _ _ _ => 4
  | .bfx _ _ _ _ => 4
  | .bfxn _ _ _ _ => 4
  | .bfi _ _ _ _ => 4
  | .beq _ _ _ => 4
  | .bne _ _ _ => 4
  | .blt _ _ _ => 4
  | .bge _ _ _ => 4
  | .bltn _ _ _ => 4
  | .bgen _ _ _ => 4
  | .j _ => 4
  | .jal _ _ => 4
  | .jalr _ _ _ => 4
  | .loop _ _ => 4
  | .endTask => 4
  | .trap _ => 4
  | .brk _ => 4
  | .addCr _ _ => 2
  | .moveCr _ _ => 2
  | .subCr _ _ => 2
  | .andCr _ _ => 2
  | .orCr _ _ => 2
  | .xorCr _ _ => 2
  | .shlCr _ _ => 2
  | .shrCr _ _ => 2
  | .sraCr _ _ => 2
  | .mulCr _ _ => 2
  | .jalrLinkCr _ => 2
  | .jalrNolinkCr _ => 2
  | .addiCi _ _ => 2
  | .addiZeroCi _ _ => 2
  | .shliCi _ _ => 2
  | .shriCi _ _ => 2
  | .sraiCi _ _ => 2
  | .andiCi _ _ => 2
  | .ldDCm _ _ _ => 2
  | .stDCm _ _ _ => 2
  | .beqCb _ _ => 2
  | .bneCb _ _ => 2
  | .bltCb _ _ => 2
  | .bgeCb _ _ => 2
  | .jCj _ => 2
  | .endCt => 2
  | .doneCt _ => 2
  | .sendC _ _ => 2
  | .vorCv _ _ => 2
  | .vaddS32Cv _ _ => 2
  | .vsubS32Cv _ _ => 2
  | .vaddF32Cv _ _ => 2
  | .vsubF32Cv _ _ => 2
  | .vmulF32Cv _ _ => 2
  | .vmaxF32Cv _ _ => 2
  | .vminF32Cv _ _ => 2
  | .vandCv _ _ => 2
  | .vxorCv _ _ => 2
  | .vnotCv _ _ => 2
  | .ld _ _ _ _ _ _ => 4
  | .ldIndex _ _ _ _ _ _ => 4
  | .ldRegion _ _ _ _ _ => 4
  | .st _ _ _ _ _ _ => 4
  | .stIndex _ _ _ _ _ _ => 4
  | .stRegion _ _ _ _ _ => 4
  | .ldv _ _ _ _ _ => 4
  | .ldvIndex _ _ _ _ _ => 4
  | .ldvRegion _ _ _ _ => 4
  | .stv _ _ _ _ _ => 4
  | .stvIndex _ _ _ _ _ => 4
  | .stvRegion _ _ _ _ => 4
  | .ldf _ _ _ _ _ => 4
  | .ldfIndex _ _ _ _ _ => 4
  | .stf _ _ _ _ _ => 4
  | .stfIndex _ _ _ _ _ => 4
  | .ste _ _ _ _ _ => 4
  | .steIndex _ _ _ _ _ => 4
  | .aadd _ _ _ _ _ _ => 4
  | .aand _ _ _ _ _ _ => 4
  | .aor _ _ _ _ _ _ => 4
  | .axor _ _ _ _ _ _ => 4
  | .amin _ _ _ _ _ _ => 4
  | .amax _ _ _ _ _ _ => 4
  | .aminn _ _ _ _ _ _ => 4
  | .amaxn _ _ _ _ _ _ => 4
  | .aswp _ _ _ _ _ _ => 4
  | .acas _ _ _ _ _ _ => 4
  | .afadd _ _ _ _ _ _ => 4
  | .adf _ _ _ _ _ _ => 4
  | .fence _ _ => 4
  | .aliasf _ _ => 4
  | .ifence => 4
  | .pfx _ _ _ _ => 4
  | .nmadd _ _ _ => 4
  | .nmred _ _ _ _ => 4
  | .nmfence => 4
  | .fadd _ _ _ _ _ => 4
  | .fsub _ _ _ _ _ => 4
  | .fmul _ _ _ _ _ => 4
  | .fdiv _ _ _ _ _ => 4
  | .fsqrt _ _ _ _ => 4
  | .ffma _ _ _ _ _ => 4
  | .ffms _ _ _ _ _ => 4
  | .ffnma _ _ _ _ _ => 4
  | .fmin _ _ _ _ => 4
  | .fmax _ _ _ _ => 4
  | .feq _ _ _ _ => 4
  | .flt _ _ _ _ => 4
  | .fle _ _ _ _ => 4
  | .fclass _ _ _ => 4
  | .fsgnj _ _ _ _ => 4
  | .fsgnjn _ _ _ _ => 4
  | .fsgnjx _ _ _ _ => 4
  | .fcvt _ _ _ _ _ => 4
  | .fmvg _ _ => 4
  | .fmvf _ _ => 4
  | .frcpa _ _ _ => 4
  | .frsqa _ _ _ => 4
  | .frcpr _ _ _ _ _ => 4
  | .frsqr _ _ _ _ _ => 4
  | .vadd _ _ _ _ _ => 4
  | .vsub _ _ _ _ _ => 4
  | .vmul _ _ _ _ _ => 4
  | .vfma _ _ _ _ _ => 4
  | .vmin _ _ _ _ _ => 4
  | .vmax _ _ _ _ _ => 4
  | .vabs _ _ _ _ => 4
  | .vabsd _ _ _ _ _ => 4
  | .vneg _ _ _ _ => 4
  | .vdot _ _ _ _ => 4
  | .vand _ _ _ => 4
  | .vor _ _ _ => 4
  | .vxor _ _ _ => 4
  | .vnot _ _ => 4
  | .vshl _ _ _ _ => 4
  | .vshr _ _ _ _ => 4
  | .vsra _ _ _ _ => 4
  | .vcmpeq _ _ _ _ => 4
  | .vcmplt _ _ _ _ _ => 4
  | .vcmple _ _ _ _ _ => 4
  | .vsel _ _ _ _ _ => 4
  | .vperm _ _ _ _ => 4
  | .vbcast _ _ _ => 4
  | .vins _ _ _ _ => 4
  | .vext _ _ _ _ => 4
  | .vredadd _ _ _ => 4
  | .vredmin _ _ _ _ => 4
  | .vredmax _ _ _ _ => 4
  | .vcvt _ _ _ _ _ => 4
  | .vpack _ _ _ _ _ => 4
  | .vunpk _ _ _ _ => 4
  | .vthr _ _ _ => 4
  | .vrcpa _ _ _ => 4
  | .vrsqa _ _ _ => 4
  | .send _ _ _ => 4
  | .sendr _ _ => 4
  | .fork _ _ => 4
  | .done _ => 4
  | .clsbind _ _ _ => 4
  | .nsend _ _ => 4
  | .winset _ => 4
  | .qcfg _ => 4
  | .strm _ _ _ _ => 4
  | .strmoff _ _ => 4
  | .repb _ _ _ => 4
  | .repe => 4
  | .repgo _ => 4
  | .tmld _ _ _ => 4
  | .mmaE4m3E4m3 _ _ _ _ _ => 4
  | .mmaE4m3E5m2 _ _ _ _ _ => 4
  | .mmaE5m2E4m3 _ _ _ _ _ => 4
  | .mmaE5m2E5m2 _ _ _ _ _ => 4
  | .mmaE2m1E2m1 _ _ _ _ _ => 4
  | .mmaE2m1E4m3 _ _ _ _ _ => 4
  | .mmaEc8Ec8 _ _ _ _ _ => 4
  | .mmaEc8E4m3 _ _ _ _ _ => 4
  | .mmaBf16Bf16 _ _ _ => 4
  | .mmaF16F16 _ _ _ => 4
  | .mmaS8S8 _ _ _ => 4
  | .mmaS4S8 _ _ _ => 4
  | .mmaBf16S4 _ _ _ => 4
  | .mmapE4m3 _ _ _ _ => 4
  | .mmapBf16 _ _ _ => 4
  | .distL1Bf16 _ _ _ => 4
  | .distL1E4m3 _ _ _ => 4
  | .distL1S8 _ _ _ => 4
  | .distL2Bf16 _ _ _ => 4
  | .distL2E4m3 _ _ _ => 4
  | .distL2S8 _ _ _ => 4
  | .adrain _ _ _ _ => 4
  | .cupd _ _ _ _ => 4
  | .async _ _ _ => 4
  | .ringcfgSet _ _ => 4
  | .ringcfgPush _ _ => 4
  | .ringcfgReset _ => 4
  | .ringcfgQuery _ _ => 4
  | .accz _ => 4
  | .accrd _ _ => 4
  | .accwr _ _ => 4
  | .accsc _ _ _ => 4
  | .cpy _ _ _ => 4
  | .cpykv _ _ _ => 4
  | .kvapp _ _ _ => 4
  | .get _ _ _ => 4
  | .put _ _ _ => 4
  | .halo _ _ _ => 4
  | .cpycan _ _ => 4
  | .flushr _ _ _ => 4
  | .invr _ _ _ => 4
  | .waygive _ _ => 4
  | .waytake _ => 4
  | .rowop _ _ => 4
  | .bsopAdd _ _ _ _ => 4
  | .bsopSub _ _ _ _ => 4
  | .bsopAnd _ _ _ => 4
  | .bsopOr _ _ _ => 4
  | .bsopXor _ _ _ => 4
  | .bsopNot _ _ _ => 4
  | .bsopCmpeq _ _ _ _ => 4
  | .bsopCmplt _ _ _ _ => 4
  | .bsopCmple _ _ _ _ => 4
  | .bsopSel _ _ _ _ => 4
  | .bsopShr _ _ _ _ => 4
  | .bsopPopc _ _ _ _ => 4
  | .bsopMin _ _ _ _ => 4
  | .bsopMax _ _ _ _ => 4
  | .bsopMul _ _ _ _ => 4
  | .egcfg _ _ _ => 4
  | .egins _ _ _ _ => 4
  | .egfind _ _ _ => 4
  | .egmrg _ _ _ _ => 4
  | .egmatch _ _ _ _ => 4
  | .egnode _ _ _ => 4
  | .egenum _ _ _ _ => 4
  | .egrank _ _ _ => 4
  | .egstat _ _ _ => 4
  | .csrrd _ _ => 4
  | .csrwr _ _ _ => 4
  | .csrset _ _ _ => 4
  | .csrclr _ _ _ => 4
  | .eret => 4
  | .tlbsd _ _ => 4
  | .tlbinv _ => 4
  | .suprd _ _ => 4
  | .partset _ _ => 4
  | .storePerform _ _ _ => 0
  | .nmPerform _ _ _ _ => 0
  | .bankEngineAck _ => 0
  | .lineMigrate _ _ => 0
  | .memoryRequestPerform _ => 0
  | .remoteWriteAck _ => 0
  | .messageArrival _ => 0
  | .heldContextRetry _ => 0
  | .heldContextEnter _ => 0
  | .heldContextTerminate _ => 0
  | .sendqTransmit _ _ _ => 0
  | .postedWriteRefused _ _ _ => 0
  | .nsendArrival _ => 0
  | .nsendCreditReturn _ => 0
  | .streamFill _ _ _ => 0
  | .contextSelect _ => 0
  | .parkTimeout _ _ => 0
  | .parkedWake _ _ => 0
  | .runQueueAging _ _ => 0
  | .stealAttempt _ => 0
  | .stealRequest _ => 0
  | .doneWaveReport _ => 0
  | .anvilCmdStart _ => 0
  | .anvilCmdRetire _ => 0
  | .transferStart _ => 0
  | .cpykvTileFill _ => 0
  | .transferComplete _ => 0
  | .fixbellRing _ => 0
  | .bsopPerform _ _ => 0
  | .waygiveConversionComplete _ _ => 0
  | .waytakeComplete _ _ => 0
  | .rangeMaintenanceComplete _ => 0
  | .shootdownComplete _ => 0
  | .partsetComplete _ => 0
  | .unionStep _ _ => 0
  | .resign _ _ => 0
  | .mergeComplete _ _ => 0
  | .bindingSend _ => 0
  | .heapOpComplete _ _ => 0
  | .lqtailDoorbell _ _ => 0
  | .launchCopy _ => 0
  | .launchStart _ => 0
  | .launchCompletionPost _ => 0
  | .cqheadWrite _ _ => 0
  | .preemptHalt _ => 0
  | .preemptSave _ => 0
  | .launchResume _ => 0
  | .frgroleWrite _ _ _ => 0
  | .fzreqWrite _ _ _ => 0
  | .frameZeroingComplete _ => 0
  | .diectlFence _ => 0
  | .diectlWarmReset _ => 0
  | .diectlColdReset _ => 0
  | .diectlRejoin _ => 0
  | .bbctlTrigset _ => 0
  | .bbctlFrozenClear _ => 0
  | .attestRequest _ => 0
  | .attestReportReady => 0
  | .registerWrite _ _ _ => 0
  | .dieHeartbeat _ => 0
  | .heartbeatTimeout _ => 0
  | .dieStartSteps _ _ => 0
  | .islandPowerUp _ _ => 0
  | .islandPowerOff => 0
  | .islandReset => 0
  | .diePowerEnable _ => 0
  | .diePowerOff _ => 0
  | .pwrbrakeAssert => 0
  | .pwrbrakeRelease => 0
  | .powerLimitThrottle _ _ => 0
  | .thermalTrip _ => 0
  | .thermalRecover _ => 0
  | .fabricFlitReceive _ _ => 0
  | .fabricNakReplay _ _ => 0
  | .fabricLinkUp _ _ _ _ => 0
  | .fabricLinkDown _ => 0
  | .fabricRequestTimeout _ => 0
  | .endpointAbsentReply _ _ => 0
  | .cxlSnpdata _ => 0
  | .cxlSnpinv _ => 0
  | .cxlSnpcur _ => 0
  | .hostMemRead _ => 0
  | .hostMemWrite _ _ _ => 0
  | .dramScrub _ => 0
  | .softError _ _ => 0
  | .dieLinkFailure _ => 0
  | .islandResetComplete _ => 0
  | .islandFirmwareFault => 0
  | .hostLinkTrained => 0
  | .cxlCacheResponse _ => 0
  | .bisnpResponse _ _ => 0
  | .aliasfComplete _ _ => 0

/-- The fields hold values the encoding admits. -/
def WellFormed : Instr → Bool
  | .add _ _ _ _ => true
  | .sub _ _ _ _ => true
  | .mul _ _ _ _ => true
  | .mulh _ _ _ _ => true
  | .mulhn _ _ _ _ => true
  | .div _ _ _ _ => true
  | .divn _ _ _ _ => true
  | .rem _ _ _ _ => true
  | .remn _ _ _ _ => true
  | .and _ _ _ _ => true
  | .or _ _ _ _ => true
  | .xor _ _ _ _ => true
  | .andn _ _ _ _ => true
  | .shl _ _ _ _ => true
  | .shr _ _ _ _ => true
  | .sra _ _ _ _ => true
  | .rol _ _ _ _ => true
  | .ror _ _ _ _ => true
  | .min _ _ _ _ => true
  | .max _ _ _ _ => true
  | .minn _ _ _ _ => true
  | .maxn _ _ _ _ => true
  | .slt _ _ _ _ => true
  | .sltn _ _ _ _ => true
  | .seq _ _ _ _ => true
  | .clz _ _ _ => true
  | .ctz _ _ _ => true
  | .popc _ _ _ => true
  | .brev _ _ _ => true
  | .addi _ _ _ _ => true
  | .andi _ _ _ => true
  | .ori _ _ _ => true
  | .xori _ _ _ => true
  | .slti _ _ _ => true
  | .sel _ _ _ _ => true
  | .shli _ _ w s => w == 0 || s < 32  -- R80, R95
  | .shri _ _ w s => w == 0 || s < 32  -- R80, R95
  | .srai _ _ w s => w == 0 || s < 32  -- R80, R95
  | .ldhi _ _ k => k != 3  -- R96
  | .lea _ _ _ => true
  | .leaScaled _ _ _ _ => true
  | .leaRegion _ _ _ _ => true
  | .bfx _ _ l p => p.toNat + l.toNat + 1 <= 64  -- R80, R98
  | .bfxn _ _ l p => p.toNat + l.toNat + 1 <= 64  -- R80, R98
  | .bfi _ _ l p => p.toNat + l.toNat + 1 <= 64  -- R80, R98
  | .beq _ _ _ => true
  | .bne _ _ _ => true
  | .blt _ _ _ => true
  | .bge _ _ _ => true
  | .bltn _ _ _ => true
  | .bgen _ _ _ => true
  | .j _ => true
  | .jal d _ => d != 0  -- R81: d = 0 is J
  | .jalr _ _ _ => true
  | .loop _ i => i != 0  -- R106
  | .endTask => true
  | .trap _ => true
  | .brk _ => true
  | .addCr _ _ => true
  | .moveCr _ _ => true
  | .subCr _ _ => true
  | .andCr _ _ => true
  | .orCr _ _ => true
  | .xorCr _ _ => true
  | .shlCr _ _ => true
  | .shrCr _ _ => true
  | .sraCr _ _ => true
  | .mulCr _ _ => true
  | .jalrLinkCr _ => true
  | .jalrNolinkCr _ => true
  | .addiCi _ _ => true
  | .addiZeroCi _ _ => true
  | .shliCi _ _ => true
  | .shriCi _ _ => true
  | .sraiCi _ _ => true
  | .andiCi _ _ => true
  | .ldDCm _ _ _ => true
  | .stDCm _ _ _ => true
  | .beqCb _ _ => true
  | .bneCb _ _ => true
  | .bltCb _ _ => true
  | .bgeCb _ _ => true
  | .jCj _ => true
  | .endCt => true
  | .doneCt _ => true
  | .sendC _ _ => true
  | .vorCv _ _ => true
  | .vaddS32Cv _ _ => true
  | .vsubS32Cv _ _ => true
  | .vaddF32Cv _ _ => true
  | .vsubF32Cv _ _ => true
  | .vmulF32Cv _ _ => true
  | .vmaxF32Cv _ _ => true
  | .vminF32Cv _ _ => true
  | .vandCv _ _ => true
  | .vxorCv _ _ => true
  | .vnotCv _ _ => true
  | .ld _ _ o s _ _ => loadOrder o s  -- R78, R140
  | .ldIndex _ _ _ o s _ => loadOrder o s  -- R78, R140
  | .ldRegion _ _ _ _ _ => true
  | .st _ _ o s _ _ => storeOrder o s  -- R78, R140
  | .stIndex _ _ _ o s _ => storeOrder o s  -- R78, R140
  | .stRegion _ _ _ _ _ => true
  | .ldv d _ o s _ => loadOrder o s && d < 16  -- R77, R140
  | .ldvIndex d _ _ o s => loadOrder o s && d < 16  -- R77, R140
  | .ldvRegion d _ _ _ => d < 16  -- R77
  | .stv d _ o s _ => storeOrder o s && d < 16  -- R77, R140
  | .stvIndex d _ _ o s => storeOrder o s && d < 16  -- R77, R140
  | .stvRegion d _ _ _ => d < 16  -- R77
  | .ldf _ _ o s _ => loadOrder o s  -- R78, R140
  | .ldfIndex _ _ _ o s => loadOrder o s  -- R78, R140
  | .stf _ _ o s _ => storeOrder o s  -- R78, R140
  | .stfIndex _ _ _ o s => storeOrder o s  -- R78, R140
  | .ste _ _ o s _ => storeOrder o s  -- R78, R140
  | .steIndex _ _ _ o s => storeOrder o s  -- R78, R140
  | .aadd _ _ _ o s _ => atomicOrder o s  -- R140, R149
  | .aand _ _ _ o s _ => atomicOrder o s  -- R140, R149
  | .aor _ _ _ o s _ => atomicOrder o s  -- R140, R149
  | .axor _ _ _ o s _ => atomicOrder o s  -- R140, R149
  | .amin _ _ _ o s _ => atomicOrder o s  -- R140, R149
  | .amax _ _ _ o s _ => atomicOrder o s  -- R140, R149
  | .aminn _ _ _ o s _ => atomicOrder o s  -- R140, R149
  | .amaxn _ _ _ o s _ => atomicOrder o s  -- R140, R149
  | .aswp _ _ _ o s _ => atomicOrder o s  -- R140, R149
  | .acas _ _ _ o s _ => atomicOrder o s  -- R140, R149
  | .afadd _ _ _ o s _ => atomicOrder o s  -- R140, R149
  | .adf _ _ _ o s _ => atomicOrder o s  -- R140, R149
  | .fence o s => o != 0 && s != 7  -- R155
  | .aliasf _ _ => true
  | .ifence => true
  | .pfx _ _ _ l => l < 2  -- R155
  | .nmadd _ _ t => t < 4  -- R82
  | .nmred _ _ o _ => o <= 4  -- R82, R160
  | .nmfence => true
  | .fadd _ _ _ r _ => r != 5 && r != 6  -- R32, R115
  | .fsub _ _ _ r _ => r != 5 && r != 6  -- R32, R115
  | .fmul _ _ _ r _ => r != 5 && r != 6  -- R32, R115
  | .fdiv _ _ _ r _ => r != 5 && r != 6  -- R32, R115
  | .fsqrt _ _ r _ => r != 5 && r != 6  -- R32, R115
  | .ffma _ _ _ r _ => r != 5 && r != 6  -- R32, R115
  | .ffms _ _ _ r _ => r != 5 && r != 6  -- R32, R115
  | .ffnma _ _ _ r _ => r != 5 && r != 6  -- R32, R115
  | .fmin _ _ _ _ => true
  | .fmax _ _ _ _ => true
  | .feq _ _ _ _ => true
  | .flt _ _ _ _ => true
  | .fle _ _ _ _ => true
  | .fclass _ _ _ => true
  | .fsgnj _ _ _ _ => true
  | .fsgnjn _ _ _ _ => true
  | .fsgnjx _ _ _ _ => true
  | .fcvt _ _ r s t => r != 6 && s != t  -- R121
  | .fmvg _ _ => true
  | .fmvf _ _ => true
  | .frcpa _ _ _ => true
  | .frsqa _ _ _ => true
  | .frcpr _ _ _ r _ => r != 5 && r != 6  -- R32, R115
  | .frsqr _ _ _ r _ => r != 5 && r != 6  -- R32, R115
  | .vadd _ _ _ c t => c == 0 || (intLane t && c <= 2)  -- R126
  | .vsub _ _ _ c t => c == 0 || (intLane t && c <= 2)  -- R126
  | .vmul _ _ _ c _ => c == 0  -- R126, R127
  | .vfma _ _ _ _ _ => true
  | .vmin _ _ _ c t => c == 0 || (intLane t && c == 1)  -- R126
  | .vmax _ _ _ c t => c == 0 || (intLane t && c == 1)  -- R126
  | .vabs _ _ c t => c == 0 || (intLane t && c == 1)  -- R126
  | .vabsd _ _ _ c t => c == 0 || (intLane t && c == 1)  -- R126
  | .vneg _ _ c t => c == 0 || (intLane t && c == 1)  -- R126
  | .vdot _ _ _ t => t == 0 || t == 1 || t == 6 || t == 7  -- R128
  | .vand _ _ _ => true
  | .vor _ _ _ => true
  | .vxor _ _ _ => true
  | .vnot _ _ => true
  | .vshl _ _ _ t => intLane t  -- R84, R127
  | .vshr _ _ _ t => intLane t  -- R84, R127
  | .vsra _ _ _ t => intLane t  -- R84, R127
  | .vcmpeq _ _ _ _ => true
  | .vcmplt _ _ _ c t => c == 0 || (intLane t && c == 1)  -- R126
  | .vcmple _ _ _ c t => c == 0 || (intLane t && c == 1)  -- R126
  | .vsel _ _ _ _ _ => true
  | .vperm _ _ _ _ => true
  | .vbcast _ _ _ => true
  | .vins _ _ c t => laneInRange t c  -- R129
  | .vext _ _ c t => laneInRange t c  -- R129
  | .vredadd _ _ _ => true
  | .vredmin _ _ c t => c == 0 || (intLane t && c == 1)  -- R126
  | .vredmax _ _ c t => c == 0 || (intLane t && c == 1)  -- R126
  | .vcvt _ _ b c r => b != c && r != 6  -- R131
  | .vpack _ _ _ c t => intLane t && c <= 2  -- R126, R132
  | .vunpk _ _ c t => intLane t && c < 4  -- R126, R132
  | .vthr _ _ t => t == 4 || t == 6 || t == 7  -- R133
  | .vrcpa _ _ t => !intLane t  -- R134
  | .vrsqa _ _ t => !intLane t  -- R134
  | .send _ _ b => 1 <= b && b <= 26  -- R165
  | .sendr _ _ => true
  | .fork _ b => 1 <= b && b <= 26  -- R165
  | .done _ => true
  | .clsbind _ _ _ => true
  | .nsend a _ => a < 16  -- R165
  | .winset _ => true
  | .qcfg _ => true
  | .strm d a b k => a < 16 && b < 4 && (k == 0 || d < 16)  -- R165, R180
  | .strmoff d k => k == 0 || d < 16  -- R165
  | .repb d _ b => d < 2 && b < 16  -- R165
  | .repe => true
  | .repgo _ => true
  | .tmld d _ _ => d < 16  -- R165
  | .mmaE4m3E4m3 a b fF _ _ => fF <= 30 && ringsDiffer a b  -- R85, R188
  | .mmaE4m3E5m2 a b fF _ _ => fF <= 30 && ringsDiffer a b  -- R85, R188
  | .mmaE5m2E4m3 a b fF _ _ => fF <= 30 && ringsDiffer a b  -- R85, R188
  | .mmaE5m2E5m2 a b fF _ _ => fF <= 30 && ringsDiffer a b  -- R85, R188
  | .mmaE2m1E2m1 a b fF _ _ => fF <= 30 && ringsDiffer a b  -- R85, R188
  | .mmaE2m1E4m3 a b fF _ _ => fF <= 30 && ringsDiffer a b  -- R85, R188
  | .mmaEc8Ec8 a b fF _ _ => fF <= 30 && ringsDiffer a b  -- R85, R188
  | .mmaEc8E4m3 a b fF _ _ => fF <= 30 && ringsDiffer a b  -- R85, R188
  | .mmaBf16Bf16 a b _ => ringsDiffer a b  -- R188
  | .mmaF16F16 a b _ => ringsDiffer a b  -- R188
  | .mmaS8S8 a b _ => ringsDiffer a b  -- R188
  | .mmaS4S8 a b _ => ringsDiffer a b  -- R188
  | .mmaBf16S4 a b _ => ringsDiffer a b  -- R188
  | .mmapE4m3 a b fF _ => fF <= 30 && ringsDiffer a b  -- R85, R188
  | .mmapBf16 a b _ => ringsDiffer a b  -- R188
  | .distL1Bf16 a b _ => ringsDiffer a b  -- R188
  | .distL1E4m3 a b _ => ringsDiffer a b  -- R188
  | .distL1S8 a b _ => ringsDiffer a b  -- R188
  | .distL2Bf16 a b _ => ringsDiffer a b  -- R188
  | .distL2E4m3 a b _ => ringsDiffer a b  -- R188
  | .distL2S8 a b _ => ringsDiffer a b  -- R188
  | .adrain _ _ _ _ => true
  | .cupd _ _ y _ => y != 3  -- R188
  | .async _ l t => l == 0 || t == 0  -- R188
  | .ringcfgSet _ _ => true
  | .ringcfgPush _ _ => true
  | .ringcfgReset _ => true
  | .ringcfgQuery _ _ => true
  | .accz _ => true
  | .accrd _ _ => true
  | .accwr _ _ => true
  | .accsc _ _ _ => true
  | .cpy _ _ _ => true
  | .cpykv _ _ _ => true
  | .kvapp _ _ _ => true
  | .get _ _ _ => true
  | .put _ _ _ => true
  | .halo _ _ _ => true
  | .cpycan _ _ => true
  | .flushr _ _ _ => true
  | .invr _ _ _ => true
  | .waygive _ _ => true
  | .waytake _ => true
  | .rowop _ _ => true
  | .bsopAdd _ _ _ _ => true
  | .bsopSub _ _ _ _ => true
  | .bsopAnd _ _ _ => true
  | .bsopOr _ _ _ => true
  | .bsopXor _ _ _ => true
  | .bsopNot _ _ _ => true
  | .bsopCmpeq _ _ _ _ => true
  | .bsopCmplt _ _ _ _ => true
  | .bsopCmple _ _ _ _ => true
  | .bsopSel _ _ _ _ => true
  | .bsopShr _ _ _ _ => true
  | .bsopPopc _ _ _ _ => true
  | .bsopMin _ _ _ _ => true
  | .bsopMax _ _ _ _ => true
  | .bsopMul _ _ _ _ => true
  | .egcfg _ _ _ => true
  | .egins _ _ b _ => b <= 30  -- R229
  | .egfind _ _ _ => true
  | .egmrg _ _ _ _ => true
  | .egmatch _ _ _ _ => true
  | .egnode d _ _ => 1 <= d && d <= 29  -- R229
  | .egenum _ _ _ _ => true
  | .egrank _ _ _ => true
  | .egstat _ _ _ => true
  | .csrrd _ c => !(0x7E0 <= c && c <= 0x7E4)  -- R87
  | .csrwr _ _ _ => true
  | .csrset _ _ _ => true
  | .csrclr _ _ _ => true
  | .eret => true
  | .tlbsd _ _ => true
  | .tlbinv _ => true
  | .suprd _ _ => true
  | .partset _ _ => true
  | .storePerform _ _ _ => false
  | .nmPerform _ _ _ _ => false
  | .bankEngineAck _ => false
  | .lineMigrate _ _ => false
  | .memoryRequestPerform _ => false
  | .remoteWriteAck _ => false
  | .messageArrival _ => false
  | .heldContextRetry _ => false
  | .heldContextEnter _ => false
  | .heldContextTerminate _ => false
  | .sendqTransmit _ _ _ => false
  | .postedWriteRefused _ _ _ => false
  | .nsendArrival _ => false
  | .nsendCreditReturn _ => false
  | .streamFill _ _ _ => false
  | .contextSelect _ => false
  | .parkTimeout _ _ => false
  | .parkedWake _ _ => false
  | .runQueueAging _ _ => false
  | .stealAttempt _ => false
  | .stealRequest _ => false
  | .doneWaveReport _ => false
  | .anvilCmdStart _ => false
  | .anvilCmdRetire _ => false
  | .transferStart _ => false
  | .cpykvTileFill _ => false
  | .transferComplete _ => false
  | .fixbellRing _ => false
  | .bsopPerform _ _ => false
  | .waygiveConversionComplete _ _ => false
  | .waytakeComplete _ _ => false
  | .rangeMaintenanceComplete _ => false
  | .shootdownComplete _ => false
  | .partsetComplete _ => false
  | .unionStep _ _ => false
  | .resign _ _ => false
  | .mergeComplete _ _ => false
  | .bindingSend _ => false
  | .heapOpComplete _ _ => false
  | .lqtailDoorbell _ _ => false
  | .launchCopy _ => false
  | .launchStart _ => false
  | .launchCompletionPost _ => false
  | .cqheadWrite _ _ => false
  | .preemptHalt _ => false
  | .preemptSave _ => false
  | .launchResume _ => false
  | .frgroleWrite _ _ _ => false
  | .fzreqWrite _ _ _ => false
  | .frameZeroingComplete _ => false
  | .diectlFence _ => false
  | .diectlWarmReset _ => false
  | .diectlColdReset _ => false
  | .diectlRejoin _ => false
  | .bbctlTrigset _ => false
  | .bbctlFrozenClear _ => false
  | .attestRequest _ => false
  | .attestReportReady => false
  | .registerWrite _ _ _ => false
  | .dieHeartbeat _ => false
  | .heartbeatTimeout _ => false
  | .dieStartSteps _ _ => false
  | .islandPowerUp _ _ => false
  | .islandPowerOff => false
  | .islandReset => false
  | .diePowerEnable _ => false
  | .diePowerOff _ => false
  | .pwrbrakeAssert => false
  | .pwrbrakeRelease => false
  | .powerLimitThrottle _ _ => false
  | .thermalTrip _ => false
  | .thermalRecover _ => false
  | .fabricFlitReceive _ _ => false
  | .fabricNakReplay _ _ => false
  | .fabricLinkUp _ _ _ _ => false
  | .fabricLinkDown _ => false
  | .fabricRequestTimeout _ => false
  | .endpointAbsentReply _ _ => false
  | .cxlSnpdata _ => false
  | .cxlSnpinv _ => false
  | .cxlSnpcur _ => false
  | .hostMemRead _ => false
  | .hostMemWrite _ _ _ => false
  | .dramScrub _ => false
  | .softError _ _ => false
  | .dieLinkFailure _ => false
  | .islandResetComplete _ => false
  | .islandFirmwareFault => false
  | .hostLinkTrained => false
  | .cxlCacheResponse _ => false
  | .bisnpResponse _ _ => false
  | .aliasfComplete _ _ => false

end Sys2Proof
end

