-- ==== Sys2Proof/Decode.lean ====
section
/-! DEFINITION. Decoding the words of an instruction (R69 to R88), total on any word and rejecting what is reserved, and the
encoder written from the same tables. A word is taken as a number, the first halfword in its low bits (R2).

Instr has more constructors with fields than Lean's runtime can tag, so a function that builds one of the last of them has no
compiled code and is marked so; the kernel evaluates it as any other. -/

namespace Sys2Proof

/-- Bits lo + len − 1 : lo of a word. -/
def field (w lo len : Nat) : Nat := w / 2 ^ lo % 2 ^ len

/-- The same bits as a bit vector. -/
def fieldBV (w lo len : Nat) : BitVec len := BitVec.ofNat len (field w lo len)

/-- The 16-bit format CR (R71 to R75). -/
def decodeCR (w : Nat) : Option Instr :=
  if field w 4 9 = 176 then some (.jalrLinkCr (fieldBV w 0 4))
  else if field w 4 9 = 192 then some (.jalrNolinkCr (fieldBV w 0 4))
  else if field w 8 5 = 2 then some (.addCr (fieldBV w 4 4) (fieldBV w 0 4))
  else if field w 8 5 = 1 then some (.moveCr (fieldBV w 4 4) (fieldBV w 0 4))
  else if field w 8 5 = 3 then some (.subCr (fieldBV w 4 4) (fieldBV w 0 4))
  else if field w 8 5 = 4 then some (.andCr (fieldBV w 4 4) (fieldBV w 0 4))
  else if field w 8 5 = 5 then some (.orCr (fieldBV w 4 4) (fieldBV w 0 4))
  else if field w 8 5 = 6 then some (.xorCr (fieldBV w 4 4) (fieldBV w 0 4))
  else if field w 8 5 = 7 then some (.shlCr (fieldBV w 4 4) (fieldBV w 0 4))
  else if field w 8 5 = 8 then some (.shrCr (fieldBV w 4 4) (fieldBV w 0 4))
  else if field w 8 5 = 9 then some (.sraCr (fieldBV w 4 4) (fieldBV w 0 4))
  else if field w 8 5 = 10 then some (.mulCr (fieldBV w 4 4) (fieldBV w 0 4))
  else none

/-- The 16-bit format CI (R71 to R75). -/
def decodeCI (w : Nat) : Option Instr :=
  if field w 10 3 = 0 then some (.addiCi (fieldBV w 6 4) (fieldBV w 0 6))
  else if field w 10 3 = 1 then some (.addiZeroCi (fieldBV w 6 4) (fieldBV w 0 6))
  else if field w 10 3 = 2 then some (.shliCi (fieldBV w 6 4) (fieldBV w 0 6))
  else if field w 10 3 = 3 then some (.shriCi (fieldBV w 6 4) (fieldBV w 0 6))
  else if field w 10 3 = 4 then some (.sraiCi (fieldBV w 6 4) (fieldBV w 0 6))
  else if field w 10 3 = 5 then some (.andiCi (fieldBV w 6 4) (fieldBV w 0 6))
  else none

/-- The 16-bit format CM (R71 to R75). -/
def decodeCM (w : Nat) : Option Instr :=
  if field w 12 1 = 0 then some (.ldDCm (fieldBV w 8 4) (fieldBV w 4 4) (fieldBV w 0 4))
  else if field w 12 1 = 1 then some (.stDCm (fieldBV w 8 4) (fieldBV w 4 4) (fieldBV w 0 4))
  else none

/-- The 16-bit format CB (R71 to R75). -/
def decodeCB (w : Nat) : Option Instr :=
  if field w 11 2 = 0 then some (.beqCb (fieldBV w 7 4) (fieldBV w 0 7))
  else if field w 11 2 = 1 then some (.bneCb (fieldBV w 7 4) (fieldBV w 0 7))
  else if field w 11 2 = 2 then some (.bltCb (fieldBV w 7 4) (fieldBV w 0 7))
  else if field w 11 2 = 3 then some (.bgeCb (fieldBV w 7 4) (fieldBV w 0 7))
  else none

/-- The 16-bit format CJ (R71 to R75). -/
def decodeCJ (w : Nat) : Option Instr :=
  if True then some (.jCj (fieldBV w 0 13))
  else none

/-- The 16-bit format CT (R71 to R75). -/
def decodeCT (w : Nat) : Option Instr :=
  if field w 0 13 = 0 then some (.endCt)
  else if field w 8 5 = 1 ∧ field w 0 4 = 0 then some (.doneCt (fieldBV w 4 4))
  else if field w 8 5 = 2 then some (.sendC (fieldBV w 4 4) (fieldBV w 0 4))
  else none

/-- The 16-bit format CV (R71 to R75). -/
def decodeCV (w : Nat) : Option Instr :=
  if field w 8 5 = 0 then some (.vorCv (fieldBV w 4 4) (fieldBV w 0 4))
  else if field w 8 5 = 1 then some (.vaddS32Cv (fieldBV w 4 4) (fieldBV w 0 4))
  else if field w 8 5 = 2 then some (.vsubS32Cv (fieldBV w 4 4) (fieldBV w 0 4))
  else if field w 8 5 = 3 then some (.vaddF32Cv (fieldBV w 4 4) (fieldBV w 0 4))
  else if field w 8 5 = 4 then some (.vsubF32Cv (fieldBV w 4 4) (fieldBV w 0 4))
  else if field w 8 5 = 5 then some (.vmulF32Cv (fieldBV w 4 4) (fieldBV w 0 4))
  else if field w 8 5 = 6 then some (.vmaxF32Cv (fieldBV w 4 4) (fieldBV w 0 4))
  else if field w 8 5 = 7 then some (.vminF32Cv (fieldBV w 4 4) (fieldBV w 0 4))
  else if field w 8 5 = 8 then some (.vandCv (fieldBV w 4 4) (fieldBV w 0 4))
  else if field w 8 5 = 9 then some (.vxorCv (fieldBV w 4 4) (fieldBV w 0 4))
  else if field w 8 5 = 10 then some (.vnotCv (fieldBV w 4 4) (fieldBV w 0 4))
  else none

/-- Major 0x00 (R79 to R87). -/
def decodeMaj00 (w : Nat) : Option Instr :=
  if field w 21 11 = 800 ∧ field w 1 1 = 0 then some (.clz (fieldBV w 2 5) (fieldBV w 16 5) (fieldBV w 0 1))
  else if field w 21 11 = 832 ∧ field w 1 1 = 0 then some (.ctz (fieldBV w 2 5) (fieldBV w 16 5) (fieldBV w 0 1))
  else if field w 21 11 = 864 ∧ field w 1 1 = 0 then some (.popc (fieldBV w 2 5) (fieldBV w 16 5) (fieldBV w 0 1))
  else if field w 21 11 = 896 ∧ field w 1 1 = 0 then some (.brev (fieldBV w 2 5) (fieldBV w 16 5) (fieldBV w 0 1))
  else if field w 26 6 = 0 ∧ field w 1 1 = 0 then some (.add (fieldBV w 2 5) (fieldBV w 16 5) (fieldBV w 21 5) (fieldBV w 0 1))
  else if field w 26 6 = 1 ∧ field w 1 1 = 0 then some (.sub (fieldBV w 2 5) (fieldBV w 16 5) (fieldBV w 21 5) (fieldBV w 0 1))
  else if field w 26 6 = 2 ∧ field w 1 1 = 0 then some (.mul (fieldBV w 2 5) (fieldBV w 16 5) (fieldBV w 21 5) (fieldBV w 0 1))
  else if field w 26 6 = 3 ∧ field w 1 1 = 0 then some (.mulh (fieldBV w 2 5) (fieldBV w 16 5) (fieldBV w 21 5) (fieldBV w 0 1))
  else if field w 26 6 = 4 ∧ field w 1 1 = 0 then some (.mulhn (fieldBV w 2 5) (fieldBV w 16 5) (fieldBV w 21 5) (fieldBV w 0 1))
  else if field w 26 6 = 5 ∧ field w 1 1 = 0 then some (.div (fieldBV w 2 5) (fieldBV w 16 5) (fieldBV w 21 5) (fieldBV w 0 1))
  else if field w 26 6 = 6 ∧ field w 1 1 = 0 then some (.divn (fieldBV w 2 5) (fieldBV w 16 5) (fieldBV w 21 5) (fieldBV w 0 1))
  else if field w 26 6 = 7 ∧ field w 1 1 = 0 then some (.rem (fieldBV w 2 5) (fieldBV w 16 5) (fieldBV w 21 5) (fieldBV w 0 1))
  else if field w 26 6 = 8 ∧ field w 1 1 = 0 then some (.remn (fieldBV w 2 5) (fieldBV w 16 5) (fieldBV w 21 5) (fieldBV w 0 1))
  else if field w 26 6 = 9 ∧ field w 1 1 = 0 then some (.and (fieldBV w 2 5) (fieldBV w 16 5) (fieldBV w 21 5) (fieldBV w 0 1))
  else if field w 26 6 = 10 ∧ field w 1 1 = 0 then some (.or (fieldBV w 2 5) (fieldBV w 16 5) (fieldBV w 21 5) (fieldBV w 0 1))
  else if field w 26 6 = 11 ∧ field w 1 1 = 0 then some (.xor (fieldBV w 2 5) (fieldBV w 16 5) (fieldBV w 21 5) (fieldBV w 0 1))
  else if field w 26 6 = 12 ∧ field w 1 1 = 0 then some (.andn (fieldBV w 2 5) (fieldBV w 16 5) (fieldBV w 21 5) (fieldBV w 0 1))
  else if field w 26 6 = 13 ∧ field w 1 1 = 0 then some (.shl (fieldBV w 2 5) (fieldBV w 16 5) (fieldBV w 21 5) (fieldBV w 0 1))
  else if field w 26 6 = 14 ∧ field w 1 1 = 0 then some (.shr (fieldBV w 2 5) (fieldBV w 16 5) (fieldBV w 21 5) (fieldBV w 0 1))
  else if field w 26 6 = 15 ∧ field w 1 1 = 0 then some (.sra (fieldBV w 2 5) (fieldBV w 16 5) (fieldBV w 21 5) (fieldBV w 0 1))
  else if field w 26 6 = 16 ∧ field w 1 1 = 0 then some (.rol (fieldBV w 2 5) (fieldBV w 16 5) (fieldBV w 21 5) (fieldBV w 0 1))
  else if field w 26 6 = 17 ∧ field w 1 1 = 0 then some (.ror (fieldBV w 2 5) (fieldBV w 16 5) (fieldBV w 21 5) (fieldBV w 0 1))
  else if field w 26 6 = 18 ∧ field w 1 1 = 0 then some (.min (fieldBV w 2 5) (fieldBV w 16 5) (fieldBV w 21 5) (fieldBV w 0 1))
  else if field w 26 6 = 19 ∧ field w 1 1 = 0 then some (.max (fieldBV w 2 5) (fieldBV w 16 5) (fieldBV w 21 5) (fieldBV w 0 1))
  else if field w 26 6 = 20 ∧ field w 1 1 = 0 then some (.minn (fieldBV w 2 5) (fieldBV w 16 5) (fieldBV w 21 5) (fieldBV w 0 1))
  else if field w 26 6 = 21 ∧ field w 1 1 = 0 then some (.maxn (fieldBV w 2 5) (fieldBV w 16 5) (fieldBV w 21 5) (fieldBV w 0 1))
  else if field w 26 6 = 22 ∧ field w 1 1 = 0 then some (.slt (fieldBV w 2 5) (fieldBV w 16 5) (fieldBV w 21 5) (fieldBV w 0 1))
  else if field w 26 6 = 23 ∧ field w 1 1 = 0 then some (.sltn (fieldBV w 2 5) (fieldBV w 16 5) (fieldBV w 21 5) (fieldBV w 0 1))
  else if field w 26 6 = 24 ∧ field w 1 1 = 0 then some (.seq (fieldBV w 2 5) (fieldBV w 16 5) (fieldBV w 21 5) (fieldBV w 0 1))
  else none

/-- Major 0x01 (R79 to R87). -/
def decodeMaj01 (w : Nat) : Option Instr :=
  if field w 1 1 = 0 then some (.addi (fieldBV w 2 5) (fieldBV w 16 5) (fieldBV w 21 11) (fieldBV w 0 1))
  else none

/-- Major 0x02 (R79 to R87). -/
def decodeMaj02 (w : Nat) : Option Instr :=
  if field w 0 2 = 0 then some (.andi (fieldBV w 2 5) (fieldBV w 16 5) (fieldBV w 21 11))
  else if field w 0 2 = 1 then some (.ori (fieldBV w 2 5) (fieldBV w 16 5) (fieldBV w 21 11))
  else if field w 0 2 = 2 then some (.xori (fieldBV w 2 5) (fieldBV w 16 5) (fieldBV w 21 11))
  else if field w 0 2 = 3 then some (.slti (fieldBV w 2 5) (fieldBV w 16 5) (fieldBV w 21 11))
  else none

/-- Major 0x03 (R79 to R87). -/
def decodeMaj03 (w : Nat) : Option Instr :=
  if field w 31 1 = 0 ∧ field w 0 2 = 0 then some (.sel (fieldBV w 2 5) (fieldBV w 16 5) (fieldBV w 21 5) (fieldBV w 26 5))
  else none

/-- Major 0x04 (R79 to R87). -/
def decodeMaj04 (w : Nat) : Option Instr :=
  if field w 28 4 = 0 ∧ field w 0 2 = 0 then some (.shli (fieldBV w 2 5) (fieldBV w 16 5) (fieldBV w 27 1) (fieldBV w 21 6))
  else if field w 28 4 = 0 ∧ field w 0 2 = 1 then some (.shri (fieldBV w 2 5) (fieldBV w 16 5) (fieldBV w 27 1) (fieldBV w 21 6))
  else if field w 28 4 = 0 ∧ field w 0 2 = 2 then some (.srai (fieldBV w 2 5) (fieldBV w 16 5) (fieldBV w 27 1) (fieldBV w 21 6))
  else none

/-- Major 0x05 (R79 to R87). -/
def decodeMaj05 (w : Nat) : Option Instr :=
  if True then some (.ldhi (fieldBV w 2 5) (fieldBV w 16 16) (fieldBV w 0 2))
  else none

/-- Major 0x06 (R79 to R87). -/
def decodeMaj06 (w : Nat) : Option Instr :=
  if field w 29 3 = 0 ∧ field w 0 2 = 1 then some (.leaScaled (fieldBV w 2 5) (fieldBV w 16 5) (fieldBV w 21 5) (fieldBV w 26 3))
  else if field w 0 2 = 0 then some (.lea (fieldBV w 2 5) (fieldBV w 16 5) (fieldBV w 21 11))
  else if field w 0 2 = 2 then some (.leaRegion (fieldBV w 2 5) (fieldBV w 16 5) (fieldBV w 28 4) (fieldBV w 21 7))
  else none

/-- Major 0x07 (R79 to R87). -/
def decodeMaj07 (w : Nat) : Option Instr :=
  if field w 0 2 = 0 then some (.bfx (fieldBV w 2 5) (fieldBV w 16 5) (fieldBV w 27 5) (fieldBV w 21 6))
  else if field w 0 2 = 1 then some (.bfxn (fieldBV w 2 5) (fieldBV w 16 5) (fieldBV w 27 5) (fieldBV w 21 6))
  else if field w 0 2 = 2 then some (.bfi (fieldBV w 2 5) (fieldBV w 16 5) (fieldBV w 27 5) (fieldBV w 21 6))
  else none

/-- Major 0x08 (R79 to R87). -/
def decodeMaj08 (w : Nat) : Option Instr :=
  if True then some (.beq (fieldBV w 2 5) (fieldBV w 16 5) (BitVec.ofNat 13 (field w 21 11 * 4 + field w 0 2)))
  else none

/-- Major 0x09 (R79 to R87). -/
def decodeMaj09 (w : Nat) : Option Instr :=
  if True then some (.bne (fieldBV w 2 5) (fieldBV w 16 5) (BitVec.ofNat 13 (field w 21 11 * 4 + field w 0 2)))
  else none

/-- Major 0x0A (R79 to R87). -/
def decodeMaj0A (w : Nat) : Option Instr :=
  if True then some (.blt (fieldBV w 2 5) (fieldBV w 16 5) (BitVec.ofNat 13 (field w 21 11 * 4 + field w 0 2)))
  else none

/-- Major 0x0B (R79 to R87). -/
def decodeMaj0B (w : Nat) : Option Instr :=
  if True then some (.bge (fieldBV w 2 5) (fieldBV w 16 5) (BitVec.ofNat 13 (field w 21 11 * 4 + field w 0 2)))
  else none

/-- Major 0x0C (R79 to R87). -/
def decodeMaj0C (w : Nat) : Option Instr :=
  if True then some (.bltn (fieldBV w 2 5) (fieldBV w 16 5) (BitVec.ofNat 13 (field w 21 11 * 4 + field w 0 2)))
  else none

/-- Major 0x0D (R79 to R87). -/
def decodeMaj0D (w : Nat) : Option Instr :=
  if True then some (.bgen (fieldBV w 2 5) (fieldBV w 16 5) (BitVec.ofNat 13 (field w 21 11 * 4 + field w 0 2)))
  else none

/-- Major 0x0E (R79 to R87). -/
def decodeMaj0E (w : Nat) : Option Instr :=
  if field w 2 5 = 0 then some (.j (BitVec.ofNat 18 (field w 16 16 * 4 + field w 0 2)))
  else if True then some (.jal (fieldBV w 2 5) (BitVec.ofNat 18 (field w 16 16 * 4 + field w 0 2)))
  else none

/-- Major 0x0F (R79 to R87). -/
def decodeMaj0F (w : Nat) : Option Instr :=
  if field w 16 16 = 0 ∧ field w 0 7 = 2 then some (.endTask)
  else if field w 30 2 = 1 ∧ field w 16 5 = 0 ∧ field w 0 7 = 2 then some (.trap (fieldBV w 21 9))
  else if field w 30 2 = 2 ∧ field w 16 5 = 0 ∧ field w 0 7 = 2 then some (.brk (fieldBV w 21 9))
  else if field w 0 7 = 1 then some (.loop (fieldBV w 16 5) (fieldBV w 21 11))
  else if field w 0 2 = 0 then some (.jalr (fieldBV w 2 5) (fieldBV w 16 5) (fieldBV w 21 11))
  else none

/-- Major 0x10 (R79 to R87). -/
def decodeMaj10 (w : Nat) : Option Instr :=
  if field w 29 2 = 3 then some (.ldRegion (fieldBV w 2 5) (fieldBV w 16 5) (BitVec.ofNat 4 (field w 31 1 * 8 + field w 26 3)) (fieldBV w 21 5) (fieldBV w 0 2))
  else if field w 31 1 = 1 then some (.ld (fieldBV w 2 5) (fieldBV w 16 5) (fieldBV w 29 2) (fieldBV w 26 3) (fieldBV w 21 5) (fieldBV w 0 2))
  else if field w 31 1 = 0 then some (.ldIndex (fieldBV w 2 5) (fieldBV w 16 5) (fieldBV w 21 5) (fieldBV w 29 2) (fieldBV w 26 3) (fieldBV w 0 2))
  else none

/-- Major 0x11 (R79 to R87). -/
def decodeMaj11 (w : Nat) : Option Instr :=
  if field w 29 2 = 3 then some (.stRegion (fieldBV w 2 5) (fieldBV w 16 5) (BitVec.ofNat 4 (field w 31 1 * 8 + field w 26 3)) (fieldBV w 21 5) (fieldBV w 0 2))
  else if field w 31 1 = 1 then some (.st (fieldBV w 2 5) (fieldBV w 16 5) (fieldBV w 29 2) (fieldBV w 26 3) (fieldBV w 21 5) (fieldBV w 0 2))
  else if field w 31 1 = 0 then some (.stIndex (fieldBV w 2 5) (fieldBV w 16 5) (fieldBV w 21 5) (fieldBV w 29 2) (fieldBV w 26 3) (fieldBV w 0 2))
  else none

/-- Major 0x12 (R79 to R87). -/
def decodeMaj12 (w : Nat) : Option Instr :=
  if field w 29 2 = 3 ∧ field w 0 2 = 0 then some (.ldvRegion (fieldBV w 2 5) (fieldBV w 16 5) (BitVec.ofNat 4 (field w 31 1 * 8 + field w 26 3)) (fieldBV w 21 5))
  else if field w 29 2 = 3 ∧ field w 0 2 = 1 then some (.stvRegion (fieldBV w 2 5) (fieldBV w 16 5) (BitVec.ofNat 4 (field w 31 1 * 8 + field w 26 3)) (fieldBV w 21 5))
  else if field w 31 1 = 1 ∧ field w 0 2 = 0 then some (.ldv (fieldBV w 2 5) (fieldBV w 16 5) (fieldBV w 29 2) (fieldBV w 26 3) (fieldBV w 21 5))
  else if field w 31 1 = 0 ∧ field w 0 2 = 0 then some (.ldvIndex (fieldBV w 2 5) (fieldBV w 16 5) (fieldBV w 21 5) (fieldBV w 29 2) (fieldBV w 26 3))
  else if field w 31 1 = 1 ∧ field w 0 2 = 1 then some (.stv (fieldBV w 2 5) (fieldBV w 16 5) (fieldBV w 29 2) (fieldBV w 26 3) (fieldBV w 21 5))
  else if field w 31 1 = 0 ∧ field w 0 2 = 1 then some (.stvIndex (fieldBV w 2 5) (fieldBV w 16 5) (fieldBV w 21 5) (fieldBV w 29 2) (fieldBV w 26 3))
  else none

/-- Major 0x13 (R79 to R87). -/
def decodeMaj13 (w : Nat) : Option Instr :=
  if field w 31 1 = 1 ∧ field w 0 2 = 0 then some (.ldf (fieldBV w 2 5) (fieldBV w 16 5) (fieldBV w 29 2) (fieldBV w 26 3) (fieldBV w 21 5))
  else if field w 31 1 = 0 ∧ field w 0 2 = 0 then some (.ldfIndex (fieldBV w 2 5) (fieldBV w 16 5) (fieldBV w 21 5) (fieldBV w 29 2) (fieldBV w 26 3))
  else if field w 31 1 = 1 ∧ field w 0 2 = 1 then some (.stf (fieldBV w 2 5) (fieldBV w 16 5) (fieldBV w 29 2) (fieldBV w 26 3) (fieldBV w 21 5))
  else if field w 31 1 = 0 ∧ field w 0 2 = 1 then some (.stfIndex (fieldBV w 2 5) (fieldBV w 16 5) (fieldBV w 21 5) (fieldBV w 29 2) (fieldBV w 26 3))
  else if field w 31 1 = 1 ∧ field w 0 2 = 2 then some (.ste (fieldBV w 2 5) (fieldBV w 16 5) (fieldBV w 29 2) (fieldBV w 26 3) (fieldBV w 21 5))
  else if field w 31 1 = 0 ∧ field w 0 2 = 2 then some (.steIndex (fieldBV w 2 5) (fieldBV w 16 5) (fieldBV w 21 5) (fieldBV w 29 2) (fieldBV w 26 3))
  else none

/-- Major 0x14 (R79 to R87). -/
def decodeMaj14 (w : Nat) : Option Instr :=
  if field w 31 1 = 0 ∧ field w 1 1 = 0 then some (.aadd (fieldBV w 2 5) (fieldBV w 16 5) (fieldBV w 21 5) (fieldBV w 29 2) (fieldBV w 26 3) (fieldBV w 0 1))
  else if field w 31 1 = 0 ∧ field w 1 1 = 1 then some (.aand (fieldBV w 2 5) (fieldBV w 16 5) (fieldBV w 21 5) (fieldBV w 29 2) (fieldBV w 26 3) (fieldBV w 0 1))
  else if field w 31 1 = 1 ∧ field w 1 1 = 0 then some (.aor (fieldBV w 2 5) (fieldBV w 16 5) (fieldBV w 21 5) (fieldBV w 29 2) (fieldBV w 26 3) (fieldBV w 0 1))
  else if field w 31 1 = 1 ∧ field w 1 1 = 1 then some (.axor (fieldBV w 2 5) (fieldBV w 16 5) (fieldBV w 21 5) (fieldBV w 29 2) (fieldBV w 26 3) (fieldBV w 0 1))
  else none

/-- Major 0x15 (R79 to R87). -/
def decodeMaj15 (w : Nat) : Option Instr :=
  if field w 31 1 = 0 ∧ field w 1 1 = 0 then some (.amin (fieldBV w 2 5) (fieldBV w 16 5) (fieldBV w 21 5) (fieldBV w 29 2) (fieldBV w 26 3) (fieldBV w 0 1))
  else if field w 31 1 = 0 ∧ field w 1 1 = 1 then some (.amax (fieldBV w 2 5) (fieldBV w 16 5) (fieldBV w 21 5) (fieldBV w 29 2) (fieldBV w 26 3) (fieldBV w 0 1))
  else if field w 31 1 = 1 ∧ field w 1 1 = 0 then some (.aminn (fieldBV w 2 5) (fieldBV w 16 5) (fieldBV w 21 5) (fieldBV w 29 2) (fieldBV w 26 3) (fieldBV w 0 1))
  else if field w 31 1 = 1 ∧ field w 1 1 = 1 then some (.amaxn (fieldBV w 2 5) (fieldBV w 16 5) (fieldBV w 21 5) (fieldBV w 29 2) (fieldBV w 26 3) (fieldBV w 0 1))
  else none

/-- Major 0x16 (R79 to R87). -/
def decodeMaj16 (w : Nat) : Option Instr :=
  if field w 31 1 = 0 ∧ field w 1 1 = 0 then some (.aswp (fieldBV w 2 5) (fieldBV w 16 5) (fieldBV w 21 5) (fieldBV w 29 2) (fieldBV w 26 3) (fieldBV w 0 1))
  else if field w 31 1 = 0 ∧ field w 1 1 = 1 then some (.acas (fieldBV w 2 5) (fieldBV w 16 5) (fieldBV w 21 5) (fieldBV w 29 2) (fieldBV w 26 3) (fieldBV w 0 1))
  else if field w 31 1 = 1 ∧ field w 1 1 = 0 then some (.afadd (fieldBV w 2 5) (fieldBV w 16 5) (fieldBV w 21 5) (fieldBV w 29 2) (fieldBV w 26 3) (fieldBV w 0 1))
  else if field w 31 1 = 1 ∧ field w 1 1 = 1 then some (.adf (fieldBV w 2 5) (fieldBV w 16 5) (fieldBV w 21 5) (fieldBV w 29 2) (fieldBV w 26 3) (fieldBV w 0 1))
  else none

/-- Major 0x17 (R79 to R87). -/
def decodeMaj17 (w : Nat) : Option Instr :=
  if field w 16 16 = 0 ∧ field w 0 7 = 2 then some (.ifence)
  else if field w 16 16 = 32768 ∧ field w 0 7 = 2 then some (.nmfence)
  else if field w 31 1 = 0 ∧ field w 16 10 = 0 ∧ field w 0 7 = 0 then some (.fence (fieldBV w 29 2) (fieldBV w 26 3))
  else if field w 26 6 = 0 ∧ field w 0 7 = 1 then some (.aliasf (fieldBV w 16 5) (fieldBV w 21 5))
  else if field w 26 6 = 0 ∧ field w 5 2 = 0 ∧ field w 0 2 = 3 then some (.pfx (fieldBV w 16 5) (fieldBV w 21 5) (fieldBV w 4 1) (fieldBV w 2 2))
  else if field w 26 6 = 32 ∧ field w 0 2 = 0 then some (.nmadd (fieldBV w 16 5) (fieldBV w 21 5) (fieldBV w 2 5))
  else if field w 26 6 = 32 ∧ field w 0 2 = 1 then some (.nmred (fieldBV w 16 5) (fieldBV w 21 5) (fieldBV w 4 3) (fieldBV w 2 2))
  else none

/-- Major 0x18 (R79 to R87). -/
def decodeMaj18 (w : Nat) : Option Instr :=
  if field w 29 3 = 4 ∧ field w 21 5 = 0 ∧ field w 1 1 = 0 then some (.fsqrt (fieldBV w 2 5) (fieldBV w 16 5) (fieldBV w 26 3) (fieldBV w 0 1))
  else if field w 29 3 = 0 ∧ field w 1 1 = 0 then some (.fadd (fieldBV w 2 5) (fieldBV w 16 5) (fieldBV w 21 5) (fieldBV w 26 3) (fieldBV w 0 1))
  else if field w 29 3 = 1 ∧ field w 1 1 = 0 then some (.fsub (fieldBV w 2 5) (fieldBV w 16 5) (fieldBV w 21 5) (fieldBV w 26 3) (fieldBV w 0 1))
  else if field w 29 3 = 2 ∧ field w 1 1 = 0 then some (.fmul (fieldBV w 2 5) (fieldBV w 16 5) (fieldBV w 21 5) (fieldBV w 26 3) (fieldBV w 0 1))
  else if field w 29 3 = 3 ∧ field w 1 1 = 0 then some (.fdiv (fieldBV w 2 5) (fieldBV w 16 5) (fieldBV w 21 5) (fieldBV w 26 3) (fieldBV w 0 1))
  else none

/-- Major 0x19 (R79 to R87). -/
def decodeMaj19 (w : Nat) : Option Instr :=
  if field w 29 3 = 0 ∧ field w 1 1 = 0 then some (.ffma (fieldBV w 2 5) (fieldBV w 16 5) (fieldBV w 21 5) (fieldBV w 26 3) (fieldBV w 0 1))
  else if field w 29 3 = 1 ∧ field w 1 1 = 0 then some (.ffms (fieldBV w 2 5) (fieldBV w 16 5) (fieldBV w 21 5) (fieldBV w 26 3) (fieldBV w 0 1))
  else if field w 29 3 = 2 ∧ field w 1 1 = 0 then some (.ffnma (fieldBV w 2 5) (fieldBV w 16 5) (fieldBV w 21 5) (fieldBV w 26 3) (fieldBV w 0 1))
  else none

/-- Major 0x1A (R79 to R87). -/
def decodeMaj1A (w : Nat) : Option Instr :=
  if field w 21 11 = 1280 ∧ field w 1 1 = 0 then some (.fclass (fieldBV w 2 5) (fieldBV w 16 5) (fieldBV w 0 1))
  else if field w 26 6 = 0 ∧ field w 1 1 = 0 then some (.fmin (fieldBV w 2 5) (fieldBV w 16 5) (fieldBV w 21 5) (fieldBV w 0 1))
  else if field w 26 6 = 8 ∧ field w 1 1 = 0 then some (.fmax (fieldBV w 2 5) (fieldBV w 16 5) (fieldBV w 21 5) (fieldBV w 0 1))
  else if field w 26 6 = 16 ∧ field w 1 1 = 0 then some (.feq (fieldBV w 2 5) (fieldBV w 16 5) (fieldBV w 21 5) (fieldBV w 0 1))
  else if field w 26 6 = 24 ∧ field w 1 1 = 0 then some (.flt (fieldBV w 2 5) (fieldBV w 16 5) (fieldBV w 21 5) (fieldBV w 0 1))
  else if field w 26 6 = 32 ∧ field w 1 1 = 0 then some (.fle (fieldBV w 2 5) (fieldBV w 16 5) (fieldBV w 21 5) (fieldBV w 0 1))
  else none

/-- Major 0x1B (R79 to R87). -/
def decodeMaj1B (w : Nat) : Option Instr :=
  if field w 26 6 = 0 ∧ field w 1 1 = 0 then some (.fsgnj (fieldBV w 2 5) (fieldBV w 16 5) (fieldBV w 21 5) (fieldBV w 0 1))
  else if field w 26 6 = 8 ∧ field w 1 1 = 0 then some (.fsgnjn (fieldBV w 2 5) (fieldBV w 16 5) (fieldBV w 21 5) (fieldBV w 0 1))
  else if field w 26 6 = 16 ∧ field w 1 1 = 0 then some (.fsgnjx (fieldBV w 2 5) (fieldBV w 16 5) (fieldBV w 21 5) (fieldBV w 0 1))
  else none

/-- Major 0x1C (R79 to R87). -/
def decodeMaj1C (w : Nat) : Option Instr :=
  if field w 0 2 = 0 then some (.fcvt (fieldBV w 2 5) (fieldBV w 16 5) (fieldBV w 29 3) (fieldBV w 25 4) (fieldBV w 21 4))
  else none

/-- Major 0x1D (R79 to R87). -/
def decodeMaj1D (w : Nat) : Option Instr :=
  if field w 21 11 = 0 ∧ field w 0 2 = 0 then some (.fmvg (fieldBV w 2 5) (fieldBV w 16 5))
  else if field w 21 11 = 0 ∧ field w 0 2 = 1 then some (.fmvf (fieldBV w 2 5) (fieldBV w 16 5))
  else none

/-- Major 0x1E (R79 to R87). -/
def decodeMaj1E (w : Nat) : Option Instr :=
  if field w 21 11 = 0 ∧ field w 1 1 = 0 then some (.frcpa (fieldBV w 2 5) (fieldBV w 16 5) (fieldBV w 0 1))
  else if field w 21 11 = 256 ∧ field w 1 1 = 0 then some (.frsqa (fieldBV w 2 5) (fieldBV w 16 5) (fieldBV w 0 1))
  else if field w 29 3 = 2 ∧ field w 1 1 = 0 then some (.frcpr (fieldBV w 2 5) (fieldBV w 16 5) (fieldBV w 21 5) (fieldBV w 26 3) (fieldBV w 0 1))
  else if field w 29 3 = 3 ∧ field w 1 1 = 0 then some (.frsqr (fieldBV w 2 5) (fieldBV w 16 5) (fieldBV w 21 5) (fieldBV w 26 3) (fieldBV w 0 1))
  else none

/-- Major 0x20 (R79 to R87). -/
def decodeMaj20 (w : Nat) : Option Instr :=
  if field w 28 4 = 6 ∧ field w 20 4 = 0 then some (.vabs (fieldBV w 2 4) (fieldBV w 16 4) (fieldBV w 24 4) (BitVec.ofNat 3 (field w 6 1 * 4 + field w 0 2)))
  else if field w 28 4 = 8 ∧ field w 20 4 = 0 then some (.vneg (fieldBV w 2 4) (fieldBV w 16 4) (fieldBV w 24 4) (BitVec.ofNat 3 (field w 6 1 * 4 + field w 0 2)))
  else if field w 24 8 = 144 then some (.vdot (fieldBV w 2 4) (fieldBV w 16 4) (fieldBV w 20 4) (BitVec.ofNat 3 (field w 6 1 * 4 + field w 0 2)))
  else if field w 28 4 = 0 then some (.vadd (fieldBV w 2 4) (fieldBV w 16 4) (fieldBV w 20 4) (fieldBV w 24 4) (BitVec.ofNat 3 (field w 6 1 * 4 + field w 0 2)))
  else if field w 28 4 = 1 then some (.vsub (fieldBV w 2 4) (fieldBV w 16 4) (fieldBV w 20 4) (fieldBV w 24 4) (BitVec.ofNat 3 (field w 6 1 * 4 + field w 0 2)))
  else if field w 28 4 = 2 then some (.vmul (fieldBV w 2 4) (fieldBV w 16 4) (fieldBV w 20 4) (fieldBV w 24 4) (BitVec.ofNat 3 (field w 6 1 * 4 + field w 0 2)))
  else if field w 28 4 = 3 then some (.vfma (fieldBV w 2 4) (fieldBV w 16 4) (fieldBV w 20 4) (fieldBV w 24 4) (BitVec.ofNat 3 (field w 6 1 * 4 + field w 0 2)))
  else if field w 28 4 = 4 then some (.vmin (fieldBV w 2 4) (fieldBV w 16 4) (fieldBV w 20 4) (fieldBV w 24 4) (BitVec.ofNat 3 (field w 6 1 * 4 + field w 0 2)))
  else if field w 28 4 = 5 then some (.vmax (fieldBV w 2 4) (fieldBV w 16 4) (fieldBV w 20 4) (fieldBV w 24 4) (BitVec.ofNat 3 (field w 6 1 * 4 + field w 0 2)))
  else if field w 28 4 = 7 then some (.vabsd (fieldBV w 2 4) (fieldBV w 16 4) (fieldBV w 20 4) (fieldBV w 24 4) (BitVec.ofNat 3 (field w 6 1 * 4 + field w 0 2)))
  else none

/-- Major 0x21 (R79 to R87). -/
def decodeMaj21 (w : Nat) : Option Instr :=
  if field w 20 12 = 768 ∧ field w 6 1 = 0 ∧ field w 0 2 = 0 then some (.vnot (fieldBV w 2 4) (fieldBV w 16 4))
  else if field w 24 8 = 0 ∧ field w 6 1 = 0 ∧ field w 0 2 = 0 then some (.vand (fieldBV w 2 4) (fieldBV w 16 4) (fieldBV w 20 4))
  else if field w 24 8 = 16 ∧ field w 6 1 = 0 ∧ field w 0 2 = 0 then some (.vor (fieldBV w 2 4) (fieldBV w 16 4) (fieldBV w 20 4))
  else if field w 24 8 = 32 ∧ field w 6 1 = 0 ∧ field w 0 2 = 0 then some (.vxor (fieldBV w 2 4) (fieldBV w 16 4) (fieldBV w 20 4))
  else if field w 24 8 = 64 then some (.vshl (fieldBV w 2 4) (fieldBV w 16 4) (fieldBV w 20 4) (BitVec.ofNat 3 (field w 6 1 * 4 + field w 0 2)))
  else if field w 24 8 = 80 then some (.vshr (fieldBV w 2 4) (fieldBV w 16 4) (fieldBV w 20 4) (BitVec.ofNat 3 (field w 6 1 * 4 + field w 0 2)))
  else if field w 24 8 = 96 then some (.vsra (fieldBV w 2 4) (fieldBV w 16 4) (fieldBV w 20 4) (BitVec.ofNat 3 (field w 6 1 * 4 + field w 0 2)))
  else none

/-- Major 0x22 (R79 to R87). -/
def decodeMaj22 (w : Nat) : Option Instr :=
  if field w 24 8 = 0 then some (.vcmpeq (fieldBV w 2 4) (fieldBV w 16 4) (fieldBV w 20 4) (BitVec.ofNat 3 (field w 6 1 * 4 + field w 0 2)))
  else if field w 28 4 = 1 then some (.vcmplt (fieldBV w 2 4) (fieldBV w 16 4) (fieldBV w 20 4) (fieldBV w 24 4) (BitVec.ofNat 3 (field w 6 1 * 4 + field w 0 2)))
  else if field w 28 4 = 2 then some (.vcmple (fieldBV w 2 4) (fieldBV w 16 4) (fieldBV w 20 4) (fieldBV w 24 4) (BitVec.ofNat 3 (field w 6 1 * 4 + field w 0 2)))
  else if field w 28 4 = 3 then some (.vsel (fieldBV w 2 4) (fieldBV w 16 4) (fieldBV w 20 4) (fieldBV w 24 4) (BitVec.ofNat 3 (field w 6 1 * 4 + field w 0 2)))
  else none

/-- Major 0x23 (R79 to R87). -/
def decodeMaj23 (w : Nat) : Option Instr :=
  if field w 24 8 = 16 ∧ field w 16 4 = 0 then some (.vbcast (fieldBV w 2 4) (fieldBV w 20 4) (BitVec.ofNat 3 (field w 6 1 * 4 + field w 0 2)))
  else if field w 28 4 = 2 ∧ field w 16 4 = 0 then some (.vins (fieldBV w 2 4) (fieldBV w 20 4) (fieldBV w 24 4) (BitVec.ofNat 3 (field w 6 1 * 4 + field w 0 2)))
  else if field w 28 4 = 3 ∧ field w 20 4 = 0 then some (.vext (fieldBV w 2 4) (fieldBV w 16 4) (fieldBV w 24 4) (BitVec.ofNat 3 (field w 6 1 * 4 + field w 0 2)))
  else if field w 28 4 = 0 ∧ field w 6 1 = 0 ∧ field w 0 2 = 0 then some (.vperm (fieldBV w 2 4) (fieldBV w 16 4) (fieldBV w 20 4) (fieldBV w 24 4))
  else none

/-- Major 0x24 (R79 to R87). -/
def decodeMaj24 (w : Nat) : Option Instr :=
  if field w 20 12 = 0 then some (.vredadd (fieldBV w 2 4) (fieldBV w 16 4) (BitVec.ofNat 3 (field w 6 1 * 4 + field w 0 2)))
  else if field w 20 12 = 1536 then some (.vthr (fieldBV w 2 4) (fieldBV w 16 4) (BitVec.ofNat 3 (field w 6 1 * 4 + field w 0 2)))
  else if field w 20 12 = 1792 then some (.vrcpa (fieldBV w 2 4) (fieldBV w 16 4) (BitVec.ofNat 3 (field w 6 1 * 4 + field w 0 2)))
  else if field w 20 12 = 2048 then some (.vrsqa (fieldBV w 2 4) (fieldBV w 16 4) (BitVec.ofNat 3 (field w 6 1 * 4 + field w 0 2)))
  else if field w 28 4 = 1 ∧ field w 20 4 = 0 then some (.vredmin (fieldBV w 2 4) (fieldBV w 16 4) (fieldBV w 24 4) (BitVec.ofNat 3 (field w 6 1 * 4 + field w 0 2)))
  else if field w 28 4 = 2 ∧ field w 20 4 = 0 then some (.vredmax (fieldBV w 2 4) (fieldBV w 16 4) (fieldBV w 24 4) (BitVec.ofNat 3 (field w 6 1 * 4 + field w 0 2)))
  else if field w 28 4 = 5 ∧ field w 20 4 = 0 then some (.vunpk (fieldBV w 2 4) (fieldBV w 16 4) (fieldBV w 24 4) (BitVec.ofNat 3 (field w 6 1 * 4 + field w 0 2)))
  else if field w 28 4 = 3 then some (.vcvt (fieldBV w 2 4) (fieldBV w 16 4) (fieldBV w 20 4) (fieldBV w 24 4) (BitVec.ofNat 3 (field w 6 1 * 4 + field w 0 2)))
  else if field w 28 4 = 4 then some (.vpack (fieldBV w 2 4) (fieldBV w 16 4) (fieldBV w 20 4) (fieldBV w 24 4) (BitVec.ofNat 3 (field w 6 1 * 4 + field w 0 2)))
  else none

/-- Major 0x28 (R79 to R87). -/
def decodeMaj28 (w : Nat) : Option Instr :=
  if field w 21 11 = 96 ∧ field w 0 7 = 0 then some (.done (fieldBV w 16 5))
  else if field w 21 11 = 32 ∧ field w 0 2 = 0 then some (.sendr (fieldBV w 2 5) (fieldBV w 16 5))
  else if field w 26 6 = 2 ∧ field w 0 7 = 0 then some (.fork (fieldBV w 16 5) (fieldBV w 21 5))
  else if field w 26 6 = 0 ∧ field w 0 2 = 0 then some (.send (fieldBV w 2 5) (fieldBV w 16 5) (fieldBV w 21 5))
  else if field w 26 6 = 4 ∧ field w 0 2 = 0 then some (.clsbind (fieldBV w 2 5) (fieldBV w 16 5) (fieldBV w 21 5))
  else none

/-- Major 0x29 (R79 to R87). -/
def decodeMaj29 (w : Nat) : Option Instr :=
  if field w 21 11 = 32 ∧ field w 0 7 = 0 then some (.winset (fieldBV w 16 5))
  else if field w 21 11 = 64 ∧ field w 0 7 = 0 then some (.qcfg (fieldBV w 16 5))
  else if field w 21 11 = 0 ∧ field w 2 5 = 0 then some (.nsend (fieldBV w 16 5) (fieldBV w 0 2))
  else none

/-- Major 0x2A (R79 to R87). -/
def decodeMaj2A (w : Nat) : Option Instr :=
  if field w 16 16 = 3072 ∧ field w 0 7 = 0 then some (.repe)
  else if field w 21 11 = 128 ∧ field w 0 7 = 0 then some (.repgo (fieldBV w 16 5))
  else if field w 16 16 = 1024 ∧ field w 1 1 = 0 then some (.strmoff (fieldBV w 2 5) (fieldBV w 0 1))
  else if field w 26 6 = 2 ∧ field w 0 2 = 0 then some (.repb (fieldBV w 2 5) (fieldBV w 16 5) (fieldBV w 21 5))
  else if field w 26 6 = 0 ∧ field w 1 1 = 0 then some (.strm (fieldBV w 2 5) (fieldBV w 16 5) (fieldBV w 21 5) (fieldBV w 0 1))
  else none

/-- Major 0x2B (R79 to R87). -/
def decodeMaj2B (w : Nat) : Option Instr :=
  if field w 0 2 = 0 then some (.tmld (fieldBV w 2 5) (fieldBV w 16 5) (fieldBV w 21 11))
  else none

/-- Major 0x2C (R79 to R87). -/
def decodeMaj2C (w : Nat) : Option Instr :=
  if field w 29 3 = 0 ∧ field w 3 4 = 0 ∧ field w 1 1 = 0 then some (.mmaE4m3E4m3 (fieldBV w 16 4) (fieldBV w 20 4) (fieldBV w 24 5) (fieldBV w 2 1) (fieldBV w 0 1))
  else if field w 29 3 = 1 ∧ field w 3 4 = 0 ∧ field w 1 1 = 0 then some (.mmaE4m3E5m2 (fieldBV w 16 4) (fieldBV w 20 4) (fieldBV w 24 5) (fieldBV w 2 1) (fieldBV w 0 1))
  else if field w 29 3 = 2 ∧ field w 3 4 = 0 ∧ field w 1 1 = 0 then some (.mmaE5m2E4m3 (fieldBV w 16 4) (fieldBV w 20 4) (fieldBV w 24 5) (fieldBV w 2 1) (fieldBV w 0 1))
  else if field w 29 3 = 3 ∧ field w 3 4 = 0 ∧ field w 1 1 = 0 then some (.mmaE5m2E5m2 (fieldBV w 16 4) (fieldBV w 20 4) (fieldBV w 24 5) (fieldBV w 2 1) (fieldBV w 0 1))
  else if field w 29 3 = 4 ∧ field w 3 4 = 0 ∧ field w 1 1 = 0 then some (.mmaE2m1E2m1 (fieldBV w 16 4) (fieldBV w 20 4) (fieldBV w 24 5) (fieldBV w 2 1) (fieldBV w 0 1))
  else if field w 29 3 = 5 ∧ field w 3 4 = 0 ∧ field w 1 1 = 0 then some (.mmaE2m1E4m3 (fieldBV w 16 4) (fieldBV w 20 4) (fieldBV w 24 5) (fieldBV w 2 1) (fieldBV w 0 1))
  else if field w 29 3 = 6 ∧ field w 3 4 = 0 ∧ field w 1 1 = 0 then some (.mmaEc8Ec8 (fieldBV w 16 4) (fieldBV w 20 4) (fieldBV w 24 5) (fieldBV w 2 1) (fieldBV w 0 1))
  else if field w 29 3 = 7 ∧ field w 3 4 = 0 ∧ field w 1 1 = 0 then some (.mmaEc8E4m3 (fieldBV w 16 4) (fieldBV w 20 4) (fieldBV w 24 5) (fieldBV w 2 1) (fieldBV w 0 1))
  else none

/-- Major 0x2D (R79 to R87). -/
def decodeMaj2D (w : Nat) : Option Instr :=
  if field w 24 8 = 0 ∧ field w 1 6 = 0 then some (.mmaBf16Bf16 (fieldBV w 16 4) (fieldBV w 20 4) (fieldBV w 0 1))
  else if field w 24 8 = 32 ∧ field w 1 6 = 0 then some (.mmaF16F16 (fieldBV w 16 4) (fieldBV w 20 4) (fieldBV w 0 1))
  else if field w 24 8 = 64 ∧ field w 1 6 = 0 then some (.mmaS8S8 (fieldBV w 16 4) (fieldBV w 20 4) (fieldBV w 0 1))
  else if field w 24 8 = 96 ∧ field w 1 6 = 0 then some (.mmaS4S8 (fieldBV w 16 4) (fieldBV w 20 4) (fieldBV w 0 1))
  else if field w 24 8 = 128 ∧ field w 1 6 = 0 then some (.mmaBf16S4 (fieldBV w 16 4) (fieldBV w 20 4) (fieldBV w 0 1))
  else if field w 24 8 = 192 ∧ field w 1 6 = 0 then some (.mmapBf16 (fieldBV w 16 4) (fieldBV w 20 4) (fieldBV w 0 1))
  else if field w 29 3 = 5 ∧ field w 1 6 = 0 then some (.mmapE4m3 (fieldBV w 16 4) (fieldBV w 20 4) (fieldBV w 24 5) (fieldBV w 0 1))
  else none

/-- Major 0x2E (R79 to R87). -/
def decodeMaj2E (w : Nat) : Option Instr :=
  if field w 24 8 = 0 ∧ field w 1 6 = 0 then some (.distL1Bf16 (fieldBV w 16 4) (fieldBV w 20 4) (fieldBV w 0 1))
  else if field w 24 8 = 32 ∧ field w 1 6 = 0 then some (.distL1E4m3 (fieldBV w 16 4) (fieldBV w 20 4) (fieldBV w 0 1))
  else if field w 24 8 = 64 ∧ field w 1 6 = 0 then some (.distL1S8 (fieldBV w 16 4) (fieldBV w 20 4) (fieldBV w 0 1))
  else if field w 24 8 = 96 ∧ field w 1 6 = 0 then some (.distL2Bf16 (fieldBV w 16 4) (fieldBV w 20 4) (fieldBV w 0 1))
  else if field w 24 8 = 128 ∧ field w 1 6 = 0 then some (.distL2E4m3 (fieldBV w 16 4) (fieldBV w 20 4) (fieldBV w 0 1))
  else if field w 24 8 = 160 ∧ field w 1 6 = 0 then some (.distL2S8 (fieldBV w 16 4) (fieldBV w 20 4) (fieldBV w 0 1))
  else none

/-- Major 0x2F (R79 to R87). -/
def decodeMaj2F (w : Nat) : Option Instr :=
  if field w 19 13 = 3136 ∧ field w 0 7 = 0 then some (.ringcfgReset (fieldBV w 16 3))
  else if field w 28 4 = 0 ∧ field w 16 8 = 0 ∧ field w 3 4 = 0 ∧ field w 1 1 = 0 then some (.adrain (fieldBV w 27 1) (fieldBV w 24 3) (fieldBV w 2 1) (fieldBV w 0 1))
  else if field w 25 7 = 32 ∧ field w 16 8 = 0 ∧ field w 1 1 = 0 then some (.async (fieldBV w 2 5) (fieldBV w 24 1) (fieldBV w 0 1))
  else if field w 19 13 = 3072 ∧ field w 0 2 = 0 then some (.ringcfgSet (fieldBV w 2 5) (fieldBV w 16 3))
  else if field w 19 13 = 3104 ∧ field w 0 2 = 0 then some (.ringcfgPush (fieldBV w 2 5) (fieldBV w 16 3))
  else if field w 19 13 = 3168 ∧ field w 0 2 = 0 then some (.ringcfgQuery (fieldBV w 2 5) (fieldBV w 16 3))
  else if field w 26 6 = 8 ∧ field w 20 4 = 0 ∧ field w 1 1 = 0 then some (.cupd (fieldBV w 2 5) (fieldBV w 16 4) (fieldBV w 24 2) (fieldBV w 0 1))
  else none

/-- Major 0x30 (R79 to R87). -/
def decodeMaj30 (w : Nat) : Option Instr :=
  if field w 16 16 = 0 ∧ field w 1 6 = 0 then some (.accz (fieldBV w 0 1))
  else if field w 16 16 = 8192 ∧ field w 1 1 = 0 then some (.accrd (fieldBV w 2 5) (fieldBV w 0 1))
  else if field w 16 16 = 16384 ∧ field w 1 1 = 0 then some (.accwr (fieldBV w 2 5) (fieldBV w 0 1))
  else if field w 29 3 = 3 ∧ field w 16 8 = 0 ∧ field w 3 4 = 0 ∧ field w 1 1 = 0 then some (.accsc (fieldBV w 24 5) (fieldBV w 2 1) (fieldBV w 0 1))
  else none

/-- Major 0x34 (R79 to R87). -/
noncomputable def decodeMaj34 (w : Nat) : Option Instr :=
  if field w 21 11 = 192 ∧ field w 0 2 = 0 then some (.cpycan (fieldBV w 2 5) (fieldBV w 16 5))
  else if field w 26 6 = 0 ∧ field w 0 2 = 0 then some (.cpy (fieldBV w 2 5) (fieldBV w 16 5) (fieldBV w 21 5))
  else if field w 26 6 = 1 ∧ field w 0 2 = 0 then some (.cpykv (fieldBV w 2 5) (fieldBV w 16 5) (fieldBV w 21 5))
  else if field w 26 6 = 2 ∧ field w 0 2 = 0 then some (.kvapp (fieldBV w 2 5) (fieldBV w 16 5) (fieldBV w 21 5))
  else if field w 26 6 = 3 ∧ field w 0 2 = 0 then some (.get (fieldBV w 2 5) (fieldBV w 16 5) (fieldBV w 21 5))
  else if field w 26 6 = 4 ∧ field w 0 2 = 0 then some (.put (fieldBV w 2 5) (fieldBV w 16 5) (fieldBV w 21 5))
  else if field w 26 6 = 5 ∧ field w 0 2 = 0 then some (.halo (fieldBV w 2 5) (fieldBV w 16 5) (fieldBV w 21 5))
  else if field w 26 6 = 7 ∧ field w 0 2 = 0 then some (.flushr (fieldBV w 2 5) (fieldBV w 16 5) (fieldBV w 21 5))
  else if field w 26 6 = 8 ∧ field w 0 2 = 0 then some (.invr (fieldBV w 2 5) (fieldBV w 16 5) (fieldBV w 21 5))
  else none

/-- Major 0x38 (R79 to R87). -/
noncomputable def decodeMaj38 (w : Nat) : Option Instr :=
  if field w 16 16 = 1024 ∧ field w 0 2 = 0 then some (.waytake (fieldBV w 2 5))
  else if field w 21 11 = 0 ∧ field w 0 2 = 0 then some (.waygive (fieldBV w 2 5) (fieldBV w 16 5))
  else if field w 21 11 = 64 ∧ field w 0 2 = 0 then some (.rowop (fieldBV w 2 5) (fieldBV w 16 5))
  else none

/-- Major 0x39 (R79 to R87). -/
noncomputable def decodeMaj39 (w : Nat) : Option Instr :=
  if field w 26 6 = 2 ∧ field w 0 2 = 0 then some (.bsopAnd (fieldBV w 16 5) (fieldBV w 21 5) (fieldBV w 2 5))
  else if field w 26 6 = 3 ∧ field w 0 2 = 0 then some (.bsopOr (fieldBV w 16 5) (fieldBV w 21 5) (fieldBV w 2 5))
  else if field w 26 6 = 4 ∧ field w 0 2 = 0 then some (.bsopXor (fieldBV w 16 5) (fieldBV w 21 5) (fieldBV w 2 5))
  else if field w 26 6 = 5 ∧ field w 0 2 = 0 then some (.bsopNot (fieldBV w 16 5) (fieldBV w 21 5) (fieldBV w 2 5))
  else if field w 26 6 = 0 ∧ field w 1 1 = 0 then some (.bsopAdd (fieldBV w 16 5) (fieldBV w 21 5) (fieldBV w 2 5) (fieldBV w 0 1))
  else if field w 26 6 = 1 ∧ field w 1 1 = 0 then some (.bsopSub (fieldBV w 16 5) (fieldBV w 21 5) (fieldBV w 2 5) (fieldBV w 0 1))
  else if field w 26 6 = 6 ∧ field w 1 1 = 0 then some (.bsopCmpeq (fieldBV w 16 5) (fieldBV w 21 5) (fieldBV w 2 5) (fieldBV w 0 1))
  else if field w 26 6 = 7 ∧ field w 1 1 = 0 then some (.bsopCmplt (fieldBV w 16 5) (fieldBV w 21 5) (fieldBV w 2 5) (fieldBV w 0 1))
  else if field w 26 6 = 8 ∧ field w 1 1 = 0 then some (.bsopCmple (fieldBV w 16 5) (fieldBV w 21 5) (fieldBV w 2 5) (fieldBV w 0 1))
  else if field w 26 6 = 9 ∧ field w 1 1 = 0 then some (.bsopSel (fieldBV w 16 5) (fieldBV w 21 5) (fieldBV w 2 5) (fieldBV w 0 1))
  else if field w 26 6 = 10 ∧ field w 1 1 = 0 then some (.bsopShr (fieldBV w 16 5) (fieldBV w 21 5) (fieldBV w 2 5) (fieldBV w 0 1))
  else if field w 26 6 = 11 ∧ field w 1 1 = 0 then some (.bsopPopc (fieldBV w 16 5) (fieldBV w 21 5) (fieldBV w 2 5) (fieldBV w 0 1))
  else if field w 26 6 = 12 ∧ field w 1 1 = 0 then some (.bsopMin (fieldBV w 16 5) (fieldBV w 21 5) (fieldBV w 2 5) (fieldBV w 0 1))
  else if field w 26 6 = 13 ∧ field w 1 1 = 0 then some (.bsopMax (fieldBV w 16 5) (fieldBV w 21 5) (fieldBV w 2 5) (fieldBV w 0 1))
  else if field w 26 6 = 14 ∧ field w 1 1 = 0 then some (.bsopMul (fieldBV w 16 5) (fieldBV w 21 5) (fieldBV w 2 5) (fieldBV w 0 1))
  else none

/-- Major 0x3C (R79 to R87). -/
noncomputable def decodeMaj3C (w : Nat) : Option Instr :=
  if field w 21 11 = 0 then some (.egcfg (fieldBV w 2 5) (fieldBV w 16 5) (fieldBV w 0 2))
  else if field w 21 11 = 64 then some (.egfind (fieldBV w 2 5) (fieldBV w 16 5) (fieldBV w 0 2))
  else if field w 21 11 = 160 then some (.egnode (fieldBV w 2 5) (fieldBV w 16 5) (fieldBV w 0 2))
  else if field w 21 11 = 224 then some (.egrank (fieldBV w 2 5) (fieldBV w 16 5) (fieldBV w 0 2))
  else if field w 21 11 = 256 then some (.egstat (fieldBV w 2 5) (fieldBV w 16 5) (fieldBV w 0 2))
  else if field w 26 6 = 1 then some (.egins (fieldBV w 2 5) (fieldBV w 16 5) (fieldBV w 21 5) (fieldBV w 0 2))
  else if field w 26 6 = 3 then some (.egmrg (fieldBV w 2 5) (fieldBV w 16 5) (fieldBV w 21 5) (fieldBV w 0 2))
  else if field w 26 6 = 4 then some (.egmatch (fieldBV w 2 5) (fieldBV w 16 5) (fieldBV w 21 5) (fieldBV w 0 2))
  else if field w 26 6 = 6 then some (.egenum (fieldBV w 2 5) (fieldBV w 16 5) (fieldBV w 21 5) (fieldBV w 0 2))
  else none

/-- Major 0x3E (R79 to R87). -/
noncomputable def decodeMaj3E (w : Nat) : Option Instr :=
  if field w 16 16 = 64512 ∧ field w 0 7 = 0 then some (.eret)
  else if field w 21 11 = 2018 ∧ field w 0 7 = 0 then some (.tlbinv (fieldBV w 16 5))
  else if field w 21 11 = 2017 ∧ field w 0 2 = 0 then some (.tlbsd (fieldBV w 2 5) (fieldBV w 16 5))
  else if field w 21 11 = 2019 ∧ field w 0 2 = 0 then some (.suprd (fieldBV w 2 5) (fieldBV w 16 5))
  else if field w 21 11 = 2020 ∧ field w 0 2 = 0 then some (.partset (fieldBV w 2 5) (fieldBV w 16 5))
  else if field w 16 5 = 0 ∧ field w 0 2 = 0 then some (.csrrd (fieldBV w 2 5) (fieldBV w 21 11))
  else if field w 0 2 = 1 then some (.csrwr (fieldBV w 2 5) (fieldBV w 16 5) (fieldBV w 21 11))
  else if field w 0 2 = 2 then some (.csrset (fieldBV w 2 5) (fieldBV w 16 5) (fieldBV w 21 11))
  else if field w 0 2 = 3 then some (.csrclr (fieldBV w 2 5) (fieldBV w 16 5) (fieldBV w 21 11))
  else none

/-- A 16-bit instruction, by its op3 in H[15:13] (R69, R71). -/
def decodeRaw16 (w : Nat) : Option Instr :=
  match field w 13 3 with
  | 0 => decodeCR w
  | 1 => decodeCI w
  | 2 => decodeCM w
  | 3 => decodeCB w
  | 4 => decodeCJ w
  | 5 => decodeCT w
  | 6 => decodeCV w
  | _ => none

/-- A 32-bit instruction, by its major in W[12:7]; W[15:13] is 111 (R76, R79). -/
noncomputable def decodeRaw32 (w : Nat) : Option Instr :=
  match field w 7 6 with
  | 0x00 => decodeMaj00 w
  | 0x01 => decodeMaj01 w
  | 0x02 => decodeMaj02 w
  | 0x03 => decodeMaj03 w
  | 0x04 => decodeMaj04 w
  | 0x05 => decodeMaj05 w
  | 0x06 => decodeMaj06 w
  | 0x07 => decodeMaj07 w
  | 0x08 => decodeMaj08 w
  | 0x09 => decodeMaj09 w
  | 0x0A => decodeMaj0A w
  | 0x0B => decodeMaj0B w
  | 0x0C => decodeMaj0C w
  | 0x0D => decodeMaj0D w
  | 0x0E => decodeMaj0E w
  | 0x0F => decodeMaj0F w
  | 0x10 => decodeMaj10 w
  | 0x11 => decodeMaj11 w
  | 0x12 => decodeMaj12 w
  | 0x13 => decodeMaj13 w
  | 0x14 => decodeMaj14 w
  | 0x15 => decodeMaj15 w
  | 0x16 => decodeMaj16 w
  | 0x17 => decodeMaj17 w
  | 0x18 => decodeMaj18 w
  | 0x19 => decodeMaj19 w
  | 0x1A => decodeMaj1A w
  | 0x1B => decodeMaj1B w
  | 0x1C => decodeMaj1C w
  | 0x1D => decodeMaj1D w
  | 0x1E => decodeMaj1E w
  | 0x20 => decodeMaj20 w
  | 0x21 => decodeMaj21 w
  | 0x22 => decodeMaj22 w
  | 0x23 => decodeMaj23 w
  | 0x24 => decodeMaj24 w
  | 0x28 => decodeMaj28 w
  | 0x29 => decodeMaj29 w
  | 0x2A => decodeMaj2A w
  | 0x2B => decodeMaj2B w
  | 0x2C => decodeMaj2C w
  | 0x2D => decodeMaj2D w
  | 0x2E => decodeMaj2E w
  | 0x2F => decodeMaj2F w
  | 0x30 => decodeMaj30 w
  | 0x34 => decodeMaj34 w
  | 0x38 => decodeMaj38 w
  | 0x39 => decodeMaj39 w
  | 0x3C => decodeMaj3C w
  | 0x3E => decodeMaj3E w
  | _ => none

/-- Keep an instruction only when its fields are well formed (R88). -/
def onlyWellFormed : Option Instr → Option Instr
  | some i => if WellFormed i then some i else none
  | none => none

/-- A halfword that starts a 32-bit instruction has bits 15:13 all ones (R69). -/
def startsLong (h : Nat) : Bool := field h 13 3 == 7

/-- Decode the 16-bit instruction in the halfword h. -/
def decode16 (h : Nat) : Option Instr := onlyWellFormed (decodeRaw16 h)

/-- Decode the 32-bit instruction word w. -/
noncomputable def decode32 (w : Nat) : Option Instr := onlyWellFormed (decodeRaw32 w)

/-- Decode the instruction whose first halfword is the low half of w: 32 bits long when that halfword starts so, else 16 (R69). -/
noncomputable def decodeWord (w : Nat) : Option Instr :=
  if startsLong w then decode32 (w % 2 ^ 32) else decode16 (w % 2 ^ 16)

/-- The little-endian number in a list of bytes (R2). -/
def leNat : List Byte → Nat
  | [] => 0
  | b :: bs => b.toNat + 256 * leNat bs

/-- n bytes of a number, lowest first (R2). -/
def leBytes : Nat → Nat → List Byte
  | 0, _ => []
  | n + 1, w => BitVec.ofNat 8 w :: leBytes n (w / 256)

/-- Decode the instruction at the head of a list of bytes and give the bytes after it; none where the encoding is reserved
or the bytes end inside it. -/
noncomputable def decodeBytes : List Byte → Option (Instr × List Byte)
  | b0 :: b1 :: rest =>
    let h := b0.toNat + 256 * b1.toNat
    if startsLong h then
      match rest with
      | b2 :: b3 :: rest' => (decode32 (h + 65536 * (b2.toNat + 256 * b3.toNat))).map (·, rest')
      | _ => none
    else (decode16 h).map (·, rest)
  | _ => none

/-- The instruction the decoder reads from an opcode-table word of nbits bits, laid out as the code stream stores it: little-endian
halfwords, the first at the lowest address (R2). -/
noncomputable def decodeTableWord (nbits w : Nat) : Option Instr :=
  (decodeBytes (leBytes (Nat.max 4 (nbits / 8)) (w % 2 ^ nbits))).map (·.1)

/-- The word of a well-formed instruction, from the same tables; an event has none and gives 0. -/
def encode : Instr → Nat
  | .add d a b w => 0x0000E000 + d.toNat * 4 + a.toNat * 65536 + b.toNat * 2097152 + w.toNat * 1
  | .sub d a b w => 0x0400E000 + d.toNat * 4 + a.toNat * 65536 + b.toNat * 2097152 + w.toNat * 1
  | .mul d a b w => 0x0800E000 + d.toNat * 4 + a.toNat * 65536 + b.toNat * 2097152 + w.toNat * 1
  | .mulh d a b w => 0x0C00E000 + d.toNat * 4 + a.toNat * 65536 + b.toNat * 2097152 + w.toNat * 1
  | .mulhn d a b w => 0x1000E000 + d.toNat * 4 + a.toNat * 65536 + b.toNat * 2097152 + w.toNat * 1
  | .div d a b w => 0x1400E000 + d.toNat * 4 + a.toNat * 65536 + b.toNat * 2097152 + w.toNat * 1
  | .divn d a b w => 0x1800E000 + d.toNat * 4 + a.toNat * 65536 + b.toNat * 2097152 + w.toNat * 1
  | .rem d a b w => 0x1C00E000 + d.toNat * 4 + a.toNat * 65536 + b.toNat * 2097152 + w.toNat * 1
  | .remn d a b w => 0x2000E000 + d.toNat * 4 + a.toNat * 65536 + b.toNat * 2097152 + w.toNat * 1
  | .and d a b w => 0x2400E000 + d.toNat * 4 + a.toNat * 65536 + b.toNat * 2097152 + w.toNat * 1
  | .or d a b w => 0x2800E000 + d.toNat * 4 + a.toNat * 65536 + b.toNat * 2097152 + w.toNat * 1
  | .xor d a b w => 0x2C00E000 + d.toNat * 4 + a.toNat * 65536 + b.toNat * 2097152 + w.toNat * 1
  | .andn d a b w => 0x3000E000 + d.toNat * 4 + a.toNat * 65536 + b.toNat * 2097152 + w.toNat * 1
  | .shl d a b w => 0x3400E000 + d.toNat * 4 + a.toNat * 65536 + b.toNat * 2097152 + w.toNat * 1
  | .shr d a b w => 0x3800E000 + d.toNat * 4 + a.toNat * 65536 + b.toNat * 2097152 + w.toNat * 1
  | .sra d a b w => 0x3C00E000 + d.toNat * 4 + a.toNat * 65536 + b.toNat * 2097152 + w.toNat * 1
  | .rol d a b w => 0x4000E000 + d.toNat * 4 + a.toNat * 65536 + b.toNat * 2097152 + w.toNat * 1
  | .ror d a b w => 0x4400E000 + d.toNat * 4 + a.toNat * 65536 + b.toNat * 2097152 + w.toNat * 1
  | .min d a b w => 0x4800E000 + d.toNat * 4 + a.toNat * 65536 + b.toNat * 2097152 + w.toNat * 1
  | .max d a b w => 0x4C00E000 + d.toNat * 4 + a.toNat * 65536 + b.toNat * 2097152 + w.toNat * 1
  | .minn d a b w => 0x5000E000 + d.toNat * 4 + a.toNat * 65536 + b.toNat * 2097152 + w.toNat * 1
  | .maxn d a b w => 0x5400E000 + d.toNat * 4 + a.toNat * 65536 + b.toNat * 2097152 + w.toNat * 1
  | .slt d a b w => 0x5800E000 + d.toNat * 4 + a.toNat * 65536 + b.toNat * 2097152 + w.toNat * 1
  | .sltn d a b w => 0x5C00E000 + d.toNat * 4 + a.toNat * 65536 + b.toNat * 2097152 + w.toNat * 1
  | .seq d a b w => 0x6000E000 + d.toNat * 4 + a.toNat * 65536 + b.toNat * 2097152 + w.toNat * 1
  | .clz d a w => 0x6400E000 + d.toNat * 4 + a.toNat * 65536 + w.toNat * 1
  | .ctz d a w => 0x6800E000 + d.toNat * 4 + a.toNat * 65536 + w.toNat * 1
  | .popc d a w => 0x6C00E000 + d.toNat * 4 + a.toNat * 65536 + w.toNat * 1
  | .brev d a w => 0x7000E000 + d.toNat * 4 + a.toNat * 65536 + w.toNat * 1
  | .addi d a i w => 0x0000E080 + d.toNat * 4 + a.toNat * 65536 + i.toNat * 2097152 + w.toNat * 1
  | .andi d a i => 0x0000E100 + d.toNat * 4 + a.toNat * 65536 + i.toNat * 2097152
  | .ori d a i => 0x0000E101 + d.toNat * 4 + a.toNat * 65536 + i.toNat * 2097152
  | .xori d a i => 0x0000E102 + d.toNat * 4 + a.toNat * 65536 + i.toNat * 2097152
  | .slti d a i => 0x0000E103 + d.toNat * 4 + a.toNat * 65536 + i.toNat * 2097152
  | .sel d a b c => 0x0000E180 + d.toNat * 4 + a.toNat * 65536 + b.toNat * 2097152 + c.toNat * 67108864
  | .shli d a w s => 0x0000E200 + d.toNat * 4 + a.toNat * 65536 + w.toNat * 134217728 + s.toNat * 2097152
  | .shri d a w s => 0x0000E201 + d.toNat * 4 + a.toNat * 65536 + w.toNat * 134217728 + s.toNat * 2097152
  | .srai d a w s => 0x0000E202 + d.toNat * 4 + a.toNat * 65536 + w.toNat * 134217728 + s.toNat * 2097152
  | .ldhi d i k => 0x0000E280 + d.toNat * 4 + i.toNat * 65536 + k.toNat * 1
  | .lea d a i => 0x0000E300 + d.toNat * 4 + a.toNat * 65536 + i.toNat * 2097152
  | .leaScaled d a b s => 0x0000E301 + d.toNat * 4 + a.toNat * 65536 + b.toNat * 2097152 + s.toNat * 67108864
  | .leaRegion d a n o => 0x0000E302 + d.toNat * 4 + a.toNat * 65536 + n.toNat * 268435456 + o.toNat * 2097152
  | .bfx d a l p => 0x0000E380 + d.toNat * 4 + a.toNat * 65536 + l.toNat * 134217728 + p.toNat * 2097152
  | .bfxn d a l p => 0x0000E381 + d.toNat * 4 + a.toNat * 65536 + l.toNat * 134217728 + p.toNat * 2097152
  | .bfi d a l p => 0x0000E382 + d.toNat * 4 + a.toNat * 65536 + l.toNat * 134217728 + p.toNat * 2097152
  | .beq a b o => 0x0000E400 + a.toNat * 4 + b.toNat * 65536 + o.toNat / 4 * 2097152 + o.toNat % 4 * 1
  | .bne a b o => 0x0000E480 + a.toNat * 4 + b.toNat * 65536 + o.toNat / 4 * 2097152 + o.toNat % 4 * 1
  | .blt a b o => 0x0000E500 + a.toNat * 4 + b.toNat * 65536 + o.toNat / 4 * 2097152 + o.toNat % 4 * 1
  | .bge a b o => 0x0000E580 + a.toNat * 4 + b.toNat * 65536 + o.toNat / 4 * 2097152 + o.toNat % 4 * 1
  | .bltn a b o => 0x0000E600 + a.toNat * 4 + b.toNat * 65536 + o.toNat / 4 * 2097152 + o.toNat % 4 * 1
  | .bgen a b o => 0x0000E680 + a.toNat * 4 + b.toNat * 65536 + o.toNat / 4 * 2097152 + o.toNat % 4 * 1
  | .j o => 0x0000E700 + o.toNat / 4 * 65536 + o.toNat % 4 * 1
  | .jal d o => 0x0000E700 + d.toNat * 4 + o.toNat / 4 * 65536 + o.toNat % 4 * 1
  | .jalr d a i => 0x0000E780 + d.toNat * 4 + a.toNat * 65536 + i.toNat * 2097152
  | .loop a i => 0x0000E781 + a.toNat * 65536 + i.toNat * 2097152
  | .endTask => 0x0000E782
  | .trap i => 0x4000E782 + i.toNat * 2097152
  | .brk i => 0x8000E782 + i.toNat * 2097152
  | .addCr d a => 0x0200 + d.toNat * 16 + a.toNat * 1
  | .moveCr d a => 0x0100 + d.toNat * 16 + a.toNat * 1
  | .subCr d a => 0x0300 + d.toNat * 16 + a.toNat * 1
  | .andCr d a => 0x0400 + d.toNat * 16 + a.toNat * 1
  | .orCr d a => 0x0500 + d.toNat * 16 + a.toNat * 1
  | .xorCr d a => 0x0600 + d.toNat * 16 + a.toNat * 1
  | .shlCr d a => 0x0700 + d.toNat * 16 + a.toNat * 1
  | .shrCr d a => 0x0800 + d.toNat * 16 + a.toNat * 1
  | .sraCr d a => 0x0900 + d.toNat * 16 + a.toNat * 1
  | .mulCr d a => 0x0A00 + d.toNat * 16 + a.toNat * 1
  | .jalrLinkCr a => 0x0B00 + a.toNat * 1
  | .jalrNolinkCr a => 0x0C00 + a.toNat * 1
  | .addiCi d i => 0x2000 + d.toNat * 64 + i.toNat * 1
  | .addiZeroCi d i => 0x2400 + d.toNat * 64 + i.toNat * 1
  | .shliCi d i => 0x2800 + d.toNat * 64 + i.toNat * 1
  | .shriCi d i => 0x2C00 + d.toNat * 64 + i.toNat * 1
  | .sraiCi d i => 0x3000 + d.toNat * 64 + i.toNat * 1
  | .andiCi d i => 0x3400 + d.toNat * 64 + i.toNat * 1
  | .ldDCm d b o => 0x4000 + d.toNat * 256 + b.toNat * 16 + o.toNat * 1
  | .stDCm d b o => 0x5000 + d.toNat * 256 + b.toNat * 16 + o.toNat * 1
  | .beqCb a o => 0x6000 + a.toNat * 128 + o.toNat * 1
  | .bneCb a o => 0x6800 + a.toNat * 128 + o.toNat * 1
  | .bltCb a o => 0x7000 + a.toNat * 128 + o.toNat * 1
  | .bgeCb a o => 0x7800 + a.toNat * 128 + o.toNat * 1
  | .jCj o => 0x8000 + o.toNat * 1
  | .endCt => 0xA000
  | .doneCt a => 0xA100 + a.toNat * 16
  | .sendC a k => 0xA200 + a.toNat * 16 + k.toNat * 1
  | .vorCv d a => 0xC000 + d.toNat * 16 + a.toNat * 1
  | .vaddS32Cv d a => 0xC100 + d.toNat * 16 + a.toNat * 1
  | .vsubS32Cv d a => 0xC200 + d.toNat * 16 + a.toNat * 1
  | .vaddF32Cv d a => 0xC300 + d.toNat * 16 + a.toNat * 1
  | .vsubF32Cv d a => 0xC400 + d.toNat * 16 + a.toNat * 1
  | .vmulF32Cv d a => 0xC500 + d.toNat * 16 + a.toNat * 1
  | .vmaxF32Cv d a => 0xC600 + d.toNat * 16 + a.toNat * 1
  | .vminF32Cv d a => 0xC700 + d.toNat * 16 + a.toNat * 1
  | .vandCv d a => 0xC800 + d.toNat * 16 + a.toNat * 1
  | .vxorCv d a => 0xC900 + d.toNat * 16 + a.toNat * 1
  | .vnotCv d a => 0xCA00 + d.toNat * 16 + a.toNat * 1
  | .ld d a o s i w => 0x8000E800 + d.toNat * 4 + a.toNat * 65536 + o.toNat * 536870912 + s.toNat * 67108864 + i.toNat * 2097152 + w.toNat * 1
  | .ldIndex d a b o s w => 0x0000E800 + d.toNat * 4 + a.toNat * 65536 + b.toNat * 2097152 + o.toNat * 536870912 + s.toNat * 67108864 + w.toNat * 1
  | .ldRegion d a n i w => 0x6000E800 + d.toNat * 4 + a.toNat * 65536 + n.toNat / 8 * 2147483648 + n.toNat % 8 * 67108864 + i.toNat * 2097152 + w.toNat * 1
  | .st d a o s i w => 0x8000E880 + d.toNat * 4 + a.toNat * 65536 + o.toNat * 536870912 + s.toNat * 67108864 + i.toNat * 2097152 + w.toNat * 1
  | .stIndex d a b o s w => 0x0000E880 + d.toNat * 4 + a.toNat * 65536 + b.toNat * 2097152 + o.toNat * 536870912 + s.toNat * 67108864 + w.toNat * 1
  | .stRegion d a n i w => 0x6000E880 + d.toNat * 4 + a.toNat * 65536 + n.toNat / 8 * 2147483648 + n.toNat % 8 * 67108864 + i.toNat * 2097152 + w.toNat * 1
  | .ldv d a o s i => 0x8000E900 + d.toNat * 4 + a.toNat * 65536 + o.toNat * 536870912 + s.toNat * 67108864 + i.toNat * 2097152
  | .ldvIndex d a b o s => 0x0000E900 + d.toNat * 4 + a.toNat * 65536 + b.toNat * 2097152 + o.toNat * 536870912 + s.toNat * 67108864
  | .ldvRegion d a n i => 0x6000E900 + d.toNat * 4 + a.toNat * 65536 + n.toNat / 8 * 2147483648 + n.toNat % 8 * 67108864 + i.toNat * 2097152
  | .stv d a o s i => 0x8000E901 + d.toNat * 4 + a.toNat * 65536 + o.toNat * 536870912 + s.toNat * 67108864 + i.toNat * 2097152
  | .stvIndex d a b o s => 0x0000E901 + d.toNat * 4 + a.toNat * 65536 + b.toNat * 2097152 + o.toNat * 536870912 + s.toNat * 67108864
  | .stvRegion d a n i => 0x6000E901 + d.toNat * 4 + a.toNat * 65536 + n.toNat / 8 * 2147483648 + n.toNat % 8 * 67108864 + i.toNat * 2097152
  | .ldf d a o s i => 0x8000E980 + d.toNat * 4 + a.toNat * 65536 + o.toNat * 536870912 + s.toNat * 67108864 + i.toNat * 2097152
  | .ldfIndex d a b o s => 0x0000E980 + d.toNat * 4 + a.toNat * 65536 + b.toNat * 2097152 + o.toNat * 536870912 + s.toNat * 67108864
  | .stf d a o s i => 0x8000E981 + d.toNat * 4 + a.toNat * 65536 + o.toNat * 536870912 + s.toNat * 67108864 + i.toNat * 2097152
  | .stfIndex d a b o s => 0x0000E981 + d.toNat * 4 + a.toNat * 65536 + b.toNat * 2097152 + o.toNat * 536870912 + s.toNat * 67108864
  | .ste d a o s i => 0x8000E982 + d.toNat * 4 + a.toNat * 65536 + o.toNat * 536870912 + s.toNat * 67108864 + i.toNat * 2097152
  | .steIndex d a b o s => 0x0000E982 + d.toNat * 4 + a.toNat * 65536 + b.toNat * 2097152 + o.toNat * 536870912 + s.toNat * 67108864
  | .aadd d a b o s w => 0x0000EA00 + d.toNat * 4 + a.toNat * 65536 + b.toNat * 2097152 + o.toNat * 536870912 + s.toNat * 67108864 + w.toNat * 1
  | .aand d a b o s w => 0x0000EA02 + d.toNat * 4 + a.toNat * 65536 + b.toNat * 2097152 + o.toNat * 536870912 + s.toNat * 67108864 + w.toNat * 1
  | .aor d a b o s w => 0x8000EA00 + d.toNat * 4 + a.toNat * 65536 + b.toNat * 2097152 + o.toNat * 536870912 + s.toNat * 67108864 + w.toNat * 1
  | .axor d a b o s w => 0x8000EA02 + d.toNat * 4 + a.toNat * 65536 + b.toNat * 2097152 + o.toNat * 536870912 + s.toNat * 67108864 + w.toNat * 1
  | .amin d a b o s w => 0x0000EA80 + d.toNat * 4 + a.toNat * 65536 + b.toNat * 2097152 + o.toNat * 536870912 + s.toNat * 67108864 + w.toNat * 1
  | .amax d a b o s w => 0x0000EA82 + d.toNat * 4 + a.toNat * 65536 + b.toNat * 2097152 + o.toNat * 536870912 + s.toNat * 67108864 + w.toNat * 1
  | .aminn d a b o s w => 0x8000EA80 + d.toNat * 4 + a.toNat * 65536 + b.toNat * 2097152 + o.toNat * 536870912 + s.toNat * 67108864 + w.toNat * 1
  | .amaxn d a b o s w => 0x8000EA82 + d.toNat * 4 + a.toNat * 65536 + b.toNat * 2097152 + o.toNat * 536870912 + s.toNat * 67108864 + w.toNat * 1
  | .aswp d a b o s w => 0x0000EB00 + d.toNat * 4 + a.toNat * 65536 + b.toNat * 2097152 + o.toNat * 536870912 + s.toNat * 67108864 + w.toNat * 1
  | .acas d a b o s w => 0x0000EB02 + d.toNat * 4 + a.toNat * 65536 + b.toNat * 2097152 + o.toNat * 536870912 + s.toNat * 67108864 + w.toNat * 1
  | .afadd d a b o s w => 0x8000EB00 + d.toNat * 4 + a.toNat * 65536 + b.toNat * 2097152 + o.toNat * 536870912 + s.toNat * 67108864 + w.toNat * 1
  | .adf d a b o s w => 0x8000EB02 + d.toNat * 4 + a.toNat * 65536 + b.toNat * 2097152 + o.toNat * 536870912 + s.toNat * 67108864 + w.toNat * 1
  | .fence o s => 0x0000EB80 + o.toNat * 536870912 + s.toNat * 67108864
  | .aliasf a b => 0x0000EB81 + a.toNat * 65536 + b.toNat * 2097152
  | .ifence => 0x0000EB82
  | .pfx a i w l => 0x0000EB83 + a.toNat * 65536 + i.toNat * 2097152 + w.toNat * 16 + l.toNat * 4
  | .nmadd a b t => 0x8000EB80 + a.toNat * 65536 + b.toNat * 2097152 + t.toNat * 4
  | .nmred a b o t => 0x8000EB81 + a.toNat * 65536 + b.toNat * 2097152 + o.toNat * 16 + t.toNat * 4
  | .nmfence => 0x8000EB82
  | .fadd d a b r p => 0x0000EC00 + d.toNat * 4 + a.toNat * 65536 + b.toNat * 2097152 + r.toNat * 67108864 + p.toNat * 1
  | .fsub d a b r p => 0x2000EC00 + d.toNat * 4 + a.toNat * 65536 + b.toNat * 2097152 + r.toNat * 67108864 + p.toNat * 1
  | .fmul d a b r p => 0x4000EC00 + d.toNat * 4 + a.toNat * 65536 + b.toNat * 2097152 + r.toNat * 67108864 + p.toNat * 1
  | .fdiv d a b r p => 0x6000EC00 + d.toNat * 4 + a.toNat * 65536 + b.toNat * 2097152 + r.toNat * 67108864 + p.toNat * 1
  | .fsqrt d a r p => 0x8000EC00 + d.toNat * 4 + a.toNat * 65536 + r.toNat * 67108864 + p.toNat * 1
  | .ffma d a b r p => 0x0000EC80 + d.toNat * 4 + a.toNat * 65536 + b.toNat * 2097152 + r.toNat * 67108864 + p.toNat * 1
  | .ffms d a b r p => 0x2000EC80 + d.toNat * 4 + a.toNat * 65536 + b.toNat * 2097152 + r.toNat * 67108864 + p.toNat * 1
  | .ffnma d a b r p => 0x4000EC80 + d.toNat * 4 + a.toNat * 65536 + b.toNat * 2097152 + r.toNat * 67108864 + p.toNat * 1
  | .fmin d a b p => 0x0000ED00 + d.toNat * 4 + a.toNat * 65536 + b.toNat * 2097152 + p.toNat * 1
  | .fmax d a b p => 0x2000ED00 + d.toNat * 4 + a.toNat * 65536 + b.toNat * 2097152 + p.toNat * 1
  | .feq d a b p => 0x4000ED00 + d.toNat * 4 + a.toNat * 65536 + b.toNat * 2097152 + p.toNat * 1
  | .flt d a b p => 0x6000ED00 + d.toNat * 4 + a.toNat * 65536 + b.toNat * 2097152 + p.toNat * 1
  | .fle d a b p => 0x8000ED00 + d.toNat * 4 + a.toNat * 65536 + b.toNat * 2097152 + p.toNat * 1
  | .fclass d a p => 0xA000ED00 + d.toNat * 4 + a.toNat * 65536 + p.toNat * 1
  | .fsgnj d a b p => 0x0000ED80 + d.toNat * 4 + a.toNat * 65536 + b.toNat * 2097152 + p.toNat * 1
  | .fsgnjn d a b p => 0x2000ED80 + d.toNat * 4 + a.toNat * 65536 + b.toNat * 2097152 + p.toNat * 1
  | .fsgnjx d a b p => 0x4000ED80 + d.toNat * 4 + a.toNat * 65536 + b.toNat * 2097152 + p.toNat * 1
  | .fcvt d a r s t => 0x0000EE00 + d.toNat * 4 + a.toNat * 65536 + r.toNat * 536870912 + s.toNat * 33554432 + t.toNat * 2097152
  | .fmvg d a => 0x0000EE80 + d.toNat * 4 + a.toNat * 65536
  | .fmvf d a => 0x0000EE81 + d.toNat * 4 + a.toNat * 65536
  | .frcpa d a p => 0x0000EF00 + d.toNat * 4 + a.toNat * 65536 + p.toNat * 1
  | .frsqa d a p => 0x2000EF00 + d.toNat * 4 + a.toNat * 65536 + p.toNat * 1
  | .frcpr d a b r p => 0x4000EF00 + d.toNat * 4 + a.toNat * 65536 + b.toNat * 2097152 + r.toNat * 67108864 + p.toNat * 1
  | .frsqr d a b r p => 0x6000EF00 + d.toNat * 4 + a.toNat * 65536 + b.toNat * 2097152 + r.toNat * 67108864 + p.toNat * 1
  | .vadd d a b c t => 0x0000F000 + d.toNat * 4 + a.toNat * 65536 + b.toNat * 1048576 + c.toNat * 16777216 + t.toNat / 4 * 64 + t.toNat % 4 * 1
  | .vsub d a b c t => 0x1000F000 + d.toNat * 4 + a.toNat * 65536 + b.toNat * 1048576 + c.toNat * 16777216 + t.toNat / 4 * 64 + t.toNat % 4 * 1
  | .vmul d a b c t => 0x2000F000 + d.toNat * 4 + a.toNat * 65536 + b.toNat * 1048576 + c.toNat * 16777216 + t.toNat / 4 * 64 + t.toNat % 4 * 1
  | .vfma d a b c t => 0x3000F000 + d.toNat * 4 + a.toNat * 65536 + b.toNat * 1048576 + c.toNat * 16777216 + t.toNat / 4 * 64 + t.toNat % 4 * 1
  | .vmin d a b c t => 0x4000F000 + d.toNat * 4 + a.toNat * 65536 + b.toNat * 1048576 + c.toNat * 16777216 + t.toNat / 4 * 64 + t.toNat % 4 * 1
  | .vmax d a b c t => 0x5000F000 + d.toNat * 4 + a.toNat * 65536 + b.toNat * 1048576 + c.toNat * 16777216 + t.toNat / 4 * 64 + t.toNat % 4 * 1
  | .vabs d a c t => 0x6000F000 + d.toNat * 4 + a.toNat * 65536 + c.toNat * 16777216 + t.toNat / 4 * 64 + t.toNat % 4 * 1
  | .vabsd d a b c t => 0x7000F000 + d.toNat * 4 + a.toNat * 65536 + b.toNat * 1048576 + c.toNat * 16777216 + t.toNat / 4 * 64 + t.toNat % 4 * 1
  | .vneg d a c t => 0x8000F000 + d.toNat * 4 + a.toNat * 65536 + c.toNat * 16777216 + t.toNat / 4 * 64 + t.toNat % 4 * 1
  | .vdot d a b t => 0x9000F000 + d.toNat * 4 + a.toNat * 65536 + b.toNat * 1048576 + t.toNat / 4 * 64 + t.toNat % 4 * 1
  | .vand d a b => 0x0000F080 + d.toNat * 4 + a.toNat * 65536 + b.toNat * 1048576
  | .vor d a b => 0x1000F080 + d.toNat * 4 + a.toNat * 65536 + b.toNat * 1048576
  | .vxor d a b => 0x2000F080 + d.toNat * 4 + a.toNat * 65536 + b.toNat * 1048576
  | .vnot d a => 0x3000F080 + d.toNat * 4 + a.toNat * 65536
  | .vshl d a b t => 0x4000F080 + d.toNat * 4 + a.toNat * 65536 + b.toNat * 1048576 + t.toNat / 4 * 64 + t.toNat % 4 * 1
  | .vshr d a b t => 0x5000F080 + d.toNat * 4 + a.toNat * 65536 + b.toNat * 1048576 + t.toNat / 4 * 64 + t.toNat % 4 * 1
  | .vsra d a b t => 0x6000F080 + d.toNat * 4 + a.toNat * 65536 + b.toNat * 1048576 + t.toNat / 4 * 64 + t.toNat % 4 * 1
  | .vcmpeq d a b t => 0x0000F100 + d.toNat * 4 + a.toNat * 65536 + b.toNat * 1048576 + t.toNat / 4 * 64 + t.toNat % 4 * 1
  | .vcmplt d a b c t => 0x1000F100 + d.toNat * 4 + a.toNat * 65536 + b.toNat * 1048576 + c.toNat * 16777216 + t.toNat / 4 * 64 + t.toNat % 4 * 1
  | .vcmple d a b c t => 0x2000F100 + d.toNat * 4 + a.toNat * 65536 + b.toNat * 1048576 + c.toNat * 16777216 + t.toNat / 4 * 64 + t.toNat % 4 * 1
  | .vsel d a b c t => 0x3000F100 + d.toNat * 4 + a.toNat * 65536 + b.toNat * 1048576 + c.toNat * 16777216 + t.toNat / 4 * 64 + t.toNat % 4 * 1
  | .vperm d a b c => 0x0000F180 + d.toNat * 4 + a.toNat * 65536 + b.toNat * 1048576 + c.toNat * 16777216
  | .vbcast d b t => 0x1000F180 + d.toNat * 4 + b.toNat * 1048576 + t.toNat / 4 * 64 + t.toNat % 4 * 1
  | .vins d b c t => 0x2000F180 + d.toNat * 4 + b.toNat * 1048576 + c.toNat * 16777216 + t.toNat / 4 * 64 + t.toNat % 4 * 1
  | .vext d a c t => 0x3000F180 + d.toNat * 4 + a.toNat * 65536 + c.toNat * 16777216 + t.toNat / 4 * 64 + t.toNat % 4 * 1
  | .vredadd d a t => 0x0000F200 + d.toNat * 4 + a.toNat * 65536 + t.toNat / 4 * 64 + t.toNat % 4 * 1
  | .vredmin d a c t => 0x1000F200 + d.toNat * 4 + a.toNat * 65536 + c.toNat * 16777216 + t.toNat / 4 * 64 + t.toNat % 4 * 1
  | .vredmax d a c t => 0x2000F200 + d.toNat * 4 + a.toNat * 65536 + c.toNat * 16777216 + t.toNat / 4 * 64 + t.toNat % 4 * 1
  | .vcvt d a b c r => 0x3000F200 + d.toNat * 4 + a.toNat * 65536 + b.toNat * 1048576 + c.toNat * 16777216 + r.toNat / 4 * 64 + r.toNat % 4 * 1
  | .vpack d a b c t => 0x4000F200 + d.toNat * 4 + a.toNat * 65536 + b.toNat * 1048576 + c.toNat * 16777216 + t.toNat / 4 * 64 + t.toNat % 4 * 1
  | .vunpk d a c t => 0x5000F200 + d.toNat * 4 + a.toNat * 65536 + c.toNat * 16777216 + t.toNat / 4 * 64 + t.toNat % 4 * 1
  | .vthr d a t => 0x6000F200 + d.toNat * 4 + a.toNat * 65536 + t.toNat / 4 * 64 + t.toNat % 4 * 1
  | .vrcpa d a t => 0x7000F200 + d.toNat * 4 + a.toNat * 65536 + t.toNat / 4 * 64 + t.toNat % 4 * 1
  | .vrsqa d a t => 0x8000F200 + d.toNat * 4 + a.toNat * 65536 + t.toNat / 4 * 64 + t.toNat % 4 * 1
  | .send d a b => 0x0000F400 + d.toNat * 4 + a.toNat * 65536 + b.toNat * 2097152
  | .sendr d a => 0x0400F400 + d.toNat * 4 + a.toNat * 65536
  | .fork a b => 0x0800F400 + a.toNat * 65536 + b.toNat * 2097152
  | .done a => 0x0C00F400 + a.toNat * 65536
  | .clsbind d a b => 0x1000F400 + d.toNat * 4 + a.toNat * 65536 + b.toNat * 2097152
  | .nsend a m => 0x0000F480 + a.toNat * 65536 + m.toNat * 1
  | .winset a => 0x0400F480 + a.toNat * 65536
  | .qcfg a => 0x0800F480 + a.toNat * 65536
  | .strm d a b k => 0x0000F500 + d.toNat * 4 + a.toNat * 65536 + b.toNat * 2097152 + k.toNat * 1
  | .strmoff d k => 0x0400F500 + d.toNat * 4 + k.toNat * 1
  | .repb d a b => 0x0800F500 + d.toNat * 4 + a.toNat * 65536 + b.toNat * 2097152
  | .repe => 0x0C00F500
  | .repgo a => 0x1000F500 + a.toNat * 65536
  | .tmld d a i => 0x0000F580 + d.toNat * 4 + a.toNat * 65536 + i.toNat * 2097152
  | .mmaE4m3E4m3 a b fF g t => 0x0000F600 + a.toNat * 65536 + b.toNat * 1048576 + fF.toNat * 16777216 + g.toNat * 4 + t.toNat * 1
  | .mmaE4m3E5m2 a b fF g t => 0x2000F600 + a.toNat * 65536 + b.toNat * 1048576 + fF.toNat * 16777216 + g.toNat * 4 + t.toNat * 1
  | .mmaE5m2E4m3 a b fF g t => 0x4000F600 + a.toNat * 65536 + b.toNat * 1048576 + fF.toNat * 16777216 + g.toNat * 4 + t.toNat * 1
  | .mmaE5m2E5m2 a b fF g t => 0x6000F600 + a.toNat * 65536 + b.toNat * 1048576 + fF.toNat * 16777216 + g.toNat * 4 + t.toNat * 1
  | .mmaE2m1E2m1 a b fF g t => 0x8000F600 + a.toNat * 65536 + b.toNat * 1048576 + fF.toNat * 16777216 + g.toNat * 4 + t.toNat * 1
  | .mmaE2m1E4m3 a b fF g t => 0xA000F600 + a.toNat * 65536 + b.toNat * 1048576 + fF.toNat * 16777216 + g.toNat * 4 + t.toNat * 1
  | .mmaEc8Ec8 a b fF g t => 0xC000F600 + a.toNat * 65536 + b.toNat * 1048576 + fF.toNat * 16777216 + g.toNat * 4 + t.toNat * 1
  | .mmaEc8E4m3 a b fF g t => 0xE000F600 + a.toNat * 65536 + b.toNat * 1048576 + fF.toNat * 16777216 + g.toNat * 4 + t.toNat * 1
  | .mmaBf16Bf16 a b t => 0x0000F680 + a.toNat * 65536 + b.toNat * 1048576 + t.toNat * 1
  | .mmaF16F16 a b t => 0x2000F680 + a.toNat * 65536 + b.toNat * 1048576 + t.toNat * 1
  | .mmaS8S8 a b t => 0x4000F680 + a.toNat * 65536 + b.toNat * 1048576 + t.toNat * 1
  | .mmaS4S8 a b t => 0x6000F680 + a.toNat * 65536 + b.toNat * 1048576 + t.toNat * 1
  | .mmaBf16S4 a b t => 0x8000F680 + a.toNat * 65536 + b.toNat * 1048576 + t.toNat * 1
  | .mmapE4m3 a b fF t => 0xA000F680 + a.toNat * 65536 + b.toNat * 1048576 + fF.toNat * 16777216 + t.toNat * 1
  | .mmapBf16 a b t => 0xC000F680 + a.toNat * 65536 + b.toNat * 1048576 + t.toNat * 1
  | .distL1Bf16 a b t => 0x0000F700 + a.toNat * 65536 + b.toNat * 1048576 + t.toNat * 1
  | .distL1E4m3 a b t => 0x2000F700 + a.toNat * 65536 + b.toNat * 1048576 + t.toNat * 1
  | .distL1S8 a b t => 0x4000F700 + a.toNat * 65536 + b.toNat * 1048576 + t.toNat * 1
  | .distL2Bf16 a b t => 0x6000F700 + a.toNat * 65536 + b.toNat * 1048576 + t.toNat * 1
  | .distL2E4m3 a b t => 0x8000F700 + a.toNat * 65536 + b.toNat * 1048576 + t.toNat * 1
  | .distL2S8 a b t => 0xA000F700 + a.toNat * 65536 + b.toNat * 1048576 + t.toNat * 1
  | .adrain h k n t => 0x0000F780 + h.toNat * 134217728 + k.toNat * 16777216 + n.toNat * 4 + t.toNat * 1
  | .cupd d a y t => 0x2000F780 + d.toNat * 4 + a.toNat * 65536 + y.toNat * 16777216 + t.toNat * 1
  | .async d l t => 0x4000F780 + d.toNat * 4 + l.toNat * 16777216 + t.toNat * 1
  | .ringcfgSet d r => 0x6000F780 + d.toNat * 4 + r.toNat * 65536
  | .ringcfgPush d r => 0x6100F780 + d.toNat * 4 + r.toNat * 65536
  | .ringcfgReset r => 0x6200F780 + r.toNat * 65536
  | .ringcfgQuery d r => 0x6300F780 + d.toNat * 4 + r.toNat * 65536
  | .accz t => 0x0000F800 + t.toNat * 1
  | .accrd d t => 0x2000F800 + d.toNat * 4 + t.toNat * 1
  | .accwr d t => 0x4000F800 + d.toNat * 4 + t.toNat * 1
  | .accsc fF s t => 0x6000F800 + fF.toNat * 16777216 + s.toNat * 4 + t.toNat * 1
  | .cpy d a b => 0x0000FA00 + d.toNat * 4 + a.toNat * 65536 + b.toNat * 2097152
  | .cpykv d a b => 0x0400FA00 + d.toNat * 4 + a.toNat * 65536 + b.toNat * 2097152
  | .kvapp d a b => 0x0800FA00 + d.toNat * 4 + a.toNat * 65536 + b.toNat * 2097152
  | .get d a b => 0x0C00FA00 + d.toNat * 4 + a.toNat * 65536 + b.toNat * 2097152
  | .put d a b => 0x1000FA00 + d.toNat * 4 + a.toNat * 65536 + b.toNat * 2097152
  | .halo d a b => 0x1400FA00 + d.toNat * 4 + a.toNat * 65536 + b.toNat * 2097152
  | .cpycan d a => 0x1800FA00 + d.toNat * 4 + a.toNat * 65536
  | .flushr d a b => 0x1C00FA00 + d.toNat * 4 + a.toNat * 65536 + b.toNat * 2097152
  | .invr d a b => 0x2000FA00 + d.toNat * 4 + a.toNat * 65536 + b.toNat * 2097152
  | .waygive d a => 0x0000FC00 + d.toNat * 4 + a.toNat * 65536
  | .waytake d => 0x0400FC00 + d.toNat * 4
  | .rowop d a => 0x0800FC00 + d.toNat * 4 + a.toNat * 65536
  | .bsopAdd a b n s => 0x0000FC80 + a.toNat * 65536 + b.toNat * 2097152 + n.toNat * 4 + s.toNat * 1
  | .bsopSub a b n s => 0x0400FC80 + a.toNat * 65536 + b.toNat * 2097152 + n.toNat * 4 + s.toNat * 1
  | .bsopAnd a b n => 0x0800FC80 + a.toNat * 65536 + b.toNat * 2097152 + n.toNat * 4
  | .bsopOr a b n => 0x0C00FC80 + a.toNat * 65536 + b.toNat * 2097152 + n.toNat * 4
  | .bsopXor a b n => 0x1000FC80 + a.toNat * 65536 + b.toNat * 2097152 + n.toNat * 4
  | .bsopNot a b n => 0x1400FC80 + a.toNat * 65536 + b.toNat * 2097152 + n.toNat * 4
  | .bsopCmpeq a b n s => 0x1800FC80 + a.toNat * 65536 + b.toNat * 2097152 + n.toNat * 4 + s.toNat * 1
  | .bsopCmplt a b n s => 0x1C00FC80 + a.toNat * 65536 + b.toNat * 2097152 + n.toNat * 4 + s.toNat * 1
  | .bsopCmple a b n s => 0x2000FC80 + a.toNat * 65536 + b.toNat * 2097152 + n.toNat * 4 + s.toNat * 1
  | .bsopSel a b n s => 0x2400FC80 + a.toNat * 65536 + b.toNat * 2097152 + n.toNat * 4 + s.toNat * 1
  | .bsopShr a b n s => 0x2800FC80 + a.toNat * 65536 + b.toNat * 2097152 + n.toNat * 4 + s.toNat * 1
  | .bsopPopc a b n s => 0x2C00FC80 + a.toNat * 65536 + b.toNat * 2097152 + n.toNat * 4 + s.toNat * 1
  | .bsopMin a b n s => 0x3000FC80 + a.toNat * 65536 + b.toNat * 2097152 + n.toNat * 4 + s.toNat * 1
  | .bsopMax a b n s => 0x3400FC80 + a.toNat * 65536 + b.toNat * 2097152 + n.toNat * 4 + s.toNat * 1
  | .bsopMul a b n s => 0x3800FC80 + a.toNat * 65536 + b.toNat * 2097152 + n.toNat * 4 + s.toNat * 1
  | .egcfg d a h => 0x0000FE00 + d.toNat * 4 + a.toNat * 65536 + h.toNat * 1
  | .egins d a b h => 0x0400FE00 + d.toNat * 4 + a.toNat * 65536 + b.toNat * 2097152 + h.toNat * 1
  | .egfind d a h => 0x0800FE00 + d.toNat * 4 + a.toNat * 65536 + h.toNat * 1
  | .egmrg d a b h => 0x0C00FE00 + d.toNat * 4 + a.toNat * 65536 + b.toNat * 2097152 + h.toNat * 1
  | .egmatch d a b h => 0x1000FE00 + d.toNat * 4 + a.toNat * 65536 + b.toNat * 2097152 + h.toNat * 1
  | .egnode d a h => 0x1400FE00 + d.toNat * 4 + a.toNat * 65536 + h.toNat * 1
  | .egenum d a b h => 0x1800FE00 + d.toNat * 4 + a.toNat * 65536 + b.toNat * 2097152 + h.toNat * 1
  | .egrank d a h => 0x1C00FE00 + d.toNat * 4 + a.toNat * 65536 + h.toNat * 1
  | .egstat d a h => 0x2000FE00 + d.toNat * 4 + a.toNat * 65536 + h.toNat * 1
  | .csrrd d c => 0x0000FF00 + d.toNat * 4 + c.toNat * 2097152
  | .csrwr d a c => 0x0000FF01 + d.toNat * 4 + a.toNat * 65536 + c.toNat * 2097152
  | .csrset d a c => 0x0000FF02 + d.toNat * 4 + a.toNat * 65536 + c.toNat * 2097152
  | .csrclr d a c => 0x0000FF03 + d.toNat * 4 + a.toNat * 65536 + c.toNat * 2097152
  | .eret => 0xFC00FF00
  | .tlbsd d a => 0xFC20FF00 + d.toNat * 4 + a.toNat * 65536
  | .tlbinv a => 0xFC40FF00 + a.toNat * 65536
  | .suprd d a => 0xFC60FF00 + d.toNat * 4 + a.toNat * 65536
  | .partset d a => 0xFC80FF00 + d.toNat * 4 + a.toNat * 65536
  | .storePerform _ _ _ => 0
  | .nmPerform _ _ _ _ => 0
  | .bankEngineAck _ => 0
  | .lineMigrate _ _ => 0
  | .memoryRequestPerform _ => 0
  | .remoteWriteAck _ => 0
  | .messageArrival _ => 0
  | .heldContextRetry _ => 0
  | .heldContextEnter _ => 0
  | .heldContextTerminate _ => 0
  | .sendqTransmit _ _ _ => 0
  | .postedWriteRefused _ _ _ => 0
  | .nsendArrival _ => 0
  | .nsendCreditReturn _ => 0
  | .streamFill _ _ _ => 0
  | .contextSelect _ => 0
  | .parkTimeout _ _ => 0
  | .parkedWake _ _ => 0
  | .runQueueAging _ _ => 0
  | .stealAttempt _ => 0
  | .stealRequest _ => 0
  | .doneWaveReport _ => 0
  | .anvilCmdStart _ => 0
  | .anvilCmdRetire _ => 0
  | .transferStart _ => 0
  | .cpykvTileFill _ => 0
  | .transferComplete _ => 0
  | .fixbellRing _ => 0
  | .bsopPerform _ _ => 0
  | .waygiveConversionComplete _ _ => 0
  | .waytakeComplete _ _ => 0
  | .rangeMaintenanceComplete _ => 0
  | .shootdownComplete _ => 0
  | .partsetComplete _ => 0
  | .unionStep _ _ => 0
  | .resign _ _ => 0
  | .mergeComplete _ _ => 0
  | .bindingSend _ => 0
  | .heapOpComplete _ _ => 0
  | .lqtailDoorbell _ _ => 0
  | .launchCopy _ => 0
  | .launchStart _ => 0
  | .launchCompletionPost _ => 0
  | .cqheadWrite _ _ => 0
  | .preemptHalt _ => 0
  | .preemptSave _ => 0
  | .launchResume _ => 0
  | .frgroleWrite _ _ _ => 0
  | .fzreqWrite _ _ _ => 0
  | .frameZeroingComplete _ => 0
  | .diectlFence _ => 0
  | .diectlWarmReset _ => 0
  | .diectlColdReset _ => 0
  | .diectlRejoin _ => 0
  | .bbctlTrigset _ => 0
  | .bbctlFrozenClear _ => 0
  | .attestRequest _ => 0
  | .attestReportReady => 0
  | .registerWrite _ _ _ => 0
  | .dieHeartbeat _ => 0
  | .heartbeatTimeout _ => 0
  | .dieStartSteps _ _ => 0
  | .islandPowerUp _ _ => 0
  | .islandPowerOff => 0
  | .islandReset => 0
  | .diePowerEnable _ => 0
  | .diePowerOff _ => 0
  | .pwrbrakeAssert => 0
  | .pwrbrakeRelease => 0
  | .powerLimitThrottle _ _ => 0
  | .thermalTrip _ => 0
  | .thermalRecover _ => 0
  | .fabricFlitReceive _ _ => 0
  | .fabricNakReplay _ _ => 0
  | .fabricLinkUp _ _ _ _ => 0
  | .fabricLinkDown _ => 0
  | .fabricRequestTimeout _ => 0
  | .endpointAbsentReply _ _ => 0
  | .cxlSnpdata _ => 0
  | .cxlSnpinv _ => 0
  | .cxlSnpcur _ => 0
  | .hostMemRead _ => 0
  | .hostMemWrite _ _ _ => 0
  | .dramScrub _ => 0
  | .softError _ _ => 0
  | .dieLinkFailure _ => 0
  | .islandResetComplete _ => 0
  | .islandFirmwareFault => 0
  | .hostLinkTrained => 0
  | .cxlCacheResponse _ => 0
  | .bisnpResponse _ _ => 0
  | .aliasfComplete _ _ => 0

end Sys2Proof
end

