-- ==== Sys2Proof/Config.lean ====
section
/-! DEFINITION. What the spec leaves open, as constants without a body: which agent moves next (R53, R425), how many
cycles pass (R425), and the values and choices that no rule fixes. Each takes the counter `State.tick`, so that every
use is a fresh one; nothing can evaluate them, so a statement holds whatever they are. -/

namespace Sys2Proof

/-- A cache replaces a line: a core's L1D or L1I, a forge cache, a slice of the Hearth, or a die directory with every line
of a region (R282, R287, R288, R293). Lines are numbered as State numbers them. -/
inductive Evict where
  | l1d (core : CoreId) (line : Nat)
  | l1i (core : CoreId) (line : Nat)
  | forge (forge : ForgeId) (line : Nat)
  | hearth (line : Nat)
  | region (region : Nat)
deriving DecidableEq, Repr, Inhabited

/-- One move of one agent: the issuing context of a core issues, a replay advances (R184), or an event of the
opcode table happens. -/
inductive Move where
  | issue (core : CoreId)
  | replay (core : CoreId)
  | event (e : Instr)
  /-- a write of a device register by a context's store, the host or a unit (R141, R344) -/
  | write (off : BitVec 48) (v : Word) (by_ : Writer)
  /-- a command that a write of DIECTL gives for a die (R400) -/
  | diectl (die : BitVec 2) (code : BitVec 4)
  /-- a cache replaces a line (R282, R287, R288, R293) -/
  | evict (e : Evict)
deriving DecidableEq, Repr, Inhabited

/-- What an access of another package does to the full-empty bits of what it writes (R146). -/
inductive InboundKind where
  | plain | setFull | setEmpty | engine
deriving DecidableEq, Repr, Inhabited

/-- An access that another package's island asks for: its kind, where, how many bytes, what it writes, the bank-hash
key of its party (R280, R384), and the party with the acquire or release scope of the access (R302, R303). -/
structure Inbound where
  rd : Bool := false
  wr : Bool := false
  kind : InboundKind := .plain
  core : CoreId := 0
  ctx : CtxId := 0
  acq : Option (BitVec 3) := none
  rel : Option (BitVec 3) := none
  page : BitVec 42 := 0
  space : BitVec 3 := 0
  off : BitVec 48 := 0
  size : Nat := 0
  value : Nat := 0
  hkey : BitVec 16 := 0
deriving DecidableEq, Repr, Inhabited

/-- A boot image (R408): its bytes, the public key it carries with the root's signature of that key, the root public key by which it
is checked, the signature of the image, its security version, and the minimum it sets. -/
structure Image where
  bytes : List Byte
  key : List Byte
  keySig : List Byte
  rootKey : List Byte
  sig : List Byte
  version : BitVec 16
  newMin : Option (BitVec 16)
deriving DecidableEq, Repr, Inhabited

/-- The move that stands next when the agenda is empty: the interleaving of agents is left open (R53, R425). -/
opaque Config.schedule : Nat → Move
/-- The INFO of a trap whose entry states none (R62). -/
opaque Config.freeInfo : Nat → BitVec 56
/-- Core cycles that pass in a step (R425). -/
opaque Config.elapsed : Nat → Nat
/-- Which of two outcomes that a rule allows happens, by the counter and by what is asked (R157, R181, R289, R360). -/
opaque Config.choice : Nat → Nat → Bool
/-- The word of an accumulator tile where an MMAP entry names a K index beyond the logical K (R199). -/
opaque Config.freeAcc : Nat → Nat → BitVec 32
/-- What a lane of ways holds after their conversion (R223). -/
opaque Config.freeLane : Nat → Nat → BitVec 256
/-- A word whose value only another package, the host or a layout that the spec keeps internal decides. -/
opaque Config.freeWord : Nat → Nat → Word
/-- How a flit of an internal format answers the oldest request: 0 with data, 1 refused by windows, 2 absent (R379, R385, R402). -/
opaque Config.flitAnswer : Nat → BitVec 2
/-- Credits beyond the first that a link has for a network and an escape class (R381, R382): how many is open. -/
opaque Config.credits : Nat → Nat
/-- Whether a received payload flit is a message (R379 keeps every other format internal). -/
opaque Config.flitIsMessage : Nat → Bool
/-- The access that a received flit of an internal format asks for (R379, R384). -/
opaque Config.inbound : Nat → Inbound
/-- A number that no rule fixes, by the counter and by what is asked: which of several, or how many. -/
opaque Config.pick : Nat → Nat → Nat
/-- SHA-512 (R408, R409): its digest is 64 bytes. -/
opaque Config.sha512 : List Byte → Vector Byte 64
/-- An RSASSA-PSS signature by a public key over a digest holds (R408). -/
opaque Config.verify : List Byte → Vector Byte 64 → List Byte → Bool
/-- RSASSA-PSS by the island's identity key over a digest (R409): 512 bytes. -/
opaque Config.sign : Vector Byte 64 → Vector Byte 512
/-- The public half of the identity key (R409), and the digest of the root public key in the one-time fuses (R408). -/
opaque Config.identityKey : List Byte
opaque Config.rootDigest : Vector Byte 64
/-- The image that a boot ROM finds at a moment: the island's, 0, die d's, d + 1, and the recovery image from flash, 5 (R407, R408). -/
opaque Config.image : Nat → Nat → Image

end Sys2Proof
end

