-- ==== Sys2Proof/Machine/State.lean ====
section
/-! DEFINITION. The state of the machine as plain data: contexts, cores, forges, memory, engines, heaps, launches, the
host link, the fabric and the island (R54 to R66 and the rules each field names), the state after reset, and the
reasons a step can stop. -/

namespace Sys2Proof.Machine

/-- A finite map by number, addresses strictly rising; what it does not list is the default of its kind. -/
abbrev Assoc (α : Type) := List (Nat × α)

/-! ## Releases -/

/-- A party of R8 and R295 other than the host: its package, none for this one, and its core. -/
structure Party where
  pkg : Option (BitVec 13) := none
  core : CoreId
deriving DecidableEq, Repr

/-- A release tag of a doubleword (R302, R351). -/
structure Tag where
  core : CoreId
  ctx : CtxId
  scope : BitVec 3
  /-- bits 55:14 of the virtual address of the release -/
  page : BitVec 42
  launch : Option Nat
  /-- written by the host, a party at system scope only (R295, R377) -/
  host : Bool := false
  /-- the releasing package, none for this one -/
  pkg : Option (BitVec 13) := none
  /-- the counter add of GET or PUT, which an acquire or an LDF reads without a scope condition (R220, R299) -/
  count : Bool := false
  /-- the completion write of EGMRG, which any LDF within its scope reads (R237, R299) -/
  full : Bool := false
  /-- the place of the release among all writes of memory (R300): `Memory.time` at it -/
  time : Nat := 0
deriving DecidableEq, Repr

/-- A release side that a message carries to the task it starts (R154, R299, R301): as a tag, with bits 13:3 of the
counter's address where it is a release ADF. -/
structure Release where
  tag : Tag
  adf : Option (BitVec 11) := none
deriving DecidableEq, Repr

/-! ## Messages -/

/-- A 64-byte message: source word, descriptor word, payload (R152, R166). -/
structure Msg where
  src : Word := 0
  desc : Word := 0
  pay : Vector Word 6 := Vector.replicate 6 0
deriving DecidableEq, Repr

/-- A message between its sender's queue and its receiver's inbox (R168, R257). `notice` marks those that hardware
makes (R261, R303), `counted` a launch message (R272). -/
structure Flight where
  msg : Msg
  notice : Bool := false
  counted : Bool := false
  /-- a priority of 63 means the class's default: a binding (R243) -/
  deflt : Bool := false
  /-- the context that sent it, for the order of R171, and its package, none for this one -/
  who : Option (CoreId × CtxId) := none
  pkg : Option (BitVec 13) := none
  /-- the release sides it carries (R154, R301) -/
  rels : List Release := []
  /-- the launch that it was held for: such flights keep their order (R351) -/
  queue : Option Nat := none
deriving DecidableEq, Repr

/-- A message queued to be sent, with the store serial that a release before it covers (R156, R168). -/
structure Queued where
  msg : Msg
  upTo : Nat := 0
  /-- a launch message (R272) -/
  counted : Bool := false
  /-- the scope of the release before it, and the releases of a firing ADF's counter (R154, R171) -/
  scope : Option (BitVec 3) := none
  rels : List Release := []
deriving DecidableEq, Repr

/-- An entry of the inbox or an internal delivery (R257, R259, R262, R263). -/
structure Entry where
  msg : Msg
  /-- delivered inside the core: classes 4, 5 and 6 (R257) -/
  inner : Bool := false
  /-- handler, privilege and transfer id of a class-4 delivery (R213) -/
  start : Option (Word × BitVec 1 × BitVec 16) := none
  held : Bool := false
  /-- the moment it became ready (R263) -/
  stamp : Nat := 0
  /-- whole spans of 4,096 cycles it has been ready up to the moment `since` (R263) -/
  age : Nat := 0
  since : Nat := 0
  counted : Bool := false
  deflt : Bool := false
  rels : List Release := []
deriving DecidableEq, Repr

/-- A deque entry (R172, R270). -/
structure Fork where
  cls : BitVec 8
  prio : BitVec 6
  pay : Vector Word 6
  core : CoreId
  ctx : CtxId
  prv : BitVec 1
  upTo : Nat := 0
  launch : Option Nat := none
deriving DecidableEq, Repr

/-! ## A context -/

/-- The states of a context (R254). -/
inductive Status where
  | free | issuing | ready | parked | held
deriving DecidableEq, Repr

/-- What a waiting instruction waits for: the six parkable waits of R266 and the interlocks. -/
inductive Wait where
  /-- an LDF on an empty word, by its memory key (R148) -/
  | ldfEmpty (key : Nat)
  /-- an LDF of another package's line, until its home answers (R148) -/
  | ldfFar (line : Nat)
  /-- SENDR on a full send queue (R170) -/
  | sendrFull
  /-- NSEND without a credit or with a full neighbour queue (R177) -/
  | noCredit (dir : BitVec 2)
  /-- a read of an empty q4 to q7 (R179) -/
  | queueEmpty (q : BitVec 2)
  /-- a full transfer queue (R212) -/
  | transferQueue
  /-- sixteen completion-word operations in flight (R231) -/
  | heapOps
  /-- the answer to a load, an atomic or a fetch that has gone out to another package or the host (R162): never parks -/
  | reply
  /-- every other wait: an interlock that never parks (R266) -/
  | interlock
deriving DecidableEq, Repr

/-- A hardware loop (R106 to R108). -/
structure Loop where
  start : Word
  stop : Word
  left : Word
deriving DecidableEq, Repr

/-- A queue bound to a register by QCFG: `vec` for a v register, the register, and the queue 0 to 7 (R178). -/
structure Binding where
  vec : Bool
  reg : BitVec 5
  q : BitVec 3
deriving DecidableEq, Repr

/-- A prefetched stream element: its value, or the fault it met (R180). -/
inductive Fill where
  | value (x : Vec)
  | fault (code : BitVec 8) (info : BitVec 56) (addr : Word)
deriving DecidableEq, Repr

/-- A register in stream mode (R180, R181). -/
structure Stream where
  vec : Bool
  reg : BitVec 5
  map : BitVec 512
  q : BitVec 2
  /-- elements fetched so far -/
  next : Nat := 0
  /-- elements popped so far -/
  popped : Nat := 0
  buf : List Fill := []
deriving DecidableEq, Repr

/-- The repetition buffer (R182). -/
structure Repeat where
  recording : Bool := false
  complete : Bool := false
  sacc : BitVec 1 := 0
  sf : BitVec 5 := 0
  sv : BitVec 4 := 0
  /-- the recorded instruction words with the address each was recorded at, and whether it is 32 bits long -/
  buf : List (Word × BitVec 32 × Bool) := []
deriving DecidableEq, Repr

/-- A replay under way (R183, R184): passes wanted, the pass and the place in the buffer that stand next. `halted`
after a trap in it, until ERET resumes it. -/
structure Replay where
  total : Nat
  pass : Nat := 0
  pos : Nat := 0
  halted : Bool := false
deriving DecidableEq, Repr

/-- The control registers of a context, without their reserved bits (R61 and the maps it names). -/
structure Ctl where
  /-- cycles counted up to the moment `State.cycFrom` names (R275) -/
  cycBase : Nat := 0
  cycFrom : Nat := 0
  src : Word := 0
  mcls : BitVec 10 := 0
  prio : BitVec 6 := 0
  xid : BitVec 16 := 0
  cause : Word := 0
  faddr : Word := 0
  syncst : BitVec 2 := 0
  parkt : BitVec 16 := 256
  sqdepth : BitVec 5 := 16
  fflags : BitVec 5 := 0
  frm : BitVec 4 := 0
  rseed : BitVec 32 := 0x2545F491
  spx : BitVec 1 := 0
  athr : BitVec 32 := 0
  adrop : BitVec 32 := 0
  adcnt : Word := 0
  win : Vector (BitVec 3) 4 := Vector.replicate 4 4
  mbx : Vector (BitVec 32) 4 := Vector.replicate 4 0
  rgn : Vector Word 16 := Vector.replicate 16 0
  hkey : BitVec 16 := 0
  /-- bits 55:1 of the return address, held with bit 0 clear -/
  epc : Word := 0
  estat : BitVec 2 := 0
  fgmask : BitVec 16 := 0
  ptroot : BitVec 48 := 0
  priv : BitVec 1 := 0
deriving DecidableEq, Repr

/-- A plain read of a tagged value that a later acquire fence covers (R296, R302). -/
structure TaggedRead where
  key : Nat
  tag : Tag
  value : Word
  /-- the widest fence scope already checked against it (R296) -/
  seen : Option (BitVec 3) := none
  /-- read through a chain of atomics: it may synchronise, and is no miss (R298) -/
  chain : Bool := false
  /-- bits 13:3 of the read's physical address, and whether it is another package's (R303) -/
  word : BitVec 11 := 0
  far : Bool := false
deriving DecidableEq, Repr

/-- The kinds of buffered store (R146, R147), and a message on its way into the spill block at the store's address, whether a launch
message, behind the context's earlier stores, with the root that translates the block (R169, R332). -/
inductive StoreKind where
  | plain | setFull | setEmpty
  | spill (m : Msg) (counted : Bool) (root : BitVec 48)
deriving DecidableEq, Repr

/-- A store in the store buffer (R161, R289): the bytes it writes as (memory key, byte), its virtual address, the
release scope it carries (R296) and the serial up to which earlier stores must be performed first. -/
structure Store where
  serial : Nat
  va : Word
  pa : Nat
  size : Nat
  val : Vec
  kind : StoreKind := .plain
  rel : Option (BitVec 3) := none
  upTo : Nat := 0
  /-- the second page's physical base, for a store that spans two pages -/
  pa2 : Nat := 0
  /-- the privilege, the bank-hash key and the launch of the context when it issued the store (R278, R280, R351) -/
  priv : BitVec 1 := 0
  hkey : BitVec 16 := 0
  launch : Option Nat := none
deriving DecidableEq, Repr

/-- The operations of NMADD and NMRED (R82, R160). -/
inductive NmKind where
  | addS32 | addS64 | addF32 | addF64
  | red (op : BitVec 3) (ty : BitVec 2)
deriving DecidableEq, Repr

/-- An NM operation not yet performed (R160, R286). -/
structure NmOp where
  serial : Nat
  va : Word
  pa : Nat
  kind : NmKind
  y : Word
deriving DecidableEq, Repr

/-- The engines that keep translation caches of their own (R360). -/
inductive Engine where
  | copy | welt | fabric
deriving DecidableEq, Repr

/-- The party an engine works for, with the values copied at issue (R65, R280, R295, R351, R364). -/
structure Issuer where
  core : CoreId := 0
  ctx : CtxId := 0
  priv : BitVec 1 := 0
  prio : BitVec 6 := 0
  root : BitVec 48 := 0
  hkey : BitVec 16 := 0
  launch : Option Nat := none
  /-- serial below which the context's own stores must be performed first (R305) -/
  upTo : Nat := 0
  /-- the engine that works for it (R360) -/
  eng : Engine := .fabric
deriving DecidableEq, Repr

/-- A grant of Hearth compute ways (R223, R224): the slices in lane order, the ways of each, the completion word's
address, and whether the conversion has written it. -/
structure Grant where
  slices : List (BitVec 7)
  ways : Nat
  /-- WAYGIVE's completion word, a virtual address, and the values copied at its issue (R65) -/
  word : Option Word
  iss : Issuer := {}
  done : Bool := false
  failed : Bool := false
  /-- the WAYTAKEs issued, each with its completion word and its own copies -/
  taking : List (Option Word × Issuer) := []
  /-- the 256 rows of each lane written since the conversion; others hold what the ways held, which is open -/
  rows : Assoc (BitVec 256) := []
  /-- the count at the conversion, for the open contents -/
  seed : Nat := 0
deriving DecidableEq, Repr

/-- A queued BSOP (R225): function, width, signedness, row word, lane word, the transfers it waits for, and its task's
launch. -/
structure Bsop where
  fn : BitVec 4
  n : Nat
  signed : Bool
  rows : Word
  lanes : Word
  after : List (BitVec 16)
  launch : Option Nat := none
deriving DecidableEq, Repr

/-- The task on a context (R256, R264, R342): its class, its launch, whether it counts among the three of R256. -/
structure Task where
  cls : BitVec 8 := 0
  launch : Option Nat := none
  bulk : Bool := false
  /-- the binding it started under: the class entry's count, 0 for a class-4 task (R175) -/
  gen : Nat := 0
deriving DecidableEq, Repr

/-- A register owed an asynchronous result, by its number (R112, R232). -/
abbrev Owed := BitVec 5

/-- An ACCRD under way (R161, R205): its address, the physical bases of its two pages, the tile as it was read, and the stores that
have entered the buffer so far. -/
structure TileRead where
  va : Word
  pa : Nat
  pa2 : Nat
  tile : Assoc (BitVec 32)
  done : Nat := 0
deriving DecidableEq, Repr

/-- One hardware context (R54, R254). -/
structure Ctx where
  status : Status := .free
  readyAt : Nat := 0
  pc : Word := 0
  g : Vector Word 32 := Vector.replicate 32 0
  f : Vector Word 32 := Vector.replicate 32 0
  v : Vector Vec 16 := Vector.replicate 16 0
  tm : Vector (Option (BitVec 512)) 16 := Vector.replicate 16 none
  q : Vector (List Vec) 4 := Vector.replicate 4 []
  binds : List Binding := []
  streams : List Stream := []
  loop : Option Loop := none
  /-- what each trap not yet returned from has set aside, the latest first: its loop, or none (R108, R267) -/
  trapLoops : List (Option Loop) := []
  rep : Repeat := {}
  replay : Option Replay := none
  ctl : Ctl := {}
  /-- vectors sent each way and not yet popped (R177) -/
  outst : Vector Nat 4 := Vector.replicate 4 0
  /-- the place in the write order of the last HALO strip that cr.mbx counts (R299) -/
  mbxAt : Nat := 0
  sendq : List Queued := []
  seq : BitVec 16 := 0
  stores : List Store := []
  serial : Nat := 1
  /-- serials up to which a release fence, or a ring push, covers the stores (R156, R191) -/
  fenceUpTo : Nat := 0
  pushUpTo : Nat := 0
  /-- widest scope of the release and full fences of the task so far (R296) -/
  relScope : Option (BitVec 3) := none
  /-- the last write of memory that happens-before the context's next access (R300), and the last that its fetches must
  see (R158) -/
  acqAt : Nat := 0
  fetchAt : Nat := 0
  /-- for a doubleword, the last write before which the context reads no value any more (R291) -/
  floor : Assoc Nat := []
  tagged : List TaggedRead := []
  nms : List NmOp := []
  /-- doublewords that its NM operations have been performed on since its last NMFENCE, with their place in the write order
  (R160) -/
  nmDone : Assoc Nat := []
  owed : List Owed := []
  xfer : BitVec 14 := 1
  grant : Option Grant := none
  bsops : List Bsop := []
  wait : Option Wait := none
  /-- the moment the wait began (R266) -/
  waitFrom : Nat := 0
  task : Option Task := none
  /-- pre-emption has stopped the context (R350) -/
  halted : Bool := false
  /-- an ACCRD under way (R161, R205) -/
  accrd : Option TileRead := none
  /-- an ALIASF of this context is under way or has finished (R157) -/
  aliasing : Option (Word × Word × Bool) := none
deriving DecidableEq, Repr

/-! ## A core -/

/-- States of a class-table entry (R259). -/
inductive Bound where
  | unbound | bound | draining
deriving DecidableEq, Repr

/-- A binding: handler, PRV, DPRIO (R174). -/
structure Handler where
  addr : Word := 0
  prv : BitVec 1 := 0
  dprio : BitVec 6 := 0
deriving DecidableEq, Repr

/-- An entry of the class table (R259, R174). -/
structure ClassEntry where
  state : Bound := .unbound
  handler : Handler := {}
  pending : Handler := {}
  /-- spill block and the page-table root recorded with it, class 5 only -/
  block : Option (Word × BitVec 48) := none
  pendingBlock : Option (Word × BitVec 48) := none
  /-- contexts whose tasks started under the old binding and still run (R175) -/
  old : List CtxId := []
  /-- how often the entry has been bound -/
  gen : Nat := 0
deriving DecidableEq, Repr

/-- A vector in q4 to q7, or on its way there, with its sender (R176, R177). -/
structure Sent where
  val : Vec
  core : CoreId
  ctx : CtxId
  dir : BitVec 2
deriving DecidableEq, Repr

/-- The element kinds of Anvil operands (R197, R201). -/
inductive Elem where
  | e4m3 | e5m2 | e2m1 | ec8 | bf16 | f16 | s8 | s4
deriving DecidableEq, Repr

/-- What an Anvil command computes (R197 to R203). -/
inductive AnvilOp where
  | mma (a b : Elem) (scaled fine : Bool)
  | mmap (e : Elem)
  | dist (squared : Bool) (e : Elem)
  | adrain (k : Nat) (hi fresh : Bool)
  | cupd (e : Elem) (base : Nat)
deriving DecidableEq, Repr

/-- A chunk of deque entries in the spill area (R270): who moved it, where it stands, and the records still in it, oldest
first: place, the store serial that its FORK releases, and its launch. -/
structure Chunk where
  iss : Issuer
  va : Nat
  marks : List (Nat × Nat × Option Nat)
deriving DecidableEq, Repr

/-- An Anvil command with its issue-time copies (R193), and the flags it has raised once started (R42, R194). -/
structure AnvilCmd where
  op : AnvilOp
  tile : BitVec 1
  ringA : BitVec 3 := 0
  popA : Bool := false
  ringB : BitVec 3 := 0
  popB : Bool := false
  f0 : BitVec 32 := 0
  f1 : BitVec 32 := 0
  strict : Bool := false
  ctx : CtxId
  seq : BitVec 16
  flags : BitVec 5 := 0
  /-- serial below which the context's own stores must be performed first (R305) -/
  upTo : Nat := 0
deriving DecidableEq, Repr

/-- The done unit of a core (R272, R273). -/
structure DoneUnit where
  code : BitVec 8 := 0
  flags : BitVec 8 := 0
  count : BitVec 48 := 0
  sent : Nat := 0
  started : Nat := 0
  /-- place in the done tree: none outside a launch; parent none for the root -/
  inTree : Bool := false
  parent : Option CoreId := none
  children : List CoreId := []
  /-- the wave this core reports next, and the reports its children have made for it (child, wave, record) -/
  wave : Nat := 1
  /-- root only: the last wave that it has started -/
  begun : Nat := 0
  reports : List (CoreId × Nat × BitVec 64 × Nat × Nat) := []
  /-- root only: the totals of the wave before -/
  last : Option (Nat × Nat × BitVec 64) := none
deriving DecidableEq, Repr

/-- One core (R16, R54). -/
structure Core where
  ctx : Vector Ctx 4 := Vector.replicate 4 {}
  classes : Assoc ClassEntry := []
  inbox : List Entry := []
  /-- class-7 messages consumed by the core and not yet acted on (R268) -/
  control : List Msg := []
  deque : List Fork := []
  /-- the chunks of the spill area, oldest first (R270) -/
  spilled : List Chunk := []
  /-- q4 to q7 -/
  nq : Vector (List Sent) 4 := Vector.replicate 4 []
  acc : Vector (Assoc (BitVec 32)) 2 := Vector.replicate 2 []
  /-- doublewords of the tiles that are poisoned (R395) -/
  accPoison : Vector (List Nat) 2 := Vector.replicate 2 []
  cmds : List AnvilCmd := []
  started : List AnvilCmd := []
  cmdSeq : BitVec 16 := 0
  done : DoneUnit := {}
  pkey : BitVec 16 := 0
  awt : BitVec 4 := 1
  /-- state of the steal generator and the wait after an empty answer (R271) -/
  steal : BitVec 32 := 0
  backoff : Nat := 64
  nextSteal : Nat := 0
  stealing : Bool := false
  /-- a containment notice of this core is undelivered (R258) -/
  noticeOut : Bool := false
  /-- counts the moments at which entries and contexts become ready -/
  clock : Nat := 0
deriving DecidableEq, Repr

/-! ## Forges and memory -/

/-- A ring (R189, R190); HEAD, RD and TAIL count on without wrapping. -/
structure Ring where
  conf : Option Word := none
  geom : BitVec 2 := 0
  head : Nat := 0
  rd : Nat := 0
  tail : Nat := 0
  /-- the place in the write order of the last retirement that freed slots (R299) -/
  freedAt : Nat := 0
deriving DecidableEq, Repr

/-- A forge (R189, R195, R278). -/
structure Forge where
  role : Word := 0
  rings : Vector Ring 8 := Vector.replicate 8 {}
  /-- the core index the arbiter visits and the commands it has started there -/
  arb : BitVec 3 := 0
  arbUsed : Nat := 0
deriving DecidableEq, Repr

/-- Where a line's copies and its token are (R283, R287 to R289, R376). -/
structure Line where
  /-- the core that holds the token, and whether in state X -/
  owner : Option (CoreId × Bool) := none
  /-- the owner's copy is dirty (R288) -/
  dirty : Bool := false
  /-- copies in L1Ds, in L1Is and in forge caches: what the filters of their clusters name (R287) -/
  sharers : List CoreId := []
  fetchers : List CoreId := []
  forges : List ForgeId := []
  hostBit : Bool := false
  /-- a BISnp is out for the line, and one the host has answered for a pass of the token or of dirty data: BISnpInv, or
  BISnpData where false (R376) -/
  asked : Option Bool := none
  answered : Option Bool := none
  /-- the model's own: the step that made use of that answer, after which it counts no more -/
  spent : Option Nat := none
  /-- the moment of the last request for it at home (R286) -/
  at_ : Option Nat := none
  /-- the slice a migrated line lives in -/
  slice : Option (BitVec 7) := none
  last : Option (BitVec 7) := none
  count : Nat := 0
  /-- a move to the target slice is under way, begun in this step, and the requests of later ones wait (R283, R284) -/
  moving : Option Nat := none
  /-- while the owner is in X: what the home holds, and the full-empty bits there (R289, R403) -/
  home : List Byte := []
  homeFull : BitVec 8 := 0
deriving DecidableEq, Repr

/-- A line in a slice of the Hearth (R282): its number, another package's line n as 2^60 + n, the slice, and whether its copy
there is dirty. -/
structure Resident where
  line : Nat
  slice : BitVec 7
  dirty : Bool := false
deriving DecidableEq, Repr

/-- A value that a doubleword held: the number of the write that replaced it, the value, the releases that a read of it
meets, and who replaced it (R291, R298, R302). -/
structure Old where
  num : Nat
  val : Word
  tag : Option Tag := none
  chain : List Tag := []
  /-- the core whose own write replaced it -/
  by_ : Option CoreId := none
deriving DecidableEq, Repr

/-- Memory by key: the physical address with both DRAM windows of this package at the bank-linear address and
scratchpad at the direct address (R146, R276, R280). -/
structure Memory where
  bytes : List Host.Cell := []
  /-- doublewords that are full (R146) -/
  full : List Nat := []
  /-- doublewords that are poisoned (R396) -/
  poison : List Nat := []
  /-- release tags, by doubleword and window as `past` (R302) -/
  tags : Assoc Tag := []
  /-- release tags of the writes that a chain of atomics follows, the doubleword's last write among them (R298), as `tags` -/
  chain : Assoc (List Tag) := []
  /-- writes performed so far, and the values that doublewords held before them, newest first, each with the number of the
  write that replaced it: what a read that nothing orders may still return (R291, R300). By window: interleaved or no
  window (2·doubleword), bank-linear (2·doubleword + 1) -/
  time : Nat := 0
  past : Assoc (List Old) := []
  /-- doublewords whose interleaved (key·2) or bank-linear (key·2+1) window may still return an older value (R157) -/
  stale : Assoc Word := []
  lines : Assoc Line := []
  /-- what the slices of the Hearth hold, newest request first (R282) -/
  hearth : List Resident := []
  /-- read copies of other packages' memory (R292, R293), by doubleword -/
  proxy : Assoc Word := []
  /-- lines of other packages with writes not yet acknowledged, and how many (R292) -/
  pending : Assoc Nat := []
  /-- bytes of other packages' memory as this package last wrote them, by physical address (R144, R292) -/
  far : List Host.Cell := []
  /-- release tags that came with the read copies (R302) -/
  proxyTags : Assoc Tag := []
  /-- lines of the host space this package holds, and whether with the token (R375) -/
  hostLines : Assoc Bool := []
deriving DecidableEq, Repr

/-- Where a translation is cached (R16, R360): a core's I TLB or D TLB, a cluster's L2 TLB and walk caches, the caches of
the engines that serve a die. -/
inductive TlbHome where
  | instr (core : CoreId)
  | data (core : CoreId)
  | cluster (k : BitVec 7)
  | engine (e : Engine) (die : BitVec 2)
deriving DecidableEq, Repr

/-- A cached page-table entry, a leaf or not (R360). -/
structure TlbEntry where
  home : TlbHome
  root : BitVec 48
  /-- the place in the address space among the stretches that one entry of its level maps -/
  base : Nat
  lvl : BitVec 2
  pte : Word
deriving DecidableEq, Repr

/-! ## Engines -/

/-- The transfers of R209. -/
inductive XferKind where
  | cpy | cpykv | kvapp | get | put | halo | rowop
deriving DecidableEq, Repr

/-- Where a transfer stands (R212, R213). -/
inductive XferState where
  | queued | running | cancelled | complete
deriving DecidableEq, Repr

/-- A fix-up the engine has recorded (R364): the page, the entry's index, the elements it skipped, and the core that issued
the command (R366). -/
structure Fixup where
  idx : Nat
  page : BitVec 42
  who : CoreId := 0
  /-- the elements to perform on a replay, and whether one has been (R366) -/
  elems : List Nat := []
  replayed : Bool := false
  /-- resolved, and its elements are being performed (R366) -/
  again : Bool := false
  /-- abandoned, and 101 is still to be written (R366) -/
  skip : Bool := false
deriving DecidableEq, Repr
/-- Something of a fix-up is still to be done: elements, or a state to write (R366). -/
def Fixup.open_ (f : Fixup) : Bool := !f.elems.isEmpty || f.again || f.skip

/-- A transfer (R210 to R222, R226). -/
structure Xfer where
  id : BitVec 16
  iss : Issuer
  kind : XferKind
  block : Word
  mapw : BitVec 32 := 0
  sm : BitVec 512 := 0
  dm : BitVec 512 := 0
  ovn : Bool := false
  st : XferState := .queued
  handler : Word := 0
  args : Vector Word 4 := Vector.replicate 4 0
  /-- elements, tiles or rows worked through so far -/
  next : Nat := 0
  code : BitVec 8 := 0
  flags : BitVec 8 := 0
  count : Nat := 0
  /-- GET and PUT: rows of which some element has been skipped (R220) -/
  lost : List Nat := []
  fixes : List Fixup := []
  fixcnt : Nat := 0
  /-- BSOPs of the context issued before it and still queued (R225) -/
  after : Nat := 0
  /-- the parameter block has been read (R212) -/
  started : Bool := false
  /-- doublewords written and not yet set full: virtual doubleword and memory doubleword (R214) -/
  written : List (Nat × Nat) := []
  /-- lines of other packages written, whose homes may still have to acknowledge (R213, R292) -/
  far : List Nat := []
  /-- CPYKV: tiles handed on by TAIL (R218) -/
  pushed : Nat := 0
  /-- KVAPP: the block that takes the token, the block it replaces where one was popped, and the reference counts (R219) -/
  app : Option (Nat × Option Nat × Nat) := none
  /-- the count at its start, for the order of writes to one row (R220) -/
  seed : Nat := 0
deriving DecidableEq, Repr

/-- FLUSHR and INVR under way (R227). -/
structure RangeOp where
  iss : Issuer
  inval : Bool
  base : Word
  len : Word
  word : Option Word
deriving DecidableEq, Repr

/-- A shootdown under way (R250), already checked: the block's fields, or bad. -/
structure Shoot where
  iss : Issuer
  word : Option Word
  blk : Option (Word × Word × BitVec 8 × BitVec 8 × Word)
deriving DecidableEq, Repr

/-- A PARTSET under way (R253): the 64-byte block as read at issue. -/
structure PartOp where
  iss : Issuer
  word : Option Word
  blk : BitVec 512
deriving DecidableEq, Repr

/-! ## The equality heap -/

/-- A configured handle (R233). -/
structure HeapConf where
  iss : Issuer
  desc : Word
  base : Word
  ncls : Nat
  nnode : Nat
  hlog : Nat
  span : BitVec 8
deriving DecidableEq, Repr

/-- The heap operations (R229), with their operands read at issue. -/
inductive HeapKind where
  | cfg (desc : Word)
  | ins (key c01 c2 : Word)
  | find (id : Word)
  | mrg (a b : Word)
  | matchp (block range : Word)
  | node (idx : Word)
  | enum (id buf : Word)
  | rank (block : Word)
  | stat (item : Word)
deriving DecidableEq, Repr

/-- A heap operation in the engines (R229 to R245): the registers or the completion word it delivers to, the tag its
work carries (R318), and how far it has come. -/
structure HeapOp where
  iss : Issuer
  kind : HeapKind
  /-- EGNODE's three registers, or one, or none for d = 0 -/
  regs : List (BitVec 5) := []
  word : Option Word := none
  tag : Nat := 0
  /-- 0 queued, 1 begun, 2 its own effect on the heap is made (R234) -/
  stage : Nat := 0
  /-- children as canonicalised (R235) -/
  canon : Option (Nat × Nat × Nat) := none
  /-- a result held back until re-signs it caused are published (R315) -/
  result : Option Word := none
  /-- EGMATCH: the pattern block read, ids visited, bindings not yet sent, and bindings sent (R242) -/
  blk : List Byte := []
  done : Nat := 0
  binds : List Msg := []
  sent : Nat := 0
  /-- the code 7 of an operation with a fault that the supervisor abandoned (R245) -/
  code : BitVec 8 := 0
deriving DecidableEq, Repr

/-- A tagged item of work: a union step of two ids, or a re-sign of a term node (R316 to R318). -/
inductive Work where
  | union (a b : Nat)
  | resign (node : Nat)
deriving DecidableEq, Repr

/-- Work pending in the engines with the tag of the operation it descends from (R318). -/
structure Item where
  tag : Nat
  work : Work
  id : Nat := 0
  /-- the union that EGMRG names itself (R234) -/
  direct : Bool := false
deriving DecidableEq, Repr

/-- A signature: SYM, ARITY, LIT and the canonical children (R311). -/
structure Sig where
  sym : Nat
  arity : Nat
  lit : Nat
  c0 : Nat
  c1 : Nat
  c2 : Nat
deriving DecidableEq, Repr

/-- A heap handle (R230 to R245, R308 to R321). -/
structure Heap where
  conf : Option HeapConf := none
  ops : List HeapOp := []
  items : List Item := []
  /-- unions each tag has published (R318) -/
  counts : Assoc Nat := []
  nextTag : Nat := 1
  buckets : List (Sig × Nat) := []
  /-- the ranking block, 2,688 bytes, when loaded (R244) -/
  rank : Option (List Byte) := none
  fixes : List Fixup := []
  fixcnt : Nat := 0
deriving DecidableEq, Repr

/-! ## Partitions and launches -/

/-- An entry of a supervisor queue (R252). -/
structure SupEntry where
  reason : BitVec 8
  msg : Msg
deriving DecidableEq, Repr

/-- A partition (R252, R341). -/
structure Part where
  formed : Bool := false
  key : BitVec 16 := 0
  supq : List SupEntry := []
  drops : Nat := 0
  resident : Option Nat := none
  /-- the launch unit has asked for a halt (R350) -/
  halting : Bool := false
deriving DecidableEq, Repr

/-- A launch queue's registers (R344) and the completion records that wait for room (R349). -/
structure LaunchQ where
  lqbase : Word := 0
  lqctl : Word := 0
  lqtail : Word := 0
  lqhead : Word := 0
  cqbase : Word := 0
  cqctl : Word := 0
  cqtail : Word := 0
  cqhead : Word := 0
deriving DecidableEq, Repr

/-- The life of a launch (R342, R347 to R352). -/
inductive LaunchState where
  | waiting | resident | saved | finished
deriving DecidableEq, Repr

/-- One forge of a saved launch: roles, rings and the contents, full bits, poison and tags of its banks (R350, R396). -/
structure SavedForge where
  forge : Forge
  bytes : List Host.Cell
  full : List Nat
  poison : List Nat
  tags : Assoc Tag
  chain : Assoc (List Tag) := []
deriving DecidableEq, Repr

/-- What the switch engine writes to the save area (R350). -/
structure Saved where
  cores : Assoc Core := []
  forges : Assoc SavedForge := []
deriving DecidableEq, Repr

/-- A launch (R345 to R353). -/
structure Launch where
  id : Nat
  q : BitVec 10
  /-- LQHEAD at copy -/
  index : BitVec 32
  /-- the descriptor, 256 bytes -/
  desc : List Byte
  part : BitVec 6
  prio : BitVec 6
  st : LaunchState := .waiting
  /-- the order in which launches became eligible -/
  order : Option Nat := none
  root : CoreId := 0
  cores : List CoreId := []
  preempts : BitVec 32 := 0
  durBase : Nat := 0
  durFrom : Nat := 0
  status : Word := 0
  /-- its completion record has met a full ring, and holds its queue until it is posted (R349) -/
  waits : Bool := false
  saved : Saved := {}
  /-- class-4, class-6, binding and class-0 traffic held for a saved launch (R351) -/
  heldMsgs : List Flight := []
  heldInner : List (CoreId × Entry) := []
  /-- strips for cr.mbx, each with its last write's place in the write order (R221) -/
  heldMbx : List (CoreId × CtxId × BitVec 2 × Nat) := []
  /-- the place in the write order of its start, which every task of it follows (R347) -/
  startAt : Nat := 0
deriving DecidableEq, Repr

/-! ## Dies, island, fabric and host -/

/-- A die (R366, R368, R395 to R403). -/
structure Die where
  powered : Bool := true
  fenced : Bool := false
  joined : Bool := false
  inReset : Bool := false
  /-- THERMTRIP_N is low -/
  trip : Bool := false
  throttled : Bool := false
  /-- the moment of the last heartbeat (R401) -/
  beat : Nat := 0
  pwrlim : BitVec 12 := 950
  fzreq : Word := 0
  fzacc : Word := 0
  fzdone : Word := 0
  /-- frames accepted and not yet zeroed: physical base and size -/
  zeroing : List (Nat × Nat) := []
  /-- clusters fenced off at start (R407) -/
  off : List (BitVec 7) := []
deriving DecidableEq, Repr

/-- States of the island (R399). -/
inductive IslandState where
  | off | reset | alone | joined | fencedOne
deriving DecidableEq, Repr

/-- A black-box record (R405). -/
structure BbRecord where
  time : Word
  kind : BitVec 8
  src : BitVec 8
  core : BitVec 16
  aux : BitVec 32
  data0 : Word
  data1 : Word
deriving DecidableEq, Repr

/-- The router island (R399 to R409). -/
structure Island where
  st : IslandState := .alone
  /-- the moment of its power-on (R405) -/
  onAt : Nat := 0
  orphcnt : Word := 0
  devevt : BitVec 6 := 0
  frozen : Bool := false
  trigen : BitVec 8 := 0x1F
  wrap : Bool := false
  next : BitVec 17 := 0
  records : Assoc BbRecord := []
  /-- PKGID (R378): VALID and the coordinates -/
  pkgValid : Bool := false
  x : BitVec 4 := 0
  y : BitVec 4 := 0
  z : BitVec 5 := 0
  /-- FWIN0 to FWIN15, doublewords 0 and 1 (R384) -/
  fwin : Vector (Word × Word) 16 := Vector.replicate 16 (0, 0)
  /-- the start record, newest first: 8 entries of 64 bytes (R407) -/
  starts : Vector (Vector Byte 64) 8 := Vector.replicate 8 (Vector.replicate 64 0)
  /-- MR0 to MR7 (R409) -/
  mr : Vector (Vector Byte 64) 8 := Vector.replicate 8 (Vector.replicate 64 0)
  /-- the fused minimum and the security version of the image that runs, for the island and dies 0 to 3 (R408, R409) -/
  fused : Vector (BitVec 16) 5 := Vector.replicate 5 0
  versions : Vector (BitVec 16) 5 := Vector.replicate 5 0
  nonce : Vector Word 4 := Vector.replicate 4 0
  asked : Bool := false
  ready : Bool := false
  report : List Byte := []
  hostUp : Bool := true
  /-- the host link runs 256-byte flits, which CXL.cache and CXL.mem need, and signals viral (R373) -/
  flit256 : Bool := true
  viral : Bool := false
  brake : Bool := false
deriving DecidableEq, Repr

/-- A fabric link (R379, R380, R400). -/
structure FabricLink where
  up : Bool := false
  /-- the SEQ expected next, and the one sent next -/
  rxSeq : BitVec 12 := 0
  txSeq : BitVec 12 := 0
  /-- flits sent and not yet acknowledged, oldest first, at most 1,024 -/
  sentFlits : List (BitVec 576) := []
  /-- replays in a row of the oldest of them -/
  replays : Nat := 0
  /-- a NAK to be sent, naming the last good SEQ -/
  nak : Option (BitVec 12) := none
  /-- credits in use, by network and by escape class 0, escape class 1 and detours: at 3·network + class (R381, R382, R404) -/
  used : Vector Nat 12 := Vector.replicate 12 0
  /-- flits not yet sent on again after the link went down, oldest first (R404) -/
  backlog : List (BitVec 576) := []
  /-- flits of `sentFlits` on a detour: SEQ, and the link that they go around (R404) -/
  detoured : List (BitVec 12 × Link) := []
  /-- messages of this package among `sentFlits` and `backlog`, by SEQ (R168) -/
  own : List (BitVec 12 × Msg) := []
deriving DecidableEq, Repr

/-- How an outstanding request has been answered (R385, R402). -/
inductive Answer where
  | waiting | absent | refused | granted
  /-- the home of an LDF's word has answered that it is empty, and will answer again when it is filled (R148) -/
  | empty
deriving DecidableEq, Repr

/-- A non-posted request out in the fabric or to the host (R375, R402): its party, the line, and its answer. -/
structure Request where
  core : CoreId
  ctx : CtxId
  line : Nat
  own : Bool := false
  host : Bool := false
  ans : Answer := .waiting
  /-- the moment it was sent (R402) -/
  since : Nat := 0
  /-- an LDF, answered when the word is full (R148) -/
  ldf : Bool := false
  /-- an instruction fetch -/
  fetch : Bool := false
deriving DecidableEq, Repr

/-- Whose instruction a meaning acts for: the core, its context, and whether the vector stream replays it (R184). -/
structure Cur where
  core : CoreId := 0
  ctx : CtxId := 0
  replay : Bool := false
deriving DecidableEq, Repr

/-- The whole machine. -/
structure State where
  cores : Assoc Core := []
  forges : Assoc Forge := []
  mem : Memory := {}
  tlb : List TlbEntry := []
  /-- messages in the mesh (R257) -/
  mesh : List Flight := []
  /-- vectors and credits between neighbours (R176, R177) -/
  vecs : List (CoreId × BitVec 2 × Sent) := []
  credits : List (CoreId × CtxId × BitVec 2) := []
  /-- NM operations at the bank engines (R286) -/
  bank : List (CoreId × CtxId × NmOp) := []
  /-- requests sorted at the memory controllers: lines to be written back (R285) -/
  ctlq : List Nat := []
  /-- steal requests on their way: thief and victim (R271) -/
  steals : List (CoreId × CoreId) := []
  /-- class-0 messages outstanding: doubleword and releasing core, with its package, none for this one (R303) -/
  misses : List (Word × Option (BitVec 13) × CoreId) := []
  xfers : List Xfer := []
  ranges : List RangeOp := []
  shoots : List Shoot := []
  partops : List PartOp := []
  /-- heap handle h of partition p at 4p + h -/
  heaps : Assoc Heap := []
  /-- ways of each slice owned by a grant: slice, count, owner and its launch (R223, R353) -/
  ways : List (BitVec 7 × Nat × CoreId × CtxId × Option Nat) := []
  parts : Assoc Part := []
  /-- partition of each cluster that is not in partition 0 (R341) -/
  clusterPart : Assoc (BitVec 6) := []
  queues : Assoc LaunchQ := []
  launches : List Launch := []
  nextLaunch : Nat := 0
  eligibleClock : Nat := 0
  dies : Vector Die 4 := Vector.replicate 4 {}
  island : Island := {}
  links : Vector FabricLink 12 := Vector.replicate 12 {}
  requests : List Request := []
  /-- requests answered as from an absent endpoint whose own replies may still come: they are orphans (R402) -/
  late : Nat := 0
  /-- MSI-X vectors fired, newest first (R374) -/
  msix : List Nat := []
  /-- the model's own: moves that stand next, the acting context, the count the free values take, cycles passed -/
  agenda : List Move := []
  cur : Cur := {}
  tick : Nat := 0
  now : Nat := 0
deriving DecidableEq, Repr

/-- The machine after reset: every field at its reset value (R54, R61, R146, R259, R278, R341, R344, R368, R384,
R398, R400, R403, R406); the values the spec does not give are named in log 1 and log 5. -/
def State.reset : State := {}

/-- Why a step stops with a fault. -/
inductive Fault where
  /-- Raised by `step` when the schedule names a processor instruction as an event: no agent makes that move.
  Safe: the machine has no such behaviour. -/
  | schedulerMove
deriving DecidableEq, Repr

/-- Why a step has no meaning. -/
inductive Refusal where
  /-- Raised by `exec` for an instruction of the table that this model gives no meaning yet. Safe: nothing is claimed
  of it. -/
  | notModelled (mnemonic : String)
deriving DecidableEq, Repr

end Sys2Proof.Machine
end

