-- ==== Sys2Proof/Machine/Bits.lean ====
section
/-! DEFINITION. Bit fields, sign extension, byte order (R1, R2), and the finite maps by number that State uses. -/

namespace Sys2Proof.Machine

/-- Bits lo + len − 1 : lo of a number (R1). -/
def nbits (n lo len : Nat) : Nat := n / 2 ^ lo % 2 ^ len
/-- Bits lo + len − 1 : lo of a word (R1). -/
def fld {w : Nat} (x : BitVec w) (lo len : Nat) : Nat := nbits x.toNat lo len
/-- One bit of a word. -/
def bit {w : Nat} (x : BitVec w) (i : Nat) : Bool := x.getLsbD i
/-- The low `n` bits of a doubleword as a signed integer (R95). -/
def sval {w : Nat} (x : BitVec w) (n : Nat) : Int := (x.setWidth n).toInt
/-- trunc64 of an exact integer (R11). -/
def trunc64 (i : Int) : Word := BitVec.ofInt 64 i
/-- The low `n` bits sign-extended to a doubleword (R55, R144). -/
def sextW (n : Nat) (x : Word) : Word := (x.setWidth n).signExtend 64
/-- The low `n` bits zero-extended to a doubleword. -/
def zextW (n : Nat) (x : Word) : Word := (x.setWidth n).setWidth 64
/-- `x` with the `len` bits from `lo` replaced (R96, R98). -/
def insertBits (x : Word) (lo len : Nat) (v : Nat) : Word :=
  BitVec.ofNat 64 (x.toNat - nbits x.toNat lo len * 2 ^ lo + v % 2 ^ len * 2 ^ lo)
/-- Byte `i` of a number, byte 0 lowest (R2). -/
def byteOf (n i : Nat) : Byte := BitVec.ofNat 8 (n / 256 ^ i)
/-- A number as `k` bytes, lowest first (R2). -/
def toBytes (n : Nat) : Nat → List Byte
  | 0 => []
  | k + 1 => BitVec.ofNat 8 n :: toBytes (n / 256) k
/-- The number that bytes make, lowest first (R2). -/
def fromBytes : List Byte → Nat
  | [] => 0
  | b :: t => b.toNat + 256 * fromBytes t

namespace Assoc
variable {α : Type}
/-- What a map lists at a number. -/
def get? (m : Assoc α) (k : Nat) : Option α :=
  match m with
  | [] => none
  | (a, x) :: t => if a = k then some x else get? t k
/-- What a map lists at a number, else the default. -/
def getD (m : Assoc α) (k : Nat) (d : α) : α := (get? m k).getD d
/-- A map with one number's entry set, numbers rising. -/
def put (m : Assoc α) (k : Nat) (x : α) : Assoc α :=
  match m with
  | [] => [(k, x)]
  | (a, y) :: t => if k < a then (k, x) :: (a, y) :: t else if k = a then (k, x) :: t else (a, y) :: put t k x
/-- A map without a number. -/
def del (m : Assoc α) (k : Nat) : Assoc α := m.filter fun p => p.1 ≠ k
end Assoc

/-- A rising list of numbers with one added. -/
def addKey (k : Nat) : List Nat → List Nat
  | [] => [k]
  | a :: t => if k < a then k :: a :: t else if k = a then a :: t else a :: addKey k t
/-- A list of numbers without one. -/
def delKey (k : Nat) (l : List Nat) : List Nat := l.filter (· ≠ k)
/-- A list with the element at a place replaced. -/
def setAt {α : Type} : List α → Nat → α → List α
  | [], _, _ => []
  | _ :: t, 0, y => y :: t
  | x :: t, i + 1, y => x :: setAt t i y
/-- A list without the element at a place. -/
def dropAt {α : Type} : List α → Nat → List α
  | [], _ => []
  | _ :: t, 0 => t
  | x :: t, i + 1 => x :: dropAt t i

end Sys2Proof.Machine
end

