-- ==== Sys2Proof/Machine/Ops.lean ====
section
/-! DEFINITION. Named operations over the state: the acting context, its registers, places on the package, notices and
the black box, taking a trap (R267) and returning from one (R249, R268), waiting (R266) and retiring (R107). -/

namespace Sys2Proof.Machine

/-! ## Places (R7, R17, R341) -/

/-- x and y of a core (R7). -/
def coreX (c : CoreId) : Nat := c.toNat % 128
def coreY (c : CoreId) : Nat := c.toNat / 128
/-- The core at x, y (R7). -/
def coreAt (x y : Nat) : CoreId := BitVec.ofNat 13 (y * 128 + x)
def forgeOf (c : CoreId) : ForgeId := BitVec.ofNat 10 (coreY c / 2 * 32 + coreX c / 4)
def clusterOf (c : CoreId) : BitVec 7 := BitVec.ofNat 7 (coreY c / 8 * 16 + coreX c / 8)
def dieOf (c : CoreId) : BitVec 2 := BitVec.ofNat 2 (coreY c / 32 * 2 + coreX c / 64)
/-- The index of a core in its forge (R195). -/
def forgeIndex (c : CoreId) : Nat := coreY c % 2 * 4 + coreX c % 4
/-- The core of a forge with an index (R7, R195). -/
def forgeCore (f : ForgeId) (i : Nat) : CoreId :=
  coreAt (f.toNat % 32 * 4 + i % 4) (f.toNat / 32 * 2 + i / 4)
/-- The cluster that contains a forge (R276). -/
def forgeCluster (f : Nat) : Nat := f / 128 * 16 + f % 32 / 2
/-- The die of a cluster (R7). -/
def clusterDie (k : Nat) : Nat := k / 64 * 2 + k % 16 / 8
/-- The die of a forge. -/
def forgeDie (f : Nat) : Nat := clusterDie (forgeCluster f)
/-- The cores of a cluster. -/
def clusterCores (k : Nat) : List CoreId :=
  (List.range 64).map fun i => coreAt (k % 16 * 8 + i % 8) (k / 16 * 8 + i / 8)

/-! ## The parts of the state -/

/-- A core; one that nothing has touched stands as after reset. -/
def State.core (s : State) (c : CoreId) : Core := (Assoc.get? s.cores c.toNat).getD {}
def State.setCore (s : State) (c : CoreId) (x : Core) : State := { s with cores := Assoc.put s.cores c.toNat x }
def Core.ctxAt (x : Core) (k : CtxId) : Ctx := x.ctx.get ⟨k.toNat, k.isLt⟩
def Core.setCtx (x : Core) (k : CtxId) (c : Ctx) : Core := { x with ctx := x.ctx.set k.toNat c k.isLt }
def State.ctxAt (s : State) (c : CoreId) (k : CtxId) : Ctx := (s.core c).ctxAt k
def State.setCtxAt (s : State) (c : CoreId) (k : CtxId) (x : Ctx) : State := s.setCore c ((s.core c).setCtx k x)
/-- The acting context. -/
def State.me (s : State) : Ctx := s.ctxAt s.cur.core s.cur.ctx
def State.setMe (s : State) (x : Ctx) : State := s.setCtxAt s.cur.core s.cur.ctx x
/-- The acting core. -/
def State.here (s : State) : Core := s.core s.cur.core
def State.setHere (s : State) (x : Core) : State := s.setCore s.cur.core x
def State.forge (s : State) (f : ForgeId) : Forge := (Assoc.get? s.forges f.toNat).getD {}
def State.setForge (s : State) (f : ForgeId) (x : Forge) : State := { s with forges := Assoc.put s.forges f.toNat x }
def State.part (s : State) (p : BitVec 6) : Part := (Assoc.get? s.parts p.toNat).getD {}
def State.setPart (s : State) (p : BitVec 6) (x : Part) : State := { s with parts := Assoc.put s.parts p.toNat x }
def State.die (s : State) (d : BitVec 2) : Die := s.dies.get ⟨d.toNat, d.isLt⟩
def State.setDie (s : State) (d : BitVec 2) (x : Die) : State := { s with dies := s.dies.set d.toNat x d.isLt }
def State.heap (s : State) (h : Nat) : Heap := (Assoc.get? s.heaps h).getD {}
def State.setHeap (s : State) (h : Nat) (x : Heap) : State := { s with heaps := Assoc.put s.heaps h x }
def State.queue (s : State) (q : BitVec 10) : LaunchQ := (Assoc.get? s.queues q.toNat).getD {}
def State.setQueue (s : State) (q : BitVec 10) (x : LaunchQ) : State := { s with queues := Assoc.put s.queues q.toNat x }
/-- The cells of a class table: an entry not listed is unbound (R259). -/
def Core.cls (x : Core) (k : Nat) : ClassEntry := (Assoc.get? x.classes k).getD {}
def Core.setCls (x : Core) (k : Nat) (e : ClassEntry) : Core := { x with classes := Assoc.put x.classes k e }

/-- The partition of a cluster and of a core (R341). -/
def State.clusterPartition (s : State) (k : Nat) : BitVec 6 := (Assoc.get? s.clusterPart k).getD 0
def State.partOf (s : State) (c : CoreId) : BitVec 6 := s.clusterPartition (clusterOf c).toNat
/-- The partition's lowest-numbered cluster gives its supervisor core (R341). -/
def State.supervisor (s : State) (p : BitVec 6) : CoreId :=
  let k := ((List.range 128).find? fun k => s.clusterPartition k = p).getD 0
  BitVec.ofNat 13 (1024 * (k / 16) + 8 * (k % 16))
/-- The package number, X + 16Y + 256Z (R378). -/
def State.pkg (s : State) : BitVec 13 :=
  BitVec.ofNat 13 (s.island.x.toNat + 16 * s.island.y.toNat + 256 * s.island.z.toNat)
/-- A die that answers (R402). -/
def Die.up (d : Die) : Bool := d.powered && !d.fenced && !d.inReset
def State.dieUp (s : State) (d : Nat) : Bool := (s.die (BitVec.ofNat 2 d)).up
/-- The island answers for the fabric, the host and the device registers (R399, R402). -/
def State.islandUp (s : State) : Bool := s.island.st ≠ .off && s.island.st ≠ .reset
/-- A core that answers: its die is up and its cluster is not fenced off (R402, R407). -/
def State.coreUp (s : State) (c : CoreId) : Bool :=
  s.dieUp (dieOf c).toNat && !(s.die (dieOf c)).off.contains (clusterOf c)

/-! ## Registers (R54 to R57, R61) -/

/-- g registers; g0 reads as zero and discards writes (R55). -/
def Ctx.getG (x : Ctx) (r : BitVec 5) : Word := if r = 0 then 0 else x.g.get ⟨r.toNat, r.isLt⟩
def Ctx.setG (x : Ctx) (r : BitVec 5) (w : Word) : Ctx := if r = 0 then x else { x with g := x.g.set r.toNat w r.isLt }
def Ctx.getF (x : Ctx) (r : BitVec 5) : Word := x.f.get ⟨r.toNat, r.isLt⟩
def Ctx.setF (x : Ctx) (r : BitVec 5) (w : Word) : Ctx := { x with f := x.f.set r.toNat w r.isLt }
def Ctx.getV (x : Ctx) (r : BitVec 4) : Vec := x.v.get ⟨r.toNat, r.isLt⟩
def Ctx.setV (x : Ctx) (r : BitVec 4) (w : Vec) : Ctx := { x with v := x.v.set r.toNat w r.isLt }
def Ctx.getTm (x : Ctx) (r : BitVec 4) : Option (BitVec 512) := x.tm.get ⟨r.toNat, r.isLt⟩
def Ctx.setTm (x : Ctx) (r : BitVec 4) (w : BitVec 512) : Ctx := { x with tm := x.tm.set r.toNat (some w) r.isLt }
def Ctx.withCtl (x : Ctx) (f : Ctl → Ctl) : Ctx := { x with ctl := f x.ctl }
def State.withCtl (s : State) (f : Ctl → Ctl) : State := s.setMe (s.me.withCtl f)
/-- cr.cyc (R275). -/
def State.cyc (s : State) (x : Ctl) : Word := BitVec.ofNat 64 (x.cycBase + (s.now - x.cycFrom))

/-! ## The black-box record and notices -/

/-- The island timebase (R405): 1 GHz, counted from island power-on, where 700,000 core cycles are 1 ms. -/
def State.timebase (s : State) : Word := BitVec.ofNat 64 ((s.now - s.island.onAt) * 10 / 7)
/-- One event of the black-box record (R405); none is kept while frozen or while the island is off. What the record's
layout does not state for a kind is open. -/
def State.log (s : State) (kind src : Nat) (core : Nat) (aux : Nat) (d0 d1 : Word) : State :=
  if s.island.frozen || s.island.st = .off then s else
  let i := s.island
  let free (j : Nat) : Word := Config.freeWord s.tick (2 ^ 40 + 4 * i.next.toNat + j)
  let r : BbRecord := {
    time := s.timebase, kind := BitVec.ofNat 8 kind, src := BitVec.ofNat 8 src, core := BitVec.ofNat 16 core
    aux := if kind = 1 || kind = 4 || kind = 7 || kind = 8 then BitVec.ofNat 32 aux else (free 1).setWidth 32
    data0 := if kind = 1 || kind = 8 then d0 else free 2
    data1 := if kind = 2 then free 3 else d1 }
  { s with island := { i with
      records := Assoc.put i.records i.next.toNat r
      wrap := i.wrap || i.next = 131071
      next := i.next + 1 } }
/-- Device events; vector 1,024 fires when a bit goes from 0 to 1 (R400). -/
def State.devEvent (s : State) (b : Nat) : State :=
  if s.island.devevt.getLsbD b then s
  else { s with island := { s.island with devevt := s.island.devevt ||| BitVec.ofNat 6 (2 ^ b) }, msix := 1024 :: s.msix }
/-- An enabled freeze trigger fires: a KIND 0x0A record, then the record stops (R406). -/
def State.freeze (s : State) (k : Nat) : State :=
  if s.island.frozen || !s.island.trigen.getLsbD k then s else
  let s := s.log 0x0A 4 0xFFFF k 0 0
  State.devEvent { s with island := { s.island with frozen := true } } 3

/-- A descriptor word (R152). -/
def mkDesc (pkg : BitVec 13) (core : CoreId) (cls prio vnet cap : Nat) : Word :=
  BitVec.ofNat 64 (pkg.toNat * 2 ^ 51 + core.toNat * 2 ^ 38 + cls % 256 * 2 ^ 30 + prio % 64 * 2 ^ 24
    + vnet % 4 * 2 ^ 22 + cap % 65536)
/-- A source word (R166). -/
def mkSrc (pkg : BitVec 13) (core : CoreId) (ctx : CtxId) (prv : BitVec 1) (seq : Nat) : Word :=
  BitVec.ofNat 64 (pkg.toNat * 2 ^ 51 + core.toNat * 2 ^ 38 + ctx.toNat * 2 ^ 36 + prv.toNat * 2 ^ 35 + seq % 65536)
/-- Fields of a descriptor and of a source word (R152, R166). -/
def Msg.pkg (m : Msg) : Nat := fld m.desc 51 13
def Msg.core (m : Msg) : CoreId := BitVec.ofNat 13 (fld m.desc 38 13)
def Msg.cls (m : Msg) : Nat := fld m.desc 30 8
def Msg.prio (m : Msg) : Nat := fld m.desc 24 6
def Msg.vnet (m : Msg) : Nat := fld m.desc 22 2
def Msg.cap (m : Msg) : BitVec 16 := m.desc.setWidth 16
def Msg.sprv (m : Msg) : Bool := m.src.getLsbD 35
def Msg.score (m : Msg) : CoreId := BitVec.ofNat 13 (fld m.src 38 13)
def Msg.sctx (m : Msg) : CtxId := BitVec.ofNat 2 (fld m.src 36 2)

/-- A hardware notice to a partition's supervisor core, on the control network at priority 63 (R261). -/
def State.notice (s : State) (p : BitVec 6) (cls : Nat) (core : CoreId) (ctx : CtxId) (g1 g2 g3 g4 g5 g6 : Word) :
    State :=
  { s with mesh := s.mesh ++ [{ notice := true, msg := ⟨mkSrc s.pkg core ctx 1 0,
      mkDesc s.pkg (s.supervisor p) cls 63 3 (s.part p).key.toNat, #v[g1, g2, g3, g4, g5, g6]⟩ }] }
/-- The KIND 01 notice of a refused write (`msg` none) or a dropped message (R163, R168, R267). -/
def State.refusedNotice (s : State) (core : CoreId) (ctx : CtxId) (info : Nat) (va : Word) (msg : Option Msg) : State :=
  let b := if msg.isSome then 2 ^ 32 else 0
  s.notice (s.partOf core) 1 core ctx
    (BitVec.ofNat 64 (2 ^ 62 + b + ctx.toNat * 2 ^ 16 + core.toNat)) (BitVec.ofNat 64 (info * 256 + 0x12))
    (if msg.isSome then 0 else va) ((msg.map (·.desc)).getD 0) ((msg.map (·.src)).getD 0) 0
/-- A containment fault: the supervisor queue, the class-2 notice, a black-box record (R252, R258). The notice's source
word names the context where the event arose (R261): the spilling one, or 0 where a message enters a core. -/
def State.containment (s : State) (core : CoreId) (ctx : CtxId) (reason : Nat) (m : Msg) : State :=
  let p := s.partOf core
  let x := s.part p
  let s := if x.supq.length < 512 then s.setPart p { x with supq := x.supq ++ [⟨BitVec.ofNat 8 reason, m⟩] }
    else s.setPart p { x with drops := x.drops + 1 }
  let s := s.log 0x02 (dieOf core).toNat core.toNat 0 0 0
  if (s.core core).noticeOut then s else
  (s.setCore core { s.core core with noticeOut := true }).notice p 2 core ctx
    (BitVec.ofNat 64 (reason * 65536 + core.toNat)) m.src m.desc 0 0 0

/-! ## Outcomes of a meaning -/

/-- A trap: cause code, INFO where its entry states one, and the address for cr.faddr where it gives one (R62). -/
structure Trap where
  code : BitVec 8
  info : Option (BitVec 56) := none
  addr : Option Word := none
deriving DecidableEq, Repr
/-- Where execution goes after an instruction: past it, to a target, or where the meaning itself has set the pc. -/
inductive Flow where
  | fall (len : Nat)
  | jump (t : Word)
  | own
deriving DecidableEq, Repr
/-- What a meaning does: retires, traps (with nothing of the instruction done), or waits. -/
inductive Res where
  | ok (fl : Flow) (s : State)
  | trap (t : Trap) (s : State)
  | wait (w : Wait) (s : State)

/-- Instruction words by format (R76, R71), for the INFO of the illegal-instruction trap. -/
def word32 (hi maj d m : Nat) : Nat := hi * 2 ^ 16 + 7 * 2 ^ 13 + maj * 2 ^ 7 + d * 2 ^ 2 + m
def wordR (maj fn b a d m : Nat) : Nat := word32 (fn * 2 ^ 10 + b * 2 ^ 5 + a) maj d m
def wordI (maj imm a d m : Nat) : Nat := word32 (imm * 2 ^ 5 + a) maj d m
def wordM (maj i ord scope b a d m : Nat) : Nat :=
  word32 (i * 2 ^ 15 + ord * 2 ^ 13 + scope * 2 ^ 10 + b * 2 ^ 5 + a) maj d m
def wordB (maj off b a : Nat) : Nat := word32 (off / 4 * 2 ^ 5 + b) maj a (off % 4)
def wordFR (maj fn rm b a d m : Nat) : Nat := word32 (fn * 2 ^ 13 + rm * 2 ^ 10 + b * 2 ^ 5 + a) maj d m
def wordV (maj fn c b a d t : Nat) : Nat :=
  word32 (fn * 2 ^ 12 + c * 2 ^ 8 + b * 2 ^ 4 + a) maj (t / 4 * 16 + d) (t % 4)
def wordT (maj sub f b a d m : Nat) : Nat := word32 (sub * 2 ^ 13 + f * 2 ^ 8 + b * 2 ^ 4 + a) maj d m
def word16 (op3 fn d a : Nat) : Nat := op3 * 2 ^ 13 + fn * 2 ^ 8 + d * 2 ^ 4 + a

/-- The illegal-instruction trap of an instruction word (R62). -/
def illegal (w : Nat) : Trap := ⟨0x01, some (BitVec.ofNat 56 (w % 2 ^ 32)), none⟩
def privilegeTrap : Trap := ⟨0x02, none, none⟩
def misaligned (a : Word) : Trap := ⟨0x04, none, some a⟩
def busError (info : Nat) (a : Option Word := none) : Trap := ⟨0x12, some (BitVec.ofNat 56 info), a⟩
def badMap (info : Nat) : Trap := ⟨0x0B, some (BitVec.ofNat 56 info), none⟩
def mapNotLoaded : Trap := ⟨0x08, none, none⟩
def regionBounds (info : Option (BitVec 56)) : Trap := ⟨0x07, info, none⟩
/-- Not present because the address lies at or above 2^56 (R358, R361): level 3, RANGE; ACC as given. -/
def rangeFault (acc : Nat) (priv : BitVec 1) (a : Word) : Trap :=
  ⟨0x10, some (BitVec.ofNat 56 (acc + 3 * 4 + (if priv = 0 then 32 else 0) + 64)), some a⟩

/-- The loop rule of R107 on the address that would otherwise execute next. -/
def loopNext (l : Option Loop) (taken : Bool) (nxt : Word) : Word × Option Loop :=
  match l with
  | none => (nxt, none)
  | some l =>
    if !taken && nxt = l.stop then
      if l.left - 1 = 0 then (nxt, none) else (l.start, some { l with left := l.left - 1 })
    else if nxt < l.start || l.stop ≤ nxt then (nxt, none)
    else (nxt, some l)

/-- The replay after one replayed instruction has retired (R183). -/
def Replay.after (r : Replay) (n : Nat) : Option Replay :=
  if r.pos + 1 < n then some { r with pos := r.pos + 1 }
  else if r.pass + 1 < r.total then some { r with pos := 0, pass := r.pass + 1 } else none

/-- The instruction retires: the pc and the loop move on (R107), or the replay does (R183). -/
def retire (fl : Flow) (s : State) : State :=
  let x := s.me
  if s.cur.replay then
    s.setMe { x with replay := x.replay.bind (·.after x.rep.buf.length), wait := none }
  else match fl with
  | .own => s.setMe { x with wait := none }
  | .fall n =>
    let r := loopNext x.loop false (x.pc + BitVec.ofNat 64 n)
    s.setMe { x with pc := r.1, loop := r.2, wait := none }
  | .jump t =>
    let r := loopNext x.loop true t
    s.setMe { x with pc := r.1, loop := r.2, wait := none }

/-- The stretch of addresses that one entry of a level maps (R354). -/
def reach (lvl : Nat) : Nat :=
  match lvl with
  | 0 => 2 ^ 14
  | 1 => 2 ^ 21
  | 2 => 2 ^ 30
  | _ => 2 ^ 43
/-- A cached entry serves an address under a root (R360). -/
def TlbEntry.covers (e : TlbEntry) (root : BitVec 48) (va : Nat) : Bool := e.root = root && e.base = va / reach e.lvl.toNat
/-- The translation caches that a core's accesses fill: its own, and its cluster's (R360). -/
def coreHomes (c : CoreId) : List TlbHome := [.instr c, .data c, .cluster (clusterOf c)]

/-- The recorded address of the instruction that a replay stands at (R184). -/
def Ctx.replayPc (x : Ctx) : Word :=
  match x.replay with
  | none => x.pc
  | some r => (x.rep.buf[r.pos]?.map (·.1)).getD x.pc

/-- Taking a trap (R248, R267): cr.cause, cr.faddr where the entry gives an address, cr.epc and cr.estat are written,
INFO that the trap's entry does not state is open, the privilege becomes supervisor, the context becomes HELD, the class-1
notification is posted, and the event is recorded (R405). The loop is set aside (R108). A translation fault drops the entries
it used (R360). -/
def takeTrap (t : Trap) (s : State) : State :=
  let x := s.me
  let c := s.cur.core
  let pc := if s.cur.replay then x.replayPc else x.pc
  let cause := t.info.getD (Config.freeInfo s.tick) ++ t.code
  let faddr := t.addr.getD x.ctl.faddr
  let estat : BitVec 2 := (if s.cur.replay then 2 else 0) ||| x.ctl.priv.setWidth 2
  let epc := BitVec.ofNat 64 (pc.toNat % 2 ^ 56 / 2 * 2)
  let s1 := s.setMe { x with
    status := .held, wait := none, accrd := none
    loop := none, trapLoops := x.loop :: x.trapLoops
    replay := if s.cur.replay then x.replay.map fun r => { r with halted := true } else x.replay
    ctl := { x.ctl with cause := cause, faddr := faddr, epc := epc, estat := estat, priv := 1 } }
  let s2 := if t.code = 0x10 || t.code = 0x11 then
      { s1 with tlb := s1.tlb.filter fun e => !(e.covers x.ctl.ptroot faddr.toNat && (coreHomes c).contains e.home) }
    else s1
  let s3 := s2.notice (s2.partOf c) 1 c s.cur.ctx (BitVec.ofNat 64 (s.cur.ctx.toNat * 65536 + c.toNat)) cause faddr epc
    (estat.setWidth 64) (s.cyc x.ctl)
  s3.log 0x01 (dieOf c).toNat c.toNat s.cur.ctx.toNat cause faddr

/-- Returning from a trap, as ERET and as RETRY (R249, R268): the pc and the privilege come back from cr.epc and
cr.estat. The loop that the latest trap set aside goes on where the pc lies in its body (R108), and else one that is active, as
after any jump into its body (R107). With RPLAY the replay resumes at its saved place; RPLAY clears. -/
def returnFromTrap (x : Ctx) : Ctx :=
  let again := x.ctl.estat.getLsbD 1
  { x with
    pc := x.ctl.epc
    loop := (loopNext x.trapLoops.head?.join true x.ctl.epc).2.or (loopNext x.loop true x.ctl.epc).2
    trapLoops := x.trapLoops.tail
    replay := if again then x.replay.map fun r => { r with halted := false } else x.replay
    ctl := { x.ctl with priv := x.ctl.estat.setWidth 1, estat := if again then x.ctl.estat &&& 1 else x.ctl.estat } }

/-- The parkable waits (R266). -/
def Wait.parks : Wait → Bool
  | .interlock => false
  | .reply => false
  | _ => true

/-- The instruction waits and is reissued from the start (R266): a parkable wait parks at once where cr.parkt is 0. -/
def State.waiting (s : State) (w : Wait) : State :=
  let x := s.me
  let x := { x with wait := some w, waitFrom := if x.wait = some w then x.waitFrom else s.now }
  s.setMe (if w.parks && x.ctl.parkt = 0 && !s.cur.replay then { x with status := .parked } else x)

/-- The step outcome of a meaning's result. -/
def finish (r : Res) : Host.Outcome State Fault Refusal :=
  match r with
  | .ok fl s => .next (retire fl s)
  | .trap t s => .next (takeTrap t s)
  | .wait w s => .next (s.waiting w)

/-- Going on with a result that retires. -/
def Res.bind (r : Res) (k : State → Res) : Res :=
  match r with
  | .ok _ s => k s
  | .trap t s => .trap t s
  | .wait w s => .wait w s

/-- A retirement past a 16-bit instruction instead of a 32-bit one (R71). -/
def Res.short (r : Res) : Res :=
  match r with
  | .ok (.fall _) s => .ok (.fall 2) s
  | r => r

/-- The copies that an engine command of a context, and of the acting one, takes (R65, R280, R364). -/
def State.issuerFor (s : State) (c : CoreId) (k : CtxId) (e : Engine := .fabric) : Issuer :=
  let x := s.ctxAt c k
  ⟨c, k, x.ctl.priv, x.ctl.prio, x.ctl.ptroot, x.ctl.hkey, (x.task.bind (·.launch)), x.serial, e⟩
def State.issuer (s : State) (e : Engine := .fabric) : Issuer := s.issuerFor s.cur.core s.cur.ctx e

/-- A context's own stores older than a serial have all been performed (R156, R305). -/
def Ctx.storesDone (x : Ctx) (upTo : Nat) : Bool := x.stores.all fun st => upTo ≤ st.serial
def State.issuerReady (s : State) (i : Issuer) : Bool := (s.ctxAt i.core i.ctx).storesDone i.upTo

end Sys2Proof.Machine
end

