-- ==== Sys2Proof/Machine/Links.lean ====
section
/-! DEFINITION. Flits and the links they leave by: the flit and its trailer (R379), routes, escape classes, credits and
detours (R378, R381, R382, R404), and the replay buffer (R380). -/

namespace Sys2Proof.Machine

/-! ## Flits (R379) -/

/-- One byte of CRC-32C, reflected. -/
def crcByte (c : Nat) (b : Byte) : Nat :=
  (List.range 8).foldl (fun c _ => c / 2 ^^^ (c % 2 * 0x82F63B78)) (c ^^^ b.toNat)
/-- CRC-32C (Castagnoli). -/
def crc32c (l : List Byte) : Nat := l.foldl crcByte 0xFFFFFFFF ^^^ 0xFFFFFFFF
/-- The trailer's CRC covers bytes 0 to 67. -/
def flitCrcOk (f : BitVec 576) : Bool := crc32c (toBytes f.toNat 68) = fld f 544 32
def flitSeq (f : BitVec 576) : BitVec 12 := BitVec.ofNat 12 (fld f 532 12)
def flitVnet (f : BitVec 576) : Nat := fld f 530 2
def flitType (f : BitVec 576) : Nat := fld f 528 2
def flitEsc (f : BitVec 576) : Bool := bit f 527
def flitAck (f : BitVec 576) : BitVec 12 := BitVec.ofNat 12 (fld f 512 12)
/-- A payload flit with its trailer. -/
def mkFlit (pay vnet : Nat) (esc : Bool) (seq ack : BitVec 12) : BitVec 576 :=
  let n := pay % 2 ^ 512 + 2 ^ 512 * (ack.toNat + (if esc then 2 ^ 15 else 0) + vnet % 4 * 2 ^ 18 + seq.toNat * 2 ^ 20)
  BitVec.ofNat 576 (n + crc32c (toBytes n 68) * 2 ^ 544)
/-- A message as a payload, and back (R166, R379). -/
def Msg.payload (m : Msg) : Nat :=
  fromBytes ((m.src :: m.desc :: m.pay.toList).flatMap fun (w : Word) => toBytes w.toNat 8)
def flitMsg (f : BitVec 576) : Msg :=
  let w (i : Nat) : Word := BitVec.ofNat 64 (fld f (64 * i) 64)
  ⟨w 0, w 1, #v[w 2, w 3, w 4, w 5, w 6, w 7]⟩

/-! ## Routes (R378, R382, R404) -/

def State.link (s : State) (l : Link) : FabricLink := s.links.get l
def State.setLink (s : State) (l : Link) (x : FabricLink) : State := { s with links := s.links.set l.val x l.isLt }
/-- The way around a ring of n places from a to b: the shorter one, at a tie the positive. -/
def ringWay (n a b : Nat) : Option Bool :=
  let d := (b + n - a) % n
  if d = 0 then none else some (2 * d ≤ n)
/-- A hop crosses its ring's dateline, between places n − 1 and 0. -/
def crosses (n a : Nat) (pos : Bool) : Bool := if pos then a + 1 = n else a = 0
/-- The first hop from the island toward a package: the dimension, the way, and whether it crosses the dateline. -/
def Island.hop (i : Island) (dst : Nat) : Option (Nat × Bool × Bool) :=
  match ringWay 16 i.x.toNat (dst % 16) with
  | some w => some (0, w, crosses 16 i.x.toNat w)
  | none =>
    match ringWay 16 i.y.toNat (dst / 16 % 16) with
    | some w => some (1, w, crosses 16 i.y.toNat w)
    | none => (ringWay 18 i.z.toNat (dst / 256)).map fun w => (2, w, crosses 18 i.z.toNat w)
/-- The island beyond a link: its place in the torus. -/
def Island.beyond (i : Island) (l : Link) : Island :=
  let step (n a : Nat) : Nat := if l.val % 4 < 2 then (a + 1) % n else (a + n - 1) % n
  match l.val / 4 with
  | 0 => { i with x := BitVec.ofNat 4 (step 16 i.x.toNat) }
  | 1 => { i with y := BitVec.ofNat 4 (step 16 i.y.toNat) }
  | _ => { i with z := BitVec.ofNat 5 (step 18 i.z.toNat) }
/-- The link of a dimension, a way and a number. -/
def linkNo (dim : Nat) (pos : Bool) (l : Nat) : Link := ⟨(4 * dim + (if pos then 0 else 2) + l % 2) % 12, by omega⟩
/-- Where a flit comes from: the link it arrived by and its escape class; none for one of this package. -/
abbrev Came := Option (Link × Bool)
/-- A flit that arrived by a link is on a detour: the route from here would turn back, or leaves a later dimension for an
earlier one (R382, R404). -/
def Island.onDetour (i : Island) (dst : Nat) (came : Came) : Bool :=
  match came, i.hop dst with
  | some (l, e), some (dim, pos, _) =>
    e && (dim < l.val / 4 || (dim = l.val / 4 && pos = decide (l.val % 4 < 2)))
  | _, _ => false
/-- The hop of a flit: its route's, and for one that has just left its ring the ring's own way, beside it (R404). -/
def Island.hopOf (i : Island) (dst : Nat) (came : Came) : Option (Nat × Bool × Bool) :=
  match came, i.hop dst with
  | some (l, e), some (dim, pos, c) =>
    if e && dim = l.val / 4 && pos = decide (l.val % 4 < 2) then (i.beyond l).hop dst else some (dim, pos, c)
  | _, h => h
/-- The detour of a link that is down: a link of another dimension that is up. -/
def State.detour (s : State) (l : Nat) : Option Link :=
  ((List.range 12).find? fun k => k / 4 ≠ l / 4 && (s.links.get ⟨k % 12, by omega⟩).up).map fun k => ⟨k % 12, by omega⟩
/-- How a flit leaves: its link, its escape class, and the link that it makes a detour around. -/
structure Way where
  link : Link
  esc : Bool
  around : Option Link := none
  /-- a flit on a detour already, which takes its credits from those of detours -/
  off : Bool := false
deriving DecidableEq, Repr
/-- The way of a flit: the route's link, or, where that link is down, a detour, which one on a detour never takes. -/
def State.way (s : State) (src dst : Nat) (came : Came) : Option Way :=
  match s.island.hopOf dst came with
  | none => none
  | some (dim, pos, cross) =>
    let l := linkNo dim pos (src + dst)
    let off := s.island.onDetour dst came
    if (s.link l).up then
      some ⟨l, off || cross || (match came with
        | some (k, e) => k.val / 4 = dim && e
        | none => false), none, off⟩
    else if off then none
    else (s.detour l.val).map fun k => ⟨k, true, some l, true⟩
/-- The credits a flit takes from: its network's, in its escape class or among those of detours (R381, R382, R404). -/
def Way.class (w : Way) (vnet : Nat) : Fin 12 :=
  ⟨(vnet % 4 * 3 + if w.off then 2 else if w.esc then 1 else 0) % 12, by omega⟩
/-- A flit is sent and kept for replay. -/
def State.putFlit (s : State) (l : Link) (pay vnet : Nat) (esc : Bool) (around : Option Link := none) : State :=
  let x := s.link l
  s.setLink l { x with
    txSeq := x.txSeq + 1, sentFlits := x.sentFlits ++ [mkFlit pay vnet esc x.txSeq (x.rxSeq - 1)]
    detoured := match around with
      | some k => x.detoured ++ [(x.txSeq, k)]
      | none => x.detoured }
/-- Some link has gone down and holds flits that have not been sent on again yet. -/
def State.stranded (s : State) : Bool := s.links.toList.any fun x => !x.backlog.isEmpty
/-- The replay buffer of a link has room for another of its 1,024 flits. -/
def FabricLink.room (x : FabricLink) : Bool := x.sentFlits.length < 1024
/-- Flits of a link are still on a detour and not acknowledged: its traffic does not move back yet (R404). -/
def State.away (s : State) (l : Link) : Bool := s.links.toList.any fun x => x.detoured.any fun d => d.2 = l
/-- A link has a credit of a class, and room. -/
def State.credit (s : State) (l : Link) (k : Fin 12) : Bool :=
  let x := s.link l
  x.room && x.used.get k < 1 + Config.credits k.val
/-- A payload can leave now: a credit of its own kind, room in the buffer of its link, nothing that waits to take a detour
before it, and nothing of its link on a detour (R380, R381, R382, R404). One with no way leaves into nothing, but one on a
detour waits for its link. -/
def State.canSend (s : State) (src dst vnet : Nat) (came : Came) : Bool :=
  match s.way src dst came with
  | some w =>
    s.credit w.link (w.class vnet) && !s.stranded && (w.around.isSome || !s.away w.link)
  | none => !s.island.onDetour dst came
def State.takeCredit (s : State) (l : Link) (k : Fin 12) : State :=
  let x := s.link l
  s.setLink l { x with used := x.used.set k (x.used.get k + 1) }
/-- A payload leaves for a package; without any way it is lost. The record keeps the first of a detour (R405). -/
def State.transmit (s : State) (src dst : Nat) (pay vnet : Nat) (came : Came) : State :=
  match s.way src dst came with
  | some w =>
    let s := match w.around with
      | some l => if s.away l then s else s.log 0x04 5 0xFFFF l.val 0 0
      | none => s
    (s.takeCredit w.link (w.class vnet)).putFlit w.link pay vnet w.esc w.around
  | none => s
/-- A flit of an internal format from this package to another, on a network: what it holds no program observes (R379). -/
def State.putInternal (s : State) (dst vnet : Nat) : State :=
  s.transmit s.pkg.toNat dst (Config.freeWord s.tick 8).toNat vnet none
/-- Packages of physical addresses, each once. -/
def pkgsOf (pas : List Nat) : List Nat := (pas.map (· / 2 ^ 51)).eraseDups
/-- An access to places of other packages can leave: a flit for each package (R381). -/
def State.flitsReady (s : State) (vnet : Nat) (pas : List Nat) : Bool :=
  (pkgsOf pas).all fun p => s.canSend s.pkg.toNat p vnet none
def State.putFlits (s : State) (vnet : Nat) (pas : List Nat) : State :=
  (pkgsOf pas).foldl (fun s p => s.putInternal p vnet) s

/-- A message leaves for another package; without any way it is dropped with a notice (R168, R410). `who`: the context of this
package that sent it. -/
def State.sendOut (s : State) (m : Msg) (who : Option (CoreId × CtxId)) : State :=
  match s.way s.pkg.toNat m.pkg none with
  | none => match who with
    | some (c, k) => s.refusedNotice c k 2 0 (some m)
    | none => s
  | some w =>
    let seq := (s.link w.link).txSeq
    let s1 := s.transmit s.pkg.toNat m.pkg m.payload m.vnet none
    if who.isNone then s1 else
    let x := s1.link w.link
    s1.setLink w.link { x with own := x.own ++ [(seq, m)] }

end Sys2Proof.Machine
end

