-- ==== Sys2Proof/Machine/Translate.lean ====
section
/-! DEFINITION. Physical places (R141, R280, R355), memory by key with its full-empty bits, poison, tags and the two
DRAM windows (R146, R157, R302, R396), and translation (R354 to R361). -/

namespace Sys2Proof.Machine

/-! ## Memory by key -/

/-- A byte of memory; one that nothing lists reads 0 (R403: cold reset). -/
def Memory.byte (m : Memory) (k : Nat) : Byte := (Assoc.get? m.bytes k).getD 0
/-- A byte written, in the canonical form: no entry equal to what an unlisted address reads as. -/
def Memory.setByte (m : Memory) (k : Nat) (b : Byte) : Memory :=
  { m with bytes := if b = 0 then Assoc.del m.bytes k else Assoc.put m.bytes k b }
def cellsRise : List Host.Cell → Bool
  | [] => true
  | [_] => true
  | a :: b :: t => decide (a.1 < b.1) && cellsRise (b :: t)
/-- The canonical form: addresses strictly rising, no zero byte listed. -/
def Memory.wf (m : Memory) : Bool := cellsRise m.bytes && m.bytes.all fun c => c.2 ≠ 0
/-- The bytes at given keys, written one by one. -/
def Memory.setBytes (m : Memory) : List (Nat × Byte) → Memory
  | [] => m
  | (k, b) :: t => (m.setByte k b).setBytes t
/-- The aligned doubleword `d` (keys 8d to 8d + 7). -/
def Memory.dword (m : Memory) (d : Nat) : Word :=
  BitVec.ofNat 64 (fromBytes ((List.range 8).map fun i => m.byte (8 * d + i)))
/-- The full-empty bit of doubleword `d` (R146). -/
def Memory.isFull (m : Memory) (d : Nat) : Bool := m.full.contains d
def Memory.setFull (m : Memory) (d : Nat) (b : Bool) : Memory :=
  { m with full := if b then addKey d m.full else delKey d m.full }
def Memory.line (m : Memory) (l : Nat) : Line := (Assoc.get? m.lines l).getD {}
def Memory.setLine (m : Memory) (l : Nat) (x : Line) : Memory := { m with lines := Assoc.put m.lines l x }

/-! ## Places -/

/-- Where a physical byte lies, with its memory key. -/
inductive Place where
  | dram (key : Nat) (linear : Bool)
  | ways
  | sram (key : Nat)
  | host (key : Nat)
  | device (off : Nat)
  | remote (pa : Nat)
deriving DecidableEq, Repr

def keyDram : Nat := 2 ^ 48
def keySram : Nat := 3 * 2 ^ 48
def keyHost : Nat := 4 * 2 ^ 48
def pcBytes : Nat := 384 * 2 ^ 20
def dieBytes : Nat := 96 * 2 ^ 30
/-- trunc32(n × 0x9E37_79B1), the hash constant of R280, R312 and R355. -/
def hash32 (n : Nat) : Nat := n * 0x9E3779B1 % 2 ^ 32
/-- Index k of die d is this pseudo-channel (R355). -/
def pcOf (d k : Nat) : Nat := (16 * (d / 2) + k / 16) * 32 + 16 * (d % 2) + k % 16
/-- The bank-linear offset of an interleaved offset (R355). -/
def interleaved (o : Nat) : Nat :=
  let w := o % dieBytes
  let b := w / 4096
  let u := b / 256
  pcOf (o / dieBytes) (b % 256 ^^^ hash32 u / 2 ^ 24) * pcBytes + u * 4096 + o % 4096
/-- Role of a bank (R278). -/
def Forge.roleOf (f : Forge) (b : Nat) : Nat := fld f.role (2 * b) 2
/-- The scratchpad banks of a role word, rising (R279). -/
def scratchBanks (role : Word) : List Nat := (List.range 32).filter fun b => fld role (2 * b) 2 = 1
/-- The byte of the forge's SRAM that a scratchpad offset names under a key (R280). -/
def scratchByte (role : Word) (key : BitVec 16) (o : Nat) : Option Nat :=
  let banks := scratchBanks role
  let s := banks.length
  if s = 0 || s * 32768 ≤ o then none else
  let l := o / 64
  let u := l / s
  let c := hash32 (u ^^^ key.toNat) / 2 ^ 27 % s
  (banks[l % s ^^^ c]?).map fun b => b * 32768 + u * 64 + o % 64

/-- The home slice of a line of the host's space (R375). -/
def hostSlice (line : Nat) : Nat := line / 64 % 128
/-- Where a physical byte lies for a party with a bank-hash key, else the INFO of the bus error (R141, R280, R402). -/
def place (s : State) (hkey : BitVec 16) (pa : Nat) : Except Nat Place :=
  let space := pa / 2 ^ 48 % 8
  let o := pa % 2 ^ 48
  if 4608 ≤ pa / 2 ^ 51 then .error 2 else
  if space = 2 then .ok .ways else
  if pa / 2 ^ 51 ≠ s.pkg.toNat then
    if !s.island.pkgValid || !s.islandUp || 6 ≤ space || (space < 2 && 4 * dieBytes ≤ o) then .error 2
    else if space = 3 && 2 ^ 31 ≤ o then .error 4
    else if space = 0 || space = 1 || space = 3 then .ok (.remote pa) else .error 5
  else match space with
  | 0 => if 4 * dieBytes ≤ o then .error 2 else
    if s.dieUp (o / dieBytes) then .ok (.dram (keyDram + interleaved o) false) else .error 2
  | 1 => if 1024 * pcBytes ≤ o then .error 2 else
    if s.dieUp (forgeDie (o / pcBytes)) then .ok (.dram (keyDram + o) true) else .error 2
  | 3 =>
    if 2 ^ 31 ≤ o then .error 4 else
    let f := o / 2 ^ 21
    let b := o % 2 ^ 20
    if !s.dieUp (forgeDie f) then .error 2 else
    let fg := s.forge (BitVec.ofNat 10 f)
    if o / 2 ^ 20 % 2 = 1 then
      if fg.roleOf (b / 32768) = 0 then .error 4 else .ok (.sram (keySram + f * 2 ^ 21 + b))
    else match scratchByte fg.role hkey b with
      | some y => .ok (.sram (keySram + f * 2 ^ 21 + y))
      | none => .error 4
  | 4 => if s.islandUp && s.island.hostUp && s.island.flit256 && s.dieUp (clusterDie (hostSlice (o / 64))) then
      .ok (.host (keyHost + o)) else .error 2
  | 5 => .ok (.device o)
  | _ => .error 2

/-- The memory key of a byte of this package's memory or of the host. -/
def Place.key : Place → Option Nat
  | .dram k _ => some k
  | .sram k => some k
  | .host k => some k
  | _ => none
/-- The key under which a window keeps what it may still return (R157). -/
def Place.window : Place → Option Nat
  | .dram k l => some (k / 8 * 2 + if l then 1 else 0)
  | _ => none

/-- The doubleword of a place under its window, as reads and writes of it are ordered (R291, R300). -/
def Place.word : Place → Option Nat
  | .dram k l => some (k / 8 * 2 + if l then 1 else 0)
  | .sram k => some (k / 8 * 2)
  | .host k => some (k / 8 * 2)
  | .remote a => some (2 ^ 60 + a / 8 * 2)
  | .device o => some (2 ^ 80 + o / 8 * 2)
  | .ways => none

/-- The addresses of the places that lie in other packages. -/
def remotePas (ps : List Place) : List Nat :=
  ps.filterMap fun p => match p with
    | .remote pa => some pa
    | _ => none
/-- The number of a place's line: the lines of the two DRAM windows are distinct (R276). -/
def Place.lineNo : Place → Option Nat
  | .dram k l => some (k / 64 * 2 + if l then 1 else 0)
  | .host k => some (k / 64 * 2)
  | _ => none

/-- How a core reads: byte by byte where the access is misaligned (R142), and whether as an acquire. -/
structure Manner where
  split : Bool := false
  acq : Bool := false
deriving DecidableEq, Repr
/-- Through a DRAM window without ALIASF, which value a reader sees: the old one or the new, chosen for the whole doubleword, or for
each byte of a misaligned access (R142, R157). -/
def State.seesOld (s : State) (k : Nat) (m : Manner := {}) : Bool :=
  Config.choice s.tick (if m.split then 2 ^ 63 + k else k / 8)
/-- The byte a reader sees at a place. -/
def readPlace (s : State) (p : Place) (m : Manner := {}) : Byte :=
  match p.key with
  | none => 0
  | some k =>
    let b := s.mem.byte k
    match p.window.bind (Assoc.get? s.mem.stale) with
    | none => b
    | some old =>
      let o := byteOf old.toNat (k % 8)
      if o = b then b else if s.seesOld k m then o else b

/-- A write of one byte at a place: the other DRAM window may go on returning the doubleword as it stood (R157). -/
def noteWindow (m : Memory) (p : Place) : Memory :=
  match p with
  | .dram k l =>
    let d := k / 8
    let other := d * 2 + if l then 0 else 1
    let m := { m with stale := Assoc.del m.stale (d * 2 + if l then 1 else 0) }
    if (Assoc.get? m.stale other).isSome then m else { m with stale := Assoc.put m.stale other (m.dword d) }
  | _ => m
def writePlace (m : Memory) (p : Place) (b : Byte) : Memory :=
  match p with
  | .remote a => { m with far := Assoc.put m.far a b }
  | _ =>
    match p.key with
    | none => m
    | some k => (noteWindow m p).setByte k b

/-! ## A context's own stores (R144, R300) -/

/-- The bytes of an access as physical addresses: one page or two (R143). -/
def spanPas (va n pa pa2 : Nat) : List Nat :=
  (List.range n).map fun i => if va % 2 ^ 14 + i < 2 ^ 14 then pa + i else pa2 + (va % 2 ^ 14 + i - 2 ^ 14)
/-- The physical addresses of a buffered store's bytes. -/
def Store.pas (st : Store) : List Nat := spanPas st.va.toNat st.size st.pa st.pa2
/-- Where a buffered store's bytes lie. -/
def Store.places (st : Store) (s : State) : List (Option Place) :=
  st.pas.map fun pa => match place s st.hkey pa with
    | .ok p => some p
    | .error _ => none
/-- The byte that a store in the buffer gives a place. -/
def Store.byteAt (st : Store) (s : State) (p : Place) : Option Byte :=
  ((st.places s).findIdx? fun q => q = some p).map (byteOf st.val.toNat)
/-- A context sees its own latest earlier store to a byte (R144). -/
def overlay (s : State) (sts : List Store) (p : Place) (b : Byte) : Byte :=
  sts.foldl (fun b st => (st.byteAt s p).getD b) b
/-- A store in the buffer writes to some doubleword of a list of places (R300). -/
def Store.meets (st : Store) (s : State) (ps : List Place) : Bool :=
  (st.places s).any fun q => match q.bind (·.word) with
    | some w => ps.any fun p => p.word = some w
    | none => false

/-! ## Walks -/

/-- The kinds of access (R358, R361). -/
inductive Acc where
  | read | write | fetch | rmw
deriving DecidableEq, Repr
def Acc.code : Acc → Nat
  | .read => 0
  | .write => 1
  | .fetch => 2
  | .rmw => 3

/-- The INFO of a translation fault (R361). -/
def faultInfo (acc : Acc) (lvl : Nat) (bad : Bool) (priv : BitVec 1) : BitVec 56 :=
  BitVec.ofNat 56 (acc.code + lvl * 4 + (if bad then 16 else 0) + if priv = 0 then 32 else 0)

/-- An aligned doubleword as a walk or a unit reads it, with a context's own stores over it (R300, R359). One of another
package answers with open data, or as absent, refused by the windows, or poisoned; one of the host's of which the package
holds no copy with what the host's memory holds, which is open (R375). -/
def readDword (s : State) (own : List Store) (hkey : BitVec 16) (pa : Nat) : Except Nat Word :=
  let bytes (f : Nat → Byte) : Word := BitVec.ofNat 64 (fromBytes ((List.range 8).map f))
  match place s hkey pa with
  | .error e => .error e
  | .ok (.remote p) =>
    match (Config.flitAnswer s.tick).toNat with
    | 0 => .ok (bytes fun i => overlay s own (.remote (p + i)) (byteOf (Config.freeWord s.tick p).toNat i))
    | 1 => .error 5
    | 2 => .error 2
    | _ => .error 6
  | .ok p =>
    match p.key with
    | none => .error 1
    | some k =>
      let gone := keyHost ≤ k && (Assoc.get? s.mem.hostLines (k / 64)).isNone
      if !gone && s.mem.poison.contains (k / 8) then .error 6
      else .ok (bytes fun i =>
        match place s hkey (pa + i) with
        | .ok q => overlay s own q (if gone then byteOf (Config.freeWord s.tick (k / 8)).toNat (k % 8 + i) else readPlace s q)
        | .error _ => 0)

/-- Index and table reach of a level (R354). -/
def walkIndex (va : Nat) (lvl : Nat) : Nat :=
  match lvl with
  | 3 => nbits va 43 13
  | 2 => nbits va 30 13
  | 1 => nbits va 21 9
  | _ => nbits va 14 7
/-- Bytes that a leaf at a level maps (R354). -/
def pageSize (lvl : Nat) : Nat :=
  match lvl with
  | 2 => 2 ^ 30
  | 1 => 2 ^ 21
  | _ => 2 ^ 14
/-- Bytes of the table below a non-leaf entry at a level (R354). -/
def tableSize (lvl : Nat) : Nat :=
  match lvl with
  | 3 => 2 ^ 16
  | 2 => 2 ^ 12
  | _ => 2 ^ 10
/-- PA of an entry (R357). -/
def ptePa (e : Word) : Nat := fld e 10 54 * 2 ^ 10
/-- A malformed entry (R357). -/
def pteBad (e : Word) (lvl : Nat) : Bool :=
  let leaf := bit e 1
  let pa := ptePa e
  let space := pa / 2 ^ 48 % 8
  fld e 7 3 ≠ 0 || bit e 2 || (leaf && lvl = 3) || (!leaf && lvl = 0) || (!leaf && fld e 3 4 ≠ 0)
    || (leaf && bit e 4 && !bit e 3) || pa % (if leaf then pageSize lvl else tableSize lvl) ≠ 0
    || (!leaf && 1 < space) || 5 < space || 4608 ≤ pa / 2 ^ 51 || (space < 2 && 4 * dieBytes ≤ pa % 2 ^ 48)

/-- How a walk ends: a leaf entry, a fault with its level and BAD, or a bus error (R358, R359). -/
inductive Walk where
  | leaf (lvl : Nat) (e : Word)
  | absent (lvl : Nat) (bad : Bool)
  | bus (info : Nat)
deriving DecidableEq, Repr
/-- The entries that a walk has used, by level, from the root down. -/
abbrev Trail := List (Nat × Word)

/-- What a walk makes of the entry it reads at a level, where `below` is its outcome one level down (R358, R359). -/
def walkEntry (e : Word) (lvl : Nat) (below : Walk × Trail) : Walk × Trail :=
  if !bit e 0 then (.absent lvl false, [])
  else if pteBad e lvl then (.absent lvl true, [])
  else if bit e 1 then (.leaf lvl e, [(lvl, e)])
  else (below.1, (lvl, e) :: below.2)
/-- The walk from a table at a level (R358). -/
def walkFrom (s : State) (own : List Store) (va : Nat) (t : Nat) (lvl : Nat) : Walk × Trail :=
  match lvl with
  | 0 =>
    match readDword s own 0 (t + 8 * walkIndex va 0) with
    | .error i => (.bus i, [])
    | .ok e => walkEntry e 0 (.absent 0 true, [])
  | l + 1 =>
    match readDword s own 0 (t + 8 * walkIndex va (l + 1)) with
    | .error i => (.bus i, [])
    | .ok e => walkEntry e (l + 1) (walkFrom s own va (ptePa e) l)
/-- A walk from a root, on the tables as they stand, with the own stores of the party over them. -/
def walkOwn (s : State) (own : List Store) (root : BitVec 48) (va : Nat) : Walk × Trail :=
  walkFrom s own va (root.toNat * 2 ^ 16) 3
/-- The walk of a unit that has no stores of its own. -/
def walk (s : State) (root : BitVec 48) (va : Nat) : Walk := (walkOwn s [] root va).1

/-- The permissions of a leaf (R358). -/
def allowed (e : Word) (acc : Acc) (priv : BitVec 1) : Bool :=
  (match acc with
   | .read => bit e 3
   | .write => bit e 4
   | .fetch => bit e 5
   | .rmw => bit e 3 && bit e 4) && (priv = 1 || bit e 6)

/-- The outcome of a translation by a leaf or by what a walk met. -/
def Walk.outcome (w : Walk) (va : Nat) (acc : Acc) (priv : BitVec 1) : Except Trap Nat :=
  match w with
  | .bus i => .error ⟨0x12, some (BitVec.ofNat 56 i), some (BitVec.ofNat 64 va)⟩
  | .absent l b => .error ⟨0x10, some (faultInfo acc l b priv), some (BitVec.ofNat 64 va)⟩
  | .leaf l e =>
    if allowed e acc priv then .ok (ptePa e + va % pageSize l)
    else .error ⟨0x11, some (faultInfo acc l false priv), some (BitVec.ofNat 64 va)⟩

/-- The party that asks for a translation (R360): a core for its fetches or its data, or an engine of a die. -/
inductive Via where
  | fetch (c : CoreId)
  | data (c : CoreId)
  | engine (e : Engine) (die : BitVec 2)
deriving DecidableEq, Repr
/-- The caches that a party uses: its own TLB first, then what walks for it (R360). -/
def Via.homes : Via → List TlbHome
  | .fetch c => [.instr c, .cluster (clusterOf c)]
  | .data c => [.data c, .cluster (clusterOf c)]
  | .engine e d => [.engine e d]
/-- Entries that a cache holds (R16): 64 in a core's TLBs, 4,096 leaves in a cluster's L2 TLB. -/
def TlbHome.room : TlbHome → Option Nat
  | .instr _ => some 64
  | .data _ => some 64
  | .cluster _ => some 4096
  | .engine _ _ => none
/-- An entry enters a cache; a full one replaces its oldest leaf: which one, R360 does not say (log 15). -/
def addTlb (l : List TlbEntry) (n : TlbEntry) : List TlbEntry :=
  if l.contains n then l else
  let mine := l.filter fun e => e.home = n.home && bit e.pte 1
  match n.home.room, mine.getLast? with
  | some k, some old => if bit n.pte 1 && k ≤ mine.length then n :: l.erase old else n :: l
  | _, _ => n :: l
/-- The entries that a walk has used enter the caches of its party: leaves all of them, other entries the walk cache. -/
def cacheTrail (s : State) (homes : List TlbHome) (root : BitVec 48) (va : Nat) (t : Trail) : State :=
  { s with tlb := t.foldl (fun l p =>
      (if bit p.2 1 then homes else homes.drop (homes.length - 1)).foldl (fun l h =>
        addTlb l ⟨h, root, va / reach p.1, BitVec.ofNat 2 p.1, p.2⟩) l) s.tlb }
/-- The entries that a party's caches hold for an address and that the tables no longer give (R360). -/
def oldEntries (s : State) (homes : List TlbHome) (root : BitVec 48) (va : Nat) (fresh : Trail) : List TlbEntry :=
  s.tlb.filter fun e => homes.contains e.home && e.covers root va && !fresh.contains (e.lvl.toNat, e.pte)
/-- The translation that a cached entry leads to: its leaf, or a walk from its table. -/
def TlbEntry.walk (e : TlbEntry) (s : State) (own : List Store) (va : Nat) : Walk × Trail :=
  if bit e.pte 1 then (.leaf e.lvl.toNat e.pte, []) else walkFrom s own va (ptePa e.pte) (e.lvl.toNat - 1)
/-- The own stores of a party, which its walks see (R300): those of the acting context of a core. -/
def Via.own (v : Via) (s : State) : List Store :=
  match v with
  | .engine _ _ => []
  | _ => s.me.stores

/-- translate of R358 for a party: by a fresh walk, or by what a cached entry that differs leads to (R360). A leaf found
in the walk cache enters the party's own TLB. -/
def translate (s : State) (v : Via) (root : BitVec 48) (va : Word) (acc : Acc) (priv : BitVec 1) :
    Except Trap (Nat × State) :=
  if 2 ^ 56 ≤ va.toNat then .error (rangeFault acc.code priv va) else
  let homes := v.homes
  let fresh := walkOwn s (v.own s) root va.toNat
  let old := oldEntries s homes root va.toNat fresh.2
  let n := Config.pick s.tick (2 ^ 60 + va.toNat / 2 ^ 14) % (old.length + 1)
  match (if old.isEmpty then none else old[n]?) with
  | none =>
    match fresh.1.outcome va.toNat acc priv with
    | .error t => .error t
    | .ok pa => .ok (pa, cacheTrail s homes root va.toNat fresh.2)
  | some e =>
    let w := e.walk s (v.own s) va.toNat
    match w.1.outcome va.toNat acc priv with
    | .error t => .error t
    | .ok pa =>
      .ok (pa, if bit e.pte 1 then
          (if homes.getLast? = some e.home then cacheTrail s (homes.take (homes.length - 1)) root va.toNat [(e.lvl.toNat, e.pte)]
            else s)
        else cacheTrail s homes root va.toNat w.2)

/-- Every page an access touches is translated first, at most two; the lowest failing address is reported (R143). -/
def translateSpan (s : State) (v : Via) (root : BitVec 48) (va : Word) (n : Nat) (acc : Acc)
    (priv : BitVec 1) : Except Trap (Nat × Nat × State) :=
  match translate s v root va acc priv with
  | .error t => .error t
  | .ok (pa, s1) =>
    if va.toNat % 2 ^ 14 + n ≤ 2 ^ 14 then .ok (pa, 0, s1) else
    let va2 := BitVec.ofNat 64 ((va.toNat / 2 ^ 14 + 1) * 2 ^ 14)
    match translate s1 v root va2 acc priv with
    | .error t => .error t
    | .ok (pa2, s2) => .ok (pa, pa2, s2)

end Sys2Proof.Machine
end

