-- ==== Sys2Proof/Machine/Caches.lean ====
section
/-! DEFINITION. What a write of memory leaves behind it (R146, R157, R291, R302, R396), and where the copies and the token of
a line are: the slices of the Hearth (R282 to R284), the directories and filters (R287), L1s and forge caches (R288), and
the token (R289). -/

namespace Sys2Proof.Machine

/-! ## Writing memory -/

/-- Keys of places. -/
def keysOf (ps : List Place) : List Nat := ps.filterMap (·.key)
/-- The poison of a doubleword clears when a write covers all of it (R396). -/
def clearPoison (m : Memory) (keys : List Nat) : Memory :=
  if m.poison.isEmpty then m else
  { m with poison := m.poison.filter fun d => !((List.range 8).all fun i => keys.contains (8 * d + i)) }
/-- The value of a place's doubleword, and the releases on it, before the next write of it (R291). -/
def Memory.remember (by_ : Option CoreId) (m : Memory) (p : Place) : Memory :=
  match p.word, p.key with
  | some w, some k =>
    { m with
      time := m.time + 1
      past := Assoc.put m.past w
        (⟨m.time + 1, m.dword (k / 8), Assoc.get? m.tags w, Assoc.getD m.chain w [], by_⟩ :: Assoc.getD m.past w []) }
  | _, _ => m
/-- The first place of each doubleword that an access touches. -/
def wordsOf (ps : List Place) : List Place :=
  ps.foldl (fun l p => if l.any fun q => q.word = p.word then l else l ++ [p]) []
/-- The doublewords touched carry a write's release tag, or none (R302); an atomic's follows those it read (R298). -/
def setTags (m : Memory) (ps : List Place) (t : Option Tag) (follow : Bool := false) : Memory :=
  (((ps.filter fun p => p.key.isSome).filterMap (·.word)).eraseDups).foldl (fun m d =>
    let chain := t.toList ++ if follow then Assoc.getD m.chain d [] else []
    { m with
      tags := match t with
        | some t => Assoc.put m.tags d t
        | none => if (Assoc.get? m.tags d).isSome then Assoc.del m.tags d else m.tags
      chain := if !chain.isEmpty then Assoc.put m.chain d chain
        else if (Assoc.get? m.chain d).isSome then Assoc.del m.chain d else m.chain }) m
/-- A write of bytes at places: the values before it are kept for reads that nothing orders after it (R291), the bytes, the
other window (R157), poison, and the tag, which takes its place among the writes. `by_`: the core whose own write it is. -/
def writeBytes (m : Memory) (w : List (Place × Byte)) (t : Option Tag) (follow : Bool := false) (by_ : Option CoreId := none) :
    Memory :=
  let keys := w.filterMap fun p => p.1.key
  let m1 := (wordsOf (w.map (·.1))).foldl (Memory.remember by_) m
  let m2 := w.foldl (fun m p => writePlace m p.1 p.2) m1
  setTags (clearPoison m2 keys) (w.map (·.1)) (t.map fun t => { t with time := m2.time }) follow
/-- The full-empty bits of the doublewords touched are set as given (R146). -/
def setFulls (m : Memory) (keys : List Nat) (b : Bool) : Memory :=
  ((keys.map (· / 8)).eraseDups).foldl (fun m d => m.setFull d b) m
/-- Doublewords whose contents are gone: no read returns what they held. -/
def Memory.forget (m : Memory) (gone : Nat → Bool) : Memory :=
  { m with
    past := m.past.filter fun p => !gone (p.1 / 2)
    chain := m.chain.filter fun p => !gone (p.1 / 2)
    tags := m.tags.filter fun p => !gone (p.1 / 2) }

/-! ## Home slices and targets (R15, R276, R277, R283, R375) -/

/-- The cluster at which the router island's traffic enters a die (R15). -/
def entryCluster (die : Nat) : Nat :=
  match die with
  | 0 => 55
  | 1 => 56
  | 2 => 71
  | _ => 72
/-- The slice that a request from cluster `c` to a line of home slice `h` aims at: its own on the home die, else the one
at which its route enters that die (R277, R283). -/
def targetSlice (h c : Nat) : Nat :=
  if clusterDie c = clusterDie h then c
  else if c / 64 = h / 64 then c / 16 * 16 + (if h % 16 < 8 then 7 else 8)
  else (if h / 64 = 0 then 3 else 4) * 16 + h % 16
/-- A line's number is one of this package's DRAM. -/
def isDramLine (n : Nat) : Bool := keyDram ≤ n / 2 * 64 && n / 2 * 64 < keySram
/-- The home slice of a line of DRAM or of the host space, by its number (R276, R375). -/
def homeSlice (n : Nat) : Option Nat :=
  let key := n / 2 * 64
  if isDramLine n then some (forgeCluster ((key - keyDram) / pcBytes))
  else if keyHost ≤ key && key < keyHost + 2 ^ 48 then some (hostSlice (key / 64 - keyHost / 64))
  else none
/-- The number under which the Hearth keeps a line of another package (R292). -/
def farLine (line : Nat) : Nat := 2 ^ 60 + line
/-- The proxy slice of a line of another package: the home slice that its address has in this package (R292). -/
def proxySlice (line : Nat) : Nat :=
  let o := line * 64 % 2 ^ 48
  forgeCluster ((if line * 64 / 2 ^ 48 % 8 = 0 then interleaved o else o) / pcBytes % 1024)
/-- Lines of a home slice that live in another: its forwarding entries (R283). -/
def Memory.forwarded (m : Memory) (h : Nat) : Nat :=
  (m.lines.filter fun l => isDramLine l.1 && homeSlice l.1 = some h && l.2.slice.isSome).length

/-! ## What the slices hold (R282) -/

/-- Lines that a slice has room for: those of its ways that no grant owns (R18, R223). -/
def State.sliceRoom (s : State) (k : BitVec 7) : Nat :=
  4096 * (16 - ((s.ways.filter fun o => o.1 = k).map fun o => o.2.1).sum)
def Memory.residents (m : Memory) (k : BitVec 7) : List Resident := m.hearth.filter fun r => r.slice = k
def Memory.resident? (m : Memory) (n : Nat) : Option Resident := m.hearth.find? fun r => r.line = n
/-- A slice gives a line up: it is written to DRAM or to the host where it is dirty; a migrated one loses its forwarding entry
(R283), another package's its read copy (R293), and one of the host space leaves the package (R373). -/
def State.evictHearth (s : State) (n : Nat) : State :=
  match s.mem.resident? n with
  | none => s
  | some r =>
    let m := { s.mem with hearth := s.mem.hearth.filter fun q => q.line ≠ n }
    let far := 2 ^ 60
    if far ≤ n then
      { s with mem := { m with
        proxy := m.proxy.filter fun p => p.1 / 8 ≠ n - far
        proxyTags := m.proxyTags.filter fun p => p.1 / 8 ≠ n - far } }
    else if isDramLine n then
      { s with
        mem := if (m.line n).slice.isSome then m.setLine n { m.line n with slice := none } else m
        ctlq := if r.dirty then s.ctlq ++ [n] else s.ctlq }
    else
      { s with mem := { m with lines := Assoc.del m.lines n, hostLines := Assoc.del m.hostLines (n / 2) } }
/-- A line enters a slice, or is there already; a slice that is full replaces one of its lines. -/
def State.reside (s : State) (n : Nat) (k : BitVec 7) (dirty : Bool) : State :=
  match s.mem.resident? n with
  | some r =>
    let r' : Resident := ⟨n, r.slice, r.dirty || dirty⟩
    { s with mem := { s.mem with hearth := r' :: s.mem.hearth.filter fun q => q.line ≠ n } }
  | none =>
    let l := s.mem.residents k
    let s := if s.sliceRoom k ≤ l.length then
        match l[Config.pick s.tick (2 ^ 57 + n) % l.length]? with
        | some r => s.evictHearth r.line
        | none => s
      else s
    { s with mem := { s.mem with hearth := ⟨n, k, dirty⟩ :: s.mem.hearth } }
/-- The slice that holds a line now. -/
def Memory.sliceOf (m : Memory) (n : Nat) : BitVec 7 := (m.line n).slice.getD (BitVec.ofNat 7 ((homeSlice n).getD 0))
/-- A request of a core or an engine, or from the island, reaches the home slice of a line: the line is there, and the
fourth in a row with one target starts its move to that slice, while there is a forwarding entry (R15, R282, R283). -/
def State.noteRequest (s : State) (c : Option CoreId) (n : Nat) : State :=
  match homeSlice n with
  | none => s
  | some h =>
    let s := s.reside n (s.mem.sliceOf n) false
    if !isDramLine n then s else
    let l := s.mem.line n
    let t := BitVec.ofNat 7 (match c with
      | some c => targetSlice h (clusterOf c).toNat
      | none => entryCluster (clusterDie h))
    let k := if l.last = some t && s.mem.sliceOf n ≠ t then l.count + 1 else 0
    let room := t = BitVec.ofNat 7 h || l.slice.isSome || s.mem.forwarded h < 8192
    { s with mem := s.mem.setLine n { l with
        last := some t, count := k, at_ := some s.now
        moving := if 4 ≤ k && room then some (l.moving.getD s.tick) else none } }

/-! ## Copies and the token (R287 to R289) -/

/-- Some L1 or forge cache holds the line. -/
def Line.outside (l : Line) : Bool := l.owner.isSome || !l.sharers.isEmpty || !l.fetchers.isEmpty || !l.forges.isEmpty
/-- The bytes of a line, and its full-empty bits. -/
def Memory.lineBytes (m : Memory) (n : Nat) : List Byte := (List.range 64).map fun i => m.byte (n / 2 * 64 + i)
def Memory.lineFull (m : Memory) (n : Nat) : BitVec 8 :=
  BitVec.ofNat 8 ((List.range 8).map fun i => if m.isFull (n / 2 * 8 + i) then 2 ^ i else 0).sum
/-- An answer of the host that lets the token or dirty data of a line pass is used up with this step (R376). -/
def Line.spend (l : Line) (t : Nat) : Line :=
  if l.answered.isSome && l.spent.isNone then { l with spent := some t } else l
/-- The owner's dirty data are written to the home slice, and its copy is clean (R288). -/
def State.writeHome (s : State) (n : Nat) : State :=
  let l := s.mem.line n
  if !l.dirty then s else
  let s := s.reside n (s.mem.sliceOf n) true
  { s with mem := s.mem.setLine n { s.mem.line n with dirty := false, home := s.mem.lineBytes n, homeFull := s.mem.lineFull n } }
/-- An engine read of a line whose holder has it in X recalls the data; the holder keeps the token in O (R289, R290). -/
def State.recallLine (s : State) (n : Nat) : State :=
  match (s.mem.line n).owner with
  | some (o, true) =>
    let s := s.writeHome n
    { s with mem := s.mem.setLine n { (s.mem.line n).spend s.tick with owner := some (o, false) } }
  | _ =>
    let l := s.mem.line n
    if l.answered.isSome && l.spent.isNone then { s with mem := s.mem.setLine n (l.spend s.tick) } else s
/-- The token comes home, dirty data with it, and every copy is dropped, as for an engine write or an atomic at home, or
where the directory or a snoop asks for it (R287, R289, R290). -/
def State.tokenHome (s : State) (n : Nat) : State :=
  let l := s.mem.line n
  if !l.outside && (l.answered.isNone || l.spent.isSome) then s else
  let s := s.writeHome n
  { s with mem := s.mem.setLine n { (s.mem.line n).spend s.tick with owner := none, sharers := [], fetchers := [], forges := [] } }
/-- The 512-byte region of a line in its window. -/
def regionOf (n : Nat) : Nat := n / 16 * 2 + n % 2
/-- The regions that a die's directory tracks (R287). -/
def Memory.regions (m : Memory) (die : Nat) : List Nat :=
  ((m.lines.filter fun l => l.2.outside && (homeSlice l.1).any fun h => clusterDie h = die).map fun l => regionOf l.1).eraseDups
/-- The clusters that the directory names for a region: those whose filters name some of their cores or forge caches for a
line of it (R287). -/
def Memory.regionClusters (m : Memory) (r : Nat) : List (BitVec 7) :=
  ((m.lines.filter fun l => regionOf l.1 = r).flatMap fun l =>
    (l.2.owner.toList.map (·.1) ++ l.2.sharers ++ l.2.fetchers).map clusterOf
      ++ l.2.forges.map fun f => BitVec.ofNat 7 (forgeCluster f.toNat)).eraseDups
/-- A directory entry is evicted: every copy of the region's lines is dropped, dirty data written home (R287). -/
def State.evictRegion (s : State) (r : Nat) : State :=
  if (s.mem.regionClusters r).isEmpty then s else
  (s.mem.lines.filter fun l => regionOf l.1 = r).foldl (fun s l => s.tokenHome l.1) s
/-- Lines in a forge cache, and the lines it has room for: 512 for each of the forge's banks that is forge cache (R16, R278). -/
def Memory.forgeLines (m : Memory) (f : ForgeId) : List Nat := (m.lines.filter fun l => l.2.forges.contains f).map (·.1)
def State.forgeRoom (s : State) (f : ForgeId) : Nat :=
  512 * ((List.range 32).filter fun b => (s.forge f).roleOf b = 0).length
/-- A forge cache drops its copy of a line. -/
def State.evictForge (s : State) (f : ForgeId) (n : Nat) : State :=
  if !(s.mem.line n).forges.contains f then s else
  { s with mem := s.mem.setLine n { s.mem.line n with forges := (s.mem.line n).forges.filter (· ≠ f) } }
/-- A clean line enters a forge cache; one that is full replaces one of its lines. -/
def State.toForge (s : State) (f : ForgeId) (n : Nat) : State :=
  if s.forgeRoom f = 0 || (s.mem.line n).forges.contains f then s else
  let held := s.mem.forgeLines f
  let s := if held.length < s.forgeRoom f then s else
    match held[Config.pick s.tick (2 ^ 54 + n) % held.length]? with
    | some k => s.evictForge f k
    | none => s
  { s with mem := s.mem.setLine n { s.mem.line n with forges := f :: (s.mem.line n).forges } }
/-- An L1D gives a line up: a dirty line goes to its home slice, a clean one to the core's forge cache, if some bank is one
(R278, R288). -/
def State.evictL1d (s : State) (c : CoreId) (n : Nat) : State :=
  let l := s.mem.line n
  let mine := l.owner.any fun o => o.1 = c
  if !mine && !l.sharers.contains c then s else
  let clean := !(mine && l.dirty)
  let s := if mine then s.writeHome n else s
  let l := s.mem.line n
  let s := { s with mem := s.mem.setLine n { l with
      owner := if mine then none else l.owner
      sharers := l.sharers.filter (· ≠ c) } }
  if clean then s.toForge (forgeOf c) n else s
/-- A cache replaces a line. -/
def State.evict (s : State) (e : Evict) : State :=
  match e with
  | .l1d c n => s.evictL1d c n
  | .l1i c n =>
    if !(s.mem.line n).fetchers.contains c then s else
    { s with mem := s.mem.setLine n { s.mem.line n with fetchers := (s.mem.line n).fetchers.filter (· ≠ c) } }
  | .forge f n => s.evictForge f n
  | .hearth n => if isDramLine n || 2 ^ 60 ≤ n then s.evictHearth n else (s.tokenHome n).evictHearth n
  | .region r => s.evictRegion r
/-- Lines in a core's L1D, and in its L1I. -/
def Memory.l1d (m : Memory) (c : CoreId) : List Nat :=
  (m.lines.filter fun l => l.2.sharers.contains c || l.2.owner.any fun o => o.1 = c).map (·.1)
def Memory.l1i (m : Memory) (c : CoreId) : List Nat := (m.lines.filter fun l => l.2.fetchers.contains c).map (·.1)
/-- Room for one more line in a core's L1 of 256 lines, and for one more region in the directory of its home die (R16, R287). -/
def State.makeRoom (s : State) (c : CoreId) (n : Nat) (fetch : Bool) : State :=
  if s.mem.lines.length < 256 then s else
  let held := if fetch then s.mem.l1i c else s.mem.l1d c
  let s := if held.length < 256 then s else
    match held[Config.pick s.tick (2 ^ 56 + n) % held.length]? with
    | some k => s.evict (if fetch then .l1i c k else .l1d c k)
    | none => s
  let regs := s.mem.regions (((homeSlice n).map clusterDie).getD 0)
  if regs.length < 262144 || regs.contains (regionOf n) then s else
  match regs[Config.pick s.tick (2 ^ 55 + n) % regs.length]? with
  | some r => s.evictRegion r
  | none => s
/-- A core takes a line's token to state X, and every other copy is dropped (R289); the home holds the line as it stood. -/
def State.claimLine (s : State) (c : CoreId) (n : Nat) : State :=
  if (s.mem.line n).owner = some (c, true) then s else
  let s := ((s.noteRequest (some c) n).writeHome n).makeRoom c n false
  { s with mem := s.mem.setLine n { (s.mem.line n).spend s.tick with
      owner := some (c, true), sharers := [c], fetchers := [], forges := []
      home := s.mem.lineBytes n, homeFull := s.mem.lineFull n } }
/-- It takes the token to write the line. -/
def State.takeToken (s : State) (c : CoreId) (n : Nat) : State :=
  let s := s.claimLine c n
  { s with mem := s.mem.setLine n { s.mem.line n with dirty := true } }
/-- A core reads a line: from its L1D, from its forge cache, or at home, where a holder in X drops to O (R288, R289). -/
def State.shareLine (s : State) (c : CoreId) (n : Nat) : State :=
  let l := s.mem.line n
  if (l.owner.any fun o => o.1 = c) || l.sharers.contains c then s else
  let s := s.makeRoom c n false
  let s := if l.forges.contains (forgeOf c) then s else (s.noteRequest (some c) n).recallLine n
  { s with mem := s.mem.setLine n { s.mem.line n with sharers := c :: (s.mem.line n).sharers } }
/-- A core fetches from a line: its L1I holds a read copy (R288). -/
def State.fetchLine (s : State) (c : CoreId) (n : Nat) : State :=
  if (s.mem.line n).fetchers.contains c then s else
  let s := ((s.makeRoom c n true).noteRequest (some c) n).recallLine n
  { s with mem := s.mem.setLine n { s.mem.line n with fetchers := c :: (s.mem.line n).fetchers } }
/-- The lines of places, each once. -/
def linesOf (ps : List Place) : List Nat := (ps.filterMap (·.lineNo)).eraseDups
/-- An access at home that needs the tokens there: they come home, and every copy is dropped (R289, R290). -/
def State.toHome (s : State) (c : Option CoreId) (ps : List Place) : State :=
  (linesOf ps).foldl (fun s n => (s.noteRequest c n).tokenHome n) s
/-- A write at home leaves the lines dirty in their slices. -/
def State.atHome (s : State) (c : Option CoreId) (ps : List Place) : State :=
  (linesOf ps).foldl (fun s n => s.reside n (s.mem.sliceOf n) true) (s.toHome c ps)

/-! ## What a request waits for -/

/-- A store may go: a release before it has been completed, writes to other packages are acknowledged where its release is
of domain or system scope, and no earlier store of the context to its doublewords is left (R292, R296, R298, R300). -/
def State.storeReady (s : State) (x : Ctx) (st : Store) : Bool :=
  x.storesDone st.upTo && !((st.rel = some 5 || st.rel = some 6) && !s.mem.pending.isEmpty)
    && x.stores.all fun o => st.serial ≤ o.serial || !(o.meets s ((st.places s).filterMap id))
/-- Before the token leaves, the holder applies the stores in its buffer to the line (R289): some of them may go and have not gone
yet. `c`: a core that takes the token for a store of its own, none where it goes home. -/
def State.holdsBack (s : State) (c : Option CoreId) (n : Nat) : Bool :=
  match (s.mem.line n).owner with
  | none => false
  | some (o, _) => some o ≠ c && [(0 : CtxId), 1, 2, 3].any fun k =>
      let x := s.ctxAt o k
      x.stores.any fun st => s.storeReady x st && (linesOf ((st.places s).filterMap id)).contains n
/-- The line of an operation that a bank engine of this package holds (R286). -/
def NmOp.lineOf (op : NmOp) (s : State) : Option Nat :=
  match place s 0 op.pa with
  | .ok p => p.lineNo
  | .error _ => none
/-- The line waits at its home: a bank engine holds it, or it is in motion (R284, R286). -/
def State.blocked (s : State) (p : Place) : Bool :=
  match p.lineNo with
  | none => false
  | some n => (s.mem.line n).moving.any (· ≠ s.tick) || s.bank.any fun b => b.2.2.lineOf s = some n
/-- The line that the home first asks the host about, and by BISnpInv or BISnpData: it shares the line, and the token is to pass, or
dirty data, another core's or the home slice's own (R376). -/
def State.askFor (s : State) (c : Option CoreId) (write : Bool) (p : Place) : Option Nat :=
  match p with
  | .dram _ _ =>
    p.lineNo.bind fun n =>
      let l := s.mem.line n
      let has := c.any fun c => l.sharers.contains c || l.owner.any fun o => o.1 = c
      let dirty := (l.dirty && l.owner.any fun o => some o.1 ≠ c) || (!has && (s.mem.resident? n).any (·.dirty))
      let told := l.spent.all (· = s.tick) && (l.answered = some true || (!write && l.answered = some false))
      if l.hostBit && (write || dirty) && !told then some n else none
  | _ => none
/-- The home asks, unless an answer is still out. -/
def State.ask (s : State) (write : Bool) (n : Nat) : State :=
  let l := s.mem.line n
  if l.asked.isSome then s else { s with mem := s.mem.setLine n { l with asked := some write } }

end Sys2Proof.Machine
end

