-- ==== Sys2Proof/Machine/Operands.lean ====
section
/-! DEFINITION. The operand forms of registers: registers owed a result (R112), queues and streams that a read pops and
a write pushes (R179, R180), what a replay under way makes wait (R184), and the writes of g, f and v registers. -/

namespace Sys2Proof.Machine

/-- A register operand. -/
inductive Reg where
  | g (r : BitVec 5)
  | f (r : BitVec 5)
  | v (r : BitVec 4)
deriving DecidableEq, Repr

/-- The binding of a g or v register (R178). -/
def Ctx.binding (x : Ctx) (vec : Bool) (r : BitVec 5) : Option Binding :=
  x.binds.find? fun b => b.vec = vec && b.reg = r
/-- The stream of a g or v register (R180). -/
def Ctx.stream (x : Ctx) (vec : Bool) (r : BitVec 5) : Option Stream :=
  x.streams.find? fun t => t.vec = vec && t.reg = r
/-- The register file's own cell (R54). -/
def Ctx.setReg (x : Ctx) (vec : Bool) (r : BitVec 5) (w : Vec) : Ctx :=
  if vec then x.setV (r.setWidth 4) w else x.setG r (w.setWidth 64)
def Ctx.getQ (x : Ctx) (q : BitVec 2) : List Vec := x.q.get ⟨q.toNat, q.isLt⟩
def Ctx.setQ (x : Ctx) (q : BitVec 2) (l : List Vec) : Ctx := { x with q := x.q.set q.toNat l q.isLt }
def Core.getNq (x : Core) (q : BitVec 2) : List Sent := x.nq.get ⟨q.toNat, q.isLt⟩
def Core.setNq (x : Core) (q : BitVec 2) (l : List Sent) : Core := { x with nq := x.nq.set q.toNat l q.isLt }

/-- The bits of one element of a type code (R67). -/
def typeBits (t : Nat) : Nat :=
  match t with
  | 0 => 64 | 1 => 32 | 2 => 16 | 3 => 16 | 4 => 8 | 5 => 8 | 6 => 4 | 7 => 4 | 8 => 8 | 9 => 8 | 10 => 16 | 11 => 16
  | 12 => 32 | 13 => 32 | 14 => 64 | _ => 64
/-- Fields of a tensor map (R66). -/
def mapBase (m : BitVec 512) : Nat := fld m 0 56
def mapDims (m : BitVec 512) : Nat := fld m 56 3
def mapFmt (m : BitVec 512) : Nat := fld m 59 5
def mapSbase (m : BitVec 512) : Nat := fld m 64 56
def mapGeom (m : BitVec 512) : Nat := fld m 120 2
def mapTrn (m : BitVec 512) : Bool := bit m 122
def mapBlin (m : BitVec 512) : Bool := bit m 123
def mapCway (m : BitVec 512) : Bool := bit m 124
/-- SIZEi + 1 of a dimension in use, 1 above DIMS (R66). -/
def mapSize (m : BitVec 512) (i : Nat) : Nat := if i ≤ mapDims m then fld m (128 + 20 * i) 20 + 1 else 1
def mapStride (m : BitVec 512) (i : Nat) : Nat := if 0 < i && i ≤ mapDims m then fld m (288 + 32 * (i - 1)) 32 else 0
/-- The number of elements of a map (R215). -/
def mapCount (m : BitVec 512) : Nat := (List.range 8).foldl (fun a i => a * mapSize m i) 1
/-- Elements that a stream pops: elements for a g register, 16-byte pieces of dimension 0 for a v register (R180). -/
def Stream.total (t : Stream) : Nat :=
  if t.vec then mapCount t.map * typeBits (mapFmt t.map) / 128 else mapCount t.map

/-- The sender's count of its vectors not yet popped, changed as given (R177). -/
def State.setOutst (s : State) (c : CoreId) (k : CtxId) (dir : BitVec 2) (f : Nat → Nat) : State :=
  let x := s.ctxAt c k
  s.setCtxAt c k { x with outst := x.outst.set dir.toNat (f (x.outst.get ⟨dir.toNat, dir.isLt⟩)) dir.isLt }
/-- A read of a bound or streaming register pops once, however often the instruction names it; the value stands in the
register (R179, R180: "each read" of a register that stands in two source fields is one, log 11). -/
def popReg (vec : Bool) (r : BitVec 5) (s : State) : Res :=
  let x := s.me
  match x.binding vec r with
  | some b =>
    let q := b.q.setWidth 2
    if b.q.toNat < 4 then
      match x.getQ q with
      | [] => .wait .interlock s
      | w :: t => .ok .own (s.setMe ((x.setQ q t).setReg vec r w))
    else
      match s.here.getNq q with
      | [] => .wait (.queueEmpty q) s
      | w :: t =>
        let s := { s with credits := s.credits ++ [(w.core, w.ctx, w.dir)] }
        let s := (s.setHere (s.here.setNq q t)).setOutst w.core w.ctx w.dir (· - 1)
        .ok .own (s.setMe (s.me.setReg vec r w.val))
  | none =>
    match x.stream vec r with
    | none => .ok .own s
    | some t =>
      let upd (u : Stream) : List Stream := x.streams.map fun y => if y.vec = vec && y.reg = r then u else y
      match t.buf with
      | [] => if t.total ≤ t.popped then .trap (badMap 2) s else .wait .interlock s
      | .value w :: rest =>
        .ok .own (s.setMe (({ x with streams := upd { t with buf := rest, popped := t.popped + 1 } }).setReg vec r w))
      | .fault c i a :: _ => .trap ⟨c, some i, some a⟩ s

/-- A write of a register that is bound to a full queue waits; one bound to q4 to q7, or streaming, is illegal. -/
def checkWrite (w : Nat) (vec : Bool) (r : BitVec 5) (s : State) : Res :=
  match s.me.binding vec r with
  | some b =>
    if b.q.toNat < 4 then
      if (s.me.getQ (b.q.setWidth 2)).length < 8 then .ok .own s else .wait .interlock s
    else .trap (illegal w) s
  | none => if (s.me.stream vec r).isSome then .trap (illegal w) s else .ok .own s

def Reg.vec : Reg → Bool
  | .v _ => true
  | _ => false
def Reg.num : Reg → BitVec 5
  | .g r => r
  | .f r => r
  | .v r => r.setWidth 5
def Reg.isF : Reg → Bool
  | .f _ => true
  | _ => false
/-- A register owed an asynchronous result (R112). -/
def Ctx.owes (x : Ctx) : Reg → Bool
  | .g r => x.owed.contains r
  | _ => false
/-- A register that a replay under way may still use (R184): f, and v not bound to a queue or stream. -/
def Ctx.replayUses (x : Ctx) : Reg → Bool
  | .g _ => false
  | .f _ => true
  | .v r => (x.binding true (r.setWidth 5)).isNone && (x.stream true (r.setWidth 5)).isNone
/-- A replay is under way beside the integer stream (R184). -/
def Ctx.replaying (x : Ctx) : Bool :=
  match x.replay with
  | none => false
  | some r => !r.halted
/-- Nothing is owed, bound, streaming or replaying: operands are the plain register files. -/
def State.plain (s : State) : Bool :=
  s.me.owed.isEmpty && s.me.binds.isEmpty && s.me.streams.isEmpty && (s.cur.replay || s.me.replay.isNone)

/-- The operand rules of an instruction that reads `rd` and writes `wr`; `acc` when it names an accumulator. They come before the
meaning's own traps, that of a jump's target among them (log 7). -/
def prepare (w : Nat) (rd wr : List Reg) (acc : Bool) (s : State) : Res :=
  if s.plain then .ok .own s else
  if (rd ++ wr).any s.me.owes then .wait .interlock s else
  if !s.cur.replay && s.me.replaying && (acc || (rd ++ wr).any s.me.replayUses) then .wait .interlock s else
  let r := (rd.filter (!·.isF)).eraseDups.foldl
    (fun a x => a.bind (popReg x.vec x.num)) (.ok .own s)
  (wr.filter (!·.isF)).eraseDups.foldl (fun a x => a.bind (checkWrite w x.vec x.num)) r

/-- A g register is written, or its queue pushed (R55, R179). -/
def State.writeG (s : State) (r : BitVec 5) (w : Word) : State :=
  match s.me.binding false r with
  | some b => s.setMe (s.me.setQ (b.q.setWidth 2) (s.me.getQ (b.q.setWidth 2) ++ [w.setWidth 128]))
  | none => s.setMe (s.me.setG r w)
/-- A v register is written, or its queue pushed (R57, R179). -/
def State.writeV (s : State) (r : BitVec 4) (w : Vec) : State :=
  match s.me.binding true (r.setWidth 5) with
  | some b => s.setMe (s.me.setQ (b.q.setWidth 2) (s.me.getQ (b.q.setWidth 2) ++ [w]))
  | none => s.setMe (s.me.setV r w)
/-- An f register is written whole. -/
def State.writeF (s : State) (r : BitVec 5) (w : Word) : State := s.setMe (s.me.setF r w)
/-- A value of `n` bits in an f register, every higher bit one (R56). -/
def boxF (n : Nat) (x : Nat) : Word := BitVec.ofNat 64 (x % 2 ^ n + (2 ^ 64 - 2 ^ n))

/-- An instruction that traps or waits has popped nothing: the queues, streams and registers stand as before it. A
stream whose next element faulted is fetched anew after the trap (R180). -/
def undoPops (s s' : State) (trap : Option Trap) : State :=
  if s.plain then s' else
  let x := s.me
  let st := x.streams.map fun t =>
    match t.buf with
    | .fault c i a :: _ => if trap = some ⟨c, some i, some a⟩ then { t with buf := [], next := t.popped } else t
    | _ => t
  let s' := (s'.credits.drop s.credits.length).foldl (fun t c => t.setOutst c.1 c.2.1 c.2.2 (· + 1)) s'
  let s' := s'.setMe { s'.me with g := x.g, v := x.v, q := x.q, streams := st }
  { s'.setHere { s'.here with nq := s.here.nq } with credits := s.credits }
/-- The result of a meaning with what its operands popped undone unless it retires. -/
def Res.precise (s : State) : Res → Res
  | .ok fl s' => .ok fl s'
  | .trap t s' => .trap t (undoPops s s' (some t))
  | .wait w s' => .wait w (undoPops s s' none)

/-- A meaning over prepared operands. -/
def withRegs (w : Nat) (rd wr : List Reg) (s : State) (k : State → Res) :
    Host.Outcome State Fault Refusal :=
  finish (((prepare w rd wr false s).bind k).precise s)
/-- A meaning that names an accumulator (R184). -/
def withAcc (w : Nat) (rd wr : List Reg) (s : State) (k : State → Res) : Host.Outcome State Fault Refusal :=
  finish (((prepare w rd wr true s).bind k).precise s)

end Sys2Proof.Machine
end

