-- ==== Sys2Proof/Machine/Access.lean ====
section
/-! DEFINITION. A core's accesses: which spaces accept them (R141), lines that must first be fetched (R292, R375),
ordering, release tags and scope misses (R295 to R303), the store buffer (R144, R161), and fetching (R69). -/

namespace Sys2Proof.Machine

/-! ## Scopes -/

/-- Party q lies within a scope of party p (R8, R78, R295). -/
def inScope (scope : Nat) (p q : Party) : Bool :=
  let same : Bool := p.pkg = q.pkg
  match scope with
  | 0 => same && p.core = q.core
  | 1 => same && forgeOf p.core = forgeOf q.core
  | 2 => same && clusterOf p.core = clusterOf q.core
  | 3 => same && dieOf p.core = dieOf q.core
  | 4 => same
  | _ => true
/-- The code of the narrowest scope of p that includes q (R303). -/
def needScope (p q : Party) : Nat := ((List.range 6).find? fun k => inScope k p q).getD 5
/-- A core of this package as a party. -/
def partyOf (c : CoreId) : Party := { core := c }
def Tag.party (t : Tag) : Party := ⟨t.pkg, t.core⟩
/-- The wider of two release scopes (R296). -/
def widest (a b : Option (BitVec 3)) : Option (BitVec 3) :=
  match a, b with
  | none, b => b
  | a, none => a
  | some x, some y => some (if x.toNat < y.toNat then y else x)
/-- The tag of a doubleword that the host wrote (R377). -/
def hostTag : Tag := { core := 0, ctx := 0, scope := 6, page := 0, launch := none, host := true }
/-- The release tag that a context's write leaves on the doublewords it touches, or none (R302). -/
def tagFor (core : CoreId) (ctx : CtxId) (launch : Option Nat) (rel : Option (BitVec 3)) (va : Word) : Option Tag :=
  rel.map fun sc => { core := core, ctx := ctx, scope := sc, page := BitVec.ofNat 42 (va.toNat / 2 ^ 14), launch := launch }
/-- The tag of a word of another package that comes with a reply: whether it has one, and whose, is open (R302). -/
def State.farTag (s : State) (d : Nat) : Option Tag :=
  let w := Config.freeWord s.tick (2 ^ 61 + d)
  if bit w 0 then
    some { core := BitVec.ofNat 13 (fld w 8 13), ctx := BitVec.ofNat 2 (fld w 4 2), scope := BitVec.ofNat 3 (fld w 24 3 % 7)
           page := BitVec.ofNat 42 (Config.pick s.tick (2 ^ 61 + d)), launch := none, time := s.mem.time
           pkg := if fld w 32 13 = s.pkg.toNat || bit w 1 then none else some (BitVec.ofNat 13 (fld w 32 13 % 4608)) }
  else none

/-! ## Traffic for launches -/

/-- The launch of a copied number while it is saved. -/
def State.savedLaunch (s : State) (l : Option Nat) : Option Launch :=
  l.bind fun l => s.launches.find? fun x => x.id = l && x.st = .saved
def State.setLaunch (s : State) (x : Launch) : State :=
  { s with launches := s.launches.map fun y => if y.id = x.id then x else y }
/-- Traffic for a launch that is saved is held for it (R351); else it enters the mesh. -/
def State.sendFor (s : State) (launch : Option Nat) (m : Flight) : State :=
  match s.savedLaunch launch with
  | some x => s.setLaunch { x with heldMsgs := x.heldMsgs ++ [m] }
  | none => { s with mesh := s.mesh ++ [m] }
def Core.countSent (x : Core) (n : Nat) : Core := { x with done := { x.done with sent := x.done.sent + n } }
/-- Launch messages are credited to a core's SENT (R272): in the saved done unit while their launch is saved (R351). -/
def State.countSent (s : State) (c : CoreId) (launch : Option Nat := none) (n : Nat := 1) : State :=
  match (s.savedLaunch launch).bind fun x => (Assoc.get? x.saved.cores c.toNat).map fun k => (x, k) with
  | some (x, k) => s.setLaunch { x with saved := { x.saved with cores := Assoc.put x.saved.cores c.toNat (k.countSent n) } }
  | none => s.setCore c ((s.core c).countSent n)
def State.countStarted (s : State) (c : CoreId) : State :=
  let x := s.core c
  s.setCore c { x with done := { x.done with started := x.done.started + 1 } }

/-! ## Acquiring and missing (R298 to R303) -/

/-- The acting context's later reads return no value older than a place in the write order (R300). -/
def State.acquired (s : State) (t : Nat) : State :=
  if t ≤ s.me.acqAt then s else s.setMe { s.me with acqAt := t }
/-- The place in this package's write order of what happens-before a release: another package's is behind every write here
that it had seen. -/
def Tag.upTo (t : Tag) (m : Memory) : Nat := if t.pkg.isSome then m.time else t.time

/-- The class-0 message of a miss goes to the releasing core (R303): one at a time for a doubleword and a releasing core; whether the
class-0 task of another package has started is open. The doubleword is named by its tag and bits 13:3 of the acquire's address; `need` is the scope that would have
included the acquirer, whose package and core `who` gives. -/
def State.reportMiss (s : State) (t : Tag) (word : BitVec 11) (v : Word) (need : Nat) (who : Word) (src : CoreId × CtxId)
    (counted : Bool) : State :=
  let va := BitVec.ofNat 64 (t.page.toNat * 2 ^ 14 + word.toNat * 8)
  let out := s.misses.contains (va, t.pkg, t.core)
  if out && (t.pkg.isNone || Config.choice s.tick (2 ^ 61 + 3)) then s else
  let s := if counted then s.countSent src.1 t.launch else s
  let key := match t.pkg with
    | none => (s.part (s.partOf t.core)).key.toNat
    | some _ => (Config.freeWord s.tick (2 ^ 61 + 1)).toNat % 2 ^ 16
  let m : Msg := ⟨mkSrc s.pkg src.1 src.2 1 0, mkDesc (t.pkg.getD s.pkg) t.core 0 63 3 key,
    #v[va, v, BitVec.ofNat 64 (need + t.scope.toNat * 16 + t.ctx.toNat * 256), who, 0, 0]⟩
  let s := s.sendFor t.launch { msg := m, notice := true, counted := counted, rels := [⟨t, none⟩] }
  if out then s else { s with misses := (va, t.pkg, t.core) :: s.misses }
/-- The acquirer of a miss as its message names it (R303). -/
def State.missBy (s : State) (q : Party) : Word := mkDesc (q.pkg.getD s.pkg) q.core 0 0 0 0

/-- An acquire of a scope meets a tag: it synchronises, or it misses, and then the acquirer is told and, where the
release was too narrow, the releasing core gets a class-0 message; of a word of another package (`far`) that package's router sends it
where the release's scope is the narrower one (R298, R302, R303, R377). One met only through a chain of atomics misses nothing
(R298). -/
def acquireTag (scope : Nat) (word : BitVec 11) (v : Word) (t : Tag) (chain : Bool) (s : State) (far : Bool := false) : State :=
  let me := partyOf s.cur.core
  let sync := s.acquired (t.upTo s.mem)
  if t.count then sync else
  let narrow := if t.host then scope ≠ 6 else !inScope scope me t.party
  let short := !t.host && !inScope t.scope.toNat t.party me
  if !narrow && !short then sync
  else if chain then s
  else
    let s := s.withCtl fun c => { c with syncst := c.syncst ||| (if narrow then 3 else 1) }
    if !short || (far && t.pkg.isSome && t.scope.toNat ≤ scope) then s
    else s.reportMiss t word v (needScope t.party me) (s.missBy me) (s.cur.core, s.cur.ctx)
      (t.launch.isSome && (s.me.task.bind (·.launch)) = t.launch)

/-- An acquire of domain or system scope drops every proxy read copy of the package (R293). -/
def State.dropProxies (s : State) (scope : Nat) : State :=
  if scope = 5 || scope = 6 then
    { s with mem := { s.mem with proxy := [], proxyTags := [], hearth := s.mem.hearth.filter fun r => r.line < 2 ^ 60 } }
  else s

/-! ## What a read returns (R144, R291, R300) -/

/-- A place of another package's memory. -/
def Place.isRemote : Place → Bool
  | .remote _ => true
  | _ => false

/-- A byte of another package's memory as its home answers: what this package wrote last, while no other has written it, which
is open (R144, R292). -/
def State.farByte (s : State) (a : Nat) : Byte :=
  let free := byteOf (Config.freeWord s.tick (a / 8)).toNat (a % 8)
  if Config.choice s.tick (2 ^ 60 + a / 8) then free else (Assoc.get? s.mem.far a).getD free
/-- A physical address in forge SRAM, of which no copy is kept (R281). -/
def isSramPa (a : Nat) : Bool := a / 2 ^ 48 % 8 = 3
/-- A byte of another package's memory that has been fetched: from its home, or from the read copy. -/
def State.fetchedByte (s : State) (a : Nat) : Byte :=
  if isSramPa a then s.farByte a else byteOf (Assoc.getD s.mem.proxy (a / 8) 0).toNat (a % 8)

/-- The older value that a read returns in place of a doubleword's current one, if it does: one that was replaced after
`since`, and after what the context has read of it already, and for an acquire one that its own core has not overwritten (R291,
R300). -/
def State.oldAt (s : State) (since : Nat) (p : Place) (m : Manner := {}) : Option Old :=
  p.word.bind fun w =>
    let past := Assoc.getD s.mem.past w []
    let mine := if m.acq then ((past.find? fun o => o.by_ = some s.cur.core).map (·.num)).getD 0 else 0
    let l := past.filter fun o => max mine (max since (Assoc.getD s.me.floor w 0)) < o.num
    let key := if m.split then 2 ^ 59 + w * 8 + (p.key.getD 0) % 8 else 2 ^ 58 + w
    if l.isEmpty then none else l[Config.pick s.tick key % (l.length + 1)]?
/-- The byte of memory that a core's read returns: by `since`, unless it reads what stands, perhaps an older one. -/
def State.memByte (s : State) (since : Option Nat) (p : Place) (m : Manner := {}) : Byte :=
  match p with
  | .remote a => s.fetchedByte a
  | p => match since.bind (s.oldAt · p m) with
    | some o => byteOf o.val.toNat ((p.key.getD 0) % 8)
    | none => readPlace s p m
/-- The number that the bytes of an access hold, read with the context's own stores over them (R144). -/
def readValue (s : State) (since : Option Nat) (ps : List Place) (m : Manner := {}) : Nat :=
  fromBytes (ps.map fun p => overlay s s.me.stores p (s.memByte since p m))
/-- A DRAM window whose value the reader sees is the other window's write: no release of this window comes with it (R157, R291). -/
def State.otherWindow (s : State) (p : Place) (m : Manner) : Bool :=
  match p.key, p.window.bind (Assoc.get? s.mem.stale) with
  | some k, some old => old ≠ s.mem.dword (k / 8) && !s.seesOld k m
  | _, _ => false
/-- The releases that a read of a doubleword meets: that of its write, and, marked so, those a chain of atomics before it
follows (R298, R302). -/
def State.met (s : State) (since : Option Nat) (p : Place) (m : Manner := {}) : List (Tag × Bool) :=
  let of_ (last : Option Tag) (chain : List Tag) : List (Tag × Bool) :=
    last.toList.map (·, false) ++ (chain.filter fun t => some t ≠ last).map (·, true)
  match since.bind (s.oldAt · p m), p with
  | some o, _ => of_ o.tag o.chain
  | none, .remote a => of_ (if isSramPa a then s.farTag (a / 8) else Assoc.get? s.mem.proxyTags (a / 8)) []
  | none, p => match p.key.bind fun _ => p.word with
    | some w => if s.otherWindow p m then [] else of_ (Assoc.get? s.mem.tags w) (Assoc.getD s.mem.chain w [])
    | none => []
/-- The doubleword of a place as a read returns it. -/
def State.seenWord (s : State) (since : Option Nat) (p : Place) (m : Manner := {}) : Word :=
  match since.bind (s.oldAt · p m), p with
  | some o, _ => o.val
  | none, .remote a => BitVec.ofNat 64 (fromBytes ((List.range 8).map fun i => s.fetchedByte (a / 8 * 8 + i)))
  | none, p =>
    let k := p.key.getD 0
    match p.window.bind (Assoc.get? s.mem.stale) with
    | some old => if s.seesOld k m then old else s.mem.dword (k / 8)
    | none => s.mem.dword (k / 8)
/-- A context that has read a doubleword reads no older value of it any more (R291). -/
def State.noteFloor (s : State) (since : Option Nat) (p : Place) (m : Manner := {}) : State :=
  match p.word with
  | none => s
  | some w =>
    if (Assoc.get? s.mem.past w).isNone then s else
    let to_ := match since.bind (s.oldAt · p m) with
      | some o => o.num - 1
      | none => s.mem.time
    s.setMe { s.me with floor := Assoc.put s.me.floor w (max to_ (Assoc.getD s.me.floor w 0)) }

/-- The ordering a read has: by its own acquire scope, or, for a plain read, by a later acquire fence (R296, R302). A counter
add of GET or PUT orders an acquire and an LDF, and the completion write of EGMRG an LDF within its scope (R299). A doubleword read from
the context's own stores has no tag. `stands`: an LDF or an atomic, which reads what stands. -/
def noteRead (acq : Option Nat) (pas : List Nat) (ps : List Place) (s : State) (stands ldf split : Bool := false) : State :=
  let since := if stands then none else some s.me.acqAt
  let m : Manner := { split := split, acq := acq.isSome }
  let own (p : Place) : Bool := s.me.stores.any fun st => (st.byteAt s p).isSome
  let at_ := (pas.zip ps).filter fun p => !own p.2
  let firsts := if split then at_
    else at_.foldl (fun l p => if l.any fun q => q.1 / 8 = p.1 / 8 then l else l ++ [p]) ([] : List (Nat × Place))
  let s1 := firsts.foldl (fun s p =>
    let word := BitVec.ofNat 11 (p.1 / 8)
    let v := s.seenWord since p.2 m
    (s.met since p.2 m).foldl (fun s t =>
      match acq with
      | some sc => acquireTag sc word v t.1 t.2 s p.2.isRemote
      | none =>
        if ldf && (t.1.count || (t.1.full && inScope t.1.scope.toNat t.1.party (partyOf s.cur.core))) then s.acquired (t.1.upTo s.mem)
        else
        let r : TaggedRead := { key := (p.2.key.getD p.1) / 8, tag := t.1, value := v, chain := t.2, word := word, far := p.2.isRemote }
        if s.me.tagged.contains r then s else s.setMe { s.me with tagged := s.me.tagged ++ [r] }) s) s
  let s2 := (if split then ps else wordsOf ps).foldl (fun s p => s.noteFloor since p m) s1
  match acq with
  | some sc => s2.dropProxies sc
  | none => s2
/-- A context has written doublewords: it reads no older value of them (R144, R291). -/
def State.wrote (s : State) (core : CoreId) (ctx : CtxId) (ps : List Place) : State :=
  let x := s.ctxAt core ctx
  let ws := ((wordsOf ps).filter fun p => p.key.isSome).filterMap (·.word)
  if ws.isEmpty then s else
  s.setCtxAt core ctx { x with floor := ws.foldl (fun f w => Assoc.put f w s.mem.time) x.floor }

/-! ## Lines that are not here -/

/-- What an access needs of a line of the host space or of another package: a read copy, for data or for a fetch, an LDF's word, or
the token or a performed access. -/
inductive Need where
  | copy | fetch | word | token
deriving DecidableEq, Repr
def Need.reads (n : Need) : Bool := n = .copy || n = .fetch

/-- An access to another package drops the read copies of its line (R292). -/
def dropLine (m : Memory) (pa : Nat) : Memory :=
  { m with
    proxy := m.proxy.filter fun p => p.1 / 8 ≠ pa / 64
    proxyTags := m.proxyTags.filter fun p => p.1 / 8 ≠ pa / 64
    hearth := m.hearth.filter fun r => r.line ≠ farLine (pa / 64) }
/-- A write on its way through a proxy slice drops the read copy and marks the line pending (R292); an acknowledgement takes
one mark back. -/
def Memory.markPending (m : Memory) (line : Nat) : Memory :=
  let m := dropLine m (line * 64)
  { m with pending := Assoc.put m.pending line (Assoc.getD m.pending line 0 + 1) }
def Memory.acked (m : Memory) (line : Nat) : Memory :=
  let n := Assoc.getD m.pending line 0
  if n = 0 then m else
  { m with pending := if n = 1 then Assoc.del m.pending line else Assoc.put m.pending line (n - 1) }

/-- A request of the acting context for a line. -/
def State.asks (s : State) (r : Request) (line : Nat) (host fetch : Bool) : Bool :=
  r.core = s.cur.core && r.ctx = s.cur.ctx && r.line = line && r.host = host && r.fetch = fetch
def State.request (s : State) (line : Nat) (host fetch : Bool) : Option Request :=
  s.requests.find? fun r => s.asks r line host fetch
def State.dropRequest (s : State) (line : Nat) (host fetch : Bool) : State :=
  if s.requests.isEmpty then s else { s with requests := s.requests.filter fun r => !s.asks r line host fetch }
/-- A request out for a write of another package's line that has not been answered keeps the line pending. -/
def Request.marks (r : Request) : Bool := r.own && !r.host && !r.ldf && r.ans = .waiting
/-- A request is answered, once (R402); a write that it stood for is acknowledged (R292). -/
def State.answer (s : State) (k : Nat) (a : Answer) : State :=
  match s.requests[k]? with
  | none => s
  | some r =>
    { s with requests := setAt s.requests k { r with ans := a }, mem := if r.marks then s.mem.acked r.line else s.mem }
/-- A request is answered as from an absent endpoint, whatever its own reply does: that will be a late one (R402). -/
def State.giveUp (s : State) (k : Nat) : State := { s.answer k .absent with late := s.late + 1 }
/-- Requests of parties that are gone are given up; replies to them are late (R402). -/
def State.cutRequests (s : State) (gone : Request → Bool) : State :=
  let cut := s.requests.filter fun r => gone r && r.marks
  { s with
    requests := s.requests.filter fun r => !gone r, mem := cut.foldl (fun m r => m.acked r.line) s.mem
    late := s.late + (s.requests.filter fun r => gone r && (r.ans = .waiting || r.ans = .empty)).length }

/-- A host line comes to the package as a read copy or with the token: what the host's memory holds is open, and so is
which of its doublewords the host wrote itself (R375, R377). -/
def State.fillHost (s : State) (line : Nat) (own : Bool) : State :=
  match Assoc.get? s.mem.hostLines line with
  | some x => { s with mem := { s.mem with hostLines := Assoc.put s.mem.hostLines line (x || own) } }
  | none =>
    let m := (s.mem.forget fun d => d / 8 = line)
    let m := ((List.range 8).map (line * 8 + ·)).foldl (fun m d =>
      let m := m.setBytes ((List.range 8).map fun j => (8 * d + j, byteOf (Config.freeWord s.tick d).toNat j))
      let byHost := bit (Config.freeWord s.tick (2 ^ 62 + d)) 0
      { m with poison := delKey d m.poison
               tags := if byHost then Assoc.put m.tags (2 * d) { hostTag with time := m.time } else m.tags }) m
    { s with mem := { m with hostLines := Assoc.put m.hostLines line own } }

/-- A read copy of another package's line of DRAM at its proxy slice, with the tags of its doublewords (R292, R302); none while writes
of the line are not acknowledged. -/
def fillProxy (line : Nat) (s : State) : State :=
  if Assoc.getD s.mem.pending line 0 ≠ 0 || isSramPa (line * 64) then s else
  let ds := (List.range 8).map (line * 8 + ·)
  let s1 := s.reside (farLine line) (BitVec.ofNat 7 (proxySlice line)) false
  { s1 with mem := ds.foldl (fun m d =>
      { m with
        proxy := Assoc.put m.proxy d (BitVec.ofNat 64 (fromBytes ((List.range 8).map fun i => s.farByte (8 * d + i))))
        far := if Config.choice s.tick (2 ^ 60 + d) then m.far.filter fun c => c.1 / 8 ≠ d else m.far
        proxyTags := match s.farTag d with
          | some t => Assoc.put m.proxyTags d t
          | none => Assoc.del m.proxyTags d }) s1.mem }
/-- A line of the host space or of another package is requested and waited for (R292, R375), by a flit where it goes into the
fabric (R381); the answer may be an absent endpoint or a refusal by the windows (R385, R402). An LDF of a word that its home
finds empty parks (R148). A line of another package's SRAM is not kept (R281). -/
def needLine (p : Place) (need : Need) (s : State) (k : State → Res) : Res :=
  let ft := decide (need = .fetch)
  let send (line : Nat) (host : Bool) : Res :=
    let r : Request := { core := s.cur.core, ctx := s.cur.ctx, line := line, own := need = .token, host := host
                         since := s.now, ldf := need = .word, fetch := ft }
    let out : List Nat := if host then [] else [line * 64]
    if !s.flitsReady 0 out then .wait .interlock s else
    let s := s.putFlits 0 out
    .wait .reply { s with
      requests := s.requests ++ [r], mem := if r.marks then s.mem.markPending line else s.mem }
  match p with
  | .remote pa =>
    let line := pa / 64
    let kept : Bool := !isSramPa pa
    match s.request line false ft with
    | some r =>
      match r.ans with
      | .waiting => .wait .reply s
      | .empty => .wait (.ldfFar line) s
      | .absent => .trap (busError 2) (s.dropRequest line false ft)
      | .refused => .trap (busError 5) (s.dropRequest line false ft)
      | .granted =>
        if need.reads && !kept && !r.own && !r.ldf then k s
        else if (need = .token && r.own) || (need = .word && r.ldf)
            || (need.reads && kept && (Assoc.get? s.mem.proxy (pa / 8)).isSome)
        then k (s.dropRequest line false ft)
        else .wait .interlock (s.dropRequest line false ft)
    | none =>
      if need = .token then send line false
      else if Assoc.getD s.mem.pending line 0 ≠ 0 then .wait .interlock s
      else if need.reads && kept && (Assoc.get? s.mem.proxy (pa / 8)).isSome then k s
      else send line false
  | .host key =>
    let line := key / 64
    let have_ : Bool := match Assoc.get? s.mem.hostLines line with
      | none => false
      | some x => x || need.reads
    if have_ then k (s.dropRequest line true ft) else
    match s.request line true ft with
    | none => send line true
    | some r =>
      match r.ans with
      | .absent => .trap (busError 2) (s.dropRequest line true ft)
      | .refused => .trap (busError 5) (s.dropRequest line true ft)
      | .granted => .wait .interlock (s.dropRequest line true ft)
      | _ => .wait .reply s
  | _ => k s
/-- An access or a fetch that has been made leaves no answer for a line of which no copy is kept. -/
def State.dropAnswers (s : State) (fetch : Bool) : State :=
  let done (r : Request) : Bool := r.core = s.cur.core && r.ctx = s.cur.ctx && !r.host && r.fetch = fetch
    && r.ans = .granted && isSramPa (r.line * 64)
  if s.requests.any done then { s with requests := s.requests.filter fun r => !done r } else s

/-- The first place of each line of the host space or of another package that an access touches. -/
def farLines (ps : List Place) : List Place :=
  (ps.filter fun p => match p with
    | .remote _ => true
    | .host _ => true
    | _ => false).foldl (fun l p => if l.any fun q => sameLine p q then l else l ++ [p]) []
where
  sameLine : Place → Place → Bool
    | .remote a, .remote b => a / 64 = b / 64
    | .host a, .host b => a / 64 = b / 64
    | _, _ => false
/-- Every such line is here before the access goes on. -/
def needLines (l : List Place) (need : Need) (s : State) (k : State → Res) : Res :=
  match l with
  | [] => k s
  | p :: t => needLine p need s fun s => needLines t need s k

/-! ## Accesses -/

/-- The classes of access by which spaces accept them (R141). -/
inductive Kind where
  | plain | word | bank
deriving DecidableEq, Repr
/-- The space of a physical address accepts an access of `n` bytes of a class (R141). -/
def spaceAccepts (pa va n : Nat) (k : Kind) : Bool :=
  match pa / 2 ^ 48 % 8 with
  | 2 => false
  | 3 => k ≠ .bank
  | 4 => k = .plain
  | 5 => k = .plain && (n = 4 || n = 8) && va % n = 0
  | _ => true
/-- A place accepts an access of a class (R141); device registers are handled apart. -/
def Place.accepts (p : Place) (k : Kind) : Bool :=
  match p, k with
  | .dram _ _, _ => true
  | .sram _, .bank => false
  | .sram _, _ => true
  | .host _, .plain => true
  | .remote pa, .bank => pa / 2 ^ 48 % 8 ≠ 3
  | .remote _, _ => true
  | _, _ => false
def Place.isSram : Place → Bool
  | .sram _ => true
  | .remote pa => isSramPa pa
  | _ => false
def Place.isDevice : Place → Bool
  | .device _ => true
  | _ => false

/-- The doubleword of a place is poisoned (R396). -/
def State.poisoned (s : State) (p : Place) : Bool :=
  match p.key with
  | none => false
  | some k => s.mem.poison.contains (k / 8)

/-- The places of an access's bytes, or the INFO of the first bus error. -/
def placesOf (s : State) (hkey : BitVec 16) : List Nat → Except Nat (List Place)
  | [] => .ok []
  | pa :: t =>
    match place s hkey pa with
    | .error e => .error e
    | .ok p =>
      match placesOf s hkey t with
      | .error e => .error e
      | .ok l => .ok (p :: l)

/-- A core access of `n` bytes is translated and checked, first by what its spaces accept; `k` receives the physical addresses and the
places. A load, atomic or LDF meets an absent endpoint as a trap (R141); `posted` writes go on and are refused later (R163). `hold`: what
orders the access is still to come. One made at the word waits for the context's own stores to it. -/
def access (va : Word) (n : Nat) (acc : Acc) (kind : Kind) (scope : Nat) (posted : Bool) (need : Need) (s : State)
    (k : List Nat → List Place → Nat → State → Res) (hold : Bool := false) : Res :=
  let x := s.me
  match translateSpan s (.data s.cur.core) x.ctl.ptroot va n acc x.ctl.priv with
  | .error t => .trap t s
  | .ok (pa, pa2, s1) =>
    let pas := spanPas va.toNat n pa pa2
    let mayTake (n : Nat) : Bool := need = .token && s1.holdsBack (some s.cur.core) n
    if !(pas.all fun pa => spaceAccepts pa va.toNat n kind) then .trap (busError 1) s
    else if scope = 6 && pas.any isSramPa then .trap ⟨0x03, some 0, none⟩ s
    else
    match placesOf s1 x.ctl.hkey pas with
    | .error e => if posted && (e = 2 || e = 5) then k pas [] pa2 s1 else .trap (busError e) s
    | .ok ps =>
      if ps.all (·.isDevice) then k pas ps pa2 s1
      else if posted then
        if kind = .bank && ps.any s1.poisoned then .trap (busError 6) s else k pas ps pa2 s1
      else if hold || ps.any s1.blocked || (need ≠ .copy && x.stores.any fun st => st.meets s1 ps) || (linesOf ps).any mayTake then .wait .interlock s
      else if acc ≠ .write && ps.any s1.poisoned then .trap (busError 6) s
      else match ps.findSome? fun p => s1.askFor (some s.cur.core) (need = .token) p with
        | some l => .wait .interlock (s1.ask (need = .token) l)
        | none => needLines (farLines ps) need s1 fun s2 => k pas ps pa2 (s2.dropAnswers false)

/-- A message on its way into the spill block (R169). -/
def Store.isSpill (st : Store) : Bool :=
  match st.kind with
  | .spill _ _ _ => true
  | _ => false
/-- A store enters the store buffer (R161, R296): with its release scope, and after what a fence before it covers. -/
def bufferStore (va : Word) (n : Nat) (val : Vec) (kind : StoreKind) (rel : Option (BitVec 3)) (pa pa2 : Nat)
    (s : State) : Res :=
  let x := s.me
  if 16 ≤ (x.stores.filter fun st => !st.isSpill).length then .wait .interlock s else
  let upTo := if rel.isSome then x.serial else x.fenceUpTo
  .ok .own (s.setMe { x with serial := x.serial + 1
                             stores := x.stores ++ [⟨x.serial, va, pa, n, val, kind, widest rel x.relScope, upTo, pa2,
                               x.ctl.priv, x.ctl.hkey, x.task.bind (·.launch)⟩] })

/-- Bytes of a core's own performed write at its places: the lines go to state X (R289), and a write to another package
drops the proxy copy and makes its line pending (R292). -/
def writeThrough (core : CoreId) (ctx : CtxId) (w : List (Place × Byte)) (t : Option Tag) (s : State) : State :=
  let ps := w.map (·.1)
  let far := ((remotePas ps).map (· / 64)).eraseDups
  let s := ((linesOf ps).foldl (fun s n => s.takeToken core n) s).putFlits 0 (remotePas ps)
  let m := far.foldl (fun m l => m.markPending l) s.mem
  { s with mem := writeBytes m w t false (some core) }.wrote core ctx ps

/-! ## Stores performed (R289) -/

/-- The bytes of a store with their places. -/
def Store.bytes (st : Store) (ps : List Place) : List (Place × Byte) := ps.zip (toBytes st.val.toNat st.size)
/-- The bytes of a misaligned access in an order that is open (R142). -/
def anyOrder {α : Type} (tick : Nat) (l : List α) : List α :=
  (l.zipIdx.foldl (fun (o : List α) b => o.insertIdx (Config.pick tick (2 ^ 53 + b.2) % (o.length + 1)) b.1) [])
/-- A store that spans two lines, as its parts on each; it is misaligned, so they may be made one by one (R142, R289). -/
def Store.parts (st : Store) : List Store :=
  let o := st.va.toNat % 2 ^ 14
  let n := 64 - o % 64
  if st.size ≤ n then [st] else
  [{ st with size := n },
   { st with va := st.va + BitVec.ofNat 64 n, size := st.size - n, val := st.val >>> (8 * n)
             pa := if o + n < 2 ^ 14 then st.pa + n else st.pa2, pa2 := 0 }]
/-- The store is made at its places: bytes, tag, token, and the full-empty bit of STF and STE (R146, R289, R302); a misaligned one
byte by byte (R142). -/
def performStore (core : CoreId) (ctx : CtxId) (st : Store) (ps : List Place) (s : State) : State :=
  let tag := tagFor core ctx st.launch st.rel st.va
  let s := if st.va.toNat % st.size = 0 then writeThrough core ctx (st.bytes ps) tag s
    else (anyOrder s.tick (st.bytes ps)).foldl (fun s b => writeThrough core ctx [b] tag s) s
  match st.kind with
  | .plain => s
  | .setFull => { s with mem := setFulls s.mem (keysOf ps) true }
  | .setEmpty => { s with mem := setFulls s.mem (keysOf ps) false }
  | .spill _ _ _ => s
/-- A store leaves the buffer of its context. -/
def State.dropStore (s : State) (core : CoreId) (ctx : CtxId) (k : Nat) : State :=
  let x := s.ctxAt core ctx
  s.setCtxAt core ctx { x with stores := dropAt x.stores k }
/-- The acting context's stores are all performed now, in order, where nothing keeps one: what a unit of the core does that is
a release and does not wait (R169, R332). -/
def drainOwn : Nat → State → Option State
  | 0, s => if s.me.stores.isEmpty then some s else none
  | n + 1, s =>
    match s.me.stores with
    | [] => some s
    | st :: _ =>
      if st.isSpill then none else
      match placesOf s st.hkey st.pas with
      | .error _ => none
      | .ok ps =>
        let near (p : Place) : Bool := match p with
          | .dram _ _ => true
          | .sram _ => true
          | _ => false
        if ps.all near && !(ps.any s.blocked) && !((linesOf ps).any (s.holdsBack (some s.cur.core)))
            && (ps.findSome? (s.askFor (some s.cur.core) true)).isNone then
          drainOwn n ((performStore s.cur.core s.cur.ctx st ps s).dropStore s.cur.core s.cur.ctx 0)
        else none

/-! ## Fetching (R69) -/

/-- A trap names an address where one is given. -/
def Res.withAddr (r : Res) (a : Option Word) : Res :=
  match r, a with
  | .trap t s, some a => .trap { t with addr := some a } s
  | r, _ => r
/-- A halfword at an address, or the trap of its fetch. A fetch may return what an IFENCE since would not (R158), and leaves a
read copy in the core's L1I (R288). A bus error gives its address where it meets the second halfword. -/
def fetchHalf (s : State) (va : Word) (second : Bool := false) : Res ⊕ (Nat × State) :=
  let x := s.me
  let at_ := if second then some va else none
  match translate s (.fetch s.cur.core) x.ctl.ptroot va .fetch x.ctl.priv with
  | .error t => .inl (.trap t s)
  | .ok (pa, s1) =>
    if !spaceAccepts pa 0 2 .plain then .inl (.trap (busError 1 at_) s) else
    match placesOf s1 x.ctl.hkey [pa, pa + 1] with
    | .error e => .inl (.trap (busError e at_) s)
    | .ok ps =>
      if ps.any s1.blocked then .inl (.wait .interlock s) else
      if ps.any s1.poisoned then .inl (.trap (busError 6 at_) s) else
      match ps.findSome? fun p => s1.askFor (some s.cur.core) false p with
      | some l => .inl (.wait .interlock (s1.ask false l))
      | none =>
        match (needLine (ps.headD .ways) .fetch s1 fun s2 => .ok .own s2).withAddr at_ with
        | .ok _ s2 =>
          let since := some s2.me.fetchAt
          let v := fromBytes (ps.map fun p => s2.memByte since p)
          let s3 := (wordsOf ps).foldl (fun s p => s.noteFloor since p) s2
          .inr (v, (linesOf ps).foldl (fun s n => s.fetchLine s.cur.core n) s3)
        | r => .inl r

end Sys2Proof.Machine
end

