-- ==== Sys2Proof/Machine/Device.lean ====
section
/-! DEFINITION. Reading the device registers (R141): FRGROLE (R278), the launch queues (R344), FIXBELL and the zeroing
registers (R366, R368), PKGID and the inbound windows (R378, R384), the island's block, the black-box record, the start
record and the attestation window (R400, R405 to R409), and PWRLIM (R398). -/

namespace Sys2Proof.Machine

/-- What the PCIe function presents (R373, R374): its class code, a processing accelerator; the type that its CXL DVSEC
capabilities name; the bytes of BAR0; and its MSI-X vectors, one for each launch queue and one for device events. -/
def pcieClass : BitVec 24 := 0x120000
def cxlType : Nat := 2
def bar0Bytes : Nat := 2 ^ 32
def msixVectors : Nat := 1025

/-- Who a context's access of a device register comes from (R278, R344). -/
def State.writer (s : State) (core : CoreId) (priv : BitVec 1) : Writer :=
  if priv = 0 then .user else .supervisor (s.partOf core)

/-- A doubleword as a unit outside the cores reads it for an issuer, on a fresh walk (R358). -/
def peek (s : State) (i : Issuer) (va : Nat) : Option Word :=
  if 2 ^ 56 ≤ va then none else
  match walk s i.root va with
  | .leaf l e =>
    if !allowed e .read i.priv then none else
    match readDword s [] i.hkey (ptePa e + va % pageSize l) with
    | .ok w => some w
    | .error _ => none
  | _ => none
/-- STATE of a fix-up entry of a block (R364). -/
def fixState (s : State) (i : Issuer) (block : Word) (idx : Nat) : Nat :=
  match peek s i (block.toNat + 64 + 16 * idx) with
  | some w => fld w 4 3
  | none => 1
/-- The descriptor that holds a handle's fix-up entries, with the party that reaches it: the configured one, or that of the
EGCFG whose turn it is (R364). -/
def Heap.fixBlock (h : Heap) : Option (Issuer × Word) :=
  match h.conf with
  | some c => some (c.iss, c.desc)
  | none => h.ops.findSome? fun o => match o.kind with
    | .cfg d => if d = 0 then none else some (o.iss, d)
    | _ => none
/-- Entries in state 001 or 010 for commands issued on a die (R366). -/
def State.pend (s : State) (d : Nat) : Nat :=
  let count (i : Issuer) (block : Word) (fixes : List Fixup) : Nat :=
    (fixes.filter fun f => let st := fixState s i block f.idx; (dieOf f.who).toNat = d && (st = 1 || st = 2)).length
  ((s.xfers.filter fun x => x.st ≠ .complete).map fun x => count x.iss x.block x.fixes).sum
    + (s.heaps.map fun h => match h.2.fixBlock with
        | some c => count c.1 c.2 h.2.fixes
        | none => 0).sum

/-- PKGID (R378). -/
def Island.pkgid (i : Island) : Word :=
  let p := i.x.toNat + 16 * i.y.toNat + 256 * i.z.toNat
  if i.pkgValid then
    BitVec.ofNat 64 (2 ^ 63 + i.z.toNat * 2 ^ 24 + i.y.toNat * 2 ^ 20 + i.x.toNat * 2 ^ 16 + p)
  else 0
/-- ISTATE (R400). -/
def State.istate (s : State) : Word :=
  let mask (l : List Bool) : Nat := l.foldr (fun b a => (if b then 1 else 0) + 2 * a) 0
  let st := match s.island.st with
    | .joined => 2
    | .fencedOne => 3
    | _ => 1
  BitVec.ofNat 64 (st + mask (s.dies.toList.map (·.joined)) * 2 ^ 8 + mask (s.dies.toList.map (·.fenced)) * 2 ^ 12
    + mask (s.links.toList.map (·.up)) * 2 ^ 16)
/-- The SMBus target of the island at 0x4C, as the board controller reads it while the island is up (R397): ISTATE, the four die
temperatures and the four die power figures, which are measured. -/
def State.smbusRead (s : State) (address : BitVec 7) : Option (Word × List Word × List Word) :=
  if address = 0x4C && s.islandUp then
    let figures (n : Nat) : List Word := (List.range 4).map fun d => Config.freeWord s.tick (2 ^ 52 + n + d)
    some (s.istate, figures 0, figures 4)
  else none
/-! ### The start record (R407) -/

/-- The outcome of a step when it ran last, 0 when it never did. -/
def Island.lastOutcome (i : Island) (step : Nat) : Byte :=
  ((i.starts.toList.map fun e => (e[step]?).getD 0).find? (· ≠ 0)).getD 0
/-- The step failed when it ran last. -/
def Island.failed (i : Island) (step : Nat) : Bool := i.lastOutcome step = 2 || i.lastOutcome step = 5
/-- BBCTL (R406). -/
def Island.bbctl (i : Island) : Word :=
  BitVec.ofNat 64 ((if i.frozen then 2 ^ 63 else 0) + i.trigen.toNat * 2 ^ 24 + (if i.wrap then 2 ^ 17 else 0)
    + i.next.toNat)
/-- One of the four doublewords of a black-box record (R405). -/
def BbRecord.part (r : BbRecord) (k : Nat) : Word :=
  match k with
  | 0 => r.time
  | 1 => BitVec.ofNat 64 (r.kind.toNat + r.src.toNat * 2 ^ 8 + r.core.toNat * 2 ^ 16 + r.aux.toNat * 2 ^ 32)
  | 2 => r.data0
  | _ => r.data1
/-- Eight bytes of a list as a doubleword; bytes past its end read 0. -/
def listDword (l : List Byte) (o : Nat) : Word := BitVec.ofNat 64 (fromBytes ((l.drop o).take 8))
/-- A launch queue's registers by their offset (R344). -/
def LaunchQ.reg (q : LaunchQ) (o : Nat) : Word :=
  match o with
  | 0x00 => q.lqbase
  | 0x08 => q.lqctl
  | 0x10 => q.lqtail
  | 0x18 => q.lqhead
  | 0x20 => q.cqbase
  | 0x28 => q.cqctl
  | 0x30 => q.cqtail
  | _ => q.cqhead

/-- The die whose register an offset names, where a die holds it (R278, R366, R398). -/
def deviceDie (o : Nat) : Option Nat :=
  if 0x01000000 ≤ o && o < 0x01400000 then some (forgeDie ((o - 0x01000000) / 0x1000))
  else if 0x03000000 ≤ o && o < 0x03004000 then some ((o - 0x03000000) / 0x1000)
  else if 0x08000000 ≤ o && o < 0x08004000 then some ((o - 0x08000000) / 0x1000)
  else none
/-- A device register whose die, or the island itself, does not answer (R402). -/
def State.deviceAbsent (s : State) (o : Nat) : Bool :=
  match deviceDie o with
  | some d => !s.dieUp d
  | none => 0x04000000 ≤ o && o < 0x08000000 && !s.islandUp

/-- A device register as a party reads it; an offset that names none reads 0 (R141), and so do the SV fields at user
privilege (R1, R278). -/
def deviceRead (s : State) (off : Nat) (who : Writer) : Word :=
  let i := s.island
  let sv (w : Word) : Word := if who = .user then 0 else w
  if 0x01000000 ≤ off && off < 0x01400000 then
    if off % 0x1000 = 0 && who ≠ .user then (s.forge (BitVec.ofNat 10 ((off - 0x01000000) / 0x1000))).role else 0
  else if 0x02000000 ≤ off && off < 0x02010000 then
    let w := (s.queue (BitVec.ofNat 10 ((off - 0x02000000) / 0x40))).reg (off % 0x40)
    if [0x00, 0x08, 0x20, 0x28].contains (off % 0x40) then sv w else w
  else if 0x03000000 ≤ off && off < 0x03004000 then
    let d := (off - 0x03000000) / 0x1000
    let x := s.die (BitVec.ofNat 2 d)
    match off % 0x1000 with
    | 0x00 => sv (BitVec.ofNat 64 (s.pend d))
    | 0x08 => sv x.fzreq
    | 0x10 => x.fzacc
    | 0x18 => x.fzdone
    | _ => 0
  else if off = 0x04000000 then i.pkgid
  else if 0x04000100 ≤ off && off < 0x04000200 then
    match i.fwin[(off - 0x04000100) / 16]? with
    | some w => sv (if off % 16 = 0 then w.1 else w.2)
    | none => 0
  else if off = 0x05000000 then s.istate
  else if off = 0x05000010 then i.orphcnt
  else if off = 0x05000018 then i.devevt.setWidth 64
  else if off = 0x05000020 then
    if who = .user then { i with trigen := 0 }.bbctl else i.bbctl
  else if 0x05001000 ≤ off && off < 0x05001020 then (i.nonce[(off - 0x05001000) / 8]?).getD 0
  else if off = 0x05001028 then if i.ready then 1 else 0
  else if 0x05002000 ≤ off && off < 0x05002450 then listDword i.report (off - 0x05002000)
  else if 0x06000000 ≤ off && off < 0x06400000 then
    match Assoc.get? i.records ((off - 0x06000000) / 32) with
    | some r => r.part (off % 32 / 8)
    | none => 0
  else if 0x07000000 ≤ off && off < 0x07000200 then
    match i.starts[(off - 0x07000000) / 64]? with
    | some e => listDword e.toList (off % 64)
    | none => 0
  else if 0x08000000 ≤ off && off < 0x08004000 then
    if off % 0x1000 = 0 then (s.die (BitVec.ofNat 2 ((off - 0x08000000) / 0x1000))).pwrlim.setWidth 64 |> sv else 0
  else 0

/-- A write of the addressed half keeps the other half (R141). -/
def mergeHalf (old : Word) (off n : Nat) (v : Word) : Word :=
  if n = 8 then v else insertBits old (8 * (off % 8)) 32 (v.toNat % 2 ^ 32)

end Sys2Proof.Machine
end

