-- ==== Sys2Proof/Machine/Flags.lean ====
section
/-! DEFINITION. The sticky floating-point flags (R41, R42) and the rounding control of cr.frm and cr.rseed (R32, R33,
R36). -/

namespace Sys2Proof.Machine

/-- Flag bits of cr.fflags (R41). -/
abbrev FFlags := BitVec 5
def flagNV : FFlags := 16
def flagDZ : FFlags := 8
def flagOF : FFlags := 4
def flagUF : FFlags := 2
def flagNX : FFlags := 1
/-- Flags are ORed in (R41). -/
def Ctl.addFlags (c : Ctl) (f : FFlags) : Ctl := { c with fflags := c.fflags ||| f }
def State.addFlags (s : State) (f : FFlags) : State := s.withCtl fun c => c.addFlags f

/-- Rounding modes (R32). -/
inductive Rnd where
  | rne | rtz | rdn | rup | rmm | sr
deriving DecidableEq, Repr
/-- The mode of a code 000 to 101 (R32). -/
def rndOf (m : Nat) : Rnd :=
  match m with
  | 0 => .rne
  | 1 => .rtz
  | 2 => .rdn
  | 3 => .rup
  | 4 => .rmm
  | _ => .sr
/-- MODE and OVN of cr.frm (R33). -/
def Ctl.mode (c : Ctl) : Rnd := rndOf (fld c.frm 0 3)
def Ctl.ovn (c : Ctl) : Bool := bit c.frm 3
/-- The mode of an arithmetic instruction's rm field: DYN reads cr.frm, and SR there rounds as RNE (R32). -/
def arithMode (c : Ctl) (rm : BitVec 3) : Rnd :=
  let m := if rm = 7 then c.mode else rndOf rm.toNat
  if m = .sr then .rne else m
/-- The mode of a conversion's rm field (R32). -/
def convMode (c : Ctl) (rm : BitVec 3) : Rnd := if rm = 7 then c.mode else rndOf rm.toNat

/-- One draw of the xorshift32 generator: the next state; the random word is its top half (R36). -/
def draw (x : BitVec 32) : BitVec 32 :=
  let x := x ^^^ (x <<< 13)
  let x := x ^^^ (x >>> 17)
  x ^^^ (x <<< 5)
def drawWord (x : BitVec 32) : Nat := x.toNat / 65536

end Sys2Proof.Machine
end

