-- ==== Sys2Proof/Machine/Float.lean ====
section
/-! DEFINITION. Floating-point formats (R25 to R27), exact values, rounding and its edges (R32 to R45). -/

namespace Sys2Proof.Machine

/-! ## Formats -/

/-- What a format has at its top exponent code (R26). -/
inductive Specials where
  | ieee | nanOnly | none
deriving DecidableEq, Repr
/-- A floating-point format (R25). -/
structure Fmt where
  width : Nat
  exp : Nat
  mant : Nat
  bias : Nat
  spec : Specials
deriving DecidableEq, Repr

def f64 : Fmt := ⟨64, 11, 52, 1023, .ieee⟩
def f32 : Fmt := ⟨32, 8, 23, 127, .ieee⟩
def bf16 : Fmt := ⟨16, 8, 7, 127, .ieee⟩
def f16 : Fmt := ⟨16, 5, 10, 15, .ieee⟩
def e5m2 : Fmt := ⟨8, 5, 2, 15, .ieee⟩
def e4m3 : Fmt := ⟨8, 4, 3, 7, .nanOnly⟩
def e2m1 : Fmt := ⟨4, 2, 1, 1, .none⟩
/-- The format of a type code 0 to 6 (R67). -/
def fmtOf (t : Nat) : Fmt :=
  match t with
  | 0 => f64 | 1 => f32 | 2 => bf16 | 3 => f16 | 4 => e5m2 | 5 => e4m3 | _ => e2m1

/-- A floating-point value: zero, ±m × 2^e with m > 0, infinity, or a NaN with its mantissa bits. -/
inductive Num where
  | zero (neg : Bool)
  | fin (neg : Bool) (m : Nat) (e : Int)
  | inf (neg : Bool)
  | nan (neg : Bool) (mant : Nat) (signalling : Bool)
deriving DecidableEq, Repr

/-- Exponent of the smallest normal (R25). -/
def Fmt.emin (f : Fmt) : Int := 1 - f.bias
/-- Largest finite magnitude as mantissa and quantum exponent (R25). -/
def Fmt.maxM (f : Fmt) : Nat := if f.spec = .nanOnly then 2 ^ (f.mant + 1) - 2 else 2 ^ (f.mant + 1) - 1
def Fmt.maxE (f : Fmt) : Int :=
  ((2 : Int) ^ f.exp - (if f.spec = .ieee then 2 else 1)) - f.bias - f.mant
/-- The bits of a sign. -/
def Fmt.signBit (f : Fmt) (neg : Bool) : Nat := if neg then 2 ^ (f.width - 1) else 0
/-- The value that bits hold (R25, R26). -/
def Fmt.decode (f : Fmt) (x : Nat) : Num :=
  let neg := x.testBit (f.width - 1)
  let e := nbits x f.mant f.exp
  let m := nbits x 0 f.mant
  let top := 2 ^ f.exp - 1
  if e = 0 then (if m = 0 then .zero neg else .fin neg m (f.emin - f.mant))
  else if f.spec = .ieee && e = top then
    (if m = 0 then .inf neg else .nan neg m (!m.testBit (f.mant - 1)))
  else if f.spec = .nanOnly && e = top && m = 2 ^ f.mant - 1 then .nan neg m false
  else .fin neg (2 ^ f.mant + m) (e - f.bias - f.mant)
/-- The default NaN (R38). -/
def Fmt.defNan (f : Fmt) : Nat :=
  match f.spec with
  | .ieee => (2 ^ f.exp - 1) * 2 ^ f.mant + 2 ^ (f.mant - 1)
  | .nanOnly => 2 ^ (f.width - 1) - 1
  | .none => 0
def Fmt.infBits (f : Fmt) (neg : Bool) : Nat := f.signBit neg + (2 ^ f.exp - 1) * 2 ^ f.mant
/-- The largest finite value's bits. -/
def Fmt.maxBits (f : Fmt) (neg : Bool) : Nat :=
  f.signBit neg + match f.spec with
    | .ieee => (2 ^ f.exp - 1) * 2 ^ f.mant - 1
    | .nanOnly => 2 ^ (f.width - 1) - 2
    | .none => 2 ^ (f.width - 1) - 1
/-- A NaN of the format itself, quieted, sign and payload kept (R38). -/
def Fmt.quiet (f : Fmt) (neg : Bool) (m : Nat) : Nat :=
  match f.spec with
  | .ieee => f.infBits neg + (if m.testBit (f.mant - 1) then m else m + 2 ^ (f.mant - 1))
  | _ => f.signBit neg + (2 ^ (f.width - 1) - 1)
def Num.isNan : Num → Bool
  | .nan _ _ _ => true
  | _ => false
def Num.isSnan : Num → Bool
  | .nan _ _ s => s
  | _ => false
def Num.isInf : Num → Bool
  | .inf _ => true
  | _ => false
def Num.isZero : Num → Bool
  | .zero _ => true
  | _ => false
def Num.neg : Num → Bool
  | .zero s => s
  | .fin s _ _ => s
  | .inf s => s
  | .nan s _ _ => s
def Num.negate : Num → Num
  | .zero s => .zero (!s)
  | .fin s m e => .fin (!s) m e
  | .inf s => .inf (!s)
  | .nan s m q => .nan s m q

/-! ## Exact values -/

/-- A dyadic number k × 2^e. -/
structure Dyad where
  k : Int
  e : Int
deriving DecidableEq, Repr
def Dyad.zero : Dyad := ⟨0, 0⟩
def Dyad.add (a b : Dyad) : Dyad :=
  let e := min a.e b.e
  ⟨a.k * 2 ^ (a.e - e).toNat + b.k * 2 ^ (b.e - e).toNat, e⟩
def Dyad.neg (a : Dyad) : Dyad := ⟨-a.k, a.e⟩
def Dyad.sub (a b : Dyad) : Dyad := a.add b.neg
def Dyad.mul (a b : Dyad) : Dyad := ⟨a.k * b.k, a.e + b.e⟩
def Dyad.lt (a b : Dyad) : Bool := decide ((a.sub b).k < 0)
/-- The exact value of a finite number. -/
def Num.dyad : Num → Dyad
  | .fin s m e => ⟨if s then -(m : Int) else m, e⟩
  | _ => .zero
def Dyad.toNum (a : Dyad) (zeroNeg : Bool) : Num :=
  if a.k = 0 then .zero zeroNeg else .fin (a.k < 0) a.k.natAbs a.e

/-! ## Rounding (R32 to R37, R43, R44) -/

/-- Whether the discarded bits `rem` of `sh` bits round the magnitude away from zero (R32, R35). -/
def roundsUp (mode : Rnd) (neg : Bool) (hi rem sh r : Nat) : Bool :=
  match mode with
  | .rtz => false
  | .rdn => neg && rem ≠ 0
  | .rup => !neg && rem ≠ 0
  | .rmm => 2 ^ sh ≤ 2 * rem && rem ≠ 0
  | .rne => 2 ^ sh < 2 * rem || (2 ^ sh = 2 * rem && hi % 2 = 1 && rem ≠ 0)
  | .sr => 65536 ≤ (if 16 ≤ sh then rem / 2 ^ (sh - 16) else rem * 2 ^ (16 - sh)) + r
/-- m × 2^e rounded to a multiple of 2^q: the multiple, and whether it is inexact. -/
def roundAt (mode : Rnd) (neg : Bool) (m : Nat) (e q : Int) (r : Nat) : Nat × Bool :=
  if q ≤ e then (m * 2 ^ (e - q).toNat, false) else
  let sh := (q - e).toNat
  let hi := m / 2 ^ sh
  let rem := m % 2 ^ sh
  (if roundsUp mode neg hi rem sh r then hi + 1 else hi, rem ≠ 0)
/-- Exponent of the top bit of m × 2^e. -/
def topExp (m : Nat) (e : Int) : Int := e + m.log2
/-- k × 2^q exceeds the largest finite value. -/
def Fmt.exceeds (f : Fmt) (k : Nat) (q : Int) : Bool :=
  Dyad.lt ⟨f.maxM, f.maxE⟩ ⟨k, q⟩
/-- The delivered overflow of a mode (R43, R44). -/
def Fmt.overflow (f : Fmt) (mode : Rnd) (ovn : Bool) (neg : Bool) : Nat × FFlags :=
  let bits :=
    if f.width = 8 then
      (if ovn then f.signBit neg + f.defNan else f.maxBits neg)
    else if f.width = 4 then f.maxBits neg
    else match mode with
      | .rtz => f.maxBits neg
      | .rdn => if neg then f.infBits neg else f.maxBits neg
      | .rup => if neg then f.maxBits neg else f.infBits neg
      | _ => f.infBits neg
  (bits, flagOF ||| flagNX)
/-- ±m × 2^e (m > 0) rounded into a format (R34, R35, R37, R43, R44): bits and flags. A tiny value that rounds up at the subnormal
quantum to the smallest normal is delivered as that, with UF and NX: R32's nearest value, where R44's row names subnormals and zero
only, is the model's choice (log 18). -/
def Fmt.roundFin (f : Fmt) (mode : Rnd) (ovn : Bool) (r : Nat) (neg : Bool) (m : Nat) (e : Int) : Nat × FFlags :=
  let q0 := topExp m e - f.mant
  let free := roundAt mode neg m e q0 r
  if f.exceeds free.1 q0 then f.overflow mode ovn neg else
  let qs := f.emin - f.mant
  let q := max q0 qs
  let got := roundAt mode neg m e q r
  let tiny := Dyad.lt ⟨free.1, q0⟩ ⟨1, f.emin⟩
  let bits := f.signBit neg + (q - qs).toNat * 2 ^ f.mant + got.1
  (bits, (if got.2 then flagNX else 0) ||| (if tiny && got.2 then flagUF else 0))
/-- An exact value rounded; an exact zero takes the given sign. -/
def Fmt.roundDyad (f : Fmt) (mode : Rnd) (zeroNeg : Bool) (a : Dyad) : Nat × FFlags :=
  if a.k = 0 then (f.signBit zeroNeg, 0) else f.roundFin mode false 0 (a.k < 0) a.k.natAbs a.e
/-- A value that carries a remainder below its last bit: the remainder is kept as one more bit. -/
def jam (m : Nat) (e : Int) (rest : Bool) : Nat × Int := if rest then (2 * m + 1, e - 1) else (m, e)

/-! ## NaN inputs (R38) -/

/-- The first NaN among operands in order, quieted, and Invalid for any signalling NaN (R38). -/
def Fmt.nanOf (f : Fmt) (xs : List Num) : Option (Nat × FFlags) :=
  match xs.find? (·.isNan) with
  | some (.nan s m _) => some (f.quiet s m, if xs.any (·.isSnan) then flagNV else 0)
  | _ => none
def Fmt.invalid (f : Fmt) : Nat × FFlags := (f.defNan, flagNV)

/-! ## Arithmetic (R116, R117) -/

/-- The sum of two non-NaN values (R116). -/
def Fmt.addNum (f : Fmt) (mode : Rnd) (a b : Num) : Nat × FFlags :=
  match a, b with
  | .inf s, .inf t => if s = t then (f.infBits s, 0) else f.invalid
  | .inf s, _ => (f.infBits s, 0)
  | _, .inf t => (f.infBits t, 0)
  | .zero s, .zero t => (f.signBit (if s = t then s else mode = .rdn), 0)
  | a, b => f.roundDyad mode (mode = .rdn) (a.dyad.add b.dyad)
def Fmt.add (f : Fmt) (mode : Rnd) (x y : Nat) : Nat × FFlags :=
  let a := f.decode x
  let b := f.decode y
  (f.nanOf [a, b]).getD (f.addNum mode a b)
def Fmt.sub (f : Fmt) (mode : Rnd) (x y : Nat) : Nat × FFlags :=
  let a := f.decode x
  let b := f.decode y
  (f.nanOf [a, b]).getD (f.addNum mode a b.negate)
/-- The exact product of two values that are no NaN and not 0 × ∞. -/
def Num.mul (a b : Num) : Num :=
  let s := a.neg != b.neg
  match a, b with
  | .inf _, _ => .inf s
  | _, .inf _ => .inf s
  | .fin _ m e, .fin _ n d => .fin s (m * n) (e + d)
  | _, _ => .zero s
/-- 0 × ∞. -/
def Num.badMul (a b : Num) : Bool := (a.isZero && b.isInf) || (a.isInf && b.isZero)
def Fmt.ofNum (f : Fmt) (mode : Rnd) (a : Num) : Nat × FFlags :=
  match a with
  | .zero s => (f.signBit s, 0)
  | .inf s => (f.infBits s, 0)
  | .fin s m e => f.roundFin mode false 0 s m e
  | .nan s m _ => (f.quiet s m, 0)
def Fmt.mul (f : Fmt) (mode : Rnd) (x y : Nat) : Nat × FFlags :=
  let a := f.decode x
  let b := f.decode y
  (f.nanOf [a, b]).getD (if a.badMul b then f.invalid else f.ofNum mode (a.mul b))
/-- m × 2^e divided by n × 2^d, to `p` bits and a remainder bit. -/
def divExact (m n : Nat) (e d : Int) (p : Nat) : Nat × Int :=
  let k := p + n.log2 + 1 - m.log2
  let a := m * 2 ^ k
  jam (a / n) (e - d - k) (a % n ≠ 0)
def Fmt.div (f : Fmt) (mode : Rnd) (x y : Nat) : Nat × FFlags :=
  let a := f.decode x
  let b := f.decode y
  let s := a.neg != b.neg
  (f.nanOf [a, b]).getD (match a, b with
    | .inf _, .inf _ => f.invalid
    | .zero _, .zero _ => f.invalid
    | .inf _, _ => (f.infBits s, 0)
    | _, .inf _ => (f.signBit s, 0)
    | .zero _, _ => (f.signBit s, 0)
    | _, .zero _ => (f.infBits s, flagDZ)
    | .fin _ m e, .fin _ n d => let q := divExact m n e d (f.mant + 4); f.roundFin mode false 0 s q.1 q.2
    | _, _ => f.invalid)
/-- The integer square root of a number below 4^n. -/
def isqrt : Nat → Nat → Nat
  | 0, _ => 0
  | n + 1, x =>
    let r := 2 * isqrt n (x / 4)
    if (r + 1) * (r + 1) ≤ x then r + 1 else r
/-- √(m × 2^e), to at least `p` bits and a remainder bit. -/
def sqrtExact (m : Nat) (e : Int) (p : Nat) : Nat × Int :=
  let odd := (e % 2).toNat
  let m := m * 2 ^ odd * 4 ^ p
  let e := (e - odd) / 2 - p
  let r := isqrt (m.log2 / 2 + 1) m
  jam r e (r * r ≠ m)
def Fmt.sqrt (f : Fmt) (mode : Rnd) (x : Nat) : Nat × FFlags :=
  let a := f.decode x
  (f.nanOf [a]).getD (match a with
    | .zero s => (f.signBit s, 0)
    | .inf false => (f.infBits false, 0)
    | .fin false m e => let q := sqrtExact m e (f.mant + 4); f.roundFin mode false 0 false q.1 q.2
    | _ => f.invalid)
/-- round(±(a × b) ± c) with one rounding (R117, R39): NaN operands as they stand in their registers. -/
def Fmt.fma (f : Fmt) (mode : Rnd) (negP negC : Bool) (x y z : Nat) : Nat × FFlags :=
  let a := f.decode x
  let b := f.decode y
  let c := f.decode z
  if a.badMul b && c.isNan then
    match c with
    | .nan s m _ => (f.quiet s m, flagNV)
    | _ => f.invalid
  else (f.nanOf [a, b, c]).getD (
    if a.badMul b then f.invalid else
    let p := if negP then (a.mul b).negate else a.mul b
    f.addNum mode p (if negC then c.negate else c))

/-! ## Comparisons, classes and signs (R118, R119) -/

/-- a < b and a = b of two values that are no NaN. -/
def Num.lt (a b : Num) : Bool :=
  match a, b with
  | .inf s, .inf t => s && !t
  | .inf s, _ => s
  | _, .inf t => !t
  | a, b => a.dyad.lt b.dyad
def Num.eq (a b : Num) : Bool := !(a.lt b) && !(b.lt a)
/-- FMIN and FMAX: −0 counts as less than +0 (R118). -/
def Fmt.minmax (f : Fmt) (max_ : Bool) (x y : Nat) : Nat × FFlags :=
  let a := f.decode x
  let b := f.decode y
  (f.nanOf [a, b]).getD (
    let less := a.lt b || (a.eq b && a.neg && !b.neg)
    (if less != max_ then x % 2 ^ f.width else y % 2 ^ f.width, 0))
/-- The comparisons of R118: a NaN gives false; `quietOk` raises Invalid only for a signalling NaN. -/
def Fmt.compare (f : Fmt) (c : Num → Num → Bool) (quietOk : Bool) (x y : Nat) : Bool × FFlags :=
  let a := f.decode x
  let b := f.decode y
  if a.isNan || b.isNan then (false, if !quietOk || a.isSnan || b.isSnan then flagNV else 0) else (c a b, 0)
def cmpEq (a b : Num) : Bool := a.eq b
def cmpLt (a b : Num) : Bool := a.lt b
def cmpLe (a b : Num) : Bool := a.lt b || a.eq b
/-- The class word of FCLASS (R118). -/
def Fmt.classWord (f : Fmt) (x : Nat) : Word :=
  let sign := if x.testBit (f.width - 1) then 8 else 0
  match f.decode x with
  | .zero _ => BitVec.ofNat 64 sign
  | .inf _ => BitVec.ofNat 64 (sign + 3)
  | .nan _ _ q => BitVec.ofNat 64 (sign + if q then 5 else 4)
  | .fin _ m e =>
    let kind := if m < 2 ^ f.mant then 1 else 2
    BitVec.ofNat 64 (((BitVec.ofInt 12 (topExp m e)).toNat) * 16 + sign + kind)
/-- The bits below the sign of x with a sign (R119). -/
def Fmt.withSign (f : Fmt) (x : Nat) (neg : Bool) : Nat := f.signBit neg + x % 2 ^ (f.width - 1)

/-! ## Estimates (R123 to R125) -/

/-- RNE to 8 significant bits. -/
def rn8 (m : Nat) (e : Int) : Nat × Int :=
  let q := topExp m e - 7
  ((roundAt .rne false m e q 0).1, q)
/-- FRCPA (R123). -/
def Fmt.recip (f : Fmt) (x : Nat) : Nat × FFlags :=
  let a := f.decode x
  (f.nanOf [a]).getD (match a with
    | .zero s => (f.infBits s, flagDZ)
    | .inf s => (f.signBit s, 0)
    | .fin s m e =>
      let ex := topExp m e
      -- floor(m · 128) of the significand in [1, 2)
      let t := if m.log2 ≤ 7 then m * 2 ^ (7 - m.log2) else m / 2 ^ (m.log2 - 7)
      let q := divExact 256 (2 * t + 1) 0 0 24
      let r := rn8 q.1 q.2
      f.roundFin .rne false 0 s r.1 (r.2 - ex)
    | _ => f.invalid)
/-- FRSQA (R124). -/
def Fmt.rsqrt (f : Fmt) (x : Nat) : Nat × FFlags :=
  let a := f.decode x
  (f.nanOf [a]).getD (match a with
    | .zero s => (f.infBits s, flagDZ)
    | .inf false => (f.signBit false, 0)
    | .fin false m e =>
      let ex := topExp m e
      let k := ex / 2
      -- u = significand · 2^(ex − 2k) in [1, 4); floor(u · 64)
      let sh := 6 + (ex - 2 * k).toNat
      let t := if m.log2 ≤ sh then m * 2 ^ (sh - m.log2) else m / 2 ^ (m.log2 - sh)
      let n := 128 * 4 ^ 24 / (2 * t + 1)
      let q := jam (isqrt (n.log2 / 2 + 1) n) (-24) true
      let r := rn8 q.1 q.2
      f.roundFin .rne false 0 false r.1 (r.2 - k)
    | _ => f.invalid)
/-- A Newton step on an estimate that is zero or infinite gives it back; NaNs by R38 in the order a, b (R125). -/
def Fmt.newton (f : Fmt) (mode : Rnd) (root : Bool) (x y : Nat) : Nat × FFlags :=
  let a := f.decode x
  let b := f.decode y
  (f.nanOf [a, b]).getD (
    match b with
    | .fin _ _ _ =>
      let t := if root then b.dyad.mul b.dyad else b.dyad
      match a with
      | .inf s =>
        -- 1 − a·t is an infinity of the opposite sign of a·t; the step is b plus b times it
        let p := s != (!root && b.neg)
        f.addNum mode b (.inf ((!p) != b.neg))
      | a =>
        let one : Dyad := ⟨1, 0⟩
        let d := b.dyad.mul (one.sub (a.dyad.mul t))
        let d := if root then ⟨d.k, d.e - 1⟩ else d
        f.roundDyad mode (mode = .rdn) (b.dyad.add d)
    | _ => (y % 2 ^ f.width, 0))

/-! ## Conversions (R40, R44, R45, R122) -/

/-- Range of an integer type code 7 to 15 (R23, R67). -/
def intLo (t : Nat) : Int := if t = 7 then -8 else if t % 2 = 0 then -2 ^ (typeBits t - 1) else 0
def intHi (t : Nat) : Int :=
  if t = 7 then 7 else if t % 2 = 0 then 2 ^ (typeBits t - 1) - 1 else 2 ^ typeBits t - 1
/-- Types s4, s8, s16, s32 and s64 are signed (R67). -/
def intSigned (t : Nat) : Bool := t = 7 || t % 2 = 0
def clampTo (t : Nat) (v : Int) : Int := if v < intLo t then intLo t else if intHi t < v then intHi t else v
/-- A float converted to another format (R40, R43, R44). -/
def floatToFloat (src dst : Fmt) (mode : Rnd) (ovn : Bool) (r : Nat) (x : Nat) : Nat × FFlags :=
  match src.decode x with
  | .zero s => (dst.signBit s, 0)
  | .fin s m e => dst.roundFin mode ovn r s m e
  | .inf s =>
    match dst.spec with
    | .ieee => (dst.infBits s, 0)
    | _ => dst.overflow mode ovn s
  | .nan s m q =>
    match dst.spec with
    | .none => (0, flagNV)
    | .nanOnly => (dst.quiet s 0, if q then flagNV else 0)
    | .ieee =>
      let p := if src.spec = .nanOnly then 0
        else if dst.mant ≤ src.mant then m / 2 ^ (src.mant - dst.mant) else m * 2 ^ (dst.mant - src.mant)
      (dst.quiet s p, if q then flagNV else 0)
/-- A float converted to an integer type (R45). -/
def floatToInt (src : Fmt) (t : Nat) (mode : Rnd) (r : Nat) (x : Nat) : Int × FFlags :=
  match src.decode x with
  | .zero _ => (0, 0)
  | .inf s => (if s then intLo t else intHi t, flagNV)
  | .nan _ _ _ => (0, flagNV)
  | .fin s m e =>
    let k := roundAt mode s m e 0 r
    let v : Int := if s then -(k.1 : Int) else k.1
    if v < intLo t || intHi t < v then (clampTo t v, flagNV) else (v, if k.2 then flagNX else 0)
/-- An integer converted to a float (R45). -/
def intToFloat (dst : Fmt) (mode : Rnd) (ovn : Bool) (r : Nat) (v : Int) : Nat × FFlags :=
  if v = 0 then (0, 0) else dst.roundFin mode ovn r (v < 0) v.natAbs 0
/-- The integer that the low bits of a value hold as a type (R122). -/
def readInt (t : Nat) (x : Nat) : Int :=
  let n := typeBits t
  if intSigned t then (BitVec.ofNat n x).toInt else x % 2 ^ n
/-- A value of type code `s` converted to type code `d`: the low bits of the result, and its flags (R122). -/
def convert (s d : Nat) (mode : Rnd) (ovn : Bool) (r : Nat) (x : Nat) : Nat × FFlags :=
  let bits (v : Int) : Nat := (BitVec.ofInt (typeBits d) v).toNat
  if s < 7 then
    if d < 7 then floatToFloat (fmtOf s) (fmtOf d) mode ovn r (x % 2 ^ typeBits s)
    else let q := floatToInt (fmtOf s) d mode r (x % 2 ^ typeBits s); (bits q.1, q.2)
  else if d < 7 then intToFloat (fmtOf d) mode ovn r (readInt s x)
  else (bits (clampTo d (readInt s x)), 0)

end Sys2Proof.Machine
end

