-- ==== Sys2Proof/Machine/Integer.lean ====
section
/-! DEFINITION. Integer and address instructions: the 32-bit forms of majors 0x00 to 0x07 and the 16-bit forms that
expand to them (R70 to R75, R80, R91 to R100). -/

namespace Sys2Proof.Machine

/-- Operation width of a width modifier (R91). -/
def opWidth (w : BitVec 1) : Nat := if w = 1 then 32 else 64
/-- The low `n` bits of an exact value, sign-extended (R55, R92). -/
def narrow (n : Nat) (v : Int) : Word := (BitVec.ofInt n v).signExtend 64

/-- Signed quotient toward zero, saturated (R93). -/
def divS (n : Nat) (x y : Int) : Int :=
  if y = 0 then (if x = 0 then 0 else if 0 < x then 2 ^ (n - 1) - 1 else -2 ^ (n - 1))
  else if x = -2 ^ (n - 1) ∧ y = -1 then 2 ^ (n - 1) - 1 else x.tdiv y
/-- Unsigned quotient, saturated (R93). -/
def divU (n : Nat) (x y : Int) : Int := if y = 0 then (if x = 0 then 0 else 2 ^ n - 1) else x / y
/-- A bitwise operation of two non-negative values (R92). -/
def bitsOp (f : Nat → Nat → Nat) (x y : Int) : Int := f x.toNat y.toNat
/-- Shifts and rotations by an amount below the width (R94). -/
def shiftL (_n : Nat) (x s : Int) : Int := x * 2 ^ s.toNat
def shiftR (x s : Int) : Int := x / 2 ^ s.toNat
def rotL (n : Nat) (x s : Int) : Int :=
  let k := s.toNat % n
  x * 2 ^ k % 2 ^ n + x / 2 ^ (n - k)
/-- Zero bits above the highest one bit, among `n` bits (R92). -/
def clzN : Nat → Nat → Nat
  | 0, _ => 0
  | n + 1, x => if x.testBit n then 0 else clzN n x + 1
/-- Zero bits below the lowest one bit, among `n` bits (R92). -/
def ctzN : Nat → Nat → Nat
  | 0, _ => 0
  | n + 1, x => if x % 2 = 1 then 0 else ctzN n (x / 2) + 1
/-- One bits among `n` bits (R92). -/
def popcN : Nat → Nat → Nat
  | 0, _ => 0
  | n + 1, x => x % 2 + popcN n (x / 2)
/-- Bit i moved to bit n − 1 − i (R92). -/
def brevN : Nat → Nat → Nat
  | 0, _ => 0
  | n + 1, x => x % 2 * 2 ^ n + brevN n (x / 2)

/-- A three-register operation of R92: the exact value from x, y (unsigned) and xs, ys (signed). -/
def int3 (len word : Nat) (d a b : BitVec 5) (w : BitVec 1) (f : Nat → Int → Int → Int → Int → Int) (s : State) :
    Host.Outcome State Fault Refusal :=
  withRegs word [.g a, .g b] [.g d] s fun s =>
    let n := opWidth w
    let x := (s.me.getG a).setWidth n
    let y := (s.me.getG b).setWidth n
    .ok (.fall len) (s.writeG d (narrow n (f n x.toNat y.toNat x.toInt y.toInt)))
/-- A two-register operation (R92). -/
def int2 (word : Nat) (d a : BitVec 5) (w : BitVec 1) (f : Nat → Nat → Nat) (s : State) :
    Host.Outcome State Fault Refusal :=
  withRegs word [.g a] [.g d] s fun s =>
    let n := opWidth w
    .ok (.fall 4) (s.writeG d (narrow n (f n ((s.me.getG a).setWidth n).toNat)))
/-- An operation of g[a] with an immediate (R95). -/
def intImm (len word : Nat) (d a : BitVec 5) (w : BitVec 1) (imm : Word) (f : Nat → Int → Int → Int → Int → Int)
    (s : State) : Host.Outcome State Fault Refusal :=
  withRegs word [.g a] [.g d] s fun s =>
    let n := opWidth w
    let x := (s.me.getG a).setWidth n
    let y := imm.setWidth n
    .ok (.fall len) (s.writeG d (narrow n (f n x.toNat y.toNat x.toInt y.toInt)))
/-- g[d] from g[a] and its own old value (R96, R98). -/
def fieldOp (word : Nat) (d : BitVec 5) (rd : List Reg) (f : Ctx → Word) (s : State) :
    Host.Outcome State Fault Refusal :=
  withRegs word rd [.g d] s fun s => .ok (.fall 4) (s.writeG d (f s.me))

/-- ADD: the exact value of fn 0 (R92). -/
def addV : Nat → Int → Int → Int → Int → Int := fun _ x y _ _ => x + y
def execAdd (d a b : BitVec 5) (w : BitVec 1) (s : State) :
    Host.Outcome State Fault Refusal := int3 4 (wordR 0 0 b.toNat a.toNat d.toNat w.toNat) d a b w addV s
/-- SUB: the exact value of fn 1 (R92). -/
def subV : Nat → Int → Int → Int → Int → Int := fun _ x y _ _ => x - y
def execSub (d a b : BitVec 5) (w : BitVec 1) (s : State) :
    Host.Outcome State Fault Refusal := int3 4 (wordR 0 1 b.toNat a.toNat d.toNat w.toNat) d a b w subV s
/-- MUL: the exact value of fn 2 (R92). -/
def mulV : Nat → Int → Int → Int → Int → Int := fun _ x y _ _ => x * y
def execMul (d a b : BitVec 5) (w : BitVec 1) (s : State) :
    Host.Outcome State Fault Refusal := int3 4 (wordR 0 2 b.toNat a.toNat d.toNat w.toNat) d a b w mulV s
/-- MULH: the exact value of fn 3 (R92). -/
def mulhV : Nat → Int → Int → Int → Int → Int := fun n _ _ xs ys => xs * ys / 2 ^ n
def execMulh (d a b : BitVec 5) (w : BitVec 1) (s : State) :
    Host.Outcome State Fault Refusal := int3 4 (wordR 0 3 b.toNat a.toNat d.toNat w.toNat) d a b w mulhV s
/-- MULHN: the exact value of fn 4 (R92). -/
def mulhnV : Nat → Int → Int → Int → Int → Int := fun n x y _ _ => x * y / 2 ^ n
def execMulhn (d a b : BitVec 5) (w : BitVec 1) (s : State) :
    Host.Outcome State Fault Refusal := int3 4 (wordR 0 4 b.toNat a.toNat d.toNat w.toNat) d a b w mulhnV s
/-- DIV: the exact value of fn 5 (R93). -/
def divV : Nat → Int → Int → Int → Int → Int := fun n _ _ xs ys => divS n xs ys
def execDiv (d a b : BitVec 5) (w : BitVec 1) (s : State) :
    Host.Outcome State Fault Refusal := int3 4 (wordR 0 5 b.toNat a.toNat d.toNat w.toNat) d a b w divV s
/-- DIVN: the exact value of fn 6 (R93). -/
def divnV : Nat → Int → Int → Int → Int → Int := fun n x y _ _ => divU n x y
def execDivn (d a b : BitVec 5) (w : BitVec 1) (s : State) :
    Host.Outcome State Fault Refusal := int3 4 (wordR 0 6 b.toNat a.toNat d.toNat w.toNat) d a b w divnV s
/-- REM: the exact value of fn 7 (R93). -/
def remV : Nat → Int → Int → Int → Int → Int := fun n _ _ xs ys => xs - divS n xs ys * ys
def execRem (d a b : BitVec 5) (w : BitVec 1) (s : State) :
    Host.Outcome State Fault Refusal := int3 4 (wordR 0 7 b.toNat a.toNat d.toNat w.toNat) d a b w remV s
/-- REMN: the exact value of fn 8 (R93). -/
def remnV : Nat → Int → Int → Int → Int → Int := fun n x y _ _ => x - divU n x y * y
def execRemn (d a b : BitVec 5) (w : BitVec 1) (s : State) :
    Host.Outcome State Fault Refusal := int3 4 (wordR 0 8 b.toNat a.toNat d.toNat w.toNat) d a b w remnV s
/-- AND: the exact value of fn 9 (R92). -/
def andV : Nat → Int → Int → Int → Int → Int := fun _ x y _ _ => bitsOp (· &&& ·) x y
def execAnd (d a b : BitVec 5) (w : BitVec 1) (s : State) :
    Host.Outcome State Fault Refusal := int3 4 (wordR 0 9 b.toNat a.toNat d.toNat w.toNat) d a b w andV s
/-- OR: the exact value of fn 10 (R92). -/
def orV : Nat → Int → Int → Int → Int → Int := fun _ x y _ _ => bitsOp (· ||| ·) x y
def execOr (d a b : BitVec 5) (w : BitVec 1) (s : State) :
    Host.Outcome State Fault Refusal := int3 4 (wordR 0 10 b.toNat a.toNat d.toNat w.toNat) d a b w orV s
/-- XOR: the exact value of fn 11 (R92). -/
def xorV : Nat → Int → Int → Int → Int → Int := fun _ x y _ _ => bitsOp (· ^^^ ·) x y
def execXor (d a b : BitVec 5) (w : BitVec 1) (s : State) :
    Host.Outcome State Fault Refusal := int3 4 (wordR 0 11 b.toNat a.toNat d.toNat w.toNat) d a b w xorV s
/-- ANDN: the exact value of fn 12 (R92). -/
def andnV : Nat → Int → Int → Int → Int → Int := fun n x y _ _ => bitsOp (· &&& ·) x (2 ^ n - 1 - y)
def execAndn (d a b : BitVec 5) (w : BitVec 1) (s : State) :
    Host.Outcome State Fault Refusal := int3 4 (wordR 0 12 b.toNat a.toNat d.toNat w.toNat) d a b w andnV s
/-- SHL: the exact value of fn 13 (R94). -/
def shlV : Nat → Int → Int → Int → Int → Int := fun n x y _ _ => shiftL n x (y % n)
def execShl (d a b : BitVec 5) (w : BitVec 1) (s : State) :
    Host.Outcome State Fault Refusal := int3 4 (wordR 0 13 b.toNat a.toNat d.toNat w.toNat) d a b w shlV s
/-- SHR: the exact value of fn 14 (R94). -/
def shrV : Nat → Int → Int → Int → Int → Int := fun n x y _ _ => shiftR x (y % n)
def execShr (d a b : BitVec 5) (w : BitVec 1) (s : State) :
    Host.Outcome State Fault Refusal := int3 4 (wordR 0 14 b.toNat a.toNat d.toNat w.toNat) d a b w shrV s
/-- SRA: the exact value of fn 15 (R94). -/
def sraV : Nat → Int → Int → Int → Int → Int := fun n _ y xs _ => shiftR xs (y % n)
def execSra (d a b : BitVec 5) (w : BitVec 1) (s : State) :
    Host.Outcome State Fault Refusal := int3 4 (wordR 0 15 b.toNat a.toNat d.toNat w.toNat) d a b w sraV s
/-- ROL: the exact value of fn 16 (R94). -/
def rolV : Nat → Int → Int → Int → Int → Int := fun n x y _ _ => rotL n x (y % n)
def execRol (d a b : BitVec 5) (w : BitVec 1) (s : State) :
    Host.Outcome State Fault Refusal := int3 4 (wordR 0 16 b.toNat a.toNat d.toNat w.toNat) d a b w rolV s
/-- ROR: the exact value of fn 17 (R94). -/
def rorV : Nat → Int → Int → Int → Int → Int := fun n x y _ _ => rotL n x (n - y % n)
def execRor (d a b : BitVec 5) (w : BitVec 1) (s : State) :
    Host.Outcome State Fault Refusal := int3 4 (wordR 0 17 b.toNat a.toNat d.toNat w.toNat) d a b w rorV s
/-- MIN: the exact value of fn 18 (R92). -/
def minV : Nat → Int → Int → Int → Int → Int := fun _ _ _ xs ys => if xs ≤ ys then xs else ys
def execMin (d a b : BitVec 5) (w : BitVec 1) (s : State) :
    Host.Outcome State Fault Refusal := int3 4 (wordR 0 18 b.toNat a.toNat d.toNat w.toNat) d a b w minV s
/-- MAX: the exact value of fn 19 (R92). -/
def maxV : Nat → Int → Int → Int → Int → Int := fun _ _ _ xs ys => if xs ≤ ys then ys else xs
def execMax (d a b : BitVec 5) (w : BitVec 1) (s : State) :
    Host.Outcome State Fault Refusal := int3 4 (wordR 0 19 b.toNat a.toNat d.toNat w.toNat) d a b w maxV s
/-- MINN: the exact value of fn 20 (R92). -/
def minnV : Nat → Int → Int → Int → Int → Int := fun _ x y _ _ => if x ≤ y then x else y
def execMinn (d a b : BitVec 5) (w : BitVec 1) (s : State) :
    Host.Outcome State Fault Refusal := int3 4 (wordR 0 20 b.toNat a.toNat d.toNat w.toNat) d a b w minnV s
/-- MAXN: the exact value of fn 21 (R92). -/
def maxnV : Nat → Int → Int → Int → Int → Int := fun _ x y _ _ => if x ≤ y then y else x
def execMaxn (d a b : BitVec 5) (w : BitVec 1) (s : State) :
    Host.Outcome State Fault Refusal := int3 4 (wordR 0 21 b.toNat a.toNat d.toNat w.toNat) d a b w maxnV s
/-- SLT: the exact value of fn 22 (R92). -/
def sltV : Nat → Int → Int → Int → Int → Int := fun _ _ _ xs ys => if xs < ys then 1 else 0
def execSlt (d a b : BitVec 5) (w : BitVec 1) (s : State) :
    Host.Outcome State Fault Refusal := int3 4 (wordR 0 22 b.toNat a.toNat d.toNat w.toNat) d a b w sltV s
/-- SLTN: the exact value of fn 23 (R92). -/
def sltnV : Nat → Int → Int → Int → Int → Int := fun _ x y _ _ => if x < y then 1 else 0
def execSltn (d a b : BitVec 5) (w : BitVec 1) (s : State) :
    Host.Outcome State Fault Refusal := int3 4 (wordR 0 23 b.toNat a.toNat d.toNat w.toNat) d a b w sltnV s
/-- SEQ: the exact value of fn 24 (R92). -/
def seqV : Nat → Int → Int → Int → Int → Int := fun _ x y _ _ => if x = y then 1 else 0
def execSeq (d a b : BitVec 5) (w : BitVec 1) (s : State) :
    Host.Outcome State Fault Refusal := int3 4 (wordR 0 24 b.toNat a.toNat d.toNat w.toNat) d a b w seqV s
/-- CLZ (R92). -/
def execClz (d a : BitVec 5) (w : BitVec 1) (s : State) :
    Host.Outcome State Fault Refusal := int2 (wordR 0 25 0 a.toNat d.toNat w.toNat) d a w clzN s
/-- CTZ (R92). -/
def execCtz (d a : BitVec 5) (w : BitVec 1) (s : State) :
    Host.Outcome State Fault Refusal := int2 (wordR 0 26 0 a.toNat d.toNat w.toNat) d a w ctzN s
/-- POPC (R92). -/
def execPopc (d a : BitVec 5) (w : BitVec 1) (s : State) :
    Host.Outcome State Fault Refusal := int2 (wordR 0 27 0 a.toNat d.toNat w.toNat) d a w popcN s
/-- BREV (R92). -/
def execBrev (d a : BitVec 5) (w : BitVec 1) (s : State) :
    Host.Outcome State Fault Refusal := int2 (wordR 0 28 0 a.toNat d.toNat w.toNat) d a w brevN s

/-! ## Immediate forms (R95) -/

/-- ADDI (R95). -/
def execAddi (d a : BitVec 5) (i : BitVec 11) (w : BitVec 1) (s : State) :
    Host.Outcome State Fault Refusal :=
  intImm 4 (wordI 1 i.toNat a.toNat d.toNat w.toNat) d a w (i.signExtend 64) addV s
/-- ANDI, 64-bit (R95). -/
def execAndi (d a : BitVec 5) (i : BitVec 11) (s : State) :
    Host.Outcome State Fault Refusal :=
  intImm 4 (wordI 2 i.toNat a.toNat d.toNat 0) d a 0 (i.signExtend 64) andV s
/-- ORI, 64-bit (R95). -/
def execOri (d a : BitVec 5) (i : BitVec 11) (s : State) :
    Host.Outcome State Fault Refusal :=
  intImm 4 (wordI 2 i.toNat a.toNat d.toNat 1) d a 0 (i.signExtend 64) orV s
/-- XORI, 64-bit (R95). -/
def execXori (d a : BitVec 5) (i : BitVec 11) (s : State) :
    Host.Outcome State Fault Refusal :=
  intImm 4 (wordI 2 i.toNat a.toNat d.toNat 2) d a 0 (i.signExtend 64) xorV s
/-- SLTI, 64-bit (R95). -/
def execSlti (d a : BitVec 5) (i : BitVec 11) (s : State) :
    Host.Outcome State Fault Refusal :=
  intImm 4 (wordI 2 i.toNat a.toNat d.toNat 3) d a 0 (i.signExtend 64) sltV s
/-- SHLI: the amount of R94 from the immediate (R95). -/
def execShli (d a : BitVec 5) (w : BitVec 1) (s : BitVec 6) (st : State) :
    Host.Outcome State Fault Refusal :=
  intImm 4 (wordI 4 (s.toNat + 64 * w.toNat) a.toNat d.toNat 0) d a w (s.setWidth 64) shlV st
/-- SHRI: the amount of R94 from the immediate (R95). -/
def execShri (d a : BitVec 5) (w : BitVec 1) (s : BitVec 6) (st : State) :
    Host.Outcome State Fault Refusal :=
  intImm 4 (wordI 4 (s.toNat + 64 * w.toNat) a.toNat d.toNat 1) d a w (s.setWidth 64) shrV st
/-- SRAI: the amount of R94 from the immediate (R95). -/
def execSrai (d a : BitVec 5) (w : BitVec 1) (s : BitVec 6) (st : State) :
    Host.Outcome State Fault Refusal :=
  intImm 4 (wordI 4 (s.toNat + 64 * w.toNat) a.toNat d.toNat 2) d a w (s.setWidth 64) sraV st

/-! ## Constants, addresses, bit fields, selection (R96 to R99) -/

/-- LDHI: imm16 at bits 16k + 15 : 16k, k = m + 1 (R96). -/
def execLdhi (d : BitVec 5) (i : BitVec 16) (k : BitVec 2) (s : State) :
    Host.Outcome State Fault Refusal :=
  fieldOp (word32 i.toNat 5 d.toNat k.toNat) d [.g d] (fun x => insertBits (x.getG d) (16 * (k.toNat + 1)) 16 i.toNat) s
/-- LEA with an immediate (R97). -/
def execLea (d a : BitVec 5) (i : BitVec 11) (s : State) :
    Host.Outcome State Fault Refusal :=
  fieldOp (wordI 6 i.toNat a.toNat d.toNat 0) d [.g a] (fun x => x.getG a + i.signExtend 64) s
/-- LEA with a scaled index (R97). -/
def execLeaScaled (d a b : BitVec 5) (sh : BitVec 3) (s : State) :
    Host.Outcome State Fault Refusal :=
  fieldOp (wordI 6 (b.toNat + 32 * sh.toNat) a.toNat d.toNat 1) d [.g a, .g b] (fun x => x.getG a + x.getG b <<< sh.toNat) s
/-- The region check of an access of `n` bytes at g[a] + off (R63). -/
def regionOk (rgn : Word) (ga : Word) (off n : Nat) : Bool :=
  fld rgn 56 8 ≠ 0 && (ga + BitVec.ofNat 64 off + BitVec.ofNat 64 n).toNat ≤ fld rgn 56 8 * 1024
/-- BASE of a region as an address (R63). -/
def regionBase (rgn : Word) : Word := BitVec.ofNat 64 (fld rgn 3 53 * 8)
def Ctl.region (c : Ctl) (n : BitVec 4) : Word := c.rgn.get ⟨n.toNat, n.isLt⟩
/-- LEA of a region's address, checked as a one-byte access (R97). -/
def execLeaRegion (d a : BitVec 5) (n : BitVec 4) (o : BitVec 7) (s : State) :
    Host.Outcome State Fault Refusal :=
  withRegs (wordI 6 (o.toNat + 128 * n.toNat) a.toNat d.toNat 2) [.g a] [.g d] s fun s =>
    let r := s.me.ctl.region n
    if regionOk r (s.me.getG a) o.toNat 1 then
      .ok (.fall 4) (s.writeG d (regionBase r + s.me.getG a + o.setWidth 64))
    else .trap (regionBounds none) s
/-- The bit field of R98. -/
def bitField (x : Word) (p l : Nat) : Nat := nbits x.toNat p (l + 1)
/-- BFX (R98). -/
def execBfx (d a l : BitVec 5) (p : BitVec 6) (s : State) :
    Host.Outcome State Fault Refusal :=
  fieldOp (word32 (l.toNat * 2048 + p.toNat * 32 + a.toNat) 7 d.toNat 0) d [.g a]
    (fun x => sextW (l.toNat + 1) (BitVec.ofNat 64 (bitField (x.getG a) p.toNat l.toNat))) s
/-- BFXN (R98). -/
def execBfxn (d a l : BitVec 5) (p : BitVec 6) (s : State) :
    Host.Outcome State Fault Refusal :=
  fieldOp (word32 (l.toNat * 2048 + p.toNat * 32 + a.toNat) 7 d.toNat 1) d [.g a]
    (fun x => BitVec.ofNat 64 (bitField (x.getG a) p.toNat l.toNat)) s
/-- BFI (R98). -/
def execBfi (d a l : BitVec 5) (p : BitVec 6) (s : State) :
    Host.Outcome State Fault Refusal :=
  fieldOp (word32 (l.toNat * 2048 + p.toNat * 32 + a.toNat) 7 d.toNat 2) d [.g a, .g d]
    (fun x => insertBits (x.getG d) p.toNat (l.toNat + 1) (x.getG a).toNat) s
/-- SEL (R99). -/
def execSel (d a b c : BitVec 5) (s : State) :
    Host.Outcome State Fault Refusal :=
  fieldOp (word32 (c.toNat * 1024 + b.toNat * 32 + a.toNat) 3 d.toNat 0) d [.g a, .g b, .g c]
    (fun x => if x.getG c ≠ 0 then x.getG a else x.getG b) s

/-! ## The 16-bit forms (R71, R72) -/

/-- ADD d, d, a (R72). -/
def execAddCr (d a : BitVec 4) (s : State) :
    Host.Outcome State Fault Refusal :=
  int3 2 (word16 0 2 d.toNat a.toNat) (d.setWidth 5) (d.setWidth 5) (a.setWidth 5) 0 addV s
/-- SUB d, d, a (R72). -/
def execSubCr (d a : BitVec 4) (s : State) :
    Host.Outcome State Fault Refusal :=
  int3 2 (word16 0 3 d.toNat a.toNat) (d.setWidth 5) (d.setWidth 5) (a.setWidth 5) 0 subV s
/-- AND d, d, a (R72). -/
def execAndCr (d a : BitVec 4) (s : State) :
    Host.Outcome State Fault Refusal :=
  int3 2 (word16 0 4 d.toNat a.toNat) (d.setWidth 5) (d.setWidth 5) (a.setWidth 5) 0 andV s
/-- OR d, d, a (R72). -/
def execOrCr (d a : BitVec 4) (s : State) :
    Host.Outcome State Fault Refusal :=
  int3 2 (word16 0 5 d.toNat a.toNat) (d.setWidth 5) (d.setWidth 5) (a.setWidth 5) 0 orV s
/-- XOR d, d, a (R72). -/
def execXorCr (d a : BitVec 4) (s : State) :
    Host.Outcome State Fault Refusal :=
  int3 2 (word16 0 6 d.toNat a.toNat) (d.setWidth 5) (d.setWidth 5) (a.setWidth 5) 0 xorV s
/-- SHL d, d, a (R72). -/
def execShlCr (d a : BitVec 4) (s : State) :
    Host.Outcome State Fault Refusal :=
  int3 2 (word16 0 7 d.toNat a.toNat) (d.setWidth 5) (d.setWidth 5) (a.setWidth 5) 0 shlV s
/-- SHR d, d, a (R72). -/
def execShrCr (d a : BitVec 4) (s : State) :
    Host.Outcome State Fault Refusal :=
  int3 2 (word16 0 8 d.toNat a.toNat) (d.setWidth 5) (d.setWidth 5) (a.setWidth 5) 0 shrV s
/-- SRA d, d, a (R72). -/
def execSraCr (d a : BitVec 4) (s : State) :
    Host.Outcome State Fault Refusal :=
  int3 2 (word16 0 9 d.toNat a.toNat) (d.setWidth 5) (d.setWidth 5) (a.setWidth 5) 0 sraV s
/-- MUL d, d, a (R72). -/
def execMulCr (d a : BitVec 4) (s : State) :
    Host.Outcome State Fault Refusal :=
  int3 2 (word16 0 10 d.toNat a.toNat) (d.setWidth 5) (d.setWidth 5) (a.setWidth 5) 0 mulV s
/-- OR d, a, g0 (R72). -/
def execMoveCr (d a : BitVec 4) (s : State) :
    Host.Outcome State Fault Refusal :=
  int3 2 (word16 0 1 d.toNat a.toNat) (d.setWidth 5) (a.setWidth 5) 0 0 orV s
/-- The CI word (R71). -/
def wordCI (fn d i : Nat) : Nat := 2 ^ 13 + fn * 2 ^ 10 + d * 2 ^ 6 + i
/-- The CI form of fn 0 (R72). -/
def execAddiCi (d : BitVec 4) (i : BitVec 6) (s : State) :
    Host.Outcome State Fault Refusal :=
  intImm 2 (wordCI 0 d.toNat i.toNat) (d.setWidth 5) (d.setWidth 5) 0 (i.signExtend 64) addV s
/-- The CI form of fn 1 (R72). -/
def execAddiZeroCi (d : BitVec 4) (i : BitVec 6) (s : State) :
    Host.Outcome State Fault Refusal :=
  intImm 2 (wordCI 1 d.toNat i.toNat) (d.setWidth 5) 0 0 (i.signExtend 64) addV s
/-- The CI form of fn 2 (R72). -/
def execShliCi (d : BitVec 4) (i : BitVec 6) (s : State) :
    Host.Outcome State Fault Refusal :=
  intImm 2 (wordCI 2 d.toNat i.toNat) (d.setWidth 5) (d.setWidth 5) 0 (i.setWidth 64) shlV s
/-- The CI form of fn 3 (R72). -/
def execShriCi (d : BitVec 4) (i : BitVec 6) (s : State) :
    Host.Outcome State Fault Refusal :=
  intImm 2 (wordCI 3 d.toNat i.toNat) (d.setWidth 5) (d.setWidth 5) 0 (i.setWidth 64) shrV s
/-- The CI form of fn 4 (R72). -/
def execSraiCi (d : BitVec 4) (i : BitVec 6) (s : State) :
    Host.Outcome State Fault Refusal :=
  intImm 2 (wordCI 4 d.toNat i.toNat) (d.setWidth 5) (d.setWidth 5) 0 (i.setWidth 64) sraV s
/-- The CI form of fn 5 (R72). -/
def execAndiCi (d : BitVec 4) (i : BitVec 6) (s : State) :
    Host.Outcome State Fault Refusal :=
  intImm 2 (wordCI 5 d.toNat i.toNat) (d.setWidth 5) (d.setWidth 5) 0 (i.signExtend 64) andV s

end Sys2Proof.Machine
end

