-- ==== Sys2Proof/Machine/Memory.lean ====
section
/-! DEFINITION. Loads, stores, full-empty words, atomics, fences, prefetch, window aliases and bank-side operations
(R137 to R163). -/

namespace Sys2Proof.Machine

/-! ## Addresses (R139) -/

/-- The address of a base form. -/
def baseAddr (x : Ctx) (a : BitVec 5) (off : Nat) : Word := x.getG a + BitVec.ofNat 64 off
/-- The address of a region form, checked (R63). -/
def regionAddr (x : Ctx) (a : BitVec 5) (n : BitVec 4) (off size : Nat) : Except Trap Word :=
  let r := x.ctl.region n
  if regionOk r (x.getG a) off size then .ok (regionBase r + x.getG a + BitVec.ofNat 64 off)
  else .error (regionBounds none)

/-- Acquire scope of an ordering field (R78). -/
def acqOf (ord : BitVec 2) (scope : BitVec 3) : Option Nat := if bit ord 0 then some scope.toNat else none
/-- Release scope of an ordering field (R78). -/
def relOf (ord : BitVec 2) (scope : BitVec 3) : Option (BitVec 3) := if bit ord 1 then some scope else none

/-! ## Loads (R144, R145) -/

/-- What a load leaves behind: copies of the lines in the L1D (R289), and its ordering (R296). `stands`: it has read what stands;
`split`: byte by byte (R142). -/
def plainRead (acq : Option Nat) (pas : List Nat) (ps : List Place) (s : State) (stands split : Bool := false) : State :=
  noteRead acq pas ps ((linesOf ps).foldl (fun s n => s.shareLine s.cur.core n) s) stands false split

/-- A load of `n` bytes; `out` puts the number read into the destination. An acquire waits for the context's own stores to
its doublewords, and for its earlier releases (R302, R333). -/
def loadMem (va : Word) (n : Nat) (ord : BitVec 2) (scope : BitVec 3) (out : Nat → State → State) (s : State) : Res :=
  if 2 ^ 56 ≤ va.toNat then .trap (rangeFault 0 s.me.ctl.priv va) s else
  if ord ≠ 0 && va.toNat % n ≠ 0 then .trap (misaligned va) s else
  access va n .read .plain scope.toNat false .copy s fun pas ps _ s1 =>
    let acq := acqOf ord scope
    match ps.head? with
    | some (.device o) =>
      if s1.deviceAbsent o then .trap (busError 2) s
      else if s1.me.stores.any fun st => (acq.isSome && st.rel.isSome) || st.pa / 8 = pas.headD 0 / 8 then .wait .interlock s
      else
        let w := deviceRead s1 (o / 8 * 8) (s1.writer s1.cur.core s1.me.ctl.priv)
        .ok (.fall 4) (out (nbits w.toNat (8 * (o % 8)) (8 * n)) (match acq with
          | some sc => s1.dropProxies sc
          | none => s1))
    | _ =>
      if acq.isSome && s1.me.stores.any fun st => st.rel.isSome || st.meets s1 ps then .wait .interlock s else
      let m : Manner := { split := va.toNat % n ≠ 0, acq := acq.isSome }
      .ok (.fall 4) (out (readValue s1 (some s1.me.acqAt) ps m) (plainRead acq pas ps s1 false m.split))

/-- LD into a g register, sign-extended (R144). -/
def loadG (d : BitVec 5) (n : Nat) (v : Nat) (s : State) : State := s.writeG d (sextW (8 * n) (BitVec.ofNat 64 v))
/-- LDV into a v register (R145). -/
def loadV (d : BitVec 4) (v : Nat) (s : State) : State := s.writeV d (BitVec.ofNat 128 v)

/-! ## What a fence does (R156, R296) -/

/-- The reads a fence with acquire ordering covers: each is checked once, and again by a wider fence where its own
scope excluded the releaser (R296, R302). -/
def acquireFence (scope : BitVec 3) (s : State) : State :=
  let due (r : TaggedRead) : Bool := match r.seen with
    | none => true
    | some k => k.toNat < scope.toNat
  let holds (r : TaggedRead) : Bool :=
    r.tag.count || (if r.tag.host then scope.toNat = 6 else inScope scope.toNat (partyOf s.cur.core) r.tag.party)
  let s1 := (s.me.tagged.filter due).foldl (fun s r => acquireTag scope.toNat r.word r.value r.tag r.chain s r.far) s
  let left := (s.me.tagged.filter fun r => !holds r).map fun r => { r with seen := if due r then some scope else r.seen }
  (s1.setMe { s1.me with tagged := left }).dropProxies scope.toNat

/-- A fence of a kind at a scope (R156): a release covers the stores before it; a full fence waits for them; at domain
or system scope both wait for the acknowledgements of writes to other packages (R298). -/
def fenceAt (ord : BitVec 2) (scope : BitVec 3) (s : State) : Res :=
  let x := s.me
  let far := scope = 5 || scope = 6
  if bit ord 1 && ((ord = 3 && !x.stores.isEmpty) || (far && (!x.stores.isEmpty || !s.mem.pending.isEmpty))) then
    .wait .interlock s
  else
    let s := if bit ord 1 then
        s.setMe { x with fenceUpTo := x.serial, relScope := widest (some scope) x.relScope }
      else s
    .ok (.fall 4) (if bit ord 0 then acquireFence scope s else s)

/-! ## Stores (R144, R147) -/

/-- The offset of FZREQ of a die (R368). -/
def isFzreq (o : Nat) : Bool := 0x03000000 ≤ o && o < 0x03004000 && o % 0x1000 / 8 = 1

/-- The offset of FIXBELL of a die: a ring is a release at package scope (R366). -/
def isFixbell (o : Nat) : Bool := 0x03000000 ≤ o && o < 0x03004000 && o % 0x1000 / 8 = 0

/-- A store of `n` bytes enters the store buffer. A zeroing request orders as a full fence and is made at once
(R369). -/
def storeMem (va : Word) (n : Nat) (val : Vec) (k : StoreKind) (ord : BitVec 2) (scope : BitVec 3) (s : State) : Res :=
  if 2 ^ 56 ≤ va.toNat then .trap (rangeFault 1 s.me.ctl.priv va) s else
  if (ord ≠ 0 || k ≠ .plain) && va.toNat % n ≠ 0 then .trap (misaligned va) s else
  access va n .write (if k = .plain then .plain else .word) scope.toNat true .token s fun pas ps pa2 s1 =>
    let bell : Bool := match ps.head? with
      | some (.device o) => isFixbell o
      | _ => false
    let rel := if bell then widest (some 4) (relOf ord scope) else relOf ord scope
    let buffered := (bufferStore va n val k rel (pas.headD 0) pa2 s1).bind fun s2 => .ok (.fall 4) s2
    match ps.head? with
    | some (.device o) =>
      if isFzreq o && !s1.deviceAbsent o then
        (fenceAt 3 4 s1).bind fun s2 =>
          let who := s2.writer s2.cur.core s2.me.ctl.priv
          let w := mergeHalf (deviceRead s2 (o / 8 * 8) who) o n (val.setWidth 64)
          .ok (.fall 4) { s2 with agenda := .write (BitVec.ofNat 48 (o / 8 * 8)) w who :: s2.agenda }
      else buffered
    | _ => buffered

/-! ## Full-empty words and atomics (R147 to R153) -/

/-- The value of a word of another package that its home answers with, by what is asked: open, but the ordering of its tag is
the acquirer's to check (R302). -/
def farRead (acq : Option Nat) (pa : Nat) (v : Word) (s : State) : State :=
  match acq with
  | none => s
  | some sc =>
    (match s.farTag (pa / 8) with
      | some t => acquireTag sc (BitVec.ofNat 11 (pa / 8)) v t false s true
      | none => s).dropProxies sc

/-- LDF: waits until the word is full, and then reads it (R147, R148). -/
def loadFull (va : Word) (ord : BitVec 2) (scope : BitVec 3) (d : BitVec 5) (s : State) : Res :=
  if 2 ^ 56 ≤ va.toNat then .trap (rangeFault 0 s.me.ctl.priv va) s else
  if va.toNat % 8 ≠ 0 then .trap (misaligned va) s else
  let acq := acqOf ord scope
  access va 8 .read .word scope.toNat false .word s (hold := acq.isSome && s.me.stores.any fun st => st.rel.isSome)
      fun pas ps _ s1 =>
    match ps.head?.bind (·.key) with
    | none =>
      let v := Config.freeWord s1.tick 1
      .ok (.fall 4) ((farRead acq (pas.headD 0) v s1).writeG d v)
    | some key =>
      let s2 := (linesOf ps).foldl (fun s n => s.shareLine s.cur.core n) s1
      if !s1.mem.isFull (key / 8) then .wait (.ldfEmpty (key / 8)) s2 else
      .ok (.fall 4) ((noteRead acq pas ps s2 true true).writeG d (BitVec.ofNat 64 (readValue s1 none ps)))

/-- The write half of an atomic at its places: bytes and tag (R296, R302), with the token where `access` has put it. -/
def atomicWrite (va : Word) (n : Nat) (rel : Option (BitVec 3)) (ps : List Place) (y : Nat) (s : State) : State :=
  let tag := tagFor s.cur.core s.cur.ctx (s.me.task.bind (·.launch)) (widest rel s.me.relScope) va
  { s with mem := writeBytes s.mem (ps.zip (toBytes y n)) tag true (some s.cur.core) }.wrote s.cur.core s.cur.ctx ps
/-- The line of an atomic that is performed in the L1D: it is in X there, and the operation is not one made at home (R289). -/
def State.inL1d (s : State) (home : Bool) (n : Nat) : Bool := !home && (s.mem.line n).owner = some (s.cur.core, true)
/-- An atomic that sends the token home waits for the stores that its holder, its own core too, still has to the line (R289). -/
def leavesLate (home : Bool) (ps : List Place) (s : State) : Bool :=
  (linesOf ps).any fun n => !s.inL1d home n && s.holdsBack none n
/-- Where an atomic is performed: in the L1D, where the line is in X there, else at home with the token (R289). -/
def atomicToken (home write : Bool) (ps : List Place) (s : State) : State :=
  if (linesOf ps).all (s.inL1d home) then
    if write then (linesOf ps).foldl (fun s n => s.takeToken s.cur.core n) s else s
  else if write then s.atHome (some s.cur.core) ps else s.toHome (some s.cur.core) ps

/-- What orders an atomic and is still to come: the stores that a fence before it covers, and by its release half every
store before it, and the acknowledgements of writes to other packages (R156, R296, R298). -/
def atomicWaits (rel : Option (BitVec 3)) (x : Ctx) (m : Memory) : Bool :=
  (rel.isSome && !x.stores.isEmpty) || !x.storesDone x.fenceUpTo || ((rel = some 5 || rel = some 6) && !m.pending.isEmpty)

/-- Bytes of another package that are no longer what this one wrote. -/
def forgetFar (m : Memory) (pas : List Nat) : Memory := { m with far := m.far.filter fun c => !pas.contains c.1 }

/-- One atomic read-modify-write (R149): `f` gives the new value, or none where nothing is written (R150). -/
def atomicMem (va : Word) (n : Nat) (ord : BitVec 2) (scope : BitVec 3) (home : Bool) (f : Nat → Option Nat)
    (d : BitVec 5) (s : State) : Res :=
  if 2 ^ 56 ≤ va.toNat then .trap (rangeFault 3 s.me.ctl.priv va) s else
  if va.toNat % n ≠ 0 then .trap (misaligned va) s else
  let acq := acqOf ord scope
  access va n .rmw .word scope.toNat false .token s (hold := atomicWaits (relOf ord scope) s.me s.mem) fun pas ps _ s1 =>
    if leavesLate home ps s1 then .wait .interlock s else
    match ps.head? with
    | some (.remote pa) =>
      let v := Config.freeWord s1.tick 1
      .ok (.fall 4) ((farRead acq pa v { s1 with mem := forgetFar s1.mem pas }).writeG d (sextW (8 * n) v))
    | _ =>
      let x := readValue s1 none ps
      let s2 := atomicToken home (f x).isSome ps (noteRead acq pas ps s1 true true)
      let s3 := match f x with
        | none => s2
        | some y => atomicWrite va n (relOf ord scope) ps y s2
      .ok (.fall 4) (s3.writeG d (sextW (8 * n) (BitVec.ofNat 64 x)))

/-- An atomic by its encoding (R149): `f` takes the width, the old value, the operand and the expected value. -/
def atomicOp (maj k m1 : Nat) (d a b : BitVec 5) (o : BitVec 2) (sc : BitVec 3) (w : BitVec 1) (home : Bool)
    (f : Nat → Nat → Nat → Nat → Option Nat) (s : State) : Host.Outcome State Fault Refusal :=
  let n := if w = 1 then 8 else 4
  withRegs (wordM maj k o.toNat sc.toNat b.toNat a.toNat d.toNat (m1 * 2 + w.toNat))
      ([.g a, .g b] ++ if maj = 0x16 && k = 0 && m1 = 1 then [.g d] else []) [.g d] s fun s =>
    let y := (s.me.getG b).toNat % 2 ^ (8 * n)
    let e := (s.me.getG d).toNat % 2 ^ (8 * n)
    atomicMem (s.me.getG a) n o sc home (fun x => f (8 * n) x y e) d s

/-- The signed reading of the low bits of a number. -/
def signedN (w x : Nat) : Int := if 2 ^ (w - 1) ≤ x then (x : Int) - 2 ^ w else x
/-- One of two numbers, as a written value. -/
def pick2 (c : Bool) (x y : Nat) : Option Nat := some (if c then x else y)

/-! ## Instructions -/

/-- LD, base form (R139, R144). -/
def execLd (d a : BitVec 5) (o : BitVec 2) (sc : BitVec 3) (i : BitVec 5) (w : BitVec 2) (s : State) :
    Host.Outcome State Fault Refusal :=
  withRegs (wordM 0x10 1 o.toNat sc.toNat i.toNat a.toNat d.toNat w.toNat) [.g a] [.g d] s fun s =>
    loadMem (baseAddr s.me a (i.toNat * (2 ^ w.toNat))) (2 ^ w.toNat) o sc (loadG d (2 ^ w.toNat)) s
/-- LD, index form (R139, R144). -/
def execLdIndex (d a b : BitVec 5) (o : BitVec 2) (sc : BitVec 3) (w : BitVec 2) (s : State) :
    Host.Outcome State Fault Refusal :=
  withRegs (wordM 0x10 0 o.toNat sc.toNat b.toNat a.toNat d.toNat w.toNat) [.g a, .g b] [.g d] s fun s =>
    loadMem (s.me.getG a + s.me.getG b) (2 ^ w.toNat) o sc (loadG d (2 ^ w.toNat)) s
/-- LD, region form (R139, R144). -/
def execLdRegion (d a : BitVec 5) (n : BitVec 4) (i : BitVec 5) (w : BitVec 2) (s : State) :
    Host.Outcome State Fault Refusal :=
  withRegs (wordM 0x10 (n.toNat / 8) 3 (n.toNat % 8) i.toNat a.toNat d.toNat w.toNat) [.g a] [.g d] s fun s =>
    match regionAddr s.me a n (i.toNat * (2 ^ w.toNat)) (2 ^ w.toNat) with
    | .error t => .trap t s
    | .ok va => loadMem va (2 ^ w.toNat) 0 0 (loadG d (2 ^ w.toNat)) s
/-- ST, base form (R139, R144). -/
def execSt (d a : BitVec 5) (o : BitVec 2) (sc : BitVec 3) (i : BitVec 5) (w : BitVec 2) (s : State) :
    Host.Outcome State Fault Refusal :=
  withRegs (wordM 0x11 1 o.toNat sc.toNat i.toNat a.toNat d.toNat w.toNat) [.g a, .g d] [] s fun s =>
    storeMem (baseAddr s.me a (i.toNat * (2 ^ w.toNat))) (2 ^ w.toNat) ((s.me.getG d).setWidth 128) .plain o sc s
/-- ST, index form (R139, R144). -/
def execStIndex (d a b : BitVec 5) (o : BitVec 2) (sc : BitVec 3) (w : BitVec 2) (s : State) :
    Host.Outcome State Fault Refusal :=
  withRegs (wordM 0x11 0 o.toNat sc.toNat b.toNat a.toNat d.toNat w.toNat) [.g a, .g b, .g d] [] s fun s =>
    storeMem (s.me.getG a + s.me.getG b) (2 ^ w.toNat) ((s.me.getG d).setWidth 128) .plain o sc s
/-- ST, region form (R139, R144). -/
def execStRegion (d a : BitVec 5) (n : BitVec 4) (i : BitVec 5) (w : BitVec 2) (s : State) :
    Host.Outcome State Fault Refusal :=
  withRegs (wordM 0x11 (n.toNat / 8) 3 (n.toNat % 8) i.toNat a.toNat d.toNat w.toNat) [.g a, .g d] [] s fun s =>
    match regionAddr s.me a n (i.toNat * (2 ^ w.toNat)) (2 ^ w.toNat) with
    | .error t => .trap t s
    | .ok va => storeMem va (2 ^ w.toNat) ((s.me.getG d).setWidth 128) .plain 0 0 s
/-- LDV, base form (R139, R145). -/
def execLdv (d a : BitVec 5) (o : BitVec 2) (sc : BitVec 3) (i : BitVec 5) (s : State) :
    Host.Outcome State Fault Refusal :=
  withRegs (wordM 0x12 1 o.toNat sc.toNat i.toNat a.toNat d.toNat 0) [.g a] [.v (d.setWidth 4)] s fun s =>
    loadMem (baseAddr s.me a (i.toNat * 16)) 16 o sc (loadV (d.setWidth 4)) s
/-- LDV, index form (R139, R145). -/
def execLdvIndex (d a b : BitVec 5) (o : BitVec 2) (sc : BitVec 3) (s : State) :
    Host.Outcome State Fault Refusal :=
  withRegs (wordM 0x12 0 o.toNat sc.toNat b.toNat a.toNat d.toNat 0) [.g a, .g b] [.v (d.setWidth 4)] s fun s =>
    loadMem (s.me.getG a + s.me.getG b) 16 o sc (loadV (d.setWidth 4)) s
/-- LDV, region form (R139, R145). -/
def execLdvRegion (d a : BitVec 5) (n : BitVec 4) (i : BitVec 5) (s : State) :
    Host.Outcome State Fault Refusal :=
  withRegs (wordM 0x12 (n.toNat / 8) 3 (n.toNat % 8) i.toNat a.toNat d.toNat 0) [.g a] [.v (d.setWidth 4)] s fun s =>
    match regionAddr s.me a n (i.toNat * 16) 16 with
    | .error t => .trap t s
    | .ok va => loadMem va 16 0 0 (loadV (d.setWidth 4)) s
/-- STV, base form (R139, R145). -/
def execStv (d a : BitVec 5) (o : BitVec 2) (sc : BitVec 3) (i : BitVec 5) (s : State) :
    Host.Outcome State Fault Refusal :=
  withRegs (wordM 0x12 1 o.toNat sc.toNat i.toNat a.toNat d.toNat 1) [.g a, .v (d.setWidth 4)] [] s fun s =>
    storeMem (baseAddr s.me a (i.toNat * 16)) 16 (s.me.getV (d.setWidth 4)) .plain o sc s
/-- STV, index form (R139, R145). -/
def execStvIndex (d a b : BitVec 5) (o : BitVec 2) (sc : BitVec 3) (s : State) :
    Host.Outcome State Fault Refusal :=
  withRegs (wordM 0x12 0 o.toNat sc.toNat b.toNat a.toNat d.toNat 1) [.g a, .g b, .v (d.setWidth 4)] [] s fun s =>
    storeMem (s.me.getG a + s.me.getG b) 16 (s.me.getV (d.setWidth 4)) .plain o sc s
/-- STV, region form (R139, R145). -/
def execStvRegion (d a : BitVec 5) (n : BitVec 4) (i : BitVec 5) (s : State) :
    Host.Outcome State Fault Refusal :=
  withRegs (wordM 0x12 (n.toNat / 8) 3 (n.toNat % 8) i.toNat a.toNat d.toNat 1) [.g a, .v (d.setWidth 4)] [] s fun s =>
    match regionAddr s.me a n (i.toNat * 16) 16 with
    | .error t => .trap t s
    | .ok va => storeMem va 16 (s.me.getV (d.setWidth 4)) .plain 0 0 s
/-- LDF, base form (R139, R147). -/
def execLdf (d a : BitVec 5) (o : BitVec 2) (sc : BitVec 3) (i : BitVec 5) (s : State) :
    Host.Outcome State Fault Refusal :=
  withRegs (wordM 0x13 1 o.toNat sc.toNat i.toNat a.toNat d.toNat 0) [.g a] [.g d] s fun s =>
    loadFull (baseAddr s.me a (i.toNat * 8)) o sc d s
/-- LDF, index form (R139, R147). -/
def execLdfIndex (d a b : BitVec 5) (o : BitVec 2) (sc : BitVec 3) (s : State) :
    Host.Outcome State Fault Refusal :=
  withRegs (wordM 0x13 0 o.toNat sc.toNat b.toNat a.toNat d.toNat 0) [.g a, .g b] [.g d] s fun s =>
    loadFull (s.me.getG a + s.me.getG b) o sc d s
/-- STF, base form (R139, R147). -/
def execStf (d a : BitVec 5) (o : BitVec 2) (sc : BitVec 3) (i : BitVec 5) (s : State) :
    Host.Outcome State Fault Refusal :=
  withRegs (wordM 0x13 1 o.toNat sc.toNat i.toNat a.toNat d.toNat 1) [.g a, .g d] [] s fun s =>
    storeMem (baseAddr s.me a (i.toNat * 8)) 8 ((s.me.getG d).setWidth 128) .setFull o sc s
/-- STF, index form (R139, R147). -/
def execStfIndex (d a b : BitVec 5) (o : BitVec 2) (sc : BitVec 3) (s : State) :
    Host.Outcome State Fault Refusal :=
  withRegs (wordM 0x13 0 o.toNat sc.toNat b.toNat a.toNat d.toNat 1) [.g a, .g b, .g d] [] s fun s =>
    storeMem (s.me.getG a + s.me.getG b) 8 ((s.me.getG d).setWidth 128) .setFull o sc s
/-- STE, base form (R139, R147). -/
def execSte (d a : BitVec 5) (o : BitVec 2) (sc : BitVec 3) (i : BitVec 5) (s : State) :
    Host.Outcome State Fault Refusal :=
  withRegs (wordM 0x13 1 o.toNat sc.toNat i.toNat a.toNat d.toNat 2) [.g a, .g d] [] s fun s =>
    storeMem (baseAddr s.me a (i.toNat * 8)) 8 ((s.me.getG d).setWidth 128) .setEmpty o sc s
/-- STE, index form (R139, R147). -/
def execSteIndex (d a b : BitVec 5) (o : BitVec 2) (sc : BitVec 3) (s : State) :
    Host.Outcome State Fault Refusal :=
  withRegs (wordM 0x13 0 o.toNat sc.toNat b.toNat a.toNat d.toNat 2) [.g a, .g b, .g d] [] s fun s =>
    storeMem (s.me.getG a + s.me.getG b) 8 ((s.me.getG d).setWidth 128) .setEmpty o sc s
/-- LD of a doubleword, 16-bit form (R73). -/
def execLdDCm (d b o : BitVec 4) (s : State) : Host.Outcome State Fault Refusal :=
  withRegs (2 * 2 ^ 13 + d.toNat * 256 + b.toNat * 16 + o.toNat) [.g (b.setWidth 5)] [.g (d.setWidth 5)] s fun s =>
    (loadMem (baseAddr s.me (b.setWidth 5) (o.toNat * 8)) 8 0 0 (loadG (d.setWidth 5) 8) s).short
/-- ST of a doubleword, 16-bit form (R73). -/
def execStDCm (d b o : BitVec 4) (s : State) : Host.Outcome State Fault Refusal :=
  withRegs (2 * 2 ^ 13 + 4096 + d.toNat * 256 + b.toNat * 16 + o.toNat) [.g (b.setWidth 5), .g (d.setWidth 5)] [] s fun s =>
    (storeMem (baseAddr s.me (b.setWidth 5) (o.toNat * 8)) 8 ((s.me.getG (d.setWidth 5)).setWidth 128) .plain 0 0 s).short
/-- AADD (R149). -/
def execAadd (d a b : BitVec 5) (o : BitVec 2) (sc : BitVec 3) (w : BitVec 1) (s : State) :
    Host.Outcome State Fault Refusal :=
  atomicOp 0x14 0 0 d a b o sc w false (fun w x y _ => some ((x + y) % 2 ^ w)) s
/-- AAND (R149). -/
def execAand (d a b : BitVec 5) (o : BitVec 2) (sc : BitVec 3) (w : BitVec 1) (s : State) :
    Host.Outcome State Fault Refusal :=
  atomicOp 0x14 0 1 d a b o sc w false (fun _ x y _ => some (x &&& y)) s
/-- AOR (R149). -/
def execAor (d a b : BitVec 5) (o : BitVec 2) (sc : BitVec 3) (w : BitVec 1) (s : State) :
    Host.Outcome State Fault Refusal :=
  atomicOp 0x14 1 0 d a b o sc w false (fun _ x y _ => some (x ||| y)) s
/-- AXOR (R149). -/
def execAxor (d a b : BitVec 5) (o : BitVec 2) (sc : BitVec 3) (w : BitVec 1) (s : State) :
    Host.Outcome State Fault Refusal :=
  atomicOp 0x14 1 1 d a b o sc w false (fun _ x y _ => some (x ^^^ y)) s
/-- AMIN (R149). -/
def execAmin (d a b : BitVec 5) (o : BitVec 2) (sc : BitVec 3) (w : BitVec 1) (s : State) :
    Host.Outcome State Fault Refusal :=
  atomicOp 0x15 0 0 d a b o sc w false (fun w x y _ => pick2 (signedN w x ≤ signedN w y) x y) s
/-- AMAX (R149). -/
def execAmax (d a b : BitVec 5) (o : BitVec 2) (sc : BitVec 3) (w : BitVec 1) (s : State) :
    Host.Outcome State Fault Refusal :=
  atomicOp 0x15 0 1 d a b o sc w false (fun w x y _ => pick2 (signedN w y ≤ signedN w x) x y) s
/-- AMINN (R149). -/
def execAminn (d a b : BitVec 5) (o : BitVec 2) (sc : BitVec 3) (w : BitVec 1) (s : State) :
    Host.Outcome State Fault Refusal :=
  atomicOp 0x15 1 0 d a b o sc w false (fun _ x y _ => pick2 (x ≤ y) x y) s
/-- AMAXN (R149). -/
def execAmaxn (d a b : BitVec 5) (o : BitVec 2) (sc : BitVec 3) (w : BitVec 1) (s : State) :
    Host.Outcome State Fault Refusal :=
  atomicOp 0x15 1 1 d a b o sc w false (fun _ x y _ => pick2 (y ≤ x) x y) s
/-- ASWP (R149). -/
def execAswp (d a b : BitVec 5) (o : BitVec 2) (sc : BitVec 3) (w : BitVec 1) (s : State) :
    Host.Outcome State Fault Refusal :=
  atomicOp 0x16 0 0 d a b o sc w false (fun _ _ y _ => some y) s
/-- ACAS (R150). -/
def execAcas (d a b : BitVec 5) (o : BitVec 2) (sc : BitVec 3) (w : BitVec 1) (s : State) :
    Host.Outcome State Fault Refusal :=
  atomicOp 0x16 0 1 d a b o sc w false (fun _ x y e => if x = e then some y else none) s
/-- AFADD (R151). -/
def execAfadd (d a b : BitVec 5) (o : BitVec 2) (sc : BitVec 3) (w : BitVec 1) (s : State) :
    Host.Outcome State Fault Refusal :=
  atomicOp 0x16 1 0 d a b o sc w true (fun w x y _ => some ((if w = 64 then f64 else f32).add .rne x y).1) s

/-! ## Fences (R156 to R158) -/

/-- FENCE (R156). -/
def execFence (o : BitVec 2) (sc : BitVec 3) (s : State) : Host.Outcome State Fault Refusal :=
  withRegs (wordM 0x17 0 o.toNat sc.toNat 0 0 0 0) [] [] s (fenceAt o sc)

/-- The pages of a range of `len` bytes from `base`, below 2^56. -/
def rangePages (base len : Nat) : List Nat :=
  if len = 0 then [] else
  let last := min ((base + len - 1) / 2 ^ 14) (2 ^ 42 - 1)
  (List.range (last + 1 - base / 2 ^ 14)).map (base / 2 ^ 14 + ·)
/-- A present page's physical address (R358). -/
def pageAt (s : State) (root : BitVec 48) (page : Nat) : Option Nat :=
  match walk s root (page * 2 ^ 14) with
  | .leaf l e => some (ptePa e + page * 2 ^ 14 % pageSize l)
  | _ => none

/-- ALIASF: the range is aligned by the memory system (ALIASF_COMPLETE), and then it acts as a full fence (R157). -/
def aliasRange (base len : Word) (s : State) : Res :=
  let x := s.me
  match x.aliasing with
  | some (_, _, true) =>
    let far := (rangePages base.toNat len.toNat).any fun p => match pageAt s x.ctl.ptroot p with
      | some pa => pa / 2 ^ 51 ≠ s.pkg.toNat
      | none => false
    (fenceAt 3 (if far then 5 else 4) s).bind fun s1 => .ok (.fall 4) (s1.setMe { s1.me with aliasing := none })
  | some _ => .wait .interlock s
  | none => .wait .interlock (s.setMe { x with aliasing := some (base, len, false) })
/-- ALIASF (R157). -/
def execAliasf (a b : BitVec 5) (s : State) : Host.Outcome State Fault Refusal :=
  withRegs (wordM 0x17 0 0 0 b.toNat a.toNat 0 1) [.g a, .g b] [] s fun s =>
    aliasRange (s.me.getG a) (s.me.getG b) s

/-- IFENCE: waits for the context's stores, discards the L1I's copies, and later fetches see what happens-before it
(R158). -/
def execIfence (s : State) : Host.Outcome State Fault Refusal :=
  withRegs (wordM 0x17 0 0 0 0 0 0 2) [] [] s fun s =>
    if !s.me.stores.isEmpty then .wait .interlock s else
    let s := (s.mem.l1i s.cur.core).foldl (fun s n => s.evict (.l1i s.cur.core n)) s
    .ok (.fall 4) (s.setMe { s.me with fetchAt := max s.me.fetchAt s.me.acqAt })

/-- The line of a place is requested into the L1D or the Hearth, and for a write its token; of another package a read copy at its
proxy slice. A request that something keeps is dropped, as one of a poisoned line is (R159, R292, R396). -/
def prefetchLine (write l1d : Bool) (p : Place) (s : State) : State :=
  let c := s.cur.core
  match p with
  | .dram key _ =>
    let n := (p.lineNo.getD 0)
    let held := s.blocked p || ((List.range 8).any fun i => s.mem.poison.contains (key / 64 * 8 + i))
      || (write && s.holdsBack (some c) n) || (s.askFor (some c) write p).isSome
    if held then s
    else if write then s.claimLine c n
    else if l1d then s.shareLine c n
    else s.noteRequest (some c) n
  | .remote pa =>
    if isSramPa pa || (Assoc.get? s.mem.proxy (pa / 8)).isSome || Config.flitAnswer s.tick ≠ 0 || !s.flitsReady 0 [pa] then s
    else fillProxy (pa / 64) (s.putFlits 0 [pa])
  | _ => s
/-- PFX (R159): a request that would fault is dropped, and so is one to a space that takes none (R141). -/
def prefetch (va : Word) (write l1d : Bool) (s : State) : State :=
  let x := s.me
  match translate s (.data s.cur.core) x.ctl.ptroot va (if write then .write else .read) x.ctl.priv with
  | .error _ => s
  | .ok (pa, s1) =>
    match place s1 x.ctl.hkey pa with
    | .error _ => s1
    | .ok p => prefetchLine write l1d p s1
/-- PFX changes no architectural state (R159). -/
def execPfx (a i : BitVec 5) (w : BitVec 1) (l : BitVec 2) (s : State) : Host.Outcome State Fault Refusal :=
  withRegs (wordM 0x17 0 0 0 i.toNat a.toNat (w.toNat * 4 + l.toNat) 3) [.g a] [] s fun s =>
    .ok (.fall 4) (prefetch (baseAddr s.me a (i.toNat * 64)) (w = 1) (l = 0) s)

/-! ## Bank-side operations (R160) -/

/-- Bytes of an NM operation's word. -/
def NmKind.size : NmKind → Nat
  | .addS32 => 4
  | .addS64 => 8
  | .addF32 => 4
  | .addF64 => 8
  | .red _ ty => if bit ty 0 then 8 else 4
/-- The new value of the word (R160). -/
def NmKind.apply (k : NmKind) (x y : Nat) : Nat :=
  let w := 8 * k.size
  let y := y % 2 ^ w
  match k with
  | .addS32 => (x + y) % 2 ^ 32
  | .addS64 => (x + y) % 2 ^ 64
  | .addF32 => (f32.add .rne x y).1
  | .addF64 => (f64.add .rne x y).1
  | .red op ty =>
    let less := if bit ty 1 then x ≤ y else signedN w x ≤ signedN w y
    let more := if bit ty 1 then y ≤ x else signedN w y ≤ signedN w x
    match op.toNat with
    | 0 => if less then x else y
    | 1 => if more then x else y
    | 2 => x &&& y
    | 3 => x ||| y
    | _ => x ^^^ y
/-- The type codes of NMADD (R82). -/
def nmAddKind (t : BitVec 5) : NmKind :=
  match t.toNat with
  | 0 => .addS32
  | 1 => .addS64
  | 2 => .addF32
  | _ => .addF64

/-- An NM operation is issued: checked at the core, performed later (R160). -/
def nmIssue (k : NmKind) (va y : Word) (s : State) : Res :=
  if 2 ^ 56 ≤ va.toNat then .trap (rangeFault 1 s.me.ctl.priv va) s else
  if va.toNat % k.size ≠ 0 then .trap (misaligned va) s else
  access va k.size .write .bank 0 true .token s fun pas _ _ s1 =>
    let x := s1.me
    .ok (.fall 4) (s1.setMe { x with serial := x.serial + 1
                                     nms := x.nms ++ [⟨x.serial, va, pas.headD 0, k, y⟩] })
/-- NMADD (R160). -/
def execNmadd (a b t : BitVec 5) (s : State) : Host.Outcome State Fault Refusal :=
  withRegs (wordM 0x17 1 0 0 b.toNat a.toNat t.toNat 0) [.g a, .g b] [] s fun s =>
    nmIssue (nmAddKind t) (s.me.getG a) (s.me.getG b) s
/-- NMRED (R160). -/
def execNmred (a b : BitVec 5) (o : BitVec 3) (t : BitVec 2) (s : State) : Host.Outcome State Fault Refusal :=
  withRegs (wordM 0x17 1 0 0 b.toNat a.toNat (o.toNat * 4 + t.toNat) 1) [.g a, .g b] [] s fun s =>
    nmIssue (.red o t) (s.me.getG a) (s.me.getG b) s
/-- NMFENCE: every NM operation the context issued before has been performed, and its later loads see them (R160). -/
def execNmfence (s : State) : Host.Outcome State Fault Refusal :=
  withRegs (wordM 0x17 1 0 0 0 0 0 2) [] [] s fun s =>
    if s.me.nms.isEmpty && !(s.bank.any fun b => b.1 = s.cur.core && b.2.1 = s.cur.ctx) then
      .ok (.fall 4) (s.setMe { s.me with floor := s.me.nmDone.foldl (fun f p => Assoc.put f p.1 p.2) s.me.floor, nmDone := [] })
    else .wait .interlock s

end Sys2Proof.Machine
end

