-- ==== Sys2Proof/Machine/Tiles.lean ====
section
/-! DEFINITION. The arithmetic of the Anvil: tiles in ring slots (R24, R29 to R31, R192, R199), groups and scaling (R46
to R52), DIST, ADRAIN, CUPD and ACCSC (R201 to R205). -/

namespace Sys2Proof.Machine

/-! ## Elements and slots -/

/-- Bits of an element kind (R23 to R25). -/
def Elem.bits : Elem → Nat
  | .bf16 => 16
  | .f16 => 16
  | .e2m1 => 4
  | .s4 => 4
  | _ => 8
/-- An exact integer as a value; zero is +0. -/
def intNum (i : Int) : Num := if i = 0 then .zero false else .fin (i < 0) i.natAbs 0
/-- The value of an element's code (R24 to R26). -/
def Elem.num (e : Elem) (x : Nat) : Num :=
  match e with
  | .e4m3 => Fmt.decode Sys2Proof.Machine.e4m3 x
  | .ec8 => Fmt.decode Sys2Proof.Machine.e4m3 x
  | .e5m2 => Fmt.decode Sys2Proof.Machine.e5m2 x
  | .e2m1 => Fmt.decode Sys2Proof.Machine.e2m1 x
  | .bf16 => Fmt.decode Sys2Proof.Machine.bf16 x
  | .f16 => Fmt.decode Sys2Proof.Machine.f16 x
  | .s8 => intNum (sval (BitVec.ofNat 8 x) 8)
  | .s4 => intNum (sval (BitVec.ofNat 4 x) 4)

/-- A slot's bytes (R192). -/
abbrev Slot := List Byte
def Slot.n (t : Slot) (o k : Nat) : Nat := fromBytes ((t.drop o).take k)
/-- `k` elements of `bits` bits from byte `o`, packed as R24. -/
def Slot.codes (t : Slot) (o bits k : Nat) : List Nat :=
  let l := (t.drop o).take (k * bits / 8)
  if bits = 4 then l.flatMap fun b => [b.toNat % 16, b.toNat / 16]
  else if bits = 8 then l.map (·.toNat)
  else (List.range k).map fun i => fromBytes ((l.drop (2 * i)).take 2)

/-- The next exponent token of a table (R30): the exponent and the remaining bits. -/
def ecToken (tbl : Nat) (base : Int) (bits : List Bool) : Option (Int × List Bool) :=
  let raw (l : List Bool) : Option (Int × List Bool) :=
    match l with
    | a :: b :: c :: d :: t => some (((if a then 8 else 0) + (if b then 4 else 0) + (if c then 2 else 0) + if d then 1 else 0 : Int), t)
    | _ => none
  match tbl, bits with
  | 0, false :: t => some (base, t)
  | 0, true :: false :: false :: t => some (base + 1, t)
  | 0, true :: false :: true :: t => some (base - 1, t)
  | 0, true :: true :: false :: false :: t => some (base + 2, t)
  | 0, true :: true :: false :: true :: t => some (base - 2, t)
  | 0, true :: true :: true :: t => raw t
  | 1, false :: false :: t => some (base, t)
  | 1, false :: true :: false :: t => some (base + 1, t)
  | 1, false :: true :: true :: t => some (base - 1, t)
  | 1, true :: false :: false :: t => some (base + 2, t)
  | 1, true :: false :: true :: t => some (base - 2, t)
  | 1, true :: true :: false :: false :: t => some (base + 3, t)
  | 1, true :: true :: false :: true :: t => some (base - 3, t)
  | 1, true :: true :: true :: t => raw t
  | 2, false :: t => some (base, t)
  | 2, true :: false :: t => some (base - 1, t)
  | 2, true :: true :: false :: t => some (base - 2, t)
  | 2, true :: true :: true :: false :: t => some (base - 3, t)
  | 2, true :: true :: true :: true :: t => raw t
  | 3, t => raw t
  | _, _ => none
/-- `n` tokens (R30, R31): none where one runs out of bits or leaves 0 to 15. -/
def ecTokens (tbl : Nat) (base : Int) : Nat → List Bool → Option (List Nat × List Bool)
  | 0, bits => some ([], bits)
  | n + 1, bits =>
    match ecToken tbl base bits with
    | none => none
    | some (e, t) =>
      if e < 0 || 15 < e then none else
      match ecTokens tbl base n t with
      | none => none
      | some (l, r) => some (e.toNat :: l, r)
/-- The bits of a body, from the top of halfword 0 downward (R29). -/
def ecBits (l : List Byte) : List Bool :=
  (List.range (l.length / 2)).flatMap fun i =>
    let h := fromBytes ((l.drop (2 * i)).take 2)
    (List.range 16).map fun j => h.testBit (15 - j)
/-- The 64 e4m3 codes of a block at a byte of a slot, none where it is malformed (R29 to R31). -/
def ecBlock (t : Slot) (o : Nat) : Option (List Nat) :=
  let h := t.n o 2
  let blen := nbits h 1 9
  if h % 2 = 1 || 32 < blen || t.length < o + 34 + 2 * blen then none else
  match ecTokens (nbits h 10 2) (nbits h 12 4) 64 (ecBits ((t.drop (o + 34)).take (2 * blen))) with
  | none => none
  | some (es, rest) =>
    if 16 ≤ rest.length then none else
    some ((List.range 64).map fun i =>
      let nib := nbits (t.n (o + 2 + i / 2) 1) (4 * (i % 2)) 4
      nib / 8 * 128 + (es.getD i 0) * 8 + nib % 8)
/-- `k` consecutive blocks: the codes, and whether one is malformed. -/
def ecRow (t : Slot) : Nat → Nat → List Nat × Bool
  | 0, _ => ([], false)
  | k + 1, o =>
    let rest := ecRow t k (o + 34 + 2 * nbits (t.n o 2) 1 9)
    match ecBlock t o with
    | some l => (l ++ rest.1, rest.2)
    | none => (List.replicate 64 0x7F ++ rest.1, true)

/-- The 64 rows of an A tile, or columns of a B tile, of K elements, and whether an ec8 block is malformed (R192). An
ec8 block at an odd byte, which an odd OFF gives, is decoded there: the model's choice (log 19). -/
def Slot.rows (t : Slot) (e : Elem) (k : Nat) : List (List Num) × Bool :=
  if e = .ec8 then
    let rs := (List.range 64).map fun i => ecRow t 4 (512 + t.n (16 + 2 * i) 2)
    (rs.map fun r => r.1.map e.num, rs.any (·.2))
  else ((List.range 64).map fun i => (t.codes (512 + i * (k * e.bits / 8)) e.bits k).map e.num, false)
/-- ZROW of an A tile (R192). -/
def Slot.zrow (t : Slot) (i : Nat) : Bool := (t.n 0 8).testBit i

/-! ## Groups (R46, R49) -/

/-- A term of a sum, with whether forming it raises Invalid. -/
abbrev Term := Num × Bool
def qnan : Num := .nan false 0 false
/-- A product of two elements (R49). -/
def mulTerm (a b : Num) : Term :=
  let sig := a.isSnan || b.isSnan
  if a.isNan || b.isNan then (qnan, sig) else if a.badMul b then (qnan, true) else (a.mul b, false)
/-- A DIST term |a − b| or (a − b)² (R201). -/
def distTerm (squared : Bool) (a b : Num) : Term :=
  if a.isNan || b.isNan then (qnan, a.isSnan || b.isSnan) else
  if a.isInf && b.isInf && a.neg = b.neg then (qnan, true) else
  if a.isInf || b.isInf then (.inf false, false) else
  let d := a.dyad.sub b.dyad
  let d := if squared then d.mul d else ⟨d.k.natAbs, d.e⟩
  (d.toNum false, false)
/-- The exact sum of a group of terms, or of groups (R46, R48, R49): an exactly zero sum is +0; opposite infinities raise Invalid
beside a NaN too. -/
def groupSum (l : List Term) : Term :=
  let nan := l.any (·.1.isNan)
  let pos := l.any fun t => t.1 = .inf false
  let neg := l.any fun t => t.1 = .inf true
  let inv := l.any (·.2)
  if nan then (qnan, inv || (pos && neg)) else
  if pos && neg then (qnan, true) else
  if pos then (.inf false, inv) else if neg then (.inf true, inv) else
  ((l.foldl (fun a t => a.add t.1.dyad) Dyad.zero).toNum false, inv)
/-- Scaling is exact; a zero that meets an infinity is a NaN with Invalid (R47, R49). A zero has the sign of the product, so that a
+0 group under a negative scale leaves an accumulator word of −0 as it is: the spec gives such a zero no sign, and this one is the
model's choice (log 18). -/
def scaleMul (a b : Num) : Term :=
  if a.isNan || b.isNan then (qnan, false) else if a.badMul b then (qnan, true) else (a.mul b, false)
/-- A scale f × 2^(e − 127) (R27, R47, R49). -/
def scaleOf (f : BitVec 32) (e : Nat) : Term :=
  let x := f32.decode f.toNat
  if x.isNan then (qnan, x.isSnan || e = 255) else
  if e = 255 then (qnan, true) else scaleMul x (.fin false 1 ((e : Int) - 127))
def nv (b : Bool) : FFlags := if b then flagNV else 0
/-- round_rne_f32(t + v), with NaNs as R49 gives them; of two zeros the sum has R33's sign, with the sign of a scaled zero as
scaleMul chooses it (log 18). -/
def accAdd (t : BitVec 32) (v : Num) : BitVec 32 × FFlags :=
  let x := f32.decode t.toNat
  if x.isNan then (0x7FC00000, nv x.isSnan) else
  if v.isNan then (0x7FC00000, 0) else
  let r := f32.addNum .rne x v
  (BitVec.ofNat 32 r.1, r.2)
/-- Consecutive pieces of `n` of a list. -/
def chunks {α : Type} (n : Nat) (l : List α) : List (List α) :=
  (List.range (l.length / n)).map fun i => (l.drop (n * i)).take n
/-- One output element: its groups in order, each scaled and added once (R47). -/
def accumulate (t : BitVec 32) (groups : List Term) (scales : List Term) : BitVec 32 × FFlags :=
  (groups.zip scales).foldl (fun a g =>
    let p := scaleMul g.1.1 g.2.1
    let r := accAdd a.1 p.1
    (r.1, a.2 ||| r.2 ||| nv (g.1.2 || g.2.2 || p.2))) (t, 0)

/-! ## Tiles of the accumulator (R198) -/

/-- A tile: 4,096 words, word 64i + j; one that is not listed is 0. -/
abbrev Tile := Assoc (BitVec 32)
def Tile.word (t : Tile) (i : Nat) : BitVec 32 := Assoc.getD t i 0
/-- A tile from its words. -/
def tileOf (l : List (BitVec 32)) : Tile := (l.zipIdx.map fun p => (p.2, p.1)).filter fun p => p.2 ≠ 0
def Tile.set (t : Tile) (i : Nat) (w : BitVec 32) : Tile := if w = 0 then Assoc.del t i else Assoc.put t i w
/-- Every word of a tile, 0 to 4,095. -/
def Tile.words (t : Tile) : List (BitVec 32) := (List.range 4096).map t.word
/-- A tile computed element by element with flags. -/
def tileMap (f : Nat → Nat → BitVec 32 × FFlags) : Tile × FFlags :=
  let l := (List.range 4096).map fun n => f (n / 64) (n % 64)
  (tileOf (l.map (·.1)), l.foldl (fun a p => a ||| p.2) 0)

/-- A tile pair's geometry and scale registers at the start of a command (R47, R48, R193). -/
structure Scales where
  scaled : Bool
  fine : Bool
  geomA : BitVec 2
  geomB : BitVec 2
  f0 : BitVec 32
  f1 : BitVec 32
/-- The scales of row i and column j for each group or strip, `n` of them (R47, R48, R192). -/
def Scales.rowScales (c : Scales) (a : Slot) (i n : Nat) : List Term :=
  if !c.scaled then List.replicate n (.fin false 1 0, false) else
  if c.fine then (List.range n).map fun q => scaleOf c.f0 (a.n (256 + 4 * i + q) 1)
  else List.replicate n (scaleOf c.f0 (if c.geomA = 0 then 127 else a.n (256 + i) 1))
def Scales.colScales (c : Scales) (b : Slot) (j n : Nat) : List Term :=
  if !c.scaled then List.replicate n (.fin false 1 0, false) else
  if c.fine then (List.range n).map fun q => scaleOf c.f1 (b.n (256 + q) 1)
  else List.replicate n (scaleOf c.f1 (if c.geomB = 0 then 127 else b.n (256 + j) 1))
/-- The product of the two scales of a group: Invalid of either and of zero times infinity (R49). -/
def scalePair (x y : Term) : Term :=
  let p := scaleMul x.1 y.1
  (p.1, x.2 || y.2 || p.2)
/-- A special value in a row or column (R52). -/
def special (n : Num) : Bool := n.isNan || n.isInf

/-- The sum of a stretch of K: of one group, or in fine geometry of its four groups' sums (R46, R48). -/
def stretchSum (fine : Bool) (l : List Term) : Term := if fine then groupSum ((chunks 32 l).map groupSum) else groupSum l
/-- Group size of a pair (R46). -/
def groupSize (a b : Elem) : Nat := if a.bits = 16 || b.bits = 16 then 8 else 32
/-- K of a pair (R197, R201). -/
def kOf (a b : Elem) : Nat :=
  if a.bits = 16 || b.bits = 16 then 64 else if a = .e2m1 && b = .e2m1 then 512 else 256
/-- A pair that accumulates s32 (R50). -/
def isInt (a b : Elem) : Bool := (a = .s8 || a = .s4) && b = .s8

/-- MMA (R197, R198, R200, R52). A malformed ec8 block raises Invalid also in a row that ZROW skips: R31 against R51, the model's
choice (log 19). -/
def mmaTile (a b : Elem) (c : Scales) (strict : Bool) (sa sb : Slot) (t : Tile) : Tile × FFlags :=
  let k := kOf a b
  let ra := sa.rows a k
  let rb := sb.rows b k
  let dense := strict && rb.1.any fun col => col.any special
  let rows := ra.1.zipIdx.map fun p => if sa.zrow p.2 then (if dense then some (List.replicate k (.zero false)) else none) else some p.1
  if isInt a b then
    tileMap fun i j =>
      let x := t.word (64 * i + j)
      match (rows.getD i none) with
      | none => (x, 0)
      | some r => (x + BitVec.ofInt 32 (((r.zip (rb.1.getD j [])).map fun p => (p.1.mul p.2).dyad.k).sum), 0)
  else
    let n := if c.fine then 128 else groupSize a b
    let r := tileMap fun i j =>
      let scales := (c.rowScales sa i (k / n)).zipWith scalePair (c.colScales sb j (k / n))
      let groups := match (rows.getD i none) with
        | none => List.replicate (k / n) (.zero false, false)
        | some r => (chunks n (r.zipWith mulTerm (rb.1.getD j []))).map (stretchSum c.fine)
      accumulate (t.word (64 * i + j)) groups scales
    (r.1, r.2 ||| nv (ra.2 || rb.2))

/-- The entries of a column pair of an MMAP B tile: valid, column, K index and value (R199). -/
def pairEntries (e : Elem) (entries : Nat) (b : Slot) (p : Nat) : List (Bool × Nat × Num) :=
  let w := e.bits / 8
  (List.range entries).filterMap fun i =>
    let o := 512 + (p * entries + i) * (w + 2)
    let x := b.n (o + w) 2
    if x.testBit 15 then some (x.testBit 9, nbits x 0 9, e.num (b.n o w)) else none
/-- MMAP (R199, R51, R52): logical K, valid entries by K index, everything else a skipped zero. `free` gives the words
of a column that names a K index beyond the logical K; that such an element raises no flag is the model's choice (log 19). -/
def mmapTile (e : Elem) (c : Scales) (strict : Bool) (sa sb : Slot) (free : Nat → BitVec 32) (t : Tile) : Tile × FFlags :=
  let k := if e = .bf16 then 128 else 512
  let n := if e = .bf16 then 8 else 32
  let ra := (sa.rows e k).1
  let pairs := (List.range 32).map fun p => pairEntries e k sb p
  let denseA := strict && pairs.any fun l => l.any fun x => special x.2.2
  let denseB := strict && ra.any fun r => r.any special
  tileMap fun i j =>
    let col := (pairs.getD (j / 2) []).filter fun x => x.1 = (j % 2 = 1)
    if col.any fun x => k ≤ x.2.1 then (free (64 * i + j), 0) else
    let skip := sa.zrow i && !denseA
    let row := if sa.zrow i then List.replicate k (.zero false) else ra.getD i []
    let terms (u : Nat) : List Term :=
      let mine := col.filter fun x => x.2.1 = u
      let av := row.getD u (.zero false)
      if skip then [] else
      if mine.isEmpty then (if denseB then [mulTerm av (.zero false)] else [])
      else mine.map fun x => mulTerm av x.2.2
    let groups := (List.range (k / n)).map fun g => groupSum ((List.range n).flatMap fun u => terms (g * n + u))
    accumulate (t.word (64 * i + j)) groups
      ((c.rowScales sa i (k / n)).zipWith scalePair (c.colScales sb j (k / n)))

/-- DIST (R201). -/
def distTile (squared : Bool) (e : Elem) (sa sb : Slot) (t : Tile) : Tile × FFlags :=
  let k := kOf e e
  let n := groupSize e e
  let ra := (sa.rows e k).1
  let rb := (sb.rows e k).1
  tileMap fun i j =>
    let groups := (chunks n ((ra.getD i []).zipWith (distTerm squared) (rb.getD j []))).map groupSum
    accumulate (t.word (64 * i + j)) groups (List.replicate (k / n) (.fin false 1 0, false))

/-! ## ADRAIN and CUPD (R202, R203) -/

/-- A list entry: a distance and an index. -/
abbrev Near := BitVec 32 × BitVec 32
def emptyNear : Near := (0x7F800000, 0xFFFFFFFF)
/-- The order of sort: distance, then index, ascending or descending; an empty entry last (R202). -/
def nearLt (hi : Bool) (a b : Near) : Bool :=
  if a = emptyNear then false else if b = emptyNear then true else
  let x := f32.decode a.1.toNat
  let y := f32.decode b.1.toNat
  let less := if x.isNan then false else if y.isNan then true else x.lt y
  let more := if y.isNan then false else if x.isNan then true else y.lt x
  if less then true else if more then false else if hi then b.2 < a.2 else a.2 < b.2
def insertNear (hi : Bool) (x : Near) : List Near → List Near
  | [] => [x]
  | y :: t => if nearLt hi x y then x :: y :: t else y :: insertNear hi x t
def sortNear (hi : Bool) (l : List Near) : List Near := l.foldl (fun a x => insertNear hi x a) []
/-- ADRAIN of tile m into the list tile: the two tiles afterwards (R202). -/
def drainTile (k : Nat) (hi fresh : Bool) (m l : Tile) : Tile × Tile :=
  let out := (List.range 64).foldl (fun (l : Tile) i =>
    let list := if fresh then List.replicate k emptyNear
      else (List.range k).map fun x => (l.word (64 * i + x), l.word (64 * i + 8 + x))
    let base := if fresh then 0 else l.word (64 * i + 16)
    let best := (List.range 64).foldl (fun (a : List Near) j =>
      let ix := base + BitVec.ofNat 32 j
      if ix = 0xFFFFFFFF then a else (sortNear hi (a ++ [(m.word (64 * i + j), ix)])).take k) list
    let best := best ++ List.replicate (8 - k) emptyNear
    let l := best.zipIdx.foldl (fun (l : Tile) p => (Tile.set l (64 * i + p.2) p.1.1).set (64 * i + 8 + p.2) p.1.2) l
    Tile.set l (64 * i + 16) (base + 64)) l
  ([], out)
/-- CUPD: sums into tile m, counts into column 63 of the list tile (R203). -/
def centroidTile (e : Elem) (base : Nat) (a : Slot) (m l : Tile) : Tile × Tile × FFlags :=
  let rows := (a.rows e (kOf e e)).1
  (List.range 64).foldl (fun (st : Tile × Tile × FFlags) i =>
    let c := (st.2.1.word (64 * i + 8)).toNat
    if c = 0xFFFFFFFF || c < 64 * base || 64 * base + 64 ≤ c then st else
    let row := c - 64 * base
    let m := (List.range 64).foldl (fun (p : Tile × FFlags) u =>
      let x := (rows.getD i []).getD u (.zero false)
      let r := accAdd (p.1.word (64 * row + u)) x
      (Tile.set p.1 (64 * row + u) r.1, p.2 ||| r.2 ||| nv x.isSnan)) (st.1, st.2.2)
    let n := accAdd (st.2.1.word (64 * row + 63)) (.fin false 1 0)
    (m.1, Tile.set st.2.1 (64 * row + 63) n.1, m.2 ||| n.2)) (m, l, 0)
/-- ACCSC: each word times a scale, rounded once (R205). -/
def scaleTile (s : BitVec 32) (ints : Bool) (t : Tile) : Tile × FFlags :=
  tileMap fun i j =>
    let w := t.word (64 * i + j)
    let a := if ints then intNum w.toInt else f32.decode w.toNat
    let b := f32.decode s.toNat
    let r := (f32.nanOf [a, b]).getD (if a.badMul b then f32.invalid else f32.ofNum .rne (a.mul b))
    (BitVec.ofNat 32 r.1, r.2)

end Sys2Proof.Machine
end

