-- ==== Sys2Proof/Machine/Anvil.lean ====
section
/-! DEFINITION. The Anvil: rings (R189 to R191), command issue and starting (R193 to R196), accumulator instructions
(R204 to R206), and the events that start and retire commands. -/

namespace Sys2Proof.Machine

/-! ## Rings (R189, R190) -/

/-- Fields of a ring's configuration word (R190). -/
def ringBase (w : Word) : Nat := fld w 0 10
def ringSlot (w : Word) : Nat := fld w 10 6 + 1
def ringSlots (w : Word) : Nat := fld w 16 6 + 1
def Forge.ring (f : Forge) (r : BitVec 3) : Ring := f.rings.get ⟨r.toNat, r.isLt⟩
def Forge.setRing (f : Forge) (r : BitVec 3) (x : Ring) : Forge := { f with rings := f.rings.set r.toNat x r.isLt }
/-- Banks that a configuration covers (R190). -/
def ringBanks (w : Word) : List Nat :=
  let last := (ringBase w + ringSlots w * ringSlot w - 1) / 32
  (List.range (last + 1 - ringBase w / 32)).map (ringBase w / 32 + ·)
/-- The forge of the acting core. -/
def State.myForge (s : State) : Forge := s.forge (forgeOf s.cur.core)
def State.setMyForge (s : State) (f : Forge) : State := s.setForge (forgeOf s.cur.core) f
/-- The rings a command reads, with their pop bits (R194). -/
def AnvilCmd.reads (c : AnvilCmd) : List (BitVec 3 × Bool) :=
  match c.op with
  | .adrain _ _ _ => []
  | .cupd _ _ => [(c.ringA, c.popA)]
  | _ => [(c.ringA, c.popA), (c.ringB, c.popB)]
/-- The tiles a command owns from issue to retirement (R204). -/
def AnvilCmd.owns (c : AnvilCmd) (t : BitVec 1) : Bool :=
  match c.op with
  | .adrain _ _ _ => true
  | .cupd _ _ => true
  | _ => c.tile = t
/-- The cores of a forge. -/
def forgeCores (f : ForgeId) : List CoreId := (List.range 8).map (forgeCore f)
/-- A command that names a ring is queued or in flight, or a CPYKV fills it (R190). -/
def State.ringBusy (s : State) (f : ForgeId) (r : BitVec 3) : Bool :=
  ((forgeCores f).any fun c => ((s.core c).started ++ (s.core c).cmds).any fun x => x.reads.any fun y => y.1 = r)
    || s.xfers.any fun x => x.kind = .cpykv && forgeOf x.iss.core = f && fld x.mapw 8 3 = r.toNat && x.st ≠ .complete

/-- RINGCFG set of a ring by a configuration word (R190). -/
def ringSet (r : BitVec 3) (w : Word) (s : State) : Res :=
  let f := s.myForge
  let tm := s.me.getTm (BitVec.ofNat 4 (fld w 27 4))
  if fld w 32 32 ≠ 0 || fld w 22 5 ≠ 0 || 1024 < ringBase w + ringSlots w * ringSlot w
      || (ringBanks w).any (fun b => f.roleOf b ≠ 2) || (bit w 31 && tm.isNone) then .trap (badMap 3) s else
  if s.ringBusy (forgeOf s.cur.core) r then .wait .interlock s else
  let geom := if bit w 31 then (tm.map fun m => BitVec.ofNat 2 (mapGeom m)).getD 0 else 0
  .ok (.fall 4) (s.setMyForge (f.setRing r { conf := some w, geom := geom }))
/-- RINGCFG.set (R190). -/
def execRingcfgSet (d : BitVec 5) (r : BitVec 3) (s : State) : Host.Outcome State Fault Refusal :=
  withRegs (wordT 0x2F 3 0 0 r.toNat d.toNat 0) [.g d] [] s fun s => ringSet r (s.me.getG d) s
/-- RINGCFG.reset (R190). -/
def execRingcfgReset (r : BitVec 3) (s : State) : Host.Outcome State Fault Refusal :=
  withRegs (wordT 0x2F 3 2 0 r.toNat 0 0) [] [] s fun s =>
    if s.ringBusy (forgeOf s.cur.core) r then .wait .interlock s else
    .ok (.fall 4) (s.setMyForge (s.myForge.setRing r {}))
/-- Free slots of a configured ring (R191). -/
def Ring.free (x : Ring) (w : Word) : Nat := ringSlots w + x.head - x.tail
/-- RINGCFG.push: a release at forge scope of the context's stores (R191). -/
def execRingcfgPush (d : BitVec 5) (r : BitVec 3) (s : State) : Host.Outcome State Fault Refusal :=
  withRegs (wordT 0x2F 3 1 0 r.toNat d.toNat 0) [.g d] [] s fun s =>
    let x := s.myForge.ring r
    match x.conf with
    | none => .trap (badMap 5) s
    | some w =>
      let n := (s.me.getG d).toNat
      if x.free w < n then .trap (badMap 4) s else
      let s := s.setMyForge (s.myForge.setRing r { x with tail := x.tail + n })
      .ok (.fall 4) (s.setMe { s.me with pushUpTo := s.me.serial })
/-- RINGCFG.query (R191): an acquire of the slot frees that it counts. -/
def execRingcfgQuery (d : BitVec 5) (r : BitVec 3) (s : State) : Host.Outcome State Fault Refusal :=
  withRegs (wordT 0x2F 3 3 0 r.toNat d.toNat 0) [] [.g d] s fun s =>
    let x := s.myForge.ring r
    match x.conf with
    | none => .trap (badMap 5) s
    | some w => .ok (.fall 4) ((s.acquired x.freedAt).writeG d (BitVec.ofNat 64 (x.free w * 256 + (x.tail - x.rd))))

/-! ## Issue (R193) -/

/-- The command carries block scales (R193, R198). -/
def AnvilOp.scaled : AnvilOp → Bool
  | .mma _ _ s _ => s
  | .mmap e => e = .e4m3
  | _ => false
/-- Fine geometry (R48). -/
def AnvilOp.fine : AnvilOp → Bool
  | .mma _ _ _ f => f
  | _ => false
/-- Data bytes of a side that the slot check requires, none where they vary (R197, R199, R201, R203). -/
def AnvilOp.bytes (o : AnvilOp) (side : Bool) : Option Nat :=
  match o with
  | .mma a b _ _ =>
    let e := if side then b else a
    if e = .ec8 then none else some (64 * kOf a b * e.bits / 8)
  | .mmap e => if e = .bf16 then some 16384 else some (if side then 49152 else 32768)
  | .dist _ e => some (64 * kOf e e * e.bits / 8)
  | .cupd e _ => some (64 * kOf e e * e.bits / 8)
  | .adrain _ _ _ => some 0
/-- The check of one ring: configured, and its slots hold the tile (R193). -/
def ringFits (f : Forge) (r : BitVec 3) (bytes : Option Nat) : Bool :=
  match (f.ring r).conf with
  | none => false
  | some w => match bytes with
    | none => true
    | some n => 512 + n ≤ ringSlot w * 1024
/-- The geometry rule (R193). -/
def geomOk (f : Forge) (c : AnvilCmd) : Bool :=
  let g := c.reads.map fun r => (f.ring r.1).geom
  if !c.op.scaled then true else if c.op.fine then g.all (· = 2) else g.all (· ≠ 2)

/-- A command enters the core's queue (R193). Where the checks of INFO 5 and of INFO 6 both fail the trap reports 5: R193 gives them
no order (log 19). -/
def enqueueCmd (c : AnvilCmd) (s : State) : Res :=
  let f := s.myForge
  let sides := c.reads.zip [false, true]
  if !(sides.all fun r => ringFits f r.1.1 (c.op.bytes r.2)) then .trap (badMap 5) s else
  if !geomOk f c then .trap (badMap 6) s else
  let x := s.here
  if 16 ≤ x.cmds.length then .wait .interlock s else
  .ok (.fall 4) (s.setHere { x with cmds := x.cmds ++ [{ c with seq := x.cmdSeq }], cmdSeq := x.cmdSeq + 1 })
/-- A command built from its fields and the copies taken at issue (R65, R193). -/
def anvil (word : Nat) (op : AnvilOp) (t : BitVec 1) (a b : BitVec 4) (fF : Option (BitVec 5)) (s : State) :
    Host.Outcome State Fault Refusal :=
  withAcc word (match fF with
      | some r => [.f r, .f (r + 1)]
      | none => []) [] s fun s =>
    let x := s.me
    enqueueCmd { op := op, tile := t, ringA := a.setWidth 3, popA := bit a 3, ringB := b.setWidth 3, popB := bit b 3
                 f0 := (fF.map fun r => (x.getF r).setWidth 32).getD 0
                 f1 := (fF.map fun r => (x.getF (r + 1)).setWidth 32).getD 0
                 strict := x.ctl.spx = 1, ctx := s.cur.ctx, seq := 0, upTo := x.serial } s

/-- MMA.e4m3.e4m3 (R197, R198). -/
def execMmaE4m3E4m3 (a b : BitVec 4) (fF : BitVec 5) (g t : BitVec 1) (s : State) : Host.Outcome State Fault Refusal :=
  anvil (wordT 0x2C 0 fF.toNat b.toNat a.toNat g.toNat t.toNat) (.mma .e4m3 .e4m3 true (g = 1)) t a b (some fF) s
/-- MMA.e4m3.e5m2 (R197, R198). -/
def execMmaE4m3E5m2 (a b : BitVec 4) (fF : BitVec 5) (g t : BitVec 1) (s : State) : Host.Outcome State Fault Refusal :=
  anvil (wordT 0x2C 1 fF.toNat b.toNat a.toNat g.toNat t.toNat) (.mma .e4m3 .e5m2 true (g = 1)) t a b (some fF) s
/-- MMA.e5m2.e4m3 (R197, R198). -/
def execMmaE5m2E4m3 (a b : BitVec 4) (fF : BitVec 5) (g t : BitVec 1) (s : State) : Host.Outcome State Fault Refusal :=
  anvil (wordT 0x2C 2 fF.toNat b.toNat a.toNat g.toNat t.toNat) (.mma .e5m2 .e4m3 true (g = 1)) t a b (some fF) s
/-- MMA.e5m2.e5m2 (R197, R198). -/
def execMmaE5m2E5m2 (a b : BitVec 4) (fF : BitVec 5) (g t : BitVec 1) (s : State) : Host.Outcome State Fault Refusal :=
  anvil (wordT 0x2C 3 fF.toNat b.toNat a.toNat g.toNat t.toNat) (.mma .e5m2 .e5m2 true (g = 1)) t a b (some fF) s
/-- MMA.e2m1.e2m1 (R197, R198). -/
def execMmaE2m1E2m1 (a b : BitVec 4) (fF : BitVec 5) (g t : BitVec 1) (s : State) : Host.Outcome State Fault Refusal :=
  anvil (wordT 0x2C 4 fF.toNat b.toNat a.toNat g.toNat t.toNat) (.mma .e2m1 .e2m1 true (g = 1)) t a b (some fF) s
/-- MMA.e2m1.e4m3 (R197, R198). -/
def execMmaE2m1E4m3 (a b : BitVec 4) (fF : BitVec 5) (g t : BitVec 1) (s : State) : Host.Outcome State Fault Refusal :=
  anvil (wordT 0x2C 5 fF.toNat b.toNat a.toNat g.toNat t.toNat) (.mma .e2m1 .e4m3 true (g = 1)) t a b (some fF) s
/-- MMA.ec8.ec8 (R197, R198). -/
def execMmaEc8Ec8 (a b : BitVec 4) (fF : BitVec 5) (g t : BitVec 1) (s : State) : Host.Outcome State Fault Refusal :=
  anvil (wordT 0x2C 6 fF.toNat b.toNat a.toNat g.toNat t.toNat) (.mma .ec8 .ec8 true (g = 1)) t a b (some fF) s
/-- MMA.ec8.e4m3 (R197, R198). -/
def execMmaEc8E4m3 (a b : BitVec 4) (fF : BitVec 5) (g t : BitVec 1) (s : State) : Host.Outcome State Fault Refusal :=
  anvil (wordT 0x2C 7 fF.toNat b.toNat a.toNat g.toNat t.toNat) (.mma .ec8 .e4m3 true (g = 1)) t a b (some fF) s
/-- MMA.bf16.bf16 (R197). -/
def execMmaBf16Bf16 (a b : BitVec 4) (t : BitVec 1) (s : State) : Host.Outcome State Fault Refusal :=
  anvil (wordT 0x2D 0 0 b.toNat a.toNat 0 t.toNat) (.mma .bf16 .bf16 false false) t a b none s
/-- MMA.f16.f16 (R197). -/
def execMmaF16F16 (a b : BitVec 4) (t : BitVec 1) (s : State) : Host.Outcome State Fault Refusal :=
  anvil (wordT 0x2D 1 0 b.toNat a.toNat 0 t.toNat) (.mma .f16 .f16 false false) t a b none s
/-- MMA.s8.s8 (R197). -/
def execMmaS8S8 (a b : BitVec 4) (t : BitVec 1) (s : State) : Host.Outcome State Fault Refusal :=
  anvil (wordT 0x2D 2 0 b.toNat a.toNat 0 t.toNat) (.mma .s8 .s8 false false) t a b none s
/-- MMA.s4.s8 (R197). -/
def execMmaS4S8 (a b : BitVec 4) (t : BitVec 1) (s : State) : Host.Outcome State Fault Refusal :=
  anvil (wordT 0x2D 3 0 b.toNat a.toNat 0 t.toNat) (.mma .s4 .s8 false false) t a b none s
/-- MMA.bf16.s4 (R197). -/
def execMmaBf16S4 (a b : BitVec 4) (t : BitVec 1) (s : State) : Host.Outcome State Fault Refusal :=
  anvil (wordT 0x2D 4 0 b.toNat a.toNat 0 t.toNat) (.mma .bf16 .s4 false false) t a b none s
/-- MMAP.e4m3 (R199). -/
def execMmapE4m3 (a b : BitVec 4) (fF : BitVec 5) (t : BitVec 1) (s : State) : Host.Outcome State Fault Refusal :=
  anvil (wordT 0x2D 5 fF.toNat b.toNat a.toNat 0 t.toNat) (.mmap .e4m3) t a b (some fF) s
/-- MMAP.bf16 (R199). -/
def execMmapBf16 (a b : BitVec 4) (t : BitVec 1) (s : State) : Host.Outcome State Fault Refusal :=
  anvil (wordT 0x2D 6 0 b.toNat a.toNat 0 t.toNat) (.mmap .bf16) t a b none s
/-- DIST.l1.bf16 (R201). -/
def execDistL1Bf16 (a b : BitVec 4) (t : BitVec 1) (s : State) : Host.Outcome State Fault Refusal :=
  anvil (wordT 0x2E 0 0 b.toNat a.toNat 0 t.toNat) (.dist false .bf16) t a b none s
/-- DIST.l1.e4m3 (R201). -/
def execDistL1E4m3 (a b : BitVec 4) (t : BitVec 1) (s : State) : Host.Outcome State Fault Refusal :=
  anvil (wordT 0x2E 1 0 b.toNat a.toNat 0 t.toNat) (.dist false .e4m3) t a b none s
/-- DIST.l1.s8 (R201). -/
def execDistL1S8 (a b : BitVec 4) (t : BitVec 1) (s : State) : Host.Outcome State Fault Refusal :=
  anvil (wordT 0x2E 2 0 b.toNat a.toNat 0 t.toNat) (.dist false .s8) t a b none s
/-- DIST.l2.bf16 (R201). -/
def execDistL2Bf16 (a b : BitVec 4) (t : BitVec 1) (s : State) : Host.Outcome State Fault Refusal :=
  anvil (wordT 0x2E 3 0 b.toNat a.toNat 0 t.toNat) (.dist true .bf16) t a b none s
/-- DIST.l2.e4m3 (R201). -/
def execDistL2E4m3 (a b : BitVec 4) (t : BitVec 1) (s : State) : Host.Outcome State Fault Refusal :=
  anvil (wordT 0x2E 4 0 b.toNat a.toNat 0 t.toNat) (.dist true .e4m3) t a b none s
/-- DIST.l2.s8 (R201). -/
def execDistL2S8 (a b : BitVec 4) (t : BitVec 1) (s : State) : Host.Outcome State Fault Refusal :=
  anvil (wordT 0x2E 5 0 b.toNat a.toNat 0 t.toNat) (.dist true .s8) t a b none s
/-- ADRAIN (R202). -/
def execAdrain (h : BitVec 1) (k : BitVec 3) (n t : BitVec 1) (s : State) : Host.Outcome State Fault Refusal :=
  anvil (wordT 0x2F 0 (h.toNat * 8 + k.toNat) 0 0 n.toNat t.toNat) (.adrain (k.toNat + 1) (h = 1) (n = 1)) t 0 0 none s
/-- The query format of CUPD (R188). -/
def queryElem (y : BitVec 2) : Elem :=
  match y.toNat with
  | 0 => .bf16
  | 1 => .e4m3
  | _ => .s8
/-- CUPD (R203). -/
def execCupd (d : BitVec 5) (a : BitVec 4) (y : BitVec 2) (t : BitVec 1) (s : State) : Host.Outcome State Fault Refusal :=
  anvil (wordT 0x2F 1 y.toNat 0 a.toNat d.toNat t.toNat) (.cupd (queryElem y) d.toNat) t a 0 none s

/-! ## Accumulators (R204 to R206) -/

/-- The oldest command of a core that owns a tile. -/
def Core.owner (x : Core) (t : BitVec 1) : Option AnvilCmd := (x.started ++ x.cmds).find? fun c => c.owns t
def Core.tile (x : Core) (t : BitVec 1) : Tile := x.acc.get ⟨t.toNat, t.isLt⟩
def Core.setTile (x : Core) (t : BitVec 1) (v : Tile) : Core := { x with acc := x.acc.set t.toNat v t.isLt }
/-- The accumulator-busy trap (R62, R204). -/
def busyTrap (t : BitVec 1) (c : AnvilCmd) : Trap :=
  ⟨0x05, some (BitVec.ofNat 56 (c.seq.toNat * 65536 + t.toNat * 256)), none⟩
/-- An accumulator instruction on a tile that no command owns (R204). -/
def onTile (t : BitVec 1) (s : State) (k : Tile → Res) : Res :=
  match s.here.owner t with
  | some c => .trap (busyTrap t c) s
  | none => k (s.here.tile t)

/-- A tile written whole holds no poison any more (R396). -/
def Core.freshTile (x : Core) (t : BitVec 1) (v : Tile) : Core :=
  { x.setTile t v with accPoison := x.accPoison.set t.toNat [] t.isLt }
/-- ACCZ (R205). -/
def execAccz (t : BitVec 1) (s : State) : Host.Outcome State Fault Refusal :=
  withAcc (wordT 0x30 0 0 0 0 0 t.toNat) [] [] s fun s =>
    onTile t s fun _ => .ok (.fall 4) (s.setHere (s.here.freshTile t []))
/-- The i-th of the 1,024 plain 16-byte stores of ACCRD (R205): `pa` and `pa2` are the bases of its pages. -/
def tileStore (x : Ctx) (va : Word) (pa pa2 : Nat) (t : Tile) (serial i : Nat) : Store :=
  let v := (List.range 4).foldl (fun a k => a + (t.word (4 * i + k)).toNat * 2 ^ (32 * k)) 0
  let o := va.toNat % 2 ^ 14 + 16 * i
  { serial := serial, va := va + BitVec.ofNat 64 (16 * i), pa := if o < 2 ^ 14 then pa + 16 * i else pa2 + (o - 2 ^ 14)
    size := 16, val := BitVec.ofNat 128 v, rel := x.relScope, upTo := x.fenceUpTo, priv := x.ctl.priv, hkey := x.ctl.hkey
    launch := x.task.bind (·.launch) }
/-- Stores of ACCRD enter the store buffer as it has room; the instruction waits for the rest (R161). -/
def enterTile (r : TileRead) (s : State) : Res :=
  let x := s.me
  let n := min (16 - (x.stores.filter fun st => !st.isSpill).length) (1024 - r.done)
  let sts := (List.range n).map fun j => tileStore x r.va r.pa r.pa2 r.tile (x.serial + j) (r.done + j)
  let whole := r.done + n = 1024
  let s1 := s.setMe { x with serial := x.serial + n, stores := x.stores ++ sts
                             accrd := if whole then none else some { r with done := r.done + n } }
  if whole then .ok (.fall 4) s1 else .wait .interlock s1
/-- ACCRD (R205): it reads the tile at once, and its stores then enter the buffer. A tile with a poisoned doubleword is no word that
it can read: the trap of R396. -/
def execAccrd (d : BitVec 5) (t : BitVec 1) (s : State) : Host.Outcome State Fault Refusal :=
  withAcc (wordT 0x30 1 0 0 0 d.toNat t.toNat) [.g d] [] s fun s =>
    match s.me.accrd with
    | some r => enterTile r s
    | none =>
      onTile t s fun tile =>
        let va := s.me.getG d
        if 2 ^ 56 ≤ va.toNat then .trap (rangeFault 1 s.me.ctl.priv va) s else
        if va.toNat % 256 ≠ 0 then .trap (misaligned va) s else
        if !(s.here.accPoison.get ⟨t.toNat, t.isLt⟩).isEmpty then .trap (busError 6) s else
        access va 16384 .write .plain 0 true .token s fun pas _ pa2 s1 => enterTile ⟨va, pas.headD 0, pa2, tile, 0⟩ s1
/-- ACCWR (R205). -/
def execAccwr (d : BitVec 5) (t : BitVec 1) (s : State) : Host.Outcome State Fault Refusal :=
  withAcc (wordT 0x30 2 0 0 0 d.toNat t.toNat) [.g d] [] s fun s =>
    onTile t s fun _ =>
      let va := s.me.getG d
      if 2 ^ 56 ≤ va.toNat then .trap (rangeFault 0 s.me.ctl.priv va) s else
      if va.toNat % 256 ≠ 0 then .trap (misaligned va) s else
      access va 16384 .read .plain 0 false .copy s fun pas ps _ s1 =>
        let n := readValue s1 (some s1.me.acqAt) ps
        let tile := tileOf ((List.range 4096).map fun i => BitVec.ofNat 32 (nbits n (32 * i) 32))
        let s2 := plainRead none pas ps s1
        .ok (.fall 4) (s2.setHere (s2.here.freshTile t tile))
/-- ACCSC (R205). -/
def execAccsc (fF : BitVec 5) (sc : BitVec 1) (t : BitVec 1) (s : State) : Host.Outcome State Fault Refusal :=
  withAcc (wordT 0x30 3 fF.toNat 0 0 sc.toNat t.toNat) [.f fF] [] s fun s =>
    onTile t s fun tile =>
      let r := scaleTile ((s.me.getF fF).setWidth 32) (sc = 1) tile
      .ok (.fall 4) ((s.setHere (s.here.setTile t r.1)).addFlags r.2)
/-- ASYNC (R206). -/
def execAsync (d : BitVec 5) (l t : BitVec 1) (s : State) : Host.Outcome State Fault Refusal :=
  withAcc (wordT 0x2F 2 l.toNat 0 0 d.toNat t.toNat) [] [.g d] s fun s =>
    let x := s.here
    let busy := if l = 1 then (x.owner 0).isSome || (x.owner 1).isSome else (x.owner t).isSome
    if busy then .wait .interlock s else .ok (.fall 4) (s.writeG d (x.cmdSeq.setWidth 64))

/-! ## Starting and retiring (R194 to R196) -/

/-- Every ring a command reads holds a tile at RD (R194). -/
def startable (f : Forge) (c : AnvilCmd) : Bool :=
  c.reads.all fun r => (f.ring r.1).conf.isSome && (f.ring r.1).rd ≠ (f.ring r.1).tail
/-- The slot at RD of a ring: its bytes, and whether one is poisoned (R192, R396). -/
def slotAt (s : State) (fid : ForgeId) (r : BitVec 3) : Slot × Bool :=
  let x := (s.forge fid).ring r
  match x.conf with
  | none => ([], false)
  | some w =>
    let size := ringSlot w * 1024
    let key := keySram + fid.toNat * 2 ^ 21 + (ringBase w + x.rd % ringSlots w * ringSlot w) * 1024
    ((List.range size).map fun i => s.mem.byte (key + i),
      s.mem.poison.any fun d => key / 8 ≤ d && d < (key + size) / 8)
/-- The tiles after a command and the flags it raises (R197 to R203, R396): a poisoned slot makes every output of the command
invalid, of CUPD the sums in tile m and the counts in tile m′. -/
def runCmd (s : State) (fid : ForgeId) (x : Core) (c : AnvilCmd) : Core × FFlags :=
  let f := s.forge fid
  let a := slotAt s fid c.ringA
  let b := slotAt s fid c.ringB
  let t := x.tile c.tile
  let l := x.tile (c.tile ^^^ 1)
  let sc : Scales := ⟨c.op.scaled, c.op.fine, (f.ring c.ringA).geom, (f.ring c.ringB).geom, c.f0, c.f1⟩
  let one (bad : Bool) (word : BitVec 32) (r : Tile × FFlags) : Core × FFlags :=
    if bad then (x.setTile c.tile (tileOf (List.replicate 4096 word)), flagNV) else (x.setTile c.tile r.1, r.2)
  match c.op with
  | .mma ea eb _ _ => one (a.2 || b.2) (if isInt ea eb then 0x80000000 else 0x7FC00000) (mmaTile ea eb sc c.strict a.1 b.1 t)
  | .mmap e => one (a.2 || b.2) 0x7FC00000 (mmapTile e sc c.strict a.1 b.1 (Config.freeAcc s.tick) t)
  | .dist q e => one (a.2 || b.2) 0x7FC00000 (distTile q e a.1 b.1 t)
  | .adrain k hi fresh =>
    let r := drainTile k hi fresh t l
    ((x.freshTile c.tile r.1).setTile (c.tile ^^^ 1) r.2, 0)
  | .cupd e base =>
    let r := centroidTile e base a.1 t l
    if a.2 then
      let bad := (List.range 64).foldl (fun (l : Tile) i => Tile.set l (64 * i + 63) 0x7FC00000) l
      ((x.setTile c.tile (tileOf (List.replicate 4096 0x7FC00000))).setTile (c.tile ^^^ 1) bad, flagNV)
    else ((x.setTile c.tile r.1).setTile (c.tile ^^^ 1) r.2.1, r.2.2)
/-- Starting the head command of a core: its tiles are bound at RD, and RD moves on where it pops (R194). -/
def startCmd (fid : ForgeId) (c : CoreId) (s : State) : State :=
  let x := s.core c
  match x.cmds with
  | [] => s
  | cmd :: rest =>
    let r := runCmd s fid x cmd
    let f := cmd.reads.foldl (fun (f : Forge) p =>
      if p.2 then f.setRing p.1 { f.ring p.1 with rd := (f.ring p.1).rd + 1 } else f) (s.forge fid)
    (s.setForge fid f).setCore c { r.1 with cmds := rest, started := r.1.started ++ [{ cmd with flags := r.2 }] }
/-- The head command of the i-th core of a forge may start: its core answers and is not being pre-empted, and the stores that
its context made before it have been performed (R305). -/
def headReady (s : State) (fid : ForgeId) (i : Nat) : Bool :=
  let c := forgeCore fid i
  match (s.core c).cmds with
  | [] => false
  | cmd :: _ => s.coreUp c && !(s.part (s.partOf c)).halting && startable (s.forge fid) cmd
      && (s.ctxAt c cmd.ctx).storesDone cmd.upTo
/-- Stores that a ring push covers have been performed (R191). -/
def pushesDone (s : State) (fid : ForgeId) : Bool :=
  (forgeCores fid).all fun c => (s.core c).ctx.toList.all fun x => x.storesDone x.pushUpTo
/-- The core the arbiter starts next, and how many commands it has then started in that visit (R195). -/
def arbitrate (s : State) (fid : ForgeId) : Option (Nat × Nat) :=
  let f := s.forge fid
  let here := f.arb.toNat
  if headReady s fid here && 0 < f.arbUsed && f.arbUsed < (s.core (forgeCore fid here)).awt.toNat then
    some (here, f.arbUsed + 1)
  else
    let from_ := if f.arbUsed = 0 then here else here + 1
    ((List.range 8).find? fun k => headReady s fid ((from_ + k) % 8)).map fun k => ((from_ + k) % 8, 1)
/-- ANVIL_CMD_START (R194, R195): where no head is startable the arbiter has moved on. After an idle period it resumes at the core
after the one it last visited: R195 does not say where it then stands (log 19). -/
def execAnvilCmdStart (forge : ForgeId) (s : State) : Host.Outcome State Fault Refusal :=
  if !pushesDone s forge then .next s else
  let f := s.forge forge
  match arbitrate s forge with
  | none => .next (if f.arbUsed = 0 then s else s.setForge forge { f with arb := f.arb + 1, arbUsed := 0 })
  | some (i, used) =>
    let s1 := startCmd forge (forgeCore forge i) s
    .next (s1.setForge forge { s1.forge forge with arb := BitVec.ofNat 3 i, arbUsed := used })
/-- ANVIL_CMD_RETIRE: flags merge into the issuing context, popped slots are freed (R42, R194, R196). -/
def execAnvilCmdRetire (core : CoreId) (s : State) : Host.Outcome State Fault Refusal :=
  let x := s.core core
  match x.started with
  | [] => .next s
  | cmd :: rest =>
    let fid := forgeOf core
    let f := cmd.reads.foldl (fun (f : Forge) p =>
      if p.2 then f.setRing p.1 { f.ring p.1 with head := (f.ring p.1).head + 1, freedAt := s.mem.time } else f) (s.forge fid)
    let c := (x.ctxAt cmd.ctx).withCtl fun l => l.addFlags cmd.flags
    .next ((s.setForge fid f).setCore core ({ x with started := rest }.setCtx cmd.ctx c))

end Sys2Proof.Machine
end

