-- ==== Sys2Proof/Machine/Control.lean ====
section
/-! DEFINITION. Branches, jumps, hardware loops, and the instructions that end a task or trap (R102 to R111). -/

namespace Sys2Proof.Machine

/-- jump_to of R102: an odd target or one outside 0 to 2^56 − 1 traps. -/
def jumpTo (t : Int) (s : State) (k : State → State) : Res :=
  if t % 2 = 1 then .trap ⟨0x04, some 0, some (trunc64 t)⟩ s
  else if t < 0 ∨ 2 ^ 56 ≤ t then .trap (rangeFault 2 s.me.ctl.priv (trunc64 t)) s
  else .ok (.jump (trunc64 t)) (k s)

/-- A conditional branch of `off` halfwords (R103). -/
def branch (len word : Nat) (a b : BitVec 5) (off : Int) (c : Word → Word → Bool) (s : State) :
    Host.Outcome State Fault Refusal :=
  withRegs word [.g a, .g b] [] s fun s =>
    if c (s.me.getG a) (s.me.getG b) then jumpTo (s.me.pc.toNat + 2 * off) s id else .ok (.fall len) s

def cEq (x y : Word) : Bool := x = y
def cNe (x y : Word) : Bool := x ≠ y
def cLt (x y : Word) : Bool := x.toInt < y.toInt
def cGe (x y : Word) : Bool := y.toInt ≤ x.toInt
def cLtn (x y : Word) : Bool := x.toNat < y.toNat
def cGen (x y : Word) : Bool := y.toNat ≤ x.toNat

/-- BEQ (R103). -/
def execBeq (a b : BitVec 5) (o : BitVec 13) (s : State) : Host.Outcome State Fault Refusal :=
  branch 4 (wordB 0x08 o.toNat b.toNat a.toNat) a b o.toInt cEq s
/-- BNE (R103). -/
def execBne (a b : BitVec 5) (o : BitVec 13) (s : State) : Host.Outcome State Fault Refusal :=
  branch 4 (wordB 0x09 o.toNat b.toNat a.toNat) a b o.toInt cNe s
/-- BLT (R103). -/
def execBlt (a b : BitVec 5) (o : BitVec 13) (s : State) : Host.Outcome State Fault Refusal :=
  branch 4 (wordB 0x0A o.toNat b.toNat a.toNat) a b o.toInt cLt s
/-- BGE (R103). -/
def execBge (a b : BitVec 5) (o : BitVec 13) (s : State) : Host.Outcome State Fault Refusal :=
  branch 4 (wordB 0x0B o.toNat b.toNat a.toNat) a b o.toInt cGe s
/-- BLTN (R103). -/
def execBltn (a b : BitVec 5) (o : BitVec 13) (s : State) : Host.Outcome State Fault Refusal :=
  branch 4 (wordB 0x0C o.toNat b.toNat a.toNat) a b o.toInt cLtn s
/-- BGEN (R103). -/
def execBgen (a b : BitVec 5) (o : BitVec 13) (s : State) : Host.Outcome State Fault Refusal :=
  branch 4 (wordB 0x0D o.toNat b.toNat a.toNat) a b o.toInt cGen s
/-- The CB word (R71). -/
def wordCB (c a o : Nat) : Nat := 3 * 2 ^ 13 + c * 2 ^ 11 + a * 2 ^ 7 + o
/-- The CB forms, against g0 (R73). -/
def execBeqCb (a : BitVec 4) (o : BitVec 7) (s : State) : Host.Outcome State Fault Refusal :=
  branch 2 (wordCB 0 a.toNat o.toNat) (a.setWidth 5) 0 o.toInt cEq s
def execBneCb (a : BitVec 4) (o : BitVec 7) (s : State) : Host.Outcome State Fault Refusal :=
  branch 2 (wordCB 1 a.toNat o.toNat) (a.setWidth 5) 0 o.toInt cNe s
def execBltCb (a : BitVec 4) (o : BitVec 7) (s : State) : Host.Outcome State Fault Refusal :=
  branch 2 (wordCB 2 a.toNat o.toNat) (a.setWidth 5) 0 o.toInt cLt s
def execBgeCb (a : BitVec 4) (o : BitVec 7) (s : State) : Host.Outcome State Fault Refusal :=
  branch 2 (wordCB 3 a.toNat o.toNat) (a.setWidth 5) 0 o.toInt cGe s

/-- A jump of `off` halfwords that links register d (R104); a link to g0 is discarded. -/
def jump (len word : Nat) (d : BitVec 5) (off : Int) (s : State) : Host.Outcome State Fault Refusal :=
  withRegs word [] [.g d] s fun s =>
    jumpTo (s.me.pc.toNat + 2 * off) s fun s => s.writeG d (s.me.pc + BitVec.ofNat 64 len)
def wordJ (o d : Nat) : Nat := word32 (o / 4) 0x0E d (o % 4)
/-- J (R104). -/
def execJ (o : BitVec 18) (s : State) : Host.Outcome State Fault Refusal := jump 4 (wordJ o.toNat 0) 0 o.toInt s
/-- JAL (R104). -/
def execJal (d : BitVec 5) (o : BitVec 18) (s : State) : Host.Outcome State Fault Refusal :=
  jump 4 (wordJ o.toNat d.toNat) d o.toInt s
/-- The CJ form (R73). -/
def execJCj (o : BitVec 13) (s : State) : Host.Outcome State Fault Refusal :=
  jump 2 (4 * 2 ^ 13 + o.toNat) 0 o.toInt s
/-- A jump to g[a] + imm, the target read before the link is written (R105). -/
def jumpReg (len word : Nat) (d a : BitVec 5) (imm : Int) (s : State) : Host.Outcome State Fault Refusal :=
  withRegs word [.g a] [.g d] s fun s =>
    jumpTo ((s.me.getG a).toNat + imm) s fun s => s.writeG d (s.me.pc + BitVec.ofNat 64 len)
/-- JALR (R105). -/
def execJalr (d a : BitVec 5) (i : BitVec 11) (s : State) : Host.Outcome State Fault Refusal :=
  jumpReg 4 (wordI 0x0F i.toNat a.toNat d.toNat 0) d a i.toInt s
/-- JALR g31, a, 0 (R72). -/
def execJalrLinkCr (a : BitVec 4) (s : State) : Host.Outcome State Fault Refusal :=
  jumpReg 2 (word16 0 11 0 a.toNat) 31 (a.setWidth 5) 0 s
/-- JALR g0, a, 0 (R72). -/
def execJalrNolinkCr (a : BitVec 4) (s : State) : Host.Outcome State Fault Refusal :=
  jumpReg 2 (word16 0 12 0 a.toNat) 0 (a.setWidth 5) 0 s

/-- LOOP (R106): illegal in an active loop, before its count is read; the loop begins, or is skipped when the count is 0. Its own retirement is no pass of the loop. -/
def execLoop (a : BitVec 5) (i : BitVec 11) (s : State) : Host.Outcome State Fault Refusal :=
  let w := wordI 0x0F i.toNat a.toNat 0 1
  if s.me.loop.isSome then finish (.trap (illegal w) s) else
  withRegs w [.g a] [] s fun s =>
    let x := s.me
    let start := x.pc + 4
    let stop := start + BitVec.ofNat 64 (2 * i.toNat)
    if x.getG a = 0 then .ok .own (s.setMe { x with pc := stop })
    else .ok .own (s.setMe { x with pc := start, loop := some ⟨start, stop, x.getG a⟩ })

/-- TRAP (R109, R110). -/
def execTrap (i : BitVec 9) (s : State) : Host.Outcome State Fault Refusal := finish (.trap ⟨0x0A, some (i.setWidth 56), none⟩ s)
/-- BRK (R109, R110). -/
def execBrk (i : BitVec 9) (s : State) : Host.Outcome State Fault Refusal := finish (.trap ⟨0x09, some (i.setWidth 56), none⟩ s)

end Sys2Proof.Machine
end

