-- ==== Sys2Proof/Machine/Tasks.lean ====
section
/-! DEFINITION. Shared operations on messages and tasks: launch messages (R272), the class table and the inbox (R257 to
R262), deliveries inside a core, the done record (R173), binding a class (R175), and ending a task (R269). -/

namespace Sys2Proof.Machine

/-! ## Launch messages (R272) -/

/-- Classes whose messages are no launch messages. -/
def notLaunchClass (c : Nat) : Bool := c = 1 || c = 2 || c = 3 || c = 7
/-- A message from a core is a launch message of its task's launch (R272). -/
def State.isLaunchMsg (s : State) (from_ : CoreId) (launch : Option Nat) (m : Msg) : Bool :=
  launch.isSome && m.pkg = s.pkg.toNat && s.partOf m.core = s.partOf from_ && !notLaunchClass m.cls
/-- A launch message counts in a core's SENT. -/
def State.countIf (s : State) (b : Bool) (c : CoreId) (launch : Option Nat := none) (n : Nat := 1) : State :=
  if b then s.countSent c launch n else s
/-- A launch message that is diverted counts in the diverting core's STARTED. -/
def State.startIf (s : State) (b : Bool) (c : CoreId) : State := if b then s.countStarted c else s
/-- The launch of the acting context's task. -/
def State.myLaunch (s : State) : Option Nat := s.me.task.bind (·.launch)

/-! ## The class table and the inbox -/

/-- HELDCNT of a class (R259). -/
def Core.heldCount (x : Core) (cls : Nat) : Nat := (x.inbox.filter fun e => e.held && e.msg.cls = cls).length
/-- The base priority of an entry (R167, R213, R243, R262, R263). -/
def Core.basePrio (x : Core) (e : Entry) : Nat :=
  if e.start.isSome then e.msg.prio
  else if e.inner || (e.msg.prio = 63 && (!e.msg.sprv || e.deflt)) then (x.cls e.msg.cls).handler.dprio.toNat
  else e.msg.prio
/-- Spans of 4,096 cycles that an entry has been ready (R263). -/
def Entry.aged (e : Entry) (now : Nat) : Nat := e.age + (now - e.since) / 4096
/-- Effective priority (R263). -/
def Core.effPrio (x : Core) (now : Nat) (e : Entry) : Nat :=
  let p := x.basePrio e
  if p = 63 then 63 else min 62 (p + e.aged now)

/-- A message or an internal delivery enters a core: ready, held, or diverted with reason 2 (R259, R262). The notice of one made inside
the core names the context that made it (R261). -/
def State.accept (c : CoreId) (e : Entry) (s : State) : State :=
  let x := s.core c
  if e.start.isSome || (x.cls e.msg.cls).state = .bound then
    s.setCore c { x with inbox := x.inbox ++ [{ e with held := false, stamp := x.clock, age := 0, since := s.now }], clock := x.clock + 1 }
  else if x.heldCount e.msg.cls < 8 then
    s.setCore c { x with inbox := x.inbox ++ [{ e with held := true }] }
  else (s.startIf e.counted c).containment c (if e.inner then e.msg.sctx else 0) 2 e.msg
/-- Ready messages of a class that is no longer bound are held where they stand, in their order of arrival; what its eight
places do not take is diverted (R175, R259, R262); the notice names the context `k` whose binding it was (R261). -/
def State.holdLost (s : State) (c : CoreId) (k : CtxId) (cls : Nat) : State :=
  if ((s.core c).cls cls).state = .bound then s else
  let x := s.core c
  let r := x.inbox.foldl (fun (a : List Entry × List Entry) e =>
    if e.msg.cls ≠ cls || e.start.isSome then (a.1 ++ [e], a.2)
    else if (a.1.filter fun o => o.held && o.msg.cls = cls).length < 8 then (a.1 ++ [{ e with held := true }], a.2)
    else (a.1, a.2 ++ [e])) ([], [])
  r.2.foldl (fun s e => (s.startIf e.counted c).containment c k 2 e.msg) (s.setCore c { x with inbox := r.1 })
/-- When a class becomes bound, its held messages become ready at one moment (R259, R263). -/
def Core.release (x : Core) (cls now : Nat) : Core :=
  { x with
    inbox := x.inbox.map fun e => if e.held && e.msg.cls = cls then { e with held := false, stamp := x.clock, age := 0, since := now } else e
    clock := x.clock + 1 }

/-- A delivery of class 4, 5 or 6 inside a core (R262, R332); one for a saved launch is held (R351), and one that no launch's task
caused is the resident launch's, whose task it starts (R342). A class-4 delivery carries its transfer's completion, a class-5 one the
spill before it (R299, R332). -/
def State.deliver (c : CoreId) (ctx : CtxId) (priv : BitVec 1) (prio : Nat) (cls : Nat) (launch : Option Nat)
    (start : Option (Word × BitVec 1 × BitVec 16)) (pay : Vector Word 6) (s : State) : State :=
  let m : Msg := ⟨mkSrc s.pkg c ctx priv 0, mkDesc s.pkg c cls prio 3 (s.core c).pkey.toNat, pay⟩
  let launch := launch.or (s.part (s.partOf c)).resident
  let rel : Release := ⟨{ core := c, ctx := ctx, scope := 0, page := 0, launch := launch, time := s.mem.time }, none⟩
  let e : Entry := { msg := m, inner := true, start := start, counted := launch.isSome
                     rels := if cls = 6 then [] else [rel] }
  let s := s.countIf launch.isSome c launch
  match s.savedLaunch launch with
  | some x => s.setLaunch { x with heldInner := x.heldInner ++ [(c, e)] }
  | none => s.accept c e

/-! ## The done record (R173) -/

/-- Two records combined: codes by maximum, flags by OR, counts by sum modulo 2^48. -/
def DoneUnit.merge (d : DoneUnit) (w : Word) : DoneUnit :=
  { d with
    code := if d.code.toNat < fld w 56 8 then BitVec.ofNat 8 (fld w 56 8) else d.code
    flags := d.flags ||| BitVec.ofNat 8 (fld w 48 8)
    count := d.count + w.setWidth 48 }
def State.doneMerge (s : State) (c : CoreId) (w : Word) : State :=
  let x := s.core c
  s.setCore c { x with done := x.done.merge w }

/-! ## Binding a class (R175) -/

/-- The contexts whose tasks started under an entry's current binding. -/
def Core.running (x : Core) (cls : Nat) : List CtxId :=
  [(0 : CtxId), 1, 2, 3].filter fun k => match (x.ctxAt k).task with
    | some t => t.cls.toNat = cls && t.gen = (x.cls cls).gen && t.gen ≠ 0
    | none => false
/-- OP 00, 01 and 10 of CLSBIND on a core (R175). -/
def Core.bind (x : Core) (now cls : Nat) (op : Nat) (h : Handler) (block : Option (Word × BitVec 48)) : Core :=
  let e := x.cls cls
  match op with
  | 0 => x.setCls cls { e with state := .unbound, old := [], block := none, pendingBlock := none }
  | 1 => (x.setCls cls { e with state := .bound, handler := h, block := block, old := [], gen := e.gen + 1 }).release cls now
  | _ =>
    let wait := match e.state with
      | .unbound => []
      | .bound => x.running cls
      | .draining => e.old
    if wait.isEmpty then
      (x.setCls cls { e with state := .bound, handler := h, block := block, old := [], gen := e.gen + 1 }).release cls now
    else x.setCls cls { e with state := .draining, pending := h, pendingBlock := block, old := wait }
/-- A task of a context has ended: a draining entry that waited for it alone becomes bound (R175). -/
def Core.drained (x : Core) (now : Nat) (k : CtxId) : Core :=
  x.classes.foldl (fun x c =>
    let e := x.cls c.1
    if e.state ≠ .draining then x else
    let old := e.old.filter (· ≠ k)
    if old.isEmpty then
      (x.setCls c.1 { e with state := .bound, handler := e.pending, block := e.pendingBlock, old := [],
                             gen := e.gen + 1 }).release c.1 now
    else x.setCls c.1 { e with old := old }) x

/-! ## Ending a task (R186, R269) -/

/-- The context that a task leaves. -/
def Ctx.ended (x : Ctx) : Ctx :=
  { x with
    status := .free, q := Vector.replicate 4 [], binds := [], streams := [], loop := none, trapLoops := []
    rep := {}, replay := none, accrd := none, tagged := [], relScope := none, wait := none, task := none, aliasing := none }
/-- The task of a context ends. -/
def State.endTask (s : State) (c : CoreId) (k : CtxId) : State :=
  let s := s.setCtxAt c k (s.ctxAt c k).ended
  s.setCore c ((s.core c).drained s.now k)

/-! ## Notices of dropped messages -/

/-- A message to a package numbered 4,608 or above, or to an absent endpoint (R168). -/
def State.unreachable (s : State) (m : Msg) : Bool :=
  4608 ≤ m.pkg || (if m.pkg = s.pkg.toNat then !s.coreUp m.core else !s.island.pkgValid || !s.islandUp)

end Sys2Proof.Machine
end

