-- ==== Sys2Proof/Machine/Messages.lean ====
section
/-! DEFINITION. Messages, ADF, DONE, class bindings and the end of a task (R109, R152 to R154, R166 to R175,
R269). -/

namespace Sys2Proof.Machine

/-! ## Sending (R167 to R170) -/

/-- A descriptor with its reserved bits cleared (R167). -/
def cleanDesc (h : Word) : Word := insertBits h 16 6 0
/-- CLS of a descriptor word (R152). -/
def descCls (h : Word) : Nat := fld h 30 8
/-- The source word of the acting context (R166). -/
def State.mySrc (s : State) : Word := mkSrc s.pkg s.cur.core s.cur.ctx s.me.ctl.priv s.me.seq.toNat

/-- A message into the spill block bound with class 5 (R169, R332): slot, TAIL and ARMED, and the notice; a full block
diverts it to the supervisor queue with reason 3. -/
def spillNow (m : Msg) (counted : Bool) (blk : Word) (s : State) (k : State → Res) : Res :=
  access blk 8 .read .plain 0 false .copy s fun hA hP _ s =>
  access (blk + 8) 8 .write .plain 0 false .token s fun _ tP _ s =>
  access (blk + 16) 8 .read .plain 0 false .copy s fun _ zP _ s =>
  access (blk + 24) 8 .rmw .plain 0 false .token s fun aA aP _ s =>
    let c := s.cur.core
    let ctx := s.cur.ctx
    let head := readValue s none hP
    let tail := readValue s none tP
    let size := readValue s (some s.me.acqAt) zP
    let armed := readValue s none aP
    if size + head ≤ tail then
      k ((((plainRead (some 0) hA hP s true).countIf counted c).startIf counted c).containment c ctx 3 m)
    else
      let slot := blk + BitVec.ofNat 64 (64 + 64 * (tail % size))
      access slot 64 .write .plain 0 false .token s fun _ sP _ s =>
        let s := plainRead (some 0) hA hP s true
        let words := m.src :: m.desc :: m.pay.toList
        let tag := tagFor c ctx s.myLaunch (widest (some 0) s.me.relScope) blk
        let plain := tagFor c ctx s.myLaunch s.me.relScope slot
        let s := writeThrough c ctx (sP.zip (words.flatMap fun (w : Word) => toBytes w.toNat 8)) plain s
        let s := writeThrough c ctx (tP.zip (toBytes ((tail + 1) % 2 ^ 64) 8)) tag s
        let s := writeThrough c ctx (aP.zip (toBytes 0 8)) tag (noteRead (some 0) aA aP s true)
        k (if armed = 0 then s else
          s.deliver c s.cur.ctx s.me.ctl.priv 63 5 s.myLaunch none
            #v[blk, s.cur.ctx.setWidth 64, BitVec.ofNat 64 (tail + 1), 0, 0, 0])
/-- A message of the acting context goes behind stores of it that something keeps: the write of TAIL is a release. -/
def State.spillLater (s : State) (m : Msg) (counted : Bool) (blk : Word) : State :=
  let x := s.me
  s.setMe { x with
    serial := x.serial + 1
    stores := x.stores ++ [{ serial := x.serial, va := blk, pa := 0, size := 0, val := 0, kind := .spill m counted x.ctl.ptroot
                             rel := widest (some 0) x.relScope, upTo := x.serial, priv := x.ctl.priv, hkey := x.ctl.hkey
                             launch := x.task.bind (·.launch) }] }
/-- A spill neither waits for the context's earlier stores nor is it lost (R169): they are performed before it, and where
something keeps one of them the spill follows it in the store buffer. The block must translate, as for any access. -/
def spill (m : Msg) (counted : Bool) (blk : Word) (s : State) (k : State → Res) : Res :=
  match drainOwn s.me.stores.length s with
  | some s => spillNow m counted blk s k
  | none =>
    let x := s.me
    match translateSpan s (.data s.cur.core) x.ctl.ptroot blk 32 .rmw x.ctl.priv with
    | .error t => .trap t s
    | .ok (_, _, s1) => k (s1.spillLater m counted blk)
/-- A spill behind stores that have now been performed is made, with the root, the privilege and the launch it was sent under (R169).
Where the block no longer translates the message goes to the supervisor queue, as with a full block. -/
def performSpill (core : CoreId) (ctx : CtxId) (k : Nat) (st : Store) (m : Msg) (counted : Bool) (root : BitVec 48) (s : State) :
    State :=
  let x := s.ctxAt core ctx
  let s0 := { s.setCtxAt core ctx { x with
      stores := x.stores.take k, wait := none, task := x.task.map fun t => { t with launch := st.launch }
      ctl := { x.ctl with priv := st.priv, hkey := st.hkey, ptroot := root } } with cur := ⟨core, ctx, false⟩ }
  let back (t : State) (l : List Store) : State :=
    { t.setCtxAt core ctx { t.ctxAt core ctx with
        stores := l, wait := x.wait, task := x.task
        ctl := { (t.ctxAt core ctx).ctl with priv := x.ctl.priv, hkey := x.ctl.hkey, ptroot := x.ctl.ptroot } } with cur := s.cur }
  match spillNow m counted st.va s0 fun s => .ok .own s with
  | .ok _ s1 => back s1 (dropAt x.stores k)
  | .wait _ s1 => back s1 x.stores
  | .trap _ s1 => back (((s1.countIf counted core).startIf counted core).containment core ctx 3 m) (dropAt x.stores k)

/-- A message enters the send queue, with what a release fence before it covers and the releases it carries (R154, R156). -/
def Ctx.enqueue (x : Ctx) (m : Msg) (counted : Bool) (rels : List Release) : Ctx :=
  { x with sendq := x.sendq ++ [{ msg := m, upTo := x.fenceUpTo, counted := counted, scope := x.relScope, rels := rels }] }
/-- enqueue_or_spill of R169. -/
def enqueueOrSpill (m : Msg) (rels : List Release) (s : State) (k : State → Res) : Res :=
  let x := s.me
  let counted := s.isLaunchMsg s.cur.core s.myLaunch m
  if x.sendq.length < x.ctl.sqdepth.toNat then
    k ((s.setMe (x.enqueue m counted rels)).countIf counted s.cur.core)
  else match (s.here.cls 5).block with
    | none => .wait .interlock s
    | some b => spill m counted b.1 s k

/-- A message of the acting context with its next sequence number (R166). -/
def sendOwn (h : Word) (pay : Vector Word 6) (s : State) (k : BitVec 16 → State → Res) (rels : List Release := []) : Res :=
  let seq := s.me.seq
  enqueueOrSpill ⟨s.mySrc, cleanDesc h, pay⟩ rels s fun s => k seq (s.setMe { s.me with seq := s.me.seq + 1 })

/-- Six payload registers from g[b] (R167). -/
def Ctx.payload (x : Ctx) (b : BitVec 5) : Vector Word 6 :=
  #v[x.getG b, x.getG (b + 1), x.getG (b + 2), x.getG (b + 3), x.getG (b + 4), x.getG (b + 5)]
def payRegs (b : BitVec 5) : List Reg := [.g b, .g (b + 1), .g (b + 2), .g (b + 3), .g (b + 4), .g (b + 5)]

/-- SEND (R167). -/
def execSend (d a b : BitVec 5) (s : State) : Host.Outcome State Fault Refusal :=
  withRegs (wordR 0x28 0 b.toNat a.toNat d.toNat 0) (.g a :: payRegs b) [.g d] s fun s =>
    let h := s.me.getG a
    if s.me.ctl.priv = 0 && descCls h < 16 then .trap privilegeTrap s else
    sendOwn h (s.me.payload b) s fun seq s => .ok (.fall 4) (s.writeG d (seq.setWidth 64))
/-- The short SEND: PKG, CORE and CAP of g[a], class 16 + k, priority 63, the request network (R74, R167). -/
def execSendC (a k : BitVec 4) (s : State) : Host.Outcome State Fault Refusal :=
  withRegs (5 * 2 ^ 13 + 2 * 256 + a.toNat * 16 + k.toNat) (.g (a.setWidth 5) :: payRegs 1) [] s fun s =>
    let h := s.me.getG (a.setWidth 5)
    let h := insertBits (insertBits h 22 16 0) 24 14 ((16 + k.toNat) * 64 + 63)
    sendOwn h (s.me.payload 1) s fun _ s => .ok (.fall 2) s

/-- SENDR (R170): never spills; at supervisor privilege the source word is sent as it stands. -/
def sendRecord (va : Word) (d : BitVec 5) (s : State) : Res :=
  if 2 ^ 56 ≤ va.toNat then .trap (rangeFault 0 s.me.ctl.priv va) s else
  if va.toNat % 64 ≠ 0 then .trap (misaligned va) s else
  access va 64 .read .plain 0 false .copy s fun pas ps _ s1 =>
    let n := readValue s1 (some s1.me.acqAt) ps
    let w (i : Nat) : Word := BitVec.ofNat 64 (nbits n (64 * i) 64)
    if s1.me.ctl.priv = 0 && descCls (w 1) < 16 then .trap privilegeTrap s else
    let x := s1.me
    if x.ctl.sqdepth.toNat ≤ x.sendq.length then .wait .sendrFull s1 else
    let own := x.ctl.priv = 0
    let src := if own then s1.mySrc else w 0
    let m : Msg := ⟨src, cleanDesc (w 1), #v[w 2, w 3, w 4, w 5, w 6, w 7]⟩
    let counted := s1.isLaunchMsg s1.cur.core s1.myLaunch m
    let s2 := plainRead none pas ps s1
    let x := s2.me.enqueue m counted []
    let s3 := s2.setMe { x with seq := if own then x.seq + 1 else x.seq }
    .ok (.fall 4) ((s3.countIf counted s3.cur.core).writeG d (BitVec.ofNat 64 (fld src 0 16)))
/-- SENDR (R170). -/
def execSendr (d a : BitVec 5) (s : State) : Host.Outcome State Fault Refusal :=
  withRegs (wordR 0x28 1 0 a.toNat d.toNat 0) [.g a] [.g d] s fun s => sendRecord (s.me.getG a) d s

/-! ## ADF (R152, R153) -/

/-- The releases that the task started by a firing ADF acquires: its own, with the counter it read, and every release ADF's
on the counter before it (R154). -/
def firingReleases (va : Word) (pas : List Nat) (ps : List Place) (rel : Option (BitVec 3)) (s : State) : List Release :=
  let own := (tagFor s.cur.core s.cur.ctx s.myLaunch (widest rel s.me.relScope) va).map fun t =>
    (⟨{ t with time := s.mem.time + 1 }, some (BitVec.ofNat 11 (pas.headD 0 / 8))⟩ : Release)
  let before := match ps.head?.bind (·.key) with
    | some _ => ((ps.head?.bind (·.word)).map fun w => Assoc.getD s.mem.chain w []).getD []
    | none => (s.farTag (pas.headD 0 / 8)).toList
  own.toList ++ before.map fun t => ⟨t, none⟩
/-- Decrement and fire on the record at `va`, with a counter of `n` bytes. -/
def decrementFire (va : Word) (n : Nat) (y : Nat) (ord : BitVec 2) (scope : BitVec 3) (d : BitVec 5) (s : State) : Res :=
  if 2 ^ 56 ≤ va.toNat then .trap (rangeFault 3 s.me.ctl.priv va) s else
  if va.toNat % 64 ≠ 0 then .trap (misaligned va) s else
  let rel := relOf ord scope
  access va 64 .rmw .word scope.toNat false .token s (hold := atomicWaits rel s.me s.mem) fun pas ps _ s1 =>
    if leavesLate false ps s1 then .wait .interlock s else
    let far := ps.any (·.isRemote)
    let rec_ := readValue s1 none ps
    let w (i : Nat) : Word := if far then Config.freeWord s1.tick (i + 1) else BitVec.ofNat 64 (nbits rec_ (64 * i) 64)
    let x := (w 0).toNat % 2 ^ (8 * n)
    let left := (x + 2 ^ (8 * n) - y % 2 ^ (8 * n)) % 2 ^ (8 * n)
    let old := sextW (8 * n) (BitVec.ofNat 64 x)
    let fin (new : Nat) (s2 : State) : Res :=
      let acq := acqOf ord scope
      let s3 := if far then farRead acq (pas.headD 0) (w 0) { s2 with mem := forgetFar s2.mem (pas.take n) }
        else atomicWrite va n rel (ps.take n) new (atomicToken false true ps (noteRead acq pas ps s2 true true))
      .ok (.fall 4) (s3.writeG d old)
    if left = 0 && y % 2 ^ (8 * n) ≠ 0 then
      if s1.me.ctl.priv = 0 && descCls (w 1) < 16 then .trap privilegeTrap s else
      sendOwn (w 1) #v[w 2, w 3, w 4, w 5, w 6, w 7] s1 (fun _ s2 => fin 0 s2) (firingReleases va pas ps rel s1)
    else fin left s1
/-- ADF (R152 to R154). -/
def execAdf (d a b : BitVec 5) (o : BitVec 2) (sc : BitVec 3) (w : BitVec 1) (s : State) :
    Host.Outcome State Fault Refusal :=
  withRegs (wordM 0x16 1 o.toNat sc.toNat b.toNat a.toNat d.toNat (2 + w.toNat)) [.g a, .g b] [.g d] s fun s =>
    decrementFire (s.me.getG a) (if w = 1 then 8 else 4) (s.me.getG b).toNat o sc d s

/-! ## DONE and class bindings (R173 to R175) -/

/-- DONE (R173). -/
def execDone (a : BitVec 5) (s : State) : Host.Outcome State Fault Refusal :=
  withRegs (wordR 0x28 3 0 a.toNat 0 0) [.g a] [] s fun s =>
    .ok (.fall 4) (s.doneMerge s.cur.core (s.me.getG a))
/-- The 16-bit DONE (R74). -/
def execDoneCt (a : BitVec 4) (s : State) : Host.Outcome State Fault Refusal :=
  withRegs (5 * 2 ^ 13 + 256 + a.toNat * 16) [.g (a.setWidth 5)] [] s fun s =>
    .ok (.fall 2) (s.doneMerge s.cur.core (s.me.getG (a.setWidth 5)))

/-- CLSBIND (R174, R175): its checks in their order, then every earlier store of the context, then the entry. -/
def bindClass (word : Nat) (d : BitVec 5) (h attr blk : Word) (s : State) : Res :=
  let op := fld attr 16 2
  let cls := fld attr 0 8
  let prv := BitVec.ofNat 1 (fld attr 14 1)
  let dprio := fld attr 8 6
  let five := cls = 5 && (op = 1 || op = 2)
  if fld attr 18 46 ≠ 0 || bit attr 15 || op = 3 || dprio = 63 || (d ≠ 0 && !five) then .trap (illegal word) s else
  if s.me.ctl.priv = 0 && (cls < 16 || prv = 1) then .trap privilegeTrap s else
  if op ≠ 0 && h.toNat % 2 = 1 then .trap (misaligned h) s else
  if five && d ≠ 0 && blk.toNat % 64 ≠ 0 then .trap (misaligned blk) s else
  if op ≠ 0 && 2 ^ 56 ≤ h.toNat then .trap (rangeFault 2 s.me.ctl.priv h) s else
  if !s.me.stores.isEmpty then .wait .interlock s else
  .ok (.fall 4) ((s.setHere (s.here.bind s.now cls op ⟨h, prv, BitVec.ofNat 6 dprio⟩
    (if five && d ≠ 0 then some (blk, s.me.ctl.ptroot) else none))).holdLost s.cur.core s.cur.ctx cls)
/-- CLSBIND (R174). -/
def execClsbind (d a b : BitVec 5) (s : State) : Host.Outcome State Fault Refusal :=
  withRegs (wordR 0x28 4 b.toNat a.toNat d.toNat 0) [.g a, .g b, .g d] [] s fun s =>
    bindClass (wordR 0x28 4 b.toNat a.toNat d.toNat 0) d (s.me.getG a) (s.me.getG b) (s.me.getG d) s

/-! ## END (R109, R111, R186, R269) -/

/-- END waits for results owed to the context and for a replay; the context then becomes FREE. -/
def endNow (s : State) : Res :=
  let x := s.me
  if !x.owed.isEmpty || x.replaying then .wait .interlock s
  else .ok .own (s.endTask s.cur.core s.cur.ctx)
/-- END (R111). -/
def execEndTask (s : State) : Host.Outcome State Fault Refusal := finish (endNow s)
/-- The 16-bit END (R74). -/
def execEndCt (s : State) : Host.Outcome State Fault Refusal := finish (endNow s)

end Sys2Proof.Machine
end

