-- ==== Sys2Proof/Machine/Streams.lean ====
section
/-! DEFINITION. Neighbour queues (R176 to R178), streams (R180, R181), the repetition buffer (R182 to R184) and loading
tensor maps (R68, R185). -/

namespace Sys2Proof.Machine

/-! ## Neighbours (R176, R177) -/

/-- The neighbour of a core in a direction, n, e, s, w, inside the grid (R176). -/
def neighbour (c : CoreId) (m : BitVec 2) : Option CoreId :=
  let x := coreX c
  let y := coreY c
  match m.toNat with
  | 0 => if y = 0 then none else some (coreAt x (y - 1))
  | 1 => if x = 127 then none else some (coreAt (x + 1) y)
  | 2 => if y = 63 then none else some (coreAt x (y + 1))
  | _ => if x = 0 then none else some (coreAt (x - 1) y)
/-- The inbound queue of the neighbour, q4 to q7 as 0 to 3 (R176). -/
def landing (m : BitVec 2) : BitVec 2 :=
  match m.toNat with
  | 0 => 2
  | 1 => 3
  | 2 => 0
  | _ => 1
def Ctl.credit (c : Ctl) (m : BitVec 2) : BitVec 3 := c.win.get ⟨m.toNat, m.isLt⟩
def Ctl.setCredit (c : Ctl) (m : BitVec 2) (v : BitVec 3) : Ctl := { c with win := c.win.set m.toNat v m.isLt }
def Ctx.sentOut (x : Ctx) (m : BitVec 2) : Nat := x.outst.get ⟨m.toNat, m.isLt⟩
def Ctx.setOut (x : Ctx) (m : BitVec 2) (n : Nat) : Ctx := { x with outst := x.outst.set m.toNat n m.isLt }
/-- Vectors in a neighbour queue or on their way to it: it holds four (R54, R177). -/
def State.queued (s : State) (c : CoreId) (q : BitVec 2) : Nat :=
  ((s.core c).getNq q).length + (s.vecs.filter fun v => v.1 = c && v.2.1 = q).length
/-- NSEND may go now (R177). -/
def State.maySend (s : State) (x : Ctx) (n : CoreId) (m : BitVec 2) : Bool :=
  x.ctl.credit m ≠ 0 && s.queued n (landing m) < 4

/-- The send of a vector to the neighbour in direction m (R176, R177). -/
def sendVec (m : BitVec 2) (val : Vec) (s : State) : Res :=
  match neighbour s.cur.core m with
  | none => .trap (busError 3) s
  | some n =>
    if s.partOf n ≠ s.partOf s.cur.core then .trap ⟨0x13, none, none⟩ s else
    let x := s.me
    if !s.maySend x n m then .wait (.noCredit m) s else
    let x := (x.setOut m (x.sentOut m + 1)).withCtl fun c => c.setCredit m (c.credit m - 1)
    .ok (.fall 4) ({ s with vecs := s.vecs ++ [(n, landing m, (⟨val, s.cur.core, s.cur.ctx, m⟩ : Sent))] }.setMe x)
/-- NSEND (R176). -/
def execNsend (a : BitVec 5) (m : BitVec 2) (s : State) : Host.Outcome State Fault Refusal :=
  withRegs (wordR 0x29 0 0 a.toNat 0 m.toNat) [.v (a.setWidth 4)] [] s fun s => sendVec m (s.me.getV (a.setWidth 4)) s

/-- The window that WINSET leaves in a direction (R177). -/
def windowOf (size : Nat) (out : Nat) : BitVec 3 := BitVec.ofNat 3 (min size 4 - out)
/-- WINSET (R177). -/
def execWinset (a : BitVec 5) (s : State) : Host.Outcome State Fault Refusal :=
  withRegs (wordR 0x29 1 0 a.toNat 0 0) [.g a] [] s fun s =>
    let w := s.me.getG a
    let x := s.me
    .ok (.fall 4) (s.withCtl fun c =>
      (((c.setCredit 0 (windowOf (fld w 0 3) (x.sentOut 0))).setCredit 1 (windowOf (fld w 4 3) (x.sentOut 1))).setCredit 2
        (windowOf (fld w 8 3) (x.sentOut 2))).setCredit 3 (windowOf (fld w 12 3) (x.sentOut 3)))

/-! ## Queue bindings (R178) -/

/-- QCFG's configuration word. -/
def bindQueue (word : Nat) (w : Word) (s : State) : Res :=
  let x := s.me
  let reg := BitVec.ofNat 5 (fld w 5 5)
  let vec := bit w 4
  let q := BitVec.ofNat 3 (fld w 0 3)
  let rest := x.binds.filter fun b => b.q ≠ q
  if !bit w 3 then .ok (.fall 4) (s.setMe { x with binds := rest }) else
  if fld w 10 54 ≠ 0 || (!vec && reg = 0) || (vec && 16 ≤ reg.toNat) || (x.binding vec reg).isSome
      || (x.stream vec reg).isSome || (q.toNat < 4 && x.streams.any fun t => t.q.toNat = q.toNat) then
    .trap (illegal word) s
  else .ok (.fall 4) (s.setMe { x with binds := rest ++ [⟨vec, reg, q⟩] })
/-- QCFG (R178). -/
def execQcfg (a : BitVec 5) (s : State) : Host.Outcome State Fault Refusal :=
  withRegs (wordR 0x29 2 0 a.toNat 0 0) [.g a] [] s fun s => bindQueue (wordR 0x29 2 0 a.toNat 0 0) (s.me.getG a) s

/-! ## Streams (R180, R181) -/

/-- The maps a stream accepts (R180). -/
def streamable (vec : Bool) (m : BitVec 512) : Bool :=
  let f := mapFmt m
  mapDims m ≤ 3 && !mapCway m && f < 16
    && (if vec then mapSize m 0 * typeBits f % 128 = 0 else f ≠ 6 && f ≠ 7)
/-- STRM of a register over a map with a queue as its buffer (R180). -/
def startStream (word : Nat) (vec : Bool) (d : BitVec 5) (tm : BitVec 4) (b : BitVec 5) (s : State) : Res :=
  let x := s.me
  let q := b.setWidth 2
  if (x.stream vec d).isSome || (x.binding vec d).isSome || 4 ≤ b.toNat || (x.binds.any fun y => y.q.toNat = q.toNat)
      || x.streams.any fun t => t.q = q then .trap (illegal word) s else
  match x.getTm tm with
  | none => .trap mapNotLoaded s
  | some m =>
    if !streamable vec m then .trap (badMap 1) s else
    .ok (.fall 4) (s.setMe { x with streams := x.streams ++ [{ vec := vec, reg := d, map := m, q := q }] })
/-- STRM (R180): a register that a replay still uses is waited for (R184). -/
def execStrm (d a b : BitVec 5) (k : BitVec 1) (s : State) : Host.Outcome State Fault Refusal :=
  withRegs (wordR 0x2A 0 b.toNat a.toNat d.toNat k.toNat) [] [] s fun s =>
    if k = 1 && s.me.replaying && s.me.replayUses (.v (d.setWidth 4)) then .wait .interlock s else
    if k = 0 && s.me.owes (.g d) then .wait .interlock s else
    startStream (wordR 0x2A 0 b.toNat a.toNat d.toNat k.toNat) (k = 1) d (a.setWidth 4) b s
/-- STRMOFF ends stream mode; the prefetched entries are discarded (R181). -/
def execStrmoff (d : BitVec 5) (k : BitVec 1) (s : State) : Host.Outcome State Fault Refusal :=
  withRegs (wordR 0x2A 1 0 0 d.toNat k.toNat) [] [] s fun s =>
    let x := s.me
    if k = 1 && x.replaying && x.replayUses (.v (d.setWidth 4)) then .wait .interlock s else
    .ok (.fall 4) (s.setMe { x with streams := x.streams.filter fun t => !(t.vec = (k = 1) && t.reg = d) })

/-! ## The repetition buffer (R182 to R184) -/

/-- REPB (R182). -/
def execRepb (d a b : BitVec 5) (s : State) : Host.Outcome State Fault Refusal :=
  withRegs (wordR 0x2A 2 b.toNat a.toNat d.toNat 0) [] [] s fun s =>
    let x := s.me
    if x.replaying then .wait .interlock s else
    .ok (.fall 4) (s.setMe { x with replay := none
                                    rep := { recording := true, sacc := d.setWidth 1, sf := a, sv := b.setWidth 4 } })
/-- REPE (R182): while not recording it is illegal and discards the recording, once no replay uses it any more. -/
def execRepe (s : State) : Host.Outcome State Fault Refusal :=
  withRegs (wordR 0x2A 3 0 0 0 0) [] [] s fun s =>
    let x := s.me
    if x.replaying then .wait .interlock s else
    if x.rep.recording then .ok (.fall 4) (s.setMe { x with rep := { x.rep with recording := false, complete := true } })
    else .trap (illegal (wordR 0x2A 3 0 0 0 0)) (s.setMe { x with rep := {}, replay := none })
/-- REPGO (R183): the replay starts in the vector stream. -/
def execRepgo (a : BitVec 5) (s : State) : Host.Outcome State Fault Refusal :=
  withRegs (wordR 0x2A 4 0 a.toNat 0 0) [.g a] [] s fun s =>
    let x := s.me
    if x.replaying then .wait .interlock s else
    if !x.rep.complete then .trap (illegal (wordR 0x2A 4 0 a.toNat 0 0)) s else
    let n := (x.getG a).toNat
    .ok (.fall 4) (s.setMe { x with replay := if n = 0 || x.rep.buf.isEmpty then none else some { total := n } })

/-! ## Tensor maps (R66 to R68, R185) -/

/-- Bits of an element of a map's format (R67). -/
def fmtBits (f : Nat) : Nat :=
  match f with
  | 17 => 4
  | 18 => 8
  | f => typeBits f
/-- Bytes of one row of dimension 0 (R68). -/
def rowBytes (m : BitVec 512) : Nat :=
  if mapFmt m = 16 then mapSize m 0 / 64 * 98 else mapSize m 0 * fmtBits (mapFmt m) / 8
/-- The byte after the highest that an element can occupy (R68). -/
def mapEnd (m : BitVec 512) : Nat :=
  mapBase m + ((List.range 8).map fun i => (mapSize m i - 1) * mapStride m i).sum + rowBytes m
/-- The checks of TMLD (R68). -/
def mapOk (m : BitVec 512) (fine : Bool) : Bool :=
  let f := mapFmt m
  let n := mapSize m 0
  fld m 125 3 = 0 && f < 19 && mapGeom m ≠ 3 && (mapGeom m ≠ 2 || fine)
    && !((f = 6 || f = 7 || f = 17) && n % 2 = 1)
    && !(f = 16 && n % 64 ≠ 0) && !(f = 17 && n % 32 ≠ 0)
    && !(f = 18 && n % 128 ≠ 0 && !(n = 64 && 1 ≤ mapDims m && mapSize m 1 % 2 = 0))
    && !(mapCway m && mapBlin m) && (mapCway m || mapEnd m ≤ 2 ^ 56)

/-- TMLD at an address (R185). -/
def loadMap (d : BitVec 4) (va : Word) (s : State) : Res :=
  if 2 ^ 56 ≤ va.toNat then .trap (rangeFault 0 s.me.ctl.priv va) s else
  if va.toNat % 64 ≠ 0 then .trap (misaligned va) s else
  access va 64 .read .plain 0 false .copy s fun pas ps _ s1 =>
    let m := BitVec.ofNat 512 (readValue s1 (some s1.me.acqAt) ps)
    if !mapOk m (bit s1.me.ctl.fgmask d.toNat) then .trap (badMap 0) s else
    let s2 := plainRead none pas ps s1
    .ok (.fall 4) (s2.setMe (s2.me.setTm d m))
/-- TMLD (R185). -/
def execTmld (d a : BitVec 5) (i : BitVec 11) (s : State) : Host.Outcome State Fault Refusal :=
  withRegs (wordI 0x2B i.toNat a.toNat d.toNat 0) [.g a] [] s fun s =>
    loadMap (d.setWidth 4) (s.me.getG a + i.signExtend 64 * 64) s

end Sys2Proof.Machine
end

