-- ==== Sys2Proof/Machine/System.lean ====
section
/-! DEFINITION. The system instructions: control registers (R59 to R65, R247), ERET (R249), translation maintenance
(R250, R251), the supervisor queue (R252) and PARTSET (R253). -/

namespace Sys2Proof.Machine

/-! ## Control registers (R59, R61) -/

/-- A control-register number that R61 lists. -/
def crnListed (c : Nat) : Bool :=
  c ≤ 0x009 || (0x010 ≤ c && c ≤ 0x016) || (0x018 ≤ c && c ≤ 0x030) || (0x100 ≤ c && c ≤ 0x106)
/-- Registers that are RO in every field (R61, R343). -/
def crnReadOnly (c : Nat) : Bool := c ≤ 0x006 || c = 0x100 || c = 0x106
/-- Registers marked SV (R61). -/
def crnSupervisor (c : Nat) : Bool := (0x020 ≤ c && c ≤ 0x030) || (0x100 ≤ c && c ≤ 0x105)

/-- A control register as CSRRD reads it, reserved bits 0 (R4, R61). -/
def State.readCr (s : State) (c : Nat) : Word :=
  let l := s.me.ctl
  match c with
  | 0x000 => s.cyc l
  | 0x001 => l.src
  | 0x002 => l.mcls.setWidth 64
  | 0x003 => l.prio.setWidth 64
  | 0x004 => l.xid.setWidth 64
  | 0x005 => l.cause
  | 0x006 => l.faddr
  | 0x007 => l.syncst.setWidth 64
  | 0x008 => l.parkt.setWidth 64
  | 0x009 => l.sqdepth.setWidth 64
  | 0x010 => l.fflags.setWidth 64
  | 0x011 => l.frm.setWidth 64
  | 0x012 => l.rseed.setWidth 64
  | 0x013 => l.spx.setWidth 64
  | 0x014 => l.athr.setWidth 64
  | 0x015 => l.adrop.setWidth 64
  | 0x016 => l.adcnt
  | 0x030 => l.hkey.setWidth 64
  | 0x100 => s.here.pkey.setWidth 64
  | 0x101 => l.epc
  | 0x102 => l.estat.setWidth 64
  | 0x103 => l.fgmask.setWidth 64
  | 0x104 => l.ptroot.setWidth 64 * 65536
  | 0x105 => s.here.awt.setWidth 64
  | 0x106 => l.priv.setWidth 64
  | c =>
    if c < 0x01C then (l.credit (BitVec.ofNat 2 (c - 0x018))).setWidth 64
    else if c < 0x020 then (l.mbx.get ⟨(c - 0x01C) % 4, by omega⟩).setWidth 64
    else l.region (BitVec.ofNat 4 (c - 0x020))

/-- Ones among the low 16 bits. -/
def ones16 (w : BitVec 16) : Nat := ((List.range 16).filter fun i => w.getLsbD i).length
/-- A control register written with a value, by its own write rule (R33, R36, R52, R63, R64, R168, R177, R195). -/
def State.writeCr (s : State) (c : Nat) (v : Word) : State :=
  match c with
  | 0x008 => s.withCtl fun l => { l with parkt := v.setWidth 16 }
  | 0x009 =>
    let d := fld v 0 5
    s.withCtl fun l => { l with sqdepth := if d = 0 then 1 else if 16 < d then 16 else BitVec.ofNat 5 d }
  | 0x010 => s.withCtl fun l => { l with fflags := v.setWidth 5 }
  | 0x011 => s.withCtl fun l =>
      { l with frm := if 6 ≤ fld v 0 3 then (l.frm &&& 7) ||| (v.setWidth 4 &&& 8) else v.setWidth 4 }
  | 0x012 => s.withCtl fun l => { l with rseed := if v.setWidth 32 = (0 : BitVec 32) then 1 else v.setWidth 32 }
  | 0x013 => s.withCtl fun l => { l with spx := v.setWidth 1 }
  | 0x014 => s.withCtl fun l => { l with athr := v.setWidth 32 }
  | 0x015 => s.withCtl fun l => { l with adrop := v.setWidth 32 }
  | 0x016 => s.withCtl fun l => { l with adcnt := v }
  | 0x030 => s.withCtl fun l => { l with hkey := v.setWidth 16 }
  | 0x101 => s.withCtl fun l => { l with epc := BitVec.ofNat 64 (v.toNat % 2 ^ 56 / 2 * 2) }
  | 0x102 => s.withCtl fun l => { l with estat := v.setWidth 2 }
  | 0x103 => s.withCtl fun l => if 8 < ones16 (v.setWidth 16) then l else { l with fgmask := v.setWidth 16 }
  | 0x104 => s.withCtl fun l => { l with ptroot := BitVec.ofNat 48 (v.toNat / 65536) }
  | 0x105 => s.setHere { s.here with awt := if v.setWidth 4 = (0 : BitVec 4) then 1 else v.setWidth 4 }
  | c =>
    if 0x018 ≤ c && c < 0x01C then
      s.withCtl fun l => l.setCredit (BitVec.ofNat 2 (c - 0x018)) (if 4 < fld v 0 3 then 4 else v.setWidth 3)
    else if 0x01C ≤ c && c < 0x020 then
      s.withCtl fun l => { l with mbx := l.mbx.set ((c - 0x01C) % 4) (v.setWidth 32) (by omega) }
    else if 0x020 ≤ c && c < 0x030 then
      s.withCtl fun l => { l with rgn := l.rgn.set ((c - 0x020) % 16) (BitVec.ofNat 64 (v.toNat / 8 * 8)) (by omega) }
    else s

/-- The access checks of R59, illegal before privilege (R88). -/
def csrCheck (word c : Nat) (write : Bool) (s : State) : Option Trap :=
  if !crnListed c || (write && crnReadOnly c) then some (illegal word)
  else if crnSupervisor c && s.me.ctl.priv = 0 then some privilegeTrap
  else none
/-- A meaning over operands, after a check that comes before them. -/
def checked (t : Option Trap) (word : Nat) (rd wr : List Reg) (s : State) (k : State → Res) :
    Host.Outcome State Fault Refusal :=
  match t with
  | some t => finish (.trap t s)
  | none => withRegs word rd wr s k
/-- The check of a supervisor instruction (R87, R88). -/
def privCheck (s : State) : Option Trap := if s.me.ctl.priv = 0 then some privilegeTrap else none

/-- Registers that instructions of the vector stream read or write: a control-register instruction after REPGO waits for the
replay, so that it stands after every pass and governs none (R65, R136). -/
def crnVector (c : Nat) : Bool := 0x010 ≤ c && c ≤ 0x016
/-- A read of a mailbox counter acquires the strips that it counts (R299). -/
def State.readMbx (s : State) (c : Nat) : State := if 0x01C ≤ c && c ≤ 0x01F then s.acquired s.me.mbxAt else s
/-- The update of R247: `f` gives the new value from the old one and g[a]. cr.syncst is the one W1C register. -/
def csrUpdate (word m : Nat) (d a : BitVec 5) (c : BitVec 11) (f : Word → Word → Word) (s : State) :
    Host.Outcome State Fault Refusal :=
  checked (csrCheck word c.toNat true s) word [.g a] [.g d] s fun s =>
    if crnVector c.toNat && !s.cur.replay && s.me.replaying then .wait .interlock s else
    let old := s.readCr c.toNat
    let x := s.me.getG a
    let s1 :=
      if c.toNat = 0x007 then
        if m = 3 then s else s.withCtl fun l => { l with syncst := l.syncst &&& ~~~(x.setWidth 2) }
      else s.writeCr c.toNat (f old x)
    .ok (.fall 4) ((s1.readMbx c.toNat).writeG d old)
/-- CSRRD (R247). -/
def execCsrrd (d : BitVec 5) (c : BitVec 11) (s : State) : Host.Outcome State Fault Refusal :=
  let word := wordI 0x3E c.toNat 0 d.toNat 0
  checked (csrCheck word c.toNat false s) word [] [.g d] s fun s =>
    if crnVector c.toNat && !s.cur.replay && s.me.replaying then .wait .interlock s else
    .ok (.fall 4) ((s.readMbx c.toNat).writeG d (s.readCr c.toNat))
/-- CSRWR (R247). -/
def execCsrwr (d a : BitVec 5) (c : BitVec 11) (s : State) : Host.Outcome State Fault Refusal :=
  csrUpdate (wordI 0x3E c.toNat a.toNat d.toNat 1) 1 d a c (fun _ x => x) s
/-- CSRSET (R247). -/
def execCsrset (d a : BitVec 5) (c : BitVec 11) (s : State) : Host.Outcome State Fault Refusal :=
  csrUpdate (wordI 0x3E c.toNat a.toNat d.toNat 2) 2 d a c (fun old x => old ||| x) s
/-- CSRCLR (R247). -/
def execCsrclr (d a : BitVec 5) (c : BitVec 11) (s : State) : Host.Outcome State Fault Refusal :=
  csrUpdate (wordI 0x3E c.toNat a.toNat d.toNat 3) 3 d a c (fun old x => old &&& ~~~x) s

/-- ERET (R249). -/
def execEret (s : State) : Host.Outcome State Fault Refusal :=
  checked (privCheck s) (wordI 0x3E 0x7E0 0 0 0) [] [] s fun s =>
    .ok .own (s.setMe (returnFromTrap s.me))

/-! ## Completion words (R231) -/

/-- The completion word at g[d], written 0 and empty as STE writes it, or none for d = 0 (R231). -/
def completionWord (d : BitVec 5) (s : State) (k : Option Word → State → Res) : Res :=
  if d = 0 then k none s else
  let va := s.me.getG d
  (storeMem va 8 0 .setEmpty 0 0 s).bind fun s => k (some va) s
/-- A 64-byte block at g[a], 64-byte aligned, read at issue. -/
def readBlock (va : Word) (s : State) (k : Nat → State → Res) : Res :=
  if 2 ^ 56 ≤ va.toNat then .trap (rangeFault 0 s.me.ctl.priv va) s else
  if va.toNat % 64 ≠ 0 then .trap (misaligned va) s else
  access va 64 .read .plain 0 false .copy s fun pas ps _ s1 =>
    k (readValue s1 (some s1.me.acqAt) ps) (plainRead none pas ps s1)

/-! ## Translation maintenance (R250, R251) -/

/-- The fields of a TLBSD block, none for a bad one. -/
def shootFields (n : Nat) : Option (Word × Word × BitVec 8 × BitVec 8 × Word) :=
  let psz := nbits n 128 8
  let base := nbits n 0 64
  if nbits n 144 48 ≠ 0 || nbits n 256 256 ≠ 0 || 2 < psz || 1 < nbits n 136 8 || base % pageSize psz ≠ 0 then none
  else some (BitVec.ofNat 64 base, BitVec.ofNat 64 (nbits n 64 64), BitVec.ofNat 8 psz, BitVec.ofNat 8 (nbits n 136 8),
    BitVec.ofNat 64 (nbits n 192 64))
/-- TLBSD (R250): a release fence at package scope, then a shootdown that runs beside the core. -/
def execTlbsd (d a : BitVec 5) (s : State) : Host.Outcome State Fault Refusal :=
  checked (privCheck s) (wordI 0x3E 0x7E1 a.toNat d.toNat 0) [.g a, .g d] [] s fun s =>
    readBlock (s.me.getG a) s fun n s =>
      (fenceAt 2 4 s).bind fun s =>
        completionWord d s fun w s =>
          .ok (.fall 4) { s with shoots := s.shoots ++ [⟨s.issuer, w, shootFields n⟩] }
/-- TLBINV (R251). -/
def execTlbinv (a : BitVec 5) (s : State) : Host.Outcome State Fault Refusal :=
  checked (privCheck s) (wordI 0x3E 0x7E2 a.toNat 0 0) [.g a] [] s fun s =>
    let va := (s.me.getG a).toNat
    let hit (e : TlbEntry) : Bool := a = 0 || e.base = va / reach e.lvl.toNat
    let own : List TlbHome := [.instr s.cur.core, .data s.cur.core]
    .ok (.fall 4) { s with tlb := s.tlb.filter fun e => !(own.contains e.home && hit e) }

/-! ## The supervisor queue and partitions (R252, R253) -/

/-- The status word of SUPRD. -/
def supStatus (v : Bool) (drops left : Nat) (reason : BitVec 8) : Word :=
  BitVec.ofNat 64 ((if v then 2 ^ 63 else 0) + min drops 65535 * 2 ^ 32 + left % 65536 * 2 ^ 16 + reason.toNat)
/-- SUPRD's record is written, and only then is the entry removed. -/
def suprd (va : Word) (d : BitVec 5) (s : State) : Res :=
  let p := s.partOf s.cur.core
  let x := s.part p
  if 2 ^ 56 ≤ va.toNat then .trap (rangeFault 1 s.me.ctl.priv va) s else
  if va.toNat % 64 ≠ 0 then .trap (misaligned va) s else
  match x.supq with
  | [] => .ok (.fall 4) ((s.setPart p { x with drops := 0 }).writeG d (supStatus false x.drops 0 0))
  | e :: rest =>
    access va 64 .write .plain 0 false .token s fun _ ps _ s1 =>
      let words := e.msg.src :: e.msg.desc :: e.msg.pay.toList
      let tag := tagFor s1.cur.core s1.cur.ctx s1.myLaunch s1.me.relScope va
      let s2 := writeThrough s1.cur.core s1.cur.ctx (ps.zip (words.flatMap fun (w : Word) => toBytes w.toNat 8)) tag s1
      .ok (.fall 4) ((s2.setPart p { x with supq := rest, drops := 0 }).writeG d
        (supStatus true x.drops rest.length e.reason))
/-- SUPRD (R252). -/
def execSuprd (d a : BitVec 5) (s : State) : Host.Outcome State Fault Refusal :=
  checked (privCheck s) (wordI 0x3E 0x7E3 a.toNat d.toNat 0) [.g a] [.g d] s fun s => suprd (s.me.getG a) d s
/-- PARTSET (R253): only a supervisor context of partition 0. -/
def execPartset (d a : BitVec 5) (s : State) : Host.Outcome State Fault Refusal :=
  let t := if s.me.ctl.priv = 0 || s.partOf s.cur.core ≠ 0 then some privilegeTrap else none
  checked t (wordI 0x3E 0x7E4 a.toNat d.toNat 0) [.g a, .g d] [] s fun s =>
    readBlock (s.me.getG a) s fun n s =>
      completionWord d s fun w s =>
        .ok (.fall 4) { s with partops := s.partops ++ [⟨s.issuer, w, BitVec.ofNat 512 n⟩] }

end Sys2Proof.Machine
end

