-- ==== Sys2Proof/Machine/Engine.lean ====
section
/-! DEFINITION. What the engines share (R214, R290, R295): reading and writing through an issuer's translation, completion
words (R231), fix-ups (R364, R365), and grants of compute ways (R216, R223). -/

namespace Sys2Proof.Machine

/-! ## Launches that are saved (R351) -/

/-- The core that holds an issuer's context: the saved copy while its launch is saved (R350, R351). -/
def State.issuerCore (s : State) (i : Issuer) : Core :=
  match (s.savedLaunch i.launch).bind fun x => Assoc.get? x.saved.cores i.core.toNat with
  | some c => c
  | none => s.core i.core
def State.issuerCtx (s : State) (i : Issuer) : Ctx := (s.issuerCore i).ctxAt i.ctx
/-- The issuer's context replaced, where it is held. -/
def State.setIssuerCtx (s : State) (i : Issuer) (c : Ctx) : State :=
  match (s.savedLaunch i.launch).bind fun x => (Assoc.get? x.saved.cores i.core.toNat).map fun k => (x, k) with
  | some (x, k) =>
    s.setLaunch { x with saved := { x.saved with cores := Assoc.put x.saved.cores i.core.toNat (k.setCtx i.ctx c) } }
  | none => s.setCtxAt i.core i.ctx c
/-- The issuer's own stores before its command have been performed; a saved context has none left (R305, R350). -/
def State.commandReady (s : State) (i : Issuer) : Bool := (s.savedLaunch i.launch).isSome || s.issuerReady i

/-! ## Engine accesses (R214, R290) -/

/-- How an engine's access ends without effect. -/
inductive Miss where
  /-- the element is skipped with a code of R213 -/
  | code (c : Nat)
  /-- a translation fault, for a fix-up (R364) -/
  | fault (t : Trap)
  /-- a poisoned word was read (R396) -/
  | poison
  /-- the access waits: a bank engine holds the line, it moves, the token's holder has stores to it, or the link to another
  package has no credit (R284, R286, R289, R381) -/
  | hold
  /-- the access waits while the home asks the host, by BISnpInv for a write (R376) -/
  | ask (line : Nat) (write : Bool)
deriving DecidableEq, Repr

/-- The spaces that an engine's element accesses accept (R214). -/
def Place.forEngine : Place → Bool
  | .dram _ _ => true
  | .sram _ => true
  | .host _ => true
  | .remote _ => true
  | _ => false
/-- What keeps an access at home waiting (R286, R289, R376). -/
def homeWaits (s : State) (write : Bool) (ps : List Place) : Option Miss :=
  if ps.any s.blocked || (write && (linesOf ps).any (s.holdsBack none)) then some .hold
  else (ps.findSome? (s.askFor none write)).map (.ask · write)
/-- An engine access of `n` bytes, at most two pages, translated for its issuer (R364) and checked (R214); one to another package
leaves as a flit of the engines' network (R381). -/
def engineSpan (s : State) (i : Issuer) (va : Nat) (n : Nat) (acc : Acc) :
    Except Miss (List Nat × List Place × State) :=
  match translateSpan s (.engine i.eng (dieOf i.core)) i.root (BitVec.ofNat 64 va) n acc i.priv with
  | .error t => if t.code = 0x12 then .error (.code 2) else .error (.fault t)
  | .ok (pa, pa2, s1) =>
    let pas := spanPas va n pa pa2
    match placesOf s1 i.hkey pas with
    | .error _ => .error (.code 2)
    | .ok ps =>
      if !(ps.all Place.forEngine) || (ps.any (·.isRemote) && Config.flitAnswer s.tick ≠ 0) then .error (.code 2)
      else if !s1.flitsReady 2 (remotePas ps) then .error .hold
      else match homeWaits s1 (acc ≠ .read) ps with
        | some m => .error m
        | none => .ok (pas, ps, (ps.foldl (fun s p => match p with
            | .host k => s.fillHost (k / 64) (acc ≠ .read)
            | _ => s) s1).putFlits 2 (remotePas ps))
/-- The byte an engine reads at a place: another package's is open. -/
def engineByte (s : State) (p : Place) : Byte :=
  match p with
  | .remote a => byteOf (Config.freeWord s.tick (a / 8)).toNat (a % 8)
  | p => readPlace s p
/-- What an engine's read of places does at the homes: the requests are noted, and a holder's dirty data recalled (R283, R290). -/
def State.engineReads (s : State) (c : Option CoreId) (ps : List Place) : State :=
  (linesOf ps).foldl (fun s n => (s.noteRequest c n).recallLine n) s
/-- An engine's read of `n` bytes. The request comes from the cluster of the core given, the issuer's unless another engine makes
it (R283, R312). -/
def engineRead (s : State) (i : Issuer) (va n : Nat) (home : CoreId := i.core) : Except Miss (List Byte × State) :=
  match engineSpan s i va n .read with
  | .error e => .error e
  | .ok (_, ps, s1) =>
    if ps.any s1.poisoned then .error .poison
    else .ok (ps.map (engineByte s1), s1.engineReads (some home) ps)
/-- A number of `n` bytes as an engine reads it. -/
def engineNum (s : State) (i : Issuer) (va n : Nat) (home : CoreId := i.core) : Except Miss (Nat × State) :=
  match engineRead s i va n home with
  | .error e => .error e
  | .ok (l, s1) => .ok (fromBytes l, s1)
/-- Bytes written at home with the tokens there and every copy dropped (R290); a line of another package is pending until
its home acknowledges (R292). -/
def engineStore (s : State) (c : Option CoreId) (w : List (Place × Byte)) (t : Option Tag) (follow : Bool := false) : State :=
  let ps := w.map (·.1)
  let far := ((remotePas ps).map (· / 64)).eraseDups
  let s := s.atHome c ps
  { s with mem := writeBytes (far.foldl (fun m l => m.markPending l) s.mem) w t follow }
/-- An engine's write of bytes, with the doublewords written: (virtual, key). `full` sets them full at once (R146). -/
def engineWrite (s : State) (i : Issuer) (va : Nat) (l : List Byte) (full : Bool) (t : Option Tag) (follow : Bool := false)
    (home : CoreId := i.core) :
    Except Miss (List (Nat × Nat) × State) :=
  match engineSpan s i va l.length .write with
  | .error e => .error e
  | .ok (_, ps, s1) =>
    let s2 := engineStore s1 (some home) (ps.zip l) t follow
    let words := ((ps.zipIdx.filterMap fun p => p.1.key.map fun k => ((va + p.2) / 8, k / 8))).eraseDups
    .ok (words, if full then { s2 with mem := setFulls s2.mem (keysOf ps) true } else s2)

/-- A completion word is written full, or dropped with a second notice where its endpoint is absent (R231). -/
def State.engineWord (s : State) (i : Issuer) (word : Option Word) (v : Word) (t : Option Tag := none) : State :=
  match word with
  | none => s
  | some va =>
    match engineWrite s i va.toNat (toBytes v.toNat 8) true t with
    | .ok (_, s1) => s1
    | .error (.code _) => s.refusedNotice i.core i.ctx 2 va none
    | .error _ => s
/-- The line of a completion word is free to be written now. -/
def State.wordReady (s : State) (i : Issuer) (word : Option Word) : Bool :=
  match word with
  | none => true
  | some va => match engineSpan s i va.toNat 8 .write with
    | .error .hold => false
    | .error (.ask _ _) => false
    | _ => true
/-- What keeps a completion word from being written asks the host, where that is what it waits for (R376). -/
def State.askWord (s : State) (i : Issuer) (word : Option Word) : State :=
  match word with
  | none => s
  | some va => match engineSpan s i va.toNat 8 .write with
    | .error (.ask n w) => s.ask w n
    | _ => s
/-- What keeps a unit from writing some of the lines of a range: where that is the host's answer, it is asked (R286, R376). -/
def State.spanWaits (s : State) (i : Issuer) (va n : Nat) : Option State :=
  (List.range ((va % 64 + n + 63) / 64)).findSome? fun k =>
    match engineSpan s i (va / 64 * 64 + 64 * k) 64 .write with
    | .error .hold => some s
    | .error (.ask l w) => some (s.ask w l)
    | _ => none
/-- The completion layout of TLBSD, PARTSET and heap results: CODE in bits 47:40 (R230). -/
def codeWord (c : Nat) : Word := BitVec.ofNat 64 (c * 2 ^ 40)

/-! ## Fix-ups (R364 to R366) -/

/-- Where fix-up entries stand: the party whose translation reaches the block, the block, the party of the faulting
command, the engine kind and the number that the notice carries. -/
structure FixSite where
  iss : Issuer
  who : Issuer
  block : Word
  eng : Nat
  xid : Word
/-- What keeps the engine from writing the entries and FIXCNT of a block now. -/
def State.blockWaits (s : State) (f : FixSite) : Option State := s.spanWaits f.iss f.block.toNat 128
/-- The engine reads the entries of a block at home, where a holder's dirty data are recalled first (R290, R366). -/
def State.readBlock (s : State) (f : FixSite) : State :=
  match engineSpan s f.iss f.block.toNat 128 .read with
  | .ok (_, ps, s1) => s1.engineReads (some f.iss.core) ps
  | .error _ => s
/-- An aligned doubleword that an engine writes into its block, which nothing keeps it from; one whose endpoint is absent takes
nothing. -/
def State.blockWord (s : State) (f : FixSite) (off : Nat) (v : Nat) : State :=
  match engineWrite s f.iss (f.block.toNat + off) (toBytes v 8) true none with
  | .ok (_, s1) => s1
  | .error _ => s
/-- Doubleword 0 of a fix-up entry (R364). -/
def fixWord (t : Trap) (page : Nat) (st : Nat) : Nat :=
  let info := (t.info.getD 0).toNat
  page * 2 ^ 14 + (if t.code = 0x11 then 128 else 0) + st * 16 + nbits info 2 2 * 4 + nbits info 0 2
/-- A new pending entry is written, and the supervisor told (R364, R365). -/
def State.writeFix (s : State) (f : FixSite) (t : Trap) (idx : Nat) : State :=
  let va := t.addr.getD 0
  let s := s.blockWord f (64 + 16 * idx) (fixWord t (nbits va.toNat 14 42) 1)
  s.notice (s.partOf f.who.core) 1 f.who.core f.who.ctx
    (BitVec.ofNat 64 (2 ^ 63 + f.eng * 2 ^ 24 + idx * 2 ^ 20 + f.who.ctx.toNat * 2 ^ 16 + f.who.core.toNat))
    f.block va ((t.info.getD 0).setWidth 64 * 256 + t.code.setWidth 64) f.xid 0
/-- How recording a fix-up ends: recorded, or waited for: all four entries are in use, or the block cannot be written yet. -/
inductive Recorded where
  | done (fixes : List Fixup) (cnt : Nat) (s : State)
  | waits (s : State)
/-- A fix-up entry is recorded for an element, or joined; it waits when all four entries are in use (R364). One whose page faults
again as it is replayed returns to 001 (R366). -/
def recordFix (s : State) (f : FixSite) (fixes : List Fixup) (cnt : Nat) (t : Trap) (elem : Nat) : Recorded :=
  match s.blockWaits f with
  | some s => .waits s
  | none =>
    let s := s.readBlock f
    let page := BitVec.ofNat 42 (nbits (t.addr.getD 0).toNat 14 42)
    let st (k : Nat) : Nat := fixState s f.iss f.block k
    let open_ (k : Nat) : Bool := st k = 1 || st k = 2
    match fixes.find? fun x => x.page = page && open_ x.idx with
    | some x =>
      .done (fixes.map fun y => if y.idx = x.idx then { y with elems := y.elems ++ [elem], again := false } else y) cnt
        (if x.again then s.writeFix f t x.idx else s)
    | none =>
      match (List.range 4).find? fun k => (st k = 0 || st k = 4 || st k = 5) && !(fixes.any fun x => x.idx = k && x.open_) with
      | none => .waits s
      | some k =>
        let cnt' := max cnt (k + 1)
        let s := (s.blockWord f 48 cnt').writeFix f t k
        let old := fixes.any fun x => x.idx = k && x.replayed
        .done ((fixes.filter fun x => x.idx ≠ k) ++ [{ idx := k, page := page, who := f.who.core, elems := [elem], replayed := old }])
          cnt' s
/-- STATE of an entry written by the engine, the rest of it left (R366). -/
def State.setFixState (s : State) (f : FixSite) (idx st : Nat) : State :=
  let w := ((peek s f.iss (f.block.toNat + 64 + 16 * idx)).getD 0).toNat
  s.blockWord f (64 + 16 * idx) (w - nbits w 4 3 * 16 + st * 16)
/-- Some entry still has elements, or a state that the engine has to write (R366). -/
def fixPending (fixes : List Fixup) : Bool := fixes.any (·.open_)
/-- An entry of which nothing is left to perform: the engine writes 100, or 101 where it was abandoned, as soon as nothing keeps it
from the block (R366). -/
def settleFix (s : State) (f : FixSite) (x : Fixup) : Fixup × State :=
  if !x.elems.isEmpty || !(x.again || x.skip) then (x, s) else
  match s.blockWaits f with
  | some s => (x, s)
  | none =>
    ({ x with again := false, skip := false, replayed := x.replayed || x.again }, s.setFixState f x.idx (if x.again then 4 else 5))
/-- FIXCNT := 0 and every STATE := 000, at the start of a transfer (R364). -/
def State.clearFixes (s : State) (f : FixSite) : State :=
  (List.range 4).foldl (fun s k =>
    match peek s f.iss (f.block.toNat + 64 + 16 * k) with
    | some w => s.blockWord f (64 + 16 * k) (w.toNat - nbits w.toNat 4 3 * 16)
    | none => s) ((s.readBlock f).blockWord f 48 0)
/-- The engine's cached translations of a page are dropped before it is translated again (R366). -/
def State.dropPage (s : State) (i : Issuer) (page : Nat) : State :=
  { s with tlb := s.tlb.filter fun e => !(e.home = .engine i.eng (dieOf i.core) && e.covers i.root (page * 2 ^ 14)) }

/-! ## Compute ways (R216, R223) -/

/-- Lanes of a grant. -/
def Grant.lanes (g : Grant) : Nat := if g.failed then 0 else g.slices.length * g.ways * 8192
/-- The rows of a lane. -/
def Grant.lane (g : Grant) (l : Nat) : Nat := ((Assoc.get? g.rows l).getD (Config.freeLane g.seed l)).toNat
/-- `n` bits of a lane from a row up. -/
def Grant.read (g : Grant) (lane row n : Nat) : Nat := nbits (g.lane lane) row n
def Grant.write (g : Grant) (lane row n v : Nat) : Grant :=
  let old := g.lane lane
  { g with rows := Assoc.put g.rows lane (BitVec.ofNat 256 (old - nbits old row n * 2 ^ row + v % 2 ^ n * 2 ^ row)) }
/-- The grant of an issuer's context, when its conversion has been done and did not fail. -/
def State.grantOf (s : State) (i : Issuer) : Option Grant :=
  (s.issuerCtx i).grant.bind fun g => if g.done && !g.failed then some g else none
def State.setGrant (s : State) (i : Issuer) (g : Grant) : State :=
  s.setIssuerCtx i { s.issuerCtx i with grant := some g }

end Sys2Proof.Machine
end

