-- ==== Sys2Proof/Machine/Forks.lean ====
section
/-! DEFINITION. The deque of a core (R270): FORK's push (R172), and the chunks of entries that move to the spill area of the
launch and back. -/

namespace Sys2Proof.Machine

/-! ## The spill area (R270, R345) -/

/-- `n` bytes of a launch descriptor. -/
def descNum (d : List Byte) (o n : Nat) : Nat := fromBytes ((d.drop o).take n)
/-- PTROOT as cr.ptroot holds it (R345). -/
def descRoot (d : List Byte) : BitVec 48 := BitVec.ofNat 48 (descNum d 0 8 / 65536)
/-- The launch resident in a core's partition, halting or not: its spill area takes the core's chunks. -/
def State.spillLaunch (s : State) (c : CoreId) : Option Launch :=
  (s.part (s.partOf c)).resident.bind fun l => s.launches.find? fun x => x.id = l
/-- The party that moves a core's entries to and from the spill area of a launch. -/
def spillIssuer (c : CoreId) (l : Launch) : Issuer :=
  { core := c, priv := 1, root := descRoot l.desc, hkey := BitVec.ofNat 16 (descNum l.desc 22 2), launch := some l.id }
/-- A chunk of the spill area that no core uses: the lowest of SPILLN. -/
def State.freeChunk (s : State) (l : Launch) : Option Nat :=
  let va (k : Nat) : Nat := descNum l.desc 64 8 + 8192 * k
  ((List.range (descNum l.desc 72 4)).find? fun k =>
    !(s.cores.any fun c => c.2.spilled.any fun x => x.va = va k && x.iss.launch = some l.id)).map va
/-- The 64-byte record of a deque entry. -/
def Fork.record (f : Fork) (pkg : BitVec 13) : List Byte :=
  (mkSrc pkg f.core f.ctx f.prv 0 :: mkDesc 0 0 f.cls.toNat f.prio.toNat 0 0 :: f.pay.toList).flatMap
    fun (w : Word) => toBytes w.toNat 8
/-- A deque entry from its record. -/
def Fork.ofRecord (l : List Byte) (upTo : Nat) (launch : Option Nat) : Fork :=
  let w (k : Nat) : Word := BitVec.ofNat 64 (fromBytes ((l.drop (8 * k)).take 8))
  { cls := BitVec.ofNat 8 (fld (w 1) 30 8), prio := BitVec.ofNat 6 (fld (w 1) 24 6), pay := #v[w 2, w 3, w 4, w 5, w 6, w 7]
    core := BitVec.ofNat 13 (fld (w 0) 38 13), ctx := BitVec.ofNat 2 (fld (w 0) 36 2), prv := BitVec.ofNat 1 (fld (w 0) 35 1)
    upTo := upTo, launch := launch }
/-- The oldest 128 entries of a full deque move to the spill area; none where it has no room or cannot be written now. -/
def spillDeque (c : CoreId) (s : State) : Option State :=
  (s.spillLaunch c).bind fun l =>
    (s.freeChunk l).bind fun va =>
      let i := spillIssuer c l
      let old := (s.core c).deque.take 128
      match engineWrite s i va (old.flatMap fun f => f.record s.pkg) false none with
      | .error _ => none
      | .ok (_, s) =>
        let x := s.core c
        some (s.setCore c { x with
          deque := x.deque.drop 128
          spilled := x.spilled ++ [⟨i, va, old.zipIdx.map fun f => (f.2, f.1.upTo, f.1.launch)⟩] })
/-- Entries of a chunk read back. -/
def readChunk (s : State) (x : Chunk) (marks : List (Nat × Nat × Option Nat)) : Option (List Fork × State) :=
  match engineRead s x.iss x.va 8192 with
  | .error _ => none
  | .ok (l, s) => some (marks.map fun m => Fork.ofRecord ((l.drop (64 * m.1)).take 64) m.2.1 m.2.2, s)
/-- An empty deque takes back the newest spilled chunk (R270). -/
def State.refill (s : State) (c : CoreId) : State :=
  match (s.core c).deque, (s.core c).spilled.getLast? with
  | [], some k =>
    match readChunk s k k.marks with
    | none => s
    | some (l, s) => s.setCore c { s.core c with deque := l, spilled := (s.core c).spilled.dropLast }
  | _, _ => s
/-- A core gives up its oldest entry, of a spilled chunk before the deque, where `ok` lets it go (R271). -/
def State.takeOldest (s : State) (c : CoreId) (ok : Fork → Bool) : Option (Fork × State) :=
  match (s.core c).spilled with
  | k :: rest =>
    match readChunk s k (k.marks.take 1) with
    | some ([f], s) =>
      let left := k.marks.drop 1
      if ok f then some (f, s.setCore c { s.core c with
        spilled := if left.isEmpty then rest else { k with marks := left } :: rest }) else none
    | _ => none
  | [] =>
    match (s.core c).deque with
    | f :: t => if ok f then some (f, s.setCore c { s.core c with deque := t }) else none
    | [] => none

/-! ## FORK (R172) -/

/-- Classes that belong to the partition's supervisor (R342). -/
def supervisorClass (c : Nat) : Bool := c = 1 || c = 2 || c = 3 || c = 7 || (8 ≤ c && c ≤ 15)
/-- The launch whose message a FORK is: its task's, but for the classes whose messages are none (R272). -/
def State.forkLaunch (s : State) (cls : Nat) : Option Nat := if notLaunchClass cls then none else s.myLaunch
/-- FORK (R172): a release at the stealing domain's scope; a full deque first spills, and the instruction waits while it
cannot. -/
def execFork (a b : BitVec 5) (s : State) : Host.Outcome State Fault Refusal :=
  withRegs (wordR 0x28 2 b.toNat a.toNat 0 0) (.g a :: payRegs b) [] s fun s =>
    let h := s.me.getG a
    let x := s.me
    if x.ctl.priv = 0 && descCls h < 16 then .trap privilegeTrap s else
    let l := s.forkLaunch (descCls h)
    let f : Fork := ⟨BitVec.ofNat 8 (descCls h), BitVec.ofNat 6 (fld h 24 6), x.payload b, s.cur.core, s.cur.ctx,
      x.ctl.priv, x.serial, l⟩
    match (if 256 ≤ s.here.deque.length then spillDeque s.cur.core s else some s) with
    | none => .wait .interlock s
    | some s => .ok (.fall 4) ((s.setHere { s.here with deque := s.here.deque ++ [f] }).countIf l.isSome s.cur.core)

end Sys2Proof.Machine
end

