-- ==== Sys2Proof/Machine/Transfers.lean ====
section
/-! DEFINITION. The transfers of R209 to R222 and R226: their issue checks, the elements each one works through, fix-ups,
and completion. -/

namespace Sys2Proof.Machine

/-! ## Elements of maps (R66, R215, R216) -/

/-- Size of dimension i as a transfer counts it: ec8 rows in blocks of 64 (R215). -/
def countSize (m : BitVec 512) (i : Nat) : Nat := if i = 0 && mapFmt m = 16 then mapSize m 0 / 64 else mapSize m i
/-- Dimension i in the order of counting: TRN exchanges dimensions 0 and 1 (R215). -/
def orderDim (m : BitVec 512) (i : Nat) : Nat := if mapTrn m && 1 ≤ mapDims m && i < 2 then 1 - i else i
/-- The number of elements, or blocks, that a map counts. -/
def countAll (m : BitVec 512) : Nat := (List.range 8).foldl (fun a i => a * countSize m i) 1
/-- The coordinates of the e-th position, dimension 0 of the order fastest. -/
def mapCoords (m : BitVec 512) (e : Nat) : List Nat :=
  let digit (i : Nat) : Nat :=
    let below := (List.range i).foldl (fun a k => a * countSize m (orderDim m k)) 1
    e / below % countSize m (orderDim m i)
  (List.range 8).map fun i => digit (orderDim m i)
/-- The position of coordinates in the order of counting. -/
def mapIndex (m : BitVec 512) (c : List Nat) : Nat :=
  (List.range 8).foldl (fun a i =>
    a + c.getD (orderDim m i) 0 * (List.range i).foldl (fun b k => b * countSize m (orderDim m k)) 1) 0

/-- Where an element lies: a byte address with a bit offset, or a lane with a row; and its bits. -/
inductive Loc where
  | mem (va sub bits : Nat)
  | lane (lane row bits : Nat)
deriving DecidableEq, Repr
/-- The address of a row: coordinates above dimension 0 by their strides. -/
def rowAddr (m : BitVec 512) (c : List Nat) : Nat :=
  mapBase m + ((List.range 8).map fun i => if i = 0 then 0 else c.getD i 0 * mapStride m i).sum
/-- Where the element of some coordinates lies (R66, R216). -/
def mapLoc (m : BitVec 512) (c : List Nat) : Loc :=
  let b := fmtBits (mapFmt m)
  if mapCway m then .lane (nbits (mapBase m) 0 24 + c.getD 0 0) (nbits (mapBase m) 24 8 + c.getD 1 0 * b) b
  else .mem (rowAddr m c + c.getD 0 0 * b / 8) (c.getD 0 0 * b % 8) b
/-- The element read. -/
def getLoc (s : State) (i : Issuer) (l : Loc) : Except Miss (Nat × State) :=
  match l with
  | .lane lane row b =>
    match s.grantOf i with
    | none => .error (.code 3)
    | some g => if g.lanes ≤ lane then .error (.code 3) else .ok (g.read lane row b, s)
  | .mem va sub b =>
    match engineNum s i va (max 1 (b / 8)) with
    | .error e => .error e
    | .ok (v, s1) => .ok (nbits v sub b, s1)
/-- The element written, with the doublewords touched. A 4-bit element leaves the other half of its byte. -/
def putLoc (s : State) (i : Issuer) (l : Loc) (v : Nat) : Except Miss (List (Nat × Nat) × State) :=
  match l with
  | .lane lane row b =>
    match s.grantOf i with
    | none => .error (.code 3)
    | some g => if g.lanes ≤ lane then .error (.code 3) else .ok ([], s.setGrant i (g.write lane row b v))
  | .mem va sub b =>
    if 8 ≤ b then engineWrite s i va (toBytes v (b / 8)) false none else
    match engineSpan s i va 1 .write with
    | .error e => .error e
    | .ok (_, ps, s1) =>
      let old := fromBytes (ps.map (engineByte s1))
      engineWrite s i va (toBytes (old - nbits old sub 4 * 2 ^ sub + v % 16 * 2 ^ sub) 1) false none
/-- The doublewords of a range become poisoned (R396). -/
def poisonRange (s : State) (i : Issuer) (va n : Nat) : State :=
  (List.range ((va % 8 + n + 7) / 8)).foldl (fun s k =>
    match engineSpan s i (va / 8 * 8 + 8 * k) 8 .write with
    | .error _ => s
    | .ok (_, ps, s1) =>
      { s1 with mem := { s1.mem with poison := (keysOf ps).foldl (fun l k => addKey (k / 8) l) s1.mem.poison } }) s
/-- Where an element lies in memory: its address and bytes. -/
def Loc.range : Loc → List (Nat × Nat)
  | .lane _ _ _ => []
  | .mem va _ b => [(va, max 1 (b / 8))]

/-! ## Formats (R28, R215) -/

/-- The pairs of formats that a copy accepts (R215). -/
def pairOk (a b : Nat) : Bool := a = b || (a < 16 && b < 16) || ((a = 17 || a = 18) && b = 2)
/-- An element times its scale, widened to bf16 by RNE; no flags (R28). The sign of a zero that comes of a zero s4 element and a
negative scale is the model's choice: −0, an integer 0 standing for +0 (log 18). -/
def widen (x y : Num) : Nat :=
  if x.isNan || y.isNan || x.badMul y then 0x7FC0 else (bf16.ofNum .rne (x.mul y)).1
/-- The value of an E8M0 scale (R27). -/
def e8m0 (e : Nat) : Num := if e = 255 then .nan false 0 false else .fin false 1 ((e : Int) - 127)
/-- A code of a scaled form with its scale's bits, widened (R28). -/
def widenCode (fmt code scale : Nat) : Nat :=
  if fmt = 17 then widen (intNum (signedN 4 code)) (f16.decode scale) else widen (e4m3.decode code) (e8m0 scale)
/-- The address and bytes of the scale of an element of a scaled map: one f16 for 32 elements, one byte for 128,
counted along the map (R28, R66). -/
def scaleAt (m : BitVec 512) (c : List Nat) : Nat × Nat :=
  let lin := (List.range 8).foldl (fun a i => a + c.getD i 0 * (List.range i).foldl (fun b k => b * mapSize m k) 1) 0
  if mapFmt m = 17 then (mapSbase m + 2 * (lin / 32), 2) else (mapSbase m + lin / 128, 1)
/-- An element of a map converted to a format (R215). -/
def fetchElem (s : State) (i : Issuer) (ovn : Bool) (m : BitVec 512) (c : List Nat) (dst : Nat) :
    Except Miss (Nat × State) :=
  match getLoc s i (mapLoc m c) with
  | .error e => .error e
  | .ok (v, s1) =>
    let src := mapFmt m
    if src = dst then .ok (v, s1)
    else if src < 16 then .ok ((convert src dst .rne ovn 0 v).1, s1)
    else
      let sc := scaleAt m c
      match engineNum s1 i sc.1 sc.2 with
      | .error e => .error e
      | .ok (x, s2) => .ok (widenCode src v x, s2)
/-- Bytes of the ec8 block at an address, from its header (R29). -/
def blockBytes (s : State) (i : Issuer) (va : Nat) : Except Miss (Nat × State) :=
  match engineNum s i va 2 with
  | .error e => .error e
  | .ok (h, s1) => .ok (34 + 2 * nbits h 1 9, s1)
/-- The most bytes an ec8 block has. -/
def blockMax : Nat := 34 + 2 * 511
/-- The place of block `n` of an ec8 row: the blocks before it are packed (R67). -/
def blockAt (s : State) (i : Issuer) (va : Nat) : Nat → Except Miss (Nat × State)
  | 0 => .ok (va, s)
  | n + 1 =>
    match blockBytes s i va with
    | .error e => .error e
    | .ok (k, s1) => blockAt s1 i (va + k) n
/-- The bytes that the blocks before a destination's take, by the headers of the sources they come from. -/
def blockSum (s : State) (i : Issuer) : List (List Nat) → BitVec 512 → Except Miss (Nat × State)
  | [], _ => .ok (0, s)
  | c :: t, m => do
    let (va, s) ← blockAt s i (rowAddr m c) (c.getD 0 0)
    let (k, s) ← blockBytes s i va
    let (n, s) ← blockSum s i t m
    .ok (k + n, s)
/-- An ec8 block of source coordinates `c` copied to its place in a row of destination: `before` gives the source coordinates of the
blocks that precede it there. -/
def copyBlock (s : State) (x : Xfer) (c : List Nat) (before : List (List Nat)) (row : Nat) : Except Miss (List (Nat × Nat) × State) := do
  let (va, s) ← blockAt s x.iss (rowAddr x.sm c) (c.getD 0 0)
  let (n, s) ← blockBytes s x.iss va
  let (o, s) ← blockSum s x.iss before x.sm
  let (l, s) ← engineRead s x.iss va n
  engineWrite s x.iss (row + o) l false none
/-- The bytes that such a block would take in its row; where a poisoned header hides its length or its place, all those that it may
take (log 19). -/
def blockRange (s : State) (x : Xfer) (c : List Nat) (before : List (List Nat)) (row : Nat) : Nat × Nat :=
  match blockSum s x.iss before x.sm with
  | .error _ => (row, blockMax * (before.length + 1))
  | .ok (o, s) =>
    (row + o, match blockAt s x.iss (rowAddr x.sm c) (c.getD 0 0) with
      | .error _ => blockMax
      | .ok (va, s) => match blockBytes s x.iss va with
        | .error _ => blockMax
        | .ok (n, _) => n)

/-- One element, or ec8 block, of source coordinates `c` copied to destination coordinates `d`; `before` gives the source
coordinates of the blocks that precede it in the destination row. -/
def copyElem (s : State) (x : Xfer) (c d : List Nat) (before : List (List Nat)) :
    Except Miss (List (Nat × Nat) × State) :=
  if mapFmt x.sm = 16 then copyBlock s x c before (rowAddr x.dm d)
  else
    match fetchElem s x.iss x.ovn x.sm c (mapFmt x.dm) with
    | .error e => .error e
    | .ok (v, s1) => putLoc s1 x.iss (mapLoc x.dm d) v
/-- Where such an element is written, in memory. -/
def copyRange (s : State) (x : Xfer) (c d : List Nat) (before : List (List Nat)) : List (Nat × Nat) :=
  if mapFmt x.sm = 16 then [blockRange s x c before (rowAddr x.dm d)] else (mapLoc x.dm d).range

/-! ## Issue checks (R210, R212) -/

/-- SM and DM of a map word. -/
def smOf (w : Word) : BitVec 4 := BitVec.ofNat 4 (fld w 0 4)
def dmOf (w : Word) : BitVec 4 := BitVec.ofNat 4 (fld w 4 4)
/-- The rules of a compute-way map (R216). -/
def cwayOk (m : BitVec 512) : Bool :=
  !mapCway m || (mapBase m / 2 ^ 32 = 0 && mapDims m ≤ 1 && 1 ≤ mapFmt m && mapFmt m ≤ 13
    && nbits (mapBase m) 24 8 + mapSize m 1 * typeBits (mapFmt m) ≤ 256)
/-- Bytes of scales of a pool block (R217). -/
def poolScales (m : BitVec 512) : Nat := if mapFmt m = 17 then 4 * mapSize m 1 else mapSize m 1 / 2
/-- The layout of a KV pool (R217). -/
def poolOk (m : BitVec 512) : Bool :=
  (mapFmt m = 17 || mapFmt m = 18) && mapDims m = 2 && mapSize m 0 = 64 && mapSize m 1 ≤ 64 && !mapCway m
    && mapStride m 1 = (if mapFmt m = 17 then 32 else 64) && mapStride m 2 % 64 = 0
    && !(mapFmt m = 18 && mapSize m 1 % 2 = 1) && mapSize m 1 * mapStride m 1 + poolScales m ≤ mapStride m 2
/-- GET and PUT move rows of equal length (R215, R220). -/
def rowsOk (sm dm : BitVec 512) : Bool :=
  pairOk (mapFmt sm) (mapFmt dm) && countSize sm 0 = countSize dm 0 && cwayOk sm && cwayOk dm
/-- The ring of CPYKV: MAPV 0 and slots of at least 8.5 KiB (R218). -/
def kvRingOk (f : Forge) (r : BitVec 3) : Bool :=
  match (f.ring r).conf with
  | none => false
  | some w => !bit w 31 && 8704 ≤ ringSlot w * 1024
/-- The command's own check (R215, R217, R218, R221). -/
def kindOk (s : State) (k : XferKind) (w : Word) (sm dm : BitVec 512) : Bool :=
  match k with
  | .cpy => pairOk (mapFmt sm) (mapFmt dm) && countAll sm = countAll dm && cwayOk sm && cwayOk dm
  | .cpykv => poolOk sm && kvRingOk s.myForge (BitVec.ofNat 3 (fld w 8 3))
  | .kvapp => poolOk sm && poolOk dm && mapFmt sm = mapFmt dm && mapSize sm 1 = mapSize dm 1 && mapSize sm 2 = mapSize dm 2
  | .get => rowsOk sm dm
  | .put => rowsOk sm dm
  | .halo => mapDims sm = 1 && cwayOk sm
  | .rowop => true
/-- The commands that use the destination map. -/
def XferKind.usesDm : XferKind → Bool
  | .cpy => true
  | .kvapp => true
  | .get => true
  | .put => true
  | _ => false
/-- GET and PUT: a counter word that lies outside forge SRAM, where the block and the word can be reached (R220). -/
def counterBad (s : State) (k : XferKind) (blk : Word) : Bool :=
  if k = .get || k = .put then
    let i := s.issuer
    match translate s (.data i.core) i.root (blk + 32) .read i.priv with
    | .error _ => false
    | .ok (pa, s1) =>
      match placesOf s1 i.hkey ((List.range 8).map (pa + ·)) with
      | .error _ => false
      | .ok ps =>
        let va := readValue s1 none ps
        match translate s1 (.data i.core) i.root (BitVec.ofNat 64 va) .rmw i.priv with
        | .error _ => false
        | .ok (p, _) => p / 2 ^ 48 % 8 ≠ 3
  else false
/-- Two parties issue into one transfer queue: one context's, whatever its task, but a saved launch's contexts are its own
(R212, R350). -/
def State.sameQueue (s : State) (a b : Issuer) : Bool :=
  a.core = b.core && a.ctx = b.ctx
    && (((s.savedLaunch a.launch).isNone && (s.savedLaunch b.launch).isNone) || a.launch = b.launch)
/-- Transfers of a context that are not yet complete (R212). -/
def State.openXfers (s : State) (i : Issuer) : List Xfer := s.xfers.filter fun x => s.sameQueue x.iss i && x.st ≠ .complete
/-- The transfer names compute ways (R225). -/
def Xfer.cway (x : Xfer) : Bool := x.kind ≠ .rowop && (mapCway x.sm || (x.kind.usesDm && mapCway x.dm))
/-- A transfer enters its context's queue with its id (R212). -/
def enqueueXfer (k : XferKind) (d : BitVec 5) (blk : Word) (w : Word) (sm dm : BitVec 512) (s : State) : Res :=
  let x := s.me
  let i := s.issuer .copy
  if 16 ≤ (s.openXfers i).length then .wait .transferQueue s else
  let id := BitVec.ofNat 16 (s.cur.ctx.toNat * 16384 + x.xfer.toNat)
  let t : Xfer := { id := id, iss := i, kind := k, block := blk, mapw := w.setWidth 32, sm := sm, dm := dm
                    ovn := x.ctl.ovn, after := x.bsops.length }
  let keep := s.xfers.filter fun y => !(y.id = id && s.sameQueue y.iss i && y.st = .complete)
  let s := { s with xfers := keep ++ [t] }
  .ok (.fall 4) ((s.setMe { x with xfer := if x.xfer = 16383 then 1 else x.xfer + 1 }).writeG d (id.setWidth 64))
/-- The issue of CPY, CPYKV, KVAPP, GET, PUT and HALO, with its checks in order (R212). -/
def issueXfer (k : XferKind) (fn : Nat) (d a b : BitVec 5) (s : State) : Host.Outcome State Fault Refusal :=
  withRegs (wordR 0x34 fn b.toNat a.toNat d.toNat 0) [.g a, .g b] [.g d] s fun s =>
    let blk := s.me.getG a
    let w := s.me.getG b
    if blk.toNat % 64 ≠ 0 then .trap (misaligned blk) s else
    match s.me.getTm (smOf w), (if k.usesDm then s.me.getTm (dmOf w) else some 0) with
    | some sm, some dm =>
      if fld w 32 32 ≠ 0 || fld w 18 2 ≠ 0 || fld w 12 4 ≠ 0 || !kindOk s k w sm dm || counterBad s k blk then
        .trap (badMap 7) s
      else enqueueXfer k d blk w sm dm s
    | _, _ => .trap mapNotLoaded s
/-- CPY (R215). -/
def execCpy (d a b : BitVec 5) (s : State) : Host.Outcome State Fault Refusal := issueXfer .cpy 0 d a b s
/-- CPYKV (R218). -/
def execCpykv (d a b : BitVec 5) (s : State) : Host.Outcome State Fault Refusal := issueXfer .cpykv 1 d a b s
/-- KVAPP (R219). -/
def execKvapp (d a b : BitVec 5) (s : State) : Host.Outcome State Fault Refusal := issueXfer .kvapp 2 d a b s
/-- GET (R220). -/
def execGet (d a b : BitVec 5) (s : State) : Host.Outcome State Fault Refusal := issueXfer .get 3 d a b s
/-- PUT (R220). -/
def execPut (d a b : BitVec 5) (s : State) : Host.Outcome State Fault Refusal := issueXfer .put 4 d a b s
/-- HALO (R221). -/
def execHalo (d a b : BitVec 5) (s : State) : Host.Outcome State Fault Refusal := issueXfer .halo 5 d a b s
/-- ROWOP (R226): no maps and no map word. -/
def execRowop (d a : BitVec 5) (s : State) : Host.Outcome State Fault Refusal :=
  withRegs (wordR 0x38 2 0 a.toNat d.toNat 0) [.g a] [.g d] s fun s =>
    let blk := s.me.getG a
    if blk.toNat % 64 ≠ 0 then .trap (misaligned blk) s else enqueueXfer .rowop d blk 0 0 0 s
/-- CPYCAN (R222). -/
def execCpycan (d a : BitVec 5) (s : State) : Host.Outcome State Fault Refusal :=
  withRegs (wordR 0x34 6 0 a.toNat d.toNat 0) [.g a] [.g d] s fun s =>
    let id := (s.me.getG a).setWidth 16
    let i := s.issuer
    let mine (x : Xfer) : Bool := x.id = id && s.sameQueue x.iss i
    let may (x : Xfer) : Bool := mine x && x.st ≠ .complete && !(x.kind = .kvapp && x.started)
    if !s.xfers.any mine then .ok (.fall 4) (s.writeG d 2)
    else if !s.xfers.any may then .ok (.fall 4) (s.writeG d 1)
    else
      .ok (.fall 4) ({ s with xfers := s.xfers.map fun y => if may y then { y with st := .cancelled } else y }.writeG d 0)

/-! ## Work (R214 to R221) -/

/-- FIX entries of a transfer. -/
def Xfer.site (x : Xfer) : FixSite := ⟨x.iss, x.iss, x.block, 0, x.id.setWidth 64⟩
def Xfer.arg (x : Xfer) (i : Nat) : Nat := (x.args.toList.getD i 0).toNat
/-- HW + 1 and the active directions of HALO, in order (R210, R221). The spec names no outcome for an HW above 63: the wider
border is sent (log 19). -/
def Xfer.border (x : Xfer) : Nat := fld x.mapw 24 8 + 1
def Xfer.dirs (x : Xfer) : List (BitVec 2) := [(0 : BitVec 2), 1, 2, 3].filter fun d => bit x.mapw (20 + d.toNat)
/-- Rows and columns of a strip (R221). -/
def Xfer.strip (x : Xfer) (d : BitVec 2) : Nat × Nat :=
  if d = 0 || d = 2 then (x.border, countSize x.sm 0) else (mapSize x.sm 1, x.border)
/-- The directions of HALO that have a neighbour (R221). -/
def Xfer.goodDirs (x : Xfer) : List (BitVec 2) := x.dirs.filter fun d => (neighbour x.iss.core d).isSome
/-- ROWOP's fields (R226). -/
def Xfer.rop (x : Xfer) : Nat := nbits (x.arg 3) 0 4
def Xfer.rn (x : Xfer) : Nat := if 6 ≤ x.rop then nbits (x.arg 3) 8 5 + 1 else 1
/-! ### KVAPP (R219) -/

/-- Block b of a pool. -/
def poolBlock (m : BitVec 512) (b : Nat) : Nat := mapBase m + b * mapStride m 2
/-- Bytes of one pool entry of a token. -/
def entryBytes (m : BitVec 512) : Nat := mapStride m 1 + if mapFmt m = 17 then 4 else 1
/-- A part of an append, after its block is known: a doubleword or less stored, bytes copied, the table entry, which comes
after every copy, or the count of the block left. -/
inductive Part_ where
  | put (va n v : Nat)
  | copy (src dst n : Nat)
  | entry (va v : Nat)
  | dec (va : Nat)
deriving DecidableEq, Repr
/-- A copy in parts that each lie on one page at either end. -/
def copyParts : Nat → Nat → Nat → Nat → List Part_
  | 0, _, _, _ => []
  | fuel + 1, src, dst, n =>
    if n = 0 then [] else
    let k := min n (min (2 ^ 14 - src % 2 ^ 14) (2 ^ 14 - dst % 2 ^ 14))
    .copy src dst k :: copyParts fuel (src + k) (dst + k) (n - k)
/-- Token `k` of a block from the source: its data, and its scales unless the pair's scale stands. -/
def tokenParts (m : BitVec 512) (b k src : Nat) : List Part_ :=
  let st := mapStride m 1
  let sc := poolBlock m b + mapSize m 1 * st
  copyParts 8 src (poolBlock m b + k * st) st ++
    (if mapFmt m = 17 then copyParts 3 (src + st) (sc + 4 * k) 4
      else if k % 2 = 0 then copyParts 3 (src + st) (sc + k / 2) 1 else [])
/-- A block copied whole, data and scales. -/
def blockParts (m : BitVec 512) (e nb : Nat) : List Part_ :=
  copyParts 8 (poolBlock m e) (poolBlock m nb) (mapSize m 1 * mapStride m 1 + poolScales m)
/-- The parts of an append in their order (R219): for a block that was popped, its count, the block copied, the table entry and
the decrement; then the token in both pools. -/
def Xfer.appendParts (x : Xfer) : List Part_ :=
  match x.app with
  | none => []
  | some (b, old, refs) =>
    let bt := mapSize x.sm 1
    let k := x.arg 1 % 2 ^ 32 % bt
    let va := x.arg 0 + 4 * (x.arg 1 % 2 ^ 32 / bt)
    let n := entryBytes x.sm
    (match old with
      | none => []
      | some e =>
        .put (refs + 4 * b) 4 1 :: (if k = 0 then [] else blockParts x.sm e b ++ blockParts x.dm e b)
          ++ .entry va b :: (if k = 0 then [] else [.dec (refs + 4 * e)]))
      ++ tokenParts x.sm b k (x.arg 2) ++ tokenParts x.dm b k (x.arg 2 + n)
/-- What deciding an append comes to: the transfer with its block, or a code, or an empty stack; and what has been written. -/
inductive Append where
  | go (x : Xfer) (s : State)
  | code (c : Nat) (s : State)
  | empty (s : State)
/-- A free block is popped in place of block `e` (R219): the stack's top and its entry under the token. -/
def appendPop (x : Xfer) (e : Nat) (s : State) : Except Miss Append := do
  let stack := x.arg 3
  let _ ← engineSpan s x.iss stack 8 .rmw
  let (top, s) ← engineNum s x.iss stack 8
  if top = 0 then .ok (.empty s) else
  let (nb, s) ← engineNum s x.iss (stack + 64 + 4 * (top - 1)) 4
  let (refs, s) ← engineNum s x.iss (stack + 8) 8
  let (_, s) ← engineWrite s x.iss stack (toBytes (top - 1) 8) true none
  if mapSize x.sm 2 ≤ nb then .ok (.code 3 s) else .ok (.go { x with app := some (nb, some e, refs) } s)
/-- The start of KVAPP (R219): its checks, and the pop where a block is needed. -/
def append (x : Xfer) (s : State) : Except Miss Append := do
  let bt := mapSize x.sm 1
  let p := x.arg 1 % 2 ^ 32
  let i := p / bt
  let k := p % bt
  if x.arg 1 / 2 ^ 32 ≤ i then .ok (.code 3 s) else
  let (e, s) ← (if k = 0 then .ok (2 ^ 31, s) else engineNum s x.iss (x.arg 0 + 4 * i) 4 : Except Miss (Nat × State))
  let need := 2 ^ 31 ≤ e
  let e := e % 2 ^ 31
  if k ≠ 0 && mapSize x.sm 2 ≤ e then .ok (.code 3 s) else
  let n := entryBytes x.sm
  let scale (m : BitVec 512) (src : Nat) (s : State) : Except Miss (Bool × State) := do
    let (a, s) ← engineNum s x.iss (src + mapStride m 1) 1
    let (b, s) ← engineNum s x.iss (poolBlock m e + bt * mapStride m 1 + k / 2) 1
    .ok (a = b, s)
  let odd := mapFmt x.sm = 18 && k % 2 = 1
  let (a, s) ← (if odd then scale x.sm (x.arg 2) s else .ok (true, s))
  let (b, s) ← (if odd then scale x.dm (x.arg 2 + n) s else .ok (true, s))
  if !a || !b then .ok (.code 6 s)
  else if need then appendPop x e s
  else .ok (.go { x with app := some (e, none, 0) } s)
/-- One part of an append performed, with the doublewords written; those of the counts become full with the last write to them
(R214). That the return-free decrement is such a write, as R370 calls it, although R146 leaves the bit of an NM operation's word
unchanged, is the model's choice (log 19). -/
def Part_.perform (q : Part_) (x : Xfer) (s : State) : Except Miss (List (Nat × Nat) × State) := do
  let i := x.iss
  match q with
  | .put va n v => engineWrite s i va (toBytes v n) false none
  | .copy src dst n =>
    let (l, s) ← engineRead s i src n
    engineWrite s i dst l false none
  | .entry va v => engineWrite s i va (toBytes v 4) true (tagFor i.core i.ctx i.launch (some 4) (BitVec.ofNat 64 va))
  | .dec va =>
    let _ ← engineSpan s i va 4 .rmw
    let (v, s) ← engineNum s i va 4
    engineWrite s i va (toBytes ((v + 2 ^ 32 - 1) % 2 ^ 32) 4) false none

/-- The work items of a transfer: elements, with a last item for what follows every write of GET and PUT, one after each strip
of HALO, and one before the parts of KVAPP. CPYKV counts the positions of whole tiles. -/
def Xfer.total (x : Xfer) : Nat :=
  match x.kind with
  | .cpy => countAll x.sm
  | .cpykv => ((x.arg 1) / 2 ^ 32 + 63) / 64 * 64
  | .kvapp => 1 + x.appendParts.length
  | .get => x.arg 1 * countSize x.sm 0 + 1
  | .put => x.arg 1 * countSize x.sm 0 + 1
  | .halo => (x.goodDirs.map fun d => (x.strip d).1 * (x.strip d).2 + 1).sum
  | .rowop => nbits (x.arg 3) 16 16

/-! ### GET, PUT and HALO (R220, R221) -/

/-- Row `r`'s index in the list of GET and PUT, where it can be read. -/
def Xfer.rowIndex (x : Xfer) (s : State) (r : Nat) : Option Nat :=
  match engineNum s x.iss (x.arg 0 + 4 * r) 4 with
  | .ok (v, _) => some v
  | .error _ => none
/-- Two rows of a PUT go to one row of the table. -/
def Xfer.sameRow (x : Xfer) (s : State) (i j : Nat) : Bool :=
  match x.rowIndex s i, x.rowIndex s j with
  | some a, some b => a = b
  | _, _ => false
/-- Row `j` of a PUT is written before an earlier one to the same place, where the list holds its index twice: either may be
the last (R220). -/
def Xfer.rowLoses (x : Xfer) (s : State) (j : Nat) : Bool :=
  Config.choice x.seed (2 ^ 59 + j) && (List.range j).any fun i => x.sameRow s i j
/-- A row of a PUT that another write of the same row stands over: none of its elements is written any more (R220). -/
def Xfer.rowOver (x : Xfer) (s : State) (i : Nat) : Bool :=
  let n := countSize x.sm 0
  x.kind = .put && (x.rowLoses s i
    || (List.range ((x.next + n - 1) / n)).any fun j => i < j && x.sameRow s i j && !x.rowLoses s j)
/-- Source and destination coordinates of a row's element, further coordinates 0; that TRN of a map does not apply, a row being
dimension 0 as it is, is the model's choice (log 19). GET reads row idx into row i, PUT writes row i to row idx. -/
def rowCoords (x : Xfer) (idx e : Nat) : Except Miss (List Nat × List Nat) :=
  let n := countSize x.sm 0
  let r := e / n
  let p := if x.kind = .get then (idx, r) else (r, idx)
  if mapSize x.sm 1 ≤ p.1 || mapSize x.dm 1 ≤ p.2 then .error (.code 3) else .ok ([e % n, p.1], [e % n, p.2])
/-- An item of HALO: the strip's direction with the row and column within it, or the end of that strip (R221). -/
def haloAt (x : Xfer) : List (BitVec 2) → Nat → Option (BitVec 2 × Option (Nat × Nat))
  | [], _ => none
  | d :: t, e =>
    let z := x.strip d
    if e < z.1 * z.2 then some (d, some (e / z.2, e % z.2))
    else if e = z.1 * z.2 then some (d, none)
    else haloAt x t (e - z.1 * z.2 - 1)
/-- Source coordinates of a strip's element, with the strip's first column, where the image has them; of a border wider than the
image none of the elements has, which is the model's choice (log 19). -/
def haloCoords (x : Xfer) (d : BitVec 2) (r c : Nat) : Except Miss (Nat × Nat × Nat) :=
  let rows := mapSize x.sm 1
  let cols := countSize x.sm 0
  if (d = 0 || d = 2) && rows < x.border || !(d = 0 || d = 2) && cols < x.border then .error (.code 3) else
  let first := if d = 1 then cols - x.border else 0
  .ok (first + c, if d = 2 then rows - x.border + r else r, first)
/-- Where HALO writes an element that is no block. -/
def haloDest (x : Xfer) (d : BitVec 2) (r c : Nat) : Loc :=
  let b := fmtBits (mapFmt x.sm)
  .mem (x.arg d.toNat + r * mapStride x.sm 1 + c * b / 8) (c * b % 8) b
/-- The row of a strip at its destination, and the source blocks before one in it. -/
def haloRow (x : Xfer) (d : BitVec 2) (r : Nat) : Nat := x.arg d.toNat + r * mapStride x.sm 1
def haloBefore (first sc sr : Nat) : List (List Nat) := (List.range (sc - first)).map fun k => [first + k, sr]
/-- One element, or ec8 block, of a strip (R221). TRN of SM does not apply: a strip is of rows and columns of the image as it lies,
which is the model's choice (log 19). -/
def haloElem (x : Xfer) (d : BitVec 2) (r c : Nat) (s : State) : Except Miss (List (Nat × Nat) × State) := do
  let (sc, sr, first) ← haloCoords x d r c
  if mapFmt x.sm = 16 then copyBlock s x [sc, sr] (haloBefore first sc sr) (haloRow x d r)
  else
    let (v, s) ← getLoc s x.iss (mapLoc x.sm [sc, sr])
    putLoc s x.iss (haloDest x d r c) v
/-- Where such an element is written. -/
def haloRange (x : Xfer) (d : BitVec 2) (r c : Nat) (s : State) : List (Nat × Nat) :=
  if mapFmt x.sm ≠ 16 then (haloDest x d r c).range else
  match haloCoords x d r c with
  | .error _ => []
  | .ok (sc, sr, first) => [blockRange s x [sc, sr] (haloBefore first sc sr) (haloRow x d r)]
/-- A strip counts in the receiver's cr.mbx for the side it came from; held while the launch is saved (R221, R351). -/
def countStrip (x : Xfer) (d : BitVec 2) (s : State) : State :=
  match neighbour x.iss.core d with
  | none => s
  | some n =>
    let side : BitVec 2 := d + 2
    let k := BitVec.ofNat 2 (fld x.mapw 16 2)
    match s.savedLaunch x.iss.launch with
    | some l => s.setLaunch { l with heldMbx := l.heldMbx ++ [(n, k, side, s.mem.time)] }
    | none =>
      let c := s.ctxAt n k
      s.setCtxAt n k { (c.withCtl fun l => { l with mbx := l.mbx.set side.toNat (l.mbx.get ⟨side.toNat, side.isLt⟩ + 1) side.isLt })
                       with mbxAt := s.mem.time }
/-- Writes done one after another; a miss ends them. -/
def writeAll (s : State) (i : Issuer) : List (Nat × List Byte) → Except Miss State
  | [] => .ok s
  | (va, l) :: t =>
    match engineWrite s i va l true none with
    | .error e => .error e
    | .ok (_, s1) => writeAll s1 i t
/-- Of the first `n` rows of GET or PUT, those with every element written (R220). -/
def Xfer.rowsDone (x : Xfer) (n : Nat) : Nat := n - (x.lost.filter (· < n)).length
/-- The counter word of GET and PUT: the rows written are added, as a release that needs no scope, and the word set full
(R220, R299). -/
def addRows (x : Xfer) (s : State) : Except Miss State := do
  let va := x.arg 2
  let _ ← engineSpan s x.iss va 8 .rmw
  let (v, s) ← engineNum s x.iss va 8
  let t : Tag := { core := x.iss.core, ctx := x.iss.ctx, scope := 0, page := BitVec.ofNat 42 (va / 2 ^ 14), launch := x.iss.launch
                   count := true }
  let (_, s) ← engineWrite s x.iss va (toBytes ((v + x.rowsDone (x.arg 1)) % 2 ^ 64) 8) true (some t) true
  .ok s

/-! ### ROWOP (R226) -/

/-- The pseudo-channel of a row that translates now, a number that no other has, or none outside space 001 (R226). -/
def rowHome (s : State) (i : Issuer) (va : Nat) (acc : Acc) : Option (Option Nat) :=
  match translate s (.engine i.eng (dieOf i.core)) i.root (BitVec.ofNat 64 va) acc i.priv with
  | .error _ => none
  | .ok (pa, _) => some (if pa / 2 ^ 48 % 8 = 1 then some (pa / 2 ^ 51 * 2 ^ 20 + pa % 2 ^ 48 / pcBytes) else none)
/-- Rows lie in space 001 within one pseudo-channel, as far as they translate. -/
def rowsTogether (s : State) (i : Issuer) (l : List (Nat × Acc)) : Bool :=
  let ks := l.filterMap fun p => rowHome s i p.1 p.2
  ks.all fun k => k.isSome && k = ks.headD none
/-- The three addresses of ROWOP, and the rows that a group touches. -/
def Xfer.rowBases (x : Xfer) : List (Nat × Acc) := [(x.arg 0, .read), (x.arg 1, .read), (x.arg 2, .read)]
def Xfer.groupRows (x : Xfer) (e : Nat) : List (Nat × Acc) :=
  let needB := 2 ≤ x.rop && x.rop ≠ 5
  let used := (x.arg 0, Acc.write) :: (if x.rop ≠ 0 then [(x.arg 1, Acc.read)] else []) ++ (if needB then [(x.arg 2, Acc.read)] else [])
  used.flatMap fun p => (List.range x.rn).map fun k => (p.1 + 1024 * x.rn * e + 1024 * k, p.2)
/-- Element `l` of rows: bit j of the lane in row j. -/
def laneOf (rows : List Nat) (l : Nat) : Nat := fromDigits (rows.map fun r => if r.testBit l then 1 else 0)
where
  fromDigits : List Nat → Nat
    | [] => 0
    | b :: t => b + 2 * fromDigits t
/-- Rows from elements: bit l of row j is bit j of element l. -/
def rowsFrom (vals : List Nat) (n : Nat) : List Nat :=
  (List.range n).map fun j => laneOf.fromDigits (vals.map fun v => if v.testBit j then 1 else 0)
/-- The rows that ROWOP writes for a group (R225, R226). -/
def rowResult (op n : Nat) (a b : List Nat) : List Nat :=
  let bits := 2 ^ 8192
  match op with
  | 0 => [0]
  | 1 => a
  | 2 => List.zipWith (· &&& ·) a b
  | 3 => List.zipWith (· ||| ·) a b
  | 4 => List.zipWith (· ^^^ ·) a b
  | 5 => a.map fun x => bits - 1 - x
  | 6 => rowsFrom ((List.range 8192).map fun l => laneOf a l + laneOf b l) n
  | _ => rowsFrom ((List.range 8192).map fun l => laneOf a l * laneOf b l) n
/-- `n` rows of 1 KiB read from an address. -/
def readRows (s : State) (i : Issuer) (va : Nat) : Nat → Except Miss (List Nat × State)
  | 0 => .ok ([], s)
  | n + 1 =>
    match engineNum s i va 1024 with
    | .error e => .error e
    | .ok (r, s1) =>
      match readRows s1 i (va + 1024) n with
      | .error e => .error e
      | .ok (l, s2) => .ok (r :: l, s2)
/-- One group of ROWOP: sources are read, then its rows written. A row that has come to translate only since the start, and that lies
outside the pseudo-channel, is in a space that does not accept it (log 19). -/
def rowGroup (x : Xfer) (e : Nat) (s : State) : Except Miss State := do
  let n := x.rn
  let off := 1024 * n * e
  if !rowsTogether s x.iss (x.rowBases ++ x.groupRows e) then .error (.code 2) else
  let (a, s) ← (if x.rop ≠ 0 then readRows s x.iss (x.arg 1 + off) n else .ok ([], s) : Except Miss (List Nat × State))
  let (b, s) ← (if 2 ≤ x.rop && x.rop ≠ 5 then readRows s x.iss (x.arg 2 + off) n else .ok ([], s) : Except Miss (List Nat × State))
  writeAll s x.iss ((rowResult x.rop n a b).zipIdx.map fun r => (x.arg 0 + off + 1024 * r.2, toBytes r.1 1024))

/-! ### CPYKV (R218) -/

/-- A token of the stream: its 64 bf16 codes, none where its block number is out of range; a miss in its block table or its data. -/
def kvToken (x : Xfer) (t : Nat) (s : State) : Except Miss (Option (List Nat) × State) := do
  let m := x.sm
  let bt := mapSize m 1
  let (e, s) ← engineNum s x.iss (x.arg 0 + 4 * (t / bt)) 4
  let b := e % 2 ^ 31
  if mapSize m 2 ≤ b then .ok (none, s) else
  let u := t % bt
  let sc := poolBlock m b + bt * mapStride m 1
  let (d, s) ← engineNum s x.iss (poolBlock m b + u * mapStride m 1) (mapStride m 1)
  let (w, s) ← (if mapFmt m = 17 then engineNum s x.iss (sc + 4 * u) 4 else engineNum s x.iss (sc + u / 2) 1)
  .ok (some ((List.range 64).map fun c =>
    if mapFmt m = 17 then widenCode 17 (nbits d (4 * c) 4) (nbits w (16 * (c / 32)) 16)
    else widenCode 18 (nbits d (8 * c) 8) w), s)
/-- The key of a tile's slot, when the ring is configured and the slot free (R218). The slot goes by TAIL as it stands: with two
commands that fill one ring at once both fill the same slot, which the spec leaves open and the model so chooses (log 19). -/
def kvSlot (x : Xfer) (tile : Nat) (s : State) : Option Nat :=
  let fid := forgeOf x.iss.core
  let r := (s.forge fid).ring (BitVec.ofNat 3 (fld x.mapw 8 3))
  r.conf.bind fun w =>
    let k := tile - x.pushed
    if r.free w ≤ k then none
    else some (keySram + fid.toNat * 2 ^ 21 + (ringBase w + (r.tail + k) % ringSlots w * ringSlot w) * 1024)
/-- The bytes of a tile that token position `v` gives, by their offset in the slot. -/
def kvBytes (x : Xfer) (v : Nat) (codes : List Nat) : List (Nat × Byte) :=
  let trn := bit x.mapw 11
  codes.zipIdx.flatMap fun c =>
    let o := 512 + (if trn then 128 * c.2 + 2 * v else 128 * v + 2 * c.2)
    [(o, byteOf c.1 0), (o + 1, byteOf c.1 1)]
/-- Bytes written into a tile's slot, with the doublewords they touch. -/
def slotWrite (key : Nat) (l : List (Nat × Byte)) (s : State) : List (Nat × Nat) × State :=
  let w := l.map fun p => (Place.sram (key + p.1), p.2)
  ((((keysOf (w.map (·.1))).map (· / 8)).eraseDups).map fun d => (d, d), { s with mem := writeBytes s.mem w none })
/-- Doublewords written and not yet set full join those before them (R214). -/
def Xfer.wrote (x : Xfer) (words : List (Nat × Nat)) : Xfer :=
  { x with written := words.foldl (fun l w => if l.contains w then l else w :: l) x.written }
/-- The header of a tile, zeros, before the first of its tokens, whatever comes of that (R218). -/
def kvHeader (x : Xfer) (e : Nat) (s : State) : Xfer × State :=
  if e % 64 ≠ 0 then (x, s) else
  match kvSlot x (e / 64) s with
  | none => (x, s)
  | some key =>
    let r := slotWrite key ((List.range 512).map fun i => (i, (0 : Byte))) s
    (x.wrote r.1, r.2)

/-! ### One item -/

/-- What an item of work has come to: the transfer, its writes, how far COUNT rises, and a code noted without a skip. -/
structure Did where
  s : State
  x : Xfer
  words : List (Nat × Nat) := []
  count : Nat := 0
  code : Nat := 0
/-- Token position `e` of CPYKV: its bytes in the tile's slot. A bad block gives +0 and CODE 0x03, a position past the count
+0. -/
def kvElem (x : Xfer) (e : Nat) (s : State) : Except Miss Did := do
  let n := x.arg 1 / 2 ^ 32
  match kvSlot x (e / 64) s with
  | none => .error .hold
  | some key =>
    let (codes, s) ← (if n ≤ e then .ok (some (List.replicate 64 0), s) else kvToken x (x.arg 1 % 2 ^ 32 + e) s
      : Except Miss (Option (List Nat) × State))
    let r := slotWrite key (kvBytes x (e % 64) (codes.getD (List.replicate 64 0))) s
    .ok { s := r.2, x := x, words := r.1, count := if n ≤ e then 0 else 1, code := if codes.isNone then 3 else 0 }
/-- The start of KVAPP, or one of its parts (R219). -/
def appendElem (x : Xfer) (e : Nat) (s : State) : Except Miss Did :=
  if e = 0 then
    match append x s with
    | .error z => .error z
    | .ok (.go x s) => .ok { s := s, x := { x with count := 1 } }
    | .ok (.code c s) => .ok { s := s, x := x, code := c }
    | .ok (.empty s) =>
      let i := x.arg 1 % 2 ^ 32 / mapSize x.sm 1
      .ok { s := s.deliver x.iss.core x.iss.ctx x.iss.priv 63 6 x.iss.launch none
              #v[BitVec.ofNat 64 i, BitVec.ofNat 64 (x.arg 0), BitVec.ofNat 64 (x.arg 3), x.block, x.id.setWidth 64, 0]
            x := x, code := 4 }
  else match x.appendParts[e - 1]? with
  | none => .ok { s := s, x := x }
  | some q =>
    match q.perform x s with
    | .error z => .error z
    | .ok (w, s1) => .ok { s := s1, x := x, words := w }
/-- The source coordinates of the blocks before an ec8 element of CPY in its destination row. -/
def Xfer.cpyBefore (x : Xfer) (e : Nat) : List (List Nat) :=
  let d := mapCoords x.dm e
  if mapFmt x.sm = 16 then (List.range (d.getD 0 0)).map fun k => mapCoords x.sm (mapIndex x.dm (k :: d.drop 1)) else []
/-- Those before an element in its row of GET or PUT. -/
def rowBefore (c : List Nat) : List (List Nat) := (List.range (c.getD 0 0)).map fun k => k :: c.drop 1
/-- Element `e` of GET or PUT, or the add that follows them all. -/
def rowElem (x : Xfer) (e : Nat) (s : State) : Except Miss Did := do
  if e + 1 = x.total then
    let s ← addRows x s
    .ok { s := s, x := x }
  else
    let r := e / countSize x.sm 0
    let (idx, s) ← (match engineNum s x.iss (x.arg 0 + 4 * r) 4 with
      | .error z => .error (if z = .poison then .code 2 else z)
      | .ok q => .ok q)
    let (c, d) ← rowCoords x idx e
    if x.rowOver s r then .ok { s := s, x := x } else
    let (w, s) ← copyElem s x c d (rowBefore c)
    .ok { s := s, x := x, words := w }
/-- Element `e` of a transfer is performed. -/
def doElem (x : Xfer) (e : Nat) (s : State) : Except Miss Did :=
  match x.kind with
  | .cpy => do
    let (w, s) ← copyElem s x (mapCoords x.sm e) (mapCoords x.dm e) (x.cpyBefore e)
    .ok { s := s, x := x, words := w, count := 1 }
  | .halo =>
    match haloAt x x.goodDirs e with
    | none => .ok { s := s, x := x }
    | some (d, none) => .ok { s := countStrip x d s, x := x }
    | some (d, some (r, c)) => do
      let (w, s) ← haloElem x d r c s
      .ok { s := s, x := x, words := w, count := 1 }
  | .rowop => do
    let s ← rowGroup x e s
    .ok { s := s, x := x, count := x.rn }
  | .kvapp => appendElem x e s
  | .cpykv => kvElem x e s
  | .get => rowElem x e s
  | .put => rowElem x e s
/-- The bytes that an element of a copy is written to. -/
def Xfer.destOf (x : Xfer) (e : Nat) (s : State) : List (Nat × Nat) :=
  match x.kind with
  | .cpy => copyRange s x (mapCoords x.sm e) (mapCoords x.dm e) (x.cpyBefore e)
  | .halo =>
    match haloAt x x.goodDirs e with
    | some (d, some (r, c)) => haloRange x d r c s
    | _ => []
  | .kvapp =>
    match x.appendParts[e - 1]? with
    | some (.copy _ dst n) => if e = 0 then [] else [(dst, n)]
    | _ => []
  | .get | .put =>
    match x.rowIndex s (e / countSize x.sm 0) with
    | none => []
    | some idx => match rowCoords x idx e with
      | .ok (c, d) => copyRange s x c d (rowBefore c)
      | .error _ => []
  | _ => []
/-- The destination of an element whose source is poisoned becomes poisoned (R396): of CPYKV the bytes of the token in its slot. -/
def poisonDest (x : Xfer) (e : Nat) (s : State) : State :=
  match x.kind with
  | .cpykv =>
    match kvSlot x (e / 64) s with
    | none => s
    | some key =>
      let keys := (kvBytes x (e % 64) (List.replicate 64 0)).map fun p => (key + p.1) / 8
      { s with mem := { s.mem with poison := keys.foldl (fun l k => addKey k l) s.mem.poison } }
  | _ => (x.destOf e s).foldl (fun s r => poisonRange s x.iss r.1 r.2) s

/-! ## Running (R212, R213, R364) -/

/-- GET and PUT count rows: one with an element that is not written is not counted (R220). -/
def Xfer.loseRow (x : Xfer) (e : Nat) : Xfer :=
  let r := e / countSize x.sm 0
  if (x.kind = .get || x.kind = .put) && e + 1 ≠ x.total && !x.lost.contains r then { x with lost := x.lost ++ [r] } else x
/-- A code and a skipped element are noted: the largest code stands (R213). -/
def Xfer.skip (x : Xfer) (c e : Nat) : Xfer :=
  { x.loseRow e with code := if x.code.toNat < c then BitVec.ofNat 8 c else x.code, flags := x.flags ||| 1 }
def Xfer.note (x : Xfer) (c : Nat) : Xfer :=
  { x with code := if x.code.toNat < c then BitVec.ofNat 8 c else x.code }
/-- Whether work goes on, or waits where it stands. -/
structure Ran where
  s : State
  x : Xfer
  stalled : Bool := false
/-- A miss of element `e`: skipped with its code, recorded as a fix-up, or waited for. -/
def missed (x : Xfer) (e : Nat) (m : Miss) (s : State) : Ran :=
  match m with
  | .code c => ⟨s, x.skip c e, false⟩
  | .poison =>
    match (x.destOf e s).findSome? fun r => s.spanWaits x.iss r.1 r.2 with
    | some s => ⟨s, x, true⟩
    | none => ⟨poisonDest x e s, x.skip 2 e, false⟩
  | .hold => ⟨s, x, true⟩
  | .ask k w => ⟨s.ask w k, x, true⟩
  | .fault t =>
    match recordFix s x.site x.fixes x.fixcnt t e with
    | .waits s => ⟨s, x, true⟩
    | .done f n s => ⟨s, { x with fixes := f, fixcnt := n }, false⟩
/-- One item performed. -/
def performItem (x : Xfer) (e : Nat) (s : State) : Ran :=
  match doElem x e s with
  | .error m => missed x e m s
  | .ok r =>
    let far := (r.s.mem.pending.filter fun p => Assoc.getD s.mem.pending p.1 0 < p.2).map (·.1)
    ⟨r.s, { (r.x.note r.code).wrote r.words with count := r.x.count + r.count, far := (x.far ++ far).eraseDups }, false⟩
/-- An element of the strip that an item of HALO ends is still pending in a fix-up. -/
def Xfer.stripOpen (x : Xfer) (d : BitVec 2) (f : Fixup) : Bool :=
  f.elems.any fun e => match haloAt x x.goodDirs e with
    | some (c, some _) => c = d
    | _ => false
/-- The next item. What follows every write of GET and PUT, and the table entry of KVAPP, wait for the fix-ups; the count of a
strip joins the entry that holds some of its elements (R213, R219, R220, R221). -/
def runItem (x : Xfer) (e : Nat) (s : State) : Ran :=
  match x.kind with
  | .halo =>
    match haloAt x x.goodDirs e with
    | some (d, none) =>
      (match x.fixes.find? (x.stripOpen d) with
        | some f => ⟨s, { x with fixes := x.fixes.map fun g => if g.idx = f.idx then { g with elems := g.elems ++ [e] } else g }, false⟩
        | none => performItem x e s)
    | _ => performItem x e s
  | .kvapp =>
    let entry : Bool := match x.appendParts[e - 1]? with
      | some (.entry _ _) => e ≠ 0
      | _ => false
    if entry && fixPending x.fixes then ⟨s, x, true⟩ else performItem x e s
  | .cpykv =>
    let h := kvHeader x e s
    performItem h.1 e h.2
  | .get => if e + 1 = x.total && fixPending x.fixes then ⟨s, x, true⟩ else performItem x e s
  | .put => if e + 1 = x.total && fixPending x.fixes then ⟨s, x, true⟩ else performItem x e s
  | _ => performItem x e s
/-- The transfer is stopped: cancelled, or ended by CODE 4, 6 or 7 (R213, R222). -/
def Xfer.stopped (x : Xfer) : Bool := x.st = .cancelled || x.code = 4 || x.code = 6 || x.code = 7
/-- At most `n` items, from where the transfer stands. -/
def runItems (x : Xfer) (s : State) : Nat → Ran
  | 0 => ⟨s, x, false⟩
  | n + 1 =>
    if x.total ≤ x.next || x.stopped then ⟨s, x, false⟩ else
    let r := runItem x x.next s
    if r.stalled then r else runItems { r.x with next := x.next + 1 } r.s n

/-- The operands that a transfer checks when it starts: CODE 6 and 7 write nothing (R213, R218, R220, R221, R226). -/
def startCode (x : Xfer) (s : State) : Nat :=
  match x.kind with
  | .cpykv => let n := x.arg 1 / 2 ^ 32
    if n = 0 || 2 ^ 20 < n then 6 else 0
  | .get | .put =>
    let n := x.arg 1
    let bad := n = 0 || 2 ^ 24 < n || x.arg 2 % 8 ≠ 0 || (match engineSpan s x.iss (x.arg 2) 8 .rmw with
      | .ok (_, ps, _) => !(ps.all (·.isSram))
      | .error _ => false)
    if bad then 6 else 0
  | .halo =>
    if x.dirs.any fun d => match neighbour x.iss.core d with
      | some n => s.partOf n ≠ s.partOf x.iss.core
      | none => false
    then 7 else 0
  | .rowop =>
    let w := x.arg 3
    let addrs := [x.arg 0, x.arg 1, x.arg 2]
    if 7 < x.rop || nbits w 4 4 ≠ 0 || nbits w 13 3 ≠ 0 || w / 2 ^ 32 ≠ 0 || nbits w 16 16 = 0
      || addrs.any (fun a => a % 1024 ≠ 0) || !rowsTogether s x.iss (x.rowBases ++ (List.range x.total).flatMap x.groupRows) then 6 else 0
  | _ => 0
/-- The parameter block is read once, and its fix-up entries cleared (R211, R364). The spec names no outcome for a block that
cannot be read: the transfer then ends with CODE 2 and without a handler (log 19). -/
def readParams (x : Xfer) (s : State) : Ran :=
  match s.blockWaits x.site, engineRead s x.iss x.block.toNat 48 with
  | some s, _ => ⟨s, x, true⟩
  | none, .error (.ask k w) => ⟨s.ask w k, x, true⟩
  | none, .error .hold => ⟨s, x, true⟩
  | none, .error _ =>
    let x : Xfer := { x with started := true, st := if x.st = .queued then XferState.running else x.st, code := 2 }
    ⟨s, { x with next := x.total }, true⟩
  | none, .ok (l, s1) =>
    let w (k : Nat) : Word := BitVec.ofNat 64 (fromBytes ((l.drop (8 * k)).take 8))
    let st := if x.st = .queued then XferState.running else x.st
    let x : Xfer := { x with started := true, st := st, handler := w 0, args := #v[w 2, w 3, w 4, w 5], seed := s.tick }
    ⟨s1.clearFixes x.site, x, false⟩
/-- A transfer put back among the transfers. -/
def State.putXfer (s : State) (k : Nat) (x : Xfer) : State := { s with xfers := setAt s.xfers k x }

/-- The moves before a transfer may start: it heads its context's queued transfers, its issuer's stores have been
performed, and its compute ways are ready (R212, R225, R305, R392). -/
def mayStart (s : State) (x : Xfer) : Bool :=
  ((s.openXfers x.iss).find? fun y => !y.started) == some x
    && s.commandReady x.iss
    && (!x.cway || (x.after = 0 && ((s.issuerCtx x.iss).grant.all fun g => g.done)))
/-- TRANSFER_START (R212): the block is read, and some elements may already be worked through. -/
def execTransferStart (k : Nat) (s : State) : Host.Outcome State Fault Refusal :=
  match s.xfers[k]? with
  | none => .next s
  | some x =>
    if x.started || x.st = .complete || !mayStart s x then .next s else
    let r := readParams x s
    if r.stalled then .next (r.s.putXfer k r.x) else
    let c := startCode r.x r.s
    if c ≠ 0 then .next (r.s.putXfer k { r.x with code := BitVec.ofNat 8 c }) else
    let x := r.x
    let x := if x.kind = .halo && x.goodDirs ≠ x.dirs then x.skip 2 1 else x
    let q := runItems x r.s (if x.kind = .cpykv then 0 else Config.pick s.tick 5)
    .next (q.s.putXfer k q.x)

/-! ## The fix-up bell (R366) -/

/-- A fix-up of a transfer replaced. -/
def Xfer.setFix (x : Xfer) (idx : Nat) (h : Fixup → Fixup) : Xfer :=
  { x with fixes := x.fixes.map fun f => if f.idx = idx then h f else f }
/-- What is left of an entry: its state in the block is written (R366). -/
def settleXfer (x : Xfer) (idx : Nat) (s : State) : Ran :=
  match x.fixes.find? fun f => f.idx = idx with
  | none => ⟨s, x, false⟩
  | some f =>
    let q := settleFix s x.site f
    ⟨q.2, x.setFix idx fun _ => q.1, q.1.open_⟩
/-- The elements of an entry that is being replayed are performed; what has to wait stays with it, and a transfer that is stopped
performs none. Once all are done the engine writes 100 (R366). -/
def replayFix (x : Xfer) (idx : Nat) (s : State) : Ran :=
  match x.fixes.find? fun f => f.idx = idx && f.again with
  | none => settleXfer x idx s
  | some f =>
    let q := if x.stopped then ⟨s, f.elems.foldl Xfer.loseRow (x.setFix idx fun g => { g with elems := [] }), false⟩ else
      f.elems.foldl (fun (q : Ran) e =>
        let r := runItem q.x e q.s
        if r.stalled then ⟨r.s, r.x.setFix idx fun g => { g with elems := g.elems ++ [e] }, false⟩ else r)
        ⟨s, x.setFix idx fun g => { g with elems := [] }, false⟩
    settleXfer q.x idx q.s
def replayAll (x : Xfer) (s : State) : Ran :=
  (List.range 4).foldl (fun (r : Ran) i => replayFix r.x i r.s) ⟨s, x, false⟩
/-- The elements of an abandoned entry are left unwritten; the end of a strip still counts (R221, R366). -/
def abandonElem (x : Xfer) (e : Nat) (s : State) : Ran :=
  match x.kind, haloAt x x.goodDirs e with
  | .halo, some (_, none) => runItem x e s
  | _, _ => ⟨s, x.skip 5 e, false⟩
/-- One entry of a transfer as a ring finds it. -/
def ringFix (x : Xfer) (idx : Nat) (s : State) : Ran :=
  match x.fixes.find? fun f => f.idx = idx && !f.elems.isEmpty with
  | none => ⟨s, x, false⟩
  | some f =>
    let s := s.readBlock x.site
    let st := fixState s x.iss x.block idx
    if st = 2 then replayFix (x.setFix idx fun g => { g with again := true }) idx (s.dropPage x.iss f.page.toNat)
    else if st = 3 then
      let q := f.elems.foldl (fun (q : Ran) e => abandonElem q.x e q.s)
        ⟨s, x.setFix idx fun g => { g with elems := [], again := false, skip := true }, false⟩
      settleXfer q.x idx q.s
    else ⟨s, x, false⟩
/-- The ring as the copy engine sees it, transfer by transfer: entries of commands that were issued on the die. -/
def ringXfers (die : BitVec 2) (s : State) : State :=
  (List.range s.xfers.length).foldl (fun s k =>
    match s.xfers[k]? with
    | none => s
    | some x =>
      if dieOf x.iss.core ≠ die then s else
      let r := (List.range 4).foldl (fun (r : Ran) i => ringFix r.x i r.s) ⟨s, x, false⟩
      r.s.putXfer k r.x) s

/-! ## Completing (R213) -/

/-- STATUS (R213): a cancelled GET or PUT counts the rows it reached and wrote, one that wrote nothing none. -/
def Xfer.status (x : Xfer) : Word :=
  let code := if x.st = .cancelled then max 1 x.code.toNat else x.code.toNat
  let count := match x.kind with
    | .get | .put =>
      if x.code = 6 then 0
      else x.rowsDone (if x.st = .cancelled then min (x.arg 1) (x.next / countSize x.sm 0) else x.arg 1)
    | .kvapp => if code ≠ 0 then 0 else x.count
    | _ => x.count
  let flags := x.flags.toNat ||| (if x.fixes.any (·.replayed) then 2 else 0)
  BitVec.ofNat 64 (code * 2 ^ 56 + flags * 2 ^ 48 + count % 2 ^ 48)
/-- The doublewords of `n` bytes from an address. -/
def dwordsOf (va n : Nat) : List Nat := (List.range ((va + n - 1) / 8 + 1 - va / 8)).map (va / 8 + ·)
/-- The virtual doublewords that an element may still write; none where that cannot be told. -/
def Xfer.elemWords (x : Xfer) (s : State) (e : Nat) : Option (List Nat) :=
  let loc (l : Loc) : List Nat := match l with
    | .mem va _ b => dwordsOf va (max 1 (b / 8))
    | .lane _ _ _ => []
  let at_ (c : List Nat) : List Nat :=
    if mapFmt x.dm = 16 then dwordsOf (rowAddr x.dm c) (blockMax * countSize x.dm 0) else loc (mapLoc x.dm c)
  match x.kind with
  | .cpy => some (at_ (mapCoords x.dm e))
  | .halo =>
    some (match haloAt x x.goodDirs e with
      | some (d, some (r, c)) =>
        if mapFmt x.sm = 16 then dwordsOf (haloRow x d r) (blockMax * countSize x.sm 0)
        else loc (haloDest x d r c)
      | _ => [])
  | .kvapp => some (match x.appendParts[e - 1]? with
      | some (.copy _ dst n) => dwordsOf dst n
      | some (.put va n _) => dwordsOf va n
      | some (.entry va _) => dwordsOf va 4
      | some (.dec va) => dwordsOf va 4
      | none => [])
  | .get | .put =>
    (x.rowIndex s (e / countSize x.sm 0)).map fun idx => match rowCoords x idx e with
      | .ok (_, d) => at_ d
      | .error _ => []
  | _ => some []
/-- The words whose last write is done are set full: none that a pending element may still write (R214). -/
def State.fillWritten (s : State) (x : Xfer) : State × Xfer :=
  let pend := (x.fixes.flatMap (·.elems)).map (x.elemWords s)
  let held (w : Nat) : Bool := pend.any fun l => match l with
    | some l => l.contains w
    | none => true
  let p := x.written.partition fun w => held w.1
  ({ s with mem := p.2.foldl (fun m w => m.setFull w.2 true) s.mem }, { x with written := p.1 })
/-- Every item has been worked through, or the transfer has stopped (R213). -/
def Xfer.over (x : Xfer) : Bool :=
  x.started && (x.stopped || (x.total ≤ x.next && (x.kind ≠ .cpykv || x.total ≤ 64 * x.pushed)))
/-- The end of a transfer: STATUS is written, and the class-4 message delivered (R213). -/
def finishXfer (k : Nat) (x : Xfer) (s : State) : State :=
  let st := x.status
  let s1 := s.engineWord x.iss (some (x.block + 8)) st
  let s2 := s1.putXfer k { x with st := .complete }
  if x.handler = 0 then s2 else
  s2.deliver x.iss.core x.iss.ctx x.iss.priv x.iss.prio.toNat 4 x.iss.launch
    (some (x.handler, x.iss.priv, x.id)) #v[x.block, st, 0, 0, 0, 0]
/-- TRANSFER_COMPLETE (R213): the elements left are worked through, some of them or all; then, with no fix-up pending and its
writes to other packages acknowledged, the transfer completes. -/
def execTransferComplete (k : Nat) (s : State) : Host.Outcome State Fault Refusal :=
  match s.xfers[k]? with
  | none => .next s
  | some x =>
    if !x.started || x.st = .complete then .next s else
    let r := replayAll x s
    let left := if r.x.over || x.kind = .cpykv then 0 else r.x.total - r.x.next
    let q := runItems r.x r.s (if Config.choice s.tick (2 ^ 61) then left else min left (Config.pick s.tick 5))
    if !q.x.over then .next (q.s.putXfer k q.x) else
    let p := q.s.fillWritten q.x
    let word := some (p.2.block + 8)
    if fixPending p.2.fixes || p.2.far.any (fun l => Assoc.getD p.1.mem.pending l 0 ≠ 0) then .next (p.1.putXfer k p.2)
    else if !p.1.wordReady p.2.iss word then .next ((p.1.askWord p.2.iss word).putXfer k p.2)
    else .next (finishXfer k p.2 p.1)
/-- Tiles of CPYKV that are whole are handed on in their order: their words are set full, and TAIL moves on (R214, R218). -/
def pushTiles (x : Xfer) (s : State) : Nat → State × Xfer
  | 0 => (s, x)
  | n + 1 =>
    let done := 64 * (x.pushed + 1) ≤ x.next && !(x.fixes.any fun f => f.elems.any fun e => e / 64 = x.pushed)
    match kvSlot x x.pushed s with
    | none => (s, x)
    | some key =>
      if !done then (s, x) else
      let fid := forgeOf x.iss.core
      let f := s.forge fid
      let rn := BitVec.ofNat 3 (fld x.mapw 8 3)
      let r := f.ring rn
      let p := x.written.partition fun w => key / 8 ≤ w.2 && w.2 < key / 8 + 1088
      let m := p.1.foldl (fun m w => m.setFull w.2 true) s.mem
      pushTiles { x with written := p.2, pushed := x.pushed + 1 }
        (({ s with mem := m } : State).setForge fid (f.setRing rn { r with tail := r.tail + 1 })) n
/-- CPYKV_TILE_FILL (R218): the positions of one more tile, as far as they go; whole tiles are handed on. -/
def execCpykvTileFill (k : Nat) (s : State) : Host.Outcome State Fault Refusal :=
  match s.xfers[k]? with
  | none => .next s
  | some x =>
    if x.kind ≠ .cpykv || !x.started || x.st = .complete || x.over then .next s else
    let q := runItems x s (64 - x.next % 64)
    let p := pushTiles q.x q.s (q.x.next / 64 - q.x.pushed)
    .next (p.1.putXfer k p.2)

end Sys2Proof.Machine
end

