-- ==== Sys2Proof/Machine/Ways.lean ====
section
/-! DEFINITION. Hearth compute ways (R223 to R225, R353) and line maintenance (R227). -/

namespace Sys2Proof.Machine

/-! ## Descriptor fields that the ways need (R345, R346) -/

/-- The clusters of a partition. -/
def State.clustersOf (s : State) (p : BitVec 6) : List Nat := (List.range 128).filter fun k => s.clusterPartition k = p
/-- The least SAVESZ of a launch in a partition (R346). -/
def State.leastSave (s : State) (d : List Byte) (p : BitVec 6) : Nat :=
  49152 * descNum d 48 2 + 1048576 * (8 * (s.clustersOf p).length)
/-- Bytes of one way. -/
def wayBytes : Nat := 262144

/-! ## Owning ways (R223, R353) -/

/-- An owner of ways: slice, count, context and launch. -/
abbrev Owned := BitVec 7 × Nat × CoreId × CtxId × Option Nat
/-- Ways of a slice that no grant owns, beyond the two that stay cache. -/
def freeWays (l : List Owned) (slice : BitVec 7) : Nat :=
  14 - ((l.filter fun o => o.1 = slice).map fun o => o.2.1).sum
/-- Ways that the grants of a saved launch number. -/
def Launch.granted (x : Launch) : Nat :=
  (x.saved.cores.map fun c => (c.2.ctx.toList.map fun k => match k.grant with
    | some g => if g.done && !g.failed then g.slices.length * g.ways else 0
    | none => 0).sum).sum
/-- Ways more that a saved launch's save area can take (R353): beyond the part R346 requires, and what it holds. -/
def State.saveRoom (s : State) (l : List Owned) (x : Launch) : Nat :=
  let held := ((l.filter fun o => o.2.2.2.2 = some x.id).map fun o => o.2.1).sum
  (descNum x.desc 88 8 - s.leastSave x.desc x.part) / wayBytes - (x.granted - held)
/-- Ways of a slice that a launch's entries give up: at most `n`. -/
def cedeWays (l : List Owned) (slice : BitVec 7) (id : Nat) (n : Nat) : List Owned × Nat :=
  l.foldl (fun (a : List Owned × Nat) o =>
    if o.1 = slice && o.2.2.2.2 = some id && 0 < a.2 then
      let k := min a.2 o.2.1
      (if k = o.2.1 then a.1 else a.1 ++ [(o.1, o.2.1 - k, o.2.2)], a.2 - k)
    else (a.1 ++ [o], a.2)) ([], n)
/-- Enough ways of a slice are made free, from saved launches, and from one that is about to be displaced, where there is room
to save them. -/
def State.makeFree (s : State) (slice : BitVec 7) (want : Nat) (own out : Option Nat) (l : List Owned) : Option (List Owned) :=
  let r := (s.launches.filter fun x => (x.st = .saved || (out = some x.id)) && own ≠ some x.id).foldl (fun (l : List Owned) x =>
    let short := want - freeWays l slice
    if short = 0 then l else (cedeWays l slice x.id (min short (s.saveRoom l x))).1) l
  if want ≤ freeWays r slice then some r else none
/-- Ways claimed in every slice named, or none at all (R223, R353). -/
def State.claim (s : State) (need : List (BitVec 7 × Nat)) (core : CoreId) (ctx : CtxId) (own out : Option Nat)
    (l : List Owned) : Option (List Owned) :=
  match need with
  | [] => some l
  | (slice, n) :: t =>
    match s.makeFree slice n own out l with
    | none => none
    | some l1 => s.claim t core ctx own out (l1 ++ [(slice, n, core, ctx, own)])
/-- The lanes that a transfer's maps name: the first and how many (R216). -/
def Xfer.lanes (x : Xfer) : List (Nat × Nat) :=
  ((if mapCway x.sm then [x.sm] else []) ++ (if x.kind.usesDm && mapCway x.dm then [x.dm] else [])).map fun m =>
    (nbits (mapBase m) 0 24, mapSize m 0)
/-- It names lanes of a grant in a slice (R223). -/
def Xfer.onSlice (x : Xfer) (g : Grant) (slice : BitVec 7) : Bool :=
  let n := g.ways * 8192
  g.slices.zipIdx.any fun z => z.1 = slice && x.lanes.any fun r => r.1 < (z.2 + 1) * n && z.2 * n < r.1 + r.2
/-- No transfer under way names the ways that a claim takes from saved launches (R392). -/
def State.takenIdle (s : State) (l l' : List Owned) : Bool :=
  s.xfers.all fun x => x.st = .complete || !x.cway || l.all fun o =>
    l'.contains o || o.2.2 ≠ (x.iss.core, x.iss.ctx, x.iss.launch) || (match s.grantOf x.iss with
      | some g => !x.onSlice g o.1
      | none => true)
/-- The party for which the switch engine reaches a launch's save area. -/
def Launch.saver (l : Launch) : Issuer := { core := l.root, priv := 1, root := descRoot l.desc, launch := some l.id }
/-- The parts of save areas, beyond those that R346 requires, that receive the ways which a claim takes (R353). -/
def State.waySpans (s : State) (l l' : List Owned) : List (Issuer × Nat × Nat) :=
  s.launches.filterMap fun x =>
    let held (l : List Owned) : Nat := ((l.filter fun o => o.2.2.2.2 = some x.id).map fun o => o.2.1).sum
    if held l ≤ held l' then none else
    some (x.saver, descNum x.desc 80 8 + s.leastSave x.desc x.part + (x.granted - held l) * wayBytes, (held l - held l') * wayBytes)
/-- What keeps the switch engine from writing them. -/
def State.spansWait (s : State) (l : List (Issuer × Nat × Nat)) : Option State := l.findSome? fun r => s.spanWaits r.1 r.2.1 r.2.2
/-- The switch engine writes lines of a save area: its layout, and so what their bytes are, is open (R350, R353). -/
def writeOpen (s : State) (r : Issuer × Nat × Nat) : State :=
  (List.range (r.2.2 / 64)).foldl (fun s k =>
    let word (j : Nat) : Word := Config.freeWord s.tick (2 ^ 52 + 8 * k + j)
    match engineWrite s r.1 (r.2.1 + 64 * k) ((List.range 8).flatMap fun j => toBytes (word j).toNat 8) false none with
    | .ok (_, s1) => s1
    | .error _ => s) s

/-- The package slice of the s-th slice of a die (R223). -/
def dieSlice (die k : Nat) : BitVec 7 := BitVec.ofNat 7 (64 * (die / 2) + 16 * (k / 8) + 8 * (die % 2) + k % 8)
/-- WAYGIVE (R223). -/
def execWaygive (d a : BitVec 5) (s : State) : Host.Outcome State Fault Refusal :=
  let word := wordR 0x38 0 0 a.toNat d.toNat 0
  withRegs word [.g a, .g d] [] s fun s =>
    let r := s.me.getG a
    let w := fld r 0 4
    if fld r 6 26 ≠ 0 || w = 0 || w = 15 || fld r 32 32 = 0 || s.me.grant.isSome then .trap (illegal word) s else
    completionWord d s fun cw s =>
      let slices := ((List.range 32).filter fun k => bit r (32 + k)).map (dieSlice (fld r 4 2))
      .ok (.fall 4) (s.setMe { s.me with grant := some { slices := slices, ways := w, word := cw, iss := s.issuer } })
/-- Lines beyond the room that a slice's cache ways have left leave it, any of them: the ways converted are written back and
invalidated (R223, R282). -/
def State.trimSlice (s : State) (k : BitVec 7) : State :=
  let l := s.mem.residents k
  ((List.range (l.length - s.sliceRoom k)).foldl (fun (a : List Resident × List Resident) j =>
    match a.1[Config.pick s.tick (2 ^ 54 + 2 ^ 20 * k.toNat + j) % a.1.length]? with
    | some r => (a.1.erase r, a.2 ++ [r])
    | none => a) (l, [])).2.foldl (fun s r => s.evict (.hearth r.line)) s
/-- The conversion of a context's grant is done, or refused, for the values copied at its issue (R65, R223); what it takes of saved
launches is copied to their save areas first (R353). -/
def convert_ (core : CoreId) (ctx : CtxId) (g : Grant) (s : State) : State :=
  let i := g.iss
  let fin (g : Grant) (v : Word) (s : State) : State :=
    let x := s.ctxAt core ctx
    (s.setCtxAt core ctx { x with grant := some { g with done := true, seed := s.tick } }).engineWord i g.word v
  match s.claim (g.slices.map fun k => (k, g.ways)) core ctx i.launch none s.ways with
  | none => fin { g with failed := true } (BitVec.ofNat 64 (2 ^ 64 - 1)) s
  | some l =>
    if !s.takenIdle s.ways l then s else
    match s.spansWait (s.waySpans s.ways l) with
    | some s => s
    | none =>
    let s := (s.waySpans s.ways l).foldl writeOpen s
    fin g 0 (g.slices.foldl (fun s k => s.trimSlice k) { s with ways := l })
/-- WAYGIVE_CONVERSION_COMPLETE (R223). -/
def execWaygiveConversionComplete (core : CoreId) (ctx : CtxId) (s : State) : Host.Outcome State Fault Refusal :=
  let x := s.ctxAt core ctx
  match x.grant with
  | none => .next s
  | some g =>
    if g.done || !(x.storesDone g.iss.upTo) then .next s
    else if !s.wordReady g.iss g.word then .next (s.askWord g.iss g.word)
    else .next (convert_ core ctx g s)
/-- WAYTAKE (R224). -/
def execWaytake (d : BitVec 5) (s : State) : Host.Outcome State Fault Refusal :=
  let word := wordR 0x38 1 0 0 d.toNat 0
  withRegs word [.g d] [] s fun s =>
    match s.me.grant with
    | none => .trap (illegal word) s
    | some _ =>
      completionWord d s fun cw s =>
        .ok (.fall 4) (s.setMe { s.me with grant := s.me.grant.map fun g => { g with taking := g.taking ++ [(cw, s.issuer)] } })
/-- A compute-way transfer of a context is not yet complete. -/
def State.cwayOpen (s : State) (i : Issuer) : Bool := (s.openXfers i).any (·.cway)
/-- The ways of a context's grant return to cache (R224). -/
def State.dropWays (s : State) (core : CoreId) (ctx : CtxId) (own : Option Nat) : State :=
  { s with ways := s.ways.filter fun o => !(o.2.2.1 = core && o.2.2.2.1 = ctx && o.2.2.2.2 = own) }
/-- WAYTAKE_COMPLETE (R224): the grant is the launch's that was copied at its WAYGIVE. -/
def execWaytakeComplete (core : CoreId) (ctx : CtxId) (s : State) : Host.Outcome State Fault Refusal :=
  let x := s.ctxAt core ctx
  match x.grant with
  | none => .next s
  | some g =>
    if g.taking.isEmpty || !g.done || !x.bsops.isEmpty || s.cwayOpen g.iss || !(g.taking.all fun w => x.storesDone w.2.upTo) then .next s
    else match g.taking.find? fun w => !s.wordReady w.2 w.1 with
    | some w => .next (s.askWord w.2 w.1)
    | none =>
      let s1 := (s.dropWays core ctx g.iss.launch).setCtxAt core ctx { x with grant := none }
      .next (g.taking.foldl (fun s w => s.engineWord w.2 w.1 0) s1)

/-! ## BSOP (R225) -/

/-- Rows of D and of the sources that a function reads, as (first row field, rows) (R225). -/
def bsopRows (fn n : Nat) (w : Word) : List (Nat × Nat) :=
  let d := fld w 0 8
  let a := fld w 8 8
  let b := fld w 16 8
  let c := fld w 24 8
  match fn with
  | 5 => [(d, n), (a, n)]
  | 6 | 7 | 8 => [(d, 1), (a, n), (b, n)]
  | 9 => [(d, n), (a, n), (b, n), (c, 1)]
  | 10 => [(d, n), (a, n), (c, 8)]
  | 11 => [(d, 16), (a, n)]
  | _ => [(d, n), (a, n), (b, n)]
/-- The element of D that a lane receives, and its rows (R225). -/
def bsopLane (fn n : Nat) (sg : Bool) (w : Word) (rd : Nat → Nat → Nat) : Nat × Nat :=
  let a := rd (fld w 8 8) n
  let b := rd (fld w 16 8) n
  let lt (x y : Nat) : Bool := if sg then signedN n x < signedN n y else x < y
  let flag (c : Bool) : Nat × Nat := (if c then 1 else 0, 1)
  match fn with
  | 0 => ((a + b) % 2 ^ n, n)
  | 1 => ((a + 2 ^ n - b) % 2 ^ n, n)
  | 2 => (a &&& b, n)
  | 3 => (a ||| b, n)
  | 4 => (a ^^^ b, n)
  | 5 => (2 ^ n - 1 - a, n)
  | 6 => flag (a = b)
  | 7 => flag (lt a b)
  | 8 => flag (!lt b a)
  | 9 => (if rd (fld w 24 8) 1 = 1 then a else b, n)
  | 10 =>
    let c := signedN 8 (rd (fld w 24 8) 8)
    let k := c.natAbs
    if 0 ≤ c then (a * 2 ^ k % 2 ^ n, n)
    else if sg then ((BitVec.ofInt n (signedN n a / 2 ^ k)).toNat, n) else (a / 2 ^ k, n)
  | 11 => ((rd (fld w 0 8) 16 + ((List.range n).filter fun i => a.testBit i).length) % 65536, 16)
  | 12 => (if lt b a then b else a, n)
  | 13 => (if lt a b then b else a, n)
  | _ => (a * b % 2 ^ n, n)
/-- BSOP's checks at issue, in their order, and its entry into the context's queue (R225). -/
def bsopIssue (fn : Nat) (a b n : BitVec 5) (sg : BitVec 1) (s : State) : Host.Outcome State Fault Refusal :=
  withRegs (wordR 0x39 fn b.toNat a.toNat n.toNat sg.toNat) [.g a, .g b] [] s fun s =>
    let rows := s.me.getG a
    let lanes := s.me.getG b
    let w := n.toNat + 1
    if fld rows 32 32 ≠ 0 || fld lanes 48 16 ≠ 0 then .trap (regionBounds (some 3)) s else
    match s.me.grant with
    | none => .trap (regionBounds (some 2)) s
    | some g =>
      if !g.done then .trap ⟨0x06, none, none⟩ s
      else if (bsopRows fn w rows).any fun r => 256 < r.1 + r.2 then .trap (regionBounds (some 1)) s
      else if g.lanes < fld lanes 0 24 + fld lanes 24 24 + 1 then .trap (regionBounds (some 2)) s
      else if 16 ≤ s.me.bsops.length then .wait .interlock s
      else
        let after := ((s.openXfers s.issuer).filter (·.cway)).map (·.id)
        .ok (.fall 4) (s.setMe { s.me with bsops := s.me.bsops ++
          [{ fn := BitVec.ofNat 4 fn, n := w, signed := sg = 1, rows := rows, lanes := lanes, after := after
             launch := s.me.task.bind (·.launch) }] })
/-- BSOP add (R225). -/
def execBsopAdd (a b n : BitVec 5) (m : BitVec 1) (s : State) : Host.Outcome State Fault Refusal := bsopIssue 0 a b n m s
/-- BSOP sub (R225). -/
def execBsopSub (a b n : BitVec 5) (m : BitVec 1) (s : State) : Host.Outcome State Fault Refusal := bsopIssue 1 a b n m s
/-- BSOP and (R225). -/
def execBsopAnd (a b n : BitVec 5) (s : State) : Host.Outcome State Fault Refusal := bsopIssue 2 a b n 0 s
/-- BSOP or (R225). -/
def execBsopOr (a b n : BitVec 5) (s : State) : Host.Outcome State Fault Refusal := bsopIssue 3 a b n 0 s
/-- BSOP xor (R225). -/
def execBsopXor (a b n : BitVec 5) (s : State) : Host.Outcome State Fault Refusal := bsopIssue 4 a b n 0 s
/-- BSOP not (R225). -/
def execBsopNot (a b n : BitVec 5) (s : State) : Host.Outcome State Fault Refusal := bsopIssue 5 a b n 0 s
/-- BSOP cmpeq (R225). -/
def execBsopCmpeq (a b n : BitVec 5) (m : BitVec 1) (s : State) : Host.Outcome State Fault Refusal := bsopIssue 6 a b n m s
/-- BSOP cmplt (R225). -/
def execBsopCmplt (a b n : BitVec 5) (m : BitVec 1) (s : State) : Host.Outcome State Fault Refusal := bsopIssue 7 a b n m s
/-- BSOP cmple (R225). -/
def execBsopCmple (a b n : BitVec 5) (m : BitVec 1) (s : State) : Host.Outcome State Fault Refusal := bsopIssue 8 a b n m s
/-- BSOP sel (R225). -/
def execBsopSel (a b n : BitVec 5) (m : BitVec 1) (s : State) : Host.Outcome State Fault Refusal := bsopIssue 9 a b n m s
/-- BSOP shr (R225). -/
def execBsopShr (a b n : BitVec 5) (m : BitVec 1) (s : State) : Host.Outcome State Fault Refusal := bsopIssue 10 a b n m s
/-- BSOP popc (R225). -/
def execBsopPopc (a b n : BitVec 5) (m : BitVec 1) (s : State) : Host.Outcome State Fault Refusal := bsopIssue 11 a b n m s
/-- BSOP min (R225). -/
def execBsopMin (a b n : BitVec 5) (m : BitVec 1) (s : State) : Host.Outcome State Fault Refusal := bsopIssue 12 a b n m s
/-- BSOP max (R225). -/
def execBsopMax (a b n : BitVec 5) (m : BitVec 1) (s : State) : Host.Outcome State Fault Refusal := bsopIssue 13 a b n m s
/-- BSOP mul (R225). -/
def execBsopMul (a b n : BitVec 5) (m : BitVec 1) (s : State) : Host.Outcome State Fault Refusal := bsopIssue 14 a b n m s
/-- One BSOP over its lanes (R225). -/
def Grant.perform (g : Grant) (o : Bsop) : Grant :=
  (List.range (fld o.lanes 24 24 + 1)).foldl (fun g k =>
    let lane := fld o.lanes 0 24 + k
    let r := bsopLane o.fn.toNat o.n o.signed o.rows (g.read lane)
    g.write lane (fld o.rows 0 8) r.2 r.1) g
/-- BSOP_PERFORM (R225): the head of the context's queue, after the compute-way transfers issued before it; what waits for it
goes on. -/
def execBsopPerform (core : CoreId) (ctx : CtxId) (s : State) : Host.Outcome State Fault Refusal :=
  let x := s.ctxAt core ctx
  match x.bsops, x.grant with
  | o :: rest, some g =>
    let i : Issuer := { core := core, ctx := ctx, launch := o.launch }
    if (s.openXfers i).any fun t => o.after.contains t.id then .next s else
    let s1 := s.setCtxAt core ctx { x with bsops := rest, grant := some (g.perform o) }
    .next { s1 with xfers := s1.xfers.map fun t =>
      if s1.sameQueue t.iss i && !t.started then { t with after := t.after - 1 } else t }
  | _, _ => .next s

/-! ## FLUSHR and INVR (R227) -/

/-- The issue of FLUSHR and INVR. -/
def rangeIssue (fn : Nat) (inval : Bool) (d a b : BitVec 5) (s : State) : Host.Outcome State Fault Refusal :=
  withRegs (wordR 0x34 fn b.toNat a.toNat d.toNat 0) [.g a, .g b, .g d] [] s fun s =>
    let base := s.me.getG a
    let len := s.me.getG b
    completionWord d s fun w s => .ok (.fall 4) { s with ranges := s.ranges ++ [⟨s.issuer, inval, base, len, w⟩] }
/-- FLUSHR (R227). -/
def execFlushr (d a b : BitVec 5) (s : State) : Host.Outcome State Fault Refusal := rangeIssue 7 false d a b s
/-- INVR (R227). -/
def execInvr (d a b : BitVec 5) (s : State) : Host.Outcome State Fault Refusal := rangeIssue 8 true d a b s
/-- The places of the lines of a range: pages present, spaces 000, 001 and 100 (R227). -/
def rangeLines (s : State) (i : Issuer) (base len : Nat) : List Place :=
  (rangePages base len).flatMap fun p =>
    match pageAt s i.root p with
    | none => []
    | some pa =>
      (List.range 256).filterMap fun k =>
        let va := p * 16384 + 64 * k
        if va + 64 ≤ base || base + len ≤ va then none else
        match place s i.hkey (pa + 64 * k) with
        | .ok (.dram key l) => some (.dram key l)
        | .ok (.host key) => some (.host key)
        | .ok (.remote a) => if a / 2 ^ 48 % 8 < 2 then some (.remote a) else none
        | _ => none
/-- A dirty copy of a line, in an L1D or in a slice, is written to memory or to the host, and stays clean; whether one was
(R227). -/
def State.flushLine (s : State) (n : Nat) : State × Bool :=
  if !((s.mem.line n).dirty || (s.mem.resident? n).any (·.dirty)) then (s, false) else
  let s := s.writeHome n
  ({ s with
      mem := { s.mem with hearth := s.mem.hearth.map fun r => if r.line = n then { r with dirty := false } else r }
      ctlq := if isDramLine n then s.ctlq ++ [n] else s.ctlq }, true)
/-- Every copy of a line in the package is dropped (R227). -/
def State.dropCopies (s : State) (p : Place) : State :=
  match p with
  | .remote pa => { s with mem := dropLine s.mem pa }
  | _ =>
    let s := (linesOf [p]).foldl (fun s n => (s.tokenHome n).evictHearth n) s
    match p with
    | .host k => { s with mem := { s.mem with hostLines := Assoc.del s.mem.hostLines (k / 64) } }
    | _ => s
/-- RANGE_MAINTENANCE_COMPLETE (R227): once the stores before the command are performed and nothing holds its lines, each line
is written back, and INVR drops its copies; the word takes the number written back. -/
def execRangeMaintenanceComplete (k : Nat) (s : State) : Host.Outcome State Fault Refusal :=
  match s.ranges[k]? with
  | none => .next s
  | some r =>
    let lines := rangeLines s r.iss r.base.toNat r.len.toNat
    if !s.commandReady r.iss || lines.any s.blocked || (r.inval && (linesOf lines).any (s.holdsBack none)) then .next s
    else if !s.wordReady r.iss r.word then .next (s.askWord r.iss r.word)
    else
      let f := (linesOf lines).foldl (fun (a : State × Nat) n =>
        let q := a.1.flushLine n
        (q.1, if q.2 then a.2 + 1 else a.2)) (s, 0)
      let s1 := if r.inval then lines.foldl State.dropCopies f.1 else f.1
      .next ({ s1 with ranges := dropAt s1.ranges k }.engineWord r.iss r.word (BitVec.ofNat 64 f.2))

end Sys2Proof.Machine
end

