-- ==== Sys2Proof/Machine/Lines.lean ====
section
/-! DEFINITION. The events of the memory system: buffered stores and NM operations performed (R161, R286, R289), refused
writes (R163), migration and the controllers (R283, R285), writes to other packages (R292), ALIASF (R157), scrubbing
(R395), and the host's traffic (R375 to R377). -/

namespace Sys2Proof.Machine

/-! ## Buffered stores (R161, R289) -/

/-- A device register as a write of half of it leaves the other half: bits that a one would clear are written 0. -/
def keptHalf (o : Nat) (w : Word) : Word :=
  if o = 0x05000018 then 0 else if o = 0x05000020 then insertBits w 63 1 0 else w
/-- Stores in flight to a forge's SRAM: those that may go, and those of a context itself before a serial (R279). -/
def State.forgeBusy (s : State) (f : ForgeId) (own : Option (CoreId × CtxId × Nat)) : Bool :=
  s.cores.any fun c => [(0 : CtxId), 1, 2, 3].any fun k =>
    let x := c.2.ctxAt k
    x.stores.any fun st =>
      (st.pas.any fun pa => pa / 2 ^ 51 = s.pkg.toNat && isSramPa pa && pa % 2 ^ 48 / 2 ^ 21 = f.toNat)
        && (s.storeReady x st || own.any fun o => o.1.toNat = c.1 && o.2.1 = k && st.serial < o.2.2)
/-- A part of a store can be made: its lines wait for nothing, and the host need not be asked (R284, R289, R376). -/
def State.partReady (s : State) (core : CoreId) (st : Store) : Bool :=
  match placesOf s st.hkey st.pas with
  | .error _ => false
  | .ok ps => !(ps.any s.blocked || (linesOf ps).any (s.holdsBack (some core))) && (ps.findSome? (s.askFor (some core) true)).isNone
/-- What of a store is made now, and what of it stays: a store that spans two lines does not hold the one back for the other
(R142, R289). -/
def State.storeParts (s : State) (core : CoreId) (st : Store) : Store × List Store :=
  match st.parts with
  | [a, b] => match s.partReady core a, s.partReady core b with
    | true, false => (a, [b])
    | false, true => (b, [a])
    | _, _ => (st, [])
  | _ => (st, [])
/-- A store leaves the buffer but for what stays of it. -/
def State.keepStore (s : State) (core : CoreId) (ctx : CtxId) (k : Nat) (rest : List Store) : State :=
  let x := s.ctxAt core ctx
  s.setCtxAt core ctx { x with stores := x.stores.take k ++ rest ++ x.stores.drop (k + 1) }
/-- A store of memory is made, or what of it can be. -/
def memStep (core : CoreId) (ctx : CtxId) (k : Nat) (whole : Store) (s : State) : State :=
  let p := s.storeParts core whole
  match placesOf s p.1.hkey p.1.pas with
  | .error _ => s
  | .ok ps =>
    if ps.any s.blocked || (linesOf ps).any (s.holdsBack (some core)) || !s.flitsReady 0 (remotePas ps) then s else
    match ps.findSome? (s.askFor (some core) true) with
    | some n => s.ask true n
    | none =>
      let far := (farLines ps).filter fun p => !p.isRemote
      match needLines far .token { s with cur := ⟨core, ctx, false⟩ } fun s => .ok .own s with
      | .ok _ s1 => { (performStore core ctx p.1 ps s1).keepStore core ctx k p.2 with cur := s.cur }
      | .wait _ s1 => { s1 with cur := s.cur }
      | .trap _ _ => s
/-- STORE_PERFORM (R289): a store of a device register becomes the write of the whole register (R141). -/
def storeStep (core : CoreId) (ctx : CtxId) (k : Nat) (st : Store) (s : State) : State :=
  match st.kind with
  | .spill m counted root => performSpill core ctx k st m counted root s
  | _ =>
    match placesOf s st.hkey st.pas with
    | .ok (.device o :: _) =>
      let off := o / 8 * 8
      let role := 0x01000000 ≤ o && o < 0x01400000 && off % 0x1000 = 0
      if s.deviceAbsent o || (role && s.forgeBusy (BitVec.ofNat 10 ((o - 0x01000000) / 0x1000)) (some (core, ctx, st.serial)))
      then s else
      let who := s.writer core st.priv
      let w := mergeHalf (keptHalf off (deviceRead s off who)) o st.size (st.val.setWidth 64)
      let s1 := s.dropStore core ctx k
      { s1 with agenda := .write (BitVec.ofNat 48 off) w who :: s1.agenda }
    | _ => memStep core ctx k st s
/-- STORE_PERFORM (R161, R289). What a fenced die emits is dropped at its boundary (R403). -/
def execStorePerform (core : CoreId) (ctx : CtxId) (k : Nat) (s : State) : Host.Outcome State Fault Refusal :=
  let x := s.ctxAt core ctx
  match x.stores[k]? with
  | none => .next s
  | some st =>
    if !s.dieUp (dieOf core).toNat then .next (s.dropStore core ctx k)
    else .next (if s.storeReady x st then storeStep core ctx k st s else s)

/-- How a posted write is refused, if it is: an absent endpoint, the windows of another package, or a scratchpad that a change
of roles has taken away (R163, R279, R385). -/
def State.refusal (s : State) (core : CoreId) (ctx : CtxId) (hkey : BitVec 16) (pas : List Nat) : Option Nat :=
  match placesOf s hkey pas with
  | .error e => some e
  | .ok ps => ps.findSome? fun p => match p with
    | .device o => if s.deviceAbsent o then some 2 else none
    | .host key =>
      match s.requests.find? fun r => r.core = core && r.ctx = ctx && r.line = key / 64 && r.host with
      | some r => if r.ans = .absent then some 2 else if r.ans = .refused then some 5 else none
      | none => none
    | .remote _ => if Config.flitAnswer s.tick = 1 then some 5 else if Config.flitAnswer s.tick = 2 then some 2 else none
    | _ => none
/-- POSTED_WRITE_REFUSED (R163): entry k of the store buffer, or of the NM operations after it, is dropped. -/
def execPostedWriteRefused (core : CoreId) (ctx : CtxId) (k : Nat) (s : State) : Host.Outcome State Fault Refusal :=
  let x := s.ctxAt core ctx
  match x.stores[k]? with
  | some st =>
    if !s.storeReady x st then .next s else
    match s.refusal core ctx st.hkey st.pas with
    | none => .next s
    | some e =>
      let s1 := { s with requests := s.requests.filter fun r => !(r.core = core && r.ctx = ctx && r.host && r.ans ≠ Answer.waiting) }
      .next ((s1.dropStore core ctx k).refusedNotice core ctx e st.va none)
  | none =>
    match x.nms[k - x.stores.length]? with
    | none => .next s
    | some op =>
      match s.refusal core ctx x.ctl.hkey [op.pa] with
      | none => .next s
      | some e =>
        .next ((s.setCtxAt core ctx { x with nms := dropAt x.nms (k - x.stores.length) }).refusedNotice core ctx e op.va none)

/-! ## NM operations (R160, R286) -/

/-- The places of an NM operation's word. -/
def NmOp.places (op : NmOp) (s : State) : Except Nat (List Place) :=
  placesOf s 0 ((List.range op.kind.size).map (op.pa + ·))
/-- The read-modify-write at the slice or the bank, which the context's NMFENCE covers (R160); a poisoned word stays as it
is. -/
def performNm (core : CoreId) (ctx : CtxId) (op : NmOp) (ps : List Place) (s : State) : State :=
  if ps.any s.poisoned then s else
  let y := op.kind.apply (fromBytes (ps.map (readPlace s))) op.y.toNat
  let s := { s with mem := writeBytes s.mem (ps.zip (toBytes y op.kind.size)) none }
  let x := s.ctxAt core ctx
  s.setCtxAt core ctx { x with
    nmDone := ((wordsOf ps).filterMap (·.word)).foldl (fun l w => Assoc.put l w s.mem.time) x.nmDone }
/-- Operations at the bank engine of a pseudo-channel. -/
def State.atBank (s : State) (pc : Nat) : Nat :=
  (s.bank.filter fun b => match place s 0 b.2.2.pa with
    | .ok (.dram key _) => (key - keyDram) / pcBytes = pc
    | _ => false).length
/-- The monitor is hot for a line: resident, and requested by a core or an engine within the last 4,096 fast cycles, which are
2,048 core cycles (R286). -/
def State.hotLine (s : State) (n : Nat) : Bool :=
  (s.mem.resident? n).isSome && (s.mem.line n).at_.any fun t => s.now - t ≤ 2048
/-- A request for a line reaches its monitor (R286). -/
def State.asked (s : State) (n : Nat) : State :=
  { s with mem := s.mem.setLine n { s.mem.line n with at_ := some s.now } }
/-- NM_PERFORM (R286): the token comes home; then at the slice where the monitor is hot, else handed to the bank engine with every
copy of the line written back and dropped. One for another package passes its proxy slice and stays outstanding until the acknowledgement (R292). -/
def nmStep (core : CoreId) (ctx : CtxId) (k : Nat) (hot : Bool) (op : NmOp) (s : State) : State :=
  let x := s.ctxAt core ctx
  let gone := s.setCtxAt core ctx { x with nms := dropAt x.nms k }
  match op.places s with
  | .error _ => s
  | .ok ps =>
    match ps.head? with
    | some (.remote pa) =>
      if !s.flitsReady 0 [pa] then s else
      let out := gone.putFlits 0 [pa]
      { out with mem := out.mem.markPending (pa / 64), bank := out.bank ++ [(core, ctx, op)] }
    | some (.dram key w) =>
      let n := key / 64 * 2 + if w then 1 else 0
      if ps.any s.blocked || s.holdsBack none n then s else
      match ps.findSome? (s.askFor none true) with
      | some l => s.ask true l
      | none =>
        let home := gone.tokenHome n
        if hot ≠ home.hotLine n then s
        else if hot then performNm core ctx op ps ((home.reside n (home.mem.sliceOf n) true).asked n)
        else if 256 ≤ s.atBank ((key - keyDram) / pcBytes) then s
        else
          let out := home.evictHearth n
          { out with bank := out.bank ++ [(core, ctx, op)] }
    | _ => s
/-- NM_PERFORM (R286): after the context's earlier stores to the line (R160). What a fenced die emits is dropped at its boundary
(R403). -/
def execNmPerform (core : CoreId) (ctx : CtxId) (k : Nat) (hot : Bool) (s : State) : Host.Outcome State Fault Refusal :=
  let x := s.ctxAt core ctx
  match x.nms[k]? with
  | none => .next s
  | some op =>
    if !s.dieUp (dieOf core).toNat then .next (s.setCtxAt core ctx { x with nms := dropAt x.nms k })
    else if x.stores.any fun st => st.serial < op.serial && st.pas.any fun pa => pa / 64 = op.pa / 64 then .next s
    else .next (nmStep core ctx k hot op s)
/-- BANK_ENGINE_ACK (R286): after the write-back of the line; the word is free again. One whose die has meanwhile left is
dropped as R163 gives. -/
def execBankEngineAck (k : Nat) (s : State) : Host.Outcome State Fault Refusal :=
  match s.bank[k]? with
  | none => .next s
  | some (core, ctx, op) =>
    let gone := { s with bank := dropAt s.bank k }
    match op.places s with
    | .error _ => .next (gone.refusedNotice core ctx 2 op.va none)
    | .ok ps =>
      match ps.head? with
      | some (.remote pa) => .next (if Assoc.getD s.mem.pending (pa / 64) 0 = 0 then gone else s)
      | some (.dram key w) =>
        let n := key / 64 * 2 + if w then 1 else 0
        let first := !((s.bank.take k).any fun b => b.2.2.lineOf s = some n)
        .next (if s.ctlq.contains n || !first then s else performNm core ctx op ps gone)
      | _ => .next gone

/-! ## The Hearth and the controllers (R283 to R285) -/

/-- LINE_MIGRATE (R283, R284): the line that the fourth request in a row has set in motion moves to the target, where it is
still resident and the home still has a forwarding entry; the requests that waited for it go on. -/
def execLineMigrate (line : Nat) (target : BitVec 7) (s : State) : Host.Outcome State Fault Refusal :=
  match homeSlice line with
  | none => .next s
  | some h =>
    let l := s.mem.line line
    if l.moving.isNone || l.last ≠ some target then .next s else
    let home := target = BitVec.ofNat 7 h
    let still := { s with mem := s.mem.setLine line { l with moving := none, count := 0 } }
    match s.mem.resident? line with
    | none => .next still
    | some r =>
      if !home && l.slice.isNone && 8192 ≤ s.mem.forwarded h then .next still else
      let out := { still with mem := { still.mem with hearth := still.mem.hearth.filter fun q => q.line ≠ line } }
      let s1 := out.reside line target r.dirty
      .next { s1 with mem := s1.mem.setLine line { s1.mem.line line with slice := if home then none else some target } }
/-- MEMORY_REQUEST_PERFORM (R285): a write-back leaves the controller's queue; requests to one line keep their order,
and no value changes. -/
def execMemoryRequestPerform (k : Nat) (s : State) : Host.Outcome State Fault Refusal :=
  match s.ctlq[k]? with
  | none => .next s
  | some n => .next (if (s.ctlq.take k).contains n then s else { s with ctlq := dropAt s.ctlq k })
/-- REMOTE_WRITE_ACK (R292): one pending posted write of a line of another package has been acknowledged; an atomic's is by its
reply. -/
def execRemoteWriteAck (line : Nat) (s : State) : Host.Outcome State Fault Refusal :=
  let asked := (s.requests.filter fun r => r.line = line && r.marks).length
  .next (if Assoc.getD s.mem.pending line 0 ≤ asked then s else { s with mem := s.mem.acked line })
/-- DRAM_SCRUB (R395): the word is rewritten with the value it holds, outside the write order, its full-empty bit
unchanged. -/
def execDramScrub (addr : Nat) (s : State) : Host.Outcome State Fault Refusal :=
  match place s 0 (addr / 8 * 8) with
  | .ok (.dram key _) =>
    .next { s with mem := s.mem.setBytes ((List.range 8).map fun i => (key / 8 * 8 + i, s.mem.byte (key / 8 * 8 + i))) }
  | _ => .next s

/-! ## ALIASF (R157) -/

/-- A window of a doubleword returns what stands from now on, with the releases of the other window's write that it now gives; what
it still returned is an older value (R157, R291, R302). -/
def Memory.align (m : Memory) (w : Nat) : Memory :=
  match Assoc.get? m.stale w with
  | none => m
  | some old =>
    let other := if w % 2 = 0 then w + 1 else w - 1
    { m with
      stale := Assoc.del m.stale w, time := m.time + 1
      past := Assoc.put m.past w
        (⟨m.time + 1, old, Assoc.get? m.tags w, Assoc.getD m.chain w [], none⟩ :: Assoc.getD m.past w [])
      tags := match Assoc.get? m.tags other with
        | some t => Assoc.put m.tags w t
        | none => Assoc.del m.tags w
      chain := match Assoc.get? m.chain other with
        | some l => Assoc.put m.chain w l
        | none => Assoc.del m.chain w }
/-- The doublewords of a place's line under both windows. -/
def Place.windows : Place → List Nat
  | .dram key _ => (List.range 16).map (key / 64 * 16 + ·)
  | _ => []
/-- A line of the range: every copy is written back and dropped, under either window's address. -/
def alignLine (s : State) (p : Place) : State :=
  match p with
  | .dram key _ =>
    let n := key / 64 * 2
    let s := [n, n + 1].foldl (fun s n => (s.tokenHome n).evictHearth n) s
    { s with mem := p.windows.foldl Memory.align s.mem }
  | _ => s
/-- ALIASF_COMPLETE (R157): the windows agree over the range, and the context reads no older value there; the instruction itself
then acts as its fence. -/
def execAliasfComplete (core : CoreId) (ctx : CtxId) (s : State) : Host.Outcome State Fault Refusal :=
  let x := s.ctxAt core ctx
  match x.aliasing with
  | some (base, len, false) =>
    let lines := rangeLines s (s.issuerFor core ctx) base.toNat len.toNat
    let both := (linesOf lines).flatMap fun n => [n / 2 * 2, n / 2 * 2 + 1]
    if !x.stores.isEmpty || lines.any s.blocked || both.any (s.holdsBack none) then .next s else
    let s1 := lines.foldl alignLine s
    let old := (lines.flatMap (·.windows)).filter fun w => (Assoc.get? s1.mem.past w).isSome
    .next (s1.setCtxAt core ctx { x with
      aliasing := some (base, len, true), floor := old.foldl (fun f w => Assoc.put f w s1.mem.time) x.floor })
  | _ => .next s

/-! ## The host (R375 to R377) -/

/-- The number under which memory keeps a line of the host space, by its line number there. -/
def hostLine (line : Nat) : Nat := keyHost / 64 + line
/-- The host link carries CXL.cache and CXL.mem: it is up, over 256-byte flits (R373). -/
def State.hostTraffic (s : State) : Bool := s.islandUp && s.island.hostUp && s.island.flit256
/-- A host snoop is answered after the line has been recalled from any core that holds it, with the stores in its buffer
(R289, R375); what then becomes of it at home. -/
def snoop (line : Nat) (s : State) (k : Nat → State → State) : Host.Outcome State Fault Refusal :=
  let n := hostLine line * 2
  .next (if !s.hostTraffic || s.holdsBack none n then s else k n (s.tokenHome n))
/-- CXL_SNPDATA (R375): dirty data go to the host, and the home is left with a read copy. -/
def execCxlSnpdata (line : Nat) (s : State) : Host.Outcome State Fault Refusal :=
  if (Assoc.get? s.mem.hostLines (hostLine line)).isNone then .next s else
  snoop line s fun n s =>
    let s := (s.flushLine n).1
    { s with mem := { s.mem with hostLines := Assoc.put s.mem.hostLines (hostLine line) false } }
/-- CXL_SNPINV (R375): the package gives the line up. -/
def execCxlSnpinv (line : Nat) (s : State) : Host.Outcome State Fault Refusal :=
  snoop line s fun _ s => s.dropCopies (.host (hostLine line * 64))
/-- CXL_SNPCUR (R375): the host reads the current line, and the package keeps what it holds. -/
def execCxlSnpcur (line : Nat) (s : State) : Host.Outcome State Fault Refusal := snoop line s fun _ s => s
/-- CXL_CACHE_RESPONSE (R375): the copy or the token that a party waits for. -/
def execCxlCacheResponse (k : Nat) (s : State) : Host.Outcome State Fault Refusal :=
  match s.requests[k]? with
  | none => .next s
  | some r =>
    if !s.hostTraffic || !r.host || r.ans ≠ .waiting then .next s else
    .next (({ s with requests := setAt s.requests k { r with ans := .granted } }).fillHost r.line r.own)

/-- The place of an HDM offset (R376). -/
def hdmPlaces (s : State) (h n : Nat) : Option (List Place) :=
  if 4 * dieBytes ≤ h || !s.hostTraffic then none else
  match placesOf s 0 ((List.range n).map fun i => s.pkg.toNat * 2 ^ 51 + h + i) with
  | .ok ps => some ps
  | .error _ => none
/-- HOST_MEM_READ (R376): served at home as an engine read; the host bit of the line is set. -/
def execHostMemRead (h : BitVec 48) (s : State) : Host.Outcome State Fault Refusal :=
  match hdmPlaces s (h.toNat / 64 * 64) 64 with
  | none => .next s
  | some ps =>
    if ps.any s.blocked then .next s else
    match ps.head?.bind (·.lineNo) with
    | none => .next s
    | some n =>
      let s1 := s.engineReads none ps
      .next { s1 with mem := s1.mem.setLine n { s1.mem.line n with hostBit := true, answered := none } }
/-- HOST_MEM_WRITE (R376): performed at home after every cached copy has been dropped; the full-empty bits stay, and the
doublewords are the host's (R377). A write is of 1 to 8 bytes inside one doubleword. -/
def execHostMemWrite (h : BitVec 48) (size : BitVec 4) (v : Word) (s : State) : Host.Outcome State Fault Refusal :=
  let n := size.toNat
  if n = 0 || 8 < h.toNat % 8 + n then .next s else
  match hdmPlaces s h.toNat n with
  | none => .next s
  | some ps =>
    if ps.any s.blocked || (linesOf ps).any (s.holdsBack none) then .next s else
    .next (engineStore s none (ps.zip (toBytes v.toNat n)) (some hostTag))
/-- BISNP_RESPONSE (R376): the host answers for a line it was asked about, and the home clears or keeps its host bit; the token or
the data that waited may pass. -/
def execBisnpResponse (line : Nat) (keep : Bool) (s : State) : Host.Outcome State Fault Refusal :=
  let l := s.mem.line line
  if !s.hostTraffic || l.asked.isNone then .next s else
  .next { s with mem := s.mem.setLine line { l with asked := none, answered := l.asked, spent := none, hostBit := keep } }

end Sys2Proof.Machine
end

