-- ==== Sys2Proof/Machine/Fabric.lean ====
section
/-! DEFINITION. The Ronfy fabric (R378 to R385): the link level, inbound windows, and the answers to requests
that were sent into it (R402, R404). -/

namespace Sys2Proof.Machine

/-! ## The link level (R380, R404) -/

/-- Flits up to an acknowledged SEQ leave the replay buffer. -/
def FabricLink.acked (x : FabricLink) (ack : BitVec 12) : FabricLink :=
  match x.sentFlits.findIdx? fun f => flitSeq f = ack with
  | some k =>
    let left := x.sentFlits.drop (k + 1)
    let kept (n : BitVec 12) : Bool := (left ++ x.backlog).any fun f => flitSeq f = n
    { x with sentFlits := left, replays := 0, detoured := x.detoured.filter fun d => kept d.1, own := x.own.filter fun d => kept d.1 }
  | none => x
/-- Credits come back with an idle flit; how many of each kind, its format keeps to itself (R379, R381). -/
def FabricLink.credited (x : FabricLink) (tick : Nat) : FabricLink :=
  { x with used := Vector.ofFn fun k => x.used.get k - Config.pick tick (2 ^ 50 + k.val) % (x.used.get k + 1) }
/-- The first flit that a link has left over goes on by another one, or by itself when it is up again, in its class and with the
message it is; there must be room and a credit. -/
def State.sendOn (s : State) (l k : Link) : State :=
  let x := s.link l
  match x.backlog with
  | [] => s
  | f :: rest =>
    let off := decide (k ≠ l)
    let esc := off || flitEsc f
    let cl := (Way.mk k esc none off).class (flitVnet f)
    if !s.credit k cl then s else
    let s1 := if off && !s.away l then s.log 0x04 5 0xFFFF l.val 0 0 else s
    let s2 := s1.setLink l { x with backlog := rest, own := x.own.filter fun d => d.1 ≠ flitSeq f }
    let seq := (s2.link k).txSeq
    let s3 := (s2.takeCredit k cl).putFlit k (fld f 0 512) (flitVnet f) esc (if off then some l else none)
    match x.own.find? fun d => d.1 = flitSeq f with
    | none => s3
    | some d => s3.setLink k { s3.link k with own := (s3.link k).own ++ [(seq, d.2)] }
/-- Flits that a downed link has left over move to its detour in their order, as many as find room there, or by the link itself
once it is up and nothing of it is on a detour; where there is no detour they are lost, this package's messages with a notice
(R168, R380, R404, R410). -/
def State.redirect (s : State) (l : Link) : State :=
  let x := s.link l
  if x.backlog.isEmpty then s
  else if x.up then
    if s.away l then s else x.backlog.foldl (fun s _ => s.sendOn l l) s
  else match s.detour l.val with
    | some k => x.backlog.foldl (fun s _ => s.sendOn l k) s
    | none => x.own.foldl (fun s d => s.refusedNotice d.2.score d.2.sctx 2 0 (some d.2)) (s.setLink l { x with backlog := [], own := [] })
/-- Room has come up on a link. -/
def State.redirectAll (s : State) : State :=
  if s.stranded then (List.range 12).foldl (fun s k => s.redirect ⟨k % 12, by omega⟩) s else s
/-- A link goes down: a record, a device event, and what it had not delivered moves to the detour in order (R404). -/
def linkDown (l : Link) (s : State) : State :=
  let x := s.link l
  if !x.up then s else
  (((s.setLink l { backlog := x.sentFlits ++ x.backlog, own := x.own }).log 0x04 5 0xFFFF l.val 0 0).devEvent 2).redirectAll
/-- A NAK: later flits are sent again, which the record keeps as a correction (R395); after 16 replays of one flit in a row the link
goes down. -/
def nakReplay (l : Link) (ack : BitVec 12) (s : State) : State :=
  let x := (s.link l).acked ack
  if x.sentFlits.isEmpty then s.setLink l x
  else if x.replays + 1 < 16 then (s.setLink l { x with replays := x.replays + 1 }).log 0x05 5 0xFFFF l.val 0 0
  else linkDown l (s.setLink l x)

/-! ## Inbound accesses (R384, R385) -/

/-- An inbound window admits an access. -/
def windowAdmits (w : Word × Word) (a : Inbound) : Bool :=
  bit w.1 63 && fld w.1 48 3 = a.space.toNat && (a.space = 0 || a.space = 1 || a.space = 3)
    && fld w.1 14 34 * 16384 ≤ a.off.toNat && a.off.toNat + a.size ≤ (fld w.2 14 34 + 1) * 16384
    && (!a.rd || bit w.1 61) && (!a.wr || bit w.1 62)
/-- An acquire by another package's core of a doubleword that a core outside that package released too narrowly, where the release's
scope is no wider than the acquire's: the class-0 message of R303. Where the acquire's is the narrower, the acquirer's package sends
it. -/
def inboundMiss (a : Inbound) (src : Nat) (pas : List Nat) (ps : List Place) (s : State) : State :=
  match a.acq with
  | none => s
  | some sc =>
    let q : Party := ⟨some (BitVec.ofNat 13 src), a.core⟩
    (wordsOf ps).zip (pas.filter fun pa => pa % 8 = 0 || pas.head? = some pa) |>.foldl (fun s p =>
      match p.1.word.bind (Assoc.get? s.mem.tags) with
      | none => s
      | some t =>
        if t.host || t.count || t.pkg = some (BitVec.ofNat 13 src) || sc.toNat < t.scope.toNat || inScope t.scope.toNat t.party q then s
        else s.reportMiss t (BitVec.ofNat 11 (p.2 / 8)) (s.mem.dword ((p.1.key.getD 0) / 8)) (needScope t.party q) (s.missBy q)
          (a.core, a.ctx) false) s
/-- The release tag that a write by another package's core leaves (R302). -/
def inboundTag (a : Inbound) (src : Nat) : Option Tag :=
  a.rel.map fun sc => { core := a.core, ctx := a.ctx, scope := sc, page := a.page, launch := none, pkg := some (BitVec.ofNat 13 src) }
/-- An admitted access is performed at home as an engine's is (R290), with the full-empty bits as its kind sets them (R146).
`.inl`: it waits at the home, or the host is asked first. -/
def performInbound (a : Inbound) (src : Nat) (s : State) : State ⊕ State :=
  let pas := (List.range a.size).map (s.pkg.toNat * 2 ^ 51 + a.space.toNat * 2 ^ 48 + a.off.toNat + ·)
  match placesOf s a.hkey pas with
  | .error _ => .inr s
  | .ok ps =>
    match homeWaits s a.wr ps with
    | some (.ask n w) => .inl (s.ask w n)
    | some _ => .inl s
    | none =>
      let s1 := if a.rd then inboundMiss a src pas ps (s.engineReads none ps) else s
      if !a.wr then .inr s1 else
      let s2 := engineStore s1 none (ps.zip (toBytes a.value a.size)) (inboundTag a src) a.rd
      .inr (match a.kind with
        | .plain => s2
        | .setEmpty => { s2 with mem := setFulls s2.mem (keysOf ps) false }
        | _ => { s2 with mem := setFulls s2.mem (keysOf ps) true })
/-- An inbound request, with its reply, for which the link must have room. -/
def inbound (a : Inbound) (src : Nat) (s : State) : State ⊕ State :=
  let reply (s : State) : State := s.putInternal src 1
  if 64 < a.size then .inr s
  else if !s.canSend s.pkg.toNat src 1 none then .inl s
  else if s.island.fwin.toList.any fun w => windowAdmits w a then
    match performInbound a src s with
    | .inl s1 => .inl s1
    | .inr s1 => .inr (reply s1)
  else .inr (reply s)

/-! ## Answers (R402) -/

/-- A reply that nobody waits for is dropped and counted. -/
def orphan (s : State) : State := { s with island := { s.island with orphcnt := s.island.orphcnt + 1 } }
/-- A reply that comes late is dropped and counted. -/
def lateReply (s : State) : State := orphan { s with late := s.late - 1 }
/-- A reply from the fabric answers one of the requests that wait for one, or comes late for one that was answered as from an absent
endpoint: which, its format keeps to itself (R379, R402). The home of an LDF's word that is empty answers so, and again when it is
full (R148). -/
def fabricReply (s : State) : State :=
  let open_ := s.requests.zipIdx.filter fun r => !r.1.host && (r.1.ans = Answer.waiting || r.1.ans = Answer.empty)
  let n := open_.length + if s.late = 0 then 0 else 1
  match open_[Config.pick s.tick 2 % n]? with
  | none => if s.late = 0 then s else lateReply s
  | some (r, k) =>
    if Config.flitAnswer s.tick = 0 then
      if r.ldf && r.ans = Answer.waiting && Config.choice s.tick (2 ^ 60) then s.answer k .empty
      else if r.own || r.ldf then s.answer k .granted
      else fillProxy r.line (s.answer k .granted)
    else if Config.flitAnswer s.tick = 1 then s.answer k .refused
    else s.answer k .absent

/-! ## Receiving (R379 to R385) -/

/-- The release side that a message of another package may carry: by which scope, and whether at all, only its sender knows; a
class-0 message is the missed release's (R301, R303). -/
def State.farRelease (s : State) (m : Msg) : List Release :=
  let w := Config.freeWord s.tick (2 ^ 61 + 2)
  let src := BitVec.ofNat 13 (fld m.src 51 13)
  if m.cls = 0 then [⟨{ core := m.core, ctx := 0, scope := 0, page := 0, launch := none, time := s.mem.time }, none⟩]
  else if bit w 0 then
    [⟨{ core := m.score, ctx := m.sctx, scope := BitVec.ofNat 3 (fld w 8 3 % 7), page := 0, launch := none
        pkg := some src, time := s.mem.time }, none⟩]
  else []
/-- An accepted payload: a message for this package or for another, or a flit of an internal format. `.inl`: it is not taken
yet. -/
def acceptPayload (l : Link) (f : BitVec 576) (s : State) : State ⊕ State :=
  let came := some (l, flitEsc f)
  let pass (src dst : Nat) : State ⊕ State :=
    if s.canSend src dst (flitVnet f) came then .inr (s.transmit src dst (fld f 0 512) (flitVnet f) came) else .inl s
  if Config.flitIsMessage s.tick then
    let m := flitMsg f
    if m.pkg = s.pkg.toNat then
      .inr { s with mesh := s.mesh ++ [{ msg := { m with src := insertBits m.src 35 1 0 }, who := some (m.score, m.sctx)
                                         pkg := some (BitVec.ofNat 13 (fld m.src 51 13)), rels := s.farRelease m }] }
    else pass (fld m.src 51 13) m.pkg
  else
    let dst := Config.pick s.tick 0 % 4608
    let src := Config.pick s.tick 1 % 4608
    if dst ≠ s.pkg.toNat then pass src dst
    else match flitVnet f with
      | 1 => .inr (fabricReply s)
      | 3 => .inr s
      | _ => inbound (Config.inbound s.tick) src s
/-- FABRIC_FLIT_RECEIVE (R380): a bad or unexpected flit is dropped and answered by a NAK of the last good SEQ. -/
def execFabricFlitReceive (link : Link) (flit : BitVec 576) (s : State) : Host.Outcome State Fault Refusal :=
  let x := s.link link
  if !x.up || !s.islandUp then .next s
  else if !flitCrcOk flit then .next (s.setLink link { x with nak := some (x.rxSeq - 1) })
  else if flitType flit = 2 then .next (nakReplay link (flitAck flit) s).redirectAll
  else if flitSeq flit ≠ x.rxSeq then .next (s.setLink link { x with nak := some (x.rxSeq - 1) })
  else
    let s1 := s.setLink link { x.acked (flitAck flit) with rxSeq := x.rxSeq + 1, nak := none }
    let s1 := if flitType flit = 1 then s1.setLink link ((s1.link link).credited s.tick) else s1
    if flitType flit ≠ 0 then .next s1.redirectAll else
    match acceptPayload link flit s1 with
    | .inl s2 => .next { s2 with links := s.links, island := s.island }
    | .inr s2 => .next s2.redirectAll
/-- FABRIC_NAK_REPLAY (R380). -/
def execFabricNakReplay (link : Link) (ack : BitVec 12) (s : State) : Host.Outcome State Fault Refusal :=
  .next (if (s.link link).up then nakReplay link ack s else s)
/-- The outcome of a step in an entry of the start record (R407). -/
def Island.outcome (i : Island) (step : Nat) : Byte := ((i.starts.get 0)[step]?).getD 0
/-- The outcome of a step in the newest entry, where it has none (R407). -/
def State.noteStart (s : State) (step : Nat) (code : Byte) : State :=
  let e := s.island.starts.get 0
  if s.island.outcome step ≠ 0 then s else
  { s with island := { s.island with starts := s.island.starts.set 0 (e.setIfInBounds step code) } }
/-- The training of a link is skipped at this start: it failed at the one before (R407). -/
def Island.skips (i : Island) (step : Nat) : Bool := i.outcome step = 3 || (i.outcome step = 0 && i.failed step)
/-- FABRIC_LINK_UP (R378): the first link to train gives the island its coordinates. -/
def execFabricLinkUp (link : Link) (x y : BitVec 4) (z : BitVec 5) (s : State) : Host.Outcome State Fault Refusal :=
  if !s.islandUp || (s.link link).up || 18 ≤ z.toNat || s.island.skips (link.val + 1) then .next s else
  let k := s.link link
  let s1 := s.setLink link { up := true, backlog := k.backlog, own := k.own }
  let i := s1.island
  let s2 := if i.pkgValid then s1 else { s1 with island := { i with pkgValid := true, x := x, y := y, z := z } }
  .next (((s2.noteStart (link.val + 1) 1).log 0x04 5 0xFFFF link.val 0 0).devEvent 2).redirectAll
/-- FABRIC_LINK_DOWN (R404). -/
def execFabricLinkDown (link : Link) (s : State) : Host.Outcome State Fault Refusal := .next (linkDown link s)
/-- FABRIC_REQUEST_TIMEOUT (R402): 8 ms, 5,600,000 core cycles, without a reply. -/
def execFabricRequestTimeout (k : Nat) (s : State) : Host.Outcome State Fault Refusal :=
  match s.requests[k]? with
  | none => .next s
  | some r =>
    if r.host || r.ans ≠ Answer.waiting || s.now < r.since + 5600000 then .next s
    else .next (s.giveUp k)
/-- A request whose endpoint is absent: the host's link, or the island and with it every other package (R402). -/
def State.requestAbsent (s : State) (r : Request) : Bool := !s.islandUp || (r.host && !(s.island.hostUp && s.island.flit256))
/-- ENDPOINT_ABSENT_REPLY (R402): the island answers, or it drops and counts a late reply. -/
def execEndpointAbsentReply (late : Bool) (k : Nat) (s : State) : Host.Outcome State Fault Refusal :=
  if late then .next (if s.islandUp && s.late ≠ 0 then lateReply s else s) else
  match s.requests[k]? with
  | none => .next s
  | some r =>
    if r.ans = Answer.waiting && s.requestAbsent r then
      .next (s.giveUp k)
    else .next s

end Sys2Proof.Machine
end

