-- ==== Sys2Proof/Machine/Heap.lean ====
section
/-! DEFINITION. The equality heap (R229 to R245, R308 to R321): issue, the records in the region, insertion, merging,
reading back, matching and ranking. -/

namespace Sys2Proof.Machine

/-! ## Issue (R229 to R233) -/

/-- The handle m of the acting context's partition (R230). -/
def State.handleNo (s : State) (h : BitVec 2) : Nat := 4 * (s.partOf s.cur.core).toNat + h.toNat
/-- Operations with a completion word, and those that deliver to registers (R231, R232). -/
def HeapKind.worded : HeapKind → Bool
  | .cfg _ => true
  | .mrg _ _ => true
  | .matchp _ _ => true
  | .rank _ => true
  | _ => false
/-- Operations of the acting context in flight, of one of the two sorts, whichever task issued them (R231, R232). -/
def State.inFlight (s : State) (worded : Bool) : Nat :=
  (s.heaps.map fun h => (h.2.ops.filter fun o => s.sameQueue o.iss (s.issuer .welt) && o.kind.worded = worded).length).sum
/-- An operation enters the engines. -/
def State.addOp (s : State) (hn : Nat) (k : HeapKind) (regs : List (BitVec 5)) (word : Option Word) : State :=
  let h := s.heap hn
  s.setHeap hn { h with nextTag := h.nextTag + 1
                        ops := h.ops ++ [{ iss := s.issuer .welt, kind := k, regs := regs, word := word, tag := h.nextTag }] }
/-- An operation with a completion word is issued (R231). -/
def issueWorded (h : BitVec 2) (d : BitVec 5) (k : HeapKind) (s : State) : Res :=
  if 16 ≤ s.inFlight true then .wait .heapOps s else
  completionWord d s fun w s => .ok (.fall 4) (s.addOp (s.handleNo h) k [] w)
/-- An operation that delivers to registers from g[d] is issued (R112, R232). -/
def issueOwed (h : BitVec 2) (regs : List (BitVec 5)) (k : HeapKind) (s : State) : Res :=
  if 8 ≤ s.inFlight false then .wait .interlock s else
  let s1 := s.addOp (s.handleNo h) k regs none
  .ok (.fall 4) (s1.setMe { s1.me with owed := s1.me.owed ++ regs })
/-- The register that a result goes to; none for d = 0 (R232). -/
def owedReg (d : BitVec 5) : List (BitVec 5) := if d = 0 then [] else [d]
/-- A block or buffer aligned to 64 bytes (R233, R239, R241, R244). -/
def aligned64 (va : Word) (s : State) (k : Res) : Res := if va.toNat % 64 ≠ 0 then .trap (misaligned va) s else k

/-- EGCFG (R233). -/
def execEgcfg (d a : BitVec 5) (h : BitVec 2) (s : State) : Host.Outcome State Fault Refusal :=
  withRegs (wordR 0x3C 0 0 a.toNat d.toNat h.toNat) [.g a, .g d] [] s fun s =>
    aligned64 (s.me.getG a) s (issueWorded h d (.cfg (s.me.getG a)) s)
/-- EGINS (R235). -/
def execEgins (d a b : BitVec 5) (h : BitVec 2) (s : State) : Host.Outcome State Fault Refusal :=
  withRegs (wordR 0x3C 1 b.toNat a.toNat d.toNat h.toNat) [.g a, .g b, .g (b + 1)] [.g d] s fun s =>
    issueOwed h (owedReg d) (.ins (s.me.getG a) (s.me.getG b) (s.me.getG (b + 1))) s
/-- EGFIND (R236). -/
def execEgfind (d a : BitVec 5) (h : BitVec 2) (s : State) : Host.Outcome State Fault Refusal :=
  withRegs (wordR 0x3C 2 0 a.toNat d.toNat h.toNat) [.g a] [.g d] s fun s =>
    issueOwed h (owedReg d) (.find (s.me.getG a)) s
/-- EGMRG (R237). -/
def execEgmrg (d a b : BitVec 5) (h : BitVec 2) (s : State) : Host.Outcome State Fault Refusal :=
  withRegs (wordR 0x3C 3 b.toNat a.toNat d.toNat h.toNat) [.g a, .g b, .g d] [] s fun s =>
    issueWorded h d (.mrg (s.me.getG a) (s.me.getG b)) s
/-- EGMATCH (R242). -/
def execEgmatch (d a b : BitVec 5) (h : BitVec 2) (s : State) : Host.Outcome State Fault Refusal :=
  withRegs (wordR 0x3C 4 b.toNat a.toNat d.toNat h.toNat) [.g a, .g b, .g d] [] s fun s =>
    aligned64 (s.me.getG a) s (issueWorded h d (.matchp (s.me.getG a) (s.me.getG b)) s)
/-- EGNODE (R238): three registers. -/
def execEgnode (d a : BitVec 5) (h : BitVec 2) (s : State) : Host.Outcome State Fault Refusal :=
  withRegs (wordR 0x3C 5 0 a.toNat d.toNat h.toNat) [.g a] [.g d, .g (d + 1), .g (d + 2)] s fun s =>
    issueOwed h [d, d + 1, d + 2] (.node (s.me.getG a)) s
/-- EGENUM (R239). -/
def execEgenum (d a b : BitVec 5) (h : BitVec 2) (s : State) : Host.Outcome State Fault Refusal :=
  withRegs (wordR 0x3C 6 b.toNat a.toNat d.toNat h.toNat) [.g a, .g b] [.g d] s fun s =>
    aligned64 (s.me.getG b) s (issueOwed h (owedReg d) (.enum (s.me.getG a) (s.me.getG b)) s)
/-- EGRANK (R244). -/
def execEgrank (d a : BitVec 5) (h : BitVec 2) (s : State) : Host.Outcome State Fault Refusal :=
  withRegs (wordR 0x3C 7 0 a.toNat d.toNat h.toNat) [.g a, .g d] [] s fun s =>
    aligned64 (s.me.getG a) s (issueWorded h d (.rank (s.me.getG a)) s)
/-- EGSTAT (R240). -/
def execEgstat (d a : BitVec 5) (h : BitVec 2) (s : State) : Host.Outcome State Fault Refusal :=
  withRegs (wordR 0x3C 8 0 a.toNat d.toNat h.toNat) [.g a] [.g d] s fun s =>
    issueOwed h (owedReg d) (.stat (s.me.getG a)) s

/-! ## The region (R308 to R310) -/

/-- An engine's work on memory: it ends with a value, or with a miss and no effect. -/
abbrev Eng (α : Type) := StateT State (Except Miss) α
/-- The Welt engines of a heap's span in increasing number (R312): engine k stands beside slice k and cluster k (R17). -/
def HeapConf.engines (c : HeapConf) : List Nat :=
  (List.range 128).filter fun k => c.span.toNat % 4 = 1 || k / 64 * 2 + k % 16 / 8 = c.span.toNat / 4
/-- The home engine of an id. Id 0, the allocator's record, gives engine 0 of the heap (R312, R313). -/
def HeapConf.home (c : HeapConf) (id : Nat) : Nat :=
  c.engines.getD (id * 0x9E3779B1 % 2 ^ 32 / 2 ^ 16 % max 1 c.engines.length) 0
/-- A core of the cluster whose engine makes an access at an offset of the region: the home of a class record (R312). For node
slots, whose signature home is not architectural, the cluster of the EGCFG. -/
def HeapConf.party (c : HeapConf) (off : Nat) : CoreId :=
  if off < 16 * (c.ncls + 1) then coreAt (8 * (c.home (off / 16) % 16)) (8 * (c.home (off / 16) / 16)) else c.iss.core
/-- A number of `n` bytes at an offset of the region. -/
def hGet (c : HeapConf) (off n : Nat) : Eng Nat := fun s => engineNum s c.iss (c.base.toNat + off) n (c.party off)
/-- An engine write there (R146). -/
def hPut (c : HeapConf) (off n v : Nat) : Eng Unit := fun s =>
  match engineWrite s c.iss (c.base.toNat + off) (toBytes v n) true none false (c.party off) with
  | .error e => .error e
  | .ok (_, s1) => .ok ((), s1)
/-- Offsets of class record `id` and of node slot `n` (R308). -/
def clsOff (id : Nat) : Nat := 16 * id
def nodeOff (c : HeapConf) (n : Nat) : Nat := 16 * (c.ncls + 1) + 32 * n
/-- Fields of records (R309, R310). What a program's store has spoilt names nothing past the region (R233): a use cell
beyond it is none, and ALLOC stops at NCLS. -/
def getParent (c : HeapConf) (id : Nat) : Eng Nat := hGet c (clsOff id) 4
def getAlloc (c : HeapConf) : Eng Nat := do
  let a ← hGet c 0 4
  pure (min a c.ncls)
def getNused (c : HeapConf) : Eng Nat := hGet c 4 4
def getUhead (c : HeapConf) (id : Nat) : Eng Nat := do
  let u ← hGet c (clsOff id + 8) 4
  pure (if c.nnode < u then 0 else u)
def getNhead (c : HeapConf) (id : Nat) : Eng Nat := do
  let n ← hGet c (clsOff id + 12) 4
  pure (if c.nnode < n then 0 else n)
/-- The root of an id: parent links lead to lower ids. A link that a program's store has spoilt ends the chain. -/
def findRoot (c : HeapConf) : Nat → Nat → Eng Nat
  | 0, id => pure id
  | fuel + 1, id => do
    let p ← getParent c id
    if p = 0 || id ≤ p then pure id else findRoot c fuel p
def root (c : HeapConf) (id : Nat) : Eng Nat := if id = 0 || c.ncls < id then pure 0 else findRoot c id id
/-- A term node (R310). -/
structure Node where
  lit : Nat
  sym : Nat
  arity : Nat
  stale : Bool
  flags : Nat
  ch : List Nat
  next : Nat
  cls : Nat
  kind : Nat
def getNode (c : HeapConf) (n : Nat) : Eng Node := do
  let w ← hGet c (nodeOff c n) 32
  pure { lit := nbits w 0 32, sym := nbits w 32 16, arity := nbits w 48 2, stale := nbits w 50 1 = 1, flags := nbits w 48 8
         ch := [nbits w 64 32, nbits w 96 32, nbits w 128 32], next := nbits w 160 32, cls := nbits w 192 32
         kind := nbits w 248 8 }
/-- The term nodes of a class, in list order. -/
def nodeList (c : HeapConf) : Nat → Nat → Eng (List Nat)
  | 0, _ => pure []
  | fuel + 1, n => do
    if n = 0 || c.nnode < n then pure [] else
    let x ← getNode c n
    let t ← nodeList c fuel x.next
    pure (n :: t)
def classNodes (c : HeapConf) (id : Nat) : Eng (List Nat) := do
  let h ← getNhead c id
  nodeList c c.nnode h
/-- Parent entry k of a use cell lies at this byte (R310). -/
def entryOff (k : Nat) : Nat := 4 * k
/-- The use cells of a chain, and the parent entries they hold. -/
def useCells (c : HeapConf) : Nat → Nat → Eng (List Nat)
  | 0, _ => pure []
  | fuel + 1, u => do
    if u = 0 || c.nnode < u then pure [] else
    let nx ← hGet c (nodeOff c u + 24) 4
    let t ← useCells c fuel nx
    pure (u :: t)
def cellEntries (c : HeapConf) (u : Nat) : Eng (List Nat) := do
  let w ← hGet c (nodeOff c u) 24
  pure (((List.range 6).map fun k => nbits w (32 * k) 32).filter (· ≠ 0))
/-- All entries of a list of cells. -/
def allEntries (c : HeapConf) : List Nat → Eng (List Nat)
  | [] => pure []
  | u :: t => do
    let e ← cellEntries c u
    let r ← allEntries c t
    pure (e ++ r)
/-- The signature of a node, its children canonical (R311). -/
def signature (c : HeapConf) (x : Node) : Eng Sig := do
  let c0 ← root c (x.ch.getD 0 0)
  let c1 ← root c (x.ch.getD 1 0)
  let c2 ← root c (x.ch.getD 2 0)
  pure ⟨x.sym, x.arity, x.lit, c0, c1, c2⟩
/-- The node entered under a signature. -/
def Heap.lookup (h : Heap) (g : Sig) : Option Nat := (h.buckets.find? fun b => b.1 = g).map (·.2)

/-! ## Inserting (R235, R310, R314, R315) -/

/-- The roots at which a new node's parent entries stand: one for each class among its children (R310, R315). -/
def childRoots (c : HeapConf) : List Nat → Eng (List Nat)
  | [] => pure []
  | id :: t => do
    let r ← root c id
    let l ← childRoots c t
    pure (if l.contains r then l else r :: l)
/-- Those whose first use cell has no free entry: each takes a new cell (R235). -/
def fullRoots (c : HeapConf) : List Nat → Eng (List Nat)
  | [] => pure []
  | r :: t => do
    let u ← getUhead c r
    let e ← if u = 0 then pure [] else cellEntries c u
    let l ← fullRoots c t
    pure (if u = 0 || 6 ≤ e.length then r :: l else l)
/-- A parent entry goes into the first cell of a class that has room, in increasing order (R310). -/
def addEntry (c : HeapConf) (n r : Nat) : Eng Unit := do
  let u ← getUhead c r
  let held ← cellEntries c u
  hPut c (nodeOff c u + entryOff held.length) 4 n
/-- Or into a new cell, slot v, at the head of the class's chain (R310). -/
def addCell (c : HeapConf) (n : Nat) (v r : Nat) : Eng Unit := do
  let u ← getUhead c r
  hPut c (nodeOff c v) 32 (n + u * 2 ^ 192 + 2 * 2 ^ 248)
  hPut c (clsOff r + 8) 4 v
/-- An engine's work over a list, in order. -/
def eachOf {α : Type} (f : α → Eng Unit) : List α → Eng Unit
  | [] => pure ()
  | a :: t => do
    f a
    eachOf f t
/-- A heap result word (R230). -/
def heapWord (code : Nat) (new : Bool) (v : Nat) : Word :=
  BitVec.ofNat 64 (code * 2 ^ 40 + if code = 0 then (if new then 2 ^ 32 else 0) + v % 2 ^ 32 else 0)
/-- The checks of EGINS and its canonical children, or a code (R235). -/
def insCanon (c : HeapConf) (key c01 c2 : Word) : Eng (Except Nat (Nat × Nat × Nat)) := do
  let k := [fld c01 0 32, fld c01 32 32, fld c2 0 32]
  let arity := fld key 0 2
  let alloc ← getAlloc c
  if fld key 2 14 ≠ 0 then pure (.error 6)
  else if (k.zipIdx.any fun p => if p.2 < arity then p.1 = 0 || alloc < p.1 else p.1 ≠ 0) then pure (.error 2)
  else
    let a ← root c (k.getD 0 0)
    let b ← root c (k.getD 1 0)
    let d ← root c (k.getD 2 0)
    pure (.ok (a, b, d))
/-- What an insertion comes to: the result word, the heap, and the node to be re-signed (R315). -/
structure Inserted where
  word : Word
  heap : Heap
  again : Option Nat := none
/-- The STALE node of a list that was entered for a key with the children as a program gives them. -/
def staleTwin (c : HeapConf) (g : Sig) : List Nat → Eng (Option Nat)
  | [] => pure none
  | n :: t => do
    let x ← getNode c n
    if x.stale && x.sym = g.sym && x.arity = g.arity && x.lit = g.lit && x.ch = [g.c0, g.c1, g.c2] && x.cls ≤ c.ncls then
      pure (some x.cls)
    else staleTwin c g t
/-- What an insertion that finds its node returns. Three readings of class_of(n) are left open, which differ after a merge only: the
class's root (R235), the node's own CLASS (R310), and the CLASS of the STALE node that was entered for the same key; a second run
of R324's program returns ids 1 to 6. DEDUCED, log 22. -/
def hitId (c : HeapConf) (raw : Sig) (n : Nat) : Eng Nat := do
  let x ← getNode c n
  let r ← root c x.cls
  let s ← get
  let l ← classNodes c r
  let old ← staleTwin c raw l
  set s
  let own := if x.cls ≤ c.ncls then x.cls else r
  match Config.pick s.tick (2 ^ 61 + 1) % 3 with
  | 0 => pure r
  | 1 => pure own
  | _ => pure (old.getD own)
/-- The lookup and possible insertion of a signature (R235, R314): `k` the canonical children, `raw` those given. The slots of the node
and of its use cells are taken in the order in which their requests reach engine 0 (R313, R324). -/
def insert (c : HeapConf) (h : Heap) (key : Word) (raw k : Nat × Nat × Nat) : Eng Inserted := do
  let arity := fld key 0 2
  let g : Sig := ⟨fld key 16 16, arity, fld key 32 32, k.1, k.2.1, k.2.2⟩
  match h.lookup g with
  | some n =>
    let id ← hitId c { g with c0 := raw.1, c1 := raw.2.1, c2 := raw.2.2 } n
    pure { word := heapWord 0 false id, heap := h }
  | none =>
    let alloc ← getAlloc c
    let used ← getNused c
    let ids := [k.1, k.2.1, k.2.2].take arity
    let roots ← childRoots c ids
    let full ← fullRoots c roots
    if c.nnode < used then pure { word := heapWord 2 false 0, heap := h }
    else if alloc = c.ncls then pure { word := heapWord 3 false 0, heap := h }
    else if c.nnode < used + 1 + full.length || 2 ^ (c.hlog - 1) ≤ h.buckets.length then
      pure { word := heapWord 4 false 0, heap := h }
    else
      let s ← get
      let id := alloc + 1
      let slots := (List.range (full.length + 1)).map (used + 1 + ·)
      let n := used + 1 + if full.isEmpty then 0 else Config.pick s.tick (2 ^ 61 + 2) % slots.length
      let cells := (slots.filter (· ≠ n)).rotateLeft (Config.pick s.tick (2 ^ 61 + 3))
      hPut c 0 8 (id + (used + slots.length) * 2 ^ 32)
      hPut c (clsOff id) 16 (1 * 2 ^ 32 + n * 2 ^ 96)
      hPut c (nodeOff c n) 32 (g.lit + g.sym * 2 ^ 32 + arity * 2 ^ 48 + k.1 * 2 ^ 64 + k.2.1 * 2 ^ 96 + k.2.2 * 2 ^ 128
        + id * 2 ^ 192 + 2 ^ 248)
      eachOf (addEntry c n) (roots.filter fun r => !full.contains r)
      eachOf (fun p => addCell c n p.1 p.2) (cells.zip full)
      pure { word := heapWord 0 true id, heap := { h with buckets := h.buckets ++ [(g, n)] }
             again := if ids.all roots.contains then none else some n }

/-! ## Merging (R316, R317) -/

/-- The last of a list. -/
def lastOf : List Nat → Nat
  | [] => 0
  | [a] => a
  | _ :: t => lastOf t
/-- A union step: the parent entries to re-sign when it publishes, none for equal roots (R316). -/
def unionStep (c : HeapConf) (a b : Nat) : Eng (Option (List Nat)) := do
  let x ← root c a
  let y ← root c b
  if x = y || x = 0 || y = 0 then pure none else
  let r := min x y
  let s := max x y
  hPut c (clsOff s) 4 r
  let sr ← hGet c (clsOff r + 4) 4
  let ss ← hGet c (clsOff s + 4) 4
  hPut c (clsOff r + 4) 4 (sr + ss)
  let rn ← classNodes c r
  let sh ← getNhead c s
  hPut c (nodeOff c (lastOf rn) + 20) 4 sh
  let su ← getUhead c s
  let scells ← useCells c c.nnode su
  let ents ← allEntries c scells
  let ru ← getUhead c r
  let rcells ← useCells c c.nnode ru
  if ru = 0 then hPut c (clsOff r + 8) 4 su else hPut c (nodeOff c (lastOf rcells) + 24) 4 su
  pure (some ents)
/-- A re-sign: the heap after it, and the union it causes (R317). -/
def resignNode (c : HeapConf) (h : Heap) (p : Nat) : Eng (Heap × Option (Nat × Nat)) := do
  if c.nnode < p then pure (h, none) else
  let x ← getNode c p
  if x.stale || x.kind ≠ 1 then pure (h, none) else
  let g ← signature c x
  let others := h.buckets.filter fun b => b.2 ≠ p
  match (others.find? fun b => b.1 = g).map (·.2) with
  | none => pure ({ h with buckets := others ++ [(g, p)] }, none)
  | some q =>
    let y ← getNode c q
    hPut c (nodeOff c p + 6) 1 (x.flags ||| 4)
    let a ← root c x.cls
    let b ← root c y.cls
    pure ({ h with buckets := others }, if a = b then none else some (a, b))

/-! ## Configuring (R233, R311) -/

/-- The fields of a heap descriptor, none where a range or reserved field fails (R233). -/
def parseHeap (i : Issuer) (desc : Word) (n : Nat) : Option (HeapConf × Bool) :=
  let base := nbits n 0 64
  let ncls := nbits n 64 32
  let nnode := nbits n 96 32
  let hlog := nbits n 128 8
  let span := nbits n 136 8
  let init := nbits n 144 8
  let lim := 2 ^ 28
  if base % 65536 ≠ 0 || ncls = 0 || lim ≤ ncls || nnode = 0 || lim ≤ nnode || hlog < 10 || 28 < hlog
      || 1 < span % 4 || 16 ≤ span || (span % 4 = 1 && span / 4 ≠ 0) || 1 < init || nbits n 152 232 ≠ 0 || nbits n 448 64 ≠ 0
  then none
  else some (⟨i, desc, BitVec.ofNat 64 base, ncls, nnode, hlog, BitVec.ofNat 8 span⟩, init = 1)
/-- `n` doublewords zeroed from an offset. -/
def zeroRegion (c : HeapConf) : Nat → Nat → Eng Unit
  | 0, _ => pure ()
  | n + 1, off => do
    hPut c off 8 0
    zeroRegion c n (off + 8)
/-- The buckets of the live term nodes among the first `n` slots. -/
def rebuild (c : HeapConf) : Nat → Eng (List (Sig × Nat))
  | 0 => pure []
  | n + 1 => do
    let l ← rebuild c n
    let x ← getNode c (n + 1)
    if x.kind = 1 && !x.stale then
      let g ← signature c x
      pure (l ++ [(g, n + 1)])
    else pure l
/-- The region made ready; the buckets (R311). -/
def prepareRegion (c : HeapConf) (init : Bool) : Eng (List (Sig × Nat)) := do
  if init then
    zeroRegion c (2 * (c.ncls + 1) + 4 * (c.nnode + 1) + 2 ^ c.hlog) 0
    pure []
  else
    let used ← getNused c
    rebuild c (min used c.nnode)

/-! ## Patterns (R241, R242) -/

/-- A node of a pattern (R241). -/
structure PNode where
  lit : Nat
  sym : Nat
  kind : Nat
  arity : Nat
  var : Nat
  bad : Bool
/-- Node i of a block. -/
def patNode (blk : List Byte) (i : Nat) : PNode :=
  let w := fromBytes ((blk.drop (16 + 8 * i)).take 8)
  { lit := nbits w 32 32, sym := nbits w 16 16, kind := nbits w 14 2, arity := if nbits w 14 2 = 0 then 0 else nbits w 12 2
    var := nbits w 8 3, bad := nbits w 11 1 ≠ 0 || nbits w 0 8 ≠ 0 || nbits w 14 2 = 3 }
/-- The place of the first child of node i, breadth-first. -/
def firstChild (blk : List Byte) (i : Nat) : Nat := 1 + ((List.range i).map fun j => (patNode blk j).arity).sum
/-- The number of nodes that the arities of the first ones imply. -/
def patCount (blk : List Byte) : Nat → Nat → Nat → Nat
  | 0, _, n => n
  | f + 1, i, n => if i < n && n ≤ 13 then patCount blk f (i + 1) (n + (patNode blk i).arity) else n
/-- The depth of node i, the root at 1. -/
def depthOf (blk : List Byte) (i : Nat) : Nat :=
  if i = 0 then 1 else if i < firstChild blk 1 then 2 else 3
/-- A bad block (R241). -/
def patBad (blk : List Byte) : Bool :=
  let num (o n : Nat) : Nat := fromBytes ((blk.drop o).take n)
  let nn := num 10 1
  let fv := num 11 1
  let nodes := (List.range (min nn 13)).map (patNode blk)
  nn = 0 || 13 < nn || patCount blk 14 0 1 ≠ nn || nodes.any (·.bad) || nbits (num 0 8) 16 6 ≠ 0
    || num 12 4 ≠ 0 || num 120 8 ≠ 0 || (patNode blk 0).kind = 0
    || (nodes.zipIdx.any fun p => 3 ≤ depthOf blk p.2 && p.1.kind ≠ 0 && p.1.arity ≠ 0)
    || 8 < fv || (fv < 8 && !(nodes.any fun p => p.kind = 0 && p.var = fv))

/-- Bound ids by slot; 0 unbound. -/
abbrev Env := Vector Nat 8
/-- One pattern node against one heap node. -/
def symMatches (p : PNode) (x : Node) : Bool :=
  x.kind = 1 && x.sym = p.sym && x.arity = p.arity && (p.kind ≠ 2 || x.lit = p.lit)
/-- What an engine's work gives over a list, joined. -/
def gather {α β : Type} (f : α → Eng (List β)) : List α → Eng (List β)
  | [] => pure []
  | a :: t => do
    let x ← f a
    let y ← gather f t
    pure (x ++ y)
/-- The bindings that each of a list of children allows, one child after another. -/
def through {α : Type} (f : α → Env → Eng (List Env)) : List α → List Env → Eng (List Env)
  | [], envs => pure envs
  | a :: t, envs => do
    let next ← gather (f a) envs
    through f t next
/-- The bindings under which a symbol node at place i matches node n, its children matched by `f` (R242). -/
def matchNode (c : HeapConf) (blk : List Byte) (f : Nat × Nat → Env → Eng (List Env)) (i : Nat) (env : Env) (root_ : Bool)
    (n : Nat) : Eng (List Env) := do
  let x ← getNode c n
  let p := patNode blk i
  if !symMatches p x || (root_ && x.stale) then pure [] else
  through f (((x.ch).take p.arity).zipIdx.map fun q => (firstChild blk i + q.2, q.1)) [env]
/-- The bindings under which a position matches a class, to a depth: no pattern goes below 4 (R241, R242). -/
def matchClass (c : HeapConf) (blk : List Byte) : Nat → Nat × Nat → Env → Eng (List Env)
  | 0, _, _ => pure []
  | d + 1, (i, id), env => do
    let r ← root c id
    let p := patNode blk i
    if p.kind = 0 then
      let v := env.get ⟨p.var % 8, by omega⟩
      if v = 0 then pure [env.set (p.var % 8) r (by omega)] else pure (if v = r then [env] else [])
    else
      let l ← classNodes c r
      gather (matchNode c blk (matchClass c blk d) i env false) l

/-! ## Ranking (R244) -/

/-- A signed number of `k` bytes at an offset of the ranking block. -/
def rankInt (b : List Byte) (o k : Nat) : Int := signedN (8 * k) (fromBytes ((b.drop o).take k))
/-- A bad ranking block (R244). -/
def rankBad (b : List Byte) : Bool :=
  let t (k : Nat) : Int := rankInt b (2384 + 4 * k) 4
  31 < fromBytes ((b.drop 2372).take 1) || fromBytes ((b.drop 2373).take 3) ≠ 0 || fromBytes ((b.drop 2632).take 56) ≠ 0
    || (List.range 61).any fun k => t (k + 1) < t k
/-- FTAB. -/
def rankTable (b : List Byte) : Nat := fromBytes ((b.drop 2376).take 8)
/-- SCORE and level of a row of features (R244). -/
def rankScore (b : List Byte) (x : List Int) : Int × Nat :=
  let s1 := fromBytes ((b.drop 2372).take 1)
  let hid := (List.range 64).map fun j =>
    let s := rankInt b (2048 + 4 * j) 4 + ((List.range 32).map fun i => rankInt b (32 * j + i) 1 * x.getD i 0).sum
    min 127 (max 0 (s / 2 ^ s1))
  let y := (BitVec.ofInt 32 (rankInt b 2368 4 + ((List.range 64).map fun j => rankInt b (2304 + j) 1 * hid.getD j 0).sum)).toInt
  (y, ((List.range 62).filter fun k => rankInt b (2384 + 4 * k) 4 ≤ y).length)

/-- A binding message (R243). -/
def bindingMsg (s : State) (o : HeapOp) (rank : Option (List Byte)) (r : Nat) (env : Env) : Except Miss (Msg × State) :=
  let num (a n : Nat) : Nat := fromBytes ((o.blk.drop a).take n)
  let fv := num 11 1
  let fidx := if fv = 8 then r else env.toList.getD fv 0
  let nb := (env.toList.filter (· ≠ 0)).length
  let scored : Except Miss (Nat × Option Nat × State) :=
    match rank with
    | none => .ok (0, none, s)
    | some b =>
      if rankTable b = 0 then
        let q := rankScore b []
        .ok ((BitVec.ofInt 32 q.1).toNat, some q.2, s)
      else match engineRead s o.iss (rankTable b + 32 * fidx) 32 with
        | .error e => .error e
        | .ok (l, s1) =>
          let q := rankScore b (l.map fun x => x.toInt)
          .ok ((BitVec.ofInt 32 q.1).toNat, some q.2, s1)
  match scored with
  | .error e => .error e
  | .ok (score, level, s1) =>
    let v (k : Nat) : Nat := env.toList.getD k 0
    let pair (k : Nat) : Word := BitVec.ofNat 64 (v k + v (k + 1) * 2 ^ 32)
    let desc := BitVec.ofNat 64 (num 0 8)
    let desc := match level with
      | none => desc
      | some p => insertBits desc 24 6 p
    .ok (⟨mkSrc s.pkg o.iss.core o.iss.ctx o.iss.priv 0, desc,
      #v[BitVec.ofNat 64 (r + num 8 2 * 2 ^ 32 + nb * 2 ^ 48), pair 0, pair 2, pair 4, pair 6,
         BitVec.ofNat 64 (fidx + score * 2 ^ 32)]⟩, s1)
/-- The messages of a list of distinct bindings. -/
def bindingMsgs (s : State) (o : HeapOp) (rank : Option (List Byte)) (r : Nat) : List Env → Except Miss (List Msg × State)
  | [] => .ok ([], s)
  | e :: t =>
    match bindingMsg s o rank r e with
    | .error z => .error z
    | .ok (m, s1) =>
      match bindingMsgs s1 o rank r t with
      | .error z => .error z
      | .ok (l, s2) => .ok (m :: l, s2)
/-- The bindings of one id of the range: none unless it is canonical when visited, and from its nodes that are not STALE
(R242). -/
def visitId (c : HeapConf) (blk : List Byte) (id : Nat) : Eng (List Env) := do
  let alloc ← getAlloc c
  if id = 0 || alloc < id then pure [] else
  let r ← root c id
  if r ≠ id then pure [] else
  let l ← classNodes c id
  let envs ← gather (matchNode c blk (matchClass c blk 4) 0 (Vector.replicate 8 0) true) l
  pure envs.eraseDups

/-! ## Moves of the engines (R234, R245) -/

/-- Where a handle's fix-ups stand (R233, R365). -/
def heapSite (hn : Nat) (root : Issuer) (desc : Word) (who : Issuer) : FixSite :=
  ⟨root, who, desc, 1, BitVec.ofNat 64 (hn % 4)⟩
/-- The page of a fault. -/
def faultPage (t : Trap) : BitVec 42 := BitVec.ofNat 42 (nbits (t.addr.getD 0).toNat 14 42)
/-- The operation of a tag, changed. -/
def Heap.onTag (h : Heap) (tag : Nat) (f : HeapOp → HeapOp) : Heap :=
  { h with ops := h.ops.map fun o => if o.tag = tag then f o else o }
/-- The elements of a handle's fix-ups (R364): an operation by its tag, an item by its own number. -/
def HeapOp.elem (o : HeapOp) : Nat := 2 * o.tag
def Item.elem (t : Item) : Nat := 2 * t.id + 1
/-- The fix-up entries of a handle, changed by their index. -/
def Heap.onFix (h : Heap) (idx : Nat) (f : Fixup → Fixup) : Heap :=
  { h with fixes := h.fixes.map fun x => if x.idx = idx then f x else x }
/-- The engine writes the states of the entries of a handle of which nothing is left to perform, where nothing keeps it (R366). -/
def settleHeap (hn : Nat) (s : State) : State :=
  match (s.heap hn).fixBlock with
  | none => s
  | some (i, desc) =>
    (List.range 4).foldl (fun s k =>
      match (s.heap hn).fixes.find? fun f => f.idx = k with
      | none => s
      | some f =>
        let q := settleFix s (heapSite hn i desc i) f
        q.2.setHeap hn ((q.2.heap hn).onFix k fun _ => q.1)) s
/-- An element leaves the entries that are being replayed; those it leaves with none have been replayed (R366). -/
def fixDone (hn : Nat) (e : Nat) (s : State) : State :=
  let h := s.heap hn
  if !(h.fixes.any (·.again)) then s else
  settleHeap hn (s.setHeap hn { h with
    fixes := h.fixes.map fun f => if f.again then { f with elems := f.elems.filter (· ≠ e) } else f })
/-- A miss of the work of an element: a fix-up it then waits for, or CODE 7 (R245, R359). -/
def heapMiss (hn : Nat) (site : FixSite) (e tag : Nat) (m : Miss) (s : State) : State :=
  match m with
  | .hold => s
  | .ask n w => s.ask w n
  | .fault t =>
    let h := s.heap hn
    let clean := h.fixes.map fun f => if f.again && f.page = faultPage t then { f with elems := f.elems.filter (· ≠ e) } else f
    match recordFix s site clean h.fixcnt t e with
    | .waits s => s
    | .done f n s1 =>
      let kept := f.map fun f => if f.page = faultPage t then f else { f with elems := f.elems.filter (· ≠ e) }
      fixDone hn e (s1.setHeap hn { s1.heap hn with fixes := kept, fixcnt := n })
  | _ => fixDone hn e (s.setHeap hn ((s.heap hn).onTag tag fun o => { o with code := 7 }))
/-- An element waits for a fix-up. -/
def Heap.waits (h : Heap) (e : Nat) : Bool := h.fixes.any fun f => !f.again && f.elems.contains e
/-- Registers of a context receive a result, or their queues do (R112, R179, R232). -/
def giveRegs (x : Ctx) : List (BitVec 5 × Word) → Ctx
  | [] => x
  | (r, w) :: t =>
    let x := match x.binding false r with
      | some b => x.setQ (b.q.setWidth 2) (x.getQ (b.q.setWidth 2) ++ [w.setWidth 128])
      | none => x.setG r w
    giveRegs { x with owed := x.owed.erase r } t
/-- The operation leaves the engines with its result in its register or completion word (R231, R232); EGMRG's write is a
release at the heap scope (R237, R320). The bindings of an EGMATCH count in its core's SENT now (R272, R321). -/
def finishOp (hn : Nat) (k : Nat) (o : HeapOp) (vals : List Word) (s : State) : State :=
  let h := s.heap hn
  let s1 := s.setHeap hn { h with ops := dropAt h.ops k, counts := Assoc.del h.counts o.tag }
  let s1 := match o.kind with
    | .matchp _ _ =>
      let m : Msg := { desc := listDword o.blk 0 }
      s1.countIf (s1.isLaunchMsg o.iss.core o.iss.launch m) o.iss.core o.iss.launch o.sent
    | _ => s1
  if o.regs.isEmpty then
    let tag := match o.kind, h.conf, o.word with
      | .mrg _ _, some c, some va =>
        let die := c.span.toNat % 4 = 0 && (dieOf o.iss.core).toNat = c.span.toNat / 4 % 4
        (tagFor o.iss.core o.iss.ctx o.iss.launch (some (if die then 3 else 4)) va).map fun t => { t with full := true }
      | _, _, _ => none
    s1.engineWord o.iss o.word (vals.headD 0) tag
  else s1.setIssuerCtx o.iss (giveRegs (s1.issuerCtx o.iss) (o.regs.zip vals))
/-- A result with a code, in the form that the operation delivers (R230, R238). -/
def HeapOp.fails (o : HeapOp) (code : Nat) : List Word :=
  match o.kind with
  | .node _ => [BitVec.ofNat 64 (0xFFFFFFFFFFFFFF00 + code), 0, 0]
  | _ => [heapWord code false 0]
/-- The operation's turn has come: no earlier one of its context still has its effect to make (R234), its issuer's stores
are performed (R305), no fix-up holds it, and its word or queue can take the result. -/
def opReady (s : State) (h : Heap) (k : Nat) (o : HeapOp) : Bool :=
  !h.waits o.elem && s.commandReady o.iss && s.wordReady o.iss o.word
    && ((h.ops.take k).all fun p => !s.sameQueue p.iss o.iss || 2 ≤ p.stage)
    && (o.regs.all fun r => match (s.issuerCtx o.iss).binding false r with
      | some b => ((s.issuerCtx o.iss).getQ (b.q.setWidth 2)).length < 8
      | none => true)
/-- Work on memory with its misses handled, and what follows it. -/
def heapWork {α : Type} (hn : Nat) (site : FixSite) (o : HeapOp) (e : Eng α) (s : State) (k : α → State → State) : State :=
  match e s with
  | .error m => heapMiss hn site o.elem o.tag m s
  | .ok (a, s1) => k a (fixDone hn o.elem s1)
/-- An operation put back. -/
def State.putOp (s : State) (hn k : Nat) (o : HeapOp) : State :=
  s.setHeap hn { s.heap hn with ops := setAt (s.heap hn).ops k o }
/-- An operation has begun, or waits in a fix-up. -/
def Heap.begun (h : Heap) (o : HeapOp) : Bool := o.stage ≠ 0 || h.fixes.any fun f => f.elems.contains o.elem
/-- EGCFG (R233). EGCFGs of a handle take turns in issue order. A release waits until every operation issued before it, and
every other that has begun, has completed. The ranking unit keeps what EGRANK loaded when its handle is released or configured
anew: the spec names only EGRANK as changing it (R244). DESIGN CHOICE, log 22. -/
def runCfg (hn k : Nat) (o : HeapOp) (desc : Word) (s : State) : State :=
  let h := s.heap hn
  let turn := (h.ops.take k).all fun p => match p.kind with
    | .cfg _ => false
    | _ => true
  if !turn then s
  else if desc = 0 then
    if h.conf.isNone then finishOp hn k o [heapWord 1 false 0] s
    else if k ≠ 0 || !h.items.isEmpty || h.ops.any h.begun || fixPending h.fixes then settleHeap hn s
    else
      let s1 := finishOp hn k o [heapWord 0 false 0] s
      s1.setHeap hn { s1.heap hn with conf := none, buckets := [], fixes := [], fixcnt := 0 }
  else if h.conf.isSome then finishOp hn k o [heapWord 5 false 0] s else
  let site := heapSite hn o.iss desc o.iss
  if o.stage = 0 then
    heapWork hn site o (fun s => engineRead s o.iss desc.toNat 128) s fun l s =>
      if (parseHeap o.iss desc (fromBytes l)).isNone then finishOp hn k o [heapWord 6 false 0] s
      else match s.blockWaits site with
      | some s => s
      | none =>
        let s1 := (s.clearFixes site).putOp hn k { o with stage := 1, blk := l }
        s1.setHeap hn { s1.heap hn with fixes := [], fixcnt := 0 }
  else
    match parseHeap o.iss desc (fromBytes o.blk) with
    | none => s
    | some (c, init) =>
      heapWork hn site o (prepareRegion c init) s fun b s =>
        finishOp hn k o [heapWord 0 false 0] (s.setHeap hn { s.heap hn with conf := some c, buckets := b })
/-- EGMATCH (R242): its block is read, its ids are visited one by one, which is its effect (R234), and its word written when
all bindings are sent. -/
def runMatch (hn k : Nat) (o : HeapOp) (c : HeapConf) (site : FixSite) (blk range : Word) (s : State) : State :=
  let h := s.heap hn
  let all_ (n : Nat) : Nat := if fld range 32 32 ≤ n then 2 else 1
  if o.stage = 0 then
    if (h.ops.take k).any fun p => match p.kind with
      | .rank _ => true
      | _ => false
    then s else
    heapWork hn site o (fun s => engineRead s o.iss blk.toNat 128) s fun l s =>
      if patBad l then finishOp hn k o [heapWord 6 false 0] s else s.putOp hn k { o with stage := all_ 0, blk := l }
  else if !o.binds.isEmpty then s
  else if o.done < fld range 32 32 then
    match visitId c o.blk (fld range 0 32 + o.done) s with
    | .error m => heapMiss hn site o.elem o.tag m s
    | .ok (envs, s1) =>
      match bindingMsgs s1 o h.rank (fld range 0 32 + o.done) envs with
      | .error m => heapMiss hn site o.elem o.tag m s
      | .ok (l, s2) =>
        (fixDone hn o.elem s2).putOp hn k { o with stage := all_ (o.done + 1), done := o.done + 1, binds := l }
  else finishOp hn k o [heapWord 0 false o.sent] s
/-- EGRANK (R244): after every EGMATCH issued before it. -/
def runRank (hn k : Nat) (o : HeapOp) (site : FixSite) (blk : Word) (s : State) : State :=
  let h := s.heap hn
  if (h.ops.take k).any fun p => match p.kind with
    | .matchp _ _ => true
    | _ => false
  then s
  else if blk = 0 then finishOp hn k o [heapWord 0 false 0] (s.setHeap hn { h with rank := none })
  else heapWork hn site o (fun s => engineRead s o.iss blk.toNat 2688) s fun l s =>
    if rankBad l then finishOp hn k o [heapWord 6 false 0] s
    else finishOp hn k o [heapWord 0 false 0] (s.setHeap hn { s.heap hn with rank := some l })
/-- EGENUM (R239). -/
def enumClass (c : HeapConf) (o : HeapOp) (id buf : Word) : Eng Word := do
  let alloc ← getAlloc c
  let v := id.toNat % 2 ^ 32
  if v = 0 || alloc < v then pure (heapWord 2 false 0) else
  let r ← root c v
  let l ← classNodes c r
  let cap ← (fun s => engineNum s o.iss buf.toNat 8 : Eng Nat)
  (fun s => match writeAll s o.iss ((l.take cap).zipIdx.map fun p => (buf.toNat + 64 + 4 * p.2, toBytes p.1 4)) with
    | .error e => .error e
    | .ok s1 => .ok ((), s1) : Eng Unit)
  pure (heapWord 0 false l.length)
/-- EGNODE (R238). -/
def readNode (c : HeapConf) (o : HeapOp) (idx : Word) : Eng (List Word) := do
  let n := idx.toNat % 2 ^ 32
  if n = 0 || c.nnode < n then pure (o.fails 2) else
  let x ← getNode c n
  if x.kind ≠ 1 then pure (o.fails 2) else
  pure [BitVec.ofNat 64 (x.lit * 2 ^ 32 + x.sym * 2 ^ 16 + x.flags), BitVec.ofNat 64 (x.ch.getD 1 0 * 2 ^ 32 + x.ch.getD 0 0),
    BitVec.ofNat 64 (x.next * 2 ^ 32 + x.ch.getD 2 0)]
/-- EGFIND (R236). -/
def findId (c : HeapConf) (id : Word) : Eng Word := do
  let alloc ← getAlloc c
  if 2 ^ 32 ≤ id.toNat then pure (heapWord 6 false 0)
  else if alloc < id.toNat then pure (heapWord 2 false 0)
  else
    let r ← root c id.toNat
    pure (heapWord 0 false r)
/-- EGSTAT (R240). -/
def statItem (c : HeapConf) (h : Heap) (item : Word) : Eng Word := do
  if item = 0 then
    let a ← getAlloc c
    pure (heapWord 0 false a)
  else if item = 1 then
    let n ← getNused c
    pure (if c.nnode < n then heapWord 2 false 0 else heapWord 0 false n)
  else if item = 2 then pure (heapWord 0 false (min h.items.length (2 ^ 32 - 1)))
  else pure (heapWord 6 false 0)
/-- New items of a tag (R316 to R318). -/
def Heap.spawn (h : Heap) (tag : Nat) (l : List Work) (direct : Bool := false) : Heap :=
  { h with items := h.items ++ l.zipIdx.map fun w => ⟨tag, w.1, h.nextTag + w.2, direct⟩
           nextTag := h.nextTag + l.length }
/-- EGMRG is accepted: its union becomes work (R237, R318). -/
def acceptMerge (hn k : Nat) (o : HeapOp) (c : HeapConf) (site : FixSite) (a b : Word) (s : State) : State :=
  heapWork hn site o (getAlloc c) s fun alloc s =>
    let x := a.toNat % 2 ^ 32
    let y := b.toNat % 2 ^ 32
    if x = 0 || y = 0 || alloc < x || alloc < y then finishOp hn k o [heapWord 2 false 0] s else
    let h := s.heap hn
    s.setHeap hn (Heap.spawn { h with ops := setAt h.ops k { o with stage := 1 } } o.tag [.union x y] true)
/-- EGINS in its two steps, and its result after the re-signs it caused (R235, R314, R315). -/
def runInsert (hn k : Nat) (o : HeapOp) (c : HeapConf) (site : FixSite) (key c01 c2 : Word) (s : State) : State :=
  match o.result with
  | some w => if (s.heap hn).items.any fun t => t.tag = o.tag then s else finishOp hn k o [w] s
  | none =>
    match o.canon with
    | none =>
      heapWork hn site o (insCanon c key c01 c2) s fun r s =>
        match r with
        | .error e => finishOp hn k o [heapWord e false 0] s
        | .ok q => s.putOp hn k { o with stage := 1, canon := some q }
    | some q =>
      heapWork hn site o (insert c (s.heap hn) key (fld c01 0 32, fld c01 32 32, fld c2 0 32) q) s fun r s =>
        match r.again with
        | none => finishOp hn k o [r.word] (s.setHeap hn r.heap)
        | some n =>
          s.setHeap hn (Heap.spawn { r.heap with ops := setAt r.heap.ops k { o with result := some r.word } } o.tag [.resign n])
/-- An operation of a configured handle takes its next step. -/
def runOp (hn k : Nat) (o : HeapOp) (c : HeapConf) (s : State) : State :=
  let site := heapSite hn c.iss c.desc o.iss
  let one (e : Eng Word) : State := heapWork hn site o e s fun w s => finishOp hn k o [w] s
  match o.kind with
  | .cfg d => runCfg hn k o d s
  | .ins key c01 c2 => runInsert hn k o c site key c01 c2 s
  | .find id => one (findId c id)
  | .mrg a b => if o.stage = 0 then acceptMerge hn k o c site a b s else s
  | .matchp blk range => runMatch hn k o c site blk range s
  | .node idx => heapWork hn site o (readNode c o idx) s fun l s => finishOp hn k o l s
  | .enum id buf => one (enumClass c o id buf)
  | .rank blk => runRank hn k o site blk s
  | .stat item => one (statItem c (s.heap hn) item)
/-- A merge that has work or its word to come is left to MERGE_COMPLETE. -/
def HeapOp.spreading (o : HeapOp) : Bool := match o.kind with
  | .mrg _ _ => 1 ≤ o.stage
  | _ => false
/-- HEAP_OP_COMPLETE (R231): operation k of a handle takes its next step, at the end of which its result is delivered. Without such
an operation the engines write what they owe to the handle's fix-up entries (R366). -/
def execHeapOpComplete (heap : Nat) (k : Nat) (s : State) : Host.Outcome State Fault Refusal :=
  let h := s.heap heap
  match h.ops[k]? with
  | none => .next (settleHeap heap s)
  | some o =>
    if !opReady s h k o || o.spreading then .next (if h.waits o.elem then s else s.askWord o.iss o.word)
    else if o.code ≠ 0 then
      .next (if h.items.any fun t => t.tag = o.tag then s else finishOp heap k o (o.fails o.code.toNat) s)
    else match o.kind, h.conf with
      | .cfg d, _ => .next (runCfg heap k o d s)
      | _, none => .next (finishOp heap k o (o.fails 1) s)
      | _, some c => .next (runOp heap k o c s)
/-- An item leaves the engines, with what it spawned; a union that published is counted (R316, R318). -/
def itemDone (hn k : Nat) (t : Item) (spawn : List Work) (counted : Bool) (h : Heap) (s : State) : State :=
  let h1 := Heap.spawn { h with
    items := dropAt h.items k
    counts := if counted then Assoc.put h.counts t.tag (Assoc.getD h.counts t.tag 0 + 1) else h.counts } t.tag spawn
  s.setHeap hn (if t.direct then h1.onTag t.tag fun o => { o with stage := 2 } else h1)
/-- The descriptor of an item's operation, for its fix-ups. -/
def itemSite (hn : Nat) (h : Heap) (c : HeapConf) (tag : Nat) : FixSite :=
  heapSite hn c.iss c.desc (((h.ops.find? fun o => o.tag = tag).map (·.iss)).getD c.iss)
/-- A step of an item; one that meets a word it can never read or write is dropped with CODE 7. -/
def runItemWork (hn k : Nat) (t : Item) (c : HeapConf) (e : Eng State) (s : State) : State :=
  let site := itemSite hn (s.heap hn) c t.tag
  match e s with
  | .ok (_, s1) => fixDone hn t.elem s1
  | .error m =>
    let s1 := heapMiss hn site t.elem t.tag m s
    match m with
    | .hold => s1
    | .ask _ _ => s1
    | .fault _ => s1
    | _ => itemDone hn k t [] false (s1.heap hn) s1
/-- UNION_STEP (R316). -/
def execUnionStep (heap : Nat) (k : Nat) (s : State) : Host.Outcome State Fault Refusal :=
  let h := s.heap heap
  match h.items[k]?, h.conf with
  | some t, some c =>
    match t.work with
    | .resign _ => .next s
    | .union a b =>
      if h.waits t.elem then .next s else
      .next (runItemWork heap k t c (do
        let r ← unionStep c a b
        modify fun s => match r with
          | none => itemDone heap k t [] false (s.heap heap) s
          | some l => itemDone heap k t (l.map .resign) true (s.heap heap) s
        get) s)
  | _, _ => .next s
/-- RESIGN (R317). -/
def execResign (heap : Nat) (k : Nat) (s : State) : Host.Outcome State Fault Refusal :=
  let h := s.heap heap
  match h.items[k]?, h.conf with
  | some t, some c =>
    match t.work with
    | .union _ _ => .next s
    | .resign p =>
      if h.waits t.elem then .next s else
      .next (runItemWork heap k t c (do
        let r ← resignNode c h p
        modify fun s => itemDone heap k t (r.2.toList.map fun u => .union u.1 u.2) false r.1 s
        get) s)
  | _, _ => .next s
/-- MERGE_COMPLETE (R237, R318). -/
def execMergeComplete (heap : Nat) (k : Nat) (s : State) : Host.Outcome State Fault Refusal :=
  let h := s.heap heap
  match h.ops[k]? with
  | none => .next s
  | some o =>
    if !o.spreading || (h.items.any fun t => t.tag = o.tag) || h.waits o.elem then .next s
    else if !s.wordReady o.iss o.word then .next (s.askWord o.iss o.word)
    else .next (finishOp heap k o [if o.code ≠ 0 then heapWord o.code.toNat false 0 else heapWord 0 false (Assoc.getD h.counts o.tag 0)] s)
/-- BINDING_SEND (R243, R321): the next binding of the first EGMATCH that has one. It waits for a saved launch (R245, R351),
and one that cannot arrive is dropped with a notice (R168). -/
def execBindingSend (heap : Nat) (s : State) : Host.Outcome State Fault Refusal :=
  let h := s.heap heap
  match h.ops.findIdx? fun o => !o.binds.isEmpty with
  | none => .next s
  | some k =>
    match h.ops[k]? with
    | none => .next s
    | some o =>
      match o.binds with
      | [] => .next s
      | m :: rest =>
        let s1 := s.putOp heap k { o with binds := rest, sent := o.sent + 1 }
        if s1.unreachable m then .next (s1.refusedNotice o.iss.core o.iss.ctx 2 0 (some m)) else
        .next (s1.sendFor o.iss.launch
          { msg := m, notice := true, counted := s1.isLaunchMsg o.iss.core o.iss.launch m, deflt := true })
/-- An element of an abandoned entry is never performed: its operation ends with CODE 7 (R245, R366). -/
def abandonHeap (hn : Nat) (e : Nat) (s : State) : State :=
  let h := s.heap hn
  if e % 2 = 0 then s.setHeap hn (h.onTag (e / 2) fun o => { o with code := 7 })
  else match h.items.findIdx? fun t => t.elem = e with
    | none => s
    | some k => match h.items[k]? with
      | none => s
      | some t => itemDone hn k t [] false (h.onTag t.tag fun o => { o with code := 7 }) s
/-- The Welt engines' cached translations of a page are dropped, those of the dies of a handle and of an issuer (R366). -/
def State.dropWelt (s : State) (l : List CoreId) (page : Nat) : State :=
  let homes := l.map fun c => TlbHome.engine .welt (dieOf c)
  { s with tlb := s.tlb.filter fun e => !(homes.contains e.home && e.base = page * 2 ^ 14 / reach e.lvl.toNat) }
/-- A ring as the Welt engines see it: the entries of commands issued on the die; the elements of a resolved page are performed
anew, those of an abandoned one end their operations (R245, R366). -/
def ringHeap (die : BitVec 2) (hn : Nat) (s : State) : State :=
  match (s.heap hn).fixBlock with
  | none => s
  | some (i, desc) =>
    settleHeap hn ((List.range 4).foldl (fun s k =>
      match (s.heap hn).fixes.find? fun f => f.idx = k && !f.elems.isEmpty && dieOf f.who = die with
      | none => s
      | some f =>
        let st := fixState s i desc k
        let put (s : State) (g : Fixup) : State := s.setHeap hn ((s.heap hn).onFix k fun _ => g)
        if st = 2 then put (s.dropWelt [i.core, f.who] f.page.toNat) { f with again := true }
        else if st = 3 then
          f.elems.foldl (fun s e => abandonHeap hn e s) (put s { f with elems := [], again := false, skip := true })
        else s) (s.readBlock (heapSite hn i desc i)))
/-- FIXBELL_RING (R366): the engines that hold entries for commands issued on the die read their states anew. -/
def execFixbellRing (die : BitVec 2) (s : State) : Host.Outcome State Fault Refusal :=
  .next ((s.heaps.map (·.1)).foldl (fun s hn => ringHeap die hn s) (ringXfers die s))

end Sys2Proof.Machine
end

