-- ==== Sys2Proof/Machine/Select.lean ====
section
/-! DEFINITION. The events of messages, contexts and tasks: arrival (R257 to R262), class-7 control (R268), leaving a send
queue (R168), neighbour vectors (R176, R177), streams (R180), choosing and starting tasks (R254 to R265), parking (R266),
stealing (R271) and the done tree (R272, R273). -/

namespace Sys2Proof.Machine

/-! ## Arrival (R257 to R262, R383) -/

/-- Inbox entries in use: internal deliveries take none (R257, R262). -/
def Core.inboxUsed (x : Core) : Nat := (x.inbox.filter fun e => !e.inner).length + x.control.length
/-- The request and bulk networks, which share 52 entries (R257). -/
def bulkNet (vnet : Nat) : Bool := vnet = 0 || vnet = 2
/-- The inbox has room for a message of a network. -/
def Core.roomFor (x : Core) (vnet : Nat) : Bool :=
  x.inboxUsed < 64 && (!bulkNet vnet || (x.inbox.filter fun e => !e.inner && bulkNet e.msg.vnet).length < 52)
/-- A message before which no other of its sender to the same core on the same network is still on its way (R171), nor one held
before it for the same launch (R351). -/
def firstOfSender (mesh : List Flight) (k : Nat) (f : Flight) : Bool :=
  let sameWay (g : Flight) : Bool := g.msg.pkg = f.msg.pkg && g.msg.core = f.msg.core && g.msg.vnet = f.msg.vnet
  (f.who.isNone || !((mesh.take k).any fun g => g.who = f.who && g.pkg = f.pkg && sameWay g))
    && (f.queue.isNone || !((mesh.take k).any fun g => g.queue = f.queue && sameWay g))
/-- An undelivered containment notice of a core has arrived, or is lost (R258). -/
def State.noticeArrived (s : State) (f : Flight) : State :=
  if f.notice && f.msg.cls = 2 then s.setCore f.msg.score { s.core f.msg.score with noticeOut := false } else s
/-- A class-7 message that can have an effect: its reserved bits 0, its action not 11, ENTER's address good (R268). -/
def controlOk (m : Msg) : Bool :=
  let g1 := (m.pay.get ⟨0, by omega⟩).toNat
  let g2 := (m.pay.get ⟨1, by omega⟩).toNat
  let act := nbits g1 8 2
  nbits g1 2 6 = 0 && g1 / 2 ^ 10 = 0 && act ≠ 3 && !(act = 1 && (g2 % 2 = 1 || 2 ^ 56 ≤ g2))
/-- A class-3 report reaches the done unit: the wave, the record, and the sums of SENT and STARTED (R273). -/
def State.takeReport (s : State) (c : CoreId) (m : Msg) : State :=
  let x := s.core c
  let w (i : Fin 6) : Nat := (m.pay.get i).toNat
  s.setCore c { x with done := { x.done with reports := x.done.reports ++ [(m.score, w 3, m.pay.get 0, w 1, w 2)] } }
/-- A message enters a core: the capability check, then the inbox or the unit that consumes it (R258 to R260). -/
def enter (c : CoreId) (f : Flight) (s : State) : State :=
  let x := s.core c
  let m := f.msg
  if m.cap ≠ x.pkey || ((m.cls = 3 || m.cls = 7) && !m.sprv) then (s.startIf f.counted c).containment c 0 1 m
  else if m.cls = 3 then s.takeReport c m
  else if m.cls = 7 then if controlOk m then s.setCore c { x with control := x.control ++ [m] } else s
  else s.accept c { msg := m, counted := f.counted, deflt := f.deflt, rels := f.rels }
/-- The notice of a message that is dropped on its way names the context that issued it (R168, R267); hardware's own have none, and
those of another package are told to no supervisor here. -/
def State.dropped (s : State) (f : Flight) : State :=
  match f.who with
  | some (c, k) => if f.pkg.isSome then s else s.refusedNotice c k 2 0 (some f.msg)
  | none => if f.deflt then s.refusedNotice f.msg.score f.msg.sctx 2 0 (some f.msg) else s
/-- MESSAGE_ARRIVAL (R258): at its core, or, for another package, at the island; an absent endpoint drops it (R402). -/
def execMessageArrival (k : Nat) (s : State) : Host.Outcome State Fault Refusal :=
  match s.mesh[k]? with
  | none => .next s
  | some f =>
    let m := f.msg
    let gone := ({ s with mesh := dropAt s.mesh k }).noticeArrived f
    if !firstOfSender s.mesh k f then .next s
    else if s.unreachable m then
      .next (gone.dropped f)
    else if m.pkg ≠ s.pkg.toNat then
      .next (if s.canSend s.pkg.toNat m.pkg m.vnet none then gone.sendOut m (if f.pkg.isSome then none else f.who) else s)
    else if !(s.core m.core).roomFor m.vnet then .next s
    else .next (enter m.core f gone)

/-! ## Class 7 (R268) -/

/-- The context and the operand of a class-7 message. -/
def Msg.heldCtx (m : Msg) : CtxId := BitVec.ofNat 2 (fld (m.pay.get 0) 0 2)
def Msg.action (m : Msg) : Nat := fld (m.pay.get 0) 8 2
def Msg.operand (m : Msg) : Word := m.pay.get 1
/-- A context becomes READY (R254). -/
def State.makeReady (s : State) (c : CoreId) (k : CtxId) (x : Ctx) : State :=
  let y := s.core c
  s.setCore c { y.setCtx k { x with status := .ready, readyAt := y.clock } with clock := y.clock + 1 }
/-- The oldest class-7 message of a core, when it asks for an action: `act` on a HELD context, nothing on another. -/
def heldControl (c : CoreId) (action : Nat) (act : CtxId → Msg → State → State) (s : State) : State :=
  let x := s.core c
  match x.control with
  | [] => s
  | m :: rest =>
    if m.action ≠ action then s else
    let s1 := s.setCore c { x with control := rest }
    if (x.ctxAt m.heldCtx).status = .held then act m.heldCtx m s1 else s1
/-- HELD_CONTEXT_RETRY (R268). -/
def execHeldContextRetry (core : CoreId) (s : State) : Host.Outcome State Fault Refusal :=
  .next (heldControl core 0 (fun k _ s => s.makeReady core k (returnFromTrap (s.ctxAt core k))) s)
/-- HELD_CONTEXT_ENTER (R268). -/
def execHeldContextEnter (core : CoreId) (s : State) : Host.Outcome State Fault Refusal :=
  .next (heldControl core 1 (fun k m s =>
    let x := s.ctxAt core k
    s.makeReady core k { x with pc := m.operand, ctl := { x.ctl with priv := 1 } }) s)
/-- HELD_CONTEXT_TERMINATE (R268): as END, it waits for owed results and for a replay that runs (R269). One that the trap has stopped is
discarded. -/
def execHeldContextTerminate (core : CoreId) (s : State) : Host.Outcome State Fault Refusal :=
  let busy : Bool := match (s.core core).control with
    | m :: _ =>
      let x := s.ctxAt core m.heldCtx
      m.action = 2 && x.status = .held && (!x.owed.isEmpty || x.replay.any fun r => !r.halted)
    | [] => false
  .next (if busy then s else heldControl core 2 (fun k m s => (s.doneMerge core m.operand).endTask core k) s)

/-! ## Leaving the core (R168, R176, R177) -/

/-- SENDQ_TRANSMIT (R168): the oldest message of a network, after the stores that a release before it covers (R156), with the
releases that the task it starts acquires (R154, R299). What a fenced die emits is dropped at its boundary (R403). -/
def execSendqTransmit (core : CoreId) (ctx : CtxId) (vnet : BitVec 2) (s : State) : Host.Outcome State Fault Refusal :=
  let x := s.ctxAt core ctx
  match x.sendq.findIdx? fun q => q.msg.vnet = vnet.toNat with
  | none => .next s
  | some i =>
    match x.sendq[i]? with
    | none => .next s
    | some q =>
      if !x.storesDone q.upTo then .next s else
      let s1 := s.setCtxAt core ctx { x with sendq := dropAt x.sendq i }
      .next (if !s.dieUp (dieOf core).toNat then s1
        else if s.unreachable q.msg then s1.refusedNotice core ctx 2 0 (some q.msg)
        else
          let fence := q.scope.map fun sc =>
            (⟨{ core := core, ctx := ctx, scope := sc, page := 0, launch := none, time := s.mem.time }, none⟩ : Release)
          { s1 with mesh := s1.mesh ++
            [{ msg := q.msg, counted := q.counted, who := some (core, ctx), rels := q.rels ++ fence.toList }] })
/-- NSEND_ARRIVAL (R176): vectors of one side land in the order sent. -/
def execNsendArrival (k : Nat) (s : State) : Host.Outcome State Fault Refusal :=
  match s.vecs[k]? with
  | none => .next s
  | some (c, q, v) =>
    if (s.vecs.take k).any fun w => w.1 = c && w.2.1 = q then .next s else
    let x := s.core c
    .next (({ s with vecs := dropAt s.vecs k }).setCore c (x.setNq q (x.getNq q ++ [v])))
/-- NSEND_CREDIT_RETURN (R177). -/
def execNsendCreditReturn (k : Nat) (s : State) : Host.Outcome State Fault Refusal :=
  match s.credits[k]? with
  | none => .next s
  | some (c, ctx, m) =>
    let x := s.ctxAt c ctx
    let n := x.ctl.credit m
    .next (({ s with credits := dropAt s.credits k }).setCtxAt c ctx
      (x.withCtl fun l => l.setCredit m (if 4 ≤ n.toNat then 4 else n + 1)))

/-! ## Streams (R180) -/

/-- Address and bytes of an element that a stream pops, dimension 0 fastest. -/
def Stream.elem (t : Stream) (e : Nat) : Nat × Nat :=
  let b := typeBits (mapFmt t.map)
  let row := if t.vec then mapSize t.map 0 * b / 128 else mapSize t.map 0
  let base (r : Nat) : Nat := rowAddr t.map [0, r % mapSize t.map 1, r / mapSize t.map 1 % mapSize t.map 2,
    r / mapSize t.map 1 / mapSize t.map 2 % mapSize t.map 3]
  if t.vec then (base (e / row) + e % row * 16, 16) else (base (e / row) + e % row * b / 8, b / 8)
/-- A g register's element: signed types sign-extended, others zero-extended. -/
def Stream.widen (t : Stream) (n v : Nat) : Vec :=
  let f := mapFmt t.map
  if t.vec then BitVec.ofNat 128 v
  else if f = 8 || f = 10 || f = 12 || f = 14 then (sextW (8 * n) (BitVec.ofNat 64 v)).setWidth 128
  else BitVec.ofNat 128 v
/-- STREAM_FILL (R180, R181): the next element is read as a plain load of the context; a fault marks the entry. -/
def fillNext (t : Stream) (s : State) : State :=
  let put (f : Fill) (s : State) : State :=
    s.setMe { s.me with streams := s.me.streams.map fun u => if u.q = t.q then { t with buf := t.buf ++ [f], next := t.next + 1 } else u }
  let fault (r : Trap) : Fill := .fault r.code (r.info.getD (Config.freeInfo s.tick)) (r.addr.getD 0)
  let at_ := t.elem t.next
  let va := BitVec.ofNat 64 at_.1
  if 2 ^ 56 ≤ at_.1 then put (fault (rangeFault 0 s.me.ctl.priv va)) s else
  match access va at_.2 .read .plain 0 false .copy s fun pas ps _ s1 =>
      match ps.head? with
      | some (.device o) =>
        if s1.deviceAbsent o then .trap (busError 2 (some va)) s1
        else .ok .own (put (.value (t.widen at_.2 (nbits (deviceRead s1 (o / 8 * 8)
          (s1.writer s1.cur.core s1.me.ctl.priv)).toNat (8 * (o % 8)) (8 * at_.2)))) s1)
      | _ =>
        let v := readValue s1 (some s1.me.acqAt) ps
        .ok .own (put (.value (t.widen at_.2 v)) (plainRead none pas ps s1)) with
  | .ok _ s1 => s1
  | .trap r s1 => put (fault { r with addr := some (r.addr.getD va) }) s1
  | .wait _ s1 => s1
/-- STREAM_FILL (R180): up to eight entries ahead, none past a marked one. -/
def execStreamFill (core : CoreId) (ctx : CtxId) (q : BitVec 2) (s : State) : Host.Outcome State Fault Refusal :=
  let x := s.ctxAt core ctx
  match x.streams.find? fun t => t.q = q with
  | none => .next s
  | some t =>
    let marked := t.buf.any fun f => match f with
      | .fault _ _ _ => true
      | _ => false
    if t.total ≤ t.next || 8 ≤ t.buf.length || marked || x.halted || !s.coreUp core then .next s
    else .next { fillNext t { s with cur := ⟨core, ctx, false⟩ } with cur := s.cur }

/-! ## Parking (R266) -/

/-- PARK_TIMEOUT (R266): a wait of cr.parkt cycles parks the context. -/
def execParkTimeout (core : CoreId) (ctx : CtxId) (s : State) : Host.Outcome State Fault Refusal :=
  let x := s.ctxAt core ctx
  match x.wait with
  | none => .next s
  | some w =>
    if w.parks && x.status = .issuing && x.waitFrom + x.ctl.parkt.toNat ≤ s.now then
      .next (s.setCtxAt core ctx { x with status := .parked })
    else .next s
/-- The event that a parked context awaits has come (R148, R170, R177, R179, R212, R231). -/
def State.woken (s : State) (core : CoreId) (ctx : CtxId) (w : Wait) : Bool :=
  let x := s.ctxAt core ctx
  match w with
  | .ldfEmpty key => s.mem.isFull key
  | .ldfFar line => !(s.requests.any fun r => r.core = core && r.ctx = ctx && r.line = line && r.ldf
      && (r.ans = .waiting || r.ans = .empty))
  | .sendrFull => x.sendq.length < x.ctl.sqdepth.toNat
  | .noCredit m =>
    match neighbour core m with
    | some n => s.maySend x n m
    | none => true
  | .queueEmpty q => !((s.core core).getNq q).isEmpty
  | .transferQueue => (s.openXfers (s.issuerFor core ctx)).length < 16
  | .heapOps => ({ s with cur := ⟨core, ctx, false⟩ } : State).inFlight true < 16
  | .reply => true
  | .interlock => true
/-- PARKED_WAKE (R266). -/
def execParkedWake (core : CoreId) (ctx : CtxId) (s : State) : Host.Outcome State Fault Refusal :=
  let x := s.ctxAt core ctx
  match x.wait with
  | none => .next s
  | some w => .next (if x.status = .parked && s.woken core ctx w then s.makeReady core ctx { x with wait := none } else s)
/-- RUN_QUEUE_AGING (R263): another 4,096 cycles ready. -/
def execRunQueueAging (core : CoreId) (k : Nat) (s : State) : Host.Outcome State Fault Refusal :=
  let x := s.core core
  match x.inbox[k]? with
  | none => .next s
  | some e =>
    if e.held || s.now < e.since + 4096 then .next s
    else .next (s.setCore core { x with inbox := setAt x.inbox k { e with age := e.age + 1, since := e.since + 4096 } })

/-! ## Choosing a task (R254 to R256, R263, R270) -/

/-- The launch whose tasks may issue on a core: none while it is being halted (R342, R350). -/
def State.resident (s : State) (c : CoreId) : Option Nat :=
  let p := s.part (s.partOf c)
  if p.halting then none else p.resident
/-- The launch a message's task belongs to, or none when the task may not start now (R342). -/
def State.launchOf (s : State) (c : CoreId) (e : Entry) : Option (Option Nat) :=
  let k := e.msg.cls
  if supervisorClass k then some none
  else if k = 0 || (e.inner && !e.counted) then if (s.part (s.partOf c)).halting then none else some (s.resident c)
  else (s.resident c).map some
/-- A candidate of R255. -/
inductive Candidate where
  | ready (k : CtxId)
  | entry (i : Nat) (e : Entry) (launch : Option Nat)
  | fork (f : Fork)
/-- A fork's priority: 63 at user privilege stands for the class's default (R172). -/
def Core.forkPrio (x : Core) (f : Fork) : Nat :=
  if f.prio = 63 && f.prv = 0 then (x.cls f.cls.toNat).handler.dprio.toNat else f.prio.toNat
/-- Three contexts hold request, bulk or deque tasks (R256). -/
def Core.bulkFull (x : Core) : Bool :=
  3 ≤ (x.ctx.toList.filter fun k => match k.task with
    | some t => t.bulk
    | none => false).length
/-- The best of a list by a key: the largest first key, then the smallest second, then the earliest. -/
def best {α : Type} (hi lo : α → Nat) : List α → Option α
  | [] => none
  | a :: t =>
    match best hi lo t with
    | none => some a
    | some b => if hi a < hi b || (hi a = hi b && lo b < lo a) then some b else some a
/-- Contexts that stand in a state and are not stopped by pre-emption. -/
def Core.inState (x : Core) (st : Status) : List CtxId :=
  [(0 : CtxId), 1, 2, 3].filter fun k => (x.ctxAt k).status = st && !(x.ctxAt k).halted
/-- The candidate that the core chooses (R255), if there is one. A deque entry is none before the stores that its FORK releases
have been performed (R172, R299), and a launch's tasks start only while it is resident (R342). -/
def State.choose (s : State) (c : CoreId) : Option Candidate :=
  let x := s.core c
  let free := !(x.inState .free).isEmpty
  let r := (best (fun k => (x.ctxAt k).ctl.prio.toNat) (fun k => (x.ctxAt k).readyAt) (x.inState .ready)).map
    fun k => ((x.ctxAt k).ctl.prio.toNat, Candidate.ready k)
  let ok := x.inbox.zipIdx.filterMap fun p =>
    let e := p.1
    if e.held || (x.bulkFull && !e.inner && bulkNet e.msg.vnet) || (e.start.isNone && (x.cls e.msg.cls).state ≠ .bound) then none
    else (s.launchOf c e).map fun l => (p.2, e, l)
  let m := if free then (best (fun p => x.effPrio s.now p.2.1) (fun p => p.2.1.stamp) ok).map
      fun p => (x.effPrio s.now p.2.1, Candidate.entry p.1 p.2.1 p.2.2) else none
  let d := if free && !x.bulkFull then
      x.deque.getLast?.bind fun f =>
        let may := if supervisorClass f.cls.toNat then true else (s.resident c).isSome && (f.launch.isNone || f.launch = s.resident c)
        if (x.cls f.cls.toNat).state = .bound && may && (s.ctxAt f.core f.ctx).storesDone f.upTo then
          some (x.forkPrio f, Candidate.fork f) else none
    else none
  (best (·.1) (fun _ => 0) ((r.toList ++ m.toList) ++ d.toList)).map (·.2)

/-- A free context starts a task (R54, R264), after the writes of memory up to a place in their order. -/
def Ctx.startTask (x : Ctx) (now after : Nat) (pay : Vector Word 6) (src : Word) (mcls : Nat) (prio : Nat) (xid : Option (BitVec 16))
    (priv : BitVec 1) (pc : Word) (t : Task) : Ctx :=
  { x.ended with
    status := .issuing, pc := pc, task := some t, acqAt := after
    g := Vector.ofFn fun (r : Fin 32) => if r.val = 0 then 0 else pay.toList.getD (r.val - 1) 0
    f := Vector.replicate 32 0
    v := Vector.replicate 16 0
    tm := Vector.replicate 16 none
    ctl := { x.ctl with cycBase := 0, cycFrom := now, src := src, mcls := BitVec.ofNat 10 mcls, prio := BitVec.ofNat 6 prio
                        xid := xid.getD x.ctl.xid, priv := priv } }
/-- The start of a launch, which its tasks follow (R347, R348). -/
def State.startOf (s : State) (l : Option Nat) : Nat :=
  ((l.bind fun id => s.launches.find? fun x => x.id = id).map (·.startAt)).getD 0
/-- The acquire with which a task begins (R154, R171, R264): a release whose scope includes its core happens-before it, and one of
domain or system scope drops the proxy read copies (R293). A release ADF outside it is a miss (R302, R303). -/
def startAcquire (s : State) (r : Release) : State :=
  let t := r.tag
  let me := partyOf s.cur.core
  if t.count || t.host || inScope t.scope.toNat t.party me then (s.acquired (t.upTo s.mem)).dropProxies t.scope.toNat
  else match r.adf with
    | none => s
    | some word =>
      (s.withCtl fun c => { c with syncst := c.syncst ||| 1 }).reportMiss t word 0 (needScope t.party me) (s.missBy me)
        (s.cur.core, s.cur.ctx) (t.launch.isSome && s.myLaunch = t.launch)
def State.acquireStart (s : State) (c : CoreId) (k : CtxId) (l : List Release) : State :=
  { l.foldl startAcquire { s with cur := ⟨c, k, false⟩ } with cur := s.cur }
/-- The release of a FORK, which its task acquires (R172): every write performed by now. -/
def State.forkRelease (s : State) (f : Fork) : Release :=
  ⟨{ core := f.core, ctx := f.ctx, scope := 4, page := 0, launch := f.launch, time := s.mem.time }, none⟩
/-- The chosen candidate is taken: a READY context issues, or a free context, any of them, starts a task (R264). -/
def State.take (s : State) (c : CoreId) (w : Candidate) : State :=
  let x := s.core c
  let frees := x.inState .free
  let k := (frees[Config.pick s.tick 3 % frees.length]?).getD 0
  match w with
  | .ready k => s.setCtxAt c k { x.ctxAt k with status := .issuing }
  | .entry i e l =>
    let h := (x.cls e.msg.cls).handler
    let t : Task := { cls := BitVec.ofNat 8 e.msg.cls, launch := l, bulk := !e.inner && bulkNet e.msg.vnet
                      gen := if e.start.isSome then 0 else (x.cls e.msg.cls).gen }
    let mcls := e.msg.vnet * 256 + e.msg.cls
    let p := x.effPrio s.now e
    let y := match e.start with
      | some (pc, prv, xid) => (x.ctxAt k).startTask s.now (s.startOf l) e.msg.pay e.msg.src mcls p (some xid) prv pc t
      | none => (x.ctxAt k).startTask s.now (s.startOf l) e.msg.pay e.msg.src mcls p none h.prv h.addr t
    let s1 := ((s.setCore c { x.setCtx k y with inbox := dropAt x.inbox i }).startIf e.counted c).acquireStart c k e.rels
    if e.msg.cls = 0 then { s1 with misses := s1.misses.filter fun q => q ≠ (e.msg.pay.get 0, none, c) } else s1
  | .fork f =>
    let e := x.cls f.cls.toNat
    let own := if supervisorClass f.cls.toNat then none else s.resident c
    let t : Task := { cls := f.cls, launch := own, bulk := true, gen := e.gen }
    let y := (x.ctxAt k).startTask s.now (s.startOf own) f.pay (mkSrc s.pkg f.core f.ctx f.prv 0) (3 * 256 + f.cls.toNat) (x.forkPrio f) none
      e.handler.prv e.handler.addr t
    ((s.setCore c { x.setCtx k y with deque := x.deque.dropLast }).startIf f.launch.isSome c).acquireStart c k [s.forkRelease f]
/-- CONTEXT_SELECT (R255): when no context of the core issues. -/
def execContextSelect (core : CoreId) (s : State) : Host.Outcome State Fault Refusal :=
  if !s.coreUp core || !((s.core core).inState .issuing).isEmpty then .next s else
  let s1 := s.refill core
  match s1.choose core with
  | none => .next s1
  | some w => .next (s1.take core w)

/-! ## Stealing (R271) -/

/-- The launch resident on a core's partition, when the core takes part in it. -/
def State.launchAt (s : State) (c : CoreId) : Option Launch :=
  (s.resident c).bind fun l => s.launches.find? fun x => x.id = l && x.st = .resident && x.cores.contains c
/-- Other cores of the launch within its stealing domain: forge, cluster, die or package (R271, R345). -/
def Launch.victims (x : Launch) (c : CoreId) : List CoreId :=
  x.cores.filter fun d => d ≠ c && inScope (descNum x.desc 20 1 + 1) (partyOf c) (partyOf d)
/-- One draw of xorshift32 (R36). -/
def xorshift (x : BitVec 32) : BitVec 32 :=
  let x := x ^^^ (x <<< 13)
  let x := x ^^^ (x >>> 17)
  x ^^^ (x <<< 5)
/-- STEAL_ATTEMPT (R271): an idle core asks a victim of its domain, after its back-off. -/
def execStealAttempt (core : CoreId) (s : State) : Host.Outcome State Fault Refusal :=
  let x := s.core core
  match s.launchAt core with
  | none => .next s
  | some l =>
    let v := l.victims core
    if x.stealing || (x.inState .free).isEmpty || x.bulkFull || x.inbox.any (!·.held) || !x.deque.isEmpty
        || !x.spilled.isEmpty || s.now < x.nextSteal || v.isEmpty || !s.coreUp core then .next s
    else
      let victim := (v[Config.pick s.tick 4 % v.length]?).getD core
      .next (({ s with steals := s.steals ++ [(core, victim)] }).setCore core { x with steal := xorshift x.steal, stealing := true })
/-- STEAL_REQUEST (R271): the victim's done unit hands over its oldest entry, when the stores that its FORK releases have
been performed (R172), or answers empty; each empty answer doubles the wait, to 4,096 cycles at most. -/
def execStealRequest (k : Nat) (s : State) : Host.Outcome State Fault Refusal :=
  match s.steals[k]? with
  | none => .next s
  | some (thief, victim) =>
    let gone := { s with steals := dropAt s.steals k }
    let v := s.core victim
    if v.deque.isEmpty && v.spilled.isEmpty then
      let x := s.core thief
      .next (gone.setCore thief { x with stealing := false, nextSteal := s.now + x.backoff, backoff := min 4096 (2 * x.backoff) })
    else match gone.takeOldest victim fun f => (s.ctxAt f.core f.ctx).storesDone f.upTo with
      | none => .next s
      | some (f, s1) =>
        .next (s1.setCore thief { s1.core thief with
          deque := (s1.core thief).deque ++ [f], stealing := false, backoff := 64, nextSteal := 0 })

/-! ## The done tree (R272, R273, R332) -/

/-- The class-5 spill block of a core holds TAIL ≠ HEAD, or cannot be read (R332): the done unit reads it at supervisor
privilege, with the bank-hash key of context 0. -/
def State.spillOpen (s : State) (c : CoreId) : Bool :=
  match ((s.core c).cls 5).block with
  | none => false
  | some (b, root) =>
    let i : Issuer := { core := c, priv := 1, root := root, hkey := (s.ctxAt c 0).ctl.hkey }
    match peek s i b.toNat, peek s i (b.toNat + 8) with
    | some h, some t => h ≠ t
    | _, _ => true
/-- Engine and heap operations of a core that are outstanding (R272). -/
def State.engineOpen (s : State) (c : CoreId) : Bool :=
  let x := s.core c
  (s.xfers.any fun t => t.iss.core = c && t.st ≠ .complete) || s.ranges.any (·.iss.core = c) || s.shoots.any (·.iss.core = c)
    || s.partops.any (·.iss.core = c) || (s.heaps.any fun h => h.2.ops.any (·.iss.core = c)) || !x.cmds.isEmpty
    || !x.started.isEmpty || x.ctx.toList.any fun k => !k.bsops.isEmpty || match k.grant with
      | some g => !g.done || !g.taking.isEmpty
      | none => false
/-- A core is quiescent for its launch (R272). -/
def State.quiescent (s : State) (c : CoreId) (l : Nat) : Bool :=
  let x := s.core c
  x.ctx.toList.all (fun k => k.sendq.isEmpty && k.stores.isEmpty && match k.task with
      | some t => t.launch ≠ some l
      | none => true)
    && !(x.inbox.any (·.counted)) && x.deque.isEmpty && x.spilled.isEmpty && !s.engineOpen c && !s.spillOpen c
/-- A done record as one word. -/
def DoneUnit.word (d : DoneUnit) : Word :=
  BitVec.ofNat 64 (d.code.toNat * 2 ^ 56 + d.flags.toNat * 2 ^ 48 + d.count.toNat)
/-- The totals that a core reports for its wave: its own and its children's (R273). -/
def DoneUnit.totals (d : DoneUnit) : Nat × Nat × Word :=
  let mine := d.reports.filter fun r => r.2.1 = d.wave
  let u := mine.foldl (fun (a : DoneUnit) r => a.merge r.2.2.1) d
  (d.sent + (mine.map fun r => r.2.2.2.1).sum, d.started + (mine.map fun r => r.2.2.2.2).sum, u.word)
/-- The next wave; at the root, the start of it (R273). -/
def DoneUnit.next (d : DoneUnit) : DoneUnit :=
  { d with wave := d.wave + 1, begun := if d.parent.isNone then d.wave + 1 else d.begun, reports := d.reports.filter fun r => r.2.1 ≠ d.wave }
/-- DONE_WAVE_REPORT (R273): in a wave that the root has started, a quiescent core, every child of which has reported, reports to
its parent; at the root two equal waves with SENT equal to STARTED complete the launch, and no wave starts after it. -/
def execDoneWaveReport (core : CoreId) (s : State) : Host.Outcome State Fault Refusal :=
  let x := s.core core
  let d := x.done
  match s.launchAt core with
  | none => .next s
  | some l =>
    if !d.inTree || (s.core l.root).done.begun < d.wave || !s.quiescent core l.id || !s.coreUp core
        || !(d.children.all fun c => d.reports.any fun r => r.1 = c && r.2.1 = d.wave) then .next s
    else
      let t := d.totals
      match d.parent with
      | some p =>
        let m : Msg := ⟨mkSrc s.pkg core 0 1 0, mkDesc s.pkg p 3 63 3 (s.part (s.partOf core)).key.toNat,
          #v[t.2.2, BitVec.ofNat 64 t.1, BitVec.ofNat 64 t.2.1, BitVec.ofNat 64 d.wave, 0, 0]⟩
        .next (({ s with mesh := s.mesh ++ [{ msg := m, notice := true }] } : State).setCore core { x with done := d.next })
      | none =>
        if d.last = some t && t.1 = t.2.1 then
          .next ((s.setCore core { x with done := { d.next with inTree := false, begun := d.begun } }).setLaunch
            { l with st := .finished, status := t.2.2, durBase := l.durBase + (s.now - l.durFrom) })
        else .next (s.setCore core { x with done := { d.next with last := some t } })

end Sys2Proof.Machine
end

