-- ==== Sys2Proof/Machine/Frames.lean ====
section
/-! DEFINITION. The events of bank roles (R278, R279), frame zeroing (R368, R369), shootdowns (R250) and partition changes
(R253, R341, R343). -/

namespace Sys2Proof.Machine

/-- Bytes become 0, their words empty, unpoisoned and without tag, where a key is named; what they held is gone. -/
def zeroWhere (m : Memory) (p : Nat → Bool) : Memory :=
  { m.forget fun d => p (8 * d) with
    bytes := m.bytes.filter fun c => !p c.1
    full := m.full.filter fun d => !p (8 * d)
    poison := m.poison.filter fun d => !p (8 * d)
    stale := m.stale.filter fun t => !p (t.1 / 2 * 8) }

/-! ## Bank roles (R278, R279) -/

/-- A role word that R279 admits. -/
def roleOk (role : Word) : Bool :=
  (List.range 32).all (fun b => fld role (2 * b) 2 ≠ 3) && [0, 1, 2, 4, 8, 16, 32].contains (scratchBanks role).length
/-- A configured ring covers a bank that would leave the tensor-operand-buffer role. -/
def Forge.ringBlocks (f : Forge) (role : Word) : Bool :=
  f.rings.toList.any fun r => match r.conf with
    | some w => (ringBanks w).any fun b => f.roleOf b = 2 && fld role (2 * b) 2 ≠ 2
    | none => false
/-- The bank of a forge that a memory key lies in. -/
def bankOf (f : ForgeId) (k : Nat) : Option Nat :=
  let o := k - (keySram + f.toNat * 2 ^ 21)
  if keySram + f.toNat * 2 ^ 21 ≤ k && o < 2 ^ 20 then some (o / 32768) else none
/-- A forge cache gives up its lines, clean ones all (R279, R288). -/
def Memory.dropForge (m : Memory) (f : ForgeId) : Memory :=
  if m.lines.any fun l => l.2.forges.contains f then
    { m with lines := m.lines.map fun l => (l.1, { l.2 with forges := l.2.forges.filter (· ≠ f) }) }
  else m
/-- A role word takes effect: banks that enter a role are zeroed, and all scratchpad banks when their set changes. When a bank
leaves the forge cache, the lines of the whole cache go. -/
def setRole (f : ForgeId) (role : Word) (s : State) : State :=
  let x := s.forge f
  if !roleOk role || x.ringBlocks role then s else
  let moved := scratchBanks role ≠ scratchBanks x.role
  let zero (b : Nat) : Bool :=
    let new := fld role (2 * b) 2
    (new ≠ 0 && new ≠ x.roleOf b) || (moved && new = 1)
  let m := zeroWhere s.mem fun k => match bankOf f k with
    | some b => zero b
    | none => false
  let less := (List.range 32).any fun b => x.roleOf b = 0 && fld role (2 * b) 2 ≠ 0
  { s.setForge f { x with role := role } with mem := if less then m.dropForge f else m }
/-- Who may write FRGROLE of a forge (R278). -/
def mayRole (s : State) (f : ForgeId) (by_ : Writer) : Bool :=
  match by_ with
  | .supervisor p => p = s.clusterPartition (forgeCluster f.toNat)
  | .launchUnit => true
  | .switchEngine => true
  | _ => false
/-- FRGROLE_WRITE (R279): once every access in flight to the forge's SRAM has completed. -/
def execFrgroleWrite (forge : ForgeId) (v : Word) (by_ : Writer) (s : State) : Host.Outcome State Fault Refusal :=
  .next (if mayRole s forge by_ then setRole forge v s else s)

/-! ## Zeroing frames (R368, R369) -/

/-- The interleaved offset of a bank-linear offset (R355). -/
def deinterleave (o : Nat) : Nat :=
  let pc := o / pcBytes
  let w := o % pcBytes
  let u := w / 4096
  let k := pc / 32 % 16 * 16 + pc % 16
  forgeDie pc * dieBytes + (u * 256 + (k ^^^ hash32 u / 2 ^ 24)) * 4096 + w % 4096
/-- The frame of a request, as its physical base and size. -/
def frameOf (v : Word) : Nat × Nat :=
  (fld v 14 50 * 2 ^ 14, match fld v 0 2 with
    | 0 => 2 ^ 14
    | 1 => 2 ^ 21
    | _ => 2 ^ 30)
/-- The frame is aligned, in this package, and wholly on a die's stack. -/
def frameOk (s : State) (die : BitVec 2) (v : Word) : Bool :=
  let f := frameOf v
  let o := f.1 % 2 ^ 48
  let last := o + f.2 - 1
  fld v 0 2 ≠ 3 && f.1 % f.2 = 0 && f.1 / 2 ^ 51 = s.pkg.toNat && match f.1 / 2 ^ 48 % 8 with
    | 0 => o / dieBytes = die.toNat && last / dieBytes = die.toNat
    | 1 => last < 1024 * pcBytes &&
      (List.range (last / pcBytes + 1 - o / pcBytes)).all fun k => forgeDie (o / pcBytes + k) = die.toNat
    | _ => false
/-- A memory key lies in a frame. -/
def inFrame (f : Nat × Nat) (k : Nat) : Bool :=
  if k < keyDram || keySram ≤ k then false else
  let o := if f.1 / 2 ^ 48 % 8 = 0 then deinterleave (k - keyDram) else k - keyDram
  let b := f.1 % 2 ^ 48
  b ≤ o && o < b + f.2
/-- The frame is zeroed, its words are empty, and every copy of its lines in this package is dropped in both windows; what the
host has of them stays for the home to ask about (R376). -/
def zeroFrame (f : Nat × Nat) (m : Memory) : Memory :=
  let m := zeroWhere m (inFrame f)
  { m with
    lines := m.lines.map fun l => if inFrame f (l.1 / 2 * 64) then
        (l.1, { hostBit := l.2.hostBit, asked := l.2.asked, answered := l.2.answered, spent := l.2.spent }) else l
    hearth := m.hearth.filter fun r => !inFrame f (r.line / 2 * 64) }
/-- An NM operation at a bank engine whose word lies in a frame. -/
def NmOp.inFrame (op : NmOp) (s : State) (f : Nat × Nat) : Bool :=
  (op.lineOf s).any fun n => Machine.inFrame f (n / 2 * 64)
/-- The NM operations that reached the home of a frame before its zeroing are performed before it (R369). -/
def performBefore (f : Nat × Nat) (s : State) : State :=
  let mine := s.bank.filter fun b => b.2.2.inFrame s f
  if mine.isEmpty then s else
  let s1 := mine.foldl (fun s b => match b.2.2.places s with
    | .ok ps => performNm b.1 b.2.1 b.2.2 ps s
    | .error _ => s) s
  { s1 with bank := s1.bank.filter fun b => !b.2.2.inFrame s f }
/-- FZREQ_WRITE (R368): accepted or ignored; no later access sees what stood in the frame (R369). -/
def execFzreqWrite (die : BitVec 2) (v : Word) (by_ : Writer) (s : State) : Host.Outcome State Fault Refusal :=
  let x := s.die die
  if !(by_ = .supervisor 0 || by_ = .host) || !x.up || !frameOk s die v then .next s else
  let f := frameOf v
  let s1 := performBefore f s
  .next { s1.setDie die { x with fzreq := BitVec.ofNat 64 (f.1 + fld v 0 2), fzacc := x.fzacc + 1, zeroing := x.zeroing ++ [f] } with
          mem := zeroFrame f s1.mem }
/-- FRAME_ZEROING_COMPLETE (R369). -/
def execFrameZeroingComplete (die : BitVec 2) (s : State) : Host.Outcome State Fault Refusal :=
  let x := s.die die
  match x.zeroing with
  | [] => .next s
  | _ :: rest => .next (s.setDie die { x with zeroing := rest, fzdone := x.fzdone + 1 })

/-! ## Shootdowns (R250) -/

/-- A shootdown's range, as VBASE, NPAGES and PSZ give it, meets an interval of virtual addresses. -/
def shootHits (base n : Nat) (psz : BitVec 8) (lo len : Nat) : Bool :=
  n = 0 || (lo < base + n * pageSize psz.toNat && base < lo + len)
/-- Stores and NM operations of a core's contexts to the range are still to be performed, or transfers have yet to set words full
that they wrote there (R214, R306). -/
def State.usesRange (s : State) (base n : Nat) (psz : BitVec 8) (reach : CoreId → Bool) : Bool :=
  (s.cores.any fun c => reach (BitVec.ofNat 13 c.1) && c.2.ctx.toList.any fun k =>
      k.stores.any (fun st => shootHits base n psz st.va.toNat st.size) || k.accrd.any (fun r => shootHits base n psz r.va.toNat 16384)
        || k.nms.any fun o => shootHits base n psz o.va.toNat 8)
    || !s.mem.pending.isEmpty
    || (s.bank.any fun b => reach b.1 && shootHits base n psz b.2.2.va.toNat 8)
    || s.xfers.any fun x => reach x.iss.core && x.written.any fun w => shootHits base n psz (8 * w.1) 8
/-- A die holds a cluster of the partition. -/
def State.onDie (s : State) (p : BitVec 6) (d : BitVec 2) : Bool := (s.clustersOf p).any fun k => clusterDie k = d.toNat
/-- A translation cache lies in the reach of a shootdown by a partition. -/
def TlbHome.inReach (h : TlbHome) (s : State) (all : Bool) (p : BitVec 6) : Bool :=
  all || match h with
    | .instr c => s.partOf c = p
    | .data c => s.partOf c = p
    | .cluster k => s.clusterPartition k.toNat = p
    | .engine _ d => s.onDie p d
/-- SHOOTDOWN_COMPLETE (R250): the caches in the reach drop what matches, once every access that used it is done. -/
def execShootdownComplete (k : Nat) (s : State) : Host.Outcome State Fault Refusal :=
  match s.shoots[k]? with
  | none => .next s
  | some t =>
    if !s.commandReady t.iss then .next s
    else if !s.wordReady t.iss t.word then .next (s.askWord t.iss t.word) else
    let gone := { s with shoots := dropAt s.shoots k }
    match t.blk with
    | none => .next (gone.engineWord t.iss t.word (codeWord 6))
    | some (base, n, psz, all, root) =>
      let mine (c : CoreId) : Bool := all = 1 || s.partOf c = s.partOf t.iss.core
      if s.usesRange base.toNat n.toNat psz mine then .next s else
      let hit (e : TlbEntry) : Bool :=
        e.home.inReach s (all = 1) (s.partOf t.iss.core) && (root = 0 || e.root.toNat * 65536 = root.toNat)
          && shootHits base.toNat n.toNat psz (e.base * reach e.lvl.toNat) (reach e.lvl.toNat)
      .next (({ gone with tlb := gone.tlb.filter fun e => !hit e }).engineWord t.iss t.word (codeWord 0))

/-! ## Partitions (R253, R341, R343) -/

/-- Fields of a PARTSET block. -/
def setMask (b : BitVec 512) : List Nat := (List.range 128).filter fun c => bit b c
def setKey (b : BitVec 512) : BitVec 16 := BitVec.ofNat 16 (fld b 128 16)
def setPart_ (b : BitVec 512) : Nat := fld b 144 8
def setOp (b : BitVec 512) : Nat := fld b 152 8
/-- A block that R253 calls bad. -/
def setBad (s : State) (b : BitVec 512) : Bool :=
  fld b 160 352 ≠ 0 || 2 < setOp b || setPart_ b = 0 || 63 < setPart_ b
    || (setOp b = 0 && ((setMask b).isEmpty || bit b 0
      || (setMask b).any fun c => (s.die (BitVec.ofNat 2 (clusterDie c))).off.contains (BitVec.ofNat 7 c)))
/-- The codes of R253 that apply. -/
def setCodes (s : State) (b : BitVec 512) : List Nat :=
  if setBad s b then [3] else
  let p := s.part (BitVec.ofNat 6 (setPart_ b))
  (if setOp b = 0 && (setMask b).any fun c => s.clusterPartition c ≠ 0 then [1] else [])
    ++ (if p.resident.isSome then [2] else [])
    ++ (if (setOp b = 0) = p.formed then [4] else [])
/-- Every core of a cluster gets a key (R343). -/
def keyCluster (key : BitVec 16) (s : State) (c : Nat) : State :=
  (clusterCores c).foldl (fun s q => if (s.core q).pkey = key then s else s.setCore q { s.core q with pkey := key }) s
/-- A cluster moves to a partition. -/
def moveCluster (p : BitVec 6) (s : State) (c : Nat) : State :=
  { s with clusterPart := if p = 0 then Assoc.del s.clusterPart c else Assoc.put s.clusterPart c p }
/-- A partition is formed, dissolved or rekeyed. -/
def changePart (b : BitVec 512) (s : State) : State :=
  let p := BitVec.ofNat 6 (setPart_ b)
  let x := s.part p
  let old := s.clustersOf p
  match setOp b with
  | 0 =>
    let s1 := (setMask b).foldl (moveCluster p) s
    (setMask b).foldl (keyCluster (setKey b)) (s1.setPart p { x with formed := true, key := setKey b })
  | 1 =>
    let s1 := old.foldl (moveCluster 0) s
    old.foldl (keyCluster (s.part 0).key) (s1.setPart p { x with formed := false })
  | _ => old.foldl (keyCluster (setKey b)) (s.setPart p { x with key := setKey b })
/-- PARTSET_COMPLETE (R253): where more than one code applies, any of them. -/
def execPartsetComplete (k : Nat) (s : State) : Host.Outcome State Fault Refusal :=
  match s.partops[k]? with
  | none => .next s
  | some t =>
    if !s.commandReady t.iss then .next s
    else if !s.wordReady t.iss t.word then .next (s.askWord t.iss t.word) else
    let gone := { s with partops := dropAt s.partops k }
    let codes := setCodes s t.blk
    match codes[Config.pick s.tick 2 % codes.length]? with
    | some c => .next (gone.engineWord t.iss t.word (codeWord c))
    | none => .next ((changePart t.blk gone).engineWord t.iss t.word (codeWord 0))

end Sys2Proof.Machine
end

