-- ==== Sys2Proof/Machine/Replay.lean ====
section
/-! DEFINITION. The repetition buffer on instruction words (R182, R183): which words are recordable, and the word that a
pass performs after staggering. -/

namespace Sys2Proof.Machine

/-- A recordable 32-bit word (R182). -/
def recordable32 (w : Nat) : Bool :=
  let maj := nbits w 7 6
  let fn3 := nbits w 29 3
  if maj = 0x1A then fn3 < 2
  else if maj = 0x1C then nbits w 25 4 < 7 && nbits w 21 4 < 7
  else if maj = 0x1D then false
  else if maj = 0x23 then nbits w 28 4 = 0
  else if maj = 0x2F then fn3 < 2
  else if maj = 0x30 then fn3 = 0 || fn3 = 3
  else (0x18 ≤ maj && maj ≤ 0x1E) || (0x20 ≤ maj && maj ≤ 0x24) || (0x2C ≤ maj && maj ≤ 0x2E)
/-- A recordable 16-bit word: the CV forms (R75, R182). -/
def recordable16 (w : Nat) : Bool := nbits w 13 3 = 6

/-- A field of a word moved on by a stagger, modulo its own range (R183). -/
def stagger (w lo len by_ : Nat) : Nat :=
  w - nbits w lo len * 2 ^ lo + (nbits w lo len + by_) % 2 ^ len * 2 ^ lo

/-- The V format fields that name v registers (R84, R126): vd and va, vb where it is one, vc in three-source forms. -/
def staggerV (w k : Nat) : Nat :=
  let maj := nbits w 7 6
  let fn := nbits w 28 4
  let w := stagger (stagger w 2 4 k) 16 4 k
  let unary := (maj = 0x20 && (fn = 6 || fn = 8)) || (maj = 0x21 && fn = 3)
    || (maj = 0x24 && !(fn = 4))
  let w := if unary then w else stagger w 20 4 k
  if (maj = 0x20 && fn = 3) || (maj = 0x22 && fn = 3) || (maj = 0x23 && fn = 0) then stagger w 24 4 k else w

/-- The FR format fields that name f registers (R83, R115). -/
def staggerFR (w k : Nat) : Nat :=
  let maj := nbits w 7 6
  let fn := nbits w 29 3
  let w := stagger (stagger w 2 5 k) 16 5 k
  if (maj = 0x18 && fn = 4) || (maj = 0x1E && fn < 2) then w else stagger w 21 5 k

/-- The word that pass p of a replay performs (R183). -/
def staggered (r : Repeat) (p : Nat) (w : Nat) (long : Bool) : Nat :=
  let kv := p * r.sv.toNat
  let kf := p * r.sf.toNat
  if !long then stagger (stagger w 4 4 kv) 0 4 kv else
  let maj := nbits w 7 6
  if 0x20 ≤ maj && maj ≤ 0x24 then staggerV w kv
  else if maj = 0x1C then stagger (stagger w 2 5 kf) 16 5 kf
  else if maj ≤ 0x1E then staggerFR w kf
  else
    let w := stagger w 0 1 (p * r.sacc.toNat)
    if maj = 0x2C || (maj = 0x2D && nbits w 29 3 = 5) || (maj = 0x30 && nbits w 29 3 = 3) then stagger w 24 5 kf else w

end Sys2Proof.Machine
end

