-- ==== Sys2Proof/Machine/Fetch.lean ====
section
/-! DEFINITION. What a step does around an instruction: the issuing context (R254), fetching its words (R69), the
repetition buffer (R182 to R184), device-register writes as events (R141), and placing a program's first instruction. -/

namespace Sys2Proof.Machine

/-- A context that pre-emption has stopped completes the instruction that it has issued: a load or an atomic whose answer is
out, an ALIASF, an ACCRD (R162, R350). -/
def Ctx.finishing (x : Ctx) : Bool := x.wait = some .reply || x.aliasing.isSome || x.accrd.isSome
/-- The context of a core that issues, unless its core is absent (R254, R402): one that pre-emption has stopped only completes
what it has issued, beside the one that issues (R350). -/
def issuingCtx (s : State) (c : CoreId) : Option CtxId :=
  if !s.coreUp c then none else
  match [(0 : CtxId), 1, 2, 3].filter fun k =>
    let x := s.ctxAt c k
    x.status = .issuing && (!x.halted || x.finishing) with
  | [k] => some k
  | l => l[Config.pick s.tick 9 % l.length]?

/-- The instruction word at the pc: its bits, and whether it is 32 bits long (R69). -/
def fetchWord (s : State) : Res ⊕ (Nat × Bool × State) :=
  match fetchHalf s s.me.pc with
  | .inl r => .inl r
  | .inr (h, s1) =>
    if h / 2 ^ 13 = 7 then
      match fetchHalf s1 (s1.me.pc + 2) true with
      | .inl r => .inl r
      | .inr (h2, s2) => .inr (h + 2 ^ 16 * h2, true, s2.dropAnswers true)
    else .inr (h, false, s1.dropAnswers true)

/-- A reserved encoding (R88). An illegal instruction while recording discards the recording (R182). -/
def illegalWord (w : Nat) (s : State) : Res :=
  .trap (illegal w) (if s.me.rep.recording then s.setMe { s.me with rep := {} } else s)

/-- While recording, an instruction is recorded and not executed; what cannot be recorded is illegal (R182). REPE is
run as it stands. -/
def recordStep (w : Nat) (long isRepe : Bool) (s : State) : Option Res :=
  let x := s.me
  if !x.rep.recording || isRepe then none else
  if (if long then recordable32 w else recordable16 w) && x.rep.buf.length < 32 then
    some (.ok (.fall (if long then 4 else 2))
      (s.setMe { x with rep := { x.rep with buf := x.rep.buf ++ [(x.pc, BitVec.ofNat 32 w, long)] } }))
  else some (illegalWord w s)

/-- The word that the replay of a core's issuing context performs next, with that context acting (R183). -/
def replayWord (s : State) (c : CoreId) : Option (Nat × Bool × State) :=
  match issuingCtx s c with
  | none => none
  | some k =>
    let x := s.ctxAt c k
    match x.replay with
    | none => none
    | some r =>
      if r.halted || x.halted then none else
      match x.rep.buf[r.pos]? with
      | none => none
      | some (_, w, long) => some (staggered x.rep r.pass w.toNat long, long, { s with cur := ⟨c, k, true⟩ })

/-- The event that a write of a device register is (R141, R344): the registers with a row of their own, else
REGISTER_WRITE. -/
noncomputable def deviceEvent (off : BitVec 48) (v : Word) (by_ : Writer) : Instr :=
  let o := off.toNat
  let q := BitVec.ofNat 10 ((o - 0x02000000) / 0x40)
  if 0x01000000 ≤ o && o < 0x01000000 + 1024 * 0x1000 && o % 0x1000 = 0 then
    .frgroleWrite (BitVec.ofNat 10 ((o - 0x01000000) / 0x1000)) v by_
  else if 0x02000000 ≤ o && o < 0x02010000 && o % 0x40 = 0x10 && by_ ≠ .user then .lqtailDoorbell q v
  else if 0x02000000 ≤ o && o < 0x02010000 && o % 0x40 = 0x38 && by_ ≠ .user then .cqheadWrite q v
  else if 0x03000000 ≤ o && o < 0x03004000 && o % 0x1000 = 0 && by_ ≠ .user then
    .fixbellRing (BitVec.ofNat 2 ((o - 0x03000000) / 0x1000))
  else if 0x03000000 ≤ o && o < 0x03004000 && o % 0x1000 = 8 then .fzreqWrite (BitVec.ofNat 2 ((o - 0x03000000) / 0x1000)) v by_
  else if o = 0x05001020 && (by_ = .host || by_ = .supervisor 0) then .attestRequest v
  else .registerWrite off v by_
/-- The event that a command of DIECTL is (R400). -/
noncomputable def diectlEvent (die : BitVec 2) (code : BitVec 4) : Instr :=
  if code = 1 then .diectlFence die
  else if code = 2 then .diectlWarmReset die
  else if code = 3 then .diectlColdReset die
  else .diectlRejoin die
/-- The host reaches the registers over CXL.io (R344, R374). -/
def State.hostReaches (s : State) : Bool := s.islandUp && s.island.hostUp
/-- A move that an agent outside the cores can make by itself: writes of registers by contexts and units come from the
agenda alone, where their stores put them, and the host's come over its link. -/
def fromOutside (s : State) (m : Move) : Bool :=
  let host (by_ : Writer) : Bool := by_ = .host && s.hostReaches
  match m with
  | .write _ _ by_ => host by_
  | .diectl _ _ => false
  | .event (.frgroleWrite _ _ by_) => host by_
  | .event (.fzreqWrite _ _ by_) => host by_
  | .event (.registerWrite _ _ by_) => host by_
  | .event (.lqtailDoorbell _ _) => s.hostReaches
  | .event (.cqheadWrite _ _) => s.hostReaches
  | .event (.fixbellRing _) => s.hostReaches
  | .event (.attestRequest _) => s.hostReaches
  | .event (.bbctlTrigset _) => s.hostReaches
  | .event (.bbctlFrozenClear _) => s.hostReaches
  | _ => true

/-- Bytes stored at consecutive offsets of the interleaved window of this package (R355). -/
def placeBytes (m : Memory) (o : Nat) : List Byte → Memory
  | [] => m
  | b :: t => placeBytes (m.setByte (keyDram + interleaved o) b) (o + 1) t

/-- A context of core 0 issues at 0x40_0000_0000, mapped by four tables of the layout of R354 and R357, where `bytes`
stand; the next move is its issue. -/
def placeProgram (s : State) (bytes : List Byte) : State :=
  let m := placeBytes s.mem 0x100000 (toBytes 0x110001 8)
  let m := placeBytes m 0x110800 (toBytes 0x120001 8)
  let m := placeBytes m 0x120000 (toBytes 0x121001 8)
  let m := placeBytes m 0x121000 (toBytes 0x4000007B 8)
  let m := placeBytes m 0x40000000 (bytes ++ List.replicate (4 - bytes.length) 0)
  let s := { s with mem := m, agenda := [.issue 0] }
  let x := s.ctxAt 0 0
  s.setCtxAt 0 0 { x with status := .issuing, pc := 0x4000000000, task := some { cls := 16 }, halted := false
                          ctl := { x.ctl with ptroot := 0x10 } }

end Sys2Proof.Machine
end

