-- ==== Sys2Proof/Machine/Launches.lean ====
section
/-! DEFINITION. Launches (R341 to R353): queues and doorbells, copying and checking descriptors, choosing, starting,
completing, pre-empting, saving and resuming. -/

namespace Sys2Proof.Machine

/-! ## Queues (R344) -/

/-- Fields of LQCTL. -/
def LaunchQ.en (q : LaunchQ) : Bool := bit q.lqctl 63
def LaunchQ.partNo (q : LaunchQ) : Nat := fld q.lqctl 16 6
def LaunchQ.maxPrio (q : LaunchQ) : Nat := fld q.lqctl 8 6
def LaunchQ.entries (q : LaunchQ) : Nat := 2 ^ fld q.lqctl 0 5
def LaunchQ.cqEntries (q : LaunchQ) : Nat := 2 ^ fld q.cqctl 0 5
/-- The completion ring is full (R349). -/
def LaunchQ.full (q : LaunchQ) : Bool := q.cqEntries ≤ (q.cqtail - q.cqhead).toNat
/-- LQTAIL_DOORBELL (R344); nothing answers while the island does not (R402). -/
def execLqtailDoorbell (q : BitVec 10) (v : Word) (s : State) : Host.Outcome State Fault Refusal :=
  let x := s.queue q
  if !s.islandUp || !x.en || x.entries < (v - x.lqhead).toNat then .next s else .next (s.setQueue q { x with lqtail := v })
/-- Records of a queue that wait for room in a full ring go on waiting until they are posted (R349). -/
def State.recordsWait (s : State) (q : BitVec 10) : State :=
  if (s.queue q).full && s.launches.any fun l => l.q = q && l.st = .finished then
    { s with launches := s.launches.map fun l => if l.q = q && l.st = .finished then { l with waits := true } else l }
  else s
/-- CQHEAD_WRITE (R344, R349). -/
def execCqheadWrite (q : BitVec 10) (v : Word) (s : State) : Host.Outcome State Fault Refusal :=
  if !s.islandUp then .next s else .next ((s.recordsWait q).setQueue q { s.queue q with cqhead := v })

/-! ## The launch unit's reads (R345) -/

/-- A byte's place through a launch's page tables. -/
def luPlace (s : State) (root : BitVec 48) (va : Nat) (acc : Acc) : Option Place :=
  if 2 ^ 56 ≤ va then none else
  match (walk s root va).outcome va acc 1 with
  | .error _ => none
  | .ok pa =>
    match place s 0 pa with
    | .error _ => none
    | .ok p => some p
/-- Every page of a range translates. -/
def luMaps (s : State) (root : BitVec 48) (va n : Nat) (acc : Acc) : Bool :=
  n = 0 || (va + n ≤ 2 ^ 56 && (List.range ((va + n - 1) / 2 ^ 14 + 1 - va / 2 ^ 14)).all fun k =>
    (luPlace s root (if k = 0 then va else (va / 2 ^ 14 + k) * 2 ^ 14) acc).isSome)
/-- The bytes at some places as a unit reads them at their homes, host lines fetched first (R290, R375). -/
def luBytes (s : State) (ps : List Place) : Option (List Byte × State) :=
  if ps.any fun p => s.poisoned p || !p.forEngine then none else
  let s1 := ps.foldl (fun s p => match p with
    | .host k => s.fillHost (k / 64) false
    | _ => s) s
  some (ps.map (engineByte s1), s1.engineReads none ps)
/-- `n` bytes of a launch's address space. -/
def luRead (s : State) (root : BitVec 48) (va n : Nat) : Option (List Byte × State) :=
  match (List.range n).mapM fun i => luPlace s root (va + i) .read with
  | none => none
  | some ps => luBytes s ps
/-- The lines of some tables of a descriptor come to their homes as the unit reads them (R290, R375): each table by the byte of the
descriptor that holds its address, and its length. -/
def State.luTakes (s : State) (d : List Byte) (l : List (Nat × Nat)) : State :=
  l.foldl (fun s q => ((luRead s (descRoot d) (descNum d q.1 8) q.2).map (·.2)).getD s) s

/-! ## Descriptors (R345, R346) -/

/-- The binding and done-tree tables, which are checked when a descriptor is copied. -/
def descTables (d : List Byte) : List (Nat × Nat) := [(8, 16 * descNum d 16 2), (40, 4 * descNum d 48 2)]

def descPart (d : List Byte) : BitVec 6 := BitVec.ofNat 6 (descNum d 18 1)
def descPrio (d : List Byte) : Nat := descNum d 19 1
/-- A done-tree entry: the core, its parent, and whether it is the root. -/
abbrev TreeEntry := CoreId × CoreId × Bool
/-- The done-tree table as read, none where an entry has a reserved bit. -/
def treeOf (l : List Byte) (n : Nat) : Option (List TreeEntry) :=
  (List.range n).mapM fun i =>
    let e := descNum l (4 * i) 4
    if nbits e 13 3 ≠ 0 || nbits e 29 2 ≠ 0 then none
    else some (BitVec.ofNat 13 (nbits e 0 13), BitVec.ofNat 13 (nbits e 16 13), e.testBit 31)
/-- From a core, parents lead to the root in at most `n` steps. -/
def reachesRoot (t : List TreeEntry) : Nat → CoreId → Bool
  | 0, _ => false
  | n + 1, c =>
    match t.find? fun e => e.1 = c with
    | none => false
    | some e => e.2.2 || reachesRoot t n e.2.1
/-- A done tree that R346 admits. -/
def treeOk (s : State) (p : BitVec 6) (t : List TreeEntry) : Bool :=
  t.all (fun e => s.partOf e.1 = p) && (t.map (·.1)).dedup.length = t.length && (t.filter (·.2.2)).length = 1
    && t.all fun e => reachesRoot t t.length e.1
/-- Bytes of a binding entry that are out of range. -/
def bindBad (l : List Byte) (i : Nat) : Bool :=
  descNum l (16 * i + 8) 1 < 16 || 62 < descNum l (16 * i + 9) 1 || descNum l (16 * i + 10) 6 ≠ 0
/-- Cluster 0 is fenced off, or its self-test, step 16, failed when it ran last, so that every descriptor is rejected (R407). -/
def State.noLaunch (s : State) : Bool := (s.die 0).off.contains 0 || s.island.failed 16
/-- Every address of a descriptor translates (R346). -/
def descMaps (s : State) (d : List Byte) : Bool :=
  let r := descRoot d
  let one (o n : Nat) (acc : Acc) : Bool := luMaps s r (descNum d o 8) n acc
  one 8 (16 * descNum d 16 2) .read && one 32 128 .read && one 40 (4 * descNum d 48 2) .read
    && one 56 (64 * descNum d 50 2) .read && one 64 (8192 * descNum d 72 4) .write && one 80 (descNum d 88 8) .write
    && (descNum d 96 8 = 0 || one 96 8 .write)
    && (List.range 8).all fun k => descNum d (128 + 8 * k) 8 = 0 || one (128 + 8 * k) 8 .read
/-- A descriptor that is rejected (R346), for the queue it came through. -/
def descBad (s : State) (q : LaunchQ) (d : List Byte) : Bool :=
  let nbind := descNum d 16 2
  let ncore := descNum d 48 2
  s.noLaunch || descNum d 21 1 ≠ 0 || descNum d 76 4 ≠ 0 || descNum d 112 16 ≠ 0 || descNum d 192 64 ≠ 0
    || descNum d 18 1 ≠ q.partNo || q.maxPrio < descPrio d || 3 < descNum d 20 1 || 240 < nbind
    || ncore = 0 || 8192 < ncore || !roleOk (BitVec.ofNat 64 (descNum d 24 8))
    || descNum d 88 8 < s.leastSave d (descPart d) || !descMaps s d
    || (match luRead s (descRoot d) (descNum d 8 8) (16 * nbind) with
      | none => true
      | some (l, _) => (List.range nbind).any (bindBad l))
    || (match (luRead s (descRoot d) (descNum d 40 8) (4 * ncore)).bind fun l => treeOf l.1 ncore with
      | none => true
      | some t => !treeOk s (descPart d) t)
/-- The places of the next descriptor of a queue, in the physical space (R344). -/
def LaunchQ.next (q : LaunchQ) (s : State) : Except Nat (List Place) :=
  placesOf s 0 ((List.range 256).map (q.lqbase.toNat + 256 * (q.lqhead.toNat % q.entries) + ·))
/-- A launch made of a descriptor. -/
def newLaunch (s : State) (no : BitVec 10) (q : LaunchQ) (d : List Byte) : Launch :=
  let l : Launch := { id := s.nextLaunch, q := no, index := q.lqhead.setWidth 32, desc := d, part := descPart d
                      prio := BitVec.ofNat 6 (descPrio d) }
  if descBad s q d then { l with st := .finished, status := 0xF400000000000000 } else
  match (luRead s (descRoot d) (descNum d 40 8) (4 * descNum d 48 2)).bind fun l => treeOf l.1 (descNum d 48 2) with
  | none => l
  | some t => { l with cores := t.map (·.1), root := ((t.find? (·.2.2)).map (·.1)).getD 0 }

/-! ## Choosing (R347, R353) -/

/-- The dependences of a launch, as their addresses. -/
def Launch.deps (l : Launch) : List Nat := ((List.range 8).map fun k => descNum l.desc (128 + 8 * k) 8).filter (· ≠ 0)
/-- Every dependence of a launch is full: a word that an LDF can read (R147); another package's home answers as it will. -/
def depsFull (s : State) (l : Launch) : Bool :=
  l.deps.all fun a => match luPlace s (descRoot l.desc) a .read with
    | some (.dram key _) => s.mem.isFull (key / 8)
    | some (.sram key) => s.mem.isFull (key / 8)
    | some (.remote pa) => Config.choice s.tick (2 ^ 53 + pa)
    | _ => false
/-- The moment a launch became eligible, among those found so at one test: launches of the same dependences at the same one,
others in any order (R347). -/
def Launch.moment (l : Launch) (s : State) (n : Nat) : Nat :=
  if l.deps.isEmpty then s.eligibleClock
  else s.eligibleClock + Config.pick s.tick (2 ^ 600 * (descRoot l.desc).toNat + fromBytes ((l.desc.drop 128).take 64)) % n
/-- Launches found eligible now get the moment; the test is an acquire at system scope (R347). -/
def State.markEligible (s : State) : State :=
  let new (l : Launch) : Bool := l.st = .waiting && l.order.isNone && depsFull s l
  let n := (s.launches.filter new).length
  if n = 0 then s else
  { s with launches := s.launches.map fun l => if new l then { l with order := some (l.moment s n) } else l
           eligibleClock := s.eligibleClock + n }.dropProxies 6
/-- LAUNCH_COPY (R344, R346): the descriptor is copied whole, LQHEAD counts, and a bad one completes at once. One without
dependences is eligible from this moment (R347). -/
def execLaunchCopy (q : BitVec 10) (s : State) : Host.Outcome State Fault Refusal :=
  let x := s.queue q
  if !x.en || x.lqtail = x.lqhead then .next s else
  match x.next s with
  | .error _ => .next s
  | .ok ps =>
    match luBytes s ps with
    | none => .next s
    | some (d, s1) =>
      let s1 := (s1.luTakes d (descTables d)).markEligible
      let l := newLaunch s1 q x d
      .next ({ s1.setQueue q { x with lqhead := x.lqhead + 1 } with
              launches := s1.launches ++ [l], nextLaunch := s1.nextLaunch + 1 } : State).markEligible
/-- Contexts of a saved core that belong to its launch. -/
def Core.savedCtx (x : Core) : List CtxId := [(0 : CtxId), 1, 2, 3].filter fun k => (x.ctxAt k).halted
/-- The ways a saved launch owns again, where all of them can be granted (R353): free ones, those of the launch `out` that it
displaces, those of other saved launches. -/
def regrant (s : State) (l : Launch) (out : Option Nat) : Option (List Owned) :=
  l.saved.cores.foldl (fun a c => c.2.savedCtx.foldl (fun a k =>
    match a, (c.2.ctxAt k).grant with
    | some w, some g =>
      if !g.done || g.failed then some w else
      let core := BitVec.ofNat 13 c.1
      let have_ (slice : BitVec 7) : Nat :=
        ((w.filter fun o => o.1 = slice && o.2.2.1 = core && o.2.2.2.1 = k && o.2.2.2.2 = some l.id).map fun o => o.2.1).sum
      s.claim ((g.slices.map fun z => (z, g.ways - have_ z)).filter fun n => n.2 ≠ 0) core k (some l.id) out w
    | a, _ => a) a) (some s.ways)
/-- A queue whose record waits for room in its completion ring starts no launch until the record is posted (R349). -/
def queueBlocked (s : State) (q : BitVec 10) : Bool :=
  s.launches.any fun l => l.q = q && l.st = .finished && (l.waits || (s.queue q).full)
/-- A launch that the unit may take for its partition: a saved one that R353 cannot yet resume is passed over (R347). -/
def launchReady (s : State) (p : BitVec 6) (l : Launch) : Bool :=
  l.part = p && ((l.st = .waiting && l.order.isSome && !queueBlocked s l.q)
    || (l.st = .saved && (regrant s l (s.part p).resident).isSome))
/-- `a` comes before `b` in the order of R347. -/
def launchBefore (a b : Launch) : Bool :=
  let key (l : Launch) : List Nat :=
    [62 - l.prio.toNat, if l.st = .saved then 0 else 1, l.order.getD 0, l.q.toNat, l.id]
  key a < key b
/-- The first launch of a partition in the order of R347. -/
def State.firstLaunch (s : State) (p : BitVec 6) : Option Launch :=
  (s.launches.filter (launchReady s p)).foldl (fun a l => match a with
    | none => some l
    | some b => if launchBefore l b then some l else some b) none
/-- The forges and the cores of a partition. -/
def State.forgesOf (s : State) (p : BitVec 6) : List ForgeId :=
  ((List.range 1024).filter fun f => s.clusterPartition (forgeCluster f) = p).map (BitVec.ofNat 10)
def State.coresOf (s : State) (p : BitVec 6) : List CoreId := (s.clustersOf p).flatMap clusterCores

/-! ## Starting (R348) -/

/-- A core changed, left alone where nothing changes. -/
def State.updCore (s : State) (c : CoreId) (f : Core → Core) : State :=
  if f (s.core c) = s.core c then s else s.setCore c (f (s.core c))
/-- Messages of a core's inbox whose classes a launch unbinds are held, or diverted (R259). -/
def State.holdUnbound (s : State) (c : CoreId) : State :=
  (((s.core c).inbox.map fun e => e.msg.cls).eraseDups).foldl (fun s k => s.holdLost c 0 k) s
/-- Step 1 on one core: its weight, and classes 16 to 255 unbound. -/
def Core.clearFor (x : Core) (w : Nat) : Core :=
  { x with awt := if w = 0 then 1 else BitVec.ofNat 4 w, classes := x.classes.filter fun p => p.1 < 16 }
/-- Step 3 on one context; what it fetches from then on is no older than the launch. -/
def Ctx.forLaunch (x : Ctx) (root : BitVec 48) (hkey : BitVec 16) (rgn : Vector Word 16) (fg : BitVec 16) (now time : Nat) : Ctx :=
  { x with
    seq := 0, xfer := 1, fetchAt := time
    ctl := { cycFrom := now, src := x.ctl.src, mcls := x.ctl.mcls, prio := x.ctl.prio, priv := x.ctl.priv
             ptroot := root, hkey := hkey, rgn := rgn, fgmask := fg } }
/-- Steps 2 to 4 on a core of the done tree. -/
def Core.forLaunch (x : Core) (c : CoreId) (d : List Byte) (binds rgns : List Byte) (t : List TreeEntry) (now time : Nat) : Core :=
  let x := (List.range (descNum d 16 2)).foldl (fun x i =>
    x.bind now (descNum binds (16 * i + 8) 1) 1
      ⟨BitVec.ofNat 64 (descNum binds (16 * i) 8), 0, BitVec.ofNat 6 (descNum binds (16 * i + 9) 1)⟩ none) x
  let rgn := Vector.ofFn fun (i : Fin 16) => BitVec.ofNat 64 (descNum rgns (8 * i.val) 8 / 8 * 8)
  let me := t.find? fun e => e.1 = c
  { x with
    ctx := x.ctx.map fun k => k.forLaunch (descRoot d) (BitVec.ofNat 16 (descNum d 22 2)) rgn
      (BitVec.ofNat 16 (descNum d 104 8)) now time
    done := { inTree := true, begun := 1, parent := me.bind fun e => if e.2.2 then none else some e.2.1
              children := (t.filter fun e => !e.2.2 && e.2.1 = c).map (·.1) }
    steal := BitVec.ofNat 32 c.toNat, backoff := 64, nextSteal := 0, stealing := false }
/-- Step 5: the i-th initial message, counted where it is a launch message. The launch unit has acquired at system scope (R347),
and the tasks it starts see what that covers. -/
def initialMsg (l : Launch) (msgs : List Byte) (s : State) (i : Nat) : State :=
  let w (k : Nat) : Word := BitVec.ofNat 64 (descNum msgs (64 * i + 8 * k) 8)
  let m : Msg := ⟨mkSrc s.pkg l.root 0 0 0, cleanMsgDesc (w 1), #v[w 2, w 3, w 4, w 5, w 6, w 7]⟩
  let counted := s.isLaunchMsg l.root (some l.id) m
  { s.countIf counted l.root with mesh := s.mesh ++
    [{ msg := m, counted := counted, who := some (l.root, 0), rels := [⟨{ hostTag with time := s.mem.time }, none⟩] }] }
where
  cleanMsgDesc (h : Word) : Word := insertBits h 16 6 0
/-- The launch starts on its partition (R348). -/
def startLaunch (l : Launch) (s : State) : State :=
  let d := l.desc
  let r := descRoot d
  match luRead s r (descNum d 8 8) (16 * descNum d 16 2), luRead s r (descNum d 32 8) 128,
      (luRead s r (descNum d 40 8) (4 * descNum d 48 2)).bind (fun b => treeOf b.1 (descNum d 48 2)),
      luRead s r (descNum d 56 8) (64 * descNum d 50 2) with
  | some binds, some rgns, some t, some msgs =>
    let s := s.luTakes d (descTables d ++ [(32, 128), (56, 64 * descNum d 50 2)])
    let s := (s.forgesOf l.part).foldl (fun s f => setRole f (BitVec.ofNat 64 (descNum d 24 8)) s) s
    let s := (s.coresOf l.part).foldl (fun s c =>
      (s.updCore c fun x => x.clearFor (nbits (descNum d 52 4) (4 * forgeIndex c) 4)).holdUnbound c) s
    let s := l.cores.foldl (fun s c => s.updCore c fun x => x.forLaunch c d binds.1 rgns.1 t s.now s.mem.time) s
    let s := { s with xfers := s.xfers.filter fun x => !(x.st = XferState.complete && s.partOf x.iss.core = l.part) }
    let s := (s.setLaunch { l with st := .resident, durFrom := s.now, startAt := s.mem.time }).setPart l.part
      { s.part l.part with resident := some l.id }
    let s := (List.range (descNum d 50 2)).foldl (initialMsg l msgs.1) s
    s.log 0x07 4 l.root.toNat l.q.toNat 0 0
  | _, _, _, _ => s
/-- LAUNCH_START (R348): the first launch of a free partition, where it has not been started before. -/
def execLaunchStart (part : BitVec 6) (s : State) : Host.Outcome State Fault Refusal :=
  let s1 := s.markEligible
  if (s1.part part).resident.isSome || s1.noLaunch || (s1.forgesOf part).any (fun f => s1.forgeBusy f none) then .next s1
  else match s1.firstLaunch part with
  | none => .next s1
  | some l => .next (if l.st = .waiting then startLaunch l s1 else s1)

/-! ## Completion (R349) -/

/-- The grants of an ended launch return to cache (R349). -/
def endGrants (l : Launch) (s : State) : State :=
  let s1 := (s.cores.map fun c => BitVec.ofNat 13 c.1).foldl (fun s c => s.updCore c fun x => { x with ctx := x.ctx.map fun k => { k with
    grant := k.grant.bind fun g => if g.iss.launch = some l.id then none else some g
    bsops := k.bsops.filter fun o => o.launch ≠ some l.id } }) s
  { s1 with ways := s1.ways.filter fun o => o.2.2.2.2 ≠ some l.id }
/-- The partition of a finished launch becomes free. -/
def freePart (l : Launch) (s : State) : State :=
  if (s.part l.part).resident = some l.id then
    let s1 := (endGrants l s).setPart l.part { s.part l.part with resident := none, halting := false }
    s1.log 0x08 4 l.root.toNat l.q.toNat l.status 0
  else s
/-- The descriptor was rejected: nothing of it ran (R346). -/
def Launch.rejected (l : Launch) : Bool := l.cores.isEmpty
/-- The completion record. -/
def Launch.record (l : Launch) (q : LaunchQ) : List Byte :=
  toBytes (l.status.toNat + l.durBase * 2 ^ 64 % 2 ^ 128) 16 ++ toBytes l.q.toNat 4 ++ toBytes l.index.toNat 4
    ++ toBytes l.preempts.toNat 4 ++ toBytes (if q.cqtail.toNat.testBit (fld q.cqctl 0 5) then 1 else 0) 4
/-- LAUNCH_COMPLETION_POST (R349): the partition is freed; where the ring has room, the record is posted, its vector fires
(R374), and DONEW is written, but not for a rejected descriptor, whose addresses name nothing that can be relied on. -/
def execLaunchCompletionPost (k : Nat) (s : State) : Host.Outcome State Fault Refusal :=
  match s.launches[k]? with
  | none => .next s
  | some l =>
    if l.st ≠ .finished then .next s else
    let s1 := freePart l s
    let q := s1.queue l.q
    let i : Issuer := { core := l.root, priv := 1, root := descRoot l.desc }
    let donew := if l.rejected || descNum l.desc 96 8 = 0 then none else some (BitVec.ofNat 64 (descNum l.desc 96 8))
    match placesOf s1 0 ((List.range 32).map (q.cqbase.toNat + 32 * (q.cqtail.toNat % q.cqEntries) + ·)) with
    | .error _ => .next s1
    | .ok ps =>
      if q.full then .next (s1.recordsWait l.q)
      else if !(ps.all Place.forEngine) || !s1.flitsReady 2 (remotePas ps) then .next s1
      else match homeWaits s1 true ps with
        | some (.ask n w) => .next (s1.ask w n)
        | some _ => .next s1
        | none =>
          if !s1.wordReady i donew then .next (s1.askWord i donew) else
          let s2 := ps.foldl (fun s p => match p with
            | .host key => s.fillHost (key / 64) true
            | _ => s) s1
          let tag : Tag := { core := l.root, ctx := 0, scope := 6, page := 0, launch := some l.id }
          let s3 := engineStore (s2.putFlits 2 (remotePas ps)) none (ps.zip (l.record q)) (some tag)
          .next (({ s3.setQueue l.q { q with cqtail := q.cqtail + 1 } with
            msix := l.q.toNat :: s3.msix, launches := dropAt s3.launches k } : State).engineWord i donew l.status (some tag))

/-! ## Pre-emption (R350, R351) -/

/-- The task of a context, if any, belongs to a launch; a context with no task belongs to the resident launch. -/
def Ctx.ofLaunch (x : Ctx) (id : Nat) : Bool :=
  match x.task with
  | none => true
  | some t => t.launch = some id
/-- A context with a task of the launch stops at an instruction boundary; it only completes what it has issued (R350). -/
def Ctx.halt (x : Ctx) (id : Nat) : Ctx := if x.task.isSome && x.ofLaunch id then { x with halted := true } else x
/-- The resident launch of a partition. -/
def State.residentOf (s : State) (p : BitVec 6) : Option Launch :=
  (s.part p).resident.bind fun id => s.launches.find? fun l => l.id = id && l.st = .resident
/-- The cores that a launch runs on: those of its done tree, and others of its partition that hold a task of it (R342, R350). -/
def State.launchCores (s : State) (l : Launch) : List CoreId :=
  l.cores ++ (s.cores.filterMap fun c =>
    let k := BitVec.ofNat 13 c.1
    if !l.cores.contains k && s.partOf k = l.part && (c.2.ctx.toList.any fun x => x.task.isSome && x.ofLaunch l.id) then some k
    else none)
/-- The resident launch's contexts stop issue. -/
def haltLaunch (l : Launch) (s : State) : State :=
  ((s.launchCores l).foldl (fun s c => s.updCore c fun x => { x with ctx := x.ctx.map (Ctx.halt · l.id) }) s).setPart l.part
    { s.part l.part with halting := true }
/-- PREEMPT_HALT (R347, R350): the first launch of the partition has a higher priority than the resident one. -/
def execPreemptHalt (part : BitVec 6) (s : State) : Host.Outcome State Fault Refusal :=
  let s1 := s.markEligible
  match s1.residentOf part, s1.firstLaunch part with
  | some r, some l => .next (if r.prio < l.prio && !(s1.part part).halting then haltLaunch r s1 else s1)
  | _, _ => .next s1

/-- A context owes nothing more to the memory system and the engines (R162, R350, R392). -/
def Ctx.drainDone (x : Ctx) : Bool :=
  x.owed.isEmpty && x.stores.isEmpty && x.nms.isEmpty && x.bsops.isEmpty && !x.finishing
    && match x.grant with
      | some g => g.done && g.taking.isEmpty
      | none => true
/-- The flights that the cores of a launch had sent to cores of their partition, the reports of its done tree among them. -/
def ownFlight (s : State) (l : Launch) (f : Flight) : Bool :=
  (match f.who with
    | some (c, _) => f.pkg.isNone && (s.launchCores l).contains c
    | none => f.notice && f.msg.cls = 3 && l.cores.contains f.msg.score)
    && f.msg.pkg = s.pkg.toNat && s.partOf f.msg.core = l.part
/-- Bindings and class-0 messages of a launch that are on their way (R351). -/
def madeFor (s : State) (l : Launch) (f : Flight) : Bool :=
  f.who.isNone && f.msg.pkg = s.pkg.toNat && s.partOf f.msg.core = l.part
    && ((f.deflt && f.counted) || (f.notice && f.msg.cls = 0 && f.rels.any fun r => r.tag.launch = some l.id))
/-- Traffic in the mesh that waits for a launch while it is saved (R350, R351): what its cores had sent and their inboxes have no
room for, but for the supervisor's classes, and what is made for it. -/
def heldFlight (s : State) (l : Launch) (f : Flight) : Bool :=
  (ownFlight s l f && (f.msg.cls = 3 || !supervisorClass f.msg.cls)) || madeFor s l f
/-- The drain of R350 has ended. Writes to other packages have been acknowledged (R162). -/
def drained (s : State) (l : Launch) : Bool :=
  let cores := s.launchCores l
  let mine (c : CoreId) : Bool := cores.contains c
  cores.all (fun c =>
    let x := s.core c
    x.started.isEmpty && x.ctx.toList.all fun k => !k.ofLaunch l.id || k.drainDone)
    && !(s.requests.any fun r => mine r.core && !r.ldf && (s.ctxAt r.core r.ctx).ofLaunch l.id)
    && s.mem.pending.isEmpty && !(s.bank.any fun b => mine b.1)
    && !(s.vecs.any fun v => mine v.1 || mine v.2.2.core) && !(s.credits.any fun v => mine v.1)
    && !(s.steals.any fun v => mine v.1 || mine v.2)
    && s.mesh.all fun f => !ownFlight s l f || !(s.core f.msg.core).roomFor f.msg.vnet
/-- A context as it is saved: what waited or was parked is saved as not issued, prefetched elements are discarded (R186),
and cr.cyc stops (R351). -/
def Ctx.saved (x : Ctx) (now : Nat) : Ctx :=
  { x with
    halted := true, wait := none
    status := if x.status = .parked || x.status = .issuing then .ready else x.status
    streams := x.streams.map fun t => { t with buf := [], next := t.popped }
    ctl := { x.ctl with cycBase := x.ctl.cycBase + (now - x.ctl.cycFrom) } }
/-- What stays of a context whose launch has been saved. -/
def Ctx.left (x : Ctx) : Ctx :=
  { x.ended with sendq := [], bsops := [], grant := none, halted := false, owed := [], stores := [], nms := [] }
/-- The launch's part of a spilled chunk, or the rest of it. -/
def Chunk.part (k : Chunk) (ok : Option Nat → Bool) : Option Chunk :=
  let m := k.marks.filter fun m => ok m.2.2
  if m.isEmpty then none else some { k with marks := m }
/-- The launch's part of a core, and what stays: the supervisor's messages and deque entries (R342). -/
def Core.split (x : Core) (id now : Nat) : Core × Core :=
  let mine (e : Entry) : Bool := !supervisorClass e.msg.cls
  ({ x with
      ctx := x.ctx.map fun k => if k.ofLaunch id then k.saved now else k
      inbox := (x.inbox.filter mine).map fun e => { e with since := now - e.since }
      deque := x.deque.filter fun f => f.launch = some id
      spilled := x.spilled.filterMap fun k => k.part fun l => l = some id },
   { x with
      ctx := x.ctx.map fun k => if k.ofLaunch id then k.left else k
      inbox := x.inbox.filter fun e => !mine e
      deque := x.deque.filter fun f => f.launch ≠ some id
      spilled := x.spilled.filterMap fun k => k.part fun l => l ≠ some id
      nq := Vector.replicate 4 [], cmds := [], done := {}, stealing := false })
/-- A key lies in a bank of a forge with a role of its own. -/
def bankKept (f : ForgeId) (x : Forge) (k : Nat) : Bool :=
  match bankOf f k with
  | some b => x.roleOf b ≠ 0
  | none => false
/-- A forge's part: role, rings, and the contents of its scratchpad and operand banks. -/
def saveForge (s : State) (f : ForgeId) : SavedForge :=
  let x := s.forge f
  let mine := bankKept f x
  { forge := x, bytes := s.mem.bytes.filter fun c => mine c.1, full := s.mem.full.filter fun d => mine (8 * d)
    poison := s.mem.poison.filter fun d => mine (8 * d), tags := s.mem.tags.filter fun t => mine (8 * (t.1 / 2))
    chain := s.mem.chain.filter fun t => mine (8 * (t.1 / 2)) }
/-- The part of its save area that a launch is saved to (R346, R350). -/
def State.saveSpan (s : State) (l : Launch) : Issuer × Nat × Nat := (l.saver, descNum l.desc 80 8, s.leastSave l.desc l.part)
/-- The switch engine saves the launch (R350). -/
def saveLaunch (l : Launch) (s : State) : State :=
  let cores := s.launchCores l
  let sv : Saved := {
    cores := cores.foldl (fun a c => Assoc.put a c.toNat ((s.core c).split l.id s.now).1) []
    forges := (s.forgesOf l.part).map fun f => (f.toNat, saveForge s f) }
  let held := s.mesh.filter (heldFlight s l)
  let s1 := cores.foldl (fun s c => s.setCore c ((s.core c).split l.id s.now).2) s
  let s2 := (s.forgesOf l.part).foldl (fun s f => s.setForge f { s.forge f with rings := Vector.replicate 8 {} }) s1
  let s3 := s2.setPart l.part { s2.part l.part with resident := none, halting := false }
  let s4 := ({ s3 with mesh := s3.mesh.filter fun f => !heldFlight s l f } : State).cutRequests fun r =>
    cores.contains r.core && (s.ctxAt r.core r.ctx).ofLaunch l.id
  writeOpen (s4.setLaunch
    { l with st := .saved, saved := sv, heldMsgs := held, preempts := l.preempts + 1, durBase := l.durBase + (s.now - l.durFrom) })
    (s.saveSpan l)
/-- PREEMPT_SAVE (R350): once the drain has ended, and the save area can be written. -/
def execPreemptSave (part : BitVec 6) (s : State) : Host.Outcome State Fault Refusal :=
  match s.residentOf part with
  | none => .next s
  | some l => .next (if (s.part part).halting && drained s l then (s.spansWait [s.saveSpan l]).getD (saveLaunch l s) else s)

/-! ## Resuming (R352) -/

/-- A context restored: it issues again, and cr.cyc goes on. -/
def Ctx.restored (x y : Ctx) (now : Nat) : Ctx :=
  { y with
    halted := false, grant := y.grant <|> x.grant, serial := max x.serial y.serial
    ctl := { y.ctl with cycFrom := now } }
/-- A core restored from its saved part, messages and commands of it before those that have come since (R207, R259); the classes
of the supervisor, its contexts and the core's key stay. -/
def Core.restore (x y : Core) (now : Nat) : Core :=
  let own := [(0 : CtxId), 1, 2, 3].foldl (fun (z : Core) k =>
    if (y.ctxAt k).halted then z.setCtx k ((x.ctxAt k).restored (y.ctxAt k) now) else z.setCtx k (x.ctxAt k)) y
  let keep (p : Nat × ClassEntry) : Bool := supervisorClass p.1
  { own with
    classes := (x.classes.filter keep).foldl (fun a p => Assoc.put a p.1 p.2) (y.classes.filter fun p => !keep p)
    inbox := (y.inbox.map fun e => { e with since := now - e.since }) ++ x.inbox
    deque := y.deque ++ x.deque, spilled := y.spilled ++ x.spilled
    cmds := y.cmds ++ x.cmds, started := x.started
    control := x.control, noticeOut := x.noticeOut, pkey := x.pkey, clock := max x.clock y.clock }
/-- Messages that came while the launch was saved stand by the classes as they are bound again (R259). -/
def State.rebound (s : State) (c : CoreId) : State :=
  let x := s.core c
  let held := ((x.inbox.filter (·.held)).map fun e => e.msg.cls).eraseDups
  let free := held.filter fun k => (x.cls k).state = .bound
  (if free.isEmpty then s else s.setCore c (free.foldl (fun x k => x.release k s.now) x)).holdUnbound c
/-- A forge restored (R279, R352). -/
def restoreForge (s : State) (p : Nat × SavedForge) : State :=
  let f := BitVec.ofNat 10 p.1
  let s1 := s.setForge f p.2.forge
  let m := (zeroWhere s1.mem (bankKept f p.2.forge)).dropForge f
  let m := m.setBytes p.2.bytes
  { s1 with mem := { m with full := p.2.full.foldl (fun a d => addKey d a) m.full
                            poison := p.2.poison.foldl (fun a d => addKey d a) m.poison
                            tags := p.2.tags.foldl (fun a t => Assoc.put a t.1 t.2) m.tags
                            chain := p.2.chain.foldl (fun a t => Assoc.put a t.1 t.2) m.chain } }
/-- A halo count that was held, with the place of its strip in the write order (R299). -/
def heldCount (s : State) (h : CoreId × CtxId × BitVec 2 × Nat) : State :=
  let c := s.ctxAt h.1 h.2.1
  let side := h.2.2.1
  s.setCtxAt h.1 h.2.1 { (c.withCtl fun l => { l with mbx := l.mbx.set side.toNat (l.mbx.get ⟨side.toNat, side.isLt⟩ + 1) side.isLt })
                         with mbxAt := max c.mbxAt h.2.2.2 }
/-- The launch is restored with the ways `w`, what it takes of other launches saved first (R353), then its held traffic is released
in its order (R351, R352). -/
def resumeLaunch (l : Launch) (w : List Owned) (s : State) : State :=
  let cores := l.saved.cores.map fun c => (BitVec.ofNat 13 c.1, c.2)
  let s := (s.waySpans s.ways w).foldl writeOpen s
  let s1 := (w.map (·.1)).eraseDups.foldl State.trimSlice { l.saved.forges.foldl restoreForge s with ways := w }
  let s2 := cores.foldl (fun s c => s.setCore c.1 ((s.core c.1).restore c.2 s.now)) s1
  let s3 := (s2.setLaunch { l with st := .resident, saved := {}, heldMsgs := [], heldInner := [], heldMbx := [], durFrom := s.now }).setPart
    l.part { s2.part l.part with resident := some l.id }
  let s4 := cores.foldl (fun s c => s.rebound c.1)
    { s3 with mesh := s3.mesh ++ l.heldMsgs.map fun f => { f with queue := some l.id } }
  l.heldMbx.foldl heldCount (l.heldInner.foldl (fun s e => s.accept e.1 e.2) s4)
/-- What a launch is restored over is at rest: its contexts are free and owe nothing, its forges have no access in flight, and
transfers on ways that are taken for it have ended (R279, R352, R392). -/
def restReady (s : State) (l : Launch) (w : List Owned) : Bool :=
  s.takenIdle s.ways w
    && l.saved.cores.all (fun c =>
      let x := s.core (BitVec.ofNat 13 c.1)
      x.started.isEmpty && c.2.savedCtx.all fun k => (x.ctxAt k).status = .free && (x.ctxAt k).drainDone && (x.ctxAt k).sendq.isEmpty)
    && l.saved.forges.all fun f => !s.forgeBusy (BitVec.ofNat 10 f.1) none
/-- LAUNCH_RESUME (R352): a saved launch that is the first of its free partition. -/
def execLaunchResume (part : BitVec 6) (s : State) : Host.Outcome State Fault Refusal :=
  let s1 := s.markEligible
  if (s1.part part).resident.isSome || s1.noLaunch then .next s1 else
  match s1.firstLaunch part with
  | none => .next s1
  | some l =>
    match regrant s1 l none with
    | some w =>
      .next (if l.st = .saved && restReady s1 l w then (s1.spansWait (s1.waySpans s1.ways w)).getD (resumeLaunch l w s1) else s1)
    | none => .next s1

end Sys2Proof.Machine
end

