-- ==== Sys2Proof/Machine/Hours.lean ====
section
/-! DEFINITION. Across hours: soft errors (R395), power and throttling (R397, R398), the router island (R399 to R402), fences
and resets (R403, R404), the black-box triggers (R406), start steps (R407), attestation (R409), and the device registers
without a row of their own (R344, R384, R398, R400). -/

namespace Sys2Proof.Machine

/-! ## What lies on a die -/

/-- The die of a memory key, the host's space apart. -/
def keyDie (k : Nat) : Option (BitVec 2) :=
  if keyDram ≤ k && k < keySram then some (BitVec.ofNat 2 (forgeDie ((k - keyDram) / pcBytes)))
  else if keySram ≤ k && k < keyHost then some (BitVec.ofNat 2 (forgeDie ((k - keySram) / 2 ^ 21)))
  else none
/-- The home die of a line of DRAM or of the host space, by its number. -/
def lineDie (n : Nat) : Option (BitVec 2) := (homeSlice n).map fun h => BitVec.ofNat 2 (clusterDie h)
/-- The cores of a die. -/
def dieCores (d : BitVec 2) : List CoreId :=
  ((List.range 128).filter fun k => clusterDie k = d.toNat).flatMap clusterCores
/-- The package enters a fatal state, which the host link signals as viral; which states are fatal is open (R373). -/
def State.fatal (s : State) : State :=
  { s with island := { s.island with viral := s.island.viral || Config.choice s.tick (2 ^ 51) } }

/-! ## The states of the island (R399) -/

/-- The island's state follows its dies, while it is up. -/
def State.settle (s : State) : State :=
  let fenced := s.dies.toList.any (·.fenced)
  let joined := s.dies.toList.any (·.joined)
  let next : IslandState := match s.island.st with
    | .off => .off
    | .reset => .reset
    | .alone => if !joined then .alone else if fenced then .fencedOne else .joined
    | _ => if fenced then .fencedOne else if joined then .joined else .alone
  { s with island := { s.island with st := next } }

/-! ## Fencing a die (R403) -/

/-- What the home holds replaces a line whose dirty copy is lost (R403). -/
def loseLine (m : Memory) (n : Nat) (l : Line) : Memory :=
  if !l.dirty then m else
  let m1 := (m.forget fun d => d / 8 = n / 2).setBytes (l.home.zipIdx.map fun p => (n / 2 * 64 + p.2, p.1))
  (List.range 8).foldl (fun m i => m.setFull (n / 2 * 8 + i) (bit l.homeFull i)) m1
/-- Step 4: copies and tokens of lines homed on the die, held elsewhere, and of lines homed elsewhere, held on the die. -/
def fenceLine (d : BitVec 2) (m : Memory) (p : Nat × Line) : Memory :=
  let here (c : CoreId) : Bool := dieOf c = d
  let home : Bool := lineDie p.1 = some d
  let lost : Bool := p.2.owner.any fun o => here o.1 ≠ home
  let m1 := if lost then loseLine m p.1 p.2 else m
  m1.setLine p.1 { p.2 with
    owner := if lost then none else p.2.owner
    dirty := p.2.dirty && !lost
    sharers := p.2.sharers.filter fun c => here c = home
    fetchers := p.2.fetchers.filter fun c => here c = home
    forges := p.2.forges.filter fun f => (forgeDie f.toNat = d.toNat) = home }
/-- A context whose task is discarded: its stores and NM operations, already issued, go on. -/
def Ctx.discarded (x : Ctx) : Ctx :=
  { x.ended with sendq := [], bsops := [], grant := none, halted := false, owed := [] }
/-- A core whose launch is discarded. -/
def Core.discard (x : Core) (id : Nat) : Core :=
  { (x.split id 0).2 with ctx := x.ctx.map fun k => if k.ofLaunch id then k.discarded else k }
/-- Engine commands of parties that are gone deliver to no context any more. -/
def State.cutParty (s : State) (gone : Issuer → Bool) : State :=
  let cut (i : Issuer) : Issuer := if gone i then { i with launch := none } else i
  let isMatch (o : HeapOp) : Bool := match o.kind with
    | .matchp _ _ => true
    | _ => false
  { s with
    xfers := s.xfers.map fun x => if gone x.iss then { x with handler := 0, iss := cut x.iss } else x
    heaps := s.heaps.map fun h => (h.1, { h.2 with
      ops := (h.2.ops.filter fun o => !(gone o.iss && isMatch o)).map fun o =>
        if gone o.iss && !o.regs.isEmpty then { o with regs := [], word := none, iss := cut o.iss } else { o with iss := cut o.iss } }) }
/-- Step 5: a launch ends, its tasks discarded, with the status DIE_LOST. -/
def loseLaunch (s : State) (l : Launch) : State :=
  let cores := s.launchCores l
  let mine (c : CoreId) : Bool := cores.contains c
  let s1 := if l.st = .resident then cores.foldl (fun s c => s.setCore c ((s.core c).discard l.id)) s else s
  let s2 := s1.cutParty fun i => i.launch = some l.id
  let s3 := if l.st = .resident then
      ({ s2 with
        mesh := s2.mesh.filter fun f => !((f.counted && s.partOf f.msg.core = l.part) || (f.notice && f.msg.cls = 3 && mine f.msg.core))
        steals := s2.steals.filter fun v => !(mine v.1 || mine v.2)
        vecs := s2.vecs.filter fun v => !(mine v.1 || mine v.2.2.core)
        credits := s2.credits.filter fun v => !mine v.1 } : State).cutRequests fun r => mine r.core
    else s2
  ({ s3 with ways := s3.ways.filter fun o => o.2.2.2.2 ≠ some l.id }).setLaunch { l with
    st := .finished, status := 0xF500000000000000, saved := {}, heldMsgs := [], heldInner := [], heldMbx := []
    durBase := if l.st = LaunchState.resident then l.durBase + (s.now - l.durFrom) else l.durBase }
/-- A span of a heap handle includes a die (R233). -/
def spanHas (span : BitVec 8) (d : BitVec 2) : Bool := fld span 0 2 = 1 || fld span 2 2 = d.toNat
/-- Step 6: the handle is unconfigured, and its pending operations complete with CODE 0x01. -/
def Heap.released (h : Heap) : Heap :=
  { h with conf := none, items := [], buckets := [], fixes := [], fixcnt := 0, ops := h.ops.map fun o => { o with code := 1 } }
/-- Steps 1 to 4: traffic of the die stops, what it had sent may still arrive or be lost, and copies are dropped. -/
def stopDie (d : BitVec 2) (s : State) : State :=
  let here (c : CoreId) : Bool := dieOf c = d
  let s := s.cutRequests fun r => here r.core
  { s with
    mesh := (s.mesh.zipIdx.filter fun f => match f.1.who with
      | some (c, _) => !here c || Config.choice s.tick (2 ^ 62 + f.2)
      | none => true).map (·.1)
    vecs := s.vecs.filter fun v => !(here v.1 || here v.2.2.core)
    credits := s.credits.filter fun v => !here v.1
    steals := s.steals.filter fun v => !(here v.1 || here v.2)
    bank := s.bank.filter fun b => !here b.1
    xfers := s.xfers.filter fun x => !here x.iss.core
    ranges := s.ranges.filter fun x => !here x.iss.core
    shoots := s.shoots.filter fun x => !here x.iss.core
    partops := s.partops.filter fun x => !here x.iss.core
    ctlq := s.ctlq.filter fun n => lineDie n ≠ some d
    mem := s.mem.lines.foldl (fenceLine d) s.mem }
/-- The die is fenced (R403). -/
def fenceDie (d : BitVec 2) (s : State) : State :=
  let s1 := (stopDie d s).cutParty fun i => dieOf i.core = d
  let s2 := (s1.launches.filter fun l => l.st ≠ .finished && s1.onDie l.part d).foldl loseLaunch s1
  let s3 := { s2 with heaps := s2.heaps.map fun (h : Nat × Heap) => match h.2.conf with
    | some c => (h.1, if spanHas c.span d then h.2.released else h.2)
    | none => h }
  let s4 := s3.setDie d { s3.die d with fenced := true, joined := false }
  (((s4.settle).devEvent 0).log 0x03 d.toNat 0xFFFF 0 0 0).fatal
/-- The island can fence the die: it has power and is not fenced. -/
def State.canFence (s : State) (d : BitVec 2) : Bool := s.islandUp && (s.die d).powered && !(s.die d).fenced
/-- DIECTL_FENCE (R400, R403). -/
def execDiectlFence (die : BitVec 2) (s : State) : Host.Outcome State Fault Refusal :=
  .next (if s.canFence die then fenceDie die s else s)

/-! ## Resets (R403) -/

/-- Copies held on the die itself are lost with its caches. -/
def resetLine (d : BitVec 2) (m : Memory) (p : Nat × Line) : Memory :=
  if lineDie p.1 ≠ some d then m else
  let m1 := loseLine m p.1 p.2
  { m1 with lines := Assoc.del m1.lines p.1 }
/-- The slices of a die lose what they hold: read copies of other packages, lines of the host space, and dirty lines of DRAM,
whose words then hold what the stack holds, which is open. -/
def loseSlices (d : BitVec 2) (tick : Nat) (m : Memory) : Memory :=
  let mine := m.hearth.filter fun r => clusterDie r.slice.toNat = d.toNat
  if mine.isEmpty then m else
  mine.foldl (fun m r =>
    let n := r.line
    let m := { m with hearth := m.hearth.filter fun q => q.line ≠ n }
    if 2 ^ 60 ≤ n then dropLine m ((n - 2 ^ 60) * 64)
    else if !isDramLine n then { m with hostLines := Assoc.del m.hostLines (n / 2) }
    else if !r.dirty then m
    else (m.forget fun k => k / 8 = n / 2).setBytes ((List.range 64).map fun i =>
      (n / 2 * 64 + i, byteOf (Config.freeWord tick (n / 2 * 8 + i / 8)).toNat (i % 8)))) m
/-- A translation cache of the die. -/
def TlbHome.onDie (h : TlbHome) (d : BitVec 2) : Bool :=
  match h with
  | .instr c => dieOf c = d
  | .data c => dieOf c = d
  | .cluster k => clusterDie k.toNat = d.toNat
  | .engine _ e => e = d
/-- A grant whose ways lie on the die holds open contents afterwards. -/
def Core.loseWays (x : Core) (d : BitVec 2) (tick : Nat) : Core :=
  { x with ctx := x.ctx.map fun k => match k.grant with
    | some g => if g.slices.any fun z => clusterDie z.toNat = d.toNat then { k with grant := some { g with rows := [], seed := tick } } else k
    | none => k }
/-- The die's state is lost and it is held in reset; its cores hold the key of their partition again (R343). DRAM keeps
its contents, or loses them and reads 0 and empty. -/
def resetDie (d : BitVec 2) (cold : Bool) (s : State) : State :=
  let here (c : CoreId) : Bool := dieOf c = d
  let keyed := (dieCores d).filterMap fun c =>
    let k := (s.part (s.partOf c)).key
    if k = 0 then none else some (c, k)
  let cores := (s.cores.filter fun c => !here (BitVec.ofNat 13 c.1)).map fun c =>
    (c.1, if c.2.ctx.toList.any (·.grant.isSome) then c.2.loseWays d s.tick else c.2)
  let m := loseSlices d s.tick (s.mem.lines.foldl (resetLine d) s.mem)
  let m := zeroWhere m fun k => keyDie k = some d && (cold || keySram ≤ k)
  { s with
    cores := keyed.foldl (fun a p => Assoc.put a p.1.toNat { pkey := p.2 }) cores
    forges := s.forges.filter fun f => forgeDie f.1 ≠ d.toNat
    mem := m
    tlb := s.tlb.filter fun e => !(e.home.onDie d)
    dies := s.dies.set d.toNat { fenced := (s.die d).fenced, joined := false, inReset := true, powered := (s.die d).powered
                                 trip := (s.die d).trip, off := (s.die d).off } d.isLt }
/-- A reset of a die that has power: the fence first. -/
def startReset (d : BitVec 2) (cold : Bool) (s : State) : State :=
  if !s.islandUp || !(s.die d).powered then s else
  let s1 := if (s.die d).fenced then s else fenceDie d s
  (resetDie d cold s1).log 0x03 d.toNat 0xFFFF 0 0 0
/-- DIECTL_WARM_RESET (R403). -/
def execDiectlWarmReset (die : BitVec 2) (s : State) : Host.Outcome State Fault Refusal := .next (startReset die false s)
/-- DIECTL_COLD_RESET (R403). -/
def execDiectlColdReset (die : BitVec 2) (s : State) : Host.Outcome State Fault Refusal := .next (startReset die true s)
/-- The die joins: FENCED clears, JOIN sets, and the island tells (R399, R400, R403). -/
def joinDie (d : BitVec 2) (s : State) : State :=
  let s1 := s.setDie d { s.die d with fenced := false, joined := true, inReset := false, beat := s.now }
  ((s1.settle).devEvent 1).log 0x03 d.toNat 0xFFFF 0 0 0
/-- DIECTL_REJOIN (R403): of a healthy fenced die, one that is not in reset. -/
def execDiectlRejoin (die : BitVec 2) (s : State) : Host.Outcome State Fault Refusal :=
  let x := s.die die
  .next (if s.islandUp && x.powered && x.fenced && !x.inReset && !x.trip then joinDie die s else s)

/-! ## The start record and start steps (R407 to R409) -/

/-- A new entry of the start record, newest first. -/
def Island.newStart (i : Island) : Island :=
  { i with starts := Vector.ofFn fun (k : Fin 8) =>
      if h : k.val = 0 then Vector.replicate 64 0 else i.starts.get ⟨k.val - 1, by omega⟩ }
/-- MRk := SHA-512(MRk ‖ digest) (R409). -/
def Island.extend (i : Island) (k : Fin 8) (digest : Vector Byte 64) : Island :=
  { i with mr := i.mr.set k (Config.sha512 ((i.mr.get k).toList ++ digest.toList)) }
/-- The ROM of the island, 0, or of die d, d + 1, accepts an image (R408): the root key is the fused one, it signs the image's key,
that key signs the image, and the version is not below the fused minimum. -/
def Island.accepts (i : Island) (k : Fin 5) (m : Image) : Bool :=
  Config.sha512 m.rootKey = Config.rootDigest && Config.verify m.rootKey (Config.sha512 m.key) m.keySig
    && Config.verify m.key (Config.sha512 m.bytes) m.sig && (i.fused.get k).toNat ≤ m.version.toNat
/-- An accepted image runs: it is measured, its version stands, and a higher minimum that it sets advances the fuses (R408, R409). -/
def Island.boot (i : Island) (k : Fin 5) (m : Image) : Island :=
  let low := i.fused.get k
  { i.extend ⟨k.val, by omega⟩ (Config.sha512 m.bytes) with
    versions := i.versions.set k m.version
    fused := i.fused.set k (match m.newMin with
      | some v => if low.toNat < v.toNat then v else low
      | none => low) }
/-- MR5 takes the newest entry. -/
def Island.measureStart (i : Island) : Island := i.extend 5 (Config.sha512 (i.starts.get 0).toList)
/-- The clusters of a die in the order of its self-tests, four in each step. -/
def testClusters (d : BitVec 2) (j : Nat) : List (BitVec 7) := (List.range 4).map fun i => dieSlice d.toNat (4 * j + i)
/-- A die's steps: the outcomes written so far, the clusters fenced off, whether all goes well. -/
structure DieRun where
  codes : List (Nat × Byte) := []
  off : List (BitVec 7)
  ok : Bool := true
/-- One required step, by its alternate where it failed before and has one. -/
def DieRun.step (r : DieRun) (i : Island) (n : Nat) (hasAlt pass : Bool) : DieRun :=
  if !r.ok then r else
  let alt := hasAlt && i.failed n
  let c : Byte := if alt then (if pass then 4 else 5) else if pass then 1 else 2
  { r with codes := r.codes ++ [(n, c)], ok := pass }
/-- Step 15 + 12d: optional, skipped where it failed before. -/
def DieRun.memTest (r : DieRun) (i : Island) (n : Nat) (pass : Bool) : DieRun :=
  if !r.ok then r else
  { r with codes := r.codes ++ [(n, if i.failed n then 3 else if pass then 1 else 2)] }
/-- A cluster self-test step: its alternate fences off the failing clusters, any of the four; cluster 0 among them leaves
die 0 fenced. -/
def DieRun.clusters (r : DieRun) (i : Island) (d : BitVec 2) (tick n j : Nat) (pass : Bool) : DieRun :=
  if !r.ok then r else
  let four := testClusters d j
  let r1 := r.step i n true pass
  if !pass then r1 else
  let bad := if i.failed n then four.filter fun c => bit (Config.freeWord tick (c.toNat + 16)) 0 else []
  { r1 with off := (r1.off.filter fun c => !four.contains c) ++ bad, ok := !bad.contains 0 }
/-- Steps 1 to 12 are over when the dies' steps begin: a link that has not trained at this start has failed, or was skipped because
it had failed at the one before (R407). -/
def State.trainSteps (s : State) : List (Nat × Byte) :=
  (List.range 12).filterMap fun l =>
    if (s.links[l]?).any (·.up) || s.island.outcome (l + 1) ≠ 0 then none
    else some (l + 1, if s.island.failed (l + 1) then 3 else 2)
/-- DIE_START_STEPS (R407): the die runs its twelve steps, each passing as `ok` says, and joins or stays fenced. A die that starts again
begins an entry of its own. -/
def startSteps (d : BitVec 2) (ok : BitVec 12) (s : State) : State :=
  let b := 13 + 12 * d.toNat
  let again := ((s.island.starts.get 0).toList.drop b).take 12 |>.any (· ≠ 0)
  let i := if again then s.island.newStart else s.island
  let old := s.island
  let m := Config.image s.tick (d.toNat + 1)
  let boots := bit ok 0 && old.accepts ⟨d.toNat + 1, by omega⟩ m
  let r : DieRun := { codes := if again then [] else s.trainSteps, off := (s.die d).off }
  let r := r.step old b false boots
  let r := r.step old (b + 1) true (bit ok 1)
  let r := r.memTest old (b + 2) (bit ok 2)
  let r := (List.range 8).foldl (fun r j => r.clusters old d s.tick (b + 3 + j) j (bit ok (3 + j))) r
  let r := r.step old (b + 11) false (bit ok 11)
  let entry := r.codes.foldl (fun (e : Vector Byte 64) c => e.setIfInBounds c.1 c.2) (i.starts.get 0)
  let i := { i with starts := i.starts.set 0 entry }
  let i := (if boots then i.boot ⟨d.toNat + 1, by omega⟩ m else i).measureStart
  let s1 := ({ s with island := i }).setDie d { s.die d with off := r.off }
  let bad := r.codes.any fun c => c.2 = 2 || c.2 = 5
  let s2 := if bad then s1.devEvent 5 else s1
  if r.ok then joinDie d s2
  else if (s2.die d).fenced then s2
  else ((s2.setDie d { s2.die d with fenced := true }).settle).devEvent 0
/-- DIE_START_STEPS (R407): of a die that has power and is in reset, or that an island reset left unjoined. -/
def execDieStartSteps (die : BitVec 2) (ok : BitVec 12) (s : State) : Host.Outcome State Fault Refusal :=
  let x := s.die die
  .next (if s.islandUp && x.powered && !x.trip && (x.inReset || (!x.joined && !x.fenced)) then startSteps die ok s else s)

/-! ## The island (R399, R404) -/

/-- Step 0, by the recovery image where it failed before; the entry, the measurement, and whether the firmware runs: the image is
accepted (R408) and nothing else fails. -/
def firmwareCheck (ok alt : Bool) (tick : Nat) (i : Island) : Island × Bool :=
  let byAlt := i.failed 0
  let m := Config.image tick (if byAlt then 5 else 0)
  let pass := (if byAlt then alt else ok) && i.accepts 0 m
  let c : Byte := if byAlt then (if pass then 4 else 5) else if pass then 1 else 2
  let j := i.newStart
  let j := { j with starts := j.starts.set 0 ((j.starts.get 0).set 0 c) }
  (if pass then (j.boot 0 m).measureStart else j, pass)
/-- What of the island outlasts its power: the flash and the fuses (R407, R408), and PWRBRAKE_N, a signal of the board. -/
def Island.cold (i : Island) : Island :=
  { starts := i.starts, fused := i.fused, st := .off, hostUp := false, brake := i.brake }
/-- No die is joined. -/
def State.unjoin (s : State) : State := { s with dies := s.dies.map fun d => { d with joined := false } }
/-- ISLAND_POWER_UP (R399). -/
def execIslandPowerUp (ok : Bool) (alt : Bool) (s : State) : Host.Outcome State Fault Refusal :=
  if s.island.st ≠ .off then .next s else
  let r := firmwareCheck ok alt s.tick { s.island.cold with onAt := s.now }
  let s1 := { s.unjoin with island := { r.1 with st := if r.2 then .alone else .off } }
  .next (if r.2 then s1.log 0x03 4 0xFFFF 0 0 0 else s1.devEvent 5)
/-- The fabric's links are down: requests to the host or into the fabric meet an absent endpoint (R402, R404), and messages of this
package whose arrival no link has acknowledged are dropped with a notice (R168, R410). -/
def State.cutOff (s : State) : State :=
  let open_ (r : Request) : Bool := r.ans = .waiting || r.ans = .empty
  let lost := s.links.toList.flatMap (·.own)
  let s1 := (s.requests.zipIdx.filter fun r => open_ r.1).foldl (fun s r => s.giveUp r.2) { s with links := Vector.replicate 12 {} }
  lost.foldl (fun s d => s.refusedNotice d.2.score d.2.sctx 2 0 (some d.2)) s1
/-- ISLAND_POWER_OFF (R399, R404): the black-box record is lost; the start record stands in flash. -/
def execIslandPowerOff (s : State) : Host.Outcome State Fault Refusal :=
  let s1 := s.unjoin.cutOff
  .next { s1 with island := s1.island.cold }
/-- ISLAND_RESET (R404): the dies run on and the record is kept. -/
def execIslandReset (s : State) : Host.Outcome State Fault Refusal :=
  if !s.islandUp then .next s else
  let s1 := (s.log 0x03 4 0xFFFF 0 0 0).unjoin.cutOff
  let i := s1.island
  .next { s1 with
    island := { i.cold with mr := i.mr, versions := i.versions, st := .reset, onAt := i.onAt, records := i.records, next := i.next
                            wrap := i.wrap, frozen := i.frozen } }
/-- ISLAND_RESET_COMPLETE (R399): ALONE once the firmware passes again; a failure of step 0 is told (R400). -/
def execIslandResetComplete (ok : Bool) (s : State) : Host.Outcome State Fault Refusal :=
  if s.island.st ≠ .reset then .next s else
  let r := firmwareCheck ok ok s.tick s.island
  let s1 := { s with island := { r.1 with st := if r.2 then .alone else .reset } }
  .next (if r.2 then s1 else s1.devEvent 5)
/-- ISLAND_FIRMWARE_FAULT (R406): the fault is recorded, and freezes the record. -/
def execIslandFirmwareFault (s : State) : Host.Outcome State Fault Refusal :=
  .next (if s.islandUp then ((s.log 0x01 4 0xFFFF 0 0 0).freeze 4).fatal else s)
/-- HOST_LINK_TRAINED (R373, R399): the host negotiates 256-byte flits, or 68-byte flits, over which CXL.io alone is enabled. -/
def execHostLinkTrained (s : State) : Host.Outcome State Fault Refusal :=
  .next (if s.islandUp && !s.island.hostUp then
    ({ s with island := { s.island with hostUp := true, viral := false, flit256 := Config.choice s.tick (2 ^ 51 + 1) } }).log
      0x04 4 0xFFFF 12 0 0
    else s)

/-! ## Heartbeats and links (R401) -/

/-- DIE_HEARTBEAT (R401). -/
def execDieHeartbeat (die : BitVec 2) (s : State) : Host.Outcome State Fault Refusal :=
  .next (if (s.die die).up && s.islandUp then s.setDie die { s.die die with beat := s.now } else s)
/-- HEARTBEAT_TIMEOUT (R401, R406): 1 ms, 700,000 core cycles. -/
def execHeartbeatTimeout (die : BitVec 2) (s : State) : Host.Outcome State Fault Refusal :=
  .next (if s.islandUp && (s.die die).up && (s.die die).beat + 700000 ≤ s.now then (fenceDie die s).freeze 0 else s)
/-- DIE_LINK_FAILURE (R395, R401). -/
def execDieLinkFailure (die : BitVec 2) (s : State) : Host.Outcome State Fault Refusal :=
  .next (if s.canFence die then fenceDie die ((s.log 0x06 die.toNat 0xFFFF 0 0 0).devEvent 4) else s)

/-! ## Power and heat (R397, R398) -/

/-- DIE_POWER_ENABLE (R397): held in reset until the island is up and the start steps run. -/
def execDiePowerEnable (die : BitVec 2) (s : State) : Host.Outcome State Fault Refusal :=
  .next (if (s.die die).powered then s else s.setDie die { s.die die with powered := true, inReset := true, joined := false })
/-- DIE_POWER_OFF (R397, R399): with the effects of a fence where the die was not fenced, and without its contents after. -/
def execDiePowerOff (die : BitVec 2) (s : State) : Host.Outcome State Fault Refusal :=
  if !(s.die die).powered then .next s else
  let s1 := resetDie die true (if (s.die die).fenced then s else fenceDie die s)
  .next (s1.setDie die { s1.die die with powered := false, fenced := false, inReset := false, trip := false }).settle
/-- PWRBRAKE_ASSERT (R398): only time changes. -/
def execPwrbrakeAssert (s : State) : Host.Outcome State Fault Refusal :=
  .next (if s.island.brake then s else ({ s with island := { s.island with brake := true } }).log 0x09 4 0xFFFF 0 0 0)
/-- PWRBRAKE_RELEASE (R398). -/
def execPwrbrakeRelease (s : State) : Host.Outcome State Fault Refusal :=
  .next { s with island := { s.island with brake := false } }
/-- POWER_LIMIT_THROTTLE (R398): only time changes. -/
def execPowerLimitThrottle (die : BitVec 2) (above : Bool) (s : State) : Host.Outcome State Fault Refusal :=
  if !(s.die die).up || (s.die die).throttled = above then .next s else
  let s1 := s.setDie die { s.die die with throttled := above }
  .next (if above then s1.log 0x09 die.toNat 0xFFFF 0 0 0 else s1)
/-- THERMAL_TRIP (R398, R401, R406): fenced, and held in reset. -/
def execThermalTrip (die : BitVec 2) (s : State) : Host.Outcome State Fault Refusal :=
  if !(s.die die).powered || (s.die die).trip then .next s else
  let s1 := (s.log 0x09 die.toNat 0xFFFF 0 0 0).freeze 2
  let s2 := resetDie die false (if (s1.die die).fenced then s1 else fenceDie die s1)
  .next (s2.setDie die { s2.die die with trip := true })
/-- THERMAL_RECOVER (R398). -/
def execThermalRecover (die : BitVec 2) (s : State) : Host.Outcome State Fault Refusal :=
  .next (s.setDie die { s.die die with trip := false })

/-! ## Soft errors (R395) -/

/-- An uncorrectable error is told. -/
def State.tellError (s : State) (src core : Nat) (pa : Nat) : State :=
  (s.log 0x06 src core 0 0 (BitVec.ofNat 64 pa)).devEvent 4
/-- The clean copies of lines: in L1Is and forge caches, and the read copies of other packages' memory. -/
def Memory.cleanCopies (m : Memory) : List Evict :=
  (m.lines.flatMap fun l => (l.2.fetchers.map fun c => Evict.l1i c l.1) ++ l.2.forges.map fun f => Evict.forge f l.1)
    ++ (m.hearth.filter fun r => 2 ^ 60 ≤ r.line).map fun r => Evict.hearth r.line
/-- A clean copy is dropped: any cached translation, or any clean copy of a line. -/
def dropCopy (s : State) : State :=
  let l := s.mem.cleanCopies
  let n := s.tlb.length + l.length
  let k := Config.pick s.tick 6 % n
  if k < s.tlb.length then { s with tlb := dropAt s.tlb k }
  else match l[k - s.tlb.length]? with
    | some e => s.evict e
    | none => s
/-- A context's registers are lost: it becomes HELD with cause 0x12, INFO 7; one that is HELD keeps its return address. -/
def strikeCtx (core : CoreId) (ctx : CtxId) (s : State) : State :=
  let x := s.ctxAt core ctx
  let s1 := { takeTrap (busError 7) { s with cur := ⟨core, ctx, false⟩ } with cur := s.cur }
  if x.status = .held then
    s1.setCtxAt core ctx ((s1.ctxAt core ctx).withCtl fun l => { l with epc := x.ctl.epc, estat := x.ctl.estat })
  else s1
/-- An error in the word at a place: corrected, or the word is poisoned (R395). A word of the host's space is hit where a slice holds
its line. -/
def strikeWord (p : Place) (correctable : Bool) (addr : Nat) (s : State) : State :=
  let kept : Bool := match p with
    | .host k => (Assoc.get? s.mem.hostLines (k / 64)).isSome
    | _ => true
  match (if kept then p.key else none) with
  | some key =>
    let d := (match p.lineNo.bind lineDie with
      | some d => d
      | none => (keyDie key).getD 0).toNat
    if correctable then s.log 0x05 d 0xFFFF 0 0 (BitVec.ofNat 64 addr)
    else ({ s with mem := { s.mem with poison := addKey (key / 8) s.mem.poison } }).tellError d 0xFFFF addr
  | none => s
/-- SOFT_ERROR (R395). A word of a Welt engine's storage is one of its handle's region. -/
def execSoftError (where_ : Struck) (correctable : Bool) (s : State) : Host.Outcome State Fault Refusal :=
  .next (match where_ with
  | .word addr =>
    match place s 0 (addr / 8 * 8) with
    | .ok p => strikeWord p correctable addr s
    | .error _ => s
  | .welt heap off =>
    match (s.heap heap).conf with
    | none => s
    | some c => match luPlace s c.iss.root ((c.base.toNat + off) / 8 * 8) .read with
      | some p => strikeWord p correctable 0 s
      | none => s
  | .accumulator core tile w =>
    let d := (dieOf core).toNat
    if correctable then s.log 0x05 d core.toNat 0 0 0 else
    let x := s.core core
    let bad := addKey (w % 4096 / 2) (x.accPoison.get ⟨tile.toNat, tile.isLt⟩)
    (s.setCore core { x with accPoison := x.accPoison.set tile.toNat bad tile.isLt }).tellError d core.toNat 0
  | .cleanCopy => if correctable then (dropCopy s).log 0x05 4 0xFFFF 0 0 0 else s
  | .context core ctx =>
    if correctable || !s.coreUp core then s
    else ((strikeCtx core ctx s).tellError (dieOf core).toNat core.toNat 0).freeze 1
  | .directory die =>
    if correctable then s.log 0x05 die.toNat 0xFFFF 0 0 0
    else if !s.canFence die then s
    else fenceDie die ((s.tellError die.toNat 0xFFFF 0).freeze 1))

/-! ## The island's registers (R344, R384, R398, R400, R406, R409) -/

/-- A write of BBCTL: FROZEN clears first, then TRIGSET fires trigger 3 (R406). -/
def writeBbctl (v : Word) (s : State) : State :=
  let i := s.island
  let s1 := { s with island := { i with frozen := i.frozen && !bit v 63, trigen := BitVec.ofNat 8 (fld v 24 8) } }
  if bit v 18 then s1.freeze 3 else s1
/-- BBCTL_TRIGSET (R406). -/
def execBbctlTrigset (v : Word) (s : State) : Host.Outcome State Fault Refusal :=
  .next (if s.islandUp && bit v 18 then writeBbctl v s else s)
/-- BBCTL_FROZEN_CLEAR (R406). -/
def execBbctlFrozenClear (v : Word) (s : State) : Host.Outcome State Fault Refusal :=
  .next (if s.islandUp && bit v 63 then writeBbctl v s else s)
/-- ATTEST_REQUEST (R409). -/
def execAttestRequest (_v : Word) (s : State) : Host.Outcome State Fault Refusal :=
  .next (if s.islandUp then { s with island := { s.island with asked := true } } else s)
/-- The report, 1,102 bytes. -/
def Island.makeReport (i : Island) : List Byte :=
  let body := toBytes 1 4 ++ i.nonce.toList.flatMap (fun (w : Word) => toBytes w.toNat 8)
    ++ (Config.sha512 Config.identityKey).toList.take 32 ++ i.mr.toList.flatMap (·.toList)
    ++ i.versions.toList.flatMap fun v => toBytes v.toNat 2
  body ++ (Config.sign (Config.sha512 body)).toList
/-- ATTEST_REPORT_READY (R409). -/
def execAttestReportReady (s : State) : Host.Outcome State Fault Refusal :=
  let i := s.island
  .next (if s.islandUp && i.asked then { s with island := { i with asked := false, ready := true, report := i.makeReport } } else s)

/-- Fields that LQCTL keeps (R344). -/
def lqctlMask : Word := 0x80000000003F3F1F
/-- A ring base that R344 admits. -/
def baseOk (v : Word) (align : Nat) : Bool := v.toNat % align = 0 && (fld v 48 3 = 0 || fld v 48 3 = 4)
/-- A write of a launch queue's register; a value outside its limits leaves the register as it is (R344). -/
def LaunchQ.write (q : LaunchQ) (o : Nat) (v : Word) : LaunchQ :=
  match o with
  | 0x00 => if baseOk v 256 then { q with lqbase := v } else q
  | 0x08 => if 16 < fld v 0 5 || 62 < fld v 8 6 then q else { q with lqctl := v &&& lqctlMask }
  | 0x20 => if baseOk v 32 then { q with cqbase := v } else q
  | 0x28 => if 16 < v.toNat then q else { q with cqctl := v }
  | _ => q
/-- The commands of a DIECTL write, die by die (R400). -/
def diectlMoves (v : Word) : List Move :=
  [(0 : BitVec 2), 1, 2, 3].filterMap fun d =>
    let c := fld v (4 * d.toNat) 4
    if c = 0 || 4 < c then none else some (.diectl d (BitVec.ofNat 4 c))
/-- A write of the island's block (R384, R400, R406, R409). -/
def writeIsland (o : Nat) (v : Word) (s : State) : State :=
  let i := s.island
  if o = 0x05000008 then { s with agenda := diectlMoves v ++ s.agenda }
  else if o = 0x05000018 then { s with island := { i with devevt := i.devevt &&& ~~~(v.setWidth 6) } }
  else if o = 0x05000020 then writeBbctl v s
  else if 0x05001000 ≤ o && o < 0x05001020 then
    { s with island := { i with nonce := i.nonce.setIfInBounds ((o - 0x05001000) / 8) v } }
  else if 0x04000100 ≤ o && o < 0x04000200 then
    let n := (o - 0x04000100) / 16
    let w := (i.fwin[n]?).getD (0, 0)
    let x := if o % 16 = 0 then (v &&& 0xE007FFFFFFFFC000, w.2) else (w.1, v &&& 0x0000FFFFFFFFC000)
    { s with island := { i with fwin := i.fwin.setIfInBounds n x } }
  else s
/-- REGISTER_WRITE (R344): the SV registers take writes of the host and of partition 0's supervisor; all else is ignored,
as is a write of a register whose die or island does not answer. -/
def execRegisterWrite (off : BitVec 48) (v : Word) (by_ : Writer) (s : State) : Host.Outcome State Fault Refusal :=
  let o := off.toNat
  let mayWrite : Bool := match by_ with
    | .host => s.islandUp && s.island.hostUp
    | .supervisor p => p = 0
    | _ => false
  if !mayWrite || o % 8 ≠ 0 || s.deviceAbsent o then .next s
  else if 0x02000000 ≤ o && o < 0x02010000 then
    let q := BitVec.ofNat 10 ((o - 0x02000000) / 0x40)
    .next (s.setQueue q ((s.queue q).write (o % 0x40) v))
  else if 0x08000000 ≤ o && o < 0x08004000 && o % 0x1000 = 0 then
    let d := BitVec.ofNat 2 ((o - 0x08000000) / 0x1000)
    let w := fld v 0 12
    .next (if 200 ≤ w && w ≤ 1200 then s.setDie d { s.die d with pwrlim := BitVec.ofNat 12 w } else s)
  else .next (writeIsland o v s)

end Sys2Proof.Machine
end

