-- ==== Sys2Proof/Machine/Scalar.lean ====
section
/-! DEFINITION. Scalar floating-point instructions (R115 to R125). -/

namespace Sys2Proof.Machine

/-- The format of a precision field (R77). -/
def prec (p : BitVec 1) : Fmt := if p = 1 then f64 else f32
/-- The operand bits of an f register in a format (R56). -/
def State.fBits (s : State) (r : BitVec 5) (f : Fmt) : Nat := (s.me.getF r).toNat % 2 ^ f.width
/-- A result and its flags: the register written by R56, the flags merged at retirement (R42). -/
def State.fpOut (s : State) (d : BitVec 5) (f : Fmt) (r : Nat × FFlags) : State :=
  (s.writeF d (boxF f.width r.1)).addFlags r.2
/-- A two-source operation into f[d]. -/
def fp3 (word : Nat) (d a b : BitVec 5) (p : BitVec 1) (f : Fmt → Ctl → Nat → Nat → Nat × FFlags) (s : State) :
    Host.Outcome State Fault Refusal :=
  withRegs word [.f a, .f b] [.f d] s fun s =>
    .ok (.fall 4) (s.fpOut d (prec p) (f (prec p) s.me.ctl (s.fBits a (prec p)) (s.fBits b (prec p))))
/-- A one-source operation into f[d]. -/
def fp2 (word : Nat) (d a : BitVec 5) (p : BitVec 1) (f : Fmt → Ctl → Nat → Nat × FFlags) (s : State) :
    Host.Outcome State Fault Refusal :=
  withRegs word [.f a] [.f d] s fun s =>
    .ok (.fall 4) (s.fpOut d (prec p) (f (prec p) s.me.ctl (s.fBits a (prec p))))
/-- A fused form, d the addend and the destination (R117). -/
def fp4 (word : Nat) (d a b : BitVec 5) (p : BitVec 1) (f : Fmt → Ctl → Nat → Nat → Nat → Nat × FFlags) (s : State) :
    Host.Outcome State Fault Refusal :=
  withRegs word [.f a, .f b, .f d] [.f d] s fun s =>
    .ok (.fall 4) (s.fpOut d (prec p)
      (f (prec p) s.me.ctl (s.fBits a (prec p)) (s.fBits b (prec p)) (s.fBits d (prec p))))
/-- A comparison: all ones or 0 into g[d] (R118). -/
def fpCmp (word : Nat) (d a b : BitVec 5) (p : BitVec 1) (c : Num → Num → Bool) (quietOk : Bool) (s : State) :
    Host.Outcome State Fault Refusal :=
  withRegs word [.f a, .f b] [.g d] s fun s =>
    let r := (prec p).compare c quietOk (s.fBits a (prec p)) (s.fBits b (prec p))
    .ok (.fall 4) ((s.writeG d (if r.1 then -1 else 0)).addFlags r.2)

/-- FADD (R116). -/
def execFadd (d a b : BitVec 5) (r : BitVec 3) (p : BitVec 1) (s : State) : Host.Outcome State Fault Refusal :=
  fp3 (wordFR 0x18 0 r.toNat b.toNat a.toNat d.toNat p.toNat) d a b p (fun f c x y => f.add (arithMode c r) x y) s
/-- FSUB (R116). -/
def execFsub (d a b : BitVec 5) (r : BitVec 3) (p : BitVec 1) (s : State) : Host.Outcome State Fault Refusal :=
  fp3 (wordFR 0x18 1 r.toNat b.toNat a.toNat d.toNat p.toNat) d a b p (fun f c x y => f.sub (arithMode c r) x y) s
/-- FMUL (R116). -/
def execFmul (d a b : BitVec 5) (r : BitVec 3) (p : BitVec 1) (s : State) : Host.Outcome State Fault Refusal :=
  fp3 (wordFR 0x18 2 r.toNat b.toNat a.toNat d.toNat p.toNat) d a b p (fun f c x y => f.mul (arithMode c r) x y) s
/-- FDIV (R116). -/
def execFdiv (d a b : BitVec 5) (r : BitVec 3) (p : BitVec 1) (s : State) : Host.Outcome State Fault Refusal :=
  fp3 (wordFR 0x18 3 r.toNat b.toNat a.toNat d.toNat p.toNat) d a b p (fun f c x y => f.div (arithMode c r) x y) s
/-- FSQRT (R116). -/
def execFsqrt (d a : BitVec 5) (r : BitVec 3) (p : BitVec 1) (s : State) : Host.Outcome State Fault Refusal :=
  fp2 (wordFR 0x18 4 r.toNat 0 a.toNat d.toNat p.toNat) d a p (fun f c x => f.sqrt (arithMode c r) x) s
/-- FFMA (R117). -/
def execFfma (d a b : BitVec 5) (r : BitVec 3) (p : BitVec 1) (s : State) : Host.Outcome State Fault Refusal :=
  fp4 (wordFR 0x19 0 r.toNat b.toNat a.toNat d.toNat p.toNat) d a b p
    (fun f c x y z => f.fma (arithMode c r) false false x y z) s
/-- FFMS (R117). -/
def execFfms (d a b : BitVec 5) (r : BitVec 3) (p : BitVec 1) (s : State) : Host.Outcome State Fault Refusal :=
  fp4 (wordFR 0x19 1 r.toNat b.toNat a.toNat d.toNat p.toNat) d a b p
    (fun f c x y z => f.fma (arithMode c r) false true x y z) s
/-- FFNMA (R117). -/
def execFfnma (d a b : BitVec 5) (r : BitVec 3) (p : BitVec 1) (s : State) : Host.Outcome State Fault Refusal :=
  fp4 (wordFR 0x19 2 r.toNat b.toNat a.toNat d.toNat p.toNat) d a b p
    (fun f c x y z => f.fma (arithMode c r) true false x y z) s
/-- FMIN (R118). -/
def execFmin (d a b : BitVec 5) (p : BitVec 1) (s : State) : Host.Outcome State Fault Refusal :=
  fp3 (wordFR 0x1A 0 0 b.toNat a.toNat d.toNat p.toNat) d a b p (fun f _ x y => f.minmax false x y) s
/-- FMAX (R118). -/
def execFmax (d a b : BitVec 5) (p : BitVec 1) (s : State) : Host.Outcome State Fault Refusal :=
  fp3 (wordFR 0x1A 1 0 b.toNat a.toNat d.toNat p.toNat) d a b p (fun f _ x y => f.minmax true x y) s
/-- FEQ (R118). -/
def execFeq (d a b : BitVec 5) (p : BitVec 1) (s : State) : Host.Outcome State Fault Refusal :=
  fpCmp (wordFR 0x1A 2 0 b.toNat a.toNat d.toNat p.toNat) d a b p cmpEq true s
/-- FLT (R118). -/
def execFlt (d a b : BitVec 5) (p : BitVec 1) (s : State) : Host.Outcome State Fault Refusal :=
  fpCmp (wordFR 0x1A 3 0 b.toNat a.toNat d.toNat p.toNat) d a b p cmpLt false s
/-- FLE (R118). -/
def execFle (d a b : BitVec 5) (p : BitVec 1) (s : State) : Host.Outcome State Fault Refusal :=
  fpCmp (wordFR 0x1A 4 0 b.toNat a.toNat d.toNat p.toNat) d a b p cmpLe false s
/-- FCLASS (R118). -/
def execFclass (d a : BitVec 5) (p : BitVec 1) (s : State) : Host.Outcome State Fault Refusal :=
  withRegs (wordFR 0x1A 5 0 0 a.toNat d.toNat p.toNat) [.f a] [.g d] s fun s =>
    .ok (.fall 4) (s.writeG d ((prec p).classWord (s.fBits a (prec p))))
/-- FSGNJ (R119). -/
def execFsgnj (d a b : BitVec 5) (p : BitVec 1) (s : State) : Host.Outcome State Fault Refusal :=
  fp3 (wordFR 0x1B 0 0 b.toNat a.toNat d.toNat p.toNat) d a b p (fun f _ x y => (f.withSign x (y.testBit (f.width - 1)), 0)) s
/-- FSGNJN (R119). -/
def execFsgnjn (d a b : BitVec 5) (p : BitVec 1) (s : State) : Host.Outcome State Fault Refusal :=
  fp3 (wordFR 0x1B 1 0 b.toNat a.toNat d.toNat p.toNat) d a b p (fun f _ x y => (f.withSign x (!y.testBit (f.width - 1)), 0)) s
/-- FSGNJX (R119). -/
def execFsgnjx (d a b : BitVec 5) (p : BitVec 1) (s : State) : Host.Outcome State Fault Refusal :=
  fp3 (wordFR 0x1B 2 0 b.toNat a.toNat d.toNat p.toNat) d a b p (fun f _ x y => (f.withSign x (x.testBit (f.width - 1) != y.testBit (f.width - 1)), 0)) s
/-- FMVG (R120). -/
def execFmvg (d a : BitVec 5) (s : State) : Host.Outcome State Fault Refusal :=
  withRegs (wordFR 0x1D 0 0 0 a.toNat d.toNat 0) [.f a] [.g d] s fun s => .ok (.fall 4) (s.writeG d (s.me.getF a))
/-- FMVF (R120). -/
def execFmvf (d a : BitVec 5) (s : State) : Host.Outcome State Fault Refusal :=
  withRegs (wordFR 0x1D 0 0 0 a.toNat d.toNat 1) [.g a] [.f d] s fun s => .ok (.fall 4) (s.writeF d (s.me.getG a))
/-- FRCPA (R123). -/
def execFrcpa (d a : BitVec 5) (p : BitVec 1) (s : State) : Host.Outcome State Fault Refusal :=
  fp2 (wordFR 0x1E 0 0 0 a.toNat d.toNat p.toNat) d a p (fun f _ x => f.recip x) s
/-- FRSQA (R124). -/
def execFrsqa (d a : BitVec 5) (p : BitVec 1) (s : State) : Host.Outcome State Fault Refusal :=
  fp2 (wordFR 0x1E 1 0 0 a.toNat d.toNat p.toNat) d a p (fun f _ x => f.rsqrt x) s
/-- FRCPR (R125). -/
def execFrcpr (d a b : BitVec 5) (r : BitVec 3) (p : BitVec 1) (s : State) : Host.Outcome State Fault Refusal :=
  fp3 (wordFR 0x1E 2 r.toNat b.toNat a.toNat d.toNat p.toNat) d a b p (fun f c x y => f.newton (arithMode c r) false x y) s
/-- FRSQR (R125). -/
def execFrsqr (d a b : BitVec 5) (r : BitVec 3) (p : BitVec 1) (s : State) : Host.Outcome State Fault Refusal :=
  fp3 (wordFR 0x1E 3 r.toNat b.toNat a.toNat d.toNat p.toNat) d a b p (fun f c x y => f.newton (arithMode c r) true x y) s

/-- A conversion rounds by SR and takes one draw when a floating-point type takes part (R35, R36, R122). -/
def drawsFor (s d : Nat) (mode : Rnd) : Bool := mode = .sr && (s < 7 || d < 7)
/-- An integer result in a g register (R122). -/
def intToG (t : Nat) (x : Nat) : Word :=
  if intSigned t then sextW (typeBits t) (BitVec.ofNat 64 x) else zextW (typeBits t) (BitVec.ofNat 64 x)
/-- FCVT from type s to type t (R121, R122). -/
def execFcvt (d a : BitVec 5) (r : BitVec 3) (s t : BitVec 4) (st : State) : Host.Outcome State Fault Refusal :=
  let w := word32 (r.toNat * 8192 + s.toNat * 512 + t.toNat * 32 + a.toNat) 0x1C d.toNat 0
  let src := s.toNat
  let dst := t.toNat
  withRegs w [if src < 7 then .f a else .g a] [if dst < 7 then .f d else .g d] st fun st =>
    let c := st.me.ctl
    let mode := convMode c r
    let x := (if src < 7 then st.me.getF a else st.me.getG a).toNat % 2 ^ typeBits src
    let seed := if drawsFor src dst mode then draw c.rseed else c.rseed
    let v := convert src dst mode c.ovn (drawWord seed) x
    let st := (st.withCtl fun c => { c with rseed := seed }).addFlags v.2
    .ok (.fall 4) (if dst < 7 then st.writeF d (boxF (typeBits dst) v.1) else st.writeG d (intToG dst v.1))

end Sys2Proof.Machine
end

