-- ==== Sys2Proof/Machine/Packed.lean ====
section
/-! DEFINITION. Packed vector instructions (R126 to R134) and the 16-bit CV forms (R75). -/

namespace Sys2Proof.Machine

/-- Lanes of `w` bits from bit 0 up (R57). -/
def lanes (w n : Nat) (x : Nat) : List Nat := (List.range n).map fun i => nbits x (w * i) w
/-- A register from lanes of `w` bits. -/
def ofLanes (w : Nat) : List Nat → Nat
  | [] => 0
  | x :: t => x % 2 ^ w + 2 ^ w * ofLanes w t
/-- Bits of a lane type (R77). -/
def laneW (t : BitVec 3) : Nat :=
  match t.toNat with
  | 0 => 8 | 1 => 16 | 2 => 32 | 3 => 64 | 4 => 32 | 5 => 64 | _ => 16
/-- The format of a floating-point lane type (R77). -/
def laneFmt (t : BitVec 3) : Fmt :=
  match t.toNat with
  | 4 => f32 | 5 => f64 | 6 => bf16 | _ => f16
def isIntLane (t : BitVec 3) : Bool := t.toNat < 4
def State.vLanes (s : State) (r : BitVec 4) (t : BitVec 3) : List Nat := lanes (laneW t) (128 / laneW t) (s.me.getV r).toNat
/-- Lanes and flags of a result into vd, the flags of all lanes ORed together (R127). -/
def State.vOut (s : State) (d : BitVec 4) (w : Nat) (r : List (Nat × FFlags)) : State :=
  (s.writeV d (BitVec.ofNat 128 (ofLanes w (r.map (·.1))))).addFlags (r.foldl (fun a x => a ||| x.2) 0)
/-- A lane read as signed, or as unsigned with the .n modifier (R126). -/
def laneInt (w : Nat) (uns : Bool) (x : Nat) : Int := if uns then x else (BitVec.ofNat w x).toInt
/-- An exact value kept to a lane: wrapping, or clamped to the signed or unsigned range (R126). -/
def laneSat (w : Nat) (c : Nat) (v : Int) : Nat :=
  let lo : Int := if c = 1 then -2 ^ (w - 1) else 0
  let hi : Int := if c = 1 then 2 ^ (w - 1) - 1 else 2 ^ w - 1
  (BitVec.ofInt w (if c = 0 then v else if v < lo then lo else if hi < v then hi else v)).toNat
/-- The dynamic mode of vector instructions (R127). -/
def vMode (c : Ctl) : Rnd := arithMode c 7

/-- A two-source lane operation: an integer one with its modifier, or a floating-point one. -/
def vec3 (len word : Nat) (d a b : BitVec 4) (c : Nat) (t : BitVec 3) (fi : Nat → Nat → Nat → Nat → Nat)
    (ff : Fmt → Rnd → Nat → Nat → Nat × FFlags) (s : State) : Host.Outcome State Fault Refusal :=
  withRegs word [.v a, .v b] [.v d] s fun s =>
    let w := laneW t
    let op := fun (p : Nat × Nat) =>
      if isIntLane t then (fi w c p.1 p.2, 0) else ff (laneFmt t) (vMode s.me.ctl) p.1 p.2
    .ok (.fall len) (s.vOut d w (((s.vLanes a t).zip (s.vLanes b t)).map op))
/-- A one-source lane operation. -/
def vec2 (word : Nat) (d a : BitVec 4) (c : Nat) (t : BitVec 3) (fi : Nat → Nat → Nat → Nat)
    (ff : Fmt → Nat → Nat × FFlags) (s : State) : Host.Outcome State Fault Refusal :=
  withRegs word [.v a] [.v d] s fun s =>
    let w := laneW t
    .ok (.fall 4) (s.vOut d w ((s.vLanes a t).map fun x => if isIntLane t then (fi w c x, 0) else ff (laneFmt t) x))
/-- A bitwise operation over 128 bits (R127). -/
def vecBits (len word : Nat) (d a b : BitVec 4) (f : Vec → Vec → Vec) (s : State) : Host.Outcome State Fault Refusal :=
  withRegs word [.v a, .v b] [.v d] s fun s => .ok (.fall len) (s.writeV d (f (s.me.getV a) (s.me.getV b)))

/-- The exact sum or difference of lanes: signed for .ssat, unsigned for .nsat (R126). -/
def vAddI (sub : Bool) (w c x y : Nat) : Nat :=
  let a := laneInt w (c = 2) x
  let b := laneInt w (c = 2) y
  laneSat w c (if sub then a - b else a + b)
def vMulI (w _c x y : Nat) : Nat := x * y % 2 ^ w
def vMinMaxI (max_ : Bool) (w c x y : Nat) : Nat :=
  if (laneInt w (c = 1) x ≤ laneInt w (c = 1) y) != max_ then x else y
def vAbsdI (w c x y : Nat) : Nat := (laneInt w (c = 1) x - laneInt w (c = 1) y).natAbs % 2 ^ w
def vCmpI (f : Int → Int → Bool) (w c x y : Nat) : Nat :=
  if f (laneInt w (c = 1) x) (laneInt w (c = 1) y) then 2 ^ w - 1 else 0
def vCmpF (c : Num → Num → Bool) (quietOk : Bool) (f : Fmt) (_m : Rnd) (x y : Nat) : Nat × FFlags :=
  let r := f.compare c quietOk x y
  (if r.1 then 2 ^ f.width - 1 else 0, r.2)
/-- round(|a − b|), an exact zero +0 under every mode (R127). -/
def vAbsdF (f : Fmt) (m : Rnd) (x y : Nat) : Nat × FFlags :=
  let a := f.decode x
  let b := f.decode y
  (f.nanOf [a, b]).getD (
    match a, b with
    | .inf p, .inf q => if p = q then f.invalid else (f.infBits false, 0)
    | .inf _, _ => (f.infBits false, 0)
    | _, .inf _ => (f.infBits false, 0)
    | a, b => let k := a.dyad.sub b.dyad; f.roundDyad m false ⟨k.k.natAbs, k.e⟩)
def vShiftI (f : Nat → Nat → Nat → Nat) (w _c x y : Nat) : Nat := f w x (y % w)
def shlN (w x s : Nat) : Nat := x * 2 ^ s % 2 ^ w
def shrN (_w x s : Nat) : Nat := x / 2 ^ s
def sraN (w x s : Nat) : Nat := (BitVec.ofInt w ((BitVec.ofNat w x).toInt / 2 ^ s)).toNat
def noFloat (_f : Fmt) (_m : Rnd) (_x _y : Nat) : Nat × FFlags := (0, 0)

/-- VADD (R127). -/
def execVadd (d a b c : BitVec 4) (t : BitVec 3) (s : State) : Host.Outcome State Fault Refusal :=
  vec3 4 (wordV 0x20 0 c.toNat b.toNat a.toNat d.toNat t.toNat) d a b c.toNat t (vAddI false) (fun f m x y => f.add m x y) s
/-- VSUB (R127). -/
def execVsub (d a b c : BitVec 4) (t : BitVec 3) (s : State) : Host.Outcome State Fault Refusal :=
  vec3 4 (wordV 0x20 1 c.toNat b.toNat a.toNat d.toNat t.toNat) d a b c.toNat t (vAddI true) (fun f m x y => f.sub m x y) s
/-- VMUL (R127). -/
def execVmul (d a b c : BitVec 4) (t : BitVec 3) (s : State) : Host.Outcome State Fault Refusal :=
  vec3 4 (wordV 0x20 2 c.toNat b.toNat a.toNat d.toNat t.toNat) d a b c.toNat t vMulI (fun f m x y => f.mul m x y) s
/-- VMIN (R127). -/
def execVmin (d a b c : BitVec 4) (t : BitVec 3) (s : State) : Host.Outcome State Fault Refusal :=
  vec3 4 (wordV 0x20 4 c.toNat b.toNat a.toNat d.toNat t.toNat) d a b c.toNat t (vMinMaxI false) (fun f _ x y => f.minmax false x y) s
/-- VMAX (R127). -/
def execVmax (d a b c : BitVec 4) (t : BitVec 3) (s : State) : Host.Outcome State Fault Refusal :=
  vec3 4 (wordV 0x20 5 c.toNat b.toNat a.toNat d.toNat t.toNat) d a b c.toNat t (vMinMaxI true) (fun f _ x y => f.minmax true x y) s
/-- VABSD (R127). -/
def execVabsd (d a b c : BitVec 4) (t : BitVec 3) (s : State) : Host.Outcome State Fault Refusal :=
  vec3 4 (wordV 0x20 7 c.toNat b.toNat a.toNat d.toNat t.toNat) d a b c.toNat t vAbsdI vAbsdF s
/-- VSHL (R127). -/
def execVshl (d a b : BitVec 4) (t : BitVec 3) (s : State) : Host.Outcome State Fault Refusal :=
  vec3 4 (wordV 0x21 4 0 b.toNat a.toNat d.toNat t.toNat) d a b 0 t (vShiftI shlN) noFloat s
/-- VSHR (R127). -/
def execVshr (d a b : BitVec 4) (t : BitVec 3) (s : State) : Host.Outcome State Fault Refusal :=
  vec3 4 (wordV 0x21 5 0 b.toNat a.toNat d.toNat t.toNat) d a b 0 t (vShiftI shrN) noFloat s
/-- VSRA (R127). -/
def execVsra (d a b : BitVec 4) (t : BitVec 3) (s : State) : Host.Outcome State Fault Refusal :=
  vec3 4 (wordV 0x21 6 0 b.toNat a.toNat d.toNat t.toNat) d a b 0 t (vShiftI sraN) noFloat s
/-- VCMPEQ (R127). -/
def execVcmpeq (d a b : BitVec 4) (t : BitVec 3) (s : State) : Host.Outcome State Fault Refusal :=
  vec3 4 (wordV 0x22 0 0 b.toNat a.toNat d.toNat t.toNat) d a b 0 t (vCmpI fun x y => x = y) (vCmpF cmpEq true) s
/-- VCMPLT (R127). -/
def execVcmplt (d a b c : BitVec 4) (t : BitVec 3) (s : State) : Host.Outcome State Fault Refusal :=
  vec3 4 (wordV 0x22 1 c.toNat b.toNat a.toNat d.toNat t.toNat) d a b c.toNat t (vCmpI fun x y => x < y) (vCmpF cmpLt false) s
/-- VCMPLE (R127). -/
def execVcmple (d a b c : BitVec 4) (t : BitVec 3) (s : State) : Host.Outcome State Fault Refusal :=
  vec3 4 (wordV 0x22 2 c.toNat b.toNat a.toNat d.toNat t.toNat) d a b c.toNat t (vCmpI fun x y => x ≤ y) (vCmpF cmpLe false) s
/-- VAND (R127). -/
def execVand (d a b : BitVec 4) (s : State) : Host.Outcome State Fault Refusal :=
  vecBits 4 (wordV 0x21 0 0 b.toNat a.toNat d.toNat 0) d a b (fun x y => x &&& y) s
/-- VOR (R127). -/
def execVor (d a b : BitVec 4) (s : State) : Host.Outcome State Fault Refusal :=
  vecBits 4 (wordV 0x21 1 0 b.toNat a.toNat d.toNat 0) d a b (fun x y => x ||| y) s
/-- VXOR (R127). -/
def execVxor (d a b : BitVec 4) (s : State) : Host.Outcome State Fault Refusal :=
  vecBits 4 (wordV 0x21 2 0 b.toNat a.toNat d.toNat 0) d a b (fun x y => x ^^^ y) s
/-- VNOT (R127). -/
def execVnot (d a : BitVec 4) (s : State) : Host.Outcome State Fault Refusal :=
  vecBits 4 (wordV 0x21 3 0 0 a.toNat d.toNat 0) d a a (fun x _ => ~~~x) s
/-- VABS (R127): the sign bit only for floats; −2^(w−1) stays, or saturates with .ssat. -/
def execVabs (d a c : BitVec 4) (t : BitVec 3) (s : State) : Host.Outcome State Fault Refusal :=
  vec2 (wordV 0x20 6 c.toNat 0 a.toNat d.toNat t.toNat) d a c.toNat t (fun w c x => laneSat w c (laneInt w false x).natAbs)
    (fun f x => (f.withSign x false, 0)) s
/-- VNEG (R127). -/
def execVneg (d a c : BitVec 4) (t : BitVec 3) (s : State) : Host.Outcome State Fault Refusal :=
  vec2 (wordV 0x20 8 c.toNat 0 a.toNat d.toNat t.toNat) d a c.toNat t (fun w c x => laneSat w c (-(laneInt w false x)))
    (fun f x => (f.withSign x (!x.testBit (f.width - 1)), 0)) s
/-- VFMA (R126, R127): va × vb + vc, vc a register for every lane type. -/
def execVfma (d a b c : BitVec 4) (t : BitVec 3) (s : State) : Host.Outcome State Fault Refusal :=
  withRegs (wordV 0x20 3 c.toNat b.toNat a.toNat d.toNat t.toNat) [.v a, .v b, .v c] [.v d] s fun s =>
    let w := laneW t
    let op := fun (p : Nat × Nat × Nat) =>
      if isIntLane t then ((p.1 * p.2.1 + p.2.2) % 2 ^ w, (0 : FFlags))
      else (laneFmt t).fma (vMode s.me.ctl) false false p.1 p.2.1 p.2.2
    .ok (.fall 4) (s.vOut d w (((s.vLanes a t).zip ((s.vLanes b t).zip (s.vLanes c t))).map op))
/-- VSEL (R127): by the lanes of vc, raw bits of any type. -/
def execVsel (d a b c : BitVec 4) (t : BitVec 3) (s : State) : Host.Outcome State Fault Refusal :=
  withRegs (wordV 0x22 3 c.toNat b.toNat a.toNat d.toNat t.toNat) [.v a, .v b, .v c] [.v d] s fun s =>
    let op := fun (p : Nat × Nat × Nat) => (if p.2.2 ≠ 0 then p.1 else p.2.1, (0 : FFlags))
    .ok (.fall 4) (s.vOut d (laneW t) (((s.vLanes a t).zip ((s.vLanes b t).zip (s.vLanes c t))).map op))

/-- One 32-bit lane of a floating-point VDOT: products exact, one rounding with the old lane (R128). The model's choices (log 18):
a lane with a NaN and a product 0 × ∞ gives the NaN with Invalid, one with a NaN and opposite infinities the NaN without; an
exactly zero sum is −0 where every term is −0, +0 where every term is +0, and else as the sum of two of them (R116). -/
def dotLane (f : Fmt) (m : Rnd) (xs ys : List Nat) (z : Nat) : Nat × FFlags :=
  let a := xs.map f.decode
  let b := ys.map f.decode
  let c := f32.decode z
  let ps := a.zip b
  let bad := ps.any fun p => p.1.badMul p.2
  let toF32 (x : Num) : Num := match x with
    | .nan s k q => .nan s (k * 2 ^ (23 - f.mant)) q
    | x => x
  match f32.nanOf ((a ++ b).map toF32 ++ [c]) with
  | some r => (r.1, r.2 ||| if bad then flagNV else 0)
  | none =>
    if bad then f32.invalid else
    let terms := ps.map (fun p => p.1.mul p.2) ++ [c]
    let pos := terms.any fun x => x.isInf && !x.neg
    let neg := terms.any fun x => x.isInf && x.neg
    if pos && neg then f32.invalid
    else if pos || neg then (f32.infBits neg, 0)
    else
      let zneg := if terms.all (fun x => x.isZero && x.neg) then true
        else if terms.all (fun x => x.isZero && !x.neg) then false else m = .rdn
      f32.roundDyad m zneg (terms.foldl (fun s x => s.add x.dyad) .zero)
/-- VDOT (R128). -/
def execVdot (d a b : BitVec 4) (t : BitVec 3) (s : State) : Host.Outcome State Fault Refusal :=
  withRegs (wordV 0x20 9 0 b.toNat a.toNat d.toNat t.toNat) [.v a, .v b, .v d] [.v d] s fun s =>
    let w := laneW t
    let lane := fun (i : Nat) =>
      let xs := lanes w (32 / w) (nbits (s.me.getV a).toNat (32 * i) 32)
      let ys := lanes w (32 / w) (nbits (s.me.getV b).toNat (32 * i) 32)
      let z := nbits (s.me.getV d).toNat (32 * i) 32
      if isIntLane t then
        ((BitVec.ofInt 32 (z + ((xs.zip ys).map fun p => laneInt w false p.1 * laneInt w false p.2).sum)).toNat, (0 : FFlags))
      else dotLane (laneFmt t) (vMode s.me.ctl) xs ys z
    .ok (.fall 4) (s.vOut d 32 ((List.range 4).map lane))

/-! ## Permutes and moves (R129) -/

/-- VPERM (R129). -/
def execVperm (d a b c : BitVec 4) (s : State) : Host.Outcome State Fault Refusal :=
  withRegs (wordV 0x23 0 c.toNat b.toNat a.toNat d.toNat 0) [.v a, .v b, .v c] [.v d] s fun s =>
    let src := lanes 8 16 (s.me.getV a).toNat ++ lanes 8 16 (s.me.getV b).toNat
    let op := fun (k : Nat) => if 128 ≤ k then 0 else src.getD (k % 32) 0
    .ok (.fall 4) (s.writeV d (BitVec.ofNat 128 (ofLanes 8 ((lanes 8 16 (s.me.getV c).toNat).map op))))
/-- VBCAST (R129). -/
def execVbcast (d b : BitVec 4) (t : BitVec 3) (s : State) : Host.Outcome State Fault Refusal :=
  withRegs (wordV 0x23 1 0 b.toNat 0 d.toNat t.toNat) [.g (b.setWidth 5)] [.v d] s fun s =>
    .ok (.fall 4) (s.writeV d (BitVec.ofNat 128 (ofLanes (laneW t)
      (List.replicate (128 / laneW t) (s.me.getG (b.setWidth 5)).toNat))))
/-- VINS (R129). -/
def execVins (d b c : BitVec 4) (t : BitVec 3) (s : State) : Host.Outcome State Fault Refusal :=
  withRegs (wordV 0x23 2 c.toNat b.toNat 0 d.toNat t.toNat) [.g (b.setWidth 5), .v d] [.v d] s fun s =>
    .ok (.fall 4) (s.writeV d (BitVec.ofNat 128 (ofLanes (laneW t)
      (setAt (s.vLanes d t) c.toNat (s.me.getG (b.setWidth 5)).toNat))))
/-- VEXT (R129). -/
def execVext (d a c : BitVec 4) (t : BitVec 3) (s : State) : Host.Outcome State Fault Refusal :=
  withRegs (wordV 0x23 3 c.toNat 0 a.toNat d.toNat t.toNat) [.v a] [.g (d.setWidth 5)] s fun s =>
    let x := BitVec.ofNat 64 ((s.vLanes a t).getD c.toNat 0)
    .ok (.fall 4) (s.writeG (d.setWidth 5) (if isIntLane t then sextW (laneW t) x else x))

/-! ## Reductions, conversion, threshold, estimates (R130 to R134) -/

/-- One stage of the pairwise tree: lanes 2i and 2i + 1 become one (R130). -/
def treeStage (f : Nat → Nat → Nat × FFlags) : List Nat → List Nat × FFlags
  | x :: y :: t =>
    let r := f x y
    let u := treeStage f t
    (r.1 :: u.1, r.2 ||| u.2)
  | l => (l, 0)
/-- The tree until one value is left, in at most `n` stages (R130). -/
def tree (f : Nat → Nat → Nat × FFlags) : Nat → List Nat → Nat × FFlags
  | 0, l => (l.headD 0, 0)
  | n + 1, l =>
    match l with
    | [x] => (x, 0)
    | l =>
      let u := treeStage f l
      let r := tree f n u.1
      (r.1, u.2 ||| r.2)
/-- A reduction into lane 0, every other lane 0 (R130). -/
def reduce (word : Nat) (d a : BitVec 4) (c : Nat) (t : BitVec 3) (fi : Nat → Nat → Nat → Nat → Nat)
    (ff : Fmt → Rnd → Nat → Nat → Nat × FFlags) (s : State) : Host.Outcome State Fault Refusal :=
  withRegs word [.v a] [.v d] s fun s =>
    let f := fun x y => if isIntLane t then (fi (laneW t) c x y, 0) else ff (laneFmt t) (vMode s.me.ctl) x y
    .ok (.fall 4) (s.vOut d (laneW t) [tree f 4 (s.vLanes a t)])
/-- VREDADD (R130). -/
def execVredadd (d a : BitVec 4) (t : BitVec 3) (s : State) : Host.Outcome State Fault Refusal :=
  reduce (wordV 0x24 0 0 0 a.toNat d.toNat t.toNat) d a 0 t (vAddI false) (fun f m x y => f.add m x y) s
/-- VREDMIN (R130). -/
def execVredmin (d a c : BitVec 4) (t : BitVec 3) (s : State) : Host.Outcome State Fault Refusal :=
  reduce (wordV 0x24 1 c.toNat 0 a.toNat d.toNat t.toNat) d a c.toNat t (vMinMaxI false) (fun f _ x y => f.minmax false x y) s
/-- VREDMAX (R130). -/
def execVredmax (d a c : BitVec 4) (t : BitVec 3) (s : State) : Host.Outcome State Fault Refusal :=
  reduce (wordV 0x24 2 c.toNat 0 a.toNat d.toNat t.toNat) d a c.toNat t (vMinMaxI true) (fun f _ x y => f.minmax true x y) s
/-- Elements converted in order, one draw each under SR: results, flags, the generator's state (R36, R131). -/
def convertAll (src dst : Nat) (mode : Rnd) (ovn : Bool) (seed : BitVec 32) : List Nat → List Nat × FFlags × BitVec 32
  | [] => ([], 0, seed)
  | x :: t =>
    let seed := if drawsFor src dst mode then draw seed else seed
    let v := convert src dst mode ovn (drawWord seed) x
    let r := convertAll src dst mode ovn seed t
    (v.1 :: r.1, v.2 ||| r.2.1, r.2.2)
/-- VCVT (R131): destination type in vb, source type in vc. -/
def execVcvt (d a b c : BitVec 4) (r : BitVec 3) (s : State) : Host.Outcome State Fault Refusal :=
  withRegs (wordV 0x24 3 c.toNat b.toNat a.toNat d.toNat r.toNat) [.v a] [.v d] s fun s =>
    let ws := typeBits c.toNat
    let wd := typeBits b.toNat
    let k := s.me.ctl
    let v := convertAll c.toNat b.toNat (convMode k r) k.ovn k.rseed
      (lanes ws (128 / max ws wd) (s.me.getV a).toNat)
    .ok (.fall 4) (((s.withCtl fun c => { c with rseed := v.2.2 }).addFlags v.2.1).writeV d
      (BitVec.ofNat 128 (ofLanes wd v.1)))
/-- VPACK (R132). -/
def execVpack (d a b c : BitVec 4) (t : BitVec 3) (s : State) : Host.Outcome State Fault Refusal :=
  withRegs (wordV 0x24 4 c.toNat b.toNat a.toNat d.toNat t.toNat) [.v a, .v b] [.v d] s fun s =>
    let w := laneW t
    .ok (.fall 4) (s.writeV d (BitVec.ofNat 128 (ofLanes (w / 2)
      ((s.vLanes a t ++ s.vLanes b t).map fun x => laneSat (w / 2) c.toNat (laneInt w false x)))))
/-- VUNPK (R132): vc[0] zero-extends, vc[1] takes the upper half. -/
def execVunpk (d a c : BitVec 4) (t : BitVec 3) (s : State) : Host.Outcome State Fault Refusal :=
  withRegs (wordV 0x24 5 c.toNat 0 a.toNat d.toNat t.toNat) [.v a] [.v d] s fun s =>
    let w := laneW t
    let half := if bit c 1 then (s.me.getV a).toNat / 2 ^ 64 else (s.me.getV a).toNat % 2 ^ 64
    .ok (.fall 4) (s.writeV d (BitVec.ofNat 128 (ofLanes w
      ((lanes (w / 2) (128 / w) half).map fun x => (BitVec.ofInt w (laneInt (w / 2) (bit c 0) x)).toNat))))
/-- The lanes of VTHR in order, with the sum and the count so far (R133). -/
def threshold (f : Fmt) (thr : Nat) : List Nat → Nat → Word → List Nat × Nat × Word
  | [], sum, cnt => ([], sum, cnt)
  | x :: t, sum, cnt =>
    let a := f.decode x
    let h := f32.decode thr
    let mag := f.decode (f.withSign x false)
    if !a.isNan && !h.isNan && mag.lt h then
      let m := (floatToFloat f f32 .rne false 0 (f.withSign x false)).1
      let r := threshold f thr t (f32.add .rne sum m).1 (cnt + 1)
      (0 :: r.1, r.2)
    else
      let r := threshold f thr t sum cnt
      (x :: r.1, r.2)
/-- VTHR (R133): no flag is raised; a SUM that holds a NaN stays that NaN. -/
def execVthr (d a : BitVec 4) (t : BitVec 3) (s : State) : Host.Outcome State Fault Refusal :=
  withRegs (wordV 0x24 6 0 0 a.toNat d.toNat t.toNat) [.v a] [.v d] s fun s =>
    let k := s.me.ctl
    let r := threshold (laneFmt t) k.athr.toNat (s.vLanes a t) k.adrop.toNat k.adcnt
    let sum := if (f32.decode k.adrop.toNat).isNan then k.adrop else BitVec.ofNat 32 r.2.1
    .ok (.fall 4) ((s.withCtl fun c => { c with adrop := sum, adcnt := r.2.2 }).writeV d
      (BitVec.ofNat 128 (ofLanes (laneW t) r.1)))
/-- VRCPA (R134). -/
def execVrcpa (d a : BitVec 4) (t : BitVec 3) (s : State) : Host.Outcome State Fault Refusal :=
  vec2 (wordV 0x24 7 0 0 a.toNat d.toNat t.toNat) d a 0 t (fun _ _ x => x) (fun f x => f.recip x) s
/-- VRSQA (R134). -/
def execVrsqa (d a : BitVec 4) (t : BitVec 3) (s : State) : Host.Outcome State Fault Refusal :=
  vec2 (wordV 0x24 8 0 0 a.toNat d.toNat t.toNat) d a 0 t (fun _ _ x => x) (fun f x => f.rsqrt x) s

/-! ## The CV forms (R75) -/

/-- CV fn 0 (R75). -/
def execVorCv (d a : BitVec 4) (s : State) : Host.Outcome State Fault Refusal :=
  vecBits 2 (word16 6 0 d.toNat a.toNat) d a a (fun x y => x ||| y) s
/-- CV fn 1 (R75). -/
def execVaddS32Cv (d a : BitVec 4) (s : State) : Host.Outcome State Fault Refusal :=
  vec3 2 (word16 6 1 d.toNat a.toNat) d d a 0 2 (vAddI false) (fun f m x y => f.add m x y) s
/-- CV fn 2 (R75). -/
def execVsubS32Cv (d a : BitVec 4) (s : State) : Host.Outcome State Fault Refusal :=
  vec3 2 (word16 6 2 d.toNat a.toNat) d d a 0 2 (vAddI true) (fun f m x y => f.sub m x y) s
/-- CV fn 3 (R75). -/
def execVaddF32Cv (d a : BitVec 4) (s : State) : Host.Outcome State Fault Refusal :=
  vec3 2 (word16 6 3 d.toNat a.toNat) d d a 0 4 (vAddI false) (fun f m x y => f.add m x y) s
/-- CV fn 4 (R75). -/
def execVsubF32Cv (d a : BitVec 4) (s : State) : Host.Outcome State Fault Refusal :=
  vec3 2 (word16 6 4 d.toNat a.toNat) d d a 0 4 (vAddI true) (fun f m x y => f.sub m x y) s
/-- CV fn 5 (R75). -/
def execVmulF32Cv (d a : BitVec 4) (s : State) : Host.Outcome State Fault Refusal :=
  vec3 2 (word16 6 5 d.toNat a.toNat) d d a 0 4 vMulI (fun f m x y => f.mul m x y) s
/-- CV fn 6 (R75). -/
def execVmaxF32Cv (d a : BitVec 4) (s : State) : Host.Outcome State Fault Refusal :=
  vec3 2 (word16 6 6 d.toNat a.toNat) d d a 0 4 (vMinMaxI true) (fun f _ x y => f.minmax true x y) s
/-- CV fn 7 (R75). -/
def execVminF32Cv (d a : BitVec 4) (s : State) : Host.Outcome State Fault Refusal :=
  vec3 2 (word16 6 7 d.toNat a.toNat) d d a 0 4 (vMinMaxI false) (fun f _ x y => f.minmax false x y) s
/-- CV fn 8 (R75). -/
def execVandCv (d a : BitVec 4) (s : State) : Host.Outcome State Fault Refusal :=
  vecBits 2 (word16 6 8 d.toNat a.toNat) d d a (fun x y => x &&& y) s
/-- CV fn 9 (R75). -/
def execVxorCv (d a : BitVec 4) (s : State) : Host.Outcome State Fault Refusal :=
  vecBits 2 (word16 6 9 d.toNat a.toNat) d d a (fun x y => x ^^^ y) s
/-- CV fn 10 (R75). -/
def execVnotCv (d a : BitVec 4) (s : State) : Host.Outcome State Fault Refusal :=
  vecBits 2 (word16 6 10 d.toNat a.toNat) d a a (fun x _ => ~~~x) s

end Sys2Proof.Machine
end

