-- ==== Sys2Proof/Machine/Dispatch.lean ====
section
/-! DEFINITION. The meaning of each instruction and event: one arm per constructor. -/

namespace Sys2Proof.Machine

open Sys2Proof

def exec (i : Instr) (s : State) : Host.Outcome State Fault Refusal :=
  match i with
  | .add d a b w => Sys2Proof.Machine.execAdd d a b w s
  | .sub d a b w => Sys2Proof.Machine.execSub d a b w s
  | .mul d a b w => Sys2Proof.Machine.execMul d a b w s
  | .mulh d a b w => Sys2Proof.Machine.execMulh d a b w s
  | .mulhn d a b w => Sys2Proof.Machine.execMulhn d a b w s
  | .div d a b w => Sys2Proof.Machine.execDiv d a b w s
  | .divn d a b w => Sys2Proof.Machine.execDivn d a b w s
  | .rem d a b w => Sys2Proof.Machine.execRem d a b w s
  | .remn d a b w => Sys2Proof.Machine.execRemn d a b w s
  | .and d a b w => Sys2Proof.Machine.execAnd d a b w s
  | .or d a b w => Sys2Proof.Machine.execOr d a b w s
  | .xor d a b w => Sys2Proof.Machine.execXor d a b w s
  | .andn d a b w => Sys2Proof.Machine.execAndn d a b w s
  | .shl d a b w => Sys2Proof.Machine.execShl d a b w s
  | .shr d a b w => Sys2Proof.Machine.execShr d a b w s
  | .sra d a b w => Sys2Proof.Machine.execSra d a b w s
  | .rol d a b w => Sys2Proof.Machine.execRol d a b w s
  | .ror d a b w => Sys2Proof.Machine.execRor d a b w s
  | .min d a b w => Sys2Proof.Machine.execMin d a b w s
  | .max d a b w => Sys2Proof.Machine.execMax d a b w s
  | .minn d a b w => Sys2Proof.Machine.execMinn d a b w s
  | .maxn d a b w => Sys2Proof.Machine.execMaxn d a b w s
  | .slt d a b w => Sys2Proof.Machine.execSlt d a b w s
  | .sltn d a b w => Sys2Proof.Machine.execSltn d a b w s
  | .seq d a b w => Sys2Proof.Machine.execSeq d a b w s
  | .clz d a w => Sys2Proof.Machine.execClz d a w s
  | .ctz d a w => Sys2Proof.Machine.execCtz d a w s
  | .popc d a w => Sys2Proof.Machine.execPopc d a w s
  | .brev d a w => Sys2Proof.Machine.execBrev d a w s
  | .addi d a imm w => Sys2Proof.Machine.execAddi d a imm w s
  | .andi d a imm => Sys2Proof.Machine.execAndi d a imm s
  | .ori d a imm => Sys2Proof.Machine.execOri d a imm s
  | .xori d a imm => Sys2Proof.Machine.execXori d a imm s
  | .slti d a imm => Sys2Proof.Machine.execSlti d a imm s
  | .sel d a b c => Sys2Proof.Machine.execSel d a b c s
  | .shli d a w sc => Sys2Proof.Machine.execShli d a w sc s
  | .shri d a w sc => Sys2Proof.Machine.execShri d a w sc s
  | .srai d a w sc => Sys2Proof.Machine.execSrai d a w sc s
  | .ldhi d imm k => Sys2Proof.Machine.execLdhi d imm k s
  | .lea d a imm => Sys2Proof.Machine.execLea d a imm s
  | .leaScaled d a b sc => Sys2Proof.Machine.execLeaScaled d a b sc s
  | .leaRegion d a n o => Sys2Proof.Machine.execLeaRegion d a n o s
  | .bfx d a l p => Sys2Proof.Machine.execBfx d a l p s
  | .bfxn d a l p => Sys2Proof.Machine.execBfxn d a l p s
  | .bfi d a l p => Sys2Proof.Machine.execBfi d a l p s
  | .beq a b o => Sys2Proof.Machine.execBeq a b o s
  | .bne a b o => Sys2Proof.Machine.execBne a b o s
  | .blt a b o => Sys2Proof.Machine.execBlt a b o s
  | .bge a b o => Sys2Proof.Machine.execBge a b o s
  | .bltn a b o => Sys2Proof.Machine.execBltn a b o s
  | .bgen a b o => Sys2Proof.Machine.execBgen a b o s
  | .j o => Sys2Proof.Machine.execJ o s
  | .jal d o => Sys2Proof.Machine.execJal d o s
  | .jalr d a imm => Sys2Proof.Machine.execJalr d a imm s
  | .loop a imm => Sys2Proof.Machine.execLoop a imm s
  | .endTask => Sys2Proof.Machine.execEndTask s
  | .trap imm => Sys2Proof.Machine.execTrap imm s
  | .brk imm => Sys2Proof.Machine.execBrk imm s
  | .addCr d a => Sys2Proof.Machine.execAddCr d a s
  | .moveCr d a => Sys2Proof.Machine.execMoveCr d a s
  | .subCr d a => Sys2Proof.Machine.execSubCr d a s
  | .andCr d a => Sys2Proof.Machine.execAndCr d a s
  | .orCr d a => Sys2Proof.Machine.execOrCr d a s
  | .xorCr d a => Sys2Proof.Machine.execXorCr d a s
  | .shlCr d a => Sys2Proof.Machine.execShlCr d a s
  | .shrCr d a => Sys2Proof.Machine.execShrCr d a s
  | .sraCr d a => Sys2Proof.Machine.execSraCr d a s
  | .mulCr d a => Sys2Proof.Machine.execMulCr d a s
  | .jalrLinkCr a => Sys2Proof.Machine.execJalrLinkCr a s
  | .jalrNolinkCr a => Sys2Proof.Machine.execJalrNolinkCr a s
  | .addiCi d imm => Sys2Proof.Machine.execAddiCi d imm s
  | .addiZeroCi d imm => Sys2Proof.Machine.execAddiZeroCi d imm s
  | .shliCi d imm => Sys2Proof.Machine.execShliCi d imm s
  | .shriCi d imm => Sys2Proof.Machine.execShriCi d imm s
  | .sraiCi d imm => Sys2Proof.Machine.execSraiCi d imm s
  | .andiCi d imm => Sys2Proof.Machine.execAndiCi d imm s
  | .ldDCm d b o => Sys2Proof.Machine.execLdDCm d b o s
  | .stDCm d b o => Sys2Proof.Machine.execStDCm d b o s
  | .beqCb a o => Sys2Proof.Machine.execBeqCb a o s
  | .bneCb a o => Sys2Proof.Machine.execBneCb a o s
  | .bltCb a o => Sys2Proof.Machine.execBltCb a o s
  | .bgeCb a o => Sys2Proof.Machine.execBgeCb a o s
  | .jCj o => Sys2Proof.Machine.execJCj o s
  | .endCt => Sys2Proof.Machine.execEndCt s
  | .doneCt a => Sys2Proof.Machine.execDoneCt a s
  | .sendC a k => Sys2Proof.Machine.execSendC a k s
  | .vorCv d a => Sys2Proof.Machine.execVorCv d a s
  | .vaddS32Cv d a => Sys2Proof.Machine.execVaddS32Cv d a s
  | .vsubS32Cv d a => Sys2Proof.Machine.execVsubS32Cv d a s
  | .vaddF32Cv d a => Sys2Proof.Machine.execVaddF32Cv d a s
  | .vsubF32Cv d a => Sys2Proof.Machine.execVsubF32Cv d a s
  | .vmulF32Cv d a => Sys2Proof.Machine.execVmulF32Cv d a s
  | .vmaxF32Cv d a => Sys2Proof.Machine.execVmaxF32Cv d a s
  | .vminF32Cv d a => Sys2Proof.Machine.execVminF32Cv d a s
  | .vandCv d a => Sys2Proof.Machine.execVandCv d a s
  | .vxorCv d a => Sys2Proof.Machine.execVxorCv d a s
  | .vnotCv d a => Sys2Proof.Machine.execVnotCv d a s
  | .ld d a o sc imm w => Sys2Proof.Machine.execLd d a o sc imm w s
  | .ldIndex d a b o sc w => Sys2Proof.Machine.execLdIndex d a b o sc w s
  | .ldRegion d a n imm w => Sys2Proof.Machine.execLdRegion d a n imm w s
  | .st d a o sc imm w => Sys2Proof.Machine.execSt d a o sc imm w s
  | .stIndex d a b o sc w => Sys2Proof.Machine.execStIndex d a b o sc w s
  | .stRegion d a n imm w => Sys2Proof.Machine.execStRegion d a n imm w s
  | .ldv d a o sc imm => Sys2Proof.Machine.execLdv d a o sc imm s
  | .ldvIndex d a b o sc => Sys2Proof.Machine.execLdvIndex d a b o sc s
  | .ldvRegion d a n imm => Sys2Proof.Machine.execLdvRegion d a n imm s
  | .stv d a o sc imm => Sys2Proof.Machine.execStv d a o sc imm s
  | .stvIndex d a b o sc => Sys2Proof.Machine.execStvIndex d a b o sc s
  | .stvRegion d a n imm => Sys2Proof.Machine.execStvRegion d a n imm s
  | .ldf d a o sc imm => Sys2Proof.Machine.execLdf d a o sc imm s
  | .ldfIndex d a b o sc => Sys2Proof.Machine.execLdfIndex d a b o sc s
  | .stf d a o sc imm => Sys2Proof.Machine.execStf d a o sc imm s
  | .stfIndex d a b o sc => Sys2Proof.Machine.execStfIndex d a b o sc s
  | .ste d a o sc imm => Sys2Proof.Machine.execSte d a o sc imm s
  | .steIndex d a b o sc => Sys2Proof.Machine.execSteIndex d a b o sc s
  | .aadd d a b o sc w => Sys2Proof.Machine.execAadd d a b o sc w s
  | .aand d a b o sc w => Sys2Proof.Machine.execAand d a b o sc w s
  | .aor d a b o sc w => Sys2Proof.Machine.execAor d a b o sc w s
  | .axor d a b o sc w => Sys2Proof.Machine.execAxor d a b o sc w s
  | .amin d a b o sc w => Sys2Proof.Machine.execAmin d a b o sc w s
  | .amax d a b o sc w => Sys2Proof.Machine.execAmax d a b o sc w s
  | .aminn d a b o sc w => Sys2Proof.Machine.execAminn d a b o sc w s
  | .amaxn d a b o sc w => Sys2Proof.Machine.execAmaxn d a b o sc w s
  | .aswp d a b o sc w => Sys2Proof.Machine.execAswp d a b o sc w s
  | .acas d a b o sc w => Sys2Proof.Machine.execAcas d a b o sc w s
  | .afadd d a b o sc w => Sys2Proof.Machine.execAfadd d a b o sc w s
  | .adf d a b o sc w => Sys2Proof.Machine.execAdf d a b o sc w s
  | .fence o sc => Sys2Proof.Machine.execFence o sc s
  | .aliasf a b => Sys2Proof.Machine.execAliasf a b s
  | .ifence => Sys2Proof.Machine.execIfence s
  | .pfx a imm w l => Sys2Proof.Machine.execPfx a imm w l s
  | .nmadd a b t => Sys2Proof.Machine.execNmadd a b t s
  | .nmred a b o t => Sys2Proof.Machine.execNmred a b o t s
  | .nmfence => Sys2Proof.Machine.execNmfence s
  | .fadd d a b r p => Sys2Proof.Machine.execFadd d a b r p s
  | .fsub d a b r p => Sys2Proof.Machine.execFsub d a b r p s
  | .fmul d a b r p => Sys2Proof.Machine.execFmul d a b r p s
  | .fdiv d a b r p => Sys2Proof.Machine.execFdiv d a b r p s
  | .fsqrt d a r p => Sys2Proof.Machine.execFsqrt d a r p s
  | .ffma d a b r p => Sys2Proof.Machine.execFfma d a b r p s
  | .ffms d a b r p => Sys2Proof.Machine.execFfms d a b r p s
  | .ffnma d a b r p => Sys2Proof.Machine.execFfnma d a b r p s
  | .fmin d a b p => Sys2Proof.Machine.execFmin d a b p s
  | .fmax d a b p => Sys2Proof.Machine.execFmax d a b p s
  | .feq d a b p => Sys2Proof.Machine.execFeq d a b p s
  | .flt d a b p => Sys2Proof.Machine.execFlt d a b p s
  | .fle d a b p => Sys2Proof.Machine.execFle d a b p s
  | .fclass d a p => Sys2Proof.Machine.execFclass d a p s
  | .fsgnj d a b p => Sys2Proof.Machine.execFsgnj d a b p s
  | .fsgnjn d a b p => Sys2Proof.Machine.execFsgnjn d a b p s
  | .fsgnjx d a b p => Sys2Proof.Machine.execFsgnjx d a b p s
  | .fcvt d a r sc t => Sys2Proof.Machine.execFcvt d a r sc t s
  | .fmvg d a => Sys2Proof.Machine.execFmvg d a s
  | .fmvf d a => Sys2Proof.Machine.execFmvf d a s
  | .frcpa d a p => Sys2Proof.Machine.execFrcpa d a p s
  | .frsqa d a p => Sys2Proof.Machine.execFrsqa d a p s
  | .frcpr d a b r p => Sys2Proof.Machine.execFrcpr d a b r p s
  | .frsqr d a b r p => Sys2Proof.Machine.execFrsqr d a b r p s
  | .vadd d a b c t => Sys2Proof.Machine.execVadd d a b c t s
  | .vsub d a b c t => Sys2Proof.Machine.execVsub d a b c t s
  | .vmul d a b c t => Sys2Proof.Machine.execVmul d a b c t s
  | .vfma d a b c t => Sys2Proof.Machine.execVfma d a b c t s
  | .vmin d a b c t => Sys2Proof.Machine.execVmin d a b c t s
  | .vmax d a b c t => Sys2Proof.Machine.execVmax d a b c t s
  | .vabs d a c t => Sys2Proof.Machine.execVabs d a c t s
  | .vabsd d a b c t => Sys2Proof.Machine.execVabsd d a b c t s
  | .vneg d a c t => Sys2Proof.Machine.execVneg d a c t s
  | .vdot d a b t => Sys2Proof.Machine.execVdot d a b t s
  | .vand d a b => Sys2Proof.Machine.execVand d a b s
  | .vor d a b => Sys2Proof.Machine.execVor d a b s
  | .vxor d a b => Sys2Proof.Machine.execVxor d a b s
  | .vnot d a => Sys2Proof.Machine.execVnot d a s
  | .vshl d a b t => Sys2Proof.Machine.execVshl d a b t s
  | .vshr d a b t => Sys2Proof.Machine.execVshr d a b t s
  | .vsra d a b t => Sys2Proof.Machine.execVsra d a b t s
  | .vcmpeq d a b t => Sys2Proof.Machine.execVcmpeq d a b t s
  | .vcmplt d a b c t => Sys2Proof.Machine.execVcmplt d a b c t s
  | .vcmple d a b c t => Sys2Proof.Machine.execVcmple d a b c t s
  | .vsel d a b c t => Sys2Proof.Machine.execVsel d a b c t s
  | .vperm d a b c => Sys2Proof.Machine.execVperm d a b c s
  | .vbcast d b t => Sys2Proof.Machine.execVbcast d b t s
  | .vins d b c t => Sys2Proof.Machine.execVins d b c t s
  | .vext d a c t => Sys2Proof.Machine.execVext d a c t s
  | .vredadd d a t => Sys2Proof.Machine.execVredadd d a t s
  | .vredmin d a c t => Sys2Proof.Machine.execVredmin d a c t s
  | .vredmax d a c t => Sys2Proof.Machine.execVredmax d a c t s
  | .vcvt d a b c r => Sys2Proof.Machine.execVcvt d a b c r s
  | .vpack d a b c t => Sys2Proof.Machine.execVpack d a b c t s
  | .vunpk d a c t => Sys2Proof.Machine.execVunpk d a c t s
  | .vthr d a t => Sys2Proof.Machine.execVthr d a t s
  | .vrcpa d a t => Sys2Proof.Machine.execVrcpa d a t s
  | .vrsqa d a t => Sys2Proof.Machine.execVrsqa d a t s
  | .send d a b => Sys2Proof.Machine.execSend d a b s
  | .sendr d a => Sys2Proof.Machine.execSendr d a s
  | .fork a b => Sys2Proof.Machine.execFork a b s
  | .done a => Sys2Proof.Machine.execDone a s
  | .clsbind d a b => Sys2Proof.Machine.execClsbind d a b s
  | .nsend a m => Sys2Proof.Machine.execNsend a m s
  | .winset a => Sys2Proof.Machine.execWinset a s
  | .qcfg a => Sys2Proof.Machine.execQcfg a s
  | .strm d a b k => Sys2Proof.Machine.execStrm d a b k s
  | .strmoff d k => Sys2Proof.Machine.execStrmoff d k s
  | .repb d a b => Sys2Proof.Machine.execRepb d a b s
  | .repe => Sys2Proof.Machine.execRepe s
  | .repgo a => Sys2Proof.Machine.execRepgo a s
  | .tmld d a imm => Sys2Proof.Machine.execTmld d a imm s
  | .mmaE4m3E4m3 a b fF g t => Sys2Proof.Machine.execMmaE4m3E4m3 a b fF g t s
  | .mmaE4m3E5m2 a b fF g t => Sys2Proof.Machine.execMmaE4m3E5m2 a b fF g t s
  | .mmaE5m2E4m3 a b fF g t => Sys2Proof.Machine.execMmaE5m2E4m3 a b fF g t s
  | .mmaE5m2E5m2 a b fF g t => Sys2Proof.Machine.execMmaE5m2E5m2 a b fF g t s
  | .mmaE2m1E2m1 a b fF g t => Sys2Proof.Machine.execMmaE2m1E2m1 a b fF g t s
  | .mmaE2m1E4m3 a b fF g t => Sys2Proof.Machine.execMmaE2m1E4m3 a b fF g t s
  | .mmaEc8Ec8 a b fF g t => Sys2Proof.Machine.execMmaEc8Ec8 a b fF g t s
  | .mmaEc8E4m3 a b fF g t => Sys2Proof.Machine.execMmaEc8E4m3 a b fF g t s
  | .mmaBf16Bf16 a b t => Sys2Proof.Machine.execMmaBf16Bf16 a b t s
  | .mmaF16F16 a b t => Sys2Proof.Machine.execMmaF16F16 a b t s
  | .mmaS8S8 a b t => Sys2Proof.Machine.execMmaS8S8 a b t s
  | .mmaS4S8 a b t => Sys2Proof.Machine.execMmaS4S8 a b t s
  | .mmaBf16S4 a b t => Sys2Proof.Machine.execMmaBf16S4 a b t s
  | .mmapE4m3 a b fF t => Sys2Proof.Machine.execMmapE4m3 a b fF t s
  | .mmapBf16 a b t => Sys2Proof.Machine.execMmapBf16 a b t s
  | .distL1Bf16 a b t => Sys2Proof.Machine.execDistL1Bf16 a b t s
  | .distL1E4m3 a b t => Sys2Proof.Machine.execDistL1E4m3 a b t s
  | .distL1S8 a b t => Sys2Proof.Machine.execDistL1S8 a b t s
  | .distL2Bf16 a b t => Sys2Proof.Machine.execDistL2Bf16 a b t s
  | .distL2E4m3 a b t => Sys2Proof.Machine.execDistL2E4m3 a b t s
  | .distL2S8 a b t => Sys2Proof.Machine.execDistL2S8 a b t s
  | .adrain h k n t => Sys2Proof.Machine.execAdrain h k n t s
  | .cupd d a y t => Sys2Proof.Machine.execCupd d a y t s
  | .async d l t => Sys2Proof.Machine.execAsync d l t s
  | .ringcfgSet d r => Sys2Proof.Machine.execRingcfgSet d r s
  | .ringcfgPush d r => Sys2Proof.Machine.execRingcfgPush d r s
  | .ringcfgReset r => Sys2Proof.Machine.execRingcfgReset r s
  | .ringcfgQuery d r => Sys2Proof.Machine.execRingcfgQuery d r s
  | .accz t => Sys2Proof.Machine.execAccz t s
  | .accrd d t => Sys2Proof.Machine.execAccrd d t s
  | .accwr d t => Sys2Proof.Machine.execAccwr d t s
  | .accsc fF sc t => Sys2Proof.Machine.execAccsc fF sc t s
  | .cpy d a b => Sys2Proof.Machine.execCpy d a b s
  | .cpykv d a b => Sys2Proof.Machine.execCpykv d a b s
  | .kvapp d a b => Sys2Proof.Machine.execKvapp d a b s
  | .get d a b => Sys2Proof.Machine.execGet d a b s
  | .put d a b => Sys2Proof.Machine.execPut d a b s
  | .halo d a b => Sys2Proof.Machine.execHalo d a b s
  | .cpycan d a => Sys2Proof.Machine.execCpycan d a s
  | .flushr d a b => Sys2Proof.Machine.execFlushr d a b s
  | .invr d a b => Sys2Proof.Machine.execInvr d a b s
  | .waygive d a => Sys2Proof.Machine.execWaygive d a s
  | .waytake d => Sys2Proof.Machine.execWaytake d s
  | .rowop d a => Sys2Proof.Machine.execRowop d a s
  | .bsopAdd a b n sc => Sys2Proof.Machine.execBsopAdd a b n sc s
  | .bsopSub a b n sc => Sys2Proof.Machine.execBsopSub a b n sc s
  | .bsopAnd a b n => Sys2Proof.Machine.execBsopAnd a b n s
  | .bsopOr a b n => Sys2Proof.Machine.execBsopOr a b n s
  | .bsopXor a b n => Sys2Proof.Machine.execBsopXor a b n s
  | .bsopNot a b n => Sys2Proof.Machine.execBsopNot a b n s
  | .bsopCmpeq a b n sc => Sys2Proof.Machine.execBsopCmpeq a b n sc s
  | .bsopCmplt a b n sc => Sys2Proof.Machine.execBsopCmplt a b n sc s
  | .bsopCmple a b n sc => Sys2Proof.Machine.execBsopCmple a b n sc s
  | .bsopSel a b n sc => Sys2Proof.Machine.execBsopSel a b n sc s
  | .bsopShr a b n sc => Sys2Proof.Machine.execBsopShr a b n sc s
  | .bsopPopc a b n sc => Sys2Proof.Machine.execBsopPopc a b n sc s
  | .bsopMin a b n sc => Sys2Proof.Machine.execBsopMin a b n sc s
  | .bsopMax a b n sc => Sys2Proof.Machine.execBsopMax a b n sc s
  | .bsopMul a b n sc => Sys2Proof.Machine.execBsopMul a b n sc s
  | .egcfg d a h => Sys2Proof.Machine.execEgcfg d a h s
  | .egins d a b h => Sys2Proof.Machine.execEgins d a b h s
  | .egfind d a h => Sys2Proof.Machine.execEgfind d a h s
  | .egmrg d a b h => Sys2Proof.Machine.execEgmrg d a b h s
  | .egmatch d a b h => Sys2Proof.Machine.execEgmatch d a b h s
  | .egnode d a h => Sys2Proof.Machine.execEgnode d a h s
  | .egenum d a b h => Sys2Proof.Machine.execEgenum d a b h s
  | .egrank d a h => Sys2Proof.Machine.execEgrank d a h s
  | .egstat d a h => Sys2Proof.Machine.execEgstat d a h s
  | .csrrd d c => Sys2Proof.Machine.execCsrrd d c s
  | .csrwr d a c => Sys2Proof.Machine.execCsrwr d a c s
  | .csrset d a c => Sys2Proof.Machine.execCsrset d a c s
  | .csrclr d a c => Sys2Proof.Machine.execCsrclr d a c s
  | .eret => Sys2Proof.Machine.execEret s
  | .tlbsd d a => Sys2Proof.Machine.execTlbsd d a s
  | .tlbinv a => Sys2Proof.Machine.execTlbinv a s
  | .suprd d a => Sys2Proof.Machine.execSuprd d a s
  | .partset d a => Sys2Proof.Machine.execPartset d a s
  | .storePerform core ctx k => Sys2Proof.Machine.execStorePerform core ctx k s
  | .nmPerform core ctx k hot => Sys2Proof.Machine.execNmPerform core ctx k hot s
  | .bankEngineAck k => Sys2Proof.Machine.execBankEngineAck k s
  | .lineMigrate line target => Sys2Proof.Machine.execLineMigrate line target s
  | .memoryRequestPerform k => Sys2Proof.Machine.execMemoryRequestPerform k s
  | .remoteWriteAck line => Sys2Proof.Machine.execRemoteWriteAck line s
  | .messageArrival k => Sys2Proof.Machine.execMessageArrival k s
  | .heldContextRetry core => Sys2Proof.Machine.execHeldContextRetry core s
  | .heldContextEnter core => Sys2Proof.Machine.execHeldContextEnter core s
  | .heldContextTerminate core => Sys2Proof.Machine.execHeldContextTerminate core s
  | .sendqTransmit core ctx vnet => Sys2Proof.Machine.execSendqTransmit core ctx vnet s
  | .postedWriteRefused core ctx k => Sys2Proof.Machine.execPostedWriteRefused core ctx k s
  | .nsendArrival k => Sys2Proof.Machine.execNsendArrival k s
  | .nsendCreditReturn k => Sys2Proof.Machine.execNsendCreditReturn k s
  | .streamFill core ctx q => Sys2Proof.Machine.execStreamFill core ctx q s
  | .contextSelect core => Sys2Proof.Machine.execContextSelect core s
  | .parkTimeout core ctx => Sys2Proof.Machine.execParkTimeout core ctx s
  | .parkedWake core ctx => Sys2Proof.Machine.execParkedWake core ctx s
  | .runQueueAging core k => Sys2Proof.Machine.execRunQueueAging core k s
  | .stealAttempt core => Sys2Proof.Machine.execStealAttempt core s
  | .stealRequest k => Sys2Proof.Machine.execStealRequest k s
  | .doneWaveReport core => Sys2Proof.Machine.execDoneWaveReport core s
  | .anvilCmdStart forge => Sys2Proof.Machine.execAnvilCmdStart forge s
  | .anvilCmdRetire core => Sys2Proof.Machine.execAnvilCmdRetire core s
  | .transferStart k => Sys2Proof.Machine.execTransferStart k s
  | .cpykvTileFill k => Sys2Proof.Machine.execCpykvTileFill k s
  | .transferComplete k => Sys2Proof.Machine.execTransferComplete k s
  | .fixbellRing die => Sys2Proof.Machine.execFixbellRing die s
  | .bsopPerform core ctx => Sys2Proof.Machine.execBsopPerform core ctx s
  | .waygiveConversionComplete core ctx => Sys2Proof.Machine.execWaygiveConversionComplete core ctx s
  | .waytakeComplete core ctx => Sys2Proof.Machine.execWaytakeComplete core ctx s
  | .rangeMaintenanceComplete k => Sys2Proof.Machine.execRangeMaintenanceComplete k s
  | .shootdownComplete k => Sys2Proof.Machine.execShootdownComplete k s
  | .partsetComplete k => Sys2Proof.Machine.execPartsetComplete k s
  | .unionStep heap k => Sys2Proof.Machine.execUnionStep heap k s
  | .resign heap k => Sys2Proof.Machine.execResign heap k s
  | .mergeComplete heap k => Sys2Proof.Machine.execMergeComplete heap k s
  | .bindingSend heap => Sys2Proof.Machine.execBindingSend heap s
  | .heapOpComplete heap k => Sys2Proof.Machine.execHeapOpComplete heap k s
  | .lqtailDoorbell q v => Sys2Proof.Machine.execLqtailDoorbell q v s
  | .launchCopy q => Sys2Proof.Machine.execLaunchCopy q s
  | .launchStart part => Sys2Proof.Machine.execLaunchStart part s
  | .launchCompletionPost k => Sys2Proof.Machine.execLaunchCompletionPost k s
  | .cqheadWrite q v => Sys2Proof.Machine.execCqheadWrite q v s
  | .preemptHalt part => Sys2Proof.Machine.execPreemptHalt part s
  | .preemptSave part => Sys2Proof.Machine.execPreemptSave part s
  | .launchResume part => Sys2Proof.Machine.execLaunchResume part s
  | .frgroleWrite forge v by_ => Sys2Proof.Machine.execFrgroleWrite forge v by_ s
  | .fzreqWrite die v by_ => Sys2Proof.Machine.execFzreqWrite die v by_ s
  | .frameZeroingComplete die => Sys2Proof.Machine.execFrameZeroingComplete die s
  | .diectlFence die => Sys2Proof.Machine.execDiectlFence die s
  | .diectlWarmReset die => Sys2Proof.Machine.execDiectlWarmReset die s
  | .diectlColdReset die => Sys2Proof.Machine.execDiectlColdReset die s
  | .diectlRejoin die => Sys2Proof.Machine.execDiectlRejoin die s
  | .bbctlTrigset v => Sys2Proof.Machine.execBbctlTrigset v s
  | .bbctlFrozenClear v => Sys2Proof.Machine.execBbctlFrozenClear v s
  | .attestRequest v => Sys2Proof.Machine.execAttestRequest v s
  | .attestReportReady => Sys2Proof.Machine.execAttestReportReady s
  | .registerWrite off v by_ => Sys2Proof.Machine.execRegisterWrite off v by_ s
  | .dieHeartbeat die => Sys2Proof.Machine.execDieHeartbeat die s
  | .heartbeatTimeout die => Sys2Proof.Machine.execHeartbeatTimeout die s
  | .dieStartSteps die ok => Sys2Proof.Machine.execDieStartSteps die ok s
  | .islandPowerUp ok alt => Sys2Proof.Machine.execIslandPowerUp ok alt s
  | .islandPowerOff => Sys2Proof.Machine.execIslandPowerOff s
  | .islandReset => Sys2Proof.Machine.execIslandReset s
  | .diePowerEnable die => Sys2Proof.Machine.execDiePowerEnable die s
  | .diePowerOff die => Sys2Proof.Machine.execDiePowerOff die s
  | .pwrbrakeAssert => Sys2Proof.Machine.execPwrbrakeAssert s
  | .pwrbrakeRelease => Sys2Proof.Machine.execPwrbrakeRelease s
  | .powerLimitThrottle die above => Sys2Proof.Machine.execPowerLimitThrottle die above s
  | .thermalTrip die => Sys2Proof.Machine.execThermalTrip die s
  | .thermalRecover die => Sys2Proof.Machine.execThermalRecover die s
  | .fabricFlitReceive link flit => Sys2Proof.Machine.execFabricFlitReceive link flit s
  | .fabricNakReplay link ack => Sys2Proof.Machine.execFabricNakReplay link ack s
  | .fabricLinkUp link x y z => Sys2Proof.Machine.execFabricLinkUp link x y z s
  | .fabricLinkDown link => Sys2Proof.Machine.execFabricLinkDown link s
  | .fabricRequestTimeout k => Sys2Proof.Machine.execFabricRequestTimeout k s
  | .endpointAbsentReply late k => Sys2Proof.Machine.execEndpointAbsentReply late k s
  | .cxlSnpdata line => Sys2Proof.Machine.execCxlSnpdata line s
  | .cxlSnpinv line => Sys2Proof.Machine.execCxlSnpinv line s
  | .cxlSnpcur line => Sys2Proof.Machine.execCxlSnpcur line s
  | .hostMemRead h => Sys2Proof.Machine.execHostMemRead h s
  | .hostMemWrite h size v => Sys2Proof.Machine.execHostMemWrite h size v s
  | .dramScrub addr => Sys2Proof.Machine.execDramScrub addr s
  | .softError where_ correctable => Sys2Proof.Machine.execSoftError where_ correctable s
  | .dieLinkFailure die => Sys2Proof.Machine.execDieLinkFailure die s
  | .islandResetComplete ok => Sys2Proof.Machine.execIslandResetComplete ok s
  | .islandFirmwareFault => Sys2Proof.Machine.execIslandFirmwareFault s
  | .hostLinkTrained => Sys2Proof.Machine.execHostLinkTrained s
  | .cxlCacheResponse k => Sys2Proof.Machine.execCxlCacheResponse k s
  | .bisnpResponse line keep => Sys2Proof.Machine.execBisnpResponse line keep s
  | .aliasfComplete core ctx => Sys2Proof.Machine.execAliasfComplete core ctx s

end Sys2Proof.Machine
end

