-- ==== Sys2Proof/Machine/Step.lean ====
section
/-! DEFINITION. One step: the move that stands next is made (R53). An issuing context fetches, decodes and runs one
instruction (R69, R88), or records it (R182); a replay performs its next instruction (R183); an event happens. -/

namespace Sys2Proof.Machine

/-- What the agenda, else the schedule, names; the counters of the free values move on. -/
noncomputable def nextMove (s : State) : Move × State :=
  let s1 := { s with tick := s.tick + 1, now := s.now + Config.elapsed s.tick }
  match s.agenda with
  | m :: t => (m, { s1 with agenda := t })
  | [] => (Config.schedule s.tick, s1)

/-- A decoded instruction is recorded or run (R182). -/
noncomputable def runDecoded (i : Instr) (w : Nat) (long : Bool) (s : State) : Host.Outcome State Fault Refusal :=
  match recordStep w long (i == .repe) s with
  | some r => finish r
  | none => exec i s

/-- The issuing context of a core runs one instruction (R69, R254). -/
noncomputable def issue (c : CoreId) (s : State) : Host.Outcome State Fault Refusal :=
  match issuingCtx s c with
  | none => .next s
  | some k =>
    match fetchWord { s with cur := ⟨c, k, false⟩ } with
    | .inl r => finish r
    | .inr (w, long, s1) =>
      match (if long then decode32 w else decode16 w) with
      | none => finish (illegalWord w s1)
      | some i => runDecoded i w long s1

/-- The replay of a core's issuing context performs its next instruction (R183, R184). -/
noncomputable def replayStep (c : CoreId) (s : State) : Host.Outcome State Fault Refusal :=
  match replayWord s c with
  | none => .next s
  | some (w, long, s1) =>
    match (if long then decode32 w else decode16 w) with
    | none => finish (illegalWord w s1)
    | some i => exec i s1

/-- One step of the machine. -/
noncomputable def step (s : State) : Host.Outcome State Fault Refusal :=
  let m := nextMove s
  if s.agenda.isEmpty && !fromOutside s m.1 then .next m.2 else
  match m.1 with
  | .issue c => issue c m.2
  | .replay c => replayStep c m.2
  | .event e => if e.isEvent then exec e m.2 else .fault .schedulerMove
  | .write off v by_ => exec (deviceEvent off v by_) m.2
  | .diectl die code => exec (diectlEvent die code) m.2
  | .evict e => .next (m.2.evict e)

/-- `s` with an instruction placed where the next step fetches: a context of core 0 issues, its page tables map one
page, and the instruction's bytes stand there. -/
def State.withFetchWord (s : State) (nbits w : Nat) : State :=
  placeProgram s (leBytes (nbits / 8) w)

end Sys2Proof.Machine
end

