-- ==== Sys2Proof/Safety.lean ====
section
/-! DEFINITION. What claims call a safe run: no step faults and none is refused; and the schedules under which every agent goes on, the
premise of the liveness that R410 promises. -/

namespace Sys2Proof.Machine

/-- A step that goes on. -/
def goesOn (o : Host.Outcome State Fault Refusal) : Bool :=
  match o with
  | .next _ => true
  | _ => false

/-- Every step of a run of `k` steps goes on. -/
def Safe (k : Nat) (s : State) : Prop :=
  match k with
  | 0 => True
  | k + 1 => ∃ t, step s = .next t ∧ Safe k t

/-- `k` steps, each of which goes on, lead from a state to another. -/
def RunsTo (k : Nat) (s t : State) : Prop :=
  match k with
  | 0 => s = t
  | k + 1 => ∃ u, step s = .next u ∧ RunsTo k u t
/-- A move stands at the k-th step of a run from `s`: it is the schedule's and the agenda is empty. -/
def Stands (s : State) (k : Nat) (m : Move) : Prop :=
  ∃ t, RunsTo k s t ∧ t.agenda = [] ∧ Config.schedule t.tick = m
/-- A fair run: every move stands again later, whatever has happened before. The interleaving itself is left open (R53, R425); that every
message is delivered, every request answered and every ready task started (R410) needs this of the schedule. -/
def Fair (s : State) : Prop := ∀ (m : Move) (k : Nat), ∃ j, k ≤ j ∧ Stands s j m

end Sys2Proof.Machine
end

