-- ==== Sys2Proof/Certificates/Slice0/Obligations.lean ====
section
/-! DEFINITION. The statements for the provers, in the terms of the spec's numbered rules, and the words they use. -/

namespace Sys2Proof.Machine

/-! ## Words written by the claims, in the rules' own terms -/

/-- The acting context's register d receives a word: discarded for g0 (R55). -/
def State.gSet (s : State) (d : BitVec 5) (w : Word) : State := s.setMe (s.me.setG d w)
/-- The answer of an instruction of `n` bytes that writes g[d] and nothing else, and falls to what follows it. -/
def writesG (n : Nat) (s : State) (d : BitVec 5) (w : Word) : Host.Outcome State Fault Refusal :=
  .next (retire (.fall n) (s.gSet d w))
/-- An operation at 64 bits, or at 32 bits with the result sign-extended (R55). -/
def atWidth (w : BitVec 1) (f : (n : Nat) → BitVec n → BitVec n → BitVec n) (x y : Word) : Word :=
  if w = 1 then (f 32 (x.setWidth 32) (y.setWidth 32)).signExtend 64 else f 64 x y
/-- A three-register integer instruction writes f of g[a] and g[b], for every state with plain operands. -/
def Computes3 (i : BitVec 5 → BitVec 5 → BitVec 5 → BitVec 1 → Instr)
    (f : (n : Nat) → BitVec n → BitVec n → BitVec n) : Prop :=
  ∀ (s : State) (d a b : BitVec 5) (w : BitVec 1), s.plain = true →
    exec (i d a b w) s = writesG 4 s d (atWidth w f (s.me.getG a) (s.me.getG b))
/-- A two-register integer instruction writes, at each width, a number that `spec` allows for g[a]. -/
def Computes2 (i : BitVec 5 → BitVec 5 → BitVec 1 → Instr) (spec : (n : Nat) → BitVec n → BitVec n → Prop) : Prop :=
  ∀ (s : State) (d a : BitVec 5), s.plain = true →
    (∃ r, spec 64 (s.me.getG a) r ∧ exec (i d a 0) s = writesG 4 s d r) ∧
    (∃ r, spec 32 ((s.me.getG a).setWidth 32) r ∧ exec (i d a 1) s = writesG 4 s d (r.signExtend 64))
/-- The quotients and remainders of R93. -/
def quotS (n : Nat) (x y : BitVec n) : BitVec n :=
  if y = 0 then (if x = 0 then 0 else if x.msb then BitVec.intMin n else BitVec.intMax n)
  else if x = BitVec.intMin n ∧ y = BitVec.allOnes n then BitVec.intMax n else x.sdiv y
def quotU (n : Nat) (x y : BitVec n) : BitVec n := if y = 0 then (if x = 0 then 0 else BitVec.allOnes n) else x / y
def remS (n : Nat) (x y : BitVec n) : BitVec n :=
  if y = 0 then x else if x = BitVec.intMin n ∧ y = BitVec.allOnes n then BitVec.allOnes n else x.srem y
def remU (n : Nat) (x y : BitVec n) : BitVec n := if y = 0 then x else x % y
/-- The high half of a product. -/
def highS (n : Nat) (x y : BitVec n) : BitVec n := ((x.signExtend (2 * n) * y.signExtend (2 * n)) >>> n).setWidth n
def highU (n : Nat) (x y : BitVec n) : BitVec n := ((x.setWidth (2 * n) * y.setWidth (2 * n)) >>> n).setWidth n
/-- Zero bits above the highest one bit, below the lowest, the number of one bits, and the reversed word (R92). -/
def isClz (n : Nat) (x r : BitVec n) : Prop :=
  r.toNat ≤ n ∧ (∀ i < r.toNat, x.getLsbD (n - 1 - i) = false) ∧ (r.toNat < n → x.getLsbD (n - 1 - r.toNat) = true)
def isCtz (n : Nat) (x r : BitVec n) : Prop :=
  r.toNat ≤ n ∧ (∀ i < r.toNat, x.getLsbD i = false) ∧ (r.toNat < n → x.getLsbD r.toNat = true)
def isPopc (n : Nat) (x r : BitVec n) : Prop := r.toNat = (List.range n).countP x.getLsbD
def isBrev (n : Nat) (x r : BitVec n) : Prop := ∀ i < n, r.getLsbD (n - 1 - i) = x.getLsbD i

/-- The instruction takes a trap: its state is kept, and the trap's effects follow (R267). -/
def traps (t : Trap) (s : State) : Host.Outcome State Fault Refusal := .next (takeTrap t s)
/-- The illegal-instruction trap of an instruction, whose INFO is its own word (R62). -/
def illegalOf (i : Instr) : Trap := ⟨0x01, some (BitVec.ofNat 56 (encode i)), none⟩
/-- A transfer of control to an exact target by R102, with what the instruction writes when it is taken. -/
def JumpsTo (i : Instr) (s : State) (t : Int) (wrote : State) : Prop :=
  (t % 2 = 0 → 0 ≤ t → t < 2 ^ 56 → exec i s = .next (retire (.jump (BitVec.ofInt 64 t)) wrote)) ∧
  (t % 2 = 1 → exec i s = traps ⟨0x04, some 0, some (BitVec.ofInt 64 t)⟩ s) ∧
  (t % 2 = 0 → t < 0 ∨ 2 ^ 56 ≤ t → ∃ info, exec i s = traps ⟨0x10, some info, some (BitVec.ofInt 64 t)⟩ s)
/-- A conditional branch of `n` bytes on g[a] and g[b] (R103). -/
def Branches (i : Instr) (n : Nat) (s : State) (a b : BitVec 5) (off : Int) (c : Word → Word → Bool) : Prop :=
  (c (s.me.getG a) (s.me.getG b) = true → JumpsTo i s (s.me.pc.toNat + 2 * off) s) ∧
  (c (s.me.getG a) (s.me.getG b) = false → exec i s = .next (retire (.fall n) s))

/-- An access of `n` bytes at `va` names memory: it translates, and every byte has a place that takes accesses of its class
(R141, R143). -/
def Names (s : State) (va : Word) (n : Nat) (acc : Acc) (kind : Kind) (pas : List Nat) (ps : List Place) (s1 : State) : Prop :=
  va.toNat < 2 ^ 56 ∧
  (∃ pa pa2, translateSpan s (.data s.cur.core) s.me.ctl.ptroot va n acc s.me.ctl.priv = .ok (pa, pa2, s1) ∧
    pas = spanPas va.toNat n pa pa2) ∧
  placesOf s1 s.me.ctl.hkey pas = .ok ps ∧ ∀ p ∈ ps, p.isDevice = false ∧ p.accepts kind = true
/-- It reaches this package's DRAM or SRAM, and nothing makes it wait or trap there: no bank engine holds the line, it is not
poisoned, the host need not be asked (R376), and, for an access made at the word, no store of the context to it is buffered
and the holder of the token has none that may go (R289). -/
def Reaches (s : State) (va : Word) (n : Nat) (acc : Acc) (kind : Kind) (need : Need) (pas : List Nat) (ps : List Place)
    (s1 : State) : Prop :=
  Names s va n acc kind pas ps s1 ∧
  (∀ p ∈ ps, (∃ k, p = .sram k ∨ ∃ l, p = .dram k l) ∧ s1.blocked p = false ∧ s1.poisoned p = false ∧
    s1.askFor (some s.cur.core) (need = .token) p = none) ∧
  (need ≠ .copy → ∀ st ∈ s.me.stores, st.meets s1 ps = false) ∧
  (need = .token → ∀ l ∈ linesOf ps, s1.holdsBack none l = false)
/-- The context stays the acting one and goes on after an instruction of `n` bytes. -/
def GoesOn (n : Nat) (s t : State) : Prop :=
  t.cur = s.cur ∧ t.me.pc = (retire (.fall n) s).me.pc ∧ t.me.loop = (retire (.fall n) s).me.loop ∧
  t.me.status = s.me.status ∧ t.me.wait = none
/-- The registers of y are those of x. -/
def SameRegs (x y : Ctx) : Prop := y.g = x.g ∧ y.f = x.f ∧ y.v = x.v ∧ y.tm = x.tm ∧ y.q = x.q
/-- The control registers of y are those of x but cr.syncst, which gains bits alone. -/
def SameCtl (x y : Ctx) : Prop :=
  y.ctl = { x.ctl with syncst := y.ctl.syncst } ∧ y.ctl.syncst &&& x.ctl.syncst = x.ctl.syncst
/-- A load of `n` bytes at `va` by an instruction of `len` bytes: the registers are what `put` makes of the number read,
byte by byte where it is misaligned, and memory and its full bits stay. An acquire finds the context's store buffer empty. -/
def Loads (i : Instr) (len : Nat) (s : State) (va : Word) (n : Nat) (o : BitVec 2) (sc : BitVec 3)
    (put : Nat → Ctx → Ctx) : Prop :=
  ∀ pas ps s1, Reaches s va n .read .plain .copy pas ps s1 → (o ≠ 0 → va.toNat % n = 0 ∧ s.me.stores = []) →
    (sc = 6 → ∀ p ∈ ps, p.isSram = false) →
    ∃ t, exec i s = .next t ∧ GoesOn len s t ∧
      SameRegs (put (readValue s1 (some s.me.acqAt) ps { split := va.toNat % n ≠ 0, acq := o.getLsbD 0 }) s.me) t.me ∧
      SameCtl s.me t.me ∧ (o = 0 → t.me.ctl = s.me.ctl) ∧ t.me.stores = s.me.stores ∧
      t.mem.bytes = s.mem.bytes ∧ t.mem.full = s.mem.full
/-- A store of `n` bytes at `va` enters the context's store buffer with its value and release scope; registers and
memory stay (R144, R161). -/
def Stores (i : Instr) (len : Nat) (s : State) (va : Word) (n : Nat) (val : Vec) (kind : StoreKind) (o : BitVec 2)
    (sc : BitVec 3) : Prop :=
  ∀ pas ps s1, Names s va n .write (if kind = .plain then .plain else .word) pas ps s1 →
    (o ≠ 0 ∨ kind ≠ .plain → va.toNat % n = 0) → (sc = 6 → ∀ p ∈ ps, p.isSram = false) →
    (s.me.stores.filter fun st => !st.isSpill).length < 16 →
    ∃ t st, exec i s = .next t ∧ GoesOn len s t ∧ SameRegs s.me t.me ∧ t.me.ctl = s.me.ctl ∧
      t.mem = s.mem ∧ t.me.stores = s.me.stores ++ [st] ∧ st.va = va ∧ st.size = n ∧ st.val = val ∧ st.kind = kind ∧
      st.pa = pas.headD 0 ∧ (o = 0 → st.rel = s.me.relScope) ∧ (o = 2 → st.upTo = s.me.serial)
/-- A g register receives the low 8n bits of a number, sign-extended (R144); a v register receives 16 bytes (R145). -/
def putG (d : BitVec 5) (n v : Nat) (x : Ctx) : Ctx := x.setG d ((BitVec.ofNat (8 * n) v).signExtend 64)
def putV (d : BitVec 5) (v : Nat) (x : Ctx) : Ctx := x.setV (d.setWidth 4) (BitVec.ofNat 128 v)
/-- An atomic of `w` bits with a rule for the new value of the word from its old value x, the operand y and the expected
value e, or none where nothing is written (R149, R150). -/
def Atomic (i : BitVec 5 → BitVec 5 → BitVec 5 → BitVec 2 → BitVec 3 → BitVec 1 → Instr)
    (f : (w : Nat) → BitVec w → BitVec w → BitVec w → Option (BitVec w)) : Prop :=
  ∀ (s : State) (d a b : BitVec 5) (o : BitVec 2) (sc : BitVec 3) (w : BitVec 1) pas ps s1, s.plain = true →
    s.cur.replay = false →
    let n := if w = 1 then 8 else 4
    let va := s.me.getG a
    va.toNat % n = 0 → Reaches s va n .rmw .word .token pas ps s1 → s.me.stores = [] → s.mem.pending = [] →
    (sc = 6 → ∀ p ∈ ps, p.isSram = false) →
    let x := BitVec.ofNat (8 * n) (readValue s1 none ps)
    ∃ t, exec (i d a b o sc w) s = .next t ∧ GoesOn 4 s t ∧ SameRegs (putG d n (readValue s1 none ps) s.me) t.me ∧
      SameCtl s.me t.me ∧ t.mem.full = s.mem.full ∧
      match f (8 * n) x ((s.me.getG b).setWidth (8 * n)) ((s.me.getG d).setWidth (8 * n)) with
      | none => t.mem.bytes = s.mem.bytes
      | some y => (∀ j k, j < n → (ps[j]?).bind (·.key) = some k → t.mem.byte k = y.extractLsb' (8 * j) 8) ∧
          ∀ k, (∀ p ∈ ps, p.key ≠ some k) → t.mem.byte k = s.mem.byte k
/-- A memory instruction, the address it names, its size, the kind of its access, and whether R142 requires it to be aligned. -/
structure MemForm where
  instr : Instr
  va : Word
  size : Nat
  acc : Acc
  aligned : Bool
/-- Every memory instruction with a base or an index (R139, R73). -/
def memoryForms (s : State) (d a b i t : BitVec 5) (o z ty : BitVec 2) (sc op : BitVec 3) (w : BitVec 1) : List MemForm :=
  let x := s.me.getG a
  let y := x + s.me.getG b
  let off (n : Nat) : Word := x + BitVec.ofNat 64 (i.toNat * n)
  let k := 2 ^ z.toNat
  let n := if w = 1 then 8 else 4
  let ord : Bool := o ≠ 0
  let a4 : BitVec 4 := a.setWidth 4
  let i4 : BitVec 4 := i.setWidth 4
  let short := s.me.getG (a4.setWidth 5) + BitVec.ofNat 64 (i4.toNat * 8)
  [⟨.ld d a o sc i z, off k, k, .read, ord⟩, ⟨.ldIndex d a b o sc z, y, k, .read, ord⟩,
   ⟨.ldDCm (d.setWidth 4) a4 i4, short, 8, .read, false⟩,
   ⟨.ldv d a o sc i, off 16, 16, .read, ord⟩, ⟨.ldvIndex d a b o sc, y, 16, .read, ord⟩,
   ⟨.st d a o sc i z, off k, k, .write, ord⟩, ⟨.stIndex d a b o sc z, y, k, .write, ord⟩,
   ⟨.stDCm (d.setWidth 4) a4 i4, short, 8, .write, false⟩,
   ⟨.stv d a o sc i, off 16, 16, .write, ord⟩, ⟨.stvIndex d a b o sc, y, 16, .write, ord⟩,
   ⟨.ldf d a o sc i, off 8, 8, .read, true⟩, ⟨.ldfIndex d a b o sc, y, 8, .read, true⟩,
   ⟨.stf d a o sc i, off 8, 8, .write, true⟩, ⟨.stfIndex d a b o sc, y, 8, .write, true⟩,
   ⟨.ste d a o sc i, off 8, 8, .write, true⟩, ⟨.steIndex d a b o sc, y, 8, .write, true⟩,
   ⟨.adf d a b o sc w, x, 64, .rmw, true⟩,
   ⟨.nmadd a b t, x, match t.toNat with | 0 => 4 | 1 => 8 | 2 => 4 | _ => 8, .write, true⟩,
   ⟨.nmred a b op ty, x, if ty.getLsbD 0 then 8 else 4, .write, true⟩] ++
  [Instr.aadd, .aand, .aor, .axor, .amin, .amax, .aminn, .amaxn, .aswp, .acas, .afadd].map
    fun f => ⟨f d a b o sc w, x, n, .rmw, true⟩
/-- The region forms, with their sizes. -/
def regionForms (d a i : BitVec 5) (z : BitVec 2) (n : BitVec 4) : List (Instr × Nat) :=
  [(.ldRegion d a n i z, 2 ^ z.toNat), (.stRegion d a n i z, 2 ^ z.toNat), (.ldvRegion d a n i, 16), (.stvRegion d a n i, 16)]

/-- The word an f register holds after a result of a precision: a 32-bit result has every higher bit one (R56). -/
def boxed (p : BitVec 1) (r : Nat) : Word :=
  if p = 1 then BitVec.ofNat 64 r else BitVec.ofNat 32 0xFFFFFFFF ++ BitVec.ofNat 32 r
/-- The bits of an f register in a precision (R56, R115). -/
def fOperand (x : Ctx) (r : BitVec 5) (p : BitVec 1) : Nat :=
  if p = 1 then (x.getF r).toNat else ((x.getF r).setWidth 32).toNat
def fmtP (p : BitVec 1) : Fmt := if p = 1 then f64 else f32
/-- Flags are merged at retirement: no flag is ever cleared by an arithmetic instruction (R41, R42). -/
def Ctx.flagged (x : Ctx) (fl : FFlags) : Ctx := { x with ctl := { x.ctl with fflags := x.ctl.fflags ||| fl } }
/-- A floating-point result and its flags into f[d]; nothing else changes. -/
def writesF (s : State) (d : BitVec 5) (p : BitVec 1) (r : Nat × FFlags) : Host.Outcome State Fault Refusal :=
  .next (retire (.fall 4) (s.setMe ((s.me.setF d (boxed p r.1)).flagged r.2)))
/-- A word and flags into g[d]; nothing else changes. -/
def writesGF (s : State) (d : BitVec 5) (w : Word) (fl : FFlags) : Host.Outcome State Fault Refusal :=
  .next (retire (.fall 4) (s.setMe ((s.me.setG d w).flagged fl)))
/-- A vector result and flags into v[d]; nothing else changes. -/
def writesV (n : Nat) (s : State) (d : BitVec 4) (w : Vec) (fl : FFlags) : Host.Outcome State Fault Refusal :=
  .next (retire (.fall n) (s.setMe ((s.me.setV d w).flagged fl)))
/-- Lane j of a register at a lane width. -/
def laneAt (v : Vec) (w j : Nat) : BitVec w := v.extractLsb' (w * j) w
/-- Width and count of the lanes of an integer type, and of a floating-point type (R77). -/
def widthOf (t : BitVec 3) : Nat := match t.toNat with | 0 => 8 | 1 => 16 | 2 => 32 | 3 => 64 | 4 => 32 | 5 => 64 | _ => 16
def formatOf (t : BitVec 3) : Fmt := match t.toNat with | 4 => f32 | 5 => f64 | 6 => bf16 | _ => f16
/-- Every lane of the result of an integer form is f of the lanes of its sources, and no flag is raised. -/
def LanesInt (n : Nat) (i : Instr) (s : State) (d a b : BitVec 4) (w : Nat) (f : BitVec w → BitVec w → BitVec w) : Prop :=
  ∃ r : Vec, exec i s = writesV n s d r 0 ∧
    ∀ j < 128 / w, laneAt r w j = f (laneAt (s.me.getV a) w j) (laneAt (s.me.getV b) w j)
/-- Every lane of the result of a floating-point form is what the scalar operation gives for the lanes of its sources,
and the flags of all lanes are ORed together (R127). -/
def LanesFloat (n : Nat) (i : Instr) (s : State) (d a b : BitVec 4) (w : Nat) (f : Nat → Nat → Nat × FFlags) : Prop :=
  let one (j : Nat) := f (laneAt (s.me.getV a) w j).toNat (laneAt (s.me.getV b) w j).toNat
  ∃ r : Vec, exec i s = writesV n s d r ((List.range (128 / w)).foldl (fun fl j => fl ||| (one j).2) 0) ∧
    ∀ j < 128 / w, laneAt r w j = BitVec.ofNat w (one j).1
/-- A value clamped to the signed and to the unsigned range of w bits (R126). -/
def clampS (w : Nat) (v : Int) : BitVec w := BitVec.ofInt w (max (-2 ^ (w - 1)) (min (2 ^ (w - 1) - 1) v))
def clampU (w : Nat) (v : Int) : BitVec w := BitVec.ofInt w (max 0 (min (2 ^ w - 1) v))
/-- The two values of a pairwise tree over lanes and all its flags: `k` stages over the 2^k lanes from lane i·2^k (R130). -/
def pairTree (f : Nat → Nat → Nat × FFlags) (lane : Nat → Nat) : Nat → Nat → Nat × FFlags
  | 0, i => (lane i, 0)
  | k + 1, i =>
    let x := pairTree f lane k (2 * i)
    let y := pairTree f lane k (2 * i + 1)
    let r := f x.1 y.1
    (r.1, x.2 ||| y.2 ||| r.2)
/-- Stages that leave one lane of a width. -/
def stagesOf (w : Nat) : Nat := match w with | 8 => 4 | 16 => 3 | 32 => 2 | _ => 1
/-- A reduction writes the tree's value to lane 0, every other lane 0, and merges the flags of all its stages (R127, R130). -/
def Reduces (i : Instr) (s : State) (d a : BitVec 4) (w : Nat) (f : Nat → Nat → Nat × FFlags) : Prop :=
  let r := pairTree f (fun j => (laneAt (s.me.getV a) w j).toNat) (stagesOf w) 0
  exec i s = writesV 4 s d ((BitVec.ofNat w r.1).setWidth 128) r.2
/-- An operation on lanes of w bits that raises no flag. -/
def quietly (w : Nat) (f : BitVec w → BitVec w → BitVec w) (x y : Nat) : Nat × FFlags :=
  ((f (BitVec.ofNat w x) (BitVec.ofNat w y)).toNat, 0)
/-- The activation threshold drops a lane: neither is a NaN and the magnitude is below the threshold (R133). -/
def dropsLane (f : Fmt) (w : Nat) (thr : BitVec 32) (x : BitVec w) : Bool :=
  !(f.decode x.toNat).isNan && !(f32.decode thr.toNat).isNan &&
    (f.decode (x.toNat % 2 ^ (w - 1))).lt (f32.decode thr.toNat)

/-- After an instruction of `n` bytes the acting context is `y` gone on by R107; memory and the other contexts stay. -/
def Leaves (n : Nat) (s t : State) (y : Ctx) : Prop :=
  t.cur = s.cur ∧ t.me = (retire (.fall n) (s.setMe y)).me ∧ t.mem = s.mem ∧
  ∀ c k, c ≠ s.cur.core ∨ k ≠ s.cur.ctx → t.ctxAt c k = s.ctxAt c k
/-- The source word of the acting context, by the layout of R166. -/
def sourceOf (s : State) : Word :=
  (s.pkg ++ s.cur.core ++ s.cur.ctx ++ s.me.ctl.priv ++ (0 : BitVec 19) ++ s.me.seq).setWidth 64
/-- CLS of a descriptor word (R152). -/
def clsOf (h : Word) : Nat := (h.extractLsb' 30 8).toNat
/-- Word i of a 64-byte record read as a number. -/
def recordWord (n i : Nat) : Word := BitVec.ofNat 64 (n / 2 ^ (64 * i))
/-- The bytes at `ps` become the low bytes of `v`, and every other byte of memory stays. -/
def Written (s t : State) (ps : List Place) (n v : Nat) : Prop :=
  (∀ j k, j < n → (ps[j]?).bind (·.key) = some k → t.mem.byte k = BitVec.ofNat 8 (v / 256 ^ j)) ∧
  ∀ k, (∀ p ∈ ps.take n, p.key ≠ some k) → t.mem.byte k = s.mem.byte k
/-- The neighbour of a core in direction m, and which of q4 to q7 its vectors land in, as R176 lists them. -/
def neighbourIn (c : CoreId) (m : BitVec 2) : Option (Nat × BitVec 2) :=
  if m = 0 then if 128 ≤ c.toNat then some (c.toNat - 128, 2) else none
  else if m = 1 then if c.toNat % 128 < 127 then some (c.toNat + 1, 3) else none
  else if m = 2 then if c.toNat + 128 < 8192 then some (c.toNat + 128, 0) else none
  else if 0 < c.toNat % 128 then some (c.toNat - 1, 1) else none
/-- Vectors in a neighbour queue or on their way to it. -/
def inQueue (s : State) (n : CoreId) (q : BitVec 2) : Nat :=
  ((s.core n).nq.get ⟨q.toNat, q.isLt⟩).length + (s.vecs.filter fun v => v.1 = n && v.2.1 = q).length
/-- A byte of memory after writes made in turn, the last of them at its place standing. -/
def after (w : List (Place × Byte)) (k : Nat) (b : Byte) : Byte := w.foldl (fun b p => if p.1.key = some k then p.2 else b) b
/-- A spill block's header as a spill reads it, and where TAIL and ARMED lie (R169). -/
structure SpillHead where
  head : Nat
  tail : Nat
  size : Nat
  armed : Nat
  tailAt : List Place
  armedAt : List Place
/-- HEAD, TAIL, SIZE and ARMED are reached in turn from v to u, and hold what h says. -/
def SpillHead.At (h : SpillHead) (v : State) (blk : Word) (u : State) : Prop :=
  ∃ hA hP tA zA zP aA s1 s2 s3 s4, Reaches v blk 8 .read .plain .copy hA hP s1 ∧
    Reaches (s1.dropAnswers false) (blk + 8) 8 .write .plain .token tA h.tailAt s2 ∧
    Reaches (s2.dropAnswers false) (blk + 16) 8 .read .plain .copy zA zP s3 ∧
    Reaches (s3.dropAnswers false) (blk + 24) 8 .rmw .plain .token aA h.armedAt s4 ∧ u = s4.dropAnswers false ∧
    h.head = readValue u none hP ∧ h.tail = readValue u none h.tailAt ∧
    h.size = readValue u (some u.me.acqAt) zP ∧ h.armed = readValue u none h.armedAt
/-- What a spill of m writes, in turn: the slot at sP, TAIL and ARMED. -/
def SpillHead.writes (h : SpillHead) (m : Msg) (sP : List Place) : List (Place × Byte) :=
  sP.zip ((m.src :: m.desc :: m.pay.toList).flatMap fun (z : Word) => toBytes z.toNat 8) ++
    h.tailAt.zip (toBytes ((h.tail + 1) % 2 ^ 64) 8) ++ h.armedAt.zip (toBytes 0 8)
/-- The address of the slot that a spill fills. -/
def SpillHead.slot (h : SpillHead) (blk : Word) : Word := blk + BitVec.ofNat 64 (64 + 64 * (h.tail % h.size))
/-- R169: an instruction of `len` bytes spills m from v, where the context has no store left, and writes `more` after it; the context
becomes y gone on. A full block diverts m with reason 3; else the slot, TAIL and ARMED are written, and a nonzero ARMED
delivers class 5 in the core. -/
def Spilling (i : Instr) (len : Nat) (s v : State) (blk : Word) (m : Msg) (y : Ctx) (more : List (Place × Byte)) : Prop :=
  ∀ h u, SpillHead.At h v blk u →
    let p := s.partOf s.cur.core
    let done (t : State) (w : List (Place × Byte)) : Prop := exec i s = .next t ∧ GoesOn len s t ∧ SameRegs y t.me ∧
      t.me.sendq = y.sendq ∧ t.me.seq = y.seq ∧ ∀ k, t.mem.byte k = after (w ++ more) k (v.mem.byte k)
    (h.size + h.head ≤ h.tail → ∃ t, done t [] ∧
      ((s.part p).supq.length < 512 → (t.part p).supq = (s.part p).supq ++ [⟨3, m⟩])) ∧
    (h.tail < h.size + h.head → ∀ sA sP u2,
      Reaches u (h.slot blk) 64 .write .plain .token sA sP u2 →
      ∃ t, done t (h.writes m sP) ∧
        (h.armed = 0 → t.here.inbox = s.here.inbox) ∧
        (h.armed ≠ 0 → (s.here.cls 5).state = .bound → s.savedLaunch (s.myLaunch.or (s.part p).resident) = none →
          ∃ e, t.here.inbox = s.here.inbox ++ [e] ∧ e.msg.cls = 5 ∧ e.held = false ∧
            e.msg.pay = #v[blk, s.cur.ctx.setWidth 64, BitVec.ofNat 64 (h.tail + 1), 0, 0, 0]))
/-- R169 and R332: a SEND that finds its queue full waits where class 5 has no spill block, and else spills after the context's earlier
stores; where something keeps one of them, the message follows them in the store buffer (log 13). -/
def FullQueue (i : Instr) (len : Nat) (s : State) (m : Msg) (y : Ctx) : Prop :=
  let x := s.me
  ((s.here.cls 5).block = none → exec i s = .next (s.waiting .interlock)) ∧
  ∀ b, (s.here.cls 5).block = some b →
    (∀ v, drainOwn x.stores.length s = some v → Spilling i len s v b.1 m y []) ∧
    (drainOwn x.stores.length s = none → ∀ pa pa2 s1,
      translateSpan s (.data s.cur.core) x.ctl.ptroot b.1 32 .rmw x.ctl.priv = .ok (pa, pa2, s1) →
      ∃ t st c, exec i s = .next t ∧ GoesOn len s t ∧ SameRegs y t.me ∧ t.me.seq = y.seq ∧ t.me.sendq = y.sendq ∧
        t.mem = s.mem ∧ t.me.stores = x.stores ++ [st] ∧ st.va = b.1 ∧ st.kind = .spill m c x.ctl.ptroot)

/-- The control registers of R61 by number, with what each reads as in the acting context. -/
def crTable (s : State) : List (Nat × Word) :=
  let l := s.me.ctl
  [(0x000, s.cyc l), (0x001, l.src), (0x002, l.mcls.setWidth 64), (0x003, l.prio.setWidth 64),
    (0x004, l.xid.setWidth 64), (0x005, l.cause), (0x006, l.faddr), (0x007, l.syncst.setWidth 64),
    (0x008, l.parkt.setWidth 64), (0x009, l.sqdepth.setWidth 64), (0x010, l.fflags.setWidth 64),
    (0x011, l.frm.setWidth 64), (0x012, l.rseed.setWidth 64), (0x013, l.spx.setWidth 64), (0x014, l.athr.setWidth 64),
    (0x015, l.adrop.setWidth 64), (0x016, l.adcnt), (0x030, l.hkey.setWidth 64), (0x100, s.here.pkey.setWidth 64),
    (0x101, l.epc), (0x102, l.estat.setWidth 64), (0x103, l.fgmask.setWidth 64), (0x104, l.ptroot.setWidth 64 <<< 16),
    (0x105, s.here.awt.setWidth 64), (0x106, l.priv.setWidth 64)] ++
  (List.finRange 4).map (fun i => (0x018 + i.val, (l.win.get i).setWidth 64)) ++
  (List.finRange 4).map (fun i => (0x01C + i.val, (l.mbx.get i).setWidth 64)) ++
  (List.finRange 16).map (fun i => (0x020 + i.val, l.rgn.get i))
/-- Registers that are RO in every field (R61, R343). -/
def crFixed (c : Nat) : Prop := c ≤ 0x006 ∨ c = 0x100 ∨ c = 0x106
/-- Registers marked SV (R61). -/
def crSv (c : Nat) : Prop := (0x020 ≤ c ∧ c ≤ 0x030) ∨ (0x100 ≤ c ∧ c ≤ 0x105)
/-- What a register reads as after `v` is written to it: its fields in place, reserved bits 0, and the register's own
write rule (R33, R36, R64, R168, R177, R195). -/
def crWritten (c : Nat) (old v : Word) : Word :=
  if c = 0x009 then if v &&& 31 = 0 then 1 else if (v &&& 31).toNat ≤ 16 then v &&& 31 else 16
  else if c = 0x011 then if (v &&& 7).toNat < 6 then v &&& 15 else (old &&& 7) ||| (v &&& 8)
  else if c = 0x012 then if v &&& 0xFFFFFFFF = 0 then 1 else v &&& 0xFFFFFFFF
  else if c = 0x105 then if v &&& 15 = 0 then 1 else v &&& 15
  else if c = 0x103 then if (List.range 16).countP v.getLsbD ≤ 8 then v &&& 0xFFFF else old
  else if 0x018 ≤ c ∧ c ≤ 0x01B then if (v &&& 7).toNat ≤ 4 then v &&& 7 else 4
  else if c = 0x008 ∨ c = 0x030 then v &&& 0xFFFF
  else if c = 0x010 then v &&& 31
  else if c = 0x013 then v &&& 1
  else if c = 0x014 ∨ c = 0x015 ∨ (0x01C ≤ c ∧ c ≤ 0x01F) then v &&& 0xFFFFFFFF
  else if 0x020 ≤ c ∧ c ≤ 0x02F then v &&& 0xFFFFFFFFFFFFFFF8
  else if c = 0x101 then v &&& 0x00FFFFFFFFFFFFFE
  else if c = 0x102 then v &&& 3
  else if c = 0x104 then v &&& 0xFFFFFFFFFFFF0000
  else v
/-- A completion word at g[d] can be written at issue (R231): d is 0, or the word is aligned and its store finds room. -/
def WordReaches (s : State) (d : BitVec 5) : Prop :=
  d = 0 ∨ ((s.me.getG d).toNat % 8 = 0 ∧ (s.me.stores.filter fun st => !st.isSpill).length < 16 ∧
    ∃ pas ps s1, Names s (s.me.getG d) 8 .write .word pas ps s1)
/-- The completion word of an operation: none for d = 0, else g[d], where 0 is stored and the word is set empty (R231). -/
def WordTaken (s t : State) (d : BitVec 5) (word : Option Word) : Prop :=
  (d = 0 ∧ word = none ∧ t.me.stores = s.me.stores) ∨
  (d ≠ 0 ∧ word = some (s.me.getG d) ∧ ∃ st, t.me.stores = s.me.stores ++ [st] ∧ st.va = s.me.getG d ∧ st.size = 8 ∧
    st.val = 0 ∧ st.kind = .setEmpty)
/-- The copies that an operation takes of its issuer (R65). -/
def IssuedBy (s : State) (i : Issuer) : Prop :=
  i.core = s.cur.core ∧ i.ctx = s.cur.ctx ∧ i.priv = s.me.ctl.priv ∧ i.prio = s.me.ctl.prio ∧ i.root = s.me.ctl.ptroot ∧
  i.hkey = s.me.ctl.hkey
/-- An operation has been handed to an engine: the context goes on, and registers, control registers and memory stay. -/
def HandedOver (s t : State) : Prop :=
  GoesOn 4 s t ∧ SameRegs s.me t.me ∧ t.me.ctl = s.me.ctl ∧ t.mem.bytes = s.mem.bytes ∧ t.mem.full = s.mem.full

/-- Ring r of the acting core's forge. -/
def ringOf (s : State) (r : Nat) : Ring := (s.forge (forgeOf s.cur.core)).rings.get ⟨r % 8, Nat.mod_lt _ (by decide)⟩
/-- SLOT, NSLOT, BASE of a ring's configuration word (R190): slot size in KiB, slots, and the KiB of slot 0. -/
def slotKib (w : Word) : Nat := (w.extractLsb' 10 6).toNat + 1
def slotCount (w : Word) : Nat := (w.extractLsb' 16 6).toNat + 1
def slotBase (w : Word) : Nat := (w.extractLsb' 0 10).toNat
/-- A command that names rings, each with the data bytes a slot must hold, and perhaps a scale register: its checks at
issue, and its entry into the core's queue with the copies it takes (R193). -/
def Queues (i : Instr) (s : State) (op : AnvilOp) (t : BitVec 1) (rings : List (BitVec 4 × Option Nat))
    (fF : Option (BitVec 5)) (scaled fine : Bool) : Prop :=
  let here := s.here
  let fits := ∀ r ∈ rings, ∃ w, (ringOf s r.1.toNat).conf = some w ∧ ∀ n, r.2 = some n → 512 + n ≤ slotKib w * 1024
  let geom := scaled = true → ∀ r ∈ rings, ((ringOf s r.1.toNat).geom = 2 ↔ fine = true)
  (¬fits → exec i s = traps ⟨0x0B, some 5, none⟩ s) ∧ (fits → ¬geom → exec i s = traps ⟨0x0B, some 6, none⟩ s) ∧
  (fits → geom → 16 ≤ here.cmds.length → exec i s = .next (s.waiting .interlock)) ∧
  (fits → geom → here.cmds.length < 16 → ∃ u c, exec i s = .next u ∧ Leaves 4 s u s.me ∧
    u.here.cmds = here.cmds ++ [c] ∧ u.here.cmdSeq = here.cmdSeq + 1 ∧ u.here.acc = here.acc ∧
    c.op = op ∧ c.tile = t ∧ c.reads = rings.map (fun r => (r.1.setWidth 3, r.1.getLsbD 3)) ∧
    (∀ f, fF = some f → c.f0 = (s.me.getF f).setWidth 32 ∧ c.f1 = (s.me.getF (f + 1)).setWidth 32) ∧
    (c.strict = true ↔ s.me.ctl.spx = 1) ∧ c.ctx = s.cur.ctx ∧ c.seq = here.cmdSeq)
/-- The command that owns a tile, oldest first: its own tile, or both for ADRAIN and CUPD (R204). -/
def tileOwner (s : State) (t : BitVec 1) : Option AnvilCmd :=
  (s.here.started ++ s.here.cmds).find? fun c => match c.op with
    | .adrain _ _ _ => true
    | .cupd _ _ => true
    | _ => c.tile = t
/-- Word w of a tile of the acting core. -/
def tileWord (s : State) (t : BitVec 1) (w : Nat) : BitVec 32 := Tile.word (s.here.acc.get ⟨t.toNat, t.isLt⟩) w
/-- A heap operation enters handle h of the acting context's partition, with its operands and issuer. -/
def HeapTakes (s t : State) (h : BitVec 2) (k : HeapKind) (regs : List (BitVec 5)) (word : Option Word) : Prop :=
  let n := 4 * (s.partOf s.cur.core).toNat + h.toNat
  ∃ o, (t.heap n).ops = (s.heap n).ops ++ [o] ∧ o.kind = k ∧ o.regs = regs ∧ o.word = word ∧ o.stage = 0 ∧
    IssuedBy s o.iss ∧ (t.heap n).conf = (s.heap n).conf ∧ ∀ m, m ≠ n → t.heap m = s.heap m
/-- Issue of a heap operation with a completion word (R231), and of one that delivers to registers (R232). -/
def IssuesWord (i : Instr) (s : State) (h : BitVec 2) (d : BitVec 5) (k : HeapKind) : Prop :=
  (16 ≤ s.inFlight true → exec i s = .next (s.waiting .heapOps)) ∧
  (s.inFlight true < 16 → WordReaches s d → ∃ t word, exec i s = .next t ∧ HandedOver s t ∧ WordTaken s t d word ∧
    HeapTakes s t h k [] word)
def IssuesOwed (i : Instr) (s : State) (h : BitVec 2) (regs : List (BitVec 5)) (k : HeapKind) : Prop :=
  (8 ≤ s.inFlight false → exec i s = .next (s.waiting .interlock)) ∧
  (s.inFlight false < 8 → ∃ t, exec i s = .next t ∧ HandedOver s t ∧ t.me.stores = s.me.stores ∧
    t.me.owed = s.me.owed ++ regs ∧ HeapTakes s t h k regs none)
/-- A BSOP's checks at issue in their order, and its entry into the context's queue (R225). `rows` lists the first row
and the number of rows of each range the function touches. -/
def BsopIssues (i : Instr) (s : State) (fn : Nat) (a b : BitVec 5) (n : BitVec 5) (signed : Bool)
    (rows : Nat → Nat → Nat → Nat → Nat → List (Nat × Nat)) : Prop :=
  let x := s.me
  let r := x.getG a
  let l := x.getG b
  let w := n.toNat + 1
  let row (k : Nat) : Nat := (r.extractLsb' (8 * k) 8).toNat
  let fields := r.extractLsb' 32 32 = 0 ∧ l.extractLsb' 48 16 = 0
  let first := (l.extractLsb' 0 24).toNat
  let count := (l.extractLsb' 24 24).toNat + 1
  (¬fields → exec i s = traps ⟨0x07, some 3, none⟩ s) ∧
  (fields → x.grant = none → exec i s = traps ⟨0x07, some 2, none⟩ s) ∧
  ∀ g, fields → x.grant = some g →
    let short := ∃ p ∈ rows w (row 0) (row 1) (row 2) (row 3), 256 < p.1 + p.2
    let lanes := if g.failed then 0 else g.slices.length * g.ways * 8192
    (g.done = false → exec i s = traps ⟨0x06, none, none⟩ s) ∧
    (g.done = true → short → exec i s = traps ⟨0x07, some 1, none⟩ s) ∧
    (g.done = true → ¬short → lanes < first + count → exec i s = traps ⟨0x07, some 2, none⟩ s) ∧
    (g.done = true → ¬short → first + count ≤ lanes → 16 ≤ x.bsops.length → exec i s = .next (s.waiting .interlock)) ∧
    (g.done = true → ¬short → first + count ≤ lanes → x.bsops.length < 16 → ∃ t o, exec i s = .next t ∧
      Leaves 4 s t { x with bsops := x.bsops ++ [o] } ∧ o.fn.toNat = fn ∧ o.n = w ∧ o.signed = signed ∧ o.rows = r ∧
      o.lanes = l)
/-- A step of an ACCRD under way: stores `r.done` to `r.done + n` of its 1,024 enter the store buffer, where they find
room, with the words of the tile as it was read; once all have, the instruction is complete, and until then it waits (R161, R205). -/
def TileEnters (i : Instr) (s : State) (r : TileRead) : Prop :=
  let x := s.me
  let n := min (16 - (x.stores.filter fun st => !st.isSpill).length) (1024 - r.done)
  ∃ u, exec i s = .next u ∧ SameRegs x u.me ∧ u.me.ctl = x.ctl ∧ u.mem = s.mem ∧ u.here.acc = s.here.acc ∧
    u.me.stores.take x.stores.length = x.stores ∧ u.me.stores.length = x.stores.length + n ∧
    (∀ j < n, ∃ st, u.me.stores[x.stores.length + j]? = some st ∧
      let k := r.done + j
      let o := r.va.toNat % 2 ^ 14 + 16 * k
      st.va = r.va + BitVec.ofNat 64 (16 * k) ∧ st.pa = (if o < 2 ^ 14 then r.pa + 16 * k else r.pa2 + (o - 2 ^ 14)) ∧
      st.size = 16 ∧ st.kind = .plain ∧ st.rel = x.relScope ∧
      ∀ l < 4, st.val.extractLsb' (32 * l) 32 = Tile.word r.tile (4 * k + l)) ∧
    (r.done + n = 1024 → GoesOn 4 s u ∧ u.me.accrd = none) ∧
    (r.done + n ≠ 1024 → u.me.pc = x.pc ∧ u.me.wait = some .interlock ∧ u.me.accrd = some { r with done := r.done + n })

/-- The binding of a g register to a queue (R178). -/
def boundG (x : Ctx) (r : BitVec 5) : Option (BitVec 3) := (x.binds.find? fun y => y.vec = false && y.reg = r).map (·.q)
/-- The acting context, and the machine's counters, where core c's context k begins to issue. -/
def Issues (s : State) (c : CoreId) (k : CtxId) (s0 : State) : Prop :=
  nextMove s = (.issue c, s0) ∧ issuingCtx s0 c = some k
/-- The two bytes of a halfword in this package's memory that nothing holds up: the number they hold as the fetch sees it,
by what the context's last IFENCE left (R158), and the state after the fetch. -/
def HalfReady (s : State) (va : Word) (h : Nat) (s2 : State) : Prop :=
  ∃ pa p q s1, translate s (.fetch s.cur.core) s.me.ctl.ptroot va .fetch s.me.ctl.priv = .ok (pa, s1) ∧
    placesOf s1 s.me.ctl.hkey [pa, pa + 1] = .ok [p, q] ∧
    (∀ y ∈ [p, q], (∃ k, y = .sram k ∨ ∃ l, y = .dram k l) ∧ s1.blocked y = false ∧ s1.poisoned y = false ∧
      s1.askFor (some s.cur.core) false y = none) ∧
    let since := some s.me.fetchAt
    h = (s1.memByte since p).toNat + 256 * (s1.memByte since q).toNat ∧
    s2 = (linesOf [p, q]).foldl (fun s n => s.fetchLine s.cur.core n) ((wordsOf [p, q]).foldl (fun s y => s.noteFloor since y) s1)

/-- Every place is this package's DRAM or SRAM, no bank engine or move holds its line, the holder of its token has no store to
apply first, and the host need not be asked. -/
def HomeReady (s : State) (c : Option CoreId) (ps : List Place) : Prop :=
  (∀ p ∈ ps, (∃ k, p = .sram k ∨ ∃ l, p = .dram k l) ∧ s.blocked p = false ∧ s.askFor c true p = none) ∧
  ∀ n ∈ linesOf ps, s.holdsBack c n = false
/-- No byte of memory and no full-empty bit changes. -/
def SameBytes (s t : State) : Prop := (∀ k, t.mem.byte k = s.mem.byte k) ∧ ∀ d, t.mem.isFull d = s.mem.isFull d
/-- A hardware notice to the supervisor core of the issuing partition, added to the mesh (R163, R261). -/
def Noticed (s t : State) (core : CoreId) (ctx : CtxId) (cls : Nat) : Prop :=
  ∃ m : Flight, t.mesh = s.mesh ++ [m] ∧ m.notice = true ∧ m.msg.core = s.supervisor (s.partOf core) ∧ m.msg.cls = cls ∧
    m.msg.prio = 63 ∧ m.msg.sprv = true ∧ m.msg.score = core ∧ m.msg.sctx = ctx
/-- The state in which the store unit makes a spill that stands at place k of a store buffer: its context acts, with the
privilege, the root and the launch that the message was sent under (R169). -/
def spillFrom (s : State) (core : CoreId) (ctx : CtxId) (k : Nat) (st : Store) (root : BitVec 48) : State :=
  let x := s.ctxAt core ctx
  { s.setCtxAt core ctx { x with
      stores := x.stores.take k, wait := none, task := x.task.map fun t => { t with launch := st.launch }
      ctl := { x.ctl with priv := st.priv, hkey := st.hkey, ptroot := root } } with cur := ⟨core, ctx, false⟩ }

/-- Of the cores, only core c changes, and memory stays. -/
def OnlyCore (s t : State) (c : CoreId) : Prop := (∀ d, d ≠ c → t.core d = s.core d) ∧ t.mem = s.mem
/-- The g registers at the start of a task: the payload in g1 to g6, every other register 0 (R54). -/
def startRegs (p : Vector Word 6) (x : Ctx) : Prop :=
  (∀ i : Fin 6, x.getG (BitVec.ofNat 5 (i.val + 1)) = p.get i) ∧ (∀ r : BitVec 5, 7 ≤ r.toNat → x.getG r = 0) ∧
  x.f = Vector.replicate 32 0 ∧ x.v = Vector.replicate 16 0 ∧ x.tm = Vector.replicate 16 none ∧
  x.q = Vector.replicate 4 [] ∧ x.binds = [] ∧ x.streams = [] ∧ x.loop = none

/-- The element of D that a BSOP gives a lane, and its width, from the lane's own rows: `a`, `b` of `n` bits, `p` the
predicate row, `c` the shift row field, `q` the 16 bits of D (R225). -/
def bsopGives (fn : Nat) (n : Nat) (sg : Bool) (a b c q : Nat) (p : Bool) : Nat × Nat :=
  let int (x : Nat) : Int := (BitVec.ofNat n x).toInt
  let less (x y : Nat) : Bool := if sg then int x < int y else x < y
  let flag (t : Bool) : Nat × Nat := (if t then 1 else 0, 1)
  let k : Int := (BitVec.ofNat 8 c).toInt
  if fn = 0 then ((a + b) % 2 ^ n, n)
  else if fn = 1 then ((a + 2 ^ n - b) % 2 ^ n, n)
  else if fn = 2 then (a &&& b, n)
  else if fn = 3 then (a ||| b, n)
  else if fn = 4 then (a ^^^ b, n)
  else if fn = 5 then (2 ^ n - 1 - a, n)
  else if fn = 6 then flag (a = b)
  else if fn = 7 then flag (less a b)
  else if fn = 8 then flag (!less b a)
  else if fn = 9 then (if p then a else b, n)
  else if fn = 10 then
    (if 0 ≤ k then a * 2 ^ k.toNat % 2 ^ n
     else if sg then ((int a / 2 ^ (-k).toNat) % 2 ^ n).toNat else a / 2 ^ (-k).toNat, n)
  else if fn = 11 then ((q + ((List.range n).filter fun i => a.testBit i).length) % 65536, 16)
  else if fn = 12 then (if less b a then b else a, n)
  else if fn = 13 then (if less a b then b else a, n)
  else (a * b % 2 ^ n, n)
/-- A transfer as its parameter block starts it, at count `tick` (R212, R220, R221). -/
def begun (y : Xfer) (bytes : List Byte) (tick : Nat) : Xfer :=
  let word (j : Nat) : Word := BitVec.ofNat 64 (fromBytes ((bytes.drop (8 * j)).take 8))
  let z : Xfer := { y with
    started := true, st := .running, handler := word 0, args := #v[word 2, word 3, word 4, word 5], seed := tick }
  if y.kind = .halo ∧ z.goodDirs ≠ z.dirs then z.skip 2 1 else z
/-- The elements of a replayed fix-up, performed one after another without a wait. -/
def Replays : List Nat → Xfer → State → Xfer → State → Prop
  | [], x, s, y, t => y = x ∧ t = s
  | e :: l, x, s, y, t => (runItem x e s).stalled = false ∧ Replays l (runItem x e s).x (runItem x e s).s y t
/-- A line has no dirty copy, in an L1D or in a slice. -/
def cleanLine (s : State) (n : Nat) : Prop := (s.mem.line n).dirty = false ∧ ∀ r ∈ s.mem.hearth, r.line = n → r.dirty = false
/-- Rings of a forge after commands pop them: RD, or HEAD, moves on once for each popping operand; all else stays. -/
def pops (cmd : AnvilCmd) (k : BitVec 3) : Nat := (cmd.reads.filter fun p => p.2 && p.1 == k).length

/-- Operation k of a heap handle leaves the engines with its result: in its completion word, or in its registers, which
are owed no longer (R231, R232); the bindings of an EGMATCH count in its core's SENT (R272). -/
def EndsOp (s t : State) (n k : Nat) (o : HeapOp) (vals : List Word) : Prop :=
  let h := s.heap n
  let s0 := s.setHeap n { h with ops := dropAt h.ops k, counts := Assoc.del h.counts o.tag }
  let s1 := match o.kind with
    | .matchp _ _ => s0.countIf (s0.isLaunchMsg o.iss.core o.iss.launch { desc := listDword o.blk 0 }) o.iss.core o.iss.launch o.sent
    | _ => s0
  (o.regs = [] → ∃ tag, t = s1.engineWord o.iss o.word (vals.headD 0) tag ∧ ((∀ a b, o.kind ≠ .mrg a b) → tag = none)) ∧
  (o.regs ≠ [] → s.savedLaunch o.iss.launch = none → ∃ y, t = s1.setCtxAt o.iss.core o.iss.ctx y ∧
    let x := s.ctxAt o.iss.core o.iss.ctx
    (x.binds = [] → ∀ r w, o.regs = [r] → vals = [w] → y = { x.setG r w with owed := x.owed.erase r }) ∧
    (x.binds = [] → ∀ a b c u v w, o.regs = [a, b, c] → vals = [u, v, w] →
      y = { ((x.setG a u).setG b v).setG c w with owed := ((x.owed.erase a).erase b).erase c }) ∧
    ∀ r b w, o.regs = [r] → vals = [w] → x.binding false r = some b → y.getQ (b.q.setWidth 2) =
      x.getQ (b.q.setWidth 2) ++ [w.setWidth 128])
/-- A heap result with a code, and one without, whose value is `v` (R230). -/
def codeOnly (c : Nat) : Word := BitVec.ofNat 64 (c * 2 ^ 40)
def valueOnly (v : Nat) : Word := BitVec.ofNat 64 (v % 2 ^ 32)

/-- Bytes of a descriptor, from an offset on, as a number (R345). -/
def fieldOf (d : List Byte) (o n : Nat) : Nat := fromBytes ((d.drop o).take n)

/-- A role word that R279 admits: no field 11, and 0, 1, 2, 4, 8, 16 or 32 scratchpad banks. -/
def RoleAdmitted (v : Word) : Prop :=
  (∀ b < 32, v.extractLsb' (2 * b) 2 ≠ 3) ∧
  let n := ((List.range 32).filter fun b => v.extractLsb' (2 * b) 2 = 1).length
  n = 0 ∨ n = 1 ∨ n = 2 ∨ n = 4 ∨ n = 8 ∨ n = 16 ∨ n = 32
/-- The island and its record apart, what the machine computes with is the same. -/
def SameMachine (s t : State) : Prop :=
  t.cores = s.cores ∧ t.forges = s.forges ∧ t.mem = s.mem ∧ t.mesh = s.mesh ∧ t.xfers = s.xfers ∧ t.heaps = s.heaps ∧
  t.parts = s.parts ∧ t.launches = s.launches
/-- A die held in reset after its fence: it answers no more, and its cores and SRAM stand as after reset, with the key of
their partition (R343, R403); DRAM is lost too where `cold` holds. -/
def DieReset (s t : State) (d : BitVec 2) (cold : Bool) : Prop :=
  (t.die d).fenced = true ∧ (t.die d).inReset = true ∧ (t.die d).joined = false ∧
  (∀ c, dieOf c = d → t.core c = { pkey := (s.part (s.partOf c)).key }) ∧
  (∀ f : ForgeId, forgeDie f.toNat = d.toNat → t.forge f = {}) ∧
  ∀ k, keyDie k = some d → cold = true ∨ keySram ≤ k → t.mem.byte k = 0

/-- Byte n of the newest start-record entry (R407). -/
def startByte (s : State) (n : Nat) : Byte := ((s.island.starts.get 0)[n]?).getD 0
/-- The outcome of a start step when it ran last: the newest entry that holds one; 0 where it never ran. -/
def ranLast (s : State) (n : Nat) : Byte := ((s.island.starts.toList.map fun e => (e[n]?).getD 0).find? (· ≠ 0)).getD 0


end Sys2Proof.Machine

open Sys2Proof Sys2Proof.Machine

/-- R92: sums, differences, products, minima, maxima and comparisons. -/
def Obligations.IntegerArithmetic : Prop :=
  Computes3 .add (fun _ x y => x + y) ∧ Computes3 .sub (fun _ x y => x - y) ∧ Computes3 .mul (fun _ x y => x * y) ∧
  Computes3 .mulh highS ∧ Computes3 .mulhn highU ∧
  Computes3 .min (fun _ x y => if x.sle y then x else y) ∧ Computes3 .max (fun _ x y => if x.sle y then y else x) ∧
  Computes3 .minn (fun _ x y => if x ≤ y then x else y) ∧ Computes3 .maxn (fun _ x y => if x ≤ y then y else x) ∧
  Computes3 .slt (fun n x y => if x.slt y then 1#n else 0) ∧ Computes3 .sltn (fun n x y => if x < y then 1#n else 0) ∧
  Computes3 .seq (fun n x y => if x = y then 1#n else 0)
/-- R93: division rounds toward zero, saturates on a zero divisor and on the one signed overflow, and never traps. -/
def Obligations.Division : Prop :=
  Computes3 .div quotS ∧ Computes3 .divn quotU ∧ Computes3 .rem remS ∧ Computes3 .remn remU
/-- R92 and R94: bitwise operations, and shifts and rotations by the amount modulo the width. -/
def Obligations.LogicAndShifts : Prop :=
  Computes3 .and (fun _ x y => x &&& y) ∧ Computes3 .or (fun _ x y => x ||| y) ∧ Computes3 .xor (fun _ x y => x ^^^ y) ∧
  Computes3 .andn (fun _ x y => x &&& ~~~y) ∧
  Computes3 .shl (fun n x y => x <<< (y.toNat % n)) ∧ Computes3 .shr (fun n x y => x >>> (y.toNat % n)) ∧
  Computes3 .sra (fun n x y => x.sshiftRight (y.toNat % n)) ∧
  Computes3 .rol (fun n x y => x.rotateLeft (y.toNat % n)) ∧ Computes3 .ror (fun n x y => x.rotateRight (y.toNat % n))
/-- R92, fn 25 to 28: bit counts and bit reversal. -/
def Obligations.BitCounts : Prop :=
  Computes2 .clz isClz ∧ Computes2 .ctz isCtz ∧ Computes2 .popc isPopc ∧ Computes2 .brev isBrev
/-- R95: the immediate forms; the shift amount of a well-formed SHLI, SHRI or SRAI is below the width. -/
def Obligations.IntegerImmediates : Prop :=
  ∀ (s : State) (d a : BitVec 5) (i : BitVec 11) (w : BitVec 1) (k : BitVec 6), s.plain = true →
    let x := s.me.getG a
    let y := i.signExtend 64
    exec (.addi d a i w) s = writesG 4 s d (atWidth w (fun _ x y => x + y) x y) ∧
    exec (.andi d a i) s = writesG 4 s d (x &&& y) ∧ exec (.ori d a i) s = writesG 4 s d (x ||| y) ∧
    exec (.xori d a i) s = writesG 4 s d (x ^^^ y) ∧
    exec (.slti d a i) s = writesG 4 s d (if x.slt y then 1 else 0) ∧
    ((w = 1 → k.toNat < 32) →
      exec (.shli d a w k) s = writesG 4 s d (atWidth w (fun _ x _ => x <<< k.toNat) x 0) ∧
      exec (.shri d a w k) s = writesG 4 s d (atWidth w (fun _ x _ => x >>> k.toNat) x 0) ∧
      exec (.srai d a w k) s = writesG 4 s d (atWidth w (fun _ x _ => x.sshiftRight k.toNat) x 0))
/-- R96 to R99: constants, addresses, bit fields and selection; a region form whose check fails traps (R63). -/
def Obligations.ConstantsAndFields : Prop :=
  ∀ (s : State) (d a b c l : BitVec 5) (i16 : BitVec 16) (k : BitVec 2) (i : BitVec 11) (sh : BitVec 3) (n : BitVec 4)
    (o : BitVec 7) (p : BitVec 6), s.plain = true →
    let x := s.me.getG a
    let at_ := 16 * (k.toNat + 1)
    let mask : Word := 0xFFFF#64 <<< at_
    let rgn := s.me.ctl.region n
    let size := (rgn >>> 56).toNat
    (k ≠ 3 → exec (.ldhi d i16 k) s = writesG 4 s d ((s.me.getG d &&& ~~~mask) ||| i16.setWidth 64 <<< at_)) ∧
    exec (.lea d a i) s = writesG 4 s d (x + i.signExtend 64) ∧
    exec (.leaScaled d a b sh) s = writesG 4 s d (x + s.me.getG b <<< sh.toNat) ∧
    (size ≠ 0 → (x + o.setWidth 64 + 1).toNat ≤ size * 1024 →
      exec (.leaRegion d a n o) s = writesG 4 s d ((rgn &&& 0x00FFFFFFFFFFFFF8) + x + o.setWidth 64)) ∧
    (size = 0 ∨ size * 1024 < (x + o.setWidth 64 + 1).toNat →
      exec (.leaRegion d a n o) s = .next (takeTrap ⟨0x07, none, none⟩ s)) ∧
    (p.toNat + l.toNat + 1 ≤ 64 →
      exec (.bfx d a l p) s = writesG 4 s d (((x >>> p.toNat).setWidth (l.toNat + 1)).signExtend 64) ∧
      exec (.bfxn d a l p) s = writesG 4 s d (((x >>> p.toNat).setWidth (l.toNat + 1)).setWidth 64) ∧
      exec (.bfi d a l p) s = writesG 4 s d
        ((s.me.getG d &&& ~~~((BitVec.allOnes (l.toNat + 1)).setWidth 64 <<< p.toNat)) |||
          (x.setWidth (l.toNat + 1)).setWidth 64 <<< p.toNat)) ∧
    exec (.sel d a b c) s = writesG 4 s d (if s.me.getG c ≠ 0 then x else s.me.getG b)
/-- R72: each 16-bit integer form does what the 32-bit form it expands to does, and is two bytes long. -/
def Obligations.ShortIntegerForms : Prop :=
  ∀ (s : State) (d a : BitVec 4) (i : BitVec 6), s.plain = true →
    let d' : BitVec 5 := d.setWidth 5
    let x := s.me.getG d'
    let y := s.me.getG (a.setWidth 5)
    let imm := i.signExtend 64
    exec (.addCr d a) s = writesG 2 s d' (x + y) ∧ exec (.subCr d a) s = writesG 2 s d' (x - y) ∧
    exec (.andCr d a) s = writesG 2 s d' (x &&& y) ∧ exec (.orCr d a) s = writesG 2 s d' (x ||| y) ∧
    exec (.xorCr d a) s = writesG 2 s d' (x ^^^ y) ∧ exec (.mulCr d a) s = writesG 2 s d' (x * y) ∧
    exec (.shlCr d a) s = writesG 2 s d' (x <<< (y.toNat % 64)) ∧
    exec (.shrCr d a) s = writesG 2 s d' (x >>> (y.toNat % 64)) ∧
    exec (.sraCr d a) s = writesG 2 s d' (x.sshiftRight (y.toNat % 64)) ∧
    exec (.moveCr d a) s = writesG 2 s d' y ∧
    exec (.addiCi d i) s = writesG 2 s d' (x + imm) ∧ exec (.addiZeroCi d i) s = writesG 2 s d' imm ∧
    exec (.andiCi d i) s = writesG 2 s d' (x &&& imm) ∧ exec (.shliCi d i) s = writesG 2 s d' (x <<< i.toNat) ∧
    exec (.shriCi d i) s = writesG 2 s d' (x >>> i.toNat) ∧
    exec (.sraiCi d i) s = writesG 2 s d' (x.sshiftRight i.toNat)

/-- R102, R103 and R73: the conditional branches and their 16-bit forms against g0. -/
def Obligations.ConditionalBranches : Prop :=
  ∀ (s : State) (a b : BitVec 5) (o : BitVec 13) (a4 : BitVec 4) (o7 : BitVec 7), s.plain = true →
    Branches (.beq a b o) 4 s a b o.toInt (fun x y => x == y) ∧
    Branches (.bne a b o) 4 s a b o.toInt (fun x y => x != y) ∧
    Branches (.blt a b o) 4 s a b o.toInt (fun x y => x.slt y) ∧
    Branches (.bge a b o) 4 s a b o.toInt (fun x y => y.sle x) ∧
    Branches (.bltn a b o) 4 s a b o.toInt (fun x y => x.ult y) ∧
    Branches (.bgen a b o) 4 s a b o.toInt (fun x y => y.ule x) ∧
    Branches (.beqCb a4 o7) 2 s (a4.setWidth 5) 0 o7.toInt (fun x y => x == y) ∧
    Branches (.bneCb a4 o7) 2 s (a4.setWidth 5) 0 o7.toInt (fun x y => x != y) ∧
    Branches (.bltCb a4 o7) 2 s (a4.setWidth 5) 0 o7.toInt (fun x y => x.slt y) ∧
    Branches (.bgeCb a4 o7) 2 s (a4.setWidth 5) 0 o7.toInt (fun x y => y.sle x)
/-- R104, R105 and R72, R73: jumps, which read the target before they write the link, and write none where they trap. -/
def Obligations.Jumps : Prop :=
  ∀ (s : State) (d a : BitVec 5) (o : BitVec 18) (o13 : BitVec 13) (i : BitVec 11) (a4 : BitVec 4), s.plain = true →
    let x := s.me
    JumpsTo (.j o) s (x.pc.toNat + 2 * o.toInt) s ∧
    JumpsTo (.jal d o) s (x.pc.toNat + 2 * o.toInt) (s.gSet d (x.pc + 4)) ∧
    JumpsTo (.jCj o13) s (x.pc.toNat + 2 * o13.toInt) s ∧
    JumpsTo (.jalr d a i) s ((x.getG a).toNat + i.toInt) (s.gSet d (x.pc + 4)) ∧
    JumpsTo (.jalrLinkCr a4) s (x.getG (a4.setWidth 5)).toNat (s.gSet 31 (x.pc + 2)) ∧
    JumpsTo (.jalrNolinkCr a4) s (x.getG (a4.setWidth 5)).toNat s
/-- R106: LOOP begins a loop over the body after it, skips the body when the count is 0, and traps while one is active. -/
def Obligations.LoopBegins : Prop :=
  ∀ (s : State) (a : BitVec 5) (i : BitVec 11), s.plain = true → s.cur.replay = false →
    let x := s.me
    let start := x.pc + 4
    let stop := start + BitVec.ofNat 64 (2 * i.toNat)
    (x.loop = none → x.getG a = 0 → exec (.loop a i) s = .next (s.setMe { x with pc := stop, wait := none })) ∧
    (x.loop = none → x.getG a ≠ 0 →
      exec (.loop a i) s = .next (s.setMe { x with pc := start, loop := some ⟨start, stop, x.getG a⟩, wait := none })) ∧
    (x.loop ≠ none → exec (.loop a i) s = traps (illegalOf (.loop a i)) s)
/-- R107: what retiring does to the pc and the loop, and that it changes nothing else. `nxt` is the address that would
otherwise execute next. -/
def Obligations.Retiring : Prop :=
  ∀ (s : State) (n : Nat) (t : Word), s.cur.replay = false →
    let x := s.me
    (∃ nxt l, retire (.fall n) s = s.setMe { x with pc := nxt, loop := l, wait := none }) ∧
    (∃ nxt l, retire (.jump t) s = s.setMe { x with pc := nxt, loop := l, wait := none }) ∧
    (x.loop = none → (retire (.fall n) s).me.pc = x.pc + BitVec.ofNat 64 n ∧ (retire (.jump t) s).me.pc = t ∧
      (retire (.fall n) s).me.loop = none ∧ (retire (.jump t) s).me.loop = none) ∧
    (∀ l, x.loop = some l →
      let nxt := x.pc + BitVec.ofNat 64 n
      (nxt = l.stop → l.left = 1 → (retire (.fall n) s).me.pc = nxt ∧ (retire (.fall n) s).me.loop = none) ∧
      (nxt = l.stop → l.left ≠ 1 → (retire (.fall n) s).me.pc = l.start ∧
        (retire (.fall n) s).me.loop = some { l with left := l.left - 1 }) ∧
      (nxt ≠ l.stop → (retire (.fall n) s).me.pc = nxt ∧
        (retire (.fall n) s).me.loop = if nxt < l.start ∨ l.stop ≤ nxt then none else some l) ∧
      (retire (.jump t) s).me.pc = t ∧
      (retire (.jump t) s).me.loop = if t < l.start ∨ l.stop ≤ t then none else some l)
/-- R109, R110 and R267: TRAP and BRK take their traps, and what taking any trap outside a replay leaves: the saved
registers, supervisor privilege, HELD, the notice to the supervisor core, and no other context or memory changed (R248, R261). That
the loop is set aside, and that cr.faddr stays where the trap's entry states no address, are the model's choices (logs 10 and 7). -/
def Obligations.TakingATrap : Prop :=
  (∀ (s : State) (i : BitVec 9), exec (.trap i) s = traps ⟨0x0A, some (i.setWidth 56), none⟩ s ∧
    exec (.brk i) s = traps ⟨0x09, some (i.setWidth 56), none⟩ s) ∧
  ∀ (t : Trap) (s : State), s.cur.replay = false →
    let u := takeTrap t s
    let x := s.me
    let y := u.ctxAt s.cur.core s.cur.ctx
    let p := s.partOf s.cur.core
    y = { x with status := .held, wait := none, accrd := none, loop := none
                 trapLoops := x.loop :: x.trapLoops, ctl := y.ctl } ∧
    y.ctl = { x.ctl with cause := y.ctl.cause, faddr := y.ctl.faddr, epc := y.ctl.epc, estat := y.ctl.estat, priv := 1 } ∧
    y.ctl.cause.setWidth 8 = t.code ∧ (∀ info, t.info = some info → y.ctl.cause = info ++ t.code) ∧
    y.ctl.faddr = t.addr.getD x.ctl.faddr ∧ y.ctl.epc = x.pc &&& 0x00FFFFFFFFFFFFFE ∧
    y.ctl.estat = x.ctl.priv.setWidth 2 ∧ u.mem = s.mem ∧
    (∀ c k, c ≠ s.cur.core ∨ k ≠ s.cur.ctx → u.ctxAt c k = s.ctxAt c k) ∧
    ∃ m : Flight, u.mesh = s.mesh ++ [m] ∧ m.notice = true ∧ m.msg.core = s.supervisor p ∧ m.msg.cls = 1 ∧
      m.msg.prio = 63 ∧ m.msg.sprv = true ∧ m.msg.score = s.cur.core ∧ m.msg.sctx = s.cur.ctx ∧
      m.msg.cap = (s.part p).key ∧
      m.msg.pay = #v[BitVec.ofNat 64 (s.cur.ctx.toNat * 65536 + s.cur.core.toNat), y.ctl.cause, y.ctl.faddr, y.ctl.epc,
        y.ctl.estat.setWidth 64, s.cyc x.ctl]
/-- R249 and R246: ERET goes back to the saved address and privilege, and with RPLAY the replay it left goes on; it changes
no other register, and is a privileged instruction. The loop that the latest trap set aside goes on where the address is in its body
(the model's choice, log 10), and else one that is active and has it in its body, as after any jump (R107). -/
def Obligations.ReturningFromATrap : Prop :=
  ∀ s : State, s.cur.replay = false →
    let x := s.me
    let kept (o : Option Loop) : Option Loop := o.filter fun l => !(x.ctl.epc < l.start || l.stop ≤ x.ctl.epc)
    let back : Ctx := { x with pc := x.ctl.epc, loop := (kept x.trapLoops.head?.join).or (kept x.loop)
                               trapLoops := x.trapLoops.tail, wait := none }
    (x.ctl.priv = 1 → x.ctl.estat.getLsbD 1 = false →
      exec .eret s = .next (s.setMe { back with ctl := { x.ctl with priv := x.ctl.estat.setWidth 1 } })) ∧
    (∀ r, x.ctl.priv = 1 → x.ctl.estat.getLsbD 1 = true → x.replay = some r →
      exec .eret s = .next (s.setMe { back with
        replay := some { r with halted := false }
        ctl := { x.ctl with priv := x.ctl.estat.setWidth 1, estat := x.ctl.estat &&& 1 } })) ∧
    (x.ctl.priv = 0 → exec .eret s = traps ⟨0x02, none, none⟩ s)

/-- R139, R144, R145 and R73: LD and LDV by base, index and region, and the 16-bit LD. -/
def Obligations.Loading : Prop :=
  ∀ (s : State) (d a b : BitVec 5) (o : BitVec 2) (sc : BitVec 3) (i : BitVec 5) (w : BitVec 2) (n : BitVec 4)
    (d4 b4 o4 : BitVec 4), s.plain = true → s.cur.replay = false →
    let x := s.me.getG a
    let z := 2 ^ w.toNat
    let rgn := s.me.ctl.region n
    let base : Word := rgn &&& 0x00FFFFFFFFFFFFF8
    let inside (off size : Nat) : Prop := (rgn >>> 56).toNat ≠ 0 ∧
      (x + BitVec.ofNat 64 off + BitVec.ofNat 64 size).toNat ≤ (rgn >>> 56).toNat * 1024
    Loads (.ld d a o sc i w) 4 s (x + BitVec.ofNat 64 (i.toNat * z)) z o sc (putG d z) ∧
    Loads (.ldIndex d a b o sc w) 4 s (x + s.me.getG b) z o sc (putG d z) ∧
    (inside (i.toNat * z) z →
      Loads (.ldRegion d a n i w) 4 s (base + x + BitVec.ofNat 64 (i.toNat * z)) z 0 0 (putG d z)) ∧
    Loads (.ldv d a o sc i) 4 s (x + BitVec.ofNat 64 (i.toNat * 16)) 16 o sc (putV d) ∧
    Loads (.ldvIndex d a b o sc) 4 s (x + s.me.getG b) 16 o sc (putV d) ∧
    (inside (i.toNat * 16) 16 →
      Loads (.ldvRegion d a n i) 4 s (base + x + BitVec.ofNat 64 (i.toNat * 16)) 16 0 0 (putV d)) ∧
    Loads (.ldDCm d4 b4 o4) 2 s (s.me.getG (b4.setWidth 5) + BitVec.ofNat 64 (o4.toNat * 8)) 8 0 0
      (putG (d4.setWidth 5) 8)
/-- R2 and R144: the number a read finds is little-endian, and each byte is the context's own latest buffered store to
it, else what memory holds, where no other window's older value is outstanding (R157) and no value that a write has
replaced is left to return (R291), as for an LDF or an atomic. -/
def Obligations.ReadValue : Prop :=
  ∀ (s : State) (since : Option Nat) (ps : List Place) (m : Manner) (j : Nat) (p : Place) (k : Nat), ps[j]? = some p →
    p.key = some k → s.mem.stale = [] → since = none ∨ s.mem.past = [] →
    BitVec.ofNat 8 (readValue s since ps m / 256 ^ j) =
      ((s.me.stores.reverse.findSome? fun st => st.byteAt s p).getD (s.mem.byte k))
/-- R139, R144, R145, R161 and R73: ST and STV by base, index and region, and the 16-bit ST, enter the store buffer. -/
def Obligations.Storing : Prop :=
  ∀ (s : State) (d a b : BitVec 5) (o : BitVec 2) (sc : BitVec 3) (i : BitVec 5) (w : BitVec 2) (n : BitVec 4)
    (d4 b4 o4 : BitVec 4), s.plain = true → s.cur.replay = false →
    let x := s.me.getG a
    let z := 2 ^ w.toNat
    let v := (s.me.getG d).setWidth 128
    let u := s.me.getV (d.setWidth 4)
    let rgn := s.me.ctl.region n
    let base : Word := rgn &&& 0x00FFFFFFFFFFFFF8
    let inside (off size : Nat) : Prop := (rgn >>> 56).toNat ≠ 0 ∧
      (x + BitVec.ofNat 64 off + BitVec.ofNat 64 size).toNat ≤ (rgn >>> 56).toNat * 1024
    Stores (.st d a o sc i w) 4 s (x + BitVec.ofNat 64 (i.toNat * z)) z v .plain o sc ∧
    Stores (.stIndex d a b o sc w) 4 s (x + s.me.getG b) z v .plain o sc ∧
    (inside (i.toNat * z) z →
      Stores (.stRegion d a n i w) 4 s (base + x + BitVec.ofNat 64 (i.toNat * z)) z v .plain 0 0) ∧
    Stores (.stv d a o sc i) 4 s (x + BitVec.ofNat 64 (i.toNat * 16)) 16 u .plain o sc ∧
    Stores (.stvIndex d a b o sc) 4 s (x + s.me.getG b) 16 u .plain o sc ∧
    (inside (i.toNat * 16) 16 →
      Stores (.stvRegion d a n i) 4 s (base + x + BitVec.ofNat 64 (i.toNat * 16)) 16 u .plain 0 0) ∧
    Stores (.stDCm d4 b4 o4) 2 s (s.me.getG (b4.setWidth 5) + BitVec.ofNat 64 (o4.toNat * 8)) 8
      ((s.me.getG (d4.setWidth 5)).setWidth 128) .plain 0 0
/-- R147 and R148: LDF reads a full word and leaves it full, and waits on an empty one; STF and STE store with the bit
they set. -/
def Obligations.FullEmptyWords : Prop :=
  ∀ (s : State) (d a b : BitVec 5) (o : BitVec 2) (sc : BitVec 3) (i : BitVec 5), s.plain = true →
    s.cur.replay = false →
    let x := s.me.getG a
    let v := (s.me.getG d).setWidth 128
    (∀ (j : Instr) (va : Word) pas p ps s1 k,
      (j = .ldf d a o sc i ∧ va = x + BitVec.ofNat 64 (i.toNat * 8)) ∨ (j = .ldfIndex d a b o sc ∧ va = x + s.me.getG b) →
      va.toNat % 8 = 0 → Reaches s va 8 .read .word .word pas (p :: ps) s1 → p.key = some k →
      (o ≠ 0 → ∀ st ∈ s.me.stores, st.rel = none) →
      (sc = 6 → ∀ p' ∈ p :: ps, p'.isSram = false) →
      (s.mem.isFull (k / 8) = true →
        ∃ t, exec j s = .next t ∧ GoesOn 4 s t ∧ SameRegs (putG d 8 (readValue s1 none (p :: ps)) s.me) t.me ∧
          SameCtl s.me t.me ∧ t.mem.bytes = s.mem.bytes ∧ t.mem.full = s.mem.full) ∧
      (s.mem.isFull (k / 8) = false →
        ∃ t, exec j s = .next t ∧ t.me.wait = some (.ldfEmpty (k / 8)) ∧ t.me.pc = s.me.pc ∧ SameRegs s.me t.me ∧
          t.mem.bytes = s.mem.bytes ∧ t.mem.full = s.mem.full)) ∧
    Stores (.stf d a o sc i) 4 s (x + BitVec.ofNat 64 (i.toNat * 8)) 8 v .setFull o sc ∧
    Stores (.stfIndex d a b o sc) 4 s (x + s.me.getG b) 8 v .setFull o sc ∧
    Stores (.ste d a o sc i) 4 s (x + BitVec.ofNat 64 (i.toNat * 8)) 8 v .setEmpty o sc ∧
    Stores (.steIndex d a b o sc) 4 s (x + s.me.getG b) 8 v .setEmpty o sc
/-- R149 to R151: each atomic writes the old word to g[d] and the new word to memory, and no other byte. -/
def Obligations.Atomics : Prop :=
  Atomic .aadd (fun _ x y _ => some (x + y)) ∧ Atomic .aand (fun _ x y _ => some (x &&& y)) ∧
  Atomic .aor (fun _ x y _ => some (x ||| y)) ∧ Atomic .axor (fun _ x y _ => some (x ^^^ y)) ∧
  Atomic .amin (fun _ x y _ => some (if x.sle y then x else y)) ∧
  Atomic .amax (fun _ x y _ => some (if y.sle x then x else y)) ∧
  Atomic .aminn (fun _ x y _ => some (if x ≤ y then x else y)) ∧
  Atomic .amaxn (fun _ x y _ => some (if y ≤ x then x else y)) ∧
  Atomic .aswp (fun _ _ y _ => some y) ∧ Atomic .acas (fun _ x y e => if x = e then some y else none) ∧
  Atomic .afadd (fun w x y _ => some (BitVec.ofNat w ((if w = 64 then f64 else f32).add .rne x.toNat y.toNat).1))
/-- R156 to R160: fences, window fences, prefetches and bank-side operations. A fence completes where nothing it waits
for is outstanding, and covers the stores before it; an ALIASF completes once its range has been aligned; a prefetch changes no
register and no memory; an NM operation
joins those not yet performed, and NMFENCE completes when there are none. -/
def Obligations.FencesAndBankOperations : Prop :=
  ∀ (s : State) (a b i t5 : BitVec 5) (o l : BitVec 2) (sc op : BitVec 3) (w : BitVec 1) (ty : BitVec 2),
    s.plain = true → s.cur.replay = false →
    let x := s.me
    (o ≠ 0 → x.stores = [] → s.mem.pending = [] →
      ∃ t, exec (.fence o sc) s = .next t ∧ GoesOn 4 s t ∧ SameRegs x t.me ∧ SameCtl x t.me ∧
        t.mem.bytes = s.mem.bytes ∧ (o.getLsbD 1 = true → t.me.fenceUpTo = x.serial ∧
          ∃ r, t.me.relScope = some r ∧ sc ≤ r)) ∧
    (o = 3 → x.stores ≠ [] → exec (.fence o sc) s = .next (s.waiting .interlock)) ∧
    (∀ p q, x.aliasing = some (p, q, true) → x.stores = [] → s.mem.pending = [] →
      ∃ t, exec (.aliasf a b) s = .next t ∧ GoesOn 4 s t ∧ SameRegs x t.me ∧ SameCtl x t.me ∧ t.me.aliasing = none ∧
        t.mem.bytes = s.mem.bytes ∧ t.me.fenceUpTo = x.serial) ∧
    (x.aliasing = none → ∃ t, exec (.aliasf a b) s = .next t ∧
      t.me.aliasing = some (s.me.getG a, s.me.getG b, false) ∧ t.me.pc = x.pc) ∧
    (x.stores = [] →
      ∃ t, exec .ifence s = .next t ∧ GoesOn 4 s t ∧ SameRegs x t.me ∧ t.me.ctl = x.ctl ∧ t.mem.bytes = s.mem.bytes ∧
        t.me.fetchAt = max x.fetchAt x.acqAt ∧ ∀ n, (t.mem.line n).fetchers.contains s.cur.core = false) ∧
    (x.stores ≠ [] → exec .ifence s = .next (s.waiting .interlock)) ∧
    (∃ t, exec (.pfx a i w l) s = .next t ∧ t.cur = s.cur ∧ t.cores = (retire (.fall 4) s).cores ∧
      t.mem.bytes = s.mem.bytes ∧ t.mem.full = s.mem.full) ∧
    (∀ (j : Instr) (k : NmKind) pas ps s1,
      (j = .nmadd a b t5 ∧ k = (match t5.toNat with | 0 => NmKind.addS32 | 1 => .addS64 | 2 => .addF32 | _ => .addF64)) ∨
        (j = .nmred a b op ty ∧ k = .red op ty) →
      (x.getG a).toNat % k.size = 0 → Names s (x.getG a) k.size .write .bank pas ps s1 →
      (∀ p ∈ ps, s1.poisoned p = false) →
      ∃ t, exec j s = .next t ∧ GoesOn 4 s t ∧ SameRegs x t.me ∧ t.me.ctl = x.ctl ∧ t.mem = s.mem ∧
        t.me.nms = x.nms ++ [⟨x.serial, x.getG a, pas.headD 0, k, x.getG b⟩]) ∧
    (x.nms = [] → (∀ e ∈ s.bank, ¬(e.1 = s.cur.core ∧ e.2.1 = s.cur.ctx)) →
      exec .nmfence s = .next (retire (.fall 4) (s.setMe { x with
        floor := x.nmDone.foldl (fun f p => Assoc.put f p.1 p.2) x.floor, nmDone := [] }))) ∧
    (x.nms ≠ [] → exec .nmfence s = .next (s.waiting .interlock))
/-- R142, R143, R139 and R63: an ordered or full-empty access, an atomic, an ADF and an NM operation at an address that is not a
multiple of their size trap, as does any access at or above 2^56 and a region access that fails its check; none of them
changes memory or a register. -/
def Obligations.MisalignedAndOutside : Prop :=
  ∀ (s : State) (d a b i t : BitVec 5) (o z ty : BitVec 2) (sc op : BitVec 3) (w : BitVec 1) (n : BitVec 4), s.plain = true →
    (∀ f ∈ memoryForms s d a b i t o z ty sc op w,
      (f.va.toNat < 2 ^ 56 → f.aligned = true → f.va.toNat % f.size ≠ 0 → exec f.instr s = traps ⟨0x04, none, some f.va⟩ s) ∧
      (2 ^ 56 ≤ f.va.toNat →
        exec f.instr s = traps ⟨0x10, some (faultInfo f.acc 3 false s.me.ctl.priv ||| 0x40), some f.va⟩ s)) ∧
    ∀ f ∈ regionForms d a i z n,
      let size := (s.me.ctl.region n >>> 56).toNat
      let sum := s.me.getG a + BitVec.ofNat 64 (i.toNat * f.2) + BitVec.ofNat 64 f.2
      (size = 0 ∨ size * 1024 < sum.toNat → exec f.1 s = traps ⟨0x07, none, none⟩ s)

/-- R115 to R119 and R123 to R125: each scalar floating-point instruction writes the rounded result of its operation to
f[d] and merges its flags; the mode of a DYN field is cr.frm's, and SR there rounds as RNE. -/
def Obligations.FloatArithmetic : Prop :=
  ∀ (s : State) (d a b : BitVec 5) (r : BitVec 3) (p : BitVec 1), s.plain = true →
    let f := fmtP p
    let x := fOperand s.me a p
    let y := fOperand s.me b p
    let z := fOperand s.me d p
    let m := arithMode s.me.ctl r
    let sx := x.testBit (f.width - 1)
    let sy := y.testBit (f.width - 1)
    exec (.fadd d a b r p) s = writesF s d p (f.add m x y) ∧ exec (.fsub d a b r p) s = writesF s d p (f.sub m x y) ∧
    exec (.fmul d a b r p) s = writesF s d p (f.mul m x y) ∧ exec (.fdiv d a b r p) s = writesF s d p (f.div m x y) ∧
    exec (.fsqrt d a r p) s = writesF s d p (f.sqrt m x) ∧
    exec (.ffma d a b r p) s = writesF s d p (f.fma m false false x y z) ∧
    exec (.ffms d a b r p) s = writesF s d p (f.fma m false true x y z) ∧
    exec (.ffnma d a b r p) s = writesF s d p (f.fma m true false x y z) ∧
    exec (.fmin d a b p) s = writesF s d p (f.minmax false x y) ∧
    exec (.fmax d a b p) s = writesF s d p (f.minmax true x y) ∧
    exec (.fsgnj d a b p) s = writesF s d p (f.withSign x sy, 0) ∧
    exec (.fsgnjn d a b p) s = writesF s d p (f.withSign x (!sy), 0) ∧
    exec (.fsgnjx d a b p) s = writesF s d p (f.withSign x (sx != sy), 0) ∧
    exec (.frcpa d a p) s = writesF s d p (f.recip x) ∧ exec (.frsqa d a p) s = writesF s d p (f.rsqrt x) ∧
    exec (.frcpr d a b r p) s = writesF s d p (f.newton m false x y) ∧
    exec (.frsqr d a b r p) s = writesF s d p (f.newton m true x y)
/-- R118, R120 to R122: comparisons write all ones or 0 to g[d], FCLASS its word, the moves copy 64 bits, and FCVT
converts; a stochastic conversion that a floating-point type takes part in draws once. -/
def Obligations.FloatAndInteger : Prop :=
  ∀ (s : State) (d a b : BitVec 5) (r : BitVec 3) (p : BitVec 1) (sT dT : BitVec 4), s.plain = true →
    let f := fmtP p
    let x := fOperand s.me a p
    let y := fOperand s.me b p
    let nan := (f.decode x).isNan || (f.decode y).isNan
    let snan := (f.decode x).isSnan || (f.decode y).isSnan
    let ones (c : Bool) : Word := if c then BitVec.allOnes 64 else 0
    let u := (f.decode x)
    let v := (f.decode y)
    let mode := convMode s.me.ctl r
    let draws := mode = .sr ∧ (sT.toNat < 7 ∨ dT.toNat < 7)
    let seed := if draws then draw s.me.ctl.rseed else s.me.ctl.rseed
    let bits := (if sT.toNat < 7 then s.me.getF a else s.me.getG a).toNat % 2 ^ typeBits sT.toNat
    let c := convert sT.toNat dT.toNat mode s.me.ctl.ovn (seed.toNat / 65536) bits
    exec (.feq d a b p) s = writesGF s d (ones (!nan && !u.lt v && !v.lt u)) (if snan then flagNV else 0) ∧
    exec (.flt d a b p) s = writesGF s d (ones (!nan && u.lt v)) (if nan then flagNV else 0) ∧
    exec (.fle d a b p) s = writesGF s d (ones (!nan && (u.lt v || !v.lt u))) (if nan then flagNV else 0) ∧
    exec (.fclass d a p) s = writesGF s d (f.classWord x) 0 ∧
    exec (.fmvg d a) s = writesGF s d (s.me.getF a) 0 ∧
    exec (.fmvf d a) s = .next (retire (.fall 4) (s.setMe (s.me.setF d (s.me.getG a)))) ∧
    (sT ≠ dT → dT.toNat < 7 → exec (.fcvt d a r sT dT) s = .next (retire (.fall 4) (s.setMe
      { (s.me.setF d (BitVec.ofNat 64 (2 ^ 64 - 2 ^ typeBits dT.toNat + c.1 % 2 ^ typeBits dT.toNat))) with
        ctl := { s.me.ctl with rseed := seed, fflags := s.me.ctl.fflags ||| c.2 } }))) ∧
    (sT ≠ dT → 7 ≤ dT.toNat → exec (.fcvt d a r sT dT) s = .next (retire (.fall 4) (s.setMe
      { (s.me.setG d (if intSigned dT.toNat then ((BitVec.ofNat 64 c.1).setWidth (typeBits dT.toNat)).signExtend 64
          else ((BitVec.ofNat 64 c.1).setWidth (typeBits dT.toNat)).setWidth 64)) with
        ctl := { s.me.ctl with rseed := seed, fflags := s.me.ctl.fflags ||| c.2 } })))
/-- R38 and R116: NaN operands, infinities, zero divisors and negative radicands. -/
def Obligations.FloatSpecialCases : Prop :=
  ∀ (p : BitVec 1) (m : Rnd) (x y : Nat),
    let f := fmtP p
    let nan := if p = 1 then 0x7FF8000000000000 else 0x7FC00000
    let inf := if p = 1 then 0x7FF0000000000000 else 0x7F800000
    let sign (b : Bool) := if b then 2 ^ (f.width - 1) else 0
    (∀ n k q, f.decode x = .nan n k q →
      (f.add m x y).1 = f.quiet n k ∧ (f.mul m x y).1 = f.quiet n k ∧ (f.div m x y).1 = f.quiet n k ∧
      (f.sqrt m x).1 = f.quiet n k ∧ (q = true → (f.add m x y).2 = flagNV)) ∧
    (∀ n, f.decode x = .inf n → f.decode y = .inf (!n) → f.add m x y = (nan, flagNV)) ∧
    (∀ n, f.decode x = .inf n → f.decode y = .inf n → f.sub m x y = (nan, flagNV)) ∧
    (∀ n k, f.decode x = .zero n → f.decode y = .inf k → f.mul m x y = (nan, flagNV) ∧ f.mul m y x = (nan, flagNV)) ∧
    (∀ n k e j, f.decode x = .fin n k e → f.decode y = .zero j → f.div m x y = (sign (n != j) + inf, flagDZ)) ∧
    (∀ n j, f.decode x = .zero n → f.decode y = .zero j → f.div m x y = (nan, flagNV)) ∧
    (∀ n j, f.decode x = .inf n → f.decode y = .inf j → f.div m x y = (nan, flagNV)) ∧
    (∀ k e, f.decode x = .fin true k e → f.sqrt m x = (nan, flagNV)) ∧
    (f.decode x = .inf true → f.sqrt m x = (nan, flagNV)) ∧
    (∀ n, f.decode x = .zero n → f.sqrt m x = (sign n, 0)) ∧
    (∀ n j, f.decode x = .zero n → f.decode y = .zero j →
      f.add m x y = (sign (if n = j then n else m = .rdn), 0))
/-- R32 and R35: what each rounding mode does with ±M, M a multiple of 2^e that is cut to a multiple of 2^q. `k` is
the multiple delivered, and inexact is whether any bit was cut. SR takes the top 16 discarded bits, h, and a random word r. -/
def Obligations.RoundingModes : Prop :=
  ∀ (neg : Bool) (M : Nat) (e q : Int) (r : Nat), e < q →
    let S := 2 ^ (q - e).toNat
    let k (m : Rnd) := (roundAt m neg M e q r).1
    (∀ m, (roundAt m neg M e q r).2 = decide (M % S ≠ 0)) ∧
    (∀ m, r < 65536 → M / S ≤ k m ∧ k m ≤ M / S + 1 ∧ (M % S = 0 → k m = M / S)) ∧
    k .rtz = M / S ∧
    k .rdn = (if neg ∧ M % S ≠ 0 then M / S + 1 else M / S) ∧ k .rup = (if ¬neg ∧ M % S ≠ 0 then M / S + 1 else M / S) ∧
    (2 * (M % S) < S → k .rne = M / S ∧ k .rmm = M / S) ∧
    (S < 2 * (M % S) → k .rne = M / S + 1 ∧ k .rmm = M / S + 1) ∧
    (2 * (M % S) = S → k .rmm = M / S + 1 ∧ k .rne % 2 = 0) ∧
    (let h := M % S * 65536 / S
     k .sr = if 65536 ≤ h + r then M / S + 1 else M / S)
/-- R126 and R127: the integer lanes of the two-source and one-source vector forms, wrapping, saturating or unsigned. -/
def Obligations.VectorInteger : Prop :=
  ∀ (s : State) (d a b : BitVec 4) (t : BitVec 3), s.plain = true → t.toNat < 4 →
    let w := widthOf t
    LanesInt 4 (.vadd d a b 0 t) s d a b w (· + ·) ∧ LanesInt 4 (.vsub d a b 0 t) s d a b w (· - ·) ∧
    LanesInt 4 (.vadd d a b 1 t) s d a b w (fun x y => clampS w (x.toInt + y.toInt)) ∧
    LanesInt 4 (.vsub d a b 1 t) s d a b w (fun x y => clampS w (x.toInt - y.toInt)) ∧
    LanesInt 4 (.vadd d a b 2 t) s d a b w (fun x y => clampU w (x.toNat + y.toNat)) ∧
    LanesInt 4 (.vsub d a b 2 t) s d a b w (fun x y => clampU w (x.toNat - y.toNat)) ∧
    LanesInt 4 (.vmul d a b 0 t) s d a b w (· * ·) ∧
    LanesInt 4 (.vmin d a b 0 t) s d a b w (fun x y => if x.sle y then x else y) ∧
    LanesInt 4 (.vmin d a b 1 t) s d a b w (fun x y => if x ≤ y then x else y) ∧
    LanesInt 4 (.vmax d a b 0 t) s d a b w (fun x y => if x.sle y then y else x) ∧
    LanesInt 4 (.vmax d a b 1 t) s d a b w (fun x y => if x ≤ y then y else x) ∧
    LanesInt 4 (.vabsd d a b 0 t) s d a b w (fun x y => BitVec.ofNat w (x.toInt - y.toInt).natAbs) ∧
    LanesInt 4 (.vabsd d a b 1 t) s d a b w (fun x y => BitVec.ofNat w ((x.toNat : Int) - y.toNat).natAbs) ∧
    LanesInt 4 (.vabs d a 0 t) s d a a w (fun x _ => if x.msb then -x else x) ∧
    LanesInt 4 (.vabs d a 1 t) s d a a w (fun x _ => clampS w x.toInt.natAbs) ∧
    LanesInt 4 (.vneg d a 0 t) s d a a w (fun x _ => -x) ∧
    LanesInt 4 (.vneg d a 1 t) s d a a w (fun x _ => clampS w (-x.toInt)) ∧
    LanesInt 4 (.vshl d a b t) s d a b w (fun x y => x <<< (y.toNat % w)) ∧
    LanesInt 4 (.vshr d a b t) s d a b w (fun x y => x >>> (y.toNat % w)) ∧
    LanesInt 4 (.vsra d a b t) s d a b w (fun x y => x.sshiftRight (y.toNat % w)) ∧
    LanesInt 4 (.vcmpeq d a b t) s d a b w (fun x y => if x = y then BitVec.allOnes w else 0) ∧
    LanesInt 4 (.vcmplt d a b 0 t) s d a b w (fun x y => if x.slt y then BitVec.allOnes w else 0) ∧
    LanesInt 4 (.vcmplt d a b 1 t) s d a b w (fun x y => if x < y then BitVec.allOnes w else 0) ∧
    LanesInt 4 (.vcmple d a b 0 t) s d a b w (fun x y => if x.sle y then BitVec.allOnes w else 0) ∧
    LanesInt 4 (.vcmple d a b 1 t) s d a b w (fun x y => if x ≤ y then BitVec.allOnes w else 0)
/-- R127, R130 and R134: floating-point lanes do what the scalar operation of the same name does, by cr.frm's mode; a
comparison gives all ones or 0; estimates act on each lane. -/
def Obligations.VectorFloat : Prop :=
  ∀ (s : State) (d a b : BitVec 4) (t : BitVec 3), s.plain = true → 4 ≤ t.toNat →
    let w := widthOf t
    let f := formatOf t
    let m := arithMode s.me.ctl 7
    let truth (c : Bool) : Nat := if c then 2 ^ w - 1 else 0
    let nan (x y : Nat) := (f.decode x).isNan || (f.decode y).isNan
    let snan (x y : Nat) := (f.decode x).isSnan || (f.decode y).isSnan
    let lt (x y : Nat) := (f.decode x).lt (f.decode y)
    LanesFloat 4 (.vadd d a b 0 t) s d a b w (f.add m) ∧ LanesFloat 4 (.vsub d a b 0 t) s d a b w (f.sub m) ∧
    LanesFloat 4 (.vmul d a b 0 t) s d a b w (f.mul m) ∧
    LanesFloat 4 (.vmin d a b 0 t) s d a b w (f.minmax false) ∧
    LanesFloat 4 (.vmax d a b 0 t) s d a b w (f.minmax true) ∧
    LanesFloat 4 (.vabs d a 0 t) s d a a w (fun x _ => (x % 2 ^ (w - 1), 0)) ∧
    LanesFloat 4 (.vneg d a 0 t) s d a a w (fun x _ => ((x + 2 ^ (w - 1)) % 2 ^ w, 0)) ∧
    LanesFloat 4 (.vabsd d a b 0 t) s d a b w (vAbsdF f m) ∧
    LanesFloat 4 (.vcmpeq d a b t) s d a b w (fun x y => (truth (!nan x y && !lt x y && !lt y x), if snan x y then flagNV else 0)) ∧
    LanesFloat 4 (.vcmplt d a b 0 t) s d a b w (fun x y => (truth (!nan x y && lt x y), if nan x y then flagNV else 0)) ∧
    LanesFloat 4 (.vcmple d a b 0 t) s d a b w
      (fun x y => (truth (!nan x y && (lt x y || !lt y x)), if nan x y then flagNV else 0)) ∧
    LanesFloat 4 (.vrcpa d a t) s d a a w (fun x _ => f.recip x) ∧
    LanesFloat 4 (.vrsqa d a t) s d a a w (fun x _ => f.rsqrt x)
/-- R126 to R130: fused lanes, dot products, bitwise forms, selection, permutes, moves between files, and reductions by
the pairwise tree; every form completes, with its result. What a floating-point dot product gives is `dotLane` of the lane's
elements and the old lane, whose choices log 18 names. -/
def Obligations.VectorMoves : Prop :=
  ∀ (s : State) (d a b c : BitVec 4) (t : BitVec 3), s.plain = true →
    let w := widthOf t
    let f := formatOf t
    let m := arithMode s.me.ctl 7
    let va := s.me.getV a
    let vb := s.me.getV b
    let vc := s.me.getV c
    let vd := s.me.getV d
    let gb := s.me.getG (b.setWidth 5)
    exec (.vand d a b) s = writesV 4 s d (va &&& vb) 0 ∧ exec (.vor d a b) s = writesV 4 s d (va ||| vb) 0 ∧
    exec (.vxor d a b) s = writesV 4 s d (va ^^^ vb) 0 ∧ exec (.vnot d a) s = writesV 4 s d (~~~va) 0 ∧
    (t.toNat < 4 → ∃ r : Vec, exec (.vfma d a b c t) s = writesV 4 s d r 0 ∧
      ∀ j < 128 / w, laneAt r w j = laneAt va w j * laneAt vb w j + laneAt vc w j) ∧
    (4 ≤ t.toNat →
      let one (j : Nat) := f.fma m false false (laneAt va w j).toNat (laneAt vb w j).toNat (laneAt vc w j).toNat
      ∃ r : Vec,
        exec (.vfma d a b c t) s = writesV 4 s d r ((List.range (128 / w)).foldl (fun fl j => fl ||| (one j).2) 0) ∧
        ∀ j < 128 / w, laneAt r w j = BitVec.ofNat w (one j).1) ∧
    (t.toNat < 2 → ∃ r : Vec, exec (.vdot d a b t) s = writesV 4 s d r 0 ∧ ∀ j < 4,
      laneAt r 32 j = BitVec.ofInt 32 ((laneAt vd 32 j).toInt +
        ((List.range (32 / w)).map fun i => (laneAt va w (32 / w * j + i)).toInt * (laneAt vb w (32 / w * j + i)).toInt).sum)) ∧
    (t = 6 ∨ t = 7 →
      let elems (v : Vec) (j : Nat) := (List.range 2).map fun i => (laneAt v 16 (2 * j + i)).toNat
      let one (j : Nat) := dotLane f m (elems va j) (elems vb j) (laneAt vd 32 j).toNat
      ∃ r : Vec,
        exec (.vdot d a b t) s = writesV 4 s d r ((List.range 4).foldl (fun fl j => fl ||| (one j).2) 0) ∧
        ∀ j < 4, laneAt r 32 j = BitVec.ofNat 32 (one j).1) ∧
    (∃ r : Vec, exec (.vsel d a b c t) s = writesV 4 s d r 0 ∧
      ∀ j < 128 / w, laneAt r w j = if laneAt vc w j ≠ 0 then laneAt va w j else laneAt vb w j) ∧
    (∃ r : Vec, exec (.vperm d a b c) s = writesV 4 s d r 0 ∧ ∀ j < 16, laneAt r 8 j =
      if (laneAt vc 8 j).msb then 0 else (vb ++ va).extractLsb' (8 * ((laneAt vc 8 j).toNat % 32)) 8) ∧
    (∃ r : Vec, exec (.vbcast d b t) s = writesV 4 s d r 0 ∧ ∀ j < 128 / w, laneAt r w j = gb.setWidth w) ∧
    (∃ r : Vec, exec (.vins d b c t) s = writesV 4 s d r 0 ∧
      ∀ j < 128 / w, laneAt r w j = if j = c.toNat then gb.setWidth w else laneAt vd w j) ∧
    (c.toNat < 128 / w → exec (.vext d a c t) s = writesG 4 s (d.setWidth 5)
      (if t.toNat < 4 then (laneAt va w c.toNat).signExtend 64 else (laneAt va w c.toNat).setWidth 64)) ∧
    (t.toNat < 4 → Reduces (.vredadd d a t) s d a w (quietly w (· + ·)) ∧
      Reduces (.vredmin d a 0 t) s d a w (quietly w fun x y => if x.sle y then x else y) ∧
      Reduces (.vredmin d a 1 t) s d a w (quietly w fun x y => if x ≤ y then x else y) ∧
      Reduces (.vredmax d a 0 t) s d a w (quietly w fun x y => if x.sle y then y else x) ∧
      Reduces (.vredmax d a 1 t) s d a w (quietly w fun x y => if x ≤ y then y else x)) ∧
    (4 ≤ t.toNat → Reduces (.vredadd d a t) s d a w (f.add m) ∧
      Reduces (.vredmin d a 0 t) s d a w (f.minmax false) ∧ Reduces (.vredmax d a 0 t) s d a w (f.minmax true))
/-- R131 to R133: packed conversion of every element in order, with a draw for each under SR, narrowing and widening of
integer lanes, and the activation threshold with the two registers it counts in; every form completes, with its result. -/
def Obligations.VectorConversion : Prop :=
  ∀ (s : State) (d a b c : BitVec 4) (t r : BitVec 3), s.plain = true →
    let w := widthOf t
    let f := formatOf t
    let va := s.me.getV a
    let vb := s.me.getV b
    let x := s.me.ctl
    let ws := typeBits c.toNat
    let wd := typeBits b.toNat
    let n := 128 / max ws wd
    let mode := convMode x r
    let draws := mode = .sr ∧ (c.toNat < 7 ∨ b.toNat < 7)
    let seed (j : Nat) : BitVec 32 := if draws then draw^[j] x.rseed else x.rseed
    let one (j : Nat) := convert c.toNat b.toNat mode x.ovn ((seed (j + 1)).toNat / 65536) (laneAt va ws j).toNat
    let dropped (j : Nat) := dropsLane f w x.athr (laneAt va w j)
    (b ≠ c → ∃ v : Vec, exec (.vcvt d a b c r) s = .next (retire (.fall 4) (s.setMe { s.me.setV d v with
        ctl := { x with rseed := seed n, fflags := x.fflags ||| (List.range n).foldl (fun fl j => fl ||| (one j).2) 0 } })) ∧
      (∀ j < n, laneAt v wd j = BitVec.ofNat wd (one j).1) ∧ v >>> (n * wd) = 0) ∧
    (t.toNat < 4 → c.toNat < 3 → ∃ v : Vec, exec (.vpack d a b c t) s = writesV 4 s d v 0 ∧ ∀ j < 128 / w,
      let narrowTo (y : BitVec w) : BitVec (w / 2) :=
        if c = 1 then clampS (w / 2) y.toInt else if c = 2 then clampU (w / 2) y.toInt else y.setWidth (w / 2)
      laneAt v (w / 2) j = narrowTo (laneAt va w j) ∧ laneAt v (w / 2) (128 / w + j) = narrowTo (laneAt vb w j)) ∧
    (t.toNat < 4 → c.toNat < 4 → ∃ v : Vec, exec (.vunpk d a c t) s = writesV 4 s d v 0 ∧ ∀ j < 128 / w,
      let e := laneAt va (w / 2) (j + if c.getLsbD 1 then 128 / w else 0)
      laneAt v w j = if c.getLsbD 0 then e.setWidth w else e.signExtend w) ∧
    (4 ≤ t.toNat → ∃ (v : Vec) (sum : BitVec 32), exec (.vthr d a t) s = .next (retire (.fall 4) (s.setMe
        { s.me.setV d v with ctl := { x with
            adrop := sum, adcnt := x.adcnt + BitVec.ofNat 64 ((List.range (128 / w)).countP dropped) } })) ∧
      (∀ j < 128 / w, laneAt v w j = if dropped j then 0 else laneAt va w j) ∧
      sum = if (f32.decode x.adrop.toNat).isNan then x.adrop else BitVec.ofNat 32 ((List.range (128 / w)).foldl
        (fun z j => if dropped j then
          (f32.add .rne z (floatToFloat f f32 .rne false 0 ((laneAt va w j).toNat % 2 ^ (w - 1))).1).1 else z) x.adrop.toNat))
/-- R75: each 16-bit vector form does what the 32-bit form it expands to does, and is two bytes long. -/
def Obligations.ShortVectorForms : Prop :=
  ∀ (s : State) (d a : BitVec 4), s.plain = true →
    let va := s.me.getV a
    let vd := s.me.getV d
    let m := arithMode s.me.ctl 7
    exec (.vorCv d a) s = writesV 2 s d va 0 ∧ exec (.vandCv d a) s = writesV 2 s d (vd &&& va) 0 ∧
    exec (.vxorCv d a) s = writesV 2 s d (vd ^^^ va) 0 ∧ exec (.vnotCv d a) s = writesV 2 s d (~~~va) 0 ∧
    LanesInt 2 (.vaddS32Cv d a) s d d a 32 (· + ·) ∧ LanesInt 2 (.vsubS32Cv d a) s d d a 32 (· - ·) ∧
    LanesFloat 2 (.vaddF32Cv d a) s d d a 32 (f32.add m) ∧ LanesFloat 2 (.vsubF32Cv d a) s d d a 32 (f32.sub m) ∧
    LanesFloat 2 (.vmulF32Cv d a) s d d a 32 (f32.mul m) ∧ LanesFloat 2 (.vmaxF32Cv d a) s d d a 32 (f32.minmax true) ∧
    LanesFloat 2 (.vminF32Cv d a) s d d a 32 (f32.minmax false)

/-- R166, R167, R168, R169, R170, R332 and R74: SEND, its short form and SENDR queue one message with the source word, the
descriptor without its reserved bits and six payload words; the sequence number is delivered and advances. On a full queue SEND
spills or waits, and SENDR waits. -/
def Obligations.Sending : Prop :=
  ∀ (s : State) (d a b : BitVec 5) (a4 k : BitVec 4), s.plain = true → s.cur.replay = false →
    let x := s.me
    let h := x.getG a
    let h4 := x.getG (a4.setWidth 5)
    let pay (r : BitVec 5) : Vector Word 6 :=
      #v[x.getG r, x.getG (r + 1), x.getG (r + 2), x.getG (r + 3), x.getG (r + 4), x.getG (r + 5)]
    let m : Msg := ⟨sourceOf s, h &&& 0xFFFFFFFFFFC0FFFF, pay b⟩
    let m4 : Msg := ⟨sourceOf s, ((h4.extractLsb' 38 26 : BitVec 26) ++ (16 + k.setWidth 8 : BitVec 8) ++ (63 : BitVec 6) ++
      (0 : BitVec 8) ++ (h4.setWidth 16 : BitVec 16)).setWidth 64, pay 1⟩
    (x.sendq.length < x.ctl.sqdepth.toNat →
      (x.ctl.priv = 1 ∨ 16 ≤ clsOf h → ∃ t c, exec (.send d a b) s = .next t ∧
        Leaves 4 s t (({ x with sendq := x.sendq ++ [⟨m, x.fenceUpTo, c, x.relScope, []⟩]
                                seq := x.seq + 1 } : Ctx).setG d (x.seq.setWidth 64))) ∧
      ∃ t c, exec (.sendC a4 k) s = .next t ∧
        Leaves 2 s t { x with sendq := x.sendq ++ [⟨m4, x.fenceUpTo, c, x.relScope, []⟩], seq := x.seq + 1 }) ∧
    (x.ctl.sqdepth.toNat ≤ x.sendq.length →
      (x.ctl.priv = 1 ∨ 16 ≤ clsOf h →
        FullQueue (.send d a b) 4 s m (({ x with seq := x.seq + 1 } : Ctx).setG d (x.seq.setWidth 64))) ∧
      FullQueue (.sendC a4 k) 2 s m4 { x with seq := x.seq + 1 }) ∧
    (x.ctl.priv = 0 → clsOf h < 16 → exec (.send d a b) s = traps ⟨0x02, none, none⟩ s) ∧
    (∀ pas ps s1, Reaches s h 64 .read .plain .copy pas ps s1 → h.toNat % 64 = 0 →
      let n := readValue s1 (some x.acqAt) ps
      let own := x.ctl.priv = 0
      let src := if own then sourceOf s else recordWord n 0
      (own → clsOf (recordWord n 1) < 16 → exec (.sendr d a) s = traps ⟨0x02, none, none⟩ s) ∧
      (x.ctl.priv = 1 ∨ 16 ≤ clsOf (recordWord n 1) →
        (x.sendq.length < x.ctl.sqdepth.toNat → ∃ t c, exec (.sendr d a) s = .next t ∧ GoesOn 4 s t ∧
          SameRegs (x.setG d (src &&& 0xFFFF)) t.me ∧ t.me.ctl = x.ctl ∧ t.mem.bytes = s.mem.bytes ∧ t.mem.full = s.mem.full ∧
          t.me.sendq = x.sendq ++ [⟨⟨src, recordWord n 1 &&& 0xFFFFFFFFFFC0FFFF,
            #v[recordWord n 2, recordWord n 3, recordWord n 4, recordWord n 5, recordWord n 6, recordWord n 7]⟩,
            x.fenceUpTo, c, x.relScope, []⟩] ∧
          t.me.seq = if own then x.seq + 1 else x.seq) ∧
        (x.ctl.sqdepth.toNat ≤ x.sendq.length → ∃ t, exec (.sendr d a) s = .next t ∧ t.me.wait = some .sendrFull ∧
          t.me.pc = x.pc ∧ SameRegs x t.me ∧ t.me.sendq = x.sendq ∧ t.mem = s.mem)))
/-- R153 and R169: ADF decrements the counter, and the decrement that reaches zero clears it and sends the record's message; with a full
send queue it spills, or waits and leaves the record where class 5 has no spill block. -/
def Obligations.DecrementAndFire : Prop :=
  ∀ (s : State) (d a b : BitVec 5) (o : BitVec 2) (sc : BitVec 3) (w : BitVec 1) pas ps s1, s.plain = true →
    s.cur.replay = false →
    let n := if w = 1 then 8 else 4
    let x := s.me
    let va := x.getG a
    va.toNat % 64 = 0 → Reaches s va 64 .rmw .word .token pas ps s1 → x.stores = [] → s.mem.pending = [] →
    (sc = 6 → ∀ p ∈ ps, p.isSram = false) →
    let rec_ := readValue s1 none ps
    let old := BitVec.ofNat (8 * n) rec_
    let y := (x.getG b).setWidth (8 * n)
    let m : Msg := ⟨sourceOf s, recordWord rec_ 1 &&& 0xFFFFFFFFFFC0FFFF,
      #v[recordWord rec_ 2, recordWord rec_ 3, recordWord rec_ 4, recordWord rec_ 5, recordWord rec_ 6, recordWord rec_ 7]⟩
    (¬(old - y = 0 ∧ y ≠ 0) → ∃ t, exec (.adf d a b o sc w) s = .next t ∧ GoesOn 4 s t ∧
      SameRegs (putG d n rec_ x) t.me ∧ SameCtl x t.me ∧ t.me.sendq = x.sendq ∧ t.me.seq = x.seq ∧
      Written s t ps n (old - y).toNat) ∧
    (old - y = 0 → y ≠ 0 → x.ctl.priv = 1 ∨ 16 ≤ clsOf (recordWord rec_ 1) → x.sendq.length < x.ctl.sqdepth.toNat →
      ∃ t c rels, exec (.adf d a b o sc w) s = .next t ∧ GoesOn 4 s t ∧ SameRegs (putG d n rec_ x) t.me ∧ SameCtl x t.me ∧
        t.me.sendq = x.sendq ++ [⟨m, x.fenceUpTo, c, x.relScope, rels⟩] ∧ t.me.seq = x.seq + 1 ∧ Written s t ps n 0) ∧
    (old - y = 0 → y ≠ 0 → x.ctl.priv = 1 ∨ 16 ≤ clsOf (recordWord rec_ 1) → x.ctl.sqdepth.toNat ≤ x.sendq.length →
      ((s.here.cls 5).block = none → ∃ t, exec (.adf d a b o sc w) s = .next t ∧ t.me.wait = some .interlock ∧ t.me.pc = x.pc ∧
        SameRegs x t.me ∧ t.me.sendq = x.sendq ∧ t.mem = s.mem) ∧
      ∀ blk, (s.here.cls 5).block = some blk → Spilling (.adf d a b o sc w) 4 s (s1.dropAnswers false) blk.1 m
        (putG d n rec_ { x with seq := x.seq + 1 }) ((ps.take n).zip (toBytes 0 n))) ∧
    (old - y = 0 → y ≠ 0 → x.ctl.priv = 0 → clsOf (recordWord rec_ 1) < 16 →
      exec (.adf d a b o sc w) s = traps ⟨0x02, none, none⟩ s)
/-- R172, R173, R174, R175, R111, R186, R270 and R74: FORK pushes a task, a full deque giving its 128 oldest to the spill
area first and waiting where that is full; DONE merges into the done record, CLSBIND changes one
entry of the class table after its checks, and END frees the context; none of them changes a general register. That FORK waits where
the spill area is full, cannot be written, or no launch is resident is the model's choice (log 17). -/
def Obligations.TaskInstructions : Prop :=
  ∀ (s : State) (d a b : BitVec 5) (a4 : BitVec 4), s.plain = true →
    let x := s.me
    let h := x.getG a
    let w := x.getG b
    let here := s.here
    let forked (f : Fork) : Prop := f.cls.toNat = clsOf h ∧ f.prio = h.extractLsb' 24 6 ∧ f.core = s.cur.core ∧
      f.ctx = s.cur.ctx ∧ f.prv = x.ctl.priv ∧
      f.pay = #v[x.getG b, x.getG (b + 1), x.getG (b + 2), x.getG (b + 3), x.getG (b + 4), x.getG (b + 5)]
    (x.ctl.priv = 1 ∨ 16 ≤ clsOf h →
      (here.deque.length < 256 → ∃ t f, exec (.fork a b) s = .next t ∧ Leaves 4 s t x ∧ forked f ∧
        t.here.deque = here.deque ++ [f] ∧ t.here.spilled = here.spilled) ∧
      (256 ≤ here.deque.length → spillDeque s.cur.core s = none →
        ∃ t, exec (.fork a b) s = .next t ∧ t.me.wait = some .interlock ∧ t.me.pc = x.pc ∧ t.here.deque = here.deque) ∧
      (∀ u, 256 ≤ here.deque.length → spillDeque s.cur.core s = some u →
        ∃ t f k, exec (.fork a b) s = .next t ∧ t.me = (retire (.fall 4) s).me ∧ forked f ∧ t.mem = u.mem ∧
          t.here.deque = here.deque.drop 128 ++ [f] ∧ t.here.spilled = here.spilled ++ [k] ∧
          k.marks.map (·.1) = List.range 128)) ∧
    (x.ctl.priv = 0 → clsOf h < 16 → exec (.fork a b) s = traps ⟨0x02, none, none⟩ s) ∧
    (∀ (i : Instr) (n : Nat) (g : Word),
      (i = .done a ∧ n = 4 ∧ g = h) ∨ (i = .doneCt a4 ∧ n = 2 ∧ g = x.getG (a4.setWidth 5)) →
      ∃ t, exec i s = .next t ∧ Leaves n s t x ∧
        t.here.done.code.toNat = max here.done.code.toNat (g.extractLsb' 56 8).toNat ∧
        t.here.done.flags = here.done.flags ||| g.extractLsb' 48 8 ∧
        t.here.done.count = here.done.count + g.extractLsb' 0 48) ∧
    (let op := w.extractLsb' 16 2
     let cls := w.extractLsb' 0 8
     let prv := w.extractLsb' 14 1
     let dprio := w.extractLsb' 8 6
     let blk := x.getG d
     let five := cls = 5 ∧ (op = 1 ∨ op = 2)
     let formed := w.extractLsb' 18 46 = 0 ∧ w.extractLsb' 15 1 = 0 ∧ op ≠ 3 ∧ dprio ≠ 63 ∧ (d = 0 ∨ five)
     let permitted := x.ctl.priv = 1 ∨ (16 ≤ cls.toNat ∧ prv = 0)
     let even := op = 0 ∨ h.toNat % 2 = 0
     let aligned := ¬five ∨ d = 0 ∨ blk.toNat % 64 = 0
     let near := op = 0 ∨ h.toNat < 2 ^ 56
     let e := here.cls cls.toNat
     (¬formed → exec (.clsbind d a b) s = traps (illegalOf (.clsbind d a b)) s) ∧
     (formed → ¬permitted → exec (.clsbind d a b) s = traps ⟨0x02, none, none⟩ s) ∧
     (formed → permitted → ¬even → ∃ info, exec (.clsbind d a b) s = traps ⟨0x04, info, some h⟩ s) ∧
     (formed → permitted → even → ¬aligned → ∃ info, exec (.clsbind d a b) s = traps ⟨0x04, info, some blk⟩ s) ∧
     (formed → permitted → even → aligned → ¬near → ∃ info, exec (.clsbind d a b) s = traps ⟨0x10, info, some h⟩ s) ∧
     (formed → permitted → even → aligned → near → x.stores ≠ [] →
       exec (.clsbind d a b) s = .next (s.waiting .interlock)) ∧
     (formed → permitted → even → aligned → near → x.stores = [] →
       ∃ t, exec (.clsbind d a b) s = .next t ∧ Leaves 4 s t x ∧
         (∀ k, k ≠ cls.toNat → t.here.cls k = here.cls k) ∧
         let u := t.here.cls cls.toNat
         let bound := u.state = .bound ∧ u.handler = ⟨h, prv, dprio⟩ ∧
           (cls = 5 → u.block = if d = 0 then none else some (blk, x.ctl.ptroot))
         (op = 0 → u.state = .unbound) ∧ (op = 1 → bound) ∧ (op = 2 → e.state = .unbound → bound) ∧
         (op = 2 → e.state = .draining → e.old ≠ [] → u.state = .draining ∧ u.pending = ⟨h, prv, dprio⟩ ∧ u.old = e.old) ∧
         (op = 2 → e.state = .bound → here.running cls.toNat = [] → bound) ∧
         (op = 2 → e.state = .bound → here.running cls.toNat ≠ [] →
           u.state = .draining ∧ u.pending = ⟨h, prv, dprio⟩ ∧ u.handler = e.handler))) ∧
    (∀ i, i = .endTask ∨ i = .endCt → x.replay = none → ∃ t, exec i s = .next t ∧ t.cur = s.cur ∧ t.mem = s.mem ∧
      t.me = { x with status := .free, q := Vector.replicate 4 [], binds := [], streams := [], loop := none, trapLoops := [], rep := {}
                      accrd := none, replay := none, tagged := [], relScope := none, wait := none, task := none, aliasing := none } ∧
      ∀ c k, c ≠ s.cur.core ∨ k ≠ s.cur.ctx → t.ctxAt c k = s.ctxAt c k)
/-- R176 and R177: NSEND takes a credit and sends v[a] to the neighbour, waits without a credit or room, and traps past
the edge or the partition; WINSET recomputes the four counters. -/
def Obligations.Neighbours : Prop :=
  ∀ (s : State) (a : BitVec 5) (m : BitVec 2), s.plain = true → s.cur.replay = false →
    let x := s.me
    let credit (y : Ctx) (i : BitVec 2) : BitVec 3 := y.ctl.win.get ⟨i.toNat, i.isLt⟩
    let out (y : Ctx) (i : BitVec 2) : Nat := y.outst.get ⟨i.toNat, i.isLt⟩
    (neighbourIn s.cur.core m = none → exec (.nsend a m) s = traps ⟨0x12, some 3, none⟩ s) ∧
    (∀ n q, neighbourIn s.cur.core m = some (n, q) →
      let c : CoreId := BitVec.ofNat 13 n
      (s.partOf c ≠ s.partOf s.cur.core → exec (.nsend a m) s = traps ⟨0x13, none, none⟩ s) ∧
      (s.partOf c = s.partOf s.cur.core → credit x m ≠ 0 → inQueue s c q < 4 →
        ∃ t, exec (.nsend a m) s = .next t ∧ GoesOn 4 s t ∧ SameRegs x t.me ∧
          t.vecs = s.vecs ++ [(c, q, ⟨x.getV (a.setWidth 4), s.cur.core, s.cur.ctx, m⟩)] ∧
          credit t.me m = credit x m - 1 ∧ out t.me m = out x m + 1 ∧
          (∀ i, i ≠ m → credit t.me i = credit x i ∧ out t.me i = out x i) ∧
          t.me.ctl = { x.ctl with win := t.me.ctl.win } ∧ t.mem = s.mem) ∧
      (s.partOf c = s.partOf s.cur.core → credit x m = 0 ∨ 4 ≤ inQueue s c q →
        exec (.nsend a m) s = .next (s.waiting (.noCredit m)))) ∧
    ∃ t, exec (.winset a) s = .next t ∧ GoesOn 4 s t ∧ SameRegs x t.me ∧ t.mem = s.mem ∧
      t.me.ctl = { x.ctl with win := t.me.ctl.win } ∧
      ∀ i, (credit t.me i).toNat = min ((x.getG a).extractLsb' (4 * i.toNat) 3).toNat 4 - out x i
/-- R178, R180, R181, R182 and R183: QCFG binds and unbinds a queue, STRM and STRMOFF begin and end stream mode, and
REPB, REPE and REPGO begin, end and start a replay, an ill-placed REPE discarding the recording; nothing else of the context changes. That
STRM on a queue which another stream uses is illegal (log 10), and that the unbind form takes every register off the queue (log 11),
are the model's choices. -/
def Obligations.QueuesStreamsAndReplays : Prop :=
  ∀ (s : State) (d a b : BitVec 5) (k : BitVec 1), s.me.owed = [] → s.me.replay = none →
    let x := s.me
    let w := x.getG a
    let reg := w.extractLsb' 5 5
    let vec := w.getLsbD 4
    let q := w.extractLsb' 0 3
    let rest := x.binds.filter fun y => y.q ≠ q
    let clash := w.extractLsb' 10 54 ≠ 0 ∨ (vec = false ∧ reg = 0) ∨ (vec = true ∧ 16 ≤ reg.toNat) ∨
      (∃ y ∈ x.binds, y.vec = vec ∧ y.reg = reg) ∨ (∃ t ∈ x.streams, t.vec = vec ∧ t.reg = reg) ∨
      (∃ t ∈ x.streams, t.q.toNat = q.toNat)
    let onV : Bool := decide (k = 1)
    let busy := (∃ t ∈ x.streams, t.vec = onV ∧ t.reg = d) ∨ (∃ y ∈ x.binds, y.vec = onV ∧ y.reg = d) ∨ 4 ≤ b.toNat ∨
      (∃ y ∈ x.binds, y.q.toNat = b.toNat) ∨ (∃ t ∈ x.streams, t.q.toNat = b.toNat)
    ((∀ y ∈ x.binds, ¬(y.vec = false ∧ y.reg = a)) → (∀ t ∈ x.streams, ¬(t.vec = false ∧ t.reg = a)) →
      (w.getLsbD 3 = false → ∃ t, exec (.qcfg a) s = .next t ∧ Leaves 4 s t { x with binds := rest }) ∧
      (w.getLsbD 3 = true → ¬clash →
        ∃ t, exec (.qcfg a) s = .next t ∧ Leaves 4 s t { x with binds := rest ++ [⟨vec, reg, q⟩] }) ∧
      (w.getLsbD 3 = true → clash → exec (.qcfg a) s = traps (illegalOf (.qcfg a)) s) ∧
      (x.rep.complete = true → 0 < x.rep.buf.length → w ≠ 0 → s.cur.replay = false → ∃ t, exec (.repgo a) s = .next t ∧
        t.cur = s.cur ∧ t.me = { x with replay := some { total := w.toNat }, pc := t.me.pc, loop := t.me.loop, wait := none } ∧
        t.me.pc = (retire (.fall 4) s).me.pc ∧ t.mem = s.mem) ∧
      (x.rep.complete = true → w = 0 → ∃ t, exec (.repgo a) s = .next t ∧ Leaves 4 s t x) ∧
      (x.rep.complete = false → exec (.repgo a) s = traps (illegalOf (.repgo a)) s)) ∧
    (busy → exec (.strm d a b k) s = traps (illegalOf (.strm d a b k)) s) ∧
    (¬busy → x.getTm (a.setWidth 4) = none → exec (.strm d a b k) s = traps ⟨0x08, none, none⟩ s) ∧
    (∀ m, ¬busy → x.getTm (a.setWidth 4) = some m →
      let fmt := (m.extractLsb' 59 5).toNat
      let ok := (m.extractLsb' 56 3).toNat ≤ 3 ∧ m.getLsbD 124 = false ∧ fmt ≤ 15 ∧
        (k = 1 → ((m.extractLsb' 128 20).toNat + 1) * typeBits fmt % 128 = 0) ∧ (k = 0 → fmt ≠ 6 ∧ fmt ≠ 7)
      (ok → ∃ t, exec (.strm d a b k) s = .next t ∧
        Leaves 4 s t { x with streams := x.streams ++ [{ vec := onV, reg := d, map := m, q := b.setWidth 2 }] }) ∧
      (¬ok → exec (.strm d a b k) s = traps ⟨0x0B, some 1, none⟩ s)) ∧
    (∃ t, exec (.strmoff d k) s = .next t ∧
      Leaves 4 s t { x with streams := x.streams.filter fun y => ¬(y.vec = onV ∧ y.reg = d) }) ∧
    (∃ t, exec (.repb d a b) s = .next t ∧
      Leaves 4 s t { x with rep := { recording := true, sacc := d.setWidth 1, sf := a, sv := b.setWidth 4 } }) ∧
    (x.rep.recording = true → ∃ t, exec .repe s = .next t ∧
      Leaves 4 s t { x with rep := { x.rep with recording := false, complete := true } }) ∧
    (x.rep.recording = false → exec .repe s = traps (illegalOf .repe) (s.setMe { x with rep := {} }))
/-- R185 and R68: TMLD loads the 64-byte map at g[a] + 64 · imm11 into tm[d], traps on an address that is not 64-byte
aligned, and on a map that fails a check. -/
def Obligations.LoadingMaps : Prop :=
  ∀ (s : State) (d a : BitVec 5) (i : BitVec 11), s.plain = true → s.cur.replay = false →
    let x := s.me
    let va := x.getG a + i.signExtend 64 * 64
    (va.toNat < 2 ^ 56 → va.toNat % 64 ≠ 0 → ∃ info, exec (.tmld d a i) s = traps ⟨0x04, info, some va⟩ s) ∧
    ∀ pas ps s1, Reaches s va 64 .read .plain .copy pas ps s1 → va.toNat % 64 = 0 →
      let m := BitVec.ofNat 512 (readValue s1 (some x.acqAt) ps)
      (mapOk m (x.ctl.fgmask.getLsbD (d.toNat % 16)) = true → ∃ t, exec (.tmld d a i) s = .next t ∧ GoesOn 4 s t ∧
        t.me.tm = x.tm.set (d.toNat % 16) (some m) (Nat.mod_lt _ (by decide)) ∧ t.me.g = x.g ∧ t.me.f = x.f ∧
        t.me.v = x.v ∧ t.me.q = x.q ∧ t.me.ctl = x.ctl ∧ t.mem.bytes = s.mem.bytes ∧ t.mem.full = s.mem.full) ∧
      (mapOk m (x.ctl.fgmask.getLsbD (d.toNat % 16)) = false →
        exec (.tmld d a i) s = traps ⟨0x0B, some 0, none⟩ s)

/-- R247 and R61: what each control register reads as, and what CSRWR, CSRSET and CSRCLR leave in the register they name;
every other control register stays, and g[d] receives the old value. A read of cr.mbx acquires the strips that it counts
(R299). -/
def Obligations.ControlRegisters : Prop :=
  ∀ (s : State) (d a : BitVec 5) (c : BitVec 11) (old : Word), s.plain = true → s.cur.replay = false →
    (c.toNat, old) ∈ crTable s → (crSv c.toNat → s.me.ctl.priv = 1) →
    let x := s.me.getG a
    let kept (t : State) : Prop := GoesOn 4 s t ∧ SameRegs (s.me.setG d old) t.me ∧ t.mem = s.mem ∧
      (∀ k w, k ≠ c.toNat → ((k, w) ∈ crTable s ↔ (k, w) ∈ crTable t)) ∧
      ∀ e k, e ≠ s.cur.core ∨ k ≠ s.cur.ctx → t.ctxAt e k = s.ctxAt e k
    (∃ t, exec (.csrrd d c) s = .next t ∧ kept t ∧ (c.toNat, old) ∈ crTable t ∧
      (0x01C ≤ c.toNat → c.toNat ≤ 0x01F → s.me.mbxAt ≤ t.me.acqAt)) ∧
    (¬crFixed c.toNat → c ≠ 7 → ∀ i v, (i = .csrwr d a c ∧ v = x) ∨ (i = .csrset d a c ∧ v = old ||| x) ∨
        (i = .csrclr d a c ∧ v = old &&& ~~~x) →
      ∃ t, exec i s = .next t ∧ kept t ∧ (c.toNat, crWritten c.toNat old v) ∈ crTable t) ∧
    (c = 7 →
      (∀ i, i = .csrwr d a c ∨ i = .csrset d a c → ∃ t, exec i s = .next t ∧ kept t ∧ (7, old &&& ~~~x) ∈ crTable t) ∧
      ∃ t, exec (.csrclr d a c) s = .next t ∧ kept t ∧ (7, old) ∈ crTable t)
/-- R59: a control-register instruction that names an unlisted register, or writes a register that is RO in every field,
is illegal; one that names a register marked SV at user privilege takes the privilege trap. -/
def Obligations.ControlRegisterTraps : Prop :=
  ∀ (s : State) (d a : BitVec 5) (c : BitVec 11),
    let listed := ∃ w, (c.toNat, w) ∈ crTable s
    (∀ i, i = .csrrd d c ∨ i = .csrwr d a c ∨ i = .csrset d a c ∨ i = .csrclr d a c →
      ¬listed ∨ (crFixed c.toNat ∧ i ≠ .csrrd d c) → exec i s = traps (illegalOf i) s) ∧
    (∀ i, i = .csrrd d c ∨ (¬crFixed c.toNat ∧ (i = .csrwr d a c ∨ i = .csrset d a c ∨ i = .csrclr d a c)) →
      listed → crSv c.toNat → s.me.ctl.priv = 0 → exec i s = traps ⟨0x02, none, none⟩ s)
/-- R250, R251, R252 and R253: TLBINV drops the core's own translations, TLBSD and PARTSET hand their blocks over with
their completion words, SUPRD takes the head entry of the supervisor queue; all are privileged. That TLBSD reads its
block at issue before its completion word, and that a misaligned VBASE makes a bad block whatever NPAGES is, are the model's choices
(log 21). -/
def Obligations.SystemOperations : Prop :=
  ∀ (s : State) (d a : BitVec 5), s.plain = true → s.cur.replay = false →
    let x := s.me
    let va := x.getG a
    let p := s.partOf s.cur.core
    let q := s.part p
    (x.ctl.priv = 0 → exec (.tlbinv a) s = traps ⟨0x02, none, none⟩ s ∧ exec (.tlbsd d a) s = traps ⟨0x02, none, none⟩ s ∧
      exec (.suprd d a) s = traps ⟨0x02, none, none⟩ s) ∧
    (x.ctl.priv = 0 ∨ p ≠ 0 → exec (.partset d a) s = traps ⟨0x02, none, none⟩ s) ∧
    (x.ctl.priv = 1 →
      (∃ t, exec (.tlbinv a) s = .next t ∧ Leaves 4 s t x ∧
        t.tlb = s.tlb.filter fun e => ¬((e.home = .instr s.cur.core ∨ e.home = .data s.cur.core) ∧ (a = 0 ∨ e.base = va.toNat / reach e.lvl.toNat))) ∧
      (∀ pas ps s1, Reaches s va 64 .read .plain .copy pas ps s1 → va.toNat % 64 = 0 →
        let n := readValue s1 (some x.acqAt) ps
        let w (i : Nat) : Word := recordWord n i
        let psz := (w 2).extractLsb' 0 8
        let far := (w 2).extractLsb' 8 8
        let s2 := plainRead none pas ps s1
        let fenced := s2.setMe { s2.me with fenceUpTo := x.serial, relScope := widest (some 4) x.relScope }
        let ok := (w 2) >>> 16 = 0 ∧ w 4 = 0 ∧ w 5 = 0 ∧ w 6 = 0 ∧ w 7 = 0 ∧ psz.toNat ≤ 2 ∧ far.toNat ≤ 1 ∧
          (w 0).toNat % (if psz = 0 then 2 ^ 14 else if psz = 1 then 2 ^ 21 else 2 ^ 30) = 0
        (WordReaches fenced d → ∃ t i word blk, exec (.tlbsd d a) s = .next t ∧ HandedOver s t ∧ WordTaken s t d word ∧
          IssuedBy s i ∧ t.shoots = s.shoots ++ [⟨i, word, blk⟩] ∧ t.me.fenceUpTo = x.serial ∧
          (∃ r, t.me.relScope = some r ∧ 4 ≤ r) ∧
          (ok → blk = some (w 0, w 1, psz, far, w 3)) ∧ (¬ok → blk = none)) ∧
        (p = 0 → WordReaches s2 d → ∃ t i word, exec (.partset d a) s = .next t ∧ HandedOver s t ∧
          WordTaken s t d word ∧ IssuedBy s i ∧ t.partops = s.partops ++ [⟨i, word, BitVec.ofNat 512 n⟩])) ∧
      (va.toNat < 2 ^ 56 → va.toNat % 64 = 0 → q.supq = [] → ∃ t, exec (.suprd d a) s = .next t ∧
        Leaves 4 s t (x.setG d (BitVec.ofNat 64 (min q.drops 65535) <<< 32)) ∧ (t.part p).drops = 0 ∧
        (t.part p).supq = []) ∧
      (∀ pas ps s1 e rest, Reaches s va 64 .write .plain .token pas ps s1 → va.toNat % 64 = 0 → q.supq = e :: rest →
        x.stores = [] → ∃ t, exec (.suprd d a) s = .next t ∧ GoesOn 4 s t ∧
          SameRegs (x.setG d (0x8000000000000000 ||| BitVec.ofNat 64 (min q.drops 65535) <<< 32 |||
            BitVec.ofNat 64 (rest.length % 65536) <<< 16 ||| e.reason.setWidth 64)) t.me ∧ t.me.ctl = x.ctl ∧
          (t.part p).supq = rest ∧ (t.part p).drops = 0 ∧
          Written s t ps 64 (fromBytes ((e.msg.src :: e.msg.desc :: e.msg.pay.toList).flatMap fun w => toBytes w.toNat 8))))

/-- R193, R197, R199, R201, R202 and R203: each Anvil command is checked and queued, with the bytes its slots must hold. -/
def Obligations.AnvilCommands : Prop :=
  ∀ (s : State) (a b : BitVec 4) (f d : BitVec 5) (g t h n : BitVec 1) (k : BitVec 3) (y : BitVec 2), s.plain = true →
    let two (x z : Option Nat) := [(a, x), (b, z)]
    let kib (m : Nat) := some (m * 1024)
    let fine : Bool := decide (g = 1)
    let scaled (i : Instr) (p q : Elem) (x z : Option Nat) : Prop := Queues i s (.mma p q true fine) t (two x z) (some f) true fine
    let plain (i : Instr) (o : AnvilOp) (x z : Nat) : Prop := Queues i s o t (two (kib x) (kib z)) none false false
    scaled (.mmaE4m3E4m3 a b f g t) .e4m3 .e4m3 (kib 16) (kib 16) ∧
    scaled (.mmaE4m3E5m2 a b f g t) .e4m3 .e5m2 (kib 16) (kib 16) ∧
    scaled (.mmaE5m2E4m3 a b f g t) .e5m2 .e4m3 (kib 16) (kib 16) ∧
    scaled (.mmaE5m2E5m2 a b f g t) .e5m2 .e5m2 (kib 16) (kib 16) ∧
    scaled (.mmaE2m1E2m1 a b f g t) .e2m1 .e2m1 (kib 16) (kib 16) ∧
    scaled (.mmaE2m1E4m3 a b f g t) .e2m1 .e4m3 (kib 8) (kib 16) ∧
    scaled (.mmaEc8Ec8 a b f g t) .ec8 .ec8 none none ∧ scaled (.mmaEc8E4m3 a b f g t) .ec8 .e4m3 none (kib 16) ∧
    plain (.mmaBf16Bf16 a b t) (.mma .bf16 .bf16 false false) 8 8 ∧
    plain (.mmaF16F16 a b t) (.mma .f16 .f16 false false) 8 8 ∧ plain (.mmaS8S8 a b t) (.mma .s8 .s8 false false) 16 16 ∧
    plain (.mmaS4S8 a b t) (.mma .s4 .s8 false false) 8 16 ∧ plain (.mmaBf16S4 a b t) (.mma .bf16 .s4 false false) 8 2 ∧
    Queues (.mmapE4m3 a b f t) s (.mmap .e4m3) t (two (kib 32) (kib 48)) (some f) true false ∧
    plain (.mmapBf16 a b t) (.mmap .bf16) 16 16 ∧ plain (.distL1Bf16 a b t) (.dist false .bf16) 8 8 ∧
    plain (.distL1E4m3 a b t) (.dist false .e4m3) 16 16 ∧ plain (.distL1S8 a b t) (.dist false .s8) 16 16 ∧
    plain (.distL2Bf16 a b t) (.dist true .bf16) 8 8 ∧ plain (.distL2E4m3 a b t) (.dist true .e4m3) 16 16 ∧
    plain (.distL2S8 a b t) (.dist true .s8) 16 16 ∧
    Queues (.adrain h k n t) s (.adrain (k.toNat + 1) (h = 1) (n = 1)) t [] none false false ∧
    (y ≠ 3 → Queues (.cupd d a y t) s
      (.cupd (if y = 0 then .bf16 else if y = 1 then .e4m3 else .s8) d.toNat) t [(a, if y = 0 then kib 8 else kib 16)] none
      false false)
/-- R204 to R206: the accumulator instructions trap on an owned tile, and else clear, store, load or scale it. ACCRD reads the tile
and translates its pages at its first step, its 1,024 stores enter the store buffer as it has room, and it keeps those entered (log 9);
a poisoned tile traps (log 19). ASYNC waits for the owners and gives the next sequence number. -/
def Obligations.AccumulatorInstructions : Prop :=
  ∀ (s : State) (d f : BitVec 5) (l t c : BitVec 1), s.plain = true → s.cur.replay = false →
    let x := s.me
    let va := x.getG d
    let free := tileOwner s t = none
    let other (u : State) : Prop := ∀ w, tileWord u (t + 1) w = tileWord s (t + 1) w
    (∀ o i, tileOwner s t = some o → i = .accz t ∨ (i = .accrd d t ∧ x.accrd = none) ∨ i = .accwr d t ∨ i = .accsc f c t →
      exec i s = traps ⟨0x05, some (BitVec.ofNat 56 (o.seq.toNat * 65536 + t.toNat * 256)), none⟩ s) ∧
    (free → ∃ u, exec (.accz t) s = .next u ∧ Leaves 4 s u x ∧ other u ∧ ∀ w, tileWord u t w = 0) ∧
    (free → x.accrd = none → va.toNat < 2 ^ 56 → va.toNat % 256 ≠ 0 → ∀ i, i = .accrd d t ∨ i = .accwr d t →
      ∃ info, exec i s = traps ⟨0x04, info, some va⟩ s) ∧
    (let tile := s.here.acc.get ⟨t.toNat, t.isLt⟩
     let poison := s.here.accPoison.get ⟨t.toNat, t.isLt⟩
     free → x.accrd = none → va.toNat < 2 ^ 56 → va.toNat % 256 = 0 →
      (poison ≠ [] → exec (.accrd d t) s = traps ⟨0x12, some 6, none⟩ s) ∧
      ∀ pa pa2 ps s1 s2, poison = [] →
        translateSpan s (.data s.cur.core) x.ctl.ptroot va 16384 .write x.ctl.priv = .ok (pa, pa2, s1) →
        Names s va 16384 .write .plain (spanPas va.toNat 16384 pa pa2) ps s2 → TileEnters (.accrd d t) s ⟨va, pa, pa2, tile, 0⟩) ∧
    (∀ r, x.accrd = some r → TileEnters (.accrd d t) s r) ∧
    (∀ r, x.accrd = some r → 1024 - r.done ≤ 16 - (x.stores.filter fun st => !st.isSpill).length → r.done ≤ 1024 →
      ∃ u, exec (.accrd d t) s = .next u ∧ GoesOn 4 s u ∧ SameRegs x u.me ∧ u.me.accrd = none) ∧
    (∀ pas ps s1, free → va.toNat % 256 = 0 → Reaches s va 16384 .read .plain .copy pas ps s1 →
      ∃ u, exec (.accwr d t) s = .next u ∧ GoesOn 4 s u ∧ SameRegs x u.me ∧ u.me.ctl = x.ctl ∧
        u.mem.bytes = s.mem.bytes ∧ u.mem.full = s.mem.full ∧ other u ∧
        ∀ w < 4096, tileWord u t w = BitVec.ofNat 32 (readValue s1 (some x.acqAt) ps / 2 ^ (32 * w))) ∧
    (free →
      let sc := f32.decode ((x.getF f).setWidth 32 : BitVec 32).toNat
      let elem (w : Nat) : Nat × FFlags :=
        let e := if c = 1 then intNum (tileWord s t w).toInt else f32.decode (tileWord s t w).toNat
        (f32.nanOf [e, sc]).getD (if e.badMul sc then f32.invalid else f32.ofNum .rne (e.mul sc))
      ∃ u fl, exec (.accsc f c t) s = .next u ∧ Leaves 4 s u (x.flagged fl) ∧ other u ∧
        (∀ w < 4096, tileWord u t w = BitVec.ofNat 32 (elem w).1) ∧
        ∀ b, fl.getLsbD b = true ↔ ∃ w < 4096, (elem w).2.getLsbD b = true) ∧
    (let busy := if l = 1 then tileOwner s 0 ≠ none ∨ tileOwner s 1 ≠ none else tileOwner s t ≠ none
     (¬busy → exec (.async d l t) s = writesG 4 s d (s.here.cmdSeq.setWidth 64)) ∧
     (busy → exec (.async d l t) s = .next (s.waiting .interlock)))
/-- R190, R191 and R299: RINGCFG sets, resets, pushes to and queries a ring of the core's forge; a query acquires the slot frees that it
counts. -/
def Obligations.RingInstructions : Prop :=
  ∀ (s : State) (d : BitVec 5) (r : BitVec 3), s.plain = true →
    let x := s.me
    let w := x.getG d
    let fid := forgeOf s.cur.core
    let ring := ringOf s r.toNat
    let tm := x.getTm (w.extractLsb' 27 4)
    let kibs := slotCount w * slotKib w
    let bad := w.extractLsb' 32 32 ≠ 0 ∨ w.extractLsb' 22 5 ≠ 0 ∨ 1024 < slotBase w + kibs ∨
      (∃ k, slotBase w ≤ k ∧ k < slotBase w + kibs ∧
        ((s.forge fid).role.extractLsb' (2 * (k / 32)) 2) ≠ 2) ∨ (w.getLsbD 31 = true ∧ tm = none)
    let changes (u : State) (y : Ring) : Prop := ringOf u r.toNat = y ∧ (∀ k < 8, k ≠ r.toNat → ringOf u k = ringOf s k) ∧
      (∀ g, g ≠ fid → u.forge g = s.forge g) ∧ (u.forge fid).role = (s.forge fid).role
    (bad → exec (.ringcfgSet d r) s = traps ⟨0x0B, some 3, none⟩ s) ∧
    (¬bad → s.ringBusy fid r = true → exec (.ringcfgSet d r) s = .next (s.waiting .interlock)) ∧
    (¬bad → s.ringBusy fid r = false → ∃ u geom, exec (.ringcfgSet d r) s = .next u ∧ Leaves 4 s u x ∧
      changes u { conf := some w, geom := geom, head := 0, rd := 0, tail := 0 } ∧
      (w.getLsbD 31 = false → geom = 0) ∧ ∀ m, w.getLsbD 31 = true → tm = some m → geom = m.extractLsb' 120 2) ∧
    (s.ringBusy fid r = true → exec (.ringcfgReset r) s = .next (s.waiting .interlock)) ∧
    (s.ringBusy fid r = false → ∃ u, exec (.ringcfgReset r) s = .next u ∧ Leaves 4 s u x ∧ changes u {}) ∧
    (ring.conf = none → exec (.ringcfgPush d r) s = traps ⟨0x0B, some 5, none⟩ s ∧
      exec (.ringcfgQuery d r) s = traps ⟨0x0B, some 5, none⟩ s) ∧
    ∀ c, ring.conf = some c →
      let free := slotCount c + ring.head - ring.tail
      (free < w.toNat → exec (.ringcfgPush d r) s = traps ⟨0x0B, some 4, none⟩ s) ∧
      (w.toNat ≤ free → ∃ u, exec (.ringcfgPush d r) s = .next u ∧ Leaves 4 s u { x with pushUpTo := x.serial } ∧
        changes u { ring with tail := ring.tail + w.toNat }) ∧
      ∃ u, exec (.ringcfgQuery d r) s = .next u ∧ u.forges = s.forges ∧
        Leaves 4 s u (({ x with acqAt := max x.acqAt ring.freedAt } : Ctx).setG d
          (BitVec.ofNat 64 (free * 256 + (ring.tail - ring.rd))))
/-- R212, R222 and R226: a transfer is checked at issue, takes the context's next id and enters its queue; CPYCAN looks
one up. `kindOk` and `counterBad` are the checks of the commands' own rules. -/
def Obligations.TransferIssue : Prop :=
  ∀ (s : State) (d a b : BitVec 5), s.plain = true →
    let x := s.me
    let blk := x.getG a
    let w := x.getG b
    let id : BitVec 16 := (s.cur.ctx ++ x.xfer : BitVec 16)
    let after := { x with xfer := if x.xfer = 16383 then 1 else x.xfer + 1 }
    let room := (s.openXfers s.issuer).length < 16
    let enters (i : Instr) (k : XferKind) (mw : Word) (sm dm : BitVec 512) : Prop :=
      ∃ t y, exec i s = .next t ∧ Leaves 4 s t (after.setG d (id.setWidth 64)) ∧ y ∈ t.xfers ∧ y.id = id ∧ y.kind = k ∧
        y.block = blk ∧ y.mapw = mw.setWidth 32 ∧ y.sm = sm ∧ y.dm = dm ∧ y.ovn = x.ctl.frm.getLsbD 3 ∧ y.st = .queued ∧
        y.started = false ∧ IssuedBy s y.iss
    (∀ (i : Instr) (k : XferKind) (dmUsed : Bool),
      (i = .cpy d a b ∧ k = .cpy ∧ dmUsed = true) ∨ (i = .cpykv d a b ∧ k = .cpykv ∧ dmUsed = false) ∨
      (i = .kvapp d a b ∧ k = .kvapp ∧ dmUsed = true) ∨ (i = .get d a b ∧ k = .get ∧ dmUsed = true) ∨
      (i = .put d a b ∧ k = .put ∧ dmUsed = true) ∨ (i = .halo d a b ∧ k = .halo ∧ dmUsed = false) →
      (blk.toNat % 64 ≠ 0 → exec i s = traps ⟨0x04, none, some blk⟩ s) ∧
      (blk.toNat % 64 = 0 →
        x.getTm (w.extractLsb' 0 4) = none ∨ (dmUsed = true ∧ x.getTm (w.extractLsb' 4 4) = none) →
        exec i s = traps ⟨0x08, none, none⟩ s) ∧
      ∀ sm dm, blk.toNat % 64 = 0 → x.getTm (w.extractLsb' 0 4) = some sm →
        (if dmUsed then x.getTm (w.extractLsb' 4 4) = some dm else dm = 0) →
        let ok := w.extractLsb' 32 32 = 0 ∧ w.extractLsb' 18 2 = 0 ∧ w.extractLsb' 12 4 = 0 ∧
          kindOk s k w sm dm = true ∧ counterBad s k blk = false
        (¬ok → exec i s = traps ⟨0x0B, some 7, none⟩ s) ∧ (ok → room → enters i k w sm dm) ∧
        (ok → ¬room → exec i s = .next (s.waiting .transferQueue))) ∧
    (blk.toNat % 64 ≠ 0 → exec (.rowop d a) s = traps ⟨0x04, none, some blk⟩ s) ∧
    (blk.toNat % 64 = 0 → room → enters (.rowop d a) .rowop 0 0 0) ∧
    (blk.toNat % 64 = 0 → ¬room → exec (.rowop d a) s = .next (s.waiting .transferQueue)) ∧
    (let mine (y : Xfer) : Bool := y.id = blk.setWidth 16 && s.sameQueue y.iss s.issuer
     let may (y : Xfer) : Bool := mine y && y.st ≠ .complete && !(y.kind = .kvapp && y.started)
     (s.xfers.any mine = false → exec (.cpycan d a) s = writesG 4 s d 2) ∧
     (s.xfers.any mine = true → s.xfers.any may = false → exec (.cpycan d a) s = writesG 4 s d 1) ∧
     (s.xfers.any may = true →
       ∃ t, exec (.cpycan d a) s = .next t ∧ Leaves 4 s t (x.setG d 0) ∧
         t.xfers = s.xfers.map fun z => if may z then { z with st := .cancelled } else z))
/-- R223, R224, R225 and R227: WAYGIVE and WAYTAKE begin and end a grant, each BSOP is checked and queued, and FLUSHR and
INVR hand their range over. -/
def Obligations.WaysAndRanges : Prop :=
  ∀ (s : State) (d a b n : BitVec 5) (m : BitVec 1), s.plain = true → s.cur.replay = false →
    let x := s.me
    let r := x.getG a
    let ways := (r.extractLsb' 0 4).toNat
    let bad := r.extractLsb' 6 26 ≠ 0 ∨ ways = 0 ∨ ways = 15 ∨ r.extractLsb' 32 32 = 0 ∨ x.grant ≠ none
    let die := (r.extractLsb' 4 2).toNat
    let same (t : State) : Prop := GoesOn 4 s t ∧ SameRegs x t.me ∧ t.me.ctl = x.ctl ∧ t.mem = s.mem
    let sg := decide (m = 1)
    let three (w d' a' b' _c : Nat) := [(d', w), (a', w), (b', w)]
    let compare (w d' a' b' _c : Nat) := [(d', 1), (a', w), (b', w)]
    (bad → exec (.waygive d a) s = traps (illegalOf (.waygive d a)) s) ∧
    (¬bad → WordReaches s d → ∃ t g, exec (.waygive d a) s = .next t ∧ same t ∧ t.me.grant = some g ∧ g.ways = ways ∧
      WordTaken s t d g.word ∧ IssuedBy s g.iss ∧ g.done = false ∧ g.failed = false ∧ g.taking = [] ∧
      g.slices = ((List.range 32).filter fun k => r.getLsbD (32 + k)).map fun k =>
        BitVec.ofNat 7 (64 * (die / 2) + 16 * (k / 8) + 8 * (die % 2) + k % 8)) ∧
    (x.grant = none → exec (.waytake d) s = traps (illegalOf (.waytake d)) s) ∧
    (∀ g, x.grant = some g → WordReaches s d → ∃ t word j, exec (.waytake d) s = .next t ∧ same t ∧ WordTaken s t d word ∧
      IssuedBy s j ∧ t.me.grant = some { g with taking := g.taking ++ [(word, j)] }) ∧
    (∀ i inval, (i = .flushr d a b ∧ inval = false) ∨ (i = .invr d a b ∧ inval = true) → WordReaches s d →
      ∃ t j word, exec i s = .next t ∧ same t ∧ WordTaken s t d word ∧ IssuedBy s j ∧
        t.ranges = s.ranges ++ [⟨j, inval, r, x.getG b, word⟩]) ∧
    BsopIssues (.bsopAdd a b n m) s 0 a b n sg three ∧ BsopIssues (.bsopSub a b n m) s 1 a b n sg three ∧
    BsopIssues (.bsopAnd a b n) s 2 a b n false three ∧ BsopIssues (.bsopOr a b n) s 3 a b n false three ∧
    BsopIssues (.bsopXor a b n) s 4 a b n false three ∧
    BsopIssues (.bsopNot a b n) s 5 a b n false (fun w d' a' _ _ => [(d', w), (a', w)]) ∧
    BsopIssues (.bsopCmpeq a b n m) s 6 a b n sg compare ∧ BsopIssues (.bsopCmplt a b n m) s 7 a b n sg compare ∧
    BsopIssues (.bsopCmple a b n m) s 8 a b n sg compare ∧
    BsopIssues (.bsopSel a b n m) s 9 a b n sg (fun w d' a' b' c' => [(d', w), (a', w), (b', w), (c', 1)]) ∧
    BsopIssues (.bsopShr a b n m) s 10 a b n sg (fun w d' a' _ c' => [(d', w), (a', w), (c', 8)]) ∧
    BsopIssues (.bsopPopc a b n m) s 11 a b n sg (fun w d' a' _ _ => [(d', 16), (a', w)]) ∧
    BsopIssues (.bsopMin a b n m) s 12 a b n sg three ∧ BsopIssues (.bsopMax a b n m) s 13 a b n sg three ∧
    BsopIssues (.bsopMul a b n m) s 14 a b n sg three
/-- R229 to R233 and R239, R242, R244: each heap instruction hands its operands to the engines, with a completion word or
with registers owed; blocks and buffers must be 64-byte aligned. That EGMATCH and EGRANK trap at issue on a block which is not is the
model's choice (log 22). -/
def Obligations.HeapIssue : Prop :=
  ∀ (s : State) (d a b : BitVec 5) (h : BitVec 2), s.plain = true → s.cur.replay = false →
    let x := s.me
    let p := x.getG a
    let q := x.getG b
    let one := if d = 0 then [] else [d]
    (p.toNat % 64 = 0 → IssuesWord (.egcfg d a h) s h d (.cfg p) ∧ IssuesWord (.egmatch d a b h) s h d (.matchp p q) ∧
      IssuesWord (.egrank d a h) s h d (.rank p)) ∧
    (p.toNat % 64 ≠ 0 → ∀ i, i = .egcfg d a h ∨ i = .egmatch d a b h ∨ i = .egrank d a h →
      exec i s = traps ⟨0x04, none, some p⟩ s) ∧
    IssuesWord (.egmrg d a b h) s h d (.mrg p q) ∧
    IssuesOwed (.egins d a b h) s h one (.ins p q (x.getG (b + 1))) ∧ IssuesOwed (.egfind d a h) s h one (.find p) ∧
    IssuesOwed (.egnode d a h) s h [d, d + 1, d + 2] (.node p) ∧ IssuesOwed (.egstat d a h) s h one (.stat p) ∧
    (q.toNat % 64 = 0 → IssuesOwed (.egenum d a b h) s h one (.enum p q)) ∧
    (q.toNat % 64 ≠ 0 → exec (.egenum d a b h) s = traps ⟨0x04, none, some q⟩ s)

/-- R71 to R85: the spec's own examples of encodings. -/
def Obligations.DecodeWords : Prop :=
  decodeWord 0x0234 = some (.addCr 3 4) ∧ decodeWord 0x217D = some (.addiCi 5 0b111101) ∧
  decodeWord 0x4342 = some (.ldDCm 3 4 2) ∧ decodeWord 0x630A = some (.beqCb 6 10) ∧
  decodeWord 0x9F9C = some (.jCj 0x1F9C) ∧ decodeWord 0xA000 = some .endCt ∧ decodeWord 0xA150 = some (.doneCt 5) ∧
  decodeWord 0x00A4E00C = some (.add 3 4 5 0) ∧ decodeWord 0xFF62E09C = some (.addi 7 2 0x7FB 0) ∧
  decodeWord 0xA884E816 = some (.ld 5 4 1 2 4 2) ∧ decodeWord 0x6C24E81B = some (.ldRegion 6 4 3 1 3) ∧
  decodeWord 0x0149E48C = some (.bne 3 9 40) ∧ decodeWord 0xFFC0E77C = some (.jal 31 0x3FF00) ∧
  decodeWord 0x0220FF10 = some (.csrrd 4 0x011) ∧ decodeWord 0x0498F601 = some (.mmaE4m3E4m3 8 9 4 0 1) ∧
  decodeWord 0x7C41EC0D = some (.fdiv 3 1 2 7 1) ∧ decodeWord 0x02A6EE14 = some (.fcvt 5 6 0 1 5) ∧
  decodeWord 0x0043F048 = some (.vadd 2 3 4 0 4) ∧ decodeWord 0x7128EA1D = some (.aadd 7 8 9 3 4 1)
/-- R71, R76, R88: for every well-formed instruction, its word decodes to it. -/
def Obligations.RoundTrip : Prop := ∀ i : Instr, WellFormed i = true → decodeWord (encode i) = some i
/-- R88: every word the decoder accepts is the word of the instruction it reads, and that instruction is well formed: no
bit of an accepted word is ignored. -/
def Obligations.DecodeOnlyEncoded : Prop :=
  ∀ (w : Nat) (i : Instr), decodeWord w = some i →
    WellFormed i = true ∧ encode i = if w / 2 ^ 13 % 8 = 7 then w % 2 ^ 32 else w % 2 ^ 16
/-- R69, R88, R182, R183: where an issuing context fetches a word that decodes, step is exec of the instruction at the
state after the fetch; a reserved word takes the illegal-instruction trap; while recording, a recordable instruction is
recorded and nothing else; a replay performs the word its pass gives; and a fetch reads two bytes at a time at the pc. -/
def Obligations.StepRunsDecoded : Prop :=
  ∀ (s : State) (c : CoreId) (k : CtxId) (s0 : State),
    (Issues s c k s0 →
      let s' := { s0 with cur := ⟨c, k, false⟩ }
      (∀ h s1, HalfReady s' s'.me.pc h s1 →
        (h / 2 ^ 13 ≠ 7 → fetchWord s' = .inr (h, false, s1.dropAnswers true)) ∧
        ∀ h2 s2, h / 2 ^ 13 = 7 → HalfReady s1 (s1.me.pc + 2) h2 s2 →
          fetchWord s' = .inr (h + 2 ^ 16 * h2, true, s2.dropAnswers true)) ∧
      ∀ w long s1, fetchWord s' = .inr (w, long, s1) →
        (∀ i, decodeWord w = some i → s1.me.rep.recording = false → step s = exec i s1) ∧
        (decodeWord w = none → s1.me.rep.recording = false → step s = traps ⟨0x01, some (BitVec.ofNat 56 (w % 2 ^ 32)), none⟩ s1) ∧
        (decodeWord w = some .repe → step s = exec .repe s1) ∧
        ∀ i, decodeWord w = some i → i ≠ .repe → s1.me.rep.recording = true →
          let ok := (if long then recordable32 w else recordable16 w) = true ∧ s1.me.rep.buf.length < 32
          (ok → step s = .next (retire (.fall (if long then 4 else 2)) (s1.setMe { s1.me with
            rep := { s1.me.rep with buf := s1.me.rep.buf ++ [(s1.me.pc, BitVec.ofNat 32 w, long)] } }))) ∧
          (¬ok → step s = traps ⟨0x01, some (BitVec.ofNat 56 (w % 2 ^ 32)), none⟩ (s1.setMe { s1.me with rep := {} }))) ∧
    (nextMove s = (.issue c, s0) → issuingCtx s0 c = none → step s = .next s0) ∧
    (∀ w long s1 i, nextMove s = (.replay c, s0) → replayWord s0 c = some (w, long, s1) →
      (if long then decode32 w else decode16 w) = some i → step s = exec i s1) ∧
    (∀ e, nextMove s = (.event e, s0) → e.isEvent = true → s.agenda ≠ [] ∨ fromOutside s (.event e) = true →
      step s = exec e s0) ∧
    (∀ off v by_, nextMove s = (.write off v by_, s0) → s.agenda ≠ [] → step s = exec (deviceEvent off v by_) s0) ∧
    ∀ die code, nextMove s = (.diectl die code, s0) → s.agenda ≠ [] → step s = exec (diectlEvent die code) s0
/-- Memory keeps its canonical form: addresses strictly rising, no byte listed that an unlisted address reads as. -/
def Obligations.StepKeepsMemoryForm : Prop := ∀ s t : State, s.mem.wf = true → step s = .next t → t.mem.wf = true
/-- Memory has its canonical form at reset. -/
def Obligations.ResetMemoryForm : Prop := State.reset.mem.wf = true
/-- R61, R146, R189, R193, R195, R259, R278, R344, R368, R378, R384, R398, R400 and R406: what reset leaves. That every context is
FREE and every inbox and deque empty is the model's choice (log 1), and so is that every byte reads 0 and every word is empty, host
memory included (log 6). -/
def Obligations.ResetValues : Prop :=
  let s := State.reset
  (∀ c k, let x := s.ctxAt c k
    x.status = .free ∧ x.ctl.cause = 0 ∧ x.ctl.faddr = 0 ∧ x.ctl.syncst = 0 ∧ x.ctl.parkt = 256 ∧ x.ctl.sqdepth = 16 ∧
    x.ctl.fflags = 0 ∧ x.ctl.frm = 0 ∧ x.ctl.rseed = 0x2545F491 ∧ x.ctl.spx = 0 ∧ x.ctl.athr = 0 ∧ x.ctl.adrop = 0 ∧
    x.ctl.adcnt = 0 ∧ x.ctl.win = Vector.replicate 4 4 ∧ x.ctl.mbx = Vector.replicate 4 0 ∧
    x.ctl.rgn = Vector.replicate 16 0 ∧ x.ctl.hkey = 0 ∧ x.ctl.epc = 0 ∧ x.ctl.estat = 0 ∧ x.ctl.fgmask = 0 ∧
    x.ctl.ptroot = 0 ∧ x.ctl.xid = 0 ∧ s.cyc x.ctl = 0) ∧
  (∀ c, let x := s.core c
    (∀ k, (x.cls k).state = .unbound) ∧ x.cmdSeq = 0 ∧ x.awt = 1 ∧ x.inbox = [] ∧ x.deque = []) ∧
  (∀ f, (s.forge f).role = 0 ∧ ∀ r : Fin 8, ((s.forge f).rings.get r).conf = none) ∧
  (∀ k, s.mem.byte k = 0) ∧ (∀ d, s.mem.isFull d = false) ∧
  (∀ q, s.queue q = { lqbase := 0, lqctl := 0, lqtail := 0, lqhead := 0, cqbase := 0, cqctl := 0, cqtail := 0, cqhead := 0 }) ∧
  (∀ c, s.partOf c = 0) ∧
  (∀ d, (s.die d).fzreq = 0 ∧ (s.die d).fzacc = 0 ∧ (s.die d).fzdone = 0 ∧ (s.die d).pwrlim = 950) ∧
  s.istate = 1 ∧ s.island.orphcnt = 0 ∧ s.island.devevt = 0 ∧ s.island.trigen = 0x1F ∧ s.island.frozen = false ∧ s.island.fwin = Vector.replicate 16 (0, 0) ∧
  s.island.pkgValid = false
/-- R55, R112, R178 and R179: g0 reads 0 and discards writes; a register owed a result is waited for; a register bound to
q0 to q3 pops and pushes, and waits where the queue is empty or full; one bound to q4 to q7 pops the core's neighbour
queue, returns a credit, and cannot be written. The register then holds the entry popped: the model's choice (log 11). ADD stands
for every instruction that names g registers. -/
def Obligations.RegisterZeroAndQueues : Prop :=
  (∀ (x : Ctx) (w : Word) (d : BitVec 5), x.getG 0 = 0 ∧ x.setG 0 w = x ∧
    (d ≠ 0 → (x.setG d w).getG d = w ∧ ∀ e, e ≠ d → (x.setG d w).getG e = x.getG e)) ∧
  ∀ (s : State) (d a b : BitVec 5), s.me.replay = none → s.me.streams = [] →
    let x := s.me
    let i := Instr.add d a b 0
    (d ∈ x.owed ∨ a ∈ x.owed ∨ b ∈ x.owed → exec i s = .next (s.waiting .interlock)) ∧
    (x.owed = [] →
      (∀ q, boundG x a = some q → (b = a ∨ boundG x b = none) → boundG x d = none →
        (q.toNat < 4 →
          (∀ v t, x.getQ (q.setWidth 2) = v :: t →
            let y := (x.setQ (q.setWidth 2) t).setG a (v.setWidth 64)
            exec i s = writesG 4 (s.setMe y) d (y.getG a + y.getG b)) ∧
          (x.getQ (q.setWidth 2) = [] → ∃ u, exec i s = .next u ∧ u.me.wait = some .interlock ∧ u.me.pc = x.pc ∧
            SameRegs x u.me)) ∧
        (4 ≤ q.toNat →
          (∀ v t, s.here.getNq (q.setWidth 2) = v :: t → ∃ u, exec i s = .next u ∧ u.cur = s.cur ∧
            u.here.getNq (q.setWidth 2) = t ∧ u.credits = s.credits ++ [(v.core, v.ctx, v.dir)] ∧
            let y := x.setG a (v.val.setWidth 64)
            u.me.g = (y.setG d (y.getG a + y.getG b)).g) ∧
          (s.here.getNq (q.setWidth 2) = [] → ∃ u, exec i s = .next u ∧ u.me.wait = some (.queueEmpty (q.setWidth 2)) ∧
            u.me.pc = x.pc ∧ SameRegs x u.me))) ∧
      (∀ q, boundG x d = some q → boundG x a = none → boundG x b = none →
        (q.toNat < 4 → (x.getQ (q.setWidth 2)).length < 8 → exec i s = .next (retire (.fall 4) (s.setMe
          (x.setQ (q.setWidth 2) (x.getQ (q.setWidth 2) ++ [(x.getG a + x.getG b).setWidth 128]))))) ∧
        (q.toNat < 4 → 8 ≤ (x.getQ (q.setWidth 2)).length → ∃ u, exec i s = .next u ∧ u.me.wait = some .interlock ∧
          SameRegs x u.me) ∧
        (4 ≤ q.toNat → exec i s = traps (illegalOf i) s)))

/-- R146, R157, R160, R161, R163, R283, R285, R286, R289, R292, R302, R375, R376, R395 and R403: what each event of the memory
system does when it is enabled, and that what a fenced die emits is dropped. -/
def Obligations.MemoryEvents : Prop :=
  ∀ (s : State) (core : CoreId) (ctx : CtxId) (k : Nat),
    let x := s.ctxAt core ctx
    let up := s.dieUp (dieOf core).toNat
    (∀ st, x.stores[k]? = some st → up = false → ∃ t, exec (.storePerform core ctx k) s = .next t ∧ t.mem = s.mem ∧
      t.ctxAt core ctx = { x with stores := dropAt x.stores k }) ∧
    (∀ op, x.nms[k]? = some op → up = false → ∀ hot, ∃ t, exec (.nmPerform core ctx k hot) s = .next t ∧ t.mem = s.mem ∧
      t.ctxAt core ctx = { x with nms := dropAt x.nms k }) ∧
    (∀ st m c root h u, x.stores[k]? = some st → st.kind = .spill m c root → up = true → s.storeReady x st = true →
      SpillHead.At h (spillFrom s core ctx k st root) st.va u → h.tail < h.size + h.head → ∀ sA sP u2,
      Reaches u (h.slot st.va) 64 .write .plain .token sA sP u2 →
      ∃ t, exec (.storePerform core ctx k) s = .next t ∧ (t.ctxAt core ctx).stores = dropAt x.stores k ∧
        ∀ b, t.mem.byte b = after (h.writes m sP) b (s.mem.byte b)) ∧
    (∀ st ps, x.stores[k]? = some st → up = true → st.isSpill = false → (∀ o ∈ x.stores, st.upTo ≤ o.serial) →
      (st.rel = some 5 ∨ st.rel = some 6 → s.mem.pending = []) →
      (∀ o ∈ x.stores, st.serial ≤ o.serial ∨ o.meets s ((st.places s).filterMap id) = false) →
      placesOf s st.hkey st.pas = .ok ps → HomeReady s (some core) ps → (ps.map (·.key)).Nodup →
      ∃ t, exec (.storePerform core ctx k) s = .next t ∧
        t.ctxAt core ctx = { x with stores := dropAt x.stores k, floor := (t.ctxAt core ctx).floor } ∧
        Written s t ps st.size st.val.toNat ∧
        (∀ d, t.mem.isFull d = true ↔ if st.kind ≠ .plain ∧ d ∈ ps.filterMap (fun p => p.key.map (· / 8)) then st.kind = .setFull
          else s.mem.isFull d = true) ∧
        (∀ n, linesOf ps = [n] → (t.mem.line n).owner = some (core, true)) ∧
        ∀ p ∈ ps, ∀ w, p.word = some w → ∃ n ≤ t.mem.time, Assoc.get? t.mem.tags w = st.rel.map fun r =>
          { core := core, ctx := ctx, scope := r, page := BitVec.ofNat 42 (st.va.toNat / 2 ^ 14), launch := st.launch
            time := n }) ∧
    (∀ op ps b l, x.nms[k]? = some op → up = true →
      (∀ st ∈ x.stores, op.serial ≤ st.serial ∨ ∀ pa ∈ st.pas, pa / 64 ≠ op.pa / 64) →
      op.places s = .ok ps → (∀ p ∈ ps, ∃ b l, p = .dram b l) → ps.head? = some (.dram b l) → HomeReady s none ps →
      let n := b / 64 * 2 + if l then 1 else 0
      (State.hotLine (s.tokenHome n) n = true → (∀ p ∈ ps, s.poisoned p = false) → (ps.map (·.key)).Nodup →
        ∃ t, exec (.nmPerform core ctx k true) s = .next t ∧
          t.ctxAt core ctx = { x with nms := dropAt x.nms k, nmDone := (t.ctxAt core ctx).nmDone } ∧
          Written s t ps op.kind.size (op.kind.apply (fromBytes (ps.map (readPlace s))) op.y.toNat)) ∧
      (State.hotLine (s.tokenHome n) n = false → s.atBank ((b - keyDram) / pcBytes) < 256 →
        ∃ t, exec (.nmPerform core ctx k false) s = .next t ∧ t.ctxAt core ctx = { x with nms := dropAt x.nms k } ∧
          t.bank = s.bank ++ [(core, ctx, op)] ∧ SameBytes s t ∧ (t.mem.line n).outside = false)) ∧
    (∀ op ps b l, s.bank[k]? = some (core, ctx, op) → op.places s = .ok ps → ps.head? = some (.dram b l) →
      (∀ p ∈ ps, ∃ b l, p = .dram b l) → (∀ p ∈ ps, s.poisoned p = false) → (ps.map (·.key)).Nodup →
      let n := b / 64 * 2 + if l then 1 else 0
      n ∉ s.ctlq → (∀ y ∈ s.bank.take k, y.2.2.lineOf s ≠ some n) →
      ∃ t, exec (.bankEngineAck k) s = .next t ∧ t.bank = dropAt s.bank k ∧
        Written s t ps op.kind.size (op.kind.apply (fromBytes (ps.map (readPlace s))) op.y.toNat)) ∧
    (∀ line (target : BitVec 7) h r, homeSlice line = some h → (s.mem.line line).moving.isSome = true →
      (s.mem.line line).last = some target → s.mem.resident? line = some r → s.mem.forwarded h < 8192 →
      ∃ t, exec (.lineMigrate line target) s = .next t ∧ SameBytes s t ∧
        (t.mem.line line).slice = (if target = BitVec.ofNat 7 h then none else some target) ∧
        (t.mem.line line).moving = none ∧ t.mem.resident? line = some { r with line := line, slice := target } ∧
        (t.mem.line line).owner = (s.mem.line line).owner ∧ (t.mem.line line).sharers = (s.mem.line line).sharers ∧
        ((s.mem.residents target).length < s.sliceRoom target → ∀ n, n ≠ line → t.mem.line n = s.mem.line n)) ∧
    (∀ n, s.ctlq[k]? = some n → n ∉ s.ctlq.take k → exec (.memoryRequestPerform k) s = .next { s with ctlq := dropAt s.ctlq k }) ∧
    (∀ line, (s.requests.filter fun r => r.line = line && r.marks).length < Assoc.getD s.mem.pending line 0 →
      ∃ t, exec (.remoteWriteAck line) s = .next t ∧ SameBytes s t ∧
        Assoc.getD t.mem.pending line 0 = Assoc.getD s.mem.pending line 0 - 1 ∧
        ∀ n, n ≠ line → Assoc.getD t.mem.pending n 0 = Assoc.getD s.mem.pending n 0) ∧
    (∀ st e, x.stores[k]? = some st → s.storeReady x st = true → s.refusal core ctx st.hkey st.pas = some e →
      ∃ t, exec (.postedWriteRefused core ctx k) s = .next t ∧ t.mem = s.mem ∧ Noticed s t core ctx 1 ∧
        t.ctxAt core ctx = { x with stores := dropAt x.stores k }) ∧
    (∀ base len, x.aliasing = some (base, len, false) → x.stores = [] →
      let lines := rangeLines s (s.issuerFor core ctx) base.toNat len.toNat
      (∀ p ∈ lines, s.blocked p = false) →
      (∀ n ∈ linesOf lines, s.holdsBack none (n / 2 * 2) = false ∧ s.holdsBack none (n / 2 * 2 + 1) = false) →
      ∃ t, exec (.aliasfComplete core ctx) s = .next t ∧
        t.ctxAt core ctx = { x with aliasing := some (base, len, true), floor := (t.ctxAt core ctx).floor } ∧ SameBytes s t ∧
        ∀ b l, (.dram b l) ∈ lines → ∀ i < 16, Assoc.get? t.mem.stale (b / 64 * 16 + i) = none) ∧
    (∀ r, s.requests[k]? = some r → s.hostTraffic = true → r.host = true → r.ans = .waiting →
      ∃ t own, exec (.cxlCacheResponse k) s = .next t ∧ t.requests[k]? = some { r with ans := .granted } ∧
        Assoc.get? t.mem.hostLines r.line = some own ∧ (r.own = true → own = true)) ∧
    (∀ line keep w, s.hostTraffic = true → (s.mem.line line).asked = some w → ∃ t, exec (.bisnpResponse line keep) s = .next t ∧ SameBytes s t ∧
      (t.mem.line line).asked = none ∧ (t.mem.line line).answered = some w ∧ (t.mem.line line).hostBit = keep) ∧
    (∀ line own, s.hostTraffic = true → s.holdsBack none ((2 ^ 44 + line) * 2) = false → Assoc.get? s.mem.hostLines (2 ^ 44 + line) = some own →
      ∃ t, exec (.cxlSnpdata line) s = .next t ∧ SameBytes s t ∧ Assoc.get? t.mem.hostLines (2 ^ 44 + line) = some false ∧
        (t.mem.line ((2 ^ 44 + line) * 2)).owner = none) ∧
    (∀ line, s.hostTraffic = true → s.holdsBack none ((2 ^ 44 + line) * 2) = false → ∃ t, exec (.cxlSnpinv line) s = .next t ∧ SameBytes s t ∧
      Assoc.get? t.mem.hostLines (2 ^ 44 + line) = none ∧ (t.mem.line ((2 ^ 44 + line) * 2)).owner = none) ∧
    (∀ line, s.hostTraffic = true → s.holdsBack none ((2 ^ 44 + line) * 2) = false → ∃ t, exec (.cxlSnpcur line) s = .next t ∧ SameBytes s t ∧
      (t.mem.line ((2 ^ 44 + line) * 2)).owner = none) ∧
    (∀ (h : BitVec 48) ps n, hdmPlaces s (h.toNat / 64 * 64) 64 = some ps → (∀ p ∈ ps, s.blocked p = false) →
      ps.head?.bind (·.lineNo) = some n →
      ∃ t, exec (.hostMemRead h) s = .next t ∧ SameBytes s t ∧ (t.mem.line n).hostBit = true) ∧
    (∀ (h : BitVec 48) (size : BitVec 4) (v : Word) ps, size ≠ 0 → h.toNat % 8 + size.toNat ≤ 8 →
      hdmPlaces s h.toNat size.toNat = some ps → (∀ p ∈ ps, s.blocked p = false) →
      (∀ n ∈ linesOf ps, s.holdsBack none n = false) → (ps.map (·.key)).Nodup →
      ∃ t, exec (.hostMemWrite h size v) s = .next t ∧ Written s t ps size.toNat v.toNat ∧ t.mem.full = s.mem.full ∧
        ∀ p ∈ ps, ∀ n, p.lineNo = some n → (t.mem.line n).owner = none ∧ (t.mem.line n).sharers = []) ∧
    ∀ addr, ∃ t, exec (.dramScrub addr) s = .next t ∧ SameBytes s t

/-- R168, R171, R175 to R177, R180, R252, R254 to R266, R268 to R273 and R403: what each event of messages, contexts
and tasks does when it is enabled. The layout of the class-3 report is the model's choice (log 16). -/
def Obligations.TaskEvents : Prop :=
  ∀ (s : State) (core : CoreId) (ctx : CtxId) (k : Nat),
    let x := s.ctxAt core ctx
    let here := s.core core
    (∀ f, s.mesh[k]? = some f → firstOfSender s.mesh k f = true → s.unreachable f.msg = false →
      f.msg.pkg = s.pkg.toNat → f.msg.core = core → here.roomFor f.msg.vnet = true →
      let admitted := f.msg.cap = here.pkey ∧ f.msg.cls ≠ 3 ∧ f.msg.cls ≠ 7
      ∃ t, exec (.messageArrival k) s = .next t ∧ t.mesh.take (s.mesh.length - 1) = dropAt s.mesh k ∧ t.mem = s.mem ∧
        (admitted → (here.cls f.msg.cls).state = .bound → ∃ e, (t.core core).inbox = here.inbox ++ [e] ∧ e.msg = f.msg ∧
          e.held = false ∧ e.stamp = here.clock ∧ t.mesh = dropAt s.mesh k) ∧
        (admitted → (here.cls f.msg.cls).state ≠ .bound → here.heldCount f.msg.cls < 8 →
          ∃ e, (t.core core).inbox = here.inbox ++ [e] ∧ e.msg = f.msg ∧ e.held = true ∧ t.mesh = dropAt s.mesh k) ∧
        let refused (reason : BitVec 8) : Prop := (t.core core).inbox = here.inbox ∧
          ((s.part (s.partOf core)).supq.length < 512 →
            (t.part (s.partOf core)).supq = (s.part (s.partOf core)).supq ++ [⟨reason, f.msg⟩]) ∧
          (512 ≤ (s.part (s.partOf core)).supq.length →
            (t.part (s.partOf core)).drops = (s.part (s.partOf core)).drops + 1)
        (f.msg.cap ≠ here.pkey → refused 1) ∧
        (admitted → (here.cls f.msg.cls).state ≠ .bound → 8 ≤ here.heldCount f.msg.cls → refused 2)) ∧
    (∀ m rest, here.control = m :: rest → m.heldCtx = ctx → x.status = .held →
      (m.action = 0 → x.ctl.estat.getLsbD 1 = false → ∃ t, exec (.heldContextRetry core) s = .next t ∧ OnlyCore s t core ∧
        (t.core core).control = rest ∧ (t.ctxAt core ctx).status = .ready ∧ (t.ctxAt core ctx).pc = x.ctl.epc ∧
        (t.ctxAt core ctx).ctl = { x.ctl with priv := x.ctl.estat.setWidth 1 } ∧ SameRegs x (t.ctxAt core ctx)) ∧
      (m.action = 1 → ∃ t, exec (.heldContextEnter core) s = .next t ∧ OnlyCore s t core ∧
        (t.core core).control = rest ∧ (t.ctxAt core ctx).status = .ready ∧ (t.ctxAt core ctx).pc = m.pay.get 1 ∧
        (t.ctxAt core ctx).ctl = { x.ctl with priv := 1 } ∧ SameRegs x (t.ctxAt core ctx)) ∧
      (m.action = 2 → x.owed = [] → (∀ r, x.replay = some r → r.halted = true) → ∃ t, exec (.heldContextTerminate core) s = .next t ∧
        OnlyCore s t core ∧ (t.core core).control = rest ∧ (t.ctxAt core ctx).status = .free ∧
        (t.core core).done.code.toNat = max here.done.code.toNat ((m.pay.get 1).extractLsb' 56 8).toNat ∧
        (t.core core).done.count = here.done.count + (m.pay.get 1).setWidth 48)) ∧
    (∀ pre q post (vnet : BitVec 2), x.sendq = pre ++ q :: post → q.msg.vnet = vnet.toNat →
      (∀ p ∈ pre, p.msg.vnet ≠ vnet.toNat) → (∀ st ∈ x.stores, q.upTo ≤ st.serial) →
      (s.dieUp (dieOf core).toNat = false →
        exec (.sendqTransmit core ctx vnet) s = .next (s.setCtxAt core ctx { x with sendq := pre ++ post })) ∧
      (s.dieUp (dieOf core).toNat = true → ∃ t r, exec (.sendqTransmit core ctx vnet) s = .next t ∧ t.ctxAt core ctx = { x with sendq := pre ++ post } ∧
        t.mem = s.mem ∧
        (s.unreachable q.msg = false → t.mesh = s.mesh ++
          [{ msg := q.msg, counted := q.counted, who := some (core, ctx), rels := q.rels ++ r }] ∧ (q.scope = none → r = [])) ∧
        (s.unreachable q.msg = true → Noticed s t core ctx 1))) ∧
    (∀ q v, s.vecs[k]? = some (core, q, v) → (∀ w ∈ s.vecs.take k, ¬(w.1 = core ∧ w.2.1 = q)) →
      ∃ t, exec (.nsendArrival k) s = .next t ∧ OnlyCore s t core ∧ t.vecs = dropAt s.vecs k ∧
        (t.core core).getNq q = here.getNq q ++ [v]) ∧
    (∀ m, s.credits[k]? = some (core, ctx, m) → ∃ t, exec (.nsendCreditReturn k) s = .next t ∧ OnlyCore s t core ∧
      t.credits = dropAt s.credits k ∧ (t.ctxAt core ctx).outst = x.outst ∧
      ((t.ctxAt core ctx).ctl.win.get ⟨m.toNat, m.isLt⟩).toNat = min 4 ((x.ctl.win.get ⟨m.toNat, m.isLt⟩).toNat + 1)) ∧
    (∀ q y, x.streams.find? (fun t => t.q = q) = some y → y.next < y.total → y.buf.length < 8 →
      (∀ f ∈ y.buf, ∃ v, f = .value v) → x.halted = false → s.coreUp core = true →
      let a := y.elem y.next
      let s' := { s with cur := ⟨core, ctx, false⟩ }
      ∀ pas ps s1, a.1 < 2 ^ 56 → 0 < a.2 → Reaches s' (BitVec.ofNat 64 a.1) a.2 .read .plain .copy pas ps s1 →
        ∃ t, exec (.streamFill core ctx q) s = .next t ∧ t.cur = s.cur ∧ t.mem.bytes = s.mem.bytes ∧
          (t.ctxAt core ctx).streams.find? (fun t => t.q = q) =
            some { y with buf := y.buf ++ [.value (y.widen a.2 (readValue s1 (some x.acqAt) ps))], next := y.next + 1 }) ∧
    (s.coreUp core = true → (∀ k, (s.ctxAt core k).status = .issuing → (s.ctxAt core k).halted = true) →
      let s2 := s.refill core
      ∃ t, exec (.contextSelect core) s = .next t ∧
        (s2.choose core = none → t = s2) ∧
        (∀ r, s2.choose core = some (.ready r) → (t.ctxAt core r) = { s2.ctxAt core r with status := .issuing } ∧
          ∀ j, (s2.ctxAt core j).status = .ready → (s2.ctxAt core j).halted = false →
            (s2.ctxAt core j).ctl.prio ≤ (s2.ctxAt core r).ctl.prio) ∧
        (∀ i e l, s2.choose core = some (.entry i e l) → ∃ r, (s2.ctxAt core r).status = .free ∧
          let y := t.ctxAt core r
          y.status = .issuing ∧ startRegs e.msg.pay y ∧ y.ctl.src = e.msg.src ∧ y.ctl.mcls.toNat = e.msg.vnet * 256 + e.msg.cls ∧
          (e.start = none → y.pc = ((s2.core core).cls e.msg.cls).handler.addr ∧
            y.ctl.priv = ((s2.core core).cls e.msg.cls).handler.prv) ∧
          (∀ pc prv id, e.start = some (pc, prv, id) → y.pc = pc ∧ y.ctl.priv = prv ∧ y.ctl.xid = id) ∧
          (t.core core).inbox = dropAt (s2.core core).inbox i) ∧
        (∀ f, s2.choose core = some (.fork f) → ∃ r, (s2.ctxAt core r).status = .free ∧
          let y := t.ctxAt core r
          y.status = .issuing ∧ startRegs f.pay y ∧ y.pc = ((s2.core core).cls f.cls.toNat).handler.addr ∧
          (t.core core).deque = (s2.core core).deque.dropLast)) ∧
    (∀ w, x.wait = some w → w ≠ .interlock → w ≠ .reply → x.status = .issuing → x.waitFrom + x.ctl.parkt.toNat ≤ s.now →
      exec (.parkTimeout core ctx) s = .next (s.setCtxAt core ctx { x with status := .parked })) ∧
    (∀ w, x.wait = some w → x.status = .parked → s.woken core ctx w = true → ∃ t, exec (.parkedWake core ctx) s = .next t ∧
      OnlyCore s t core ∧ t.ctxAt core ctx = { x with wait := none, status := .ready, readyAt := here.clock }) ∧
    (∀ e, here.inbox[k]? = some e → e.held = false → e.since + 4096 ≤ s.now → ∃ t, exec (.runQueueAging core k) s = .next t ∧
      OnlyCore s t core ∧ (t.core core).inbox[k]? = some { e with age := e.age + 1, since := e.since + 4096 } ∧
      (t.core core).effPrio s.now { e with age := e.age + 1, since := e.since + 4096 } = here.effPrio s.now e) ∧
    (∀ l, s.launchAt core = some l → here.stealing = false → (∃ k, (s.ctxAt core k).status = .free ∧
        (s.ctxAt core k).halted = false) → here.bulkFull = false → (∀ e ∈ here.inbox, e.held = true) → here.deque = [] →
      here.spilled = [] → here.nextSteal ≤ s.now → l.victims core ≠ [] → s.coreUp core = true →
      ∃ t v, exec (.stealAttempt core) s = .next t ∧ OnlyCore s t core ∧ v ∈ l.victims core ∧
        t.steals = s.steals ++ [(core, v)] ∧ (t.core core).stealing = true ∧
        (t.core core).steal = (let a := here.steal ^^^ (here.steal <<< 13); let b := a ^^^ (a >>> 17); b ^^^ (b <<< 5))) ∧
    (∀ victim, s.steals[k]? = some (core, victim) → victim ≠ core →
      let v := s.core victim
      let gone := { s with steals := dropAt s.steals k }
      let given (t : State) (f : Fork) : Prop := exec (.stealRequest k) s = .next t ∧ t.steals = dropAt s.steals k ∧
        (t.core core).deque = here.deque ++ [f] ∧ (t.core core).stealing = false ∧ (t.core core).backoff = 64
      (∀ f rest, v.spilled = [] → v.deque = f :: rest → (∀ st ∈ (s.ctxAt f.core f.ctx).stores, f.upTo ≤ st.serial) →
        ∃ t, given t f ∧ t.core victim = { v with deque := rest }) ∧
      (∀ f y, v.spilled ≠ [] → gone.takeOldest victim (fun f => (s.ctxAt f.core f.ctx).storesDone f.upTo) = some (f, y) →
        ∃ t, given t f ∧ t.core victim = y.core victim) ∧
      (v.spilled = [] → v.deque = [] → ∃ t, exec (.stealRequest k) s = .next t ∧ t.steals = dropAt s.steals k ∧
        (t.core core).stealing = false ∧ (t.core core).nextSteal = s.now + here.backoff ∧
        (t.core core).backoff = min 4096 (2 * here.backoff) ∧ OnlyCore s t core)) ∧
    ∀ l, s.launchAt core = some l → here.done.inTree = true → here.done.wave ≤ (s.core l.root).done.begun → s.quiescent core l.id = true → s.coreUp core = true →
      (∀ c ∈ here.done.children, ∃ r ∈ here.done.reports, r.1 = c ∧ r.2.1 = here.done.wave) →
      let sum := here.done.totals
      ∃ t, exec (.doneWaveReport core) s = .next t ∧ t.mem = s.mem ∧ (t.core core).done.wave = here.done.wave + 1 ∧
        (∀ p, here.done.parent = some p → ∃ m : Flight, t.mesh = s.mesh ++ [m] ∧ m.msg.core = p ∧ m.msg.cls = 3 ∧
          m.msg.pay = #v[sum.2.2, BitVec.ofNat 64 sum.1, BitVec.ofNat 64 sum.2.1, BitVec.ofNat 64 here.done.wave, 0, 0]) ∧
        (here.done.parent = none → here.done.last = some sum → sum.1 = sum.2.1 →
          ∀ y ∈ t.launches, y.id = l.id → y.st = .finished ∧ y.status = sum.2.2) ∧
        (here.done.parent = none → here.done.last ≠ some sum ∨ sum.1 ≠ sum.2.1 →
          (t.core core).done.last = some sum ∧ t.launches = s.launches)

/-- R194 to R196, R204, R212, R213, R218, R223 to R225, R227, R250, R253, R341, R343 and R366: what each event of the engines does
when it is enabled. -/
def Obligations.EngineEvents : Prop :=
  ∀ (s : State) (core : CoreId) (ctx : CtxId) (fid : ForgeId) (k : Nat),
    let x := s.ctxAt core ctx
    (pushesDone s fid = true → (∃ j < 8, headReady s fid j = true) →
      ∃ t j cmd rest fl, exec (.anvilCmdStart fid) s = .next t ∧ j < 8 ∧ headReady s fid j = true ∧
        (s.core (forgeCore fid j)).cmds = cmd :: rest ∧ (t.core (forgeCore fid j)).cmds = rest ∧
        (t.core (forgeCore fid j)).started = (s.core (forgeCore fid j)).started ++ [{ cmd with flags := fl }] ∧
        (t.core (forgeCore fid j)).ctx = (s.core (forgeCore fid j)).ctx ∧
        (∀ c, c ≠ forgeCore fid j → t.core c = s.core c) ∧ t.mem = s.mem ∧ (∀ g, g ≠ fid → t.forge g = s.forge g) ∧
        (t.forge fid).arb.toNat = j ∧
        ∀ r, (t.forge fid).ring r = { (s.forge fid).ring r with rd := ((s.forge fid).ring r).rd + pops cmd r }) ∧
    (∀ cmd rest, (s.core core).started = cmd :: rest →
      ∃ t, exec (.anvilCmdRetire core) s = .next t ∧ (t.core core).started = rest ∧ (t.core core).cmds = (s.core core).cmds ∧
        t.ctxAt core cmd.ctx = (s.ctxAt core cmd.ctx).flagged cmd.flags ∧ (∀ c, c ≠ core → t.core c = s.core c) ∧
        t.mem = s.mem ∧ ∀ r, (t.forge (forgeOf core)).ring r = { (s.forge (forgeOf core)).ring r with
          head := ((s.forge (forgeOf core)).ring r).head + pops cmd r
          freedAt := if pops cmd r = 0 then ((s.forge (forgeOf core)).ring r).freedAt else s.mem.time }) ∧
    (∀ y bytes s1, s.xfers[k]? = some y → y.started = false → y.st = .queued → mayStart s y = true → s.blockWaits y.site = none →
      engineRead s y.iss y.block.toNat 48 = .ok (bytes, s1) →
      let z := begun y bytes s.tick
      let s2 := s1.clearFixes z.site
      (startCode z s2 ≠ 0 → ∃ t w, exec (.transferStart k) s = .next t ∧ t = { s2 with xfers := setAt s2.xfers k w } ∧
        w.started = true ∧ w.st = .running ∧ w.code = BitVec.ofNat 8 (startCode z s2) ∧ w.written = y.written) ∧
      (startCode z s2 = 0 → ∃ n, let r := runItems z s2 n
        exec (.transferStart k) s = .next { r.s with xfers := setAt r.s.xfers k r.x })) ∧
    (∀ y e key token s1, y.kind = .cpykv → kvSlot y (e / 64) s = some key →
      let n := y.arg 1 / 2 ^ 32
      let h := (kvHeader y e s).2
      (e < n → kvToken y (y.arg 1 % 2 ^ 32 + e) h = .ok (token, s1)) →
      (n ≤ e → token = some (List.replicate 64 0) ∧ s1 = h) →
      let codes := token.getD (List.replicate 64 0)
      codes.length = 64 →
      let code := if token = none then 3 else 0
      let r := runItem y e s
      let at_ (p b : Nat) : Nat := key + 512 + (if y.mapw.getLsbD 11 then 128 * p + 2 * (e % 64) else 128 * (e % 64) + 2 * p) + b
      r.stalled = false ∧ r.x.count = y.count + (if e < n then 1 else 0) ∧ r.x.code.toNat = max y.code.toNat code ∧
        (∀ p < 64, ∀ b < 2, r.s.mem.byte (at_ p b) = byteOf (codes.getD p 0) b) ∧
        (∀ a, (∀ p < 64, ∀ b < 2, a ≠ at_ p b) → r.s.mem.byte a = s1.mem.byte a) ∧
        (e % 64 = 0 → ∀ j < 512, h.mem.byte (key + j) = 0) ∧
        ∀ a, e % 64 ≠ 0 ∨ a < key ∨ key + 512 ≤ a → h.mem.byte a = s.mem.byte a) ∧
    (∀ y w, s.xfers[k]? = some y → y.kind = .cpykv → y.started = true → y.st ≠ .complete → y.over = false →
      y.next = 64 * y.pushed + 63 → y.fixes = [] →
      ((s.forge (forgeOf y.iss.core)).ring (y.mapw.extractLsb' 8 3)).conf = some w →
      let fg := forgeOf y.iss.core
      let rn := y.mapw.extractLsb' 8 3
      let r := (s.forge fg).ring rn
      let q := runItem y y.next s
      r.free w ≠ 0 → q.stalled = false → q.x.fixes = [] →
      let key := keySram + fg.toNat * 2 ^ 21 + (slotBase w + r.tail % slotCount w * slotKib w) * 1024
      kvSlot y y.pushed s = some key ∧ ∃ t, exec (.cpykvTileFill k) s = .next t ∧ t.mem.bytes = q.s.mem.bytes ∧
        t.xfers = setAt s.xfers k { q.x with
          next := y.next + 1, pushed := y.pushed + 1
          written := q.x.written.filter fun v => !(decide (key / 8 ≤ v.2) && decide (v.2 < key / 8 + 1088)) } ∧
        (t.forge fg).ring rn = { r with tail := r.tail + 1 } ∧ ∀ d, t.mem.isFull d = true ↔
          q.s.mem.isFull d = true ∨ ∃ v ∈ q.x.written, v.2 = d ∧ key / 8 ≤ d ∧ d < key / 8 + 1088) ∧
    (∀ y, s.xfers[k]? = some y → y.st ≠ .complete → y.over = true → (∀ f ∈ y.fixes, f.open_ = false) →
      (y.fixes.map (·.idx)).Nodup →
      (∀ l ∈ y.far, Assoc.getD s.mem.pending l 0 = 0) →
      let p := s.fillWritten y
      p.1.wordReady y.iss (some (y.block + 8)) = true →
      let status : Word := p.2.status
      let u := p.1.engineWord y.iss (some (y.block + 8)) status
      let v : State := { u with xfers := setAt u.xfers k { p.2 with st := .complete } }
      (∀ d, p.1.mem.isFull d = (s.mem.isFull d || (y.written.map (·.2)).contains d)) ∧
      (y.handler = 0 → exec (.transferComplete k) s = .next v) ∧
      (y.handler ≠ 0 → exec (.transferComplete k) s = .next (v.deliver y.iss.core y.iss.ctx y.iss.priv y.iss.prio.toNat 4
        y.iss.launch (some (y.handler, y.iss.priv, y.id)) #v[y.block, status, 0, 0, 0, 0])) ∧
      let code := if y.st = .cancelled then max 1 y.code.toNat else y.code.toNat
      let rows := if y.st = .cancelled then min (y.arg 1) (y.next / countSize y.sm 0) else y.arg 1
      let count := if y.kind = .get ∨ y.kind = .put then
          if y.code = 6 then 0 else rows - (y.lost.filter fun r => decide (r < rows)).length
        else if y.kind = .kvapp ∧ code ≠ 0 then 0 else y.count
      status = BitVec.ofNat 64 (code * 2 ^ 56 +
        (y.flags.toNat ||| (if ∃ f ∈ y.fixes, f.replayed = true then 2 else 0)) * 2 ^ 48 + count % 2 ^ 48)) ∧
    (∀ die y f, s.xfers = [y] → s.heaps = [] → dieOf y.iss.core = die → y.fixes = [f] → f.idx < 4 → f.elems ≠ [] →
      let r := s.readBlock y.site
      let st := fixState r y.iss y.block f.idx
      let z : Xfer := { y with fixes := [{ f with elems := [], again := true }] }
      (∀ z' u, st = 2 → y.stopped = false → Replays f.elems z (r.dropPage y.iss f.page.toNat) z' u → z'.fixes = z.fixes →
        u.blockWaits y.site = none → ∃ t, exec (.fixbellRing die) s = .next t ∧
          t.xfers = [{ z' with fixes := [{ f with elems := [], again := false, skip := false, replayed := true }] }] ∧
          t.mem = (u.setFixState y.site f.idx 4).mem) ∧
      (st = 3 → y.kind ≠ .halo → r.blockWaits y.site = none → ∃ t w, exec (.fixbellRing die) s = .next t ∧ t.xfers = [w] ∧
        w.fixes = [{ f with elems := [], again := false, skip := false }] ∧ w.code.toNat = max 5 y.code.toNat ∧
        w.flags = y.flags ||| 1 ∧ w.next = y.next ∧ w.count = y.count ∧ t.mem = (r.setFixState y.site f.idx 5).mem) ∧
      (st ≠ 2 → st ≠ 3 → exec (.fixbellRing die) s = .next r)) ∧
    (∀ die n h i desc f, (∀ y ∈ s.xfers, dieOf y.iss.core ≠ die) → s.heaps = [(n, h)] → h.fixBlock = some (i, desc) →
      h.fixes = [f] → f.idx < 4 → f.elems ≠ [] → dieOf f.who = die →
      let r := s.readBlock (heapSite n i desc i)
      let st := fixState r i desc f.idx
      (st = 2 → ∃ t, exec (.fixbellRing die) s = .next t ∧ t.xfers = s.xfers ∧ t.mem = r.mem ∧
        t.heap n = { h with fixes := [{ f with again := true }] } ∧
        ∀ e, e ∈ t.tlb ↔ e ∈ r.tlb ∧ ¬((e.home = .engine .welt (dieOf i.core) ∨ e.home = .engine .welt die) ∧
          e.base = f.page.toNat * 2 ^ 14 / reach e.lvl.toNat)) ∧
      (st = 3 → ∃ t, exec (.fixbellRing die) s = .next t ∧ t.xfers = s.xfers ∧
        (∃ b, (t.heap n).fixes = [{ f with elems := [], again := false, skip := b }]) ∧ (t.heap n).ops.length = h.ops.length ∧
        ∀ o ∈ (t.heap n).ops, 2 * o.tag ∈ f.elems → o.code = 7) ∧
      (st ≠ 2 → st ≠ 3 → exec (.fixbellRing die) s = .next r)) ∧
    (∀ o rest g, x.bsops = o :: rest → x.grant = some g →
      let i : Issuer := { core := core, ctx := ctx, launch := o.launch }
      (∀ y ∈ s.openXfers i, y.id ∉ o.after) →
      ∃ t g', exec (.bsopPerform core ctx) s = .next t ∧ t.ctxAt core ctx = { x with bsops := rest, grant := some g' } ∧
        (∀ j : Nat, t.xfers[j]? = (s.xfers[j]?).map fun y =>
          if s.sameQueue y.iss i = true ∧ y.started = false then { y with after := y.after - 1 } else y) ∧
        t.mem = s.mem ∧ g'.slices = g.slices ∧ g'.ways = g.ways ∧ g'.done = g.done ∧ g'.seed = g.seed ∧
        ∀ lane j, j < 256 → (g'.lane lane).testBit j =
          let row (m : Nat) : Nat := (o.rows.extractLsb' (8 * m) 8).toNat
          let first := (o.lanes.extractLsb' 0 24).toNat
          let old := g.lane lane
          let at_ (m n : Nat) : Nat := old / 2 ^ row m % 2 ^ n
          let r := bsopGives o.fn.toNat o.n o.signed (at_ 1 o.n) (at_ 2 o.n) (at_ 3 8) (at_ 0 16) (at_ 3 1 = 1)
          if first ≤ lane ∧ lane < first + (o.lanes.extractLsb' 24 24).toNat + 1 ∧ row 0 ≤ j ∧ j < row 0 + r.2
          then r.1.testBit (j - row 0) else old.testBit j) ∧
    (∀ g, x.grant = some g → g.done = false → x.storesDone g.iss.upTo = true → s.wordReady g.iss g.word = true →
      g.slices.Nodup →
      ((∀ z ∈ g.slices, g.ways ≤ freeWays s.ways z) → ∃ u : State, SameBytes s u ∧
        u.ways = s.ways ++ g.slices.map (fun z => (z, g.ways, core, ctx, g.iss.launch)) ∧ u.ctxAt core ctx = x ∧
        exec (.waygiveConversionComplete core ctx) s = .next
          ((u.setCtxAt core ctx { x with grant := some { g with done := true, seed := s.tick } }).engineWord g.iss g.word 0)) ∧
      ((∃ z ∈ g.slices, freeWays s.ways z < g.ways) → (∀ l ∈ s.launches, l.st ≠ .saved) →
        exec (.waygiveConversionComplete core ctx) s = .next
          ((s.setCtxAt core ctx { x with grant := some { g with failed := true, done := true, seed := s.tick } }).engineWord
            g.iss g.word 0xFFFFFFFFFFFFFFFF))) ∧
    (∀ g, x.grant = some g → g.taking ≠ [] → g.done = true → x.bsops = [] → (∀ y ∈ s.openXfers g.iss, y.cway = false) →
      (∀ w ∈ g.taking, x.storesDone w.2.upTo = true ∧ s.wordReady w.2 w.1 = true) →
      exec (.waytakeComplete core ctx) s = .next (g.taking.foldl (fun t w => t.engineWord w.2 w.1 0)
        ({ s with ways := s.ways.filter fun o =>
            !(o.2.2.1 == core && o.2.2.2.1 == ctx && o.2.2.2.2 == g.iss.launch) }.setCtxAt core ctx { x with grant := none }))) ∧
    (∀ r, s.ranges[k]? = some r → s.commandReady r.iss = true → s.wordReady r.iss r.word = true →
      let lines := rangeLines s r.iss r.base.toNat r.len.toNat
      (∀ p ∈ lines, s.blocked p = false) → (r.inval = true → ∀ n ∈ linesOf lines, s.holdsBack none n = false) →
      ∃ u m, exec (.rangeMaintenanceComplete k) s =
          .next (({ u with ranges := dropAt s.ranges k } : State).engineWord r.iss r.word (BitVec.ofNat 64 m)) ∧
        m ≤ (linesOf lines).length ∧ ((∀ n ∈ linesOf lines, cleanLine s n) → m = 0) ∧ SameBytes s u ∧
        ∀ n ∈ linesOf lines, cleanLine u n ∧
          (r.inval = true → (u.mem.line n).outside = false ∧ u.mem.resident? n = none)) ∧
    (∀ o, s.shoots[k]? = some o → s.commandReady o.iss = true → s.wordReady o.iss o.word = true →
      let gone : State := { s with shoots := dropAt s.shoots k }
      (o.blk = none → exec (.shootdownComplete k) s = .next (gone.engineWord o.iss o.word 0x60000000000)) ∧
      ∀ base n psz all root, o.blk = some (base, n, psz, all, root) →
        let mine (c : CoreId) : Bool := all = 1 || s.partOf c = s.partOf o.iss.core
        s.usesRange base.toNat n.toNat psz mine = false →
        ∃ l, exec (.shootdownComplete k) s = .next (({ gone with tlb := l } : State).engineWord o.iss o.word 0) ∧
          (∀ e ∈ l, e ∈ s.tlb) ∧
          ∀ e ∈ s.tlb,
            let near := all = 1 ∨ match e.home with
              | .instr c => s.partOf c = s.partOf o.iss.core
              | .data c => s.partOf c = s.partOf o.iss.core
              | .cluster q => s.clusterPartition q.toNat = s.partOf o.iss.core
              | .engine _ d => ∃ q < 128, clusterDie q = d.toNat ∧ s.clusterPartition q = s.partOf o.iss.core
            let size := reach e.lvl.toNat
            (e ∉ l ↔ near ∧ (root = 0 ∨ e.root.toNat * 65536 = root.toNat) ∧
              (n = 0 ∨ (e.base * size < base.toNat + n.toNat * pageSize psz.toNat ∧ base.toNat < e.base * size + size)))) ∧
    ∀ o, s.partops[k]? = some o → s.commandReady o.iss = true → s.wordReady o.iss o.word = true →
      let gone : State := { s with partops := dropAt s.partops k }
      let p : BitVec 6 := o.blk.extractLsb' 144 6
      let op := o.blk.extractLsb' 152 8
      let key := o.blk.extractLsb' 128 16
      let bad := setBad s o.blk = true
      let mask (c : Nat) : Prop := c < 128 ∧ o.blk.getLsbD c = true
      let code1 := op = 0 ∧ ∃ c, mask c ∧ s.clusterPartition c ≠ 0
      let code2 := (s.part p).resident ≠ none
      let code4 := (op = 0 ∧ (s.part p).formed = true) ∨ (op ≠ 0 ∧ (s.part p).formed = false)
      let ends (c : Nat) : Prop := exec (.partsetComplete k) s = .next (gone.engineWord o.iss o.word (BitVec.ofNat 64 (c * 2 ^ 40)))
      (bad → ends 3) ∧
      (¬bad → code1 ∨ code2 ∨ code4 → (code1 ∧ ends 1) ∨ (code2 ∧ ends 2) ∨ (code4 ∧ ends 4)) ∧
      (¬bad → ¬code1 → ¬code2 → ¬code4 →
        ∃ u : State, exec (.partsetComplete k) s = .next (u.engineWord o.iss o.word 0) ∧ u.mem = s.mem ∧
          (op = 0 → (u.part p).formed = true ∧ (u.part p).key = key ∧
            (∀ c, mask c → u.clusterPartition c = p ∧ ∀ q ∈ clusterCores c, (u.core q).pkey = key) ∧
            ∀ c, ¬mask c → u.clusterPartition c = s.clusterPartition c) ∧
          (op = 1 → (u.part p).formed = false ∧ ∀ c < 128, s.clusterPartition c = p → u.clusterPartition c = 0 ∧
            ∀ q ∈ clusterCores c, (u.core q).pkey = (s.part 0).key) ∧
          (op = 2 → (u.part p).key = key ∧ u.clusterPart = s.clusterPart ∧
            ∀ c < 128, s.clusterPartition c = p → ∀ q ∈ clusterCores c, (u.core q).pkey = key))

/-- R231, R233 to R240, R243 to R245, R315 to R318 and R321: what each event of the equality heap does when it is enabled. -/
def Obligations.HeapEvents : Prop :=
  ∀ (s : State) (n k : Nat),
    let h := s.heap n
    (∀ f ∈ h.fixes, f.again = false) →
    let left (t : State) (u : State) (more : List Item) : Prop := (t.heap n).items = dropAt (u.heap n).items k ++ more ∧
      (t.heap n).conf = (u.heap n).conf ∧ (∀ m, m ≠ n → t.heap m = u.heap m) ∧ t.mem = u.mem ∧ t.cores = u.cores
    (∀ it c a b x s1 y s2 r s3, h.items[k]? = some it → h.conf = some c → it.work = .union a b → h.waits it.elem = false →
      root c a s = .ok (x, s1) → root c b s1 = .ok (y, s2) → unionStep c a b s = .ok (r, s3) →
      ∃ t, exec (.unionStep n k) s = .next t ∧ (it.direct = true → ∀ o ∈ (t.heap n).ops, o.tag = it.tag → o.stage = 2) ∧
        (x = y ∨ x = 0 ∨ y = 0 → left t s2 [] ∧ (t.heap n).counts = (s2.heap n).counts) ∧
        (x ≠ y → x ≠ 0 → y ≠ 0 → ∃ l, r = some l ∧
          left t s3 (l.zipIdx.map fun p => ⟨it.tag, .resign p.1, (s3.heap n).nextTag + p.2, false⟩) ∧
          Assoc.getD (t.heap n).counts it.tag 0 = Assoc.getD (s3.heap n).counts it.tag 0 + 1)) ∧
    (∀ it c p v s1, h.items[k]? = some it → h.conf = some c → it.work = .resign p → h.waits it.elem = false →
      p ≤ c.nnode → getNode c p s = .ok (v, s1) →
      (v.stale = true ∨ v.kind ≠ 1 → ∃ t, exec (.resign n k) s = .next t ∧ (t.heap n).items = dropAt h.items k ∧
        (t.heap n).buckets = h.buckets ∧ t.mem = s1.mem) ∧
      (v.stale = false → v.kind = 1 → ∀ g s2, signature c v s1 = .ok (g, s2) →
        let others := h.buckets.filter fun b => b.2 ≠ p
        ((∀ b ∈ others, b.1 ≠ g) → ∃ t, exec (.resign n k) s = .next t ∧ (t.heap n).items = dropAt h.items k ∧
          (t.heap n).buckets = others ++ [(g, p)] ∧ t.mem = s2.mem) ∧
        ∀ q w s3 s4 a s5 b s6, others.find? (fun b => b.1 = g) = some (g, q) → getNode c q s2 = .ok (w, s3) →
          hPut c (nodeOff c p + 6) 1 (v.flags ||| 4) s3 = .ok ((), s4) →
          root c v.cls s4 = .ok (a, s5) → root c w.cls s5 = .ok (b, s6) →
          ∃ t, exec (.resign n k) s = .next t ∧ (t.heap n).buckets = others ∧ t.mem = s6.mem ∧
            (t.heap n).items = dropAt h.items k ++ if a = b then [] else [⟨it.tag, .union a b, h.nextTag, false⟩])) ∧
    (∀ o a b, h.ops[k]? = some o → o.kind = .mrg a b → 1 ≤ o.stage → o.regs = [] → (∀ i ∈ h.items, i.tag ≠ o.tag) →
      s.wordReady o.iss o.word = true → h.waits o.elem = false →
      ∃ t, exec (.mergeComplete n k) s = .next t ∧ EndsOp s t n k o
        [if o.code ≠ 0 then codeOnly o.code.toNat else valueOnly (Assoc.getD h.counts o.tag 0)]) ∧
    (∀ o m rest, h.ops[k]? = some o → o.binds = m :: rest → (∀ p ∈ h.ops.take k, p.binds = []) →
      s.savedLaunch o.iss.launch = none →
      let o' := { o with binds := rest, sent := o.sent + 1 }
      ∃ t, exec (.bindingSend n) s = .next t ∧ t.mem = s.mem ∧ (t.heap n).ops = setAt h.ops k o' ∧
        (s.unreachable m = true → Noticed s t o.iss.core o.iss.ctx 1) ∧
        (s.unreachable m = false → t.cores = s.cores ∧ t.mesh = s.mesh ++
          [{ msg := m, notice := true, counted := s.isLaunchMsg o.iss.core o.iss.launch m, deflt := true }])) ∧
    (h.ops[k]? = none → exec (.heapOpComplete n k) s = .next (settleHeap n s)) ∧
    ∀ o, h.ops[k]? = some o → opReady s h k o = true → o.spreading = false →
      let ends (vals : List Word) (u : State) : Prop := ∃ t, exec (.heapOpComplete n k) s = .next t ∧ EndsOp u t n k o vals
      let moves (u : State) (o' : HeapOp) : Prop := ∃ t, exec (.heapOpComplete n k) s = .next t ∧ t.mem = u.mem ∧
        (t.heap n).ops = setAt (u.heap n).ops k o' ∧ (t.heap n).items = (u.heap n).items ∧ (t.heap n).conf = (u.heap n).conf
      let nodeCode (c : Nat) : List Word := [BitVec.ofNat 64 (0xFFFFFFFFFFFFFF00 + c), 0, 0]
      (o.code ≠ 0 → (∀ i ∈ h.items, i.tag ≠ o.tag) → (∀ i, o.kind ≠ .node i) → ends [codeOnly o.code.toNat] s) ∧
      (∀ i, o.code ≠ 0 → (∀ i ∈ h.items, i.tag ≠ o.tag) → o.kind = .node i → ends (nodeCode o.code.toNat) s) ∧
      (o.code = 0 → h.conf = none → (∀ d, o.kind ≠ .cfg d) → (∀ i, o.kind ≠ .node i) → ends [codeOnly 1] s) ∧
      (∀ i, o.code = 0 → h.conf = none → o.kind = .node i → ends (nodeCode 1) s) ∧
      (∀ d, o.code = 0 → o.kind = .cfg d → (∀ p ∈ h.ops.take k, ∀ e, p.kind ≠ .cfg e) →
        (d = 0 → h.conf = none → ends [codeOnly 1] s) ∧ (d ≠ 0 → h.conf ≠ none → ends [codeOnly 5] s) ∧
        (d = 0 → h.conf ≠ none → k = 0 → h.items = [] → (∀ p ∈ h.ops, h.begun p = false) → (∀ f ∈ h.fixes, f.open_ = false) → ∃ t u,
          exec (.heapOpComplete n k) s = .next t ∧ EndsOp s u n k o [0] ∧
          t = u.setHeap n { u.heap n with conf := none, buckets := [], fixes := [], fixcnt := 0 }) ∧
        (d ≠ 0 → h.conf = none → ∀ l s1, o.stage = 0 → engineRead s o.iss d.toNat 128 = .ok (l, s1) →
          (parseHeap o.iss d (fromBytes l) = none → ends [codeOnly 6] s1) ∧
          (parseHeap o.iss d (fromBytes l) ≠ none → s1.blockWaits (heapSite n o.iss d o.iss) = none → ∃ t, exec (.heapOpComplete n k) s = .next t ∧
            (t.heap n).ops = setAt h.ops k { o with stage := 1, blk := l } ∧ (t.heap n).fixes = [] ∧ (t.heap n).conf = none)) ∧
        (d ≠ 0 → h.conf = none → ∀ c init b s1, o.stage ≠ 0 → parseHeap o.iss d (fromBytes o.blk) = some (c, init) →
          prepareRegion c init s = .ok (b, s1) → ends [0] (s1.setHeap n { s1.heap n with conf := some c, buckets := b }))) ∧
      ∀ c, o.code = 0 → h.conf = some c →
        (∀ id al s1, o.kind = .find id → getAlloc c s = .ok (al, s1) →
          (2 ^ 32 ≤ id.toNat → ends [codeOnly 6] s1) ∧ (id.toNat < 2 ^ 32 → al < id.toNat → ends [codeOnly 2] s1) ∧
          ∀ r s2, id.toNat < 2 ^ 32 → id.toNat ≤ al → root c id.toNat s1 = .ok (r, s2) → ends [valueOnly r] s2) ∧
        (∀ id, o.kind = .node id → id.toNat % 2 ^ 32 = 0 ∨ c.nnode < id.toNat % 2 ^ 32 →
          ends [0xFFFFFFFFFFFFFF02, 0, 0] s) ∧
        (∀ id v s1, o.kind = .node id → 0 < id.toNat % 2 ^ 32 → id.toNat % 2 ^ 32 ≤ c.nnode →
          getNode c (id.toNat % 2 ^ 32) s = .ok (v, s1) →
          (v.kind ≠ 1 → ends [0xFFFFFFFFFFFFFF02, 0, 0] s1) ∧
          (v.kind = 1 → ends [BitVec.ofNat 64 (v.lit * 2 ^ 32 + v.sym * 2 ^ 16 + v.flags),
            BitVec.ofNat 64 (v.ch.getD 1 0 * 2 ^ 32 + v.ch.getD 0 0), BitVec.ofNat 64 (v.next * 2 ^ 32 + v.ch.getD 2 0)] s1)) ∧
        (∀ m, o.kind = .stat m → (∀ v s1, m = 0 → getAlloc c s = .ok (v, s1) → ends [valueOnly v] s1) ∧
          (∀ v s1, m = 1 → getNused c s = .ok (v, s1) → ends [if c.nnode < v then codeOnly 2 else valueOnly v] s1) ∧
          (m = 2 → h.items.length < 2 ^ 32 → ends [valueOnly h.items.length] s) ∧ (3 ≤ m.toNat → ends [codeOnly 6] s)) ∧
        (∀ a b al s1, o.kind = .mrg a b → o.stage = 0 → getAlloc c s = .ok (al, s1) →
          let x := a.toNat % 2 ^ 32
          let y := b.toNat % 2 ^ 32
          (x = 0 ∨ y = 0 ∨ al < x ∨ al < y → ends [codeOnly 2] s1) ∧
          (x ≠ 0 → y ≠ 0 → x ≤ al → y ≤ al → ∃ t, exec (.heapOpComplete n k) s = .next t ∧ t.mem = s1.mem ∧
            (t.heap n).ops = setAt (s1.heap n).ops k { o with stage := 1 } ∧
            (t.heap n).items = (s1.heap n).items ++ [⟨o.tag, .union x y, (s1.heap n).nextTag, true⟩])) ∧
        (∀ key c01 c2 e s1, o.kind = .ins key c01 c2 → o.result = none → o.canon = none →
          (insCanon c key c01 c2 s = .ok (.error e, s1) → ends [codeOnly e] s1) ∧
          (∀ q, insCanon c key c01 c2 s = .ok (.ok q, s1) → moves s1 { o with stage := 1, canon := some q })) ∧
        (∀ key c01 c2 q r s1, o.kind = .ins key c01 c2 → o.result = none → o.canon = some q →
          insert c h key ((c01.extractLsb' 0 32).toNat, (c01.extractLsb' 32 32).toNat, (c2.extractLsb' 0 32).toNat) q s = .ok (r, s1) →
            (r.again = none → ends [r.word] (s1.setHeap n r.heap)) ∧
            ∀ m, r.again = some m → ∃ t, exec (.heapOpComplete n k) s = .next t ∧ t.mem = s1.mem ∧
              (t.heap n).ops = setAt r.heap.ops k { o with result := some r.word } ∧
              (t.heap n).items = r.heap.items ++ [⟨o.tag, .resign m, r.heap.nextTag, false⟩]) ∧
        (∀ key c01 c2 w, o.kind = .ins key c01 c2 → o.result = some w → (∀ i ∈ h.items, i.tag ≠ o.tag) → ends [w] s) ∧
        (∀ id buf w s1, o.kind = .enum id buf → enumClass c o id buf s = .ok (w, s1) → ends [w] s1) ∧
        (∀ blk, o.kind = .rank blk → (∀ p ∈ h.ops.take k, ∀ a b, p.kind ≠ .matchp a b) →
          (blk = 0 → ends [0] (s.setHeap n { h with rank := none })) ∧
          ∀ l s1, blk ≠ 0 → engineRead s o.iss blk.toNat 2688 = .ok (l, s1) →
            (rankBad l = true → ends [codeOnly 6] s1) ∧
            (rankBad l = false → ends [0] (s1.setHeap n { s1.heap n with rank := some l }))) ∧
        ∀ blk range, o.kind = .matchp blk range → (∀ p ∈ h.ops.take k, ∀ a, p.kind ≠ .rank a) →
          let many := (range.extractLsb' 32 32).toNat
          let id := (range.extractLsb' 0 32).toNat + o.done
          let stage (m : Nat) : Nat := if many ≤ m then 2 else 1
          (∀ l s1, o.stage = 0 → engineRead s o.iss blk.toNat 128 = .ok (l, s1) →
            (patBad l = true → ends [codeOnly 6] s1) ∧ (patBad l = false → moves s1 { o with stage := stage 0, blk := l })) ∧
          (∀ envs s1 ms s2, o.stage ≠ 0 → o.binds = [] → o.done < many → visitId c o.blk id s = .ok (envs, s1) →
            bindingMsgs s1 o h.rank id envs = .ok (ms, s2) →
            moves s2 { o with stage := stage (o.done + 1), done := o.done + 1, binds := ms }) ∧
          (o.stage ≠ 0 → o.binds = [] → many ≤ o.done → ends [valueOnly o.sent] s)

/-- R344, R346 to R352 and R374: what each event of the launch unit and the switch engine does when it is enabled. -/
def Obligations.LaunchEvents : Prop :=
  ∀ (s : State) (q : BitVec 10) (p : BitVec 6) (v : Word) (k : Nat),
    let x := s.queue q
    let m := s.markEligible
    let enabled := x.lqctl.getLsbD 63 = true
    let slots := 2 ^ (x.lqctl.extractLsb' 0 5).toNat
    ((s.islandUp = true → enabled → (v - x.lqhead).toNat ≤ slots → exec (.lqtailDoorbell q v) s = .next (s.setQueue q { x with lqtail := v })) ∧
      (s.islandUp = false ∨ ¬enabled ∨ slots < (v - x.lqhead).toNat → exec (.lqtailDoorbell q v) s = .next s)) ∧
    (let cqslots := 2 ^ (x.cqctl.extractLsb' 0 5).toNat
     (s.islandUp = false → exec (.cqheadWrite q v) s = .next s) ∧
     (s.islandUp = true → (x.cqtail - x.cqhead).toNat < cqslots →
       exec (.cqheadWrite q v) s = .next (s.setQueue q { x with cqhead := v })) ∧
     (s.islandUp = true → cqslots ≤ (x.cqtail - x.cqhead).toNat → ∃ t, exec (.cqheadWrite q v) s = .next t ∧ t.mem = s.mem ∧
       t.queue q = { x with cqhead := v } ∧ ∀ l ∈ s.launches,
         (if l.q = q ∧ l.st = .finished then { l with waits := true } else l) ∈ t.launches)) ∧
    (∀ ps d s1, enabled → x.lqtail ≠ x.lqhead →
      placesOf s 0 ((List.range 256).map fun i => x.lqbase.toNat + 256 * (x.lqhead.toNat % slots) + i) = .ok ps →
      luBytes s ps = some (d, s1) →
      let u := (s1.luTakes d [(8, 16 * fieldOf d 16 2), (40, 4 * fieldOf d 48 2)]).markEligible
      ∃ t l, exec (.launchCopy q) s = .next t ∧ (t.queue q).lqhead = x.lqhead + 1 ∧ (t.queue q).lqtail = x.lqtail ∧
        t.launches.getLast? = some l ∧ t.launches.dropLast.map (·.id) = s1.launches.map (·.id) ∧ t.mem.bytes = u.mem.bytes ∧
        l.q = q ∧ l.index = x.lqhead.setWidth 32 ∧ l.desc = d ∧
        l.part.toNat = fieldOf d 18 1 % 64 ∧ l.prio.toNat = fieldOf d 19 1 % 64 ∧
        (descBad u x d = true → l.st = .finished ∧ l.status = 0xF400000000000000) ∧
        (descBad u x d = false → l.st = .waiting ∧ ((∀ j < 8, fieldOf d (128 + 8 * j) 8 = 0) → l.order.isSome = true))) ∧
    (∀ l binds rgns tree msgs, (m.part p).resident = none → m.noLaunch = false → (∀ f ∈ m.forgesOf p, m.forgeBusy f none = false) →
      m.firstLaunch p = some l → l.st = .waiting →
      let d := l.desc
      let root : BitVec 48 := BitVec.ofNat 48 (fieldOf d 0 8 / 65536)
      luRead m root (fieldOf d 8 8) (16 * fieldOf d 16 2) = some binds → luRead m root (fieldOf d 32 8) 128 = some rgns →
      luRead m root (fieldOf d 56 8) (64 * fieldOf d 50 2) = some msgs →
      (luRead m root (fieldOf d 40 8) (4 * fieldOf d 48 2)).bind (fun b => treeOf b.1 (fieldOf d 48 2)) = some tree →
      ∃ t pre flights, exec (.launchStart p) s = .next t ∧ (t.part l.part).resident = some l.id ∧
        (∃ y ∈ t.launches, y.id = l.id ∧ y.st = .resident ∧ y.durFrom = s.now) ∧
        m.mesh <+: pre ∧ t.mesh = pre ++ flights ∧ flights.length = fieldOf d 50 2 ∧
        (∀ i (h : i < flights.length), (flights[i]).msg.pay = Vector.ofFn fun (j : Fin 6) =>
          BitVec.ofNat 64 (fieldOf msgs.1 (64 * i + 16 + 8 * j.val) 8)) ∧
        ∀ c ∈ l.cores, (t.core c).done.inTree = true ∧ (t.core c).done.wave = 1 ∧ (t.core c).done.begun = 1 ∧
          (t.core c).done.sent = (if c = l.root then (flights.filter (·.counted)).length else 0) ∧ (t.core c).done.started = 0 ∧ ∀ j : CtxId,
          let y := t.ctxAt c j
          y.ctl.ptroot = root ∧ y.ctl.hkey.toNat = fieldOf d 22 2 % 65536 ∧ y.fetchAt = m.mem.time ∧ y.ctl.fgmask.toNat = fieldOf d 104 8 % 65536 ∧
          y.ctl.fflags = 0 ∧ y.ctl.parkt = 256 ∧ y.seq = 0 ∧ y.xfer = 1 ∧
          ∀ i : Fin 16, y.ctl.rgn.get i = BitVec.ofNat 64 (fieldOf rgns.1 (8 * i.val) 8 / 8 * 8)) ∧
    (∀ l, s.launches[k]? = some l → l.st = .finished →
      let z := s.queue l.q
      let room := (z.cqtail - z.cqhead).toNat < 2 ^ (z.cqctl.extractLsb' 0 5).toNat
      let donew := fieldOf l.desc 96 8
      let i : Issuer := { core := l.root, priv := 1, root := BitVec.ofNat 48 (fieldOf l.desc 0 8 / 65536) }
      (∃ t, exec (.launchCompletionPost k) s = .next t ∧ ((s.part l.part).resident = some l.id →
        (t.part l.part).resident = none ∧ ∀ o ∈ t.ways, o.2.2.2.2 ≠ some l.id)) ∧
      ∀ ps, placesOf s 0 ((List.range 32).map fun i =>
          z.cqbase.toNat + 32 * (z.cqtail.toNat % 2 ^ (z.cqctl.extractLsb' 0 5).toNat) + i) = .ok ps →
        (¬room → ∃ t, exec (.launchCompletionPost k) s = .next t ∧ t.queues = s.queues ∧ t.mem = s.mem ∧
          ∀ y ∈ s.launches, (if y.q = l.q ∧ y.st = .finished then { y with waits := true } else y) ∈ t.launches) ∧
        ((s.part l.part).resident ≠ some l.id → room → HomeReady s none ps → (ps.map (·.key)).Nodup →
          donew = 0 ∨ l.rejected = true ∨ s.wordReady i (some (BitVec.ofNat 64 donew)) = true →
          ∃ t, exec (.launchCompletionPost k) s = .next t ∧ t.launches = dropAt s.launches k ∧ t.msix = l.q.toNat :: s.msix ∧
            (t.queue l.q).cqtail = z.cqtail + 1 ∧ (donew = 0 ∨ l.rejected = true → ∀ i < 32,
              (ps[i]?).bind (fun a => a.key.map t.mem.byte) =
              (toBytes l.status.toNat 8 ++ toBytes l.durBase 8 ++ toBytes l.q.toNat 4 ++ toBytes l.index.toNat 4 ++
                toBytes l.preempts.toNat 4 ++
                toBytes (z.cqtail.toNat / 2 ^ (z.cqctl.extractLsb' 0 5).toNat % 2) 4)[i]?))) ∧
    (∀ r l, m.residentOf p = some r → m.firstLaunch p = some l →
      (r.prio < l.prio → (m.part p).halting = false →
        ∃ t, exec (.preemptHalt p) s = .next t ∧ (t.part r.part).halting = true ∧ t.mem = m.mem ∧
          ∀ c, c ∈ r.cores ∨ m.partOf c = r.part → ∀ j : CtxId, ∀ task, (m.ctxAt c j).task = some task → task.launch = some r.id →
            t.ctxAt c j = { m.ctxAt c j with halted := true }) ∧
      (l.prio ≤ r.prio → exec (.preemptHalt p) s = .next m)) ∧
    (∀ l, s.residentOf p = some l → (s.part p).halting = true → drained s l = true → l.part = p →
      s.spansWait [s.saveSpan l] = none →
      ∃ t, exec (.preemptSave p) s = .next t ∧ (t.part p).resident = none ∧ (t.part p).halting = false ∧
        (∃ y ∈ t.launches, y.id = l.id ∧ y.st = .saved ∧ y.preempts = l.preempts + 1 ∧
          y.durBase = l.durBase + (s.now - l.durFrom) ∧
          ∀ c ∈ s.launchCores l, ∃ z, Assoc.get? y.saved.cores c.toNat = some z ∧ z.deque = (s.core c).deque.filter (fun f => f.launch = some l.id) ∧
            z.acc = (s.core c).acc ∧ z.nq = (s.core c).nq ∧ ∀ j : CtxId, (s.ctxAt c j).ofLaunch l.id = true →
            (z.ctxAt j).halted = true ∧ SameRegs (s.ctxAt c j) (z.ctxAt j) ∧ (z.ctxAt j).pc = (s.ctxAt c j).pc) ∧
        (∀ c ∈ s.launchCores l, ∀ j : CtxId, (s.ctxAt c j).ofLaunch l.id = true → (t.ctxAt c j).status = .free) ∧
        ∀ c, c ∉ s.launchCores l → t.core c = s.core c) ∧
    ∀ l w, (m.part p).resident = none → m.noLaunch = false → m.firstLaunch p = some l → l.st = .saved →
      regrant m l none = some w → restReady m l w = true → l.heldMbx = [] → l.heldInner = [] → l.part = p →
      (∀ a ∈ l.saved.cores, a.1 < 8192) → (l.saved.cores.map (·.1)).Nodup →
      m.spansWait (m.waySpans m.ways w) = none →
      ∃ t, exec (.launchResume p) s = .next t ∧ (t.part p).resident = some l.id ∧ t.ways = w ∧
        (∀ f ∈ m.mesh ++ l.heldMsgs.map (fun f => { f with queue := some l.id }), f ∈ t.mesh) ∧ (∃ y ∈ t.launches, y.id = l.id ∧ y.st = .resident ∧ y.durFrom = s.now) ∧
        ∀ a ∈ l.saved.cores, ∀ j : CtxId, (a.2.ctxAt j).halted = true →
          let x := m.ctxAt (BitVec.ofNat 13 a.1) j
          let y := a.2.ctxAt j
          t.ctxAt (BitVec.ofNat 13 a.1) j = { y with
            halted := false, grant := y.grant <|> x.grant, serial := max x.serial y.serial
            ctl := { y.ctl with cycFrom := s.now } }

/-- R278, R279, R368, R369, R400, R403, R406 and R409: what each write and event of the device registers does when it is
enabled, and that a write which is not admitted changes nothing. -/
def Obligations.DeviceEvents : Prop :=
  ∀ (s : State) (f : ForgeId) (d : BitVec 2) (v : Word) (w : Writer) (off : BitVec 48),
    let fg := s.forge f
    let x := s.die d
    let i := s.island
    let up := s.islandUp = true
    (let admitted := mayRole s f w = true ∧ RoleAdmitted v ∧ ¬∃ r ∈ fg.rings.toList, ∃ c, r.conf = some c ∧
        ∃ b ∈ ringBanks c, fg.role.extractLsb' (2 * b) 2 = 2 ∧ v.extractLsb' (2 * b) 2 ≠ 2
     (¬admitted → exec (.frgroleWrite f v w) s = .next s) ∧
     (admitted → ∃ t, exec (.frgroleWrite f v w) s = .next t ∧ t.forge f = { fg with role := v } ∧ t.cores = s.cores ∧
       (∀ g, g ≠ f → t.forge g = s.forge g) ∧
       (∀ b < 32, v.extractLsb' (2 * b) 2 ≠ 0 → v.extractLsb' (2 * b) 2 ≠ fg.role.extractLsb' (2 * b) 2 →
         ∀ o < 32768, t.mem.byte (keySram + f.toNat * 2 ^ 21 + 32768 * b + o) = 0) ∧
       ∀ a, a < keySram + f.toNat * 2 ^ 21 ∨ keySram + f.toNat * 2 ^ 21 + 2 ^ 20 ≤ a → t.mem.byte a = s.mem.byte a)) ∧
    (let taken := (w = .supervisor 0 ∨ w = .host) ∧ x.up = true ∧ frameOk s d v = true
     let fr := frameOf v
     (¬taken → exec (.fzreqWrite d v w) s = .next s) ∧
     (taken → ∃ t, exec (.fzreqWrite d v w) s = .next t ∧
       t.die d = { x with fzreq := BitVec.ofNat 64 (fr.1 + (v.extractLsb' 0 2).toNat), fzacc := x.fzacc + 1
                          zeroing := x.zeroing ++ [fr] } ∧
       (∀ a, inFrame fr a = true → t.mem.byte a = 0) ∧ (∀ a, inFrame fr a = false → t.mem.byte a = s.mem.byte a) ∧
       ∀ a, inFrame fr (8 * a) = true → t.mem.isFull a = false)) ∧
    (∀ fr rest, x.zeroing = fr :: rest →
      exec (.frameZeroingComplete d) s = .next (s.setDie d { x with zeroing := rest, fzdone := x.fzdone + 1 })) ∧
    (let can := up ∧ x.powered = true ∧ x.fenced = false
     (¬can → exec (.diectlFence d) s = .next s) ∧
     (can → ∃ t, exec (.diectlFence d) s = .next t ∧ t.die d = { x with fenced := true, joined := false } ∧
       (∀ e, e ≠ d → t.die e = s.die e) ∧ t.island.devevt.getLsbD 0 = true ∧
       (∀ l ∈ s.launches, l.st ≠ .finished → (∃ c < 128, clusterDie c = d.toNat ∧ s.clusterPartition c = l.part) →
         ∃ y ∈ t.launches, y.id = l.id ∧ y.st = .finished ∧ y.status = 0xF500000000000000) ∧
       ∀ y ∈ t.xfers, dieOf y.iss.core ≠ d)) ∧
    (∀ (i : Instr) (cold : Bool), (i = .diectlWarmReset d ∧ cold = false) ∨ (i = .diectlColdReset d ∧ cold = true) →
      (¬(up ∧ x.powered = true) → exec i s = .next s) ∧
      (up → x.powered = true → ∃ t, exec i s = .next t ∧ DieReset s t d cold)) ∧
    (let can := up ∧ x.powered = true ∧ x.fenced = true ∧ x.inReset = false ∧ x.trip = false
     (¬can → exec (.diectlRejoin d) s = .next s) ∧
     (can → ∃ t, exec (.diectlRejoin d) s = .next t ∧ SameMachine s t ∧ t.island.devevt.getLsbD 1 = true ∧
       t.die d = { x with fenced := false, joined := true, beat := s.now } ∧ ∀ e, e ≠ d → t.die e = s.die e)) ∧
    (up → v.getLsbD 18 = true → ∃ t, exec (.bbctlTrigset v) s = .next t ∧ SameMachine s t ∧
      t.island.trigen = v.extractLsb' 24 8 ∧ (v.getLsbD 27 = true → t.island.frozen = true) ∧
      (v.getLsbD 27 = false → t.island.frozen = (i.frozen && !v.getLsbD 63) ∧ t.island.next = i.next)) ∧
    (up → v.getLsbD 63 = true → v.getLsbD 18 = false → exec (.bbctlFrozenClear v) s =
      .next { s with island := { i with frozen := false, trigen := v.extractLsb' 24 8 } }) ∧
    (up → exec (.attestRequest v) s = .next { s with island := { i with asked := true } }) ∧
    (up → i.asked = true →
      let body := toBytes 1 4 ++ i.nonce.toList.flatMap (fun (n : Word) => toBytes n.toNat 8) ++
        (Config.sha512 Config.identityKey).toList.take 32 ++ i.mr.toList.flatMap (fun r => r.toList) ++
        i.versions.toList.flatMap (fun (n : BitVec 16) => toBytes n.toNat 2)
      ∃ t, exec .attestReportReady s = .next t ∧ SameMachine s t ∧ t.island.ready = true ∧
        t.island.asked = false ∧ t.island.mr = i.mr ∧ t.island.report.length = 1102 ∧
        t.island.report = body ++ (Config.sign (Config.sha512 body)).toList) ∧
    (let admitted := ((w = .host ∧ up ∧ i.hostUp = true) ∨ w = .supervisor 0) ∧ off.toNat % 8 = 0 ∧
        s.deviceAbsent off.toNat = false
     (¬admitted → exec (.registerWrite off v w) s = .next s) ∧
     (admitted →
       (∀ q : BitVec 10, off.toNat = 0x02000000 + 64 * q.toNat → v.toNat % 256 = 0 → v.extractLsb' 48 3 = 0 →
         exec (.registerWrite off v w) s = .next (s.setQueue q { s.queue q with lqbase := v })) ∧
       (∀ q : BitVec 10, off.toNat = 0x02000008 + 64 * q.toNat → v.extractLsb' 0 5 ≤ 16 → v.extractLsb' 8 6 ≤ 62 →
         exec (.registerWrite off v w) s = .next (s.setQueue q { s.queue q with lqctl := v &&& 0x80000000003F3F1F })) ∧
       (off.toNat = 0x08000000 + 4096 * d.toNat → 200 ≤ (v.extractLsb' 0 12).toNat → (v.extractLsb' 0 12).toNat ≤ 1200 →
         exec (.registerWrite off v w) s = .next (s.setDie d { x with pwrlim := v.extractLsb' 0 12 })) ∧
       (off.toNat = 0x05000018 → exec (.registerWrite off v w) s =
         .next { s with island := { i with devevt := i.devevt &&& ~~~(v.setWidth 6) } }) ∧
       (off.toNat = 0x05000008 → exec (.registerWrite off v w) s =
         .next { s with agenda := diectlMoves v ++ s.agenda })))

/-- R395, R397 to R401, R403, R404, R406 to R409: what each event of the dies, the island and the board does when it is
enabled. That a measurement register starts from zero at island power-up is the model's choice (log 5), and so is that viral ends when
the host link trains (log 25). -/
def Obligations.BoardEvents : Prop :=
  ∀ (s : State) (d : BitVec 2) (core : CoreId) (ctx : CtxId) (ok alt : Bool) (steps : BitVec 12),
    let x := s.die d
    let i := s.island
    let up := s.islandUp = true
    let answers := x.powered = true ∧ x.fenced = false ∧ x.inReset = false
    (up → answers → exec (.dieHeartbeat d) s = .next (s.setDie d { x with beat := s.now })) ∧
    (up → answers → x.beat + 700000 ≤ s.now → ∃ t, exec (.heartbeatTimeout d) s = .next t ∧
      t.die d = { x with fenced := true, joined := false } ∧ (i.trigen.getLsbD 0 = true → t.island.frozen = true)) ∧
    (up → answers → s.now < x.beat + 700000 → exec (.heartbeatTimeout d) s = .next s) ∧
    (up → x.powered = true → x.trip = false → x.inReset = true ∨ (x.joined = false ∧ x.fenced = false) →
      let b := 13 + 12 * d.toNat
      let rom : Fin 5 := ⟨d.toNat + 1, by omega⟩
      let img := Config.image s.tick (d.toNat + 1)
      let fails (t : State) : Prop := (t.die d).fenced = true ∧ (t.die d).joined = x.joined ∧ startByte t b = 2 ∧
        t.island.devevt.getLsbD 5 = true
      ((∀ j < 12, steps.getLsbD j = true ∧ ranLast s (b + j) ≠ 2 ∧ ranLast s (b + j) ≠ 5) →
        ∃ t, exec (.dieStartSteps d steps) s = .next t ∧ t.mem = s.mem ∧ t.cores = s.cores ∧
          (i.accepts rom img = false → fails t) ∧ (i.accepts rom img = true →
          (t.die d).fenced = false ∧ (t.die d).joined = true ∧ (t.die d).inReset = false ∧ (t.die d).off = x.off.filter
            (fun c => !((List.range 8).any fun j => (testClusters d j).contains c)) ∧
          (∀ j < 12, startByte t (b + j) = 1) ∧ t.island.devevt.getLsbD 1 = true ∧
          t.island.mr.get ⟨d.toNat + 1, by omega⟩ =
            Config.sha512 ((i.mr.get ⟨d.toNat + 1, by omega⟩).toList ++ (Config.sha512 img.bytes).toList) ∧
          t.island.versions.get rom = img.version ∧ (img.newMin = none → t.island.fused.get rom = i.fused.get rom) ∧
          ∀ v, img.newMin = some v → (t.island.fused.get rom).toNat = max (i.fused.get rom).toNat v.toNat)) ∧
      (steps.getLsbD 0 = false → ∃ t, exec (.dieStartSteps d steps) s = .next t ∧ t.mem = s.mem ∧ t.cores = s.cores ∧ fails t)) ∧
    (i.st = .off → ranLast s 0 ≠ 2 → ranLast s 0 ≠ 5 →
      let img := Config.image s.tick 0
      let runs := ok = true ∧ i.accepts 0 img = true
      ∃ t, exec (.islandPowerUp ok alt) s = .next t ∧ t.mem = s.mem ∧
      t.cores = s.cores ∧ (∀ e, (t.die e).joined = false) ∧ t.island.pkgValid = false ∧ t.island.hostUp = false ∧
      (runs → t.island.st = .alone ∧ startByte t 0 = 1 ∧ t.island.versions.get 0 = img.version ∧
        t.island.mr.get 0 = Config.sha512 (List.replicate 64 0 ++ (Config.sha512 img.bytes).toList)) ∧
      (¬runs → t.island.st = .off ∧ startByte t 0 = 2)) ∧
    (i.st = .off → ranLast s 0 = 2 ∨ ranLast s 0 = 5 → ∃ t, exec (.islandPowerUp ok alt) s = .next t ∧
      startByte t 0 = if alt && i.accepts 0 (Config.image s.tick 5) then 4 else 5) ∧
    (∃ t, exec .islandPowerOff s = .next t ∧ SameBytes s t ∧ t.cores = s.cores ∧ t.island.st = .off ∧
      t.island.records = [] ∧ t.island.next = 0 ∧ t.island.starts = i.starts ∧ (∀ e, (t.die e).joined = false) ∧
      (∀ l : Link, (t.links.get l).up = false) ∧ ∀ r ∈ t.requests, r.ans ≠ .waiting ∧ r.ans ≠ .empty) ∧
    (up → ∃ t, exec .islandReset s = .next t ∧ SameBytes s t ∧ t.cores = s.cores ∧ t.island.st = .reset ∧
      t.island.frozen = i.frozen ∧ t.island.starts = i.starts ∧ t.island.mr = i.mr ∧ t.island.orphcnt = 0 ∧
      t.island.devevt = 0 ∧ (i.frozen = false → t.island.next = i.next + 1) ∧ (∀ e, (t.die e).joined = false) ∧
      (∀ l : Link, (t.links.get l).up = false) ∧ ∀ r ∈ t.requests, r.ans ≠ .waiting ∧ r.ans ≠ .empty) ∧
    (i.st = .reset → ranLast s 0 ≠ 2 → ranLast s 0 ≠ 5 → ∃ t, exec (.islandResetComplete ok) s = .next t ∧ SameMachine s t ∧
      let runs : Bool := ok && i.accepts 0 (Config.image s.tick 0)
      t.island.st = (if runs then .alone else .reset) ∧ startByte t 0 = (if runs then 1 else 2) ∧
        (runs = false → t.island.devevt.getLsbD 5 = true)) ∧
    (x.powered = false → exec (.diePowerEnable d) s =
      .next (s.setDie d { x with powered := true, inReset := true, joined := false })) ∧
    (x.powered = true → ∃ t, exec (.diePowerOff d) s = .next t ∧ (t.die d).powered = false ∧ (t.die d).joined = false ∧
      (t.die d).fenced = false ∧ (∀ c, dieOf c = d → t.core c = { pkey := (s.part (s.partOf c)).key }) ∧
      ∀ k, keyDie k = some d → t.mem.byte k = 0) ∧
    (∃ t, exec .pwrbrakeAssert s = .next t ∧ SameMachine s t ∧ t.dies = s.dies ∧ t.island.brake = true) ∧
    exec .pwrbrakeRelease s = .next { s with island := { i with brake := false } } ∧
    (∀ above, answers → x.throttled ≠ above → ∃ t, exec (.powerLimitThrottle d above) s = .next t ∧ SameMachine s t ∧
      t.die d = { x with throttled := above }) ∧
    (x.powered = true → x.trip = false → ∃ t, exec (.thermalTrip d) s = .next t ∧ DieReset s t d false ∧
      (t.die d).trip = true ∧ (i.trigen.getLsbD 2 = true → t.island.frozen = true)) ∧
    exec (.thermalRecover d) s = .next (s.setDie d { x with trip := false }) ∧
    (∀ loc p key, (∃ addr, loc = .word addr ∧ place s 0 (addr / 8 * 8) = .ok p) ∨ (∃ heap off c, loc = .welt heap off ∧
        (s.heap heap).conf = some c ∧ luPlace s c.iss.root ((c.base.toNat + off) / 8 * 8) .read = some p) →
      p.key = some key → (∀ b, p = .host b → (Assoc.get? s.mem.hostLines (b / 64)).isSome = true) →
      (∃ t, exec (.softError loc true) s = .next t ∧ SameMachine s t) ∧
      ∃ t, exec (.softError loc false) s = .next t ∧ SameBytes s t ∧ t.cores = s.cores ∧
        t.mem.poison = addKey (key / 8) s.mem.poison ∧ t.island.devevt.getLsbD 4 = true) ∧
    (∀ tile w, ∃ t, exec (.softError (.accumulator core tile w) false) s = .next t ∧ t.mem = s.mem ∧
      (∀ c, c ≠ core → t.core c = s.core c) ∧ t.island.devevt.getLsbD 4 = true ∧
      let y := s.core core
      let bad := addKey (w % 4096 / 2) (y.accPoison.get ⟨tile.toNat, tile.isLt⟩)
      t.core core = { y with accPoison := y.accPoison.set tile.toNat bad tile.isLt }) ∧
    (s.coreUp core = true → ∃ t, exec (.softError (.context core ctx) false) s = .next t ∧ t.mem = s.mem ∧
      (t.ctxAt core ctx).status = .held ∧ (t.ctxAt core ctx).ctl.cause = 0x712 ∧
      SameRegs (s.ctxAt core ctx) (t.ctxAt core ctx) ∧ (i.trigen.getLsbD 1 = true → t.island.frozen = true)) ∧
    (up → x.powered = true → x.fenced = false →
      (∃ t, exec (.softError (.directory d) false) s = .next t ∧ t.die d = { x with fenced := true, joined := false } ∧
        (i.trigen.getLsbD 1 = true → t.island.frozen = true)) ∧
      ∃ t, exec (.dieLinkFailure d) s = .next t ∧ t.die d = { x with fenced := true, joined := false } ∧
        t.island.devevt.getLsbD 4 = true ∧ t.island.devevt.getLsbD 0 = true) ∧
    (up → ∃ t, exec .islandFirmwareFault s = .next t ∧ SameMachine s t ∧ t.dies = s.dies ∧
      (i.trigen.getLsbD 4 = true → t.island.frozen = true) ∧ (i.trigen.getLsbD 4 = false → t.island =
        { i with viral := t.island.viral, records := t.island.records, next := t.island.next, wrap := t.island.wrap }) ∧
      (i.frozen = false → ∃ r, Assoc.get? t.island.records i.next.toNat = some r ∧ r.kind = 1 ∧ r.src = 4)) ∧
    (up → i.hostUp = false → ∃ t, exec .hostLinkTrained s = .next t ∧ SameMachine s t ∧ t.dies = s.dies ∧
      t.island.hostUp = true ∧ t.island.viral = false)

/-- R378 to R380, R402 and R404: what each event of the fabric does when it is enabled: sequence numbers, replays, links
that come and go, and requests without an endpoint. -/
def Obligations.FabricEvents : Prop :=
  ∀ (s : State) (l : Link) (f : BitVec 576) (ack : BitVec 12) (a b : BitVec 4) (c : BitVec 5) (k : Nat),
    let x := s.links.get l
    let up := s.islandUp = true
    let crc := crc32c (toBytes f.toNat 68) = (f.extractLsb' 544 32).toNat
    let seq := f.extractLsb' 532 12
    let kind := f.extractLsb' 528 2
    let acked (y : FabricLink) (n : BitVec 12) (l : List (BitVec 576)) : Prop := l <:+ y.sentFlits ∧
      ((∀ g ∈ y.sentFlits, (g.extractLsb' 532 12) ≠ n) → l = y.sentFlits) ∧
      ∀ pre g post, y.sentFlits = pre ++ g :: post → (g.extractLsb' 532 12) = n → (∀ h ∈ pre, (h.extractLsb' 532 12) ≠ n) → l = post
    let setLink (y : FabricLink) : State := { s with links := s.links.set l.val y l.isLt }
    (up → x.up = true → ¬crc ∨ (kind ≠ 2 ∧ seq ≠ x.rxSeq) →
      exec (.fabricFlitReceive l f) s = .next (setLink { x with nak := some (x.rxSeq - 1) })) ∧
    (up → x.up = true → crc → kind = 1 ∨ kind = 3 → seq = x.rxSeq → s.stranded = false →
      ∃ r y, acked x (f.extractLsb' 512 12) r ∧ exec (.fabricFlitReceive l f) s = .next (setLink y) ∧ y.up = true ∧
        y.rxSeq = x.rxSeq + 1 ∧ y.txSeq = x.txSeq ∧ y.nak = none ∧ y.sentFlits = r ∧ y.backlog = x.backlog ∧
        (kind = 3 → y.used = x.used) ∧ ∀ j, y.used.get j ≤ x.used.get j) ∧
    (up → x.up = true → crc → kind = 0 → seq = x.rxSeq → (f.extractLsb' 115 13) = s.pkg →
      ∃ t, exec (.fabricFlitReceive l f) s = .next t ∧ (Config.flitIsMessage s.tick = true →
        (t.links.get l).rxSeq = x.rxSeq + 1 ∧ ∃ m : Flight, s.mesh ++ [m] <+: t.mesh ∧
          m.pkg = some (f.extractLsb' 51 13) ∧ m.msg.desc = f.extractLsb' 64 64 ∧
          m.msg.src.getLsbD 35 = false ∧ (∀ j, j ≠ 35 → m.msg.src.getLsbD j = (f.extractLsb' 0 64).getLsbD j) ∧
          ∀ j : Fin 6, m.msg.pay.get j = f.extractLsb' (128 + 64 * j.val) 64)) ∧
    (x.up = true → ∃ t r, acked x ack r ∧ exec (.fabricNakReplay l ack) s = .next t ∧ t.mem = s.mem ∧ t.cores = s.cores ∧
      (r ≠ [] → r.length = x.sentFlits.length → x.replays + 1 < 16 →
        t = { setLink { x with replays := x.replays + 1 } with island := t.island } ∧ (up → s.island.frozen = false →
          ∃ g, Assoc.get? t.island.records s.island.next.toNat = some g ∧ g.kind = 5 ∧ g.src = 5)) ∧
      (r.length = x.sentFlits.length → 15 ≤ x.replays → r ≠ [] → (t.links.get l).up = false ∧ t.island.devevt.getLsbD 2 = true)) ∧
    (let step := l.val + 1
     let skipped := startByte s step = 3 ∨ (startByte s step = 0 ∧ (ranLast s step = 2 ∨ ranLast s step = 5))
     (skipped → exec (.fabricLinkUp l a b c) s = .next s) ∧
     (up → x.up = false → c.toNat < 18 → ¬skipped → (∀ m, m ≠ l → (s.links.get m).backlog = []) →
      ∃ t, exec (.fabricLinkUp l a b c) s = .next t ∧ SameMachine s t ∧
      (t.links.get l).up = true ∧ (t.links.get l).rxSeq = 0 ∧
      (t.links.get l).sentFlits.length + (t.links.get l).backlog.length = x.backlog.length ∧
      (x.backlog = [] → t.links.get l = { up := true, own := x.own }) ∧ (∀ m, m ≠ l → t.links.get m = s.links.get m) ∧
      t.island.devevt.getLsbD 2 = true ∧
      startByte t step = (if startByte s step = 0 then 1 else startByte s step) ∧ t.island.pkgValid = true ∧
      (s.island.pkgValid = false → t.island.x = a ∧ t.island.y = b ∧ t.island.z = c) ∧
      (s.island.pkgValid = true → t.island.x = s.island.x ∧ t.island.y = s.island.y ∧ t.island.z = s.island.z))) ∧
    (x.up = true → ∃ t, exec (.fabricLinkDown l) s = .next t ∧ t.mem = s.mem ∧ t.cores = s.cores ∧ t.launches = s.launches ∧
      s.mesh <+: t.mesh ∧ (t.links.get l).up = false ∧ (t.links.get l).sentFlits = [] ∧ t.island.devevt.getLsbD 2 = true ∧
      (s.stranded = false →
        let other := (List.finRange 12).find? fun j : Link => j.val / 4 ≠ l.val / 4 && (s.links.get j).up
        (other = none → x.sentFlits ≠ [] → (t.links.get l).backlog = [] ∧ ∃ ns, t.mesh = s.mesh ++ ns ∧
          ns.length = x.own.length ∧ ∀ m ∈ ns, m.notice = true ∧ m.msg.cls = 1) ∧
        ∀ j, other = some j → ∃ n ≤ x.sentFlits.length, SameMachine s t ∧ (t.links.get l).backlog = x.sentFlits.drop n ∧
          (t.links.get j).sentFlits.map (fun g => (g.extractLsb' 0 512)) =
            ((s.links.get j).sentFlits ++ x.sentFlits.take n).map (fun g => g.extractLsb' 0 512) ∧
          ∀ g, x.sentFlits[n]? = some g → t.credit j ((Way.mk j true none true).class (g.extractLsb' 530 2).toNat) = false)) ∧
    (∀ r, s.requests[k]? = some r → r.ans = .waiting →
      let absent (i : Instr) : Prop := ∃ t, exec i s = .next t ∧ t = { s with
          requests := setAt s.requests k { r with ans := .absent }, late := s.late + 1
          mem := { s.mem with pending := t.mem.pending } } ∧
        Assoc.getD t.mem.pending r.line 0 = Assoc.getD s.mem.pending r.line 0 - (if r.marks then 1 else 0)
      (r.host = false → r.since + 5600000 ≤ s.now → absent (.fabricRequestTimeout k)) ∧
      (r.host = true ∨ s.now < r.since + 5600000 → exec (.fabricRequestTimeout k) s = .next s) ∧
      (¬up ∨ (r.host = true ∧ (s.island.hostUp = false ∨ s.island.flit256 = false)) → absent (.endpointAbsentReply false k))) ∧
    (up → 0 < s.late → exec (.endpointAbsentReply true k) s =
      .next { s with late := s.late - 1, island := { s.island with orphcnt := s.island.orphcnt + 1 } }) ∧
    (s.late = 0 → exec (.endpointAbsentReply true k) s = .next s)
end

