-- ==== Sys2Proof/Laws/State.lean ====
section
/-! SUPPORT. One lemma per field per update of the state: an update leaves every other field as it was, and a field read
after its own update is what was written. No later proof unfolds a record update. -/

namespace Sys2Proof.Machine

/-! ## State -/

@[simp] theorem State.setCore_forges (s : State) (c : CoreId) (x : Core) : (s.setCore c x).forges = s.forges := rfl
@[simp] theorem State.setCore_mem (s : State) (c : CoreId) (x : Core) : (s.setCore c x).mem = s.mem := rfl
@[simp] theorem State.setCore_tlb (s : State) (c : CoreId) (x : Core) : (s.setCore c x).tlb = s.tlb := rfl
@[simp] theorem State.setCore_mesh (s : State) (c : CoreId) (x : Core) : (s.setCore c x).mesh = s.mesh := rfl
@[simp] theorem State.setCore_vecs (s : State) (c : CoreId) (x : Core) : (s.setCore c x).vecs = s.vecs := rfl
@[simp] theorem State.setCore_credits (s : State) (c : CoreId) (x : Core) : (s.setCore c x).credits = s.credits := rfl
@[simp] theorem State.setCore_bank (s : State) (c : CoreId) (x : Core) : (s.setCore c x).bank = s.bank := rfl
@[simp] theorem State.setCore_ctlq (s : State) (c : CoreId) (x : Core) : (s.setCore c x).ctlq = s.ctlq := rfl
@[simp] theorem State.setCore_steals (s : State) (c : CoreId) (x : Core) : (s.setCore c x).steals = s.steals := rfl
@[simp] theorem State.setCore_misses (s : State) (c : CoreId) (x : Core) : (s.setCore c x).misses = s.misses := rfl
@[simp] theorem State.setCore_xfers (s : State) (c : CoreId) (x : Core) : (s.setCore c x).xfers = s.xfers := rfl
@[simp] theorem State.setCore_ranges (s : State) (c : CoreId) (x : Core) : (s.setCore c x).ranges = s.ranges := rfl
@[simp] theorem State.setCore_shoots (s : State) (c : CoreId) (x : Core) : (s.setCore c x).shoots = s.shoots := rfl
@[simp] theorem State.setCore_partops (s : State) (c : CoreId) (x : Core) : (s.setCore c x).partops = s.partops := rfl
@[simp] theorem State.setCore_heaps (s : State) (c : CoreId) (x : Core) : (s.setCore c x).heaps = s.heaps := rfl
@[simp] theorem State.setCore_ways (s : State) (c : CoreId) (x : Core) : (s.setCore c x).ways = s.ways := rfl
@[simp] theorem State.setCore_parts (s : State) (c : CoreId) (x : Core) : (s.setCore c x).parts = s.parts := rfl
@[simp] theorem State.setCore_clusterPart (s : State) (c : CoreId) (x : Core) : (s.setCore c x).clusterPart = s.clusterPart := rfl
@[simp] theorem State.setCore_queues (s : State) (c : CoreId) (x : Core) : (s.setCore c x).queues = s.queues := rfl
@[simp] theorem State.setCore_launches (s : State) (c : CoreId) (x : Core) : (s.setCore c x).launches = s.launches := rfl
@[simp] theorem State.setCore_nextLaunch (s : State) (c : CoreId) (x : Core) : (s.setCore c x).nextLaunch = s.nextLaunch := rfl
@[simp] theorem State.setCore_eligibleClock (s : State) (c : CoreId) (x : Core) : (s.setCore c x).eligibleClock = s.eligibleClock := rfl
@[simp] theorem State.setCore_dies (s : State) (c : CoreId) (x : Core) : (s.setCore c x).dies = s.dies := rfl
@[simp] theorem State.setCore_island (s : State) (c : CoreId) (x : Core) : (s.setCore c x).island = s.island := rfl
@[simp] theorem State.setCore_links (s : State) (c : CoreId) (x : Core) : (s.setCore c x).links = s.links := rfl
@[simp] theorem State.setCore_requests (s : State) (c : CoreId) (x : Core) : (s.setCore c x).requests = s.requests := rfl
@[simp] theorem State.setCore_late (s : State) (c : CoreId) (x : Core) : (s.setCore c x).late = s.late := rfl
@[simp] theorem State.setCore_msix (s : State) (c : CoreId) (x : Core) : (s.setCore c x).msix = s.msix := rfl
@[simp] theorem State.setCore_agenda (s : State) (c : CoreId) (x : Core) : (s.setCore c x).agenda = s.agenda := rfl
@[simp] theorem State.setCore_cur (s : State) (c : CoreId) (x : Core) : (s.setCore c x).cur = s.cur := rfl
@[simp] theorem State.setCore_tick (s : State) (c : CoreId) (x : Core) : (s.setCore c x).tick = s.tick := rfl
@[simp] theorem State.setCore_now (s : State) (c : CoreId) (x : Core) : (s.setCore c x).now = s.now := rfl

@[simp] theorem State.setCtxAt_forges (s : State) (c : CoreId) (k : CtxId) (x : Ctx) : (s.setCtxAt c k x).forges = s.forges := rfl
@[simp] theorem State.setCtxAt_mem (s : State) (c : CoreId) (k : CtxId) (x : Ctx) : (s.setCtxAt c k x).mem = s.mem := rfl
@[simp] theorem State.setCtxAt_tlb (s : State) (c : CoreId) (k : CtxId) (x : Ctx) : (s.setCtxAt c k x).tlb = s.tlb := rfl
@[simp] theorem State.setCtxAt_mesh (s : State) (c : CoreId) (k : CtxId) (x : Ctx) : (s.setCtxAt c k x).mesh = s.mesh := rfl
@[simp] theorem State.setCtxAt_vecs (s : State) (c : CoreId) (k : CtxId) (x : Ctx) : (s.setCtxAt c k x).vecs = s.vecs := rfl
@[simp] theorem State.setCtxAt_credits (s : State) (c : CoreId) (k : CtxId) (x : Ctx) : (s.setCtxAt c k x).credits = s.credits := rfl
@[simp] theorem State.setCtxAt_bank (s : State) (c : CoreId) (k : CtxId) (x : Ctx) : (s.setCtxAt c k x).bank = s.bank := rfl
@[simp] theorem State.setCtxAt_ctlq (s : State) (c : CoreId) (k : CtxId) (x : Ctx) : (s.setCtxAt c k x).ctlq = s.ctlq := rfl
@[simp] theorem State.setCtxAt_steals (s : State) (c : CoreId) (k : CtxId) (x : Ctx) : (s.setCtxAt c k x).steals = s.steals := rfl
@[simp] theorem State.setCtxAt_misses (s : State) (c : CoreId) (k : CtxId) (x : Ctx) : (s.setCtxAt c k x).misses = s.misses := rfl
@[simp] theorem State.setCtxAt_xfers (s : State) (c : CoreId) (k : CtxId) (x : Ctx) : (s.setCtxAt c k x).xfers = s.xfers := rfl
@[simp] theorem State.setCtxAt_ranges (s : State) (c : CoreId) (k : CtxId) (x : Ctx) : (s.setCtxAt c k x).ranges = s.ranges := rfl
@[simp] theorem State.setCtxAt_shoots (s : State) (c : CoreId) (k : CtxId) (x : Ctx) : (s.setCtxAt c k x).shoots = s.shoots := rfl
@[simp] theorem State.setCtxAt_partops (s : State) (c : CoreId) (k : CtxId) (x : Ctx) : (s.setCtxAt c k x).partops = s.partops := rfl
@[simp] theorem State.setCtxAt_heaps (s : State) (c : CoreId) (k : CtxId) (x : Ctx) : (s.setCtxAt c k x).heaps = s.heaps := rfl
@[simp] theorem State.setCtxAt_ways (s : State) (c : CoreId) (k : CtxId) (x : Ctx) : (s.setCtxAt c k x).ways = s.ways := rfl
@[simp] theorem State.setCtxAt_parts (s : State) (c : CoreId) (k : CtxId) (x : Ctx) : (s.setCtxAt c k x).parts = s.parts := rfl
@[simp] theorem State.setCtxAt_clusterPart (s : State) (c : CoreId) (k : CtxId) (x : Ctx) : (s.setCtxAt c k x).clusterPart = s.clusterPart := rfl
@[simp] theorem State.setCtxAt_queues (s : State) (c : CoreId) (k : CtxId) (x : Ctx) : (s.setCtxAt c k x).queues = s.queues := rfl
@[simp] theorem State.setCtxAt_launches (s : State) (c : CoreId) (k : CtxId) (x : Ctx) : (s.setCtxAt c k x).launches = s.launches := rfl
@[simp] theorem State.setCtxAt_nextLaunch (s : State) (c : CoreId) (k : CtxId) (x : Ctx) : (s.setCtxAt c k x).nextLaunch = s.nextLaunch := rfl
@[simp] theorem State.setCtxAt_eligibleClock (s : State) (c : CoreId) (k : CtxId) (x : Ctx) : (s.setCtxAt c k x).eligibleClock = s.eligibleClock := rfl
@[simp] theorem State.setCtxAt_dies (s : State) (c : CoreId) (k : CtxId) (x : Ctx) : (s.setCtxAt c k x).dies = s.dies := rfl
@[simp] theorem State.setCtxAt_island (s : State) (c : CoreId) (k : CtxId) (x : Ctx) : (s.setCtxAt c k x).island = s.island := rfl
@[simp] theorem State.setCtxAt_links (s : State) (c : CoreId) (k : CtxId) (x : Ctx) : (s.setCtxAt c k x).links = s.links := rfl
@[simp] theorem State.setCtxAt_requests (s : State) (c : CoreId) (k : CtxId) (x : Ctx) : (s.setCtxAt c k x).requests = s.requests := rfl
@[simp] theorem State.setCtxAt_late (s : State) (c : CoreId) (k : CtxId) (x : Ctx) : (s.setCtxAt c k x).late = s.late := rfl
@[simp] theorem State.setCtxAt_msix (s : State) (c : CoreId) (k : CtxId) (x : Ctx) : (s.setCtxAt c k x).msix = s.msix := rfl
@[simp] theorem State.setCtxAt_agenda (s : State) (c : CoreId) (k : CtxId) (x : Ctx) : (s.setCtxAt c k x).agenda = s.agenda := rfl
@[simp] theorem State.setCtxAt_cur (s : State) (c : CoreId) (k : CtxId) (x : Ctx) : (s.setCtxAt c k x).cur = s.cur := rfl
@[simp] theorem State.setCtxAt_tick (s : State) (c : CoreId) (k : CtxId) (x : Ctx) : (s.setCtxAt c k x).tick = s.tick := rfl
@[simp] theorem State.setCtxAt_now (s : State) (c : CoreId) (k : CtxId) (x : Ctx) : (s.setCtxAt c k x).now = s.now := rfl

@[simp] theorem State.setMe_forges (s : State) (x : Ctx) : (s.setMe x).forges = s.forges := rfl
@[simp] theorem State.setMe_mem (s : State) (x : Ctx) : (s.setMe x).mem = s.mem := rfl
@[simp] theorem State.setMe_tlb (s : State) (x : Ctx) : (s.setMe x).tlb = s.tlb := rfl
@[simp] theorem State.setMe_mesh (s : State) (x : Ctx) : (s.setMe x).mesh = s.mesh := rfl
@[simp] theorem State.setMe_vecs (s : State) (x : Ctx) : (s.setMe x).vecs = s.vecs := rfl
@[simp] theorem State.setMe_credits (s : State) (x : Ctx) : (s.setMe x).credits = s.credits := rfl
@[simp] theorem State.setMe_bank (s : State) (x : Ctx) : (s.setMe x).bank = s.bank := rfl
@[simp] theorem State.setMe_ctlq (s : State) (x : Ctx) : (s.setMe x).ctlq = s.ctlq := rfl
@[simp] theorem State.setMe_steals (s : State) (x : Ctx) : (s.setMe x).steals = s.steals := rfl
@[simp] theorem State.setMe_misses (s : State) (x : Ctx) : (s.setMe x).misses = s.misses := rfl
@[simp] theorem State.setMe_xfers (s : State) (x : Ctx) : (s.setMe x).xfers = s.xfers := rfl
@[simp] theorem State.setMe_ranges (s : State) (x : Ctx) : (s.setMe x).ranges = s.ranges := rfl
@[simp] theorem State.setMe_shoots (s : State) (x : Ctx) : (s.setMe x).shoots = s.shoots := rfl
@[simp] theorem State.setMe_partops (s : State) (x : Ctx) : (s.setMe x).partops = s.partops := rfl
@[simp] theorem State.setMe_heaps (s : State) (x : Ctx) : (s.setMe x).heaps = s.heaps := rfl
@[simp] theorem State.setMe_ways (s : State) (x : Ctx) : (s.setMe x).ways = s.ways := rfl
@[simp] theorem State.setMe_parts (s : State) (x : Ctx) : (s.setMe x).parts = s.parts := rfl
@[simp] theorem State.setMe_clusterPart (s : State) (x : Ctx) : (s.setMe x).clusterPart = s.clusterPart := rfl
@[simp] theorem State.setMe_queues (s : State) (x : Ctx) : (s.setMe x).queues = s.queues := rfl
@[simp] theorem State.setMe_launches (s : State) (x : Ctx) : (s.setMe x).launches = s.launches := rfl
@[simp] theorem State.setMe_nextLaunch (s : State) (x : Ctx) : (s.setMe x).nextLaunch = s.nextLaunch := rfl
@[simp] theorem State.setMe_eligibleClock (s : State) (x : Ctx) : (s.setMe x).eligibleClock = s.eligibleClock := rfl
@[simp] theorem State.setMe_dies (s : State) (x : Ctx) : (s.setMe x).dies = s.dies := rfl
@[simp] theorem State.setMe_island (s : State) (x : Ctx) : (s.setMe x).island = s.island := rfl
@[simp] theorem State.setMe_links (s : State) (x : Ctx) : (s.setMe x).links = s.links := rfl
@[simp] theorem State.setMe_requests (s : State) (x : Ctx) : (s.setMe x).requests = s.requests := rfl
@[simp] theorem State.setMe_late (s : State) (x : Ctx) : (s.setMe x).late = s.late := rfl
@[simp] theorem State.setMe_msix (s : State) (x : Ctx) : (s.setMe x).msix = s.msix := rfl
@[simp] theorem State.setMe_agenda (s : State) (x : Ctx) : (s.setMe x).agenda = s.agenda := rfl
@[simp] theorem State.setMe_cur (s : State) (x : Ctx) : (s.setMe x).cur = s.cur := rfl
@[simp] theorem State.setMe_tick (s : State) (x : Ctx) : (s.setMe x).tick = s.tick := rfl
@[simp] theorem State.setMe_now (s : State) (x : Ctx) : (s.setMe x).now = s.now := rfl

@[simp] theorem State.setHere_forges (s : State) (x : Core) : (s.setHere x).forges = s.forges := rfl
@[simp] theorem State.setHere_mem (s : State) (x : Core) : (s.setHere x).mem = s.mem := rfl
@[simp] theorem State.setHere_tlb (s : State) (x : Core) : (s.setHere x).tlb = s.tlb := rfl
@[simp] theorem State.setHere_mesh (s : State) (x : Core) : (s.setHere x).mesh = s.mesh := rfl
@[simp] theorem State.setHere_vecs (s : State) (x : Core) : (s.setHere x).vecs = s.vecs := rfl
@[simp] theorem State.setHere_credits (s : State) (x : Core) : (s.setHere x).credits = s.credits := rfl
@[simp] theorem State.setHere_bank (s : State) (x : Core) : (s.setHere x).bank = s.bank := rfl
@[simp] theorem State.setHere_ctlq (s : State) (x : Core) : (s.setHere x).ctlq = s.ctlq := rfl
@[simp] theorem State.setHere_steals (s : State) (x : Core) : (s.setHere x).steals = s.steals := rfl
@[simp] theorem State.setHere_misses (s : State) (x : Core) : (s.setHere x).misses = s.misses := rfl
@[simp] theorem State.setHere_xfers (s : State) (x : Core) : (s.setHere x).xfers = s.xfers := rfl
@[simp] theorem State.setHere_ranges (s : State) (x : Core) : (s.setHere x).ranges = s.ranges := rfl
@[simp] theorem State.setHere_shoots (s : State) (x : Core) : (s.setHere x).shoots = s.shoots := rfl
@[simp] theorem State.setHere_partops (s : State) (x : Core) : (s.setHere x).partops = s.partops := rfl
@[simp] theorem State.setHere_heaps (s : State) (x : Core) : (s.setHere x).heaps = s.heaps := rfl
@[simp] theorem State.setHere_ways (s : State) (x : Core) : (s.setHere x).ways = s.ways := rfl
@[simp] theorem State.setHere_parts (s : State) (x : Core) : (s.setHere x).parts = s.parts := rfl
@[simp] theorem State.setHere_clusterPart (s : State) (x : Core) : (s.setHere x).clusterPart = s.clusterPart := rfl
@[simp] theorem State.setHere_queues (s : State) (x : Core) : (s.setHere x).queues = s.queues := rfl
@[simp] theorem State.setHere_launches (s : State) (x : Core) : (s.setHere x).launches = s.launches := rfl
@[simp] theorem State.setHere_nextLaunch (s : State) (x : Core) : (s.setHere x).nextLaunch = s.nextLaunch := rfl
@[simp] theorem State.setHere_eligibleClock (s : State) (x : Core) : (s.setHere x).eligibleClock = s.eligibleClock := rfl
@[simp] theorem State.setHere_dies (s : State) (x : Core) : (s.setHere x).dies = s.dies := rfl
@[simp] theorem State.setHere_island (s : State) (x : Core) : (s.setHere x).island = s.island := rfl
@[simp] theorem State.setHere_links (s : State) (x : Core) : (s.setHere x).links = s.links := rfl
@[simp] theorem State.setHere_requests (s : State) (x : Core) : (s.setHere x).requests = s.requests := rfl
@[simp] theorem State.setHere_late (s : State) (x : Core) : (s.setHere x).late = s.late := rfl
@[simp] theorem State.setHere_msix (s : State) (x : Core) : (s.setHere x).msix = s.msix := rfl
@[simp] theorem State.setHere_agenda (s : State) (x : Core) : (s.setHere x).agenda = s.agenda := rfl
@[simp] theorem State.setHere_cur (s : State) (x : Core) : (s.setHere x).cur = s.cur := rfl
@[simp] theorem State.setHere_tick (s : State) (x : Core) : (s.setHere x).tick = s.tick := rfl
@[simp] theorem State.setHere_now (s : State) (x : Core) : (s.setHere x).now = s.now := rfl

@[simp] theorem State.withCtl_forges (s : State) (f : Ctl → Ctl) : (s.withCtl f).forges = s.forges := rfl
@[simp] theorem State.withCtl_mem (s : State) (f : Ctl → Ctl) : (s.withCtl f).mem = s.mem := rfl
@[simp] theorem State.withCtl_tlb (s : State) (f : Ctl → Ctl) : (s.withCtl f).tlb = s.tlb := rfl
@[simp] theorem State.withCtl_mesh (s : State) (f : Ctl → Ctl) : (s.withCtl f).mesh = s.mesh := rfl
@[simp] theorem State.withCtl_vecs (s : State) (f : Ctl → Ctl) : (s.withCtl f).vecs = s.vecs := rfl
@[simp] theorem State.withCtl_credits (s : State) (f : Ctl → Ctl) : (s.withCtl f).credits = s.credits := rfl
@[simp] theorem State.withCtl_bank (s : State) (f : Ctl → Ctl) : (s.withCtl f).bank = s.bank := rfl
@[simp] theorem State.withCtl_ctlq (s : State) (f : Ctl → Ctl) : (s.withCtl f).ctlq = s.ctlq := rfl
@[simp] theorem State.withCtl_steals (s : State) (f : Ctl → Ctl) : (s.withCtl f).steals = s.steals := rfl
@[simp] theorem State.withCtl_misses (s : State) (f : Ctl → Ctl) : (s.withCtl f).misses = s.misses := rfl
@[simp] theorem State.withCtl_xfers (s : State) (f : Ctl → Ctl) : (s.withCtl f).xfers = s.xfers := rfl
@[simp] theorem State.withCtl_ranges (s : State) (f : Ctl → Ctl) : (s.withCtl f).ranges = s.ranges := rfl
@[simp] theorem State.withCtl_shoots (s : State) (f : Ctl → Ctl) : (s.withCtl f).shoots = s.shoots := rfl
@[simp] theorem State.withCtl_partops (s : State) (f : Ctl → Ctl) : (s.withCtl f).partops = s.partops := rfl
@[simp] theorem State.withCtl_heaps (s : State) (f : Ctl → Ctl) : (s.withCtl f).heaps = s.heaps := rfl
@[simp] theorem State.withCtl_ways (s : State) (f : Ctl → Ctl) : (s.withCtl f).ways = s.ways := rfl
@[simp] theorem State.withCtl_parts (s : State) (f : Ctl → Ctl) : (s.withCtl f).parts = s.parts := rfl
@[simp] theorem State.withCtl_clusterPart (s : State) (f : Ctl → Ctl) : (s.withCtl f).clusterPart = s.clusterPart := rfl
@[simp] theorem State.withCtl_queues (s : State) (f : Ctl → Ctl) : (s.withCtl f).queues = s.queues := rfl
@[simp] theorem State.withCtl_launches (s : State) (f : Ctl → Ctl) : (s.withCtl f).launches = s.launches := rfl
@[simp] theorem State.withCtl_nextLaunch (s : State) (f : Ctl → Ctl) : (s.withCtl f).nextLaunch = s.nextLaunch := rfl
@[simp] theorem State.withCtl_eligibleClock (s : State) (f : Ctl → Ctl) : (s.withCtl f).eligibleClock = s.eligibleClock := rfl
@[simp] theorem State.withCtl_dies (s : State) (f : Ctl → Ctl) : (s.withCtl f).dies = s.dies := rfl
@[simp] theorem State.withCtl_island (s : State) (f : Ctl → Ctl) : (s.withCtl f).island = s.island := rfl
@[simp] theorem State.withCtl_links (s : State) (f : Ctl → Ctl) : (s.withCtl f).links = s.links := rfl
@[simp] theorem State.withCtl_requests (s : State) (f : Ctl → Ctl) : (s.withCtl f).requests = s.requests := rfl
@[simp] theorem State.withCtl_late (s : State) (f : Ctl → Ctl) : (s.withCtl f).late = s.late := rfl
@[simp] theorem State.withCtl_msix (s : State) (f : Ctl → Ctl) : (s.withCtl f).msix = s.msix := rfl
@[simp] theorem State.withCtl_agenda (s : State) (f : Ctl → Ctl) : (s.withCtl f).agenda = s.agenda := rfl
@[simp] theorem State.withCtl_cur (s : State) (f : Ctl → Ctl) : (s.withCtl f).cur = s.cur := rfl
@[simp] theorem State.withCtl_tick (s : State) (f : Ctl → Ctl) : (s.withCtl f).tick = s.tick := rfl
@[simp] theorem State.withCtl_now (s : State) (f : Ctl → Ctl) : (s.withCtl f).now = s.now := rfl

@[simp] theorem State.setForge_cores (s : State) (f : ForgeId) (x : Forge) : (s.setForge f x).cores = s.cores := rfl
@[simp] theorem State.setForge_mem (s : State) (f : ForgeId) (x : Forge) : (s.setForge f x).mem = s.mem := rfl
@[simp] theorem State.setForge_tlb (s : State) (f : ForgeId) (x : Forge) : (s.setForge f x).tlb = s.tlb := rfl
@[simp] theorem State.setForge_mesh (s : State) (f : ForgeId) (x : Forge) : (s.setForge f x).mesh = s.mesh := rfl
@[simp] theorem State.setForge_vecs (s : State) (f : ForgeId) (x : Forge) : (s.setForge f x).vecs = s.vecs := rfl
@[simp] theorem State.setForge_credits (s : State) (f : ForgeId) (x : Forge) : (s.setForge f x).credits = s.credits := rfl
@[simp] theorem State.setForge_bank (s : State) (f : ForgeId) (x : Forge) : (s.setForge f x).bank = s.bank := rfl
@[simp] theorem State.setForge_ctlq (s : State) (f : ForgeId) (x : Forge) : (s.setForge f x).ctlq = s.ctlq := rfl
@[simp] theorem State.setForge_steals (s : State) (f : ForgeId) (x : Forge) : (s.setForge f x).steals = s.steals := rfl
@[simp] theorem State.setForge_misses (s : State) (f : ForgeId) (x : Forge) : (s.setForge f x).misses = s.misses := rfl
@[simp] theorem State.setForge_xfers (s : State) (f : ForgeId) (x : Forge) : (s.setForge f x).xfers = s.xfers := rfl
@[simp] theorem State.setForge_ranges (s : State) (f : ForgeId) (x : Forge) : (s.setForge f x).ranges = s.ranges := rfl
@[simp] theorem State.setForge_shoots (s : State) (f : ForgeId) (x : Forge) : (s.setForge f x).shoots = s.shoots := rfl
@[simp] theorem State.setForge_partops (s : State) (f : ForgeId) (x : Forge) : (s.setForge f x).partops = s.partops := rfl
@[simp] theorem State.setForge_heaps (s : State) (f : ForgeId) (x : Forge) : (s.setForge f x).heaps = s.heaps := rfl
@[simp] theorem State.setForge_ways (s : State) (f : ForgeId) (x : Forge) : (s.setForge f x).ways = s.ways := rfl
@[simp] theorem State.setForge_parts (s : State) (f : ForgeId) (x : Forge) : (s.setForge f x).parts = s.parts := rfl
@[simp] theorem State.setForge_clusterPart (s : State) (f : ForgeId) (x : Forge) : (s.setForge f x).clusterPart = s.clusterPart := rfl
@[simp] theorem State.setForge_queues (s : State) (f : ForgeId) (x : Forge) : (s.setForge f x).queues = s.queues := rfl
@[simp] theorem State.setForge_launches (s : State) (f : ForgeId) (x : Forge) : (s.setForge f x).launches = s.launches := rfl
@[simp] theorem State.setForge_nextLaunch (s : State) (f : ForgeId) (x : Forge) : (s.setForge f x).nextLaunch = s.nextLaunch := rfl
@[simp] theorem State.setForge_eligibleClock (s : State) (f : ForgeId) (x : Forge) : (s.setForge f x).eligibleClock = s.eligibleClock := rfl
@[simp] theorem State.setForge_dies (s : State) (f : ForgeId) (x : Forge) : (s.setForge f x).dies = s.dies := rfl
@[simp] theorem State.setForge_island (s : State) (f : ForgeId) (x : Forge) : (s.setForge f x).island = s.island := rfl
@[simp] theorem State.setForge_links (s : State) (f : ForgeId) (x : Forge) : (s.setForge f x).links = s.links := rfl
@[simp] theorem State.setForge_requests (s : State) (f : ForgeId) (x : Forge) : (s.setForge f x).requests = s.requests := rfl
@[simp] theorem State.setForge_late (s : State) (f : ForgeId) (x : Forge) : (s.setForge f x).late = s.late := rfl
@[simp] theorem State.setForge_msix (s : State) (f : ForgeId) (x : Forge) : (s.setForge f x).msix = s.msix := rfl
@[simp] theorem State.setForge_agenda (s : State) (f : ForgeId) (x : Forge) : (s.setForge f x).agenda = s.agenda := rfl
@[simp] theorem State.setForge_cur (s : State) (f : ForgeId) (x : Forge) : (s.setForge f x).cur = s.cur := rfl
@[simp] theorem State.setForge_tick (s : State) (f : ForgeId) (x : Forge) : (s.setForge f x).tick = s.tick := rfl
@[simp] theorem State.setForge_now (s : State) (f : ForgeId) (x : Forge) : (s.setForge f x).now = s.now := rfl

@[simp] theorem State.setPart_cores (s : State) (p : BitVec 6) (x : Part) : (s.setPart p x).cores = s.cores := rfl
@[simp] theorem State.setPart_forges (s : State) (p : BitVec 6) (x : Part) : (s.setPart p x).forges = s.forges := rfl
@[simp] theorem State.setPart_mem (s : State) (p : BitVec 6) (x : Part) : (s.setPart p x).mem = s.mem := rfl
@[simp] theorem State.setPart_tlb (s : State) (p : BitVec 6) (x : Part) : (s.setPart p x).tlb = s.tlb := rfl
@[simp] theorem State.setPart_mesh (s : State) (p : BitVec 6) (x : Part) : (s.setPart p x).mesh = s.mesh := rfl
@[simp] theorem State.setPart_vecs (s : State) (p : BitVec 6) (x : Part) : (s.setPart p x).vecs = s.vecs := rfl
@[simp] theorem State.setPart_credits (s : State) (p : BitVec 6) (x : Part) : (s.setPart p x).credits = s.credits := rfl
@[simp] theorem State.setPart_bank (s : State) (p : BitVec 6) (x : Part) : (s.setPart p x).bank = s.bank := rfl
@[simp] theorem State.setPart_ctlq (s : State) (p : BitVec 6) (x : Part) : (s.setPart p x).ctlq = s.ctlq := rfl
@[simp] theorem State.setPart_steals (s : State) (p : BitVec 6) (x : Part) : (s.setPart p x).steals = s.steals := rfl
@[simp] theorem State.setPart_misses (s : State) (p : BitVec 6) (x : Part) : (s.setPart p x).misses = s.misses := rfl
@[simp] theorem State.setPart_xfers (s : State) (p : BitVec 6) (x : Part) : (s.setPart p x).xfers = s.xfers := rfl
@[simp] theorem State.setPart_ranges (s : State) (p : BitVec 6) (x : Part) : (s.setPart p x).ranges = s.ranges := rfl
@[simp] theorem State.setPart_shoots (s : State) (p : BitVec 6) (x : Part) : (s.setPart p x).shoots = s.shoots := rfl
@[simp] theorem State.setPart_partops (s : State) (p : BitVec 6) (x : Part) : (s.setPart p x).partops = s.partops := rfl
@[simp] theorem State.setPart_heaps (s : State) (p : BitVec 6) (x : Part) : (s.setPart p x).heaps = s.heaps := rfl
@[simp] theorem State.setPart_ways (s : State) (p : BitVec 6) (x : Part) : (s.setPart p x).ways = s.ways := rfl
@[simp] theorem State.setPart_clusterPart (s : State) (p : BitVec 6) (x : Part) : (s.setPart p x).clusterPart = s.clusterPart := rfl
@[simp] theorem State.setPart_queues (s : State) (p : BitVec 6) (x : Part) : (s.setPart p x).queues = s.queues := rfl
@[simp] theorem State.setPart_launches (s : State) (p : BitVec 6) (x : Part) : (s.setPart p x).launches = s.launches := rfl
@[simp] theorem State.setPart_nextLaunch (s : State) (p : BitVec 6) (x : Part) : (s.setPart p x).nextLaunch = s.nextLaunch := rfl
@[simp] theorem State.setPart_eligibleClock (s : State) (p : BitVec 6) (x : Part) : (s.setPart p x).eligibleClock = s.eligibleClock := rfl
@[simp] theorem State.setPart_dies (s : State) (p : BitVec 6) (x : Part) : (s.setPart p x).dies = s.dies := rfl
@[simp] theorem State.setPart_island (s : State) (p : BitVec 6) (x : Part) : (s.setPart p x).island = s.island := rfl
@[simp] theorem State.setPart_links (s : State) (p : BitVec 6) (x : Part) : (s.setPart p x).links = s.links := rfl
@[simp] theorem State.setPart_requests (s : State) (p : BitVec 6) (x : Part) : (s.setPart p x).requests = s.requests := rfl
@[simp] theorem State.setPart_late (s : State) (p : BitVec 6) (x : Part) : (s.setPart p x).late = s.late := rfl
@[simp] theorem State.setPart_msix (s : State) (p : BitVec 6) (x : Part) : (s.setPart p x).msix = s.msix := rfl
@[simp] theorem State.setPart_agenda (s : State) (p : BitVec 6) (x : Part) : (s.setPart p x).agenda = s.agenda := rfl
@[simp] theorem State.setPart_cur (s : State) (p : BitVec 6) (x : Part) : (s.setPart p x).cur = s.cur := rfl
@[simp] theorem State.setPart_tick (s : State) (p : BitVec 6) (x : Part) : (s.setPart p x).tick = s.tick := rfl
@[simp] theorem State.setPart_now (s : State) (p : BitVec 6) (x : Part) : (s.setPart p x).now = s.now := rfl

@[simp] theorem State.setDie_cores (s : State) (d : BitVec 2) (x : Die) : (s.setDie d x).cores = s.cores := rfl
@[simp] theorem State.setDie_forges (s : State) (d : BitVec 2) (x : Die) : (s.setDie d x).forges = s.forges := rfl
@[simp] theorem State.setDie_mem (s : State) (d : BitVec 2) (x : Die) : (s.setDie d x).mem = s.mem := rfl
@[simp] theorem State.setDie_tlb (s : State) (d : BitVec 2) (x : Die) : (s.setDie d x).tlb = s.tlb := rfl
@[simp] theorem State.setDie_mesh (s : State) (d : BitVec 2) (x : Die) : (s.setDie d x).mesh = s.mesh := rfl
@[simp] theorem State.setDie_vecs (s : State) (d : BitVec 2) (x : Die) : (s.setDie d x).vecs = s.vecs := rfl
@[simp] theorem State.setDie_credits (s : State) (d : BitVec 2) (x : Die) : (s.setDie d x).credits = s.credits := rfl
@[simp] theorem State.setDie_bank (s : State) (d : BitVec 2) (x : Die) : (s.setDie d x).bank = s.bank := rfl
@[simp] theorem State.setDie_ctlq (s : State) (d : BitVec 2) (x : Die) : (s.setDie d x).ctlq = s.ctlq := rfl
@[simp] theorem State.setDie_steals (s : State) (d : BitVec 2) (x : Die) : (s.setDie d x).steals = s.steals := rfl
@[simp] theorem State.setDie_misses (s : State) (d : BitVec 2) (x : Die) : (s.setDie d x).misses = s.misses := rfl
@[simp] theorem State.setDie_xfers (s : State) (d : BitVec 2) (x : Die) : (s.setDie d x).xfers = s.xfers := rfl
@[simp] theorem State.setDie_ranges (s : State) (d : BitVec 2) (x : Die) : (s.setDie d x).ranges = s.ranges := rfl
@[simp] theorem State.setDie_shoots (s : State) (d : BitVec 2) (x : Die) : (s.setDie d x).shoots = s.shoots := rfl
@[simp] theorem State.setDie_partops (s : State) (d : BitVec 2) (x : Die) : (s.setDie d x).partops = s.partops := rfl
@[simp] theorem State.setDie_heaps (s : State) (d : BitVec 2) (x : Die) : (s.setDie d x).heaps = s.heaps := rfl
@[simp] theorem State.setDie_ways (s : State) (d : BitVec 2) (x : Die) : (s.setDie d x).ways = s.ways := rfl
@[simp] theorem State.setDie_parts (s : State) (d : BitVec 2) (x : Die) : (s.setDie d x).parts = s.parts := rfl
@[simp] theorem State.setDie_clusterPart (s : State) (d : BitVec 2) (x : Die) : (s.setDie d x).clusterPart = s.clusterPart := rfl
@[simp] theorem State.setDie_queues (s : State) (d : BitVec 2) (x : Die) : (s.setDie d x).queues = s.queues := rfl
@[simp] theorem State.setDie_launches (s : State) (d : BitVec 2) (x : Die) : (s.setDie d x).launches = s.launches := rfl
@[simp] theorem State.setDie_nextLaunch (s : State) (d : BitVec 2) (x : Die) : (s.setDie d x).nextLaunch = s.nextLaunch := rfl
@[simp] theorem State.setDie_eligibleClock (s : State) (d : BitVec 2) (x : Die) : (s.setDie d x).eligibleClock = s.eligibleClock := rfl
@[simp] theorem State.setDie_island (s : State) (d : BitVec 2) (x : Die) : (s.setDie d x).island = s.island := rfl
@[simp] theorem State.setDie_links (s : State) (d : BitVec 2) (x : Die) : (s.setDie d x).links = s.links := rfl
@[simp] theorem State.setDie_requests (s : State) (d : BitVec 2) (x : Die) : (s.setDie d x).requests = s.requests := rfl
@[simp] theorem State.setDie_late (s : State) (d : BitVec 2) (x : Die) : (s.setDie d x).late = s.late := rfl
@[simp] theorem State.setDie_msix (s : State) (d : BitVec 2) (x : Die) : (s.setDie d x).msix = s.msix := rfl
@[simp] theorem State.setDie_agenda (s : State) (d : BitVec 2) (x : Die) : (s.setDie d x).agenda = s.agenda := rfl
@[simp] theorem State.setDie_cur (s : State) (d : BitVec 2) (x : Die) : (s.setDie d x).cur = s.cur := rfl
@[simp] theorem State.setDie_tick (s : State) (d : BitVec 2) (x : Die) : (s.setDie d x).tick = s.tick := rfl
@[simp] theorem State.setDie_now (s : State) (d : BitVec 2) (x : Die) : (s.setDie d x).now = s.now := rfl

@[simp] theorem State.setHeap_cores (s : State) (h : Nat) (x : Heap) : (s.setHeap h x).cores = s.cores := rfl
@[simp] theorem State.setHeap_forges (s : State) (h : Nat) (x : Heap) : (s.setHeap h x).forges = s.forges := rfl
@[simp] theorem State.setHeap_mem (s : State) (h : Nat) (x : Heap) : (s.setHeap h x).mem = s.mem := rfl
@[simp] theorem State.setHeap_tlb (s : State) (h : Nat) (x : Heap) : (s.setHeap h x).tlb = s.tlb := rfl
@[simp] theorem State.setHeap_mesh (s : State) (h : Nat) (x : Heap) : (s.setHeap h x).mesh = s.mesh := rfl
@[simp] theorem State.setHeap_vecs (s : State) (h : Nat) (x : Heap) : (s.setHeap h x).vecs = s.vecs := rfl
@[simp] theorem State.setHeap_credits (s : State) (h : Nat) (x : Heap) : (s.setHeap h x).credits = s.credits := rfl
@[simp] theorem State.setHeap_bank (s : State) (h : Nat) (x : Heap) : (s.setHeap h x).bank = s.bank := rfl
@[simp] theorem State.setHeap_ctlq (s : State) (h : Nat) (x : Heap) : (s.setHeap h x).ctlq = s.ctlq := rfl
@[simp] theorem State.setHeap_steals (s : State) (h : Nat) (x : Heap) : (s.setHeap h x).steals = s.steals := rfl
@[simp] theorem State.setHeap_misses (s : State) (h : Nat) (x : Heap) : (s.setHeap h x).misses = s.misses := rfl
@[simp] theorem State.setHeap_xfers (s : State) (h : Nat) (x : Heap) : (s.setHeap h x).xfers = s.xfers := rfl
@[simp] theorem State.setHeap_ranges (s : State) (h : Nat) (x : Heap) : (s.setHeap h x).ranges = s.ranges := rfl
@[simp] theorem State.setHeap_shoots (s : State) (h : Nat) (x : Heap) : (s.setHeap h x).shoots = s.shoots := rfl
@[simp] theorem State.setHeap_partops (s : State) (h : Nat) (x : Heap) : (s.setHeap h x).partops = s.partops := rfl
@[simp] theorem State.setHeap_ways (s : State) (h : Nat) (x : Heap) : (s.setHeap h x).ways = s.ways := rfl
@[simp] theorem State.setHeap_parts (s : State) (h : Nat) (x : Heap) : (s.setHeap h x).parts = s.parts := rfl
@[simp] theorem State.setHeap_clusterPart (s : State) (h : Nat) (x : Heap) : (s.setHeap h x).clusterPart = s.clusterPart := rfl
@[simp] theorem State.setHeap_queues (s : State) (h : Nat) (x : Heap) : (s.setHeap h x).queues = s.queues := rfl
@[simp] theorem State.setHeap_launches (s : State) (h : Nat) (x : Heap) : (s.setHeap h x).launches = s.launches := rfl
@[simp] theorem State.setHeap_nextLaunch (s : State) (h : Nat) (x : Heap) : (s.setHeap h x).nextLaunch = s.nextLaunch := rfl
@[simp] theorem State.setHeap_eligibleClock (s : State) (h : Nat) (x : Heap) : (s.setHeap h x).eligibleClock = s.eligibleClock := rfl
@[simp] theorem State.setHeap_dies (s : State) (h : Nat) (x : Heap) : (s.setHeap h x).dies = s.dies := rfl
@[simp] theorem State.setHeap_island (s : State) (h : Nat) (x : Heap) : (s.setHeap h x).island = s.island := rfl
@[simp] theorem State.setHeap_links (s : State) (h : Nat) (x : Heap) : (s.setHeap h x).links = s.links := rfl
@[simp] theorem State.setHeap_requests (s : State) (h : Nat) (x : Heap) : (s.setHeap h x).requests = s.requests := rfl
@[simp] theorem State.setHeap_late (s : State) (h : Nat) (x : Heap) : (s.setHeap h x).late = s.late := rfl
@[simp] theorem State.setHeap_msix (s : State) (h : Nat) (x : Heap) : (s.setHeap h x).msix = s.msix := rfl
@[simp] theorem State.setHeap_agenda (s : State) (h : Nat) (x : Heap) : (s.setHeap h x).agenda = s.agenda := rfl
@[simp] theorem State.setHeap_cur (s : State) (h : Nat) (x : Heap) : (s.setHeap h x).cur = s.cur := rfl
@[simp] theorem State.setHeap_tick (s : State) (h : Nat) (x : Heap) : (s.setHeap h x).tick = s.tick := rfl
@[simp] theorem State.setHeap_now (s : State) (h : Nat) (x : Heap) : (s.setHeap h x).now = s.now := rfl

@[simp] theorem State.setQueue_cores (s : State) (q : BitVec 10) (x : LaunchQ) : (s.setQueue q x).cores = s.cores := rfl
@[simp] theorem State.setQueue_forges (s : State) (q : BitVec 10) (x : LaunchQ) : (s.setQueue q x).forges = s.forges := rfl
@[simp] theorem State.setQueue_mem (s : State) (q : BitVec 10) (x : LaunchQ) : (s.setQueue q x).mem = s.mem := rfl
@[simp] theorem State.setQueue_tlb (s : State) (q : BitVec 10) (x : LaunchQ) : (s.setQueue q x).tlb = s.tlb := rfl
@[simp] theorem State.setQueue_mesh (s : State) (q : BitVec 10) (x : LaunchQ) : (s.setQueue q x).mesh = s.mesh := rfl
@[simp] theorem State.setQueue_vecs (s : State) (q : BitVec 10) (x : LaunchQ) : (s.setQueue q x).vecs = s.vecs := rfl
@[simp] theorem State.setQueue_credits (s : State) (q : BitVec 10) (x : LaunchQ) : (s.setQueue q x).credits = s.credits := rfl
@[simp] theorem State.setQueue_bank (s : State) (q : BitVec 10) (x : LaunchQ) : (s.setQueue q x).bank = s.bank := rfl
@[simp] theorem State.setQueue_ctlq (s : State) (q : BitVec 10) (x : LaunchQ) : (s.setQueue q x).ctlq = s.ctlq := rfl
@[simp] theorem State.setQueue_steals (s : State) (q : BitVec 10) (x : LaunchQ) : (s.setQueue q x).steals = s.steals := rfl
@[simp] theorem State.setQueue_misses (s : State) (q : BitVec 10) (x : LaunchQ) : (s.setQueue q x).misses = s.misses := rfl
@[simp] theorem State.setQueue_xfers (s : State) (q : BitVec 10) (x : LaunchQ) : (s.setQueue q x).xfers = s.xfers := rfl
@[simp] theorem State.setQueue_ranges (s : State) (q : BitVec 10) (x : LaunchQ) : (s.setQueue q x).ranges = s.ranges := rfl
@[simp] theorem State.setQueue_shoots (s : State) (q : BitVec 10) (x : LaunchQ) : (s.setQueue q x).shoots = s.shoots := rfl
@[simp] theorem State.setQueue_partops (s : State) (q : BitVec 10) (x : LaunchQ) : (s.setQueue q x).partops = s.partops := rfl
@[simp] theorem State.setQueue_heaps (s : State) (q : BitVec 10) (x : LaunchQ) : (s.setQueue q x).heaps = s.heaps := rfl
@[simp] theorem State.setQueue_ways (s : State) (q : BitVec 10) (x : LaunchQ) : (s.setQueue q x).ways = s.ways := rfl
@[simp] theorem State.setQueue_parts (s : State) (q : BitVec 10) (x : LaunchQ) : (s.setQueue q x).parts = s.parts := rfl
@[simp] theorem State.setQueue_clusterPart (s : State) (q : BitVec 10) (x : LaunchQ) : (s.setQueue q x).clusterPart = s.clusterPart := rfl
@[simp] theorem State.setQueue_launches (s : State) (q : BitVec 10) (x : LaunchQ) : (s.setQueue q x).launches = s.launches := rfl
@[simp] theorem State.setQueue_nextLaunch (s : State) (q : BitVec 10) (x : LaunchQ) : (s.setQueue q x).nextLaunch = s.nextLaunch := rfl
@[simp] theorem State.setQueue_eligibleClock (s : State) (q : BitVec 10) (x : LaunchQ) : (s.setQueue q x).eligibleClock = s.eligibleClock := rfl
@[simp] theorem State.setQueue_dies (s : State) (q : BitVec 10) (x : LaunchQ) : (s.setQueue q x).dies = s.dies := rfl
@[simp] theorem State.setQueue_island (s : State) (q : BitVec 10) (x : LaunchQ) : (s.setQueue q x).island = s.island := rfl
@[simp] theorem State.setQueue_links (s : State) (q : BitVec 10) (x : LaunchQ) : (s.setQueue q x).links = s.links := rfl
@[simp] theorem State.setQueue_requests (s : State) (q : BitVec 10) (x : LaunchQ) : (s.setQueue q x).requests = s.requests := rfl
@[simp] theorem State.setQueue_late (s : State) (q : BitVec 10) (x : LaunchQ) : (s.setQueue q x).late = s.late := rfl
@[simp] theorem State.setQueue_msix (s : State) (q : BitVec 10) (x : LaunchQ) : (s.setQueue q x).msix = s.msix := rfl
@[simp] theorem State.setQueue_agenda (s : State) (q : BitVec 10) (x : LaunchQ) : (s.setQueue q x).agenda = s.agenda := rfl
@[simp] theorem State.setQueue_cur (s : State) (q : BitVec 10) (x : LaunchQ) : (s.setQueue q x).cur = s.cur := rfl
@[simp] theorem State.setQueue_tick (s : State) (q : BitVec 10) (x : LaunchQ) : (s.setQueue q x).tick = s.tick := rfl
@[simp] theorem State.setQueue_now (s : State) (q : BitVec 10) (x : LaunchQ) : (s.setQueue q x).now = s.now := rfl

@[simp] theorem State.writeG_forges (s : State) (r : BitVec 5) (w : Word) : (s.writeG r w).forges = s.forges := by
  unfold State.writeG; split <;> rfl
@[simp] theorem State.writeG_mem (s : State) (r : BitVec 5) (w : Word) : (s.writeG r w).mem = s.mem := by
  unfold State.writeG; split <;> rfl
@[simp] theorem State.writeG_tlb (s : State) (r : BitVec 5) (w : Word) : (s.writeG r w).tlb = s.tlb := by
  unfold State.writeG; split <;> rfl
@[simp] theorem State.writeG_mesh (s : State) (r : BitVec 5) (w : Word) : (s.writeG r w).mesh = s.mesh := by
  unfold State.writeG; split <;> rfl
@[simp] theorem State.writeG_vecs (s : State) (r : BitVec 5) (w : Word) : (s.writeG r w).vecs = s.vecs := by
  unfold State.writeG; split <;> rfl
@[simp] theorem State.writeG_credits (s : State) (r : BitVec 5) (w : Word) : (s.writeG r w).credits = s.credits := by
  unfold State.writeG; split <;> rfl
@[simp] theorem State.writeG_bank (s : State) (r : BitVec 5) (w : Word) : (s.writeG r w).bank = s.bank := by
  unfold State.writeG; split <;> rfl
@[simp] theorem State.writeG_ctlq (s : State) (r : BitVec 5) (w : Word) : (s.writeG r w).ctlq = s.ctlq := by
  unfold State.writeG; split <;> rfl
@[simp] theorem State.writeG_steals (s : State) (r : BitVec 5) (w : Word) : (s.writeG r w).steals = s.steals := by
  unfold State.writeG; split <;> rfl
@[simp] theorem State.writeG_misses (s : State) (r : BitVec 5) (w : Word) : (s.writeG r w).misses = s.misses := by
  unfold State.writeG; split <;> rfl
@[simp] theorem State.writeG_xfers (s : State) (r : BitVec 5) (w : Word) : (s.writeG r w).xfers = s.xfers := by
  unfold State.writeG; split <;> rfl
@[simp] theorem State.writeG_ranges (s : State) (r : BitVec 5) (w : Word) : (s.writeG r w).ranges = s.ranges := by
  unfold State.writeG; split <;> rfl
@[simp] theorem State.writeG_shoots (s : State) (r : BitVec 5) (w : Word) : (s.writeG r w).shoots = s.shoots := by
  unfold State.writeG; split <;> rfl
@[simp] theorem State.writeG_partops (s : State) (r : BitVec 5) (w : Word) : (s.writeG r w).partops = s.partops := by
  unfold State.writeG; split <;> rfl
@[simp] theorem State.writeG_heaps (s : State) (r : BitVec 5) (w : Word) : (s.writeG r w).heaps = s.heaps := by
  unfold State.writeG; split <;> rfl
@[simp] theorem State.writeG_ways (s : State) (r : BitVec 5) (w : Word) : (s.writeG r w).ways = s.ways := by
  unfold State.writeG; split <;> rfl
@[simp] theorem State.writeG_parts (s : State) (r : BitVec 5) (w : Word) : (s.writeG r w).parts = s.parts := by
  unfold State.writeG; split <;> rfl
@[simp] theorem State.writeG_clusterPart (s : State) (r : BitVec 5) (w : Word) : (s.writeG r w).clusterPart = s.clusterPart := by
  unfold State.writeG; split <;> rfl
@[simp] theorem State.writeG_queues (s : State) (r : BitVec 5) (w : Word) : (s.writeG r w).queues = s.queues := by
  unfold State.writeG; split <;> rfl
@[simp] theorem State.writeG_launches (s : State) (r : BitVec 5) (w : Word) : (s.writeG r w).launches = s.launches := by
  unfold State.writeG; split <;> rfl
@[simp] theorem State.writeG_nextLaunch (s : State) (r : BitVec 5) (w : Word) : (s.writeG r w).nextLaunch = s.nextLaunch := by
  unfold State.writeG; split <;> rfl
@[simp] theorem State.writeG_eligibleClock (s : State) (r : BitVec 5) (w : Word) : (s.writeG r w).eligibleClock = s.eligibleClock := by
  unfold State.writeG; split <;> rfl
@[simp] theorem State.writeG_dies (s : State) (r : BitVec 5) (w : Word) : (s.writeG r w).dies = s.dies := by
  unfold State.writeG; split <;> rfl
@[simp] theorem State.writeG_island (s : State) (r : BitVec 5) (w : Word) : (s.writeG r w).island = s.island := by
  unfold State.writeG; split <;> rfl
@[simp] theorem State.writeG_links (s : State) (r : BitVec 5) (w : Word) : (s.writeG r w).links = s.links := by
  unfold State.writeG; split <;> rfl
@[simp] theorem State.writeG_requests (s : State) (r : BitVec 5) (w : Word) : (s.writeG r w).requests = s.requests := by
  unfold State.writeG; split <;> rfl
@[simp] theorem State.writeG_late (s : State) (r : BitVec 5) (w : Word) : (s.writeG r w).late = s.late := by
  unfold State.writeG; split <;> rfl
@[simp] theorem State.writeG_msix (s : State) (r : BitVec 5) (w : Word) : (s.writeG r w).msix = s.msix := by
  unfold State.writeG; split <;> rfl
@[simp] theorem State.writeG_agenda (s : State) (r : BitVec 5) (w : Word) : (s.writeG r w).agenda = s.agenda := by
  unfold State.writeG; split <;> rfl
@[simp] theorem State.writeG_cur (s : State) (r : BitVec 5) (w : Word) : (s.writeG r w).cur = s.cur := by
  unfold State.writeG; split <;> rfl
@[simp] theorem State.writeG_tick (s : State) (r : BitVec 5) (w : Word) : (s.writeG r w).tick = s.tick := by
  unfold State.writeG; split <;> rfl
@[simp] theorem State.writeG_now (s : State) (r : BitVec 5) (w : Word) : (s.writeG r w).now = s.now := by
  unfold State.writeG; split <;> rfl

@[simp] theorem State.writeV_forges (s : State) (r : BitVec 4) (w : Vec) : (s.writeV r w).forges = s.forges := by
  unfold State.writeV; split <;> rfl
@[simp] theorem State.writeV_mem (s : State) (r : BitVec 4) (w : Vec) : (s.writeV r w).mem = s.mem := by
  unfold State.writeV; split <;> rfl
@[simp] theorem State.writeV_tlb (s : State) (r : BitVec 4) (w : Vec) : (s.writeV r w).tlb = s.tlb := by
  unfold State.writeV; split <;> rfl
@[simp] theorem State.writeV_mesh (s : State) (r : BitVec 4) (w : Vec) : (s.writeV r w).mesh = s.mesh := by
  unfold State.writeV; split <;> rfl
@[simp] theorem State.writeV_vecs (s : State) (r : BitVec 4) (w : Vec) : (s.writeV r w).vecs = s.vecs := by
  unfold State.writeV; split <;> rfl
@[simp] theorem State.writeV_credits (s : State) (r : BitVec 4) (w : Vec) : (s.writeV r w).credits = s.credits := by
  unfold State.writeV; split <;> rfl
@[simp] theorem State.writeV_bank (s : State) (r : BitVec 4) (w : Vec) : (s.writeV r w).bank = s.bank := by
  unfold State.writeV; split <;> rfl
@[simp] theorem State.writeV_ctlq (s : State) (r : BitVec 4) (w : Vec) : (s.writeV r w).ctlq = s.ctlq := by
  unfold State.writeV; split <;> rfl
@[simp] theorem State.writeV_steals (s : State) (r : BitVec 4) (w : Vec) : (s.writeV r w).steals = s.steals := by
  unfold State.writeV; split <;> rfl
@[simp] theorem State.writeV_misses (s : State) (r : BitVec 4) (w : Vec) : (s.writeV r w).misses = s.misses := by
  unfold State.writeV; split <;> rfl
@[simp] theorem State.writeV_xfers (s : State) (r : BitVec 4) (w : Vec) : (s.writeV r w).xfers = s.xfers := by
  unfold State.writeV; split <;> rfl
@[simp] theorem State.writeV_ranges (s : State) (r : BitVec 4) (w : Vec) : (s.writeV r w).ranges = s.ranges := by
  unfold State.writeV; split <;> rfl
@[simp] theorem State.writeV_shoots (s : State) (r : BitVec 4) (w : Vec) : (s.writeV r w).shoots = s.shoots := by
  unfold State.writeV; split <;> rfl
@[simp] theorem State.writeV_partops (s : State) (r : BitVec 4) (w : Vec) : (s.writeV r w).partops = s.partops := by
  unfold State.writeV; split <;> rfl
@[simp] theorem State.writeV_heaps (s : State) (r : BitVec 4) (w : Vec) : (s.writeV r w).heaps = s.heaps := by
  unfold State.writeV; split <;> rfl
@[simp] theorem State.writeV_ways (s : State) (r : BitVec 4) (w : Vec) : (s.writeV r w).ways = s.ways := by
  unfold State.writeV; split <;> rfl
@[simp] theorem State.writeV_parts (s : State) (r : BitVec 4) (w : Vec) : (s.writeV r w).parts = s.parts := by
  unfold State.writeV; split <;> rfl
@[simp] theorem State.writeV_clusterPart (s : State) (r : BitVec 4) (w : Vec) : (s.writeV r w).clusterPart = s.clusterPart := by
  unfold State.writeV; split <;> rfl
@[simp] theorem State.writeV_queues (s : State) (r : BitVec 4) (w : Vec) : (s.writeV r w).queues = s.queues := by
  unfold State.writeV; split <;> rfl
@[simp] theorem State.writeV_launches (s : State) (r : BitVec 4) (w : Vec) : (s.writeV r w).launches = s.launches := by
  unfold State.writeV; split <;> rfl
@[simp] theorem State.writeV_nextLaunch (s : State) (r : BitVec 4) (w : Vec) : (s.writeV r w).nextLaunch = s.nextLaunch := by
  unfold State.writeV; split <;> rfl
@[simp] theorem State.writeV_eligibleClock (s : State) (r : BitVec 4) (w : Vec) : (s.writeV r w).eligibleClock = s.eligibleClock := by
  unfold State.writeV; split <;> rfl
@[simp] theorem State.writeV_dies (s : State) (r : BitVec 4) (w : Vec) : (s.writeV r w).dies = s.dies := by
  unfold State.writeV; split <;> rfl
@[simp] theorem State.writeV_island (s : State) (r : BitVec 4) (w : Vec) : (s.writeV r w).island = s.island := by
  unfold State.writeV; split <;> rfl
@[simp] theorem State.writeV_links (s : State) (r : BitVec 4) (w : Vec) : (s.writeV r w).links = s.links := by
  unfold State.writeV; split <;> rfl
@[simp] theorem State.writeV_requests (s : State) (r : BitVec 4) (w : Vec) : (s.writeV r w).requests = s.requests := by
  unfold State.writeV; split <;> rfl
@[simp] theorem State.writeV_late (s : State) (r : BitVec 4) (w : Vec) : (s.writeV r w).late = s.late := by
  unfold State.writeV; split <;> rfl
@[simp] theorem State.writeV_msix (s : State) (r : BitVec 4) (w : Vec) : (s.writeV r w).msix = s.msix := by
  unfold State.writeV; split <;> rfl
@[simp] theorem State.writeV_agenda (s : State) (r : BitVec 4) (w : Vec) : (s.writeV r w).agenda = s.agenda := by
  unfold State.writeV; split <;> rfl
@[simp] theorem State.writeV_cur (s : State) (r : BitVec 4) (w : Vec) : (s.writeV r w).cur = s.cur := by
  unfold State.writeV; split <;> rfl
@[simp] theorem State.writeV_tick (s : State) (r : BitVec 4) (w : Vec) : (s.writeV r w).tick = s.tick := by
  unfold State.writeV; split <;> rfl
@[simp] theorem State.writeV_now (s : State) (r : BitVec 4) (w : Vec) : (s.writeV r w).now = s.now := by
  unfold State.writeV; split <;> rfl

@[simp] theorem State.writeF_forges (s : State) (r : BitVec 5) (w : Word) : (s.writeF r w).forges = s.forges := rfl
@[simp] theorem State.writeF_mem (s : State) (r : BitVec 5) (w : Word) : (s.writeF r w).mem = s.mem := rfl
@[simp] theorem State.writeF_tlb (s : State) (r : BitVec 5) (w : Word) : (s.writeF r w).tlb = s.tlb := rfl
@[simp] theorem State.writeF_mesh (s : State) (r : BitVec 5) (w : Word) : (s.writeF r w).mesh = s.mesh := rfl
@[simp] theorem State.writeF_vecs (s : State) (r : BitVec 5) (w : Word) : (s.writeF r w).vecs = s.vecs := rfl
@[simp] theorem State.writeF_credits (s : State) (r : BitVec 5) (w : Word) : (s.writeF r w).credits = s.credits := rfl
@[simp] theorem State.writeF_bank (s : State) (r : BitVec 5) (w : Word) : (s.writeF r w).bank = s.bank := rfl
@[simp] theorem State.writeF_ctlq (s : State) (r : BitVec 5) (w : Word) : (s.writeF r w).ctlq = s.ctlq := rfl
@[simp] theorem State.writeF_steals (s : State) (r : BitVec 5) (w : Word) : (s.writeF r w).steals = s.steals := rfl
@[simp] theorem State.writeF_misses (s : State) (r : BitVec 5) (w : Word) : (s.writeF r w).misses = s.misses := rfl
@[simp] theorem State.writeF_xfers (s : State) (r : BitVec 5) (w : Word) : (s.writeF r w).xfers = s.xfers := rfl
@[simp] theorem State.writeF_ranges (s : State) (r : BitVec 5) (w : Word) : (s.writeF r w).ranges = s.ranges := rfl
@[simp] theorem State.writeF_shoots (s : State) (r : BitVec 5) (w : Word) : (s.writeF r w).shoots = s.shoots := rfl
@[simp] theorem State.writeF_partops (s : State) (r : BitVec 5) (w : Word) : (s.writeF r w).partops = s.partops := rfl
@[simp] theorem State.writeF_heaps (s : State) (r : BitVec 5) (w : Word) : (s.writeF r w).heaps = s.heaps := rfl
@[simp] theorem State.writeF_ways (s : State) (r : BitVec 5) (w : Word) : (s.writeF r w).ways = s.ways := rfl
@[simp] theorem State.writeF_parts (s : State) (r : BitVec 5) (w : Word) : (s.writeF r w).parts = s.parts := rfl
@[simp] theorem State.writeF_clusterPart (s : State) (r : BitVec 5) (w : Word) : (s.writeF r w).clusterPart = s.clusterPart := rfl
@[simp] theorem State.writeF_queues (s : State) (r : BitVec 5) (w : Word) : (s.writeF r w).queues = s.queues := rfl
@[simp] theorem State.writeF_launches (s : State) (r : BitVec 5) (w : Word) : (s.writeF r w).launches = s.launches := rfl
@[simp] theorem State.writeF_nextLaunch (s : State) (r : BitVec 5) (w : Word) : (s.writeF r w).nextLaunch = s.nextLaunch := rfl
@[simp] theorem State.writeF_eligibleClock (s : State) (r : BitVec 5) (w : Word) : (s.writeF r w).eligibleClock = s.eligibleClock := rfl
@[simp] theorem State.writeF_dies (s : State) (r : BitVec 5) (w : Word) : (s.writeF r w).dies = s.dies := rfl
@[simp] theorem State.writeF_island (s : State) (r : BitVec 5) (w : Word) : (s.writeF r w).island = s.island := rfl
@[simp] theorem State.writeF_links (s : State) (r : BitVec 5) (w : Word) : (s.writeF r w).links = s.links := rfl
@[simp] theorem State.writeF_requests (s : State) (r : BitVec 5) (w : Word) : (s.writeF r w).requests = s.requests := rfl
@[simp] theorem State.writeF_late (s : State) (r : BitVec 5) (w : Word) : (s.writeF r w).late = s.late := rfl
@[simp] theorem State.writeF_msix (s : State) (r : BitVec 5) (w : Word) : (s.writeF r w).msix = s.msix := rfl
@[simp] theorem State.writeF_agenda (s : State) (r : BitVec 5) (w : Word) : (s.writeF r w).agenda = s.agenda := rfl
@[simp] theorem State.writeF_cur (s : State) (r : BitVec 5) (w : Word) : (s.writeF r w).cur = s.cur := rfl
@[simp] theorem State.writeF_tick (s : State) (r : BitVec 5) (w : Word) : (s.writeF r w).tick = s.tick := rfl
@[simp] theorem State.writeF_now (s : State) (r : BitVec 5) (w : Word) : (s.writeF r w).now = s.now := rfl

@[simp] theorem State.notice_cores (s : State) (p : BitVec 6) (k : Nat) (c : CoreId) (x : CtxId) (g1 g2 g3 g4 g5 g6 : Word) : (s.notice p k c x g1 g2 g3 g4 g5 g6).cores = s.cores := rfl
@[simp] theorem State.notice_forges (s : State) (p : BitVec 6) (k : Nat) (c : CoreId) (x : CtxId) (g1 g2 g3 g4 g5 g6 : Word) : (s.notice p k c x g1 g2 g3 g4 g5 g6).forges = s.forges := rfl
@[simp] theorem State.notice_mem (s : State) (p : BitVec 6) (k : Nat) (c : CoreId) (x : CtxId) (g1 g2 g3 g4 g5 g6 : Word) : (s.notice p k c x g1 g2 g3 g4 g5 g6).mem = s.mem := rfl
@[simp] theorem State.notice_tlb (s : State) (p : BitVec 6) (k : Nat) (c : CoreId) (x : CtxId) (g1 g2 g3 g4 g5 g6 : Word) : (s.notice p k c x g1 g2 g3 g4 g5 g6).tlb = s.tlb := rfl
@[simp] theorem State.notice_vecs (s : State) (p : BitVec 6) (k : Nat) (c : CoreId) (x : CtxId) (g1 g2 g3 g4 g5 g6 : Word) : (s.notice p k c x g1 g2 g3 g4 g5 g6).vecs = s.vecs := rfl
@[simp] theorem State.notice_credits (s : State) (p : BitVec 6) (k : Nat) (c : CoreId) (x : CtxId) (g1 g2 g3 g4 g5 g6 : Word) : (s.notice p k c x g1 g2 g3 g4 g5 g6).credits = s.credits := rfl
@[simp] theorem State.notice_bank (s : State) (p : BitVec 6) (k : Nat) (c : CoreId) (x : CtxId) (g1 g2 g3 g4 g5 g6 : Word) : (s.notice p k c x g1 g2 g3 g4 g5 g6).bank = s.bank := rfl
@[simp] theorem State.notice_ctlq (s : State) (p : BitVec 6) (k : Nat) (c : CoreId) (x : CtxId) (g1 g2 g3 g4 g5 g6 : Word) : (s.notice p k c x g1 g2 g3 g4 g5 g6).ctlq = s.ctlq := rfl
@[simp] theorem State.notice_steals (s : State) (p : BitVec 6) (k : Nat) (c : CoreId) (x : CtxId) (g1 g2 g3 g4 g5 g6 : Word) : (s.notice p k c x g1 g2 g3 g4 g5 g6).steals = s.steals := rfl
@[simp] theorem State.notice_misses (s : State) (p : BitVec 6) (k : Nat) (c : CoreId) (x : CtxId) (g1 g2 g3 g4 g5 g6 : Word) : (s.notice p k c x g1 g2 g3 g4 g5 g6).misses = s.misses := rfl
@[simp] theorem State.notice_xfers (s : State) (p : BitVec 6) (k : Nat) (c : CoreId) (x : CtxId) (g1 g2 g3 g4 g5 g6 : Word) : (s.notice p k c x g1 g2 g3 g4 g5 g6).xfers = s.xfers := rfl
@[simp] theorem State.notice_ranges (s : State) (p : BitVec 6) (k : Nat) (c : CoreId) (x : CtxId) (g1 g2 g3 g4 g5 g6 : Word) : (s.notice p k c x g1 g2 g3 g4 g5 g6).ranges = s.ranges := rfl
@[simp] theorem State.notice_shoots (s : State) (p : BitVec 6) (k : Nat) (c : CoreId) (x : CtxId) (g1 g2 g3 g4 g5 g6 : Word) : (s.notice p k c x g1 g2 g3 g4 g5 g6).shoots = s.shoots := rfl
@[simp] theorem State.notice_partops (s : State) (p : BitVec 6) (k : Nat) (c : CoreId) (x : CtxId) (g1 g2 g3 g4 g5 g6 : Word) : (s.notice p k c x g1 g2 g3 g4 g5 g6).partops = s.partops := rfl
@[simp] theorem State.notice_heaps (s : State) (p : BitVec 6) (k : Nat) (c : CoreId) (x : CtxId) (g1 g2 g3 g4 g5 g6 : Word) : (s.notice p k c x g1 g2 g3 g4 g5 g6).heaps = s.heaps := rfl
@[simp] theorem State.notice_ways (s : State) (p : BitVec 6) (k : Nat) (c : CoreId) (x : CtxId) (g1 g2 g3 g4 g5 g6 : Word) : (s.notice p k c x g1 g2 g3 g4 g5 g6).ways = s.ways := rfl
@[simp] theorem State.notice_parts (s : State) (p : BitVec 6) (k : Nat) (c : CoreId) (x : CtxId) (g1 g2 g3 g4 g5 g6 : Word) : (s.notice p k c x g1 g2 g3 g4 g5 g6).parts = s.parts := rfl
@[simp] theorem State.notice_clusterPart (s : State) (p : BitVec 6) (k : Nat) (c : CoreId) (x : CtxId) (g1 g2 g3 g4 g5 g6 : Word) : (s.notice p k c x g1 g2 g3 g4 g5 g6).clusterPart = s.clusterPart := rfl
@[simp] theorem State.notice_queues (s : State) (p : BitVec 6) (k : Nat) (c : CoreId) (x : CtxId) (g1 g2 g3 g4 g5 g6 : Word) : (s.notice p k c x g1 g2 g3 g4 g5 g6).queues = s.queues := rfl
@[simp] theorem State.notice_launches (s : State) (p : BitVec 6) (k : Nat) (c : CoreId) (x : CtxId) (g1 g2 g3 g4 g5 g6 : Word) : (s.notice p k c x g1 g2 g3 g4 g5 g6).launches = s.launches := rfl
@[simp] theorem State.notice_nextLaunch (s : State) (p : BitVec 6) (k : Nat) (c : CoreId) (x : CtxId) (g1 g2 g3 g4 g5 g6 : Word) : (s.notice p k c x g1 g2 g3 g4 g5 g6).nextLaunch = s.nextLaunch := rfl
@[simp] theorem State.notice_eligibleClock (s : State) (p : BitVec 6) (k : Nat) (c : CoreId) (x : CtxId) (g1 g2 g3 g4 g5 g6 : Word) : (s.notice p k c x g1 g2 g3 g4 g5 g6).eligibleClock = s.eligibleClock := rfl
@[simp] theorem State.notice_dies (s : State) (p : BitVec 6) (k : Nat) (c : CoreId) (x : CtxId) (g1 g2 g3 g4 g5 g6 : Word) : (s.notice p k c x g1 g2 g3 g4 g5 g6).dies = s.dies := rfl
@[simp] theorem State.notice_island (s : State) (p : BitVec 6) (k : Nat) (c : CoreId) (x : CtxId) (g1 g2 g3 g4 g5 g6 : Word) : (s.notice p k c x g1 g2 g3 g4 g5 g6).island = s.island := rfl
@[simp] theorem State.notice_links (s : State) (p : BitVec 6) (k : Nat) (c : CoreId) (x : CtxId) (g1 g2 g3 g4 g5 g6 : Word) : (s.notice p k c x g1 g2 g3 g4 g5 g6).links = s.links := rfl
@[simp] theorem State.notice_requests (s : State) (p : BitVec 6) (k : Nat) (c : CoreId) (x : CtxId) (g1 g2 g3 g4 g5 g6 : Word) : (s.notice p k c x g1 g2 g3 g4 g5 g6).requests = s.requests := rfl
@[simp] theorem State.notice_late (s : State) (p : BitVec 6) (k : Nat) (c : CoreId) (x : CtxId) (g1 g2 g3 g4 g5 g6 : Word) : (s.notice p k c x g1 g2 g3 g4 g5 g6).late = s.late := rfl
@[simp] theorem State.notice_msix (s : State) (p : BitVec 6) (k : Nat) (c : CoreId) (x : CtxId) (g1 g2 g3 g4 g5 g6 : Word) : (s.notice p k c x g1 g2 g3 g4 g5 g6).msix = s.msix := rfl
@[simp] theorem State.notice_agenda (s : State) (p : BitVec 6) (k : Nat) (c : CoreId) (x : CtxId) (g1 g2 g3 g4 g5 g6 : Word) : (s.notice p k c x g1 g2 g3 g4 g5 g6).agenda = s.agenda := rfl
@[simp] theorem State.notice_cur (s : State) (p : BitVec 6) (k : Nat) (c : CoreId) (x : CtxId) (g1 g2 g3 g4 g5 g6 : Word) : (s.notice p k c x g1 g2 g3 g4 g5 g6).cur = s.cur := rfl
@[simp] theorem State.notice_tick (s : State) (p : BitVec 6) (k : Nat) (c : CoreId) (x : CtxId) (g1 g2 g3 g4 g5 g6 : Word) : (s.notice p k c x g1 g2 g3 g4 g5 g6).tick = s.tick := rfl
@[simp] theorem State.notice_now (s : State) (p : BitVec 6) (k : Nat) (c : CoreId) (x : CtxId) (g1 g2 g3 g4 g5 g6 : Word) : (s.notice p k c x g1 g2 g3 g4 g5 g6).now = s.now := rfl

@[simp] theorem State.log_cores (s : State) (k r c a : Nat) (d0 d1 : Word) : (s.log k r c a d0 d1).cores = s.cores := by
  unfold State.log; split <;> rfl
@[simp] theorem State.log_forges (s : State) (k r c a : Nat) (d0 d1 : Word) : (s.log k r c a d0 d1).forges = s.forges := by
  unfold State.log; split <;> rfl
@[simp] theorem State.log_mem (s : State) (k r c a : Nat) (d0 d1 : Word) : (s.log k r c a d0 d1).mem = s.mem := by
  unfold State.log; split <;> rfl
@[simp] theorem State.log_tlb (s : State) (k r c a : Nat) (d0 d1 : Word) : (s.log k r c a d0 d1).tlb = s.tlb := by
  unfold State.log; split <;> rfl
@[simp] theorem State.log_mesh (s : State) (k r c a : Nat) (d0 d1 : Word) : (s.log k r c a d0 d1).mesh = s.mesh := by
  unfold State.log; split <;> rfl
@[simp] theorem State.log_vecs (s : State) (k r c a : Nat) (d0 d1 : Word) : (s.log k r c a d0 d1).vecs = s.vecs := by
  unfold State.log; split <;> rfl
@[simp] theorem State.log_credits (s : State) (k r c a : Nat) (d0 d1 : Word) : (s.log k r c a d0 d1).credits = s.credits := by
  unfold State.log; split <;> rfl
@[simp] theorem State.log_bank (s : State) (k r c a : Nat) (d0 d1 : Word) : (s.log k r c a d0 d1).bank = s.bank := by
  unfold State.log; split <;> rfl
@[simp] theorem State.log_ctlq (s : State) (k r c a : Nat) (d0 d1 : Word) : (s.log k r c a d0 d1).ctlq = s.ctlq := by
  unfold State.log; split <;> rfl
@[simp] theorem State.log_steals (s : State) (k r c a : Nat) (d0 d1 : Word) : (s.log k r c a d0 d1).steals = s.steals := by
  unfold State.log; split <;> rfl
@[simp] theorem State.log_misses (s : State) (k r c a : Nat) (d0 d1 : Word) : (s.log k r c a d0 d1).misses = s.misses := by
  unfold State.log; split <;> rfl
@[simp] theorem State.log_xfers (s : State) (k r c a : Nat) (d0 d1 : Word) : (s.log k r c a d0 d1).xfers = s.xfers := by
  unfold State.log; split <;> rfl
@[simp] theorem State.log_ranges (s : State) (k r c a : Nat) (d0 d1 : Word) : (s.log k r c a d0 d1).ranges = s.ranges := by
  unfold State.log; split <;> rfl
@[simp] theorem State.log_shoots (s : State) (k r c a : Nat) (d0 d1 : Word) : (s.log k r c a d0 d1).shoots = s.shoots := by
  unfold State.log; split <;> rfl
@[simp] theorem State.log_partops (s : State) (k r c a : Nat) (d0 d1 : Word) : (s.log k r c a d0 d1).partops = s.partops := by
  unfold State.log; split <;> rfl
@[simp] theorem State.log_heaps (s : State) (k r c a : Nat) (d0 d1 : Word) : (s.log k r c a d0 d1).heaps = s.heaps := by
  unfold State.log; split <;> rfl
@[simp] theorem State.log_ways (s : State) (k r c a : Nat) (d0 d1 : Word) : (s.log k r c a d0 d1).ways = s.ways := by
  unfold State.log; split <;> rfl
@[simp] theorem State.log_parts (s : State) (k r c a : Nat) (d0 d1 : Word) : (s.log k r c a d0 d1).parts = s.parts := by
  unfold State.log; split <;> rfl
@[simp] theorem State.log_clusterPart (s : State) (k r c a : Nat) (d0 d1 : Word) : (s.log k r c a d0 d1).clusterPart = s.clusterPart := by
  unfold State.log; split <;> rfl
@[simp] theorem State.log_queues (s : State) (k r c a : Nat) (d0 d1 : Word) : (s.log k r c a d0 d1).queues = s.queues := by
  unfold State.log; split <;> rfl
@[simp] theorem State.log_launches (s : State) (k r c a : Nat) (d0 d1 : Word) : (s.log k r c a d0 d1).launches = s.launches := by
  unfold State.log; split <;> rfl
@[simp] theorem State.log_nextLaunch (s : State) (k r c a : Nat) (d0 d1 : Word) : (s.log k r c a d0 d1).nextLaunch = s.nextLaunch := by
  unfold State.log; split <;> rfl
@[simp] theorem State.log_eligibleClock (s : State) (k r c a : Nat) (d0 d1 : Word) : (s.log k r c a d0 d1).eligibleClock = s.eligibleClock := by
  unfold State.log; split <;> rfl
@[simp] theorem State.log_dies (s : State) (k r c a : Nat) (d0 d1 : Word) : (s.log k r c a d0 d1).dies = s.dies := by
  unfold State.log; split <;> rfl
@[simp] theorem State.log_links (s : State) (k r c a : Nat) (d0 d1 : Word) : (s.log k r c a d0 d1).links = s.links := by
  unfold State.log; split <;> rfl
@[simp] theorem State.log_requests (s : State) (k r c a : Nat) (d0 d1 : Word) : (s.log k r c a d0 d1).requests = s.requests := by
  unfold State.log; split <;> rfl
@[simp] theorem State.log_late (s : State) (k r c a : Nat) (d0 d1 : Word) : (s.log k r c a d0 d1).late = s.late := by
  unfold State.log; split <;> rfl
@[simp] theorem State.log_msix (s : State) (k r c a : Nat) (d0 d1 : Word) : (s.log k r c a d0 d1).msix = s.msix := by
  unfold State.log; split <;> rfl
@[simp] theorem State.log_agenda (s : State) (k r c a : Nat) (d0 d1 : Word) : (s.log k r c a d0 d1).agenda = s.agenda := by
  unfold State.log; split <;> rfl
@[simp] theorem State.log_cur (s : State) (k r c a : Nat) (d0 d1 : Word) : (s.log k r c a d0 d1).cur = s.cur := by
  unfold State.log; split <;> rfl
@[simp] theorem State.log_tick (s : State) (k r c a : Nat) (d0 d1 : Word) : (s.log k r c a d0 d1).tick = s.tick := by
  unfold State.log; split <;> rfl
@[simp] theorem State.log_now (s : State) (k r c a : Nat) (d0 d1 : Word) : (s.log k r c a d0 d1).now = s.now := by
  unfold State.log; split <;> rfl

@[simp] theorem State.devEvent_cores (s : State) (b : Nat) : (s.devEvent b).cores = s.cores := by
  unfold State.devEvent; split <;> rfl
@[simp] theorem State.devEvent_forges (s : State) (b : Nat) : (s.devEvent b).forges = s.forges := by
  unfold State.devEvent; split <;> rfl
@[simp] theorem State.devEvent_mem (s : State) (b : Nat) : (s.devEvent b).mem = s.mem := by
  unfold State.devEvent; split <;> rfl
@[simp] theorem State.devEvent_tlb (s : State) (b : Nat) : (s.devEvent b).tlb = s.tlb := by
  unfold State.devEvent; split <;> rfl
@[simp] theorem State.devEvent_mesh (s : State) (b : Nat) : (s.devEvent b).mesh = s.mesh := by
  unfold State.devEvent; split <;> rfl
@[simp] theorem State.devEvent_vecs (s : State) (b : Nat) : (s.devEvent b).vecs = s.vecs := by
  unfold State.devEvent; split <;> rfl
@[simp] theorem State.devEvent_credits (s : State) (b : Nat) : (s.devEvent b).credits = s.credits := by
  unfold State.devEvent; split <;> rfl
@[simp] theorem State.devEvent_bank (s : State) (b : Nat) : (s.devEvent b).bank = s.bank := by
  unfold State.devEvent; split <;> rfl
@[simp] theorem State.devEvent_ctlq (s : State) (b : Nat) : (s.devEvent b).ctlq = s.ctlq := by
  unfold State.devEvent; split <;> rfl
@[simp] theorem State.devEvent_steals (s : State) (b : Nat) : (s.devEvent b).steals = s.steals := by
  unfold State.devEvent; split <;> rfl
@[simp] theorem State.devEvent_misses (s : State) (b : Nat) : (s.devEvent b).misses = s.misses := by
  unfold State.devEvent; split <;> rfl
@[simp] theorem State.devEvent_xfers (s : State) (b : Nat) : (s.devEvent b).xfers = s.xfers := by
  unfold State.devEvent; split <;> rfl
@[simp] theorem State.devEvent_ranges (s : State) (b : Nat) : (s.devEvent b).ranges = s.ranges := by
  unfold State.devEvent; split <;> rfl
@[simp] theorem State.devEvent_shoots (s : State) (b : Nat) : (s.devEvent b).shoots = s.shoots := by
  unfold State.devEvent; split <;> rfl
@[simp] theorem State.devEvent_partops (s : State) (b : Nat) : (s.devEvent b).partops = s.partops := by
  unfold State.devEvent; split <;> rfl
@[simp] theorem State.devEvent_heaps (s : State) (b : Nat) : (s.devEvent b).heaps = s.heaps := by
  unfold State.devEvent; split <;> rfl
@[simp] theorem State.devEvent_ways (s : State) (b : Nat) : (s.devEvent b).ways = s.ways := by
  unfold State.devEvent; split <;> rfl
@[simp] theorem State.devEvent_parts (s : State) (b : Nat) : (s.devEvent b).parts = s.parts := by
  unfold State.devEvent; split <;> rfl
@[simp] theorem State.devEvent_clusterPart (s : State) (b : Nat) : (s.devEvent b).clusterPart = s.clusterPart := by
  unfold State.devEvent; split <;> rfl
@[simp] theorem State.devEvent_queues (s : State) (b : Nat) : (s.devEvent b).queues = s.queues := by
  unfold State.devEvent; split <;> rfl
@[simp] theorem State.devEvent_launches (s : State) (b : Nat) : (s.devEvent b).launches = s.launches := by
  unfold State.devEvent; split <;> rfl
@[simp] theorem State.devEvent_nextLaunch (s : State) (b : Nat) : (s.devEvent b).nextLaunch = s.nextLaunch := by
  unfold State.devEvent; split <;> rfl
@[simp] theorem State.devEvent_eligibleClock (s : State) (b : Nat) : (s.devEvent b).eligibleClock = s.eligibleClock := by
  unfold State.devEvent; split <;> rfl
@[simp] theorem State.devEvent_dies (s : State) (b : Nat) : (s.devEvent b).dies = s.dies := by
  unfold State.devEvent; split <;> rfl
@[simp] theorem State.devEvent_links (s : State) (b : Nat) : (s.devEvent b).links = s.links := by
  unfold State.devEvent; split <;> rfl
@[simp] theorem State.devEvent_requests (s : State) (b : Nat) : (s.devEvent b).requests = s.requests := by
  unfold State.devEvent; split <;> rfl
@[simp] theorem State.devEvent_late (s : State) (b : Nat) : (s.devEvent b).late = s.late := by
  unfold State.devEvent; split <;> rfl
@[simp] theorem State.devEvent_agenda (s : State) (b : Nat) : (s.devEvent b).agenda = s.agenda := by
  unfold State.devEvent; split <;> rfl
@[simp] theorem State.devEvent_cur (s : State) (b : Nat) : (s.devEvent b).cur = s.cur := by
  unfold State.devEvent; split <;> rfl
@[simp] theorem State.devEvent_tick (s : State) (b : Nat) : (s.devEvent b).tick = s.tick := by
  unfold State.devEvent; split <;> rfl
@[simp] theorem State.devEvent_now (s : State) (b : Nat) : (s.devEvent b).now = s.now := by
  unfold State.devEvent; split <;> rfl

/-! ## Core -/

@[simp] theorem Core.setCtx_classes (x : Core) (k : CtxId) (c : Ctx) : (x.setCtx k c).classes = x.classes := rfl
@[simp] theorem Core.setCtx_inbox (x : Core) (k : CtxId) (c : Ctx) : (x.setCtx k c).inbox = x.inbox := rfl
@[simp] theorem Core.setCtx_control (x : Core) (k : CtxId) (c : Ctx) : (x.setCtx k c).control = x.control := rfl
@[simp] theorem Core.setCtx_deque (x : Core) (k : CtxId) (c : Ctx) : (x.setCtx k c).deque = x.deque := rfl
@[simp] theorem Core.setCtx_spilled (x : Core) (k : CtxId) (c : Ctx) : (x.setCtx k c).spilled = x.spilled := rfl
@[simp] theorem Core.setCtx_nq (x : Core) (k : CtxId) (c : Ctx) : (x.setCtx k c).nq = x.nq := rfl
@[simp] theorem Core.setCtx_acc (x : Core) (k : CtxId) (c : Ctx) : (x.setCtx k c).acc = x.acc := rfl
@[simp] theorem Core.setCtx_accPoison (x : Core) (k : CtxId) (c : Ctx) : (x.setCtx k c).accPoison = x.accPoison := rfl
@[simp] theorem Core.setCtx_cmds (x : Core) (k : CtxId) (c : Ctx) : (x.setCtx k c).cmds = x.cmds := rfl
@[simp] theorem Core.setCtx_started (x : Core) (k : CtxId) (c : Ctx) : (x.setCtx k c).started = x.started := rfl
@[simp] theorem Core.setCtx_cmdSeq (x : Core) (k : CtxId) (c : Ctx) : (x.setCtx k c).cmdSeq = x.cmdSeq := rfl
@[simp] theorem Core.setCtx_done (x : Core) (k : CtxId) (c : Ctx) : (x.setCtx k c).done = x.done := rfl
@[simp] theorem Core.setCtx_pkey (x : Core) (k : CtxId) (c : Ctx) : (x.setCtx k c).pkey = x.pkey := rfl
@[simp] theorem Core.setCtx_awt (x : Core) (k : CtxId) (c : Ctx) : (x.setCtx k c).awt = x.awt := rfl
@[simp] theorem Core.setCtx_steal (x : Core) (k : CtxId) (c : Ctx) : (x.setCtx k c).steal = x.steal := rfl
@[simp] theorem Core.setCtx_backoff (x : Core) (k : CtxId) (c : Ctx) : (x.setCtx k c).backoff = x.backoff := rfl
@[simp] theorem Core.setCtx_nextSteal (x : Core) (k : CtxId) (c : Ctx) : (x.setCtx k c).nextSteal = x.nextSteal := rfl
@[simp] theorem Core.setCtx_stealing (x : Core) (k : CtxId) (c : Ctx) : (x.setCtx k c).stealing = x.stealing := rfl
@[simp] theorem Core.setCtx_noticeOut (x : Core) (k : CtxId) (c : Ctx) : (x.setCtx k c).noticeOut = x.noticeOut := rfl
@[simp] theorem Core.setCtx_clock (x : Core) (k : CtxId) (c : Ctx) : (x.setCtx k c).clock = x.clock := rfl

@[simp] theorem Core.setCls_ctx (x : Core) (k : Nat) (e : ClassEntry) : (x.setCls k e).ctx = x.ctx := rfl
@[simp] theorem Core.setCls_inbox (x : Core) (k : Nat) (e : ClassEntry) : (x.setCls k e).inbox = x.inbox := rfl
@[simp] theorem Core.setCls_control (x : Core) (k : Nat) (e : ClassEntry) : (x.setCls k e).control = x.control := rfl
@[simp] theorem Core.setCls_deque (x : Core) (k : Nat) (e : ClassEntry) : (x.setCls k e).deque = x.deque := rfl
@[simp] theorem Core.setCls_spilled (x : Core) (k : Nat) (e : ClassEntry) : (x.setCls k e).spilled = x.spilled := rfl
@[simp] theorem Core.setCls_nq (x : Core) (k : Nat) (e : ClassEntry) : (x.setCls k e).nq = x.nq := rfl
@[simp] theorem Core.setCls_acc (x : Core) (k : Nat) (e : ClassEntry) : (x.setCls k e).acc = x.acc := rfl
@[simp] theorem Core.setCls_accPoison (x : Core) (k : Nat) (e : ClassEntry) : (x.setCls k e).accPoison = x.accPoison := rfl
@[simp] theorem Core.setCls_cmds (x : Core) (k : Nat) (e : ClassEntry) : (x.setCls k e).cmds = x.cmds := rfl
@[simp] theorem Core.setCls_started (x : Core) (k : Nat) (e : ClassEntry) : (x.setCls k e).started = x.started := rfl
@[simp] theorem Core.setCls_cmdSeq (x : Core) (k : Nat) (e : ClassEntry) : (x.setCls k e).cmdSeq = x.cmdSeq := rfl
@[simp] theorem Core.setCls_done (x : Core) (k : Nat) (e : ClassEntry) : (x.setCls k e).done = x.done := rfl
@[simp] theorem Core.setCls_pkey (x : Core) (k : Nat) (e : ClassEntry) : (x.setCls k e).pkey = x.pkey := rfl
@[simp] theorem Core.setCls_awt (x : Core) (k : Nat) (e : ClassEntry) : (x.setCls k e).awt = x.awt := rfl
@[simp] theorem Core.setCls_steal (x : Core) (k : Nat) (e : ClassEntry) : (x.setCls k e).steal = x.steal := rfl
@[simp] theorem Core.setCls_backoff (x : Core) (k : Nat) (e : ClassEntry) : (x.setCls k e).backoff = x.backoff := rfl
@[simp] theorem Core.setCls_nextSteal (x : Core) (k : Nat) (e : ClassEntry) : (x.setCls k e).nextSteal = x.nextSteal := rfl
@[simp] theorem Core.setCls_stealing (x : Core) (k : Nat) (e : ClassEntry) : (x.setCls k e).stealing = x.stealing := rfl
@[simp] theorem Core.setCls_noticeOut (x : Core) (k : Nat) (e : ClassEntry) : (x.setCls k e).noticeOut = x.noticeOut := rfl
@[simp] theorem Core.setCls_clock (x : Core) (k : Nat) (e : ClassEntry) : (x.setCls k e).clock = x.clock := rfl

@[simp] theorem Core.setNq_ctx (x : Core) (q : BitVec 2) (l : List Sent) : (x.setNq q l).ctx = x.ctx := rfl
@[simp] theorem Core.setNq_classes (x : Core) (q : BitVec 2) (l : List Sent) : (x.setNq q l).classes = x.classes := rfl
@[simp] theorem Core.setNq_inbox (x : Core) (q : BitVec 2) (l : List Sent) : (x.setNq q l).inbox = x.inbox := rfl
@[simp] theorem Core.setNq_control (x : Core) (q : BitVec 2) (l : List Sent) : (x.setNq q l).control = x.control := rfl
@[simp] theorem Core.setNq_deque (x : Core) (q : BitVec 2) (l : List Sent) : (x.setNq q l).deque = x.deque := rfl
@[simp] theorem Core.setNq_spilled (x : Core) (q : BitVec 2) (l : List Sent) : (x.setNq q l).spilled = x.spilled := rfl
@[simp] theorem Core.setNq_acc (x : Core) (q : BitVec 2) (l : List Sent) : (x.setNq q l).acc = x.acc := rfl
@[simp] theorem Core.setNq_accPoison (x : Core) (q : BitVec 2) (l : List Sent) : (x.setNq q l).accPoison = x.accPoison := rfl
@[simp] theorem Core.setNq_cmds (x : Core) (q : BitVec 2) (l : List Sent) : (x.setNq q l).cmds = x.cmds := rfl
@[simp] theorem Core.setNq_started (x : Core) (q : BitVec 2) (l : List Sent) : (x.setNq q l).started = x.started := rfl
@[simp] theorem Core.setNq_cmdSeq (x : Core) (q : BitVec 2) (l : List Sent) : (x.setNq q l).cmdSeq = x.cmdSeq := rfl
@[simp] theorem Core.setNq_done (x : Core) (q : BitVec 2) (l : List Sent) : (x.setNq q l).done = x.done := rfl
@[simp] theorem Core.setNq_pkey (x : Core) (q : BitVec 2) (l : List Sent) : (x.setNq q l).pkey = x.pkey := rfl
@[simp] theorem Core.setNq_awt (x : Core) (q : BitVec 2) (l : List Sent) : (x.setNq q l).awt = x.awt := rfl
@[simp] theorem Core.setNq_steal (x : Core) (q : BitVec 2) (l : List Sent) : (x.setNq q l).steal = x.steal := rfl
@[simp] theorem Core.setNq_backoff (x : Core) (q : BitVec 2) (l : List Sent) : (x.setNq q l).backoff = x.backoff := rfl
@[simp] theorem Core.setNq_nextSteal (x : Core) (q : BitVec 2) (l : List Sent) : (x.setNq q l).nextSteal = x.nextSteal := rfl
@[simp] theorem Core.setNq_stealing (x : Core) (q : BitVec 2) (l : List Sent) : (x.setNq q l).stealing = x.stealing := rfl
@[simp] theorem Core.setNq_noticeOut (x : Core) (q : BitVec 2) (l : List Sent) : (x.setNq q l).noticeOut = x.noticeOut := rfl
@[simp] theorem Core.setNq_clock (x : Core) (q : BitVec 2) (l : List Sent) : (x.setNq q l).clock = x.clock := rfl

/-! ## Ctx -/

@[simp] theorem Ctx.setG_status (x : Ctx) (r : BitVec 5) (w : Word) : (x.setG r w).status = x.status := by
  unfold Ctx.setG; split <;> rfl
@[simp] theorem Ctx.setG_readyAt (x : Ctx) (r : BitVec 5) (w : Word) : (x.setG r w).readyAt = x.readyAt := by
  unfold Ctx.setG; split <;> rfl
@[simp] theorem Ctx.setG_pc (x : Ctx) (r : BitVec 5) (w : Word) : (x.setG r w).pc = x.pc := by
  unfold Ctx.setG; split <;> rfl
@[simp] theorem Ctx.setG_f (x : Ctx) (r : BitVec 5) (w : Word) : (x.setG r w).f = x.f := by
  unfold Ctx.setG; split <;> rfl
@[simp] theorem Ctx.setG_v (x : Ctx) (r : BitVec 5) (w : Word) : (x.setG r w).v = x.v := by
  unfold Ctx.setG; split <;> rfl
@[simp] theorem Ctx.setG_tm (x : Ctx) (r : BitVec 5) (w : Word) : (x.setG r w).tm = x.tm := by
  unfold Ctx.setG; split <;> rfl
@[simp] theorem Ctx.setG_q (x : Ctx) (r : BitVec 5) (w : Word) : (x.setG r w).q = x.q := by
  unfold Ctx.setG; split <;> rfl
@[simp] theorem Ctx.setG_binds (x : Ctx) (r : BitVec 5) (w : Word) : (x.setG r w).binds = x.binds := by
  unfold Ctx.setG; split <;> rfl
@[simp] theorem Ctx.setG_streams (x : Ctx) (r : BitVec 5) (w : Word) : (x.setG r w).streams = x.streams := by
  unfold Ctx.setG; split <;> rfl
@[simp] theorem Ctx.setG_loop (x : Ctx) (r : BitVec 5) (w : Word) : (x.setG r w).loop = x.loop := by
  unfold Ctx.setG; split <;> rfl
@[simp] theorem Ctx.setG_trapLoops (x : Ctx) (r : BitVec 5) (w : Word) : (x.setG r w).trapLoops = x.trapLoops := by
  unfold Ctx.setG; split <;> rfl
@[simp] theorem Ctx.setG_rep (x : Ctx) (r : BitVec 5) (w : Word) : (x.setG r w).rep = x.rep := by
  unfold Ctx.setG; split <;> rfl
@[simp] theorem Ctx.setG_replay (x : Ctx) (r : BitVec 5) (w : Word) : (x.setG r w).replay = x.replay := by
  unfold Ctx.setG; split <;> rfl
@[simp] theorem Ctx.setG_ctl (x : Ctx) (r : BitVec 5) (w : Word) : (x.setG r w).ctl = x.ctl := by
  unfold Ctx.setG; split <;> rfl
@[simp] theorem Ctx.setG_outst (x : Ctx) (r : BitVec 5) (w : Word) : (x.setG r w).outst = x.outst := by
  unfold Ctx.setG; split <;> rfl
@[simp] theorem Ctx.setG_mbxAt (x : Ctx) (r : BitVec 5) (w : Word) : (x.setG r w).mbxAt = x.mbxAt := by
  unfold Ctx.setG; split <;> rfl
@[simp] theorem Ctx.setG_sendq (x : Ctx) (r : BitVec 5) (w : Word) : (x.setG r w).sendq = x.sendq := by
  unfold Ctx.setG; split <;> rfl
@[simp] theorem Ctx.setG_seq (x : Ctx) (r : BitVec 5) (w : Word) : (x.setG r w).seq = x.seq := by
  unfold Ctx.setG; split <;> rfl
@[simp] theorem Ctx.setG_stores (x : Ctx) (r : BitVec 5) (w : Word) : (x.setG r w).stores = x.stores := by
  unfold Ctx.setG; split <;> rfl
@[simp] theorem Ctx.setG_serial (x : Ctx) (r : BitVec 5) (w : Word) : (x.setG r w).serial = x.serial := by
  unfold Ctx.setG; split <;> rfl
@[simp] theorem Ctx.setG_fenceUpTo (x : Ctx) (r : BitVec 5) (w : Word) : (x.setG r w).fenceUpTo = x.fenceUpTo := by
  unfold Ctx.setG; split <;> rfl
@[simp] theorem Ctx.setG_pushUpTo (x : Ctx) (r : BitVec 5) (w : Word) : (x.setG r w).pushUpTo = x.pushUpTo := by
  unfold Ctx.setG; split <;> rfl
@[simp] theorem Ctx.setG_relScope (x : Ctx) (r : BitVec 5) (w : Word) : (x.setG r w).relScope = x.relScope := by
  unfold Ctx.setG; split <;> rfl
@[simp] theorem Ctx.setG_acqAt (x : Ctx) (r : BitVec 5) (w : Word) : (x.setG r w).acqAt = x.acqAt := by
  unfold Ctx.setG; split <;> rfl
@[simp] theorem Ctx.setG_fetchAt (x : Ctx) (r : BitVec 5) (w : Word) : (x.setG r w).fetchAt = x.fetchAt := by
  unfold Ctx.setG; split <;> rfl
@[simp] theorem Ctx.setG_floor (x : Ctx) (r : BitVec 5) (w : Word) : (x.setG r w).floor = x.floor := by
  unfold Ctx.setG; split <;> rfl
@[simp] theorem Ctx.setG_tagged (x : Ctx) (r : BitVec 5) (w : Word) : (x.setG r w).tagged = x.tagged := by
  unfold Ctx.setG; split <;> rfl
@[simp] theorem Ctx.setG_nms (x : Ctx) (r : BitVec 5) (w : Word) : (x.setG r w).nms = x.nms := by
  unfold Ctx.setG; split <;> rfl
@[simp] theorem Ctx.setG_nmDone (x : Ctx) (r : BitVec 5) (w : Word) : (x.setG r w).nmDone = x.nmDone := by
  unfold Ctx.setG; split <;> rfl
@[simp] theorem Ctx.setG_owed (x : Ctx) (r : BitVec 5) (w : Word) : (x.setG r w).owed = x.owed := by
  unfold Ctx.setG; split <;> rfl
@[simp] theorem Ctx.setG_xfer (x : Ctx) (r : BitVec 5) (w : Word) : (x.setG r w).xfer = x.xfer := by
  unfold Ctx.setG; split <;> rfl
@[simp] theorem Ctx.setG_grant (x : Ctx) (r : BitVec 5) (w : Word) : (x.setG r w).grant = x.grant := by
  unfold Ctx.setG; split <;> rfl
@[simp] theorem Ctx.setG_bsops (x : Ctx) (r : BitVec 5) (w : Word) : (x.setG r w).bsops = x.bsops := by
  unfold Ctx.setG; split <;> rfl
@[simp] theorem Ctx.setG_wait (x : Ctx) (r : BitVec 5) (w : Word) : (x.setG r w).wait = x.wait := by
  unfold Ctx.setG; split <;> rfl
@[simp] theorem Ctx.setG_waitFrom (x : Ctx) (r : BitVec 5) (w : Word) : (x.setG r w).waitFrom = x.waitFrom := by
  unfold Ctx.setG; split <;> rfl
@[simp] theorem Ctx.setG_task (x : Ctx) (r : BitVec 5) (w : Word) : (x.setG r w).task = x.task := by
  unfold Ctx.setG; split <;> rfl
@[simp] theorem Ctx.setG_halted (x : Ctx) (r : BitVec 5) (w : Word) : (x.setG r w).halted = x.halted := by
  unfold Ctx.setG; split <;> rfl
@[simp] theorem Ctx.setG_accrd (x : Ctx) (r : BitVec 5) (w : Word) : (x.setG r w).accrd = x.accrd := by
  unfold Ctx.setG; split <;> rfl
@[simp] theorem Ctx.setG_aliasing (x : Ctx) (r : BitVec 5) (w : Word) : (x.setG r w).aliasing = x.aliasing := by
  unfold Ctx.setG; split <;> rfl

@[simp] theorem Ctx.setF_status (x : Ctx) (r : BitVec 5) (w : Word) : (x.setF r w).status = x.status := rfl
@[simp] theorem Ctx.setF_readyAt (x : Ctx) (r : BitVec 5) (w : Word) : (x.setF r w).readyAt = x.readyAt := rfl
@[simp] theorem Ctx.setF_pc (x : Ctx) (r : BitVec 5) (w : Word) : (x.setF r w).pc = x.pc := rfl
@[simp] theorem Ctx.setF_g (x : Ctx) (r : BitVec 5) (w : Word) : (x.setF r w).g = x.g := rfl
@[simp] theorem Ctx.setF_v (x : Ctx) (r : BitVec 5) (w : Word) : (x.setF r w).v = x.v := rfl
@[simp] theorem Ctx.setF_tm (x : Ctx) (r : BitVec 5) (w : Word) : (x.setF r w).tm = x.tm := rfl
@[simp] theorem Ctx.setF_q (x : Ctx) (r : BitVec 5) (w : Word) : (x.setF r w).q = x.q := rfl
@[simp] theorem Ctx.setF_binds (x : Ctx) (r : BitVec 5) (w : Word) : (x.setF r w).binds = x.binds := rfl
@[simp] theorem Ctx.setF_streams (x : Ctx) (r : BitVec 5) (w : Word) : (x.setF r w).streams = x.streams := rfl
@[simp] theorem Ctx.setF_loop (x : Ctx) (r : BitVec 5) (w : Word) : (x.setF r w).loop = x.loop := rfl
@[simp] theorem Ctx.setF_trapLoops (x : Ctx) (r : BitVec 5) (w : Word) : (x.setF r w).trapLoops = x.trapLoops := rfl
@[simp] theorem Ctx.setF_rep (x : Ctx) (r : BitVec 5) (w : Word) : (x.setF r w).rep = x.rep := rfl
@[simp] theorem Ctx.setF_replay (x : Ctx) (r : BitVec 5) (w : Word) : (x.setF r w).replay = x.replay := rfl
@[simp] theorem Ctx.setF_ctl (x : Ctx) (r : BitVec 5) (w : Word) : (x.setF r w).ctl = x.ctl := rfl
@[simp] theorem Ctx.setF_outst (x : Ctx) (r : BitVec 5) (w : Word) : (x.setF r w).outst = x.outst := rfl
@[simp] theorem Ctx.setF_mbxAt (x : Ctx) (r : BitVec 5) (w : Word) : (x.setF r w).mbxAt = x.mbxAt := rfl
@[simp] theorem Ctx.setF_sendq (x : Ctx) (r : BitVec 5) (w : Word) : (x.setF r w).sendq = x.sendq := rfl
@[simp] theorem Ctx.setF_seq (x : Ctx) (r : BitVec 5) (w : Word) : (x.setF r w).seq = x.seq := rfl
@[simp] theorem Ctx.setF_stores (x : Ctx) (r : BitVec 5) (w : Word) : (x.setF r w).stores = x.stores := rfl
@[simp] theorem Ctx.setF_serial (x : Ctx) (r : BitVec 5) (w : Word) : (x.setF r w).serial = x.serial := rfl
@[simp] theorem Ctx.setF_fenceUpTo (x : Ctx) (r : BitVec 5) (w : Word) : (x.setF r w).fenceUpTo = x.fenceUpTo := rfl
@[simp] theorem Ctx.setF_pushUpTo (x : Ctx) (r : BitVec 5) (w : Word) : (x.setF r w).pushUpTo = x.pushUpTo := rfl
@[simp] theorem Ctx.setF_relScope (x : Ctx) (r : BitVec 5) (w : Word) : (x.setF r w).relScope = x.relScope := rfl
@[simp] theorem Ctx.setF_acqAt (x : Ctx) (r : BitVec 5) (w : Word) : (x.setF r w).acqAt = x.acqAt := rfl
@[simp] theorem Ctx.setF_fetchAt (x : Ctx) (r : BitVec 5) (w : Word) : (x.setF r w).fetchAt = x.fetchAt := rfl
@[simp] theorem Ctx.setF_floor (x : Ctx) (r : BitVec 5) (w : Word) : (x.setF r w).floor = x.floor := rfl
@[simp] theorem Ctx.setF_tagged (x : Ctx) (r : BitVec 5) (w : Word) : (x.setF r w).tagged = x.tagged := rfl
@[simp] theorem Ctx.setF_nms (x : Ctx) (r : BitVec 5) (w : Word) : (x.setF r w).nms = x.nms := rfl
@[simp] theorem Ctx.setF_nmDone (x : Ctx) (r : BitVec 5) (w : Word) : (x.setF r w).nmDone = x.nmDone := rfl
@[simp] theorem Ctx.setF_owed (x : Ctx) (r : BitVec 5) (w : Word) : (x.setF r w).owed = x.owed := rfl
@[simp] theorem Ctx.setF_xfer (x : Ctx) (r : BitVec 5) (w : Word) : (x.setF r w).xfer = x.xfer := rfl
@[simp] theorem Ctx.setF_grant (x : Ctx) (r : BitVec 5) (w : Word) : (x.setF r w).grant = x.grant := rfl
@[simp] theorem Ctx.setF_bsops (x : Ctx) (r : BitVec 5) (w : Word) : (x.setF r w).bsops = x.bsops := rfl
@[simp] theorem Ctx.setF_wait (x : Ctx) (r : BitVec 5) (w : Word) : (x.setF r w).wait = x.wait := rfl
@[simp] theorem Ctx.setF_waitFrom (x : Ctx) (r : BitVec 5) (w : Word) : (x.setF r w).waitFrom = x.waitFrom := rfl
@[simp] theorem Ctx.setF_task (x : Ctx) (r : BitVec 5) (w : Word) : (x.setF r w).task = x.task := rfl
@[simp] theorem Ctx.setF_halted (x : Ctx) (r : BitVec 5) (w : Word) : (x.setF r w).halted = x.halted := rfl
@[simp] theorem Ctx.setF_accrd (x : Ctx) (r : BitVec 5) (w : Word) : (x.setF r w).accrd = x.accrd := rfl
@[simp] theorem Ctx.setF_aliasing (x : Ctx) (r : BitVec 5) (w : Word) : (x.setF r w).aliasing = x.aliasing := rfl

@[simp] theorem Ctx.setV_status (x : Ctx) (r : BitVec 4) (w : Vec) : (x.setV r w).status = x.status := rfl
@[simp] theorem Ctx.setV_readyAt (x : Ctx) (r : BitVec 4) (w : Vec) : (x.setV r w).readyAt = x.readyAt := rfl
@[simp] theorem Ctx.setV_pc (x : Ctx) (r : BitVec 4) (w : Vec) : (x.setV r w).pc = x.pc := rfl
@[simp] theorem Ctx.setV_g (x : Ctx) (r : BitVec 4) (w : Vec) : (x.setV r w).g = x.g := rfl
@[simp] theorem Ctx.setV_f (x : Ctx) (r : BitVec 4) (w : Vec) : (x.setV r w).f = x.f := rfl
@[simp] theorem Ctx.setV_tm (x : Ctx) (r : BitVec 4) (w : Vec) : (x.setV r w).tm = x.tm := rfl
@[simp] theorem Ctx.setV_q (x : Ctx) (r : BitVec 4) (w : Vec) : (x.setV r w).q = x.q := rfl
@[simp] theorem Ctx.setV_binds (x : Ctx) (r : BitVec 4) (w : Vec) : (x.setV r w).binds = x.binds := rfl
@[simp] theorem Ctx.setV_streams (x : Ctx) (r : BitVec 4) (w : Vec) : (x.setV r w).streams = x.streams := rfl
@[simp] theorem Ctx.setV_loop (x : Ctx) (r : BitVec 4) (w : Vec) : (x.setV r w).loop = x.loop := rfl
@[simp] theorem Ctx.setV_trapLoops (x : Ctx) (r : BitVec 4) (w : Vec) : (x.setV r w).trapLoops = x.trapLoops := rfl
@[simp] theorem Ctx.setV_rep (x : Ctx) (r : BitVec 4) (w : Vec) : (x.setV r w).rep = x.rep := rfl
@[simp] theorem Ctx.setV_replay (x : Ctx) (r : BitVec 4) (w : Vec) : (x.setV r w).replay = x.replay := rfl
@[simp] theorem Ctx.setV_ctl (x : Ctx) (r : BitVec 4) (w : Vec) : (x.setV r w).ctl = x.ctl := rfl
@[simp] theorem Ctx.setV_outst (x : Ctx) (r : BitVec 4) (w : Vec) : (x.setV r w).outst = x.outst := rfl
@[simp] theorem Ctx.setV_mbxAt (x : Ctx) (r : BitVec 4) (w : Vec) : (x.setV r w).mbxAt = x.mbxAt := rfl
@[simp] theorem Ctx.setV_sendq (x : Ctx) (r : BitVec 4) (w : Vec) : (x.setV r w).sendq = x.sendq := rfl
@[simp] theorem Ctx.setV_seq (x : Ctx) (r : BitVec 4) (w : Vec) : (x.setV r w).seq = x.seq := rfl
@[simp] theorem Ctx.setV_stores (x : Ctx) (r : BitVec 4) (w : Vec) : (x.setV r w).stores = x.stores := rfl
@[simp] theorem Ctx.setV_serial (x : Ctx) (r : BitVec 4) (w : Vec) : (x.setV r w).serial = x.serial := rfl
@[simp] theorem Ctx.setV_fenceUpTo (x : Ctx) (r : BitVec 4) (w : Vec) : (x.setV r w).fenceUpTo = x.fenceUpTo := rfl
@[simp] theorem Ctx.setV_pushUpTo (x : Ctx) (r : BitVec 4) (w : Vec) : (x.setV r w).pushUpTo = x.pushUpTo := rfl
@[simp] theorem Ctx.setV_relScope (x : Ctx) (r : BitVec 4) (w : Vec) : (x.setV r w).relScope = x.relScope := rfl
@[simp] theorem Ctx.setV_acqAt (x : Ctx) (r : BitVec 4) (w : Vec) : (x.setV r w).acqAt = x.acqAt := rfl
@[simp] theorem Ctx.setV_fetchAt (x : Ctx) (r : BitVec 4) (w : Vec) : (x.setV r w).fetchAt = x.fetchAt := rfl
@[simp] theorem Ctx.setV_floor (x : Ctx) (r : BitVec 4) (w : Vec) : (x.setV r w).floor = x.floor := rfl
@[simp] theorem Ctx.setV_tagged (x : Ctx) (r : BitVec 4) (w : Vec) : (x.setV r w).tagged = x.tagged := rfl
@[simp] theorem Ctx.setV_nms (x : Ctx) (r : BitVec 4) (w : Vec) : (x.setV r w).nms = x.nms := rfl
@[simp] theorem Ctx.setV_nmDone (x : Ctx) (r : BitVec 4) (w : Vec) : (x.setV r w).nmDone = x.nmDone := rfl
@[simp] theorem Ctx.setV_owed (x : Ctx) (r : BitVec 4) (w : Vec) : (x.setV r w).owed = x.owed := rfl
@[simp] theorem Ctx.setV_xfer (x : Ctx) (r : BitVec 4) (w : Vec) : (x.setV r w).xfer = x.xfer := rfl
@[simp] theorem Ctx.setV_grant (x : Ctx) (r : BitVec 4) (w : Vec) : (x.setV r w).grant = x.grant := rfl
@[simp] theorem Ctx.setV_bsops (x : Ctx) (r : BitVec 4) (w : Vec) : (x.setV r w).bsops = x.bsops := rfl
@[simp] theorem Ctx.setV_wait (x : Ctx) (r : BitVec 4) (w : Vec) : (x.setV r w).wait = x.wait := rfl
@[simp] theorem Ctx.setV_waitFrom (x : Ctx) (r : BitVec 4) (w : Vec) : (x.setV r w).waitFrom = x.waitFrom := rfl
@[simp] theorem Ctx.setV_task (x : Ctx) (r : BitVec 4) (w : Vec) : (x.setV r w).task = x.task := rfl
@[simp] theorem Ctx.setV_halted (x : Ctx) (r : BitVec 4) (w : Vec) : (x.setV r w).halted = x.halted := rfl
@[simp] theorem Ctx.setV_accrd (x : Ctx) (r : BitVec 4) (w : Vec) : (x.setV r w).accrd = x.accrd := rfl
@[simp] theorem Ctx.setV_aliasing (x : Ctx) (r : BitVec 4) (w : Vec) : (x.setV r w).aliasing = x.aliasing := rfl

@[simp] theorem Ctx.setTm_status (x : Ctx) (r : BitVec 4) (w : BitVec 512) : (x.setTm r w).status = x.status := rfl
@[simp] theorem Ctx.setTm_readyAt (x : Ctx) (r : BitVec 4) (w : BitVec 512) : (x.setTm r w).readyAt = x.readyAt := rfl
@[simp] theorem Ctx.setTm_pc (x : Ctx) (r : BitVec 4) (w : BitVec 512) : (x.setTm r w).pc = x.pc := rfl
@[simp] theorem Ctx.setTm_g (x : Ctx) (r : BitVec 4) (w : BitVec 512) : (x.setTm r w).g = x.g := rfl
@[simp] theorem Ctx.setTm_f (x : Ctx) (r : BitVec 4) (w : BitVec 512) : (x.setTm r w).f = x.f := rfl
@[simp] theorem Ctx.setTm_v (x : Ctx) (r : BitVec 4) (w : BitVec 512) : (x.setTm r w).v = x.v := rfl
@[simp] theorem Ctx.setTm_q (x : Ctx) (r : BitVec 4) (w : BitVec 512) : (x.setTm r w).q = x.q := rfl
@[simp] theorem Ctx.setTm_binds (x : Ctx) (r : BitVec 4) (w : BitVec 512) : (x.setTm r w).binds = x.binds := rfl
@[simp] theorem Ctx.setTm_streams (x : Ctx) (r : BitVec 4) (w : BitVec 512) : (x.setTm r w).streams = x.streams := rfl
@[simp] theorem Ctx.setTm_loop (x : Ctx) (r : BitVec 4) (w : BitVec 512) : (x.setTm r w).loop = x.loop := rfl
@[simp] theorem Ctx.setTm_trapLoops (x : Ctx) (r : BitVec 4) (w : BitVec 512) : (x.setTm r w).trapLoops = x.trapLoops := rfl
@[simp] theorem Ctx.setTm_rep (x : Ctx) (r : BitVec 4) (w : BitVec 512) : (x.setTm r w).rep = x.rep := rfl
@[simp] theorem Ctx.setTm_replay (x : Ctx) (r : BitVec 4) (w : BitVec 512) : (x.setTm r w).replay = x.replay := rfl
@[simp] theorem Ctx.setTm_ctl (x : Ctx) (r : BitVec 4) (w : BitVec 512) : (x.setTm r w).ctl = x.ctl := rfl
@[simp] theorem Ctx.setTm_outst (x : Ctx) (r : BitVec 4) (w : BitVec 512) : (x.setTm r w).outst = x.outst := rfl
@[simp] theorem Ctx.setTm_mbxAt (x : Ctx) (r : BitVec 4) (w : BitVec 512) : (x.setTm r w).mbxAt = x.mbxAt := rfl
@[simp] theorem Ctx.setTm_sendq (x : Ctx) (r : BitVec 4) (w : BitVec 512) : (x.setTm r w).sendq = x.sendq := rfl
@[simp] theorem Ctx.setTm_seq (x : Ctx) (r : BitVec 4) (w : BitVec 512) : (x.setTm r w).seq = x.seq := rfl
@[simp] theorem Ctx.setTm_stores (x : Ctx) (r : BitVec 4) (w : BitVec 512) : (x.setTm r w).stores = x.stores := rfl
@[simp] theorem Ctx.setTm_serial (x : Ctx) (r : BitVec 4) (w : BitVec 512) : (x.setTm r w).serial = x.serial := rfl
@[simp] theorem Ctx.setTm_fenceUpTo (x : Ctx) (r : BitVec 4) (w : BitVec 512) : (x.setTm r w).fenceUpTo = x.fenceUpTo := rfl
@[simp] theorem Ctx.setTm_pushUpTo (x : Ctx) (r : BitVec 4) (w : BitVec 512) : (x.setTm r w).pushUpTo = x.pushUpTo := rfl
@[simp] theorem Ctx.setTm_relScope (x : Ctx) (r : BitVec 4) (w : BitVec 512) : (x.setTm r w).relScope = x.relScope := rfl
@[simp] theorem Ctx.setTm_acqAt (x : Ctx) (r : BitVec 4) (w : BitVec 512) : (x.setTm r w).acqAt = x.acqAt := rfl
@[simp] theorem Ctx.setTm_fetchAt (x : Ctx) (r : BitVec 4) (w : BitVec 512) : (x.setTm r w).fetchAt = x.fetchAt := rfl
@[simp] theorem Ctx.setTm_floor (x : Ctx) (r : BitVec 4) (w : BitVec 512) : (x.setTm r w).floor = x.floor := rfl
@[simp] theorem Ctx.setTm_tagged (x : Ctx) (r : BitVec 4) (w : BitVec 512) : (x.setTm r w).tagged = x.tagged := rfl
@[simp] theorem Ctx.setTm_nms (x : Ctx) (r : BitVec 4) (w : BitVec 512) : (x.setTm r w).nms = x.nms := rfl
@[simp] theorem Ctx.setTm_nmDone (x : Ctx) (r : BitVec 4) (w : BitVec 512) : (x.setTm r w).nmDone = x.nmDone := rfl
@[simp] theorem Ctx.setTm_owed (x : Ctx) (r : BitVec 4) (w : BitVec 512) : (x.setTm r w).owed = x.owed := rfl
@[simp] theorem Ctx.setTm_xfer (x : Ctx) (r : BitVec 4) (w : BitVec 512) : (x.setTm r w).xfer = x.xfer := rfl
@[simp] theorem Ctx.setTm_grant (x : Ctx) (r : BitVec 4) (w : BitVec 512) : (x.setTm r w).grant = x.grant := rfl
@[simp] theorem Ctx.setTm_bsops (x : Ctx) (r : BitVec 4) (w : BitVec 512) : (x.setTm r w).bsops = x.bsops := rfl
@[simp] theorem Ctx.setTm_wait (x : Ctx) (r : BitVec 4) (w : BitVec 512) : (x.setTm r w).wait = x.wait := rfl
@[simp] theorem Ctx.setTm_waitFrom (x : Ctx) (r : BitVec 4) (w : BitVec 512) : (x.setTm r w).waitFrom = x.waitFrom := rfl
@[simp] theorem Ctx.setTm_task (x : Ctx) (r : BitVec 4) (w : BitVec 512) : (x.setTm r w).task = x.task := rfl
@[simp] theorem Ctx.setTm_halted (x : Ctx) (r : BitVec 4) (w : BitVec 512) : (x.setTm r w).halted = x.halted := rfl
@[simp] theorem Ctx.setTm_accrd (x : Ctx) (r : BitVec 4) (w : BitVec 512) : (x.setTm r w).accrd = x.accrd := rfl
@[simp] theorem Ctx.setTm_aliasing (x : Ctx) (r : BitVec 4) (w : BitVec 512) : (x.setTm r w).aliasing = x.aliasing := rfl

@[simp] theorem Ctx.setQ_status (x : Ctx) (q : BitVec 2) (l : List Vec) : (x.setQ q l).status = x.status := rfl
@[simp] theorem Ctx.setQ_readyAt (x : Ctx) (q : BitVec 2) (l : List Vec) : (x.setQ q l).readyAt = x.readyAt := rfl
@[simp] theorem Ctx.setQ_pc (x : Ctx) (q : BitVec 2) (l : List Vec) : (x.setQ q l).pc = x.pc := rfl
@[simp] theorem Ctx.setQ_g (x : Ctx) (q : BitVec 2) (l : List Vec) : (x.setQ q l).g = x.g := rfl
@[simp] theorem Ctx.setQ_f (x : Ctx) (q : BitVec 2) (l : List Vec) : (x.setQ q l).f = x.f := rfl
@[simp] theorem Ctx.setQ_v (x : Ctx) (q : BitVec 2) (l : List Vec) : (x.setQ q l).v = x.v := rfl
@[simp] theorem Ctx.setQ_tm (x : Ctx) (q : BitVec 2) (l : List Vec) : (x.setQ q l).tm = x.tm := rfl
@[simp] theorem Ctx.setQ_binds (x : Ctx) (q : BitVec 2) (l : List Vec) : (x.setQ q l).binds = x.binds := rfl
@[simp] theorem Ctx.setQ_streams (x : Ctx) (q : BitVec 2) (l : List Vec) : (x.setQ q l).streams = x.streams := rfl
@[simp] theorem Ctx.setQ_loop (x : Ctx) (q : BitVec 2) (l : List Vec) : (x.setQ q l).loop = x.loop := rfl
@[simp] theorem Ctx.setQ_trapLoops (x : Ctx) (q : BitVec 2) (l : List Vec) : (x.setQ q l).trapLoops = x.trapLoops := rfl
@[simp] theorem Ctx.setQ_rep (x : Ctx) (q : BitVec 2) (l : List Vec) : (x.setQ q l).rep = x.rep := rfl
@[simp] theorem Ctx.setQ_replay (x : Ctx) (q : BitVec 2) (l : List Vec) : (x.setQ q l).replay = x.replay := rfl
@[simp] theorem Ctx.setQ_ctl (x : Ctx) (q : BitVec 2) (l : List Vec) : (x.setQ q l).ctl = x.ctl := rfl
@[simp] theorem Ctx.setQ_outst (x : Ctx) (q : BitVec 2) (l : List Vec) : (x.setQ q l).outst = x.outst := rfl
@[simp] theorem Ctx.setQ_mbxAt (x : Ctx) (q : BitVec 2) (l : List Vec) : (x.setQ q l).mbxAt = x.mbxAt := rfl
@[simp] theorem Ctx.setQ_sendq (x : Ctx) (q : BitVec 2) (l : List Vec) : (x.setQ q l).sendq = x.sendq := rfl
@[simp] theorem Ctx.setQ_seq (x : Ctx) (q : BitVec 2) (l : List Vec) : (x.setQ q l).seq = x.seq := rfl
@[simp] theorem Ctx.setQ_stores (x : Ctx) (q : BitVec 2) (l : List Vec) : (x.setQ q l).stores = x.stores := rfl
@[simp] theorem Ctx.setQ_serial (x : Ctx) (q : BitVec 2) (l : List Vec) : (x.setQ q l).serial = x.serial := rfl
@[simp] theorem Ctx.setQ_fenceUpTo (x : Ctx) (q : BitVec 2) (l : List Vec) : (x.setQ q l).fenceUpTo = x.fenceUpTo := rfl
@[simp] theorem Ctx.setQ_pushUpTo (x : Ctx) (q : BitVec 2) (l : List Vec) : (x.setQ q l).pushUpTo = x.pushUpTo := rfl
@[simp] theorem Ctx.setQ_relScope (x : Ctx) (q : BitVec 2) (l : List Vec) : (x.setQ q l).relScope = x.relScope := rfl
@[simp] theorem Ctx.setQ_acqAt (x : Ctx) (q : BitVec 2) (l : List Vec) : (x.setQ q l).acqAt = x.acqAt := rfl
@[simp] theorem Ctx.setQ_fetchAt (x : Ctx) (q : BitVec 2) (l : List Vec) : (x.setQ q l).fetchAt = x.fetchAt := rfl
@[simp] theorem Ctx.setQ_floor (x : Ctx) (q : BitVec 2) (l : List Vec) : (x.setQ q l).floor = x.floor := rfl
@[simp] theorem Ctx.setQ_tagged (x : Ctx) (q : BitVec 2) (l : List Vec) : (x.setQ q l).tagged = x.tagged := rfl
@[simp] theorem Ctx.setQ_nms (x : Ctx) (q : BitVec 2) (l : List Vec) : (x.setQ q l).nms = x.nms := rfl
@[simp] theorem Ctx.setQ_nmDone (x : Ctx) (q : BitVec 2) (l : List Vec) : (x.setQ q l).nmDone = x.nmDone := rfl
@[simp] theorem Ctx.setQ_owed (x : Ctx) (q : BitVec 2) (l : List Vec) : (x.setQ q l).owed = x.owed := rfl
@[simp] theorem Ctx.setQ_xfer (x : Ctx) (q : BitVec 2) (l : List Vec) : (x.setQ q l).xfer = x.xfer := rfl
@[simp] theorem Ctx.setQ_grant (x : Ctx) (q : BitVec 2) (l : List Vec) : (x.setQ q l).grant = x.grant := rfl
@[simp] theorem Ctx.setQ_bsops (x : Ctx) (q : BitVec 2) (l : List Vec) : (x.setQ q l).bsops = x.bsops := rfl
@[simp] theorem Ctx.setQ_wait (x : Ctx) (q : BitVec 2) (l : List Vec) : (x.setQ q l).wait = x.wait := rfl
@[simp] theorem Ctx.setQ_waitFrom (x : Ctx) (q : BitVec 2) (l : List Vec) : (x.setQ q l).waitFrom = x.waitFrom := rfl
@[simp] theorem Ctx.setQ_task (x : Ctx) (q : BitVec 2) (l : List Vec) : (x.setQ q l).task = x.task := rfl
@[simp] theorem Ctx.setQ_halted (x : Ctx) (q : BitVec 2) (l : List Vec) : (x.setQ q l).halted = x.halted := rfl
@[simp] theorem Ctx.setQ_accrd (x : Ctx) (q : BitVec 2) (l : List Vec) : (x.setQ q l).accrd = x.accrd := rfl
@[simp] theorem Ctx.setQ_aliasing (x : Ctx) (q : BitVec 2) (l : List Vec) : (x.setQ q l).aliasing = x.aliasing := rfl

@[simp] theorem Ctx.withCtl_status (x : Ctx) (f : Ctl → Ctl) : (x.withCtl f).status = x.status := rfl
@[simp] theorem Ctx.withCtl_readyAt (x : Ctx) (f : Ctl → Ctl) : (x.withCtl f).readyAt = x.readyAt := rfl
@[simp] theorem Ctx.withCtl_pc (x : Ctx) (f : Ctl → Ctl) : (x.withCtl f).pc = x.pc := rfl
@[simp] theorem Ctx.withCtl_g (x : Ctx) (f : Ctl → Ctl) : (x.withCtl f).g = x.g := rfl
@[simp] theorem Ctx.withCtl_f (x : Ctx) (f : Ctl → Ctl) : (x.withCtl f).f = x.f := rfl
@[simp] theorem Ctx.withCtl_v (x : Ctx) (f : Ctl → Ctl) : (x.withCtl f).v = x.v := rfl
@[simp] theorem Ctx.withCtl_tm (x : Ctx) (f : Ctl → Ctl) : (x.withCtl f).tm = x.tm := rfl
@[simp] theorem Ctx.withCtl_q (x : Ctx) (f : Ctl → Ctl) : (x.withCtl f).q = x.q := rfl
@[simp] theorem Ctx.withCtl_binds (x : Ctx) (f : Ctl → Ctl) : (x.withCtl f).binds = x.binds := rfl
@[simp] theorem Ctx.withCtl_streams (x : Ctx) (f : Ctl → Ctl) : (x.withCtl f).streams = x.streams := rfl
@[simp] theorem Ctx.withCtl_loop (x : Ctx) (f : Ctl → Ctl) : (x.withCtl f).loop = x.loop := rfl
@[simp] theorem Ctx.withCtl_trapLoops (x : Ctx) (f : Ctl → Ctl) : (x.withCtl f).trapLoops = x.trapLoops := rfl
@[simp] theorem Ctx.withCtl_rep (x : Ctx) (f : Ctl → Ctl) : (x.withCtl f).rep = x.rep := rfl
@[simp] theorem Ctx.withCtl_replay (x : Ctx) (f : Ctl → Ctl) : (x.withCtl f).replay = x.replay := rfl
@[simp] theorem Ctx.withCtl_outst (x : Ctx) (f : Ctl → Ctl) : (x.withCtl f).outst = x.outst := rfl
@[simp] theorem Ctx.withCtl_mbxAt (x : Ctx) (f : Ctl → Ctl) : (x.withCtl f).mbxAt = x.mbxAt := rfl
@[simp] theorem Ctx.withCtl_sendq (x : Ctx) (f : Ctl → Ctl) : (x.withCtl f).sendq = x.sendq := rfl
@[simp] theorem Ctx.withCtl_seq (x : Ctx) (f : Ctl → Ctl) : (x.withCtl f).seq = x.seq := rfl
@[simp] theorem Ctx.withCtl_stores (x : Ctx) (f : Ctl → Ctl) : (x.withCtl f).stores = x.stores := rfl
@[simp] theorem Ctx.withCtl_serial (x : Ctx) (f : Ctl → Ctl) : (x.withCtl f).serial = x.serial := rfl
@[simp] theorem Ctx.withCtl_fenceUpTo (x : Ctx) (f : Ctl → Ctl) : (x.withCtl f).fenceUpTo = x.fenceUpTo := rfl
@[simp] theorem Ctx.withCtl_pushUpTo (x : Ctx) (f : Ctl → Ctl) : (x.withCtl f).pushUpTo = x.pushUpTo := rfl
@[simp] theorem Ctx.withCtl_relScope (x : Ctx) (f : Ctl → Ctl) : (x.withCtl f).relScope = x.relScope := rfl
@[simp] theorem Ctx.withCtl_acqAt (x : Ctx) (f : Ctl → Ctl) : (x.withCtl f).acqAt = x.acqAt := rfl
@[simp] theorem Ctx.withCtl_fetchAt (x : Ctx) (f : Ctl → Ctl) : (x.withCtl f).fetchAt = x.fetchAt := rfl
@[simp] theorem Ctx.withCtl_floor (x : Ctx) (f : Ctl → Ctl) : (x.withCtl f).floor = x.floor := rfl
@[simp] theorem Ctx.withCtl_tagged (x : Ctx) (f : Ctl → Ctl) : (x.withCtl f).tagged = x.tagged := rfl
@[simp] theorem Ctx.withCtl_nms (x : Ctx) (f : Ctl → Ctl) : (x.withCtl f).nms = x.nms := rfl
@[simp] theorem Ctx.withCtl_nmDone (x : Ctx) (f : Ctl → Ctl) : (x.withCtl f).nmDone = x.nmDone := rfl
@[simp] theorem Ctx.withCtl_owed (x : Ctx) (f : Ctl → Ctl) : (x.withCtl f).owed = x.owed := rfl
@[simp] theorem Ctx.withCtl_xfer (x : Ctx) (f : Ctl → Ctl) : (x.withCtl f).xfer = x.xfer := rfl
@[simp] theorem Ctx.withCtl_grant (x : Ctx) (f : Ctl → Ctl) : (x.withCtl f).grant = x.grant := rfl
@[simp] theorem Ctx.withCtl_bsops (x : Ctx) (f : Ctl → Ctl) : (x.withCtl f).bsops = x.bsops := rfl
@[simp] theorem Ctx.withCtl_wait (x : Ctx) (f : Ctl → Ctl) : (x.withCtl f).wait = x.wait := rfl
@[simp] theorem Ctx.withCtl_waitFrom (x : Ctx) (f : Ctl → Ctl) : (x.withCtl f).waitFrom = x.waitFrom := rfl
@[simp] theorem Ctx.withCtl_task (x : Ctx) (f : Ctl → Ctl) : (x.withCtl f).task = x.task := rfl
@[simp] theorem Ctx.withCtl_halted (x : Ctx) (f : Ctl → Ctl) : (x.withCtl f).halted = x.halted := rfl
@[simp] theorem Ctx.withCtl_accrd (x : Ctx) (f : Ctl → Ctl) : (x.withCtl f).accrd = x.accrd := rfl
@[simp] theorem Ctx.withCtl_aliasing (x : Ctx) (f : Ctl → Ctl) : (x.withCtl f).aliasing = x.aliasing := rfl

@[simp] theorem Ctx.withCtl_ctl (x : Ctx) (f : Ctl → Ctl) : (x.withCtl f).ctl = f x.ctl := rfl
@[simp] theorem State.setCtxAt_setMe (s : State) (x : Ctx) : s.setCtxAt s.cur.core s.cur.ctx x = s.setMe x := rfl

/-! ## The numbered maps -/

theorem Assoc.get?_put_same {α : Type} (m : Assoc α) (k : Nat) (x : α) : Assoc.get? (Assoc.put m k x) k = some x := by
  induction m with grind [Assoc.put, Assoc.get?]
theorem Assoc.get?_put_other {α : Type} (m : Assoc α) {k j : Nat} (h : j ≠ k) (x : α) :
    Assoc.get? (Assoc.put m k x) j = Assoc.get? m j := by
  induction m with grind [Assoc.put, Assoc.get?]
theorem Assoc.put_put {α : Type} (m : Assoc α) (k : Nat) (x y : α) : Assoc.put (Assoc.put m k x) k y = Assoc.put m k y := by
  induction m with grind [Assoc.put]

/-! ## A part read after it is written, and written twice -/

@[simp] theorem Core.setCtx_setCtx (x : Core) (k : CtxId) (c d : Ctx) : (x.setCtx k c).setCtx k d = x.setCtx k d := by
  simp [Core.setCtx]
@[simp] theorem State.setCore_setCore (s : State) (c : CoreId) (x y : Core) :
    (s.setCore c x).setCore c y = s.setCore c y := by
  simp [State.setCore, Assoc.put_put]

@[simp] theorem Core.ctxAt_setCtx (x : Core) (k : CtxId) (c : Ctx) : (x.setCtx k c).ctxAt k = c := by
  simp [Core.ctxAt, Core.setCtx, Vector.get_eq_getElem]
theorem Core.ctxAt_setCtx_other (x : Core) {k j : CtxId} (h : j ≠ k) (c : Ctx) :
    (x.setCtx k c).ctxAt j = x.ctxAt j := by
  have h' : k.toNat ≠ j.toNat := fun e => h (BitVec.eq_of_toNat_eq e).symm
  simp [Core.ctxAt, Core.setCtx, Vector.get_eq_getElem, h']
@[simp] theorem State.core_setCore (s : State) (c : CoreId) (x : Core) : (s.setCore c x).core c = x := by
  simp [State.core, State.setCore, Assoc.get?_put_same]
theorem State.core_setCore_other (s : State) {c d : CoreId} (h : d ≠ c) (x : Core) :
    (s.setCore c x).core d = s.core d := by
  have h' : d.toNat ≠ c.toNat := fun e => h (BitVec.eq_of_toNat_eq e)
  simp [State.core, State.setCore, Assoc.get?_put_other _ h']
@[simp] theorem State.ctxAt_setCtxAt (s : State) (c : CoreId) (k : CtxId) (x : Ctx) :
    (s.setCtxAt c k x).ctxAt c k = x := by
  simp [State.ctxAt, State.setCtxAt]
theorem State.ctxAt_setCtxAt_other (s : State) {c d : CoreId} {k j : CtxId} (h : d ≠ c ∨ j ≠ k) (x : Ctx) :
    (s.setCtxAt c k x).ctxAt d j = s.ctxAt d j := by
  unfold State.ctxAt State.setCtxAt
  by_cases e : d = c
  · subst e
    simp [Core.ctxAt_setCtx_other _ (h.resolve_left (by simp))]
  · rw [State.core_setCore_other _ e]
@[simp] theorem State.me_setMe (s : State) (x : Ctx) : (s.setMe x).me = x := by
  simp [State.me, State.setMe, State.setCtxAt, State.ctxAt, State.setCore, State.core, Assoc.get?_put_same]
@[simp] theorem State.setMe_setMe (s : State) (x y : Ctx) : (s.setMe x).setMe y = s.setMe y := by
  simp [State.setMe, State.setCtxAt, State.setCore, State.core, Assoc.get?_put_same, Assoc.put_put]
theorem State.setCtxAt_setCtxAt (s : State) (c : CoreId) (k : CtxId) (x y : Ctx) :
    (s.setCtxAt c k x).setCtxAt c k y = s.setCtxAt c k y := by
  simp [State.setCtxAt, State.setCore, State.core, Assoc.get?_put_same, Assoc.put_put]
@[simp] theorem State.me_withCtl (s : State) (f : Ctl → Ctl) : (s.withCtl f).me = s.me.withCtl f := State.me_setMe _ _
@[simp] theorem State.here_setHere (s : State) (x : Core) : (s.setHere x).here = x := by
  simp [State.here, State.setHere, State.setCore, State.core, Assoc.get?_put_same]
theorem State.here_setMe (s : State) (x : Ctx) : (s.setMe x).here = s.here.setCtx s.cur.ctx x := by
  simp [State.here, State.setMe, State.setCtxAt, State.setCore, State.core, Assoc.get?_put_same]
theorem State.me_setHere (s : State) (x : Core) : (s.setHere x).me = x.ctxAt s.cur.ctx := by
  simp [State.me, State.setHere, State.ctxAt, State.setCore, State.core, Assoc.get?_put_same]
@[simp] theorem State.heap_setHeap (s : State) (h : Nat) (x : Heap) : (s.setHeap h x).heap h = x := by
  simp [State.heap, State.setHeap, Assoc.get?_put_same]
@[simp] theorem State.forge_setForge (s : State) (f : ForgeId) (x : Forge) : (s.setForge f x).forge f = x := by
  simp [State.forge, State.setForge, Assoc.get?_put_same]
@[simp] theorem State.part_setPart (s : State) (p : BitVec 6) (x : Part) : (s.setPart p x).part p = x := by
  simp [State.part, State.setPart, Assoc.get?_put_same]
@[simp] theorem State.queue_setQueue (s : State) (q : BitVec 10) (x : LaunchQ) : (s.setQueue q x).queue q = x := by
  simp [State.queue, State.setQueue, Assoc.get?_put_same]
@[simp] theorem State.die_setDie (s : State) (d : BitVec 2) (x : Die) : (s.setDie d x).die d = x := by
  simp [State.die, State.setDie, Vector.get_eq_getElem]

/-! ## Registers read after they are written -/

@[simp] theorem Ctx.getG_zero (x : Ctx) : x.getG 0 = 0 := rfl
@[simp] theorem Ctx.setG_zero (x : Ctx) (w : Word) : x.setG 0 w = x := rfl
theorem Ctx.getG_setG (x : Ctx) (r : BitVec 5) (w : Word) : (x.setG r w).getG r = if r = 0 then 0 else w := by
  by_cases h : r = 0#5 <;> simp [Ctx.getG, Ctx.setG, h, Vector.get_eq_getElem]
theorem Ctx.getG_setG_other (x : Ctx) {r q : BitVec 5} (h : q ≠ r) (w : Word) : (x.setG r w).getG q = x.getG q := by
  have h' : r.toNat ≠ q.toNat := fun e => h (BitVec.eq_of_toNat_eq e).symm
  by_cases e : r = 0#5 <;> simp [Ctx.getG, Ctx.setG, e, Vector.get_eq_getElem, h']
@[simp] theorem Ctx.getF_setF (x : Ctx) (r : BitVec 5) (w : Word) : (x.setF r w).getF r = w := by
  simp [Ctx.getF, Ctx.setF, Vector.get_eq_getElem]
theorem Ctx.getF_setF_other (x : Ctx) {r q : BitVec 5} (h : q ≠ r) (w : Word) : (x.setF r w).getF q = x.getF q := by
  have h' : r.toNat ≠ q.toNat := fun e => h (BitVec.eq_of_toNat_eq e).symm
  simp [Ctx.getF, Ctx.setF, Vector.get_eq_getElem, h']
@[simp] theorem Ctx.getV_setV (x : Ctx) (r : BitVec 4) (w : Vec) : (x.setV r w).getV r = w := by
  simp [Ctx.getV, Ctx.setV, Vector.get_eq_getElem]
theorem Ctx.getV_setV_other (x : Ctx) {r q : BitVec 4} (h : q ≠ r) (w : Vec) : (x.setV r w).getV q = x.getV q := by
  have h' : r.toNat ≠ q.toNat := fun e => h (BitVec.eq_of_toNat_eq e).symm
  simp [Ctx.getV, Ctx.setV, Vector.get_eq_getElem, h']
@[simp] theorem Ctx.getTm_setTm (x : Ctx) (r : BitVec 4) (w : BitVec 512) : (x.setTm r w).getTm r = some w := by
  simp [Ctx.getTm, Ctx.setTm, Vector.get_eq_getElem]

end Sys2Proof.Machine
end

