-- ==== Sys2Proof/Laws/Memory.lean ====
section
/-! SUPPORT. The laws of memory: its canonical form, which every operation keeps, and reading after writing (R3, R144). -/

namespace Sys2Proof.Machine

/-- The form of a cell list, as a proposition. -/
def CellsOk (l : List Host.Cell) : Prop := l.Pairwise (fun a b => a.1 < b.1) ∧ ∀ c ∈ l, c.2 ≠ 0

theorem cellsRise_iff (l : List Host.Cell) : cellsRise l = true ↔ l.Pairwise (fun a b => a.1 < b.1) := by
  fun_induction cellsRise l <;> grind [List.pairwise_cons]
theorem Memory.wf_iff (m : Memory) : m.wf = true ↔ CellsOk m.bytes := by
  simp [Memory.wf, CellsOk, cellsRise_iff, List.all_eq_true]

theorem Assoc.mem_put {α : Type} {m : Assoc α} {k : Nat} {x : α} {p : Nat × α} (h : p ∈ Assoc.put m k x) :
    p = (k, x) ∨ p ∈ m := by
  induction m with grind [Assoc.put]
theorem Assoc.put_rises {α : Type} {m : Assoc α} (h : m.Pairwise (fun a b => a.1 < b.1)) (k : Nat) (x : α) :
    (Assoc.put m k x).Pairwise (fun a b => a.1 < b.1) := by
  induction m with
  | nil => simp [Assoc.put]
  | cons q t ih =>
    have seen := fun p (hp : p ∈ Assoc.put t k x) => Assoc.mem_put hp
    grind [Assoc.put, List.pairwise_cons]

/-- Dropping cells keeps the form. -/
theorem CellsOk.filter {l : List Host.Cell} (h : CellsOk l) (p : Host.Cell → Bool) : CellsOk (l.filter p) :=
  ⟨h.1.filter _, fun c hc => h.2 c (List.mem_filter.1 hc).1⟩
/-- Writing a byte keeps the canonical form. -/
theorem Memory.setByte_wf {m : Memory} (h : m.wf = true) (k : Nat) (b : Byte) : (m.setByte k b).wf = true := by
  rw [Memory.wf_iff] at h ⊢
  have rise := Assoc.put_rises h.1 k b
  have seen := fun p (hp : p ∈ Assoc.put m.bytes k b) => Assoc.mem_put hp
  by_cases e : b = 0
  · simp only [Memory.setByte, e, if_true]
    exact h.filter _
  · simp only [Memory.setByte, e, if_false]
    grind [CellsOk]
theorem Memory.setBytes_wf {m : Memory} (h : m.wf = true) (l : List (Nat × Byte)) : (m.setBytes l).wf = true := by
  induction l generalizing m with
  | nil => exact h
  | cons p t ih => exact ih (Memory.setByte_wf h _ _)
/-- An update that leaves the bytes alone keeps the form. -/
theorem Memory.wf_congr {m n : Memory} (h : m.wf = true) (e : n.bytes = m.bytes) : n.wf = true := by
  simpa [Memory.wf, e] using h
/-- So does a fold of updates that each keep it. -/
theorem Memory.foldl_wf {α : Type} {f : Memory → α → Memory} (hf : ∀ m a, m.wf = true → (f m a).wf = true)
    (l : List α) {m : Memory} (h : m.wf = true) : (l.foldl f m).wf = true :=
  List.foldlRecOn l f h fun b hb a _ => hf b a hb
@[simp] theorem Memory.setFull_bytes (m : Memory) (d : Nat) (b : Bool) : (m.setFull d b).bytes = m.bytes := rfl
@[simp] theorem Memory.setLine_bytes (m : Memory) (n : Nat) (x : Line) : (m.setLine n x).bytes = m.bytes := rfl
/-- A fold of updates that each leave the bytes alone leaves them alone. -/
theorem Memory.foldl_bytes {α : Type} {f : Memory → α → Memory} (hf : ∀ m a, (f m a).bytes = m.bytes) (l : List α) (m : Memory) :
    (l.foldl f m).bytes = m.bytes :=
  List.foldlRecOn (motive := fun n => n.bytes = m.bytes) l f rfl fun n hn a _ => (hf n a).trans hn
@[simp] theorem setTags_bytes (m : Memory) (ks : List Place) (t : Option Tag) (b : Bool) : (setTags m ks t b).bytes = m.bytes := by
  unfold setTags
  apply Memory.foldl_bytes
  intro m d
  rfl
@[simp] theorem Memory.remember_bytes (c : Option CoreId) (m : Memory) (p : Place) : (m.remember c p).bytes = m.bytes := by
  unfold Memory.remember; split <;> rfl
@[simp] theorem Memory.forget_bytes (m : Memory) (p : Nat → Bool) : (m.forget p).bytes = m.bytes := rfl
@[simp] theorem Memory.markPending_bytes (m : Memory) (n : Nat) : (m.markPending n).bytes = m.bytes := rfl
@[simp] theorem Memory.acked_bytes (m : Memory) (n : Nat) : (m.acked n).bytes = m.bytes := by
  simp only [Memory.acked]; split <;> rfl
@[simp] theorem clearPoison_bytes (m : Memory) (ks : List Nat) : (clearPoison m ks).bytes = m.bytes := by
  unfold clearPoison; split <;> rfl
@[simp] theorem noteWindow_bytes (m : Memory) (p : Place) : (noteWindow m p).bytes = m.bytes := by
  unfold noteWindow
  split
  · simp only
    repeat' split
    all_goals rfl
  · rfl
theorem writePlace_wf {m : Memory} (h : m.wf = true) (p : Place) (b : Byte) : (writePlace m p b).wf = true := by
  unfold writePlace
  split
  · exact Memory.wf_congr h rfl
  · split
    · exact h
    · exact Memory.setByte_wf (Memory.wf_congr h (noteWindow_bytes m p)) _ _
/-- Writing bytes at places keeps the canonical form. -/
theorem writeBytes_wf {m : Memory} (h : m.wf = true) (w : List (Place × Byte)) (t : Option Tag) (b : Bool := false)
    (c : Option CoreId := none) : (writeBytes m w t b c).wf = true := by
  simp only [writeBytes]
  refine Memory.wf_congr
    (m := w.foldl (fun m p => writePlace m p.1 p.2) ((wordsOf (w.map (·.1))).foldl (Memory.remember c) m)) ?_ (by simp)
  exact Memory.foldl_wf (fun m p hm => writePlace_wf hm p.1 p.2) w
    (Memory.wf_congr h (Memory.foldl_bytes (Memory.remember_bytes c) _ m))
theorem setFulls_wf {m : Memory} (h : m.wf = true) (ks : List Nat) (b : Bool) : (setFulls m ks b).wf = true :=
  Memory.foldl_wf (fun m d hm => Memory.wf_congr hm (Memory.setFull_bytes m d b)) _ h

/-! ## Lines: every move of copies and tokens leaves the bytes of memory as they are -/

/-- A fold of updates of the state that each leave the bytes alone leaves them alone. -/
theorem State.foldl_bytes {α : Type} {f : State → α → State} (hf : ∀ s a, (f s a).mem.bytes = s.mem.bytes) (l : List α)
    (s : State) : (l.foldl f s).mem.bytes = s.mem.bytes :=
  List.foldlRecOn (motive := fun t => t.mem.bytes = s.mem.bytes) l f rfl fun t ht a _ => (hf t a).trans ht
@[simp] theorem State.evictHearth_bytes (s : State) (n : Nat) : (s.evictHearth n).mem.bytes = s.mem.bytes := by
  simp only [State.evictHearth]
  repeat' split
  all_goals rfl
@[simp] theorem State.reside_bytes (s : State) (n : Nat) (k : BitVec 7) (d : Bool) : (s.reside n k d).mem.bytes = s.mem.bytes := by
  simp only [State.reside]
  repeat' split
  all_goals first | rfl | exact State.evictHearth_bytes _ _
@[simp] theorem State.noteRequest_bytes (s : State) (c : Option CoreId) (n : Nat) : (s.noteRequest c n).mem.bytes = s.mem.bytes := by
  simp only [State.noteRequest]
  repeat' split
  all_goals first | rfl | simp
@[simp] theorem State.writeHome_bytes (s : State) (n : Nat) : (s.writeHome n).mem.bytes = s.mem.bytes := by
  simp only [State.writeHome]
  split
  · rfl
  · exact State.reside_bytes ..
@[simp] theorem State.recallLine_bytes (s : State) (n : Nat) : (s.recallLine n).mem.bytes = s.mem.bytes := by
  simp only [State.recallLine]
  split
  · exact State.writeHome_bytes ..
  · split <;> rfl
@[simp] theorem State.tokenHome_bytes (s : State) (n : Nat) : (s.tokenHome n).mem.bytes = s.mem.bytes := by
  simp only [State.tokenHome]
  split
  · rfl
  · exact State.writeHome_bytes ..
@[simp] theorem State.evictRegion_bytes (s : State) (r : Nat) : (s.evictRegion r).mem.bytes = s.mem.bytes := by
  simp only [State.evictRegion]
  split
  · rfl
  · exact State.foldl_bytes (fun s _ => State.tokenHome_bytes s _) _ _
@[simp] theorem State.evictForge_bytes (s : State) (f : ForgeId) (n : Nat) : (s.evictForge f n).mem.bytes = s.mem.bytes := by
  simp only [State.evictForge]
  split <;> rfl
@[simp] theorem State.toForge_bytes (s : State) (f : ForgeId) (n : Nat) : (s.toForge f n).mem.bytes = s.mem.bytes := by
  simp only [State.toForge]
  repeat' split
  all_goals simp
@[simp] theorem State.evictL1d_bytes (s : State) (c : CoreId) (n : Nat) : (s.evictL1d c n).mem.bytes = s.mem.bytes := by
  simp only [State.evictL1d]
  repeat' split
  all_goals simp
/-- A cache that replaces a line changes no byte of memory. -/
@[simp] theorem State.evict_bytes (s : State) (e : Evict) : (s.evict e).mem.bytes = s.mem.bytes := by
  cases e <;> simp only [State.evict] <;> repeat' split
  all_goals simp
@[simp] theorem State.makeRoom_bytes (s : State) (c : CoreId) (n : Nat) (f : Bool) : (s.makeRoom c n f).mem.bytes = s.mem.bytes := by
  simp only [State.makeRoom]
  repeat' split
  all_goals simp
@[simp] theorem State.claimLine_bytes (s : State) (c : CoreId) (n : Nat) : (s.claimLine c n).mem.bytes = s.mem.bytes := by
  simp only [State.claimLine]
  split
  · rfl
  · simp
@[simp] theorem State.takeToken_bytes (s : State) (c : CoreId) (n : Nat) : (s.takeToken c n).mem.bytes = s.mem.bytes := by
  simp [State.takeToken]
@[simp] theorem State.shareLine_bytes (s : State) (c : CoreId) (n : Nat) : (s.shareLine c n).mem.bytes = s.mem.bytes := by
  simp only [State.shareLine]
  repeat' split
  all_goals simp
@[simp] theorem State.fetchLine_bytes (s : State) (c : CoreId) (n : Nat) : (s.fetchLine c n).mem.bytes = s.mem.bytes := by
  simp only [State.fetchLine]
  split
  · rfl
  · simp
@[simp] theorem State.toHome_bytes (s : State) (c : Option CoreId) (ps : List Place) : (s.toHome c ps).mem.bytes = s.mem.bytes :=
  State.foldl_bytes (fun s n => by simp) _ _
@[simp] theorem State.atHome_bytes (s : State) (c : Option CoreId) (ps : List Place) : (s.atHome c ps).mem.bytes = s.mem.bytes := by
  unfold State.atHome
  rw [State.foldl_bytes fun s n => by simp]
  exact State.toHome_bytes ..
@[simp] theorem State.engineReads_bytes (s : State) (c : Option CoreId) (ps : List Place) :
    (s.engineReads c ps).mem.bytes = s.mem.bytes :=
  State.foldl_bytes (fun s n => by simp) _ _
/-- Flits that leave change no memory. -/
@[simp] theorem State.transmit_mem (s : State) (a b p v : Nat) (c : Came) : (s.transmit a b p v c).mem = s.mem := by
  simp only [State.transmit, State.putFlit, State.takeCredit, State.setLink, State.log]
  repeat' split
  all_goals rfl
@[simp] theorem State.putFlits_mem (s : State) (v : Nat) (pas : List Nat) : (s.putFlits v pas).mem = s.mem :=
  List.foldlRecOn (motive := fun t => t.mem = s.mem) _ _ rfl fun t ht _ _ => (State.transmit_mem t ..).trans ht
@[simp] theorem State.wrote_mem (s : State) (c : CoreId) (k : CtxId) (ps : List Place) : (s.wrote c k ps).mem = s.mem := by
  simp only [State.wrote]
  split <;> simp
/-- A core's performed write keeps the canonical form. -/
theorem writeThrough_wf {s : State} (h : s.mem.wf = true) (c : CoreId) (k : CtxId) (w : List (Place × Byte))
    (t : Option Tag) : (writeThrough c k w t s).mem.wf = true := by
  simp only [writeThrough, State.wrote_mem]
  refine writeBytes_wf (Memory.wf_congr h ?_) w t false (some c)
  rw [Memory.foldl_bytes Memory.markPending_bytes, State.putFlits_mem, State.foldl_bytes fun s n => State.takeToken_bytes s c n]
/-- So does an engine's write. -/
theorem engineStore_wf {s : State} (h : s.mem.wf = true) (c : Option CoreId) (w : List (Place × Byte)) (t : Option Tag)
    (b : Bool) : (engineStore s c w t b).mem.wf = true := by
  simp only [engineStore]
  refine writeBytes_wf (Memory.wf_congr h ?_) w t b
  rw [Memory.foldl_bytes Memory.markPending_bytes, State.atHome_bytes]
/-- Bytes that become 0 leave the form. -/
theorem zeroWhere_wf {m : Memory} (h : m.wf = true) (p : Nat → Bool) : (zeroWhere m p).wf = true := by
  rw [Memory.wf_iff] at h ⊢
  exact h.filter _

/-! ## Reading after writing -/

theorem Assoc.get?_del_same {α : Type} (m : Assoc α) (k : Nat) : Assoc.get? (Assoc.del m k) k = none := by
  induction m with grind [Assoc.del, Assoc.get?]
theorem Assoc.get?_del_other {α : Type} (m : Assoc α) {k j : Nat} (h : j ≠ k) :
    Assoc.get? (Assoc.del m k) j = Assoc.get? m j := by
  induction m with grind [Assoc.del, Assoc.get?]
@[simp] theorem Memory.byte_setByte (m : Memory) (k : Nat) (b : Byte) : (m.setByte k b).byte k = b := by
  by_cases e : b = 0#8
  · simp [Memory.byte, Memory.setByte, e, Assoc.get?_del_same]
  · simp [Memory.byte, Memory.setByte, e, Assoc.get?_put_same]
theorem Memory.byte_setByte_other (m : Memory) {k j : Nat} (h : j ≠ k) (b : Byte) :
    (m.setByte k b).byte j = m.byte j := by
  by_cases e : b = 0#8
  · simp [Memory.byte, Memory.setByte, e, Assoc.get?_del_other _ h]
  · simp [Memory.byte, Memory.setByte, e, Assoc.get?_put_other _ h]
theorem Memory.byte_congr {m n : Memory} (e : n.bytes = m.bytes) (k : Nat) : n.byte k = m.byte k := by
  simp [Memory.byte, e]
/-- A write at places leaves every byte whose key is none of theirs. -/
theorem writeBytes_byte_other (m : Memory) (w : List (Place × Byte)) (t : Option Tag) (b : Bool) (c : Option CoreId) {k : Nat}
    (h : ∀ p ∈ w, p.1.key ≠ some k) : (writeBytes m w t b c).byte k = m.byte k := by
  unfold writeBytes
  rw [Memory.byte_congr
    (m := w.foldl (fun m p => writePlace m p.1 p.2) ((wordsOf (w.map (·.1))).foldl (Memory.remember c) m)) (by simp)]
  generalize hm : (wordsOf (w.map (·.1))).foldl (Memory.remember c) m = m0
  have e : m0.byte k = m.byte k := Memory.byte_congr (hm ▸ Memory.foldl_bytes (Memory.remember_bytes c) _ m) k
  rw [← e]
  clear hm e
  induction w generalizing m0 with
  | nil => rfl
  | cons p u ih =>
    rw [List.foldl_cons, ih (fun q hq => h q (List.mem_cons_of_mem _ hq))]
    have hp := h p List.mem_cons_self
    unfold writePlace
    split
    · rfl
    · split
      · rfl
      · rename_i j hj
        rw [Memory.byte_setByte_other _ (fun e => hp (by rw [hj, e]))]
        exact Memory.byte_congr (noteWindow_bytes m0 p.1) k

end Sys2Proof.Machine
end

