-- ==== Sys2Proof/Laws/Ops.lean ====
section
/-! SUPPORT. What the shared operations can do, said once: operands that are plain registers, retiring, trapping,
waiting and returning from a trap. -/

namespace Sys2Proof.Machine

/-! ## Outcomes -/

@[simp] theorem finish_ok (fl : Flow) (s : State) : finish (.ok fl s) = .next (retire fl s) := rfl
@[simp] theorem finish_trap (t : Trap) (s : State) : finish (.trap t s) = .next (takeTrap t s) := rfl
@[simp] theorem finish_wait (w : Wait) (s : State) : finish (.wait w s) = .next (s.waiting w) := rfl
@[simp] theorem Res.bind_ok (fl : Flow) (s : State) (k : State → Res) : (Res.ok fl s).bind k = k s := rfl
@[simp] theorem Res.bind_trap (t : Trap) (s : State) (k : State → Res) : (Res.trap t s).bind k = .trap t s := rfl
@[simp] theorem Res.bind_wait (w : Wait) (s : State) (k : State → Res) : (Res.wait w s).bind k = .wait w s := rfl
/-- A meaning's result is a next state, whatever it is. -/
theorem finish_next (r : Res) : ∃ t, finish r = .next t := by
  cases r <;> exact ⟨_, rfl⟩

/-! ## Plain operands -/

theorem State.plain_iff {s : State} : s.plain = true ↔
    s.me.owed = [] ∧ s.me.binds = [] ∧ s.me.streams = [] ∧ (s.cur.replay = true ∨ s.me.replay = none) := by
  simp [State.plain, and_assoc]
theorem prepare_plain {w : Nat} {rd wr : List Reg} {acc : Bool} {s : State} (h : s.plain = true) :
    prepare w rd wr acc s = .ok .own s := by
  simp [prepare, h]
theorem Res.precise_plain {s : State} (h : s.plain = true) (r : Res) : r.precise s = r := by
  cases r <;> simp [Res.precise, undoPops, h]
/-- With plain operands a meaning is its continuation. -/
theorem withRegs_plain {s : State} (h : s.plain = true) (w : Nat) (rd wr : List Reg) (k : State → Res) :
    withRegs w rd wr s k = finish (k s) := by
  simp [withRegs, prepare_plain h, Res.precise_plain h]
theorem withAcc_plain {s : State} (h : s.plain = true) (w : Nat) (rd wr : List Reg) (k : State → Res) :
    withAcc w rd wr s k = finish (k s) := by
  simp [withAcc, prepare_plain h, Res.precise_plain h]
/-- An instruction over registers always answers a next state: it retires, takes a trap or waits. -/
theorem withRegs_next (w : Nat) (rd wr : List Reg) (s : State) (k : State → Res) : ∃ t, withRegs w rd wr s k = .next t :=
  finish_next _
theorem withAcc_next (w : Nat) (rd wr : List Reg) (s : State) (k : State → Res) : ∃ t, withAcc w rd wr s k = .next t :=
  finish_next _
theorem State.writeG_plain {s : State} (h : s.plain = true) (r : BitVec 5) (w : Word) :
    s.writeG r w = s.setMe (s.me.setG r w) := by
  simp [State.writeG, Ctx.binding, (State.plain_iff.1 h).2.1]
theorem State.writeV_plain {s : State} (h : s.plain = true) (r : BitVec 4) (w : Vec) :
    s.writeV r w = s.setMe (s.me.setV r w) := by
  simp [State.writeV, Ctx.binding, (State.plain_iff.1 h).2.1]

/-! ## Retiring (R107, R183) -/

theorem retire_fall {s : State} (h : s.cur.replay = false) (n : Nat) :
    retire (.fall n) s = s.setMe { s.me with
      pc := (loopNext s.me.loop false (s.me.pc + BitVec.ofNat 64 n)).1
      loop := (loopNext s.me.loop false (s.me.pc + BitVec.ofNat 64 n)).2
      wait := none } := by
  simp [retire, h]
theorem retire_jump {s : State} (h : s.cur.replay = false) (a : Word) :
    retire (.jump a) s = s.setMe { s.me with
      pc := (loopNext s.me.loop true a).1, loop := (loopNext s.me.loop true a).2, wait := none } := by
  simp [retire, h]
theorem retire_own {s : State} (h : s.cur.replay = false) : retire .own s = s.setMe { s.me with wait := none } := by
  simp [retire, h]
/-- Retiring touches the acting context alone. -/
theorem retire_setMe (fl : Flow) (s : State) : ∃ x, retire fl s = s.setMe x := by
  unfold retire
  split
  · exact ⟨_, rfl⟩
  · cases fl <;> exact ⟨_, rfl⟩
/-- Retiring leaves the registers of the acting context as they are. -/
theorem retire_regs (fl : Flow) (s : State) : (retire fl s).me.g = s.me.g ∧ (retire fl s).me.f = s.me.f ∧
    (retire fl s).me.v = s.me.v ∧ (retire fl s).me.tm = s.me.tm ∧ (retire fl s).me.ctl = s.me.ctl ∧
    (retire fl s).me.stores = s.me.stores := by
  unfold retire
  split
  · simp
  · cases fl <;> simp
theorem retire_mem (fl : Flow) (s : State) : (retire fl s).mem = s.mem := by
  obtain ⟨x, h⟩ := retire_setMe fl s
  simp [h]
/-- Outside a loop an instruction falls to the address after it. -/
theorem loopNext_none (taken : Bool) (a : Word) : loopNext none taken a = (a, none) := rfl

/-! ## Traps (R248, R267) -/

theorem State.ctxAt_of_cores {u s : State} {x : Ctx} (h : u.cores = (s.setMe x).cores) :
    u.ctxAt s.cur.core s.cur.ctx = x := by
  have e : u.ctxAt s.cur.core s.cur.ctx = (s.setMe x).me := by
    simp [State.ctxAt, State.core, State.me, h]
  rw [e, State.me_setMe]
/-- What a trap leaves in the acting context. -/
theorem takeTrap_me (t : Trap) (s : State) (h : s.cur.replay = false) :
    (takeTrap t s).ctxAt s.cur.core s.cur.ctx = { s.me with
      status := .held, wait := none, accrd := none
      loop := none, trapLoops := s.me.loop :: s.me.trapLoops
      ctl := { s.me.ctl with
        cause := t.info.getD (Config.freeInfo s.tick) ++ t.code
        faddr := t.addr.getD s.me.ctl.faddr
        epc := BitVec.ofNat 64 (s.me.pc.toNat % 2 ^ 56 / 2 * 2)
        estat := s.me.ctl.priv.setWidth 2
        priv := 1 } } := by
  apply State.ctxAt_of_cores
  simp only [takeTrap, h]
  split <;> simp
/-- A trap changes no memory. -/
theorem takeTrap_mem (t : Trap) (s : State) : (takeTrap t s).mem = s.mem := by
  simp only [takeTrap]
  split <;> simp
/-- Waiting touches the acting context alone. -/
theorem waiting_setMe (w : Wait) (s : State) : ∃ x, s.waiting w = s.setMe x := ⟨_, rfl⟩
theorem waiting_mem (w : Wait) (s : State) : (s.waiting w).mem = s.mem := by
  simp [State.waiting]

end Sys2Proof.Machine
end

