-- ==== Sys2Proof/Laws/Families.lean ====
section
/-! SUPPORT. What the shared operations of the families answer where operands are plain registers (R92, R95, R103, R104),
and that the memory operations of the engines and of zeroing keep the canonical form (R3, R290, R368). -/

namespace Sys2Proof.Machine

/-! ## Integer operations and jumps -/

theorem int3_plain {s : State} (h : s.plain = true) (len word : Nat) (d a b : BitVec 5) (w : BitVec 1)
    (f : Nat → Int → Int → Int → Int → Int) : int3 len word d a b w f s = .next (retire (.fall len) (s.setMe (s.me.setG d (
      let n := opWidth w
      let x := (s.me.getG a).setWidth n
      let y := (s.me.getG b).setWidth n
      narrow n (f n x.toNat y.toNat x.toInt y.toInt))))) := by
  simp [int3, withRegs_plain h, State.writeG_plain h]
theorem int2_plain {s : State} (h : s.plain = true) (word : Nat) (d a : BitVec 5) (w : BitVec 1) (f : Nat → Nat → Nat) :
    int2 word d a w f s = .next (retire (.fall 4) (s.setMe (s.me.setG d (
      narrow (opWidth w) (f (opWidth w) ((s.me.getG a).setWidth (opWidth w)).toNat))))) := by
  simp [int2, withRegs_plain h, State.writeG_plain h]
theorem intImm_plain {s : State} (h : s.plain = true) (len word : Nat) (d a : BitVec 5) (w : BitVec 1) (imm : Word)
    (f : Nat → Int → Int → Int → Int → Int) : intImm len word d a w imm f s = .next (retire (.fall len) (s.setMe (s.me.setG d (
      let n := opWidth w
      let x := (s.me.getG a).setWidth n
      let y := imm.setWidth n
      narrow n (f n x.toNat y.toNat x.toInt y.toInt))))) := by
  simp [intImm, withRegs_plain h, State.writeG_plain h]
theorem fieldOp_plain {s : State} (h : s.plain = true) (word : Nat) (d : BitVec 5) (rd : List Reg) (f : Ctx → Word) :
    fieldOp word d rd f s = .next (retire (.fall 4) (s.setMe (s.me.setG d (f s.me)))) := by
  simp [fieldOp, withRegs_plain h, State.writeG_plain h]
/-- A jump goes to its target, or takes one of its two traps (R102, R361). -/
theorem jumpTo_cases (t : Int) (s : State) (k : State → State) :
    (t % 2 = 1 ∧ jumpTo t s k = .trap ⟨0x04, some 0, some (trunc64 t)⟩ s) ∨
    (t % 2 = 0 ∧ (t < 0 ∨ 2 ^ 56 ≤ t) ∧ jumpTo t s k = .trap (rangeFault 2 s.me.ctl.priv (trunc64 t)) s) ∨
    (t % 2 = 0 ∧ 0 ≤ t ∧ t < 2 ^ 56 ∧ jumpTo t s k = .ok (.jump (trunc64 t)) (k s)) := by
  unfold jumpTo
  split
  · exact .inl ⟨‹_›, rfl⟩
  · split
    · exact .inr (.inl ⟨by omega, ‹_›, rfl⟩)
    · exact .inr (.inr ⟨by omega, by omega, by omega, rfl⟩)
/-- A conditional branch tests its two registers (R103). -/
theorem branch_plain {s : State} (h : s.plain = true) (len word : Nat) (a b : BitVec 5) (off : Int) (c : Word → Word → Bool) :
    branch len word a b off c s =
      finish (if c (s.me.getG a) (s.me.getG b) then jumpTo (s.me.pc.toNat + 2 * off) s id else .ok (.fall len) s) := by
  rw [branch, withRegs_plain h]

/-! ## The canonical form -/

/-- What an engine's span brings here, it writes in the canonical form. -/
theorem engineWrite_wf {s s1 t : State} {i : Issuer} {va : Nat} {l : List Byte} {full b : Bool} {tag : Option Tag}
    {pas : List Nat} {ps : List Place} {w : List (Nat × Nat)} (hs : engineSpan s i va l.length .write = .ok (pas, ps, s1))
    (h : s1.mem.wf = true) (ht : engineWrite s i va l full tag b = .ok (w, t)) : t.mem.wf = true := by
  simp only [engineWrite, hs, Except.ok.injEq, Prod.mk.injEq] at ht
  obtain ⟨-, rfl⟩ := ht
  have e := engineStore_wf h (some i.core) (ps.zip l) tag b
  split
  · exact setFulls_wf e _ _
  · exact e
/-- A byte that zeroing names reads 0 afterwards, and every other byte reads as before. -/
theorem zeroWhere_byte (m : Memory) (p : Nat → Bool) (k : Nat) : (zeroWhere m p).byte k = if p k then 0 else m.byte k := by
  simp only [Memory.byte, zeroWhere]
  induction m.bytes with grind [Assoc.get?]

end Sys2Proof.Machine
end

