-- ==== Sys2Proof/Laws/PerInstr.lean ====
section
/-! SUPPORT. For every row of the opcode table: the shape of its encoded word. A 16-bit form fits 16 bits and its bits
15:13 are not all ones; a 32-bit form fits 32 bits and they are (R69, R71, R76); an event has no word. -/

set_option Elab.async false

namespace Sys2Proof.Laws.Encoding

open Sys2Proof

/-- A row with a 16-bit encoding (R71). -/
def short (i : Instr) : Bool :=
  match i with
  | .addCr _ _ => true
  | .moveCr _ _ => true
  | .subCr _ _ => true
  | .andCr _ _ => true
  | .orCr _ _ => true
  | .xorCr _ _ => true
  | .shlCr _ _ => true
  | .shrCr _ _ => true
  | .sraCr _ _ => true
  | .mulCr _ _ => true
  | .jalrLinkCr _ => true
  | .jalrNolinkCr _ => true
  | .addiCi _ _ => true
  | .addiZeroCi _ _ => true
  | .shliCi _ _ => true
  | .shriCi _ _ => true
  | .sraiCi _ _ => true
  | .andiCi _ _ => true
  | .ldDCm _ _ _ => true
  | .stDCm _ _ _ => true
  | .beqCb _ _ => true
  | .bneCb _ _ => true
  | .bltCb _ _ => true
  | .bgeCb _ _ => true
  | .jCj _ => true
  | .endCt => true
  | .doneCt _ => true
  | .sendC _ _ => true
  | .vorCv _ _ => true
  | .vaddS32Cv _ _ => true
  | .vsubS32Cv _ _ => true
  | .vaddF32Cv _ _ => true
  | .vsubF32Cv _ _ => true
  | .vmulF32Cv _ _ => true
  | .vmaxF32Cv _ _ => true
  | .vminF32Cv _ _ => true
  | .vandCv _ _ => true
  | .vxorCv _ _ => true
  | .vnotCv _ _ => true
  | _ => false

/-- A word of 16 bits and of 32 bits, by R69. -/
def Short (w : Nat) : Prop := w < 65536 ∧ field w 13 3 ≠ 7
def Long (w : Nat) : Prop := w < 4294967296 ∧ field w 13 3 = 7
theorem short_of {w k : Nat} (hk : k < 7) (h1 : k * 8192 ≤ w) (h2 : w < k * 8192 + 8192) : Short w := by
  refine ⟨by omega, ?_⟩
  simp only [field]
  omega
theorem long_of {w hi : Nat} (h : hi < 65536) (h1 : 65536 * hi + 57344 ≤ w) (h2 : w < 65536 * hi + 65536) : Long w := by
  refine ⟨by omega, ?_⟩
  simp only [field]
  omega

/-- The shape of an instruction's word. -/
def Statement (i : Instr) : Prop :=
  if i.isEvent then encode i = 0 else if short i then Short (encode i) else Long (encode i)

theorem lay0 (b : Nat) (h : 57344 ≤ b % 65536 ∧ b % 65536 + 125 < 65536 ∧ b / 65536 + 1023 < 65536) (x0 : BitVec 5) (x1 : BitVec 5) (x2 : BitVec 5) (x3 : BitVec 1) :
    Long (b + x0.toNat * 4 + x1.toNat * 65536 + x2.toNat * 2097152 + x3.toNat * 1) := by
  have := x0.isLt
  have := x1.isLt
  have := x2.isLt
  have := x3.isLt
  exact long_of (hi := b / 65536 + x1.toNat * 1 + x2.toNat * 32) (by omega) (by omega) (by omega)
theorem lay1 (b : Nat) (h : 57344 ≤ b % 65536 ∧ b % 65536 + 125 < 65536 ∧ b / 65536 + 31 < 65536) (x0 : BitVec 5) (x1 : BitVec 5) (x2 : BitVec 1) :
    Long (b + x0.toNat * 4 + x1.toNat * 65536 + x2.toNat * 1) := by
  have := x0.isLt
  have := x1.isLt
  have := x2.isLt
  exact long_of (hi := b / 65536 + x1.toNat * 1) (by omega) (by omega) (by omega)
theorem lay2 (b : Nat) (h : 57344 ≤ b % 65536 ∧ b % 65536 + 125 < 65536 ∧ b / 65536 + 65535 < 65536) (x0 : BitVec 5) (x1 : BitVec 5) (x2 : BitVec 11) (x3 : BitVec 1) :
    Long (b + x0.toNat * 4 + x1.toNat * 65536 + x2.toNat * 2097152 + x3.toNat * 1) := by
  have := x0.isLt
  have := x1.isLt
  have := x2.isLt
  have := x3.isLt
  exact long_of (hi := b / 65536 + x1.toNat * 1 + x2.toNat * 32) (by omega) (by omega) (by omega)
theorem lay3 (b : Nat) (h : 57344 ≤ b % 65536 ∧ b % 65536 + 124 < 65536 ∧ b / 65536 + 65535 < 65536) (x0 : BitVec 5) (x1 : BitVec 5) (x2 : BitVec 11) :
    Long (b + x0.toNat * 4 + x1.toNat * 65536 + x2.toNat * 2097152) := by
  have := x0.isLt
  have := x1.isLt
  have := x2.isLt
  exact long_of (hi := b / 65536 + x1.toNat * 1 + x2.toNat * 32) (by omega) (by omega) (by omega)
theorem lay4 (b : Nat) (h : 57344 ≤ b % 65536 ∧ b % 65536 + 124 < 65536 ∧ b / 65536 + 32767 < 65536) (x0 : BitVec 5) (x1 : BitVec 5) (x2 : BitVec 5) (x3 : BitVec 5) :
    Long (b + x0.toNat * 4 + x1.toNat * 65536 + x2.toNat * 2097152 + x3.toNat * 67108864) := by
  have := x0.isLt
  have := x1.isLt
  have := x2.isLt
  have := x3.isLt
  exact long_of (hi := b / 65536 + x1.toNat * 1 + x2.toNat * 32 + x3.toNat * 1024) (by omega) (by omega) (by omega)
theorem lay5 (b : Nat) (h : 57344 ≤ b % 65536 ∧ b % 65536 + 124 < 65536 ∧ b / 65536 + 4095 < 65536) (x0 : BitVec 5) (x1 : BitVec 5) (x2 : BitVec 1) (x3 : BitVec 6) :
    Long (b + x0.toNat * 4 + x1.toNat * 65536 + x2.toNat * 134217728 + x3.toNat * 2097152) := by
  have := x0.isLt
  have := x1.isLt
  have := x2.isLt
  have := x3.isLt
  exact long_of (hi := b / 65536 + x1.toNat * 1 + x2.toNat * 2048 + x3.toNat * 32) (by omega) (by omega) (by omega)
theorem lay6 (b : Nat) (h : 57344 ≤ b % 65536 ∧ b % 65536 + 127 < 65536 ∧ b / 65536 + 65535 < 65536) (x0 : BitVec 5) (x1 : BitVec 16) (x2 : BitVec 2) :
    Long (b + x0.toNat * 4 + x1.toNat * 65536 + x2.toNat * 1) := by
  have := x0.isLt
  have := x1.isLt
  have := x2.isLt
  exact long_of (hi := b / 65536 + x1.toNat * 1) (by omega) (by omega) (by omega)
theorem lay7 (b : Nat) (h : 57344 ≤ b % 65536 ∧ b % 65536 + 124 < 65536 ∧ b / 65536 + 8191 < 65536) (x0 : BitVec 5) (x1 : BitVec 5) (x2 : BitVec 5) (x3 : BitVec 3) :
    Long (b + x0.toNat * 4 + x1.toNat * 65536 + x2.toNat * 2097152 + x3.toNat * 67108864) := by
  have := x0.isLt
  have := x1.isLt
  have := x2.isLt
  have := x3.isLt
  exact long_of (hi := b / 65536 + x1.toNat * 1 + x2.toNat * 32 + x3.toNat * 1024) (by omega) (by omega) (by omega)
theorem lay8 (b : Nat) (h : 57344 ≤ b % 65536 ∧ b % 65536 + 124 < 65536 ∧ b / 65536 + 65535 < 65536) (x0 : BitVec 5) (x1 : BitVec 5) (x2 : BitVec 4) (x3 : BitVec 7) :
    Long (b + x0.toNat * 4 + x1.toNat * 65536 + x2.toNat * 268435456 + x3.toNat * 2097152) := by
  have := x0.isLt
  have := x1.isLt
  have := x2.isLt
  have := x3.isLt
  exact long_of (hi := b / 65536 + x1.toNat * 1 + x2.toNat * 4096 + x3.toNat * 32) (by omega) (by omega) (by omega)
theorem lay9 (b : Nat) (h : 57344 ≤ b % 65536 ∧ b % 65536 + 124 < 65536 ∧ b / 65536 + 65535 < 65536) (x0 : BitVec 5) (x1 : BitVec 5) (x2 : BitVec 5) (x3 : BitVec 6) :
    Long (b + x0.toNat * 4 + x1.toNat * 65536 + x2.toNat * 134217728 + x3.toNat * 2097152) := by
  have := x0.isLt
  have := x1.isLt
  have := x2.isLt
  have := x3.isLt
  exact long_of (hi := b / 65536 + x1.toNat * 1 + x2.toNat * 2048 + x3.toNat * 32) (by omega) (by omega) (by omega)
theorem lay10 (b : Nat) (h : 57344 ≤ b % 65536 ∧ b % 65536 + 127 < 65536 ∧ b / 65536 + 65535 < 65536) (x0 : BitVec 5) (x1 : BitVec 5) (x2 : BitVec 13) :
    Long (b + x0.toNat * 4 + x1.toNat * 65536 + x2.toNat / 4 * 2097152 + x2.toNat % 4 * 1) := by
  have := x0.isLt
  have := x1.isLt
  have := x2.isLt
  exact long_of (hi := b / 65536 + x1.toNat * 1 + x2.toNat / 4 * 32) (by omega) (by omega) (by omega)
theorem lay11 (b : Nat) (h : 57344 ≤ b % 65536 ∧ b % 65536 + 3 < 65536 ∧ b / 65536 + 65535 < 65536) (x0 : BitVec 18) :
    Long (b + x0.toNat / 4 * 65536 + x0.toNat % 4 * 1) := by
  have := x0.isLt
  exact long_of (hi := b / 65536 + x0.toNat / 4 * 1) (by omega) (by omega) (by omega)
theorem lay12 (b : Nat) (h : 57344 ≤ b % 65536 ∧ b % 65536 + 127 < 65536 ∧ b / 65536 + 65535 < 65536) (x0 : BitVec 5) (x1 : BitVec 18) :
    Long (b + x0.toNat * 4 + x1.toNat / 4 * 65536 + x1.toNat % 4 * 1) := by
  have := x0.isLt
  have := x1.isLt
  exact long_of (hi := b / 65536 + x1.toNat / 4 * 1) (by omega) (by omega) (by omega)
theorem lay13 (b : Nat) (h : 57344 ≤ b % 65536 ∧ b % 65536 + 0 < 65536 ∧ b / 65536 + 65535 < 65536) (x0 : BitVec 5) (x1 : BitVec 11) :
    Long (b + x0.toNat * 65536 + x1.toNat * 2097152) := by
  have := x0.isLt
  have := x1.isLt
  exact long_of (hi := b / 65536 + x0.toNat * 1 + x1.toNat * 32) (by omega) (by omega) (by omega)
theorem lay14 (b : Nat) (h : 57344 ≤ b % 65536 ∧ b % 65536 + 0 < 65536 ∧ b / 65536 + 16352 < 65536) (x0 : BitVec 9) :
    Long (b + x0.toNat * 2097152) := by
  have := x0.isLt
  exact long_of (hi := b / 65536 + x0.toNat * 32) (by omega) (by omega) (by omega)
theorem lay15 (b : Nat) (h : b / 8192 < 7 ∧ b % 8192 + 255 < 8192) (x0 : BitVec 4) (x1 : BitVec 4) :
    Short (b + x0.toNat * 16 + x1.toNat * 1) := by
  have := x0.isLt
  have := x1.isLt
  exact short_of (k := b / 8192) (by omega) (by omega) (by omega)
theorem lay16 (b : Nat) (h : b / 8192 < 7 ∧ b % 8192 + 15 < 8192) (x0 : BitVec 4) :
    Short (b + x0.toNat * 1) := by
  have := x0.isLt
  exact short_of (k := b / 8192) (by omega) (by omega) (by omega)
theorem lay17 (b : Nat) (h : b / 8192 < 7 ∧ b % 8192 + 1023 < 8192) (x0 : BitVec 4) (x1 : BitVec 6) :
    Short (b + x0.toNat * 64 + x1.toNat * 1) := by
  have := x0.isLt
  have := x1.isLt
  exact short_of (k := b / 8192) (by omega) (by omega) (by omega)
theorem lay18 (b : Nat) (h : b / 8192 < 7 ∧ b % 8192 + 4095 < 8192) (x0 : BitVec 4) (x1 : BitVec 4) (x2 : BitVec 4) :
    Short (b + x0.toNat * 256 + x1.toNat * 16 + x2.toNat * 1) := by
  have := x0.isLt
  have := x1.isLt
  have := x2.isLt
  exact short_of (k := b / 8192) (by omega) (by omega) (by omega)
theorem lay19 (b : Nat) (h : b / 8192 < 7 ∧ b % 8192 + 2047 < 8192) (x0 : BitVec 4) (x1 : BitVec 7) :
    Short (b + x0.toNat * 128 + x1.toNat * 1) := by
  have := x0.isLt
  have := x1.isLt
  exact short_of (k := b / 8192) (by omega) (by omega) (by omega)
theorem lay20 (b : Nat) (h : b / 8192 < 7 ∧ b % 8192 + 8191 < 8192) (x0 : BitVec 13) :
    Short (b + x0.toNat * 1) := by
  have := x0.isLt
  exact short_of (k := b / 8192) (by omega) (by omega) (by omega)
theorem lay21 (b : Nat) (h : b / 8192 < 7 ∧ b % 8192 + 240 < 8192) (x0 : BitVec 4) :
    Short (b + x0.toNat * 16) := by
  have := x0.isLt
  exact short_of (k := b / 8192) (by omega) (by omega) (by omega)
theorem lay22 (b : Nat) (h : 57344 ≤ b % 65536 ∧ b % 65536 + 127 < 65536 ∧ b / 65536 + 32767 < 65536) (x0 : BitVec 5) (x1 : BitVec 5) (x2 : BitVec 2) (x3 : BitVec 3) (x4 : BitVec 5) (x5 : BitVec 2) :
    Long (b + x0.toNat * 4 + x1.toNat * 65536 + x2.toNat * 536870912 + x3.toNat * 67108864 + x4.toNat * 2097152 + x5.toNat * 1) := by
  have := x0.isLt
  have := x1.isLt
  have := x2.isLt
  have := x3.isLt
  have := x4.isLt
  have := x5.isLt
  exact long_of (hi := b / 65536 + x1.toNat * 1 + x2.toNat * 8192 + x3.toNat * 1024 + x4.toNat * 32) (by omega) (by omega) (by omega)
theorem lay23 (b : Nat) (h : 57344 ≤ b % 65536 ∧ b % 65536 + 127 < 65536 ∧ b / 65536 + 32767 < 65536) (x0 : BitVec 5) (x1 : BitVec 5) (x2 : BitVec 5) (x3 : BitVec 2) (x4 : BitVec 3) (x5 : BitVec 2) :
    Long (b + x0.toNat * 4 + x1.toNat * 65536 + x2.toNat * 2097152 + x3.toNat * 536870912 + x4.toNat * 67108864 + x5.toNat * 1) := by
  have := x0.isLt
  have := x1.isLt
  have := x2.isLt
  have := x3.isLt
  have := x4.isLt
  have := x5.isLt
  exact long_of (hi := b / 65536 + x1.toNat * 1 + x2.toNat * 32 + x3.toNat * 8192 + x4.toNat * 1024) (by omega) (by omega) (by omega)
theorem lay24 (b : Nat) (h : 57344 ≤ b % 65536 ∧ b % 65536 + 127 < 65536 ∧ b / 65536 + 40959 < 65536) (x0 : BitVec 5) (x1 : BitVec 5) (x2 : BitVec 4) (x3 : BitVec 5) (x4 : BitVec 2) :
    Long (b + x0.toNat * 4 + x1.toNat * 65536 + x2.toNat / 8 * 2147483648 + x2.toNat % 8 * 67108864 + x3.toNat * 2097152 + x4.toNat * 1) := by
  have := x0.isLt
  have := x1.isLt
  have := x2.isLt
  have := x3.isLt
  have := x4.isLt
  exact long_of (hi := b / 65536 + x1.toNat * 1 + x2.toNat / 8 * 32768 + x2.toNat % 8 * 1024 + x3.toNat * 32) (by omega) (by omega) (by omega)
theorem lay25 (b : Nat) (h : 57344 ≤ b % 65536 ∧ b % 65536 + 124 < 65536 ∧ b / 65536 + 32767 < 65536) (x0 : BitVec 5) (x1 : BitVec 5) (x2 : BitVec 2) (x3 : BitVec 3) (x4 : BitVec 5) :
    Long (b + x0.toNat * 4 + x1.toNat * 65536 + x2.toNat * 536870912 + x3.toNat * 67108864 + x4.toNat * 2097152) := by
  have := x0.isLt
  have := x1.isLt
  have := x2.isLt
  have := x3.isLt
  have := x4.isLt
  exact long_of (hi := b / 65536 + x1.toNat * 1 + x2.toNat * 8192 + x3.toNat * 1024 + x4.toNat * 32) (by omega) (by omega) (by omega)
theorem lay26 (b : Nat) (h : 57344 ≤ b % 65536 ∧ b % 65536 + 124 < 65536 ∧ b / 65536 + 32767 < 65536) (x0 : BitVec 5) (x1 : BitVec 5) (x2 : BitVec 5) (x3 : BitVec 2) (x4 : BitVec 3) :
    Long (b + x0.toNat * 4 + x1.toNat * 65536 + x2.toNat * 2097152 + x3.toNat * 536870912 + x4.toNat * 67108864) := by
  have := x0.isLt
  have := x1.isLt
  have := x2.isLt
  have := x3.isLt
  have := x4.isLt
  exact long_of (hi := b / 65536 + x1.toNat * 1 + x2.toNat * 32 + x3.toNat * 8192 + x4.toNat * 1024) (by omega) (by omega) (by omega)
theorem lay27 (b : Nat) (h : 57344 ≤ b % 65536 ∧ b % 65536 + 124 < 65536 ∧ b / 65536 + 40959 < 65536) (x0 : BitVec 5) (x1 : BitVec 5) (x2 : BitVec 4) (x3 : BitVec 5) :
    Long (b + x0.toNat * 4 + x1.toNat * 65536 + x2.toNat / 8 * 2147483648 + x2.toNat % 8 * 67108864 + x3.toNat * 2097152) := by
  have := x0.isLt
  have := x1.isLt
  have := x2.isLt
  have := x3.isLt
  exact long_of (hi := b / 65536 + x1.toNat * 1 + x2.toNat / 8 * 32768 + x2.toNat % 8 * 1024 + x3.toNat * 32) (by omega) (by omega) (by omega)
theorem lay28 (b : Nat) (h : 57344 ≤ b % 65536 ∧ b % 65536 + 125 < 65536 ∧ b / 65536 + 32767 < 65536) (x0 : BitVec 5) (x1 : BitVec 5) (x2 : BitVec 5) (x3 : BitVec 2) (x4 : BitVec 3) (x5 : BitVec 1) :
    Long (b + x0.toNat * 4 + x1.toNat * 65536 + x2.toNat * 2097152 + x3.toNat * 536870912 + x4.toNat * 67108864 + x5.toNat * 1) := by
  have := x0.isLt
  have := x1.isLt
  have := x2.isLt
  have := x3.isLt
  have := x4.isLt
  have := x5.isLt
  exact long_of (hi := b / 65536 + x1.toNat * 1 + x2.toNat * 32 + x3.toNat * 8192 + x4.toNat * 1024) (by omega) (by omega) (by omega)
theorem lay29 (b : Nat) (h : 57344 ≤ b % 65536 ∧ b % 65536 + 0 < 65536 ∧ b / 65536 + 31744 < 65536) (x0 : BitVec 2) (x1 : BitVec 3) :
    Long (b + x0.toNat * 536870912 + x1.toNat * 67108864) := by
  have := x0.isLt
  have := x1.isLt
  exact long_of (hi := b / 65536 + x0.toNat * 8192 + x1.toNat * 1024) (by omega) (by omega) (by omega)
theorem lay30 (b : Nat) (h : 57344 ≤ b % 65536 ∧ b % 65536 + 0 < 65536 ∧ b / 65536 + 1023 < 65536) (x0 : BitVec 5) (x1 : BitVec 5) :
    Long (b + x0.toNat * 65536 + x1.toNat * 2097152) := by
  have := x0.isLt
  have := x1.isLt
  exact long_of (hi := b / 65536 + x0.toNat * 1 + x1.toNat * 32) (by omega) (by omega) (by omega)
theorem lay31 (b : Nat) (h : 57344 ≤ b % 65536 ∧ b % 65536 + 28 < 65536 ∧ b / 65536 + 1023 < 65536) (x0 : BitVec 5) (x1 : BitVec 5) (x2 : BitVec 1) (x3 : BitVec 2) :
    Long (b + x0.toNat * 65536 + x1.toNat * 2097152 + x2.toNat * 16 + x3.toNat * 4) := by
  have := x0.isLt
  have := x1.isLt
  have := x2.isLt
  have := x3.isLt
  exact long_of (hi := b / 65536 + x0.toNat * 1 + x1.toNat * 32) (by omega) (by omega) (by omega)
theorem lay32 (b : Nat) (h : 57344 ≤ b % 65536 ∧ b % 65536 + 124 < 65536 ∧ b / 65536 + 1023 < 65536) (x0 : BitVec 5) (x1 : BitVec 5) (x2 : BitVec 5) :
    Long (b + x0.toNat * 65536 + x1.toNat * 2097152 + x2.toNat * 4) := by
  have := x0.isLt
  have := x1.isLt
  have := x2.isLt
  exact long_of (hi := b / 65536 + x0.toNat * 1 + x1.toNat * 32) (by omega) (by omega) (by omega)
theorem lay33 (b : Nat) (h : 57344 ≤ b % 65536 ∧ b % 65536 + 124 < 65536 ∧ b / 65536 + 1023 < 65536) (x0 : BitVec 5) (x1 : BitVec 5) (x2 : BitVec 3) (x3 : BitVec 2) :
    Long (b + x0.toNat * 65536 + x1.toNat * 2097152 + x2.toNat * 16 + x3.toNat * 4) := by
  have := x0.isLt
  have := x1.isLt
  have := x2.isLt
  have := x3.isLt
  exact long_of (hi := b / 65536 + x0.toNat * 1 + x1.toNat * 32) (by omega) (by omega) (by omega)
theorem lay34 (b : Nat) (h : 57344 ≤ b % 65536 ∧ b % 65536 + 125 < 65536 ∧ b / 65536 + 8191 < 65536) (x0 : BitVec 5) (x1 : BitVec 5) (x2 : BitVec 5) (x3 : BitVec 3) (x4 : BitVec 1) :
    Long (b + x0.toNat * 4 + x1.toNat * 65536 + x2.toNat * 2097152 + x3.toNat * 67108864 + x4.toNat * 1) := by
  have := x0.isLt
  have := x1.isLt
  have := x2.isLt
  have := x3.isLt
  have := x4.isLt
  exact long_of (hi := b / 65536 + x1.toNat * 1 + x2.toNat * 32 + x3.toNat * 1024) (by omega) (by omega) (by omega)
theorem lay35 (b : Nat) (h : 57344 ≤ b % 65536 ∧ b % 65536 + 125 < 65536 ∧ b / 65536 + 7199 < 65536) (x0 : BitVec 5) (x1 : BitVec 5) (x2 : BitVec 3) (x3 : BitVec 1) :
    Long (b + x0.toNat * 4 + x1.toNat * 65536 + x2.toNat * 67108864 + x3.toNat * 1) := by
  have := x0.isLt
  have := x1.isLt
  have := x2.isLt
  have := x3.isLt
  exact long_of (hi := b / 65536 + x1.toNat * 1 + x2.toNat * 1024) (by omega) (by omega) (by omega)
theorem lay36 (b : Nat) (h : 57344 ≤ b % 65536 ∧ b % 65536 + 124 < 65536 ∧ b / 65536 + 65535 < 65536) (x0 : BitVec 5) (x1 : BitVec 5) (x2 : BitVec 3) (x3 : BitVec 4) (x4 : BitVec 4) :
    Long (b + x0.toNat * 4 + x1.toNat * 65536 + x2.toNat * 536870912 + x3.toNat * 33554432 + x4.toNat * 2097152) := by
  have := x0.isLt
  have := x1.isLt
  have := x2.isLt
  have := x3.isLt
  have := x4.isLt
  exact long_of (hi := b / 65536 + x1.toNat * 1 + x2.toNat * 8192 + x3.toNat * 512 + x4.toNat * 32) (by omega) (by omega) (by omega)
theorem lay37 (b : Nat) (h : 57344 ≤ b % 65536 ∧ b % 65536 + 124 < 65536 ∧ b / 65536 + 31 < 65536) (x0 : BitVec 5) (x1 : BitVec 5) :
    Long (b + x0.toNat * 4 + x1.toNat * 65536) := by
  have := x0.isLt
  have := x1.isLt
  exact long_of (hi := b / 65536 + x1.toNat * 1) (by omega) (by omega) (by omega)
theorem lay38 (b : Nat) (h : 57344 ≤ b % 65536 ∧ b % 65536 + 127 < 65536 ∧ b / 65536 + 4095 < 65536) (x0 : BitVec 4) (x1 : BitVec 4) (x2 : BitVec 4) (x3 : BitVec 4) (x4 : BitVec 3) :
    Long (b + x0.toNat * 4 + x1.toNat * 65536 + x2.toNat * 1048576 + x3.toNat * 16777216 + x4.toNat / 4 * 64 + x4.toNat % 4 * 1) := by
  have := x0.isLt
  have := x1.isLt
  have := x2.isLt
  have := x3.isLt
  have := x4.isLt
  exact long_of (hi := b / 65536 + x1.toNat * 1 + x2.toNat * 16 + x3.toNat * 256) (by omega) (by omega) (by omega)
theorem lay39 (b : Nat) (h : 57344 ≤ b % 65536 ∧ b % 65536 + 127 < 65536 ∧ b / 65536 + 3855 < 65536) (x0 : BitVec 4) (x1 : BitVec 4) (x2 : BitVec 4) (x3 : BitVec 3) :
    Long (b + x0.toNat * 4 + x1.toNat * 65536 + x2.toNat * 16777216 + x3.toNat / 4 * 64 + x3.toNat % 4 * 1) := by
  have := x0.isLt
  have := x1.isLt
  have := x2.isLt
  have := x3.isLt
  exact long_of (hi := b / 65536 + x1.toNat * 1 + x2.toNat * 256) (by omega) (by omega) (by omega)
theorem lay40 (b : Nat) (h : 57344 ≤ b % 65536 ∧ b % 65536 + 127 < 65536 ∧ b / 65536 + 255 < 65536) (x0 : BitVec 4) (x1 : BitVec 4) (x2 : BitVec 4) (x3 : BitVec 3) :
    Long (b + x0.toNat * 4 + x1.toNat * 65536 + x2.toNat * 1048576 + x3.toNat / 4 * 64 + x3.toNat % 4 * 1) := by
  have := x0.isLt
  have := x1.isLt
  have := x2.isLt
  have := x3.isLt
  exact long_of (hi := b / 65536 + x1.toNat * 1 + x2.toNat * 16) (by omega) (by omega) (by omega)
theorem lay41 (b : Nat) (h : 57344 ≤ b % 65536 ∧ b % 65536 + 60 < 65536 ∧ b / 65536 + 255 < 65536) (x0 : BitVec 4) (x1 : BitVec 4) (x2 : BitVec 4) :
    Long (b + x0.toNat * 4 + x1.toNat * 65536 + x2.toNat * 1048576) := by
  have := x0.isLt
  have := x1.isLt
  have := x2.isLt
  exact long_of (hi := b / 65536 + x1.toNat * 1 + x2.toNat * 16) (by omega) (by omega) (by omega)
theorem lay42 (b : Nat) (h : 57344 ≤ b % 65536 ∧ b % 65536 + 60 < 65536 ∧ b / 65536 + 15 < 65536) (x0 : BitVec 4) (x1 : BitVec 4) :
    Long (b + x0.toNat * 4 + x1.toNat * 65536) := by
  have := x0.isLt
  have := x1.isLt
  exact long_of (hi := b / 65536 + x1.toNat * 1) (by omega) (by omega) (by omega)
theorem lay43 (b : Nat) (h : 57344 ≤ b % 65536 ∧ b % 65536 + 60 < 65536 ∧ b / 65536 + 4095 < 65536) (x0 : BitVec 4) (x1 : BitVec 4) (x2 : BitVec 4) (x3 : BitVec 4) :
    Long (b + x0.toNat * 4 + x1.toNat * 65536 + x2.toNat * 1048576 + x3.toNat * 16777216) := by
  have := x0.isLt
  have := x1.isLt
  have := x2.isLt
  have := x3.isLt
  exact long_of (hi := b / 65536 + x1.toNat * 1 + x2.toNat * 16 + x3.toNat * 256) (by omega) (by omega) (by omega)
theorem lay44 (b : Nat) (h : 57344 ≤ b % 65536 ∧ b % 65536 + 127 < 65536 ∧ b / 65536 + 240 < 65536) (x0 : BitVec 4) (x1 : BitVec 4) (x2 : BitVec 3) :
    Long (b + x0.toNat * 4 + x1.toNat * 1048576 + x2.toNat / 4 * 64 + x2.toNat % 4 * 1) := by
  have := x0.isLt
  have := x1.isLt
  have := x2.isLt
  exact long_of (hi := b / 65536 + x1.toNat * 16) (by omega) (by omega) (by omega)
theorem lay45 (b : Nat) (h : 57344 ≤ b % 65536 ∧ b % 65536 + 127 < 65536 ∧ b / 65536 + 4080 < 65536) (x0 : BitVec 4) (x1 : BitVec 4) (x2 : BitVec 4) (x3 : BitVec 3) :
    Long (b + x0.toNat * 4 + x1.toNat * 1048576 + x2.toNat * 16777216 + x3.toNat / 4 * 64 + x3.toNat % 4 * 1) := by
  have := x0.isLt
  have := x1.isLt
  have := x2.isLt
  have := x3.isLt
  exact long_of (hi := b / 65536 + x1.toNat * 16 + x2.toNat * 256) (by omega) (by omega) (by omega)
theorem lay46 (b : Nat) (h : 57344 ≤ b % 65536 ∧ b % 65536 + 127 < 65536 ∧ b / 65536 + 15 < 65536) (x0 : BitVec 4) (x1 : BitVec 4) (x2 : BitVec 3) :
    Long (b + x0.toNat * 4 + x1.toNat * 65536 + x2.toNat / 4 * 64 + x2.toNat % 4 * 1) := by
  have := x0.isLt
  have := x1.isLt
  have := x2.isLt
  exact long_of (hi := b / 65536 + x1.toNat * 1) (by omega) (by omega) (by omega)
theorem lay47 (b : Nat) (h : 57344 ≤ b % 65536 ∧ b % 65536 + 124 < 65536 ∧ b / 65536 + 1023 < 65536) (x0 : BitVec 5) (x1 : BitVec 5) (x2 : BitVec 5) :
    Long (b + x0.toNat * 4 + x1.toNat * 65536 + x2.toNat * 2097152) := by
  have := x0.isLt
  have := x1.isLt
  have := x2.isLt
  exact long_of (hi := b / 65536 + x1.toNat * 1 + x2.toNat * 32) (by omega) (by omega) (by omega)
theorem lay48 (b : Nat) (h : 57344 ≤ b % 65536 ∧ b % 65536 + 0 < 65536 ∧ b / 65536 + 31 < 65536) (x0 : BitVec 5) :
    Long (b + x0.toNat * 65536) := by
  have := x0.isLt
  exact long_of (hi := b / 65536 + x0.toNat * 1) (by omega) (by omega) (by omega)
theorem lay49 (b : Nat) (h : 57344 ≤ b % 65536 ∧ b % 65536 + 3 < 65536 ∧ b / 65536 + 31 < 65536) (x0 : BitVec 5) (x1 : BitVec 2) :
    Long (b + x0.toNat * 65536 + x1.toNat * 1) := by
  have := x0.isLt
  have := x1.isLt
  exact long_of (hi := b / 65536 + x0.toNat * 1) (by omega) (by omega) (by omega)
theorem lay50 (b : Nat) (h : 57344 ≤ b % 65536 ∧ b % 65536 + 125 < 65536 ∧ b / 65536 + 0 < 65536) (x0 : BitVec 5) (x1 : BitVec 1) :
    Long (b + x0.toNat * 4 + x1.toNat * 1) := by
  have := x0.isLt
  have := x1.isLt
  exact long_of (hi := b / 65536) (by omega) (by omega) (by omega)
theorem lay51 (b : Nat) (h : 57344 ≤ b % 65536 ∧ b % 65536 + 5 < 65536 ∧ b / 65536 + 8191 < 65536) (x0 : BitVec 4) (x1 : BitVec 4) (x2 : BitVec 5) (x3 : BitVec 1) (x4 : BitVec 1) :
    Long (b + x0.toNat * 65536 + x1.toNat * 1048576 + x2.toNat * 16777216 + x3.toNat * 4 + x4.toNat * 1) := by
  have := x0.isLt
  have := x1.isLt
  have := x2.isLt
  have := x3.isLt
  have := x4.isLt
  exact long_of (hi := b / 65536 + x0.toNat * 1 + x1.toNat * 16 + x2.toNat * 256) (by omega) (by omega) (by omega)
theorem lay52 (b : Nat) (h : 57344 ≤ b % 65536 ∧ b % 65536 + 1 < 65536 ∧ b / 65536 + 255 < 65536) (x0 : BitVec 4) (x1 : BitVec 4) (x2 : BitVec 1) :
    Long (b + x0.toNat * 65536 + x1.toNat * 1048576 + x2.toNat * 1) := by
  have := x0.isLt
  have := x1.isLt
  have := x2.isLt
  exact long_of (hi := b / 65536 + x0.toNat * 1 + x1.toNat * 16) (by omega) (by omega) (by omega)
theorem lay53 (b : Nat) (h : 57344 ≤ b % 65536 ∧ b % 65536 + 1 < 65536 ∧ b / 65536 + 8191 < 65536) (x0 : BitVec 4) (x1 : BitVec 4) (x2 : BitVec 5) (x3 : BitVec 1) :
    Long (b + x0.toNat * 65536 + x1.toNat * 1048576 + x2.toNat * 16777216 + x3.toNat * 1) := by
  have := x0.isLt
  have := x1.isLt
  have := x2.isLt
  have := x3.isLt
  exact long_of (hi := b / 65536 + x0.toNat * 1 + x1.toNat * 16 + x2.toNat * 256) (by omega) (by omega) (by omega)
theorem lay54 (b : Nat) (h : 57344 ≤ b % 65536 ∧ b % 65536 + 5 < 65536 ∧ b / 65536 + 3840 < 65536) (x0 : BitVec 1) (x1 : BitVec 3) (x2 : BitVec 1) (x3 : BitVec 1) :
    Long (b + x0.toNat * 134217728 + x1.toNat * 16777216 + x2.toNat * 4 + x3.toNat * 1) := by
  have := x0.isLt
  have := x1.isLt
  have := x2.isLt
  have := x3.isLt
  exact long_of (hi := b / 65536 + x0.toNat * 2048 + x1.toNat * 256) (by omega) (by omega) (by omega)
theorem lay55 (b : Nat) (h : 57344 ≤ b % 65536 ∧ b % 65536 + 125 < 65536 ∧ b / 65536 + 783 < 65536) (x0 : BitVec 5) (x1 : BitVec 4) (x2 : BitVec 2) (x3 : BitVec 1) :
    Long (b + x0.toNat * 4 + x1.toNat * 65536 + x2.toNat * 16777216 + x3.toNat * 1) := by
  have := x0.isLt
  have := x1.isLt
  have := x2.isLt
  have := x3.isLt
  exact long_of (hi := b / 65536 + x1.toNat * 1 + x2.toNat * 256) (by omega) (by omega) (by omega)
theorem lay56 (b : Nat) (h : 57344 ≤ b % 65536 ∧ b % 65536 + 125 < 65536 ∧ b / 65536 + 256 < 65536) (x0 : BitVec 5) (x1 : BitVec 1) (x2 : BitVec 1) :
    Long (b + x0.toNat * 4 + x1.toNat * 16777216 + x2.toNat * 1) := by
  have := x0.isLt
  have := x1.isLt
  have := x2.isLt
  exact long_of (hi := b / 65536 + x1.toNat * 256) (by omega) (by omega) (by omega)
theorem lay57 (b : Nat) (h : 57344 ≤ b % 65536 ∧ b % 65536 + 124 < 65536 ∧ b / 65536 + 7 < 65536) (x0 : BitVec 5) (x1 : BitVec 3) :
    Long (b + x0.toNat * 4 + x1.toNat * 65536) := by
  have := x0.isLt
  have := x1.isLt
  exact long_of (hi := b / 65536 + x1.toNat * 1) (by omega) (by omega) (by omega)
theorem lay58 (b : Nat) (h : 57344 ≤ b % 65536 ∧ b % 65536 + 0 < 65536 ∧ b / 65536 + 7 < 65536) (x0 : BitVec 3) :
    Long (b + x0.toNat * 65536) := by
  have := x0.isLt
  exact long_of (hi := b / 65536 + x0.toNat * 1) (by omega) (by omega) (by omega)
theorem lay59 (b : Nat) (h : 57344 ≤ b % 65536 ∧ b % 65536 + 1 < 65536 ∧ b / 65536 + 0 < 65536) (x0 : BitVec 1) :
    Long (b + x0.toNat * 1) := by
  have := x0.isLt
  exact long_of (hi := b / 65536) (by omega) (by omega) (by omega)
theorem lay60 (b : Nat) (h : 57344 ≤ b % 65536 ∧ b % 65536 + 5 < 65536 ∧ b / 65536 + 7936 < 65536) (x0 : BitVec 5) (x1 : BitVec 1) (x2 : BitVec 1) :
    Long (b + x0.toNat * 16777216 + x1.toNat * 4 + x2.toNat * 1) := by
  have := x0.isLt
  have := x1.isLt
  have := x2.isLt
  exact long_of (hi := b / 65536 + x0.toNat * 256) (by omega) (by omega) (by omega)
theorem lay61 (b : Nat) (h : 57344 ≤ b % 65536 ∧ b % 65536 + 124 < 65536 ∧ b / 65536 + 0 < 65536) (x0 : BitVec 5) :
    Long (b + x0.toNat * 4) := by
  have := x0.isLt
  exact long_of (hi := b / 65536) (by omega) (by omega) (by omega)
theorem lay62 (b : Nat) (h : 57344 ≤ b % 65536 ∧ b % 65536 + 125 < 65536 ∧ b / 65536 + 1023 < 65536) (x0 : BitVec 5) (x1 : BitVec 5) (x2 : BitVec 5) (x3 : BitVec 1) :
    Long (b + x0.toNat * 65536 + x1.toNat * 2097152 + x2.toNat * 4 + x3.toNat * 1) := by
  have := x0.isLt
  have := x1.isLt
  have := x2.isLt
  have := x3.isLt
  exact long_of (hi := b / 65536 + x0.toNat * 1 + x1.toNat * 32) (by omega) (by omega) (by omega)
theorem lay63 (b : Nat) (h : 57344 ≤ b % 65536 ∧ b % 65536 + 127 < 65536 ∧ b / 65536 + 31 < 65536) (x0 : BitVec 5) (x1 : BitVec 5) (x2 : BitVec 2) :
    Long (b + x0.toNat * 4 + x1.toNat * 65536 + x2.toNat * 1) := by
  have := x0.isLt
  have := x1.isLt
  have := x2.isLt
  exact long_of (hi := b / 65536 + x1.toNat * 1) (by omega) (by omega) (by omega)
theorem lay64 (b : Nat) (h : 57344 ≤ b % 65536 ∧ b % 65536 + 127 < 65536 ∧ b / 65536 + 1023 < 65536) (x0 : BitVec 5) (x1 : BitVec 5) (x2 : BitVec 5) (x3 : BitVec 2) :
    Long (b + x0.toNat * 4 + x1.toNat * 65536 + x2.toNat * 2097152 + x3.toNat * 1) := by
  have := x0.isLt
  have := x1.isLt
  have := x2.isLt
  have := x3.isLt
  exact long_of (hi := b / 65536 + x1.toNat * 1 + x2.toNat * 32) (by omega) (by omega) (by omega)
theorem lay65 (b : Nat) (h : 57344 ≤ b % 65536 ∧ b % 65536 + 124 < 65536 ∧ b / 65536 + 65504 < 65536) (x0 : BitVec 5) (x1 : BitVec 11) :
    Long (b + x0.toNat * 4 + x1.toNat * 2097152) := by
  have := x0.isLt
  have := x1.isLt
  exact long_of (hi := b / 65536 + x1.toNat * 32) (by omega) (by omega) (by omega)

theorem add (d : BitVec 5) (a : BitVec 5) (b : BitVec 5) (w : BitVec 1) : Statement (.add d a b w) := lay0 0x0000E000 (by decide) d a b w
theorem sub (d : BitVec 5) (a : BitVec 5) (b : BitVec 5) (w : BitVec 1) : Statement (.sub d a b w) := lay0 0x0400E000 (by decide) d a b w
theorem mul (d : BitVec 5) (a : BitVec 5) (b : BitVec 5) (w : BitVec 1) : Statement (.mul d a b w) := lay0 0x0800E000 (by decide) d a b w
theorem mulh (d : BitVec 5) (a : BitVec 5) (b : BitVec 5) (w : BitVec 1) : Statement (.mulh d a b w) := lay0 0x0C00E000 (by decide) d a b w
theorem mulhn (d : BitVec 5) (a : BitVec 5) (b : BitVec 5) (w : BitVec 1) : Statement (.mulhn d a b w) := lay0 0x1000E000 (by decide) d a b w
theorem div (d : BitVec 5) (a : BitVec 5) (b : BitVec 5) (w : BitVec 1) : Statement (.div d a b w) := lay0 0x1400E000 (by decide) d a b w
theorem divn (d : BitVec 5) (a : BitVec 5) (b : BitVec 5) (w : BitVec 1) : Statement (.divn d a b w) := lay0 0x1800E000 (by decide) d a b w
theorem rem (d : BitVec 5) (a : BitVec 5) (b : BitVec 5) (w : BitVec 1) : Statement (.rem d a b w) := lay0 0x1C00E000 (by decide) d a b w
theorem remn (d : BitVec 5) (a : BitVec 5) (b : BitVec 5) (w : BitVec 1) : Statement (.remn d a b w) := lay0 0x2000E000 (by decide) d a b w
theorem and (d : BitVec 5) (a : BitVec 5) (b : BitVec 5) (w : BitVec 1) : Statement (.and d a b w) := lay0 0x2400E000 (by decide) d a b w
theorem or (d : BitVec 5) (a : BitVec 5) (b : BitVec 5) (w : BitVec 1) : Statement (.or d a b w) := lay0 0x2800E000 (by decide) d a b w
theorem xor (d : BitVec 5) (a : BitVec 5) (b : BitVec 5) (w : BitVec 1) : Statement (.xor d a b w) := lay0 0x2C00E000 (by decide) d a b w
theorem andn (d : BitVec 5) (a : BitVec 5) (b : BitVec 5) (w : BitVec 1) : Statement (.andn d a b w) := lay0 0x3000E000 (by decide) d a b w
theorem shl (d : BitVec 5) (a : BitVec 5) (b : BitVec 5) (w : BitVec 1) : Statement (.shl d a b w) := lay0 0x3400E000 (by decide) d a b w
theorem shr (d : BitVec 5) (a : BitVec 5) (b : BitVec 5) (w : BitVec 1) : Statement (.shr d a b w) := lay0 0x3800E000 (by decide) d a b w
theorem sra (d : BitVec 5) (a : BitVec 5) (b : BitVec 5) (w : BitVec 1) : Statement (.sra d a b w) := lay0 0x3C00E000 (by decide) d a b w
theorem rol (d : BitVec 5) (a : BitVec 5) (b : BitVec 5) (w : BitVec 1) : Statement (.rol d a b w) := lay0 0x4000E000 (by decide) d a b w
theorem ror (d : BitVec 5) (a : BitVec 5) (b : BitVec 5) (w : BitVec 1) : Statement (.ror d a b w) := lay0 0x4400E000 (by decide) d a b w
theorem min (d : BitVec 5) (a : BitVec 5) (b : BitVec 5) (w : BitVec 1) : Statement (.min d a b w) := lay0 0x4800E000 (by decide) d a b w
theorem max (d : BitVec 5) (a : BitVec 5) (b : BitVec 5) (w : BitVec 1) : Statement (.max d a b w) := lay0 0x4C00E000 (by decide) d a b w
theorem minn (d : BitVec 5) (a : BitVec 5) (b : BitVec 5) (w : BitVec 1) : Statement (.minn d a b w) := lay0 0x5000E000 (by decide) d a b w
theorem maxn (d : BitVec 5) (a : BitVec 5) (b : BitVec 5) (w : BitVec 1) : Statement (.maxn d a b w) := lay0 0x5400E000 (by decide) d a b w
theorem slt (d : BitVec 5) (a : BitVec 5) (b : BitVec 5) (w : BitVec 1) : Statement (.slt d a b w) := lay0 0x5800E000 (by decide) d a b w
theorem sltn (d : BitVec 5) (a : BitVec 5) (b : BitVec 5) (w : BitVec 1) : Statement (.sltn d a b w) := lay0 0x5C00E000 (by decide) d a b w
theorem seq (d : BitVec 5) (a : BitVec 5) (b : BitVec 5) (w : BitVec 1) : Statement (.seq d a b w) := lay0 0x6000E000 (by decide) d a b w
theorem clz (d : BitVec 5) (a : BitVec 5) (w : BitVec 1) : Statement (.clz d a w) := lay1 0x6400E000 (by decide) d a w
theorem ctz (d : BitVec 5) (a : BitVec 5) (w : BitVec 1) : Statement (.ctz d a w) := lay1 0x6800E000 (by decide) d a w
theorem popc (d : BitVec 5) (a : BitVec 5) (w : BitVec 1) : Statement (.popc d a w) := lay1 0x6C00E000 (by decide) d a w
theorem brev (d : BitVec 5) (a : BitVec 5) (w : BitVec 1) : Statement (.brev d a w) := lay1 0x7000E000 (by decide) d a w
theorem addi (d : BitVec 5) (a : BitVec 5) (i : BitVec 11) (w : BitVec 1) : Statement (.addi d a i w) := lay2 0x0000E080 (by decide) d a i w
theorem andi (d : BitVec 5) (a : BitVec 5) (i : BitVec 11) : Statement (.andi d a i) := lay3 0x0000E100 (by decide) d a i
theorem ori (d : BitVec 5) (a : BitVec 5) (i : BitVec 11) : Statement (.ori d a i) := lay3 0x0000E101 (by decide) d a i
theorem xori (d : BitVec 5) (a : BitVec 5) (i : BitVec 11) : Statement (.xori d a i) := lay3 0x0000E102 (by decide) d a i
theorem slti (d : BitVec 5) (a : BitVec 5) (i : BitVec 11) : Statement (.slti d a i) := lay3 0x0000E103 (by decide) d a i
theorem sel (d : BitVec 5) (a : BitVec 5) (b : BitVec 5) (c : BitVec 5) : Statement (.sel d a b c) := lay4 0x0000E180 (by decide) d a b c
theorem shli (d : BitVec 5) (a : BitVec 5) (w : BitVec 1) (s : BitVec 6) : Statement (.shli d a w s) := lay5 0x0000E200 (by decide) d a w s
theorem shri (d : BitVec 5) (a : BitVec 5) (w : BitVec 1) (s : BitVec 6) : Statement (.shri d a w s) := lay5 0x0000E201 (by decide) d a w s
theorem srai (d : BitVec 5) (a : BitVec 5) (w : BitVec 1) (s : BitVec 6) : Statement (.srai d a w s) := lay5 0x0000E202 (by decide) d a w s
theorem ldhi (d : BitVec 5) (i : BitVec 16) (k : BitVec 2) : Statement (.ldhi d i k) := lay6 0x0000E280 (by decide) d i k
theorem lea (d : BitVec 5) (a : BitVec 5) (i : BitVec 11) : Statement (.lea d a i) := lay3 0x0000E300 (by decide) d a i
theorem leaScaled (d : BitVec 5) (a : BitVec 5) (b : BitVec 5) (s : BitVec 3) : Statement (.leaScaled d a b s) := lay7 0x0000E301 (by decide) d a b s
theorem leaRegion (d : BitVec 5) (a : BitVec 5) (n : BitVec 4) (o : BitVec 7) : Statement (.leaRegion d a n o) := lay8 0x0000E302 (by decide) d a n o
theorem bfx (d : BitVec 5) (a : BitVec 5) (l : BitVec 5) (p : BitVec 6) : Statement (.bfx d a l p) := lay9 0x0000E380 (by decide) d a l p
theorem bfxn (d : BitVec 5) (a : BitVec 5) (l : BitVec 5) (p : BitVec 6) : Statement (.bfxn d a l p) := lay9 0x0000E381 (by decide) d a l p
theorem bfi (d : BitVec 5) (a : BitVec 5) (l : BitVec 5) (p : BitVec 6) : Statement (.bfi d a l p) := lay9 0x0000E382 (by decide) d a l p
theorem beq (a : BitVec 5) (b : BitVec 5) (o : BitVec 13) : Statement (.beq a b o) := lay10 0x0000E400 (by decide) a b o
theorem bne (a : BitVec 5) (b : BitVec 5) (o : BitVec 13) : Statement (.bne a b o) := lay10 0x0000E480 (by decide) a b o
theorem blt (a : BitVec 5) (b : BitVec 5) (o : BitVec 13) : Statement (.blt a b o) := lay10 0x0000E500 (by decide) a b o
theorem bge (a : BitVec 5) (b : BitVec 5) (o : BitVec 13) : Statement (.bge a b o) := lay10 0x0000E580 (by decide) a b o
theorem bltn (a : BitVec 5) (b : BitVec 5) (o : BitVec 13) : Statement (.bltn a b o) := lay10 0x0000E600 (by decide) a b o
theorem bgen (a : BitVec 5) (b : BitVec 5) (o : BitVec 13) : Statement (.bgen a b o) := lay10 0x0000E680 (by decide) a b o
theorem j (o : BitVec 18) : Statement (.j o) := lay11 0x0000E700 (by decide) o
theorem jal (d : BitVec 5) (o : BitVec 18) : Statement (.jal d o) := lay12 0x0000E700 (by decide) d o
theorem jalr (d : BitVec 5) (a : BitVec 5) (i : BitVec 11) : Statement (.jalr d a i) := lay3 0x0000E780 (by decide) d a i
theorem loop (a : BitVec 5) (i : BitVec 11) : Statement (.loop a i) := lay13 0x0000E781 (by decide) a i
theorem endTask : Statement (.endTask) := by
  show encode .endTask < _ ∧ field (encode .endTask) 13 3 = 7
  decide
theorem trap (i : BitVec 9) : Statement (.trap i) := lay14 0x4000E782 (by decide) i
theorem brk (i : BitVec 9) : Statement (.brk i) := lay14 0x8000E782 (by decide) i
theorem addCr (d : BitVec 4) (a : BitVec 4) : Statement (.addCr d a) := lay15 0x0200 (by decide) d a
theorem moveCr (d : BitVec 4) (a : BitVec 4) : Statement (.moveCr d a) := lay15 0x0100 (by decide) d a
theorem subCr (d : BitVec 4) (a : BitVec 4) : Statement (.subCr d a) := lay15 0x0300 (by decide) d a
theorem andCr (d : BitVec 4) (a : BitVec 4) : Statement (.andCr d a) := lay15 0x0400 (by decide) d a
theorem orCr (d : BitVec 4) (a : BitVec 4) : Statement (.orCr d a) := lay15 0x0500 (by decide) d a
theorem xorCr (d : BitVec 4) (a : BitVec 4) : Statement (.xorCr d a) := lay15 0x0600 (by decide) d a
theorem shlCr (d : BitVec 4) (a : BitVec 4) : Statement (.shlCr d a) := lay15 0x0700 (by decide) d a
theorem shrCr (d : BitVec 4) (a : BitVec 4) : Statement (.shrCr d a) := lay15 0x0800 (by decide) d a
theorem sraCr (d : BitVec 4) (a : BitVec 4) : Statement (.sraCr d a) := lay15 0x0900 (by decide) d a
theorem mulCr (d : BitVec 4) (a : BitVec 4) : Statement (.mulCr d a) := lay15 0x0A00 (by decide) d a
theorem jalrLinkCr (a : BitVec 4) : Statement (.jalrLinkCr a) := lay16 0x0B00 (by decide) a
theorem jalrNolinkCr (a : BitVec 4) : Statement (.jalrNolinkCr a) := lay16 0x0C00 (by decide) a
theorem addiCi (d : BitVec 4) (i : BitVec 6) : Statement (.addiCi d i) := lay17 0x2000 (by decide) d i
theorem addiZeroCi (d : BitVec 4) (i : BitVec 6) : Statement (.addiZeroCi d i) := lay17 0x2400 (by decide) d i
theorem shliCi (d : BitVec 4) (i : BitVec 6) : Statement (.shliCi d i) := lay17 0x2800 (by decide) d i
theorem shriCi (d : BitVec 4) (i : BitVec 6) : Statement (.shriCi d i) := lay17 0x2C00 (by decide) d i
theorem sraiCi (d : BitVec 4) (i : BitVec 6) : Statement (.sraiCi d i) := lay17 0x3000 (by decide) d i
theorem andiCi (d : BitVec 4) (i : BitVec 6) : Statement (.andiCi d i) := lay17 0x3400 (by decide) d i
theorem ldDCm (d : BitVec 4) (b : BitVec 4) (o : BitVec 4) : Statement (.ldDCm d b o) := lay18 0x4000 (by decide) d b o
theorem stDCm (d : BitVec 4) (b : BitVec 4) (o : BitVec 4) : Statement (.stDCm d b o) := lay18 0x5000 (by decide) d b o
theorem beqCb (a : BitVec 4) (o : BitVec 7) : Statement (.beqCb a o) := lay19 0x6000 (by decide) a o
theorem bneCb (a : BitVec 4) (o : BitVec 7) : Statement (.bneCb a o) := lay19 0x6800 (by decide) a o
theorem bltCb (a : BitVec 4) (o : BitVec 7) : Statement (.bltCb a o) := lay19 0x7000 (by decide) a o
theorem bgeCb (a : BitVec 4) (o : BitVec 7) : Statement (.bgeCb a o) := lay19 0x7800 (by decide) a o
theorem jCj (o : BitVec 13) : Statement (.jCj o) := lay20 0x8000 (by decide) o
theorem endCt : Statement (.endCt) := by
  show encode .endCt < _ ∧ field (encode .endCt) 13 3 ≠ 7
  decide
theorem doneCt (a : BitVec 4) : Statement (.doneCt a) := lay21 0xA100 (by decide) a
theorem sendC (a : BitVec 4) (k : BitVec 4) : Statement (.sendC a k) := lay15 0xA200 (by decide) a k
theorem vorCv (d : BitVec 4) (a : BitVec 4) : Statement (.vorCv d a) := lay15 0xC000 (by decide) d a
theorem vaddS32Cv (d : BitVec 4) (a : BitVec 4) : Statement (.vaddS32Cv d a) := lay15 0xC100 (by decide) d a
theorem vsubS32Cv (d : BitVec 4) (a : BitVec 4) : Statement (.vsubS32Cv d a) := lay15 0xC200 (by decide) d a
theorem vaddF32Cv (d : BitVec 4) (a : BitVec 4) : Statement (.vaddF32Cv d a) := lay15 0xC300 (by decide) d a
theorem vsubF32Cv (d : BitVec 4) (a : BitVec 4) : Statement (.vsubF32Cv d a) := lay15 0xC400 (by decide) d a
theorem vmulF32Cv (d : BitVec 4) (a : BitVec 4) : Statement (.vmulF32Cv d a) := lay15 0xC500 (by decide) d a
theorem vmaxF32Cv (d : BitVec 4) (a : BitVec 4) : Statement (.vmaxF32Cv d a) := lay15 0xC600 (by decide) d a
theorem vminF32Cv (d : BitVec 4) (a : BitVec 4) : Statement (.vminF32Cv d a) := lay15 0xC700 (by decide) d a
theorem vandCv (d : BitVec 4) (a : BitVec 4) : Statement (.vandCv d a) := lay15 0xC800 (by decide) d a
theorem vxorCv (d : BitVec 4) (a : BitVec 4) : Statement (.vxorCv d a) := lay15 0xC900 (by decide) d a
theorem vnotCv (d : BitVec 4) (a : BitVec 4) : Statement (.vnotCv d a) := lay15 0xCA00 (by decide) d a
theorem ld (d : BitVec 5) (a : BitVec 5) (o : BitVec 2) (s : BitVec 3) (i : BitVec 5) (w : BitVec 2) : Statement (.ld d a o s i w) := lay22 0x8000E800 (by decide) d a o s i w
theorem ldIndex (d : BitVec 5) (a : BitVec 5) (b : BitVec 5) (o : BitVec 2) (s : BitVec 3) (w : BitVec 2) : Statement (.ldIndex d a b o s w) := lay23 0x0000E800 (by decide) d a b o s w
theorem ldRegion (d : BitVec 5) (a : BitVec 5) (n : BitVec 4) (i : BitVec 5) (w : BitVec 2) : Statement (.ldRegion d a n i w) := lay24 0x6000E800 (by decide) d a n i w
theorem st (d : BitVec 5) (a : BitVec 5) (o : BitVec 2) (s : BitVec 3) (i : BitVec 5) (w : BitVec 2) : Statement (.st d a o s i w) := lay22 0x8000E880 (by decide) d a o s i w
theorem stIndex (d : BitVec 5) (a : BitVec 5) (b : BitVec 5) (o : BitVec 2) (s : BitVec 3) (w : BitVec 2) : Statement (.stIndex d a b o s w) := lay23 0x0000E880 (by decide) d a b o s w
theorem stRegion (d : BitVec 5) (a : BitVec 5) (n : BitVec 4) (i : BitVec 5) (w : BitVec 2) : Statement (.stRegion d a n i w) := lay24 0x6000E880 (by decide) d a n i w
theorem ldv (d : BitVec 5) (a : BitVec 5) (o : BitVec 2) (s : BitVec 3) (i : BitVec 5) : Statement (.ldv d a o s i) := lay25 0x8000E900 (by decide) d a o s i
theorem ldvIndex (d : BitVec 5) (a : BitVec 5) (b : BitVec 5) (o : BitVec 2) (s : BitVec 3) : Statement (.ldvIndex d a b o s) := lay26 0x0000E900 (by decide) d a b o s
theorem ldvRegion (d : BitVec 5) (a : BitVec 5) (n : BitVec 4) (i : BitVec 5) : Statement (.ldvRegion d a n i) := lay27 0x6000E900 (by decide) d a n i
theorem stv (d : BitVec 5) (a : BitVec 5) (o : BitVec 2) (s : BitVec 3) (i : BitVec 5) : Statement (.stv d a o s i) := lay25 0x8000E901 (by decide) d a o s i
theorem stvIndex (d : BitVec 5) (a : BitVec 5) (b : BitVec 5) (o : BitVec 2) (s : BitVec 3) : Statement (.stvIndex d a b o s) := lay26 0x0000E901 (by decide) d a b o s
theorem stvRegion (d : BitVec 5) (a : BitVec 5) (n : BitVec 4) (i : BitVec 5) : Statement (.stvRegion d a n i) := lay27 0x6000E901 (by decide) d a n i
theorem ldf (d : BitVec 5) (a : BitVec 5) (o : BitVec 2) (s : BitVec 3) (i : BitVec 5) : Statement (.ldf d a o s i) := lay25 0x8000E980 (by decide) d a o s i
theorem ldfIndex (d : BitVec 5) (a : BitVec 5) (b : BitVec 5) (o : BitVec 2) (s : BitVec 3) : Statement (.ldfIndex d a b o s) := lay26 0x0000E980 (by decide) d a b o s
theorem stf (d : BitVec 5) (a : BitVec 5) (o : BitVec 2) (s : BitVec 3) (i : BitVec 5) : Statement (.stf d a o s i) := lay25 0x8000E981 (by decide) d a o s i
theorem stfIndex (d : BitVec 5) (a : BitVec 5) (b : BitVec 5) (o : BitVec 2) (s : BitVec 3) : Statement (.stfIndex d a b o s) := lay26 0x0000E981 (by decide) d a b o s
theorem ste (d : BitVec 5) (a : BitVec 5) (o : BitVec 2) (s : BitVec 3) (i : BitVec 5) : Statement (.ste d a o s i) := lay25 0x8000E982 (by decide) d a o s i
theorem steIndex (d : BitVec 5) (a : BitVec 5) (b : BitVec 5) (o : BitVec 2) (s : BitVec 3) : Statement (.steIndex d a b o s) := lay26 0x0000E982 (by decide) d a b o s
theorem aadd (d : BitVec 5) (a : BitVec 5) (b : BitVec 5) (o : BitVec 2) (s : BitVec 3) (w : BitVec 1) : Statement (.aadd d a b o s w) := lay28 0x0000EA00 (by decide) d a b o s w
theorem aand (d : BitVec 5) (a : BitVec 5) (b : BitVec 5) (o : BitVec 2) (s : BitVec 3) (w : BitVec 1) : Statement (.aand d a b o s w) := lay28 0x0000EA02 (by decide) d a b o s w
theorem aor (d : BitVec 5) (a : BitVec 5) (b : BitVec 5) (o : BitVec 2) (s : BitVec 3) (w : BitVec 1) : Statement (.aor d a b o s w) := lay28 0x8000EA00 (by decide) d a b o s w
theorem axor (d : BitVec 5) (a : BitVec 5) (b : BitVec 5) (o : BitVec 2) (s : BitVec 3) (w : BitVec 1) : Statement (.axor d a b o s w) := lay28 0x8000EA02 (by decide) d a b o s w
theorem amin (d : BitVec 5) (a : BitVec 5) (b : BitVec 5) (o : BitVec 2) (s : BitVec 3) (w : BitVec 1) : Statement (.amin d a b o s w) := lay28 0x0000EA80 (by decide) d a b o s w
theorem amax (d : BitVec 5) (a : BitVec 5) (b : BitVec 5) (o : BitVec 2) (s : BitVec 3) (w : BitVec 1) : Statement (.amax d a b o s w) := lay28 0x0000EA82 (by decide) d a b o s w
theorem aminn (d : BitVec 5) (a : BitVec 5) (b : BitVec 5) (o : BitVec 2) (s : BitVec 3) (w : BitVec 1) : Statement (.aminn d a b o s w) := lay28 0x8000EA80 (by decide) d a b o s w
theorem amaxn (d : BitVec 5) (a : BitVec 5) (b : BitVec 5) (o : BitVec 2) (s : BitVec 3) (w : BitVec 1) : Statement (.amaxn d a b o s w) := lay28 0x8000EA82 (by decide) d a b o s w
theorem aswp (d : BitVec 5) (a : BitVec 5) (b : BitVec 5) (o : BitVec 2) (s : BitVec 3) (w : BitVec 1) : Statement (.aswp d a b o s w) := lay28 0x0000EB00 (by decide) d a b o s w
theorem acas (d : BitVec 5) (a : BitVec 5) (b : BitVec 5) (o : BitVec 2) (s : BitVec 3) (w : BitVec 1) : Statement (.acas d a b o s w) := lay28 0x0000EB02 (by decide) d a b o s w
theorem afadd (d : BitVec 5) (a : BitVec 5) (b : BitVec 5) (o : BitVec 2) (s : BitVec 3) (w : BitVec 1) : Statement (.afadd d a b o s w) := lay28 0x8000EB00 (by decide) d a b o s w
theorem adf (d : BitVec 5) (a : BitVec 5) (b : BitVec 5) (o : BitVec 2) (s : BitVec 3) (w : BitVec 1) : Statement (.adf d a b o s w) := lay28 0x8000EB02 (by decide) d a b o s w
theorem fence (o : BitVec 2) (s : BitVec 3) : Statement (.fence o s) := lay29 0x0000EB80 (by decide) o s
theorem aliasf (a : BitVec 5) (b : BitVec 5) : Statement (.aliasf a b) := lay30 0x0000EB81 (by decide) a b
theorem ifence : Statement (.ifence) := by
  show encode .ifence < _ ∧ field (encode .ifence) 13 3 = 7
  decide
theorem pfx (a : BitVec 5) (i : BitVec 5) (w : BitVec 1) (l : BitVec 2) : Statement (.pfx a i w l) := lay31 0x0000EB83 (by decide) a i w l
theorem nmadd (a : BitVec 5) (b : BitVec 5) (t : BitVec 5) : Statement (.nmadd a b t) := lay32 0x8000EB80 (by decide) a b t
theorem nmred (a : BitVec 5) (b : BitVec 5) (o : BitVec 3) (t : BitVec 2) : Statement (.nmred a b o t) := lay33 0x8000EB81 (by decide) a b o t
theorem nmfence : Statement (.nmfence) := by
  show encode .nmfence < _ ∧ field (encode .nmfence) 13 3 = 7
  decide
theorem fadd (d : BitVec 5) (a : BitVec 5) (b : BitVec 5) (r : BitVec 3) (p : BitVec 1) : Statement (.fadd d a b r p) := lay34 0x0000EC00 (by decide) d a b r p
theorem fsub (d : BitVec 5) (a : BitVec 5) (b : BitVec 5) (r : BitVec 3) (p : BitVec 1) : Statement (.fsub d a b r p) := lay34 0x2000EC00 (by decide) d a b r p
theorem fmul (d : BitVec 5) (a : BitVec 5) (b : BitVec 5) (r : BitVec 3) (p : BitVec 1) : Statement (.fmul d a b r p) := lay34 0x4000EC00 (by decide) d a b r p
theorem fdiv (d : BitVec 5) (a : BitVec 5) (b : BitVec 5) (r : BitVec 3) (p : BitVec 1) : Statement (.fdiv d a b r p) := lay34 0x6000EC00 (by decide) d a b r p
theorem fsqrt (d : BitVec 5) (a : BitVec 5) (r : BitVec 3) (p : BitVec 1) : Statement (.fsqrt d a r p) := lay35 0x8000EC00 (by decide) d a r p
theorem ffma (d : BitVec 5) (a : BitVec 5) (b : BitVec 5) (r : BitVec 3) (p : BitVec 1) : Statement (.ffma d a b r p) := lay34 0x0000EC80 (by decide) d a b r p
theorem ffms (d : BitVec 5) (a : BitVec 5) (b : BitVec 5) (r : BitVec 3) (p : BitVec 1) : Statement (.ffms d a b r p) := lay34 0x2000EC80 (by decide) d a b r p
theorem ffnma (d : BitVec 5) (a : BitVec 5) (b : BitVec 5) (r : BitVec 3) (p : BitVec 1) : Statement (.ffnma d a b r p) := lay34 0x4000EC80 (by decide) d a b r p
theorem fmin (d : BitVec 5) (a : BitVec 5) (b : BitVec 5) (p : BitVec 1) : Statement (.fmin d a b p) := lay0 0x0000ED00 (by decide) d a b p
theorem fmax (d : BitVec 5) (a : BitVec 5) (b : BitVec 5) (p : BitVec 1) : Statement (.fmax d a b p) := lay0 0x2000ED00 (by decide) d a b p
theorem feq (d : BitVec 5) (a : BitVec 5) (b : BitVec 5) (p : BitVec 1) : Statement (.feq d a b p) := lay0 0x4000ED00 (by decide) d a b p
theorem flt (d : BitVec 5) (a : BitVec 5) (b : BitVec 5) (p : BitVec 1) : Statement (.flt d a b p) := lay0 0x6000ED00 (by decide) d a b p
theorem fle (d : BitVec 5) (a : BitVec 5) (b : BitVec 5) (p : BitVec 1) : Statement (.fle d a b p) := lay0 0x8000ED00 (by decide) d a b p
theorem fclass (d : BitVec 5) (a : BitVec 5) (p : BitVec 1) : Statement (.fclass d a p) := lay1 0xA000ED00 (by decide) d a p
theorem fsgnj (d : BitVec 5) (a : BitVec 5) (b : BitVec 5) (p : BitVec 1) : Statement (.fsgnj d a b p) := lay0 0x0000ED80 (by decide) d a b p
theorem fsgnjn (d : BitVec 5) (a : BitVec 5) (b : BitVec 5) (p : BitVec 1) : Statement (.fsgnjn d a b p) := lay0 0x2000ED80 (by decide) d a b p
theorem fsgnjx (d : BitVec 5) (a : BitVec 5) (b : BitVec 5) (p : BitVec 1) : Statement (.fsgnjx d a b p) := lay0 0x4000ED80 (by decide) d a b p
theorem fcvt (d : BitVec 5) (a : BitVec 5) (r : BitVec 3) (s : BitVec 4) (t : BitVec 4) : Statement (.fcvt d a r s t) := lay36 0x0000EE00 (by decide) d a r s t
theorem fmvg (d : BitVec 5) (a : BitVec 5) : Statement (.fmvg d a) := lay37 0x0000EE80 (by decide) d a
theorem fmvf (d : BitVec 5) (a : BitVec 5) : Statement (.fmvf d a) := lay37 0x0000EE81 (by decide) d a
theorem frcpa (d : BitVec 5) (a : BitVec 5) (p : BitVec 1) : Statement (.frcpa d a p) := lay1 0x0000EF00 (by decide) d a p
theorem frsqa (d : BitVec 5) (a : BitVec 5) (p : BitVec 1) : Statement (.frsqa d a p) := lay1 0x2000EF00 (by decide) d a p
theorem frcpr (d : BitVec 5) (a : BitVec 5) (b : BitVec 5) (r : BitVec 3) (p : BitVec 1) : Statement (.frcpr d a b r p) := lay34 0x4000EF00 (by decide) d a b r p
theorem frsqr (d : BitVec 5) (a : BitVec 5) (b : BitVec 5) (r : BitVec 3) (p : BitVec 1) : Statement (.frsqr d a b r p) := lay34 0x6000EF00 (by decide) d a b r p
theorem vadd (d : BitVec 4) (a : BitVec 4) (b : BitVec 4) (c : BitVec 4) (t : BitVec 3) : Statement (.vadd d a b c t) := lay38 0x0000F000 (by decide) d a b c t
theorem vsub (d : BitVec 4) (a : BitVec 4) (b : BitVec 4) (c : BitVec 4) (t : BitVec 3) : Statement (.vsub d a b c t) := lay38 0x1000F000 (by decide) d a b c t
theorem vmul (d : BitVec 4) (a : BitVec 4) (b : BitVec 4) (c : BitVec 4) (t : BitVec 3) : Statement (.vmul d a b c t) := lay38 0x2000F000 (by decide) d a b c t
theorem vfma (d : BitVec 4) (a : BitVec 4) (b : BitVec 4) (c : BitVec 4) (t : BitVec 3) : Statement (.vfma d a b c t) := lay38 0x3000F000 (by decide) d a b c t
theorem vmin (d : BitVec 4) (a : BitVec 4) (b : BitVec 4) (c : BitVec 4) (t : BitVec 3) : Statement (.vmin d a b c t) := lay38 0x4000F000 (by decide) d a b c t
theorem vmax (d : BitVec 4) (a : BitVec 4) (b : BitVec 4) (c : BitVec 4) (t : BitVec 3) : Statement (.vmax d a b c t) := lay38 0x5000F000 (by decide) d a b c t
theorem vabs (d : BitVec 4) (a : BitVec 4) (c : BitVec 4) (t : BitVec 3) : Statement (.vabs d a c t) := lay39 0x6000F000 (by decide) d a c t
theorem vabsd (d : BitVec 4) (a : BitVec 4) (b : BitVec 4) (c : BitVec 4) (t : BitVec 3) : Statement (.vabsd d a b c t) := lay38 0x7000F000 (by decide) d a b c t
theorem vneg (d : BitVec 4) (a : BitVec 4) (c : BitVec 4) (t : BitVec 3) : Statement (.vneg d a c t) := lay39 0x8000F000 (by decide) d a c t
theorem vdot (d : BitVec 4) (a : BitVec 4) (b : BitVec 4) (t : BitVec 3) : Statement (.vdot d a b t) := lay40 0x9000F000 (by decide) d a b t
theorem vand (d : BitVec 4) (a : BitVec 4) (b : BitVec 4) : Statement (.vand d a b) := lay41 0x0000F080 (by decide) d a b
theorem vor (d : BitVec 4) (a : BitVec 4) (b : BitVec 4) : Statement (.vor d a b) := lay41 0x1000F080 (by decide) d a b
theorem vxor (d : BitVec 4) (a : BitVec 4) (b : BitVec 4) : Statement (.vxor d a b) := lay41 0x2000F080 (by decide) d a b
theorem vnot (d : BitVec 4) (a : BitVec 4) : Statement (.vnot d a) := lay42 0x3000F080 (by decide) d a
theorem vshl (d : BitVec 4) (a : BitVec 4) (b : BitVec 4) (t : BitVec 3) : Statement (.vshl d a b t) := lay40 0x4000F080 (by decide) d a b t
theorem vshr (d : BitVec 4) (a : BitVec 4) (b : BitVec 4) (t : BitVec 3) : Statement (.vshr d a b t) := lay40 0x5000F080 (by decide) d a b t
theorem vsra (d : BitVec 4) (a : BitVec 4) (b : BitVec 4) (t : BitVec 3) : Statement (.vsra d a b t) := lay40 0x6000F080 (by decide) d a b t
theorem vcmpeq (d : BitVec 4) (a : BitVec 4) (b : BitVec 4) (t : BitVec 3) : Statement (.vcmpeq d a b t) := lay40 0x0000F100 (by decide) d a b t
theorem vcmplt (d : BitVec 4) (a : BitVec 4) (b : BitVec 4) (c : BitVec 4) (t : BitVec 3) : Statement (.vcmplt d a b c t) := lay38 0x1000F100 (by decide) d a b c t
theorem vcmple (d : BitVec 4) (a : BitVec 4) (b : BitVec 4) (c : BitVec 4) (t : BitVec 3) : Statement (.vcmple d a b c t) := lay38 0x2000F100 (by decide) d a b c t
theorem vsel (d : BitVec 4) (a : BitVec 4) (b : BitVec 4) (c : BitVec 4) (t : BitVec 3) : Statement (.vsel d a b c t) := lay38 0x3000F100 (by decide) d a b c t
theorem vperm (d : BitVec 4) (a : BitVec 4) (b : BitVec 4) (c : BitVec 4) : Statement (.vperm d a b c) := lay43 0x0000F180 (by decide) d a b c
theorem vbcast (d : BitVec 4) (b : BitVec 4) (t : BitVec 3) : Statement (.vbcast d b t) := lay44 0x1000F180 (by decide) d b t
theorem vins (d : BitVec 4) (b : BitVec 4) (c : BitVec 4) (t : BitVec 3) : Statement (.vins d b c t) := lay45 0x2000F180 (by decide) d b c t
theorem vext (d : BitVec 4) (a : BitVec 4) (c : BitVec 4) (t : BitVec 3) : Statement (.vext d a c t) := lay39 0x3000F180 (by decide) d a c t
theorem vredadd (d : BitVec 4) (a : BitVec 4) (t : BitVec 3) : Statement (.vredadd d a t) := lay46 0x0000F200 (by decide) d a t
theorem vredmin (d : BitVec 4) (a : BitVec 4) (c : BitVec 4) (t : BitVec 3) : Statement (.vredmin d a c t) := lay39 0x1000F200 (by decide) d a c t
theorem vredmax (d : BitVec 4) (a : BitVec 4) (c : BitVec 4) (t : BitVec 3) : Statement (.vredmax d a c t) := lay39 0x2000F200 (by decide) d a c t
theorem vcvt (d : BitVec 4) (a : BitVec 4) (b : BitVec 4) (c : BitVec 4) (r : BitVec 3) : Statement (.vcvt d a b c r) := lay38 0x3000F200 (by decide) d a b c r
theorem vpack (d : BitVec 4) (a : BitVec 4) (b : BitVec 4) (c : BitVec 4) (t : BitVec 3) : Statement (.vpack d a b c t) := lay38 0x4000F200 (by decide) d a b c t
theorem vunpk (d : BitVec 4) (a : BitVec 4) (c : BitVec 4) (t : BitVec 3) : Statement (.vunpk d a c t) := lay39 0x5000F200 (by decide) d a c t
theorem vthr (d : BitVec 4) (a : BitVec 4) (t : BitVec 3) : Statement (.vthr d a t) := lay46 0x6000F200 (by decide) d a t
theorem vrcpa (d : BitVec 4) (a : BitVec 4) (t : BitVec 3) : Statement (.vrcpa d a t) := lay46 0x7000F200 (by decide) d a t
theorem vrsqa (d : BitVec 4) (a : BitVec 4) (t : BitVec 3) : Statement (.vrsqa d a t) := lay46 0x8000F200 (by decide) d a t
theorem send (d : BitVec 5) (a : BitVec 5) (b : BitVec 5) : Statement (.send d a b) := lay47 0x0000F400 (by decide) d a b
theorem sendr (d : BitVec 5) (a : BitVec 5) : Statement (.sendr d a) := lay37 0x0400F400 (by decide) d a
theorem fork (a : BitVec 5) (b : BitVec 5) : Statement (.fork a b) := lay30 0x0800F400 (by decide) a b
theorem done (a : BitVec 5) : Statement (.done a) := lay48 0x0C00F400 (by decide) a
theorem clsbind (d : BitVec 5) (a : BitVec 5) (b : BitVec 5) : Statement (.clsbind d a b) := lay47 0x1000F400 (by decide) d a b
theorem nsend (a : BitVec 5) (m : BitVec 2) : Statement (.nsend a m) := lay49 0x0000F480 (by decide) a m
theorem winset (a : BitVec 5) : Statement (.winset a) := lay48 0x0400F480 (by decide) a
theorem qcfg (a : BitVec 5) : Statement (.qcfg a) := lay48 0x0800F480 (by decide) a
theorem strm (d : BitVec 5) (a : BitVec 5) (b : BitVec 5) (k : BitVec 1) : Statement (.strm d a b k) := lay0 0x0000F500 (by decide) d a b k
theorem strmoff (d : BitVec 5) (k : BitVec 1) : Statement (.strmoff d k) := lay50 0x0400F500 (by decide) d k
theorem repb (d : BitVec 5) (a : BitVec 5) (b : BitVec 5) : Statement (.repb d a b) := lay47 0x0800F500 (by decide) d a b
theorem repe : Statement (.repe) := by
  show encode .repe < _ ∧ field (encode .repe) 13 3 = 7
  decide
theorem repgo (a : BitVec 5) : Statement (.repgo a) := lay48 0x1000F500 (by decide) a
theorem tmld (d : BitVec 5) (a : BitVec 5) (i : BitVec 11) : Statement (.tmld d a i) := lay3 0x0000F580 (by decide) d a i
theorem mmaE4m3E4m3 (a : BitVec 4) (b : BitVec 4) (fF : BitVec 5) (g : BitVec 1) (t : BitVec 1) : Statement (.mmaE4m3E4m3 a b fF g t) := lay51 0x0000F600 (by decide) a b fF g t
theorem mmaE4m3E5m2 (a : BitVec 4) (b : BitVec 4) (fF : BitVec 5) (g : BitVec 1) (t : BitVec 1) : Statement (.mmaE4m3E5m2 a b fF g t) := lay51 0x2000F600 (by decide) a b fF g t
theorem mmaE5m2E4m3 (a : BitVec 4) (b : BitVec 4) (fF : BitVec 5) (g : BitVec 1) (t : BitVec 1) : Statement (.mmaE5m2E4m3 a b fF g t) := lay51 0x4000F600 (by decide) a b fF g t
theorem mmaE5m2E5m2 (a : BitVec 4) (b : BitVec 4) (fF : BitVec 5) (g : BitVec 1) (t : BitVec 1) : Statement (.mmaE5m2E5m2 a b fF g t) := lay51 0x6000F600 (by decide) a b fF g t
theorem mmaE2m1E2m1 (a : BitVec 4) (b : BitVec 4) (fF : BitVec 5) (g : BitVec 1) (t : BitVec 1) : Statement (.mmaE2m1E2m1 a b fF g t) := lay51 0x8000F600 (by decide) a b fF g t
theorem mmaE2m1E4m3 (a : BitVec 4) (b : BitVec 4) (fF : BitVec 5) (g : BitVec 1) (t : BitVec 1) : Statement (.mmaE2m1E4m3 a b fF g t) := lay51 0xA000F600 (by decide) a b fF g t
theorem mmaEc8Ec8 (a : BitVec 4) (b : BitVec 4) (fF : BitVec 5) (g : BitVec 1) (t : BitVec 1) : Statement (.mmaEc8Ec8 a b fF g t) := lay51 0xC000F600 (by decide) a b fF g t
theorem mmaEc8E4m3 (a : BitVec 4) (b : BitVec 4) (fF : BitVec 5) (g : BitVec 1) (t : BitVec 1) : Statement (.mmaEc8E4m3 a b fF g t) := lay51 0xE000F600 (by decide) a b fF g t
theorem mmaBf16Bf16 (a : BitVec 4) (b : BitVec 4) (t : BitVec 1) : Statement (.mmaBf16Bf16 a b t) := lay52 0x0000F680 (by decide) a b t
theorem mmaF16F16 (a : BitVec 4) (b : BitVec 4) (t : BitVec 1) : Statement (.mmaF16F16 a b t) := lay52 0x2000F680 (by decide) a b t
theorem mmaS8S8 (a : BitVec 4) (b : BitVec 4) (t : BitVec 1) : Statement (.mmaS8S8 a b t) := lay52 0x4000F680 (by decide) a b t
theorem mmaS4S8 (a : BitVec 4) (b : BitVec 4) (t : BitVec 1) : Statement (.mmaS4S8 a b t) := lay52 0x6000F680 (by decide) a b t
theorem mmaBf16S4 (a : BitVec 4) (b : BitVec 4) (t : BitVec 1) : Statement (.mmaBf16S4 a b t) := lay52 0x8000F680 (by decide) a b t
theorem mmapE4m3 (a : BitVec 4) (b : BitVec 4) (fF : BitVec 5) (t : BitVec 1) : Statement (.mmapE4m3 a b fF t) := lay53 0xA000F680 (by decide) a b fF t
theorem mmapBf16 (a : BitVec 4) (b : BitVec 4) (t : BitVec 1) : Statement (.mmapBf16 a b t) := lay52 0xC000F680 (by decide) a b t
theorem distL1Bf16 (a : BitVec 4) (b : BitVec 4) (t : BitVec 1) : Statement (.distL1Bf16 a b t) := lay52 0x0000F700 (by decide) a b t
theorem distL1E4m3 (a : BitVec 4) (b : BitVec 4) (t : BitVec 1) : Statement (.distL1E4m3 a b t) := lay52 0x2000F700 (by decide) a b t
theorem distL1S8 (a : BitVec 4) (b : BitVec 4) (t : BitVec 1) : Statement (.distL1S8 a b t) := lay52 0x4000F700 (by decide) a b t
theorem distL2Bf16 (a : BitVec 4) (b : BitVec 4) (t : BitVec 1) : Statement (.distL2Bf16 a b t) := lay52 0x6000F700 (by decide) a b t
theorem distL2E4m3 (a : BitVec 4) (b : BitVec 4) (t : BitVec 1) : Statement (.distL2E4m3 a b t) := lay52 0x8000F700 (by decide) a b t
theorem distL2S8 (a : BitVec 4) (b : BitVec 4) (t : BitVec 1) : Statement (.distL2S8 a b t) := lay52 0xA000F700 (by decide) a b t
theorem adrain (h : BitVec 1) (k : BitVec 3) (n : BitVec 1) (t : BitVec 1) : Statement (.adrain h k n t) := lay54 0x0000F780 (by decide) h k n t
theorem cupd (d : BitVec 5) (a : BitVec 4) (y : BitVec 2) (t : BitVec 1) : Statement (.cupd d a y t) := lay55 0x2000F780 (by decide) d a y t
theorem async (d : BitVec 5) (l : BitVec 1) (t : BitVec 1) : Statement (.async d l t) := lay56 0x4000F780 (by decide) d l t
theorem ringcfgSet (d : BitVec 5) (r : BitVec 3) : Statement (.ringcfgSet d r) := lay57 0x6000F780 (by decide) d r
theorem ringcfgPush (d : BitVec 5) (r : BitVec 3) : Statement (.ringcfgPush d r) := lay57 0x6100F780 (by decide) d r
theorem ringcfgReset (r : BitVec 3) : Statement (.ringcfgReset r) := lay58 0x6200F780 (by decide) r
theorem ringcfgQuery (d : BitVec 5) (r : BitVec 3) : Statement (.ringcfgQuery d r) := lay57 0x6300F780 (by decide) d r
theorem accz (t : BitVec 1) : Statement (.accz t) := lay59 0x0000F800 (by decide) t
theorem accrd (d : BitVec 5) (t : BitVec 1) : Statement (.accrd d t) := lay50 0x2000F800 (by decide) d t
theorem accwr (d : BitVec 5) (t : BitVec 1) : Statement (.accwr d t) := lay50 0x4000F800 (by decide) d t
theorem accsc (fF : BitVec 5) (s : BitVec 1) (t : BitVec 1) : Statement (.accsc fF s t) := lay60 0x6000F800 (by decide) fF s t
theorem cpy (d : BitVec 5) (a : BitVec 5) (b : BitVec 5) : Statement (.cpy d a b) := lay47 0x0000FA00 (by decide) d a b
theorem cpykv (d : BitVec 5) (a : BitVec 5) (b : BitVec 5) : Statement (.cpykv d a b) := lay47 0x0400FA00 (by decide) d a b
theorem kvapp (d : BitVec 5) (a : BitVec 5) (b : BitVec 5) : Statement (.kvapp d a b) := lay47 0x0800FA00 (by decide) d a b
theorem get (d : BitVec 5) (a : BitVec 5) (b : BitVec 5) : Statement (.get d a b) := lay47 0x0C00FA00 (by decide) d a b
theorem put (d : BitVec 5) (a : BitVec 5) (b : BitVec 5) : Statement (.put d a b) := lay47 0x1000FA00 (by decide) d a b
theorem halo (d : BitVec 5) (a : BitVec 5) (b : BitVec 5) : Statement (.halo d a b) := lay47 0x1400FA00 (by decide) d a b
theorem cpycan (d : BitVec 5) (a : BitVec 5) : Statement (.cpycan d a) := lay37 0x1800FA00 (by decide) d a
theorem flushr (d : BitVec 5) (a : BitVec 5) (b : BitVec 5) : Statement (.flushr d a b) := lay47 0x1C00FA00 (by decide) d a b
theorem invr (d : BitVec 5) (a : BitVec 5) (b : BitVec 5) : Statement (.invr d a b) := lay47 0x2000FA00 (by decide) d a b
theorem waygive (d : BitVec 5) (a : BitVec 5) : Statement (.waygive d a) := lay37 0x0000FC00 (by decide) d a
theorem waytake (d : BitVec 5) : Statement (.waytake d) := lay61 0x0400FC00 (by decide) d
theorem rowop (d : BitVec 5) (a : BitVec 5) : Statement (.rowop d a) := lay37 0x0800FC00 (by decide) d a
theorem bsopAdd (a : BitVec 5) (b : BitVec 5) (n : BitVec 5) (s : BitVec 1) : Statement (.bsopAdd a b n s) := lay62 0x0000FC80 (by decide) a b n s
theorem bsopSub (a : BitVec 5) (b : BitVec 5) (n : BitVec 5) (s : BitVec 1) : Statement (.bsopSub a b n s) := lay62 0x0400FC80 (by decide) a b n s
theorem bsopAnd (a : BitVec 5) (b : BitVec 5) (n : BitVec 5) : Statement (.bsopAnd a b n) := lay32 0x0800FC80 (by decide) a b n
theorem bsopOr (a : BitVec 5) (b : BitVec 5) (n : BitVec 5) : Statement (.bsopOr a b n) := lay32 0x0C00FC80 (by decide) a b n
theorem bsopXor (a : BitVec 5) (b : BitVec 5) (n : BitVec 5) : Statement (.bsopXor a b n) := lay32 0x1000FC80 (by decide) a b n
theorem bsopNot (a : BitVec 5) (b : BitVec 5) (n : BitVec 5) : Statement (.bsopNot a b n) := lay32 0x1400FC80 (by decide) a b n
theorem bsopCmpeq (a : BitVec 5) (b : BitVec 5) (n : BitVec 5) (s : BitVec 1) : Statement (.bsopCmpeq a b n s) := lay62 0x1800FC80 (by decide) a b n s
theorem bsopCmplt (a : BitVec 5) (b : BitVec 5) (n : BitVec 5) (s : BitVec 1) : Statement (.bsopCmplt a b n s) := lay62 0x1C00FC80 (by decide) a b n s
theorem bsopCmple (a : BitVec 5) (b : BitVec 5) (n : BitVec 5) (s : BitVec 1) : Statement (.bsopCmple a b n s) := lay62 0x2000FC80 (by decide) a b n s
theorem bsopSel (a : BitVec 5) (b : BitVec 5) (n : BitVec 5) (s : BitVec 1) : Statement (.bsopSel a b n s) := lay62 0x2400FC80 (by decide) a b n s
theorem bsopShr (a : BitVec 5) (b : BitVec 5) (n : BitVec 5) (s : BitVec 1) : Statement (.bsopShr a b n s) := lay62 0x2800FC80 (by decide) a b n s
theorem bsopPopc (a : BitVec 5) (b : BitVec 5) (n : BitVec 5) (s : BitVec 1) : Statement (.bsopPopc a b n s) := lay62 0x2C00FC80 (by decide) a b n s
theorem bsopMin (a : BitVec 5) (b : BitVec 5) (n : BitVec 5) (s : BitVec 1) : Statement (.bsopMin a b n s) := lay62 0x3000FC80 (by decide) a b n s
theorem bsopMax (a : BitVec 5) (b : BitVec 5) (n : BitVec 5) (s : BitVec 1) : Statement (.bsopMax a b n s) := lay62 0x3400FC80 (by decide) a b n s
theorem bsopMul (a : BitVec 5) (b : BitVec 5) (n : BitVec 5) (s : BitVec 1) : Statement (.bsopMul a b n s) := lay62 0x3800FC80 (by decide) a b n s
theorem egcfg (d : BitVec 5) (a : BitVec 5) (h : BitVec 2) : Statement (.egcfg d a h) := lay63 0x0000FE00 (by decide) d a h
theorem egins (d : BitVec 5) (a : BitVec 5) (b : BitVec 5) (h : BitVec 2) : Statement (.egins d a b h) := lay64 0x0400FE00 (by decide) d a b h
theorem egfind (d : BitVec 5) (a : BitVec 5) (h : BitVec 2) : Statement (.egfind d a h) := lay63 0x0800FE00 (by decide) d a h
theorem egmrg (d : BitVec 5) (a : BitVec 5) (b : BitVec 5) (h : BitVec 2) : Statement (.egmrg d a b h) := lay64 0x0C00FE00 (by decide) d a b h
theorem egmatch (d : BitVec 5) (a : BitVec 5) (b : BitVec 5) (h : BitVec 2) : Statement (.egmatch d a b h) := lay64 0x1000FE00 (by decide) d a b h
theorem egnode (d : BitVec 5) (a : BitVec 5) (h : BitVec 2) : Statement (.egnode d a h) := lay63 0x1400FE00 (by decide) d a h
theorem egenum (d : BitVec 5) (a : BitVec 5) (b : BitVec 5) (h : BitVec 2) : Statement (.egenum d a b h) := lay64 0x1800FE00 (by decide) d a b h
theorem egrank (d : BitVec 5) (a : BitVec 5) (h : BitVec 2) : Statement (.egrank d a h) := lay63 0x1C00FE00 (by decide) d a h
theorem egstat (d : BitVec 5) (a : BitVec 5) (h : BitVec 2) : Statement (.egstat d a h) := lay63 0x2000FE00 (by decide) d a h
theorem csrrd (d : BitVec 5) (c : BitVec 11) : Statement (.csrrd d c) := lay65 0x0000FF00 (by decide) d c
theorem csrwr (d : BitVec 5) (a : BitVec 5) (c : BitVec 11) : Statement (.csrwr d a c) := lay3 0x0000FF01 (by decide) d a c
theorem csrset (d : BitVec 5) (a : BitVec 5) (c : BitVec 11) : Statement (.csrset d a c) := lay3 0x0000FF02 (by decide) d a c
theorem csrclr (d : BitVec 5) (a : BitVec 5) (c : BitVec 11) : Statement (.csrclr d a c) := lay3 0x0000FF03 (by decide) d a c
theorem eret : Statement (.eret) := by
  show encode .eret < _ ∧ field (encode .eret) 13 3 = 7
  decide
theorem tlbsd (d : BitVec 5) (a : BitVec 5) : Statement (.tlbsd d a) := lay37 0xFC20FF00 (by decide) d a
theorem tlbinv (a : BitVec 5) : Statement (.tlbinv a) := lay48 0xFC40FF00 (by decide) a
theorem suprd (d : BitVec 5) (a : BitVec 5) : Statement (.suprd d a) := lay37 0xFC60FF00 (by decide) d a
theorem partset (d : BitVec 5) (a : BitVec 5) : Statement (.partset d a) := lay37 0xFC80FF00 (by decide) d a
theorem storePerform (core : CoreId) (ctx : CtxId) (k : Nat) : Statement (.storePerform core ctx k) := rfl
theorem nmPerform (core : CoreId) (ctx : CtxId) (k : Nat) (hot : Bool) : Statement (.nmPerform core ctx k hot) := rfl
theorem bankEngineAck (k : Nat) : Statement (.bankEngineAck k) := rfl
theorem lineMigrate (line : Nat) (target : BitVec 7) : Statement (.lineMigrate line target) := rfl
theorem memoryRequestPerform (k : Nat) : Statement (.memoryRequestPerform k) := rfl
theorem remoteWriteAck (line : Nat) : Statement (.remoteWriteAck line) := rfl
theorem messageArrival (k : Nat) : Statement (.messageArrival k) := rfl
theorem heldContextRetry (core : CoreId) : Statement (.heldContextRetry core) := rfl
theorem heldContextEnter (core : CoreId) : Statement (.heldContextEnter core) := rfl
theorem heldContextTerminate (core : CoreId) : Statement (.heldContextTerminate core) := rfl
theorem sendqTransmit (core : CoreId) (ctx : CtxId) (vnet : BitVec 2) : Statement (.sendqTransmit core ctx vnet) := rfl
theorem postedWriteRefused (core : CoreId) (ctx : CtxId) (k : Nat) : Statement (.postedWriteRefused core ctx k) := rfl
theorem nsendArrival (k : Nat) : Statement (.nsendArrival k) := rfl
theorem nsendCreditReturn (k : Nat) : Statement (.nsendCreditReturn k) := rfl
theorem streamFill (core : CoreId) (ctx : CtxId) (q : BitVec 2) : Statement (.streamFill core ctx q) := rfl
theorem contextSelect (core : CoreId) : Statement (.contextSelect core) := rfl
theorem parkTimeout (core : CoreId) (ctx : CtxId) : Statement (.parkTimeout core ctx) := rfl
theorem parkedWake (core : CoreId) (ctx : CtxId) : Statement (.parkedWake core ctx) := rfl
theorem runQueueAging (core : CoreId) (k : Nat) : Statement (.runQueueAging core k) := rfl
theorem stealAttempt (core : CoreId) : Statement (.stealAttempt core) := rfl
theorem stealRequest (k : Nat) : Statement (.stealRequest k) := rfl
theorem doneWaveReport (core : CoreId) : Statement (.doneWaveReport core) := rfl
theorem anvilCmdStart (forge : ForgeId) : Statement (.anvilCmdStart forge) := rfl
theorem anvilCmdRetire (core : CoreId) : Statement (.anvilCmdRetire core) := rfl
theorem transferStart (k : Nat) : Statement (.transferStart k) := rfl
theorem cpykvTileFill (k : Nat) : Statement (.cpykvTileFill k) := rfl
theorem transferComplete (k : Nat) : Statement (.transferComplete k) := rfl
theorem fixbellRing (die : BitVec 2) : Statement (.fixbellRing die) := rfl
theorem bsopPerform (core : CoreId) (ctx : CtxId) : Statement (.bsopPerform core ctx) := rfl
theorem waygiveConversionComplete (core : CoreId) (ctx : CtxId) : Statement (.waygiveConversionComplete core ctx) := rfl
theorem waytakeComplete (core : CoreId) (ctx : CtxId) : Statement (.waytakeComplete core ctx) := rfl
theorem rangeMaintenanceComplete (k : Nat) : Statement (.rangeMaintenanceComplete k) := rfl
theorem shootdownComplete (k : Nat) : Statement (.shootdownComplete k) := rfl
theorem partsetComplete (k : Nat) : Statement (.partsetComplete k) := rfl
theorem unionStep (heap : Nat) (k : Nat) : Statement (.unionStep heap k) := rfl
theorem resign (heap : Nat) (k : Nat) : Statement (.resign heap k) := rfl
theorem mergeComplete (heap : Nat) (k : Nat) : Statement (.mergeComplete heap k) := rfl
theorem bindingSend (heap : Nat) : Statement (.bindingSend heap) := rfl
theorem heapOpComplete (heap : Nat) (k : Nat) : Statement (.heapOpComplete heap k) := rfl
theorem lqtailDoorbell (q : BitVec 10) (v : Word) : Statement (.lqtailDoorbell q v) := rfl
theorem launchCopy (q : BitVec 10) : Statement (.launchCopy q) := rfl
theorem launchStart (part : BitVec 6) : Statement (.launchStart part) := rfl
theorem launchCompletionPost (k : Nat) : Statement (.launchCompletionPost k) := rfl
theorem cqheadWrite (q : BitVec 10) (v : Word) : Statement (.cqheadWrite q v) := rfl
theorem preemptHalt (part : BitVec 6) : Statement (.preemptHalt part) := rfl
theorem preemptSave (part : BitVec 6) : Statement (.preemptSave part) := rfl
theorem launchResume (part : BitVec 6) : Statement (.launchResume part) := rfl
theorem frgroleWrite (forge : ForgeId) (v : Word) (by_ : Writer) : Statement (.frgroleWrite forge v by_) := rfl
theorem fzreqWrite (die : BitVec 2) (v : Word) (by_ : Writer) : Statement (.fzreqWrite die v by_) := rfl
theorem frameZeroingComplete (die : BitVec 2) : Statement (.frameZeroingComplete die) := rfl
theorem diectlFence (die : BitVec 2) : Statement (.diectlFence die) := rfl
theorem diectlWarmReset (die : BitVec 2) : Statement (.diectlWarmReset die) := rfl
theorem diectlColdReset (die : BitVec 2) : Statement (.diectlColdReset die) := rfl
theorem diectlRejoin (die : BitVec 2) : Statement (.diectlRejoin die) := rfl
theorem bbctlTrigset (v : Word) : Statement (.bbctlTrigset v) := rfl
theorem bbctlFrozenClear (v : Word) : Statement (.bbctlFrozenClear v) := rfl
theorem attestRequest (v : Word) : Statement (.attestRequest v) := rfl
theorem attestReportReady : Statement (.attestReportReady) := rfl
theorem registerWrite (off : BitVec 48) (v : Word) (by_ : Writer) : Statement (.registerWrite off v by_) := rfl
theorem dieHeartbeat (die : BitVec 2) : Statement (.dieHeartbeat die) := rfl
theorem heartbeatTimeout (die : BitVec 2) : Statement (.heartbeatTimeout die) := rfl
theorem dieStartSteps (die : BitVec 2) (ok : BitVec 12) : Statement (.dieStartSteps die ok) := rfl
theorem islandPowerUp (ok : Bool) (alt : Bool) : Statement (.islandPowerUp ok alt) := rfl
theorem islandPowerOff : Statement (.islandPowerOff) := rfl
theorem islandReset : Statement (.islandReset) := rfl
theorem diePowerEnable (die : BitVec 2) : Statement (.diePowerEnable die) := rfl
theorem diePowerOff (die : BitVec 2) : Statement (.diePowerOff die) := rfl
theorem pwrbrakeAssert : Statement (.pwrbrakeAssert) := rfl
theorem pwrbrakeRelease : Statement (.pwrbrakeRelease) := rfl
theorem powerLimitThrottle (die : BitVec 2) (above : Bool) : Statement (.powerLimitThrottle die above) := rfl
theorem thermalTrip (die : BitVec 2) : Statement (.thermalTrip die) := rfl
theorem thermalRecover (die : BitVec 2) : Statement (.thermalRecover die) := rfl
theorem fabricFlitReceive (link : Link) (flit : BitVec 576) : Statement (.fabricFlitReceive link flit) := rfl
theorem fabricNakReplay (link : Link) (ack : BitVec 12) : Statement (.fabricNakReplay link ack) := rfl
theorem fabricLinkUp (link : Link) (x : BitVec 4) (y : BitVec 4) (z : BitVec 5) : Statement (.fabricLinkUp link x y z) := rfl
theorem fabricLinkDown (link : Link) : Statement (.fabricLinkDown link) := rfl
theorem fabricRequestTimeout (k : Nat) : Statement (.fabricRequestTimeout k) := rfl
theorem endpointAbsentReply (late : Bool) (k : Nat) : Statement (.endpointAbsentReply late k) := rfl
theorem cxlSnpdata (line : Nat) : Statement (.cxlSnpdata line) := rfl
theorem cxlSnpinv (line : Nat) : Statement (.cxlSnpinv line) := rfl
theorem cxlSnpcur (line : Nat) : Statement (.cxlSnpcur line) := rfl
theorem hostMemRead (h : BitVec 48) : Statement (.hostMemRead h) := rfl
theorem hostMemWrite (h : BitVec 48) (size : BitVec 4) (v : Word) : Statement (.hostMemWrite h size v) := rfl
theorem dramScrub (addr : Nat) : Statement (.dramScrub addr) := rfl
theorem softError (where_ : Struck) (correctable : Bool) : Statement (.softError where_ correctable) := rfl
theorem dieLinkFailure (die : BitVec 2) : Statement (.dieLinkFailure die) := rfl
theorem islandResetComplete (ok : Bool) : Statement (.islandResetComplete ok) := rfl
theorem islandFirmwareFault : Statement (.islandFirmwareFault) := rfl
theorem hostLinkTrained : Statement (.hostLinkTrained) := rfl
theorem cxlCacheResponse (k : Nat) : Statement (.cxlCacheResponse k) := rfl
theorem bisnpResponse (line : Nat) (keep : Bool) : Statement (.bisnpResponse line keep) := rfl
theorem aliasfComplete (core : CoreId) (ctx : CtxId) : Statement (.aliasfComplete core ctx) := rfl

end Sys2Proof.Laws.Encoding
end

