-- ==== Sys2Proof/Tests/Slice0.lean ====
section
/-! SUPPORT. Tests: encodings, ill-formed terms, single steps whose results the spec gives, and for each statement states
and operands that meet its hypotheses. -/

namespace Sys2Proof.Tests
open Sys2Proof Sys2Proof.Machine
set_option Elab.async false


/-! ## Ill-formed terms: each check refuses one, and no word decodes to it -/

abbrev Refuses (l : List (Instr × Nat)) : Prop := ∀ p ∈ l, WellFormed p.1 = false ∧ decodeWord p.2 ≠ some p.1
theorem test_refuses_1 : Refuses [
    (.shli 31 15 1 34, 0xc4fe27c), (.shri 6 29 1 47, 0xdfde219), (.srai 3 21 1 39, 0xcf5e20e),
    (.ldhi 14 21481 3, 0x53e9e2bb), (.bfx 9 3 27 45, 0xdda3e3a4), (.bfxn 4 12 27 40, 0xdd0ce391),
    (.bfi 2 14 21 44, 0xad8ee38a), (.jal 0 125559, 0x7a9de703), (.ld 31 11 2 6 15 2, 0xd9ebe87e),
    (.ldIndex 27 16 23 1 7 2, 0x3ef0e86e), (.st 8 1 0 2 4 0, 0x8881e8a0), (.stIndex 18 7 23 0 6 3, 0x1ae7e8cb),
    (.ldv 27 2 0 0 21, 0x82a2e96c), (.ldv 9 31 0 7 31, 0x9fffe924), (.ldvIndex 26 6 13 1 0, 0x21a6e968),
    (.ldvIndex 6 29 25 3 5, 0x773de918), (.ldvRegion 24 8 6 28, 0x7b88e960), (.stv 4 27 3 2 6, 0xe8dbe911),
    (.stv 24 3 2 1 26, 0xc743e961), (.stvIndex 4 12 31 0 1, 0x7ece911), (.stvIndex 17 6 21 2 2, 0x4aa6e945),
    (.stvRegion 29 1 13 21, 0xf6a1e975), (.ldf 29 23 2 1 18, 0xc657e9f4), (.ldfIndex 31 18 11 3 7, 0x7d72e9fc)] := by decide +kernel
theorem test_refuses_2 : Refuses [
    (.stf 30 2 1 0 12, 0xa182e9f9), (.stfIndex 25 17 16 0 1, 0x611e9e5), (.ste 10 9 2 7 3, 0xdc69e9aa),
    (.steIndex 29 22 3 3 3, 0x6c76e9f6), (.aadd 16 16 22 0 4 1, 0x12d0ea41), (.aand 2 9 28 0 6 1, 0x1b89ea0b),
    (.aor 3 18 22 0 2 0, 0x8ad2ea0c), (.axor 4 11 4 0 7 1, 0x9c8bea13), (.amin 28 14 17 3 7 1, 0x7e2eeaf1),
    (.amax 0 27 10 2 7 0, 0x5d5bea82), (.aminn 31 31 28 1 7 0, 0xbf9feafc), (.amaxn 27 7 29 0 6 1, 0x9ba7eaef),
    (.aswp 31 6 25 0 2 1, 0xb26eb7d), (.acas 4 17 25 1 7 1, 0x3f31eb13), (.afadd 28 0 30 0 5 0, 0x97c0eb70),
    (.adf 14 18 1 0 1 0, 0x8432eb3a), (.fence 2 7, 0x5c00eb80), (.fence 0 5, 0x1400eb80), (.pfx 27 27 1 2, 0x37beb9b),
    (.nmadd 0 3 16, 0x8060ebc0), (.nmred 31 7 6 1, 0x80ffebe5), (.fadd 15 17 6 5 0, 0x14d1ec3c),
    (.fsub 24 18 11 6 0, 0x3972ec60), (.fmul 16 21 29 6 1, 0x5bb5ec41)] := by decide +kernel
theorem test_refuses_3 : Refuses [
    (.fdiv 4 9 29 6 1, 0x7ba9ec11), (.fsqrt 4 28 5 1, 0x941cec11), (.ffma 27 23 6 5 0, 0x14d7ecec),
    (.ffms 12 29 30 5 0, 0x37ddecb0), (.ffnma 28 1 14 5 1, 0x55c1ecf1), (.fcvt 2 14 6 14 15, 0xddeeee08),
    (.fcvt 6 2 5 7 7, 0xaee2ee18), (.frcpr 10 8 14 6 1, 0x59c8ef29), (.frsqr 28 4 4 5 0, 0x7484ef70),
    (.vadd 6 13 7 14 1, 0xe7df019), (.vadd 1 9 9 2 6, 0x299f046), (.vsub 2 14 6 3 2, 0x136ef00a),
    (.vsub 5 1 6 2 7, 0x1261f057), (.vmul 11 2 14 11 0, 0x2be2f02c), (.vmin 7 4 15 7 0, 0x47f4f01c),
    (.vmin 2 1 7 1 6, 0x4171f04a), (.vmax 4 11 0 6 4, 0x560bf050), (.vabs 3 4 9 5, 0x6904f04d),
    (.vabsd 15 9 0 7 1, 0x7709f03d), (.vneg 2 2 6 0, 0x8602f008), (.vdot 6 5 7 5, 0x9075f059),
    (.vshl 4 2 3 7, 0x4032f0d3), (.vshr 14 8 4 6, 0x5048f0fa), (.vsra 10 1 0 5, 0x6001f0e9)] := by decide +kernel
theorem test_refuses_4 : Refuses [
    (.vcmplt 2 2 12 6 0, 0x16c2f108), (.vcmplt 11 5 11 1 4, 0x11b5f16c), (.vcmple 7 0 10 2 5, 0x22a0f15d),
    (.vins 5 12 12 3, 0x2cc0f197), (.vext 2 3 11 2, 0x3b03f18a), (.vredmin 7 7 7 7, 0x1707f25f),
    (.vredmax 9 3 11 1, 0x2b03f225), (.vcvt 3 2 8 13 6, 0x3d82f24e), (.vcvt 3 8 10 10 3, 0x3aa8f20f),
    (.vpack 7 13 4 13 2, 0x4d4df21e), (.vpack 12 4 4 1 7, 0x4144f273), (.vunpk 10 5 5 3, 0x5505f22b),
    (.vunpk 7 8 2 4, 0x5208f25c), (.vthr 15 1 2, 0x6001f23e), (.vrcpa 2 14 3, 0x700ef20b),
    (.vrsqa 12 7 1, 0x8007f231), (.send 27 26 31, 0x3faf46c), (.fork 9 28, 0xb89f400), (.nsend 30 1, 0x1ef481),
    (.strm 25 3 25 0, 0x323f564), (.strm 7 19 3 1, 0x73f51d), (.strm 27 5 0 1, 0x5f56d), (.strmoff 28 1, 0x400f571),
    (.repb 14 14 1, 0x82ef538)] := by decide +kernel
theorem test_refuses_5 : Refuses [
    (.repb 1 0 31, 0xbe0f504), (.tmld 30 31 938, 0x755ff5f8), (.mmaE4m3E4m3 11 3 6 0 0, 0x63bf600),
    (.mmaE4m3E4m3 7 9 31 1 1, 0x1f97f605), (.mmaE4m3E5m2 11 11 30 1 1, 0x3ebbf605),
    (.mmaE4m3E5m2 5 14 31 1 0, 0x3fe5f604), (.mmaE5m2E4m3 15 1 31 0 1, 0x5f1ff601),
    (.mmaE5m2E4m3 14 6 30 0 0, 0x5e6ef600), (.mmaE5m2E5m2 13 13 23 0 1, 0x77ddf601),
    (.mmaE5m2E5m2 12 14 31 1 1, 0x7fecf605), (.mmaE2m1E2m1 5 11 31 0 1, 0x9fb5f601),
    (.mmaE2m1E2m1 4 12 0 0 1, 0x80c4f601), (.mmaE2m1E4m3 12 12 19 1 1, 0xb3ccf605),
    (.mmaE2m1E4m3 14 10 31 0 1, 0xbfaef601), (.mmaEc8Ec8 2 2 23 0 1, 0xd722f601), (.mmaEc8Ec8 0 1 31 1 0, 0xdf10f604),
    (.mmaEc8E4m3 8 8 14 1 0, 0xee88f604), (.mmaEc8E4m3 4 9 31 1 1, 0xff94f605), (.mmaBf16Bf16 9 9 0, 0x99f680),
    (.mmaF16F16 8 0 1, 0x2008f681), (.mmaS8S8 8 8 1, 0x4088f681), (.mmaS4S8 14 14 0, 0x60eef680),
    (.mmaBf16S4 6 6 0, 0x8066f680), (.mmapE4m3 5 13 27 1, 0xbbd5f681)] := by decide +kernel
theorem test_refuses_6 : Refuses [
    (.mmapE4m3 3 14 31 0, 0xbfe3f680), (.mmapBf16 3 3 1, 0xc033f681), (.distL1Bf16 12 12 1, 0xccf701),
    (.distL1E4m3 13 5 1, 0x205df701), (.distL1S8 3 3 1, 0x4033f701), (.distL2Bf16 0 8 1, 0x6080f701),
    (.distL2E4m3 4 12 0, 0x80c4f700), (.distL2S8 11 11 1, 0xa0bbf701), (.cupd 14 10 3 0, 0x230af7b8),
    (.async 14 1 1, 0x4100f7b9), (.egins 11 16 31 1, 0x7f0fe2d), (.egnode 31 10 1, 0x140afe7d)] := by decide +kernel
theorem test_refuses_event : WellFormed .pwrbrakeRelease = false ∧ WellFormed (.bankEngineAck 0) = false := by decide
theorem test_refuses_loop_csrrd : Refuses [(.loop 7 0, 0x0007E781), (.csrrd 0 0x7E0, 0xFC00FF00)] := by decide +kernel

/-! ## The spec's own example words (chapters 03 to 10) -/

abbrev Decodes (l : List (Nat × Instr)) : Prop := ∀ p ∈ l, decodeWord p.1 = some p.2
theorem test_spec_words_1 : Decodes [
    (0x00A4_E00C, .add 3 4 5 0), (0xFF62_E09C, .addi 7 2 2043 0), (0xA884_E816, .ld 5 4 1 2 4 2),
    (0x6C24_E81B, .ldRegion 6 4 3 1 3), (0x0149_E48C, .bne 3 9 40), (0xFFC0_E77C, .jal 31 261888),
    (0x0220_FF10, .csrrd 4 17), (0x0498_F601, .mmaE4m3E4m3 8 9 4 0 1), (0x7C41_EC0D, .fdiv 3 1 2 7 1),
    (0x02A6_EE14, .fcvt 5 6 0 1 5), (0x0043_F048, .vadd 2 3 4 0 4), (0x7128_EA1D, .aadd 7 8 9 3 4 1),
    (0x0000_E080, .addi 0 0 0 0), (0x056A_E025, .sub 9 10 11 1), (0xFFE4_E10E, .xori 3 4 2047),
    (0x0869_E222, .srai 8 9 1 3), (0xABCD_E294, .ldhi 5 43981 0), (0x0CA4_E30D, .leaScaled 3 4 5 3),
    (0x3D07_E39A, .bfi 6 7 7 40), (0x1CA4_E18C, .sel 3 4 5 7), (0xFFC6_E516, .blt 5 6 8186), (0x04E2_E700, .j 5000)] := by decide +kernel
theorem test_spec_words_2 : Decodes [
    (0x0104_E7FC, .jalr 31 4 8), (0x0087_E781, .loop 7 4), (0x0000_E782, .endTask), (0x40A0_E782, .trap 5),
    (0x8000_E782, .brk 0), (0x0041_EC0C, .fadd 3 1 2 0 0), (0x00C5_EC90, .ffma 4 5 6 0 0),
    (0xA003_ED15, .fclass 5 3 1), (0x2063_ED89, .fsgnjn 2 3 3 1), (0x0007_EE90, .fmvg 4 7),
    (0x2182_EE10, .fcvt 4 2 1 0 12), (0x0001_EF08, .frcpa 2 1 0), (0x4041_EF08, .frcpr 2 1 2 0 0),
    (0x3302_F192, .vext 4 2 3 2), (0x3126_F255, .vcvt 5 6 2 1 5), (0x6007_F25C, .vthr 7 7 4),
    (0x3432_F044, .vfma 1 2 3 4 4), (0x0132_F005, .vadd 1 2 3 1 1), (0x1032_F160, .vcmplt 8 2 3 0 4),
    (0x00A4_E80C, .ldIndex 3 4 5 0 0 0), (0xD068_E89B, .st 6 8 2 4 3 3), (0x7464_E89E, .stRegion 7 4 5 3 2)] := by decide +kernel
theorem test_spec_words_3 : Decodes [
    (0x8047_E908, .ldv 2 7 0 0 2), (0xAC0A_E9A4, .ldf 9 10 1 3 0), (0x8028_E999, .stf 6 8 0 0 1),
    (0x68C8_EB17, .acas 5 8 6 3 2 1), (0xD128_EB03, .adf 0 8 9 2 4 1), (0x7000_EB80, .fence 3 4),
    (0x0128_EB81, .aliasf 8 9), (0x0000_EB82, .ifence), (0x0048_EB87, .pfx 8 2 0 1), (0x8128_EB88, .nmadd 8 9 2),
    (0x8128_EB9D, .nmred 8 9 1 3), (0x8000_EB82, .nmfence), (0x0027_F400, .send 0 7 1), (0x0408_F400, .sendr 0 8),
    (0x0827_F400, .fork 7 1), (0x0C05_F400, .done 5), (0x10A4_F400, .clsbind 0 4 5), (0x0003_F481, .nsend 3 1),
    (0x0406_F480, .winset 6), (0x0805_F480, .qcfg 5), (0x0022_F519, .strm 6 2 1 1), (0x0400_F519, .strmoff 6 1)] := by decide +kernel
theorem test_spec_words_4 : Decodes [
    (0x0820_F500, .repb 0 0 1), (0x0C00_F500, .repe), (0x1007_F500, .repgo 7), (0x0028_F588, .tmld 2 8 1),
    (0x0080_F050, .vadd 4 0 8 0 4), (0x063A_F604, .mmaE4m3E4m3 10 3 6 1 0), (0x0098_F680, .mmaBf16Bf16 8 9 0),
    (0xA8DC_F681, .mmapE4m3 12 13 8 1), (0x6090_F700, .distL2Bf16 0 9 0), (0x0300_F784, .adrain 0 3 1 0),
    (0x2008_F789, .cupd 2 8 0 1), (0x4000_F794, .async 5 0 0), (0x4100_F794, .async 5 1 0),
    (0x6003_F794, .ringcfgSet 5 3), (0x6103_F798, .ringcfgPush 6 3), (0x0000_F801, .accz 1),
    (0x2000_F814, .accrd 5 0), (0x4000_F819, .accwr 6 1), (0x6300_F801, .accsc 3 0 1), (0x6300_F805, .accsc 3 1 1),
    (0x00E8_FA24, .cpy 9 8 7), (0x04E8_FA24, .cpykv 9 8 7)] := by decide +kernel
theorem test_spec_words_5 : Decodes [
    (0x08E8_FA24, .kvapp 9 8 7), (0x0CE8_FA24, .get 9 8 7), (0x10E8_FA24, .put 9 8 7), (0x14E8_FA24, .halo 9 8 7),
    (0x1809_FA10, .cpycan 4 9), (0x1D28_FA18, .flushr 6 8 9), (0x2128_FA18, .invr 6 8 9), (0x0005_FC18, .waygive 6 5),
    (0x0400_FC18, .waytake 6), (0x0808_FC24, .rowop 9 8), (0x10A4_FCFC, .bsopXor 4 5 31),
    (0x2CA4_FCFC, .bsopPopc 4 5 31 0), (0x1CA4_FC9D, .bsopCmplt 4 5 7 1), (0x0008_FE19, .egcfg 6 8 1),
    (0x04C4_FE24, .egins 9 4 6 0), (0x0809_FE28, .egfind 10 9 0), (0x0C41_FE18, .egmrg 6 1 2 0),
    (0x1128_FE18, .egmatch 6 8 9 0), (0x1409_FE30, .egnode 12 9 0), (0x1909_FE2C, .egenum 11 9 8 0),
    (0x1C08_FE18, .egrank 6 8 0), (0x2004_FE14, .egstat 5 4 0)] := by decide +kernel
theorem test_spec_words_6 : Decodes [
    (0x0000_FF10, .csrrd 4 0), (0x0245_FF01, .csrwr 0 5 18), (0x0206_FF03, .csrclr 0 6 16), (0xFC00_FF00, .eret),
    (0xFC28_FF18, .tlbsd 6 8), (0xFC48_FF00, .tlbinv 8), (0xFC68_FF14, .suprd 5 8), (0xFC88_FF18, .partset 6 8)] := by decide +kernel
theorem test_decodes_short_1 : [
    ((0b00000010_1101_1111 : Nat), (.addCr 13 15 : Instr)),
    ((0b00000001_1101_1101 : Nat), (.moveCr 13 13 : Instr)),
    ((0b00000011_0011_1011 : Nat), (.subCr 3 11 : Instr)),
    ((0b00000100_0011_1001 : Nat), (.andCr 3 9 : Instr)),
    ((0b00000101_1110_1111 : Nat), (.orCr 14 15 : Instr)),
    ((0b00000110_1100_0100 : Nat), (.xorCr 12 4 : Instr)),
    ((0b00000111_1001_1100 : Nat), (.shlCr 9 12 : Instr)),
    ((0b00001000_0011_1110 : Nat), (.shrCr 3 14 : Instr)),
    ((0b00001001_1000_0111 : Nat), (.sraCr 8 7 : Instr)),
    ((0b00001010_0110_0011 : Nat), (.mulCr 6 3 : Instr)),
    ((0b000010110000_1000 : Nat), (.jalrLinkCr 8 : Instr)),
    ((0b000011000000_0100 : Nat), (.jalrNolinkCr 4 : Instr)),
    ((0b001000_0010_100111 : Nat), (.addiCi 2 39 : Instr)),
    ((0b001001_1001_110011 : Nat), (.addiZeroCi 9 51 : Instr)),
    ((0b001010_1010_000110 : Nat), (.shliCi 10 6 : Instr)),
    ((0b001011_0010_111010 : Nat), (.shriCi 2 58 : Instr)),
    ((0b001100_1101_100010 : Nat), (.sraiCi 13 34 : Instr)),
    ((0b001101_1000_011100 : Nat), (.andiCi 8 28 : Instr)),
    ((0b0100_1111_0010_1010 : Nat), (.ldDCm 15 2 10 : Instr)),
    ((0b0101_0101_1101_0001 : Nat), (.stDCm 5 13 1 : Instr)),
    ((0b01100_0100_0100101 : Nat), (.beqCb 4 37 : Instr)),
    ((0b01101_0110_1000000 : Nat), (.bneCb 6 64 : Instr)),
    ((0b01110_1100_1101110 : Nat), (.bltCb 12 110 : Instr)),
    ((0b01111_0101_1011010 : Nat), (.bgeCb 5 90 : Instr))].all (fun p => decodeWord p.1 == some p.2) = true := by decide +kernel

theorem test_decodes_short_2 : [
    ((0b100_0110111111011 : Nat), (.jCj 3579 : Instr)),
    ((0b1010000000000000 : Nat), (.endCt : Instr)),
    ((0b10100001_1011_0000 : Nat), (.doneCt 11 : Instr)),
    ((0b10100010_1001_1001 : Nat), (.sendC 9 9 : Instr)),
    ((0b11000000_1011_0100 : Nat), (.vorCv 11 4 : Instr)),
    ((0b11000001_1110_1010 : Nat), (.vaddS32Cv 14 10 : Instr)),
    ((0b11000010_0111_1011 : Nat), (.vsubS32Cv 7 11 : Instr)),
    ((0b11000011_1010_1111 : Nat), (.vaddF32Cv 10 15 : Instr)),
    ((0b11000100_0110_0100 : Nat), (.vsubF32Cv 6 4 : Instr)),
    ((0b11000101_0100_0100 : Nat), (.vmulF32Cv 4 4 : Instr)),
    ((0b11000110_0101_0111 : Nat), (.vmaxF32Cv 5 7 : Instr)),
    ((0b11000111_1101_1100 : Nat), (.vminF32Cv 13 12 : Instr)),
    ((0b11001000_0111_1101 : Nat), (.vandCv 7 13 : Instr)),
    ((0b11001001_0100_0110 : Nat), (.vxorCv 4 6 : Instr)),
    ((0b11001010_1011_1001 : Nat), (.vnotCv 11 9 : Instr))].all (fun p => decodeWord p.1 == some p.2) = true := by decide +kernel

theorem test_decodes_integer_1 : [
    ((0b000000_11100_11101_111000000_10010_0_0 : Nat), (.add 18 29 28 0 : Instr)),
    ((0b000001_00100_10100_111000000_10001_0_1 : Nat), (.sub 17 20 4 1 : Instr)),
    ((0b000010_00010_11101_111000000_00011_0_1 : Nat), (.mul 3 29 2 1 : Instr)),
    ((0b000011_00010_11011_111000000_01010_0_0 : Nat), (.mulh 10 27 2 0 : Instr)),
    ((0b000100_01111_11001_111000000_01000_0_0 : Nat), (.mulhn 8 25 15 0 : Instr)),
    ((0b000101_01111_00001_111000000_10101_0_1 : Nat), (.div 21 1 15 1 : Instr)),
    ((0b000110_01011_00101_111000000_10010_0_0 : Nat), (.divn 18 5 11 0 : Instr)),
    ((0b000111_00100_11001_111000000_00001_0_1 : Nat), (.rem 1 25 4 1 : Instr)),
    ((0b001000_00111_10110_111000000_11111_0_0 : Nat), (.remn 31 22 7 0 : Instr)),
    ((0b001001_00111_00011_111000000_10111_0_1 : Nat), (.and 23 3 7 1 : Instr)),
    ((0b001010_11110_11111_111000000_01010_0_0 : Nat), (.or 10 31 30 0 : Instr)),
    ((0b001011_10000_00010_111000000_10111_0_0 : Nat), (.xor 23 2 16 0 : Instr)),
    ((0b001100_01000_00111_111000000_00111_0_1 : Nat), (.andn 7 7 8 1 : Instr)),
    ((0b001101_11100_00111_111000000_00100_0_1 : Nat), (.shl 4 7 28 1 : Instr)),
    ((0b001110_00110_01101_111000000_00001_0_0 : Nat), (.shr 1 13 6 0 : Instr)),
    ((0b001111_01011_00001_111000000_01101_0_1 : Nat), (.sra 13 1 11 1 : Instr)),
    ((0b010000_00001_10011_111000000_00011_0_1 : Nat), (.rol 3 19 1 1 : Instr)),
    ((0b010001_10011_10011_111000000_01111_0_0 : Nat), (.ror 15 19 19 0 : Instr)),
    ((0b010010_01111_01010_111000000_01011_0_0 : Nat), (.min 11 10 15 0 : Instr)),
    ((0b010011_01101_01100_111000000_10101_0_1 : Nat), (.max 21 12 13 1 : Instr)),
    ((0b010100_11111_00100_111000000_01110_0_1 : Nat), (.minn 14 4 31 1 : Instr)),
    ((0b010101_11111_01110_111000000_10111_0_1 : Nat), (.maxn 23 14 31 1 : Instr)),
    ((0b010110_10000_00011_111000000_11110_0_0 : Nat), (.slt 30 3 16 0 : Instr)),
    ((0b010111_01110_00001_111000000_11110_0_1 : Nat), (.sltn 30 1 14 1 : Instr))].all (fun p => decodeWord p.1 == some p.2) = true := by decide +kernel

theorem test_decodes_integer_2 : [
    ((0b011000_00101_01100_111000000_00010_0_0 : Nat), (.seq 2 12 5 0 : Instr)),
    ((0b01100100000_01011_111000000_11101_0_0 : Nat), (.clz 29 11 0 : Instr)),
    ((0b01101000000_11110_111000000_11110_0_1 : Nat), (.ctz 30 30 1 : Instr)),
    ((0b01101100000_10100_111000000_11111_0_0 : Nat), (.popc 31 20 0 : Instr)),
    ((0b01110000000_00101_111000000_11000_0_0 : Nat), (.brev 24 5 0 : Instr)),
    ((0b01000010010_00010_111000001_10010_0_1 : Nat), (.addi 18 2 530 1 : Instr)),
    ((0b11010101100_00011_111000010_10110_00 : Nat), (.andi 22 3 1708 : Instr)),
    ((0b01100010000_00000_111000010_00001_01 : Nat), (.ori 1 0 784 : Instr)),
    ((0b00011101101_00011_111000010_00001_10 : Nat), (.xori 1 3 237 : Instr)),
    ((0b11101010010_01101_111000010_11010_11 : Nat), (.slti 26 13 1874 : Instr)),
    ((0b0_00011_00001_10001_111000011_11011_00 : Nat), (.sel 27 17 1 3 : Instr))].all (fun p => decodeWord p.1 == some p.2) = true := by decide +kernel

theorem test_decodes_address : [
    ((0b0000_1_010000_01011_111000100_00110_00 : Nat), (.shli 6 11 1 16 : Instr)),
    ((0b0000_1_011001_10101_111000100_10110_01 : Nat), (.shri 22 21 1 25 : Instr)),
    ((0b0000_1_001001_11110_111000100_11000_10 : Nat), (.srai 24 30 1 9 : Instr)),
    ((0b0001010011000101_111000101_11011_10 : Nat), (.ldhi 27 5317 2 : Instr)),
    ((0b11010011111_01001_111000110_00111_00 : Nat), (.lea 7 9 1695 : Instr)),
    ((0b000_111_11011_01011_111000110_10001_01 : Nat), (.leaScaled 17 11 27 7 : Instr)),
    ((0b1011_1001010_11100_111000110_11011_10 : Nat), (.leaRegion 27 28 11 74 : Instr)),
    ((0b01101_000010_00001_111000111_10101_00 : Nat), (.bfx 21 1 13 2 : Instr)),
    ((0b10101_000111_00101_111000111_01001_01 : Nat), (.bfxn 9 5 21 7 : Instr)),
    ((0b01100_011111_01100_111000111_10101_10 : Nat), (.bfi 21 12 12 31 : Instr))].all (fun p => decodeWord p.1 == some p.2) = true := by decide +kernel

theorem test_decodes_branch : [
    ((0b00001001010_10000_111001000_10111_01 : Nat), (.beq 23 16 297 : Instr)),
    ((0b10000101010_10010_111001001_01001_00 : Nat), (.bne 9 18 4264 : Instr)),
    ((0b11101000000_11100_111001010_11001_00 : Nat), (.blt 25 28 7424 : Instr)),
    ((0b01110100001_11000_111001011_01110_00 : Nat), (.bge 14 24 3716 : Instr)),
    ((0b10100111000_11000_111001100_11101_11 : Nat), (.bltn 29 24 5347 : Instr)),
    ((0b00110010101_10101_111001101_10101_01 : Nat), (.bgen 21 21 1621 : Instr)),
    ((0b1101000101111111_11100111000000_01 : Nat), (.j 214525 : Instr)),
    ((0b0011011010011010_111001110_11110_11 : Nat), (.jal 30 55915 : Instr)),
    ((0b11001010100_10011_111001111_01101_00 : Nat), (.jalr 13 19 1620 : Instr)),
    ((0b00001000000_10000_1110011110000001 : Nat), (.loop 16 64 : Instr)),
    ((0b00000000000000001110011110000010 : Nat), (.endTask : Instr)),
    ((0b01_000101011_000001110011110000010 : Nat), (.trap 43 : Instr)),
    ((0b10_010110000_000001110011110000010 : Nat), (.brk 176 : Instr))].all (fun p => decodeWord p.1 == some p.2) = true := by decide +kernel

theorem test_decodes_memory : [
    ((0b1_01_001_00101_00111_111010000_00111_11 : Nat), (.ld 7 7 1 1 5 3 : Instr)),
    ((0b0_01_001_00111_01100_111010000_01111_01 : Nat), (.ldIndex 15 12 7 1 1 1 : Instr)),
    ((0b0_11_110_10000_00111_111010000_11001_01 : Nat), (.ldRegion 25 7 6 16 1 : Instr)),
    ((0b1_10_101_11001_11110_111010001_11001_01 : Nat), (.st 25 30 2 5 25 1 : Instr)),
    ((0b0_10_011_01010_01010_111010001_10001_11 : Nat), (.stIndex 17 10 10 2 3 3 : Instr)),
    ((0b0_11_011_10110_10011_111010001_00001_10 : Nat), (.stRegion 1 19 3 22 2 : Instr)),
    ((0b1_01_101_00100_01110_111010010_00100_00 : Nat), (.ldv 4 14 1 5 4 : Instr)),
    ((0b0_01_100_00010_10101_111010010_01000_00 : Nat), (.ldvIndex 8 21 2 1 4 : Instr)),
    ((0b1_11_101_10110_10010_111010010_00010_00 : Nat), (.ldvRegion 2 18 13 22 : Instr)),
    ((0b1_10_011_00101_01100_111010010_01000_01 : Nat), (.stv 8 12 2 3 5 : Instr)),
    ((0b0_10_101_10110_00101_111010010_01011_01 : Nat), (.stvIndex 11 5 22 2 5 : Instr)),
    ((0b0_11_100_01100_10011_111010010_01100_01 : Nat), (.stvRegion 12 19 4 12 : Instr)),
    ((0b1_01_100_10010_10011_111010011_10010_00 : Nat), (.ldf 18 19 1 4 18 : Instr)),
    ((0b0_00_000_00001_10110_111010011_11010_00 : Nat), (.ldfIndex 26 22 1 0 0 : Instr)),
    ((0b1_10_011_10101_00100_111010011_10111_01 : Nat), (.stf 23 4 2 3 21 : Instr)),
    ((0b0_10_010_01000_01100_111010011_00100_01 : Nat), (.stfIndex 4 12 8 2 2 : Instr)),
    ((0b1_10_001_01000_11000_111010011_00111_10 : Nat), (.ste 7 24 2 1 8 : Instr)),
    ((0b0_10_101_01000_11110_111010011_00001_10 : Nat), (.steIndex 1 30 8 2 5 : Instr))].all (fun p => decodeWord p.1 == some p.2) = true := by decide +kernel

theorem test_decodes_atomic : [
    ((0b0_01_110_10011_00011_111010100_10000_0_0 : Nat), (.aadd 16 3 19 1 6 0 : Instr)),
    ((0b0_10_100_10000_10010_111010100_01111_1_0 : Nat), (.aand 15 18 16 2 4 0 : Instr)),
    ((0b1_11_100_10110_00011_111010100_01111_0_0 : Nat), (.aor 15 3 22 3 4 0 : Instr)),
    ((0b1_01_011_10011_11110_111010100_00001_1_0 : Nat), (.axor 1 30 19 1 3 0 : Instr))].all (fun p => decodeWord p.1 == some p.2) = true := by decide +kernel

theorem test_decodes_fence : [
    ((0b0_01_010_11001_10011_111010101_01101_0_1 : Nat), (.amin 13 19 25 1 2 1 : Instr)),
    ((0b0_10_001_11000_01001_111010101_01011_1_0 : Nat), (.amax 11 9 24 2 1 0 : Instr)),
    ((0b1_01_001_00110_10101_111010101_00100_0_0 : Nat), (.aminn 4 21 6 1 1 0 : Instr)),
    ((0b1_10_010_00011_11011_111010101_00110_1_0 : Nat), (.amaxn 6 27 3 2 2 0 : Instr)),
    ((0b0_11_110_01110_10000_111010110_11011_0_1 : Nat), (.aswp 27 16 14 3 6 1 : Instr)),
    ((0b0_10_100_01001_10100_111010110_01111_1_0 : Nat), (.acas 15 20 9 2 4 0 : Instr)),
    ((0b1_01_101_00100_11010_111010110_00111_0_1 : Nat), (.afadd 7 26 4 1 5 1 : Instr)),
    ((0b1_11_011_10111_10001_111010110_01100_1_0 : Nat), (.adf 12 17 23 3 3 0 : Instr)),
    ((0b0_01_010_00000000001110101110000000 : Nat), (.fence 1 2 : Instr)),
    ((0b000000_01011_10011_1110101110000001 : Nat), (.aliasf 19 11 : Instr)),
    ((0b00000000000000001110101110000010 : Nat), (.ifence : Instr)),
    ((0b000000_10101_11000_11101011100_0_01_11 : Nat), (.pfx 24 21 0 1 : Instr)),
    ((0b100000_10101_11000_111010111_00001_00 : Nat), (.nmadd 24 21 1 : Instr)),
    ((0b100000_00101_01110_111010111_001_01_01 : Nat), (.nmred 14 5 1 1 : Instr)),
    ((0b10000000000000001110101110000010 : Nat), (.nmfence : Instr))].all (fun p => decodeWord p.1 == some p.2) = true := by decide +kernel

theorem test_decodes_float : [
    ((0b000_001_00011_10011_111011000_00101_0_0 : Nat), (.fadd 5 19 3 1 0 : Instr)),
    ((0b001_001_11010_11101_111011000_10000_0_0 : Nat), (.fsub 16 29 26 1 0 : Instr)),
    ((0b010_001_00001_01110_111011000_10101_0_1 : Nat), (.fmul 21 14 1 1 1 : Instr)),
    ((0b011_001_00011_10001_111011000_11100_0_0 : Nat), (.fdiv 28 17 3 1 0 : Instr)),
    ((0b100_001_00000_11000_111011000_00110_0_0 : Nat), (.fsqrt 6 24 1 0 : Instr)),
    ((0b000_011_11111_11101_111011001_11010_0_0 : Nat), (.ffma 26 29 31 3 0 : Instr)),
    ((0b001_011_11101_01010_111011001_10011_0_1 : Nat), (.ffms 19 10 29 3 1 : Instr)),
    ((0b010_011_10101_11110_111011001_11011_0_0 : Nat), (.ffnma 27 30 21 3 0 : Instr)),
    ((0b000000_11011_00110_111011010_11101_0_1 : Nat), (.fmin 29 6 27 1 : Instr)),
    ((0b001000_11111_01000_111011010_10001_0_1 : Nat), (.fmax 17 8 31 1 : Instr)),
    ((0b010000_10111_01010_111011010_00110_0_0 : Nat), (.feq 6 10 23 0 : Instr)),
    ((0b011000_01001_10110_111011010_11000_0_1 : Nat), (.flt 24 22 9 1 : Instr)),
    ((0b100000_01011_01000_111011010_00111_0_0 : Nat), (.fle 7 8 11 0 : Instr)),
    ((0b10100000000_01111_111011010_10101_0_0 : Nat), (.fclass 21 15 0 : Instr)),
    ((0b000000_10100_11110_111011011_10001_0_1 : Nat), (.fsgnj 17 30 20 1 : Instr)),
    ((0b001000_11001_00101_111011011_01110_0_0 : Nat), (.fsgnjn 14 5 25 0 : Instr)),
    ((0b010000_11101_00001_111011011_01001_0_0 : Nat), (.fsgnjx 9 1 29 0 : Instr)),
    ((0b100_1111_0011_11110_111011100_00010_00 : Nat), (.fcvt 2 30 4 15 3 : Instr)),
    ((0b00000000000_01100_111011101_11001_00 : Nat), (.fmvg 25 12 : Instr)),
    ((0b00000000000_10001_111011101_10000_01 : Nat), (.fmvf 16 17 : Instr)),
    ((0b00000000000_01011_111011110_11011_0_0 : Nat), (.frcpa 27 11 0 : Instr)),
    ((0b00100000000_01111_111011110_01110_0_1 : Nat), (.frsqa 14 15 1 : Instr)),
    ((0b010_111_01000_01001_111011110_11010_0_1 : Nat), (.frcpr 26 9 8 7 1 : Instr)),
    ((0b011_111_11000_01110_111011110_10100_0_0 : Nat), (.frsqr 20 14 24 7 0 : Instr))].all (fun p => decodeWord p.1 == some p.2) = true := by decide +kernel

theorem test_decodes_vector_1 : [
    ((0b0000_0001_0001_0011_111100000_0_0011_11 : Nat), (.vadd 3 3 1 1 3 : Instr)),
    ((0b0001_0010_0011_1101_111100000_0_0100_11 : Nat), (.vsub 4 13 3 2 3 : Instr)),
    ((0b0010_0000_1111_1011_111100000_0_0001_10 : Nat), (.vmul 1 11 15 0 2 : Instr)),
    ((0b0011_0001_1011_1001_111100000_0_0110_00 : Nat), (.vfma 6 9 11 1 0 : Instr)),
    ((0b0100_0000_1110_1110_111100000_1_0011_00 : Nat), (.vmin 3 14 14 0 4 : Instr)),
    ((0b0101_0001_1100_1011_111100000_0_1100_01 : Nat), (.vmax 12 11 12 1 1 : Instr)),
    ((0b0110_0000_0000_1100_111100000_1_0001_00 : Nat), (.vabs 1 12 0 4 : Instr)),
    ((0b0111_0001_1100_1101_111100000_0_0110_01 : Nat), (.vabsd 6 13 12 1 1 : Instr)),
    ((0b1000_0001_0000_0110_111100000_0_0100_11 : Nat), (.vneg 4 6 1 3 : Instr)),
    ((0b10010000_1100_1100_111100000_1_1001_11 : Nat), (.vdot 9 12 12 7 : Instr)),
    ((0b00000000_0100_0010_1111000010_1101_00 : Nat), (.vand 13 2 4 : Instr)),
    ((0b00010000_0111_0110_1111000010_1001_00 : Nat), (.vor 9 6 7 : Instr)),
    ((0b00100000_1100_0100_1111000010_1010_00 : Nat), (.vxor 10 4 12 : Instr)),
    ((0b001100000000_0110_1111000010_1100_00 : Nat), (.vnot 12 6 : Instr)),
    ((0b01000000_1001_0101_111100001_0_1010_10 : Nat), (.vshl 10 5 9 2 : Instr)),
    ((0b01010000_1100_1010_111100001_0_0100_01 : Nat), (.vshr 4 10 12 1 : Instr)),
    ((0b01100000_1011_0000_111100001_0_1001_01 : Nat), (.vsra 9 0 11 1 : Instr)),
    ((0b00000000_1110_0011_111100010_1_0101_10 : Nat), (.vcmpeq 5 3 14 6 : Instr)),
    ((0b0001_0001_1100_0001_111100010_0_0101_11 : Nat), (.vcmplt 5 1 12 1 3 : Instr)),
    ((0b0010_0001_0101_1110_111100010_0_1111_11 : Nat), (.vcmple 15 14 5 1 3 : Instr)),
    ((0b0011_1111_1110_1100_111100010_0_1100_01 : Nat), (.vsel 12 12 14 15 1 : Instr)),
    ((0b0000_0011_0010_0010_1111000110_0011_00 : Nat), (.vperm 3 2 2 3 : Instr)),
    ((0b00010000_0111_0000111100011_1_1110_00 : Nat), (.vbcast 14 7 4 : Instr)),
    ((0b0010_0001_0001_0000111100011_0_1001_00 : Nat), (.vins 9 1 1 0 : Instr))].all (fun p => decodeWord p.1 == some p.2) = true := by decide +kernel

theorem test_decodes_vector_2 : [
    ((0b0011_0110_0000_1101_111100011_0_0100_01 : Nat), (.vext 4 13 6 1 : Instr)),
    ((0b000000000000_0101_111100100_1_0001_11 : Nat), (.vredadd 1 5 7 : Instr)),
    ((0b0001_0001_0000_1000_111100100_0_0011_01 : Nat), (.vredmin 3 8 1 1 : Instr)),
    ((0b0010_0001_0000_0111_111100100_0_0110_11 : Nat), (.vredmax 6 7 1 3 : Instr)),
    ((0b0011_1001_0111_1001_111100100_0_1001_10 : Nat), (.vcvt 9 9 7 9 2 : Instr)),
    ((0b0100_0010_1101_1011_111100100_0_1101_11 : Nat), (.vpack 13 11 13 2 3 : Instr)),
    ((0b0101_0011_0000_1000_111100100_0_1101_11 : Nat), (.vunpk 13 8 3 3 : Instr)),
    ((0b011000000000_1110_111100100_1_1010_00 : Nat), (.vthr 10 14 4 : Instr)),
    ((0b011100000000_0011_111100100_1_1000_01 : Nat), (.vrcpa 8 3 5 : Instr)),
    ((0b100000000000_0100_111100100_1_1010_10 : Nat), (.vrsqa 10 4 6 : Instr))].all (fun p => decodeWord p.1 == some p.2) = true := by decide +kernel

theorem test_decodes_message : [
    ((0b000000_11001_11100_111101000_10000_00 : Nat), (.send 16 28 25 : Instr)),
    ((0b00000100000_01101_111101000_11111_00 : Nat), (.sendr 31 13 : Instr)),
    ((0b000010_01000_01100_1111010000000000 : Nat), (.fork 12 8 : Instr)),
    ((0b00001100000_00101_1111010000000000 : Nat), (.done 5 : Instr)),
    ((0b000100_01010_10110_111101000_11110_00 : Nat), (.clsbind 30 22 10 : Instr)),
    ((0b00000000000_01111_11110100100000_10 : Nat), (.nsend 15 2 : Instr)),
    ((0b00000100000_10001_1111010010000000 : Nat), (.winset 17 : Instr)),
    ((0b00001000000_10111_1111010010000000 : Nat), (.qcfg 23 : Instr)),
    ((0b000000_00010_01010_111101010_01000_0_1 : Nat), (.strm 8 10 2 1 : Instr)),
    ((0b0000010000000000111101010_00110_0_0 : Nat), (.strmoff 6 0 : Instr)),
    ((0b000010_01000_10101_111101010_00001_00 : Nat), (.repb 1 21 8 : Instr)),
    ((0b00001100000000001111010100000000 : Nat), (.repe : Instr)),
    ((0b00010000000_01111_1111010100000000 : Nat), (.repgo 15 : Instr)),
    ((0b00110011101_01101_111101011_01011_00 : Nat), (.tmld 11 13 413 : Instr))].all (fun p => decodeWord p.1 == some p.2) = true := by decide +kernel

theorem test_decodes_anvil_1 : [
    ((0b000_10010_1000_1101_1111011000000_1_0_1 : Nat), (.mmaE4m3E4m3 13 8 18 1 1 : Instr)),
    ((0b001_11101_1111_0101_1111011000000_1_0_1 : Nat), (.mmaE4m3E5m2 5 15 29 1 1 : Instr)),
    ((0b010_10010_0100_0010_1111011000000_0_0_1 : Nat), (.mmaE5m2E4m3 2 4 18 0 1 : Instr)),
    ((0b011_00101_1000_0010_1111011000000_1_0_1 : Nat), (.mmaE5m2E5m2 2 8 5 1 1 : Instr)),
    ((0b100_10101_0010_1100_1111011000000_1_0_0 : Nat), (.mmaE2m1E2m1 12 2 21 1 0 : Instr)),
    ((0b101_01010_0010_1110_1111011000000_1_0_0 : Nat), (.mmaE2m1E4m3 14 2 10 1 0 : Instr)),
    ((0b110_01101_0111_0100_1111011000000_1_0_0 : Nat), (.mmaEc8Ec8 4 7 13 1 0 : Instr)),
    ((0b111_11001_1101_0111_1111011000000_0_0_0 : Nat), (.mmaEc8E4m3 7 13 25 0 0 : Instr)),
    ((0b00000000_1010_0110_111101101000000_0 : Nat), (.mmaBf16Bf16 6 10 0 : Instr)),
    ((0b00100000_1001_1000_111101101000000_1 : Nat), (.mmaF16F16 8 9 1 : Instr)),
    ((0b01000000_1110_0100_111101101000000_0 : Nat), (.mmaS8S8 4 14 0 : Instr)),
    ((0b01100000_1001_1011_111101101000000_0 : Nat), (.mmaS4S8 11 9 0 : Instr)),
    ((0b10000000_1100_1011_111101101000000_0 : Nat), (.mmaBf16S4 11 12 0 : Instr)),
    ((0b101_00111_0100_1010_111101101000000_0 : Nat), (.mmapE4m3 10 4 7 0 : Instr)),
    ((0b11000000_1111_0101_111101101000000_0 : Nat), (.mmapBf16 5 15 0 : Instr)),
    ((0b00000000_1011_0101_111101110000000_1 : Nat), (.distL1Bf16 5 11 1 : Instr)),
    ((0b00100000_0100_0111_111101110000000_1 : Nat), (.distL1E4m3 7 4 1 : Instr)),
    ((0b01000000_1001_0011_111101110000000_0 : Nat), (.distL1S8 3 9 0 : Instr)),
    ((0b01100000_1010_1001_111101110000000_0 : Nat), (.distL2Bf16 9 10 0 : Instr)),
    ((0b10000000_1111_1010_111101110000000_0 : Nat), (.distL2E4m3 10 15 0 : Instr)),
    ((0b10100000_0111_1001_111101110000000_1 : Nat), (.distL2S8 9 7 1 : Instr)),
    ((0b0000_1_111_000000001111011110000_0_0_0 : Nat), (.adrain 1 7 0 0 : Instr)),
    ((0b001000_01_0000_0100_111101111_11011_0_0 : Nat), (.cupd 27 4 1 0 : Instr)),
    ((0b0100000_1_00000000111101111_01010_0_0 : Nat), (.async 10 1 0 : Instr))].all (fun p => decodeWord p.1 == some p.2) = true := by decide +kernel

theorem test_decodes_anvil_2 : [
    ((0b0110000000000_011_111101111_00100_00 : Nat), (.ringcfgSet 4 3 : Instr)),
    ((0b0110000100000_010_111101111_10010_00 : Nat), (.ringcfgPush 18 2 : Instr)),
    ((0b0110001000000_011_1111011110000000 : Nat), (.ringcfgReset 3 : Instr)),
    ((0b0110001100000_110_111101111_10000_00 : Nat), (.ringcfgQuery 16 6 : Instr)),
    ((0b0000000000000000111110000000000_0 : Nat), (.accz 0 : Instr)),
    ((0b0010000000000000111110000_00101_0_1 : Nat), (.accrd 5 1 : Instr)),
    ((0b0100000000000000111110000_01011_0_0 : Nat), (.accwr 11 0 : Instr)),
    ((0b011_00011_000000001111100000000_0_0_0 : Nat), (.accsc 3 0 0 : Instr))].all (fun p => decodeWord p.1 == some p.2) = true := by decide +kernel

theorem test_decodes_engine_1 : [
    ((0b000000_11001_10100_111110100_11001_00 : Nat), (.cpy 25 20 25 : Instr)),
    ((0b000001_10010_11011_111110100_11000_00 : Nat), (.cpykv 24 27 18 : Instr)),
    ((0b000010_00011_00011_111110100_11100_00 : Nat), (.kvapp 28 3 3 : Instr)),
    ((0b000011_10100_00110_111110100_11000_00 : Nat), (.get 24 6 20 : Instr)),
    ((0b000100_10111_00101_111110100_00110_00 : Nat), (.put 6 5 23 : Instr)),
    ((0b000101_11100_01010_111110100_10011_00 : Nat), (.halo 19 10 28 : Instr)),
    ((0b00011000000_11100_111110100_10010_00 : Nat), (.cpycan 18 28 : Instr)),
    ((0b000111_10111_00110_111110100_11010_00 : Nat), (.flushr 26 6 23 : Instr)),
    ((0b001000_10000_10100_111110100_11100_00 : Nat), (.invr 28 20 16 : Instr)),
    ((0b00000000000_10100_111111000_00000_00 : Nat), (.waygive 0 20 : Instr)),
    ((0b0000010000000000111111000_00111_00 : Nat), (.waytake 7 : Instr)),
    ((0b00001000000_10001_111111000_10001_00 : Nat), (.rowop 17 17 : Instr)),
    ((0b000000_01111_00010_111111001_01010_0_1 : Nat), (.bsopAdd 2 15 10 1 : Instr)),
    ((0b000001_01000_01000_111111001_10100_0_1 : Nat), (.bsopSub 8 8 20 1 : Instr)),
    ((0b000010_11010_10101_111111001_01011_00 : Nat), (.bsopAnd 21 26 11 : Instr)),
    ((0b000011_01011_10110_111111001_01110_00 : Nat), (.bsopOr 22 11 14 : Instr)),
    ((0b000100_01001_01110_111111001_10100_00 : Nat), (.bsopXor 14 9 20 : Instr)),
    ((0b000101_11001_11100_111111001_10011_00 : Nat), (.bsopNot 28 25 19 : Instr)),
    ((0b000110_10010_11110_111111001_00101_0_0 : Nat), (.bsopCmpeq 30 18 5 0 : Instr)),
    ((0b000111_00010_00100_111111001_10001_0_0 : Nat), (.bsopCmplt 4 2 17 0 : Instr)),
    ((0b001000_11011_11110_111111001_11111_0_0 : Nat), (.bsopCmple 30 27 31 0 : Instr)),
    ((0b001001_01011_10110_111111001_11011_0_0 : Nat), (.bsopSel 22 11 27 0 : Instr)),
    ((0b001010_10100_11110_111111001_01100_0_1 : Nat), (.bsopShr 30 20 12 1 : Instr)),
    ((0b001011_01110_00100_111111001_00111_0_0 : Nat), (.bsopPopc 4 14 7 0 : Instr))].all (fun p => decodeWord p.1 == some p.2) = true := by decide +kernel

theorem test_decodes_engine_2 : [
    ((0b001100_01000_11010_111111001_00011_0_0 : Nat), (.bsopMin 26 8 3 0 : Instr)),
    ((0b001101_10111_01011_111111001_00001_0_1 : Nat), (.bsopMax 11 23 1 1 : Instr)),
    ((0b001110_10000_00010_111111001_10001_0_0 : Nat), (.bsopMul 2 16 17 0 : Instr))].all (fun p => decodeWord p.1 == some p.2) = true := by decide +kernel

theorem test_decodes_heap : [
    ((0b00000000000_00100_111111100_11000_00 : Nat), (.egcfg 24 4 0 : Instr)),
    ((0b000001_11001_11101_111111100_10010_10 : Nat), (.egins 18 29 25 2 : Instr)),
    ((0b00001000000_01110_111111100_10110_11 : Nat), (.egfind 22 14 3 : Instr)),
    ((0b000011_11011_01111_111111100_11001_01 : Nat), (.egmrg 25 15 27 1 : Instr)),
    ((0b000100_00001_10010_111111100_01000_11 : Nat), (.egmatch 8 18 1 3 : Instr)),
    ((0b00010100000_00001_111111100_11100_10 : Nat), (.egnode 28 1 2 : Instr)),
    ((0b000110_01110_11110_111111100_01101_11 : Nat), (.egenum 13 30 14 3 : Instr)),
    ((0b00011100000_01100_111111100_11001_10 : Nat), (.egrank 25 12 2 : Instr)),
    ((0b00100000000_11000_111111100_11011_10 : Nat), (.egstat 27 24 2 : Instr))].all (fun p => decodeWord p.1 == some p.2) = true := by decide +kernel

theorem test_decodes_system : [
    ((0b01101110011_00000111111110_01011_00 : Nat), (.csrrd 11 883 : Instr)),
    ((0b10110110111_11010_111111110_10010_01 : Nat), (.csrwr 18 26 1463 : Instr)),
    ((0b11110010110_11001_111111110_10000_10 : Nat), (.csrset 16 25 1942 : Instr)),
    ((0b11100111011_00101_111111110_00011_11 : Nat), (.csrclr 3 5 1851 : Instr)),
    ((0b11111100000000001111111100000000 : Nat), (.eret : Instr)),
    ((0b11111100001_00001_111111110_01000_00 : Nat), (.tlbsd 8 1 : Instr)),
    ((0b11111100010_10010_1111111100000000 : Nat), (.tlbinv 18 : Instr)),
    ((0b11111100011_11001_111111110_10111_00 : Nat), (.suprd 23 25 : Instr)),
    ((0b11111100100_10010_111111110_10110_00 : Nat), (.partset 22 18 : Instr))].all (fun p => decodeWord p.1 == some p.2) = true := by decide +kernel
/-! ## States for the witnesses -/

/-- A user context of core 0 that issues, with one page of DRAM mapped at 0x40_0000_0000 (R355 to R357). -/
def user : State := placeProgram State.reset []
/-- The acting context changed; the same at supervisor privilege. -/
def ctx (s : State) (f : Ctx → Ctx) : State := s.setMe (f s.me)
def ctl (s : State) (f : Ctl → Ctl) : State := ctx s fun x => { x with ctl := f x.ctl }
def sup : State := ctl user fun l => { l with priv := 1 }
/-- g registers given values. -/
def gs (s : State) (l : List (BitVec 5 × Word)) : State := ctx s fun x => l.foldl (fun x p => x.setG p.1 p.2) x
/-- A store that has not been performed, to doubleword 0 of the page. -/
def pendingStore : Store := { serial := 1, va := 0x4000000000, pa := 0x40000000, size := 8, val := 5 }
/-- Memory doublewords placed by their physical offset. -/
def mem (s : State) (l : List (Nat × Nat)) : State :=
  { s with mem := l.foldl (fun m p => placeBytes m p.1 (toBytes p.2 8)) s.mem }
/-- The access reaches memory, and what it reaches meets a condition. -/
def reaches (s : State) (va : Word) (n : Nat) (acc : Acc) (kind : Kind) (need : Need)
    (P : List Nat → List Place → State → Bool) : Bool :=
  match translateSpan s (.data s.cur.core) s.me.ctl.ptroot va n acc s.me.ctl.priv with
  | .error _ => false
  | .ok (pa, pa2, s1) =>
    match placesOf s1 s.me.ctl.hkey (spanPas va.toNat n pa pa2) with
    | .error _ => false
    | .ok ps => va.toNat < 2 ^ 56
        && ps.all (fun p => (match p with
          | .sram _ => true
          | .dram _ _ => true
          | _ => false) && !p.isDevice && p.accepts kind && !s1.blocked p && !s1.poisoned p
            && (s1.askFor (some s.cur.core) (decide (need = .token)) p).isNone)
        && (decide (need = .copy) || s.me.stores.all fun st => !(st.meets s1 ps))
        && (!decide (need = .token) || (linesOf ps).all fun l => !(s1.holdsBack none l))
        && P (spanPas va.toNat n pa pa2) ps s1
theorem reaches_iff {s : State} {va : Word} {n : Nat} {acc : Acc} {kind : Kind} {need : Need}
    {P : List Nat → List Place → State → Bool} (h : reaches s va n acc kind need P = true) :
    ∃ pas ps s1, Reaches s va n acc kind need pas ps s1 ∧ P pas ps s1 = true := by
  unfold reaches at h
  split at h
  · simp at h
  rename_i pa pa2 s1 e
  split at h
  · simp at h
  rename_i ps e2
  simp only [Bool.and_eq_true, decide_eq_true_eq, List.all_eq_true] at h
  obtain ⟨⟨⟨⟨hva, hp⟩, hw⟩, ht⟩, hP⟩ := h
  refine ⟨_, ps, s1, ⟨⟨hva, ⟨pa, pa2, e, rfl⟩, e2, fun p hm => ?_⟩, fun p hm => ?_, fun hn st hs => ?_, fun hn l hl => ?_⟩, hP⟩
  · exact ⟨by simpa using (hp p hm).1.1.1.1.2, (hp p hm).1.1.1.2⟩
  · have q := hp p hm
    refine ⟨?_, by simpa using q.1.1.2, by simpa using q.1.2, by simpa using q.2⟩
    have q0 := q.1.1.1.1.1
    cases p <;> simp_all
  · simp only [hn, decide_false, Bool.false_or, List.all_eq_true] at hw
    simpa using hw st hs
  · simp only [hn, decide_true, Bool.not_true, Bool.false_or, List.all_eq_true] at ht
    simpa using ht l hl
/-- It names memory, where it reaches it. -/
theorem names_of {s : State} {va : Word} {n : Nat} {acc : Acc} {kind : Kind}
    (h : reaches s va n acc kind .copy (fun _ _ _ => true) = true) : ∃ pas ps s1, Names s va n acc kind pas ps s1 :=
  let ⟨pas, ps, s1, r, _⟩ := reaches_iff h
  ⟨pas, ps, s1, r.1⟩
/-- Any condition. -/
def any_ : List Nat → List Place → State → Bool := fun _ _ _ => true

/-! ## Witnesses: integers and control -/

/-- IntegerArithmetic, Division, LogicAndShifts, BitCounts, ShortIntegerForms, the float and vector statements, Jumps:
a context with plain operands. -/
theorem wit_plain : user.plain = true ∧ sup.plain = true ∧ user.cur.replay = false := by decide +kernel
/-- IntegerImmediates: the widest amount at 32 bits. -/
theorem wit_IntegerImmediates : user.plain = true ∧ ((1 : BitVec 1) = 1 → (31 : BitVec 6).toNat < 32) := by decide +kernel
/-- A region of 1 KiB. -/
def region : State := ctl user fun l => { l with rgn := l.rgn.set 3 0x0100004000000000 }
theorem wit_ConstantsAndFields :
    region.plain = true ∧ (2 : BitVec 2) ≠ 3 ∧
    (let size := (region.me.ctl.region 3 >>> 56).toNat
     size ≠ 0 ∧ ((gs region [(4, 1023)]).me.getG 4 + (0 : BitVec 7).setWidth 64 + 1).toNat ≤ size * 1024 ∧
      size * 1024 < ((gs region [(4, 1024)]).me.getG 4 + (0 : BitVec 7).setWidth 64 + 1).toNat) ∧
    (region.me.ctl.region 2 >>> 56).toNat = 0 ∧ (63 : BitVec 6).toNat + (0 : BitVec 5).toNat + 1 ≤ 64 := by decide +kernel
/-- ConditionalBranches, Jumps: taken and not; the first and the last even target, an odd one, and one past each end. -/
theorem wit_targets :
    (user.me.getG 1 == user.me.getG 2) = true ∧ (user.me.getG 1 != user.me.getG 2) = false ∧
    (let t (g : Word) (i : BitVec 11) : Int := ((gs user [(4, g)]).me.getG 4).toNat + i.toInt
     (t 0 0 % 2 = 0 ∧ 0 ≤ t 0 0 ∧ t 0 0 < 2 ^ 56) ∧ (t 0xFFFFFFFFFFFFFE 0 < 2 ^ 56 ∧ t 0xFFFFFFFFFFFFFE 0 % 2 = 0) ∧
     t 1 0 % 2 = 1 ∧ (t 0 0x7FE < 0 ∧ t 0 0x7FE % 2 = 0) ∧ (2 ^ 56 ≤ t 0x100000000000000 0)) := by decide +kernel
/-- A context in a loop over one instruction of 4 bytes, with a count left. -/
def looping (left : Word) : State := ctx user fun x =>
  { x with loop := some { start := 0x4000000000, stop := 0x4000000004, left := left } }
theorem wit_LoopBegins :
    user.plain = true ∧ user.me.loop = none ∧ user.me.getG 7 = 0 ∧ (gs user [(7, 1)]).me.getG 7 ≠ 0 ∧
    (looping 1).me.loop ≠ none := by decide +kernel
theorem wit_Retiring :
    user.me.loop = none ∧ (looping 1).me.pc + BitVec.ofNat 64 4 = 0x4000000004 ∧ (looping 1).me.loop.map (·.left) = some 1 ∧
    (looping 2).me.loop.map (·.left) = some 2 ∧ (looping 2).me.pc + BitVec.ofNat 64 2 ≠ 0x4000000004 := by decide +kernel
/-- A supervisor context that took a trap in a replay. -/
def inReplay : State := ctx sup fun x =>
  { x with replay := some { total := 4, halted := true }, ctl := { x.ctl with estat := 2 } }
theorem wit_ReturningFromATrap :
    sup.cur.replay = false ∧ sup.me.ctl.priv = 1 ∧ sup.me.ctl.estat.getLsbD 1 = false ∧ user.me.ctl.priv = 0 ∧
    inReplay.me.ctl.priv = 1 ∧ inReplay.me.ctl.estat.getLsbD 1 = true ∧ inReplay.me.replay.isSome = true ∧ inReplay.me.trapLoops = [] := by decide +kernel

/-! ## Witnesses: memory -/

/-- g4 holds the page's address; g5 an unaligned one, g6 the last byte of the address space. -/
def page : State := gs user [(4, 0x4000000000), (5, 0x4000000009), (6, 0xFFFFFFFFFFFFFF), (7, 3)]
theorem wit_Loading : (∃ pas ps s1, Reaches page 0x4000000000 8 .read .plain .copy pas ps s1 ∧ any_ pas ps s1 = true) ∧
    (∃ pas ps s1, Reaches page 0x4000000009 1 .read .plain .copy pas ps s1 ∧ any_ pas ps s1 = true) ∧
    (∃ pas ps s1, Reaches page 0x4000000000 16 .read .plain .copy pas ps s1 ∧
      (ps.all fun p => p.isSram = false) = true) ∧
    ((1 : BitVec 2) ≠ 0 → (0x4000000000 : Word).toNat % 8 = 0) ∧
    (let g := gs region [(4, 1016)]
     (g.me.ctl.region 3 >>> 56).toNat ≠ 0 ∧
      (g.me.getG 4 + BitVec.ofNat 64 0 + BitVec.ofNat 64 8).toNat ≤ (g.me.ctl.region 3 >>> 56).toNat * 1024) :=
  ⟨reaches_iff (by decide +kernel), reaches_iff (by decide +kernel), reaches_iff (P := fun _ ps _ => ps.all fun p => p.isSram = false)
    (by decide +kernel), by decide, by decide +kernel⟩
/-- Eight bytes with a place each, the last at its own address, and no window's older value outstanding. -/
def eightPlaces (pas : List Nat) (ps : List Place) (s1 : State) : Bool :=
  pas.length = ps.length && pas[7]? = some 0x40000007 && ((ps[7]?).bind (·.key)).isSome && s1.mem.stale = []
/-- ReadValue: nothing replaced is left, or the read is an acquire's. -/
theorem wit_ReadValue : page.mem.past = [] ∧ (none : Option Nat) = none ∧ ∃ pas ps s1, Reaches page 0x4000000000 8 .read .plain .copy pas ps s1 ∧ eightPlaces pas ps s1 = true :=
  ⟨by decide +kernel, rfl, reaches_iff (by decide +kernel)⟩
theorem wit_Storing : page.me.stores.length < 16 ∧ page.cur.replay = false ∧
    ∃ pas ps s1, Names page 0x4000000000 8 .write .plain pas ps s1 :=
  ⟨by decide +kernel, by decide +kernel, names_of (by decide +kernel)⟩
/-- The page's doubleword 0 holds 1, and is full. -/
def fullPage : State :=
  let s := mem page [(0x40000000, 1)]
  { s with mem := s.mem.setFull ((keyDram + interleaved 0x40000000) / 8) true }
theorem wit_FullEmptyWords :
    (∃ pas ps s1, Reaches fullPage 0x4000000000 8 .read .word .word pas ps s1 ∧
      (match ps.head?.bind (·.key) with
        | some k => fullPage.mem.isFull (k / 8)
        | none => false) = true) ∧
    (∃ pas ps s1, Reaches page 0x4000000000 8 .read .word .word pas ps s1 ∧
      (match ps.head?.bind (·.key) with
        | some k => !page.mem.isFull (k / 8)
        | none => false) = true) ∧ page.me.stores = [] :=
  ⟨reaches_iff (P := fun _ ps _ => match ps.head?.bind (·.key) with
      | some k => fullPage.mem.isFull (k / 8)
      | none => false) (by decide +kernel),
   reaches_iff (P := fun _ ps _ => match ps.head?.bind (·.key) with
      | some k => !page.mem.isFull (k / 8)
      | none => false) (by decide +kernel), by decide +kernel⟩
theorem wit_Atomics : (page.plain = true ∧ page.me.stores = [] ∧ page.mem.pending = [] ∧
    (page.me.getG 4).toNat % 8 = 0) ∧ ∃ pas ps s1, Reaches page (page.me.getG 4) 8 .rmw .word .token pas ps s1 ∧
      any_ pas ps s1 = true :=
  ⟨by decide +kernel, reaches_iff (by decide +kernel)⟩
/-- One store, and one NM operation, still to be performed. -/
def buffered : State := ctx page fun x => { x with stores := [pendingStore], serial := 2 }
def nmPending : State := ctx page fun x => { x with nms := [⟨0, 0x4000000040, 0x40000040, .addS64, 3⟩] }
def aligned : State := ctx page fun x => { x with aliasing := some (0x4000000000, 64, true) }
theorem wit_FencesAndBankOperations :
    (page.plain = true ∧ page.me.stores = [] ∧ page.mem.pending = [] ∧ buffered.plain = true ∧ buffered.me.stores ≠ [] ∧
    aligned.me.aliasing = some (0x4000000000, 64, true) ∧ page.me.aliasing = none ∧ page.me.nms = [] ∧ page.bank = [] ∧
    nmPending.me.nms ≠ [] ∧ ((2 : BitVec 2) ≠ 0 ∧ (3 : BitVec 2) = 3) ∧ (page.me.getG 4).toNat % NmKind.addS64.size = 0) ∧
    ∃ pas ps s1, Names page (page.me.getG 4) 8 .write .bank pas ps s1 ∧ ∀ p ∈ ps, s1.poisoned p = false :=
  ⟨by decide +kernel,
   let ⟨pas, ps, s1, r, _⟩ := reaches_iff (s := page) (va := page.me.getG 4) (n := 8) (acc := .write) (kind := .bank)
     (need := .copy) (P := any_) (by decide +kernel)
   ⟨pas, ps, s1, r.1, fun p hp => (r.2.1 p hp).2.2.1⟩⟩
theorem wit_MisalignedAndOutside :
    (page.me.getG 5).toNat < 2 ^ 56 ∧ (page.me.getG 5).toNat % 2 ≠ 0 ∧ (page.me.getG 5).toNat % 8 ≠ 0 ∧
    (page.me.getG 6).toNat < 2 ^ 56 ∧ 2 ^ 56 ≤ ((gs page [(6, 0x100000000000000)]).me.getG 6).toNat ∧
    page.me.ctl.region 0 >>> 56 = 0 := by decide +kernel

/-! ## Witnesses: floating point and vectors -/

theorem wit_FloatAndInteger : (0 : BitVec 4) ≠ 12 ∧ (5 : BitVec 4).toNat < 7 ∧ 7 ≤ (12 : BitVec 4).toNat ∧ user.plain = true := by
  decide +kernel
/-- The two NaNs, infinities, zeros and a finite number of f32 (R22). -/
theorem wit_FloatSpecialCases :
    (fmtP 0).decode 0x7FC00000 = .nan false 0x400000 false ∧ (fmtP 0).decode 0x7F800001 = .nan false 1 true ∧
    (fmtP 0).decode 0x7F800000 = .inf false ∧ (fmtP 0).decode 0xFF800000 = .inf true ∧ (fmtP 0).decode 0 = .zero false ∧
    (fmtP 0).decode 0x80000000 = .zero true ∧ (fmtP 0).decode 0xBF800000 = .fin true 0x800000 (-23) := by decide +kernel
/-- RoundingModes: below, at and above half, and an exact number. -/
theorem wit_RoundingModes : let S := 2 ^ ((3 : Int) - 1).toNat
    (1 : Int) < 3 ∧ 2 * (5 % S) < S ∧ S < 2 * (7 % S) ∧ 2 * (6 % S) = S ∧ 8 % S = 0 ∧ 0 < 65536 := by decide
theorem wit_lane_types : (3 : BitVec 3).toNat < 4 ∧ 4 ≤ (4 : BitVec 3).toNat ∧ (1 : BitVec 3).toNat < 2 ∧
    (15 : BitVec 4).toNat < 128 / widthOf 0 ∧ (2 : BitVec 4).toNat < 3 ∧ (4 : BitVec 4) ≠ 5 ∧ (0 : BitVec 3) ≠ 5 := by decide
theorem wit_VectorConversion : convMode user.me.ctl 0 ≠ .sr ∧ (f32.decode 0x7FC00000).isNan = true := by decide +kernel

/-! ## Witnesses: messages and tasks -/

/-- g1 names class 16, g2 class 15; the send queue of the second has no room. -/
def sender : State := gs page [(1, 0x400000000), (2, 0x3C0000000)]
def sendFull : State := ctl sender fun l => { l with sqdepth := 0 }
theorem wit_Sending :
    sender.plain = true ∧ sender.me.sendq.length < sender.me.ctl.sqdepth.toNat ∧ 16 ≤ clsOf (sender.me.getG 1) ∧
    sender.me.ctl.priv = 0 ∧ clsOf (sender.me.getG 2) < 16 ∧ sup.me.ctl.priv = 1 := by decide +kernel
/-- A record at the page whose descriptor names class 16. -/
def recordPage : State := mem sender [(0x40000000, 1), (0x40000008, 0x400000000)]
/-- What a record's read comes to: a counter and a descriptor of a user class. -/
def recordFine (pas : List Nat) (ps : List Place) (s1 : State) : Bool :=
  16 ≤ clsOf (recordWord (readValue s1 none ps) 1) && readValue s1 none ps % 2 ^ 64 = 1
def recordPrivileged (pas : List Nat) (ps : List Place) (s1 : State) : Bool :=
  clsOf (recordWord (readValue s1 none ps) 1) < 16 && readValue s1 none ps % 2 ^ 64 = 1
theorem wit_Sendr : (∃ pas ps s1, Reaches recordPage (recordPage.me.getG 4) 64 .read .plain .copy pas ps s1 ∧
    recordFine pas ps s1 = true) ∧ ((recordPage.me.getG 4).toNat % 64 = 0 ∧ recordPage.cur.replay = false ∧
    recordPage.me.sendq.length < recordPage.me.ctl.sqdepth.toNat ∧ sendFull.me.ctl.sqdepth.toNat ≤ sendFull.me.sendq.length) :=
  ⟨reaches_iff (by decide +kernel), by decide +kernel⟩
/-- DecrementAndFire: the decrement by 1 reaches zero, and the one by 3 does not. -/
theorem wit_DecrementAndFire :
    (∃ pas ps s1, Reaches recordPage (recordPage.me.getG 4) 64 .rmw .word .token pas ps s1 ∧ recordFine pas ps s1 = true) ∧
    (∃ pas ps s1, Reaches (mem page [(0x40000000, 1)]) 0x4000000000 64 .rmw .word .token pas ps s1 ∧
      recordPrivileged pas ps s1 = true) ∧ (recordPage.me.stores = [] ∧ recordPage.mem.pending = [] ∧
    (1 : BitVec 64) - (1 : Word).setWidth 64 = 0 ∧ (1 : BitVec 64) ≠ 0 ∧ ¬((1 : BitVec 64) - 3 = 0 ∧ (3 : BitVec 64) ≠ 0)) :=
  ⟨reaches_iff (by decide +kernel), reaches_iff (by decide +kernel), by decide +kernel⟩
/-- A full deque, without a launch and with one whose spill area is the page. -/
def fork0 : Fork := ⟨0, 0, Vector.replicate 6 0, 0, 0, 0, 0, none⟩
def dequeFull : State := sender.setHere { sender.here with deque := List.replicate 256 fork0 }
def spiller : Launch := { id := 0, q := 0, index := 0, part := 0, prio := 0, st := .resident
                          desc := toBytes 0x100000 8 ++ toBytes 0 56 ++ toBytes 0x4000000000 8 ++ toBytes 1 8 }
def spillRoom : State := { dequeFull.setPart 0 { resident := some 0 } with launches := [spiller] }
/-- A class table whose class 16 is unbound, bound or draining, with a task of it on context 0. -/
def withClass (st : Bound) : State :=
  let s := ctx sender fun x => { x with task := some { cls := 16, gen := 1 } }
  s.setCore 0 ((s.core 0).setCls 16 { state := st, old := [1], gen := 1 })
/-- The four words of a spill block's header are reached in turn, and what they hold meets a condition. -/
def spillOk (v : State) (blk : Word) (P : SpillHead → State → Bool) : Bool :=
  reaches v blk 8 .read .plain .copy fun _ hP s1 =>
  reaches (s1.dropAnswers false) (blk + 8) 8 .write .plain .token fun _ tP s2 =>
  reaches (s2.dropAnswers false) (blk + 16) 8 .read .plain .copy fun _ zP s3 =>
  reaches (s3.dropAnswers false) (blk + 24) 8 .rmw .plain .token fun _ aP s4 =>
    let u := s4.dropAnswers false
    P ⟨readValue u none hP, readValue u none tP, readValue u (some u.me.acqAt) zP, readValue u none aP, tP, aP⟩ u
theorem spillOk_iff {v : State} {blk : Word} {P : SpillHead → State → Bool} (h : spillOk v blk P = true) :
    ∃ hd u, SpillHead.At hd v blk u ∧ P hd u = true := by
  obtain ⟨hA, hP, s1, r1, h⟩ := reaches_iff h
  obtain ⟨tA, tP, s2, r2, h⟩ := reaches_iff h
  obtain ⟨zA, zP, s3, r3, h⟩ := reaches_iff h
  obtain ⟨aA, aP, s4, r4, h⟩ := reaches_iff h
  exact ⟨_, _, ⟨hA, hP, tA, zA, zP, aA, s1, s2, s3, s4, r1, r2, r3, r4, rfl, rfl, rfl, rfl, rfl⟩, h⟩
/-- A spill block of 4 slots in the page's second line, armed, with a TAIL; the send queue has no room. -/
def spillBlock (tail : Nat) : State :=
  let s := ctl (mem sender [(0x40000048, tail), (0x40000050, 4), (0x40000058, 1)]) fun l => { l with sqdepth := 0 }
  s.setHere (s.here.setCls 5 { state := .bound, block := some (0x4000000040, s.me.ctl.ptroot) })
/-- It has a free slot, which can be written; it has none. -/
def roomy (blk : Word) (h : SpillHead) (u : State) : Bool :=
  h.tail < h.size + h.head && h.armed ≠ 0 && reaches u (h.slot blk) 64 .write .plain .token any_
def full (h : SpillHead) (_ : State) : Bool := h.size + h.head ≤ h.tail
/-- A store before the message whose line a bank engine holds. -/
def spillBehind : State :=
  let s := spillBlock 0
  { ctx s fun x => { x with stores := [pendingStore] } with bank := [(0, 0, ⟨0, 0x4000000000, 0x40000000, .addS64, 3⟩)] }
theorem wit_FullQueue : (∃ h u, SpillHead.At h (spillBlock 0) 0x4000000040 u ∧ roomy 0x4000000040 h u = true) ∧
    (∃ h u, SpillHead.At h (spillBlock 4) 0x4000000040 u ∧ full h u = true) ∧ drainOwn 0 (spillBlock 0) = some (spillBlock 0) ∧
    ((spillBlock 0).here.cls 5).block = some (0x4000000040, (spillBlock 0).me.ctl.ptroot) ∧ (sendFull.here.cls 5).block = none ∧
    sendFull.me.ctl.sqdepth.toNat ≤ sendFull.me.sendq.length ∧ (spillBlock 0).plain = true ∧ (spillBlock 0).cur.replay = false ∧
    (spillBlock 0).savedLaunch ((spillBlock 0).myLaunch.or ((spillBlock 0).part 0).resident) = none ∧
    drainOwn spillBehind.me.stores.length spillBehind = none ∧
    (match translateSpan spillBehind (.data 0) spillBehind.me.ctl.ptroot 0x4000000040 32 .rmw spillBehind.me.ctl.priv with
      | .ok _ => true
      | .error _ => false) = true :=
  ⟨spillOk_iff (by decide +kernel), spillOk_iff (by decide +kernel), by decide +kernel⟩
/-- DecrementAndFire: the record at the page, where the queue is full and a spill block stands beside it. -/
theorem wit_DecrementAndFire_full : let s := ctl recordPage fun l => { l with sqdepth := 0 }
    (∃ pas ps s1, Reaches s 0x4000000000 64 .rmw .word .token pas ps s1 ∧ recordFine pas ps s1 = true) ∧
    s.me.ctl.sqdepth.toNat ≤ s.me.sendq.length ∧ (s.here.cls 5).block = none ∧ s.me.stores = [] ∧ s.mem.pending = [] ∧
    s.cur.replay = false :=
  ⟨reaches_iff (by decide +kernel), by decide +kernel⟩
theorem wit_TaskInstructions :
    (sender.here.deque.length < 256) ∧ 256 ≤ dequeFull.here.deque.length ∧ spillDeque 0 dequeFull = none ∧
    256 ≤ spillRoom.here.deque.length ∧ spillRoom.plain = true ∧ 16 ≤ clsOf (spillRoom.me.getG 1) ∧
    (let w : Word := 0x10010
     w.extractLsb' 18 46 = 0 ∧ w.extractLsb' 15 1 = 0 ∧ w.extractLsb' 16 2 ≠ (3 : BitVec 2) ∧ w.extractLsb' 8 6 ≠ (63 : BitVec 6) ∧
      16 ≤ (w.extractLsb' 0 8).toNat ∧ w.extractLsb' 14 1 = (0 : BitVec 1)) ∧
    ((0x10005 : Word).extractLsb' 0 8 = (5 : BitVec 8)) ∧ ((0x40000 : Word).extractLsb' 18 46 ≠ 0) ∧
    ((withClass .unbound).here.cls 16).state = .unbound ∧ ((withClass .draining).here.cls 16).state = .draining ∧
    ((withClass .draining).here.cls 16).old ≠ [] ∧ ((withClass .bound).here.cls 16).state = .bound ∧
    (withClass .bound).here.running 16 ≠ [] ∧ (withClass .bound).here.running 17 = [] ∧ (0x4000000000 : Word).toNat % 2 = 0 ∧
    (0x4000000009 : Word).toNat % 2 = 1 ∧ ¬(0x100000000000000 : Word).toNat < 2 ^ 56 ∧ sender.me.stores = [] ∧
    buffered.me.stores ≠ [] ∧ sender.me.replay = none := by decide +kernel
/-- Core 0 has a neighbour in the east, none in the north; without credit; with a neighbour in another partition. -/
def noCredit : State := ctl page fun l => { l with win := Vector.replicate 4 0 }
def apart : State := { page with cur := ⟨7, 0, false⟩, clusterPart := [(1, 2)] }
theorem wit_Neighbours :
    neighbourIn page.cur.core 0 = none ∧ neighbourIn page.cur.core 1 = some (1, 3) ∧ page.partOf 1 = page.partOf page.cur.core ∧
    page.me.ctl.win.get 1 ≠ 0 ∧ inQueue page 1 3 < 4 ∧ noCredit.me.ctl.win.get 1 = 0 ∧
    neighbourIn apart.cur.core 1 = some (8, 3) ∧ apart.partOf 8 ≠ apart.partOf apart.cur.core := by decide +kernel
/-- A recording, and a complete repetition buffer of one instruction. -/
def recording : State := ctx page fun x => { x with rep := { recording := true } }
def recorded : State := ctx page fun x => { x with rep := { complete := true, buf := [(0x4000000000, 0x00A4E00C, true)] } }
/-- A map of one dimension of 32-bit numbers is loaded in tm2. -/
def mapped : State := ctx page fun x => { x with tm := x.tm.set 2 (some 0x1000000000000000) }
theorem wit_QueuesStreamsAndReplays :
    page.me.owed = [] ∧ page.me.replay = none ∧ page.me.binds = [] ∧ page.me.streams = [] ∧
    (0 : Word).getLsbD 3 = false ∧ (0x28 : Word).getLsbD 3 = true ∧ (0x28 : Word).extractLsb' 10 54 = 0 ∧
    (0x28 : Word).extractLsb' 5 5 ≠ (0 : BitVec 5) ∧ (0x428 : Word).extractLsb' 10 54 ≠ 0 ∧
    recorded.me.rep.complete = true ∧ 0 < recorded.me.rep.buf.length ∧ page.me.rep.complete = false ∧
    recording.me.rep.recording = true ∧ page.me.rep.recording = false ∧ page.me.getTm 2 = none ∧
    mapped.me.getTm 2 = some 0x1000000000000000 ∧ 4 ≤ (4 : BitVec 5).toNat ∧ ¬ 4 ≤ (3 : BitVec 5).toNat ∧
    (let m : BitVec 512 := 0x1000000000000000
     (m.extractLsb' 56 3).toNat ≤ 3 ∧ m.getLsbD 124 = false ∧ (m.extractLsb' 59 5).toNat ≤ 15 ∧
      ((m.extractLsb' 128 20).toNat + 1) * typeBits (m.extractLsb' 59 5).toNat % 128 ≠ 0) := by decide +kernel
/-- A map at the page that its checks accept, and one that they do not. -/
def mapPage : State := mem page [(0x40000000, 0x1000004000000000)]
def badMapPage : State := mem page [(0x40000000, 0xF800004000000000)]
def mapFine (ok : Bool) (pas : List Nat) (ps : List Place) (s1 : State) : Bool :=
  mapOk (BitVec.ofNat 512 (readValue s1 none ps)) false = ok
theorem wit_LoadingMaps :
    (∃ pas ps s1, Reaches mapPage 0x4000000000 64 .read .plain .copy pas ps s1 ∧ mapFine true pas ps s1 = true) ∧
    (∃ pas ps s1, Reaches badMapPage 0x4000000000 64 .read .plain .copy pas ps s1 ∧ mapFine false pas ps s1 = true) ∧
    (mapPage.me.ctl.fgmask.getLsbD 2 = false ∧ (mapPage.me.getG 4 + (0 : BitVec 11).signExtend 64 * 64).toNat % 64 = 0 ∧
    (mapPage.me.getG 5 + (0 : BitVec 11).signExtend 64 * 64).toNat % 64 ≠ 0) :=
  ⟨reaches_iff (by decide +kernel), reaches_iff (by decide +kernel), by decide +kernel⟩

/-! ## Witnesses: control registers and the system -/

theorem wit_ControlRegisters : sup.plain = true ∧ (0x011, (0 : Word)) ∈ crTable sup ∧ (0x103, (0 : Word)) ∈ crTable sup ∧
    (0x007, (0 : Word)) ∈ crTable user ∧ ¬(0x011 ≤ 0x006) ∧ sup.me.ctl.priv = 1 := by decide +kernel
theorem wit_ControlRegisterTraps : (∀ w, (0x7FF, w) ∉ crTable user) ∧ (0x001, (0 : Word)) ∈ crTable user ∧
    (0x101, (0 : Word)) ∈ crTable user ∧ user.me.ctl.priv = 0 := by
  refine ⟨fun w => ?_, by decide +kernel⟩
  simp [crTable, List.finRange]
/-- A supervisor context with g4 at the page, and an entry in its partition's supervisor queue. -/
def supPage : State := gs sup [(4, 0x4000000000)]
def queued : State := supPage.setPart 0 { supq := [⟨1, ⟨0, 0, Vector.replicate 6 0⟩⟩] }
theorem wit_SystemOperations :
    (supPage.plain = true ∧ user.me.ctl.priv = 0 ∧ supPage.partOf supPage.cur.core = 0 ∧ (supPage.part 0).supq = [] ∧
      (queued.part 0).supq ≠ [] ∧ queued.me.stores = []) ∧
    (∃ pas ps s1, Reaches supPage (supPage.me.getG 4) 64 .read .plain .copy pas ps s1 ∧
      (readValue s1 none ps = 0)) ∧
    (∃ pas ps s1, Reaches queued (queued.me.getG 4) 64 .write .plain .token pas ps s1 ∧ any_ pas ps s1 = true) ∧
    WordReaches supPage 0 ∧ WordReaches supPage 4 := by
  refine ⟨by decide +kernel, ?_, reaches_iff (by decide +kernel), .inl rfl, .inr ⟨by decide +kernel, by decide +kernel, ?_⟩⟩
  · obtain ⟨pas, ps, s1, h, p⟩ := reaches_iff (s := supPage) (va := supPage.me.getG 4) (n := 64) (acc := .read)
      (kind := .plain) (need := .copy) (P := fun pas ps s1 => readValue s1 none ps == 0) (by decide +kernel)
    exact ⟨pas, ps, s1, h, by simpa using p⟩
  · exact names_of (by decide +kernel)

/-! ## Witnesses: engines at issue -/

/-- Rings 0 and 1 of core 0's forge cover two slots of 18 KiB each, in banks of the operand role; one word is in each. -/
def ringWord (base : Nat) : Word := BitVec.ofNat 64 (base + 17 * 2 ^ 10 + 1 * 2 ^ 16)
def ring (base : Nat) : Ring := { conf := some (ringWord base), tail := 1 }
def rings : State :=
  let l := ((Vector.replicate 8 ({} : Ring)).set 0 (ring 0)).set 1 (ring 36)
  page.setForge 0 { role := 0xAAAAAAAAAAAAAAAA, rings := l }
/-- A command that pops both rings; one queued, and one started. -/
def cmd : AnvilCmd := 
  { op := .mma .s8 .s8 false false, tile := 0, ringA := 0, popA := true, ringB := 1, popB := true, ctx := 0, seq := 0 }
def cmdQueued : State := rings.setCore 0 { rings.core 0 with cmds := [cmd] }
def cmdStarted : State := rings.setCore 0 { rings.core 0 with started := [cmd] }
def cmdsFull : State := rings.setCore 0 { rings.core 0 with cmds := List.replicate 16 cmd }
theorem wit_AnvilCommands :
    rings.plain = true ∧ (ringOf rings 0).conf = some (ringWord 0) ∧ 512 + 16 * 1024 ≤ slotKib (ringWord 0) * 1024 ∧
    ¬(512 + 32 * 1024 ≤ slotKib (ringWord 0) * 1024) ∧ (ringOf rings 2).conf = none ∧ (ringOf rings 0).geom ≠ 2 ∧
    rings.here.cmds.length < 16 ∧ 16 ≤ cmdsFull.here.cmds.length ∧ (2 : BitVec 2) ≠ 3 := by decide +kernel
/-- An ACCRD that has 16 stores to make yet. -/
def lastStores : TileRead := ⟨0x4000000000, 0x40000000, 0, [], 1008⟩
def reading : State := ctx page fun x => { x with accrd := some lastStores }
theorem wit_AccumulatorInstructions :
    page.plain = true ∧ tileOwner page 0 = none ∧ (tileOwner cmdStarted 0).isSome = true ∧ tileOwner cmdStarted 1 = none ∧
    (page.me.getG 5).toNat % 256 ≠ 0 ∧ (page.me.getG 4).toNat % 256 = 0 ∧ page.me.stores.length < 16 ∧ page.me.accrd = none ∧
    page.here.accPoison.get ⟨0, by omega⟩ = [] ∧ (page.setCore 0 { page.here with accPoison := #v[[1], []] }).here.accPoison.get ⟨0, by omega⟩ = [1] ∧
    reading.me.accrd = some lastStores ∧ 1024 - lastStores.done ≤ 16 - (reading.me.stores.filter fun st => !st.isSpill).length := by
  decide +kernel
/-- Every byte of an access finds a plain place of a state that holds nothing back. -/
theorem placesOf_map {s : State} {h : BitVec 16} (f : Nat → Place) :
    ∀ l : List Nat, (∀ pa ∈ l, place s h pa = .ok (f pa)) → placesOf s h l = .ok (l.map f)
  | [], _ => rfl
  | a :: l, hl => by
    simp [placesOf, hl a (by simp), placesOf_map f l fun x hx => hl x (by simp [hx])]
/-- A byte of die 0's first 64 GiB of DRAM has its place there. -/
theorem place_die0 {s : State} {h : BitVec 16} (hp : s.pkg = 0) (hd : s.dieUp 0 = true) {a : Nat} (ha : a < 2 ^ 36) :
    place s h a = .ok (.dram (keyDram + interleaved (a % 2 ^ 48)) false) := by
  have h1 : a / 2 ^ 48 % 8 = 0 := by omega
  have h2 : a / 2 ^ 51 = 0 := by omega
  have h3 : a % 2 ^ 48 / dieBytes = 0 := by unfold dieBytes; omega
  have h4 : ¬4 * dieBytes ≤ a % 2 ^ 48 := by unfold dieBytes; omega
  simp [-Nat.reducePow, place, h1, h2, h3, h4, hp, hd]
/-- What a span of whole pages at 0x4000_0000 needs of the state its translation leaves. -/
def pageOk (s : State) (r : Except Trap (Nat × Nat × State)) : Bool :=
  match r with
  | .error _ => false
  | .ok (pa, _, s1) => pa = 0x40000000 && s1.pkg = 0 && s1.dieUp 0 && s1.bank = [] && s1.mem.poison = [] && s1.mem.lines = [] && s1.tick = s.tick
/-- The places of a span within the page, all of them in die 0's DRAM and free of what could hold an access back. -/
theorem places_page {s : State} {h : BitVec 16} {va n : Nat} {r : Except Trap (Nat × Nat × State)} (hn : n ≤ 16384)
    (hv : va % 2 ^ 14 = 0) (hr : pageOk s r = true) : ∃ pa2 s1, r = .ok (0x40000000, pa2, s1) ∧ ∃ ps,
      placesOf s1 h (spanPas va n 0x40000000 pa2) = .ok ps ∧ ∀ p ∈ ps, (∃ k, p = .dram k false) ∧ s1.blocked p = false ∧
        s1.poisoned p = false ∧ (∀ c w, s1.askFor c w p = none) ∧ ∀ c m, s1.holdsBack c m = false := by
  unfold pageOk at hr
  split at hr
  · simp at hr
  rename_i pa pa2 s1
  simp only [Bool.and_eq_true, decide_eq_true_eq] at hr
  obtain ⟨⟨⟨⟨⟨⟨rfl, hp⟩, hd⟩, hb⟩, hq⟩, hl⟩, -⟩ := hr
  have key : ∀ a ∈ spanPas va n 0x40000000 pa2, place s1 h a = .ok (.dram (keyDram + interleaved (a % 2 ^ 48)) false) := by
    intro a ha
    simp only [spanPas, List.mem_map, List.mem_range, hv] at ha
    obtain ⟨i, hi, rfl⟩ := ha
    rw [if_pos (by omega)]
    exact place_die0 hp hd (by omega)
  refine ⟨pa2, s1, rfl, _, placesOf_map _ _ key, fun p q => ?_⟩
  obtain ⟨a, -, rfl⟩ := List.mem_map.1 q
  refine ⟨⟨_, rfl⟩, ?_, ?_, fun c w => ?_, fun c m => ?_⟩
  · simp [State.blocked, Memory.line, hb, hl, Assoc.get?]
    split <;> rfl
  · simp [State.poisoned, Place.key, hq]
  · simp [State.askFor, Memory.line, hl, Assoc.get?]
  · simp [State.holdsBack, Memory.line, hl, Assoc.get?]
theorem wit_Accrd : (∃ pas ps s1, Names page 0x4000000000 16384 .write .plain pas ps s1) ∧
    ∃ pas ps s1, Reaches page 0x4000000000 16384 .read .plain .copy pas ps s1 := by
  have names (acc : Acc) (h : pageOk page (translateSpan page (.data page.cur.core) page.me.ctl.ptroot 0x4000000000 16384 acc
      page.me.ctl.priv) = true) : ∃ pas ps s1, Reaches page 0x4000000000 16384 acc .plain .copy pas ps s1 := by
    obtain ⟨pa2, s1, e, ps, hp, ok⟩ := places_page (h := page.me.ctl.hkey) (Nat.le_refl _) (by decide : (0x4000000000 : Word).toNat % 2 ^ 14 = 0) h
    refine ⟨_, ps, s1, ⟨by decide, ⟨_, _, e, rfl⟩, hp, fun p q => ?_⟩, fun p q => ?_, fun c => absurd rfl c, nofun⟩
    · obtain ⟨⟨k, rfl⟩, -⟩ := ok p q
      exact ⟨rfl, rfl⟩
    · obtain ⟨⟨k, rfl⟩, x, y, z, -⟩ := ok p q
      exact ⟨⟨k, .inr ⟨_, rfl⟩⟩, x, y, z _ _⟩
  obtain ⟨pas, ps, s1, h, -⟩ := names .write (by decide +kernel)
  exact ⟨⟨pas, ps, s1, h⟩, names .read (by decide +kernel)⟩
/-- A record of a deque entry has 64 bytes. -/
theorem fork_record_length (f : Fork) (p : BitVec 13) : (f.record p).length = 64 := by
  simp [Fork.record, toBytes]
theorem records_length (p : BitVec 13) : ∀ l : List Fork, (l.flatMap fun f => f.record p).length = 64 * l.length
  | [] => rfl
  | f :: l => by simp [fork_record_length, records_length p l]; omega
theorem spillRoom_finds : spillRoom.spillLaunch 0 = some spiller ∧ spillRoom.freeChunk spiller = some 0x4000000000 ∧
    ((spillRoom.core 0).deque.take 128).length = 128 := by decide +kernel
theorem spillRoom_page : pageOk spillRoom (translateSpan spillRoom (.engine (spillIssuer 0 spiller).eng (dieOf (spillIssuer 0 spiller).core))
      (spillIssuer 0 spiller).root (BitVec.ofNat 64 0x4000000000) 8192 .write (spillIssuer 0 spiller).priv) = true := by
  decide +kernel
/-- No place in this package's DRAM sends a flit. -/
theorem remote_none {ps : List Place} (h : ∀ p ∈ ps, ∃ k, p = .dram k false) : remotePas ps = [] := by
  unfold remotePas
  rw [List.filterMap_eq_nil_iff]
  intro p q
  obtain ⟨k, rfl⟩ := h p q
  rfl
theorem flitsReady_nil (s : State) (n : Nat) : s.flitsReady n [] = true := rfl
theorem putFlits_nil (s : State) (n : Nat) : s.putFlits n [] = s := rfl
/-- A write by an engine within the page goes through. -/
theorem engineWrite_page {s : State} {i : Issuer} {va : Nat} {l : List Byte} {full : Bool} {t : Option Tag} {f : Bool}
    (hn : l.length ≤ 16384) (hv : va % 2 ^ 14 = 0)
    (hr : pageOk s (translateSpan s (.engine i.eng (dieOf i.core)) i.root (BitVec.ofNat 64 va) l.length .write i.priv) = true) :
    ∃ r, engineWrite s i va l full t f = .ok r := by
  obtain ⟨pa2, s1, e, ps, hp, ok⟩ := places_page (h := i.hkey) hn hv hr
  have a1 : ps.all Place.forEngine = true := by
    rw [List.all_eq_true]
    intro p q
    obtain ⟨⟨k, rfl⟩, -⟩ := ok p q
    rfl
  have a2 : ps.any (·.isRemote) = false := by
    rw [List.any_eq_false]
    intro p q
    obtain ⟨⟨k, rfl⟩, -⟩ := ok p q
    simp [Place.isRemote]
  have a3 : ps.any s1.blocked = false := by
    rw [List.any_eq_false]
    intro p q
    simp [(ok p q).2.1]
  have a4 : (linesOf ps).any (s1.holdsBack none) = false := by
    rw [List.any_eq_false]
    intro l hl
    cases ps with
    | nil => simp [linesOf] at hl
    | cons p ps => simp [(ok p (by simp)).2.2.2.2]
  have a5 : ps.findSome? (s1.askFor none true) = none := by
    rw [List.findSome?_eq_none_iff]
    exact fun p q => (ok p q).2.2.2.1 _ _
  have a6 := remote_none fun p q => (ok p q).1
  unfold engineWrite engineSpan
  simp only [e, hp, a1, a2, homeWaits, a3, a4, a6, flitsReady_nil, putFlits_nil]
  simp [a5]
theorem spillRoom_length : (((spillRoom.core 0).deque.take 128).flatMap fun f => f.record spillRoom.pkg).length = 8192 := by
  simp only [records_length, spillRoom_finds.2.2]
theorem spillRoom_write : ∃ r, engineWrite spillRoom (spillIssuer 0 spiller) 0x4000000000
    (((spillRoom.core 0).deque.take 128).flatMap fun f => f.record spillRoom.pkg) false none = .ok r :=
  engineWrite_page (by rw [spillRoom_length]; decide) (by decide) (by rw [spillRoom_length]; exact spillRoom_page)
/-- The oldest entries move where a chunk is free and can be written. -/
theorem spillDeque_some {c : CoreId} {s : State} {l : Launch} {va : Nat} {r : List (Nat × Nat) × State}
    (h1 : s.spillLaunch c = some l) (h2 : s.freeChunk l = some va)
    (h3 : engineWrite s (spillIssuer c l) va (((s.core c).deque.take 128).flatMap fun f => f.record s.pkg) false none = .ok r) :
    ∃ u, spillDeque c s = some u := by
  simp [spillDeque, h1, h2, h3]
theorem wit_TaskInstructions_spill : ∃ u, spillDeque 0 spillRoom = some u :=
  let ⟨_, e⟩ := spillRoom_write
  spillDeque_some spillRoom_finds.1 spillRoom_finds.2.1 e
/-- g8 holds a ring word whose slots stand on banks of the operand role, g9 one whose reserved bits are set. -/
def ringArgs : State := gs rings [(8, ringWord 72), (9, 0x100000000), (10, 2), (11, 1)]
theorem wit_RingInstructions :
    ringArgs.plain = true ∧ (ringArgs.me.getG 9).extractLsb' 32 32 ≠ 0 ∧ (ringArgs.me.getG 8).extractLsb' 22 10 = 0 ∧
    slotBase (ringWord 72) + slotCount (ringWord 72) * slotKib (ringWord 72) ≤ 1024 ∧
    (∀ k < 36, (ringArgs.forge 0).role.extractLsb' (2 * ((72 + k) / 32)) 2 = (2 : BitVec 2)) ∧
    ringArgs.ringBusy 0 2 = false ∧ cmdQueued.ringBusy 0 0 = true ∧ (ringOf ringArgs 2).conf = none ∧
    (let r := ringOf ringArgs 0
     let free := slotCount (ringWord 0) + r.head - r.tail
     free < (ringArgs.me.getG 10).toNat ∧ (ringArgs.me.getG 11).toNat ≤ free) := by decide +kernel
/-- Two maps that CPY's checks accept; transfers of the context: none, sixteen queued, and one of each state. -/
def copying : State := ctx (gs page [(8, 0x4000000000), (9, 0x21)]) fun x =>
  { x with tm := (x.tm.set 1 (some 0x0800004000000000)).set 2 (some 0x0800004000000000) }
def issuer0 : Issuer := copying.issuer
def xfer (kind : XferKind) (st : XferState) (started : Bool) : Xfer :=
  let m : BitVec 512 := 0x0800004000000000
  { id := 1, iss := issuer0, kind := kind, block := 0x4000000000, mapw := 0x21, sm := m, dm := m, st := st, started := started }
def manyXfers : State := { copying with xfers := List.replicate 16 (xfer .cpy .queued false) }
def oneXfer (kind : XferKind) (st : XferState) (started : Bool) : State :=
  { gs copying [(8, 1)] with xfers := [xfer kind st started] }
theorem wit_TransferIssue :
    copying.plain = true ∧ (copying.me.getG 8).toNat % 64 = 0 ∧ (copying.me.getG 5).toNat % 64 ≠ 0 ∧
    (copying.me.getTm 1).isSome = true ∧ (copying.me.getTm 2).isSome = true ∧ copying.me.getTm 0 = none ∧
    (copying.me.getG 9).extractLsb' 32 32 = 0 ∧ kindOk copying .cpy 0x21 0x0800004000000000 0x0800004000000000 = true ∧
    counterBad copying .cpy 0x4000000000 = false ∧ (copying.openXfers copying.issuer).length < 16 ∧
    ¬(manyXfers.openXfers manyXfers.issuer).length < 16 ∧
    (let mine (s : State) (y : Xfer) : Bool := y.id = (s.me.getG 8).setWidth 16 && s.sameQueue y.iss s.issuer
     let may (s : State) (y : Xfer) : Bool := mine s y && y.st ≠ .complete && !(y.kind = .kvapp && y.started)
     (∀ s ∈ [oneXfer .cpy .complete true, oneXfer .kvapp .running true], s.xfers.any (mine s) = true ∧ s.xfers.any (may s) = false) ∧
     (∀ s ∈ [oneXfer .cpy .running true, oneXfer .kvapp .queued false], s.xfers.any (may s) = true) ∧
     copying.xfers.any (mine copying) = false) := by decide +kernel
/-- A grant of two ways in slices 0 and 1, not yet converted, done, and being given back. -/
def grant : Grant := { slices := [0, 1], ways := 2, word := none }
def granted (f : Grant → Grant) : State := ctx (gs page [(8, 0x400040), (9, 0x7FFF000000), (10, 0x300000002)]) fun x =>
  { x with grant := some (f grant) }
def done_ (g : Grant) : Grant := { g with done := true }
theorem wit_WaysAndRanges :
    WordReaches page 0 ∧ page.plain = true ∧ page.me.grant = none ∧
    (let r := (granted id).me.getG 10
     r.extractLsb' 6 26 = 0 ∧ r.extractLsb' 0 4 = (2 : BitVec 4) ∧ r.extractLsb' 32 32 ≠ (0 : BitVec 32)) ∧
    (granted id).me.grant = some grant ∧
    (let x := (granted done_).me
     (x.getG 8).extractLsb' 32 32 = 0 ∧ (x.getG 9).extractLsb' 48 16 = 0 ∧
      32767 + 1 = ((x.getG 9).extractLsb' 24 24).toNat + 1 + 0 ∧ grant.slices.length * grant.ways * 8192 = 32768 ∧
      x.bsops.length < 16 ∧ ¬256 < 64 + 32 ∧ 256 < 225 + 32) :=
  ⟨.inl rfl, by decide +kernel⟩
theorem wit_HeapIssue : WordReaches page 0 ∧ page.plain = true ∧ (page.me.getG 4).toNat % 64 = 0 ∧ (page.me.getG 5).toNat % 64 ≠ 0 ∧
    page.inFlight true < 16 ∧ page.inFlight false < 8 :=
  ⟨.inl rfl, by decide +kernel⟩

/-! ## Witnesses: the machine -/

theorem wit_RoundTrip : WellFormed (.add 3 4 5 0) = true ∧ WellFormed (.fcvt 5 6 0 1 5) = true := by decide +kernel
theorem wit_DecodeOnlyEncoded : decodeWord 0x00A4E00C = some (.add 3 4 5 0) ∧ decodeWord 0x0234 = some (.addCr 3 4) := by
  decide +kernel
/-- StepRunsDecoded: the placed word is what the issuing context of core 0 fetches next, and it decodes. -/
def placed : State := State.reset.withFetchWord 32 0x00A4E00C
theorem wit_StepRunsDecoded : (nextMove placed).1 = .issue 0 ∧ issuingCtx (nextMove placed).2 0 = some 0 ∧
    (match fetchWord { (nextMove placed).2 with cur := ⟨0, 0, false⟩ } with
      | .inr (w, long, _) => w == 0x00A4E00C && long
      | .inl _ => false) = true := by
  refine ⟨rfl, ?_, ?_⟩ <;> decide +kernel
/-- A replay that performs the recorded ADD next, a reserved word, an idle core, and an event that stands next. -/
def replaying : State := { ctx recorded fun x => { x with replay := some { total := 2 } } with agenda := [.replay 0] }
def idle : State := { State.reset with agenda := [.issue 0] }
def eventNext : State := { State.reset with agenda := [.event .pwrbrakeRelease] }
theorem wit_StepRunsDecoded_other : (nextMove replaying).1 = .replay 0 ∧
    (match replayWord (nextMove replaying).2 0 with
      | some (w, long, _) => long && decode32 w == some (.add 3 4 5 0)
      | none => false) = true ∧ decodeWord 0xFC00E002 = none ∧ issuingCtx (nextMove idle).2 0 = none ∧
    (nextMove eventNext).1 = .event .pwrbrakeRelease ∧ Instr.isEvent .pwrbrakeRelease = true ∧ eventNext.agenda ≠ [] := by
  refine ⟨rfl, ?_, ?_, ?_, rfl, rfl, ?_⟩ <;> decide +kernel
theorem wit_StepKeepsMemoryForm : placed.mem.wf = true ∧ goesOn (step placed) = true := by
  refine ⟨by decide +kernel, by decide +kernel⟩
/-- A step runs the word placed at reset: ADD of registers that hold 0 only moves the pc. -/
theorem test_step_runs_placed_word : (match step placed with
    | .next t => (t.ctxAt 0 0).pc == 0x4000000004 && (t.ctxAt 0 0).getG 3 == 0
    | _ => false) = true := by decide +kernel
/-- g4 is bound to q1, with and without an entry; to q5; g3 to q2. -/
def bound (q : BitVec 3) (r : BitVec 5) (l : List Vec) : State := ctx page fun x =>
  { x with binds := [⟨false, r, q⟩], q := x.q.set 1 l }
def neighbourEntry : State :=
  let s := bound 5 4 []
  s.setCore 0 { s.core 0 with nq := (s.core 0).nq.set 1 [⟨7, 1, 0, 3⟩] }
theorem wit_RegisterZeroAndQueues :
    (bound 1 4 [7]).me.owed = [] ∧ (bound 1 4 [7]).me.replay = none ∧ (bound 1 4 [7]).me.streams = [] ∧
    boundG (bound 1 4 [7]).me 4 = some 1 ∧ boundG (bound 1 4 [7]).me 5 = none ∧ (bound 1 4 [7]).me.getQ 1 = [7] ∧
    (bound 1 4 []).me.getQ 1 = [] ∧ boundG (bound 5 4 []).me 4 = some 5 ∧ neighbourEntry.here.getNq 1 ≠ [] ∧
    (bound 5 4 []).here.getNq 1 = [] ∧ boundG (bound 2 3 []).me 3 = some 2 ∧ ((bound 2 3 []).me.getQ 2).length < 8 ∧
    8 ≤ ((ctx (bound 2 3 []) fun x => { x with q := x.q.set 2 (List.replicate 8 0) }).me.getQ 2).length ∧
    (3 : BitVec 5) ∈ (ctx page fun x => { x with owed := [3] }).me.owed ∧ (3 : BitVec 5) ≠ 0 := by decide +kernel

/-! ## Witnesses: events of the memory system -/

/-- A result, where there is one, meets a condition. -/
def isOk {ε α : Type} (r : Except ε α) (P : α → Bool) : Bool :=
  match r with
  | .ok a => P a
  | .error _ => false
theorem isOk_iff {ε α : Type} {r : Except ε α} {P : α → Bool} (h : isOk r P = true) : ∃ a, r = .ok a ∧ P a = true :=
  match r, h with
  | .ok a, h => ⟨a, rfl, h⟩
def homeReady (s : State) (c : Option CoreId) (ps : List Place) : Bool := ps.all (fun p => (match p with
  | .sram _ => true
  | .dram _ _ => true
  | _ => false) && !s.blocked p && (s.askFor c true p).isNone) && (linesOf ps).all fun n => !s.holdsBack c n
theorem homeReady_iff {s : State} {c : Option CoreId} {ps : List Place} (h : homeReady s c ps = true) : HomeReady s c ps := by
  simp only [homeReady, Bool.and_eq_true, List.all_eq_true, Bool.not_eq_true', Option.isNone_iff_eq_none] at h
  refine ⟨fun p hp => ?_, h.2⟩
  obtain ⟨⟨q0, q1⟩, q2⟩ := h.1 p hp
  refine ⟨?_, q1, q2⟩
  cases p <;> simp_all
def allDram (ps : List Place) : Bool := ps.all fun p => match p with
  | .dram _ _ => true
  | _ => false
theorem wit_StorePerform : let s := buffered
    ((s.ctxAt 0 0).stores[0]? = some pendingStore ∧ (∀ o ∈ (s.ctxAt 0 0).stores, pendingStore.upTo ≤ o.serial) ∧
    s.mem.pending = [] ∧ (∀ o ∈ (s.ctxAt 0 0).stores, pendingStore.serial ≤ o.serial)) ∧
    ∃ ps, placesOf s pendingStore.hkey pendingStore.pas = .ok ps ∧ HomeReady s (some 0) ps ∧ (ps.map (·.key)).Nodup := by
  refine ⟨by decide +kernel, ?_⟩
  obtain ⟨ps, h, p⟩ := isOk_iff (r := placesOf buffered pendingStore.hkey pendingStore.pas)
    (P := fun ps => homeReady buffered (some 0) ps && decide (ps.map Place.key).Nodup) (by decide +kernel)
  simp only [Bool.and_eq_true, decide_eq_true_eq] at p
  exact ⟨ps, h, homeReady_iff p.1, p.2⟩
/-- Die 0 is fenced with a store and an NM operation buffered. -/
def fencedWork : State := { ctx buffered fun x => { x with nms := nmPending.me.nms } with
  dies := page.dies.set 0 { page.die 0 with fenced := true } }
theorem wit_Fenced_drops : (fencedWork.ctxAt 0 0).stores[0]? = some pendingStore ∧ (fencedWork.ctxAt 0 0).nms.length = 1 ∧
    fencedWork.dieUp (dieOf 0).toNat = false := by decide +kernel
/-- A spill in the store buffer, behind nothing, for a block with a free slot. -/
def spillStore : Store :=
  { serial := 0, va := 0x4000000040, pa := 0, size := 0, val := 0, upTo := 0, kind := .spill { desc := 0x400000000 } false sender.me.ctl.ptroot }
def spillWaits : State := ctx (spillBlock 0) fun x => { x with stores := [spillStore] }
theorem wit_SpillPerform : (spillWaits.ctxAt 0 0).stores[0]? = some spillStore ∧ spillWaits.dieUp (dieOf 0).toNat = true ∧
    spillWaits.storeReady (spillWaits.ctxAt 0 0) spillStore = true ∧
    ∃ h u, SpillHead.At h (spillFrom spillWaits 0 0 0 spillStore sender.me.ctl.ptroot) spillStore.va u ∧ roomy spillStore.va h u = true :=
  ⟨by decide +kernel, by decide +kernel, by decide +kernel, spillOk_iff (by decide +kernel)⟩
/-- The NM operation of `nmPending`, and the same at its bank engine. -/
def nmOp : NmOp := ⟨0, 0x4000000040, 0x40000040, .addS64, 3⟩
def atBankEngine : State := { page with bank := [(0, 0, nmOp)] }
/-- The line of that operation, and a state in which its monitor is hot. -/
def nmLine : Nat := (keyDram + interleaved 0x40000040) / 64 * 2
def nmHot : State :=
  { nmPending with mem := { nmPending.mem.setLine nmLine { at_ := some 0 } with hearth := [⟨nmLine, 0, false⟩] } }
def nmFine (s : State) (ps : List Place) : Bool :=
  homeReady s none ps && allDram ps && ps.all (fun p => !s.poisoned p) && decide (ps.map Place.key).Nodup && (match ps.head? with
    | some (.dram b l) => b / 64 * 2 + (if l then 1 else 0) == nmLine && s.atBank ((b - keyDram) / pcBytes) < 256
        && !s.ctlq.contains nmLine
    | _ => false)
theorem wit_NmPerform :
    ((∀ s ∈ [nmPending, nmHot], (s.ctxAt 0 0).nms[0]? = some nmOp ∧ (s.ctxAt 0 0).stores = []) ∧
    State.hotLine (nmPending.tokenHome nmLine) nmLine = false ∧ State.hotLine (nmHot.tokenHome nmLine) nmLine = true ∧
    nmHot.dieUp 0 = true) ∧
    (∃ ps, nmOp.places nmPending = .ok ps ∧ nmFine nmPending ps = true) ∧
    ∃ ps, nmOp.places nmHot = .ok ps ∧ nmFine nmHot ps = true :=
  ⟨by decide +kernel, isOk_iff (by decide +kernel), isOk_iff (by decide +kernel)⟩
theorem wit_BankEngineAck : let s := atBankEngine
    s.bank[0]? = some (0, 0, nmOp) ∧ (∀ y ∈ s.bank.take 0, y.2.2.lineOf s ≠ some nmLine) ∧
    ∃ ps, nmOp.places s = .ok ps ∧ (allDram ps && ps.all (fun p => !s.poisoned p) && decide (ps.map Place.key).Nodup && (match ps.head? with
      | some (.dram b l) => !s.ctlq.contains (b / 64 * 2 + if l then 1 else 0)
      | _ => false)) = true :=
  ⟨by decide +kernel, by decide +kernel, isOk_iff (by decide +kernel)⟩
/-- The first line of DRAM in motion to slice 5; lines that the host is asked about, holds, or has written back; writes to
another package that are out. -/
def line0 : Nat := keyDram / 64 * 2
def migrating : State :=
  { page with mem := { page.mem.setLine line0 { moving := some 0, last := some 5 } with hearth := [⟨line0, 0, true⟩] } }
def hostLine : State :=
  { page with ctlq := [5], mem := { page.mem.setLine line0 { asked := some true, hostBit := true } with
    pending := [(7, 1)], hostLines := [(2 ^ 44 + 3, true)] } }
theorem wit_LineMigrate : ∃ h, homeSlice line0 = some h ∧ (migrating.mem.line line0).moving.isSome = true ∧
    (migrating.mem.line line0).last = some 5 ∧ migrating.mem.resident? line0 = some ⟨line0, 0, true⟩ ∧
    migrating.mem.forwarded h < 8192 ∧ (migrating.mem.residents 5).length < migrating.sliceRoom 5 :=
  ⟨_, rfl, by decide +kernel⟩
/-- A store to an address past the fourth die's stack, an ALIASF under way with no store left, and a request to the host. -/
def absentStore : State := ctx page fun x => { x with stores := [{ pendingStore with pa := 4 * dieBytes }] }
def aliasStarted : State := ctx page fun x => { x with aliasing := some (0x4000000000, 64, false) }
def askedHost : Request := { core := 0, ctx := 0, line := 2 ^ 44, own := true, host := true }
def hostRequest : State := { page with requests := [askedHost] }
theorem wit_MemoryRest : hostLine.ctlq[0]? = some 5 ∧ 5 ∉ hostLine.ctlq.take 0 ∧ Assoc.getD hostLine.mem.pending 7 0 ≠ 0 ∧
    (hostLine.mem.line line0).asked = some true ∧ Assoc.get? hostLine.mem.hostLines (2 ^ 44 + 3) = some true ∧
    (let st : Store := { pendingStore with pa := 4 * dieBytes }
     (absentStore.ctxAt 0 0).stores[0]? = some st ∧ absentStore.storeReady (absentStore.ctxAt 0 0) st = true ∧
      absentStore.refusal 0 0 st.hkey st.pas = some 2) ∧
    (aliasStarted.ctxAt 0 0).aliasing = some (0x4000000000, 64, false) ∧ (aliasStarted.ctxAt 0 0).stores = [] ∧
    hostRequest.requests[0]? = some askedHost ∧ askedHost.host = true ∧ askedHost.ans = .waiting ∧
    (hostLine.requests.filter fun r => r.line = 7 && r.marks).length < 1 ∧ hostLine.holdsBack none ((2 ^ 44 + 3) * 2) = false ∧
    (let lines := rangeLines aliasStarted (aliasStarted.issuerFor 0 0) 0x4000000000 64
     lines.length = 1 ∧ (lines.all fun p => !aliasStarted.blocked p) = true ∧
      ((linesOf lines).all fun n => !aliasStarted.holdsBack none (n / 2 * 2) && !aliasStarted.holdsBack none (n / 2 * 2 + 1)) = true) := by decide +kernel
theorem wit_HostMem : (match hdmPlaces page 0 64 with
      | some ps => ps.all (fun p => !page.blocked p) && (ps.head?.bind (·.lineNo)).isSome
      | none => false) = true ∧
    (match hdmPlaces page 7 1 with
      | some ps => ps.all (fun p => !page.blocked p) && (linesOf ps).all (fun n => !page.holdsBack none n) && decide (ps.map Place.key).Nodup
      | none => false) = true ∧ (1 : BitVec 4) ≠ 0 ∧ 7 % 8 + (1 : BitVec 4).toNat ≤ 8 := by decide +kernel

/-! ## Witnesses: events of messages and tasks -/

/-- A message of class 16 to core 0, of a key, in the mesh of a state. -/
def toCore (cap : Nat) : Flight := { msg := ⟨0, BitVec.ofNat 64 (16 * 2 ^ 30 + cap), Vector.replicate 6 7⟩ }
def arriving (s : State) (cap : Nat) : State := { s with mesh := [toCore cap] }
def heldEntry : Entry := { msg := (toCore 0).msg, held := true }
def heldFull : State :=
  let s := withClass .unbound
  s.setCore 0 { s.core 0 with inbox := List.replicate 8 heldEntry }
def arrives (s : State) (cap : Nat) : Bool :=
  let a := arriving s cap
  let f := toCore cap
  a.mesh[0]? == some f && firstOfSender a.mesh 0 f && !a.unreachable f.msg && f.msg.pkg == a.pkg.toNat && f.msg.core == 0 &&
    (a.core 0).roomFor f.msg.vnet
theorem wit_MessageArrival : arrives (withClass .bound) 0 = true ∧ arrives (withClass .unbound) 0 = true ∧ arrives heldFull 0 = true ∧
    arrives page 1 = true ∧ (toCore 0).msg.cap = (page.core 0).pkey ∧ (toCore 1).msg.cap ≠ (page.core 0).pkey ∧
    (toCore 0).msg.cls = 16 ∧ (((withClass .bound).core 0).cls 16).state = .bound := by decide +kernel
/-- A held context with a class-7 message for it, of an action. -/
def controlled (action : Nat) : State :=
  let s := ctx sup fun x => { x with status := .held, ctl := { x.ctl with epc := 0x4000000004 } }
  s.setCore 0 { s.core 0 with control := [⟨0, 0, #v[BitVec.ofNat 64 (action * 256), 0x4000000010, 0, 0, 0, 0]⟩] }
def controls (a : Nat) : Bool := match ((controlled a).core 0).control with
  | m :: _ => m.heldCtx == 0 && m.action == a
  | [] => false
theorem wit_HeldContexts : ((controlled 0).ctxAt 0 0).status = .held ∧ ((controlled 0).ctxAt 0 0).ctl.estat.getLsbD 1 = false ∧
    controls 0 = true ∧ controls 1 = true ∧ controls 2 = true ∧ ((controlled 2).ctxAt 0 0).owed = [] ∧
    ((controlled 2).ctxAt 0 0).replaying = false := by decide +kernel
/-- Two queued messages: one on network 0, and one on network 1 to a package that is not there. -/
def farMsg : Msg := ⟨0, 0xFFF8000000400000, Vector.replicate 6 0⟩
def sending : State := ctx page fun x => { x with sendq := [{ msg := (toCore 0).msg }, { msg := farMsg }] }
theorem wit_SendqTransmit : (toCore 0).msg.vnet = 0 ∧ farMsg.vnet = 1 ∧ (sending.ctxAt 0 0).stores = [] ∧
    sending.unreachable (toCore 0).msg = false ∧ sending.unreachable farMsg = true ∧
    (sending.ctxAt 0 0).sendq = [{ msg := (toCore 0).msg }] ++ { msg := farMsg } :: [] := by decide +kernel
/-- A vector on its way, a credit, and a stream of two 64-bit numbers of which none has been fetched. -/
def moving : State := { page with vecs := [(0, 1, ⟨7, 1, 0, 3⟩)], credits := [(0, 0, 2)] }
def streamMap : BitVec 512 := 0x7800004000000000 + 1 * 2 ^ 128 + 8 * 2 ^ 256
def streaming : State := ctx page fun x => { x with streams := [{ vec := false, reg := 9, map := streamMap, q := 1 }] }
theorem wit_Neighbour_and_streams : moving.vecs[0]? = some (0, 1, ⟨7, 1, 0, 3⟩) ∧ moving.vecs.take 0 = [] ∧
    moving.credits[0]? = some (0, 0, 2) ∧ streaming.coreUp 0 = true ∧ (streaming.ctxAt 0 0).halted = false ∧
    (match (streaming.ctxAt 0 0).streams.find? (fun t => t.q = 1) with
      | some y => y.next < y.total && y.buf.length < 8 && y.buf.isEmpty && (y.elem 0).1 == 0x4000000000 && 0 < (y.elem 0).2
        && reaches { streaming with cur := ⟨0, 0, false⟩ } 0x4000000000 (y.elem 0).2 .read .plain .copy any_
      | none => false) = true := by decide +kernel
/-- Candidates of CONTEXT_SELECT on core 0: a READY context, a message, and a deque entry of class 5's kind. -/
def choosing (ready : Bool) (inbox : List Entry) (deque : List Fork) : State :=
  let s := ctx page fun x => { x with status := if ready then .ready else .free }
  s.setCore 0 { s.core 0 with classes := [(2, { state := .bound, handler := { addr := 0x4000000008, prv := 1 } })], inbox := inbox, deque := deque }
def selects (s : State) (P : Candidate → Bool) : Bool :=
  let s2 := s.refill 0
  s.coreUp 0 && [(0 : CtxId), 1, 2, 3].all (fun k => (s.ctxAt 0 k).status != .issuing) && (match s2.choose 0 with
    | some c => P c
    | none => false)
def notice2 : Entry := { msg := ⟨0, 0x80000000, #v[1, 2, 3, 4, 5, 6]⟩ }
theorem wit_ContextSelect : selects (choosing true [] []) (fun c => match c with
      | .ready k => k == 0
      | _ => false) = true ∧
    selects (choosing false [notice2] []) (fun c => match c with
      | .entry i e _ => i == 0 && e.start.isNone
      | _ => false) = true ∧
    (∀ k : CtxId, ((choosing false [] []).ctxAt 0 k).status ≠ .issuing) := by decide +kernel
/-- A context waits for a word that is empty, since the start; the same parked, with the word full. -/
def waiting (st : Status) (w : Wait) : State := { ctx fullPage fun x => { x with status := st, wait := some w } with now := 256 }
def pageWord : Nat := (keyDram + interleaved 0x40000000) / 8
theorem wit_Parking : ((waiting .issuing (.ldfEmpty pageWord)).ctxAt 0 0).wait = some (.ldfEmpty pageWord) ∧
    ((waiting .issuing (.ldfEmpty pageWord)).ctxAt 0 0).waitFrom + ((waiting .issuing .heapOps).ctxAt 0 0).ctl.parkt.toNat ≤ 256 ∧
    (waiting .parked (.ldfEmpty pageWord)).woken 0 0 (.ldfEmpty pageWord) = true ∧
    ((waiting .parked (.ldfEmpty pageWord)).ctxAt 0 0).status = .parked := by decide +kernel
/-- A launch of two cores of one forge resident in partition 0; the first core's deque holds a fork, or none. -/
def fork16 : Fork := ⟨16, 0, Vector.replicate 6 9, 0, 0, 0, 0, some 1⟩
def launchOf2 : Launch := { id := 1, q := 0, index := 0, desc := List.replicate 256 0, part := 0, prio := 5, st := .resident, root := 0, cores := [0, 1] }
def launched (done : DoneUnit) (deque : List Fork) : State :=
  let s := { (page.setPart 0 { resident := some 1 }) with launches := [launchOf2], steals := [(0, 1)], now := 4096 }
  let s := ctx s fun x => { x with status := .free }
  let s := s.setCore 0 { s.core 0 with done := done, inbox := [] }
  s.setCore 1 { s.core 1 with deque := deque }
def rootDone (kids : List CoreId) : DoneUnit := { inTree := true, children := kids, reports := [(1, 1, 0, 0, 0)], begun := 1 }
theorem wit_Stealing : let s := launched {} []
    s.launchAt 0 = some launchOf2 ∧ (s.core 0).stealing = false ∧ (s.ctxAt 0 0).status = .free ∧ (s.ctxAt 0 0).halted = false ∧
    (s.core 0).bulkFull = false ∧ (s.core 0).inbox = [] ∧ (s.core 0).deque = [] ∧ (s.core 0).spilled = [] ∧
    (s.core 0).nextSteal ≤ s.now ∧ launchOf2.victims 0 = [1] ∧ s.coreUp 0 = true ∧ s.steals[0]? = some (0, 1) ∧
    (s.core 1).spilled = [] ∧ (s.core 1).deque = [] ∧ ((launched {} [fork16]).core 1).deque = [fork16] ∧ (1 : CoreId) ≠ 0 ∧
    ((launched {} [fork16]).ctxAt fork16.core fork16.ctx).stores = [] := by decide +kernel
/-- A read by an engine within the page goes through. -/
theorem engineRead_page {s : State} {i : Issuer} {va n : Nat} (hn : n ≤ 16384) (hv : va % 2 ^ 14 = 0)
    (hr : pageOk s (translateSpan s (.engine i.eng (dieOf i.core)) i.root (BitVec.ofNat 64 va) n .read i.priv) = true) :
    ∃ r, engineRead s i va n = .ok r := by
  obtain ⟨pa2, s1, e, ps, hp, ok⟩ := places_page (h := i.hkey) hn hv hr
  have a1 : ps.all Place.forEngine = true := by
    rw [List.all_eq_true]
    intro p q
    obtain ⟨⟨k, rfl⟩, -⟩ := ok p q
    rfl
  have a2 : ps.any (·.isRemote) = false := by
    rw [List.any_eq_false]
    intro p q
    obtain ⟨⟨k, rfl⟩, -⟩ := ok p q
    simp [Place.isRemote]
  have a3 : ps.any s1.blocked = false := by
    rw [List.any_eq_false]
    intro p q
    simp [(ok p q).2.1]
  have a4 : homeWaits s1 false ps = none := by
    have : ps.findSome? (s1.askFor none false) = none := by
      rw [List.findSome?_eq_none_iff]
      exact fun p q => (ok p q).2.2.2.1 _ _
    simp only [homeWaits, a3, this, Bool.false_and, Bool.or_false]
    rfl
  have a5 : ∀ t, t = s1 → ps.any t.poisoned = false := by
    rintro t rfl
    rw [List.any_eq_false]
    intro p q
    simp [(ok p q).2.2.1]
  have a6 : ∀ l : List Place, (∀ p ∈ l, ∃ k, p = .dram k false) → (l.foldl (fun s p => match p with
      | .host k => s.fillHost (k / 64) false
      | _ => s) s1) = s1 := by
    intro l hl
    induction l with
    | nil => rfl
    | cons p l ih =>
      obtain ⟨k, rfl⟩ := hl p (by simp)
      exact ih fun p q => hl p (by simp [q])
  have a7 := a6 ps fun p q => (ok p q).1
  have a8 := remote_none fun p q => (ok p q).1
  unfold engineRead engineSpan
  simp only [e, hp, a1, a2, a8, flitsReady_nil, putFlits_nil, ne_eq, not_true_eq_false, decide_false, a4, Bool.not_true, Bool.false_and, Bool.or_false,
    Bool.false_eq_true, if_false]
  exact ⟨_, if_neg (Bool.eq_false_iff.1 (a5 _ a7))⟩
/-- The newer work of a victim stands in its spill area. -/
def chunk16 : Chunk := ⟨spillIssuer 1 spiller, 0x4000000000, [(0, 0, some 1)]⟩
def victimSpilled : State :=
  let s := { launched {} [] with steals := [] }
  s.setCore 1 { s.core 1 with spilled := [chunk16] }
theorem victimSpilled_finds : (victimSpilled.core 1).spilled = [chunk16] ∧
    pageOk victimSpilled (translateSpan victimSpilled (.engine chunk16.iss.eng (dieOf chunk16.iss.core)) chunk16.iss.root
      (BitVec.ofNat 64 chunk16.va) 8192 .read chunk16.iss.priv) = true := by decide +kernel
theorem takeOldest_some {s : State} {c : CoreId} {k : Chunk} {ok : Fork → Bool} {m : Nat × Nat × Option Nat} {r : List Byte × State}
    (h1 : (s.core c).spilled = [k]) (h2 : k.marks = [m]) (h3 : engineRead s k.iss k.va 8192 = .ok r)
    (h4 : ∀ l, ok (Fork.ofRecord l m.2.1 m.2.2) = true) : ∃ f y, s.takeOldest c ok = some (f, y) := by
  simp [State.takeOldest, h1, h2, readChunk, h3, h4]
theorem wit_Stealing_spilled : ∃ f y, victimSpilled.takeOldest 1
    (fun f => (victimSpilled.ctxAt f.core f.ctx).storesDone f.upTo) = some (f, y) :=
  let ⟨_, e⟩ := engineRead_page (by decide) (by decide) victimSpilled_finds.2
  takeOldest_some victimSpilled_finds.1 rfl e (by simp [Fork.ofRecord, Ctx.storesDone])
theorem wit_DoneWaveReport :
    (let s := launched (rootDone [1]) []
     s.launchAt 0 = some launchOf2 ∧ (s.core 0).done.inTree = true ∧ s.quiescent 0 1 = true ∧ s.coreUp 0 = true ∧
      (∀ c ∈ (s.core 0).done.children, ∃ r ∈ (s.core 0).done.reports, r.1 = c ∧ r.2.1 = (s.core 0).done.wave) ∧
      (s.core 0).done.parent = none ∧ (s.core 0).done.last ≠ some (s.core 0).done.totals) ∧
    (let d := rootDone [1]
     ({ d with last := some d.totals } : DoneUnit).last = some d.totals ∧ d.totals.1 = d.totals.2.1) ∧
    (rootDone [1]).wave ≤ (rootDone [1]).begun ∧ (launched (rootDone [1]) []).core launchOf2.root = (launched (rootDone [1]) []).core 0 ∧
    (launched { inTree := true, parent := some 1 } []).quiescent 0 1 = true := by decide +kernel
/-- An entry that has been ready for a span. -/
theorem wit_RunQueueAging : let s := { choosing false [notice2] [] with now := 4096 }
    (s.core 0).inbox[0]? = some notice2 ∧ notice2.held = false ∧ notice2.since + 4096 ≤ s.now := by decide +kernel
/-- A deque entry of a bound class, on a core of a resident launch with no other work. -/
def forked : State :=
  let s := launched {} []
  s.setCore 0 { s.core 0 with classes := [(16, { state := .bound })], deque := [fork16] }
theorem wit_ContextSelect_fork : selects forked (fun c => match c with
      | .fork f => f == fork16
      | _ => false) = true := by decide +kernel

/-! ## Witnesses: events of the engines -/

theorem wit_AnvilEvents : pushesDone cmdQueued 0 = true ∧ (∃ j < 8, headReady cmdQueued 0 j = true) ∧
    (cmdStarted.core 0).started = [cmd] := by decide +kernel
/-- A queued transfer whose block is at the page, of zeros; CPY's check passes it, and CPYKV's finds no token. -/
def queuedXfer (k : XferKind) : State := { copying with xfers := [xfer k .queued false] }
def starts (k : XferKind) (bad : Bool) : Bool :=
  let s := queuedXfer k
  let y := xfer k .queued false
  s.xfers[0]? == some y && mayStart s y && isOk (engineRead s y.iss y.block.toNat 48) fun r =>
    let z : Xfer := { y with started := true, st := .running }
    (startCode z (r.2.clearFixes z.site) != 0) == bad
theorem wit_TransferStart : starts .cpy false = true ∧ starts .cpykv true = true := by decide +kernel
/-- A CPYKV of one token through ring 0, whose slots are free: at its first position, and at the last of its tile. -/
def kv (next : Nat) : Xfer := { xfer .cpykv .running true with
  args := #v[0x4000000000, 0x100000000, 0, 0], sm := 0x9000004000000000, mapw := 0, next := next }
def filling (next word : Nat) : State :=
  let s := mem rings [(0x40000000, word)]
  { (s.setForge 0 { (s.forge 0) with rings := (Vector.replicate 8 ({ conf := some (ringWord 0) } : Ring)) }) with xfers := [kv next] }
theorem wit_CpykvPosition :
    kvSlot (kv 0) 0 (filling 0 0) = some (keySram + (slotBase (ringWord 0) + 0 % slotCount (ringWord 0) * slotKib (ringWord 0)) * 1024) ∧
    (kv 0).arg 1 / 2 ^ 32 = 1 ∧
    isOk (kvToken (kv 0) 0 (kvHeader (kv 0) 0 (filling 0 0)).2) (fun l => l.1.map (·.length) == some 64) = true ∧
    isOk (kvToken (kv 0) 0 (kvHeader (kv 0) 0 (filling 0 1)).2) (fun l => l.1.isNone) = true := by decide +kernel
theorem wit_CpykvTileFill : let s := filling 63 0
    let q := runItem (kv 63) 63 s
    s.xfers[0]? = some (kv 63) ∧ (kv 63).kind = .cpykv ∧ (kv 63).started = true ∧ (kv 63).over = false ∧
    (kv 63).next = 64 * (kv 63).pushed + 63 ∧ (kv 63).fixes = [] ∧ ((s.forge 0).ring 0).conf = some (ringWord 0) ∧
    ((s.forge 0).ring 0).free (ringWord 0) ≠ 0 ∧ q.stalled = false ∧ q.x.fixes = [] := by decide +kernel
/-- A cancelled transfer whose work is over, without and with a handler. -/
def ending (h : Word) : State := { copying with xfers := [{ xfer .cpy .cancelled true with handler := h }] }
def endsNow (h : Word) : Bool :=
  let y := { xfer .cpy .cancelled true with handler := h }
  (ending h).xfers[0]? == some y && y.over && !fixPending y.fixes &&
    ((ending h).fillWritten y).1.wordReady y.iss (some (y.block + 8))
theorem wit_TransferComplete : endsNow 0 = true ∧ endsNow 0x4000000008 = true ∧ XferState.cancelled ≠ .complete := by decide +kernel
/-- A heap with one fix-up pending, which the supervisor has made ready (STATE 010), abandoned (011), or not touched. -/
def fixup0 : Fixup := { idx := 0, page := 0x1000001, elems := [1] }
def fixing (st : Nat) : State :=
  let s := mem page [(0x40000040, 16 * st)]
  { s with heaps := [(0, { conf := some ⟨s.issuer, 0x4000000000, 0, 1, 1, 10, 0⟩, fixes := [fixup0] })] }
theorem wit_FixbellRing : fixState (fixing 2) page.issuer 0x4000000000 0 = 2 ∧
    fixState (fixing 3) page.issuer 0x4000000000 0 = 3 ∧ fixState (fixing 1) page.issuer 0x4000000000 0 < 2 ∧
    dieOf fixup0.who = 0 ∧ ((fixing 1).heap 0).fixBlock = some (page.issuer, 0x4000000000) ∧ (fixing 1).xfers = [] ∧
    fixup0.idx < 4 ∧ fixup0.elems ≠ [] := by decide +kernel
/-- A copy whose one element waits for a fix-up, in each state of its entry. -/
def fixedXfer : Xfer := { xfer .cpy .running true with next := 1, fixes := [{ idx := 0, page := 0x1000001, elems := [0] }] }
def fixingXfer (st : Nat) : State := { mem copying [(0x40000040, 16 * st)] with xfers := [fixedXfer] }
def fixRead (st : Nat) : State := (fixingXfer st).readBlock fixedXfer.site
def replayed : Ran := runItem { fixedXfer with fixes := [{ idx := 0, page := 0x1000001, again := true }] } 0
  ((fixRead 2).dropPage fixedXfer.iss 0x1000001)
theorem wit_FixbellRing_xfer : fixState (fixRead 2) fixedXfer.iss fixedXfer.block 0 = 2 ∧
    fixState (fixRead 3) fixedXfer.iss fixedXfer.block 0 = 3 ∧ fixState (fixRead 1) fixedXfer.iss fixedXfer.block 0 = 1 ∧
    fixedXfer.stopped = false ∧ (fixingXfer 2).heaps = [] ∧ dieOf fixedXfer.iss.core = 0 ∧
    replayed.stalled = false ∧ replayed.x.fixes = [{ idx := 0, page := 0x1000001, again := true }] ∧
    (replayed.s.blockWaits fixedXfer.site).isNone = true ∧ ((fixRead 3).blockWaits fixedXfer.site).isNone = true := by decide +kernel
theorem wit_Replays : Replays [0] { fixedXfer with fixes := [{ idx := 0, page := 0x1000001, again := true }] }
    ((fixRead 2).dropPage fixedXfer.iss 0x1000001) replayed.x replayed.s :=
  ⟨wit_FixbellRing_xfer.2.2.2.2.2.2.1, rfl, rfl⟩
/-- A grant with a BSOP queued; grants that wait for their conversion, for whose ways there is room or none; a grant
that is given back. -/
def bsopQueued : State := ctx (granted done_) fun x => { x with bsops := [⟨0, 8, false, 0x18100800, 0, [], none⟩] }
def noWays : State := { granted id with ways := [(0, 13, 5, 0, none)] }
def giving : State := granted fun g => { g with done := true, taking := [(none, page.issuer), (some 0x4000000000, page.issuer)] }
theorem wit_Ways : ((bsopQueued.ctxAt 0 0).bsops ≠ [] ∧ (bsopQueued.ctxAt 0 0).grant = some (done_ grant) ∧
      bsopQueued.openXfers { core := 0, ctx := 0 } = []) ∧
    (((granted id).ctxAt 0 0).grant = some grant ∧ grant.done = false ∧ ((granted id).ctxAt 0 0).stores = [] ∧
      grant.iss.upTo = 0 ∧ (granted id).wordReady grant.iss grant.word = true ∧ grant.slices.Nodup ∧
      (∀ z ∈ grant.slices, grant.ways ≤ freeWays (granted id).ways z) ∧ noWays.launches = [] ∧
      (∃ z ∈ grant.slices, freeWays noWays.ways z < grant.ways)) ∧
    ((giving.ctxAt 0 0).bsops = [] ∧ (giving.ctxAt 0 0).stores = [] ∧ giving.openXfers grant.iss = [] ∧ ((giving.ctxAt 0 0).grant.map (·.done)) = some true ∧
      giving.wordReady page.issuer none = true ∧
      giving.wordReady page.issuer (some 0x4000000000) = true) := by decide +kernel
/-- FLUSHR over a line, a shootdown of a bad block and of one page, and PARTSET forming, dissolving and re-keying a
partition of cluster 1, and one of partition 0. -/
def commands : State :=
  { page with ranges := [⟨page.issuer, true, 0x4000000000, 64, none⟩], shoots := [⟨page.issuer, none, none⟩, ⟨page.issuer, none, some (0x4000000000, 1, 0, 0, 0)⟩] }
def setBlock (op p : Nat) : BitVec 512 := BitVec.ofNat 512 (2 + 9 * 2 ^ 128 + p * 2 ^ 144 + op * 2 ^ 152)
def setting (formed : Bool) (op p : Nat) : State :=
  { (if formed then page.setPart 5 { formed := true, key := 3 } else page) with
    partops := [⟨page.issuer, none, setBlock op p⟩], clusterPart := if formed then [(1, 5)] else [] }
def sets (formed : Bool) (op p : Nat) : Bool :=
  let s := setting formed op p
  s.commandReady page.issuer && s.wordReady page.issuer none && !setBad s (setBlock op p) && setCodes s (setBlock op p) == []
theorem wit_RangesAndPartitions : commands.commandReady page.issuer = true ∧ commands.wordReady page.issuer none = true ∧
    (let lines := rangeLines commands page.issuer 0x4000000000 64
     lines ≠ [] ∧ (lines.all fun p => !commands.blocked p) = true ∧ ((linesOf lines).all fun n => !commands.holdsBack none n) = true) ∧
    commands.usesRange 0x4000000000 1 0 (fun c => commands.partOf c = commands.partOf page.issuer.core) = false ∧
    sets false 0 5 = true ∧ sets true 1 5 = true ∧ sets true 2 5 = true ∧ setBad (setting false 0 0) (setBlock 0 0) = true ∧
    setCodes (setting true 0 5) (setBlock 0 5) ≠ [] := by decide +kernel

/-! ## Witnesses: events of the heap -/

/-- A heap of two classes, each with one node; the nodes have the same signature. -/
def heapMem : State := mem page [(0x40000000, 0x200000002), (0x40000010, 0x100000000), (0x40000018, 0x100000000),
  (0x40000020, 0x100000000), (0x40000028, 0x200000000), (0x40000070, 0x100000000), (0x40000088, 0x100000000000001),
  (0x40000090, 0x100000000), (0x400000A8, 0x100000000000002)]
def heapConf : HeapConf := ⟨page.issuer, 0x4000000200, 0x4000000000, 4, 4, 10, 0⟩
def sig1 : Sig := ⟨1, 0, 0, 0, 0, 0⟩
def heaped (h : Heap) : State := { heapMem with heaps := [(0, h)] }
def work (direct : Bool) (w : Work) (buckets : List (Sig × Nat)) : State :=
  heaped { conf := some heapConf, items := [⟨1, w, 0, direct⟩], buckets := buckets }
def rootIs (s : State) (a r : Nat) : Bool := isOk (root heapConf a s) fun x => x.1 == r
theorem wit_UnionStep_reads : let s := work true (.union 1 2) []
    (s.heap 0).items[0]? = some ⟨1, .union 1 2, 0, true⟩ ∧ (s.heap 0).fixes = [] ∧ (s.heap 0).conf = some heapConf ∧
    (s.heap 0).waits 1 = false ∧ rootIs s 1 1 = true ∧ rootIs s 2 2 = true := by decide +kernel
theorem wit_UnionStep : isOk (unionStep heapConf 1 2 (work true (.union 1 2) [])) (fun r => r.1 == some []) = true ∧
    isOk (unionStep heapConf 1 1 (work false (.union 1 1) [])) (fun r => r.1 == none) = true := by decide +kernel
theorem wit_Resign : let s := work false (.resign 1) [(sig1, 2)]
    isOk (getNode heapConf 1 s) (fun r => !r.1.stale && r.1.kind == 1 && isOk (signature heapConf r.1 r.2) (fun g => g.1 == sig1)) = true ∧
    ((s.heap 0).buckets.filter fun b => b.2 ≠ 1).find? (fun b => b.1 = sig1) = some (sig1, 2) ∧
    isOk (hPut heapConf (nodeOff heapConf 1 + 6) 1 4 s) (fun r => rootIs r.2 1 1 && rootIs r.2 2 2) = true ∧
    (∀ b ∈ ((work false (.resign 1) [(sig1, 1)]).heap 0).buckets.filter fun b => b.2 ≠ 1, b.1 ≠ sig1) ∧
    isOk (getNode heapConf 3 s) (fun r => r.1.kind != 1) = true := by decide +kernel
/-- An operation of each kind, alone in its handle, with and without a configuration. -/
def op (k : HeapKind) (regs : List (BitVec 5)) : HeapOp := { iss := page.issuer, kind := k, regs := regs, tag := 1 }
def operating (o : HeapOp) (conf : Bool) : State :=
  heaped { conf := if conf then some heapConf else none, ops := [o], buckets := [(sig1, 1)] }
def opFine (o : HeapOp) (conf : Bool) : Bool :=
  let s := operating o conf
  (s.heap 0).ops[0]? == some o && opReady s (s.heap 0) 0 o && !o.spreading && o.code == 0
theorem wit_HeapOpsUnconfigured : opFine (op (.find 1) [3]) false = true ∧ opFine (op (.cfg 0) []) false = true ∧
    opFine (op (.cfg 0x4000000200) []) true = true ∧ opFine (op (.cfg 0) []) true = true ∧
    opFine (op (.cfg 0x4000000200) []) false = true ∧
    isOk (engineNum (operating (op (.cfg 0x4000000200) []) false) page.issuer 0x4000000200 128)
      (fun v => parseHeap page.issuer 0x4000000200 v.1 == none) = true := by decide +kernel
/-- A descriptor that EGCFG accepts, read from the block. -/
def descBlock : Nat := 0x4000000000 + 4 * 2 ^ 64 + 4 * 2 ^ 96 + 10 * 2 ^ 128
def cfgRead : HeapOp := { op (.cfg 0x4000000200) [] with stage := 1, blk := toBytes descBlock 128 }
theorem wit_HeapConfigured : opFine cfgRead false = true ∧ (parseHeap page.issuer 0x4000000200 (fromBytes cfgRead.blk)).isSome = true ∧
    parseHeap page.issuer 0x4000000200 (fromBytes cfgRead.blk) = some (heapConf, false) ∧
    isOk (prepareRegion heapConf false (operating cfgRead false)) (fun _ => true) = true := by decide +kernel
theorem wit_HeapOps : opFine (op (.find 2) [3]) true = true ∧
    isOk (getAlloc heapConf (operating (op (.find 2) [3]) true)) (fun r => r.1 == 2 && rootIs r.2 2 2) = true ∧
    opFine (op (.node 1) [3, 4, 5]) true = true ∧ opFine (op (.node 5) [3, 4, 5]) true = true ∧ opFine (op (.node 4) [3, 4, 5]) true = true ∧
    isOk (getNode heapConf 1 (operating (op (.node 1) [3, 4, 5]) true)) (fun r => r.1.kind == 1) = true ∧
    isOk (getNode heapConf 4 (operating (op (.node 4) [3, 4, 5]) true)) (fun r => r.1.kind != 1) = true ∧
    opFine (op (.stat 0) [3]) true = true ∧ opFine (op (.stat 3) []) true = true ∧
    isOk (getNused heapConf (operating (op (.stat 1) [3]) true)) (fun r => r.1 == 2) = true ∧
    opFine (op (.mrg 1 2) []) true = true ∧ (1 : Word).toNat % 2 ^ 32 ≠ 0 := by decide +kernel
/-- EGINS: of a leaf, by its steps; a child that no class holds; EGENUM, EGRANK and EGMATCH. -/
def insOp (stage : Nat) (r : Option Word) : HeapOp :=
  { op (.ins 0x20000 0 0) [3] with canon := if stage = 0 then none else some (0, 0, 0), result := r, stage := stage }
theorem wit_Insertion : opFine (insOp 0 none) true = true ∧ opFine (insOp 1 none) true = true ∧ opFine (insOp 2 (some 5)) true = true ∧
    isOk (insCanon heapConf 0x20000 0 0 (operating (insOp 0 none) true)) (fun r => match r.1 with
      | .ok q => q == (0, 0, 0)
      | .error _ => false) = true ∧
    isOk (insCanon heapConf 0x20001 9 0 (operating (insOp 0 none) true)) (fun r => match r.1 with
      | .ok _ => false
      | .error e => e == 2) = true ∧
    isOk (Machine.insert heapConf ((operating (insOp 1 none) true).heap 0) 0x20000 (0, 0, 0) (0, 0, 0) (operating (insOp 1 none) true))
      (fun r => r.1.again.isNone && r.1.word == 0x100000003) = true := by decide +kernel
def matching (blk : Word) (stage : Nat) : HeapOp := { op (.matchp blk 0) [] with stage := stage }
/-- A pattern of one leaf, symbol 1, and an EGMATCH of it that visits class 1 next, the only one of its range. -/
def leafPattern : List Byte := toBytes (2 ^ 80 + 8 * 2 ^ 88 + (2 ^ 16 + 2 ^ 14) * 2 ^ 128) 128
def visiting : HeapOp := { op (.matchp 0x4000001000 0x100000001) [] with stage := 1, blk := leafPattern }
theorem wit_MatchVisits : patBad leafPattern = false ∧ opFine visiting true = true ∧ visiting.binds = [] ∧
    visiting.done < ((0x100000001 : Word).extractLsb' 32 32).toNat ∧
    isOk (visitId heapConf leafPattern 1 (operating visiting true)) (fun v =>
      v.1.length == 1 && isOk (bindingMsgs v.2 visiting none 1 v.1) (fun m => m.1.length == 1)) = true := by decide +kernel
theorem wit_MatchAndRank :
    opFine (op (.enum 1 0x4000000400) [3]) true = true ∧
    isOk (enumClass heapConf (op (.enum 1 0x4000000400) [3]) 1 0x4000000400 (operating (op (.enum 1 0x4000000400) [3]) true))
      (fun _ => true) = true ∧
    opFine (op (.rank 0) []) true = true ∧ opFine (op (.rank 0x4000001000) []) true = true ∧
    isOk (engineRead (operating (op (.rank 0x4000001000) []) true) page.issuer 0x4000001000 2688) (fun r => !rankBad r.1) = true ∧
    opFine (matching 0x4000001000 0) true = true ∧ opFine (matching 0x4000001000 2) true = true ∧
    isOk (engineRead (operating (matching 0x4000001000 0) true) page.issuer 0x4000001000 128) (fun r => patBad r.1) = true := by
  decide +kernel
/-- A merge that has begun with no work left of it; a binding to send to core 0, and one to a package that is not there. -/
def merged : State := operating { op (.mrg 1 2) [] with stage := 2 } true
def bindingOp (m : Msg) : HeapOp := { matching 0x4000001000 2 with binds := [m] }
theorem wit_MergeAndBinding : (merged.heap 0).ops[0]? = some { op (.mrg 1 2) [] with stage := 2 } ∧ (merged.heap 0).items = [] ∧
    merged.wordReady page.issuer none = true ∧ (merged.heap 0).waits 1 = false ∧
    ((operating (bindingOp farMsg) true).heap 0).ops[0]? = some (bindingOp farMsg) ∧
    (operating (bindingOp farMsg) true).unreachable farMsg = true ∧
    (operating (bindingOp (toCore 0).msg) true).unreachable (toCore 0).msg = false ∧
    merged.savedLaunch page.issuer.launch = none := by decide +kernel

/-! ## Witnesses: events of launches -/

/-- A descriptor for one core of partition 5, which is cluster 1: its page tables are the page's, with a 1 GiB page behind. -/
def descriptor : List Byte := toBytes 0x100000 8 ++ toBytes 0 8 ++ toBytes 0x5050000 8 ++ toBytes 0 8 ++ toBytes 0x4000002000 8 ++
  toBytes 0x4000002100 8 ++ toBytes 0x10001 8 ++ toBytes 0x4000002200 8 ++ toBytes 0 16 ++ toBytes 0x4040000000 8 ++
  toBytes (49152 + 8 * 1048576) 8 ++ toBytes 0 160
/-- The page's tables with that entry, the done-tree entry, and the descriptor at 0x4000_1000. -/
def launchCells : List Host.Cell :=
  [(281583693076480, 1), (281583693076482, 18), (281583693076488, 123), (281583693076491, 128), (281596577976320, 1),
   (281596577976322, 17), (281622347780096, 1), (281622347780097, 16), (281622347780098, 18), (281622750433280, 123),
   (281622750433283, 64), (281647316467714, 16), (281647316467730, 5), (281647316467731, 5), (281647316467745, 32),
   (281647316467748, 64), (281647316467753, 33), (281647316467756, 64), (281647316467760, 1), (281647316467762, 1),
   (281647316467769, 34), (281647316467772, 64), (281647316467795, 64), (281647316467796, 64), (281647316467801, 192),
   (281647316467802, 128), (281648524427520, 8), (281648524427523, 128)]
/-- Queue 0 of partition 5 with a descriptor not yet copied: that one, or one of zeros further on. -/
def launching (base : Word) : State :=
  { (page.setQueue 0 { lqbase := base, lqctl := 0x8000000000053E00, lqtail := 1, cqbase := 0x40003000 }) with
    mem := { bytes := launchCells }, clusterPart := [(1, 5)] }
theorem wit_LaunchCopy_bad : let s := launching 0x40001100
    let x := s.queue 0
    x.lqctl.getLsbD 63 = true ∧ x.lqtail ≠ x.lqhead ∧
    isOk (placesOf s 0 ((List.range 256).map (0x40001100 + ·))) (fun ps => match luBytes s ps with
      | some (l, s1) => l == List.replicate 256 0 && descBad s1 x l
      | none => false) = true := by decide +kernel
/-- Addresses of one page have one walk. -/
theorem walkFrom_page {s : State} {o : List Store} {va va' : Nat} (h : va / 2 ^ 14 = va' / 2 ^ 14) :
    ∀ lvl t, walkFrom s o va t lvl = walkFrom s o va' t lvl := by
  have q (n : Nat) : va / 2 ^ (14 + n) = va' / 2 ^ (14 + n) := by rw [Nat.pow_add, ← Nat.div_div_eq_div_mul, h, Nat.div_div_eq_div_mul]
  have k : ∀ lvl, walkIndex va lvl = walkIndex va' lvl := fun lvl => by
    unfold walkIndex nbits
    split
    · rw [q 29]
    · rw [q 16]
    · rw [q 7]
    · rw [h]
  intro lvl
  induction lvl with
  | zero => intro t; simp only [walkFrom, k 0]
  | succ n ih => intro t; simp only [walkFrom, k (n + 1), ih]
theorem walk_page {s : State} {root : BitVec 48} {va va' : Nat} (h : va / 2 ^ 14 = va' / 2 ^ 14) : walk s root va = walk s root va' :=
  congrArg Prod.fst (walkFrom_page h _ _)
/-- A walk that ends in a leaf of level 2. -/
theorem walk_leaf2 {s : State} {root : BitVec 48} {va : Nat} {e3 e2 : Word}
    (h3 : readDword s [] 0 (root.toNat * 2 ^ 16 + 8 * walkIndex va 3) = .ok e3)
    (f3 : (bit e3 0 && !pteBad e3 3 && !bit e3 1) = true)
    (h2 : readDword s [] 0 (ptePa e3 + 8 * walkIndex va 2) = .ok e2)
    (f2 : (bit e2 0 && !pteBad e2 2 && bit e2 1) = true) : walk s root va = .leaf 2 e2 := by
  simp only [Bool.and_eq_true, Bool.not_eq_true'] at f3 f2
  simp only [walk, walkOwn, walkFrom, walkEntry, h3, f3, h2, f2, Nat.reduceAdd, Bool.not_true, Bool.false_eq_true, if_false, if_true]
theorem luPlace_die0 {s : State} {root : BitVec 48} {va : Nat} {acc : Acc} {l : Nat} {e : Word} (hp : s.pkg = 0)
    (hd : s.dieUp 0 = true) (hv : va < 2 ^ 56) (w : walk s root va = .leaf l e) (ha : allowed e acc 1 = true)
    (hb : ptePa e + va % pageSize l < 2 ^ 36) :
    luPlace s root va acc = some (.dram (keyDram + interleaved ((ptePa e + va % pageSize l) % 2 ^ 48)) false) := by
  unfold luPlace
  rw [if_neg (by omega), w]
  simp only [Walk.outcome, ha, if_true]
  rw [place_die0 hp hd hb]
/-- The save area's 515 pages lie in the 1 GiB page. -/
theorem save_maps {s : State} (hp : s.pkg = 0) (hd : s.dieUp 0 = true)
    (h3 : readDword s [] 0 ((0x10 : BitVec 48).toNat * 2 ^ 16 + 8 * 0) = .ok 0x110001)
    (h2 : readDword s [] 0 (ptePa 0x110001 + 8 * 257) = .ok 0x8000007B) : luMaps s 0x10 0x4040000000 8437760 .write = true := by
  simp only [luMaps, Bool.or_eq_true, Bool.and_eq_true, List.all_eq_true, List.mem_range]
  refine .inr ⟨by decide, fun k hk => ?_⟩
  have hk' : k < 516 := by omega
  generalize hva : (if k = 0 then 0x4040000000 else (0x4040000000 / 2 ^ 14 + k) * 2 ^ 14) = va
  have hva' : va = 0x4040000000 + k * 2 ^ 14 := by rw [← hva]; split <;> omega
  have i3 : walkIndex va 3 = 0 := by simp only [walkIndex, nbits]; omega
  have i2 : walkIndex va 2 = 257 := by simp only [walkIndex, nbits]; omega
  have hw : walk s 0x10 va = .leaf 2 0x8000007B :=
    walk_leaf2 (by rw [i3]; exact h3) (by decide +kernel) (by rw [i2]; exact h2) (by decide +kernel)
  have hb : ptePa 0x8000007B + va % pageSize 2 < 2 ^ 36 := by
    have : ptePa 0x8000007B = 0x80000000 := by decide
    have : va % pageSize 2 < 2 ^ 30 := Nat.mod_lt _ (by decide)
    omega
  rw [luPlace_die0 hp hd (by omega) hw (by decide +kernel) hb]
  rfl
/-- What the launch unit reads, and the state in which it checks the descriptor. -/
def copied : List Byte × State := match placesOf (launching 0x40001000) 0 ((List.range 256).map (0x40001000 + ·)) with
  | .ok ps => (luBytes (launching 0x40001000) ps).getD ([], page)
  | .error _ => ([], page)
def copiedTo : State := (copied.2.luTakes copied.1 [(8, 16 * fieldOf copied.1 16 2), (40, 4 * fieldOf copied.1 48 2)]).markEligible
theorem wit_LaunchCopy : let s := launching 0x40001000
    let x := s.queue 0
    (x.lqctl.getLsbD 63 = true ∧ x.lqtail ≠ x.lqhead ∧ copied.1 = descriptor ∧
    isOk (placesOf s 0 ((List.range 256).map (0x40001000 + ·))) (fun ps => luBytes s ps == some copied) = true) ∧
    descBad copiedTo x descriptor = false := by
  refine ⟨by decide +kernel, ?_⟩
  have h : luMaps copiedTo (descRoot descriptor) (descNum descriptor 80 8) (descNum descriptor 88 8) .write = true := by
    rw [show descRoot descriptor = 0x10 by decide +kernel, show descNum descriptor 80 8 = 0x4040000000 by decide +kernel,
      show descNum descriptor 88 8 = 8437760 by decide +kernel]
    exact save_maps (by decide +kernel) (by decide +kernel) (by decide +kernel) (by decide +kernel)
  unfold descBad descMaps
  simp only [h, Bool.and_true]
  decide +kernel
/-- Its island off, and its completion ring full. -/
def islandOff : State := { launching 0x40001000 with island := { (launching 0x40001000).island with st := .off } }
def ringFull : State := (launching 0x40001000).setQueue 0 { cqtail := 1 }
theorem wit_Doorbell : let s := launching 0x40001000
    s.islandUp = true ∧ islandOff.islandUp = false ∧ (s.queue 0).lqctl.getLsbD 63 = true ∧
    ((1 : Word) - (s.queue 0).lqhead).toNat ≤ 2 ^ ((s.queue 0).lqctl.extractLsb' 0 5).toNat ∧
    2 ^ ((s.queue 0).lqctl.extractLsb' 0 5).toNat < ((2 : Word) - (s.queue 0).lqhead).toNat ∧
    ((s.queue 0).cqtail - (s.queue 0).cqhead).toNat < 2 ^ ((s.queue 0).cqctl.extractLsb' 0 5).toNat ∧ ringFull.islandUp = true ∧
    2 ^ ((ringFull.queue 0).cqctl.extractLsb' 0 5).toNat ≤ ((ringFull.queue 0).cqtail - (ringFull.queue 0).cqhead).toNat := by
  decide +kernel
/-- Launches of that descriptor in each of their states. -/
def ofDesc (id : Nat) (prio : BitVec 6) (st : LaunchState) : Launch :=
  { id := id, q := 0, index := 0, desc := descriptor, part := 5, prio := prio, st := st, order := some 0, root := 8, cores := [8] }
def withLaunches (p : Part) (l : List Launch) : State := { ((launching 0x40001000).setPart 5 p) with launches := l }
theorem mapM_some {α β : Type} (f : α → Option β) (g : α → β) (l : List α) (h : ∀ x ∈ l, f x = some (g x)) :
    l.mapM f = some (l.map g) := by
  induction l with grind
/-- The launch unit reads bytes of one page of that space. -/
theorem luRead_page {s : State} {root : BitVec 48} {va n : Nat} {e : Word} (hp : s.pkg = 0) (hd : s.dieUp 0 = true)
    (hq : s.mem.poison = []) (hv : va % 2 ^ 14 + n ≤ 2 ^ 14 ∧ va + n ≤ 2 ^ 56) (w : walk s root va = .leaf 0 e)
    (ha : allowed e .read 1 = true) (hb : ptePa e < 2 ^ 35) : ∃ r, luRead s root va n = some r := by
  have key : ∀ i ∈ List.range n, luPlace s root (va + i) .read =
      some (.dram (keyDram + interleaved ((ptePa e + (va + i) % pageSize 0) % 2 ^ 48)) false) := fun i hi => by
    have hi := List.mem_range.1 hi
    have w' : walk s root (va + i) = .leaf 0 e := by rw [walk_page (va' := va) (by omega)]; exact w
    have : (va + i) % pageSize 0 < 2 ^ 14 := Nat.mod_lt _ (by decide)
    exact luPlace_die0 hp hd (by omega) w' ha (by omega)
  unfold luRead luBytes
  rw [mapM_some _ _ _ key]
  simp [State.poisoned, Place.key, hq, Place.forEngine]
/-- What the reads of a start need of the state. -/
def readsOk (m : State) (va : Nat) : Bool := m.pkg == 0 && m.dieUp 0 && m.mem.poison.isEmpty && walk m 0x10 va == .leaf 0 0x4000007B
theorem reads_of_ok {m : State} {va n : Nat} (h : readsOk m va = true) (hv : va % 2 ^ 14 + n ≤ 2 ^ 14 ∧ va + n ≤ 2 ^ 56) :
    ∃ r, luRead m 0x10 va n = some r := by
  simp only [readsOk, Bool.and_eq_true, beq_iff_eq, List.isEmpty_iff] at h
  exact luRead_page h.1.1.1 h.1.1.2 h.1.2 hv h.2 (by decide) (by decide)
theorem wit_LaunchStart : let s := withLaunches {} [ofDesc 3 5 .waiting]
    let m := s.markEligible
    ((m.part 5).resident = none ∧ m.noLaunch = false ∧ (∀ f ∈ m.forgesOf 5, m.forgeBusy f none = false) ∧
    m.firstLaunch 5 = some (ofDesc 3 5 .waiting)) ∧ (∃ r, luRead m 0x10 0 0 = some r) ∧
    (∃ r, luRead m 0x10 0x4000002000 128 = some r) ∧ (∃ r, luRead m 0x10 0x4000002200 64 = some r) ∧
    ((luRead m 0x10 0x4000002100 4).bind fun b => treeOf b.1 1) = some [(8, 0, true)] :=
  ⟨by decide +kernel, ⟨_, rfl⟩,
   reads_of_ok (by decide +kernel) (by decide), reads_of_ok (by decide +kernel) (by decide), by decide +kernel⟩
def postsTo (s : State) : Bool := isOk (placesOf s 0 ((List.range 32).map (0x40003000 + ·))) fun ps =>
  homeReady s none ps && decide (ps.map Place.key).Nodup
theorem wit_LaunchCompletionPost : let s := withLaunches {} [ofDesc 3 5 .finished]
    s.launches[0]? = some (ofDesc 3 5 .finished) ∧ (s.part 5).resident ≠ some 3 ∧
    (((withLaunches { resident := some 3 } [ofDesc 3 5 .finished]).part 5).resident = some 3) ∧
    ((s.queue 0).cqtail - (s.queue 0).cqhead).toNat < 2 ^ ((s.queue 0).cqctl.extractLsb' 0 5).toNat ∧
    (let f := s.setQueue 0 { s.queue 0 with cqtail := 1 }
     ¬((f.queue 0).cqtail - (f.queue 0).cqhead).toNat < 2 ^ ((f.queue 0).cqctl.extractLsb' 0 5).toNat ∧
      isOk (placesOf f 0 ((List.range 32).map fun i => 0x40003000 + 32 * (1 % 1) + i)) (fun _ => true) = true) ∧
    fieldOf descriptor 96 8 = 0 ∧ postsTo s = true := by decide +kernel
/-- The resident launch has priority 5; the one that waits has 6, or 5. -/
def contended (prio : BitVec 6) : State := withLaunches { resident := some 3 } [ofDesc 3 5 .resident, ofDesc 4 prio .waiting]
theorem wit_PreemptHalt : (contended 6).markEligible.residentOf 5 = some (ofDesc 3 5 .resident) ∧
    (contended 6).markEligible.firstLaunch 5 = some (ofDesc 4 6 .waiting) ∧ ((contended 6).markEligible.part 5).halting = false ∧
    (contended 5).markEligible.firstLaunch 5 = some (ofDesc 4 5 .waiting) := by decide +kernel
theorem wit_PreemptSave : let s := withLaunches { resident := some 3, halting := true } [ofDesc 3 5 .resident]
    s.residentOf 5 = some (ofDesc 3 5 .resident) ∧ (s.part 5).halting = true ∧ drained s (ofDesc 3 5 .resident) = true ∧
    (ofDesc 3 5 .resident).cores.Nodup := by decide +kernel
/-- A saved launch with one context that held ways. -/
def savedLaunch_ : Launch :=
  let x : Ctx := { halted := true, grant := some { slices := [0], ways := 14, word := none, done := true } }
  { ofDesc 3 5 .saved with saved := { cores := [(8, { ctx := (Vector.replicate 4 ({} : Ctx)).set 0 x })] } }
theorem wit_LaunchResume : let m := (withLaunches {} [savedLaunch_]).markEligible
    (m.part 5).resident = none ∧ m.noLaunch = false ∧ m.firstLaunch 5 = some savedLaunch_ ∧
    (match regrant m savedLaunch_ none with
      | some w => restReady m savedLaunch_ w
      | none => false) = true ∧
    savedLaunch_.heldMbx = [] ∧ savedLaunch_.heldInner = [] ∧ (∀ a ∈ savedLaunch_.saved.cores, a.1 < 8192) ∧
    (savedLaunch_.saved.cores.map (·.1)).Nodup := by decide +kernel

/-! ## Witnesses: events of the device registers -/

theorem roleAdmitted_iff (v : Word) : RoleAdmitted v ↔ (∀ b < 32, v.extractLsb' (2 * b) 2 ≠ 3) ∧
    let n := ((List.range 32).filter fun b => v.extractLsb' (2 * b) 2 = 1).length
    n = 0 ∨ n = 1 ∨ n = 2 ∨ n = 4 ∨ n = 8 ∨ n = 16 ∨ n = 32 := .rfl
/-- Ring 0's banks keep the operand role in the first word, and lose it in the second; three scratchpad banks; role 11. -/
theorem wit_FrgroleWrite : mayRole rings 0 .launchUnit = true ∧ mayRole rings 0 .user = false ∧
    RoleAdmitted 0xAAAAAAAAAAAAAAAA ∧ RoleAdmitted 1 ∧ ¬RoleAdmitted 0x15 ∧ ¬RoleAdmitted 3 ∧
    (¬∃ r ∈ (rings.forge 0).rings.toList, ∃ b ∈ (r.conf.map ringBanks).getD [],
      (rings.forge 0).role.extractLsb' (2 * b) 2 = 2 ∧ (0xAAAAAAAAAAAAAAAA : Word).extractLsb' (2 * b) 2 ≠ 2) ∧
    (∃ r ∈ (rings.forge 0).rings.toList, ∃ b ∈ (r.conf.map ringBanks).getD [],
      (rings.forge 0).role.extractLsb' (2 * b) 2 = 2 ∧ (1 : Word).extractLsb' (2 * b) 2 ≠ 2) := by
  refine ⟨by decide +kernel, by decide +kernel, (roleAdmitted_iff _).2 (by decide +kernel), (roleAdmitted_iff _).2 (by decide +kernel),
    fun h => absurd ((roleAdmitted_iff _).1 h) (by decide +kernel), fun h => absurd ((roleAdmitted_iff _).1 h) (by decide +kernel),
    by decide +kernel, by decide +kernel⟩
/-- A die in each of the states that the events name. -/
def withDie (x : Die) : State := page.setDie 0 x
theorem wit_DieEvents : page.islandUp = true ∧ (page.die 0).up = true ∧ frameOk page 0 0 = true ∧ frameOk page 0 3 = false ∧
    frameOk page 1 0 = false ∧ ((withDie { zeroing := [(0, 16384)] }).die 0).zeroing = (0, 16384) :: [] ∧
    (page.die 0).powered = true ∧ (page.die 0).fenced = false ∧ ((withDie { fenced := true }).die 0).fenced = true ∧
    ((withDie { fenced := true }).die 0).inReset = false ∧ ((withDie { fenced := true }).die 0).trip = false ∧
    ((withDie { powered := false }).die 0).powered = false ∧
    (∃ c < 128, clusterDie c = (0 : BitVec 2).toNat ∧ page.clusterPartition c = 0) := by decide +kernel
theorem wit_IslandRegisters : (0x40000 : Word).getLsbD 18 = true ∧ (0x40000 : Word).getLsbD 27 = false ∧
    (0x8040000 : Word).getLsbD 27 = true ∧ (0x8000000000000000 : Word).getLsbD 63 = true ∧
    (0x8000000000000000 : Word).getLsbD 18 = false ∧
    ({ page with island := { page.island with asked := true } } : State).island.asked = true ∧ page.island.hostUp = true := by
  decide +kernel
theorem wit_RegisterWrite : page.deviceAbsent 0x02000000 = false ∧ 0x02000000 % 8 = 0 ∧
    0x0200FFC0 = 0x02000000 + 64 * (1023 : BitVec 10).toNat ∧ (0x100 : Word).toNat % 256 = 0 ∧ (0x100 : Word).extractLsb' 48 3 = 0 ∧
    (0x3E10 : Word).extractLsb' 0 5 ≤ (16 : BitVec 5) ∧ (0x3E10 : Word).extractLsb' 8 6 ≤ (62 : BitVec 6) ∧
    page.deviceAbsent 0x08003000 = false ∧ 200 ≤ ((200 : Word).extractLsb' 0 12).toNat ∧ ((1200 : Word).extractLsb' 0 12).toNat ≤ 1200 ∧
    page.deviceAbsent 0x05000018 = false ∧ page.deviceAbsent 0x05000008 = false := by decide +kernel

/-! ## Witnesses: events of the board and the fabric -/

def late : State := { page with now := 700000 }
theorem wit_Heartbeats : late.islandUp = true ∧ (late.die 0).beat + 700000 ≤ late.now ∧ page.now < (page.die 0).beat + 700000 ∧
    (page.die 0).powered = true ∧ (page.die 0).fenced = false ∧ (page.die 0).inReset = false ∧ page.island.trigen.getLsbD 0 = true := by
  decide +kernel
/-- A die held in reset, before any start. -/
theorem wit_DieStart : let s := withDie { inReset := true, joined := false }
    s.islandUp = true ∧ (s.die 0).powered = true ∧ (s.die 0).trip = false ∧ (s.die 0).inReset = true ∧
    (∀ j < 12, (0xFFF : BitVec 12).getLsbD j = true ∧ ranLast s (13 + j) ≠ 2 ∧ ranLast s (13 + j) ≠ 5) ∧
    (0xFFE : BitVec 12).getLsbD 0 = false := by decide +kernel
/-- The island in each of its states, and one whose last start failed. -/
def withIsland (st : IslandState) (last : Byte) : State :=
  { page with island := { page.island with st := st, starts := (Vector.replicate 8 (Vector.replicate 64 0)).set 0 ((Vector.replicate 64 0).set 0 last) } }
theorem wit_Island : (withIsland .off 0).island.st = .off ∧ ranLast (withIsland .off 0) 0 ≠ 2 ∧ ranLast (withIsland .off 0) 0 ≠ 5 ∧
    ranLast (withIsland .off 2) 0 = 2 ∧ ranLast (withIsland .off 5) 0 = 5 ∧ (withIsland .reset 1).island.st = .reset ∧
    ranLast (withIsland .reset 1) 0 ≠ 2 ∧ ranLast (withIsland .reset 1) 0 ≠ 5 ∧
    ({ page with island := { page.island with hostUp := false } } : State).island.hostUp = false := by decide +kernel
theorem wit_Errors : (page.die 0).throttled ≠ true ∧ page.coreUp 0 = true ∧ page.island.trigen.getLsbD 2 = true ∧
    page.island.trigen.getLsbD 1 = true ∧ page.island.trigen.getLsbD 4 = true ∧
    isOk (place page 0 (0x40000007 / 8 * 8)) (fun p => p.key.isSome && (match p with
      | .host _ => false
      | _ => true)) = true := by decide +kernel
/-- A link that is up, and flits for it: each kind with the next sequence number and its check word, and a spoilt one. -/
def linked (l : FabricLink) : State := { page with links := page.links.set 3 l }
def flit (kind : Nat) (seq : Nat) : BitVec 576 :=
  let b := kind * 2 ^ 528 + seq * 2 ^ 532
  BitVec.ofNat 576 (b + crc32c (toBytes b 68) * 2 ^ 544)
def crcOk (f : BitVec 576) : Bool := crc32c (toBytes f.toNat 68) = (f.extractLsb' 544 32).toNat
theorem wit_Flits : (linked { up := true }).islandUp = true ∧ (linked { up := true }).stranded = false ∧ ((linked { up := true }).links.get 3).up = true ∧
    crcOk (flit 0 0) = true ∧ ((flit 0 0).extractLsb' 528 2).toNat < 1 ∧ (flit 0 0).extractLsb' 532 12 = ((linked { up := true }).links.get 3).rxSeq ∧
    (flit 0 0).extractLsb' 115 13 = (linked { up := true }).pkg ∧ crcOk (flit 1 0) = true ∧ (flit 1 0).extractLsb' 528 2 = 1 ∧
    crcOk (flit 3 4095) = true ∧ (flit 3 4095).extractLsb' 532 12 = (4095 : BitVec 12) ∧ (flit 3 4095).extractLsb' 528 2 = 3 ∧
    crcOk (flit 0 0 + 1) = false ∧ (flit 2 7).extractLsb' 528 2 = 2 := by decide +kernel
theorem wit_Links : let s := linked { up := true, sentFlits := [0, 1], replays := 15 }
    (s.links.get 3).up = true ∧ ((s.links.get 3).sentFlits.all fun g => (g.extractLsb' 532 12).toNat != 7) = true ∧
    15 ≤ (s.links.get 3).replays ∧ 14 + 1 < 16 ∧ (s.links.get 4).up = false ∧ (17 : BitVec 5).toNat < 18 ∧
    s.island.pkgValid = false ∧ s.stranded = false ∧
    ((List.finRange 12).find? fun j : Link => j.val / 4 ≠ (3 : Link).val / 4 && (s.links.get j).up) = none ∧
    (let s := { s with links := s.links.set 4 { up := true } }
     ((List.finRange 12).find? fun j : Link => j.val / 4 ≠ (3 : Link).val / 4 && (s.links.get j).up) = some 4) := by decide +kernel
def request (host : Bool) : Request := { core := 0, ctx := 0, line := 9, host := host }
def asking (host : Bool) : State := { page with requests := [request host], now := 5600000 }
theorem wit_Requests : (asking false).requests[0]? = some (request false) ∧ (request false).since = 0 ∧ 0 + 5600000 ≤ (asking false).now ∧
    (asking true).requests[0]? = some (request true) ∧
    ({ asking true with island := { page.island with hostUp := false } } : State).island.hostUp = false ∧
    ({ asking false with now := 5599999 } : State).now < 0 + 5600000 ∧ (withIsland .off 0).islandUp = false ∧
    ({ asking true with island := { page.island with flit256 := false } } : State).island.flit256 = false := by decide +kernel

/-! ## Single steps whose results the spec works out -/

/-- One instruction at a state, and a condition on the state it answers. -/
def after (i : Instr) (s : State) (P : State → Bool) : Bool :=
  match exec i s with
  | .next t => P t
  | _ => false
def fs (s : State) (l : List (BitVec 5 × Word)) : State := ctx s fun x => l.foldl (fun x p => x.setF p.1 p.2) x
/-- Chapter 5, one reciprocal, refined: 1/3 by an estimate and two refinements. -/
theorem test_frcpa_of_3 : after (.frcpa 2 1 0) (fs user [(1, 0x40400000)])
    (fun t => t.me.getF 2 == 0xFFFFFFFF3EAA0000 && t.me.ctl.fflags == 0) = true := by decide +kernel
theorem test_frcpr_of_3 : after (.frcpr 2 1 2 0 0) (fs user [(1, 0x40400000), (2, 0x3EAA0000)])
    (fun t => t.me.getF 2 == 0xFFFFFFFF3EAAAA00 && t.me.ctl.fflags == 0) = true := by decide +kernel
theorem test_frcpr_of_3_rounded : after (.frcpr 2 1 2 0 0) (fs user [(1, 0x40400000), (2, 0x3EAAAA00)])
    (fun t => t.me.getF 2 == 0xFFFFFFFF3EAAAAAB && t.me.ctl.fflags != 0) = true := by decide +kernel
/-- R133: VTHR at THR 0.5 on 0.25, -3.0, -0.0625 and 1.0. -/
theorem test_vthr : after (.vthr 7 7 4)
    (ctx user fun x => ({ x with ctl := { x.ctl with athr := 0x3F000000 } } : Ctx).setV 7 0x3F800000_BD800000_C0400000_3E800000)
    (fun t => t.me.getV 7 == 0x3F800000_00000000_C0400000_00000000 && t.me.ctl.adrop == 0x3EA00000 && t.me.ctl.adcnt == 2) = true := by
  decide +kernel
/-- R92: a sum wraps, and a 32-bit result is sign-extended. -/
theorem test_add_wraps : after (.add 3 4 5 0) (gs user [(4, 0xFFFFFFFFFFFFFFFF), (5, 1)])
    (fun t => t.me.getG 3 == 0 && t.me.pc == user.me.pc + 4) = true := by decide +kernel
theorem test_sub_word_sign_extends : after (.sub 3 4 5 1) (gs user [(4, 0), (5, 1)])
    (fun t => t.me.getG 3 == 0xFFFFFFFFFFFFFFFF) = true := by decide +kernel
/-- Chapter 2, a worked stochastic rounding: two lanes to bf16. -/
theorem test_stochastic : after (.vcvt 5 6 2 1 5)
    (ctx user fun x => ({ x with ctl := { x.ctl with rseed := 1 } } : Ctx).setV 6 0x3F80FC00_3F808000)
    (fun t => (t.me.getV 5).extractLsb' 0 32 == 0x3F813F80) = true := by decide +kernel

/-! ## Witnesses: clauses beside those above -/

/-- MisalignedAndOutside: an odd address, and one at 2^56, for forms of each sort; an offset past a region's bound. -/
theorem wit_MisalignedForms :
    (let l := memoryForms page 1 5 0 0 1 1 3 0 0 0 1
     l.length = 30 ∧ (l.filter fun f => f.aligned && f.va.toNat % f.size != 0).length = 28 ∧ l.all (fun f => f.va.toNat < 2 ^ 56 + 0) = true) ∧
    ((memoryForms (gs page [(5, 0x100000000000000)]) 1 5 0 0 1 1 3 0 0 0 1).all fun f => f.instr = .ldDCm 1 5 0 || 2 ^ 56 ≤ f.va.toNat) = true ∧
    (let s := gs region [(4, 1024)]
     s.plain = true ∧ (regionForms 1 4 0 3 3).length = 4 ∧ (s.me.ctl.region 3 >>> 56).toNat ≠ 0 ∧
      (regionForms 1 4 0 3 3).all (fun f =>
        (s.me.ctl.region 3 >>> 56).toNat * 1024 < (s.me.getG 4 + BitVec.ofNat 64 f.2).toNat) = true) := by decide +kernel
/-- RoundingModes: for SR, just below and at the sum that rounds up. -/
theorem wit_RoundingModes_sr : let S := 2 ^ ((3 : Int) - 1).toNat
    ¬65536 ≤ 5 % S * 65536 / S + 49151 ∧ 65536 ≤ 5 % S * 65536 / S + 49152 ∧ 49152 < 65536 := by decide
/-- TaskEvents: TERMINATE where a replay is stopped, and a queued message of a fenced die. -/
theorem wit_TaskEvents_rest : ((controlled 2).ctxAt 0 0).replay = none ∧
    (let s := { sending with dies := page.dies.set 0 { page.die 0 with fenced := true } }
     s.dieUp (dieOf 0).toNat = false ∧ (s.ctxAt 0 0).sendq = [] ++ { msg := (toCore 0).msg } :: [{ msg := farMsg }]) ∧
    sending.dieUp (dieOf 0).toNat = true := by decide +kernel
/-- MemoryEvents: the host's own traffic runs. -/
theorem wit_HostTraffic : hostLine.hostTraffic = true ∧ hostRequest.hostTraffic = true := by decide +kernel
/-- HeapEvents: nothing keeps the engine from the descriptor's entries, a fix-up that is open, and no operation. -/
theorem wit_HeapFixes : ((operating (op (.cfg 0x4000000200) []) false).blockWaits (heapSite 0 page.issuer 0x4000000200 page.issuer)).isNone = true ∧
    (∀ f ∈ ((operating (op (.cfg 0) []) true).heap 0).fixes, f.open_ = false) ∧ fixup0.open_ = true ∧
    ((operating (op (.cfg 0) []) true).heap 0).ops[1]? = none := by decide +kernel
/-- The engines of a heap over die 0, and the homes of two ids (R312). -/
theorem test_heap_homes : heapConf.engines.length = 32 ∧ heapConf.home 1 = 39 ∧ heapConf.home 2 = 22 := by decide +kernel
/-- LaunchEvents: a resident launch of a partition without clusters, whose save area is empty; a restore that takes nothing of
another launch. -/
def bare : Launch := { id := 3, q := 0, index := 0, desc := List.replicate 256 0, part := 9, prio := 5, st := .resident, root := 0, cores := [] }
theorem wit_PreemptSave_span : let s := { page.setPart 9 { resident := some 3, halting := true } with launches := [bare] }
    s.residentOf 9 = some bare ∧ (s.part 9).halting = true ∧ drained s bare = true ∧ bare.part = 9 ∧
    (s.spansWait [s.saveSpan bare]).isNone = true := by decide +kernel
theorem wit_LaunchResume_ways : let m := (withLaunches {} [savedLaunch_]).markEligible
    (match regrant m savedLaunch_ none with
      | some w => (m.spansWait (m.waySpans m.ways w)).isNone
      | none => false) = true := by decide +kernel
/-- PREEMPT_HALT: a core of the partition beside the done tree with a task of the launch. -/
theorem wit_PreemptHalt_beside : let m := (contended 6).markEligible
    m.partOf 9 = (ofDesc 3 5 .resident).part ∧ (9 : CoreId) ∉ (ofDesc 3 5 .resident).cores := by decide +kernel
/-- BoardEvents: a word of a heap's region, and a context's word in the host's space that a slice holds. -/
theorem wit_SoftErrors : let s := heaped { conf := some heapConf }
    (s.heap 0).conf = some heapConf ∧ (match luPlace s heapConf.iss.root ((heapConf.base.toNat + 20) / 8 * 8) .read with
      | some (.dram _ _) => true
      | _ => false) = true ∧ s.islandUp = true ∧ s.island.frozen = false := by decide +kernel
/-- FabricEvents: training skipped, by this start's entry and after a failure; a flit left over; a late reply. -/
def startEntry (k : Nat) (v : Byte) : State :=
  { page with island := { page.island with starts := page.island.starts.setIfInBounds k ((Vector.replicate 64 0).set 4 v) } }
theorem wit_FabricRest : startByte (startEntry 0 3) (3 + 1) = 3 ∧ (startByte (startEntry 1 2) 4 = 0 ∧ ranLast (startEntry 1 2) 4 = 2) ∧
    (startByte page 4 ≠ 3 ∧ ranLast page 4 ≠ 2 ∧ ranLast page 4 ≠ 5) ∧
    (let s := linked { backlog := [flit 0 0] }
     s.islandUp = true ∧ (s.links.get 3).up = false ∧ ∀ m, m ≠ 3 → (s.links.get m).backlog = []) ∧
    0 < ({ page with late := 1 } : State).late ∧ page.late = 0 ∧ page.island.frozen = false := by decide +kernel

end Sys2Proof.Tests
end

