-- ==== Sys2Proof/Proofs/ReadValue.lean ====
section
/-! SUPPORT. What a read returns, byte by byte (R2, R144); settles O15. -/
namespace Sys2Proof.Machine

theorem byteOf_fromBytes (l : List Byte) (j : Nat) : byteOf (fromBytes l) j = l.getD j 0 := by
  induction l generalizing j with
  | nil => simp [byteOf, fromBytes]
  | cons b t ih =>
    have hb : b.toNat < 256 := b.isLt
    cases j with
    | zero =>
      apply BitVec.eq_of_toNat_eq
      simp [byteOf, fromBytes]
      omega
    | succ j =>
      have hdiv : (b.toNat + 256 * fromBytes t) / 256 = fromBytes t := by omega
      simpa [byteOf, fromBytes, Nat.pow_succ', ← Nat.div_div_eq_div_mul, hdiv] using ih j

/-- The latest buffered store to a place decides (R144). -/
theorem overlay_eq (s : State) (sts : List Store) (p : Place) (b : Byte) :
    overlay s sts p b = (sts.reverse.findSome? fun st => st.byteAt s p).getD b := by
  induction sts generalizing b with
  | nil => rfl
  | cons st sts ih =>
    rw [show overlay s (st :: sts) p b = overlay s sts p ((st.byteAt s p).getD b) from rfl, ih,
      List.reverse_cons, List.findSome?_append]
    cases sts.reverse.findSome? fun st => st.byteAt s p <;>
      cases hst : st.byteAt s p <;> simp [hst]

theorem readPlace_of_stale_nil {s : State} (h : s.mem.stale = []) {p : Place} {k : Nat} (hk : p.key = some k)
    (m : Manner) : readPlace s p m = s.mem.byte k := by
  have hw : p.window.bind (Assoc.get? ([] : Assoc Word)) = none := by cases p.window <;> rfl
  simp [readPlace, hk, h, hw]

theorem oldAt_of_past_nil {s : State} (h : s.mem.past = []) (since : Nat) (p : Place) (m : Manner) :
    s.oldAt since p m = none := by
  cases hw : p.word <;> simp [State.oldAt, hw, h, Assoc.getD, Assoc.get?]

theorem bind_oldAt_eq_none {s : State} {since : Option Nat} (h : since = none ∨ s.mem.past = []) (p : Place)
    (m : Manner) : since.bind (s.oldAt · p m) = none := by
  obtain rfl | h := h
  · rfl
  · cases since with
    | none => rfl
    | some n => exact oldAt_of_past_nil h n p m

theorem State.memByte_of_no_old {s : State} {since : Option Nat} {p : Place} {k : Nat} {m : Manner}
    (hk : p.key = some k) (h : since.bind (s.oldAt · p m) = none) : s.memByte since p m = readPlace s p m := by
  cases p with
  | remote a => simp [Place.key] at hk
  | _ => simp only [State.memByte, h]

/-- Byte `j` of the number is byte `j` of the places, and that is the overlay of the context's own stores over memory. -/
theorem byteOf_readValue {s : State} {since : Option Nat} {ps : List Place} {m : Manner} {j : Nat} {p : Place} {k : Nat}
    (hp : ps[j]? = some p) (hk : p.key = some k) (hstale : s.mem.stale = []) (hsince : since = none ∨ s.mem.past = []) :
    byteOf (readValue s since ps m) j =
      (s.me.stores.reverse.findSome? fun st => st.byteAt s p).getD (s.mem.byte k) := by
  have hmem : s.memByte since p m = s.mem.byte k := by
    rw [State.memByte_of_no_old hk (bind_oldAt_eq_none hsince p m), readPlace_of_stale_nil hstale hk]
  calc byteOf (readValue s since ps m) j
      = (ps.map fun p => overlay s s.me.stores p (s.memByte since p m)).getD j 0 := byteOf_fromBytes _ j
    _ = overlay s s.me.stores p (s.mem.byte k) := by simp [List.getD_eq_getElem?_getD, hp, hmem]
    _ = _ := overlay_eq s s.me.stores p _

end Sys2Proof.Machine

namespace Sys2Proof.Settled
open Sys2Proof.Machine

/-- Settles O15: each byte of the number read is the overlay of the context's own stores over memory. -/
theorem readValue : Obligations.ReadValue :=
  fun _ _ _ _ _ _ _ hp hk hstale hsince => byteOf_readValue hp hk hstale hsince

end Sys2Proof.Settled
end

