-- ==== Sys2Proof/Proofs/ResetMemoryForm.lean ====
section
namespace Sys2Proof.Settled
open Sys2Proof.Machine

/-- Settles O50: at reset no byte is listed. -/
theorem resetMemoryForm : Obligations.ResetMemoryForm := by
  unfold Obligations.ResetMemoryForm
  rfl

end Sys2Proof.Settled
end

-- ==== Sys2Proof/Proofs/Form.lean ====
-- ==== Sys2Proof/Proofs/Form.lean ====
section
/-! SUPPORT. What it means that a result, an outcome or a computation that may fail leaves memory in its canonical form,
and the rules for putting such results together. -/

namespace Sys2Proof.Machine

/-! ## Memories -/

theorem Memory.setByte_cells {m : Memory} (h : CellsOk m.bytes) (k : Nat) (b : Byte) : CellsOk (m.setByte k b).bytes :=
  (Memory.wf_iff _).1 (Memory.setByte_wf ((Memory.wf_iff m).2 h) k b)
theorem Memory.setBytes_cells {m : Memory} (h : CellsOk m.bytes) (l : List (Nat × Byte)) : CellsOk (m.setBytes l).bytes :=
  (Memory.wf_iff _).1 (Memory.setBytes_wf ((Memory.wf_iff m).2 h) l)
theorem writeBytes_cells {m : Memory} (h : CellsOk m.bytes) (w : List (Place × Byte)) (t : Option Tag) (b : Bool := false)
    (c : Option CoreId := none) : CellsOk (writeBytes m w t b c).bytes :=
  (Memory.wf_iff _).1 (writeBytes_wf ((Memory.wf_iff m).2 h) w t b c)
@[simp] theorem setFulls_bytes (m : Memory) (ks : List Nat) (b : Bool) : (setFulls m ks b).bytes = m.bytes :=
  Memory.foldl_bytes (fun m d => Memory.setFull_bytes m d b) _ m
@[simp] theorem dropLine_bytes (m : Memory) (pa : Nat) : (dropLine m pa).bytes = m.bytes := rfl
theorem zeroWhere_cells {m : Memory} (h : CellsOk m.bytes) (p : Nat → Bool) : CellsOk (zeroWhere m p).bytes :=
  h.filter _
/-- A fold of updates that each keep the form keeps it. -/
theorem Memory.foldl_cells {α : Type} {f : Memory → α → Memory} (hf : ∀ m a, CellsOk m.bytes → CellsOk (f m a).bytes)
    (l : List α) {m : Memory} (h : CellsOk m.bytes) : CellsOk (l.foldl f m).bytes :=
  List.foldlRecOn (motive := fun m : Memory => CellsOk m.bytes) l f h fun b hb a _ => hf b a hb

/-! ## States -/

theorem State.foldl_cells {α : Type} {f : State → α → State}
    (hf : ∀ s a, CellsOk s.mem.bytes → CellsOk (f s a).mem.bytes) (l : List α) {s : State} (h : CellsOk s.mem.bytes) :
    CellsOk (l.foldl f s).mem.bytes :=
  List.foldlRecOn (motive := fun s : State => CellsOk s.mem.bytes) l f h fun b hb a _ => hf b a hb
/-- A fold of updates that each leave memory alone leaves it alone. -/
theorem State.foldl_mem {α : Type} {f : State → α → State} (hf : ∀ s a, (f s a).mem = s.mem) (l : List α) (s : State) :
    (l.foldl f s).mem = s.mem :=
  List.foldlRecOn (motive := fun t => t.mem = s.mem) l f rfl fun t ht a _ => (hf t a).trans ht

/-! ## Results of instructions -/

/-- The state that a result leaves. -/
def Res.state : Res → State
  | .ok _ s => s
  | .trap _ s => s
  | .wait _ s => s
@[simp] theorem Res.state_ok (fl : Flow) (s : State) : (Res.ok fl s).state = s := rfl
@[simp] theorem Res.state_trap (t : Trap) (s : State) : (Res.trap t s).state = s := rfl
@[simp] theorem Res.state_wait (w : Wait) (s : State) : (Res.wait w s).state = s := rfl
@[simp] theorem Res.short_state (r : Res) : r.short.state = r.state := by
  unfold Res.short
  split <;> rfl
@[simp] theorem Res.withAddr_state (r : Res) (a : Option Word) : (r.withAddr a).state = r.state := by
  unfold Res.withAddr
  split <;> rfl
theorem Res.bind_cells {r : Res} {k : State → Res} (h : CellsOk r.state.mem.bytes)
    (hk : ∀ t, CellsOk t.mem.bytes → CellsOk (k t).state.mem.bytes) : CellsOk (r.bind k).state.mem.bytes := by
  cases r with
  | ok fl s => exact hk s h
  | trap t s => exact h
  | wait w s => exact h
theorem Res.bind_mem {r : Res} {k : State → Res} (hk : ∀ t, (k t).state.mem = t.mem) : (r.bind k).state.mem = r.state.mem := by
  cases r with
  | ok fl s => exact hk s
  | trap t s => rfl
  | wait w s => rfl

/-! ## Outcomes of steps -/

/-- Where the step goes on, memory has its canonical form. -/
structure Formed (o : Host.Outcome State Fault Refusal) : Prop where
  of_next : ∀ t, o = .next t → CellsOk t.mem.bytes
@[simp] theorem formed_next (s : State) : Formed (.next s) ↔ CellsOk s.mem.bytes :=
  ⟨fun h => h.of_next s rfl, fun h => ⟨fun _ e => Host.Outcome.next.inj e ▸ h⟩⟩
@[simp] theorem formed_fault (f : Fault) : Formed (.fault f) := ⟨by simp⟩
@[simp] theorem formed_refused (r : Refusal) : Formed (.refused r) := ⟨by simp⟩
@[simp] theorem formed_finish (r : Res) : Formed (finish r) ↔ CellsOk r.state.mem.bytes := by
  cases r with
  | ok fl s => simp [retire_mem]
  | trap t s => simp [takeTrap_mem]
  | wait w s => simp [waiting_mem]

/-! ## Computations that may fail -/

/-- What a computation gives, where it succeeds, has a property. -/
structure Gives {ε α : Type} (p : α → Prop) (e : Except ε α) : Prop where
  of_ok : ∀ a, e = .ok a → p a
section
variable {ε α β : Type} {p : α → Prop} {q : β → Prop}
@[simp] theorem gives_ok (a : α) : Gives p (.ok a : Except ε α) ↔ p a :=
  ⟨fun h => h.of_ok a rfl, fun h => ⟨fun _ e => Except.ok.inj e ▸ h⟩⟩
@[simp] theorem gives_error (e : ε) : Gives p (.error e : Except ε α) := ⟨by simp⟩
theorem Gives.bind {e : Except ε α} {f : α → Except ε β} (h : Gives p e) (hf : ∀ a, p a → Gives q (f a)) :
    Gives q (e >>= f) := by
  cases e with
  | error e => exact gives_error e
  | ok a => exact hf a (h.of_ok a rfl)
end
/-- A property of the state beside a value. -/
def PairFormed {α : Type} (r : α × State) : Prop := CellsOk r.2.mem.bytes
@[simp] theorem pairFormed_mk {α : Type} (a : α) (s : State) : PairFormed (a, s) ↔ CellsOk s.mem.bytes := Iff.rfl
theorem Gives.cells {ε α : Type} {e : Except ε (α × State)} (h : Gives PairFormed e) {a : α} {s : State} (he : e = .ok (a, s)) :
    CellsOk s.mem.bytes :=
  h.of_ok _ he

end Sys2Proof.Machine
end

-- ==== Sys2Proof/Proofs/FormCore.lean ====
-- ==== Sys2Proof/Proofs/FormCore.lean ====
section
/-! SUPPORT. The shared operations of a core keep the canonical form of memory: operands, translation, acquiring, lines that
are not here, accesses, stores performed and fetching. -/

namespace Sys2Proof.Machine

/-! ## Notices, links and counts -/

@[simp] theorem State.freeze_mem (s : State) (k : Nat) : (s.freeze k).mem = s.mem := by
  unfold State.freeze
  split
  · rfl
  · simp
@[simp] theorem State.refusedNotice_mem (s : State) (c : CoreId) (k : CtxId) (i : Nat) (va : Word) (m : Option Msg) :
    (s.refusedNotice c k i va m).mem = s.mem := State.notice_mem ..
@[simp] theorem State.containment_mem (s : State) (c : CoreId) (k : CtxId) (r : Nat) (m : Msg) :
    (s.containment c k r m).mem = s.mem := by
  simp only [State.containment]
  repeat' split
  all_goals simp
@[simp] theorem State.setLink_mem (s : State) (l : Link) (x : FabricLink) : (s.setLink l x).mem = s.mem := rfl
@[simp] theorem State.putFlit_mem (s : State) (l : Link) (p v : Nat) (e : Bool) (a : Option Link) :
    (s.putFlit l p v e a).mem = s.mem := rfl
@[simp] theorem State.takeCredit_mem (s : State) (l : Link) (k : Fin 12) : (s.takeCredit l k).mem = s.mem := rfl
@[simp] theorem State.putInternal_mem (s : State) (d v : Nat) : (s.putInternal d v).mem = s.mem := State.transmit_mem ..
@[simp] theorem State.sendOut_mem (s : State) (m : Msg) (w : Option (CoreId × CtxId)) : (s.sendOut m w).mem = s.mem := by
  simp only [State.sendOut]
  repeat' split
  all_goals simp
@[simp] theorem State.setLaunch_mem (s : State) (x : Launch) : (s.setLaunch x).mem = s.mem := rfl
@[simp] theorem State.sendFor_mem (s : State) (l : Option Nat) (m : Flight) : (s.sendFor l m).mem = s.mem := by
  unfold State.sendFor
  split <;> rfl
@[simp] theorem State.countSent_mem (s : State) (c : CoreId) (l : Option Nat) (n : Nat) : (s.countSent c l n).mem = s.mem := by
  unfold State.countSent
  split <;> rfl
@[simp] theorem State.countStarted_mem (s : State) (c : CoreId) : (s.countStarted c).mem = s.mem := rfl
@[simp] theorem State.countIf_mem (s : State) (b : Bool) (c : CoreId) (l : Option Nat) (n : Nat) :
    (s.countIf b c l n).mem = s.mem := by
  unfold State.countIf
  split
  · exact State.countSent_mem ..
  · rfl
@[simp] theorem State.startIf_mem (s : State) (b : Bool) (c : CoreId) : (s.startIf b c).mem = s.mem := by
  unfold State.startIf
  split <;> rfl
@[simp] theorem State.ask_bytes (s : State) (w : Bool) (n : Nat) : (s.ask w n).mem.bytes = s.mem.bytes := by
  simp only [State.ask]
  split <;> rfl

/-! ## Operands -/

@[simp] theorem State.setOutst_mem (s : State) (c : CoreId) (k : CtxId) (d : BitVec 2) (f : Nat → Nat) :
    (s.setOutst c k d f).mem = s.mem := rfl
@[simp] theorem popReg_mem (v : Bool) (r : BitVec 5) (s : State) : (popReg v r s).state.mem = s.mem := by
  simp only [popReg]
  repeat' split
  all_goals rfl
@[simp] theorem checkWrite_mem (w : Nat) (v : Bool) (r : BitVec 5) (s : State) : (checkWrite w v r s).state.mem = s.mem := by
  unfold checkWrite
  repeat' split
  all_goals rfl
/-- Steps made one after the other, each of which leaves memory alone. -/
theorem Res.foldl_bind_mem {α : Type} {f : α → State → Res} (hf : ∀ a s, (f a s).state.mem = s.mem) (l : List α) (r : Res) :
    (l.foldl (fun r a => r.bind (f a)) r).state.mem = r.state.mem :=
  List.foldlRecOn (motive := fun x : Res => x.state.mem = r.state.mem) l _ rfl fun _ hx a _ => (Res.bind_mem (hf a)).trans hx
@[simp] theorem prepare_mem (w : Nat) (rd wr : List Reg) (a : Bool) (s : State) : (prepare w rd wr a s).state.mem = s.mem := by
  unfold prepare
  repeat' split
  iterate 3 rfl
  exact (Res.foldl_bind_mem (fun x : Reg => checkWrite_mem w x.vec x.num) _ _).trans
    (Res.foldl_bind_mem (fun x : Reg => popReg_mem x.vec x.num) _ _)
@[simp] theorem undoPops_mem (s t : State) (p : Option Trap) : (undoPops s t p).mem = t.mem := by
  simp only [undoPops]
  split
  · rfl
  · simp only [State.setHere_mem, State.setMe_mem]
    rw [State.foldl_mem]
    exact fun _ _ => rfl
@[simp] theorem Res.precise_mem (s : State) (r : Res) : (r.precise s).state.mem = r.state.mem := by
  cases r with
  | ok fl t => rfl
  | trap t u => exact undoPops_mem ..
  | wait w u => exact undoPops_mem ..
section
variable {s : State} {k : State → Res} (h : CellsOk s.mem.bytes) (hk : ∀ t, CellsOk t.mem.bytes → CellsOk (k t).state.mem.bytes)
include h hk
/-- An instruction over registers keeps the form where its meaning does. -/
theorem withRegs_formed (w : Nat) (rd wr : List Reg) : Formed (withRegs w rd wr s k) := by
  rw [withRegs, formed_finish, Res.precise_mem]
  exact Res.bind_cells (by simpa using h) hk
theorem withAcc_formed (w : Nat) (rd wr : List Reg) : Formed (withAcc w rd wr s k) := by
  rw [withAcc, formed_finish, Res.precise_mem]
  exact Res.bind_cells (by simpa using h) hk
end

/-! ## Translation -/

@[simp] theorem cacheTrail_mem (s : State) (l : List TlbHome) (r : BitVec 48) (va : Nat) (t : Trail) :
    (cacheTrail s l r va t).mem = s.mem := rfl
theorem translate_mem (s : State) (v : Via) (r : BitVec 48) (va : Word) (a : Acc) (p : BitVec 1) :
    Gives (fun q => q.2.mem = s.mem) (translate s v r va a p) := by
  simp only [translate]
  repeat' split
  all_goals simp
theorem translateSpan_mem (s : State) (v : Via) (r : BitVec 48) (va : Word) (n : Nat) (a : Acc) (p : BitVec 1) :
    Gives (fun q => q.2.2.mem = s.mem) (translateSpan s v r va n a p) := by
  unfold translateSpan
  split
  · simp
  · next pa s1 e =>
    have e1 : s1.mem = s.mem := (translate_mem ..).of_ok _ e
    split
    · simpa using e1
    · simp only
      split
      · simp
      · next pa2 s2 e' =>
        have e2 : s2.mem = s1.mem := (translate_mem ..).of_ok _ e'
        simpa [e1] using e2

/-! ## Acquiring (R298 to R303) -/

@[simp] theorem State.acquired_mem (s : State) (t : Nat) : (s.acquired t).mem = s.mem := by
  unfold State.acquired
  split <;> rfl
@[simp] theorem State.reportMiss_mem (s : State) (t : Tag) (w : BitVec 11) (v : Word) (n : Nat) (who : Word)
    (src : CoreId × CtxId) (b : Bool) : (s.reportMiss t w v n who src b).mem = s.mem := by
  simp only [State.reportMiss]
  repeat' split
  all_goals simp
@[simp] theorem acquireTag_mem (sc : Nat) (w : BitVec 11) (v : Word) (t : Tag) (c : Bool) (s : State) (f : Bool) :
    (acquireTag sc w v t c s f).mem = s.mem := by
  simp only [acquireTag]
  repeat' split
  all_goals simp
@[simp] theorem State.dropProxies_bytes (s : State) (n : Nat) : (s.dropProxies n).mem.bytes = s.mem.bytes := by
  unfold State.dropProxies
  split <;> rfl
@[simp] theorem State.noteFloor_mem (s : State) (a : Option Nat) (p : Place) (m : Manner) : (s.noteFloor a p m).mem = s.mem := by
  simp only [State.noteFloor]
  repeat' split
  all_goals rfl
@[simp] theorem State.foldl_noteFloor_mem (l : List Place) (s : State) (a : Option Nat) (m : Manner) :
    (l.foldl (fun s p => s.noteFloor a p m) s).mem = s.mem :=
  State.foldl_mem (fun s p => State.noteFloor_mem s a p m) l s
@[simp] theorem noteRead_bytes (a : Option Nat) (pas : List Nat) (ps : List Place) (s : State) (x y z : Bool) :
    (noteRead a pas ps s x y z).mem.bytes = s.mem.bytes := by
  simp only [noteRead]
  split
  all_goals
    simp only [State.dropProxies_bytes, State.foldl_noteFloor_mem]
    rw [State.foldl_mem]
    intro s p
    apply State.foldl_mem
    intro s t
    repeat' split
    all_goals simp
@[simp] theorem State.foldl_fetchLine_bytes (l : List Nat) (s : State) :
    (l.foldl (fun s n => s.fetchLine s.cur.core n) s).mem.bytes = s.mem.bytes :=
  State.foldl_bytes (fun s n => State.fetchLine_bytes s _ n) l s
@[simp] theorem State.foldl_shareLine_bytes (l : List Nat) (s : State) :
    (l.foldl (fun s n => s.shareLine s.cur.core n) s).mem.bytes = s.mem.bytes :=
  State.foldl_bytes (fun s n => State.shareLine_bytes s _ n) l s
@[simp] theorem State.foldl_takeToken_bytes (l : List Nat) (s : State) :
    (l.foldl (fun s n => s.takeToken s.cur.core n) s).mem.bytes = s.mem.bytes :=
  State.foldl_bytes (fun s n => State.takeToken_bytes s _ n) l s
@[simp] theorem plainRead_bytes (a : Option Nat) (pas : List Nat) (ps : List Place) (s : State) (x y : Bool) :
    (plainRead a pas ps s x y).mem.bytes = s.mem.bytes := by
  simp [plainRead]

/-! ## Lines that are not here -/

@[simp] theorem State.dropRequest_mem (s : State) (n : Nat) (a b : Bool) : (s.dropRequest n a b).mem = s.mem := by
  unfold State.dropRequest
  split <;> rfl
@[simp] theorem State.answer_bytes (s : State) (k : Nat) (a : Answer) : (s.answer k a).mem.bytes = s.mem.bytes := by
  unfold State.answer
  split
  · rfl
  · simp only
    split
    · exact Memory.acked_bytes ..
    · rfl
@[simp] theorem State.giveUp_bytes (s : State) (k : Nat) : (s.giveUp k).mem.bytes = s.mem.bytes := State.answer_bytes ..
@[simp] theorem State.cutRequests_bytes (s : State) (g : Request → Bool) : (s.cutRequests g).mem.bytes = s.mem.bytes :=
  Memory.foldl_bytes (fun m _ => Memory.acked_bytes m _) _ _
/-- A host line that comes to the package brings its bytes in the canonical form. -/
theorem State.fillHost_cells {s : State} (h : CellsOk s.mem.bytes) (n : Nat) (b : Bool) : CellsOk (s.fillHost n b).mem.bytes := by
  simp only [State.fillHost]
  split
  · exact h
  · refine Memory.foldl_cells (fun m d hm => ?_) _ h
    exact Memory.setBytes_cells hm _
@[simp] theorem fillProxy_bytes (n : Nat) (s : State) : (fillProxy n s).mem.bytes = s.mem.bytes := by
  unfold fillProxy
  split
  · rfl
  · simp only
    rw [Memory.foldl_bytes]
    · exact State.reside_bytes ..
    · exact fun _ _ => rfl
@[simp] theorem State.dropAnswers_mem (s : State) (f : Bool) : (s.dropAnswers f).mem = s.mem := by
  simp only [State.dropAnswers]
  split <;> rfl
section
variable {k : State → Res} (hk : ∀ t, CellsOk t.mem.bytes → CellsOk (k t).state.mem.bytes)
include hk
theorem needLine_cells {s : State} (h : CellsOk s.mem.bytes) (p : Place) (n : Need) :
    CellsOk (needLine p n s k).state.mem.bytes := by
  have send : ∀ (r : Request) (out : List Nat), CellsOk (Res.state (if !s.flitsReady 0 out then .wait .interlock s else
      .wait .reply { s.putFlits 0 out with
        requests := (s.putFlits 0 out).requests ++ [r]
        mem := if r.marks then (s.putFlits 0 out).mem.markPending r.line else (s.putFlits 0 out).mem })).mem.bytes := by
    intro r out
    split
    · exact h
    · simp only [Res.state_wait, State.putFlits_mem]
      split
      · exact h
      · exact h
  have dropped (a : Nat) (b c : Bool) : CellsOk (s.dropRequest a b c).mem.bytes := by simpa using h
  unfold needLine
  dsimp only
  cases p with
  | remote pa =>
    dsimp only
    split
    · split
      · exact h
      · exact h
      · exact dropped ..
      · exact dropped ..
      · split
        · exact hk _ h
        split
        · exact hk _ (dropped ..)
        · exact dropped ..
    · split
      · exact send ..
      split
      · exact h
      split
      · exact hk _ h
      · exact send ..
  | host key =>
    dsimp only
    split
    all_goals
      split
      · exact hk _ (dropped ..)
      split
      · exact send ..
      split
      · exact dropped ..
      · exact dropped ..
      · exact dropped ..
      · exact h
  | _ => exact hk _ h
theorem needLines_cells (l : List Place) (n : Need) {s : State} (h : CellsOk s.mem.bytes) :
    CellsOk (needLines l n s k).state.mem.bytes := by
  induction l generalizing s with
  | nil => exact hk s h
  | cons p t ih => exact needLine_cells (fun _ => ih) h p n
end

/-! ## Accesses -/

/-- An access keeps the form where what it goes on to do does. -/
theorem access_cells {s : State} (h : CellsOk s.mem.bytes) {k : List Nat → List Place → Nat → State → Res}
    (hk : ∀ a b c t, CellsOk t.mem.bytes → CellsOk (k a b c t).state.mem.bytes) (va : Word) (n : Nat) (acc : Acc) (kind : Kind)
    (sc : Nat) (posted : Bool) (need : Need) (hold : Bool) :
    CellsOk (access va n acc kind sc posted need s k hold).state.mem.bytes := by
  simp only [access]
  split
  · exact h
  · next pa pa2 s1 e =>
    have e1 : s1.mem = s.mem := (translateSpan_mem ..).of_ok _ e
    have h1 : CellsOk s1.mem.bytes := e1 ▸ h
    repeat' split
    case h_2 => exact needLines_cells (fun t ht => hk _ _ _ _ (by simpa using ht)) _ _ h1
    all_goals simp [h, h1, hk]
@[simp] theorem bufferStore_mem (va : Word) (n : Nat) (v : Vec) (k : StoreKind) (r : Option (BitVec 3)) (pa pa2 : Nat)
    (s : State) : (bufferStore va n v k r pa pa2 s).state.mem = s.mem := by
  simp only [bufferStore]
  split <;> rfl

/-! ## Stores performed (R289) -/

theorem writeThrough_cells {s : State} (h : CellsOk s.mem.bytes) (c : CoreId) (k : CtxId) (w : List (Place × Byte))
    (t : Option Tag) : CellsOk (writeThrough c k w t s).mem.bytes :=
  (Memory.wf_iff _).1 (writeThrough_wf ((Memory.wf_iff _).2 h) c k w t)
theorem performStore_cells {s : State} (h : CellsOk s.mem.bytes) (c : CoreId) (k : CtxId) (st : Store) (ps : List Place) :
    CellsOk (performStore c k st ps s).mem.bytes := by
  simp only [performStore]
  have made : CellsOk (if st.va.toNat % st.size = 0 then
      writeThrough c k (st.bytes ps) (tagFor c k st.launch st.rel st.va) s
    else (anyOrder s.tick (st.bytes ps)).foldl (fun s b => writeThrough c k [b] (tagFor c k st.launch st.rel st.va) s)
      s).mem.bytes := by
    split
    · exact writeThrough_cells h ..
    · exact State.foldl_cells (fun s b hs => writeThrough_cells hs ..) _ h
  split
  · exact made
  · simpa using made
  · simpa using made
  · exact made
@[simp] theorem State.dropStore_mem (s : State) (c : CoreId) (k : CtxId) (n : Nat) : (s.dropStore c k n).mem = s.mem := rfl
theorem drainOwn_cells (n : Nat) {s t : State} (h : CellsOk s.mem.bytes) (e : drainOwn n s = some t) : CellsOk t.mem.bytes := by
  induction n generalizing s with
  | zero =>
    simp only [drainOwn] at e
    split at e <;> simp_all
  | succ n ih =>
    simp only [drainOwn] at e
    repeat' split at e
    all_goals try simp at e
    · exact e ▸ h
    · exact ih (s := State.dropStore ..) (by simpa using performStore_cells h _ _ _ _) e

/-! ## Fetching (R69) -/

theorem fetchHalf_cells {s : State} (h : CellsOk s.mem.bytes) (va : Word) (b : Bool) :
    CellsOk (Sum.elim Res.state (·.2) (fetchHalf s va b)).mem.bytes := by
  simp only [fetchHalf]
  split
  · exact h
  · next pa s1 e =>
    have e1 : s1.mem = s.mem := (translate_mem ..).of_ok _ e
    have h1 : CellsOk s1.mem.bytes := e1 ▸ h
    have here : ∀ (p : Place) (a : Option Word),
        CellsOk ((needLine p .fetch s1 fun s2 => .ok .own s2).withAddr a).state.mem.bytes := fun p a => by
      rw [Res.withAddr_state]
      exact needLine_cells (k := .ok .own) (fun t ht => ht) h1 p .fetch
    split
    · exact h
    split
    · exact h
    split
    · exact h
    split
    · exact h
    split
    · simpa using h1
    split
    · next fl s2 e2 =>
      have h2 := e2 ▸ here _ _
      simpa using h2
    · exact here _ _
theorem fetchWord_cells {s : State} (h : CellsOk s.mem.bytes) : CellsOk (Sum.elim Res.state (·.2.2) (fetchWord s)).mem.bytes := by
  have first := fetchHalf_cells h s.me.pc false
  simp only [fetchWord]
  split
  · next r e => simpa [e] using first
  · next n s1 e =>
    have h1 : CellsOk s1.mem.bytes := by simpa [e] using first
    have second := fetchHalf_cells h1 (s1.me.pc + 2) true
    split
    · split
      · next r e2 =>
        rw [e2] at second
        exact second
      · next n2 s2 e2 =>
        rw [e2] at second
        simpa using second
    · simpa using h1

end Sys2Proof.Machine
end

-- ==== Sys2Proof/Proofs/FormInstr.lean ====
-- ==== Sys2Proof/Proofs/FormInstr.lean ====
section
/-! SUPPORT. The instructions of a core keep the canonical form of memory: integers, floating point, vectors, control,
memory, messages, queues, control registers, and what they issue to the engines. -/

namespace Sys2Proof.Machine

/-! ## Integers, addresses and control (R92 to R111) -/

/-- An instruction that changes registers alone keeps the form. -/
theorem regs_formed {s : State} (h : CellsOk s.mem.bytes) {k : State → Res} (hk : ∀ t, (k t).state.mem = t.mem) (w : Nat)
    (rd wr : List Reg) : Formed (withRegs w rd wr s k) :=
  withRegs_formed h (fun t ht => by rwa [hk t]) w rd wr
section
variable {s : State} (h : CellsOk s.mem.bytes)
include h
theorem int3_formed (n w : Nat) (d a b : BitVec 5) (b32 : BitVec 1) (f : Nat → Int → Int → Int → Int → Int) :
    Formed (int3 n w d a b b32 f s) :=
  regs_formed h (fun _ => by simp) _ _ _
theorem int2_formed (w : Nat) (d a : BitVec 5) (b32 : BitVec 1) (f : Nat → Nat → Nat) : Formed (int2 w d a b32 f s) :=
  regs_formed h (fun _ => by simp) _ _ _
theorem intImm_formed (n w : Nat) (d a : BitVec 5) (b32 : BitVec 1) (i : Word) (f : Nat → Int → Int → Int → Int → Int) :
    Formed (intImm n w d a b32 i f s) :=
  regs_formed h (fun _ => by simp) _ _ _
theorem execLeaRegion_formed (d a : BitVec 5) (n : BitVec 4) (o : BitVec 7) : Formed (execLeaRegion d a n o s) := by
  refine withRegs_formed h (fun t ht => ?_) _ _ _
  dsimp only
  split
  · simpa using ht
  · exact ht
theorem jumpTo_cells (t : Int) {k : State → State} (hk : (k s).mem = s.mem) : CellsOk (jumpTo t s k).state.mem.bytes := by
  unfold jumpTo
  split
  · exact h
  · split
    · exact h
    · simpa [hk] using h
theorem branch_formed (len word : Nat) (a b : BitVec 5) (o : Int) (c : Word → Word → Bool) :
    Formed (branch len word a b o c s) := by
  refine withRegs_formed h (fun t ht => ?_) _ _ _
  split
  · exact jumpTo_cells ht _ rfl
  · exact ht
theorem jump_formed (len word : Nat) (d : BitVec 5) (o : Int) : Formed (jump len word d o s) :=
  withRegs_formed h (fun _ ht => jumpTo_cells ht _ (State.writeG_mem ..)) _ _ _
theorem jumpReg_formed (len word : Nat) (d a : BitVec 5) (i : Int) : Formed (jumpReg len word d a i s) :=
  withRegs_formed h (fun _ ht => jumpTo_cells ht _ (State.writeG_mem ..)) _ _ _
theorem execLoop_formed (a : BitVec 5) (i : BitVec 11) : Formed (execLoop a i s) := by
  simp only [execLoop]
  split
  · exact (formed_finish _).2 h
  · refine withRegs_formed h (fun t ht => ?_) _ _ _
    split <;> simpa using ht
end
@[simp] theorem State.endTask_mem (s : State) (c : CoreId) (k : CtxId) : (s.endTask c k).mem = s.mem := rfl
theorem endNow_cells {s : State} (h : CellsOk s.mem.bytes) : CellsOk (endNow s).state.mem.bytes := by
  simp only [endNow]
  split
  · exact h
  · simpa using h

/-! ## Floating point and vectors (R115 to R134) -/

@[simp] theorem State.addFlags_mem (s : State) (f : FFlags) : (s.addFlags f).mem = s.mem := rfl
@[simp] theorem State.fpOut_mem (s : State) (d : BitVec 5) (f : Fmt) (r : Nat × FFlags) : (s.fpOut d f r).mem = s.mem := rfl
@[simp] theorem State.vOut_mem (s : State) (d : BitVec 4) (w : Nat) (r : List (Nat × FFlags)) : (s.vOut d w r).mem = s.mem :=
  State.writeV_mem ..
section
variable {s : State} (h : CellsOk s.mem.bytes)
include h
theorem fp3_formed (w : Nat) (d a b : BitVec 5) (p : BitVec 1) (f : Fmt → Ctl → Nat → Nat → Nat × FFlags) :
    Formed (fp3 w d a b p f s) := regs_formed h (fun _ => by simp) _ _ _
theorem fp2_formed (w : Nat) (d a : BitVec 5) (p : BitVec 1) (f : Fmt → Ctl → Nat → Nat × FFlags) :
    Formed (fp2 w d a p f s) := regs_formed h (fun _ => by simp) _ _ _
theorem fp4_formed (w : Nat) (d a b : BitVec 5) (p : BitVec 1) (f : Fmt → Ctl → Nat → Nat → Nat → Nat × FFlags) :
    Formed (fp4 w d a b p f s) := regs_formed h (fun _ => by simp) _ _ _
theorem fpCmp_formed (w : Nat) (d a b : BitVec 5) (p : BitVec 1) (c : Num → Num → Bool) (q : Bool) :
    Formed (fpCmp w d a b p c q s) := regs_formed h (fun _ => by simp) _ _ _
theorem vecBits_formed (n w : Nat) (d a b : BitVec 4) (f : Vec → Vec → Vec) : Formed (vecBits n w d a b f s) :=
  regs_formed h (fun _ => by simp) _ _ _
theorem vec3_formed (n w : Nat) (d a b : BitVec 4) (c : Nat) (t : BitVec 3) (fi : Nat → Nat → Nat → Nat → Nat)
    (ff : Fmt → Rnd → Nat → Nat → Nat × FFlags) : Formed (vec3 n w d a b c t fi ff s) :=
  regs_formed h (fun _ => by simp) _ _ _
theorem vec2_formed (w : Nat) (d a : BitVec 4) (c : Nat) (t : BitVec 3) (fi : Nat → Nat → Nat → Nat)
    (ff : Fmt → Nat → Nat × FFlags) : Formed (vec2 w d a c t fi ff s) := regs_formed h (fun _ => by simp) _ _ _
theorem reduce_formed (w : Nat) (d a : BitVec 4) (c : Nat) (t : BitVec 3) (fi : Nat → Nat → Nat → Nat → Nat)
    (ff : Fmt → Rnd → Nat → Nat → Nat × FFlags) : Formed (reduce w d a c t fi ff s) := by
  refine regs_formed h (fun _ => ?_) _ _ _
  exact State.vOut_mem ..
theorem execFcvt_formed (d a : BitVec 5) (r : BitVec 3) (x y : BitVec 4) : Formed (execFcvt d a r x y s) := by
  refine withRegs_formed h (fun t ht => ?_) _ _ _
  dsimp only
  split <;> simpa using ht
end

/-! ## Loads and stores (R144 to R147) -/

@[simp] theorem loadG_mem (d : BitVec 5) (n v : Nat) (s : State) : (loadG d n v s).mem = s.mem := State.writeG_mem ..
@[simp] theorem loadV_mem (d : BitVec 4) (v : Nat) (s : State) : (loadV d v s).mem = s.mem := State.writeV_mem ..
@[simp] theorem acquireFence_bytes (sc : BitVec 3) (s : State) : (acquireFence sc s).mem.bytes = s.mem.bytes := by
  simp only [acquireFence, State.dropProxies_bytes, State.setMe_mem]
  rw [State.foldl_mem]
  exact fun s r => acquireTag_mem ..
@[simp] theorem fenceAt_bytes (o : BitVec 2) (sc : BitVec 3) (s : State) :
    (fenceAt o sc s).state.mem.bytes = s.mem.bytes := by
  simp only [fenceAt]
  repeat' split
  all_goals simp
@[simp] theorem farRead_bytes (a : Option Nat) (pa : Nat) (v : Word) (s : State) :
    (farRead a pa v s).mem.bytes = s.mem.bytes := by
  unfold farRead
  split
  · rfl
  · split <;> simp
@[simp] theorem forgetFar_bytes (m : Memory) (pas : List Nat) : (forgetFar m pas).bytes = m.bytes := rfl
section
variable {s : State} (h : CellsOk s.mem.bytes)
include h
theorem loadMem_cells {out : Nat → State → State} (ho : ∀ v t, (out v t).mem = t.mem) (va : Word) (n : Nat) (o : BitVec 2)
    (sc : BitVec 3) : CellsOk (loadMem va n o sc out s).state.mem.bytes := by
  unfold loadMem
  split
  · exact h
  split
  · exact h
  refine access_cells h (fun pas ps _ t ht => ?_) ..
  dsimp only
  repeat' split
  all_goals simp [h, ht, ho]
theorem storeMem_cells (va : Word) (n : Nat) (v : Vec) (k : StoreKind) (o : BitVec 2) (sc : BitVec 3) :
    CellsOk (storeMem va n v k o sc s).state.mem.bytes := by
  unfold storeMem
  split
  · exact h
  split
  · exact h
  refine access_cells h (fun pas ps pa2 t ht => ?_) ..
  have buffered : ∀ r, CellsOk ((bufferStore va n v k r (pas.headD 0) pa2 t).bind fun s => .ok (.fall 4) s).state.mem.bytes :=
    fun r => Res.bind_cells (by simpa using ht) fun _ hs => hs
  have fenced : ∀ f : State → State, (∀ x, (f x).mem = x.mem) →
      CellsOk ((fenceAt 3 4 t).bind fun x => .ok (.fall 4) (f x)).state.mem.bytes :=
    fun f hf => Res.bind_cells (by simpa using ht) fun x hx => by simpa [hf] using hx
  dsimp only
  split
  · split
    · exact fenced _ fun _ => rfl
    · exact buffered _
  · exact buffered _
theorem loadFull_cells (va : Word) (o : BitVec 2) (sc : BitVec 3) (d : BitVec 5) :
    CellsOk (loadFull va o sc d s).state.mem.bytes := by
  unfold loadFull
  split
  · exact h
  split
  · exact h
  refine access_cells h (fun pas ps _ t ht => ?_) ..
  dsimp only
  repeat' split
  all_goals simp [ht]
theorem atomicWrite_cells (va : Word) (n : Nat) (r : Option (BitVec 3)) (ps : List Place) (y : Nat) :
    CellsOk (atomicWrite va n r ps y s).mem.bytes := by
  rw [atomicWrite, State.wrote_mem]
  exact writeBytes_cells h _ _ true _
end
@[simp] theorem atomicToken_bytes (home w : Bool) (ps : List Place) (s : State) :
    (atomicToken home w ps s).mem.bytes = s.mem.bytes := by
  unfold atomicToken
  repeat' split
  all_goals simp
section
variable {s : State} (h : CellsOk s.mem.bytes)
include h
theorem atomicMem_cells (va : Word) (n : Nat) (o : BitVec 2) (sc : BitVec 3) (home : Bool) (f : Nat → Option Nat) (d : BitVec 5) :
    CellsOk (atomicMem va n o sc home f d s).state.mem.bytes := by
  unfold atomicMem
  split
  · exact h
  split
  · exact h
  refine access_cells h (fun pas ps _ t ht => ?_) ..
  dsimp only
  split
  · exact h
  split
  · simpa using ht
  · simp only [Res.state_ok, State.writeG_mem]
    split
    · simpa using ht
    · exact atomicWrite_cells (by simpa using ht) ..
theorem atomicOp_formed (j k m : Nat) (d a b : BitVec 5) (o : BitVec 2) (sc : BitVec 3) (w : BitVec 1) (home : Bool)
    (f : Nat → Nat → Nat → Nat → Option Nat) : Formed (atomicOp j k m d a b o sc w home f s) :=
  withRegs_formed h (fun _ ht => atomicMem_cells ht ..) _ _ _
theorem execLdRegion_formed (d a : BitVec 5) (n : BitVec 4) (i : BitVec 5) (w : BitVec 2) :
    Formed (execLdRegion d a n i w s) := by
  refine withRegs_formed h (fun t ht => ?_) _ _ _
  split
  · exact ht
  · exact loadMem_cells ht (fun _ _ => loadG_mem ..) ..
theorem execLdvRegion_formed (d a : BitVec 5) (n : BitVec 4) (i : BitVec 5) : Formed (execLdvRegion d a n i s) := by
  refine withRegs_formed h (fun t ht => ?_) _ _ _
  split
  · exact ht
  · exact loadMem_cells ht (fun _ _ => loadV_mem ..) ..
theorem execStRegion_formed (d a : BitVec 5) (n : BitVec 4) (i : BitVec 5) (w : BitVec 2) :
    Formed (execStRegion d a n i w s) := by
  refine withRegs_formed h (fun t ht => ?_) _ _ _
  split
  · exact ht
  · exact storeMem_cells ht ..
theorem execStvRegion_formed (d a : BitVec 5) (n : BitVec 4) (i : BitVec 5) : Formed (execStvRegion d a n i s) := by
  refine withRegs_formed h (fun t ht => ?_) _ _ _
  split
  · exact ht
  · exact storeMem_cells ht ..

/-! ## Fences, prefetches and bank-side operations (R156 to R160) -/

theorem aliasRange_cells (b l : Word) : CellsOk (aliasRange b l s).state.mem.bytes := by
  simp only [aliasRange]
  split
  · exact Res.bind_cells (by simpa using h) fun _ ht => by simpa using ht
  · exact h
  · exact h
theorem execIfence_formed : Formed (execIfence s) := by
  refine withRegs_formed h (fun t ht => ?_) _ _ _
  dsimp only
  split
  · exact ht
  · simp only [Res.state_ok, State.setMe_mem]
    rwa [State.foldl_bytes fun s n => State.evict_bytes s _]
end
@[simp] theorem prefetchLine_bytes (w l : Bool) (p : Place) (s : State) : (prefetchLine w l p s).mem.bytes = s.mem.bytes := by
  simp only [prefetchLine]
  repeat' split
  all_goals simp
@[simp] theorem prefetch_bytes (va : Word) (w l : Bool) (s : State) : (prefetch va w l s).mem.bytes = s.mem.bytes := by
  simp only [prefetch]
  split
  · rfl
  · next pa s1 e =>
    have e1 : s1.mem = s.mem := (translate_mem ..).of_ok _ e
    split <;> simp [e1]
section
variable {s : State} (h : CellsOk s.mem.bytes)
include h
theorem execPfx_formed (a i : BitVec 5) (w : BitVec 1) (l : BitVec 2) : Formed (execPfx a i w l s) :=
  withRegs_formed h (fun t ht => by simpa using ht) _ _ _
theorem nmIssue_cells (k : NmKind) (va y : Word) : CellsOk (nmIssue k va y s).state.mem.bytes := by
  unfold nmIssue
  split
  · exact h
  split
  · exact h
  exact access_cells h (fun _ _ _ t ht => by simpa using ht) ..
theorem execNmfence_formed : Formed (execNmfence s) := by
  refine withRegs_formed h (fun t ht => ?_) _ _ _
  dsimp only
  split
  · simpa using ht
  · exact ht
end

/-! ## Messages (R152 to R175, R257 to R262) -/

@[simp] theorem State.accept_mem (c : CoreId) (e : Entry) (s : State) : (s.accept c e).mem = s.mem := by
  simp only [State.accept]
  repeat' split
  all_goals simp
@[simp] theorem State.holdLost_mem (s : State) (c : CoreId) (k : CtxId) (n : Nat) : (s.holdLost c k n).mem = s.mem := by
  simp only [State.holdLost]
  split
  · rfl
  · rw [State.foldl_mem]
    · rfl
    · simp
@[simp] theorem State.deliver_mem (c : CoreId) (k : CtxId) (v : BitVec 1) (p n : Nat) (l : Option Nat)
    (st : Option (Word × BitVec 1 × BitVec 16)) (pay : Vector Word 6) (s : State) :
    (s.deliver c k v p n l st pay).mem = s.mem := by
  simp only [State.deliver]
  split <;> simp
@[simp] theorem State.doneMerge_mem (s : State) (c : CoreId) (w : Word) : (s.doneMerge c w).mem = s.mem := rfl
@[simp] theorem State.spillLater_mem (s : State) (m : Msg) (b : Bool) (w : Word) : (s.spillLater m b w).mem = s.mem := rfl
/-- The three writes of a message into its spill block (R169). -/
theorem spillWrites_cells {s : State} (h : CellsOk s.mem.bytes) (c : CoreId) (k : CtxId) (u v w : List (Place × Byte))
    (t t' : Option Tag) (a : Option Nat) (pas : List Nat) (ps : List Place) :
    CellsOk (writeThrough c k w t' (noteRead a pas ps (writeThrough c k v t' (writeThrough c k u t s)) true)).mem.bytes :=
  writeThrough_cells (by simpa using writeThrough_cells (writeThrough_cells h ..) ..) ..
section
variable {k : State → Res} (hk : ∀ t, CellsOk t.mem.bytes → CellsOk (k t).state.mem.bytes)
include hk
theorem spillNow_cells {s : State} (h : CellsOk s.mem.bytes) (m : Msg) (b : Bool) (w : Word) :
    CellsOk (spillNow m b w s k).state.mem.bytes := by
  unfold spillNow
  refine access_cells h (fun hA hP _ s1 h1 => ?_) ..
  refine access_cells h1 (fun _ tP _ s2 h2 => ?_) ..
  refine access_cells h2 (fun _ zP _ s3 h3 => ?_) ..
  refine access_cells h3 (fun aA aP _ s4 h4 => ?_) ..
  dsimp only
  split
  · exact hk _ (by simpa using h4)
  · refine access_cells h4 (fun _ sP _ s5 h5 => hk _ ?_) ..
    split
    · exact spillWrites_cells (by simpa using h5) ..
    · simpa using spillWrites_cells (by simpa using h5) ..
theorem spill_cells {s : State} (h : CellsOk s.mem.bytes) (m : Msg) (b : Bool) (w : Word) :
    CellsOk (spill m b w s k).state.mem.bytes := by
  simp only [spill]
  split
  · next t e => exact spillNow_cells hk (drainOwn_cells _ h e) ..
  · split
    · exact h
    · next a b s1 e =>
      have e1 : s1.mem = s.mem := (translateSpan_mem ..).of_ok _ e
      exact hk _ (by simpa [e1] using h)
theorem enqueueOrSpill_cells {s : State} (h : CellsOk s.mem.bytes) (m : Msg) (l : List Release) :
    CellsOk (enqueueOrSpill m l s k).state.mem.bytes := by
  simp only [enqueueOrSpill]
  split
  · exact hk _ (by simpa using h)
  · split
    · exact h
    · exact spill_cells hk h ..
end
section
variable {s : State} (h : CellsOk s.mem.bytes)
include h
theorem sendOwn_cells {k : BitVec 16 → State → Res} (hk : ∀ q t, CellsOk t.mem.bytes → CellsOk (k q t).state.mem.bytes)
    (w : Word) (pay : Vector Word 6) (l : List Release) : CellsOk (sendOwn w pay s k l).state.mem.bytes :=
  enqueueOrSpill_cells (fun _ ht => hk _ _ (by simpa using ht)) h ..
theorem execSend_formed (d a b : BitVec 5) : Formed (execSend d a b s) := by
  refine withRegs_formed h (fun t ht => ?_) _ _ _
  dsimp only
  split
  · exact ht
  · exact sendOwn_cells ht (fun _ _ hu => by simpa using hu) ..
theorem execSendC_formed (a k : BitVec 4) : Formed (execSendC a k s) :=
  withRegs_formed h (fun _ ht => sendOwn_cells ht (fun _ _ hu => by simpa using hu) ..) _ _ _
theorem sendRecord_cells (va : Word) (d : BitVec 5) : CellsOk (sendRecord va d s).state.mem.bytes := by
  unfold sendRecord
  split
  · exact h
  split
  · exact h
  refine access_cells h (fun pas ps _ t ht => ?_) ..
  dsimp only
  split
  · exact h
  split
  · exact ht
  simpa using ht
theorem decrementFire_cells (va : Word) (n y : Nat) (o : BitVec 2) (sc : BitVec 3) (d : BitVec 5) :
    CellsOk (decrementFire va n y o sc d s).state.mem.bytes := by
  unfold decrementFire
  split
  · exact h
  split
  · exact h
  refine access_cells h (fun pas ps _ t ht => ?_) ..
  dsimp only
  split
  · exact h
  split
  · split
    · split
      · exact h
      · exact sendOwn_cells ht (fun _ _ hu => by simpa using hu) ..
    · simpa using ht
  · split
    · split
      · exact h
      · exact sendOwn_cells ht (fun _ _ hu => by simpa using atomicWrite_cells (by simpa using hu) ..) ..
    · simpa using atomicWrite_cells (by simpa using ht) ..
theorem execDone_formed (a : BitVec 5) : Formed (execDone a s) := regs_formed h (fun _ => rfl) _ _ _
theorem bindClass_cells (word : Nat) (d : BitVec 5) (x y z : Word) : CellsOk (bindClass word d x y z s).state.mem.bytes := by
  simp only [bindClass]
  repeat' split
  all_goals simp [h]

/-! ## Queues, streams, the repetition buffer and tensor maps (R176 to R185) -/

theorem sendVec_cells (m : BitVec 2) (v : Vec) : CellsOk (sendVec m v s).state.mem.bytes := by
  simp only [sendVec]
  repeat' split
  all_goals simp [h]
theorem bindQueue_cells (word : Nat) (w : Word) : CellsOk (bindQueue word w s).state.mem.bytes := by
  simp only [bindQueue]
  repeat' split
  all_goals simp [h]
theorem startStream_cells (word : Nat) (v : Bool) (d : BitVec 5) (m : BitVec 4) (b : BitVec 5) :
    CellsOk (startStream word v d m b s).state.mem.bytes := by
  simp only [startStream]
  repeat' split
  all_goals simp [h]
theorem execStrm_formed (d a b : BitVec 5) (k : BitVec 1) : Formed (execStrm d a b k s) := by
  refine withRegs_formed h (fun t ht => ?_) _ _ _
  split
  · exact ht
  split
  · exact ht
  exact startStream_cells ht ..
theorem execStrmoff_formed (d : BitVec 5) (k : BitVec 1) : Formed (execStrmoff d k s) := by
  refine withRegs_formed h (fun t ht => ?_) _ _ _
  dsimp only
  split
  · exact ht
  · simpa using ht
theorem execRepb_formed (d a b : BitVec 5) : Formed (execRepb d a b s) := by
  refine withRegs_formed h (fun t ht => ?_) _ _ _
  dsimp only
  split
  · exact ht
  · simpa using ht
theorem execRepe_formed : Formed (execRepe s) := by
  refine withRegs_formed h (fun t ht => ?_) _ _ _
  dsimp only
  split
  · exact ht
  split
  · simpa using ht
  · simpa using ht
theorem execRepgo_formed (a : BitVec 5) : Formed (execRepgo a s) := by
  refine withRegs_formed h (fun t ht => ?_) _ _ _
  dsimp only
  split
  · exact ht
  split
  · exact ht
  · simpa using ht
theorem loadMap_cells (d : BitVec 4) (va : Word) : CellsOk (loadMap d va s).state.mem.bytes := by
  unfold loadMap
  split
  · exact h
  split
  · exact h
  refine access_cells h (fun pas ps _ t ht => ?_) ..
  dsimp only
  split
  · exact h
  · simpa using ht
end

/-! ## Control registers and the system (R59 to R65, R247 to R253) -/

@[simp] theorem State.writeCr_mem (s : State) (c : Nat) (v : Word) : (s.writeCr c v).mem = s.mem := by
  unfold State.writeCr
  repeat' split
  all_goals rfl
@[simp] theorem State.readMbx_mem (s : State) (c : Nat) : (s.readMbx c).mem = s.mem := by
  unfold State.readMbx
  split
  · simp
  · rfl
section
variable {s : State} (h : CellsOk s.mem.bytes)
include h
theorem checked_formed {k : State → Res} (hk : ∀ t, CellsOk t.mem.bytes → CellsOk (k t).state.mem.bytes) (t : Option Trap)
    (word : Nat) (rd wr : List Reg) : Formed (checked t word rd wr s k) := by
  unfold checked
  split
  · exact (formed_finish _).2 h
  · exact withRegs_formed h hk _ _ _
theorem csrUpdate_formed (word m : Nat) (d a : BitVec 5) (c : BitVec 11) (f : Word → Word → Word) :
    Formed (csrUpdate word m d a c f s) := by
  refine checked_formed h (fun t ht => ?_) _ _ _ _
  dsimp only
  repeat' split
  all_goals simp [ht]
theorem execCsrrd_formed (d : BitVec 5) (c : BitVec 11) : Formed (execCsrrd d c s) := by
  refine checked_formed h (fun t ht => ?_) _ _ _ _
  split
  · exact ht
  · simpa using ht
theorem execEret_formed : Formed (execEret s) := checked_formed h (fun t ht => by simpa using ht) _ _ _ _
theorem completionWord_cells {k : Option Word → State → Res}
    (hk : ∀ w t, CellsOk t.mem.bytes → CellsOk (k w t).state.mem.bytes) (d : BitVec 5) :
    CellsOk (completionWord d s k).state.mem.bytes := by
  unfold completionWord
  split
  · exact hk _ _ h
  · exact Res.bind_cells (storeMem_cells h ..) (hk _)
theorem readBlock_cells {k : Nat → State → Res} (hk : ∀ n t, CellsOk t.mem.bytes → CellsOk (k n t).state.mem.bytes) (va : Word) :
    CellsOk (readBlock va s k).state.mem.bytes := by
  unfold readBlock
  split
  · exact h
  split
  · exact h
  exact access_cells h (fun _ _ _ t ht => hk _ _ (by simpa using ht)) ..
theorem execTlbsd_formed (d a : BitVec 5) : Formed (execTlbsd d a s) :=
  checked_formed h (fun _ h1 => readBlock_cells h1 (fun _ _ h2 => Res.bind_cells (by simpa using h2)
    fun _ h3 => completionWord_cells h3 (fun _ _ h4 => by simpa using h4) _) _) _ _ _ _
theorem execTlbinv_formed (a : BitVec 5) : Formed (execTlbinv a s) := checked_formed h (fun _ ht => by simpa using ht) _ _ _ _
theorem suprd_cells (va : Word) (d : BitVec 5) : CellsOk (suprd va d s).state.mem.bytes := by
  simp only [suprd]
  split
  · exact h
  split
  · exact h
  split
  · simpa using h
  · refine access_cells h (fun _ ps _ t ht => ?_) ..
    simpa using writeThrough_cells ht ..
theorem execPartset_formed (d a : BitVec 5) : Formed (execPartset d a s) :=
  checked_formed h (fun _ h1 => readBlock_cells h1 (fun _ _ h2 =>
    completionWord_cells h2 (fun _ _ h3 => by simpa using h3) _) _) _ _ _ _

/-! ## The Anvil at issue (R189 to R206) -/

theorem ringSet_cells (r : BitVec 3) (w : Word) : CellsOk (ringSet r w s).state.mem.bytes := by
  simp only [ringSet]
  repeat' split
  all_goals exact h
theorem execRingcfgReset_formed (r : BitVec 3) : Formed (execRingcfgReset r s) := by
  refine withRegs_formed h (fun t ht => ?_) _ _ _
  split
  all_goals exact ht
theorem execRingcfgPush_formed (d : BitVec 5) (r : BitVec 3) : Formed (execRingcfgPush d r s) := by
  refine withRegs_formed h (fun t ht => ?_) _ _ _
  dsimp only
  repeat' split
  all_goals exact ht
theorem execRingcfgQuery_formed (d : BitVec 5) (r : BitVec 3) : Formed (execRingcfgQuery d r s) := by
  refine withRegs_formed h (fun t ht => ?_) _ _ _
  dsimp only
  split
  · exact ht
  · simpa using ht
theorem enqueueCmd_cells (c : AnvilCmd) : CellsOk (enqueueCmd c s).state.mem.bytes := by
  simp only [enqueueCmd]
  repeat' split
  all_goals exact h
theorem anvil_formed (word : Nat) (op : AnvilOp) (t : BitVec 1) (a b : BitVec 4) (f : Option (BitVec 5)) :
    Formed (anvil word op t a b f s) :=
  withAcc_formed h (fun _ ht => enqueueCmd_cells ht _) _ _ _
theorem onTile_cells {k : Tile → Res} (hk : ∀ t, CellsOk (k t).state.mem.bytes) (t : BitVec 1) :
    CellsOk (onTile t s k).state.mem.bytes := by
  unfold onTile
  split
  · exact h
  · exact hk _
theorem execAccz_formed (t : BitVec 1) : Formed (execAccz t s) :=
  withAcc_formed h (fun _ ht => onTile_cells ht (fun _ => by simpa using ht) _) _ _ _
theorem enterTile_cells (r : TileRead) : CellsOk (enterTile r s).state.mem.bytes := by
  simp only [enterTile]
  split
  all_goals exact h
theorem execAccrd_formed (d : BitVec 5) (t : BitVec 1) : Formed (execAccrd d t s) := by
  refine withAcc_formed h (fun u hu => ?_) _ _ _
  dsimp only
  split
  · exact enterTile_cells hu _
  refine onTile_cells hu (fun tile => ?_) _
  split
  · exact hu
  split
  · exact hu
  split
  · exact hu
  exact access_cells hu (fun _ _ _ v hv => enterTile_cells hv _) ..
theorem execAccwr_formed (d : BitVec 5) (t : BitVec 1) : Formed (execAccwr d t s) := by
  refine withAcc_formed h (fun u hu => onTile_cells hu (fun tile => ?_) _) _ _ _
  dsimp only
  split
  · exact hu
  split
  · exact hu
  exact access_cells hu (fun _ _ _ v hv => by simpa using hv) ..
theorem execAccsc_formed (f : BitVec 5) (c t : BitVec 1) : Formed (execAccsc f c t s) :=
  withAcc_formed h (fun _ ht => onTile_cells ht (fun _ => by simpa using ht) _) _ _ _
theorem execAsync_formed (d : BitVec 5) (l t : BitVec 1) : Formed (execAsync d l t s) := by
  refine withAcc_formed h (fun u hu => ?_) _ _ _
  dsimp only
  repeat' split
  all_goals simpa using hu

/-! ## The engines at issue (R209 to R233) -/

theorem enqueueXfer_cells (k : XferKind) (d : BitVec 5) (b w : Word) (sm dm : BitVec 512) :
    CellsOk (enqueueXfer k d b w sm dm s).state.mem.bytes := by
  simp only [enqueueXfer]
  split
  · exact h
  · simpa using h
theorem issueXfer_formed (k : XferKind) (n : Nat) (d a b : BitVec 5) : Formed (issueXfer k n d a b s) := by
  refine withRegs_formed h (fun t ht => ?_) _ _ _
  dsimp only
  split
  · exact ht
  split
  · split
    · exact ht
    · exact enqueueXfer_cells ht ..
  · exact ht
theorem execRowop_formed (d a : BitVec 5) : Formed (execRowop d a s) := by
  refine withRegs_formed h (fun t ht => ?_) _ _ _
  dsimp only
  split
  · exact ht
  · exact enqueueXfer_cells ht ..
theorem execCpycan_formed (d a : BitVec 5) : Formed (execCpycan d a s) := by
  refine withRegs_formed h (fun t ht => ?_) _ _ _
  dsimp only
  repeat' split
  all_goals simpa using ht
theorem execWaygive_formed (d a : BitVec 5) : Formed (execWaygive d a s) := by
  refine withRegs_formed h (fun t ht => ?_) _ _ _
  dsimp only
  split
  · exact ht
  · exact completionWord_cells ht (fun _ _ hu => by simpa using hu) _
theorem execWaytake_formed (d : BitVec 5) : Formed (execWaytake d s) := by
  refine withRegs_formed h (fun t ht => ?_) _ _ _
  dsimp only
  split
  · exact ht
  · exact completionWord_cells ht (fun _ _ hu => by simpa using hu) _
theorem bsopIssue_formed (n : Nat) (a b c : BitVec 5) (g : BitVec 1) : Formed (bsopIssue n a b c g s) := by
  refine withRegs_formed h (fun t ht => ?_) _ _ _
  dsimp only
  repeat' split
  all_goals exact ht
theorem rangeIssue_formed (n : Nat) (i : Bool) (d a b : BitVec 5) : Formed (rangeIssue n i d a b s) :=
  withRegs_formed h (fun _ ht => completionWord_cells ht (fun _ _ hu => by simpa using hu) _) _ _ _
omit h in
@[simp] theorem State.addOp_mem (s : State) (n : Nat) (k : HeapKind) (l : List (BitVec 5)) (w : Option Word) :
    (s.addOp n k l w).mem = s.mem := rfl
theorem issueWorded_cells (n : BitVec 2) (d : BitVec 5) (k : HeapKind) : CellsOk (issueWorded n d k s).state.mem.bytes := by
  unfold issueWorded
  split
  · exact h
  · exact completionWord_cells h (fun _ _ ht => by simpa using ht) _
theorem issueOwed_cells (n : BitVec 2) (l : List (BitVec 5)) (k : HeapKind) : CellsOk (issueOwed n l k s).state.mem.bytes := by
  unfold issueOwed
  split
  · exact h
  · exact h
theorem aligned64_cells (va : Word) {k : Res} (hk : CellsOk k.state.mem.bytes) : CellsOk (aligned64 va s k).state.mem.bytes := by
  unfold aligned64
  split
  · exact h
  · exact hk
end

end Sys2Proof.Machine
end

-- ==== Sys2Proof/Proofs/FormEngine.lean ====
-- ==== Sys2Proof/Proofs/FormEngine.lean ====
section
/-! SUPPORT. The engines keep the canonical form of memory: their accesses and fix-ups, the transfers, the compute ways and
line maintenance. -/

namespace Sys2Proof.Machine

/-! ## Engine accesses (R214, R290) -/

section
variable {s : State} (h : CellsOk s.mem.bytes)
include h
theorem engineSpan_gives (i : Issuer) (va n : Nat) (a : Acc) :
    Gives (fun r => CellsOk r.2.2.mem.bytes) (engineSpan s i va n a) := by
  simp only [engineSpan]
  split
  · split <;> simp
  · next pa pa2 s1 e =>
    have e1 : s1.mem = s.mem := (translateSpan_mem ..).of_ok _ e
    have h1 : CellsOk s1.mem.bytes := e1 ▸ h
    repeat' split
    all_goals simp
    refine State.foldl_cells (fun t p ht => ?_) _ h1
    split
    · exact State.fillHost_cells ht ..
    · exact ht
theorem engineRead_gives (i : Issuer) (va n : Nat) (c : CoreId) : Gives PairFormed (engineRead s i va n c) := by
  unfold engineRead
  split
  · simp
  · next pas ps s1 e =>
    have h1 : CellsOk s1.mem.bytes := (engineSpan_gives h ..).of_ok _ e
    split
    · simp
    · simpa using h1
theorem engineNum_gives (i : Issuer) (va n : Nat) (c : CoreId) : Gives PairFormed (engineNum s i va n c) := by
  unfold engineNum
  split
  · simp
  · next l s1 e => exact (gives_ok _).2 ((engineRead_gives h ..).cells e)
theorem engineStore_cells (c : Option CoreId) (w : List (Place × Byte)) (t : Option Tag) (b : Bool) :
    CellsOk (engineStore s c w t b).mem.bytes :=
  (Memory.wf_iff _).1 (engineStore_wf ((Memory.wf_iff _).2 h) c w t b)
theorem engineWrite_gives (i : Issuer) (va : Nat) (l : List Byte) (full : Bool) (t : Option Tag) (b : Bool) (c : CoreId) :
    Gives PairFormed (engineWrite s i va l full t b c) := by
  unfold engineWrite
  split
  · simp
  · next pas ps s1 e =>
    have h1 : CellsOk s1.mem.bytes := (engineSpan_gives h ..).of_ok _ e
    have h2 := engineStore_cells h1 (some c) (ps.zip l) t b
    simp only [gives_ok, pairFormed_mk]
    split
    · simpa using h2
    · exact h2
theorem State.engineWord_cells (i : Issuer) (w : Option Word) (v : Word) (t : Option Tag) :
    CellsOk (s.engineWord i w v t).mem.bytes := by
  unfold State.engineWord
  split
  · exact h
  · split
    · next e => exact (engineWrite_gives h ..).cells e
    · simpa using h
    · exact h
theorem State.askWord_cells (i : Issuer) (w : Option Word) : CellsOk (s.askWord i w).mem.bytes := by
  unfold State.askWord
  repeat' split
  all_goals simp [h]
theorem State.spanWaits_cells (i : Issuer) (va n : Nat) {t : State} (e : s.spanWaits i va n = some t) : CellsOk t.mem.bytes := by
  obtain ⟨k, -, hk⟩ := List.exists_of_findSome?_eq_some e
  split at hk
  · exact Option.some.inj hk ▸ h
  · have e := Option.some.inj hk
    subst e
    simpa using h
  · simp at hk
end

/-! ## Fix-ups (R364 to R366) -/

section
variable {s : State} (h : CellsOk s.mem.bytes)
include h
theorem State.readBlock_cells (f : FixSite) : CellsOk (s.readBlock f).mem.bytes := by
  unfold State.readBlock
  split
  · next pas ps s1 e =>
    have h1 : CellsOk s1.mem.bytes := (engineSpan_gives h ..).of_ok _ e
    simpa using h1
  · exact h
theorem State.blockWord_cells (f : FixSite) (o v : Nat) : CellsOk (s.blockWord f o v).mem.bytes := by
  unfold State.blockWord
  split
  · next e => exact (engineWrite_gives h ..).cells e
  · exact h
theorem State.writeFix_cells (f : FixSite) (t : Trap) (k : Nat) : CellsOk (s.writeFix f t k).mem.bytes := by
  simpa [State.writeFix] using State.blockWord_cells h ..
theorem State.setFixState_cells (f : FixSite) (k v : Nat) : CellsOk (s.setFixState f k v).mem.bytes :=
  State.blockWord_cells h ..
theorem settleFix_cells (f : FixSite) (x : Fixup) : CellsOk (settleFix s f x).2.mem.bytes := by
  unfold settleFix
  split
  · exact h
  · split
    · next e => exact State.spanWaits_cells h _ _ _ e
    · exact State.setFixState_cells h ..
theorem State.clearFixes_cells (f : FixSite) : CellsOk (s.clearFixes f).mem.bytes := by
  refine State.foldl_cells (fun t k ht => ?_) _ (State.blockWord_cells (State.readBlock_cells h f) ..)
  split
  · exact State.blockWord_cells ht ..
  · exact ht
end
/-- The state that recording a fault leaves. -/
def Recorded.state : Recorded → State
  | .done _ _ s => s
  | .waits s => s
theorem recordFix_cells {s : State} (h : CellsOk s.mem.bytes) (f : FixSite) (l : List Fixup) (n : Nat) (t : Trap) (e : Nat) :
    CellsOk (recordFix s f l n t e).state.mem.bytes := by
  have read := State.readBlock_cells h f
  simp only [recordFix]
  split
  · next e => exact State.spanWaits_cells h _ _ _ e
  · split
    · simp only [Recorded.state]
      split
      · exact State.writeFix_cells read ..
      · exact read
    · split
      · exact read
      · exact State.writeFix_cells (State.blockWord_cells read ..) ..
theorem recordFix_cells_of_eq {s : State} (h : CellsOk s.mem.bytes) {f : FixSite} {l : List Fixup} {n : Nat} {t : Trap}
    {e : Nat} {r : Recorded} (he : recordFix s f l n t e = r) : CellsOk r.state.mem.bytes :=
  he ▸ recordFix_cells h ..
@[simp] theorem State.dropPage_mem (s : State) (i : Issuer) (p : Nat) : (s.dropPage i p).mem = s.mem := rfl
@[simp] theorem State.setIssuerCtx_mem (s : State) (i : Issuer) (c : Ctx) : (s.setIssuerCtx i c).mem = s.mem := by
  unfold State.setIssuerCtx
  split <;> rfl
@[simp] theorem State.setGrant_mem (s : State) (i : Issuer) (g : Grant) : (s.setGrant i g).mem = s.mem :=
  State.setIssuerCtx_mem ..

/-! ## The spill area of a deque (R270) -/

section
variable {s : State} (h : CellsOk s.mem.bytes)
include h
theorem spillDeque_cells (c : CoreId) {t : State} (e : spillDeque c s = some t) : CellsOk t.mem.bytes := by
  simp only [spillDeque, Option.bind_eq_some_iff] at e
  obtain ⟨l, -, va, -, e⟩ := e
  split at e
  · simp at e
  · next w s1 e1 =>
    have h1 : CellsOk s1.mem.bytes := (engineWrite_gives h ..).cells e1
    exact Option.some.inj e ▸ h1
theorem readChunk_cells (x : Chunk) (m : List (Nat × Nat × Option Nat)) {l : List Fork} {t : State}
    (e : readChunk s x m = some (l, t)) : CellsOk t.mem.bytes := by
  unfold readChunk at e
  split at e
  · simp at e
  · next l1 s1 e1 =>
    have h1 : CellsOk s1.mem.bytes := (engineRead_gives h ..).cells e1
    exact (Prod.mk.inj (Option.some.inj e)).2 ▸ h1
theorem State.refill_cells (c : CoreId) : CellsOk (s.refill c).mem.bytes := by
  unfold State.refill
  split
  · split
    · exact h
    · next e =>
      have h1 := readChunk_cells h _ _ e
      simpa using h1
  · exact h
theorem State.takeOldest_cells (c : CoreId) (ok : Fork → Bool) {f : Fork} {t : State}
    (e : s.takeOldest c ok = some (f, t)) : CellsOk t.mem.bytes := by
  simp only [State.takeOldest] at e
  split at e
  · split at e
    · next s1 e1 =>
      have h1 := readChunk_cells h _ _ e1
      split at e
      · exact (Prod.mk.inj (Option.some.inj e)).2 ▸ h1
      · simp at e
    · simp at e
  · split at e
    · split at e
      · exact (Prod.mk.inj (Option.some.inj e)).2 ▸ h
      · simp at e
    · simp at e
theorem execFork_formed (a b : BitVec 5) : Formed (execFork a b s) := by
  refine withRegs_formed h (fun t ht => ?_) _ _ _
  dsimp only
  split
  · exact ht
  · split
    · exact ht
    · next u e =>
      have hu : CellsOk u.mem.bytes := by
        split at e
        · exact spillDeque_cells ht _ e
        · exact Option.some.inj e ▸ ht
      simpa using hu

/-! ## Elements of transfers (R214 to R221) -/

theorem getLoc_gives (i : Issuer) (l : Loc) : Gives PairFormed (getLoc s i l) := by
  unfold getLoc
  split
  · repeat' split
    all_goals simp [h]
  · split
    · simp
    · next e => exact (gives_ok _).2 ((engineNum_gives h ..).cells e)
theorem putLoc_gives (i : Issuer) (l : Loc) (v : Nat) : Gives PairFormed (putLoc s i l v) := by
  unfold putLoc
  split
  · repeat' split
    all_goals simp [h]
  · split
    · exact engineWrite_gives h ..
    · split
      · simp
      · exact engineWrite_gives h ..
theorem poisonRange_cells (i : Issuer) (va n : Nat) : CellsOk (poisonRange s i va n).mem.bytes := by
  refine State.foldl_cells (fun t k ht => ?_) _ h
  dsimp only
  split
  · exact ht
  · next pas ps s1 e => exact (engineSpan_gives ht ..).of_ok _ e
theorem fetchElem_gives (i : Issuer) (o : Bool) (m : BitVec 512) (c : List Nat) (d : Nat) :
    Gives PairFormed (fetchElem s i o m c d) := by
  unfold fetchElem
  split
  · simp
  · next v s1 e =>
    have h1 : CellsOk s1.mem.bytes := (getLoc_gives h ..).cells e
    dsimp only
    split
    · simpa using h1
    split
    · simpa using h1
    split
    · simp
    · next e2 => exact (gives_ok _).2 ((engineNum_gives h1 ..).cells e2)
theorem blockBytes_gives (i : Issuer) (va : Nat) : Gives PairFormed (blockBytes s i va) := by
  unfold blockBytes
  split
  · simp
  · next e => exact (gives_ok _).2 ((engineNum_gives h ..).cells e)
theorem blockAt_gives (i : Issuer) (va n : Nat) : Gives PairFormed (blockAt s i va n) := by
  induction n generalizing s va with
  | zero => simpa [blockAt] using h
  | succ n ih =>
    unfold blockAt
    split
    · simp
    · next e => exact ih ((blockBytes_gives h ..).cells e) _
theorem blockSum_gives (i : Issuer) (l : List (List Nat)) (m : BitVec 512) : Gives PairFormed (blockSum s i l m) := by
  induction l generalizing s with
  | nil => simpa [blockSum] using h
  | cons c t ih =>
    refine (blockAt_gives h ..).bind fun ⟨va, s1⟩ h1 => ?_
    refine (blockBytes_gives h1 ..).bind fun ⟨k, s2⟩ h2 => ?_
    refine (ih h2).bind fun ⟨n, s3⟩ h3 => ?_
    simpa using h3
theorem copyBlock_gives (x : Xfer) (c : List Nat) (l : List (List Nat)) (r : Nat) : Gives PairFormed (copyBlock s x c l r) := by
  refine (blockAt_gives h ..).bind fun ⟨va, s1⟩ h1 => ?_
  refine (blockBytes_gives h1 ..).bind fun ⟨k, s2⟩ h2 => ?_
  refine (blockSum_gives h2 ..).bind fun ⟨n, s3⟩ h3 => ?_
  refine (engineRead_gives h3 ..).bind fun ⟨b, s4⟩ h4 => ?_
  exact engineWrite_gives h4 ..
theorem copyElem_gives (x : Xfer) (c d : List Nat) (l : List (List Nat)) : Gives PairFormed (copyElem s x c d l) := by
  unfold copyElem
  split
  · exact copyBlock_gives h ..
  split
  · simp
  · next e => exact putLoc_gives ((fetchElem_gives h ..).cells e) ..
theorem Part_.perform_gives (q : Part_) (x : Xfer) : Gives PairFormed (q.perform x s) := by
  cases q with
  | put va n v => exact engineWrite_gives h ..
  | copy src dst n => exact (engineRead_gives h ..).bind fun ⟨l, s1⟩ h1 => engineWrite_gives h1 ..
  | entry va v => exact engineWrite_gives h ..
  | dec va =>
    refine (engineSpan_gives h ..).bind fun _ _ => ?_
    exact (engineNum_gives h ..).bind fun ⟨v, s1⟩ h1 => engineWrite_gives h1 ..
theorem haloElem_gives (x : Xfer) (d : BitVec 2) (r c : Nat) : Gives PairFormed (haloElem x d r c s) := by
  have coords : Gives (fun _ => True) (haloCoords x d r c) := ⟨fun _ _ => trivial⟩
  refine coords.bind fun ⟨sc, sr, b⟩ _ => ?_
  dsimp only
  split
  · exact copyBlock_gives h ..
  · exact (getLoc_gives h ..).bind fun ⟨v, s1⟩ h1 => putLoc_gives h1 ..
omit h in
@[simp] theorem countStrip_mem (x : Xfer) (d : BitVec 2) (s : State) : (countStrip x d s).mem = s.mem := by
  simp only [countStrip]
  repeat' split
  all_goals rfl
theorem writeAll_gives (i : Issuer) (l : List (Nat × List Byte)) : Gives (fun t => CellsOk t.mem.bytes) (writeAll s i l) := by
  induction l generalizing s with
  | nil => simpa [writeAll] using h
  | cons p t ih =>
    unfold writeAll
    split
    · simp
    · next e => exact ih ((engineWrite_gives h ..).cells e)
theorem addRows_gives (x : Xfer) : Gives (fun t => CellsOk t.mem.bytes) (addRows x s) := by
  refine (engineSpan_gives h ..).bind fun _ _ => ?_
  refine (engineNum_gives h ..).bind fun ⟨v, s1⟩ h1 => ?_
  refine (engineWrite_gives h1 ..).bind fun ⟨w, s2⟩ h2 => ?_
  simpa using h2
theorem readRows_gives (i : Issuer) (va n : Nat) : Gives PairFormed (readRows s i va n) := by
  induction n generalizing s va with
  | zero => simpa [readRows] using h
  | succ n ih =>
    unfold readRows
    split
    · simp
    · next r s1 e =>
      have h1 : CellsOk s1.mem.bytes := (engineNum_gives h ..).cells e
      split
      · simp
      · next e2 => exact (gives_ok _).2 ((ih h1 _).cells e2)
theorem rowGroup_gives (x : Xfer) (e : Nat) : Gives (fun t => CellsOk t.mem.bytes) (rowGroup x e s) := by
  have rows : ∀ (b : Prop) [Decidable b] (u : State) (va : Nat), CellsOk u.mem.bytes →
      Gives PairFormed (if b then readRows u x.iss va x.rn else .ok ([], u) : Except Miss (List Nat × State)) := by
    intro b _ u va hu
    split
    · exact readRows_gives hu ..
    · simpa using hu
  simp only [rowGroup]
  split
  · simp
  refine (rows _ _ _ h).bind fun ⟨a, s1⟩ h1 => ?_
  refine (rows _ _ _ h1).bind fun ⟨b, s2⟩ h2 => ?_
  exact writeAll_gives h2 ..
theorem kvToken_gives (x : Xfer) (t : Nat) : Gives PairFormed (kvToken x t s) := by
  simp only [kvToken]
  refine (engineNum_gives h ..).bind fun ⟨e, s1⟩ h1 => ?_
  dsimp only
  split
  · simpa using h1
  refine (engineNum_gives h1 ..).bind fun ⟨d, s2⟩ h2 => ?_
  have scale : Gives PairFormed (if mapFmt x.sm = 17 then
      engineNum s2 x.iss (poolBlock x.sm (e % 2 ^ 31) + mapSize x.sm 1 * mapStride x.sm 1 + 4 * (t % mapSize x.sm 1)) 4
    else engineNum s2 x.iss (poolBlock x.sm (e % 2 ^ 31) + mapSize x.sm 1 * mapStride x.sm 1 + t % mapSize x.sm 1 / 2) 1) := by
    split <;> exact engineNum_gives h2 ..
  refine scale.bind fun ⟨w, s3⟩ h3 => ?_
  simpa using h3
theorem slotWrite_cells (k : Nat) (l : List (Nat × Byte)) : CellsOk (slotWrite k l s).2.mem.bytes :=
  writeBytes_cells h _ none
theorem kvHeader_cells (x : Xfer) (e : Nat) : CellsOk (kvHeader x e s).2.mem.bytes := by
  unfold kvHeader
  split
  · exact h
  split
  · exact h
  · exact slotWrite_cells h ..

/-! ## Items of transfers (R212 to R219) -/

omit h in
/-- The state that deciding an append leaves. -/
def Append.state : Append → State
  | .go _ s => s
  | .code _ s => s
  | .empty s => s
omit h in
@[simp] theorem Append.state_go (x : Xfer) (s : State) : (Append.go x s).state = s := rfl
omit h in
@[simp] theorem Append.state_code (c : Nat) (s : State) : (Append.code c s).state = s := rfl
omit h in
@[simp] theorem Append.state_empty (s : State) : (Append.empty s).state = s := rfl
theorem appendPop_gives (x : Xfer) (e : Nat) : Gives (fun a => CellsOk a.state.mem.bytes) (appendPop x e s) := by
  simp only [appendPop]
  refine (engineSpan_gives h ..).bind fun _ _ => ?_
  refine (engineNum_gives h ..).bind fun ⟨v, s1⟩ h1 => ?_
  dsimp only
  split
  · simpa using h1
  refine (engineNum_gives h1 ..).bind fun ⟨v, s2⟩ h2 => ?_
  refine (engineNum_gives h2 ..).bind fun ⟨v, s3⟩ h3 => ?_
  refine (engineWrite_gives h3 ..).bind fun ⟨v, s4⟩ h4 => ?_
  dsimp only
  split
  · simpa using h4
  · simpa using h4
end

end Sys2Proof.Machine
end

-- ==== Sys2Proof/Proofs/FormXfer.lean ====
-- ==== Sys2Proof/Proofs/FormXfer.lean ====
section
/-! SUPPORT. Transfers, compute ways and line maintenance keep the canonical form of memory. -/

namespace Sys2Proof.Machine

/-! ## Elements (R218 to R221) -/

section
variable {s : State} (h : CellsOk s.mem.bytes)
include h
theorem append_gives (x : Xfer) : Gives (fun a => CellsOk a.state.mem.bytes) (append x s) := by
  have scale : ∀ (a b n k : Nat) (t : State), CellsOk t.mem.bytes →
      Gives PairFormed (do
        let (u, t) ← engineNum t x.iss a n
        let (v, t) ← engineNum t x.iss b k
        .ok (decide (u = v), t) : Except Miss (Bool × State)) := by
    intro a b n k t ht
    refine (engineNum_gives ht ..).bind fun ⟨u, t1⟩ h1 => ?_
    refine (engineNum_gives h1 ..).bind fun ⟨v, t2⟩ h2 => ?_
    simpa using h2
  have check : ∀ (c : Prop) [Decidable c] (e : Except Miss (Bool × State)) (t : State), Gives PairFormed e →
      CellsOk t.mem.bytes → Gives PairFormed (if c then e else .ok (true, t)) := by
    intro c _ e t he ht
    split
    · exact he
    · simpa using ht
  simp only [append]
  split
  · simpa using h
  have entry : ∀ (c : Prop) [Decidable c] (va : Nat),
      Gives PairFormed (if c then .ok (2 ^ 31, s) else engineNum s x.iss va 4 : Except Miss (Nat × State)) := by
    intro c _ va
    split
    · simpa using h
    · exact engineNum_gives h ..
  refine (entry ..).bind fun ⟨e, s1⟩ h1 => ?_
  dsimp only
  split
  · simpa using h1
  refine (check _ _ _ (scale _ _ _ _ _ h1) h1).bind fun ⟨a, s2⟩ h2 => ?_
  refine (check _ _ _ (scale _ _ _ _ _ h2) h2).bind fun ⟨b, s3⟩ h3 => ?_
  dsimp only
  split
  · simpa using h3
  split
  · exact appendPop_gives h3 ..
  · simpa using h3
theorem kvElem_gives (x : Xfer) (e : Nat) : Gives (fun d => CellsOk d.s.mem.bytes) (kvElem x e s) := by
  have token : ∀ (c : Prop) [Decidable c] (t : Nat),
      Gives PairFormed (if c then .ok (some (List.replicate 64 0), s) else kvToken x t s
        : Except Miss (Option (List Nat) × State)) := by
    intro c _ t
    split
    · simpa using h
    · exact kvToken_gives h ..
  simp only [kvElem]
  split
  · simp
  · refine (token ..).bind fun ⟨codes, s1⟩ h1 => ?_
    exact (gives_ok _).2 (slotWrite_cells h1 ..)
theorem appendElem_gives (x : Xfer) (e : Nat) : Gives (fun d => CellsOk d.s.mem.bytes) (appendElem x e s) := by
  have hap := append_gives h x
  unfold appendElem
  split
  · split
    · simp
    · next e1 => simpa using hap.of_ok _ e1
    · next e1 => simpa using hap.of_ok _ e1
    · next e1 => simpa using hap.of_ok _ e1
  · split
    · simpa using h
    · next q _ =>
      split
      · simp
      · next e1 => simpa using (Part_.perform_gives h q x).cells e1
theorem rowElem_gives (x : Xfer) (e : Nat) : Gives (fun d => CellsOk d.s.mem.bytes) (rowElem x e s) := by
  unfold rowElem
  split
  · refine (addRows_gives h x).bind fun s1 h1 => ?_
    simpa using h1
  · have index : ∀ va : Nat, Gives PairFormed (match engineNum s x.iss va 4 with
        | .error z => .error (if z = .poison then .code 2 else z)
        | .ok q => .ok q : Except Miss (Nat × State)) := by
      intro va
      split
      · simp
      · next e1 => exact (gives_ok _).2 ((engineNum_gives h ..).of_ok _ e1)
    refine (index _).bind fun ⟨idx, s1⟩ h1 => ?_
    have coords : Gives (fun _ => True) (rowCoords x idx e) := ⟨fun _ _ => trivial⟩
    refine coords.bind fun ⟨c, d⟩ _ => ?_
    dsimp only
    split
    · simpa using h1
    · refine (copyElem_gives h1 ..).bind fun ⟨w, s2⟩ h2 => ?_
      simpa using h2
theorem doElem_gives (x : Xfer) (e : Nat) : Gives (fun d => CellsOk d.s.mem.bytes) (doElem x e s) := by
  unfold doElem
  split
  · refine (copyElem_gives h ..).bind fun ⟨w, s1⟩ h1 => ?_
    simpa using h1
  · split
    · simpa using h
    · simpa using h
    · refine (haloElem_gives h ..).bind fun ⟨w, s1⟩ h1 => ?_
      simpa using h1
  · refine (rowGroup_gives h ..).bind fun s1 h1 => ?_
    simpa using h1
  · exact appendElem_gives h ..
  · exact kvElem_gives h ..
  · exact rowElem_gives h ..
  · exact rowElem_gives h ..
theorem poisonDest_cells (x : Xfer) (e : Nat) : CellsOk (poisonDest x e s).mem.bytes := by
  unfold poisonDest
  split
  · split
    · exact h
    · exact h
  · exact State.foldl_cells (fun t r ht => poisonRange_cells ht ..) _ h

/-! ## Items (R212, R213, R364) -/

theorem missed_cells (x : Xfer) (e : Nat) (m : Miss) : CellsOk (missed x e m s).s.mem.bytes := by
  unfold missed
  split
  · exact h
  · split
    · next e1 =>
      obtain ⟨r, -, hr⟩ := List.exists_of_findSome?_eq_some e1
      exact State.spanWaits_cells h _ _ _ hr
    · exact poisonDest_cells h ..
  · exact h
  · simpa using h
  · next t =>
    split
    · next e1 => exact recordFix_cells_of_eq h e1
    · next e1 => exact recordFix_cells_of_eq h e1
theorem performItem_cells (x : Xfer) (e : Nat) : CellsOk (performItem x e s).s.mem.bytes := by
  unfold performItem
  split
  · exact missed_cells h ..
  · next e1 => exact (doElem_gives h x e).of_ok _ e1
theorem runItem_cells (x : Xfer) (e : Nat) : CellsOk (runItem x e s).s.mem.bytes := by
  have perform := performItem_cells h x e
  unfold runItem
  split
  case h_1 =>
    split
    · split
      · exact h
      · exact perform
    · exact perform
  case h_2 =>
    split
    all_goals
      dsimp only
      split
      · exact h
      · exact perform
  case h_3 => exact performItem_cells (kvHeader_cells h ..) ..
  case h_6 => exact perform
  all_goals
    split
    · exact h
    · exact perform
theorem runItems_cells (x : Xfer) (n : Nat) : CellsOk (runItems x s n).s.mem.bytes := by
  induction n generalizing s x with
  | zero => exact h
  | succ n ih =>
    unfold runItems
    split
    · exact h
    dsimp only
    split
    · exact runItem_cells h ..
    · exact ih (runItem_cells h ..) _
theorem State.blockWaits_cells (f : FixSite) {t : State} (e : s.blockWaits f = some t) : CellsOk t.mem.bytes :=
  State.spanWaits_cells h _ _ _ e
theorem readParams_cells (x : Xfer) : CellsOk (readParams x s).s.mem.bytes := by
  unfold readParams
  split
  · next e => exact State.blockWaits_cells h _ e
  · simpa using h
  · exact h
  · exact h
  · next e => exact State.clearFixes_cells ((engineRead_gives h ..).cells e) _
omit h in
@[simp] theorem State.putXfer_mem (s : State) (k : Nat) (x : Xfer) : (s.putXfer k x).mem = s.mem := rfl
theorem execTransferStart_formed (k : Nat) : Formed (execTransferStart k s) := by
  unfold execTransferStart
  split
  · simpa using h
  · next x _ =>
    have h1 := readParams_cells h x
    dsimp only
    repeat' split
    all_goals simp [h, h1, runItems_cells]

/-! ## Fix-ups (R366) -/

theorem settleXfer_cells (x : Xfer) (i : Nat) : CellsOk (settleXfer x i s).s.mem.bytes := by
  unfold settleXfer
  split
  · exact h
  · exact settleFix_cells h ..
omit h in
/-- Items worked through one after another. -/
theorem Ran.foldl_cells {α : Type} {f : Ran → α → Ran} (hf : ∀ r a, CellsOk r.s.mem.bytes → CellsOk (f r a).s.mem.bytes)
    (l : List α) {r : Ran} (hr : CellsOk r.s.mem.bytes) : CellsOk (l.foldl f r).s.mem.bytes :=
  List.foldlRecOn (motive := fun r : Ran => CellsOk r.s.mem.bytes) l f hr fun r hr a _ => hf r a hr
theorem replayFix_cells (x : Xfer) (i : Nat) : CellsOk (replayFix x i s).s.mem.bytes := by
  unfold replayFix
  split
  · exact settleXfer_cells h ..
  · refine settleXfer_cells ?_ ..
    split
    · exact h
    · refine Ran.foldl_cells (fun r e hr => ?_) _ h
      dsimp only
      split
      · exact runItem_cells hr ..
      · exact runItem_cells hr ..
theorem replayAll_cells (x : Xfer) : CellsOk (replayAll x s).s.mem.bytes :=
  Ran.foldl_cells (fun _ _ hr => replayFix_cells hr ..) _ h
theorem abandonElem_cells (x : Xfer) (e : Nat) : CellsOk (abandonElem x e s).s.mem.bytes := by
  unfold abandonElem
  split
  · exact runItem_cells h ..
  · exact h
theorem ringFix_cells (x : Xfer) (i : Nat) : CellsOk (ringFix x i s).s.mem.bytes := by
  have read := State.readBlock_cells h x.site
  unfold ringFix
  split
  · exact h
  · dsimp only
    split
    · exact replayFix_cells (by simpa using read) ..
    split
    · exact settleXfer_cells (Ran.foldl_cells (fun _ _ hr => abandonElem_cells hr ..) _ read) ..
    · exact read
theorem ringXfers_cells (d : BitVec 2) : CellsOk (ringXfers d s).mem.bytes := by
  refine State.foldl_cells (fun t k ht => ?_) _ h
  dsimp only
  split
  · exact ht
  split
  · exact ht
  · exact Ran.foldl_cells (fun _ _ hr => ringFix_cells hr ..) _ ht

/-! ## Completing (R213, R214, R218) -/

omit h in
@[simp] theorem State.fillWritten_bytes (s : State) (x : Xfer) : (s.fillWritten x).1.mem.bytes = s.mem.bytes :=
  Memory.foldl_bytes (fun m _ => Memory.setFull_bytes m _ true) _ _
theorem finishXfer_cells (k : Nat) (x : Xfer) : CellsOk (finishXfer k x s).mem.bytes := by
  have h1 := State.engineWord_cells h x.iss (some (x.block + 8)) x.status none
  simp only [finishXfer]
  split
  · simpa using h1
  · simpa using h1
theorem execTransferComplete_formed (k : Nat) : Formed (execTransferComplete k s) := by
  unfold execTransferComplete
  split
  · simpa using h
  · next x _ =>
    have worked := fun n => runItems_cells (replayAll_cells h x) (replayAll x s).x n
    dsimp only
    split
    · simpa using h
    · generalize (if Config.choice s.tick (2 ^ 61) then _ else _ : Nat) = n
      have h1 := worked n
      generalize runItems _ _ n = q at h1
      repeat' split
      · simpa using h1
      · simpa using h1
      · simpa using State.askWord_cells (by simpa using h1) ..
      · simpa using finishXfer_cells (by simpa using h1) ..
theorem pushTiles_cells (x : Xfer) (n : Nat) : CellsOk (pushTiles x s n).1.mem.bytes := by
  induction n generalizing s x with
  | zero => exact h
  | succ n ih =>
    simp only [pushTiles]
    split
    · exact h
    split
    · exact h
    · refine ih ?_ _
      simp only [State.setForge_mem]
      rw [Memory.foldl_bytes]
      · exact h
      · exact fun m _ => Memory.setFull_bytes m _ true
theorem execCpykvTileFill_formed (k : Nat) : Formed (execCpykvTileFill k s) := by
  unfold execCpykvTileFill
  split
  · simpa using h
  dsimp only
  split
  · simpa using h
  · simpa using pushTiles_cells (runItems_cells h ..) ..

/-! ## Compute ways (R223 to R225, R353) -/

theorem State.spansWait_cells (l : List (Issuer × Nat × Nat)) {t : State} (e : s.spansWait l = some t) : CellsOk t.mem.bytes := by
  obtain ⟨r, -, hr⟩ := List.exists_of_findSome?_eq_some e
  exact State.spanWaits_cells h _ _ _ hr
theorem writeOpen_cells (r : Issuer × Nat × Nat) : CellsOk (writeOpen s r).mem.bytes := by
  refine State.foldl_cells (fun t k ht => ?_) _ h
  dsimp only
  split
  · next e => exact (engineWrite_gives ht ..).cells e
  · exact ht
omit h in
@[simp] theorem State.trimSlice_bytes (s : State) (k : BitVec 7) : (s.trimSlice k).mem.bytes = s.mem.bytes := by
  simp only [State.trimSlice]
  rw [State.foldl_bytes]
  exact fun s r => State.evict_bytes s (.hearth r.line)
theorem convert_cells (c : CoreId) (k : CtxId) (g : Grant) : CellsOk (convert_ c k g s).mem.bytes := by
  simp only [convert_]
  split
  · exact State.engineWord_cells (by simpa using h) ..
  split
  · exact h
  split
  · next e => exact State.spansWait_cells h _ e
  · refine State.engineWord_cells ?_ ..
    simp only [State.setCtxAt_mem]
    rw [State.foldl_bytes (fun s k => State.trimSlice_bytes s k)]
    exact State.foldl_cells (fun _ _ ht => writeOpen_cells ht _) _ h
theorem execWaygiveConversionComplete_formed (c : CoreId) (k : CtxId) :
    Formed (execWaygiveConversionComplete c k s) := by
  simp only [execWaygiveConversionComplete]
  repeat' split
  all_goals simp [h, State.askWord_cells, convert_cells]
theorem execWaytakeComplete_formed (c : CoreId) (k : CtxId) : Formed (execWaytakeComplete c k s) := by
  simp only [execWaytakeComplete]
  split
  · simpa using h
  split
  · simpa using h
  split
  · simpa using State.askWord_cells h ..
  · rw [formed_next]
    exact State.foldl_cells (fun _ _ ht => State.engineWord_cells ht ..) _ h
theorem execBsopPerform_formed (c : CoreId) (k : CtxId) : Formed (execBsopPerform c k s) := by
  simp only [execBsopPerform]
  repeat' split
  all_goals simpa using h

/-! ## Line maintenance (R227) -/

omit h in
@[simp] theorem State.flushLine_bytes (s : State) (n : Nat) : (s.flushLine n).1.mem.bytes = s.mem.bytes := by
  unfold State.flushLine
  split
  · rfl
  · exact State.writeHome_bytes ..
omit h in
@[simp] theorem State.dropCopies_bytes (s : State) (p : Place) : (s.dropCopies p).mem.bytes = s.mem.bytes := by
  have drop : ((linesOf [p]).foldl (fun s n => (s.tokenHome n).evictHearth n) s).mem.bytes = s.mem.bytes :=
    State.foldl_bytes (fun s n => by simp) _ s
  cases p with
  | remote pa => rfl
  | _ => exact drop
theorem execRangeMaintenanceComplete_formed (k : Nat) : Formed (execRangeMaintenanceComplete k s) := by
  unfold execRangeMaintenanceComplete
  split
  · simpa using h
  dsimp only
  split
  · simpa using h
  split
  · simpa using State.askWord_cells h ..
  · next r _ _ _ =>
    have flushed : ∀ (l : List Nat) (a : State × Nat), CellsOk a.1.mem.bytes →
        CellsOk (l.foldl (fun (a : State × Nat) n =>
          ((a.1.flushLine n).1, if (a.1.flushLine n).2 then a.2 + 1 else a.2)) a).1.mem.bytes := by
      intro l a ha
      exact List.foldlRecOn (motive := fun a : State × Nat => CellsOk a.1.mem.bytes) l _ ha
        fun a ha n _ => by simpa using ha
    rw [formed_next]
    refine State.engineWord_cells ?_ ..
    have h1 := flushed (linesOf (rangeLines s r.iss r.base.toNat r.len.toNat)) (s, 0) h
    split
    · dsimp only
      rw [State.foldl_bytes State.dropCopies_bytes]
      exact h1
    · exact h1
end

end Sys2Proof.Machine
end

-- ==== Sys2Proof/Proofs/FormMemory.lean ====
-- ==== Sys2Proof/Proofs/FormMemory.lean ====
section
/-! SUPPORT. The events of the memory system and of the fabric keep the canonical form of memory. -/

namespace Sys2Proof.Machine

section
variable {s : State} (h : CellsOk s.mem.bytes)
include h

/-! ## Buffered stores (R161, R289) -/

omit h in
@[simp] theorem State.keepStore_mem (s : State) (c : CoreId) (k : CtxId) (n : Nat) (l : List Store) :
    (s.keepStore c k n l).mem = s.mem := rfl
theorem memStep_cells (c : CoreId) (k : CtxId) (n : Nat) (st : Store) : CellsOk (memStep c k n st s).mem.bytes := by
  simp only [memStep]
  split
  · exact h
  split
  · exact h
  split
  · simpa using h
  have asked := needLines_cells (k := .ok .own) (fun t ht => ht)
    ((farLines ‹List Place›).filter fun p => !p.isRemote) .token (s := { s with cur := ⟨c, k, false⟩ }) h
  split
  · next e =>
    rw [e] at asked
    exact performStore_cells (by simpa using asked) ..
  · next e =>
    rw [e] at asked
    exact asked
  · exact h
theorem performSpill_cells (c : CoreId) (k : CtxId) (n : Nat) (st : Store) (m : Msg) (b : Bool) (r : BitVec 48) :
    CellsOk (performSpill c k n st m b r s).mem.bytes := by
  have made : ∀ (t : State) (r : Res), CellsOk t.mem.bytes → (spillNow m b st.va t fun s => .ok .own s) = r →
      CellsOk r.state.mem.bytes :=
    fun t r ht e => e ▸ spillNow_cells (k := .ok .own) (fun _ hu => hu) ht ..
  simp only [performSpill]
  split
  · next e => simpa using made _ _ (by exact h) e
  · next e => simpa using made _ _ (by exact h) e
  · next e => simpa using made _ _ (by exact h) e
theorem storeStep_cells (c : CoreId) (k : CtxId) (n : Nat) (st : Store) : CellsOk (storeStep c k n st s).mem.bytes := by
  simp only [storeStep]
  split
  · exact performSpill_cells h ..
  split
  · split
    · exact h
    · exact h
  · exact memStep_cells h ..
theorem execStorePerform_formed (c : CoreId) (k : CtxId) (n : Nat) : Formed (execStorePerform c k n s) := by
  simp only [execStorePerform]
  repeat' split
  · simpa using h
  · simpa using h
  · simpa using storeStep_cells h ..
  · simpa using h
theorem execPostedWriteRefused_formed (c : CoreId) (k : CtxId) (n : Nat) : Formed (execPostedWriteRefused c k n s) := by
  simp only [execPostedWriteRefused]
  repeat' split
  all_goals simpa using h

/-! ## NM operations (R160, R286) -/

theorem performNm_cells (c : CoreId) (k : CtxId) (op : NmOp) (ps : List Place) : CellsOk (performNm c k op ps s).mem.bytes := by
  simp only [performNm]
  split
  · exact h
  · exact writeBytes_cells h _ none
omit h in
@[simp] theorem State.asked_bytes (s : State) (n : Nat) : (s.asked n).mem.bytes = s.mem.bytes := Memory.setLine_bytes ..
theorem nmStep_cells (c : CoreId) (k : CtxId) (n : Nat) (hot : Bool) (op : NmOp) : CellsOk (nmStep c k n hot op s).mem.bytes := by
  simp only [nmStep]
  repeat' split
  all_goals simp [h, performNm_cells]
theorem execNmPerform_formed (c : CoreId) (k : CtxId) (n : Nat) (hot : Bool) : Formed (execNmPerform c k n hot s) := by
  simp only [execNmPerform]
  repeat' split
  all_goals simp [h, nmStep_cells]
theorem execBankEngineAck_formed (k : Nat) : Formed (execBankEngineAck k s) := by
  simp only [execBankEngineAck]
  repeat' split
  all_goals simp [h, performNm_cells]

/-! ## Lines, scrubbing and ALIASF (R157, R283, R292, R395) -/

theorem execLineMigrate_formed (n : Nat) (t : BitVec 7) : Formed (execLineMigrate n t s) := by
  simp only [execLineMigrate]
  repeat' split
  all_goals simp [h]
theorem execMemoryRequestPerform_formed (k : Nat) : Formed (execMemoryRequestPerform k s) := by
  unfold execMemoryRequestPerform
  repeat' split
  all_goals simpa using h
theorem execRemoteWriteAck_formed (n : Nat) : Formed (execRemoteWriteAck n s) := by
  simp only [execRemoteWriteAck]
  split
  all_goals simpa using h
theorem execDramScrub_formed (a : Nat) : Formed (execDramScrub a s) := by
  unfold execDramScrub
  split
  · exact (formed_next _).2 (Memory.setBytes_cells h _)
  · simpa using h
omit h in
@[simp] theorem Memory.align_bytes (m : Memory) (w : Nat) : (m.align w).bytes = m.bytes := by
  unfold Memory.align
  split <;> rfl
omit h in
@[simp] theorem alignLine_bytes (s : State) (p : Place) : (alignLine s p).mem.bytes = s.mem.bytes := by
  unfold alignLine
  split
  · exact (Memory.foldl_bytes Memory.align_bytes _ _).trans (State.foldl_bytes (fun s n => by simp) _ s)
  · rfl
theorem execAliasfComplete_formed (c : CoreId) (k : CtxId) : Formed (execAliasfComplete c k s) := by
  simp only [execAliasfComplete]
  repeat' split
  all_goals simp [h, State.foldl_bytes alignLine_bytes]

/-! ## The host (R375 to R377) -/

theorem snoop_formed {k : Nat → State → State} (hk : ∀ n t, CellsOk t.mem.bytes → CellsOk (k n t).mem.bytes) (n : Nat) :
    Formed (snoop n s k) := by
  simp only [snoop, formed_next]
  split
  · exact h
  · exact hk _ _ (by simpa using h)
theorem execCxlSnpdata_formed (n : Nat) : Formed (execCxlSnpdata n s) := by
  unfold execCxlSnpdata
  split
  · simpa using h
  · exact snoop_formed h (fun n t ht => by simpa using ht) _
theorem execCxlCacheResponse_formed (k : Nat) : Formed (execCxlCacheResponse k s) := by
  unfold execCxlCacheResponse
  repeat' split
  · simpa using h
  · simpa using h
  · exact (formed_next _).2 (State.fillHost_cells (by exact h) ..)
theorem execHostMemRead_formed (a : BitVec 48) : Formed (execHostMemRead a s) := by
  unfold execHostMemRead
  repeat' split
  all_goals simp [h]
theorem execHostMemWrite_formed (a : BitVec 48) (n : BitVec 4) (v : Word) : Formed (execHostMemWrite a n v s) := by
  simp only [execHostMemWrite]
  repeat' split
  all_goals simp [h, engineStore_cells]
theorem execBisnpResponse_formed (n : Nat) (b : Bool) : Formed (execBisnpResponse n b s) := by
  simp only [execBisnpResponse]
  repeat' split
  all_goals simpa using h

/-! ## Links (R380, R404) -/

omit h in
@[simp] theorem State.sendOn_mem (s : State) (l k : Link) : (s.sendOn l k).mem = s.mem := by
  simp only [State.sendOn]
  repeat' split
  all_goals simp
omit h in
@[simp] theorem State.redirect_mem (s : State) (l : Link) : (s.redirect l).mem = s.mem := by
  simp only [State.redirect]
  repeat' split
  · rfl
  · rfl
  · exact State.foldl_mem (fun _ _ => State.sendOn_mem ..) _ s
  · exact State.foldl_mem (fun _ _ => State.sendOn_mem ..) _ s
  · exact State.foldl_mem (fun _ _ => State.refusedNotice_mem ..) _ _
omit h in
@[simp] theorem State.redirectAll_mem (s : State) : s.redirectAll.mem = s.mem := by
  unfold State.redirectAll
  split
  · exact State.foldl_mem (fun _ _ => State.redirect_mem ..) _ s
  · rfl
omit h in
@[simp] theorem linkDown_mem (l : Link) (s : State) : (linkDown l s).mem = s.mem := by
  simp only [linkDown]
  split <;> simp
omit h in
@[simp] theorem nakReplay_mem (l : Link) (a : BitVec 12) (s : State) : (nakReplay l a s).mem = s.mem := by
  simp only [nakReplay]
  repeat' split
  all_goals simp

/-! ## Inbound accesses and answers (R384, R385, R402) -/

omit h in
@[simp] theorem inboundMiss_mem (a : Inbound) (n : Nat) (pas : List Nat) (ps : List Place) (s : State) :
    (inboundMiss a n pas ps s).mem = s.mem := by
  unfold inboundMiss
  split
  · rfl
  · refine State.foldl_mem (fun s p => ?_) _ s
    repeat' split
    all_goals simp
theorem performInbound_cells (a : Inbound) (n : Nat) : CellsOk (Sum.elim id id (performInbound a n s)).mem.bytes := by
  have stored : ∀ (t : State) (ps : List Place), CellsOk t.mem.bytes →
      CellsOk (engineStore t none (ps.zip (toBytes a.value a.size)) (inboundTag a n) a.rd).mem.bytes :=
    fun t ps ht => engineStore_cells ht ..
  simp only [performInbound]
  split
  · exact h
  split
  · simpa using h
  · exact h
  · next ps _ _ _ =>
    have read : CellsOk (if a.rd then inboundMiss a n
        ((List.range a.size).map (s.pkg.toNat * 2 ^ 51 + a.space.toNat * 2 ^ 48 + a.off.toNat + ·)) ps (s.engineReads none ps)
        else s).mem.bytes := by
      split
      · simpa using h
      · exact h
    split
    · exact read
    · simp only [Sum.elim_inr, id]
      split
      · exact stored _ _ read
      · simpa using stored _ _ read
      · simpa using stored _ _ read
theorem inbound_cells (a : Inbound) (n : Nat) : CellsOk (Sum.elim id id (inbound a n s)).mem.bytes := by
  have made := performInbound_cells h a n
  simp only [inbound]
  split
  · exact h
  split
  · exact h
  split
  · split
    · next e => simpa [e] using made
    · next e => simpa [e] using made
  · simpa using h
omit h in
@[simp] theorem orphan_mem (s : State) : (orphan s).mem = s.mem := rfl
omit h in
@[simp] theorem lateReply_mem (s : State) : (lateReply s).mem = s.mem := rfl
omit h in
@[simp] theorem fabricReply_bytes (s : State) : (fabricReply s).mem.bytes = s.mem.bytes := by
  simp only [fabricReply]
  repeat' split
  all_goals simp

/-! ## Receiving (R379 to R385, R402) -/

theorem acceptPayload_cells (l : Link) (f : BitVec 576) : CellsOk (Sum.elim id id (acceptPayload l f s)).mem.bytes := by
  simp only [acceptPayload]
  repeat' split
  all_goals simp [h, inbound_cells]
theorem execFabricFlitReceive_formed (l : Link) (f : BitVec 576) : Formed (execFabricFlitReceive l f s) := by
  have taken : ∀ (t : State) (r : State ⊕ State), CellsOk t.mem.bytes → acceptPayload l f t = r →
      CellsOk (Sum.elim id id r).mem.bytes :=
    fun t r ht e => e ▸ acceptPayload_cells ht l f
  simp only [execFabricFlitReceive]
  split
  · simpa using h
  split
  · simpa using h
  split
  · simpa using h
  split
  · simpa using h
  have credited : ∀ (b : Prop) [Decidable b] (t : State) (x : FabricLink), CellsOk t.mem.bytes →
      CellsOk (if b then t.setLink l x else t).mem.bytes := by
    intro b _ t x ht
    split
    · simpa using ht
    · exact ht
  split
  · rw [formed_next, State.redirectAll_mem]
    exact credited _ _ _ (by simpa using h)
  · split
    · next e => simpa using taken _ _ (credited _ _ _ (by simpa using h)) e
    · next e => simpa using taken _ _ (credited _ _ _ (by simpa using h)) e
theorem execFabricNakReplay_formed (l : Link) (a : BitVec 12) : Formed (execFabricNakReplay l a s) := by
  unfold execFabricNakReplay
  split
  all_goals simpa using h
omit h in
@[simp] theorem State.noteStart_mem (s : State) (n : Nat) (c : Byte) : (s.noteStart n c).mem = s.mem := by
  simp only [State.noteStart]
  split <;> rfl
theorem execFabricLinkUp_formed (l : Link) (x y : BitVec 4) (z : BitVec 5) : Formed (execFabricLinkUp l x y z s) := by
  simp only [execFabricLinkUp]
  repeat' split
  all_goals simpa using h
theorem execFabricRequestTimeout_formed (k : Nat) : Formed (execFabricRequestTimeout k s) := by
  unfold execFabricRequestTimeout
  repeat' split
  all_goals simpa using h
theorem execEndpointAbsentReply_formed (b : Bool) (k : Nat) : Formed (execEndpointAbsentReply b k s) := by
  unfold execEndpointAbsentReply
  repeat' split
  all_goals simpa using h
end

end Sys2Proof.Machine
end

-- ==== Sys2Proof/Proofs/FormHeap.lean ====
-- ==== Sys2Proof/Proofs/FormHeap.lean ====
section
/-! SUPPORT. The equality heap keeps the canonical form of memory: the engines' work, its fix-ups, the operations and the
items. -/

namespace Sys2Proof.Machine

/-! ## Work on memory -/

/-- Work that starts from memory in its canonical form ends so, where it ends with a value. -/
structure Eng.Keeps {α : Type} (e : Eng α) : Prop where
  run : ∀ s : State, CellsOk s.mem.bytes → Gives PairFormed (e s)
section
variable {α β : Type} {e : Eng α} {f : α → Eng β}
theorem keeps_pure (a : α) : Eng.Keeps (pure a : Eng α) := ⟨fun _ h => (gives_ok _).2 h⟩
theorem Eng.Keeps.bind (h : e.Keeps) (hf : ∀ a, (f a).Keeps) : Eng.Keeps (e >>= f) :=
  ⟨fun s hs => (h.run s hs).bind fun r hr => (hf r.1).run r.2 hr⟩
theorem keeps_get_bind {g : State → Eng β} (hg : ∀ s : State, CellsOk s.mem.bytes → (g s).Keeps) :
    Eng.Keeps ((get : Eng State) >>= g) :=
  ⟨fun s hs => (hg s hs).run s hs⟩
theorem keeps_set {s : State} (h : CellsOk s.mem.bytes) : Eng.Keeps (set s : Eng PUnit) := ⟨fun _ _ => (gives_ok _).2 h⟩
theorem keeps_get : Eng.Keeps (get : Eng State) := ⟨fun _ h => (gives_ok _).2 h⟩
theorem keeps_modify {g : State → State} (hg : ∀ s, CellsOk s.mem.bytes → CellsOk (g s).mem.bytes) :
    Eng.Keeps (modify g : Eng PUnit) :=
  ⟨fun s h => (gives_ok _).2 (hg s h)⟩
theorem Eng.Keeps.ite {b : Prop} [Decidable b] {g : Eng α} (h : e.Keeps) (hg : g.Keeps) : Eng.Keeps (if b then e else g) := by
  split
  · exact h
  · exact hg
/-- A state made in the course of the work. -/
theorem Eng.Keeps.cells (h : e.Keeps) {s t : State} {a : α} (hs : CellsOk s.mem.bytes) (he : e s = .ok (a, t)) :
    CellsOk t.mem.bytes :=
  (h.run s hs).cells he
end

/-! ## The region (R308 to R310) -/

theorem hGet_keeps (c : HeapConf) (o n : Nat) : (hGet c o n).Keeps := ⟨fun _ h => engineNum_gives h ..⟩
theorem hPut_keeps (c : HeapConf) (o n v : Nat) : (hPut c o n v).Keeps := by
  refine ⟨fun s h => ?_⟩
  unfold hPut
  split
  · simp
  · next e => exact (gives_ok _).2 ((engineWrite_gives h ..).cells e)
theorem getAlloc_keeps (c : HeapConf) : (getAlloc c).Keeps := (hGet_keeps ..).bind fun _ => keeps_pure _
theorem getUhead_keeps (c : HeapConf) (i : Nat) : (getUhead c i).Keeps := (hGet_keeps ..).bind fun _ => keeps_pure _
theorem getNhead_keeps (c : HeapConf) (i : Nat) : (getNhead c i).Keeps := (hGet_keeps ..).bind fun _ => keeps_pure _
theorem findRoot_keeps (c : HeapConf) (n i : Nat) : (findRoot c n i).Keeps := by
  induction n generalizing i with
  | zero => exact keeps_pure _
  | succ n ih => exact (hGet_keeps ..).bind fun _ => (keeps_pure _).ite (ih _)
theorem root_keeps (c : HeapConf) (i : Nat) : (root c i).Keeps := (keeps_pure _).ite (findRoot_keeps ..)
theorem getNode_keeps (c : HeapConf) (n : Nat) : (getNode c n).Keeps := (hGet_keeps ..).bind fun _ => keeps_pure _
theorem nodeList_keeps (c : HeapConf) (n i : Nat) : (nodeList c n i).Keeps := by
  induction n generalizing i with
  | zero => exact keeps_pure _
  | succ n ih => exact (keeps_pure _).ite ((getNode_keeps ..).bind fun _ => (ih _).bind fun _ => keeps_pure _)
theorem classNodes_keeps (c : HeapConf) (i : Nat) : (classNodes c i).Keeps :=
  (getNhead_keeps ..).bind fun _ => nodeList_keeps ..
theorem useCells_keeps (c : HeapConf) (n u : Nat) : (useCells c n u).Keeps := by
  induction n generalizing u with
  | zero => exact keeps_pure _
  | succ n ih => exact (keeps_pure _).ite ((hGet_keeps ..).bind fun _ => (ih _).bind fun _ => keeps_pure _)
theorem cellEntries_keeps (c : HeapConf) (u : Nat) : (cellEntries c u).Keeps := (hGet_keeps ..).bind fun _ => keeps_pure _
theorem allEntries_keeps (c : HeapConf) (l : List Nat) : (allEntries c l).Keeps := by
  induction l with
  | nil => exact keeps_pure _
  | cons u t ih => exact (cellEntries_keeps ..).bind fun _ => ih.bind fun _ => keeps_pure _
theorem signature_keeps (c : HeapConf) (x : Node) : (signature c x).Keeps :=
  (root_keeps ..).bind fun _ => (root_keeps ..).bind fun _ => (root_keeps ..).bind fun _ => keeps_pure _

/-! ## Inserting and merging (R235, R314 to R317) -/

theorem childRoots_keeps (c : HeapConf) (l : List Nat) : (childRoots c l).Keeps := by
  induction l with
  | nil => exact keeps_pure _
  | cons i t ih => exact (root_keeps ..).bind fun _ => ih.bind fun _ => keeps_pure _
theorem fullRoots_keeps (c : HeapConf) (l : List Nat) : (fullRoots c l).Keeps := by
  induction l with
  | nil => exact keeps_pure _
  | cons r t ih =>
    refine (getUhead_keeps ..).bind fun u => ?_
    have rest (e : List Nat) : Eng.Keeps (do
        let l ← fullRoots c t
        pure (if u = 0 || 6 ≤ e.length then r :: l else l)) := ih.bind fun _ => keeps_pure _
    exact Eng.Keeps.ite ((keeps_pure _).bind rest) ((cellEntries_keeps ..).bind rest)
theorem addEntry_keeps (c : HeapConf) (n r : Nat) : (addEntry c n r).Keeps :=
  (getUhead_keeps ..).bind fun _ => (cellEntries_keeps ..).bind fun _ => hPut_keeps ..
theorem addCell_keeps (c : HeapConf) (n v r : Nat) : (addCell c n v r).Keeps :=
  (getUhead_keeps ..).bind fun _ => (hPut_keeps ..).bind fun _ => hPut_keeps ..
theorem eachOf_keeps {α : Type} {f : α → Eng Unit} (hf : ∀ a, (f a).Keeps) (l : List α) : (eachOf f l).Keeps := by
  induction l with
  | nil => exact keeps_pure _
  | cons a t ih => exact (hf a).bind fun _ => ih
theorem insCanon_keeps (c : HeapConf) (a b d : Word) : (insCanon c a b d).Keeps := by
  refine (getAlloc_keeps c).bind fun _ => (keeps_pure _).ite ((keeps_pure _).ite ?_)
  exact (root_keeps ..).bind fun _ => (root_keeps ..).bind fun _ => (root_keeps ..).bind fun _ => keeps_pure _
theorem staleTwin_keeps (c : HeapConf) (g : Sig) (l : List Nat) : (staleTwin c g l).Keeps := by
  induction l with
  | nil => exact keeps_pure _
  | cons n t ih => exact (getNode_keeps ..).bind fun _ => (keeps_pure _).ite ih
theorem hitId_keeps (c : HeapConf) (g : Sig) (n : Nat) : (hitId c g n).Keeps := by
  refine (getNode_keeps ..).bind fun _ => (root_keeps ..).bind fun _ => keeps_get_bind fun s hs => ?_
  refine (classNodes_keeps ..).bind fun _ => (staleTwin_keeps ..).bind fun _ => (keeps_set hs).bind fun _ => ?_
  dsimp only
  split
  · exact keeps_pure _
  · exact keeps_pure _
  · exact keeps_pure _
theorem insert_keeps (c : HeapConf) (h : Heap) (k : Word) (a b : Nat × Nat × Nat) : (insert c h k a b).Keeps := by
  unfold insert
  dsimp only
  split
  · exact (hitId_keeps ..).bind fun _ => keeps_pure _
  · refine (getAlloc_keeps c).bind fun _ => (hGet_keeps ..).bind fun _ => (childRoots_keeps ..).bind fun _ => ?_
    refine (fullRoots_keeps ..).bind fun _ => (keeps_pure _).ite ((keeps_pure _).ite ((keeps_pure _).ite ?_))
    refine keeps_get_bind fun s _ => (hPut_keeps ..).bind fun _ => (hPut_keeps ..).bind fun _ => ?_
    refine (hPut_keeps ..).bind fun _ => (eachOf_keeps (fun _ => addEntry_keeps ..) _).bind fun _ => ?_
    exact (eachOf_keeps (fun _ => addCell_keeps ..) _).bind fun _ => keeps_pure _
theorem unionStep_keeps (c : HeapConf) (a b : Nat) : (unionStep c a b).Keeps := by
  refine (root_keeps ..).bind fun _ => (root_keeps ..).bind fun _ => (keeps_pure _).ite ?_
  refine (hPut_keeps ..).bind fun _ => (hGet_keeps ..).bind fun _ => (hGet_keeps ..).bind fun _ => ?_
  refine (hPut_keeps ..).bind fun _ => (classNodes_keeps ..).bind fun _ => (getNhead_keeps ..).bind fun _ => ?_
  refine (hPut_keeps ..).bind fun _ => (getUhead_keeps ..).bind fun _ => (useCells_keeps ..).bind fun _ => ?_
  refine (allEntries_keeps ..).bind fun _ => (getUhead_keeps ..).bind fun _ => (useCells_keeps ..).bind fun _ => ?_
  exact ((hPut_keeps ..).bind fun _ => keeps_pure _).ite ((hPut_keeps ..).bind fun _ => keeps_pure _)
theorem resignNode_keeps (c : HeapConf) (h : Heap) (p : Nat) : (resignNode c h p).Keeps := by
  refine (keeps_pure _).ite ((getNode_keeps ..).bind fun _ => (keeps_pure _).ite ?_)
  refine (signature_keeps ..).bind fun _ => ?_
  dsimp only
  split
  · exact keeps_pure _
  · refine (getNode_keeps ..).bind fun _ => (hPut_keeps ..).bind fun _ => ?_
    exact (root_keeps ..).bind fun _ => (root_keeps ..).bind fun _ => keeps_pure _

/-! ## Configuring, matching and reading back (R233, R238 to R243) -/

theorem zeroRegion_keeps (c : HeapConf) (n o : Nat) : (zeroRegion c n o).Keeps := by
  induction n generalizing o with
  | zero => exact keeps_pure _
  | succ n ih => exact (hPut_keeps ..).bind fun _ => ih _
theorem rebuild_keeps (c : HeapConf) (n : Nat) : (rebuild c n).Keeps := by
  induction n with
  | zero => exact keeps_pure _
  | succ n ih =>
    refine ih.bind fun _ => (getNode_keeps ..).bind fun _ => ?_
    exact ((signature_keeps ..).bind fun _ => keeps_pure _).ite (keeps_pure _)
theorem prepareRegion_keeps (c : HeapConf) (b : Bool) : (prepareRegion c b).Keeps :=
  ((zeroRegion_keeps ..).bind fun _ => keeps_pure _).ite ((hGet_keeps ..).bind fun _ => rebuild_keeps ..)
theorem gather_keeps {α β : Type} {f : α → Eng (List β)} (hf : ∀ a, (f a).Keeps) (l : List α) : (gather f l).Keeps := by
  induction l with
  | nil => exact keeps_pure _
  | cons a t ih => exact (hf a).bind fun _ => ih.bind fun _ => keeps_pure _
theorem through_keeps {α : Type} {f : α → Env → Eng (List Env)} (hf : ∀ a e, (f a e).Keeps) (l : List α) (es : List Env) :
    (through f l es).Keeps := by
  induction l generalizing es with
  | nil => exact keeps_pure _
  | cons a t ih => exact (gather_keeps (hf a) _).bind fun _ => ih _
theorem matchNode_keeps (c : HeapConf) (b : List Byte) {f : Nat × Nat → Env → Eng (List Env)} (hf : ∀ a e, (f a e).Keeps)
    (i : Nat) (e : Env) (r : Bool) (n : Nat) : (matchNode c b f i e r n).Keeps :=
  (getNode_keeps ..).bind fun _ => (keeps_pure _).ite (through_keeps hf ..)
theorem matchClass_keeps (c : HeapConf) (b : List Byte) (d : Nat) (p : Nat × Nat) (e : Env) : (matchClass c b d p e).Keeps := by
  induction d generalizing p e with
  | zero => exact keeps_pure _
  | succ d ih =>
    refine (root_keeps ..).bind fun _ => Eng.Keeps.ite ?_ ?_
    · exact (keeps_pure _).ite (keeps_pure _)
    · exact (classNodes_keeps ..).bind fun _ => gather_keeps (fun _ => matchNode_keeps _ _ (fun _ _ => ih ..) ..) _
theorem visitId_keeps (c : HeapConf) (b : List Byte) (i : Nat) : (visitId c b i).Keeps := by
  refine (getAlloc_keeps c).bind fun _ => (keeps_pure _).ite ((root_keeps ..).bind fun _ => (keeps_pure _).ite ?_)
  refine (classNodes_keeps ..).bind fun _ => ?_
  exact (gather_keeps (fun _ => matchNode_keeps _ _ (fun _ _ => matchClass_keeps ..) ..) _).bind fun _ => keeps_pure _
theorem engineRead_keeps (i : Issuer) (va n : Nat) (c : CoreId) : Eng.Keeps fun s => engineRead s i va n c :=
  ⟨fun _ h => engineRead_gives h ..⟩
theorem enumClass_keeps (c : HeapConf) (o : HeapOp) (i b : Word) : (enumClass c o i b).Keeps := by
  refine (getAlloc_keeps c).bind fun _ => (keeps_pure _).ite ((root_keeps ..).bind fun _ => ?_)
  refine (classNodes_keeps ..).bind fun _ => Eng.Keeps.bind ⟨fun _ h => engineNum_gives h ..⟩ fun _ => ?_
  refine Eng.Keeps.bind ⟨fun s h => ?_⟩ fun _ => keeps_pure _
  split
  · simp
  · next e => exact (gives_ok _).2 ((writeAll_gives h ..).of_ok _ e)
theorem readNode_keeps (c : HeapConf) (o : HeapOp) (i : Word) : (readNode c o i).Keeps :=
  (keeps_pure _).ite ((getNode_keeps ..).bind fun _ => (keeps_pure _).ite (keeps_pure _))
theorem findId_keeps (c : HeapConf) (i : Word) : (findId c i).Keeps :=
  (getAlloc_keeps c).bind fun _ => (keeps_pure _).ite ((keeps_pure _).ite ((root_keeps ..).bind fun _ => keeps_pure _))
theorem statItem_keeps (c : HeapConf) (h : Heap) (i : Word) : (statItem c h i).Keeps :=
  Eng.Keeps.ite ((getAlloc_keeps c).bind fun _ => keeps_pure _)
    (Eng.Keeps.ite ((hGet_keeps ..).bind fun _ => keeps_pure _) ((keeps_pure _).ite (keeps_pure _)))

section
variable {s : State} (h : CellsOk s.mem.bytes)
include h
theorem bindingMsg_gives (o : HeapOp) (r : Option (List Byte)) (n : Nat) (e : Env) : Gives PairFormed (bindingMsg s o r n e) := by
  have scored : Gives (fun q : Nat × Option Nat × State => CellsOk q.2.2.mem.bytes) (match r with
      | none => .ok (0, none, s)
      | some b =>
        if rankTable b = 0 then .ok ((BitVec.ofInt 32 (rankScore b []).1).toNat, some (rankScore b []).2, s)
        else match engineRead s o.iss (rankTable b + 32 * (if fromBytes ((o.blk.drop 11).take 1) = 8 then n
            else e.toList.getD (fromBytes ((o.blk.drop 11).take 1)) 0)) 32 with
          | .error e => .error e
          | .ok (l, s1) => .ok ((BitVec.ofInt 32 (rankScore b (l.map fun x => x.toInt)).1).toNat,
              some (rankScore b (l.map fun x => x.toInt)).2, s1) : Except Miss (Nat × Option Nat × State)) := by
    split
    · simpa using h
    split
    · simpa using h
    split
    · simp
    · next e1 => exact (gives_ok _).2 ((engineRead_gives h ..).cells e1)
  simp only [bindingMsg]
  split
  · simp
  · next e1 => exact (gives_ok _).2 (scored.of_ok _ e1)
theorem bindingMsgs_gives (o : HeapOp) (r : Option (List Byte)) (n : Nat) (l : List Env) :
    Gives PairFormed (bindingMsgs s o r n l) := by
  induction l generalizing s with
  | nil => exact (gives_ok _).2 h
  | cons e t ih =>
    unfold bindingMsgs
    split
    · simp
    · next e1 =>
      have h1 := (bindingMsg_gives h ..).cells e1
      split
      · simp
      · next e2 => exact (gives_ok _).2 ((ih h1).cells e2)

/-! ## Moves of the engines (R231 to R245) -/

theorem settleHeap_cells (n : Nat) : CellsOk (settleHeap n s).mem.bytes := by
  unfold settleHeap
  split
  · exact h
  · refine State.foldl_cells (fun t k ht => ?_) _ h
    dsimp only
    split
    · exact ht
    · simpa using settleFix_cells ht ..
theorem fixDone_cells (n e : Nat) : CellsOk (fixDone n e s).mem.bytes := by
  simp only [fixDone]
  split
  · exact h
  · exact settleHeap_cells (by simpa using h) _
theorem heapMiss_cells (n : Nat) (f : FixSite) (e t : Nat) (m : Miss) : CellsOk (heapMiss n f e t m s).mem.bytes := by
  simp only [heapMiss]
  split
  · exact h
  · simpa using h
  · next u =>
    split
    · next e1 => exact recordFix_cells_of_eq h e1
    · next e1 => exact fixDone_cells (by exact recordFix_cells_of_eq h e1) ..
  · exact fixDone_cells (by simpa using h) ..
theorem finishOp_cells (n k : Nat) (o : HeapOp) (l : List Word) : CellsOk (finishOp n k o l s).mem.bytes := by
  by_cases hr : o.regs.isEmpty
  · simp only [finishOp, hr, if_true]
    refine State.engineWord_cells ?_ ..
    split <;> simpa using h
  · simp only [finishOp, if_neg hr]
    rw [State.setIssuerCtx_mem]
    split <;> simpa using h
theorem heapWork_cells {α : Type} (n : Nat) (f : FixSite) (o : HeapOp) {e : Eng α} (he : e.Keeps) {k : α → State → State}
    (hk : ∀ a t, CellsOk t.mem.bytes → CellsOk (k a t).mem.bytes) : CellsOk (heapWork n f o e s k).mem.bytes := by
  unfold heapWork
  split
  · exact heapMiss_cells h ..
  · next e1 => exact hk _ _ (fixDone_cells (he.cells h e1) ..)
omit h in
@[simp] theorem State.putOp_mem (s : State) (n k : Nat) (o : HeapOp) : (s.putOp n k o).mem = s.mem := rfl
theorem runCfg_cells (n k : Nat) (o : HeapOp) (d : Word) : CellsOk (runCfg n k o d s).mem.bytes := by
  simp only [runCfg]
  split
  · exact h
  split
  · repeat' split
    · exact finishOp_cells h ..
    · exact settleHeap_cells h _
    · simpa using finishOp_cells h ..
  split
  · exact finishOp_cells h ..
  split
  · refine heapWork_cells h _ _ _ (engineRead_keeps ..) fun l t ht => ?_
    split
    · exact finishOp_cells ht ..
    split
    · next e => exact State.blockWaits_cells ht _ e
    · simpa using State.clearFixes_cells ht _
  · split
    · exact h
    · refine heapWork_cells h _ _ _ (prepareRegion_keeps ..) fun l t ht => ?_
      exact finishOp_cells (by simpa using ht) ..
theorem runMatch_cells (n k : Nat) (o : HeapOp) (c : HeapConf) (f : FixSite) (b r : Word) :
    CellsOk (runMatch n k o c f b r s).mem.bytes := by
  simp only [runMatch]
  split
  · split
    · exact h
    · refine heapWork_cells h _ _ _ (engineRead_keeps ..) fun l t ht => ?_
      split
      · exact finishOp_cells ht ..
      · exact ht
  split
  · exact h
  split
  · split
    · exact heapMiss_cells h ..
    · next e =>
      have h1 := (visitId_keeps ..).cells h e
      split
      · exact heapMiss_cells h ..
      · next e2 => simpa using fixDone_cells ((bindingMsgs_gives h1 ..).cells e2) ..
  · exact finishOp_cells h ..
theorem runRank_cells (n k : Nat) (o : HeapOp) (f : FixSite) (b : Word) : CellsOk (runRank n k o f b s).mem.bytes := by
  simp only [runRank]
  split
  · exact h
  split
  · exact finishOp_cells (by simpa using h) ..
  · refine heapWork_cells h _ _ _ (engineRead_keeps ..) fun l t ht => ?_
    split
    · exact finishOp_cells ht ..
    · exact finishOp_cells (by simpa using ht) ..
theorem acceptMerge_cells (n k : Nat) (o : HeapOp) (c : HeapConf) (f : FixSite) (a b : Word) :
    CellsOk (acceptMerge n k o c f a b s).mem.bytes := by
  refine heapWork_cells h _ _ _ (getAlloc_keeps c) fun l t ht => ?_
  dsimp only
  split
  · exact finishOp_cells ht ..
  · simpa using ht
theorem runInsert_cells (n k : Nat) (o : HeapOp) (c : HeapConf) (f : FixSite) (a b d : Word) :
    CellsOk (runInsert n k o c f a b d s).mem.bytes := by
  unfold runInsert
  split
  · split
    · exact h
    · exact finishOp_cells h ..
  split
  · refine heapWork_cells h _ _ _ (insCanon_keeps ..) fun r t ht => ?_
    split
    · exact finishOp_cells ht ..
    · simpa using ht
  · refine heapWork_cells h _ _ _ (insert_keeps ..) fun r t ht => ?_
    split
    · exact finishOp_cells (by simpa using ht) ..
    · simpa using ht
theorem runOp_cells (n k : Nat) (o : HeapOp) (c : HeapConf) : CellsOk (runOp n k o c s).mem.bytes := by
  have one : ∀ (f : FixSite) {e : Eng Word}, e.Keeps →
      CellsOk (heapWork n f o e s fun w s => finishOp n k o [w] s).mem.bytes :=
    fun f _ he => heapWork_cells h _ f o he fun _ _ ht => finishOp_cells ht ..
  simp only [runOp]
  split
  · exact runCfg_cells h ..
  · exact runInsert_cells h ..
  · exact one _ (findId_keeps ..)
  · split
    · exact acceptMerge_cells h ..
    · exact h
  · exact runMatch_cells h ..
  · exact heapWork_cells h _ _ o (readNode_keeps ..) fun _ _ ht => finishOp_cells ht ..
  · exact one _ (enumClass_keeps ..)
  · exact runRank_cells h ..
  · exact one _ (statItem_keeps ..)
theorem execHeapOpComplete_formed (n k : Nat) : Formed (execHeapOpComplete n k s) := by
  simp only [execHeapOpComplete]
  split
  · exact (formed_next _).2 (settleHeap_cells h _)
  split
  · rw [formed_next]
    split
    · exact h
    · exact State.askWord_cells h ..
  split
  · rw [formed_next]
    split
    · exact h
    · exact finishOp_cells h ..
  split
  · exact (formed_next _).2 (runCfg_cells h ..)
  · exact (formed_next _).2 (finishOp_cells h ..)
  · exact (formed_next _).2 (runOp_cells h ..)

/-! ## Items (R316 to R321) -/

omit h in
@[simp] theorem itemDone_mem (n k : Nat) (t : Item) (l : List Work) (b : Bool) (x : Heap) (s : State) :
    (itemDone n k t l b x s).mem = s.mem := rfl
theorem runItemWork_cells (n k : Nat) (t : Item) (c : HeapConf) {e : Eng State} (he : e.Keeps) :
    CellsOk (runItemWork n k t c e s).mem.bytes := by
  simp only [runItemWork]
  split
  · next e1 => exact fixDone_cells (he.cells h e1) ..
  · split
    all_goals simpa using heapMiss_cells h ..
theorem execUnionStep_formed (n k : Nat) : Formed (execUnionStep n k s) := by
  simp only [execUnionStep]
  repeat' split
  case h_2.isFalse =>
    refine (formed_next _).2 (runItemWork_cells h _ _ _ _ ?_)
    refine (unionStep_keeps ..).bind fun r => (keeps_modify fun t ht => ?_).bind fun _ => keeps_get
    split
    · simpa using ht
    · simpa using ht
  all_goals simpa using h
theorem execResign_formed (n k : Nat) : Formed (execResign n k s) := by
  simp only [execResign]
  repeat' split
  case h_2.isFalse =>
    refine (formed_next _).2 (runItemWork_cells h _ _ _ _ ?_)
    exact (resignNode_keeps ..).bind fun r => (keeps_modify fun t ht => by simpa using ht).bind fun _ => keeps_get
  all_goals simpa using h
theorem execMergeComplete_formed (n k : Nat) : Formed (execMergeComplete n k s) := by
  simp only [execMergeComplete]
  split
  · simpa using h
  split
  · simpa using h
  split
  · exact (formed_next _).2 (State.askWord_cells h ..)
  · exact (formed_next _).2 (finishOp_cells h ..)
theorem execBindingSend_formed (n : Nat) : Formed (execBindingSend n s) := by
  simp only [execBindingSend]
  repeat' split
  all_goals simpa using h

/-! ## Rings (R245, R366) -/

omit h in
@[simp] theorem abandonHeap_mem (n e : Nat) (s : State) : (abandonHeap n e s).mem = s.mem := by
  simp only [abandonHeap]
  repeat' split
  all_goals rfl
omit h in
@[simp] theorem State.dropWelt_mem (s : State) (l : List CoreId) (p : Nat) : (s.dropWelt l p).mem = s.mem := rfl
theorem ringHeap_cells (d : BitVec 2) (n : Nat) : CellsOk (ringHeap d n s).mem.bytes := by
  unfold ringHeap
  split
  · exact h
  · refine settleHeap_cells (State.foldl_cells (fun t k ht => ?_) _ (State.readBlock_cells h _)) _
    dsimp only
    repeat' split
    · exact ht
    · simpa using ht
    · rw [State.foldl_mem fun s e => abandonHeap_mem n e s]
      simpa using ht
    · exact ht
theorem execFixbellRing_formed (d : BitVec 2) : Formed (execFixbellRing d s) :=
  (formed_next _).2 (State.foldl_cells (fun _ _ ht => ringHeap_cells ht ..) _ (ringXfers_cells h d))
end

end Sys2Proof.Machine
end

-- ==== Sys2Proof/Proofs/FormTask.lean ====
-- ==== Sys2Proof/Proofs/FormTask.lean ====
section
/-! SUPPORT. The events of messages, contexts and tasks, of frames, partitions and launches keep the canonical form of
memory. -/

namespace Sys2Proof.Machine

/-! ## Arrival and class 7 (R257 to R262, R268) -/

@[simp] theorem State.noticeArrived_mem (s : State) (f : Flight) : (s.noticeArrived f).mem = s.mem := by
  unfold State.noticeArrived
  split <;> rfl
@[simp] theorem State.takeReport_mem (s : State) (c : CoreId) (m : Msg) : (s.takeReport c m).mem = s.mem := rfl
@[simp] theorem enter_mem (c : CoreId) (f : Flight) (s : State) : (enter c f s).mem = s.mem := by
  simp only [enter]
  repeat' split
  all_goals simp
@[simp] theorem State.dropped_mem (s : State) (f : Flight) : (s.dropped f).mem = s.mem := by
  unfold State.dropped
  repeat' split
  all_goals simp
@[simp] theorem State.makeReady_mem (s : State) (c : CoreId) (k : CtxId) (x : Ctx) : (s.makeReady c k x).mem = s.mem := rfl
theorem heldControl_mem (c : CoreId) (n : Nat) {act : CtxId → Msg → State → State} (ha : ∀ k m t, (act k m t).mem = t.mem)
    (s : State) : (heldControl c n act s).mem = s.mem := by
  simp only [heldControl]
  repeat' split
  · rfl
  · rfl
  · exact ha ..
  · rfl
section
variable {s : State} (h : CellsOk s.mem.bytes)
include h
theorem execMessageArrival_formed (k : Nat) : Formed (execMessageArrival k s) := by
  simp only [execMessageArrival]
  repeat' split
  all_goals simpa using h
theorem execHeldContextRetry_formed (c : CoreId) : Formed (execHeldContextRetry c s) := by
  rw [execHeldContextRetry, formed_next, heldControl_mem]
  · exact h
  · exact fun _ _ _ => rfl
theorem execHeldContextEnter_formed (c : CoreId) : Formed (execHeldContextEnter c s) := by
  rw [execHeldContextEnter, formed_next, heldControl_mem]
  · exact h
  · exact fun _ _ _ => rfl
theorem execHeldContextTerminate_formed (c : CoreId) : Formed (execHeldContextTerminate c s) := by
  have ended : (heldControl c 2 (fun k m s => (s.doneMerge c m.operand).endTask c k) s).mem = s.mem :=
    heldControl_mem c 2 (fun k m t => State.endTask_mem (t.doneMerge c m.operand) c k) s
  simp only [execHeldContextTerminate]
  repeat' split
  all_goals simp [h, ended]

/-! ## Leaving the core, streams and parking (R168, R176 to R180, R266) -/

theorem execSendqTransmit_formed (c : CoreId) (k : CtxId) (v : BitVec 2) : Formed (execSendqTransmit c k v s) := by
  simp only [execSendqTransmit]
  repeat' split
  all_goals simpa using h
theorem execNsendArrival_formed (k : Nat) : Formed (execNsendArrival k s) := by
  simp only [execNsendArrival]
  repeat' split
  all_goals simpa using h
theorem execNsendCreditReturn_formed (k : Nat) : Formed (execNsendCreditReturn k s) := by
  simp only [execNsendCreditReturn]
  repeat' split
  all_goals simpa using h
theorem fillNext_cells (t : Stream) : CellsOk (fillNext t s).mem.bytes := by
  have read : ∀ (va : Word) (n : Nat) (k : List Nat → List Place → Nat → State → Res) (r : Res),
      (∀ a b c t, CellsOk t.mem.bytes → CellsOk (k a b c t).state.mem.bytes) →
      access va n .read .plain 0 false .copy s k = r → CellsOk r.state.mem.bytes :=
    fun va n k r hk e => e ▸ access_cells h hk ..
  simp only [fillNext]
  split
  · simpa using h
  · split
    all_goals
      next e =>
      have hr := read _ _ _ _ (fun pas ps n u hu => ?_) e
      · simpa using hr
      · repeat' split
        all_goals simpa using hu
theorem execStreamFill_formed (c : CoreId) (k : CtxId) (q : BitVec 2) : Formed (execStreamFill c k q s) := by
  simp only [execStreamFill]
  repeat' split
  · simpa using h
  · simpa using h
  · exact (formed_next _).2 (fillNext_cells (by exact h) _)
theorem execParkTimeout_formed (c : CoreId) (k : CtxId) : Formed (execParkTimeout c k s) := by
  simp only [execParkTimeout]
  repeat' split
  all_goals simpa using h
theorem execParkedWake_formed (c : CoreId) (k : CtxId) : Formed (execParkedWake c k s) := by
  simp only [execParkedWake]
  repeat' split
  all_goals simpa using h
theorem execRunQueueAging_formed (c : CoreId) (k : Nat) : Formed (execRunQueueAging c k s) := by
  simp only [execRunQueueAging]
  repeat' split
  all_goals simpa using h

/-! ## Choosing, stealing and the done tree (R254 to R256, R264, R271 to R273) -/

omit h in
@[simp] theorem startAcquire_bytes (s : State) (r : Release) : (startAcquire s r).mem.bytes = s.mem.bytes := by
  simp only [startAcquire]
  repeat' split
  all_goals simp
omit h in
@[simp] theorem State.acquireStart_bytes (s : State) (c : CoreId) (k : CtxId) (l : List Release) :
    (s.acquireStart c k l).mem.bytes = s.mem.bytes :=
  State.foldl_bytes startAcquire_bytes l _
omit h in
@[simp] theorem State.take_bytes (s : State) (c : CoreId) (w : Candidate) : (s.take c w).mem.bytes = s.mem.bytes := by
  cases w with
  | ready k => rfl
  | entry i e l =>
    simp only [State.take]
    split <;> simp
  | fork f => simp [State.take]
theorem execContextSelect_formed (c : CoreId) : Formed (execContextSelect c s) := by
  have refilled := State.refill_cells h c
  simp only [execContextSelect]
  repeat' split
  · simpa using h
  · simpa using refilled
  · simpa using refilled
theorem execStealAttempt_formed (c : CoreId) : Formed (execStealAttempt c s) := by
  simp only [execStealAttempt]
  repeat' split
  all_goals simpa using h
theorem execStealRequest_formed (k : Nat) : Formed (execStealRequest k s) := by
  simp only [execStealRequest]
  repeat' split
  · simpa using h
  · simpa using h
  · simpa using h
  · next e => simpa using State.takeOldest_cells (by exact h) _ _ e
theorem execDoneWaveReport_formed (c : CoreId) : Formed (execDoneWaveReport c s) := by
  simp only [execDoneWaveReport]
  repeat' split
  all_goals simpa using h

/-! ## Bank roles and frames (R278, R279, R368, R369) -/

omit h in
@[simp] theorem Memory.dropForge_bytes (m : Memory) (f : ForgeId) : (m.dropForge f).bytes = m.bytes := by
  unfold Memory.dropForge
  split <;> rfl
theorem setRole_cells (f : ForgeId) (r : Word) : CellsOk (setRole f r s).mem.bytes := by
  unfold setRole
  extract_lets x moved zero m less
  have hm : CellsOk m.bytes := zeroWhere_cells h _
  clear_value m less
  split
  · exact h
  · split
    · simpa using hm
    · exact hm
theorem execFrgroleWrite_formed (f : ForgeId) (v : Word) (w : Writer) : Formed (execFrgroleWrite f v w s) := by
  rw [execFrgroleWrite, formed_next]
  split
  · exact setRole_cells h ..
  · exact h
theorem performBefore_cells (f : Nat × Nat) : CellsOk (performBefore f s).mem.bytes := by
  simp only [performBefore]
  split
  · exact h
  · refine State.foldl_cells (fun t b ht => ?_) _ h
    split
    · exact performNm_cells ht ..
    · exact ht
theorem execFzreqWrite_formed (d : BitVec 2) (v : Word) (w : Writer) : Formed (execFzreqWrite d v w s) := by
  simp only [execFzreqWrite]
  split
  · simpa using h
  · exact (formed_next _).2 (zeroWhere_cells (performBefore_cells h _) _)
theorem execFrameZeroingComplete_formed (d : BitVec 2) : Formed (execFrameZeroingComplete d s) := by
  simp only [execFrameZeroingComplete]
  split
  all_goals simpa using h

/-! ## Shootdowns and partitions (R250, R253) -/

theorem execShootdownComplete_formed (k : Nat) : Formed (execShootdownComplete k s) := by
  simp only [execShootdownComplete]
  repeat' split
  · simpa using h
  · simpa using h
  · exact (formed_next _).2 (State.askWord_cells h ..)
  · exact (formed_next _).2 (State.engineWord_cells (by exact h) ..)
  · simpa using h
  · exact (formed_next _).2 (State.engineWord_cells (by exact h) ..)
omit h in
@[simp] theorem keyCluster_mem (k : BitVec 16) (s : State) (c : Nat) : (keyCluster k s c).mem = s.mem := by
  refine State.foldl_mem (fun t q => ?_) _ s
  dsimp only
  split <;> rfl
omit h in
@[simp] theorem moveCluster_mem (p : BitVec 6) (s : State) (c : Nat) : (moveCluster p s c).mem = s.mem := rfl
omit h in
@[simp] theorem changePart_mem (b : BitVec 512) (s : State) : (changePart b s).mem = s.mem := by
  simp only [changePart]
  split
  all_goals simp [State.foldl_mem (keyCluster_mem _), State.foldl_mem (moveCluster_mem _)]
theorem execPartsetComplete_formed (k : Nat) : Formed (execPartsetComplete k s) := by
  simp only [execPartsetComplete]
  repeat' split
  · simpa using h
  · simpa using h
  · exact (formed_next _).2 (State.askWord_cells h ..)
  · exact (formed_next _).2 (State.engineWord_cells (by exact h) ..)
  · exact (formed_next _).2 (State.engineWord_cells (by simpa using h) ..)

/-! ## Launches: queues, copying and starting (R344 to R348) -/

omit h in
@[simp] theorem State.recordsWait_mem (s : State) (q : BitVec 10) : (s.recordsWait q).mem = s.mem := by
  unfold State.recordsWait
  split <;> rfl
theorem execLqtailDoorbell_formed (q : BitVec 10) (v : Word) : Formed (execLqtailDoorbell q v s) := by
  simp only [execLqtailDoorbell]
  split
  all_goals simpa using h
theorem execCqheadWrite_formed (q : BitVec 10) (v : Word) : Formed (execCqheadWrite q v s) := by
  unfold execCqheadWrite
  split
  all_goals simpa using h
theorem luBytes_cells {ps : List Place} {l : List Byte} {t : State} (e : luBytes s ps = some (l, t)) : CellsOk t.mem.bytes := by
  simp only [luBytes] at e
  split at e
  · simp at e
  · have filled : CellsOk (ps.foldl (fun s p => match p with
        | .host k => s.fillHost (k / 64) false
        | _ => s) s).mem.bytes := by
      refine State.foldl_cells (fun u p hu => ?_) _ h
      split
      · exact State.fillHost_cells hu ..
      · exact hu
    rw [← (Prod.mk.inj (Option.some.inj e)).2, State.engineReads_bytes]
    exact filled
theorem luRead_cells {r : BitVec 48} {va n : Nat} {q : List Byte × State} (e : luRead s r va n = some q) :
    CellsOk q.2.mem.bytes := by
  unfold luRead at e
  split at e
  · simp at e
  · exact luBytes_cells h e
theorem State.luTakes_cells (d : List Byte) (l : List (Nat × Nat)) : CellsOk (s.luTakes d l).mem.bytes := by
  refine State.foldl_cells (fun t q ht => ?_) _ h
  cases e : luRead t (descRoot d) (descNum d q.1 8) q.2 with
  | none => simpa [e] using ht
  | some r => simpa [e] using luRead_cells ht e
omit h in
@[simp] theorem State.markEligible_bytes (s : State) : s.markEligible.mem.bytes = s.mem.bytes := by
  simp only [State.markEligible]
  split
  · rfl
  · simp
theorem execLaunchCopy_formed (q : BitVec 10) : Formed (execLaunchCopy q s) := by
  simp only [execLaunchCopy]
  repeat' split
  · simpa using h
  · simpa using h
  · simpa using h
  · next e => simpa using State.luTakes_cells (luBytes_cells h e) ..
omit h in
@[simp] theorem State.updCore_mem (s : State) (c : CoreId) (f : Core → Core) : (s.updCore c f).mem = s.mem := by
  unfold State.updCore
  split <;> rfl
omit h in
@[simp] theorem State.holdUnbound_mem (s : State) (c : CoreId) : (s.holdUnbound c).mem = s.mem :=
  State.foldl_mem (fun s k => State.holdLost_mem s c 0 k) _ s
omit h in
@[simp] theorem initialMsg_mem (l : Launch) (b : List Byte) (s : State) (i : Nat) : (initialMsg l b s i).mem = s.mem := by
  simp [initialMsg]
theorem startLaunch_cells (l : Launch) : CellsOk (startLaunch l s).mem.bytes := by
  simp only [startLaunch]
  split
  · rw [State.log_mem, State.foldl_mem (initialMsg_mem l _)]
    simp only [State.setPart_mem, State.setLaunch_mem]
    rw [State.foldl_mem fun s c => State.updCore_mem s c _, State.foldl_mem fun s c => by simp]
    exact State.foldl_cells (fun _ _ ht => setRole_cells ht ..) _ (State.luTakes_cells h ..)
  · exact h
theorem execLaunchStart_formed (p : BitVec 6) : Formed (execLaunchStart p s) := by
  have h1 : CellsOk s.markEligible.mem.bytes := by simpa using h
  simp only [execLaunchStart]
  repeat' split
  · simpa using h
  · simpa using h
  · exact (formed_next _).2 (startLaunch_cells h1 _)
  · simpa using h

/-! ## Completion (R349) -/

omit h in
@[simp] theorem endGrants_mem (l : Launch) (s : State) : (endGrants l s).mem = s.mem :=
  State.foldl_mem (fun s c => State.updCore_mem s c _) _ s
omit h in
@[simp] theorem freePart_mem (l : Launch) (s : State) : (freePart l s).mem = s.mem := by
  unfold freePart
  split
  · simp
  · rfl
theorem execLaunchCompletionPost_formed (k : Nat) : Formed (execLaunchCompletionPost k s) := by
  simp only [execLaunchCompletionPost]
  split
  · simpa using h
  split
  · simpa using h
  next l _ _ =>
  have h1 : CellsOk (freePart l s).mem.bytes := by simpa using h
  generalize (if l.rejected || descNum l.desc 96 8 = 0 then none
    else some (BitVec.ofNat 64 (descNum l.desc 96 8)) : Option Word) = donew
  repeat' split
  · simpa using h
  · simpa using h
  · simpa using h
  · simpa using h
  · simpa using h
  · exact (formed_next _).2 (State.askWord_cells h1 ..)
  · refine (formed_next _).2 (State.engineWord_cells ?_ ..)
    refine engineStore_cells (s := State.putFlits ..) ?_ ..
    rw [State.putFlits_mem]
    refine State.foldl_cells (fun t p ht => ?_) _ h1
    split
    · exact State.fillHost_cells ht ..
    · exact ht

/-! ## Pre-emption and resuming (R350 to R353) -/

omit h in
@[simp] theorem haltLaunch_mem (l : Launch) (s : State) : (haltLaunch l s).mem = s.mem := by
  simp only [haltLaunch, State.setPart_mem]
  exact State.foldl_mem (fun s c => State.updCore_mem s c _) _ s
theorem execPreemptHalt_formed (p : BitVec 6) : Formed (execPreemptHalt p s) := by
  simp only [execPreemptHalt]
  repeat' split
  all_goals simpa using h
theorem saveLaunch_cells (l : Launch) : CellsOk (saveLaunch l s).mem.bytes := by
  refine writeOpen_cells ?_ _
  rw [State.setLaunch_mem, State.cutRequests_bytes]
  simp only [State.setPart_mem]
  rw [State.foldl_mem fun s f => State.setForge_mem s f _, State.foldl_mem fun s c => State.setCore_mem s c _]
  exact h
theorem execPreemptSave_formed (p : BitVec 6) : Formed (execPreemptSave p s) := by
  unfold execPreemptSave
  split
  · simpa using h
  · next l _ =>
    rw [formed_next]
    split
    · cases e : s.spansWait [s.saveSpan l] with
      | none => exact saveLaunch_cells h l
      | some t => exact State.spansWait_cells h _ e
    · exact h
omit h in
@[simp] theorem State.rebound_mem (s : State) (c : CoreId) : (s.rebound c).mem = s.mem := by
  simp only [State.rebound, State.holdUnbound_mem]
  split <;> rfl
theorem restoreForge_cells (p : Nat × SavedForge) : CellsOk (restoreForge s p).mem.bytes :=
  Memory.setBytes_cells (by simpa using zeroWhere_cells h _) _
omit h in
@[simp] theorem heldCount_mem (s : State) (c : CoreId × CtxId × BitVec 2 × Nat) : (heldCount s c).mem = s.mem := rfl
theorem resumeLaunch_cells (l : Launch) (w : List Owned) : CellsOk (resumeLaunch l w s).mem.bytes := by
  simp only [resumeLaunch]
  rw [State.foldl_mem heldCount_mem, State.foldl_mem fun s (e : CoreId × Entry) => State.accept_mem e.1 e.2 s,
    State.foldl_mem fun s (c : CoreId × Core) => State.rebound_mem s c.1]
  simp only [State.setPart_mem, State.setLaunch_mem]
  rw [State.foldl_mem fun s (c : CoreId × Core) => State.setCore_mem s c.1 _, State.foldl_bytes State.trimSlice_bytes]
  exact State.foldl_cells (fun _ _ ht => restoreForge_cells ht _) _
    (State.foldl_cells (fun _ _ ht => writeOpen_cells ht _) _ h)
theorem execLaunchResume_formed (p : BitVec 6) : Formed (execLaunchResume p s) := by
  have h1 : CellsOk s.markEligible.mem.bytes := by simpa using h
  simp only [execLaunchResume]
  repeat' split
  · simpa using h
  · simpa using h
  · next l _ _ w _ _ =>
    cases e : s.markEligible.spansWait (s.markEligible.waySpans s.markEligible.ways w) with
    | none => exact (formed_next _).2 (resumeLaunch_cells h1 l w)
    | some t => exact (formed_next _).2 (State.spansWait_cells h1 _ e)
  · simpa using h
  · simpa using h
end

end Sys2Proof.Machine
end

-- ==== Sys2Proof/Proofs/FormIsland.lean ====
-- ==== Sys2Proof/Proofs/FormIsland.lean ====
section
/-! SUPPORT. The events across hours, fences and resets and the island's registers keep the canonical form of memory. -/

namespace Sys2Proof.Machine

/-! ## Updates that leave memory alone -/

@[simp] theorem State.fatal_mem (s : State) : s.fatal.mem = s.mem := rfl
@[simp] theorem State.settle_mem (s : State) : s.settle.mem = s.mem := rfl
@[simp] theorem State.cutParty_mem (s : State) (g : Issuer → Bool) : (s.cutParty g).mem = s.mem := rfl
@[simp] theorem State.unjoin_mem (s : State) : s.unjoin.mem = s.mem := rfl
@[simp] theorem State.tellError_mem (s : State) (a b n : Nat) : (s.tellError a b n).mem = s.mem := by simp [State.tellError]
@[simp] theorem joinDie_mem (d : BitVec 2) (s : State) : (joinDie d s).mem = s.mem := by simp [joinDie]
@[simp] theorem writeBbctl_mem (v : Word) (s : State) : (writeBbctl v s).mem = s.mem := by
  simp only [writeBbctl]
  split
  · simp
  · rfl
@[simp] theorem writeIsland_mem (o : Nat) (v : Word) (s : State) : (writeIsland o v s).mem = s.mem := by
  simp only [writeIsland]
  repeat' split
  all_goals simp
@[simp] theorem State.cutOff_bytes (s : State) : s.cutOff.mem.bytes = s.mem.bytes := by
  simp only [State.cutOff]
  rw [State.foldl_mem fun s (d : BitVec 12 × Msg) => State.refusedNotice_mem s _ _ _ _ _, State.foldl_bytes]
  exact fun s r => State.giveUp_bytes ..
@[simp] theorem dropCopy_bytes (s : State) : (dropCopy s).mem.bytes = s.mem.bytes := by
  simp only [dropCopy]
  repeat' split
  · rfl
  · exact State.evict_bytes ..
  · rfl
@[simp] theorem strikeCtx_mem (c : CoreId) (k : CtxId) (s : State) : (strikeCtx c k s).mem = s.mem := by
  simp only [strikeCtx]
  split
  all_goals simp [takeTrap_mem]
@[simp] theorem strikeWord_bytes (p : Place) (b : Bool) (a : Nat) (s : State) : (strikeWord p b a s).mem.bytes = s.mem.bytes := by
  simp only [strikeWord]
  repeat' split
  all_goals simp

/-! ## Fences and resets (R403) -/

section
variable {m : Memory} (h : CellsOk m.bytes)
include h
theorem loseLine_cells (n : Nat) (l : Line) : CellsOk (loseLine m n l).bytes := by
  simp only [loseLine]
  split
  · exact h
  · rw [Memory.foldl_bytes fun m i => Memory.setFull_bytes m _ _]
    exact Memory.setBytes_cells (by simpa using h) _
theorem fenceLine_cells (d : BitVec 2) (p : Nat × Line) : CellsOk (fenceLine d m p).bytes := by
  simp only [fenceLine, Memory.setLine_bytes]
  split
  · exact loseLine_cells h ..
  · exact h
theorem resetLine_cells (d : BitVec 2) (p : Nat × Line) : CellsOk (resetLine d m p).bytes := by
  unfold resetLine
  split
  · exact h
  · exact loseLine_cells h ..
theorem loseSlices_cells (d : BitVec 2) (n : Nat) : CellsOk (loseSlices d n m).bytes := by
  simp only [loseSlices]
  split
  · exact h
  · refine Memory.foldl_cells (fun t r ht => ?_) _ h
    repeat' split
    · exact ht
    · exact ht
    · exact ht
    · exact Memory.setBytes_cells (by simpa using ht) _
end
section
variable {s : State} (h : CellsOk s.mem.bytes)
include h
omit h in
@[simp] theorem loseLaunch_bytes (s : State) (l : Launch) : (loseLaunch s l).mem.bytes = s.mem.bytes := by
  simp only [loseLaunch, State.setLaunch_mem]
  split
  · simp [State.foldl_mem fun s c => State.setCore_mem s c _]
  · rfl
theorem stopDie_cells (d : BitVec 2) : CellsOk (stopDie d s).mem.bytes :=
  Memory.foldl_cells (fun _ _ ht => fenceLine_cells ht ..) _ (by simpa using h)
theorem fenceDie_cells (d : BitVec 2) : CellsOk (fenceDie d s).mem.bytes := by
  have lost (t : State) (l : List Launch) : (l.foldl loseLaunch t).mem.bytes = t.mem.bytes :=
    State.foldl_bytes loseLaunch_bytes l t
  simp only [fenceDie, State.fatal_mem, State.log_mem, State.devEvent_mem, State.settle_mem, State.setDie_mem]
  rw [lost]
  exact stopDie_cells h d
theorem execDiectlFence_formed (d : BitVec 2) : Formed (execDiectlFence d s) := by
  rw [execDiectlFence, formed_next]
  split
  · exact fenceDie_cells h d
  · exact h
theorem resetDie_cells (d : BitVec 2) (b : Bool) : CellsOk (resetDie d b s).mem.bytes :=
  zeroWhere_cells (loseSlices_cells (Memory.foldl_cells (fun _ _ ht => resetLine_cells ht ..) _ h) ..) _
theorem fenced_cells (d : BitVec 2) (b : Prop) [Decidable b] : CellsOk (if b then s else fenceDie d s).mem.bytes := by
  split
  · exact h
  · exact fenceDie_cells h d
theorem startReset_cells (d : BitVec 2) (b : Bool) : CellsOk (startReset d b s).mem.bytes := by
  simp only [startReset]
  split
  · exact h
  · rw [State.log_mem]
    exact resetDie_cells (fenced_cells h ..) ..
theorem execDiectlRejoin_formed (d : BitVec 2) : Formed (execDiectlRejoin d s) := by
  rw [execDiectlRejoin, formed_next]
  split
  all_goals simpa using h

/-! ## Start steps and the island (R399 to R409) -/

omit h in
@[simp] theorem startSteps_mem (d : BitVec 2) (v : BitVec 12) (s : State) : (startSteps d v s).mem = s.mem := by
  simp only [startSteps]
  repeat' split
  all_goals simp
theorem execDieStartSteps_formed (d : BitVec 2) (v : BitVec 12) : Formed (execDieStartSteps d v s) := by
  rw [execDieStartSteps, formed_next]
  split
  all_goals simpa using h
theorem execIslandPowerUp_formed (a b : Bool) : Formed (execIslandPowerUp a b s) := by
  simp only [execIslandPowerUp]
  repeat' split
  all_goals simpa using h
theorem execIslandPowerOff_formed : Formed (execIslandPowerOff s) := by
  simpa [execIslandPowerOff] using h
theorem execIslandReset_formed : Formed (execIslandReset s) := by
  simp only [execIslandReset]
  split
  all_goals simpa using h
theorem execIslandResetComplete_formed (b : Bool) : Formed (execIslandResetComplete b s) := by
  simp only [execIslandResetComplete]
  repeat' split
  all_goals simpa using h
theorem execIslandFirmwareFault_formed : Formed (execIslandFirmwareFault s) := by
  rw [execIslandFirmwareFault, formed_next]
  split
  all_goals simpa using h
theorem execHostLinkTrained_formed : Formed (execHostLinkTrained s) := by
  rw [execHostLinkTrained, formed_next]
  split
  all_goals simpa using h

/-! ## Heartbeats, power and heat (R397 to R401) -/

theorem execDieHeartbeat_formed (d : BitVec 2) : Formed (execDieHeartbeat d s) := by
  rw [execDieHeartbeat, formed_next]
  split
  all_goals simpa using h
theorem execHeartbeatTimeout_formed (d : BitVec 2) : Formed (execHeartbeatTimeout d s) := by
  rw [execHeartbeatTimeout, formed_next]
  split
  · simpa using fenceDie_cells h d
  · exact h
theorem execDieLinkFailure_formed (d : BitVec 2) : Formed (execDieLinkFailure d s) := by
  rw [execDieLinkFailure, formed_next]
  split
  · exact fenceDie_cells (by simpa using h) d
  · exact h
theorem execDiePowerEnable_formed (d : BitVec 2) : Formed (execDiePowerEnable d s) := by
  rw [execDiePowerEnable, formed_next]
  split
  all_goals simpa using h
theorem execDiePowerOff_formed (d : BitVec 2) : Formed (execDiePowerOff d s) := by
  simp only [execDiePowerOff]
  split
  · simpa using h
  · rw [formed_next, State.settle_mem, State.setDie_mem]
    exact resetDie_cells (fenced_cells h ..) ..
theorem execPwrbrakeAssert_formed : Formed (execPwrbrakeAssert s) := by
  rw [execPwrbrakeAssert, formed_next]
  split
  all_goals simpa using h
theorem execPowerLimitThrottle_formed (d : BitVec 2) (b : Bool) : Formed (execPowerLimitThrottle d b s) := by
  simp only [execPowerLimitThrottle]
  repeat' split
  all_goals simpa using h
theorem execThermalTrip_formed (d : BitVec 2) : Formed (execThermalTrip d s) := by
  simp only [execThermalTrip]
  split
  · simpa using h
  · rw [formed_next, State.setDie_mem]
    exact resetDie_cells (fenced_cells (by simpa using h) ..) ..

/-! ## Soft errors and registers (R344, R395, R406, R409) -/

theorem execSoftError_formed (w : Struck) (b : Bool) : Formed (execSoftError w b s) := by
  refine (formed_next _).2 ?_
  cases w with
  | directory d =>
    dsimp only
    repeat' split
    · simpa using h
    · exact h
    · exact fenceDie_cells (by simpa using h) d
  | _ =>
    dsimp only
    repeat' split
    all_goals simpa using h
theorem execBbctlTrigset_formed (v : Word) : Formed (execBbctlTrigset v s) := by
  rw [execBbctlTrigset, formed_next]
  split
  all_goals simpa using h
theorem execBbctlFrozenClear_formed (v : Word) : Formed (execBbctlFrozenClear v s) := by
  rw [execBbctlFrozenClear, formed_next]
  split
  all_goals simpa using h
theorem execAttestRequest_formed (v : Word) : Formed (execAttestRequest v s) := by
  rw [execAttestRequest, formed_next]
  split
  all_goals simpa using h
theorem execAttestReportReady_formed : Formed (execAttestReportReady s) := by
  simp only [execAttestReportReady, formed_next]
  split
  all_goals simpa using h
theorem execRegisterWrite_formed (o : BitVec 48) (v : Word) (w : Writer) : Formed (execRegisterWrite o v w s) := by
  simp only [execRegisterWrite]
  repeat' split
  all_goals simpa using h
end

end Sys2Proof.Machine
end

-- ==== Sys2Proof/Proofs/FormStep.lean ====
-- ==== Sys2Proof/Proofs/FormStep.lean ====
section
/-! SUPPORT. Every instruction and event, and so every step, keeps the canonical form of memory; settles O49. -/

namespace Sys2Proof.Machine

section
variable {s : State} (h : CellsOk s.mem.bytes)
include h

/-! ## Commands of the Anvil (R194 to R196) -/

omit h in
@[simp] theorem startCmd_mem (f : ForgeId) (c : CoreId) (s : State) : (startCmd f c s).mem = s.mem := by
  unfold startCmd
  dsimp only
  split <;> rfl
theorem execAnvilCmdStart_formed (f : ForgeId) : Formed (execAnvilCmdStart f s) := by
  simp only [execAnvilCmdStart]
  repeat' split
  all_goals simpa using h
theorem execAnvilCmdRetire_formed (c : CoreId) : Formed (execAnvilCmdRetire c s) := by
  simp only [execAnvilCmdRetire]
  split
  all_goals simpa using h

/-! ## Instructions and events -/

theorem exec_formed (i : Instr) : Formed (exec i s) := by
  unfold exec
  cases i
  case add | sub | mul | mulh | mulhn | div | divn | rem | remn | and | or | xor | andn | shl | shr | sra | rol | ror | min |
      max | minn | maxn | slt | sltn | seq | addCr | moveCr | subCr | andCr | orCr | xorCr | shlCr | shrCr | sraCr | mulCr =>
    exact int3_formed h ..
  case clz | ctz | popc | brev => exact int2_formed h ..
  case addi | andi | ori | xori | slti | shli | shri | srai | addiCi | addiZeroCi | shliCi | shriCi | sraiCi | andiCi =>
    exact intImm_formed h ..
  case sel | ldhi | lea | leaScaled | bfx | bfxn | bfi => exact regs_formed h (fun _ => by simp) _ _ _
  case beq | bne | blt | bge | bltn | bgen | beqCb | bneCb | bltCb | bgeCb => exact branch_formed h ..
  case j | jal | jCj => exact jump_formed h ..
  case jalr | jalrLinkCr | jalrNolinkCr => exact jumpReg_formed h ..
  case endTask | endCt => exact (formed_finish _).2 (by simpa using endNow_cells h)
  case trap | brk => exact (formed_finish _).2 (by exact h)
  case doneCt | winset => exact regs_formed h (fun _ => by simp) _ _ _
  case fadd | fsub | fmul | fdiv | fmin | fmax | fsgnj | fsgnjn | fsgnjx | frcpr | frsqr => exact fp3_formed h ..
  case fsqrt | frcpa | frsqa => exact fp2_formed h ..
  case ffma | ffms | ffnma => exact fp4_formed h ..
  case feq | flt | fle => exact fpCmp_formed h ..
  case vorCv | vandCv | vxorCv | vnotCv | vand | vor | vxor | vnot => exact vecBits_formed h ..
  case vaddS32Cv | vsubS32Cv | vaddF32Cv | vsubF32Cv | vmulF32Cv | vmaxF32Cv | vminF32Cv | vadd | vsub | vmul | vmin | vmax |
      vabsd | vshl | vshr | vsra | vcmpeq | vcmplt | vcmple =>
    exact vec3_formed h ..
  case vabs | vneg | vrcpa | vrsqa => exact vec2_formed h ..
  case vredadd | vredmin | vredmax => exact reduce_formed h ..
  case fclass | fmvg | vext => exact regs_formed h (fun _ => by simp) _ _ _
  case fmvf => exact regs_formed h (fun _ => by simp) _ _ _
  case vfma | vdot | vsel | vperm | vbcast | vins | vcvt | vpack | vunpk | vthr => exact regs_formed h (fun _ => by simp) _ _ _
  case ld | ldIndex | ldv | ldvIndex => exact withRegs_formed h (fun _ ht => loadMem_cells ht (by simp) ..) _ _ _
  case st | stIndex | stv | stvIndex | stf | stfIndex | ste | steIndex =>
    exact withRegs_formed h (fun _ ht => storeMem_cells ht ..) _ _ _
  case ldDCm => exact withRegs_formed h (fun _ ht => by simpa using loadMem_cells ht (by simp) ..) _ _ _
  case stDCm => exact withRegs_formed h (fun _ ht => by simpa using storeMem_cells ht ..) _ _ _
  case ldf | ldfIndex => exact withRegs_formed h (fun _ ht => loadFull_cells ht ..) _ _ _
  case aadd | aand | aor | axor | amin | amax | aminn | amaxn | aswp | acas | afadd => exact atomicOp_formed h ..
  case adf => exact withRegs_formed h (fun _ ht => decrementFire_cells ht ..) _ _ _
  case aliasf => exact withRegs_formed h (fun _ ht => aliasRange_cells ht ..) _ _ _
  case nmadd | nmred => exact withRegs_formed h (fun _ ht => nmIssue_cells ht ..) _ _ _
  case sendr => exact withRegs_formed h (fun _ ht => sendRecord_cells ht ..) _ _ _
  case clsbind => exact withRegs_formed h (fun _ ht => bindClass_cells ht ..) _ _ _
  case nsend => exact withRegs_formed h (fun _ ht => sendVec_cells ht ..) _ _ _
  case qcfg => exact withRegs_formed h (fun _ ht => bindQueue_cells ht ..) _ _ _
  case tmld => exact withRegs_formed h (fun _ ht => loadMap_cells ht ..) _ _ _
  case ringcfgSet => exact withRegs_formed h (fun _ ht => ringSet_cells ht ..) _ _ _
  case egmrg => exact withRegs_formed h (fun _ ht => issueWorded_cells ht ..) _ _ _
  case egins | egfind | egnode | egstat => exact withRegs_formed h (fun _ ht => issueOwed_cells ht ..) _ _ _
  case egcfg | egmatch | egrank => exact withRegs_formed h (fun _ ht => aligned64_cells ht _ (issueWorded_cells ht ..)) _ _ _
  case egenum => exact withRegs_formed h (fun _ ht => aligned64_cells ht _ (issueOwed_cells ht ..)) _ _ _
  case fence => exact withRegs_formed h (fun _ ht => by simpa using ht) _ _ _
  case mmaE4m3E4m3 | mmaE4m3E5m2 | mmaE5m2E4m3 | mmaE5m2E5m2 | mmaE2m1E2m1 | mmaE2m1E4m3 | mmaEc8Ec8 | mmaEc8E4m3 | mmaBf16Bf16
      | mmaF16F16 | mmaS8S8 | mmaS4S8 | mmaBf16S4 | mmapE4m3 | mmapBf16 | distL1Bf16 | distL1E4m3 | distL1S8 | distL2Bf16 |
      distL2E4m3 | distL2S8 | adrain | cupd =>
    exact anvil_formed h ..
  case cpy | cpykv | kvapp | get | put | halo => exact issueXfer_formed h ..
  case flushr | invr => exact rangeIssue_formed h ..
  case bsopAdd | bsopSub | bsopAnd | bsopOr | bsopXor | bsopNot | bsopCmpeq | bsopCmplt | bsopCmple | bsopSel | bsopShr |
      bsopPopc | bsopMin | bsopMax | bsopMul =>
    exact bsopIssue_formed h ..
  case csrwr | csrset | csrclr => exact csrUpdate_formed h ..
  case suprd => exact checked_formed h (fun _ ht => suprd_cells ht ..) _ _ _ _
  case leaRegion => exact execLeaRegion_formed h ..
  case loop => exact execLoop_formed h ..
  case sendC => exact execSendC_formed h ..
  case ldRegion => exact execLdRegion_formed h ..
  case stRegion => exact execStRegion_formed h ..
  case ldvRegion => exact execLdvRegion_formed h ..
  case stvRegion => exact execStvRegion_formed h ..
  case ifence => exact execIfence_formed h
  case pfx => exact execPfx_formed h ..
  case nmfence => exact execNmfence_formed h
  case fcvt => exact execFcvt_formed h ..
  case send => exact execSend_formed h ..
  case fork => exact execFork_formed h ..
  case done => exact execDone_formed h ..
  case strm => exact execStrm_formed h ..
  case strmoff => exact execStrmoff_formed h ..
  case repb => exact execRepb_formed h ..
  case repe => exact execRepe_formed h
  case repgo => exact execRepgo_formed h ..
  case async => exact execAsync_formed h ..
  case ringcfgPush => exact execRingcfgPush_formed h ..
  case ringcfgReset => exact execRingcfgReset_formed h ..
  case ringcfgQuery => exact execRingcfgQuery_formed h ..
  case accz => exact execAccz_formed h ..
  case accrd => exact execAccrd_formed h ..
  case accwr => exact execAccwr_formed h ..
  case accsc => exact execAccsc_formed h ..
  case cpycan => exact execCpycan_formed h ..
  case waygive => exact execWaygive_formed h ..
  case waytake => exact execWaytake_formed h ..
  case rowop => exact execRowop_formed h ..
  case csrrd => exact execCsrrd_formed h ..
  case eret => exact execEret_formed h
  case tlbsd => exact execTlbsd_formed h ..
  case tlbinv => exact execTlbinv_formed h ..
  case partset => exact execPartset_formed h ..
  case storePerform => exact execStorePerform_formed h ..
  case nmPerform => exact execNmPerform_formed h ..
  case bankEngineAck => exact execBankEngineAck_formed h ..
  case lineMigrate => exact execLineMigrate_formed h ..
  case memoryRequestPerform => exact execMemoryRequestPerform_formed h ..
  case remoteWriteAck => exact execRemoteWriteAck_formed h ..
  case messageArrival => exact execMessageArrival_formed h ..
  case heldContextRetry => exact execHeldContextRetry_formed h ..
  case heldContextEnter => exact execHeldContextEnter_formed h ..
  case heldContextTerminate => exact execHeldContextTerminate_formed h ..
  case sendqTransmit => exact execSendqTransmit_formed h ..
  case postedWriteRefused => exact execPostedWriteRefused_formed h ..
  case nsendArrival => exact execNsendArrival_formed h ..
  case nsendCreditReturn => exact execNsendCreditReturn_formed h ..
  case streamFill => exact execStreamFill_formed h ..
  case contextSelect => exact execContextSelect_formed h ..
  case parkTimeout => exact execParkTimeout_formed h ..
  case parkedWake => exact execParkedWake_formed h ..
  case runQueueAging => exact execRunQueueAging_formed h ..
  case stealAttempt => exact execStealAttempt_formed h ..
  case stealRequest => exact execStealRequest_formed h ..
  case doneWaveReport => exact execDoneWaveReport_formed h ..
  case anvilCmdStart => exact execAnvilCmdStart_formed h ..
  case anvilCmdRetire => exact execAnvilCmdRetire_formed h ..
  case transferStart => exact execTransferStart_formed h ..
  case cpykvTileFill => exact execCpykvTileFill_formed h ..
  case transferComplete => exact execTransferComplete_formed h ..
  case fixbellRing => exact execFixbellRing_formed h ..
  case bsopPerform => exact execBsopPerform_formed h ..
  case waygiveConversionComplete => exact execWaygiveConversionComplete_formed h ..
  case waytakeComplete => exact execWaytakeComplete_formed h ..
  case rangeMaintenanceComplete => exact execRangeMaintenanceComplete_formed h ..
  case shootdownComplete => exact execShootdownComplete_formed h ..
  case partsetComplete => exact execPartsetComplete_formed h ..
  case unionStep => exact execUnionStep_formed h ..
  case resign => exact execResign_formed h ..
  case mergeComplete => exact execMergeComplete_formed h ..
  case bindingSend => exact execBindingSend_formed h ..
  case heapOpComplete => exact execHeapOpComplete_formed h ..
  case lqtailDoorbell => exact execLqtailDoorbell_formed h ..
  case launchCopy => exact execLaunchCopy_formed h ..
  case launchStart => exact execLaunchStart_formed h ..
  case launchCompletionPost => exact execLaunchCompletionPost_formed h ..
  case cqheadWrite => exact execCqheadWrite_formed h ..
  case preemptHalt => exact execPreemptHalt_formed h ..
  case preemptSave => exact execPreemptSave_formed h ..
  case launchResume => exact execLaunchResume_formed h ..
  case frgroleWrite => exact execFrgroleWrite_formed h ..
  case fzreqWrite => exact execFzreqWrite_formed h ..
  case frameZeroingComplete => exact execFrameZeroingComplete_formed h ..
  case diectlFence => exact execDiectlFence_formed h ..
  case diectlWarmReset | diectlColdReset => exact (formed_next _).2 (startReset_cells h ..)
  case diectlRejoin => exact execDiectlRejoin_formed h ..
  case bbctlTrigset => exact execBbctlTrigset_formed h ..
  case bbctlFrozenClear => exact execBbctlFrozenClear_formed h ..
  case attestRequest => exact execAttestRequest_formed h ..
  case attestReportReady => exact execAttestReportReady_formed h
  case registerWrite => exact execRegisterWrite_formed h ..
  case dieHeartbeat => exact execDieHeartbeat_formed h ..
  case heartbeatTimeout => exact execHeartbeatTimeout_formed h ..
  case dieStartSteps => exact execDieStartSteps_formed h ..
  case islandPowerUp => exact execIslandPowerUp_formed h ..
  case islandPowerOff => exact execIslandPowerOff_formed h
  case islandReset => exact execIslandReset_formed h
  case diePowerEnable => exact execDiePowerEnable_formed h ..
  case diePowerOff => exact execDiePowerOff_formed h ..
  case pwrbrakeAssert => exact execPwrbrakeAssert_formed h
  case pwrbrakeRelease | thermalRecover => exact (formed_next _).2 h
  case powerLimitThrottle => exact execPowerLimitThrottle_formed h ..
  case thermalTrip => exact execThermalTrip_formed h ..
  case fabricFlitReceive => exact execFabricFlitReceive_formed h ..
  case fabricNakReplay => exact execFabricNakReplay_formed h ..
  case fabricLinkUp => exact execFabricLinkUp_formed h ..
  case fabricLinkDown => exact (formed_next _).2 (by simpa using h)
  case fabricRequestTimeout => exact execFabricRequestTimeout_formed h ..
  case endpointAbsentReply => exact execEndpointAbsentReply_formed h ..
  case cxlSnpdata => exact execCxlSnpdata_formed h ..
  case cxlSnpinv => exact snoop_formed h (fun _ _ ht => by simpa using ht) _
  case cxlSnpcur => exact snoop_formed h (fun _ _ ht => ht) _
  case hostMemRead => exact execHostMemRead_formed h ..
  case hostMemWrite => exact execHostMemWrite_formed h ..
  case dramScrub => exact execDramScrub_formed h ..
  case softError => exact execSoftError_formed h ..
  case dieLinkFailure => exact execDieLinkFailure_formed h ..
  case islandResetComplete => exact execIslandResetComplete_formed h ..
  case islandFirmwareFault => exact execIslandFirmwareFault_formed h
  case hostLinkTrained => exact execHostLinkTrained_formed h
  case cxlCacheResponse => exact execCxlCacheResponse_formed h ..
  case bisnpResponse => exact execBisnpResponse_formed h ..
  case aliasfComplete => exact execAliasfComplete_formed h ..

/-! ## Steps (R53, R69, R182, R183) -/

theorem illegalWord_cells (w : Nat) : CellsOk (illegalWord w s).state.mem.bytes := by
  simp only [illegalWord, Res.state_trap]
  split
  · exact h
  · exact h
theorem recordStep_cells (w : Nat) (l b : Bool) {r : Res} (e : recordStep w l b s = some r) : CellsOk r.state.mem.bytes := by
  unfold recordStep at e
  dsimp only at e
  split at e
  · simp at e
  · generalize ((if l then recordable32 w else recordable16 w) && decide (s.me.rep.buf.length < 32)) = ok at e
    cases ok
    · exact Option.some.inj e ▸ illegalWord_cells h w
    · exact Option.some.inj e ▸ h
theorem runDecoded_formed (i : Instr) (w : Nat) (l : Bool) : Formed (runDecoded i w l s) := by
  unfold runDecoded
  split
  · next e => exact (formed_finish _).2 (recordStep_cells h _ _ _ e)
  · exact exec_formed h i
theorem issue_formed (c : CoreId) : Formed (issue c s) := by
  unfold issue
  split
  · simpa using h
  next k _ =>
  have fetched := fetchWord_cells (s := { s with cur := ⟨c, k, false⟩ }) h
  split
  · next e =>
    rw [e] at fetched
    exact (formed_finish _).2 fetched
  · next s1 e =>
    have h1 : CellsOk s1.mem.bytes := by simpa [e] using fetched
    split
    · exact (formed_finish _).2 (illegalWord_cells h1 _)
    · exact runDecoded_formed h1 ..
omit h in
theorem replayWord_mem {c : CoreId} {w : Nat} {l : Bool} {t : State} (e : replayWord s c = some (w, l, t)) : t.mem = s.mem := by
  simp only [replayWord] at e
  repeat' split at e
  all_goals simp at e
  exact e.2.2 ▸ rfl
theorem replayStep_formed (c : CoreId) : Formed (replayStep c s) := by
  unfold replayStep
  split
  · simpa using h
  · next s1 e =>
    have h1 : CellsOk s1.mem.bytes := replayWord_mem e ▸ h
    split
    · exact (formed_finish _).2 (illegalWord_cells h1 _)
    · exact exec_formed h1 _
omit h in
@[simp] theorem nextMove_mem (s : State) : (nextMove s).2.mem = s.mem := by
  unfold nextMove
  split <;> rfl
theorem step_formed : Formed (step s) := by
  have h1 : CellsOk (nextMove s).2.mem.bytes := by simpa using h
  simp only [step]
  split
  · exact (formed_next _).2 h1
  split
  · exact issue_formed h1 _
  · exact replayStep_formed h1 _
  · split
    · exact exec_formed h1 _
    · exact formed_fault _
  · exact exec_formed h1 _
  · exact exec_formed h1 _
  · exact (formed_next _).2 (by simpa using h1)
end

end Sys2Proof.Machine

namespace Sys2Proof.Settled
open Sys2Proof.Machine

/-- Settles O49: whatever the next move is, what it does keeps the bytes listed in rising order and none of them at what an
unlisted address reads as. -/
theorem stepKeepsMemoryForm : Obligations.StepKeepsMemoryForm :=
  fun s t hs ht => (Memory.wf_iff t.mem).2 ((step_formed ((Memory.wf_iff s.mem).1 hs)).of_next t ht)

end Sys2Proof.Settled
end

