-- ==== Sys2Proof/Proofs/Rounding.lean ====
section
/-! SUPPORT. What rounding by each mode does to the bits it cuts (R32, R35); settles O24. -/
namespace Sys2Proof.Machine

/-- Cutting bits delivers the quotient or the next multiple, and is exact when the bits cut are zero. -/
theorem roundAt_of_lt {e q : Int} (h : e < q) (mode : Rnd) (neg : Bool) (m r : Nat) :
    roundAt mode neg m e q r =
      (if roundsUp mode neg (m / 2 ^ (q - e).toNat) (m % 2 ^ (q - e).toNat) (q - e).toNat r
        then m / 2 ^ (q - e).toNat + 1 else m / 2 ^ (q - e).toNat, decide (m % 2 ^ (q - e).toNat ≠ 0)) := by
  rw [roundAt, if_neg (by omega)]

section
variable (neg : Bool) (hi rem sh r : Nat)

@[simp] theorem roundsUp_rtz : roundsUp .rtz neg hi rem sh r = false := rfl
@[simp] theorem roundsUp_rdn : roundsUp .rdn neg hi rem sh r = true ↔ neg = true ∧ rem ≠ 0 := by simp [roundsUp]
@[simp] theorem roundsUp_rup : roundsUp .rup neg hi rem sh r = true ↔ ¬neg = true ∧ rem ≠ 0 := by simp [roundsUp]

/-- The 16 bits that SR compares are the top ones of the `sh` bits cut, with zeros appended when `sh` is below 16 (R35). -/
theorem topDiscarded_eq :
    (if 16 ≤ sh then rem / 2 ^ (sh - 16) else rem * 2 ^ (16 - sh)) = rem * 65536 / 2 ^ sh := by
  split
  next h =>
    calc rem / 2 ^ (sh - 16) = rem * 2 ^ 16 / (2 ^ (sh - 16) * 2 ^ 16) := (Nat.mul_div_mul_right _ _ (by decide)).symm
      _ = rem * 2 ^ 16 / 2 ^ sh := by rw [← Nat.pow_add, Nat.sub_add_cancel h]
  next h =>
    calc rem * 2 ^ (16 - sh) = rem * 2 ^ (16 - sh) * 2 ^ sh / 2 ^ sh :=
          (Nat.mul_div_cancel _ (Nat.two_pow_pos sh)).symm
      _ = rem * 65536 / 2 ^ sh := by rw [Nat.mul_assoc, ← Nat.pow_add, Nat.sub_add_cancel (by omega)]

@[simp] theorem roundsUp_sr : roundsUp .sr neg hi rem sh r = true ↔ 65536 ≤ rem * 65536 / 2 ^ sh + r := by
  simp only [roundsUp, topDiscarded_eq, decide_eq_true_eq]

variable {rem sh r}

/-- With no bit cut no mode rounds up; SR does not because its draw is below 2^16. -/
theorem roundsUp_zero (mode : Rnd) (hr : r < 65536) : roundsUp mode neg hi 0 sh r = false := by
  cases mode with
  | sr => simp [← Bool.not_eq_true, hr]
  | _ => simp [roundsUp]

theorem roundsUp_rne_of_lt (h : 2 * rem < 2 ^ sh) : roundsUp .rne neg hi rem sh r = false := by
  simp only [roundsUp, Bool.or_eq_false_iff, Bool.and_eq_false_iff, decide_eq_false_iff_not]
  omega
theorem roundsUp_rmm_of_lt (h : 2 * rem < 2 ^ sh) : roundsUp .rmm neg hi rem sh r = false := by
  simp only [roundsUp, Bool.and_eq_false_iff, decide_eq_false_iff_not]
  omega
theorem roundsUp_rne_of_gt (h : 2 ^ sh < 2 * rem) : roundsUp .rne neg hi rem sh r = true := by simp [roundsUp, h]
/-- The bits cut are not zero from half the unit on. -/
theorem roundsUp_rmm_of_ge (h : 2 ^ sh ≤ 2 * rem) : roundsUp .rmm neg hi rem sh r = true := by
  have hrem : rem ≠ 0 := by
    have := Nat.two_pow_pos sh
    omega
  simp [roundsUp, h, hrem]
/-- A tie goes to the even neighbour: up from an odd multiple only. -/
theorem roundsUp_rne_tie (h : 2 * rem = 2 ^ sh) : roundsUp .rne neg hi rem sh r = decide (hi % 2 = 1) := by
  have hrem : rem ≠ 0 := by
    have := Nat.two_pow_pos sh
    omega
  simp [roundsUp, ← h, hrem]
end

end Sys2Proof.Machine

namespace Sys2Proof.Settled
open Sys2Proof.Machine

/-- Settles O24: `roundAt` is the quotient and whether the mode rounds up, and each mode's clause is its lemma about that. -/
theorem roundingModes : Obligations.RoundingModes := by
  intro neg M e q r h S k
  have hk (m : Rnd) : k m = if roundsUp m neg (M / S) (M % S) (q - e).toNat r then M / S + 1 else M / S := by
    simp only [k, S, roundAt_of_lt h]
  refine ⟨fun m => by rw [roundAt_of_lt h], fun m hr => ?bounds, by simp [hk], by simp [hk], by simp [hk],
    fun hlow => ?below, fun hhigh => ?above, fun htie => ?tie, by simp [hk, S]⟩
  case bounds =>
    refine ⟨?_, ?_, fun h0 => by simp [hk, h0, roundsUp_zero neg _ m hr]⟩ <;> rw [hk] <;> split <;> omega
  case below => simp [hk, roundsUp_rne_of_lt neg _ hlow, roundsUp_rmm_of_lt neg _ hlow]
  case above => simp [hk, roundsUp_rne_of_gt neg _ hhigh, roundsUp_rmm_of_ge neg _ hhigh.le]
  case tie =>
    refine ⟨by simp [hk, roundsUp_rmm_of_ge neg _ htie.ge], ?_⟩
    rw [hk, roundsUp_rne_tie neg _ htie]
    simp only [decide_eq_true_eq]
    split <;> omega

end Sys2Proof.Settled
end

