-- ==== Sys2Proof/Proofs/FloatSpecials.lean ====
section
/-! SUPPORT. What the operations deliver for NaN operands, and that without one they act on the decoded values (R38, R116);
settles O23. -/
namespace Sys2Proof.Machine

/-! ## NaN operands (R38) -/

theorem Num.isNan_zero (n : Bool) : (Num.zero n).isNan = false := rfl
theorem Num.isNan_fin (n : Bool) (k : Nat) (e : Int) : (Num.fin n k e).isNan = false := rfl
theorem Num.isNan_inf (n : Bool) : (Num.inf n).isNan = false := rfl

/-- A NaN in the first place is the one delivered. -/
@[simp] theorem Fmt.nanOf_cons_nan (f : Fmt) (n : Bool) (k : Nat) (q : Bool) (xs : List Num) :
    f.nanOf (.nan n k q :: xs) = some (f.quiet n k, if q || xs.any (·.isSnan) then flagNV else 0) := rfl
theorem Fmt.nanOf_pair (f : Fmt) {a b : Num} (ha : a.isNan = false) (hb : b.isNan = false) : f.nanOf [a, b] = none := by
  simp [Fmt.nanOf, ha, hb]
theorem Fmt.nanOf_single (f : Fmt) {a : Num} (ha : a.isNan = false) : f.nanOf [a] = none := by simp [Fmt.nanOf, ha]

section
variable {f : Fmt} (m : Rnd) {x : Nat} (y : Nat) {n q : Bool} {k : Nat}

theorem Fmt.add_of_nan (hx : f.decode x = .nan n k q) :
    f.add m x y = (f.quiet n k, if q || (f.decode y).isSnan then flagNV else 0) := by simp [Fmt.add, hx]
theorem Fmt.mul_of_nan (hx : f.decode x = .nan n k q) :
    f.mul m x y = (f.quiet n k, if q || (f.decode y).isSnan then flagNV else 0) := by simp [Fmt.mul, hx]
theorem Fmt.div_of_nan (hx : f.decode x = .nan n k q) :
    f.div m x y = (f.quiet n k, if q || (f.decode y).isSnan then flagNV else 0) := by simp [Fmt.div, hx]
theorem Fmt.sqrt_of_nan (hx : f.decode x = .nan n k q) :
    f.sqrt m x = (f.quiet n k, if q then flagNV else 0) := by simp [Fmt.sqrt, hx]
end

/-! ## Operands that are no NaN (R116) -/

section
variable {f : Fmt} (m : Rnd) {x y : Nat} {a b : Num}

section
variable (hx : f.decode x = a) (hy : f.decode y = b) (ha : a.isNan = false) (hb : b.isNan = false)
include hx hy ha hb

theorem Fmt.add_of_num : f.add m x y = f.addNum m a b := by simp [Fmt.add, hx, hy, f.nanOf_pair ha hb]
theorem Fmt.sub_of_num : f.sub m x y = f.addNum m a b.negate := by simp [Fmt.sub, hx, hy, f.nanOf_pair ha hb]
theorem Fmt.mul_of_bad (h : a.badMul b = true) : f.mul m x y = f.invalid := by
  simp [Fmt.mul, hx, hy, f.nanOf_pair ha hb, h]
end

section
variable {n j : Bool} {k : Nat} {e : Int}

theorem Fmt.div_zero_zero (hx : f.decode x = .zero n) (hy : f.decode y = .zero j) : f.div m x y = f.invalid := by
  simp [Fmt.div, hx, hy, f.nanOf_pair (Num.isNan_zero n) (Num.isNan_zero j)]
theorem Fmt.div_inf_inf (hx : f.decode x = .inf n) (hy : f.decode y = .inf j) : f.div m x y = f.invalid := by
  simp [Fmt.div, hx, hy, f.nanOf_pair (Num.isNan_inf n) (Num.isNan_inf j)]
theorem Fmt.div_fin_zero (hx : f.decode x = .fin n k e) (hy : f.decode y = .zero j) :
    f.div m x y = (f.infBits (n != j), flagDZ) := by
  simp [Fmt.div, hx, hy, f.nanOf_pair (Num.isNan_fin n k e) (Num.isNan_zero j), Num.neg]
theorem Fmt.sqrt_zero (hx : f.decode x = .zero n) : f.sqrt m x = (f.signBit n, 0) := by
  simp [Fmt.sqrt, hx, f.nanOf_single (Num.isNan_zero n)]
theorem Fmt.sqrt_neg_fin (hx : f.decode x = .fin true k e) : f.sqrt m x = f.invalid := by
  simp [Fmt.sqrt, hx, f.nanOf_single (Num.isNan_fin true k e)]
theorem Fmt.sqrt_neg_inf (hx : f.decode x = .inf true) : f.sqrt m x = f.invalid := by
  simp [Fmt.sqrt, hx, f.nanOf_single (Num.isNan_inf true)]
end
end

section
variable (f : Fmt) (m : Rnd) (n j : Bool)

theorem Fmt.addNum_inf_opposite : f.addNum m (.inf n) (.inf !n) = f.invalid := by cases n <;> rfl
theorem Fmt.addNum_zero_zero :
    f.addNum m (.zero n) (.zero j) = (f.signBit (if n = j then n else m = .rdn), 0) := rfl
end

/-! ## The bits of single and double precision (R26, R38) -/

theorem fmtP_invalid (p : BitVec 1) :
    (fmtP p).invalid = (if p = 1 then 0x7FF8000000000000 else 0x7FC00000, flagNV) := by
  unfold fmtP
  split <;> rfl
theorem fmtP_infBits (p : BitVec 1) (n : Bool) :
    (fmtP p).infBits n = (fmtP p).signBit n + if p = 1 then 0x7FF0000000000000 else 0x7F800000 := by
  unfold fmtP
  split <;> rfl

end Sys2Proof.Machine

namespace Sys2Proof.Settled
open Sys2Proof.Machine

/-- Settles O23: clause by clause, from what each operation does with the decoded operands. -/
theorem floatSpecialCases : Obligations.FloatSpecialCases := by
  intro p m x y f nan inf sign
  have hinv : f.invalid = (nan, flagNV) := fmtP_invalid p
  refine ⟨fun n k q hx => ?nans, fun n hx hy => ?infMinusInf, fun n hx hy => ?infSubInf, fun n k hx hy => ?zeroTimesInf,
    fun n k e j hx hy => ?finByZero, fun n j hx hy => ?zeroByZero, fun n j hx hy => ?infByInf, fun k e hx => ?sqrtNeg,
    fun hx => ?sqrtNegInf, fun n hx => Fmt.sqrt_zero m hx, fun n j hx hy => ?zeroPlusZero⟩
  case nans =>
    rw [Fmt.add_of_nan m y hx, Fmt.mul_of_nan m y hx, Fmt.div_of_nan m y hx, Fmt.sqrt_of_nan m hx]
    exact ⟨rfl, rfl, rfl, rfl, fun hq => by simp [hq]⟩
  case infMinusInf => rw [Fmt.add_of_num m hx hy rfl rfl, Fmt.addNum_inf_opposite, hinv]
  case infSubInf => rw [Fmt.sub_of_num m hx hy rfl rfl, Num.negate, Fmt.addNum_inf_opposite, hinv]
  case zeroTimesInf =>
    exact ⟨(Fmt.mul_of_bad m hx hy rfl rfl rfl).trans hinv, (Fmt.mul_of_bad m hy hx rfl rfl rfl).trans hinv⟩
  case finByZero =>
    rw [Fmt.div_fin_zero m hx hy, fmtP_infBits]
    rfl
  case zeroByZero => rw [Fmt.div_zero_zero m hx hy, hinv]
  case infByInf => rw [Fmt.div_inf_inf m hx hy, hinv]
  case sqrtNeg => rw [Fmt.sqrt_neg_fin m hx, hinv]
  case sqrtNegInf => rw [Fmt.sqrt_neg_inf m hx, hinv]
  case zeroPlusZero =>
    rw [Fmt.add_of_num m hx hy rfl rfl, Fmt.addNum_zero_zero]
    rfl

end Sys2Proof.Settled
end


-- ==== Sys2Proof/Proofs/EncodingPieces.lean ====
section
/-! SUPPORT. Words as pieces laid end to end, and the pieces of each row of the encoding tables (R71 to R87): the operand fields,
and between them the constants that the decoder tests. -/
namespace Sys2Proof.Encoding
open Sys2Proof

/-! ## Words cut into pieces (R69, R71, R76) -/

theorem field_lt (w lo n : Nat) : field w lo n < 2 ^ n := Nat.mod_lt _ (Nat.two_pow_pos n)
theorem field_mod {w lo n k : Nat} (hk : k = 2 ^ n) : field w lo n % k = field w lo n := by
  rw [hk, Nat.mod_eq_of_lt (field_lt ..)]
@[simp] theorem fieldBV_toNat (w lo n : Nat) : (fieldBV w lo n).toNat = field w lo n := by
  rw [fieldBV, BitVec.toNat_ofNat, field_mod rfl]
theorem field_low (w n : Nat) : field w 0 n = w % 2 ^ n := by simp [field]
theorem field_add (w lo m n : Nat) : field w lo (m + n) = field w lo m + 2 ^ m * field w (lo + m) n := by
  simp only [field, pow_add, Nat.mod_mul, Nat.div_div_eq_div_mul]
/-- A field that reads below a bound reads the same in the word cut at that bound. -/
theorem field_mod_two_pow {w lo n k : Nat} (h : lo + n ≤ k) : field (w % 2 ^ k) lo n = field w lo n := by
  obtain ⟨c, rfl⟩ := Nat.exists_eq_add_of_le h
  simp only [field, pow_add, mul_assoc, Nat.mod_mul_right_div_self, Nat.mod_mul_right_mod]
/-- A field tests as its two parts do. -/
theorem field_cut (lo m n : Nat) {w v : Nat} :
    field w lo (m + n) = v ↔ field w lo m = v % 2 ^ m ∧ field w (lo + m) n = v / 2 ^ m := by
  have hlt := field_lt w lo m
  have hdiv := Nat.mod_add_div v (2 ^ m)
  rw [field_add]
  refine ⟨?_, fun ⟨h1, h2⟩ => by rw [h1, h2, hdiv]⟩
  rintro rfl
  simp [Nat.add_mul_mod_self_left, Nat.add_mul_div_left, Nat.mod_eq_of_lt, Nat.div_eq_of_lt, hlt]

/-- Some bits of a word, and how many. -/
abbrev Piece := Σ n : Nat, BitVec n
def width (l : List Piece) : Nat := (l.map (·.1)).sum
/-- The word that a list of pieces makes up, the lowest bits first. -/
def pack : List Piece → Nat
  | [] => 0
  | ⟨n, v⟩ :: r => v.toNat + 2 ^ n * pack r
/-- From bit lo on, the word consists of the pieces. -/
def Matches (w : Nat) : Nat → List Piece → Prop
  | _, [] => True
  | lo, ⟨n, v⟩ :: r => field w lo n = v.toNat ∧ Matches w (lo + n) r

theorem pack_lt (l : List Piece) : pack l < 2 ^ width l := by
  induction l with
  | nil => simp [pack, width]
  | cons p r ih =>
    obtain ⟨n, v⟩ := p
    simp only [pack, width, List.map_cons, List.sum_cons, pow_add] at ih ⊢
    calc v.toNat + 2 ^ n * pack r < 2 ^ n * (pack r + 1) := by rw [mul_add, mul_one]; omega
      _ ≤ 2 ^ n * 2 ^ (r.map (·.1)).sum := Nat.mul_le_mul_left _ ih
/-- A word consists of the pieces exactly where its bits are the word that they make up. -/
theorem matches_iff {w : Nat} (l : List Piece) {lo : Nat} : Matches w lo l ↔ field w lo (width l) = pack l := by
  induction l generalizing lo with
  | nil => simp [Matches, width, pack, field, Nat.mod_one]
  | cons p r ih =>
    obtain ⟨n, v⟩ := p
    have hw : width (⟨n, v⟩ :: r) = n + width r := by simp [width]
    rw [hw, field_cut, Matches, ih, pack, Nat.add_mul_mod_self_left, Nat.mod_eq_of_lt v.isLt,
      Nat.add_mul_div_left _ _ (Nat.two_pow_pos n), Nat.div_eq_of_lt v.isLt, Nat.zero_add]

/-- An operand laid in two pieces, read back together. -/
theorem ofNat_pair {n k m : Nat} (x : BitVec n) (h : 2 ^ n = k * m) :
    BitVec.ofNat n (x.toNat / k % m * k + x.toNat % k) = x := by
  have hx := x.isLt
  rw [Nat.mod_eq_of_lt (Nat.div_lt_of_lt_mul (h ▸ hx)), Nat.div_add_mod', BitVec.ofNat_toNat, BitVec.setWidth_eq]
/-- The high piece of an operand read from two fields. -/
theorem pair_high {w a b m n k l q : Nat} (hk : k = 2 ^ n) (hl : l = 2 ^ m) (hq : q = k * l) :
    (field w a m * k + field w b n) % q / k % l = field w a m := by
  have hlt := field_lt w b n
  rw [hq, Nat.mod_mul_right_div_self, hk, Nat.add_div_of_dvd_right (Dvd.intro_left _ rfl),
    Nat.mul_div_cancel _ (Nat.two_pow_pos n), Nat.div_eq_of_lt hlt, Nat.add_zero, Nat.mod_mod, field_mod hl]

/-! ## The encoding tables (R71 to R87) -/

/-- The pieces of an instruction's word, the lowest bits first: they cover 16 or 32 bits. An event has none. -/
def layout : Instr → List Piece
  | .add d a b w => [⟨1, w⟩, ⟨1, 0⟩, ⟨5, d⟩, ⟨6, 0⟩, ⟨3, 7⟩, ⟨5, a⟩, ⟨5, b⟩, ⟨6, 0⟩]
  | .sub d a b w => [⟨1, w⟩, ⟨1, 0⟩, ⟨5, d⟩, ⟨6, 0⟩, ⟨3, 7⟩, ⟨5, a⟩, ⟨5, b⟩, ⟨6, 1⟩]
  | .mul d a b w => [⟨1, w⟩, ⟨1, 0⟩, ⟨5, d⟩, ⟨6, 0⟩, ⟨3, 7⟩, ⟨5, a⟩, ⟨5, b⟩, ⟨6, 2⟩]
  | .mulh d a b w => [⟨1, w⟩, ⟨1, 0⟩, ⟨5, d⟩, ⟨6, 0⟩, ⟨3, 7⟩, ⟨5, a⟩, ⟨5, b⟩, ⟨6, 3⟩]
  | .mulhn d a b w => [⟨1, w⟩, ⟨1, 0⟩, ⟨5, d⟩, ⟨6, 0⟩, ⟨3, 7⟩, ⟨5, a⟩, ⟨5, b⟩, ⟨6, 4⟩]
  | .div d a b w => [⟨1, w⟩, ⟨1, 0⟩, ⟨5, d⟩, ⟨6, 0⟩, ⟨3, 7⟩, ⟨5, a⟩, ⟨5, b⟩, ⟨6, 5⟩]
  | .divn d a b w => [⟨1, w⟩, ⟨1, 0⟩, ⟨5, d⟩, ⟨6, 0⟩, ⟨3, 7⟩, ⟨5, a⟩, ⟨5, b⟩, ⟨6, 6⟩]
  | .rem d a b w => [⟨1, w⟩, ⟨1, 0⟩, ⟨5, d⟩, ⟨6, 0⟩, ⟨3, 7⟩, ⟨5, a⟩, ⟨5, b⟩, ⟨6, 7⟩]
  | .remn d a b w => [⟨1, w⟩, ⟨1, 0⟩, ⟨5, d⟩, ⟨6, 0⟩, ⟨3, 7⟩, ⟨5, a⟩, ⟨5, b⟩, ⟨6, 8⟩]
  | .and d a b w => [⟨1, w⟩, ⟨1, 0⟩, ⟨5, d⟩, ⟨6, 0⟩, ⟨3, 7⟩, ⟨5, a⟩, ⟨5, b⟩, ⟨6, 9⟩]
  | .or d a b w => [⟨1, w⟩, ⟨1, 0⟩, ⟨5, d⟩, ⟨6, 0⟩, ⟨3, 7⟩, ⟨5, a⟩, ⟨5, b⟩, ⟨6, 10⟩]
  | .xor d a b w => [⟨1, w⟩, ⟨1, 0⟩, ⟨5, d⟩, ⟨6, 0⟩, ⟨3, 7⟩, ⟨5, a⟩, ⟨5, b⟩, ⟨6, 11⟩]
  | .andn d a b w => [⟨1, w⟩, ⟨1, 0⟩, ⟨5, d⟩, ⟨6, 0⟩, ⟨3, 7⟩, ⟨5, a⟩, ⟨5, b⟩, ⟨6, 12⟩]
  | .shl d a b w => [⟨1, w⟩, ⟨1, 0⟩, ⟨5, d⟩, ⟨6, 0⟩, ⟨3, 7⟩, ⟨5, a⟩, ⟨5, b⟩, ⟨6, 13⟩]
  | .shr d a b w => [⟨1, w⟩, ⟨1, 0⟩, ⟨5, d⟩, ⟨6, 0⟩, ⟨3, 7⟩, ⟨5, a⟩, ⟨5, b⟩, ⟨6, 14⟩]
  | .sra d a b w => [⟨1, w⟩, ⟨1, 0⟩, ⟨5, d⟩, ⟨6, 0⟩, ⟨3, 7⟩, ⟨5, a⟩, ⟨5, b⟩, ⟨6, 15⟩]
  | .rol d a b w => [⟨1, w⟩, ⟨1, 0⟩, ⟨5, d⟩, ⟨6, 0⟩, ⟨3, 7⟩, ⟨5, a⟩, ⟨5, b⟩, ⟨6, 16⟩]
  | .ror d a b w => [⟨1, w⟩, ⟨1, 0⟩, ⟨5, d⟩, ⟨6, 0⟩, ⟨3, 7⟩, ⟨5, a⟩, ⟨5, b⟩, ⟨6, 17⟩]
  | .min d a b w => [⟨1, w⟩, ⟨1, 0⟩, ⟨5, d⟩, ⟨6, 0⟩, ⟨3, 7⟩, ⟨5, a⟩, ⟨5, b⟩, ⟨6, 18⟩]
  | .max d a b w => [⟨1, w⟩, ⟨1, 0⟩, ⟨5, d⟩, ⟨6, 0⟩, ⟨3, 7⟩, ⟨5, a⟩, ⟨5, b⟩, ⟨6, 19⟩]
  | .minn d a b w => [⟨1, w⟩, ⟨1, 0⟩, ⟨5, d⟩, ⟨6, 0⟩, ⟨3, 7⟩, ⟨5, a⟩, ⟨5, b⟩, ⟨6, 20⟩]
  | .maxn d a b w => [⟨1, w⟩, ⟨1, 0⟩, ⟨5, d⟩, ⟨6, 0⟩, ⟨3, 7⟩, ⟨5, a⟩, ⟨5, b⟩, ⟨6, 21⟩]
  | .slt d a b w => [⟨1, w⟩, ⟨1, 0⟩, ⟨5, d⟩, ⟨6, 0⟩, ⟨3, 7⟩, ⟨5, a⟩, ⟨5, b⟩, ⟨6, 22⟩]
  | .sltn d a b w => [⟨1, w⟩, ⟨1, 0⟩, ⟨5, d⟩, ⟨6, 0⟩, ⟨3, 7⟩, ⟨5, a⟩, ⟨5, b⟩, ⟨6, 23⟩]
  | .seq d a b w => [⟨1, w⟩, ⟨1, 0⟩, ⟨5, d⟩, ⟨6, 0⟩, ⟨3, 7⟩, ⟨5, a⟩, ⟨5, b⟩, ⟨6, 24⟩]
  | .clz d a w => [⟨1, w⟩, ⟨1, 0⟩, ⟨5, d⟩, ⟨6, 0⟩, ⟨3, 7⟩, ⟨5, a⟩, ⟨11, 800⟩]
  | .ctz d a w => [⟨1, w⟩, ⟨1, 0⟩, ⟨5, d⟩, ⟨6, 0⟩, ⟨3, 7⟩, ⟨5, a⟩, ⟨11, 832⟩]
  | .popc d a w => [⟨1, w⟩, ⟨1, 0⟩, ⟨5, d⟩, ⟨6, 0⟩, ⟨3, 7⟩, ⟨5, a⟩, ⟨11, 864⟩]
  | .brev d a w => [⟨1, w⟩, ⟨1, 0⟩, ⟨5, d⟩, ⟨6, 0⟩, ⟨3, 7⟩, ⟨5, a⟩, ⟨11, 896⟩]
  | .addi d a i w => [⟨1, w⟩, ⟨1, 0⟩, ⟨5, d⟩, ⟨6, 1⟩, ⟨3, 7⟩, ⟨5, a⟩, ⟨11, i⟩]
  | .andi d a i => [⟨2, 0⟩, ⟨5, d⟩, ⟨6, 2⟩, ⟨3, 7⟩, ⟨5, a⟩, ⟨11, i⟩]
  | .ori d a i => [⟨2, 1⟩, ⟨5, d⟩, ⟨6, 2⟩, ⟨3, 7⟩, ⟨5, a⟩, ⟨11, i⟩]
  | .xori d a i => [⟨2, 2⟩, ⟨5, d⟩, ⟨6, 2⟩, ⟨3, 7⟩, ⟨5, a⟩, ⟨11, i⟩]
  | .slti d a i => [⟨2, 3⟩, ⟨5, d⟩, ⟨6, 2⟩, ⟨3, 7⟩, ⟨5, a⟩, ⟨11, i⟩]
  | .sel d a b c => [⟨2, 0⟩, ⟨5, d⟩, ⟨6, 3⟩, ⟨3, 7⟩, ⟨5, a⟩, ⟨5, b⟩, ⟨5, c⟩, ⟨1, 0⟩]
  | .shli d a w s => [⟨2, 0⟩, ⟨5, d⟩, ⟨6, 4⟩, ⟨3, 7⟩, ⟨5, a⟩, ⟨6, s⟩, ⟨1, w⟩, ⟨4, 0⟩]
  | .shri d a w s => [⟨2, 1⟩, ⟨5, d⟩, ⟨6, 4⟩, ⟨3, 7⟩, ⟨5, a⟩, ⟨6, s⟩, ⟨1, w⟩, ⟨4, 0⟩]
  | .srai d a w s => [⟨2, 2⟩, ⟨5, d⟩, ⟨6, 4⟩, ⟨3, 7⟩, ⟨5, a⟩, ⟨6, s⟩, ⟨1, w⟩, ⟨4, 0⟩]
  | .ldhi d i k => [⟨2, k⟩, ⟨5, d⟩, ⟨6, 5⟩, ⟨3, 7⟩, ⟨16, i⟩]
  | .lea d a i => [⟨2, 0⟩, ⟨5, d⟩, ⟨6, 6⟩, ⟨3, 7⟩, ⟨5, a⟩, ⟨11, i⟩]
  | .leaScaled d a b s => [⟨2, 1⟩, ⟨5, d⟩, ⟨6, 6⟩, ⟨3, 7⟩, ⟨5, a⟩, ⟨5, b⟩, ⟨3, s⟩, ⟨3, 0⟩]
  | .leaRegion d a n o => [⟨2, 2⟩, ⟨5, d⟩, ⟨6, 6⟩, ⟨3, 7⟩, ⟨5, a⟩, ⟨7, o⟩, ⟨4, n⟩]
  | .bfx d a l p => [⟨2, 0⟩, ⟨5, d⟩, ⟨6, 7⟩, ⟨3, 7⟩, ⟨5, a⟩, ⟨6, p⟩, ⟨5, l⟩]
  | .bfxn d a l p => [⟨2, 1⟩, ⟨5, d⟩, ⟨6, 7⟩, ⟨3, 7⟩, ⟨5, a⟩, ⟨6, p⟩, ⟨5, l⟩]
  | .bfi d a l p => [⟨2, 2⟩, ⟨5, d⟩, ⟨6, 7⟩, ⟨3, 7⟩, ⟨5, a⟩, ⟨6, p⟩, ⟨5, l⟩]
  | .beq a b o => [⟨2, .ofNat 2 (o.toNat % 4)⟩, ⟨5, a⟩, ⟨6, 8⟩, ⟨3, 7⟩, ⟨5, b⟩, ⟨11, .ofNat 11 (o.toNat / 4)⟩]
  | .bne a b o => [⟨2, .ofNat 2 (o.toNat % 4)⟩, ⟨5, a⟩, ⟨6, 9⟩, ⟨3, 7⟩, ⟨5, b⟩, ⟨11, .ofNat 11 (o.toNat / 4)⟩]
  | .blt a b o => [⟨2, .ofNat 2 (o.toNat % 4)⟩, ⟨5, a⟩, ⟨6, 10⟩, ⟨3, 7⟩, ⟨5, b⟩, ⟨11, .ofNat 11 (o.toNat / 4)⟩]
  | .bge a b o => [⟨2, .ofNat 2 (o.toNat % 4)⟩, ⟨5, a⟩, ⟨6, 11⟩, ⟨3, 7⟩, ⟨5, b⟩, ⟨11, .ofNat 11 (o.toNat / 4)⟩]
  | .bltn a b o => [⟨2, .ofNat 2 (o.toNat % 4)⟩, ⟨5, a⟩, ⟨6, 12⟩, ⟨3, 7⟩, ⟨5, b⟩, ⟨11, .ofNat 11 (o.toNat / 4)⟩]
  | .bgen a b o => [⟨2, .ofNat 2 (o.toNat % 4)⟩, ⟨5, a⟩, ⟨6, 13⟩, ⟨3, 7⟩, ⟨5, b⟩, ⟨11, .ofNat 11 (o.toNat / 4)⟩]
  | .j o => [⟨2, .ofNat 2 (o.toNat % 4)⟩, ⟨5, 0⟩, ⟨6, 14⟩, ⟨3, 7⟩, ⟨16, .ofNat 16 (o.toNat / 4)⟩]
  | .jal d o => [⟨2, .ofNat 2 (o.toNat % 4)⟩, ⟨5, d⟩, ⟨6, 14⟩, ⟨3, 7⟩, ⟨16, .ofNat 16 (o.toNat / 4)⟩]
  | .jalr d a i => [⟨2, 0⟩, ⟨5, d⟩, ⟨6, 15⟩, ⟨3, 7⟩, ⟨5, a⟩, ⟨11, i⟩]
  | .loop a i => [⟨7, 1⟩, ⟨6, 15⟩, ⟨3, 7⟩, ⟨5, a⟩, ⟨11, i⟩]
  | .endTask => [⟨7, 2⟩, ⟨6, 15⟩, ⟨3, 7⟩, ⟨16, 0⟩]
  | .trap i => [⟨7, 2⟩, ⟨6, 15⟩, ⟨3, 7⟩, ⟨5, 0⟩, ⟨9, i⟩, ⟨2, 1⟩]
  | .brk i => [⟨7, 2⟩, ⟨6, 15⟩, ⟨3, 7⟩, ⟨5, 0⟩, ⟨9, i⟩, ⟨2, 2⟩]
  | .addCr d a => [⟨4, a⟩, ⟨4, d⟩, ⟨5, 2⟩, ⟨3, 0⟩]
  | .moveCr d a => [⟨4, a⟩, ⟨4, d⟩, ⟨5, 1⟩, ⟨3, 0⟩]
  | .subCr d a => [⟨4, a⟩, ⟨4, d⟩, ⟨5, 3⟩, ⟨3, 0⟩]
  | .andCr d a => [⟨4, a⟩, ⟨4, d⟩, ⟨5, 4⟩, ⟨3, 0⟩]
  | .orCr d a => [⟨4, a⟩, ⟨4, d⟩, ⟨5, 5⟩, ⟨3, 0⟩]
  | .xorCr d a => [⟨4, a⟩, ⟨4, d⟩, ⟨5, 6⟩, ⟨3, 0⟩]
  | .shlCr d a => [⟨4, a⟩, ⟨4, d⟩, ⟨5, 7⟩, ⟨3, 0⟩]
  | .shrCr d a => [⟨4, a⟩, ⟨4, d⟩, ⟨5, 8⟩, ⟨3, 0⟩]
  | .sraCr d a => [⟨4, a⟩, ⟨4, d⟩, ⟨5, 9⟩, ⟨3, 0⟩]
  | .mulCr d a => [⟨4, a⟩, ⟨4, d⟩, ⟨5, 10⟩, ⟨3, 0⟩]
  | .jalrLinkCr a => [⟨4, a⟩, ⟨9, 176⟩, ⟨3, 0⟩]
  | .jalrNolinkCr a => [⟨4, a⟩, ⟨9, 192⟩, ⟨3, 0⟩]
  | .addiCi d i => [⟨6, i⟩, ⟨4, d⟩, ⟨3, 0⟩, ⟨3, 1⟩]
  | .addiZeroCi d i => [⟨6, i⟩, ⟨4, d⟩, ⟨3, 1⟩, ⟨3, 1⟩]
  | .shliCi d i => [⟨6, i⟩, ⟨4, d⟩, ⟨3, 2⟩, ⟨3, 1⟩]
  | .shriCi d i => [⟨6, i⟩, ⟨4, d⟩, ⟨3, 3⟩, ⟨3, 1⟩]
  | .sraiCi d i => [⟨6, i⟩, ⟨4, d⟩, ⟨3, 4⟩, ⟨3, 1⟩]
  | .andiCi d i => [⟨6, i⟩, ⟨4, d⟩, ⟨3, 5⟩, ⟨3, 1⟩]
  | .ldDCm d b o => [⟨4, o⟩, ⟨4, b⟩, ⟨4, d⟩, ⟨1, 0⟩, ⟨3, 2⟩]
  | .stDCm d b o => [⟨4, o⟩, ⟨4, b⟩, ⟨4, d⟩, ⟨1, 1⟩, ⟨3, 2⟩]
  | .beqCb a o => [⟨7, o⟩, ⟨4, a⟩, ⟨2, 0⟩, ⟨3, 3⟩]
  | .bneCb a o => [⟨7, o⟩, ⟨4, a⟩, ⟨2, 1⟩, ⟨3, 3⟩]
  | .bltCb a o => [⟨7, o⟩, ⟨4, a⟩, ⟨2, 2⟩, ⟨3, 3⟩]
  | .bgeCb a o => [⟨7, o⟩, ⟨4, a⟩, ⟨2, 3⟩, ⟨3, 3⟩]
  | .jCj o => [⟨13, o⟩, ⟨3, 4⟩]
  | .endCt => [⟨13, 0⟩, ⟨3, 5⟩]
  | .doneCt a => [⟨4, 0⟩, ⟨4, a⟩, ⟨5, 1⟩, ⟨3, 5⟩]
  | .sendC a k => [⟨4, k⟩, ⟨4, a⟩, ⟨5, 2⟩, ⟨3, 5⟩]
  | .vorCv d a => [⟨4, a⟩, ⟨4, d⟩, ⟨5, 0⟩, ⟨3, 6⟩]
  | .vaddS32Cv d a => [⟨4, a⟩, ⟨4, d⟩, ⟨5, 1⟩, ⟨3, 6⟩]
  | .vsubS32Cv d a => [⟨4, a⟩, ⟨4, d⟩, ⟨5, 2⟩, ⟨3, 6⟩]
  | .vaddF32Cv d a => [⟨4, a⟩, ⟨4, d⟩, ⟨5, 3⟩, ⟨3, 6⟩]
  | .vsubF32Cv d a => [⟨4, a⟩, ⟨4, d⟩, ⟨5, 4⟩, ⟨3, 6⟩]
  | .vmulF32Cv d a => [⟨4, a⟩, ⟨4, d⟩, ⟨5, 5⟩, ⟨3, 6⟩]
  | .vmaxF32Cv d a => [⟨4, a⟩, ⟨4, d⟩, ⟨5, 6⟩, ⟨3, 6⟩]
  | .vminF32Cv d a => [⟨4, a⟩, ⟨4, d⟩, ⟨5, 7⟩, ⟨3, 6⟩]
  | .vandCv d a => [⟨4, a⟩, ⟨4, d⟩, ⟨5, 8⟩, ⟨3, 6⟩]
  | .vxorCv d a => [⟨4, a⟩, ⟨4, d⟩, ⟨5, 9⟩, ⟨3, 6⟩]
  | .vnotCv d a => [⟨4, a⟩, ⟨4, d⟩, ⟨5, 10⟩, ⟨3, 6⟩]
  | .ld d a o s i w => [⟨2, w⟩, ⟨5, d⟩, ⟨6, 16⟩, ⟨3, 7⟩, ⟨5, a⟩, ⟨5, i⟩, ⟨3, s⟩, ⟨2, o⟩, ⟨1, 1⟩]
  | .ldIndex d a b o s w => [⟨2, w⟩, ⟨5, d⟩, ⟨6, 16⟩, ⟨3, 7⟩, ⟨5, a⟩, ⟨5, b⟩, ⟨3, s⟩, ⟨2, o⟩, ⟨1, 0⟩]
  | .ldRegion d a n i w => [⟨2, w⟩, ⟨5, d⟩, ⟨6, 16⟩, ⟨3, 7⟩, ⟨5, a⟩, ⟨5, i⟩, ⟨3, .ofNat 3 (n.toNat % 8)⟩, ⟨2, 3⟩, ⟨1, .ofNat 1 (n.toNat / 8)⟩]
  | .st d a o s i w => [⟨2, w⟩, ⟨5, d⟩, ⟨6, 17⟩, ⟨3, 7⟩, ⟨5, a⟩, ⟨5, i⟩, ⟨3, s⟩, ⟨2, o⟩, ⟨1, 1⟩]
  | .stIndex d a b o s w => [⟨2, w⟩, ⟨5, d⟩, ⟨6, 17⟩, ⟨3, 7⟩, ⟨5, a⟩, ⟨5, b⟩, ⟨3, s⟩, ⟨2, o⟩, ⟨1, 0⟩]
  | .stRegion d a n i w => [⟨2, w⟩, ⟨5, d⟩, ⟨6, 17⟩, ⟨3, 7⟩, ⟨5, a⟩, ⟨5, i⟩, ⟨3, .ofNat 3 (n.toNat % 8)⟩, ⟨2, 3⟩, ⟨1, .ofNat 1 (n.toNat / 8)⟩]
  | .ldv d a o s i => [⟨2, 0⟩, ⟨5, d⟩, ⟨6, 18⟩, ⟨3, 7⟩, ⟨5, a⟩, ⟨5, i⟩, ⟨3, s⟩, ⟨2, o⟩, ⟨1, 1⟩]
  | .ldvIndex d a b o s => [⟨2, 0⟩, ⟨5, d⟩, ⟨6, 18⟩, ⟨3, 7⟩, ⟨5, a⟩, ⟨5, b⟩, ⟨3, s⟩, ⟨2, o⟩, ⟨1, 0⟩]
  | .ldvRegion d a n i => [⟨2, 0⟩, ⟨5, d⟩, ⟨6, 18⟩, ⟨3, 7⟩, ⟨5, a⟩, ⟨5, i⟩, ⟨3, .ofNat 3 (n.toNat % 8)⟩, ⟨2, 3⟩, ⟨1, .ofNat 1 (n.toNat / 8)⟩]
  | .stv d a o s i => [⟨2, 1⟩, ⟨5, d⟩, ⟨6, 18⟩, ⟨3, 7⟩, ⟨5, a⟩, ⟨5, i⟩, ⟨3, s⟩, ⟨2, o⟩, ⟨1, 1⟩]
  | .stvIndex d a b o s => [⟨2, 1⟩, ⟨5, d⟩, ⟨6, 18⟩, ⟨3, 7⟩, ⟨5, a⟩, ⟨5, b⟩, ⟨3, s⟩, ⟨2, o⟩, ⟨1, 0⟩]
  | .stvRegion d a n i => [⟨2, 1⟩, ⟨5, d⟩, ⟨6, 18⟩, ⟨3, 7⟩, ⟨5, a⟩, ⟨5, i⟩, ⟨3, .ofNat 3 (n.toNat % 8)⟩, ⟨2, 3⟩, ⟨1, .ofNat 1 (n.toNat / 8)⟩]
  | .ldf d a o s i => [⟨2, 0⟩, ⟨5, d⟩, ⟨6, 19⟩, ⟨3, 7⟩, ⟨5, a⟩, ⟨5, i⟩, ⟨3, s⟩, ⟨2, o⟩, ⟨1, 1⟩]
  | .ldfIndex d a b o s => [⟨2, 0⟩, ⟨5, d⟩, ⟨6, 19⟩, ⟨3, 7⟩, ⟨5, a⟩, ⟨5, b⟩, ⟨3, s⟩, ⟨2, o⟩, ⟨1, 0⟩]
  | .stf d a o s i => [⟨2, 1⟩, ⟨5, d⟩, ⟨6, 19⟩, ⟨3, 7⟩, ⟨5, a⟩, ⟨5, i⟩, ⟨3, s⟩, ⟨2, o⟩, ⟨1, 1⟩]
  | .stfIndex d a b o s => [⟨2, 1⟩, ⟨5, d⟩, ⟨6, 19⟩, ⟨3, 7⟩, ⟨5, a⟩, ⟨5, b⟩, ⟨3, s⟩, ⟨2, o⟩, ⟨1, 0⟩]
  | .ste d a o s i => [⟨2, 2⟩, ⟨5, d⟩, ⟨6, 19⟩, ⟨3, 7⟩, ⟨5, a⟩, ⟨5, i⟩, ⟨3, s⟩, ⟨2, o⟩, ⟨1, 1⟩]
  | .steIndex d a b o s => [⟨2, 2⟩, ⟨5, d⟩, ⟨6, 19⟩, ⟨3, 7⟩, ⟨5, a⟩, ⟨5, b⟩, ⟨3, s⟩, ⟨2, o⟩, ⟨1, 0⟩]
  | .aadd d a b o s w => [⟨1, w⟩, ⟨1, 0⟩, ⟨5, d⟩, ⟨6, 20⟩, ⟨3, 7⟩, ⟨5, a⟩, ⟨5, b⟩, ⟨3, s⟩, ⟨2, o⟩, ⟨1, 0⟩]
  | .aand d a b o s w => [⟨1, w⟩, ⟨1, 1⟩, ⟨5, d⟩, ⟨6, 20⟩, ⟨3, 7⟩, ⟨5, a⟩, ⟨5, b⟩, ⟨3, s⟩, ⟨2, o⟩, ⟨1, 0⟩]
  | .aor d a b o s w => [⟨1, w⟩, ⟨1, 0⟩, ⟨5, d⟩, ⟨6, 20⟩, ⟨3, 7⟩, ⟨5, a⟩, ⟨5, b⟩, ⟨3, s⟩, ⟨2, o⟩, ⟨1, 1⟩]
  | .axor d a b o s w => [⟨1, w⟩, ⟨1, 1⟩, ⟨5, d⟩, ⟨6, 20⟩, ⟨3, 7⟩, ⟨5, a⟩, ⟨5, b⟩, ⟨3, s⟩, ⟨2, o⟩, ⟨1, 1⟩]
  | .amin d a b o s w => [⟨1, w⟩, ⟨1, 0⟩, ⟨5, d⟩, ⟨6, 21⟩, ⟨3, 7⟩, ⟨5, a⟩, ⟨5, b⟩, ⟨3, s⟩, ⟨2, o⟩, ⟨1, 0⟩]
  | .amax d a b o s w => [⟨1, w⟩, ⟨1, 1⟩, ⟨5, d⟩, ⟨6, 21⟩, ⟨3, 7⟩, ⟨5, a⟩, ⟨5, b⟩, ⟨3, s⟩, ⟨2, o⟩, ⟨1, 0⟩]
  | .aminn d a b o s w => [⟨1, w⟩, ⟨1, 0⟩, ⟨5, d⟩, ⟨6, 21⟩, ⟨3, 7⟩, ⟨5, a⟩, ⟨5, b⟩, ⟨3, s⟩, ⟨2, o⟩, ⟨1, 1⟩]
  | .amaxn d a b o s w => [⟨1, w⟩, ⟨1, 1⟩, ⟨5, d⟩, ⟨6, 21⟩, ⟨3, 7⟩, ⟨5, a⟩, ⟨5, b⟩, ⟨3, s⟩, ⟨2, o⟩, ⟨1, 1⟩]
  | .aswp d a b o s w => [⟨1, w⟩, ⟨1, 0⟩, ⟨5, d⟩, ⟨6, 22⟩, ⟨3, 7⟩, ⟨5, a⟩, ⟨5, b⟩, ⟨3, s⟩, ⟨2, o⟩, ⟨1, 0⟩]
  | .acas d a b o s w => [⟨1, w⟩, ⟨1, 1⟩, ⟨5, d⟩, ⟨6, 22⟩, ⟨3, 7⟩, ⟨5, a⟩, ⟨5, b⟩, ⟨3, s⟩, ⟨2, o⟩, ⟨1, 0⟩]
  | .afadd d a b o s w => [⟨1, w⟩, ⟨1, 0⟩, ⟨5, d⟩, ⟨6, 22⟩, ⟨3, 7⟩, ⟨5, a⟩, ⟨5, b⟩, ⟨3, s⟩, ⟨2, o⟩, ⟨1, 1⟩]
  | .adf d a b o s w => [⟨1, w⟩, ⟨1, 1⟩, ⟨5, d⟩, ⟨6, 22⟩, ⟨3, 7⟩, ⟨5, a⟩, ⟨5, b⟩, ⟨3, s⟩, ⟨2, o⟩, ⟨1, 1⟩]
  | .fence o s => [⟨7, 0⟩, ⟨6, 23⟩, ⟨3, 7⟩, ⟨10, 0⟩, ⟨3, s⟩, ⟨2, o⟩, ⟨1, 0⟩]
  | .aliasf a b => [⟨7, 1⟩, ⟨6, 23⟩, ⟨3, 7⟩, ⟨5, a⟩, ⟨5, b⟩, ⟨6, 0⟩]
  | .ifence => [⟨7, 2⟩, ⟨6, 23⟩, ⟨3, 7⟩, ⟨16, 0⟩]
  | .pfx a i w l => [⟨2, 3⟩, ⟨2, l⟩, ⟨1, w⟩, ⟨2, 0⟩, ⟨6, 23⟩, ⟨3, 7⟩, ⟨5, a⟩, ⟨5, i⟩, ⟨6, 0⟩]
  | .nmadd a b t => [⟨2, 0⟩, ⟨5, t⟩, ⟨6, 23⟩, ⟨3, 7⟩, ⟨5, a⟩, ⟨5, b⟩, ⟨6, 32⟩]
  | .nmred a b o t => [⟨2, 1⟩, ⟨2, t⟩, ⟨3, o⟩, ⟨6, 23⟩, ⟨3, 7⟩, ⟨5, a⟩, ⟨5, b⟩, ⟨6, 32⟩]
  | .nmfence => [⟨7, 2⟩, ⟨6, 23⟩, ⟨3, 7⟩, ⟨16, 32768⟩]
  | .fadd d a b r p => [⟨1, p⟩, ⟨1, 0⟩, ⟨5, d⟩, ⟨6, 24⟩, ⟨3, 7⟩, ⟨5, a⟩, ⟨5, b⟩, ⟨3, r⟩, ⟨3, 0⟩]
  | .fsub d a b r p => [⟨1, p⟩, ⟨1, 0⟩, ⟨5, d⟩, ⟨6, 24⟩, ⟨3, 7⟩, ⟨5, a⟩, ⟨5, b⟩, ⟨3, r⟩, ⟨3, 1⟩]
  | .fmul d a b r p => [⟨1, p⟩, ⟨1, 0⟩, ⟨5, d⟩, ⟨6, 24⟩, ⟨3, 7⟩, ⟨5, a⟩, ⟨5, b⟩, ⟨3, r⟩, ⟨3, 2⟩]
  | .fdiv d a b r p => [⟨1, p⟩, ⟨1, 0⟩, ⟨5, d⟩, ⟨6, 24⟩, ⟨3, 7⟩, ⟨5, a⟩, ⟨5, b⟩, ⟨3, r⟩, ⟨3, 3⟩]
  | .fsqrt d a r p => [⟨1, p⟩, ⟨1, 0⟩, ⟨5, d⟩, ⟨6, 24⟩, ⟨3, 7⟩, ⟨5, a⟩, ⟨5, 0⟩, ⟨3, r⟩, ⟨3, 4⟩]
  | .ffma d a b r p => [⟨1, p⟩, ⟨1, 0⟩, ⟨5, d⟩, ⟨6, 25⟩, ⟨3, 7⟩, ⟨5, a⟩, ⟨5, b⟩, ⟨3, r⟩, ⟨3, 0⟩]
  | .ffms d a b r p => [⟨1, p⟩, ⟨1, 0⟩, ⟨5, d⟩, ⟨6, 25⟩, ⟨3, 7⟩, ⟨5, a⟩, ⟨5, b⟩, ⟨3, r⟩, ⟨3, 1⟩]
  | .ffnma d a b r p => [⟨1, p⟩, ⟨1, 0⟩, ⟨5, d⟩, ⟨6, 25⟩, ⟨3, 7⟩, ⟨5, a⟩, ⟨5, b⟩, ⟨3, r⟩, ⟨3, 2⟩]
  | .fmin d a b p => [⟨1, p⟩, ⟨1, 0⟩, ⟨5, d⟩, ⟨6, 26⟩, ⟨3, 7⟩, ⟨5, a⟩, ⟨5, b⟩, ⟨6, 0⟩]
  | .fmax d a b p => [⟨1, p⟩, ⟨1, 0⟩, ⟨5, d⟩, ⟨6, 26⟩, ⟨3, 7⟩, ⟨5, a⟩, ⟨5, b⟩, ⟨6, 8⟩]
  | .feq d a b p => [⟨1, p⟩, ⟨1, 0⟩, ⟨5, d⟩, ⟨6, 26⟩, ⟨3, 7⟩, ⟨5, a⟩, ⟨5, b⟩, ⟨6, 16⟩]
  | .flt d a b p => [⟨1, p⟩, ⟨1, 0⟩, ⟨5, d⟩, ⟨6, 26⟩, ⟨3, 7⟩, ⟨5, a⟩, ⟨5, b⟩, ⟨6, 24⟩]
  | .fle d a b p => [⟨1, p⟩, ⟨1, 0⟩, ⟨5, d⟩, ⟨6, 26⟩, ⟨3, 7⟩, ⟨5, a⟩, ⟨5, b⟩, ⟨6, 32⟩]
  | .fclass d a p => [⟨1, p⟩, ⟨1, 0⟩, ⟨5, d⟩, ⟨6, 26⟩, ⟨3, 7⟩, ⟨5, a⟩, ⟨11, 1280⟩]
  | .fsgnj d a b p => [⟨1, p⟩, ⟨1, 0⟩, ⟨5, d⟩, ⟨6, 27⟩, ⟨3, 7⟩, ⟨5, a⟩, ⟨5, b⟩, ⟨6, 0⟩]
  | .fsgnjn d a b p => [⟨1, p⟩, ⟨1, 0⟩, ⟨5, d⟩, ⟨6, 27⟩, ⟨3, 7⟩, ⟨5, a⟩, ⟨5, b⟩, ⟨6, 8⟩]
  | .fsgnjx d a b p => [⟨1, p⟩, ⟨1, 0⟩, ⟨5, d⟩, ⟨6, 27⟩, ⟨3, 7⟩, ⟨5, a⟩, ⟨5, b⟩, ⟨6, 16⟩]
  | .fcvt d a r s t => [⟨2, 0⟩, ⟨5, d⟩, ⟨6, 28⟩, ⟨3, 7⟩, ⟨5, a⟩, ⟨4, t⟩, ⟨4, s⟩, ⟨3, r⟩]
  | .fmvg d a => [⟨2, 0⟩, ⟨5, d⟩, ⟨6, 29⟩, ⟨3, 7⟩, ⟨5, a⟩, ⟨11, 0⟩]
  | .fmvf d a => [⟨2, 1⟩, ⟨5, d⟩, ⟨6, 29⟩, ⟨3, 7⟩, ⟨5, a⟩, ⟨11, 0⟩]
  | .frcpa d a p => [⟨1, p⟩, ⟨1, 0⟩, ⟨5, d⟩, ⟨6, 30⟩, ⟨3, 7⟩, ⟨5, a⟩, ⟨11, 0⟩]
  | .frsqa d a p => [⟨1, p⟩, ⟨1, 0⟩, ⟨5, d⟩, ⟨6, 30⟩, ⟨3, 7⟩, ⟨5, a⟩, ⟨11, 256⟩]
  | .frcpr d a b r p => [⟨1, p⟩, ⟨1, 0⟩, ⟨5, d⟩, ⟨6, 30⟩, ⟨3, 7⟩, ⟨5, a⟩, ⟨5, b⟩, ⟨3, r⟩, ⟨3, 2⟩]
  | .frsqr d a b r p => [⟨1, p⟩, ⟨1, 0⟩, ⟨5, d⟩, ⟨6, 30⟩, ⟨3, 7⟩, ⟨5, a⟩, ⟨5, b⟩, ⟨3, r⟩, ⟨3, 3⟩]
  | .vadd d a b c t => [⟨2, .ofNat 2 (t.toNat % 4)⟩, ⟨4, d⟩, ⟨1, .ofNat 1 (t.toNat / 4)⟩, ⟨6, 32⟩, ⟨3, 7⟩, ⟨4, a⟩, ⟨4, b⟩, ⟨4, c⟩, ⟨4, 0⟩]
  | .vsub d a b c t => [⟨2, .ofNat 2 (t.toNat % 4)⟩, ⟨4, d⟩, ⟨1, .ofNat 1 (t.toNat / 4)⟩, ⟨6, 32⟩, ⟨3, 7⟩, ⟨4, a⟩, ⟨4, b⟩, ⟨4, c⟩, ⟨4, 1⟩]
  | .vmul d a b c t => [⟨2, .ofNat 2 (t.toNat % 4)⟩, ⟨4, d⟩, ⟨1, .ofNat 1 (t.toNat / 4)⟩, ⟨6, 32⟩, ⟨3, 7⟩, ⟨4, a⟩, ⟨4, b⟩, ⟨4, c⟩, ⟨4, 2⟩]
  | .vfma d a b c t => [⟨2, .ofNat 2 (t.toNat % 4)⟩, ⟨4, d⟩, ⟨1, .ofNat 1 (t.toNat / 4)⟩, ⟨6, 32⟩, ⟨3, 7⟩, ⟨4, a⟩, ⟨4, b⟩, ⟨4, c⟩, ⟨4, 3⟩]
  | .vmin d a b c t => [⟨2, .ofNat 2 (t.toNat % 4)⟩, ⟨4, d⟩, ⟨1, .ofNat 1 (t.toNat / 4)⟩, ⟨6, 32⟩, ⟨3, 7⟩, ⟨4, a⟩, ⟨4, b⟩, ⟨4, c⟩, ⟨4, 4⟩]
  | .vmax d a b c t => [⟨2, .ofNat 2 (t.toNat % 4)⟩, ⟨4, d⟩, ⟨1, .ofNat 1 (t.toNat / 4)⟩, ⟨6, 32⟩, ⟨3, 7⟩, ⟨4, a⟩, ⟨4, b⟩, ⟨4, c⟩, ⟨4, 5⟩]
  | .vabs d a c t => [⟨2, .ofNat 2 (t.toNat % 4)⟩, ⟨4, d⟩, ⟨1, .ofNat 1 (t.toNat / 4)⟩, ⟨6, 32⟩, ⟨3, 7⟩, ⟨4, a⟩, ⟨4, 0⟩, ⟨4, c⟩, ⟨4, 6⟩]
  | .vabsd d a b c t => [⟨2, .ofNat 2 (t.toNat % 4)⟩, ⟨4, d⟩, ⟨1, .ofNat 1 (t.toNat / 4)⟩, ⟨6, 32⟩, ⟨3, 7⟩, ⟨4, a⟩, ⟨4, b⟩, ⟨4, c⟩, ⟨4, 7⟩]
  | .vneg d a c t => [⟨2, .ofNat 2 (t.toNat % 4)⟩, ⟨4, d⟩, ⟨1, .ofNat 1 (t.toNat / 4)⟩, ⟨6, 32⟩, ⟨3, 7⟩, ⟨4, a⟩, ⟨4, 0⟩, ⟨4, c⟩, ⟨4, 8⟩]
  | .vdot d a b t => [⟨2, .ofNat 2 (t.toNat % 4)⟩, ⟨4, d⟩, ⟨1, .ofNat 1 (t.toNat / 4)⟩, ⟨6, 32⟩, ⟨3, 7⟩, ⟨4, a⟩, ⟨4, b⟩, ⟨8, 144⟩]
  | .vand d a b => [⟨2, 0⟩, ⟨4, d⟩, ⟨1, 0⟩, ⟨6, 33⟩, ⟨3, 7⟩, ⟨4, a⟩, ⟨4, b⟩, ⟨8, 0⟩]
  | .vor d a b => [⟨2, 0⟩, ⟨4, d⟩, ⟨1, 0⟩, ⟨6, 33⟩, ⟨3, 7⟩, ⟨4, a⟩, ⟨4, b⟩, ⟨8, 16⟩]
  | .vxor d a b => [⟨2, 0⟩, ⟨4, d⟩, ⟨1, 0⟩, ⟨6, 33⟩, ⟨3, 7⟩, ⟨4, a⟩, ⟨4, b⟩, ⟨8, 32⟩]
  | .vnot d a => [⟨2, 0⟩, ⟨4, d⟩, ⟨1, 0⟩, ⟨6, 33⟩, ⟨3, 7⟩, ⟨4, a⟩, ⟨12, 768⟩]
  | .vshl d a b t => [⟨2, .ofNat 2 (t.toNat % 4)⟩, ⟨4, d⟩, ⟨1, .ofNat 1 (t.toNat / 4)⟩, ⟨6, 33⟩, ⟨3, 7⟩, ⟨4, a⟩, ⟨4, b⟩, ⟨8, 64⟩]
  | .vshr d a b t => [⟨2, .ofNat 2 (t.toNat % 4)⟩, ⟨4, d⟩, ⟨1, .ofNat 1 (t.toNat / 4)⟩, ⟨6, 33⟩, ⟨3, 7⟩, ⟨4, a⟩, ⟨4, b⟩, ⟨8, 80⟩]
  | .vsra d a b t => [⟨2, .ofNat 2 (t.toNat % 4)⟩, ⟨4, d⟩, ⟨1, .ofNat 1 (t.toNat / 4)⟩, ⟨6, 33⟩, ⟨3, 7⟩, ⟨4, a⟩, ⟨4, b⟩, ⟨8, 96⟩]
  | .vcmpeq d a b t => [⟨2, .ofNat 2 (t.toNat % 4)⟩, ⟨4, d⟩, ⟨1, .ofNat 1 (t.toNat / 4)⟩, ⟨6, 34⟩, ⟨3, 7⟩, ⟨4, a⟩, ⟨4, b⟩, ⟨8, 0⟩]
  | .vcmplt d a b c t => [⟨2, .ofNat 2 (t.toNat % 4)⟩, ⟨4, d⟩, ⟨1, .ofNat 1 (t.toNat / 4)⟩, ⟨6, 34⟩, ⟨3, 7⟩, ⟨4, a⟩, ⟨4, b⟩, ⟨4, c⟩, ⟨4, 1⟩]
  | .vcmple d a b c t => [⟨2, .ofNat 2 (t.toNat % 4)⟩, ⟨4, d⟩, ⟨1, .ofNat 1 (t.toNat / 4)⟩, ⟨6, 34⟩, ⟨3, 7⟩, ⟨4, a⟩, ⟨4, b⟩, ⟨4, c⟩, ⟨4, 2⟩]
  | .vsel d a b c t => [⟨2, .ofNat 2 (t.toNat % 4)⟩, ⟨4, d⟩, ⟨1, .ofNat 1 (t.toNat / 4)⟩, ⟨6, 34⟩, ⟨3, 7⟩, ⟨4, a⟩, ⟨4, b⟩, ⟨4, c⟩, ⟨4, 3⟩]
  | .vperm d a b c => [⟨2, 0⟩, ⟨4, d⟩, ⟨1, 0⟩, ⟨6, 35⟩, ⟨3, 7⟩, ⟨4, a⟩, ⟨4, b⟩, ⟨4, c⟩, ⟨4, 0⟩]
  | .vbcast d b t => [⟨2, .ofNat 2 (t.toNat % 4)⟩, ⟨4, d⟩, ⟨1, .ofNat 1 (t.toNat / 4)⟩, ⟨6, 35⟩, ⟨3, 7⟩, ⟨4, 0⟩, ⟨4, b⟩, ⟨8, 16⟩]
  | .vins d b c t => [⟨2, .ofNat 2 (t.toNat % 4)⟩, ⟨4, d⟩, ⟨1, .ofNat 1 (t.toNat / 4)⟩, ⟨6, 35⟩, ⟨3, 7⟩, ⟨4, 0⟩, ⟨4, b⟩, ⟨4, c⟩, ⟨4, 2⟩]
  | .vext d a c t => [⟨2, .ofNat 2 (t.toNat % 4)⟩, ⟨4, d⟩, ⟨1, .ofNat 1 (t.toNat / 4)⟩, ⟨6, 35⟩, ⟨3, 7⟩, ⟨4, a⟩, ⟨4, 0⟩, ⟨4, c⟩, ⟨4, 3⟩]
  | .vredadd d a t => [⟨2, .ofNat 2 (t.toNat % 4)⟩, ⟨4, d⟩, ⟨1, .ofNat 1 (t.toNat / 4)⟩, ⟨6, 36⟩, ⟨3, 7⟩, ⟨4, a⟩, ⟨12, 0⟩]
  | .vredmin d a c t => [⟨2, .ofNat 2 (t.toNat % 4)⟩, ⟨4, d⟩, ⟨1, .ofNat 1 (t.toNat / 4)⟩, ⟨6, 36⟩, ⟨3, 7⟩, ⟨4, a⟩, ⟨4, 0⟩, ⟨4, c⟩, ⟨4, 1⟩]
  | .vredmax d a c t => [⟨2, .ofNat 2 (t.toNat % 4)⟩, ⟨4, d⟩, ⟨1, .ofNat 1 (t.toNat / 4)⟩, ⟨6, 36⟩, ⟨3, 7⟩, ⟨4, a⟩, ⟨4, 0⟩, ⟨4, c⟩, ⟨4, 2⟩]
  | .vcvt d a b c r => [⟨2, .ofNat 2 (r.toNat % 4)⟩, ⟨4, d⟩, ⟨1, .ofNat 1 (r.toNat / 4)⟩, ⟨6, 36⟩, ⟨3, 7⟩, ⟨4, a⟩, ⟨4, b⟩, ⟨4, c⟩, ⟨4, 3⟩]
  | .vpack d a b c t => [⟨2, .ofNat 2 (t.toNat % 4)⟩, ⟨4, d⟩, ⟨1, .ofNat 1 (t.toNat / 4)⟩, ⟨6, 36⟩, ⟨3, 7⟩, ⟨4, a⟩, ⟨4, b⟩, ⟨4, c⟩, ⟨4, 4⟩]
  | .vunpk d a c t => [⟨2, .ofNat 2 (t.toNat % 4)⟩, ⟨4, d⟩, ⟨1, .ofNat 1 (t.toNat / 4)⟩, ⟨6, 36⟩, ⟨3, 7⟩, ⟨4, a⟩, ⟨4, 0⟩, ⟨4, c⟩, ⟨4, 5⟩]
  | .vthr d a t => [⟨2, .ofNat 2 (t.toNat % 4)⟩, ⟨4, d⟩, ⟨1, .ofNat 1 (t.toNat / 4)⟩, ⟨6, 36⟩, ⟨3, 7⟩, ⟨4, a⟩, ⟨12, 1536⟩]
  | .vrcpa d a t => [⟨2, .ofNat 2 (t.toNat % 4)⟩, ⟨4, d⟩, ⟨1, .ofNat 1 (t.toNat / 4)⟩, ⟨6, 36⟩, ⟨3, 7⟩, ⟨4, a⟩, ⟨12, 1792⟩]
  | .vrsqa d a t => [⟨2, .ofNat 2 (t.toNat % 4)⟩, ⟨4, d⟩, ⟨1, .ofNat 1 (t.toNat / 4)⟩, ⟨6, 36⟩, ⟨3, 7⟩, ⟨4, a⟩, ⟨12, 2048⟩]
  | .send d a b => [⟨2, 0⟩, ⟨5, d⟩, ⟨6, 40⟩, ⟨3, 7⟩, ⟨5, a⟩, ⟨5, b⟩, ⟨6, 0⟩]
  | .sendr d a => [⟨2, 0⟩, ⟨5, d⟩, ⟨6, 40⟩, ⟨3, 7⟩, ⟨5, a⟩, ⟨11, 32⟩]
  | .fork a b => [⟨7, 0⟩, ⟨6, 40⟩, ⟨3, 7⟩, ⟨5, a⟩, ⟨5, b⟩, ⟨6, 2⟩]
  | .done a => [⟨7, 0⟩, ⟨6, 40⟩, ⟨3, 7⟩, ⟨5, a⟩, ⟨11, 96⟩]
  | .clsbind d a b => [⟨2, 0⟩, ⟨5, d⟩, ⟨6, 40⟩, ⟨3, 7⟩, ⟨5, a⟩, ⟨5, b⟩, ⟨6, 4⟩]
  | .nsend a m => [⟨2, m⟩, ⟨5, 0⟩, ⟨6, 41⟩, ⟨3, 7⟩, ⟨5, a⟩, ⟨11, 0⟩]
  | .winset a => [⟨7, 0⟩, ⟨6, 41⟩, ⟨3, 7⟩, ⟨5, a⟩, ⟨11, 32⟩]
  | .qcfg a => [⟨7, 0⟩, ⟨6, 41⟩, ⟨3, 7⟩, ⟨5, a⟩, ⟨11, 64⟩]
  | .strm d a b k => [⟨1, k⟩, ⟨1, 0⟩, ⟨5, d⟩, ⟨6, 42⟩, ⟨3, 7⟩, ⟨5, a⟩, ⟨5, b⟩, ⟨6, 0⟩]
  | .strmoff d k => [⟨1, k⟩, ⟨1, 0⟩, ⟨5, d⟩, ⟨6, 42⟩, ⟨3, 7⟩, ⟨16, 1024⟩]
  | .repb d a b => [⟨2, 0⟩, ⟨5, d⟩, ⟨6, 42⟩, ⟨3, 7⟩, ⟨5, a⟩, ⟨5, b⟩, ⟨6, 2⟩]
  | .repe => [⟨7, 0⟩, ⟨6, 42⟩, ⟨3, 7⟩, ⟨16, 3072⟩]
  | .repgo a => [⟨7, 0⟩, ⟨6, 42⟩, ⟨3, 7⟩, ⟨5, a⟩, ⟨11, 128⟩]
  | .tmld d a i => [⟨2, 0⟩, ⟨5, d⟩, ⟨6, 43⟩, ⟨3, 7⟩, ⟨5, a⟩, ⟨11, i⟩]
  | .mmaE4m3E4m3 a b fF g t => [⟨1, t⟩, ⟨1, 0⟩, ⟨1, g⟩, ⟨4, 0⟩, ⟨6, 44⟩, ⟨3, 7⟩, ⟨4, a⟩, ⟨4, b⟩, ⟨5, fF⟩, ⟨3, 0⟩]
  | .mmaE4m3E5m2 a b fF g t => [⟨1, t⟩, ⟨1, 0⟩, ⟨1, g⟩, ⟨4, 0⟩, ⟨6, 44⟩, ⟨3, 7⟩, ⟨4, a⟩, ⟨4, b⟩, ⟨5, fF⟩, ⟨3, 1⟩]
  | .mmaE5m2E4m3 a b fF g t => [⟨1, t⟩, ⟨1, 0⟩, ⟨1, g⟩, ⟨4, 0⟩, ⟨6, 44⟩, ⟨3, 7⟩, ⟨4, a⟩, ⟨4, b⟩, ⟨5, fF⟩, ⟨3, 2⟩]
  | .mmaE5m2E5m2 a b fF g t => [⟨1, t⟩, ⟨1, 0⟩, ⟨1, g⟩, ⟨4, 0⟩, ⟨6, 44⟩, ⟨3, 7⟩, ⟨4, a⟩, ⟨4, b⟩, ⟨5, fF⟩, ⟨3, 3⟩]
  | .mmaE2m1E2m1 a b fF g t => [⟨1, t⟩, ⟨1, 0⟩, ⟨1, g⟩, ⟨4, 0⟩, ⟨6, 44⟩, ⟨3, 7⟩, ⟨4, a⟩, ⟨4, b⟩, ⟨5, fF⟩, ⟨3, 4⟩]
  | .mmaE2m1E4m3 a b fF g t => [⟨1, t⟩, ⟨1, 0⟩, ⟨1, g⟩, ⟨4, 0⟩, ⟨6, 44⟩, ⟨3, 7⟩, ⟨4, a⟩, ⟨4, b⟩, ⟨5, fF⟩, ⟨3, 5⟩]
  | .mmaEc8Ec8 a b fF g t => [⟨1, t⟩, ⟨1, 0⟩, ⟨1, g⟩, ⟨4, 0⟩, ⟨6, 44⟩, ⟨3, 7⟩, ⟨4, a⟩, ⟨4, b⟩, ⟨5, fF⟩, ⟨3, 6⟩]
  | .mmaEc8E4m3 a b fF g t => [⟨1, t⟩, ⟨1, 0⟩, ⟨1, g⟩, ⟨4, 0⟩, ⟨6, 44⟩, ⟨3, 7⟩, ⟨4, a⟩, ⟨4, b⟩, ⟨5, fF⟩, ⟨3, 7⟩]
  | .mmaBf16Bf16 a b t => [⟨1, t⟩, ⟨6, 0⟩, ⟨6, 45⟩, ⟨3, 7⟩, ⟨4, a⟩, ⟨4, b⟩, ⟨8, 0⟩]
  | .mmaF16F16 a b t => [⟨1, t⟩, ⟨6, 0⟩, ⟨6, 45⟩, ⟨3, 7⟩, ⟨4, a⟩, ⟨4, b⟩, ⟨8, 32⟩]
  | .mmaS8S8 a b t => [⟨1, t⟩, ⟨6, 0⟩, ⟨6, 45⟩, ⟨3, 7⟩, ⟨4, a⟩, ⟨4, b⟩, ⟨8, 64⟩]
  | .mmaS4S8 a b t => [⟨1, t⟩, ⟨6, 0⟩, ⟨6, 45⟩, ⟨3, 7⟩, ⟨4, a⟩, ⟨4, b⟩, ⟨8, 96⟩]
  | .mmaBf16S4 a b t => [⟨1, t⟩, ⟨6, 0⟩, ⟨6, 45⟩, ⟨3, 7⟩, ⟨4, a⟩, ⟨4, b⟩, ⟨8, 128⟩]
  | .mmapE4m3 a b fF t => [⟨1, t⟩, ⟨6, 0⟩, ⟨6, 45⟩, ⟨3, 7⟩, ⟨4, a⟩, ⟨4, b⟩, ⟨5, fF⟩, ⟨3, 5⟩]
  | .mmapBf16 a b t => [⟨1, t⟩, ⟨6, 0⟩, ⟨6, 45⟩, ⟨3, 7⟩, ⟨4, a⟩, ⟨4, b⟩, ⟨8, 192⟩]
  | .distL1Bf16 a b t => [⟨1, t⟩, ⟨6, 0⟩, ⟨6, 46⟩, ⟨3, 7⟩, ⟨4, a⟩, ⟨4, b⟩, ⟨8, 0⟩]
  | .distL1E4m3 a b t => [⟨1, t⟩, ⟨6, 0⟩, ⟨6, 46⟩, ⟨3, 7⟩, ⟨4, a⟩, ⟨4, b⟩, ⟨8, 32⟩]
  | .distL1S8 a b t => [⟨1, t⟩, ⟨6, 0⟩, ⟨6, 46⟩, ⟨3, 7⟩, ⟨4, a⟩, ⟨4, b⟩, ⟨8, 64⟩]
  | .distL2Bf16 a b t => [⟨1, t⟩, ⟨6, 0⟩, ⟨6, 46⟩, ⟨3, 7⟩, ⟨4, a⟩, ⟨4, b⟩, ⟨8, 96⟩]
  | .distL2E4m3 a b t => [⟨1, t⟩, ⟨6, 0⟩, ⟨6, 46⟩, ⟨3, 7⟩, ⟨4, a⟩, ⟨4, b⟩, ⟨8, 128⟩]
  | .distL2S8 a b t => [⟨1, t⟩, ⟨6, 0⟩, ⟨6, 46⟩, ⟨3, 7⟩, ⟨4, a⟩, ⟨4, b⟩, ⟨8, 160⟩]
  | .adrain h k n t => [⟨1, t⟩, ⟨1, 0⟩, ⟨1, n⟩, ⟨4, 0⟩, ⟨6, 47⟩, ⟨3, 7⟩, ⟨8, 0⟩, ⟨3, k⟩, ⟨1, h⟩, ⟨4, 0⟩]
  | .cupd d a y t => [⟨1, t⟩, ⟨1, 0⟩, ⟨5, d⟩, ⟨6, 47⟩, ⟨3, 7⟩, ⟨4, a⟩, ⟨4, 0⟩, ⟨2, y⟩, ⟨6, 8⟩]
  | .async d l t => [⟨1, t⟩, ⟨1, 0⟩, ⟨5, d⟩, ⟨6, 47⟩, ⟨3, 7⟩, ⟨8, 0⟩, ⟨1, l⟩, ⟨7, 32⟩]
  | .ringcfgSet d r => [⟨2, 0⟩, ⟨5, d⟩, ⟨6, 47⟩, ⟨3, 7⟩, ⟨3, r⟩, ⟨13, 3072⟩]
  | .ringcfgPush d r => [⟨2, 0⟩, ⟨5, d⟩, ⟨6, 47⟩, ⟨3, 7⟩, ⟨3, r⟩, ⟨13, 3104⟩]
  | .ringcfgReset r => [⟨7, 0⟩, ⟨6, 47⟩, ⟨3, 7⟩, ⟨3, r⟩, ⟨13, 3136⟩]
  | .ringcfgQuery d r => [⟨2, 0⟩, ⟨5, d⟩, ⟨6, 47⟩, ⟨3, 7⟩, ⟨3, r⟩, ⟨13, 3168⟩]
  | .accz t => [⟨1, t⟩, ⟨6, 0⟩, ⟨6, 48⟩, ⟨3, 7⟩, ⟨16, 0⟩]
  | .accrd d t => [⟨1, t⟩, ⟨1, 0⟩, ⟨5, d⟩, ⟨6, 48⟩, ⟨3, 7⟩, ⟨16, 8192⟩]
  | .accwr d t => [⟨1, t⟩, ⟨1, 0⟩, ⟨5, d⟩, ⟨6, 48⟩, ⟨3, 7⟩, ⟨16, 16384⟩]
  | .accsc fF s t => [⟨1, t⟩, ⟨1, 0⟩, ⟨1, s⟩, ⟨4, 0⟩, ⟨6, 48⟩, ⟨3, 7⟩, ⟨8, 0⟩, ⟨5, fF⟩, ⟨3, 3⟩]
  | .cpy d a b => [⟨2, 0⟩, ⟨5, d⟩, ⟨6, 52⟩, ⟨3, 7⟩, ⟨5, a⟩, ⟨5, b⟩, ⟨6, 0⟩]
  | .cpykv d a b => [⟨2, 0⟩, ⟨5, d⟩, ⟨6, 52⟩, ⟨3, 7⟩, ⟨5, a⟩, ⟨5, b⟩, ⟨6, 1⟩]
  | .kvapp d a b => [⟨2, 0⟩, ⟨5, d⟩, ⟨6, 52⟩, ⟨3, 7⟩, ⟨5, a⟩, ⟨5, b⟩, ⟨6, 2⟩]
  | .get d a b => [⟨2, 0⟩, ⟨5, d⟩, ⟨6, 52⟩, ⟨3, 7⟩, ⟨5, a⟩, ⟨5, b⟩, ⟨6, 3⟩]
  | .put d a b => [⟨2, 0⟩, ⟨5, d⟩, ⟨6, 52⟩, ⟨3, 7⟩, ⟨5, a⟩, ⟨5, b⟩, ⟨6, 4⟩]
  | .halo d a b => [⟨2, 0⟩, ⟨5, d⟩, ⟨6, 52⟩, ⟨3, 7⟩, ⟨5, a⟩, ⟨5, b⟩, ⟨6, 5⟩]
  | .cpycan d a => [⟨2, 0⟩, ⟨5, d⟩, ⟨6, 52⟩, ⟨3, 7⟩, ⟨5, a⟩, ⟨11, 192⟩]
  | .flushr d a b => [⟨2, 0⟩, ⟨5, d⟩, ⟨6, 52⟩, ⟨3, 7⟩, ⟨5, a⟩, ⟨5, b⟩, ⟨6, 7⟩]
  | .invr d a b => [⟨2, 0⟩, ⟨5, d⟩, ⟨6, 52⟩, ⟨3, 7⟩, ⟨5, a⟩, ⟨5, b⟩, ⟨6, 8⟩]
  | .waygive d a => [⟨2, 0⟩, ⟨5, d⟩, ⟨6, 56⟩, ⟨3, 7⟩, ⟨5, a⟩, ⟨11, 0⟩]
  | .waytake d => [⟨2, 0⟩, ⟨5, d⟩, ⟨6, 56⟩, ⟨3, 7⟩, ⟨16, 1024⟩]
  | .rowop d a => [⟨2, 0⟩, ⟨5, d⟩, ⟨6, 56⟩, ⟨3, 7⟩, ⟨5, a⟩, ⟨11, 64⟩]
  | .bsopAdd a b n s => [⟨1, s⟩, ⟨1, 0⟩, ⟨5, n⟩, ⟨6, 57⟩, ⟨3, 7⟩, ⟨5, a⟩, ⟨5, b⟩, ⟨6, 0⟩]
  | .bsopSub a b n s => [⟨1, s⟩, ⟨1, 0⟩, ⟨5, n⟩, ⟨6, 57⟩, ⟨3, 7⟩, ⟨5, a⟩, ⟨5, b⟩, ⟨6, 1⟩]
  | .bsopAnd a b n => [⟨2, 0⟩, ⟨5, n⟩, ⟨6, 57⟩, ⟨3, 7⟩, ⟨5, a⟩, ⟨5, b⟩, ⟨6, 2⟩]
  | .bsopOr a b n => [⟨2, 0⟩, ⟨5, n⟩, ⟨6, 57⟩, ⟨3, 7⟩, ⟨5, a⟩, ⟨5, b⟩, ⟨6, 3⟩]
  | .bsopXor a b n => [⟨2, 0⟩, ⟨5, n⟩, ⟨6, 57⟩, ⟨3, 7⟩, ⟨5, a⟩, ⟨5, b⟩, ⟨6, 4⟩]
  | .bsopNot a b n => [⟨2, 0⟩, ⟨5, n⟩, ⟨6, 57⟩, ⟨3, 7⟩, ⟨5, a⟩, ⟨5, b⟩, ⟨6, 5⟩]
  | .bsopCmpeq a b n s => [⟨1, s⟩, ⟨1, 0⟩, ⟨5, n⟩, ⟨6, 57⟩, ⟨3, 7⟩, ⟨5, a⟩, ⟨5, b⟩, ⟨6, 6⟩]
  | .bsopCmplt a b n s => [⟨1, s⟩, ⟨1, 0⟩, ⟨5, n⟩, ⟨6, 57⟩, ⟨3, 7⟩, ⟨5, a⟩, ⟨5, b⟩, ⟨6, 7⟩]
  | .bsopCmple a b n s => [⟨1, s⟩, ⟨1, 0⟩, ⟨5, n⟩, ⟨6, 57⟩, ⟨3, 7⟩, ⟨5, a⟩, ⟨5, b⟩, ⟨6, 8⟩]
  | .bsopSel a b n s => [⟨1, s⟩, ⟨1, 0⟩, ⟨5, n⟩, ⟨6, 57⟩, ⟨3, 7⟩, ⟨5, a⟩, ⟨5, b⟩, ⟨6, 9⟩]
  | .bsopShr a b n s => [⟨1, s⟩, ⟨1, 0⟩, ⟨5, n⟩, ⟨6, 57⟩, ⟨3, 7⟩, ⟨5, a⟩, ⟨5, b⟩, ⟨6, 10⟩]
  | .bsopPopc a b n s => [⟨1, s⟩, ⟨1, 0⟩, ⟨5, n⟩, ⟨6, 57⟩, ⟨3, 7⟩, ⟨5, a⟩, ⟨5, b⟩, ⟨6, 11⟩]
  | .bsopMin a b n s => [⟨1, s⟩, ⟨1, 0⟩, ⟨5, n⟩, ⟨6, 57⟩, ⟨3, 7⟩, ⟨5, a⟩, ⟨5, b⟩, ⟨6, 12⟩]
  | .bsopMax a b n s => [⟨1, s⟩, ⟨1, 0⟩, ⟨5, n⟩, ⟨6, 57⟩, ⟨3, 7⟩, ⟨5, a⟩, ⟨5, b⟩, ⟨6, 13⟩]
  | .bsopMul a b n s => [⟨1, s⟩, ⟨1, 0⟩, ⟨5, n⟩, ⟨6, 57⟩, ⟨3, 7⟩, ⟨5, a⟩, ⟨5, b⟩, ⟨6, 14⟩]
  | .egcfg d a h => [⟨2, h⟩, ⟨5, d⟩, ⟨6, 60⟩, ⟨3, 7⟩, ⟨5, a⟩, ⟨11, 0⟩]
  | .egins d a b h => [⟨2, h⟩, ⟨5, d⟩, ⟨6, 60⟩, ⟨3, 7⟩, ⟨5, a⟩, ⟨5, b⟩, ⟨6, 1⟩]
  | .egfind d a h => [⟨2, h⟩, ⟨5, d⟩, ⟨6, 60⟩, ⟨3, 7⟩, ⟨5, a⟩, ⟨11, 64⟩]
  | .egmrg d a b h => [⟨2, h⟩, ⟨5, d⟩, ⟨6, 60⟩, ⟨3, 7⟩, ⟨5, a⟩, ⟨5, b⟩, ⟨6, 3⟩]
  | .egmatch d a b h => [⟨2, h⟩, ⟨5, d⟩, ⟨6, 60⟩, ⟨3, 7⟩, ⟨5, a⟩, ⟨5, b⟩, ⟨6, 4⟩]
  | .egnode d a h => [⟨2, h⟩, ⟨5, d⟩, ⟨6, 60⟩, ⟨3, 7⟩, ⟨5, a⟩, ⟨11, 160⟩]
  | .egenum d a b h => [⟨2, h⟩, ⟨5, d⟩, ⟨6, 60⟩, ⟨3, 7⟩, ⟨5, a⟩, ⟨5, b⟩, ⟨6, 6⟩]
  | .egrank d a h => [⟨2, h⟩, ⟨5, d⟩, ⟨6, 60⟩, ⟨3, 7⟩, ⟨5, a⟩, ⟨11, 224⟩]
  | .egstat d a h => [⟨2, h⟩, ⟨5, d⟩, ⟨6, 60⟩, ⟨3, 7⟩, ⟨5, a⟩, ⟨11, 256⟩]
  | .csrrd d c => [⟨2, 0⟩, ⟨5, d⟩, ⟨6, 62⟩, ⟨3, 7⟩, ⟨5, 0⟩, ⟨11, c⟩]
  | .csrwr d a c => [⟨2, 1⟩, ⟨5, d⟩, ⟨6, 62⟩, ⟨3, 7⟩, ⟨5, a⟩, ⟨11, c⟩]
  | .csrset d a c => [⟨2, 2⟩, ⟨5, d⟩, ⟨6, 62⟩, ⟨3, 7⟩, ⟨5, a⟩, ⟨11, c⟩]
  | .csrclr d a c => [⟨2, 3⟩, ⟨5, d⟩, ⟨6, 62⟩, ⟨3, 7⟩, ⟨5, a⟩, ⟨11, c⟩]
  | .eret => [⟨7, 0⟩, ⟨6, 62⟩, ⟨3, 7⟩, ⟨16, 64512⟩]
  | .tlbsd d a => [⟨2, 0⟩, ⟨5, d⟩, ⟨6, 62⟩, ⟨3, 7⟩, ⟨5, a⟩, ⟨11, 2017⟩]
  | .tlbinv a => [⟨7, 0⟩, ⟨6, 62⟩, ⟨3, 7⟩, ⟨5, a⟩, ⟨11, 2018⟩]
  | .suprd d a => [⟨2, 0⟩, ⟨5, d⟩, ⟨6, 62⟩, ⟨3, 7⟩, ⟨5, a⟩, ⟨11, 2019⟩]
  | .partset d a => [⟨2, 0⟩, ⟨5, d⟩, ⟨6, 62⟩, ⟨3, 7⟩, ⟨5, a⟩, ⟨11, 2020⟩]
  | _ => []

end Sys2Proof.Encoding
end

