-- ==== Sys2Proof/Proofs/EncodingRows.lean ====
section
/-! SUPPORT. For every decoder: what it answers is laid out as the word it read, and it reads every word laid out as one of its rows.
A row's guards are pieces of its layout; where another row of the major tests a wider field, the test is cut at the piece's
border, and there the two rows differ. -/
namespace Sys2Proof.Encoding
open Sys2Proof

/-! ## What a decoder accepts (R88) -/

/-- What a decoder of words of a width answers is laid out as the word is. -/
def Exact (n w : Nat) (o : Option Instr) : Prop := ∀ i, o = some i → Matches w 0 (layout i) ∧ width (layout i) = n
theorem exact_none {n w : Nat} : Exact n w none := fun i h => by simp at h
theorem exact_ite {n w : Nat} {c : Prop} [Decidable c] {a : Instr} {x : Option Instr}
    (hc : c → Matches w 0 (layout a)) (hn : width (layout a) = n) (hx : Exact n w x) :
    Exact n w (if c then some a else x) := by
  intro i hi
  split at hi
  · cases hi
    exact ⟨hc ‹_›, hn⟩
  · exact hx i hi
section
variable {w : Nat}
theorem decodeCR_exact (hop : field w 13 3 = 0) : Exact 16 w (decodeCR w) := by
  unfold decodeCR
  repeat' first | exact exact_none | refine exact_ite (fun h => ?_) rfl ?_
  all_goals change Matches w 0 (_ :: _); simp [Matches, h, hop]
theorem decodeCI_exact (hop : field w 13 3 = 1) : Exact 16 w (decodeCI w) := by
  unfold decodeCI
  repeat' first | exact exact_none | refine exact_ite (fun h => ?_) rfl ?_
  all_goals change Matches w 0 (_ :: _); simp [Matches, h, hop]
theorem decodeCM_exact (hop : field w 13 3 = 2) : Exact 16 w (decodeCM w) := by
  unfold decodeCM
  repeat' first | exact exact_none | refine exact_ite (fun h => ?_) rfl ?_
  all_goals change Matches w 0 (_ :: _); simp [Matches, h, hop]
theorem decodeCB_exact (hop : field w 13 3 = 3) : Exact 16 w (decodeCB w) := by
  unfold decodeCB
  repeat' first | exact exact_none | refine exact_ite (fun h => ?_) rfl ?_
  all_goals change Matches w 0 (_ :: _); simp [Matches, h, hop]
theorem decodeCJ_exact (hop : field w 13 3 = 4) : Exact 16 w (decodeCJ w) := by
  unfold decodeCJ
  repeat' first | exact exact_none | refine exact_ite (fun _ => ?_) rfl ?_
  all_goals change Matches w 0 (_ :: _); simp [Matches, hop]
theorem decodeCT_exact (hop : field w 13 3 = 5) : Exact 16 w (decodeCT w) := by
  unfold decodeCT
  repeat' first | exact exact_none | refine exact_ite (fun h => ?_) rfl ?_
  all_goals change Matches w 0 (_ :: _); simp [Matches, h, hop]
theorem decodeCV_exact (hop : field w 13 3 = 6) : Exact 16 w (decodeCV w) := by
  unfold decodeCV
  repeat' first | exact exact_none | refine exact_ite (fun h => ?_) rfl ?_
  all_goals change Matches w 0 (_ :: _); simp [Matches, h, hop]
theorem decodeMaj00_exact (hop : field w 13 3 = 7) (hmaj : field w 7 6 = 0x00) : Exact 32 w (decodeMaj00 w) := by
  unfold decodeMaj00
  repeat' first | exact exact_none | refine exact_ite (fun h => ?_) rfl ?_
  all_goals change Matches w 0 (_ :: _); simp [Matches, h, hop, hmaj]
theorem decodeMaj01_exact (hop : field w 13 3 = 7) (hmaj : field w 7 6 = 0x01) : Exact 32 w (decodeMaj01 w) := by
  unfold decodeMaj01
  repeat' first | exact exact_none | refine exact_ite (fun h => ?_) rfl ?_
  all_goals change Matches w 0 (_ :: _); simp [Matches, h, hop, hmaj]
theorem decodeMaj02_exact (hop : field w 13 3 = 7) (hmaj : field w 7 6 = 0x02) : Exact 32 w (decodeMaj02 w) := by
  unfold decodeMaj02
  repeat' first | exact exact_none | refine exact_ite (fun h => ?_) rfl ?_
  all_goals change Matches w 0 (_ :: _); simp [Matches, h, hop, hmaj]
theorem decodeMaj03_exact (hop : field w 13 3 = 7) (hmaj : field w 7 6 = 0x03) : Exact 32 w (decodeMaj03 w) := by
  unfold decodeMaj03
  repeat' first | exact exact_none | refine exact_ite (fun h => ?_) rfl ?_
  all_goals change Matches w 0 (_ :: _); simp [Matches, h, hop, hmaj]
theorem decodeMaj04_exact (hop : field w 13 3 = 7) (hmaj : field w 7 6 = 0x04) : Exact 32 w (decodeMaj04 w) := by
  unfold decodeMaj04
  repeat' first | exact exact_none | refine exact_ite (fun h => ?_) rfl ?_
  all_goals change Matches w 0 (_ :: _); simp [Matches, h, hop, hmaj]
theorem decodeMaj05_exact (hop : field w 13 3 = 7) (hmaj : field w 7 6 = 0x05) : Exact 32 w (decodeMaj05 w) := by
  unfold decodeMaj05
  repeat' first | exact exact_none | refine exact_ite (fun _ => ?_) rfl ?_
  all_goals change Matches w 0 (_ :: _); simp [Matches, hop, hmaj]
theorem decodeMaj06_exact (hop : field w 13 3 = 7) (hmaj : field w 7 6 = 0x06) : Exact 32 w (decodeMaj06 w) := by
  unfold decodeMaj06
  repeat' first | exact exact_none | refine exact_ite (fun h => ?_) rfl ?_
  all_goals change Matches w 0 (_ :: _); simp [Matches, h, hop, hmaj]
theorem decodeMaj07_exact (hop : field w 13 3 = 7) (hmaj : field w 7 6 = 0x07) : Exact 32 w (decodeMaj07 w) := by
  unfold decodeMaj07
  repeat' first | exact exact_none | refine exact_ite (fun h => ?_) rfl ?_
  all_goals change Matches w 0 (_ :: _); simp [Matches, h, hop, hmaj]
theorem decodeMaj08_exact (hop : field w 13 3 = 7) (hmaj : field w 7 6 = 0x08) : Exact 32 w (decodeMaj08 w) := by
  unfold decodeMaj08
  repeat' first | exact exact_none | refine exact_ite (fun _ => ?_) rfl ?_
  all_goals change Matches w 0 (_ :: _); simp [Matches, hop, hmaj, field_mod, pair_high]
theorem decodeMaj09_exact (hop : field w 13 3 = 7) (hmaj : field w 7 6 = 0x09) : Exact 32 w (decodeMaj09 w) := by
  unfold decodeMaj09
  repeat' first | exact exact_none | refine exact_ite (fun _ => ?_) rfl ?_
  all_goals change Matches w 0 (_ :: _); simp [Matches, hop, hmaj, field_mod, pair_high]
theorem decodeMaj0A_exact (hop : field w 13 3 = 7) (hmaj : field w 7 6 = 0x0A) : Exact 32 w (decodeMaj0A w) := by
  unfold decodeMaj0A
  repeat' first | exact exact_none | refine exact_ite (fun _ => ?_) rfl ?_
  all_goals change Matches w 0 (_ :: _); simp [Matches, hop, hmaj, field_mod, pair_high]
theorem decodeMaj0B_exact (hop : field w 13 3 = 7) (hmaj : field w 7 6 = 0x0B) : Exact 32 w (decodeMaj0B w) := by
  unfold decodeMaj0B
  repeat' first | exact exact_none | refine exact_ite (fun _ => ?_) rfl ?_
  all_goals change Matches w 0 (_ :: _); simp [Matches, hop, hmaj, field_mod, pair_high]
theorem decodeMaj0C_exact (hop : field w 13 3 = 7) (hmaj : field w 7 6 = 0x0C) : Exact 32 w (decodeMaj0C w) := by
  unfold decodeMaj0C
  repeat' first | exact exact_none | refine exact_ite (fun _ => ?_) rfl ?_
  all_goals change Matches w 0 (_ :: _); simp [Matches, hop, hmaj, field_mod, pair_high]
theorem decodeMaj0D_exact (hop : field w 13 3 = 7) (hmaj : field w 7 6 = 0x0D) : Exact 32 w (decodeMaj0D w) := by
  unfold decodeMaj0D
  repeat' first | exact exact_none | refine exact_ite (fun _ => ?_) rfl ?_
  all_goals change Matches w 0 (_ :: _); simp [Matches, hop, hmaj, field_mod, pair_high]
theorem decodeMaj0E_exact (hop : field w 13 3 = 7) (hmaj : field w 7 6 = 0x0E) : Exact 32 w (decodeMaj0E w) := by
  unfold decodeMaj0E
  repeat' first | exact exact_none | refine exact_ite (fun h => ?_) rfl ?_
  all_goals change Matches w 0 (_ :: _); simp [Matches, h, hop, hmaj, field_mod, pair_high]
theorem decodeMaj0F_exact (hop : field w 13 3 = 7) (hmaj : field w 7 6 = 0x0F) : Exact 32 w (decodeMaj0F w) := by
  unfold decodeMaj0F
  repeat' first | exact exact_none | refine exact_ite (fun h => ?_) rfl ?_
  all_goals change Matches w 0 (_ :: _); simp [Matches, h, hop, hmaj]
theorem decodeMaj10_exact (hop : field w 13 3 = 7) (hmaj : field w 7 6 = 0x10) : Exact 32 w (decodeMaj10 w) := by
  unfold decodeMaj10
  repeat' first | exact exact_none | refine exact_ite (fun h => ?_) rfl ?_
  all_goals change Matches w 0 (_ :: _); simp [Matches, h, hop, hmaj, field_mod, pair_high]
theorem decodeMaj11_exact (hop : field w 13 3 = 7) (hmaj : field w 7 6 = 0x11) : Exact 32 w (decodeMaj11 w) := by
  unfold decodeMaj11
  repeat' first | exact exact_none | refine exact_ite (fun h => ?_) rfl ?_
  all_goals change Matches w 0 (_ :: _); simp [Matches, h, hop, hmaj, field_mod, pair_high]
theorem decodeMaj12_exact (hop : field w 13 3 = 7) (hmaj : field w 7 6 = 0x12) : Exact 32 w (decodeMaj12 w) := by
  unfold decodeMaj12
  repeat' first | exact exact_none | refine exact_ite (fun h => ?_) rfl ?_
  all_goals change Matches w 0 (_ :: _); simp [Matches, h, hop, hmaj, field_mod, pair_high]
theorem decodeMaj13_exact (hop : field w 13 3 = 7) (hmaj : field w 7 6 = 0x13) : Exact 32 w (decodeMaj13 w) := by
  unfold decodeMaj13
  repeat' first | exact exact_none | refine exact_ite (fun h => ?_) rfl ?_
  all_goals change Matches w 0 (_ :: _); simp [Matches, h, hop, hmaj]
theorem decodeMaj14_exact (hop : field w 13 3 = 7) (hmaj : field w 7 6 = 0x14) : Exact 32 w (decodeMaj14 w) := by
  unfold decodeMaj14
  repeat' first | exact exact_none | refine exact_ite (fun h => ?_) rfl ?_
  all_goals change Matches w 0 (_ :: _); simp [Matches, h, hop, hmaj]
theorem decodeMaj15_exact (hop : field w 13 3 = 7) (hmaj : field w 7 6 = 0x15) : Exact 32 w (decodeMaj15 w) := by
  unfold decodeMaj15
  repeat' first | exact exact_none | refine exact_ite (fun h => ?_) rfl ?_
  all_goals change Matches w 0 (_ :: _); simp [Matches, h, hop, hmaj]
theorem decodeMaj16_exact (hop : field w 13 3 = 7) (hmaj : field w 7 6 = 0x16) : Exact 32 w (decodeMaj16 w) := by
  unfold decodeMaj16
  repeat' first | exact exact_none | refine exact_ite (fun h => ?_) rfl ?_
  all_goals change Matches w 0 (_ :: _); simp [Matches, h, hop, hmaj]
theorem decodeMaj17_exact (hop : field w 13 3 = 7) (hmaj : field w 7 6 = 0x17) : Exact 32 w (decodeMaj17 w) := by
  unfold decodeMaj17
  repeat' first | exact exact_none | refine exact_ite (fun h => ?_) rfl ?_
  all_goals change Matches w 0 (_ :: _); simp [Matches, h, hop, hmaj]
theorem decodeMaj18_exact (hop : field w 13 3 = 7) (hmaj : field w 7 6 = 0x18) : Exact 32 w (decodeMaj18 w) := by
  unfold decodeMaj18
  repeat' first | exact exact_none | refine exact_ite (fun h => ?_) rfl ?_
  all_goals change Matches w 0 (_ :: _); simp [Matches, h, hop, hmaj]
theorem decodeMaj19_exact (hop : field w 13 3 = 7) (hmaj : field w 7 6 = 0x19) : Exact 32 w (decodeMaj19 w) := by
  unfold decodeMaj19
  repeat' first | exact exact_none | refine exact_ite (fun h => ?_) rfl ?_
  all_goals change Matches w 0 (_ :: _); simp [Matches, h, hop, hmaj]
theorem decodeMaj1A_exact (hop : field w 13 3 = 7) (hmaj : field w 7 6 = 0x1A) : Exact 32 w (decodeMaj1A w) := by
  unfold decodeMaj1A
  repeat' first | exact exact_none | refine exact_ite (fun h => ?_) rfl ?_
  all_goals change Matches w 0 (_ :: _); simp [Matches, h, hop, hmaj]
theorem decodeMaj1B_exact (hop : field w 13 3 = 7) (hmaj : field w 7 6 = 0x1B) : Exact 32 w (decodeMaj1B w) := by
  unfold decodeMaj1B
  repeat' first | exact exact_none | refine exact_ite (fun h => ?_) rfl ?_
  all_goals change Matches w 0 (_ :: _); simp [Matches, h, hop, hmaj]
theorem decodeMaj1C_exact (hop : field w 13 3 = 7) (hmaj : field w 7 6 = 0x1C) : Exact 32 w (decodeMaj1C w) := by
  unfold decodeMaj1C
  repeat' first | exact exact_none | refine exact_ite (fun h => ?_) rfl ?_
  all_goals change Matches w 0 (_ :: _); simp [Matches, h, hop, hmaj]
theorem decodeMaj1D_exact (hop : field w 13 3 = 7) (hmaj : field w 7 6 = 0x1D) : Exact 32 w (decodeMaj1D w) := by
  unfold decodeMaj1D
  repeat' first | exact exact_none | refine exact_ite (fun h => ?_) rfl ?_
  all_goals change Matches w 0 (_ :: _); simp [Matches, h, hop, hmaj]
theorem decodeMaj1E_exact (hop : field w 13 3 = 7) (hmaj : field w 7 6 = 0x1E) : Exact 32 w (decodeMaj1E w) := by
  unfold decodeMaj1E
  repeat' first | exact exact_none | refine exact_ite (fun h => ?_) rfl ?_
  all_goals change Matches w 0 (_ :: _); simp [Matches, h, hop, hmaj]
theorem decodeMaj20_exact (hop : field w 13 3 = 7) (hmaj : field w 7 6 = 0x20) : Exact 32 w (decodeMaj20 w) := by
  unfold decodeMaj20
  repeat' first | exact exact_none | refine exact_ite (fun h => ?_) rfl ?_
  all_goals change Matches w 0 (_ :: _); simp [Matches, h, hop, hmaj, field_mod, pair_high]
theorem decodeMaj21_exact (hop : field w 13 3 = 7) (hmaj : field w 7 6 = 0x21) : Exact 32 w (decodeMaj21 w) := by
  unfold decodeMaj21
  repeat' first | exact exact_none | refine exact_ite (fun h => ?_) rfl ?_
  all_goals change Matches w 0 (_ :: _); simp [Matches, h, hop, hmaj, field_mod, pair_high]
theorem decodeMaj22_exact (hop : field w 13 3 = 7) (hmaj : field w 7 6 = 0x22) : Exact 32 w (decodeMaj22 w) := by
  unfold decodeMaj22
  repeat' first | exact exact_none | refine exact_ite (fun h => ?_) rfl ?_
  all_goals change Matches w 0 (_ :: _); simp [Matches, h, hop, hmaj, field_mod, pair_high]
theorem decodeMaj23_exact (hop : field w 13 3 = 7) (hmaj : field w 7 6 = 0x23) : Exact 32 w (decodeMaj23 w) := by
  unfold decodeMaj23
  repeat' first | exact exact_none | refine exact_ite (fun h => ?_) rfl ?_
  all_goals change Matches w 0 (_ :: _); simp [Matches, h, hop, hmaj, field_mod, pair_high]
theorem decodeMaj24_exact (hop : field w 13 3 = 7) (hmaj : field w 7 6 = 0x24) : Exact 32 w (decodeMaj24 w) := by
  unfold decodeMaj24
  repeat' first | exact exact_none | refine exact_ite (fun h => ?_) rfl ?_
  all_goals change Matches w 0 (_ :: _); simp [Matches, h, hop, hmaj, field_mod, pair_high]
theorem decodeMaj28_exact (hop : field w 13 3 = 7) (hmaj : field w 7 6 = 0x28) : Exact 32 w (decodeMaj28 w) := by
  unfold decodeMaj28
  repeat' first | exact exact_none | refine exact_ite (fun h => ?_) rfl ?_
  all_goals change Matches w 0 (_ :: _); simp [Matches, h, hop, hmaj]
theorem decodeMaj29_exact (hop : field w 13 3 = 7) (hmaj : field w 7 6 = 0x29) : Exact 32 w (decodeMaj29 w) := by
  unfold decodeMaj29
  repeat' first | exact exact_none | refine exact_ite (fun h => ?_) rfl ?_
  all_goals change Matches w 0 (_ :: _); simp [Matches, h, hop, hmaj]
theorem decodeMaj2A_exact (hop : field w 13 3 = 7) (hmaj : field w 7 6 = 0x2A) : Exact 32 w (decodeMaj2A w) := by
  unfold decodeMaj2A
  repeat' first | exact exact_none | refine exact_ite (fun h => ?_) rfl ?_
  all_goals change Matches w 0 (_ :: _); simp [Matches, h, hop, hmaj]
theorem decodeMaj2B_exact (hop : field w 13 3 = 7) (hmaj : field w 7 6 = 0x2B) : Exact 32 w (decodeMaj2B w) := by
  unfold decodeMaj2B
  repeat' first | exact exact_none | refine exact_ite (fun h => ?_) rfl ?_
  all_goals change Matches w 0 (_ :: _); simp [Matches, h, hop, hmaj]
theorem decodeMaj2C_exact (hop : field w 13 3 = 7) (hmaj : field w 7 6 = 0x2C) : Exact 32 w (decodeMaj2C w) := by
  unfold decodeMaj2C
  repeat' first | exact exact_none | refine exact_ite (fun h => ?_) rfl ?_
  all_goals change Matches w 0 (_ :: _); simp [Matches, h, hop, hmaj]
theorem decodeMaj2D_exact (hop : field w 13 3 = 7) (hmaj : field w 7 6 = 0x2D) : Exact 32 w (decodeMaj2D w) := by
  unfold decodeMaj2D
  repeat' first | exact exact_none | refine exact_ite (fun h => ?_) rfl ?_
  all_goals change Matches w 0 (_ :: _); simp [Matches, h, hop, hmaj]
theorem decodeMaj2E_exact (hop : field w 13 3 = 7) (hmaj : field w 7 6 = 0x2E) : Exact 32 w (decodeMaj2E w) := by
  unfold decodeMaj2E
  repeat' first | exact exact_none | refine exact_ite (fun h => ?_) rfl ?_
  all_goals change Matches w 0 (_ :: _); simp [Matches, h, hop, hmaj]
theorem decodeMaj2F_exact (hop : field w 13 3 = 7) (hmaj : field w 7 6 = 0x2F) : Exact 32 w (decodeMaj2F w) := by
  unfold decodeMaj2F
  repeat' first | exact exact_none | refine exact_ite (fun h => ?_) rfl ?_
  all_goals change Matches w 0 (_ :: _); simp [Matches, h, hop, hmaj]
theorem decodeMaj30_exact (hop : field w 13 3 = 7) (hmaj : field w 7 6 = 0x30) : Exact 32 w (decodeMaj30 w) := by
  unfold decodeMaj30
  repeat' first | exact exact_none | refine exact_ite (fun h => ?_) rfl ?_
  all_goals change Matches w 0 (_ :: _); simp [Matches, h, hop, hmaj]
theorem decodeMaj34_exact (hop : field w 13 3 = 7) (hmaj : field w 7 6 = 0x34) : Exact 32 w (decodeMaj34 w) := by
  unfold decodeMaj34
  repeat' first | exact exact_none | refine exact_ite (fun h => ?_) rfl ?_
  all_goals change Matches w 0 (_ :: _); simp [Matches, h, hop, hmaj]
theorem decodeMaj38_exact (hop : field w 13 3 = 7) (hmaj : field w 7 6 = 0x38) : Exact 32 w (decodeMaj38 w) := by
  unfold decodeMaj38
  repeat' first | exact exact_none | refine exact_ite (fun h => ?_) rfl ?_
  all_goals change Matches w 0 (_ :: _); simp [Matches, h, hop, hmaj]
theorem decodeMaj39_exact (hop : field w 13 3 = 7) (hmaj : field w 7 6 = 0x39) : Exact 32 w (decodeMaj39 w) := by
  unfold decodeMaj39
  repeat' first | exact exact_none | refine exact_ite (fun h => ?_) rfl ?_
  all_goals change Matches w 0 (_ :: _); simp [Matches, h, hop, hmaj]
theorem decodeMaj3C_exact (hop : field w 13 3 = 7) (hmaj : field w 7 6 = 0x3C) : Exact 32 w (decodeMaj3C w) := by
  unfold decodeMaj3C
  repeat' first | exact exact_none | refine exact_ite (fun h => ?_) rfl ?_
  all_goals change Matches w 0 (_ :: _); simp [Matches, h, hop, hmaj]
theorem decodeMaj3E_exact (hop : field w 13 3 = 7) (hmaj : field w 7 6 = 0x3E) : Exact 32 w (decodeMaj3E w) := by
  unfold decodeMaj3E
  repeat' first | exact exact_none | refine exact_ite (fun h => ?_) rfl ?_
  all_goals change Matches w 0 (_ :: _); simp [Matches, h, hop, hmaj]
end

/-! ## What a decoder finds (R71, R76) -/

/-- The instruction that a word's bits name, before its fields are checked (R69). -/
noncomputable def decodeRaw (w : Nat) : Option Instr := if startsLong w then decodeRaw32 w else decodeRaw16 w
/-- The instruction's word is laid out by its pieces, and every word laid out so decodes to it. -/
structure Row (i : Instr) : Prop where
  encode_eq : encode i = pack (layout i)
  reads : ∀ w, Matches w 0 (layout i) → decodeRaw w = some i
@[simp] theorem decodeCR_rows :
    (∀ (a : BitVec 4), Row (.jalrLinkCr a) ∧ Row (.jalrNolinkCr a)) ∧
    (∀ (d a : BitVec 4), Row (.addCr d a) ∧ Row (.moveCr d a) ∧ Row (.subCr d a) ∧ Row (.andCr d a) ∧ Row (.orCr d a) ∧
      Row (.xorCr d a) ∧ Row (.shlCr d a) ∧ Row (.shrCr d a) ∧ Row (.sraCr d a) ∧ Row (.mulCr d a)) := by
  and_intros
  all_goals
    intros
    and_intros
  all_goals
    refine ⟨?_, fun w h => ?_⟩
    · change (_ + _ : Nat) = pack (_ :: _)
      simp only [pack, BitVec.toNat_ofNat, BitVec.ofNat_eq_ofNat]
      ring
    · change Matches w 0 (_ :: _) at h
      simp [Matches, field_cut 4 4 5] at h
      simp [decodeRaw, startsLong, decodeRaw16, decodeCR, fieldBV, h, field_cut 4 4 5]
@[simp] theorem decodeCI_rows (d : BitVec 4) (i : BitVec 6) : Row (.addiCi d i) ∧ Row (.addiZeroCi d i) ∧
    Row (.shliCi d i) ∧ Row (.shriCi d i) ∧ Row (.sraiCi d i) ∧ Row (.andiCi d i) := by
  and_intros
  all_goals
    refine ⟨?_, fun w h => ?_⟩
    · change (_ + _ : Nat) = pack (_ :: _)
      simp only [pack, BitVec.toNat_ofNat, BitVec.ofNat_eq_ofNat]
      ring
    · change Matches w 0 (_ :: _) at h
      simp [Matches] at h
      simp [decodeRaw, startsLong, decodeRaw16, decodeCI, fieldBV, h]
@[simp] theorem decodeCM_rows (d b o : BitVec 4) : Row (.ldDCm d b o) ∧ Row (.stDCm d b o) := by
  and_intros
  all_goals
    refine ⟨?_, fun w h => ?_⟩
    · change (_ + _ : Nat) = pack (_ :: _)
      simp only [pack, BitVec.toNat_ofNat, BitVec.ofNat_eq_ofNat]
      ring
    · change Matches w 0 (_ :: _) at h
      simp [Matches] at h
      simp [decodeRaw, startsLong, decodeRaw16, decodeCM, fieldBV, h]
@[simp] theorem decodeCB_rows (a : BitVec 4) (o : BitVec 7) : Row (.beqCb a o) ∧ Row (.bneCb a o) ∧ Row (.bltCb a o) ∧
    Row (.bgeCb a o) := by
  and_intros
  all_goals
    refine ⟨?_, fun w h => ?_⟩
    · change (_ + _ : Nat) = pack (_ :: _)
      simp only [pack, BitVec.toNat_ofNat, BitVec.ofNat_eq_ofNat]
      ring
    · change Matches w 0 (_ :: _) at h
      simp [Matches] at h
      simp [decodeRaw, startsLong, decodeRaw16, decodeCB, fieldBV, h]
@[simp] theorem jCj_row (o : BitVec 13) : Row (.jCj o) := by
  refine ⟨?_, fun w h => ?_⟩
  · change (_ + _ : Nat) = pack (_ :: _)
    simp only [pack, BitVec.toNat_ofNat, BitVec.ofNat_eq_ofNat]
    ring
  · change Matches w 0 (_ :: _) at h
    simp [Matches] at h
    simp [decodeRaw, startsLong, decodeRaw16, decodeCJ, fieldBV, h]
@[simp] theorem decodeCT_rows :
    (∀ (a : BitVec 4), Row (.doneCt a)) ∧
    (∀ (a k : BitVec 4), Row (.sendC a k)) := by
  and_intros
  all_goals
    intros
    refine ⟨?_, fun w h => ?_⟩
    · change (_ + _ : Nat) = pack (_ :: _)
      simp only [pack, BitVec.toNat_ofNat, BitVec.ofNat_eq_ofNat]
      ring
    · change Matches w 0 (_ :: _) at h
      simp [Matches] at h
      simp [decodeRaw, startsLong, decodeRaw16, decodeCT, fieldBV, h, field_cut 0 8 5]
@[simp] theorem endCt_row : Row .endCt := by
  refine ⟨rfl, fun w h => ?_⟩
  change Matches w 0 (_ :: _) at h
  simp [Matches] at h
  simp [decodeRaw, startsLong, decodeRaw16, decodeCT, h]
@[simp] theorem decodeCV_rows (d a : BitVec 4) : Row (.vorCv d a) ∧ Row (.vaddS32Cv d a) ∧ Row (.vsubS32Cv d a) ∧
    Row (.vaddF32Cv d a) ∧ Row (.vsubF32Cv d a) ∧ Row (.vmulF32Cv d a) ∧ Row (.vmaxF32Cv d a) ∧ Row (.vminF32Cv d a) ∧
    Row (.vandCv d a) ∧ Row (.vxorCv d a) ∧ Row (.vnotCv d a) := by
  and_intros
  all_goals
    refine ⟨?_, fun w h => ?_⟩
    · change (_ + _ : Nat) = pack (_ :: _)
      simp only [pack, BitVec.toNat_ofNat, BitVec.ofNat_eq_ofNat]
      ring
    · change Matches w 0 (_ :: _) at h
      simp [Matches] at h
      simp [decodeRaw, startsLong, decodeRaw16, decodeCV, fieldBV, h]
@[simp] theorem decodeMaj00_rows :
    (∀ (d a : BitVec 5) (w : BitVec 1), Row (.clz d a w) ∧ Row (.ctz d a w) ∧ Row (.popc d a w) ∧ Row (.brev d a w)) ∧
    (∀ (d a b : BitVec 5) (w : BitVec 1), Row (.add d a b w) ∧ Row (.sub d a b w) ∧ Row (.mul d a b w) ∧
      Row (.mulh d a b w) ∧ Row (.mulhn d a b w) ∧ Row (.div d a b w) ∧ Row (.divn d a b w) ∧ Row (.rem d a b w) ∧
      Row (.remn d a b w) ∧ Row (.and d a b w) ∧ Row (.or d a b w) ∧ Row (.xor d a b w) ∧ Row (.andn d a b w) ∧
      Row (.shl d a b w) ∧ Row (.shr d a b w) ∧ Row (.sra d a b w) ∧ Row (.rol d a b w) ∧ Row (.ror d a b w) ∧
      Row (.min d a b w) ∧ Row (.max d a b w) ∧ Row (.minn d a b w) ∧ Row (.maxn d a b w) ∧ Row (.slt d a b w) ∧
      Row (.sltn d a b w) ∧ Row (.seq d a b w)) := by
  and_intros
  all_goals
    intros
    and_intros
  all_goals
    refine ⟨?_, fun w h => ?_⟩
    · change (_ + _ : Nat) = pack (_ :: _)
      simp only [pack, BitVec.toNat_ofNat, BitVec.ofNat_eq_ofNat]
      ring
    · change Matches w 0 (_ :: _) at h
      simp [Matches, field_cut 21 5 6] at h
      simp [decodeRaw, startsLong, decodeRaw32, decodeMaj00, fieldBV, h, field_cut 21 5 6]
@[simp] theorem addi_row (d a : BitVec 5) (i : BitVec 11) (w : BitVec 1) : Row (.addi d a i w) := by
  refine ⟨?_, fun w h => ?_⟩
  · change (_ + _ : Nat) = pack (_ :: _)
    simp only [pack, BitVec.toNat_ofNat, BitVec.ofNat_eq_ofNat]
    ring
  · change Matches w 0 (_ :: _) at h
    simp [Matches] at h
    simp [decodeRaw, startsLong, decodeRaw32, decodeMaj01, fieldBV, h]
@[simp] theorem decodeMaj02_rows (d a : BitVec 5) (i : BitVec 11) : Row (.andi d a i) ∧ Row (.ori d a i) ∧
    Row (.xori d a i) ∧ Row (.slti d a i) := by
  and_intros
  all_goals
    refine ⟨?_, fun w h => ?_⟩
    · change (_ + _ : Nat) = pack (_ :: _)
      simp only [pack, BitVec.toNat_ofNat, BitVec.ofNat_eq_ofNat]
      ring
    · change Matches w 0 (_ :: _) at h
      simp [Matches] at h
      simp [decodeRaw, startsLong, decodeRaw32, decodeMaj02, fieldBV, h]
@[simp] theorem sel_row (d a b c : BitVec 5) : Row (.sel d a b c) := by
  refine ⟨?_, fun w h => ?_⟩
  · change (_ + _ : Nat) = pack (_ :: _)
    simp only [pack, BitVec.toNat_ofNat, BitVec.ofNat_eq_ofNat]
    ring
  · change Matches w 0 (_ :: _) at h
    simp [Matches] at h
    simp [decodeRaw, startsLong, decodeRaw32, decodeMaj03, fieldBV, h]
@[simp] theorem decodeMaj04_rows (d a : BitVec 5) (w : BitVec 1) (s : BitVec 6) : Row (.shli d a w s) ∧
    Row (.shri d a w s) ∧ Row (.srai d a w s) := by
  and_intros
  all_goals
    refine ⟨?_, fun w h => ?_⟩
    · change (_ + _ : Nat) = pack (_ :: _)
      simp only [pack, BitVec.toNat_ofNat, BitVec.ofNat_eq_ofNat]
      ring
    · change Matches w 0 (_ :: _) at h
      simp [Matches] at h
      simp [decodeRaw, startsLong, decodeRaw32, decodeMaj04, fieldBV, h]
@[simp] theorem ldhi_row (d : BitVec 5) (i : BitVec 16) (k : BitVec 2) : Row (.ldhi d i k) := by
  refine ⟨?_, fun w h => ?_⟩
  · change (_ + _ : Nat) = pack (_ :: _)
    simp only [pack, BitVec.toNat_ofNat, BitVec.ofNat_eq_ofNat]
    ring
  · change Matches w 0 (_ :: _) at h
    simp [Matches] at h
    simp [decodeRaw, startsLong, decodeRaw32, decodeMaj05, fieldBV, h]
@[simp] theorem decodeMaj06_rows :
    (∀ (d a b : BitVec 5) (s : BitVec 3), Row (.leaScaled d a b s)) ∧
    (∀ (d a : BitVec 5) (i : BitVec 11), Row (.lea d a i)) ∧
    (∀ (d a : BitVec 5) (n : BitVec 4) (o : BitVec 7), Row (.leaRegion d a n o)) := by
  and_intros
  all_goals
    intros
    refine ⟨?_, fun w h => ?_⟩
    · change (_ + _ : Nat) = pack (_ :: _)
      simp only [pack, BitVec.toNat_ofNat, BitVec.ofNat_eq_ofNat]
      ring
    · change Matches w 0 (_ :: _) at h
      simp [Matches] at h
      simp [decodeRaw, startsLong, decodeRaw32, decodeMaj06, fieldBV, h]
@[simp] theorem decodeMaj07_rows (d a l : BitVec 5) (p : BitVec 6) : Row (.bfx d a l p) ∧ Row (.bfxn d a l p) ∧
    Row (.bfi d a l p) := by
  and_intros
  all_goals
    refine ⟨?_, fun w h => ?_⟩
    · change (_ + _ : Nat) = pack (_ :: _)
      simp only [pack, BitVec.toNat_ofNat, BitVec.ofNat_eq_ofNat]
      ring
    · change Matches w 0 (_ :: _) at h
      simp [Matches] at h
      simp [decodeRaw, startsLong, decodeRaw32, decodeMaj07, fieldBV, h]
@[simp] theorem beq_row (a b : BitVec 5) (o : BitVec 13) : Row (.beq a b o) := by
  refine ⟨?_, fun w h => ?_⟩
  · change (_ + _ : Nat) = pack (_ :: _)
    simp only [pack, BitVec.toNat_ofNat, BitVec.ofNat_eq_ofNat]
    omega
  · change Matches w 0 (_ :: _) at h
    simp [Matches] at h
    simp [decodeRaw, startsLong, decodeRaw32, decodeMaj08, fieldBV, h, ofNat_pair]
@[simp] theorem bne_row (a b : BitVec 5) (o : BitVec 13) : Row (.bne a b o) := by
  refine ⟨?_, fun w h => ?_⟩
  · change (_ + _ : Nat) = pack (_ :: _)
    simp only [pack, BitVec.toNat_ofNat, BitVec.ofNat_eq_ofNat]
    omega
  · change Matches w 0 (_ :: _) at h
    simp [Matches] at h
    simp [decodeRaw, startsLong, decodeRaw32, decodeMaj09, fieldBV, h, ofNat_pair]
@[simp] theorem blt_row (a b : BitVec 5) (o : BitVec 13) : Row (.blt a b o) := by
  refine ⟨?_, fun w h => ?_⟩
  · change (_ + _ : Nat) = pack (_ :: _)
    simp only [pack, BitVec.toNat_ofNat, BitVec.ofNat_eq_ofNat]
    omega
  · change Matches w 0 (_ :: _) at h
    simp [Matches] at h
    simp [decodeRaw, startsLong, decodeRaw32, decodeMaj0A, fieldBV, h, ofNat_pair]
@[simp] theorem bge_row (a b : BitVec 5) (o : BitVec 13) : Row (.bge a b o) := by
  refine ⟨?_, fun w h => ?_⟩
  · change (_ + _ : Nat) = pack (_ :: _)
    simp only [pack, BitVec.toNat_ofNat, BitVec.ofNat_eq_ofNat]
    omega
  · change Matches w 0 (_ :: _) at h
    simp [Matches] at h
    simp [decodeRaw, startsLong, decodeRaw32, decodeMaj0B, fieldBV, h, ofNat_pair]
@[simp] theorem bltn_row (a b : BitVec 5) (o : BitVec 13) : Row (.bltn a b o) := by
  refine ⟨?_, fun w h => ?_⟩
  · change (_ + _ : Nat) = pack (_ :: _)
    simp only [pack, BitVec.toNat_ofNat, BitVec.ofNat_eq_ofNat]
    omega
  · change Matches w 0 (_ :: _) at h
    simp [Matches] at h
    simp [decodeRaw, startsLong, decodeRaw32, decodeMaj0C, fieldBV, h, ofNat_pair]
@[simp] theorem bgen_row (a b : BitVec 5) (o : BitVec 13) : Row (.bgen a b o) := by
  refine ⟨?_, fun w h => ?_⟩
  · change (_ + _ : Nat) = pack (_ :: _)
    simp only [pack, BitVec.toNat_ofNat, BitVec.ofNat_eq_ofNat]
    omega
  · change Matches w 0 (_ :: _) at h
    simp [Matches] at h
    simp [decodeRaw, startsLong, decodeRaw32, decodeMaj0D, fieldBV, h, ofNat_pair]
@[simp] theorem j_row (o : BitVec 18) : Row (.j o) := by
  refine ⟨?_, fun w h => ?_⟩
  · change (_ + _ : Nat) = pack (_ :: _)
    simp only [pack, BitVec.toNat_ofNat, BitVec.ofNat_eq_ofNat]
    omega
  · change Matches w 0 (_ :: _) at h
    simp [Matches] at h
    simp [decodeRaw, startsLong, decodeRaw32, decodeMaj0E, h, ofNat_pair]
theorem jal_row {d : BitVec 5} {o : BitVec 18} (h0 : d.toNat ≠ 0) : Row (.jal d o) := by
  refine ⟨?_, fun w h => ?_⟩
  · change (_ + _ : Nat) = pack (_ :: _)
    simp only [pack, BitVec.toNat_ofNat, BitVec.ofNat_eq_ofNat]
    omega
  · change Matches w 0 (_ :: _) at h
    simp [Matches] at h
    simp [decodeRaw, startsLong, decodeRaw32, decodeMaj0E, fieldBV, h, ofNat_pair, h0]
@[simp] theorem decodeMaj0F_rows :
    (∀ (i : BitVec 9), Row (.trap i) ∧ Row (.brk i)) ∧
    (∀ (a : BitVec 5) (i : BitVec 11), Row (.loop a i)) ∧
    (∀ (d a : BitVec 5) (i : BitVec 11), Row (.jalr d a i)) := by
  and_intros
  all_goals
    intros
    and_intros
  all_goals
    refine ⟨?_, fun w h => ?_⟩
    · change (_ + _ : Nat) = pack (_ :: _)
      simp only [pack, BitVec.toNat_ofNat, BitVec.ofNat_eq_ofNat]
      ring
    · change Matches w 0 (_ :: _) at h
      simp [Matches, field_cut 0 2 5] at h
      simp [decodeRaw, startsLong, decodeRaw32, decodeMaj0F, fieldBV, h, field_cut 0 2 5, field_cut 16 14 2]
@[simp] theorem endTask_row : Row .endTask := by
  refine ⟨rfl, fun w h => ?_⟩
  change Matches w 0 (_ :: _) at h
  simp [Matches, field_cut 0 2 5, field_cut 16 14 2] at h
  simp [decodeRaw, startsLong, decodeRaw32, decodeMaj0F, h, field_cut 0 2 5, field_cut 16 14 2]
@[simp] theorem ldRegion_row (d a i : BitVec 5) (n : BitVec 4) (w : BitVec 2) : Row (.ldRegion d a n i w) := by
  refine ⟨?_, fun w h => ?_⟩
  · change (_ + _ : Nat) = pack (_ :: _)
    simp only [pack, BitVec.toNat_ofNat, BitVec.ofNat_eq_ofNat]
    omega
  · change Matches w 0 (_ :: _) at h
    simp [Matches] at h
    simp [decodeRaw, startsLong, decodeRaw32, decodeMaj10, fieldBV, h, ofNat_pair]
theorem ld_row {d a i : BitVec 5} {o w : BitVec 2} {s : BitVec 3} (h0 : o.toNat ≠ 3) : Row (.ld d a o s i w) := by
  refine ⟨?_, fun w h => ?_⟩
  · change (_ + _ : Nat) = pack (_ :: _)
    simp only [pack, BitVec.toNat_ofNat, BitVec.ofNat_eq_ofNat]
    ring
  · change Matches w 0 (_ :: _) at h
    simp [Matches] at h
    simp [decodeRaw, startsLong, decodeRaw32, decodeMaj10, fieldBV, h, h0]
theorem ldIndex_row {d a b : BitVec 5} {o w : BitVec 2} {s : BitVec 3} (h0 : o.toNat ≠ 3) :
    Row (.ldIndex d a b o s w) := by
  refine ⟨?_, fun w h => ?_⟩
  · change (_ + _ : Nat) = pack (_ :: _)
    simp only [pack, BitVec.toNat_ofNat, BitVec.ofNat_eq_ofNat]
    ring
  · change Matches w 0 (_ :: _) at h
    simp [Matches] at h
    simp [decodeRaw, startsLong, decodeRaw32, decodeMaj10, fieldBV, h, h0]
@[simp] theorem stRegion_row (d a i : BitVec 5) (n : BitVec 4) (w : BitVec 2) : Row (.stRegion d a n i w) := by
  refine ⟨?_, fun w h => ?_⟩
  · change (_ + _ : Nat) = pack (_ :: _)
    simp only [pack, BitVec.toNat_ofNat, BitVec.ofNat_eq_ofNat]
    omega
  · change Matches w 0 (_ :: _) at h
    simp [Matches] at h
    simp [decodeRaw, startsLong, decodeRaw32, decodeMaj11, fieldBV, h, ofNat_pair]
theorem st_row {d a i : BitVec 5} {o w : BitVec 2} {s : BitVec 3} (h0 : o.toNat ≠ 3) : Row (.st d a o s i w) := by
  refine ⟨?_, fun w h => ?_⟩
  · change (_ + _ : Nat) = pack (_ :: _)
    simp only [pack, BitVec.toNat_ofNat, BitVec.ofNat_eq_ofNat]
    ring
  · change Matches w 0 (_ :: _) at h
    simp [Matches] at h
    simp [decodeRaw, startsLong, decodeRaw32, decodeMaj11, fieldBV, h, h0]
theorem stIndex_row {d a b : BitVec 5} {o w : BitVec 2} {s : BitVec 3} (h0 : o.toNat ≠ 3) :
    Row (.stIndex d a b o s w) := by
  refine ⟨?_, fun w h => ?_⟩
  · change (_ + _ : Nat) = pack (_ :: _)
    simp only [pack, BitVec.toNat_ofNat, BitVec.ofNat_eq_ofNat]
    ring
  · change Matches w 0 (_ :: _) at h
    simp [Matches] at h
    simp [decodeRaw, startsLong, decodeRaw32, decodeMaj11, fieldBV, h, h0]
@[simp] theorem decodeMaj12_rows (d a i : BitVec 5) (n : BitVec 4) : Row (.ldvRegion d a n i) ∧
    Row (.stvRegion d a n i) := by
  and_intros
  all_goals
    refine ⟨?_, fun w h => ?_⟩
    · change (_ + _ : Nat) = pack (_ :: _)
      simp only [pack, BitVec.toNat_ofNat, BitVec.ofNat_eq_ofNat]
      omega
    · change Matches w 0 (_ :: _) at h
      simp [Matches] at h
      simp [decodeRaw, startsLong, decodeRaw32, decodeMaj12, fieldBV, h, ofNat_pair]
theorem ldv_row {d a i : BitVec 5} {o : BitVec 2} {s : BitVec 3} (h0 : o.toNat ≠ 3) : Row (.ldv d a o s i) := by
  refine ⟨?_, fun w h => ?_⟩
  · change (_ + _ : Nat) = pack (_ :: _)
    simp only [pack, BitVec.toNat_ofNat, BitVec.ofNat_eq_ofNat]
    ring
  · change Matches w 0 (_ :: _) at h
    simp [Matches] at h
    simp [decodeRaw, startsLong, decodeRaw32, decodeMaj12, fieldBV, h, h0]
theorem ldvIndex_row {d a b : BitVec 5} {o : BitVec 2} {s : BitVec 3} (h0 : o.toNat ≠ 3) :
    Row (.ldvIndex d a b o s) := by
  refine ⟨?_, fun w h => ?_⟩
  · change (_ + _ : Nat) = pack (_ :: _)
    simp only [pack, BitVec.toNat_ofNat, BitVec.ofNat_eq_ofNat]
    ring
  · change Matches w 0 (_ :: _) at h
    simp [Matches] at h
    simp [decodeRaw, startsLong, decodeRaw32, decodeMaj12, fieldBV, h, h0]
theorem stv_row {d a i : BitVec 5} {o : BitVec 2} {s : BitVec 3} (h0 : o.toNat ≠ 3) : Row (.stv d a o s i) := by
  refine ⟨?_, fun w h => ?_⟩
  · change (_ + _ : Nat) = pack (_ :: _)
    simp only [pack, BitVec.toNat_ofNat, BitVec.ofNat_eq_ofNat]
    ring
  · change Matches w 0 (_ :: _) at h
    simp [Matches] at h
    simp [decodeRaw, startsLong, decodeRaw32, decodeMaj12, fieldBV, h, h0]
theorem stvIndex_row {d a b : BitVec 5} {o : BitVec 2} {s : BitVec 3} (h0 : o.toNat ≠ 3) :
    Row (.stvIndex d a b o s) := by
  refine ⟨?_, fun w h => ?_⟩
  · change (_ + _ : Nat) = pack (_ :: _)
    simp only [pack, BitVec.toNat_ofNat, BitVec.ofNat_eq_ofNat]
    ring
  · change Matches w 0 (_ :: _) at h
    simp [Matches] at h
    simp [decodeRaw, startsLong, decodeRaw32, decodeMaj12, fieldBV, h, h0]
@[simp] theorem decodeMaj13_rows :
    (∀ (d a i : BitVec 5) (o : BitVec 2) (s : BitVec 3), Row (.ldf d a o s i) ∧ Row (.stf d a o s i) ∧
      Row (.ste d a o s i)) ∧
    (∀ (d a b : BitVec 5) (o : BitVec 2) (s : BitVec 3), Row (.ldfIndex d a b o s) ∧ Row (.stfIndex d a b o s) ∧
      Row (.steIndex d a b o s)) := by
  and_intros
  all_goals
    intros
    and_intros
  all_goals
    refine ⟨?_, fun w h => ?_⟩
    · change (_ + _ : Nat) = pack (_ :: _)
      simp only [pack, BitVec.toNat_ofNat, BitVec.ofNat_eq_ofNat]
      ring
    · change Matches w 0 (_ :: _) at h
      simp [Matches] at h
      simp [decodeRaw, startsLong, decodeRaw32, decodeMaj13, fieldBV, h]
@[simp] theorem decodeMaj14_rows (d a b : BitVec 5) (o : BitVec 2) (s : BitVec 3) (w : BitVec 1) :
    Row (.aadd d a b o s w) ∧ Row (.aand d a b o s w) ∧ Row (.aor d a b o s w) ∧ Row (.axor d a b o s w) := by
  and_intros
  all_goals
    refine ⟨?_, fun w h => ?_⟩
    · change (_ + _ : Nat) = pack (_ :: _)
      simp only [pack, BitVec.toNat_ofNat, BitVec.ofNat_eq_ofNat]
      ring
    · change Matches w 0 (_ :: _) at h
      simp [Matches] at h
      simp [decodeRaw, startsLong, decodeRaw32, decodeMaj14, fieldBV, h]
@[simp] theorem decodeMaj15_rows (d a b : BitVec 5) (o : BitVec 2) (s : BitVec 3) (w : BitVec 1) :
    Row (.amin d a b o s w) ∧ Row (.amax d a b o s w) ∧ Row (.aminn d a b o s w) ∧ Row (.amaxn d a b o s w) := by
  and_intros
  all_goals
    refine ⟨?_, fun w h => ?_⟩
    · change (_ + _ : Nat) = pack (_ :: _)
      simp only [pack, BitVec.toNat_ofNat, BitVec.ofNat_eq_ofNat]
      ring
    · change Matches w 0 (_ :: _) at h
      simp [Matches] at h
      simp [decodeRaw, startsLong, decodeRaw32, decodeMaj15, fieldBV, h]
@[simp] theorem decodeMaj16_rows (d a b : BitVec 5) (o : BitVec 2) (s : BitVec 3) (w : BitVec 1) :
    Row (.aswp d a b o s w) ∧ Row (.acas d a b o s w) ∧ Row (.afadd d a b o s w) ∧ Row (.adf d a b o s w) := by
  and_intros
  all_goals
    refine ⟨?_, fun w h => ?_⟩
    · change (_ + _ : Nat) = pack (_ :: _)
      simp only [pack, BitVec.toNat_ofNat, BitVec.ofNat_eq_ofNat]
      ring
    · change Matches w 0 (_ :: _) at h
      simp [Matches] at h
      simp [decodeRaw, startsLong, decodeRaw32, decodeMaj16, fieldBV, h]
@[simp] theorem decodeMaj17_rows :
    (∀ (o : BitVec 2) (s : BitVec 3), Row (.fence o s)) ∧
    (∀ (a b : BitVec 5), Row (.aliasf a b)) ∧
    (∀ (a i : BitVec 5) (w : BitVec 1) (l : BitVec 2), Row (.pfx a i w l)) ∧
    (∀ (a b t : BitVec 5), Row (.nmadd a b t)) ∧
    (∀ (a b : BitVec 5) (o : BitVec 3) (t : BitVec 2), Row (.nmred a b o t)) := by
  and_intros
  all_goals
    intros
    refine ⟨?_, fun w h => ?_⟩
    · change (_ + _ : Nat) = pack (_ :: _)
      simp only [pack, BitVec.toNat_ofNat, BitVec.ofNat_eq_ofNat]
      ring
    · change Matches w 0 (_ :: _) at h
      simp [Matches, field_cut 0 2 5, field_cut 26 5 1] at h
      simp [decodeRaw, startsLong, decodeRaw32, decodeMaj17, fieldBV, h, field_cut 0 2 5, field_cut 16 10 6, field_cut
        26 5 1]
@[simp] theorem ifence_row : Row .ifence := by
  refine ⟨rfl, fun w h => ?_⟩
  change Matches w 0 (_ :: _) at h
  simp [Matches, field_cut 0 2 5, field_cut 16 10 6, field_cut 26 5 1] at h
  simp [decodeRaw, startsLong, decodeRaw32, decodeMaj17, h, field_cut 0 2 5, field_cut 16 10 6, field_cut 26 5 1]
@[simp] theorem nmfence_row : Row .nmfence := by
  refine ⟨rfl, fun w h => ?_⟩
  change Matches w 0 (_ :: _) at h
  simp [Matches, field_cut 0 2 5, field_cut 16 10 6, field_cut 26 5 1] at h
  simp [decodeRaw, startsLong, decodeRaw32, decodeMaj17, h, field_cut 0 2 5, field_cut 16 10 6, field_cut 26 5 1]
@[simp] theorem decodeMaj18_rows :
    (∀ (d a : BitVec 5) (r : BitVec 3) (p : BitVec 1), Row (.fsqrt d a r p)) ∧
    (∀ (d a b : BitVec 5) (r : BitVec 3) (p : BitVec 1), Row (.fadd d a b r p) ∧ Row (.fsub d a b r p) ∧
      Row (.fmul d a b r p) ∧ Row (.fdiv d a b r p)) := by
  and_intros
  all_goals
    intros
    and_intros
  all_goals
    refine ⟨?_, fun w h => ?_⟩
    · change (_ + _ : Nat) = pack (_ :: _)
      simp only [pack, BitVec.toNat_ofNat, BitVec.ofNat_eq_ofNat]
      ring
    · change Matches w 0 (_ :: _) at h
      simp [Matches] at h
      simp [decodeRaw, startsLong, decodeRaw32, decodeMaj18, fieldBV, h]
@[simp] theorem decodeMaj19_rows (d a b : BitVec 5) (r : BitVec 3) (p : BitVec 1) : Row (.ffma d a b r p) ∧
    Row (.ffms d a b r p) ∧ Row (.ffnma d a b r p) := by
  and_intros
  all_goals
    refine ⟨?_, fun w h => ?_⟩
    · change (_ + _ : Nat) = pack (_ :: _)
      simp only [pack, BitVec.toNat_ofNat, BitVec.ofNat_eq_ofNat]
      ring
    · change Matches w 0 (_ :: _) at h
      simp [Matches] at h
      simp [decodeRaw, startsLong, decodeRaw32, decodeMaj19, fieldBV, h]
@[simp] theorem decodeMaj1A_rows :
    (∀ (d a : BitVec 5) (p : BitVec 1), Row (.fclass d a p)) ∧
    (∀ (d a b : BitVec 5) (p : BitVec 1), Row (.fmin d a b p) ∧ Row (.fmax d a b p) ∧ Row (.feq d a b p) ∧
      Row (.flt d a b p) ∧ Row (.fle d a b p)) := by
  and_intros
  all_goals
    intros
    and_intros
  all_goals
    refine ⟨?_, fun w h => ?_⟩
    · change (_ + _ : Nat) = pack (_ :: _)
      simp only [pack, BitVec.toNat_ofNat, BitVec.ofNat_eq_ofNat]
      ring
    · change Matches w 0 (_ :: _) at h
      simp [Matches, field_cut 21 5 6] at h
      simp [decodeRaw, startsLong, decodeRaw32, decodeMaj1A, fieldBV, h, field_cut 21 5 6]
@[simp] theorem decodeMaj1B_rows (d a b : BitVec 5) (p : BitVec 1) : Row (.fsgnj d a b p) ∧ Row (.fsgnjn d a b p) ∧
    Row (.fsgnjx d a b p) := by
  and_intros
  all_goals
    refine ⟨?_, fun w h => ?_⟩
    · change (_ + _ : Nat) = pack (_ :: _)
      simp only [pack, BitVec.toNat_ofNat, BitVec.ofNat_eq_ofNat]
      ring
    · change Matches w 0 (_ :: _) at h
      simp [Matches] at h
      simp [decodeRaw, startsLong, decodeRaw32, decodeMaj1B, fieldBV, h]
@[simp] theorem fcvt_row (d a : BitVec 5) (r : BitVec 3) (s t : BitVec 4) : Row (.fcvt d a r s t) := by
  refine ⟨?_, fun w h => ?_⟩
  · change (_ + _ : Nat) = pack (_ :: _)
    simp only [pack, BitVec.toNat_ofNat, BitVec.ofNat_eq_ofNat]
    ring
  · change Matches w 0 (_ :: _) at h
    simp [Matches] at h
    simp [decodeRaw, startsLong, decodeRaw32, decodeMaj1C, fieldBV, h]
@[simp] theorem decodeMaj1D_rows (d a : BitVec 5) : Row (.fmvg d a) ∧ Row (.fmvf d a) := by
  and_intros
  all_goals
    refine ⟨?_, fun w h => ?_⟩
    · change (_ + _ : Nat) = pack (_ :: _)
      simp only [pack, BitVec.toNat_ofNat, BitVec.ofNat_eq_ofNat]
      ring
    · change Matches w 0 (_ :: _) at h
      simp [Matches] at h
      simp [decodeRaw, startsLong, decodeRaw32, decodeMaj1D, fieldBV, h]
@[simp] theorem decodeMaj1E_rows :
    (∀ (d a : BitVec 5) (p : BitVec 1), Row (.frcpa d a p) ∧ Row (.frsqa d a p)) ∧
    (∀ (d a b : BitVec 5) (r : BitVec 3) (p : BitVec 1), Row (.frcpr d a b r p) ∧ Row (.frsqr d a b r p)) := by
  and_intros
  all_goals
    intros
    and_intros
  all_goals
    refine ⟨?_, fun w h => ?_⟩
    · change (_ + _ : Nat) = pack (_ :: _)
      simp only [pack, BitVec.toNat_ofNat, BitVec.ofNat_eq_ofNat]
      ring
    · change Matches w 0 (_ :: _) at h
      simp [Matches, field_cut 21 8 3] at h
      simp [decodeRaw, startsLong, decodeRaw32, decodeMaj1E, fieldBV, h, field_cut 21 8 3]
@[simp] theorem decodeMaj20_rows :
    (∀ (d a c : BitVec 4) (t : BitVec 3), Row (.vabs d a c t) ∧ Row (.vneg d a c t)) ∧
    (∀ (d a b : BitVec 4) (t : BitVec 3), Row (.vdot d a b t)) ∧
    (∀ (d a b c : BitVec 4) (t : BitVec 3), Row (.vadd d a b c t) ∧ Row (.vsub d a b c t) ∧ Row (.vmul d a b c t) ∧
      Row (.vfma d a b c t) ∧ Row (.vmin d a b c t) ∧ Row (.vmax d a b c t) ∧ Row (.vabsd d a b c t)) := by
  and_intros
  all_goals
    intros
    and_intros
  all_goals
    refine ⟨?_, fun w h => ?_⟩
    · change (_ + _ : Nat) = pack (_ :: _)
      simp only [pack, BitVec.toNat_ofNat, BitVec.ofNat_eq_ofNat]
      omega
    · change Matches w 0 (_ :: _) at h
      simp [Matches, field_cut 24 4 4] at h
      simp [decodeRaw, startsLong, decodeRaw32, decodeMaj20, fieldBV, h, ofNat_pair, field_cut 24 4 4]
@[simp] theorem decodeMaj21_rows :
    (∀ (d a : BitVec 4), Row (.vnot d a)) ∧
    (∀ (d a b : BitVec 4), Row (.vand d a b) ∧ Row (.vor d a b) ∧ Row (.vxor d a b)) ∧
    (∀ (d a b : BitVec 4) (t : BitVec 3), Row (.vshl d a b t) ∧ Row (.vshr d a b t) ∧ Row (.vsra d a b t)) := by
  and_intros
  all_goals
    intros
    and_intros
  all_goals
    refine ⟨?_, fun w h => ?_⟩
    · change (_ + _ : Nat) = pack (_ :: _)
      simp only [pack, BitVec.toNat_ofNat, BitVec.ofNat_eq_ofNat]
      omega
    · change Matches w 0 (_ :: _) at h
      simp [Matches, field_cut 20 4 8] at h
      simp [decodeRaw, startsLong, decodeRaw32, decodeMaj21, fieldBV, h, ofNat_pair, field_cut 20 4 8]
@[simp] theorem decodeMaj22_rows :
    (∀ (d a b : BitVec 4) (t : BitVec 3), Row (.vcmpeq d a b t)) ∧
    (∀ (d a b c : BitVec 4) (t : BitVec 3), Row (.vcmplt d a b c t) ∧ Row (.vcmple d a b c t) ∧
      Row (.vsel d a b c t)) := by
  and_intros
  all_goals
    intros
    and_intros
  all_goals
    refine ⟨?_, fun w h => ?_⟩
    · change (_ + _ : Nat) = pack (_ :: _)
      simp only [pack, BitVec.toNat_ofNat, BitVec.ofNat_eq_ofNat]
      omega
    · change Matches w 0 (_ :: _) at h
      simp [Matches, field_cut 24 4 4] at h
      simp [decodeRaw, startsLong, decodeRaw32, decodeMaj22, fieldBV, h, ofNat_pair, field_cut 24 4 4]
@[simp] theorem decodeMaj23_rows :
    (∀ (d b : BitVec 4) (t : BitVec 3), Row (.vbcast d b t)) ∧
    (∀ (d b c : BitVec 4) (t : BitVec 3), Row (.vins d b c t)) ∧
    (∀ (d a c : BitVec 4) (t : BitVec 3), Row (.vext d a c t)) ∧
    (∀ (d a b c : BitVec 4), Row (.vperm d a b c)) := by
  and_intros
  all_goals
    intros
    refine ⟨?_, fun w h => ?_⟩
    · change (_ + _ : Nat) = pack (_ :: _)
      simp only [pack, BitVec.toNat_ofNat, BitVec.ofNat_eq_ofNat]
      omega
    · change Matches w 0 (_ :: _) at h
      simp [Matches, field_cut 24 4 4] at h
      simp [decodeRaw, startsLong, decodeRaw32, decodeMaj23, fieldBV, h, ofNat_pair, field_cut 24 4 4]
@[simp] theorem decodeMaj24_rows :
    (∀ (d a : BitVec 4) (t : BitVec 3), Row (.vredadd d a t) ∧ Row (.vthr d a t) ∧ Row (.vrcpa d a t) ∧
      Row (.vrsqa d a t)) ∧
    (∀ (d a c : BitVec 4) (t : BitVec 3), Row (.vredmin d a c t) ∧ Row (.vredmax d a c t) ∧ Row (.vunpk d a c t)) ∧
    (∀ (d a b c : BitVec 4) (r : BitVec 3), Row (.vcvt d a b c r)) ∧
    (∀ (d a b c : BitVec 4) (t : BitVec 3), Row (.vpack d a b c t)) := by
  and_intros
  all_goals
    intros
    and_intros
  all_goals
    refine ⟨?_, fun w h => ?_⟩
    · change (_ + _ : Nat) = pack (_ :: _)
      simp only [pack, BitVec.toNat_ofNat, BitVec.ofNat_eq_ofNat]
      omega
    · change Matches w 0 (_ :: _) at h
      simp [Matches, field_cut 20 8 4] at h
      simp [decodeRaw, startsLong, decodeRaw32, decodeMaj24, fieldBV, h, ofNat_pair, field_cut 20 8 4]
@[simp] theorem decodeMaj28_rows :
    (∀ (a : BitVec 5), Row (.done a)) ∧
    (∀ (d a : BitVec 5), Row (.sendr d a)) ∧
    (∀ (a b : BitVec 5), Row (.fork a b)) ∧
    (∀ (d a b : BitVec 5), Row (.send d a b) ∧ Row (.clsbind d a b)) := by
  and_intros
  all_goals
    intros
    and_intros
  all_goals
    refine ⟨?_, fun w h => ?_⟩
    · change (_ + _ : Nat) = pack (_ :: _)
      simp only [pack, BitVec.toNat_ofNat, BitVec.ofNat_eq_ofNat]
      ring
    · change Matches w 0 (_ :: _) at h
      simp [Matches, field_cut 21 5 6] at h
      simp [decodeRaw, startsLong, decodeRaw32, decodeMaj28, fieldBV, h, field_cut 21 5 6]
@[simp] theorem decodeMaj29_rows :
    (∀ (a : BitVec 5), Row (.winset a) ∧ Row (.qcfg a)) ∧
    (∀ (a : BitVec 5) (m : BitVec 2), Row (.nsend a m)) := by
  and_intros
  all_goals
    intros
    and_intros
  all_goals
    refine ⟨?_, fun w h => ?_⟩
    · change (_ + _ : Nat) = pack (_ :: _)
      simp only [pack, BitVec.toNat_ofNat, BitVec.ofNat_eq_ofNat]
      ring
    · change Matches w 0 (_ :: _) at h
      simp [Matches] at h
      simp [decodeRaw, startsLong, decodeRaw32, decodeMaj29, fieldBV, h]
@[simp] theorem decodeMaj2A_rows :
    (∀ (a : BitVec 5), Row (.repgo a)) ∧
    (∀ (d : BitVec 5) (k : BitVec 1), Row (.strmoff d k)) ∧
    (∀ (d a b : BitVec 5), Row (.repb d a b)) ∧
    (∀ (d a b : BitVec 5) (k : BitVec 1), Row (.strm d a b k)) := by
  and_intros
  all_goals
    intros
    refine ⟨?_, fun w h => ?_⟩
    · change (_ + _ : Nat) = pack (_ :: _)
      simp only [pack, BitVec.toNat_ofNat, BitVec.ofNat_eq_ofNat]
      ring
    · change Matches w 0 (_ :: _) at h
      simp [Matches, field_cut 16 5 11, field_cut 21 5 6] at h
      simp [decodeRaw, startsLong, decodeRaw32, decodeMaj2A, fieldBV, h, field_cut 16 5 11, field_cut 21 5 6]
@[simp] theorem repe_row : Row .repe := by
  refine ⟨rfl, fun w h => ?_⟩
  change Matches w 0 (_ :: _) at h
  simp [Matches, field_cut 16 5 11, field_cut 21 5 6] at h
  simp [decodeRaw, startsLong, decodeRaw32, decodeMaj2A, h, field_cut 16 5 11, field_cut 21 5 6]
@[simp] theorem tmld_row (d a : BitVec 5) (i : BitVec 11) : Row (.tmld d a i) := by
  refine ⟨?_, fun w h => ?_⟩
  · change (_ + _ : Nat) = pack (_ :: _)
    simp only [pack, BitVec.toNat_ofNat, BitVec.ofNat_eq_ofNat]
    ring
  · change Matches w 0 (_ :: _) at h
    simp [Matches] at h
    simp [decodeRaw, startsLong, decodeRaw32, decodeMaj2B, fieldBV, h]
@[simp] theorem decodeMaj2C_rows (a b : BitVec 4) (fF : BitVec 5) (g t : BitVec 1) : Row (.mmaE4m3E4m3 a b fF g t) ∧
    Row (.mmaE4m3E5m2 a b fF g t) ∧ Row (.mmaE5m2E4m3 a b fF g t) ∧ Row (.mmaE5m2E5m2 a b fF g t) ∧
    Row (.mmaE2m1E2m1 a b fF g t) ∧ Row (.mmaE2m1E4m3 a b fF g t) ∧ Row (.mmaEc8Ec8 a b fF g t) ∧
    Row (.mmaEc8E4m3 a b fF g t) := by
  and_intros
  all_goals
    refine ⟨?_, fun w h => ?_⟩
    · change (_ + _ : Nat) = pack (_ :: _)
      simp only [pack, BitVec.toNat_ofNat, BitVec.ofNat_eq_ofNat]
      ring
    · change Matches w 0 (_ :: _) at h
      simp [Matches] at h
      simp [decodeRaw, startsLong, decodeRaw32, decodeMaj2C, fieldBV, h]
@[simp] theorem decodeMaj2D_rows :
    (∀ (a b : BitVec 4) (t : BitVec 1), Row (.mmaBf16Bf16 a b t) ∧ Row (.mmaF16F16 a b t) ∧ Row (.mmaS8S8 a b t) ∧
      Row (.mmaS4S8 a b t) ∧ Row (.mmaBf16S4 a b t) ∧ Row (.mmapBf16 a b t)) ∧
    (∀ (a b : BitVec 4) (fF : BitVec 5) (t : BitVec 1), Row (.mmapE4m3 a b fF t)) := by
  and_intros
  all_goals
    intros
    and_intros
  all_goals
    refine ⟨?_, fun w h => ?_⟩
    · change (_ + _ : Nat) = pack (_ :: _)
      simp only [pack, BitVec.toNat_ofNat, BitVec.ofNat_eq_ofNat]
      ring
    · change Matches w 0 (_ :: _) at h
      simp [Matches, field_cut 24 5 3] at h
      simp [decodeRaw, startsLong, decodeRaw32, decodeMaj2D, fieldBV, h, field_cut 24 5 3]
@[simp] theorem decodeMaj2E_rows (a b : BitVec 4) (t : BitVec 1) : Row (.distL1Bf16 a b t) ∧ Row (.distL1E4m3 a b t) ∧
    Row (.distL1S8 a b t) ∧ Row (.distL2Bf16 a b t) ∧ Row (.distL2E4m3 a b t) ∧ Row (.distL2S8 a b t) := by
  and_intros
  all_goals
    refine ⟨?_, fun w h => ?_⟩
    · change (_ + _ : Nat) = pack (_ :: _)
      simp only [pack, BitVec.toNat_ofNat, BitVec.ofNat_eq_ofNat]
      ring
    · change Matches w 0 (_ :: _) at h
      simp [Matches] at h
      simp [decodeRaw, startsLong, decodeRaw32, decodeMaj2E, fieldBV, h]
@[simp] theorem decodeMaj2F_rows :
    (∀ (r : BitVec 3), Row (.ringcfgReset r)) ∧
    (∀ (h n t : BitVec 1) (k : BitVec 3), Row (.adrain h k n t)) ∧
    (∀ (d : BitVec 5) (l t : BitVec 1), Row (.async d l t)) ∧
    (∀ (d : BitVec 5) (r : BitVec 3), Row (.ringcfgSet d r) ∧ Row (.ringcfgPush d r) ∧ Row (.ringcfgQuery d r)) ∧
    (∀ (d : BitVec 5) (a : BitVec 4) (y : BitVec 2) (t : BitVec 1), Row (.cupd d a y t)) := by
  and_intros
  all_goals
    intros
    and_intros
  all_goals
    refine ⟨?_, fun w h => ?_⟩
    · change (_ + _ : Nat) = pack (_ :: _)
      simp only [pack, BitVec.toNat_ofNat, BitVec.ofNat_eq_ofNat]
      ring
    · change Matches w 0 (_ :: _) at h
      simp [Matches, field_cut 19 7 6, field_cut 25 1 6, field_cut 26 2 4] at h
      simp [decodeRaw, startsLong, decodeRaw32, decodeMaj2F, fieldBV, h, field_cut 19 7 6, field_cut 25 1 6, field_cut
        26 2 4]
@[simp] theorem decodeMaj30_rows :
    (∀ (t : BitVec 1), Row (.accz t)) ∧
    (∀ (d : BitVec 5) (t : BitVec 1), Row (.accrd d t) ∧ Row (.accwr d t)) ∧
    (∀ (fF : BitVec 5) (s t : BitVec 1), Row (.accsc fF s t)) := by
  and_intros
  all_goals
    intros
    and_intros
  all_goals
    refine ⟨?_, fun w h => ?_⟩
    · change (_ + _ : Nat) = pack (_ :: _)
      simp only [pack, BitVec.toNat_ofNat, BitVec.ofNat_eq_ofNat]
      ring
    · change Matches w 0 (_ :: _) at h
      simp [Matches, field_cut 16 13 3] at h
      simp [decodeRaw, startsLong, decodeRaw32, decodeMaj30, fieldBV, h, field_cut 16 13 3]
@[simp] theorem decodeMaj34_rows :
    (∀ (d a : BitVec 5), Row (.cpycan d a)) ∧
    (∀ (d a b : BitVec 5), Row (.cpy d a b) ∧ Row (.cpykv d a b) ∧ Row (.kvapp d a b) ∧ Row (.get d a b) ∧
      Row (.put d a b) ∧ Row (.halo d a b) ∧ Row (.flushr d a b) ∧ Row (.invr d a b)) := by
  and_intros
  all_goals
    intros
    and_intros
  all_goals
    refine ⟨?_, fun w h => ?_⟩
    · change (_ + _ : Nat) = pack (_ :: _)
      simp only [pack, BitVec.toNat_ofNat, BitVec.ofNat_eq_ofNat]
      ring
    · change Matches w 0 (_ :: _) at h
      simp [Matches, field_cut 21 5 6] at h
      simp [decodeRaw, startsLong, decodeRaw32, decodeMaj34, fieldBV, h, field_cut 21 5 6]
@[simp] theorem decodeMaj38_rows :
    (∀ (d : BitVec 5), Row (.waytake d)) ∧
    (∀ (d a : BitVec 5), Row (.waygive d a) ∧ Row (.rowop d a)) := by
  and_intros
  all_goals
    intros
    and_intros
  all_goals
    refine ⟨?_, fun w h => ?_⟩
    · change (_ + _ : Nat) = pack (_ :: _)
      simp only [pack, BitVec.toNat_ofNat, BitVec.ofNat_eq_ofNat]
      ring
    · change Matches w 0 (_ :: _) at h
      simp [Matches, field_cut 16 5 11] at h
      simp [decodeRaw, startsLong, decodeRaw32, decodeMaj38, fieldBV, h, field_cut 16 5 11]
@[simp] theorem decodeMaj39_rows :
    (∀ (a b n : BitVec 5), Row (.bsopAnd a b n) ∧ Row (.bsopOr a b n) ∧ Row (.bsopXor a b n) ∧ Row (.bsopNot a b n)) ∧
    (∀ (a b n : BitVec 5) (s : BitVec 1), Row (.bsopAdd a b n s) ∧ Row (.bsopSub a b n s) ∧ Row (.bsopCmpeq a b n s) ∧
      Row (.bsopCmplt a b n s) ∧ Row (.bsopCmple a b n s) ∧ Row (.bsopSel a b n s) ∧ Row (.bsopShr a b n s) ∧
      Row (.bsopPopc a b n s) ∧ Row (.bsopMin a b n s) ∧ Row (.bsopMax a b n s) ∧ Row (.bsopMul a b n s)) := by
  and_intros
  all_goals
    intros
    and_intros
  all_goals
    refine ⟨?_, fun w h => ?_⟩
    · change (_ + _ : Nat) = pack (_ :: _)
      simp only [pack, BitVec.toNat_ofNat, BitVec.ofNat_eq_ofNat]
      ring
    · change Matches w 0 (_ :: _) at h
      simp [Matches] at h
      simp [decodeRaw, startsLong, decodeRaw32, decodeMaj39, fieldBV, h]
@[simp] theorem decodeMaj3C_rows :
    (∀ (d a : BitVec 5) (h : BitVec 2), Row (.egcfg d a h) ∧ Row (.egfind d a h) ∧ Row (.egnode d a h) ∧
      Row (.egrank d a h) ∧ Row (.egstat d a h)) ∧
    (∀ (d a b : BitVec 5) (h : BitVec 2), Row (.egins d a b h) ∧ Row (.egmrg d a b h) ∧ Row (.egmatch d a b h) ∧
      Row (.egenum d a b h)) := by
  and_intros
  all_goals
    intros
    and_intros
  all_goals
    refine ⟨?_, fun w h => ?_⟩
    · change (_ + _ : Nat) = pack (_ :: _)
      simp only [pack, BitVec.toNat_ofNat, BitVec.ofNat_eq_ofNat]
      ring
    · change Matches w 0 (_ :: _) at h
      simp [Matches, field_cut 21 5 6] at h
      simp [decodeRaw, startsLong, decodeRaw32, decodeMaj3C, fieldBV, h, field_cut 21 5 6]
@[simp] theorem decodeMaj3E_rows :
    (∀ (a : BitVec 5), Row (.tlbinv a)) ∧
    (∀ (d a : BitVec 5), Row (.tlbsd d a) ∧ Row (.suprd d a) ∧ Row (.partset d a)) ∧
    (∀ (d a : BitVec 5) (c : BitVec 11), Row (.csrwr d a c) ∧ Row (.csrset d a c) ∧ Row (.csrclr d a c)) := by
  and_intros
  all_goals
    intros
    and_intros
  all_goals
    refine ⟨?_, fun w h => ?_⟩
    · change (_ + _ : Nat) = pack (_ :: _)
      simp only [pack, BitVec.toNat_ofNat, BitVec.ofNat_eq_ofNat]
      ring
    · change Matches w 0 (_ :: _) at h
      simp [Matches, field_cut 0 2 5] at h
      simp [decodeRaw, startsLong, decodeRaw32, decodeMaj3E, fieldBV, h, field_cut 0 2 5, field_cut 16 5 11]
@[simp] theorem eret_row : Row .eret := by
  refine ⟨rfl, fun w h => ?_⟩
  change Matches w 0 (_ :: _) at h
  simp [Matches, field_cut 0 2 5, field_cut 16 5 11] at h
  simp [decodeRaw, startsLong, decodeRaw32, decodeMaj3E, h, field_cut 0 2 5, field_cut 16 5 11]
theorem csrrd_row {d : BitVec 5} {c : BitVec 11} (h0 : c.toNat ≠ 2016 ∧ c.toNat ≠ 2017 ∧ c.toNat ≠ 2018 ∧ c.toNat ≠ 2019
    ∧ c.toNat ≠ 2020) : Row (.csrrd d c) := by
  refine ⟨?_, fun w h => ?_⟩
  · change (_ + _ : Nat) = pack (_ :: _)
    simp only [pack, BitVec.toNat_ofNat, BitVec.ofNat_eq_ofNat]
    ring
  · change Matches w 0 (_ :: _) at h
    simp [Matches] at h
    simp [decodeRaw, startsLong, decodeRaw32, decodeMaj3E, fieldBV, h, field_cut 0 2 5, field_cut 16 5 11, h0]

end Sys2Proof.Encoding
end

