-- ==== Sys2Proof/Proofs/RoundTrip.lean ====
section
/-! SUPPORT. Decoding and encoding are inverse to each other on words that decode and well-formed instructions (R88); settles O46
and O47. -/
namespace Sys2Proof.Encoding
open Sys2Proof

/-! ## The words that decode, and what they decode to (R69, R88) -/

/-- What the three high bits of a halfword name, its decoder answers. -/
theorem decodeRaw16_exact {w : Nat} : Exact 16 w (decodeRaw16 w) := by
  unfold decodeRaw16
  split <;> rename_i hop
  exacts [decodeCR_exact hop, decodeCI_exact hop, decodeCM_exact hop, decodeCB_exact hop, decodeCJ_exact hop,
    decodeCT_exact hop, decodeCV_exact hop, exact_none]
/-- What the major of a word names, its decoder answers. -/
theorem decodeRaw32_exact {w : Nat} (hop : field w 13 3 = 7) : Exact 32 w (decodeRaw32 w) := by
  unfold decodeRaw32
  split <;> rename_i hmaj
  exacts [decodeMaj00_exact hop hmaj, decodeMaj01_exact hop hmaj, decodeMaj02_exact hop hmaj, decodeMaj03_exact hop
    hmaj, decodeMaj04_exact hop hmaj, decodeMaj05_exact hop hmaj, decodeMaj06_exact hop hmaj, decodeMaj07_exact hop
    hmaj, decodeMaj08_exact hop hmaj, decodeMaj09_exact hop hmaj, decodeMaj0A_exact hop hmaj, decodeMaj0B_exact hop
    hmaj, decodeMaj0C_exact hop hmaj, decodeMaj0D_exact hop hmaj, decodeMaj0E_exact hop hmaj, decodeMaj0F_exact hop
    hmaj, decodeMaj10_exact hop hmaj, decodeMaj11_exact hop hmaj, decodeMaj12_exact hop hmaj, decodeMaj13_exact hop
    hmaj, decodeMaj14_exact hop hmaj, decodeMaj15_exact hop hmaj, decodeMaj16_exact hop hmaj, decodeMaj17_exact hop
    hmaj, decodeMaj18_exact hop hmaj, decodeMaj19_exact hop hmaj, decodeMaj1A_exact hop hmaj, decodeMaj1B_exact hop
    hmaj, decodeMaj1C_exact hop hmaj, decodeMaj1D_exact hop hmaj, decodeMaj1E_exact hop hmaj, decodeMaj20_exact hop
    hmaj, decodeMaj21_exact hop hmaj, decodeMaj22_exact hop hmaj, decodeMaj23_exact hop hmaj, decodeMaj24_exact hop
    hmaj, decodeMaj28_exact hop hmaj, decodeMaj29_exact hop hmaj, decodeMaj2A_exact hop hmaj, decodeMaj2B_exact hop
    hmaj, decodeMaj2C_exact hop hmaj, decodeMaj2D_exact hop hmaj, decodeMaj2E_exact hop hmaj, decodeMaj2F_exact hop
    hmaj, decodeMaj30_exact hop hmaj, decodeMaj34_exact hop hmaj, decodeMaj38_exact hop hmaj, decodeMaj39_exact hop
    hmaj, decodeMaj3C_exact hop hmaj, decodeMaj3E_exact hop hmaj, exact_none]

/-- A word whose halfword starts a 32-bit instruction holds 32 bits of it, any other 16 (R69). -/
def wordBits (w : Nat) : Nat := if startsLong w then 32 else 16
theorem startsLong_iff {w : Nat} : startsLong w = true ↔ field w 13 3 = 7 := beq_iff_eq
theorem sixteen_le_wordBits (w : Nat) : 16 ≤ wordBits w := by
  unfold wordBits
  split <;> decide
theorem startsLong_mod {w k : Nat} (hk : 16 ≤ k) : startsLong (w % 2 ^ k) = startsLong w := by
  rw [startsLong, startsLong, field_mod_two_pow hk]
theorem decodeWord_eq (w : Nat) : decodeWord w = onlyWellFormed (decodeRaw (w % 2 ^ wordBits w)) := by
  rw [decodeRaw, startsLong_mod (sixteen_le_wordBits w)]
  unfold decodeWord wordBits decode32 decode16
  split <;> rfl
theorem decodeRaw_exact (w : Nat) : Exact (wordBits w) w (decodeRaw w) := by
  unfold decodeRaw wordBits
  split
  · exact decodeRaw32_exact (startsLong_iff.1 ‹_›)
  · exact decodeRaw16_exact
theorem onlyWellFormed_eq_some {o : Option Instr} {i : Instr} :
    onlyWellFormed o = some i ↔ o = some i ∧ WellFormed i = true := by
  cases o with
  | none => simp [onlyWellFormed]
  | some j =>
    by_cases h : WellFormed j = true
    · simp only [onlyWellFormed, h, if_true, Option.some.injEq]
      exact ⟨fun e => ⟨e, e ▸ h⟩, fun e => e.1⟩
    · simp only [onlyWellFormed, h]
      exact ⟨fun e => by simp at e, fun ⟨e, hi⟩ => absurd (Option.some.inj e ▸ hi) h⟩

theorem order_ne_three {o : BitVec 2} {s : BitVec 3} (h : loadOrder o s = true ∨ storeOrder o s = true) : o.toNat ≠ 3 := by
  revert o s
  decide
/-- Every well-formed instruction has its row in the tables (R71 to R87). An event is not well formed; a row that shares its
major with a narrower one is told apart by what R81, R87 and R140 ask of its fields. -/
theorem row_of_wellFormed {i : Instr} (h : WellFormed i = true) : Row i := by
  cases i
  case storePerform | nmPerform | bankEngineAck | lineMigrate | memoryRequestPerform | remoteWriteAck | messageArrival
      | heldContextRetry | heldContextEnter | heldContextTerminate | sendqTransmit | postedWriteRefused | nsendArrival
      | nsendCreditReturn | streamFill | contextSelect | parkTimeout | parkedWake | runQueueAging | stealAttempt |
      stealRequest | doneWaveReport | anvilCmdStart | anvilCmdRetire | transferStart | cpykvTileFill |
      transferComplete | fixbellRing | bsopPerform | waygiveConversionComplete | waytakeComplete |
      rangeMaintenanceComplete | shootdownComplete | partsetComplete | unionStep | resign | mergeComplete |
      bindingSend | heapOpComplete | lqtailDoorbell | launchCopy | launchStart | launchCompletionPost | cqheadWrite |
      preemptHalt | preemptSave | launchResume | frgroleWrite | fzreqWrite | frameZeroingComplete | diectlFence |
      diectlWarmReset | diectlColdReset | diectlRejoin | bbctlTrigset | bbctlFrozenClear | attestRequest |
      attestReportReady | registerWrite | dieHeartbeat | heartbeatTimeout | dieStartSteps | islandPowerUp |
      islandPowerOff | islandReset | diePowerEnable | diePowerOff | pwrbrakeAssert | pwrbrakeRelease |
      powerLimitThrottle | thermalTrip | thermalRecover | fabricFlitReceive | fabricNakReplay | fabricLinkUp |
      fabricLinkDown | fabricRequestTimeout | endpointAbsentReply | cxlSnpdata | cxlSnpinv | cxlSnpcur | hostMemRead |
      hostMemWrite | dramScrub | softError | dieLinkFailure | islandResetComplete | islandFirmwareFault |
      hostLinkTrained | cxlCacheResponse | bisnpResponse | aliasfComplete =>
    exact absurd h Bool.false_ne_true
  case jal => exact jal_row fun e => by simp [WellFormed, ← BitVec.toNat_inj, e] at h
  case ld => exact ld_row (order_ne_three (.inl h))
  case ldIndex => exact ldIndex_row (order_ne_three (.inl h))
  case st => exact st_row (order_ne_three (.inr h))
  case stIndex => exact stIndex_row (order_ne_three (.inr h))
  case ldv => exact ldv_row (order_ne_three (.inl (Bool.and_eq_true_iff.1 h).1))
  case ldvIndex => exact ldvIndex_row (order_ne_three (.inl (Bool.and_eq_true_iff.1 h).1))
  case stv => exact stv_row (order_ne_three (.inr (Bool.and_eq_true_iff.1 h).1))
  case stvIndex => exact stvIndex_row (order_ne_three (.inr (Bool.and_eq_true_iff.1 h).1))
  case csrrd =>
    refine csrrd_row ?_
    simp only [WellFormed, BitVec.le_def, Bool.not_eq_true', Bool.and_eq_false_iff, decide_eq_false_iff_not] at h
    simp at h
    omega
  all_goals simp

/-- What a word decodes to is encoded by the bits of the word that were decoded, all of them (R88). -/
theorem encode_of_decodeRaw {w : Nat} {i : Instr} (h : decodeRaw w = some i) (hi : WellFormed i = true) :
    encode i = w % 2 ^ wordBits w := by
  obtain ⟨hm, hn⟩ := decodeRaw_exact w i h
  rw [(row_of_wellFormed hi).encode_eq, ← (matches_iff _).1 hm, hn, field_low]
theorem matches_layout_encode {i : Instr} (h : WellFormed i = true) : Matches (encode i) 0 (layout i) := by
  rw [matches_iff, field_low, (row_of_wellFormed h).encode_eq, Nat.mod_eq_of_lt (pack_lt _)]
theorem decodeRaw_encode {i : Instr} (h : WellFormed i = true) : decodeRaw (encode i) = some i :=
  (row_of_wellFormed h).reads _ (matches_layout_encode h)
theorem encode_mod_wordBits {i : Instr} (h : WellFormed i = true) : encode i % 2 ^ wordBits (encode i) = encode i :=
  (encode_of_decodeRaw (decodeRaw_encode h) h).symm

end Sys2Proof.Encoding

namespace Sys2Proof.Settled
open Sys2Proof.Encoding

/-- Settles O46: an instruction's word is laid out by its row's pieces, from which the decoder reads the instruction back. -/
theorem roundTrip : Obligations.RoundTrip := by
  intro i h
  rw [decodeWord_eq, encode_mod_wordBits h, decodeRaw_encode h]
  exact onlyWellFormed_eq_some.2 ⟨rfl, h⟩

/-- Settles O47: the guards and the operand fields of a row cover its word, so that no bit of it is left unread. -/
theorem decodeOnlyEncoded : Obligations.DecodeOnlyEncoded := by
  intro w i h
  rw [decodeWord_eq] at h
  obtain ⟨hraw, hi⟩ := onlyWellFormed_eq_some.1 h
  refine ⟨hi, (encode_of_decodeRaw hraw hi).trans ?_⟩
  have hbits : wordBits (w % 2 ^ wordBits w) = wordBits w := by
    rw [wordBits, startsLong_mod (sixteen_le_wordBits w), wordBits]
  rw [hbits, Nat.mod_mod, wordBits]
  have hlong : startsLong w = true ↔ w / 2 ^ 13 % 8 = 7 := startsLong_iff
  simp only [hlong]
  by_cases h7 : w / 2 ^ 13 % 8 = 7
  · rw [if_pos h7, if_pos h7]
  · rw [if_neg h7, if_neg h7]

end Sys2Proof.Settled
end


-- ==== Sys2Proof/Proofs/IntegerForms.lean ====
section
/-! SUPPORT. The exact values of the integer operations, cut to the width of their operands (R55, R91, R92, R94); settles O1 and
O7. -/
namespace Sys2Proof.Machine

/-! ## Exact values and words -/

/-- What an operation takes exactly of its operands, read unsigned and signed, is at every width the word that g takes of them. -/
def Means (f : Nat → Int → Int → Int → Int → Int) (g : (n : Nat) → BitVec n → BitVec n → BitVec n) : Prop :=
  ∀ (n : Nat) (x y : BitVec n), BitVec.ofInt n (f n x.toNat y.toNat x.toInt y.toInt) = g n x y

theorem ofInt_toNat {n : Nat} (x : BitVec n) : BitVec.ofInt n x.toNat = x := by
  rw [BitVec.ofInt_natCast, BitVec.ofNat_toNat, BitVec.setWidth_eq]
theorem means_add : Means addV (fun _ x y => x + y) := fun n x y => by
  rw [addV, BitVec.ofInt_add, ofInt_toNat, ofInt_toNat]
theorem means_sub : Means subV (fun _ x y => x - y) := fun n x y => by
  rw [subV, Int.sub_eq_add_neg, BitVec.ofInt_add, BitVec.ofInt_neg, ofInt_toNat, ofInt_toNat, ← BitVec.sub_eq_add_neg]
theorem means_mul : Means mulV (fun _ x y => x * y) := fun n x y => by
  rw [mulV, BitVec.ofInt_mul, ofInt_toNat, ofInt_toNat]
theorem emod_mul_self_ediv {a : Int} (h : 0 < a) (p : Int) : p % (a * a) / a = p / a % a := by
  have hsplit : p - a * a * (p / (a * a)) = p + a * -(a * (p / (a * a))) := by ring
  rw [Int.emod_def, hsplit, Int.add_mul_ediv_left _ _ h.ne', Int.emod_def, Int.ediv_ediv_of_nonneg h.le]
  ring
/-- The high half of an exact value's double word is its quotient by the width's power of two. -/
theorem setWidth_ofInt_ushiftRight (n : Nat) (p : Int) :
    (BitVec.ofInt (2 * n) p >>> n).setWidth n = BitVec.ofInt n (p / 2 ^ n) := by
  apply BitVec.eq_of_toNat_eq
  have hpos : (0 : Int) < 2 ^ n := by positivity
  have hsq : ((2 ^ (2 * n) : Nat) : Int) = 2 ^ n * 2 ^ n := by push_cast; ring
  have hm := Int.emod_nonneg p (mul_pos hpos hpos).ne'
  have hq := Int.emod_nonneg (p / 2 ^ n) hpos.ne'
  rw [BitVec.toNat_setWidth, BitVec.toNat_ushiftRight, BitVec.toNat_ofInt, BitVec.toNat_ofInt, Nat.shiftRight_eq_div_pow, hsq]
  zify
  rw [Int.toNat_of_nonneg hm, Int.toNat_of_nonneg hq, emod_mul_self_ediv hpos, Int.emod_emod]
theorem means_mulh : Means mulhV highS := fun n x y => by
  rw [mulhV, highS, BitVec.signExtend, BitVec.signExtend, ← BitVec.ofInt_mul, setWidth_ofInt_ushiftRight]
theorem means_mulhn : Means mulhnV highU := fun n x y => by
  rw [mulhnV, highU, ← setWidth_ofInt_ushiftRight, BitVec.ofInt_mul, BitVec.ofInt_natCast, BitVec.ofInt_natCast,
    BitVec.ofNat_toNat, BitVec.ofNat_toNat]
theorem means_min : Means minV (fun _ x y => if x.sle y then x else y) := fun n x y => by
  simp only [minV, BitVec.sle_iff_toInt_le, apply_ite (BitVec.ofInt n), BitVec.ofInt_toInt]
theorem means_max : Means maxV (fun _ x y => if x.sle y then y else x) := fun n x y => by
  simp only [maxV, BitVec.sle_iff_toInt_le, apply_ite (BitVec.ofInt n), BitVec.ofInt_toInt]
theorem means_minn : Means minnV (fun _ x y => if x ≤ y then x else y) := fun n x y => by
  simp only [minnV, BitVec.le_def, Int.ofNat_le, apply_ite (BitVec.ofInt n), ofInt_toNat]
theorem means_maxn : Means maxnV (fun _ x y => if x ≤ y then y else x) := fun n x y => by
  simp only [maxnV, BitVec.le_def, Int.ofNat_le, apply_ite (BitVec.ofInt n), ofInt_toNat]
theorem means_slt : Means sltV (fun n x y => if x.slt y then 1#n else 0) := fun n x y => by
  simp only [sltV, BitVec.slt_iff_toInt_lt, apply_ite (BitVec.ofInt n)]
  rfl
theorem means_sltn : Means sltnV (fun n x y => if x < y then 1#n else 0) := fun n x y => by
  simp only [sltnV, BitVec.lt_def, Int.ofNat_lt, apply_ite (BitVec.ofInt n)]
  rfl
theorem means_seq : Means seqV (fun n x y => if x = y then 1#n else 0) := fun n x y => by
  simp only [seqV, Int.ofNat_inj, BitVec.toNat_inj, apply_ite (BitVec.ofInt n)]
  rfl
theorem means_and : Means andV (fun _ x y => x &&& y) := fun n x y => by
  rw [andV, bitsOp, Int.toNat_natCast, Int.toNat_natCast, ← BitVec.toNat_and, ofInt_toNat]
theorem means_or : Means orV (fun _ x y => x ||| y) := fun n x y => by
  rw [orV, bitsOp, Int.toNat_natCast, Int.toNat_natCast, ← BitVec.toNat_or, ofInt_toNat]
theorem means_xor : Means xorV (fun _ x y => x ^^^ y) := fun n x y => by
  rw [xorV, bitsOp, Int.toNat_natCast, Int.toNat_natCast, ← BitVec.toNat_xor, ofInt_toNat]
theorem toNat_natCast_emod (y n : Nat) : ((y : Int) % n).toNat = y % n := by rw [← Int.natCast_mod, Int.toNat_natCast]
theorem means_shl : Means shlV (fun n x y => x <<< (y.toNat % n)) := fun n x y => by
  show _ = x <<< (y.toNat % n)
  rw [shlV, shiftL, toNat_natCast_emod, ← BitVec.mul_twoPow_eq_shiftLeft, BitVec.ofInt_mul, ofInt_toNat]
  congr 1
  apply BitVec.eq_of_toNat_eq
  rw [BitVec.toNat_twoPow, ← Nat.cast_ofNat, ← Nat.cast_pow, BitVec.ofInt_natCast, BitVec.toNat_ofNat]
theorem means_shr : Means shrV (fun n x y => x >>> (y.toNat % n)) := fun n x y => by
  show _ = x >>> (y.toNat % n)
  have hdiv : (x.toNat : Int) / 2 ^ (y.toNat % n) = (x >>> (y.toNat % n)).toNat := by
    rw [BitVec.toNat_ushiftRight, Nat.shiftRight_eq_div_pow]
    norm_cast
  rw [shrV, shiftR, toNat_natCast_emod, hdiv, ofInt_toNat]
theorem means_sra : Means sraV (fun n x y => x.sshiftRight (y.toNat % n)) := fun n x y => by
  show _ = x.sshiftRight (y.toNat % n)
  have hdiv : x.toInt / 2 ^ (y.toNat % n) = (x.sshiftRight (y.toNat % n)).toInt := by
    rw [BitVec.toInt_sshiftRight, Int.shiftRight_eq_div_pow]
    norm_cast
  rw [sraV, shiftR, toNat_natCast_emod, hdiv, BitVec.ofInt_toInt]

/-! ## The instructions -/

theorem narrow_atWidth {f : Nat → Int → Int → Int → Int → Int} {g : (n : Nat) → BitVec n → BitVec n → BitVec n}
    (h : Means f g) (w : BitVec 1) (x y : Word) :
    narrow (opWidth w) (f (opWidth w) (x.setWidth (opWidth w)).toNat (y.setWidth (opWidth w)).toNat
      (x.setWidth (opWidth w)).toInt (y.setWidth (opWidth w)).toInt) = atWidth w g x y := by
  rw [narrow, h, atWidth]
  rcases (by decide : ∀ w : BitVec 1, w = 0 ∨ w = 1) w with rfl | rfl
  · show (g 64 (x.setWidth 64) (y.setWidth 64)).signExtend 64 = g 64 x y
    rw [BitVec.signExtend_eq, BitVec.setWidth_eq, BitVec.setWidth_eq]
  · rfl
theorem int3_writesG {f : Nat → Int → Int → Int → Int → Int} {g : (n : Nat) → BitVec n → BitVec n → BitVec n}
    (h : Means f g) {s : State} (hs : s.plain = true) (len word : Nat) (d a b : BitVec 5) (w : BitVec 1) :
    int3 len word d a b w f s = writesG len s d (atWidth w g (s.me.getG a) (s.me.getG b)) := by
  rw [int3_plain hs, ← narrow_atWidth h]
  rfl
theorem intImm_writesG {f : Nat → Int → Int → Int → Int → Int} {g : (n : Nat) → BitVec n → BitVec n → BitVec n}
    (h : Means f g) {s : State} (hs : s.plain = true) (len word : Nat) (d a : BitVec 5) (w : BitVec 1) (imm : Word) :
    intImm len word d a w imm f s = writesG len s d (atWidth w g (s.me.getG a) imm) := by
  rw [intImm_plain hs, ← narrow_atWidth h]
  rfl

end Sys2Proof.Machine

namespace Sys2Proof.Settled
open Sys2Proof.Machine

/-- Settles O1: each of them writes its exact value, cut to the width. -/
theorem integerArithmetic : Obligations.IntegerArithmetic := by
  refine ⟨?add, ?sub, ?mul, ?mulh, ?mulhn, ?min, ?max, ?minn, ?maxn, ?slt, ?sltn, ?seq⟩ <;> intro s d a b w hs
  case add => exact int3_writesG means_add hs ..
  case sub => exact int3_writesG means_sub hs ..
  case mul => exact int3_writesG means_mul hs ..
  case mulh => exact int3_writesG means_mulh hs ..
  case mulhn => exact int3_writesG means_mulhn hs ..
  case min => exact int3_writesG means_min hs ..
  case max => exact int3_writesG means_max hs ..
  case minn => exact int3_writesG means_minn hs ..
  case maxn => exact int3_writesG means_maxn hs ..
  case slt => exact int3_writesG means_slt hs ..
  case sltn => exact int3_writesG means_sltn hs ..
  case seq => exact int3_writesG means_seq hs ..

/-- Settles O7: a 16-bit form is the 64-bit operation of its 32-bit form, with g[d] or g0 in the place of its missing operand and
an immediate in that of a register. -/
theorem shortIntegerForms : Obligations.ShortIntegerForms := by
  intro s d a i hs
  have hi : i.toNat % 64 = i.toNat := Nat.mod_eq_of_lt i.isLt
  have hg0 : s.me.getG 0#5 = 0 := s.me.getG_zero
  refine ⟨int3_writesG means_add hs .., int3_writesG means_sub hs .., int3_writesG means_and hs .., int3_writesG means_or hs ..,
    int3_writesG means_xor hs .., int3_writesG means_mul hs .., int3_writesG means_shl hs .., int3_writesG means_shr hs ..,
    int3_writesG means_sra hs .., ?move, intImm_writesG means_add hs .., ?addiZero, intImm_writesG means_and hs .., ?shli, ?shri,
    ?srai⟩
  case move => exact (int3_writesG means_or hs ..).trans (by simp [atWidth, hg0])
  case addiZero => exact (intImm_writesG means_add hs ..).trans (by simp [atWidth, hg0])
  case shli => exact (intImm_writesG means_shl hs ..).trans (by simp [atWidth, hi])
  case shri => exact (intImm_writesG means_shr hs ..).trans (by simp [atWidth, hi])
  case srai => exact (intImm_writesG means_sra hs ..).trans (by simp [atWidth, hi])

end Sys2Proof.Settled
end


-- ==== Sys2Proof/Proofs/VectorLanes.lean ====
section
/-! SUPPORT. What an operation on lanes leaves in each lane, and the flags that it raises (R57, R127); settles O29. -/
namespace Sys2Proof.Machine

/-! ## Lanes laid end to end -/

theorem laneW_mul (t : BitVec 3) : laneW t * (128 / laneW t) = 128 := by
  revert t
  decide
theorem laneAt_toNat (v : Vec) (w j : Nat) : (laneAt v w j).toNat = nbits v.toNat (w * j) w := by
  rw [laneAt, BitVec.extractLsb'_toNat, Nat.shiftRight_eq_div_pow, nbits]
theorem ofLanes_lt (w : Nat) (l : List Nat) : ofLanes w l < 2 ^ (w * l.length) := by
  induction l with
  | nil => simp [ofLanes]
  | cons x t ih =>
    have hx := Nat.mod_lt x (Nat.two_pow_pos w)
    rw [ofLanes, List.length_cons, Nat.mul_succ, Nat.add_comm (w * _), pow_add]
    calc x % 2 ^ w + 2 ^ w * ofLanes w t < 2 ^ w * (ofLanes w t + 1) := by rw [mul_add, mul_one]; omega
      _ ≤ 2 ^ w * 2 ^ (w * t.length) := Nat.mul_le_mul_left _ ih
theorem nbits_ofLanes (w : Nat) (l : List Nat) {j : Nat} (h : j < l.length) : nbits (ofLanes w l) (w * j) w = l[j] % 2 ^ w := by
  induction l generalizing j with
  | nil => simp at h
  | cons x t ih =>
    have hx := Nat.mod_lt x (Nat.two_pow_pos w)
    cases j with
    | zero => simp [nbits, ofLanes]
    | succ j =>
      rw [List.getElem_cons_succ, ← ih (by simpa using h)]
      rw [nbits, ofLanes, Nat.mul_succ, Nat.add_comm (w * j), pow_add, ← Nat.div_div_eq_div_mul,
        Nat.add_mul_div_left _ _ (Nat.two_pow_pos w), Nat.div_eq_of_lt hx, Nat.zero_add, nbits]
/-- A lane of a register made from lanes is the one that stands there. -/
theorem laneAt_ofLanes {w : Nat} {l : List Nat} (hw : w * l.length = 128) {j : Nat} (h : j < l.length) :
    laneAt (BitVec.ofNat 128 (ofLanes w l)) w j = BitVec.ofNat w l[j] := by
  apply BitVec.eq_of_toNat_eq
  have hlt := ofLanes_lt w l
  rw [hw] at hlt
  rw [laneAt_toNat, BitVec.toNat_ofNat, Nat.mod_eq_of_lt hlt, nbits_ofLanes w l h, BitVec.toNat_ofNat]

/-! ## Vector operations on plain registers -/

section
variable {s : State} (hs : s.plain = true) (len word : Nat) (d a b : BitVec 4)
include hs

theorem vecBits_writesV (f : Vec → Vec → Vec) :
    vecBits len word d a b f s = writesV len s d (f (s.me.getV a) (s.me.getV b)) 0 := by
  have hfl (x : Ctx) : x.flagged 0 = x := by simp [Ctx.flagged]
  rw [vecBits, withRegs_plain hs, State.writeV_plain hs, writesV, hfl]
  rfl
theorem State.vOut_plain (w : Nat) (r : List (Nat × FFlags)) :
    s.vOut d w r =
      s.setMe ((s.me.setV d (BitVec.ofNat 128 (ofLanes w (r.map (·.1))))).flagged (r.foldl (fun a x => a ||| x.2) 0)) := by
  rw [State.vOut, State.writeV_plain hs, State.addFlags, State.withCtl, State.me_setMe, State.setMe_setMe]
  rfl
end

/-- What a lane operation takes of the lanes that stand at one place. -/
def laneOp (s : State) (c : Nat) (t : BitVec 3) (fi : Nat → Nat → Nat → Nat → Nat)
    (ff : Fmt → Rnd → Nat → Nat → Nat × FFlags) (a b : BitVec 4) (j : Nat) : Nat × FFlags :=
  let x := (laneAt (s.me.getV a) (laneW t) j).toNat
  let y := (laneAt (s.me.getV b) (laneW t) j).toNat
  if isIntLane t then (fi (laneW t) c x y, 0) else ff (laneFmt t) (vMode s.me.ctl) x y

theorem vec3_writesV {s : State} (hs : s.plain = true) (len word : Nat) (d a b : BitVec 4) (c : Nat) (t : BitVec 3)
    (fi : Nat → Nat → Nat → Nat → Nat) (ff : Fmt → Rnd → Nat → Nat → Nat × FFlags) :
    ∃ r : Vec, vec3 len word d a b c t fi ff s =
        writesV len s d r ((List.range (128 / laneW t)).foldl (fun fl j => fl ||| (laneOp s c t fi ff a b j).2) 0) ∧
      ∀ j < 128 / laneW t, laneAt r (laneW t) j = BitVec.ofNat (laneW t) (laneOp s c t fi ff a b j).1 := by
  have hmap : ((s.vLanes a t).zip (s.vLanes b t)).map (fun p : Nat × Nat =>
      if isIntLane t then (fi (laneW t) c p.1 p.2, 0) else ff (laneFmt t) (vMode s.me.ctl) p.1 p.2) =
      (List.range (128 / laneW t)).map (laneOp s c t fi ff a b) := by
    simp only [State.vLanes, lanes, List.zip_map', List.map_map, ← laneAt_toNat]
    rfl
  refine ⟨BitVec.ofNat 128 (ofLanes (laneW t) ((List.range (128 / laneW t)).map fun j => (laneOp s c t fi ff a b j).1)), ?_, ?_⟩
  · rw [vec3, withRegs_plain hs]
    simp only [hmap]
    rw [State.vOut_plain hs, List.map_map, List.foldl_map]
    rfl
  · intro j hj
    rw [laneAt_ofLanes (by simpa using laneW_mul t) (by simpa using hj), List.getElem_map, List.getElem_range]

/-! ## The claims' two forms -/

theorem foldl_or_zero {α : Type} (l : List α) : l.foldl (fun (fl : FFlags) _ => fl ||| 0) 0 = 0 := by
  induction l with
  | nil => rfl
  | cons x t ih => exact ih
theorem lanesInt_of_vec3 {i : Instr} {s : State} {len word : Nat} {d a b : BitVec 4} {c : Nat} {t : BitVec 3}
    {fi : Nat → Nat → Nat → Nat → Nat} {ff : Fmt → Rnd → Nat → Nat → Nat × FFlags}
    {f : BitVec (laneW t) → BitVec (laneW t) → BitVec (laneW t)}
    (hi : exec i s = vec3 len word d a b c t fi ff s) (hs : s.plain = true) (ht : isIntLane t = true)
    (hf : ∀ x y, BitVec.ofNat (laneW t) (fi (laneW t) c x.toNat y.toNat) = f x y) : LanesInt len i s d a b (laneW t) f := by
  obtain ⟨r, hr, hl⟩ := vec3_writesV hs len word d a b c t fi ff
  simp only [laneOp, ht, if_true, foldl_or_zero, hf] at hr hl
  exact ⟨r, hi.trans hr, hl⟩
theorem lanesFloat_of_vec3 {i : Instr} {s : State} {len word : Nat} {d a b : BitVec 4} {c : Nat} {t : BitVec 3}
    {fi : Nat → Nat → Nat → Nat → Nat} {ff : Fmt → Rnd → Nat → Nat → Nat × FFlags}
    {f : Nat → Nat → Nat × FFlags} (hi : exec i s = vec3 len word d a b c t fi ff s) (hs : s.plain = true)
    (ht : isIntLane t = false)     (hf : ff (laneFmt t) (vMode s.me.ctl) = f) : LanesFloat len i s d a b (laneW t) f := by
  obtain ⟨r, hr, hl⟩ := vec3_writesV hs len word d a b c t fi ff
  simp only [laneOp, ht, hf] at hr hl
  exact ⟨r, hi.trans hr, hl⟩

theorem ofNat_laneSat_wrap (w : Nat) (v : Int) : BitVec.ofNat w (laneSat w 0 v) = BitVec.ofInt w v := by
  apply BitVec.eq_of_toNat_eq
  rw [BitVec.toNat_ofNat, laneSat, if_pos rfl, Nat.mod_eq_of_lt (BitVec.isLt _)]
/-- Sums and differences of lanes wrap (R126). -/
theorem vAddI_wrap {w : Nat} (x y : BitVec w) :
    BitVec.ofNat w (vAddI false w 0 x.toNat y.toNat) = x + y ∧ BitVec.ofNat w (vAddI true w 0 x.toNat y.toNat) = x - y := by
  simp [vAddI, ofNat_laneSat_wrap, laneInt, BitVec.ofInt_add, Int.sub_eq_add_neg, BitVec.ofInt_neg, BitVec.sub_eq_add_neg]

/-! ## The 16-bit forms on lanes (R75) -/

section
variable {s : State} (hs : s.plain = true) (d a : BitVec 4)
include hs

theorem lanesFloat_of_cv {i : Instr} {word : Nat} {fi : Nat → Nat → Nat → Nat → Nat}
    {ff : Fmt → Rnd → Nat → Nat → Nat × FFlags}
    (hi : exec i s = vec3 2 word d d a 0 4 fi ff s) : LanesFloat 2 i s d d a 32 (ff f32 (arithMode s.me.ctl 7)) :=
  lanesFloat_of_vec3 (t := 4) hi hs rfl rfl
theorem vorCv_writesV : exec (.vorCv d a) s = writesV 2 s d (s.me.getV a) 0 := by
  refine (vecBits_writesV hs 2 _ d a a fun x y => x ||| y).trans ?_
  rw [BitVec.or_self]
theorem vandCv_writesV : exec (.vandCv d a) s = writesV 2 s d (s.me.getV d &&& s.me.getV a) 0 :=
  vecBits_writesV hs 2 _ d d a fun x y => x &&& y
theorem vxorCv_writesV : exec (.vxorCv d a) s = writesV 2 s d (s.me.getV d ^^^ s.me.getV a) 0 :=
  vecBits_writesV hs 2 _ d d a fun x y => x ^^^ y
theorem vnotCv_writesV : exec (.vnotCv d a) s = writesV 2 s d (~~~s.me.getV a) 0 :=
  vecBits_writesV hs 2 _ d a a fun x _ => ~~~x
theorem vaddS32Cv_lanes : LanesInt 2 (.vaddS32Cv d a) s d d a 32 (· + ·) :=
  lanesInt_of_vec3 (t := 2) (i := .vaddS32Cv d a) rfl hs rfl fun x y => (vAddI_wrap x y).1
theorem vsubS32Cv_lanes : LanesInt 2 (.vsubS32Cv d a) s d d a 32 (· - ·) :=
  lanesInt_of_vec3 (t := 2) (i := .vsubS32Cv d a) rfl hs rfl fun x y => (vAddI_wrap x y).2
theorem vaddF32Cv_lanes : LanesFloat 2 (.vaddF32Cv d a) s d d a 32 (f32.add (arithMode s.me.ctl 7)) :=
  lanesFloat_of_cv hs d a (i := .vaddF32Cv d a) (ff := fun f m x y => f.add m x y) rfl
theorem vsubF32Cv_lanes : LanesFloat 2 (.vsubF32Cv d a) s d d a 32 (f32.sub (arithMode s.me.ctl 7)) :=
  lanesFloat_of_cv hs d a (i := .vsubF32Cv d a) (ff := fun f m x y => f.sub m x y) rfl
theorem vmulF32Cv_lanes : LanesFloat 2 (.vmulF32Cv d a) s d d a 32 (f32.mul (arithMode s.me.ctl 7)) :=
  lanesFloat_of_cv hs d a (i := .vmulF32Cv d a) (ff := fun f m x y => f.mul m x y) rfl
theorem vmaxF32Cv_lanes : LanesFloat 2 (.vmaxF32Cv d a) s d d a 32 (f32.minmax true) :=
  lanesFloat_of_cv hs d a (i := .vmaxF32Cv d a) (ff := fun f _ x y => f.minmax true x y) rfl
theorem vminF32Cv_lanes : LanesFloat 2 (.vminF32Cv d a) s d d a 32 (f32.minmax false) :=
  lanesFloat_of_cv hs d a (i := .vminF32Cv d a) (ff := fun f _ x y => f.minmax false x y) rfl
end

end Sys2Proof.Machine

namespace Sys2Proof.Settled
open Sys2Proof.Machine

/-- Settles O29: a CV form is its 32-bit form with v[d] in the place of the missing source, two bytes long. -/
theorem shortVectorForms : Obligations.ShortVectorForms := fun _ d a hs =>
  ⟨vorCv_writesV hs d a, vandCv_writesV hs d a, vxorCv_writesV hs d a, vnotCv_writesV hs d a, vaddS32Cv_lanes hs d a,
    vsubS32Cv_lanes hs d a, vaddF32Cv_lanes hs d a, vsubF32Cv_lanes hs d a, vmulF32Cv_lanes hs d a, vmaxF32Cv_lanes hs d a,
    vminF32Cv_lanes hs d a⟩

end Sys2Proof.Settled
end


-- ==== Sys2Proof/Proofs/ControlRegisters.lean ====
section
/-! SUPPORT. The control registers by number: what each reads as, what a write leaves in it and in the others, and what else a
control-register instruction leaves (R59, R61, R247, R299); settles O36 and O37. -/
namespace Sys2Proof.Machine

/-! ## The numbers of R61 -/

/-- The numbers of the control registers in the order of R61's table. -/
def crNumbers : List Nat :=
  [0x000, 0x001, 0x002, 0x003, 0x004, 0x005, 0x006, 0x007, 0x008, 0x009, 0x010, 0x011, 0x012, 0x013, 0x014, 0x015, 0x016, 0x030,
    0x100, 0x101, 0x102, 0x103, 0x104, 0x105, 0x106] ++
  List.range' 0x018 4 ++ List.range' 0x01C 4 ++ List.range' 0x020 16

theorem readCr_win (s : State) (i : Fin 4) : s.readCr (0x018 + i.val) = (s.me.ctl.win.get i).setWidth 64 := by
  fin_cases i <;> rfl
theorem readCr_mbx (s : State) (i : Fin 4) : s.readCr (0x01C + i.val) = (s.me.ctl.mbx.get i).setWidth 64 := by
  fin_cases i <;> rfl
theorem readCr_rgn (s : State) (i : Fin 16) : s.readCr (0x020 + i.val) = s.me.ctl.rgn.get i := by
  fin_cases i <;> rfl
theorem readCr_ptroot (s : State) : s.readCr 0x104 = s.me.ctl.ptroot.setWidth 64 <<< 16 := by
  rw [← BitVec.mul_twoPow_eq_shiftLeft]
  rfl
theorem crTable_eq_map (s : State) : crTable s = crNumbers.map fun c => (c, s.readCr c) := by
  simp only [crTable, ← readCr_ptroot, ← readCr_win, ← readCr_mbx, ← readCr_rgn]
  rfl
theorem mem_crNumbers {c : Nat} : c ∈ crNumbers ↔ crnListed c = true := by
  simp [crNumbers, crnListed]
  omega
/-- The table lists the numbers that the model takes as listed, each with what it reads as. -/
theorem mem_crTable {s : State} {c : Nat} {w : Word} : (c, w) ∈ crTable s ↔ crnListed c = true ∧ w = s.readCr c := by
  rw [crTable_eq_map, List.mem_map]
  constructor
  · rintro ⟨k, hk, h⟩
    obtain ⟨rfl, rfl⟩ := Prod.mk.inj h
    exact ⟨mem_crNumbers.1 hk, rfl⟩
  · rintro ⟨hc, rfl⟩
    exact ⟨c, mem_crNumbers.2 hc, rfl⟩
theorem crnReadOnly_iff {c : Nat} : crnReadOnly c = true ↔ crFixed c := by
  simp [crnReadOnly, crFixed, or_assoc]
theorem crnSupervisor_iff {c : Nat} : crnSupervisor c = true ↔ crSv c := by
  simp [crnSupervisor, crSv]

/-! ## Fields of a written word as masks -/

theorem toNat_and_low (v : Word) {n : Nat} (h : n ≤ 64) : (v &&& BitVec.ofNat 64 (2 ^ n - 1)).toNat = v.toNat % 2 ^ n := by
  have hle : 2 ^ n ≤ 2 ^ 64 := Nat.pow_le_pow_right (by decide) h
  have hpos := Nat.two_pow_pos n
  rw [BitVec.toNat_and, BitVec.toNat_ofNat, Nat.mod_eq_of_lt (a := 2 ^ n - 1) (by omega), Nat.and_two_pow_sub_one_eq_mod]
theorem setWidth_setWidth_eq_and (v : Word) {n : Nat} (h : n ≤ 64) :
    (v.setWidth n).setWidth 64 = v &&& BitVec.ofNat 64 (2 ^ n - 1) := by
  have hle : 2 ^ n ≤ 2 ^ 64 := Nat.pow_le_pow_right (by decide) h
  apply BitVec.eq_of_toNat_eq
  rw [toNat_and_low v h, BitVec.toNat_setWidth, BitVec.toNat_setWidth,
    Nat.mod_eq_of_lt ((Nat.mod_lt _ (Nat.two_pow_pos n)).trans_le hle)]
theorem fld_zero_eq_toNat_and (v : Word) {n : Nat} (h : n ≤ 64) : fld v 0 n = (v &&& BitVec.ofNat 64 (2 ^ n - 1)).toNat := by
  rw [toNat_and_low v h, fld, nbits, pow_zero, Nat.div_one]
theorem toNat_and_high (v : Word) (n : Nat) : (v &&& BitVec.allOnes 64 <<< n).toNat = v.toNat / 2 ^ n * 2 ^ n := by
  have hle : v.toNat / 2 ^ n * 2 ^ n < 2 ^ 64 := (Nat.div_mul_le_self _ _).trans_lt v.isLt
  rw [← BitVec.shiftLeft_ushiftRight, BitVec.toNat_shiftLeft, BitVec.toNat_ushiftRight, Nat.shiftRight_eq_div_pow,
    Nat.shiftLeft_eq, Nat.mod_eq_of_lt hle]
theorem sqdepth_written (v : Word) :
    (if fld v 0 5 = 0 then 1 else if 16 < fld v 0 5 then 16 else BitVec.ofNat 5 (fld v 0 5) : BitVec 5).setWidth 64 =
      if v &&& 31 = 0 then 1 else if (v &&& 31).toNat ≤ 16 then v &&& 31 else 16 := by
  have h : fld v 0 5 = (v &&& 31).toNat := fld_zero_eq_toNat_and v (n := 5) (by decide)
  have hz : v &&& 31 = 0 ↔ (v &&& 31).toNat = 0 := (BitVec.toNat_inj (y := (0 : Word))).symm
  have hlt : (v &&& 31).toNat < 32 := (toNat_and_low v (n := 5) (by decide)).trans_lt (Nat.mod_lt _ (by decide))
  rw [h]
  generalize v &&& 31 = x at *
  simp only [hz, apply_ite (BitVec.setWidth 64)]
  split
  · rfl
  · split
    · rw [if_neg (by omega)]
      rfl
    · rw [if_pos (by omega)]
      exact BitVec.eq_of_toNat_eq (by simp; omega)
theorem frm_written (v : Word) (old : BitVec 4) :
    (if 6 ≤ fld v 0 3 then (old &&& 7) ||| (v.setWidth 4 &&& 8) else v.setWidth 4).setWidth 64 =
      if (v &&& 7).toNat < 6 then v &&& 15 else (old.setWidth 64 &&& 7) ||| (v &&& 8) := by
  have h : fld v 0 3 = (v &&& 7).toNat := fld_zero_eq_toNat_and v (n := 3) (by decide)
  have h4 : (v.setWidth 4).setWidth 64 = v &&& 15 := setWidth_setWidth_eq_and v (n := 4) (by decide)
  rw [h]
  split
  · rw [if_neg (by omega), BitVec.setWidth_or, BitVec.setWidth_and, BitVec.setWidth_and, h4, BitVec.and_assoc]
    rfl
  · rw [if_pos (by omega), h4]
theorem nonzero_written (v : Word) {n : Nat} (h : (1 : BitVec n).setWidth 64 = 1) (h' : n ≤ 64) :
    (if v.setWidth n = 0 then 1 else v.setWidth n).setWidth 64 =
      if v &&& BitVec.ofNat 64 (2 ^ n - 1) = 0 then 1 else v &&& BitVec.ofNat 64 (2 ^ n - 1) := by
  have hz : v.setWidth n = 0 ↔ v &&& BitVec.ofNat 64 (2 ^ n - 1) = 0 := by
    rw [← BitVec.toNat_inj, ← BitVec.toNat_inj, toNat_and_low v h', BitVec.toNat_setWidth]
    rfl
  rw [← setWidth_setWidth_eq_and v h'] at *
  split
  · rw [if_pos (hz.1 ‹_›), h]
  · rw [if_neg (hz.not.1 ‹_›)]
theorem win_written (v : Word) : (if 4 < fld v 0 3 then 4 else v.setWidth 3 : BitVec 3).setWidth 64 =
      if (v &&& 7).toNat ≤ 4 then v &&& 7 else 4 := by
  have h : fld v 0 3 = (v &&& 7).toNat := fld_zero_eq_toNat_and v (n := 3) (by decide)
  rw [h]
  split
  · rw [if_neg (by omega)]
    rfl
  · rw [if_pos (by omega)]
    exact setWidth_setWidth_eq_and v (n := 3) (by decide)
theorem rgn_written (v : Word) : BitVec.ofNat 64 (v.toNat / 8 * 8) = v &&& 0xFFFFFFFFFFFFFFF8 := by
  have h : v.toNat / 8 * 8 = (v &&& BitVec.allOnes 64 <<< 3).toNat := (toNat_and_high v 3).symm
  rw [h, BitVec.ofNat_toNat, BitVec.setWidth_eq]
  rfl
theorem epc_written (v : Word) : BitVec.ofNat 64 (v.toNat % 2 ^ 56 / 2 * 2) = v &&& 0x00FFFFFFFFFFFFFE := by
  have h (x : Word) : x.toNat / 2 * 2 = (x &&& BitVec.allOnes 64 <<< 1).toNat := (toNat_and_high x 1).symm
  rw [← toNat_and_low v (n := 56) (by decide), h, BitVec.ofNat_toNat, BitVec.setWidth_eq, BitVec.and_assoc]
  rfl
theorem ptroot_written (v : Word) : (BitVec.ofNat 48 (v.toNat / 65536)).setWidth 64 * 65536 = v &&& 0xFFFFFFFFFFFF0000 := by
  have h : v &&& (0xFFFFFFFFFFFF0000 : Word) = v &&& BitVec.allOnes 64 <<< 16 := rfl
  have hv := v.isLt
  apply BitVec.eq_of_toNat_eq
  rw [h, toNat_and_high]
  simp
  omega
theorem ones16_setWidth (v : Word) : ones16 (v.setWidth 16) = (List.range 16).countP v.getLsbD := by
  rw [ones16, ← List.countP_eq_length_filter]
  refine List.countP_congr fun i hi => ?_
  simp [List.mem_range.1 hi]
theorem fgmask_written (v : Word) (l : Ctl) :
    (if 8 < ones16 (v.setWidth 16) then l else { l with fgmask := v.setWidth 16 }).fgmask.setWidth 64 =
      if (List.range 16).countP v.getLsbD ≤ 8 then v &&& 0xFFFF else l.fgmask.setWidth 64 := by
  rw [ones16_setWidth]
  split
  · rw [if_neg (by omega)]
  · rw [if_pos (by omega)]
    exact setWidth_setWidth_eq_and v (n := 16) (by decide)

/-! ## What the registers read as after one is written -/

theorem exists_fin_add {a n k : Nat} (h : a ≤ k) (h' : k < a + n) : ∃ i : Fin n, k = a + i.val :=
  ⟨⟨k - a, by omega⟩, by simp; omega⟩
theorem writeCr_win (s : State) (i : Fin 4) (v : Word) : s.writeCr (0x018 + i.val) v =
    s.withCtl fun l => { l with win := l.win.set i.val (if 4 < fld v 0 3 then 4 else v.setWidth 3) } := by
  fin_cases i <;> rfl
theorem writeCr_mbx (s : State) (i : Fin 4) (v : Word) : s.writeCr (0x01C + i.val) v =
    s.withCtl fun l => { l with mbx := l.mbx.set i.val (v.setWidth 32) } := by
  fin_cases i <;> rfl
theorem writeCr_rgn (s : State) (i : Fin 16) (v : Word) : s.writeCr (0x020 + i.val) v =
    s.withCtl fun l => { l with rgn := l.rgn.set i.val (BitVec.ofNat 64 (v.toNat / 8 * 8)) } := by
  fin_cases i <;> rfl


@[simp] theorem State.here_withCtl_pkey (s : State) (f : Ctl → Ctl) : (s.withCtl f).here.pkey = s.here.pkey := by
  rw [State.withCtl, State.here_setMe, Core.setCtx]
@[simp] theorem State.here_withCtl_awt (s : State) (f : Ctl → Ctl) : (s.withCtl f).here.awt = s.here.awt := by
  rw [State.withCtl, State.here_setMe, Core.setCtx]


/-- The registers read as the context's control registers, the clock and the core's own two registers have it. -/
theorem crTable_congr {s t : State} (hl : t.me.ctl = s.me.ctl) (hn : t.now = s.now) (hp : t.here.pkey = s.here.pkey)
    (ha : t.here.awt = s.here.awt) : crTable t = crTable s := by
  simp only [crTable, State.cyc, hl, hn, hp, ha]

/-- An entry set in a numbered run of registers leaves the others' numbers and values. -/
theorem mem_map_get_set {α : Type} {n base k : Nat} {w : Word} (x : Vector α n) (i : Fin n) (y : α) (f : α → Word)
    (h : k ≠ base + i.val) :
    (k, w) ∈ (List.finRange n).map (fun j => (base + j.val, f ((x.set i.val y i.isLt).get j))) ↔
      (k, w) ∈ (List.finRange n).map (fun j => (base + j.val, f (x.get j))) := by
  have hget (j : Fin n) (hj : base + j.val = k) : (x.set i.val y i.isLt).get j = x.get j := by
    have hne : i.val ≠ j.val := by omega
    simp [Vector.get_eq_getElem, hne]
  simp only [List.mem_map, Prod.mk.injEq]
  exact exists_congr fun j => and_congr_right fun _ => and_congr_right fun hj => by rw [hget j hj]
theorem mem_crTable_writeCr_win {s : State} {k : Nat} {w : Word} (i : Fin 4) (v : Word) (h : k ≠ 0x018 + i.val) :
    (k, w) ∈ crTable (s.writeCr (0x018 + i.val) v) ↔ (k, w) ∈ crTable s := by
  rw [writeCr_win]
  simp only [crTable, State.cyc, State.me_withCtl, Ctx.withCtl_ctl, State.here_withCtl_pkey, State.here_withCtl_awt,
    State.withCtl_now,
    List.mem_append, mem_map_get_set s.me.ctl.win i _ (BitVec.setWidth 64) h]
theorem mem_crTable_writeCr_mbx {s : State} {k : Nat} {w : Word} (i : Fin 4) (v : Word) (h : k ≠ 0x01C + i.val) :
    (k, w) ∈ crTable (s.writeCr (0x01C + i.val) v) ↔ (k, w) ∈ crTable s := by
  rw [writeCr_mbx]
  simp only [crTable, State.cyc, State.me_withCtl, Ctx.withCtl_ctl, State.here_withCtl_pkey, State.here_withCtl_awt,
    State.withCtl_now,
    List.mem_append, mem_map_get_set s.me.ctl.mbx i _ (BitVec.setWidth 64) h]
theorem mem_crTable_writeCr_rgn {s : State} {k : Nat} {w : Word} (i : Fin 16) (v : Word) (h : k ≠ 0x020 + i.val) :
    (k, w) ∈ crTable (s.writeCr (0x020 + i.val) v) ↔ (k, w) ∈ crTable s := by
  rw [writeCr_rgn]
  simp only [crTable, State.cyc, State.me_withCtl, Ctx.withCtl_ctl, State.here_withCtl_pkey, State.here_withCtl_awt,
    State.withCtl_now,
    List.mem_append, mem_map_get_set s.me.ctl.rgn i _ (fun x => x) h]
theorem mem_crTable_writeCr {s : State} {c k : Nat} {w : Word} (v : Word) (h : k ≠ c) :
    (k, w) ∈ crTable (s.writeCr c v) ↔ (k, w) ∈ crTable s := by
  by_cases hwin : 0x018 ≤ c ∧ c < 0x01C
  · obtain ⟨i, rfl⟩ := exists_fin_add (n := 4) hwin.1 hwin.2
    exact mem_crTable_writeCr_win i v h
  by_cases hmbx : 0x01C ≤ c ∧ c < 0x020
  · obtain ⟨i, rfl⟩ := exists_fin_add (n := 4) hmbx.1 hmbx.2
    exact mem_crTable_writeCr_mbx i v h
  by_cases hrgn : 0x020 ≤ c ∧ c < 0x030
  · obtain ⟨i, rfl⟩ := exists_fin_add (n := 16) hrgn.1 hrgn.2
    exact mem_crTable_writeCr_rgn i v h
  unfold State.writeCr
  split
  case h_16 => simp [hwin, hmbx, hrgn]
  case h_15 =>
    have hme (x : BitVec 4) : (s.setHere { s.here with awt := x }).me = s.me := by rw [State.me_setHere]; rfl
    simp only [crTable, State.cyc, hme, State.here_setHere, State.setHere_now,
      List.mem_append, List.mem_cons, Prod.mk.injEq, h, false_and, false_or]
  case h_13 =>
    simp only [crTable, State.cyc, State.me_withCtl, Ctx.withCtl_ctl, State.here_withCtl_pkey, State.here_withCtl_awt,
    State.withCtl_now,
      List.mem_append, List.mem_cons, Prod.mk.injEq, h, false_and, false_or]
    split <;> rfl
  all_goals
    simp only [crTable, State.cyc, State.me_withCtl, Ctx.withCtl_ctl, State.here_withCtl_pkey, State.here_withCtl_awt,
    State.withCtl_now,
      List.mem_append, List.mem_cons, Prod.mk.injEq, h, false_and, false_or]

theorem mem_crTable_withSyncst {s : State} {k : Nat} {w : Word} {f : Ctl → BitVec 2} (h : k ≠ 7) :
    (k, w) ∈ crTable (s.withCtl fun l => { l with syncst := f l }) ↔ (k, w) ∈ crTable s := by
  simp only [crTable, State.cyc, State.me_withCtl, Ctx.withCtl_ctl, State.here_withCtl_pkey, State.here_withCtl_awt,
    State.withCtl_now,
    List.mem_append, List.mem_cons, Prod.mk.injEq, h, false_and, false_or]

theorem listed_writable_cases {c : Nat} (hc : crnListed c = true) (hf : ¬crFixed c) (h7 : c ≠ 7) :
    (c = 0x008 ∨ c = 0x009 ∨ c = 0x010 ∨ c = 0x011 ∨ c = 0x012 ∨ c = 0x013 ∨ c = 0x014 ∨ c = 0x015 ∨ c = 0x016 ∨
      c = 0x030 ∨ c = 0x101 ∨ c = 0x102 ∨ c = 0x103 ∨ c = 0x104 ∨ c = 0x105) ∨
    (∃ i : Fin 4, c = 0x018 + i.val) ∨ (∃ i : Fin 4, c = 0x01C + i.val) ∨ ∃ i : Fin 16, c = 0x020 + i.val := by
  simp [crnListed] at hc
  simp [crFixed] at hf
  by_cases hwin : 0x018 ≤ c ∧ c < 0x01C
  · exact .inr (.inl (exists_fin_add hwin.1 hwin.2))
  by_cases hmbx : 0x01C ≤ c ∧ c < 0x020
  · exact .inr (.inr (.inl (exists_fin_add hmbx.1 hmbx.2)))
  by_cases hrgn : 0x020 ≤ c ∧ c < 0x030
  · exact .inr (.inr (.inr (exists_fin_add hrgn.1 hrgn.2)))
  omega

theorem crWritten_win (i : Fin 4) (old v : Word) :
    crWritten (0x018 + i.val) old v = if (v &&& 7).toNat ≤ 4 then v &&& 7 else 4 := by
  fin_cases i <;> rfl
theorem crWritten_mbx (i : Fin 4) (old v : Word) : crWritten (0x01C + i.val) old v = v &&& 0xFFFFFFFF := by
  fin_cases i <;> rfl
theorem crWritten_rgn (i : Fin 16) (old v : Word) : crWritten (0x020 + i.val) old v = v &&& 0xFFFFFFFFFFFFFFF8 := by
  fin_cases i <;> rfl
/-- A register reads as its write rule has it once it is written. -/
theorem readCr_writeCr_same {s : State} {c : Nat} (hc : crnListed c = true) (hf : ¬crFixed c) (h7 : c ≠ 7) (v : Word) :
    (s.writeCr c v).readCr c = crWritten c (s.readCr c) v := by
  rcases listed_writable_cases hc hf h7 with hlit | ⟨i, rfl⟩ | ⟨i, rfl⟩ | ⟨i, rfl⟩
  · rcases hlit with rfl | rfl | rfl | rfl | rfl | rfl | rfl | rfl | rfl | rfl | rfl | rfl | rfl | rfl | rfl <;>
      simp only [State.writeCr, State.readCr, State.me_withCtl, Ctx.withCtl_ctl, State.here_setHere]
    · exact setWidth_setWidth_eq_and v (n := 16) (by decide)
    · exact sqdepth_written v
    · exact setWidth_setWidth_eq_and v (n := 5) (by decide)
    · exact frm_written v s.me.ctl.frm
    · exact nonzero_written v (n := 32) rfl (by decide)
    · exact setWidth_setWidth_eq_and v (n := 1) (by decide)
    · exact setWidth_setWidth_eq_and v (n := 32) (by decide)
    · exact setWidth_setWidth_eq_and v (n := 32) (by decide)
    · rfl
    · exact setWidth_setWidth_eq_and v (n := 16) (by decide)
    · exact epc_written v
    · exact setWidth_setWidth_eq_and v (n := 2) (by decide)
    · exact fgmask_written v s.me.ctl
    · exact ptroot_written v
    · exact nonzero_written v (n := 4) rfl (by decide)
  · rw [writeCr_win, readCr_win, crWritten_win, ← win_written]
    simp [Vector.get_eq_getElem]
  · rw [writeCr_mbx, readCr_mbx, crWritten_mbx]
    simp [Vector.get_eq_getElem]
    exact setWidth_setWidth_eq_and v (n := 32) (by decide)
  · rw [writeCr_rgn, readCr_rgn, crWritten_rgn, ← rgn_written]
    simp [Vector.get_eq_getElem]


/-! ## What a control-register instruction leaves -/

/-- `t` has the memory and the contexts of `s`, but for the acting one's control registers. -/
def CtlChange (s t : State) : Prop :=
  t.cur = s.cur ∧ t.mem = s.mem ∧ (∃ l, t.me = { s.me with ctl := l }) ∧
    ∀ e k, e ≠ s.cur.core ∨ k ≠ s.cur.ctx → t.ctxAt e k = s.ctxAt e k

theorem ctlChange_refl (s : State) : CtlChange s s := ⟨rfl, rfl, ⟨_, rfl⟩, fun _ _ _ => rfl⟩
theorem ctlChange_withCtl (s : State) (f : Ctl → Ctl) : CtlChange s (s.withCtl f) :=
  ⟨rfl, rfl, ⟨f s.me.ctl, State.me_withCtl s f⟩, fun _ _ h => State.ctxAt_setCtxAt_other s h _⟩
theorem ctlChange_setHere {s : State} {x : Core} (h : x.ctx = s.here.ctx) : CtlChange s (s.setHere x) := by
  have hctx (k : CtxId) : x.ctxAt k = s.here.ctxAt k := by rw [Core.ctxAt, h, Core.ctxAt]
  refine ⟨rfl, rfl, ⟨s.me.ctl, (State.me_setHere s x).trans (hctx _)⟩, fun e k _ => ?_⟩
  by_cases he : e = s.cur.core
  · rw [he]
    exact (congrArg (Core.ctxAt · k) (State.core_setCore s s.cur.core x)).trans (hctx k)
  · exact congrArg (Core.ctxAt · k) (State.core_setCore_other s he x)
theorem ctlChange_writeCr (s : State) (c : Nat) (v : Word) : CtlChange s (s.writeCr c v) := by
  unfold State.writeCr
  split
  case h_15 => exact ctlChange_setHere rfl
  case h_16 =>
    split
    · exact ctlChange_withCtl ..
    split
    · exact ctlChange_withCtl ..
    split
    · exact ctlChange_withCtl ..
    · exact ctlChange_refl s
  all_goals exact ctlChange_withCtl ..

theorem CtlChange.plain {s t : State} (h : CtlChange s t) (hs : s.plain = true) : t.plain = true := by
  obtain ⟨hcur, -, ⟨l, hme⟩, -⟩ := h
  rw [State.plain_iff, hcur, hme]
  exact State.plain_iff.1 hs
theorem readMbx_writeG {s : State} (hs : s.plain = true) (c : Nat) (d : BitVec 5) (w : Word) :
    ∃ a, (s.readMbx c).writeG d w = s.setMe ({ s.me with acqAt := a }.setG d w) ∧
      (0x01C ≤ c → c ≤ 0x01F → s.me.mbxAt ≤ a) := by
  by_cases hacq : (0x01C ≤ c ∧ c ≤ 0x01F) ∧ ¬s.me.mbxAt ≤ s.me.acqAt
  · refine ⟨s.me.mbxAt, ?_, fun _ _ => le_rfl⟩
    have hr : s.readMbx c = s.setMe { s.me with acqAt := s.me.mbxAt } := by simp [State.readMbx, State.acquired, hacq]
    have hp : (s.readMbx c).plain = true := by rw [hr, State.plain_iff, State.me_setMe]; exact State.plain_iff.1 hs
    rw [State.writeG_plain hp, hr, State.me_setMe, State.setMe_setMe]
  · have hr : s.readMbx c = s := by
      simp only [State.readMbx, State.acquired]
      grind
    exact ⟨s.me.acqAt, by rw [hr, State.writeG_plain hs], fun h h' => by grind⟩

theorem setG_g_congr {x y : Ctx} (h : y.g = x.g) (d : BitVec 5) (w : Word) : (y.setG d w).g = (x.setG d w).g := by
  by_cases hd : d = 0#5 <;> simp [Ctx.setG, hd, h]
theorem sameRegs_setG {x y : Ctx} (h : SameRegs x y) (d : BitVec 5) (w : Word) : SameRegs (x.setG d w) (y.setG d w) := by
  obtain ⟨hg, hf, hv, htm, hq⟩ := h
  exact ⟨setG_g_congr hg d w, by simpa using hf, by simpa using hv, by simpa using htm, by simpa using hq⟩
/-- What every control-register instruction on register c keeps, and the old value that it delivers (R247). -/
def CsrKept (s t : State) (d : BitVec 5) (c : Nat) : Prop :=
  GoesOn 4 s t ∧ SameRegs (s.me.setG d (s.readCr c)) t.me ∧ t.mem = s.mem ∧
    (∀ k w, k ≠ c → ((k, w) ∈ crTable s ↔ (k, w) ∈ crTable t)) ∧
    ∀ e k, e ≠ s.cur.core ∨ k ≠ s.cur.ctx → t.ctxAt e k = s.ctxAt e k
/-- Once register c alone has changed, delivering its old value and retiring changes no control register, and acquires what a read
of a mailbox counter counts. -/
theorem csr_leaves {s u : State} (h : CtlChange s u) (hs : s.plain = true) (hr : s.cur.replay = false) {c : Nat} (d : BitVec 5)
    (hk : ∀ k w, k ≠ c → ((k, w) ∈ crTable u ↔ (k, w) ∈ crTable s)) :
    let t := retire (.fall 4) ((u.readMbx c).writeG d (s.readCr c))
    CsrKept s t d c ∧ crTable t = crTable u ∧ (0x01C ≤ c → c ≤ 0x01F → s.me.mbxAt ≤ t.me.acqAt) := by
  obtain ⟨a, hw, ha⟩ := readMbx_writeG (h.plain hs) c d (s.readCr c)
  obtain ⟨hcur, hmem, ⟨l, hme⟩, hoth⟩ := h
  intro t
  have ht : t = u.setMe { { u.me with acqAt := a }.setG d (s.readCr c) with
      pc := (loopNext s.me.loop false (s.me.pc + BitVec.ofNat 64 4)).1
      loop := (loopNext s.me.loop false (s.me.pc + BitVec.ofNat 64 4)).2
      wait := none } := by
    simp only [t, hw]
    rw [retire_fall (by simp [hcur, hr]), State.me_setMe, State.setMe_setMe]
    simp [hme]
  have htme := congrArg State.me ht
  rw [State.me_setMe] at htme
  have htab : crTable t = crTable u := by
    refine crTable_congr (by simp [htme]) ?_ ?_ ?_
    · rw [ht, State.setMe_now]
    · rw [ht, State.here_setMe, Core.setCtx]
    · rw [ht, State.here_setMe, Core.setCtx]
  refine ⟨⟨⟨?_, ?_, ?_, ?_, ?_⟩, ?_, ?_, ?_, ?_⟩, htab, ?_⟩
  · rw [ht, State.setMe_cur, hcur]
  · rw [htme, retire_fall hr, State.me_setMe]
  · rw [htme, retire_fall hr, State.me_setMe]
  · simp [htme, hme]
  · rw [htme]
  · rw [htme]
    exact sameRegs_setG (y := { u.me with acqAt := a }) (by rw [hme]; exact ⟨rfl, rfl, rfl, rfl, rfl⟩) d _
  · rw [ht, State.setMe_mem, hmem]
  · intro k w h
    rw [htab, hk k w h]
  · intro e k hek
    rw [ht, State.setMe, State.ctxAt_setCtxAt_other _ (by rwa [hcur]), hoth e k hek]
  · simpa [htme, hme] using ha

/-! ## The instructions (R59, R247) -/

theorem illegal_csr (d a : BitVec 5) (c : BitVec 11) :
    illegal (wordI 0x3E c.toNat 0 d.toNat 0) = illegalOf (.csrrd d c) ∧
    illegal (wordI 0x3E c.toNat a.toNat d.toNat 1) = illegalOf (.csrwr d a c) ∧
    illegal (wordI 0x3E c.toNat a.toNat d.toNat 2) = illegalOf (.csrset d a c) ∧
    illegal (wordI 0x3E c.toNat a.toNat d.toNat 3) = illegalOf (.csrclr d a c) := by
  have hd := d.isLt
  have ha := a.isLt
  have hc := c.isLt
  have hword {w : Nat} {i : Instr} (h : w = encode i) (hlt : w < 2 ^ 32) : illegal w = illegalOf i := by
    rw [illegal, illegalOf, Nat.mod_eq_of_lt hlt, h]
  refine ⟨hword ?_ ?_, hword ?_ ?_, hword ?_ ?_, hword ?_ ?_⟩ <;> simp only [wordI, word32, encode] <;> omega

section
variable {s : State} {c : Nat}

theorem csrCheck_illegal {word : Nat} {write : Bool} (h : crnListed c = false ∨ (write = true ∧ crFixed c)) :
    csrCheck word c write s = some (illegal word) := by
  rcases h with h | ⟨hw, hf⟩
  · simp [csrCheck, h]
  · simp [csrCheck, hw, crnReadOnly_iff.2 hf]
theorem csrCheck_privilege {word : Nat} {write : Bool} (hc : crnListed c = true) (hf : write = true → ¬crFixed c) (hsv : crSv c)
    (hp : s.me.ctl.priv = 0) : csrCheck word c write s = some privilegeTrap := by
  have hro : (write && crnReadOnly c) = false := by
    rw [Bool.and_eq_false_imp]
    exact fun h => Bool.eq_false_iff.2 fun hr => hf h (crnReadOnly_iff.1 hr)
  simp [csrCheck, hc, hro, crnSupervisor_iff.2 hsv, hp]
theorem csrCheck_none {word : Nat} {write : Bool} (hc : crnListed c = true) (hf : write = true → ¬crFixed c)
    (hsv : crSv c → s.me.ctl.priv = 1) : csrCheck word c write s = none := by
  have hro : (write && crnReadOnly c) = false := by
    rw [Bool.and_eq_false_imp]
    exact fun h => Bool.eq_false_iff.2 fun hr => hf h (crnReadOnly_iff.1 hr)
  have hpriv : crnSupervisor c = true → ¬s.me.ctl.priv = 0 := by
    intro h
    rw [hsv (crnSupervisor_iff.1 h)]
    decide
  simpa [csrCheck, hc, hro] using hpriv
theorem checked_trap (t : Trap) (word : Nat) (rd wr : List Reg) (k : State → Res) :
    checked (some t) word rd wr s k = traps t s := rfl
theorem not_replaying_of_plain (hs : s.plain = true) (hr : s.cur.replay = false) : s.me.replaying = false := by
  obtain ⟨-, -, -, h⟩ := State.plain_iff.1 hs
  rw [Ctx.replaying, h.resolve_left (by simp [hr])]

end
theorem exec_csrrd (d : BitVec 5) (c : BitVec 11) (s : State) : exec (.csrrd d c) s = execCsrrd d c s := by rfl
theorem exec_csrwr (d a : BitVec 5) (c : BitVec 11) (s : State) :
    exec (.csrwr d a c) s = csrUpdate (wordI 0x3E c.toNat a.toNat d.toNat 1) 1 d a c (fun _ x => x) s := by rfl
theorem exec_csrset (d a : BitVec 5) (c : BitVec 11) (s : State) :
    exec (.csrset d a c) s = csrUpdate (wordI 0x3E c.toNat a.toNat d.toNat 2) 2 d a c (fun old x => old ||| x) s := by rfl
theorem exec_csrclr (d a : BitVec 5) (c : BitVec 11) (s : State) :
    exec (.csrclr d a c) s = csrUpdate (wordI 0x3E c.toNat a.toNat d.toNat 3) 3 d a c (fun old x => old &&& ~~~x) s := by rfl

/-- Every control-register instruction takes the trap that the check of R59 finds, before it reads its operands. -/
theorem csr_traps {s : State} {d a : BitVec 5} {c : BitVec 11} {t : Trap} {i : Instr} {write : Bool}
    (hi : (i = .csrrd d c ∧ write = false) ∨ (write = true ∧ (i = .csrwr d a c ∨ i = .csrset d a c ∨ i = .csrclr d a c)))
    (h : ∀ word, illegal word = illegalOf i → csrCheck word c.toNat write s = some t) : exec i s = traps t s := by
  obtain ⟨hrd, hwr, hset, hclr⟩ := illegal_csr d a c
  rcases hi with ⟨rfl, rfl⟩ | ⟨rfl, rfl | rfl | rfl⟩
  · rw [exec_csrrd, execCsrrd, h _ hrd, checked_trap]
  · rw [exec_csrwr, csrUpdate, h _ hwr, checked_trap]
  · rw [exec_csrset, csrUpdate, h _ hset, checked_trap]
  · rw [exec_csrclr, csrUpdate, h _ hclr, checked_trap]
theorem execCsrrd_next {s : State} (hs : s.plain = true) (hr : s.cur.replay = false) (d : BitVec 5) {c : BitVec 11}
    (hc : crnListed c.toNat = true) (hsv : crSv c.toNat → s.me.ctl.priv = 1) :
    execCsrrd d c s = .next (retire (.fall 4) ((s.readMbx c.toNat).writeG d (s.readCr c.toNat))) := by
  rw [execCsrrd, csrCheck_none hc (by simp) hsv, checked, withRegs_plain hs, not_replaying_of_plain hs hr, Bool.and_false,
    if_neg (by simp)]
  rfl
theorem csrUpdate_next {s : State} (hs : s.plain = true) (hr : s.cur.replay = false) (word m : Nat) (d a : BitVec 5)
    {c : BitVec 11} (f : Word → Word → Word) (hc : crnListed c.toNat = true) (hf : ¬crFixed c.toNat)
    (hsv : crSv c.toNat → s.me.ctl.priv = 1) (h7 : c.toNat ≠ 7) :
    csrUpdate word m d a c f s = .next (retire (.fall 4)
      (((s.writeCr c.toNat (f (s.readCr c.toNat) (s.me.getG a))).readMbx c.toNat).writeG d (s.readCr c.toNat))) := by
  rw [csrUpdate, csrCheck_none hc (fun _ => hf) hsv, checked, withRegs_plain hs, not_replaying_of_plain hs hr, Bool.and_false,
    if_neg (by simp)]
  simp only [h7, if_false]
  rfl
theorem csrUpdate_syncst {s : State} (hs : s.plain = true) (hr : s.cur.replay = false) (word m : Nat) (d a : BitVec 5)
    (f : Word → Word → Word) :
    csrUpdate word m d a 7 f s = .next (retire (.fall 4)
      (((if m = 3 then s else s.withCtl fun l => { l with syncst := l.syncst &&& ~~~((s.me.getG a).setWidth 2) }).readMbx 7).writeG d
        (s.readCr 7))) := by
  rw [csrUpdate, csrCheck_none rfl (by simp [crFixed]) (by simp [crSv]), checked, withRegs_plain hs, not_replaying_of_plain hs hr,
    Bool.and_false, if_neg (by simp)]
  rfl

section
variable {s : State} (hs : s.plain = true) (hr : s.cur.replay = false) (d a : BitVec 5) {c : BitVec 11}
include hs hr

theorem csrrd_leaves (hc : crnListed c.toNat = true) (hsv : crSv c.toNat → s.me.ctl.priv = 1) :
    ∃ t, exec (.csrrd d c) s = .next t ∧ CsrKept s t d c.toNat ∧ (c.toNat, s.readCr c.toNat) ∈ crTable t ∧
      (0x01C ≤ c.toNat → c.toNat ≤ 0x01F → s.me.mbxAt ≤ t.me.acqAt) := by
  obtain ⟨hkept, htab, hacq⟩ := csr_leaves (ctlChange_refl s) hs hr (c := c.toNat) d fun _ _ _ => Iff.rfl
  exact ⟨_, (exec_csrrd d c s).trans (execCsrrd_next hs hr d hc hsv), hkept, htab ▸ mem_crTable.2 ⟨hc, rfl⟩, hacq⟩
theorem csrUpdate_leaves (word m : Nat) (f : Word → Word → Word) (hc : crnListed c.toNat = true) (hf : ¬crFixed c.toNat)
    (hsv : crSv c.toNat → s.me.ctl.priv = 1) (h7 : c.toNat ≠ 7) :
    ∃ t, csrUpdate word m d a c f s = .next t ∧ CsrKept s t d c.toNat ∧
      (c.toNat, crWritten c.toNat (s.readCr c.toNat) (f (s.readCr c.toNat) (s.me.getG a))) ∈ crTable t := by
  obtain ⟨hkept, htab, -⟩ := csr_leaves (ctlChange_writeCr s c.toNat (f (s.readCr c.toNat) (s.me.getG a))) hs hr d
    fun _ _ h => mem_crTable_writeCr _ h
  exact ⟨_, csrUpdate_next hs hr word m d a f hc hf hsv h7, hkept,
    htab ▸ mem_crTable.2 ⟨hc, (readCr_writeCr_same hc hf h7 _).symm⟩⟩
/-- cr.syncst is cleared by the ones of a write, and CSRCLR writes none. -/
theorem csrUpdate_syncst_leaves (word m : Nat) (f : Word → Word → Word) :
    ∃ t, csrUpdate word m d a 7 f s = .next t ∧ CsrKept s t d 7 ∧
      (7, if m = 3 then s.readCr 7 else s.readCr 7 &&& ~~~s.me.getG a) ∈ crTable t := by
  have hcleared (l : Ctl) (x : Word) : (l.syncst &&& ~~~(x.setWidth 2)).setWidth 64 = l.syncst.setWidth 64 &&& ~~~x := by
    ext i hi
    by_cases h : i < 2
    · simp [h, hi]
    · simp [h, hi, BitVec.getLsbD_of_ge l.syncst i (by omega)]
  by_cases hm : m = 3
  · obtain ⟨hkept, htab, -⟩ := csr_leaves (ctlChange_refl s) hs hr (c := 7) d fun _ _ _ => Iff.rfl
    refine ⟨_, csrUpdate_syncst hs hr word m d a f, ?_⟩
    rw [if_pos hm, if_pos hm]
    exact ⟨hkept, htab ▸ mem_crTable.2 ⟨rfl, rfl⟩⟩
  · obtain ⟨hkept, htab, -⟩ := csr_leaves
      (ctlChange_withCtl s fun l => { l with syncst := l.syncst &&& ~~~((s.me.getG a).setWidth 2) }) hs hr (c := 7) d
      fun _ _ h => mem_crTable_withSyncst h
    refine ⟨_, csrUpdate_syncst hs hr word m d a f, ?_⟩
    rw [if_neg hm, if_neg hm]
    refine ⟨hkept, htab ▸ mem_crTable.2 ⟨rfl, ?_⟩⟩
    simp only [State.readCr, State.me_withCtl, Ctx.withCtl_ctl, hcleared]
end

end Sys2Proof.Machine

namespace Sys2Proof.Settled
open Sys2Proof.Machine

/-- Settles O37: the checks of R59 come before the operands. -/
theorem controlRegisterTraps : Obligations.ControlRegisterTraps := by
  intro s d a c
  have hlist : (∃ w, (c.toNat, w) ∈ crTable s) ↔ crnListed c.toNat = true :=
    ⟨fun ⟨_, h⟩ => (mem_crTable.1 h).1, fun h => ⟨_, mem_crTable.2 ⟨h, rfl⟩⟩⟩
  refine ⟨fun i hi hbad => ?_, fun i hi hl hsv hp => ?_⟩
  · rw [hlist, Bool.not_eq_true] at hbad
    rcases hi with rfl | hi
    · exact csr_traps (a := a) (.inl ⟨rfl, rfl⟩) fun word hw =>
        (csrCheck_illegal (.inl (hbad.resolve_right fun h => h.2 rfl))).trans (congrArg some hw)
    · exact csr_traps (.inr ⟨rfl, hi⟩) fun word hw =>
        (csrCheck_illegal (hbad.imp_right fun h => ⟨rfl, h.1⟩)).trans (congrArg some hw)
  · rw [hlist] at hl
    rcases hi with rfl | ⟨hf, hi⟩
    · exact csr_traps (a := a) (.inl ⟨rfl, rfl⟩) fun word _ => csrCheck_privilege hl (by simp) hsv hp
    · exact csr_traps (.inr ⟨rfl, hi⟩) fun word _ => csrCheck_privilege hl (fun _ => hf) hsv hp

/-- Settles O36: a read changes nothing but what it acquires, a write leaves what the register's write rule has of it, and a write of
cr.syncst clears the bits that are 1 in it. -/
theorem controlRegisters : Obligations.ControlRegisters := by
  intro s d a c old hs hr hold hsv
  obtain ⟨hc, rfl⟩ := mem_crTable.1 hold
  refine ⟨csrrd_leaves hs hr d hc hsv, ?_, ?_⟩
  · intro hf hc7 i v hi
    have h7 : c.toNat ≠ 7 := fun h => hc7 (BitVec.eq_of_toNat_eq h)
    rcases hi with ⟨rfl, rfl⟩ | ⟨rfl, rfl⟩ | ⟨rfl, rfl⟩
    · rw [exec_csrwr]
      exact csrUpdate_leaves hs hr d a _ _ (fun _ x => x) hc hf hsv h7
    · rw [exec_csrset]
      exact csrUpdate_leaves hs hr d a _ _ (fun old x => old ||| x) hc hf hsv h7
    · rw [exec_csrclr]
      exact csrUpdate_leaves hs hr d a _ _ (fun old x => old &&& ~~~x) hc hf hsv h7
  · rintro rfl
    refine ⟨?_, ?_⟩
    · rintro i (rfl | rfl)
      · rw [exec_csrwr]
        exact csrUpdate_syncst_leaves hs hr d a _ 1 _
      · rw [exec_csrset]
        exact csrUpdate_syncst_leaves hs hr d a _ 2 _
    · rw [exec_csrclr]
      exact csrUpdate_syncst_leaves hs hr d a _ 3 _

end Sys2Proof.Settled
end


-- ==== Sys2Proof/Proofs/BoundRegisters.lean ====
section
/-! SUPPORT. Operands where a g register may be owed or bound: what the operand rules take, write and leave, and that what waits or
traps stands as before (R55, R112, R178, R179); settles O52. -/
namespace Sys2Proof.Machine

/-! ## What waits or traps before it pops is as before -/

theorem State.setHere_setMe_self (s : State) (x : Ctx) :
    (s.setMe x).setHere { (s.setMe x).here with nq := s.here.nq } = s.setMe x := by
  rw [State.here_setMe]
  exact State.setCore_setCore s s.cur.core _ _
theorem undoPops_self {s : State} (hst : s.me.streams = []) (p : Option Trap) :
    undoPops s s p = s ∨ undoPops s s p = s.setMe s.me := by
  by_cases hs : s.plain = true
  · exact .inl (if_pos hs)
  · have hme : { s.me with g := s.me.g, v := s.me.v, q := s.me.q, streams := [] } = s.me := by rw [← hst]
    refine .inr ?_
    simp only [undoPops, hs, hst, List.map_nil, List.drop_length, List.foldl_nil, hme, State.setHere_setMe_self]
    rfl
theorem waiting_setMe_self (s : State) (w : Wait) : (s.setMe s.me).waiting w = s.waiting w := by
  simp [State.waiting]
theorem takeTrap_setMe_self (s : State) (t : Trap) : takeTrap t (s.setMe s.me) = takeTrap t s := by
  simp only [takeTrap, State.me_setMe, State.setMe_setMe, State.setMe_cur]
  rfl
theorem finish_wait_precise {s : State} (hst : s.me.streams = []) (w : Wait) :
    finish ((Res.wait w s).precise s) = .next (s.waiting w) := by
  rcases undoPops_self hst none with h | h
  · rw [Res.precise, h, finish]
  · rw [Res.precise, h, finish, waiting_setMe_self]
theorem finish_trap_precise {s : State} (hst : s.me.streams = []) (t : Trap) :
    finish ((Res.trap t s).precise s) = traps t s := by
  rcases undoPops_self hst (some t) with h | h
  · rw [Res.precise, h, finish, traps]
  · rw [Res.precise, h, finish, takeTrap_setMe_self, traps]
theorem waiting_leaves (s : State) (w : Wait) :
    (s.waiting w).me.wait = some w ∧ (s.waiting w).me.pc = s.me.pc ∧ SameRegs s.me (s.waiting w).me := by
  simp only [State.waiting, State.me_setMe, SameRegs]
  split <;> simp

/-! ## The operand rules for two sources and a destination -/

theorem boundG_eq (x : Ctx) (r : BitVec 5) : boundG x r = (x.binding false r).map (·.q) := rfl

section
variable {s : State}

theorem prepare_owed {r : BitVec 5} (w : Nat) (a b d : BitVec 5) (h : r ∈ s.me.owed) (hr : r = d ∨ r = a ∨ r = b) :
    prepare w [.g a, .g b] [.g d] false s = .wait .interlock s := by
  have hnp : s.plain = false := by
    rw [Bool.eq_false_iff, Ne, State.plain_iff]
    rintro ⟨ho, -⟩
    simp [ho] at h
  have hany : ([Reg.g a, Reg.g b] ++ [Reg.g d]).any s.me.owes = true := by
    rcases hr with rfl | rfl | rfl <;> simp [Ctx.owes, h]
  rw [prepare, hnp, if_neg (by simp), if_pos hany]
theorem prepare_two {q : BitVec 3} {r : BitVec 5} (howed : s.me.owed = []) (hrep : s.me.replay = none) (hq : boundG s.me r = some q)
    (w : Nat) (a b d : BitVec 5) :
    prepare w [.g a, .g b] [.g d] false s =
      ((popReg false a s).bind (if b = a then .ok .own else popReg false b)).bind (checkWrite w false d) := by
  have hnp : s.plain = false := by
    rw [Bool.eq_false_iff, Ne, State.plain_iff]
    rintro ⟨-, hb, -⟩
    simp [boundG, hb] at hq
  rw [prepare, hnp, if_neg (by simp), if_neg (by simp [Ctx.owes, howed]), if_neg (by simp [Ctx.replaying, hrep])]
  by_cases h : b = a
  · simp [h, Reg.isF, Reg.vec, Reg.num, List.eraseDups_cons, Res.bind]
    cases popReg false a s <;> rfl
  · simp [h, Reg.isF, Reg.vec, Reg.num, List.eraseDups_cons, Res.bind]

theorem popReg_unbound {r : BitVec 5} (hr : boundG s.me r = none) (hst : s.me.streams = []) : popReg false r s = .ok .own s := by
  rw [boundG_eq, Option.map_eq_none_iff] at hr
  simp [popReg, hr, Ctx.stream, hst]
theorem checkWrite_unbound {r : BitVec 5} (hr : boundG s.me r = none) (hst : s.me.streams = []) (w : Nat) :
    checkWrite w false r s = .ok .own s := by
  rw [boundG_eq, Option.map_eq_none_iff] at hr
  simp [checkWrite, hr, Ctx.stream, hst]
theorem writeG_unbound {r : BitVec 5} (hr : boundG s.me r = none) (v : Word) : s.writeG r v = s.gSet r v := by
  rw [boundG_eq, Option.map_eq_none_iff] at hr
  rw [State.writeG, hr, State.gSet]
/-- A sender's count of its vectors is in the way of no register. -/
theorem setOutst_me (c : CoreId) (k : CtxId) (dir : BitVec 2) (f : Nat → Nat) :
    ∃ o, (s.setOutst c k dir f).me = { s.me with outst := o } := by
  by_cases h : s.cur.core = c ∧ s.cur.ctx = k
  · obtain ⟨rfl, rfl⟩ := h
    exact ⟨_, State.ctxAt_setCtxAt ..⟩
  · exact ⟨s.me.outst, State.ctxAt_setCtxAt_other s (by tauto) _⟩
theorem setOutst_nq (c : CoreId) (k : CtxId) (dir : BitVec 2) (f : Nat → Nat) : (s.setOutst c k dir f).here.nq = s.here.nq := by
  by_cases h : s.cur.core = c
  · subst h
    exact (congrArg Core.nq (State.core_setCore s _ _)).trans rfl
  · exact congrArg Core.nq (State.core_setCore_other s h _)
/-- The oldest vector leaves a neighbour queue, and its credit is on its way to the sender (R177, R179). -/
def State.popNq (s : State) (q : BitVec 2) (v : Sent) (t : List Sent) : State :=
  ({ s with credits := s.credits ++ [(v.core, v.ctx, v.dir)] }.setHere (s.here.setNq q t)).setOutst v.core v.ctx v.dir (· - 1)
theorem popNq_me (q : BitVec 2) (v : Sent) (t : List Sent) : ∃ o, (s.popNq q v t).me = { s.me with outst := o } := by
  obtain ⟨o, ho⟩ := setOutst_me (s := { s with credits := s.credits ++ [(v.core, v.ctx, v.dir)] }.setHere (s.here.setNq q t))
    v.core v.ctx v.dir (· - 1)
  exact ⟨o, ho.trans (congrArg (fun x : Ctx => { x with outst := o }) (State.me_setHere ..))⟩
theorem popNq_getNq (q : BitVec 2) (v : Sent) (t : List Sent) : (s.popNq q v t).here.getNq q = t := by
  rw [Core.getNq, State.popNq, setOutst_nq, State.here_setHere]
  simp [Core.setNq, Vector.get_eq_getElem]

section
variable {r : BitVec 5} {q : BitVec 3} (hr : boundG s.me r = some q)
include hr

theorem popReg_own (hlt : q.toNat < 4) {v : Vec} {t : List Vec} (hv : s.me.getQ (q.setWidth 2) = v :: t) :
    popReg false r s = .ok .own (s.setMe ((s.me.setQ (q.setWidth 2) t).setG r (v.setWidth 64))) := by
  obtain ⟨y, hy, rfl⟩ := Option.map_eq_some_iff.1 ((boundG_eq ..).symm.trans hr)
  simp only [popReg, hy, hlt, hv, if_true]
  rfl
theorem popReg_own_empty (hlt : q.toNat < 4) (he : s.me.getQ (q.setWidth 2) = []) : popReg false r s = .wait .interlock s := by
  obtain ⟨y, hy, rfl⟩ := Option.map_eq_some_iff.1 ((boundG_eq ..).symm.trans hr)
  simp only [popReg, hy, hlt, he, if_true]
theorem popReg_neighbour (hge : ¬q.toNat < 4) {v : Sent} {t : List Sent} (hv : s.here.getNq (q.setWidth 2) = v :: t) :
    let u := s.popNq (q.setWidth 2) v t
    popReg false r s = .ok .own (u.setMe (u.me.setG r (v.val.setWidth 64))) := by
  obtain ⟨y, hy, rfl⟩ := Option.map_eq_some_iff.1 ((boundG_eq ..).symm.trans hr)
  simp only [popReg, hy, hge, hv, if_false]
  rfl
theorem popReg_neighbour_empty (hge : ¬q.toNat < 4) (he : s.here.getNq (q.setWidth 2) = []) :
    popReg false r s = .wait (.queueEmpty (q.setWidth 2)) s := by
  obtain ⟨y, hy, rfl⟩ := Option.map_eq_some_iff.1 ((boundG_eq ..).symm.trans hr)
  simp only [popReg, hy, hge, he, if_false]
end
theorem checkWrite_bound {r : BitVec 5} {q : BitVec 3} (hr : boundG s.me r = some q) (w : Nat) : checkWrite w false r s =
    if q.toNat < 4 then if (s.me.getQ (q.setWidth 2)).length < 8 then .ok .own s else .wait .interlock s
    else .trap (illegal w) s := by
  rw [boundG_eq, Option.map_eq_some_iff] at hr
  obtain ⟨y, hy, rfl⟩ := hr
  simp only [checkWrite, hy]
theorem writeG_bound {r : BitVec 5} {q : BitVec 3} (hr : boundG s.me r = some q) (v : Word) :
    s.writeG r v = s.setMe (s.me.setQ (q.setWidth 2) (s.me.getQ (q.setWidth 2) ++ [v.setWidth 128])) := by
  rw [boundG_eq, Option.map_eq_some_iff] at hr
  obtain ⟨y, hy, rfl⟩ := hr
  rw [State.writeG, hy]

end

/-! ## ADD -/

theorem exec_add (d a b : BitVec 5) (s : State) : exec (.add d a b 0) s =
    withRegs (wordR 0 0 b.toNat a.toNat d.toNat 0) [.g a, .g b] [.g d] s fun s =>
      .ok (.fall 4) (s.writeG d (s.me.getG a + s.me.getG b)) := by
  show int3 4 _ d a b 0 addV s = _
  simp only [int3, narrow_atWidth means_add]
  rfl
theorem illegal_add (d a b : BitVec 5) : illegal (wordR 0 0 b.toNat a.toNat d.toNat 0) = illegalOf (.add d a b 0) := by
  have hd := d.isLt
  have ha := a.isLt
  have hb := b.isLt
  have h0 : (0 : BitVec 1).toNat = 0 := rfl
  have h : wordR 0 0 b.toNat a.toNat d.toNat 0 = encode (.add d a b 0) := by
    simp only [wordR, word32, encode, h0]
    omega
  rw [illegal, illegalOf, h, Nat.mod_eq_of_lt]
  simp only [encode, h0]
  omega

section
variable {s : State} (d a b : BitVec 5)

theorem add_owed {r : BitVec 5} (hst : s.me.streams = []) (h : r ∈ s.me.owed) (hr : r = d ∨ r = a ∨ r = b) :
    exec (.add d a b 0) s = .next (s.waiting .interlock) := by
  rw [exec_add, withRegs, prepare_owed _ a b d h hr]
  exact finish_wait_precise hst _

/-! ### A source bound to a queue -/

section
variable {q : BitVec 3} (howed : s.me.owed = []) (hrep : s.me.replay = none) (hst : s.me.streams = []) (hq : boundG s.me a = some q)
include howed hrep hst hq

/-- Where the pop waits, so does the instruction, and nothing has changed. -/
theorem add_of_pop_waits {w : Wait} (hpop : popReg false a s = .wait w s) :
    ∃ u, exec (.add d a b 0) s = .next u ∧ u.me.wait = some w ∧ u.me.pc = s.me.pc ∧ SameRegs s.me u.me := by
  refine ⟨s.waiting w, ?_, waiting_leaves s w⟩
  rw [exec_add, withRegs, prepare_two howed hrep hq, hpop]
  exact finish_wait_precise hst w
/-- Where the pop succeeds, the instruction adds the registers as it leaves them. -/
theorem add_of_pop {u : State} (hb : b = a ∨ boundG s.me b = none) (hd : boundG s.me d = none)
    (hpop : popReg false a s = .ok .own u) (hbinds : u.me.binds = s.me.binds) (hstu : u.me.streams = s.me.streams) :
    exec (.add d a b 0) s = writesG 4 u d (u.me.getG a + u.me.getG b) := by
  have hunbound {r : BitVec 5} (hr : boundG s.me r = none) : boundG u.me r = none := by rw [boundG, hbinds]; exact hr
  have hpops : (popReg false a s).bind (if b = a then .ok .own else popReg false b) = .ok .own u := by
    rw [hpop, Res.bind]
    split
    · rfl
    · exact popReg_unbound (hunbound (hb.resolve_left ‹_›)) (hstu.trans hst)
  rw [exec_add, withRegs, prepare_two howed hrep hq, hpops, Res.bind, checkWrite_unbound (hunbound hd) (hstu.trans hst), Res.bind,
    writeG_unbound (hunbound hd)]
  rfl

/-- A pop of the context's own queue. -/
theorem add_pops_own (hb : b = a ∨ boundG s.me b = none) (hd : boundG s.me d = none) (hlt : q.toNat < 4) {v : Vec} {t : List Vec}
    (hv : s.me.getQ (q.setWidth 2) = v :: t) :
    let y := (s.me.setQ (q.setWidth 2) t).setG a (v.setWidth 64)
    exec (.add d a b 0) s = writesG 4 (s.setMe y) d (y.getG a + y.getG b) := by
  intro y
  have hpop : popReg false a s = .ok .own (s.setMe y) := popReg_own hq hlt hv
  have h := add_of_pop d a b howed hrep hst hq hb hd hpop (by simp [y, Ctx.setQ]) (by simp [y, Ctx.setQ])
  rwa [State.me_setMe] at h
/-- A pop of one of the core's neighbour queues. -/
theorem add_pops_neighbour (hb : b = a ∨ boundG s.me b = none) (hd : boundG s.me d = none) (hge : ¬q.toNat < 4) {v : Sent}
    {t : List Sent} (hv : s.here.getNq (q.setWidth 2) = v :: t) :
    ∃ u, exec (.add d a b 0) s = .next u ∧ u.cur = s.cur ∧ u.here.getNq (q.setWidth 2) = t ∧
      u.credits = s.credits ++ [(v.core, v.ctx, v.dir)] ∧
      let y := s.me.setG a (v.val.setWidth 64)
      u.me.g = (y.setG d (y.getG a + y.getG b)).g := by
  obtain ⟨o, ho⟩ := popNq_me (s := s) (q.setWidth 2) v t
  let p := (s.popNq (q.setWidth 2) v t).setMe ((s.popNq (q.setWidth 2) v t).me.setG a (v.val.setWidth 64))
  have hpop : popReg false a s = .ok .own p := popReg_neighbour hq hge hv
  have hp : p.me = ({ s.me with outst := o } : Ctx).setG a (v.val.setWidth 64) := (State.me_setMe ..).trans (by rw [ho])
  have hg : p.me.g = (s.me.setG a (v.val.setWidth 64)).g := by
    rw [hp]
    exact setG_g_congr (x := s.me) (y := { s.me with outst := o }) rfl ..
  have hget (r : BitVec 5) : p.me.getG r = (s.me.setG a (v.val.setWidth 64)).getG r := by rw [Ctx.getG, hg, Ctx.getG]
  obtain ⟨x, hx⟩ := retire_setMe (.fall 4) (p.gSet d (p.me.getG a + p.me.getG b))
  refine ⟨_, add_of_pop d a b howed hrep hst hq hb hd hpop (by simp [hp]) (by simp [hp]), ?_, ?_, ?_, ?_⟩
  · rw [hx]
    rfl
  · rw [hx, Core.getNq, State.here_setMe, State.gSet, State.here_setMe, State.here_setMe]
    exact popNq_getNq ..
  · rw [hx]
    rfl
  · rw [(retire_regs _ _).1, State.gSet, State.me_setMe, hget, hget]
    exact setG_g_congr hg ..
end

/-! ### A destination bound to a queue -/

section
variable {q : BitVec 3} (howed : s.me.owed = []) (hrep : s.me.replay = none) (hst : s.me.streams = []) (hq : boundG s.me d = some q)
  (ha : boundG s.me a = none) (hb : boundG s.me b = none)
include howed hrep hst hq ha hb

theorem add_prepare_bound (w : Nat) : prepare w [.g a, .g b] [.g d] false s = checkWrite w false d s := by
  rw [prepare_two howed hrep hq, popReg_unbound ha hst, Res.bind]
  split
  · rfl
  · rw [popReg_unbound hb hst, Res.bind]
theorem add_pushes (hlt : q.toNat < 4) (hroom : (s.me.getQ (q.setWidth 2)).length < 8) :
    exec (.add d a b 0) s = .next (retire (.fall 4) (s.setMe
      (s.me.setQ (q.setWidth 2) (s.me.getQ (q.setWidth 2) ++ [(s.me.getG a + s.me.getG b).setWidth 128])))) := by
  rw [exec_add, withRegs, add_prepare_bound d a b howed hrep hst hq ha hb, checkWrite_bound hq, if_pos hlt, if_pos hroom, Res.bind,
    writeG_bound hq]
  rfl
theorem add_waits_for_room (hlt : q.toNat < 4) (hfull : 8 ≤ (s.me.getQ (q.setWidth 2)).length) :
    exec (.add d a b 0) s = .next (s.waiting .interlock) := by
  rw [exec_add, withRegs, add_prepare_bound d a b howed hrep hst hq ha hb, checkWrite_bound hq, if_pos hlt, if_neg (by omega)]
  exact finish_wait_precise hst _
theorem add_to_neighbour_queue_traps (hge : ¬q.toNat < 4) : exec (.add d a b 0) s = traps (illegalOf (.add d a b 0)) s := by
  rw [exec_add, withRegs, add_prepare_bound d a b howed hrep hst hq ha hb, checkWrite_bound hq, if_neg hge, illegal_add]
  exact finish_trap_precise hst _
end
end

end Sys2Proof.Machine

namespace Sys2Proof.Settled
open Sys2Proof.Machine

/-- Settles O52: the pops come before the sum and the check of the destination, and what waits or traps has popped nothing. -/
theorem registerZeroAndQueues : Obligations.RegisterZeroAndQueues := by
  refine ⟨fun x w d => ⟨x.getG_zero, x.setG_zero w, fun hd =>
    ⟨by rw [x.getG_setG, if_neg hd], fun e he => x.getG_setG_other he w⟩⟩, ?_⟩
  intro s d a b hrep hst
  refine ⟨?owed, fun howed => ⟨fun q hq hb hd => ⟨fun hlt => ⟨?_, ?_⟩, fun hge => ⟨?_, ?_⟩⟩,
    fun q hq ha hb => ⟨?_, ?_, ?_⟩⟩⟩
  case owed =>
    rintro (h | h | h)
    · exact add_owed d a b hst h (by simp)
    · exact add_owed d a b hst h (by simp)
    · exact add_owed d a b hst h (by simp)
  · exact fun v t hv => add_pops_own d a b howed hrep hst hq hb hd hlt hv
  · exact fun he => add_of_pop_waits d a b howed hrep hst hq (popReg_own_empty hq hlt he)
  · exact fun v t hv => add_pops_neighbour d a b howed hrep hst hq hb hd (by omega) hv
  · exact fun he => add_of_pop_waits d a b howed hrep hst hq (popReg_neighbour_empty hq (by omega) he)
  · exact add_pushes d a b howed hrep hst hq ha hb
  · intro hlt hfull
    obtain ⟨hwait, -, hregs⟩ := waiting_leaves s .interlock
    exact ⟨_, add_waits_for_room d a b howed hrep hst hq ha hb hlt hfull, hwait, hregs⟩
  · exact fun hge => add_to_neighbour_queue_traps d a b howed hrep hst hq ha hb (by omega)

end Sys2Proof.Settled
end


-- ==== Sys2Proof/Proofs/StepRunsDecoded.lean ====
section
/-! SUPPORT. What a fetch reads, and how a step treats what it has fetched, what its replay gives and what its agenda names (R69,
R88, R182, R183); settles O48. -/
namespace Sys2Proof.Machine

/-! ## Fetching (R69) -/

/-- A translation changes the translation caches alone. -/
theorem translate_tlb {s s1 : State} {v : Via} {root : BitVec 48} {va : Word} {acc : Acc} {priv : BitVec 1} {pa : Nat}
    (h : translate s v root va acc priv = .ok (pa, s1)) : ∃ l, s1 = { s with tlb := l } := by
  have hcached (homes : List TlbHome) (n : Nat) (t : Trail) : ∃ l, cacheTrail s homes root n t = { s with tlb := l } := ⟨_, rfl⟩
  simp only [translate] at h
  split at h
  · cases h
  split at h
  · split at h
    · cases h
    · obtain ⟨-, rfl⟩ := Prod.mk.inj (Except.ok.inj h)
      exact hcached ..
  · split at h
    · cases h
    · obtain ⟨-, rfl⟩ := Prod.mk.inj (Except.ok.inj h)
      split
      · split
        · exact hcached ..
        · exact ⟨s.tlb, rfl⟩
      · exact hcached ..
/-- A byte of this package's memory stands in a space that a fetch may name. -/
theorem spaceAccepts_of_place {s : State} {hkey : BitVec 16} {pa : Nat} {p : Place} (h : place s hkey pa = .ok p)
    (hp : (∃ k, p = .sram k) ∨ ∃ k l, p = .dram k l) : spaceAccepts pa 0 2 .plain = true := by
  have hways : pa / 2 ^ 48 % 8 ≠ 2 := by
    intro hsp
    simp only [place, hsp, if_true] at h
    split at h
    · cases h
    · obtain rfl := Except.ok.inj h
      simp at hp
  have hdevice : pa / 2 ^ 48 % 8 ≠ 5 := by
    intro hsp
    simp only [place, hsp] at h
    split_ifs at h <;> simp at h <;> (subst h; simp at hp)
  simp only [spaceAccepts]
  split <;> simp_all
theorem placesOf_pair {s : State} {hkey : BitVec 16} {a b : Nat} {ps : List Place} (h : placesOf s hkey [a, b] = .ok ps) :
    ∃ p q, ps = [p, q] ∧ place s hkey a = .ok p := by
  simp only [placesOf] at h
  split at h
  · cases h
  next p hp =>
    split at h
    · cases h
    next l hl =>
      split at hl
      · cases hl
      next q hq =>
        obtain rfl := Except.ok.inj hl
        exact ⟨p, q, (Except.ok.inj h).symm, hp⟩
theorem fetchHalf_of_halfReady {s s2 : State} {va : Word} {h : Nat} (hr : HalfReady s va h s2) (second : Bool) :
    fetchHalf s va second = .inr (h, s2) := by
  obtain ⟨pa, p, q, s1, htr, hpl, hclear, rfl, rfl⟩ := hr
  have hme : s1.me = s.me := by
    obtain ⟨l, rfl⟩ := translate_tlb htr
    rfl
  obtain ⟨p', q', hpq, hp⟩ := placesOf_pair hpl
  obtain ⟨rfl, rfl⟩ : p = p' ∧ q = q' := by simpa using hpq
  obtain ⟨hkp, hbp, hpp, hap⟩ := hclear p (by simp)
  obtain ⟨-, hbq, hpq, haq⟩ := hclear q (by simp)
  have hacc : spaceAccepts pa 0 2 .plain = true := spaceAccepts_of_place hp (by
    obtain ⟨k, hk | ⟨l, hk⟩⟩ := hkp
    · exact .inl ⟨k, hk⟩
    · exact .inr ⟨k, l, hk⟩)
  have hask : [p, q].findSome? (fun y => s1.askFor (some s.cur.core) false y) = none := by simp [hap, haq]
  have hany (f : Place → Bool) (h1 : f p = false) (h2 : f q = false) : [p, q].any f = false := by simp [h1, h2]
  have hnear (t : State) : needLine p .fetch t (fun u => .ok .own u) = .ok .own t := by
    obtain ⟨k, rfl | ⟨l, rfl⟩⟩ := hkp <;> rfl
  simp only [fetchHalf, htr, hacc, hpl, hany _ hbp hbq, hany _ hpp hpq, hask, Bool.not_true, Bool.false_eq_true, if_false,
    List.headD_cons, hnear, Res.withAddr, hme, List.map_cons, List.map_nil, fromBytes, mul_zero, add_zero]
/-- A fetched halfword has 16 bits. -/
theorem fetchHalf_lt {s s2 : State} {va : Word} {second : Bool} {h : Nat} (hf : fetchHalf s va second = .inr (h, s2)) :
    h < 2 ^ 16 := by
  simp only [fetchHalf] at hf
  repeat' split at hf
  all_goals cases hf
  next ps hps _ _ _ _ _ _ u _ =>
    obtain ⟨p, q, rfl, -⟩ := placesOf_pair hps
    have hp := (u.memByte (some u.me.fetchAt) p).isLt
    have hq := (u.memByte (some u.me.fetchAt) q).isLt
    simp only [List.map_cons, List.map_nil, fromBytes]
    omega
/-- The decoder of the length that the fetch finds is the decoder of the word. -/
theorem decode_of_fetchWord {s s1 : State} {w : Nat} {long : Bool} (hf : fetchWord s = .inr (w, long, s1)) :
    (if long then decode32 w else decode16 w) = decodeWord w := by
  simp only [fetchWord] at hf
  split at hf
  · cases hf
  next h s2 hh =>
    have hlt := fetchHalf_lt hh
    split at hf
    · next h7 =>
      split at hf
      · cases hf
      next h2 s3 hh2 =>
        have hlt2 := fetchHalf_lt hh2
        cases hf
        have hlong : startsLong (h + 2 ^ 16 * h2) = true := by simp [startsLong, field]; omega
        rw [decodeWord, if_pos hlong, Nat.mod_eq_of_lt (by omega), if_pos rfl]
    · next h7 =>
      cases hf
      have hshort : ¬startsLong w = true := by simp [startsLong, field]; omega
      rw [decodeWord, if_neg hshort, Nat.mod_eq_of_lt hlt, if_neg (by simp)]
theorem fetchWord_short {s s1 : State} {h : Nat} (hr : HalfReady s s.me.pc h s1) (h7 : h / 2 ^ 13 ≠ 7) :
    fetchWord s = .inr (h, false, s1.dropAnswers true) := by
  simp only [fetchWord, fetchHalf_of_halfReady hr, h7, if_false]
theorem fetchWord_long {s s1 s2 : State} {h h2 : Nat} (hr : HalfReady s s.me.pc h s1) (h7 : h / 2 ^ 13 = 7)
    (hr2 : HalfReady s1 (s1.me.pc + 2) h2 s2) : fetchWord s = .inr (h + 2 ^ 16 * h2, true, s2.dropAnswers true) := by
  simp only [fetchWord, fetchHalf_of_halfReady hr, fetchHalf_of_halfReady hr2, h7, if_true]

/-! ## The moves of a step -/

section
variable {s s0 : State}

theorem step_issue {c : CoreId} (h : nextMove s = (.issue c, s0)) : step s = issue c s0 := by
  simp [step, h, fromOutside]
theorem step_replay {c : CoreId} (h : nextMove s = (.replay c, s0)) : step s = replayStep c s0 := by
  simp [step, h, fromOutside]
/-- A move of the agenda is made, and one of the schedule that something outside makes or that needs nobody. -/
theorem step_allowed {m : Move} (hm : s.agenda ≠ [] ∨ fromOutside s m = true) :
    (s.agenda.isEmpty && !fromOutside s m) = false := by
  rcases hm with hm | hm <;> simp [hm]
theorem step_event {e : Instr} (h : nextMove s = (.event e, s0)) (he : e.isEvent = true)
    (hm : s.agenda ≠ [] ∨ fromOutside s (.event e) = true) : step s = exec e s0 := by
  simp only [step, h, step_allowed hm, he, Bool.false_eq_true, if_false, if_true]
theorem step_write {off : BitVec 48} {v : Word} {by_ : Writer} (h : nextMove s = (.write off v by_, s0)) (hm : s.agenda ≠ []) :
    step s = exec (deviceEvent off v by_) s0 := by
  simp only [step, h, step_allowed (.inl hm), Bool.false_eq_true, if_false]
theorem step_diectl {die : BitVec 2} {code : BitVec 4} (h : nextMove s = (.diectl die code, s0)) (hm : s.agenda ≠ []) :
    step s = exec (diectlEvent die code) s0 := by
  simp only [step, h, step_allowed (.inl hm), Bool.false_eq_true, if_false]
end

/-! ## What an issuing context does with a fetched word -/

section
variable {s : State} {w : Nat} {long : Bool}

theorem recordStep_none {repe : Bool} (h : s.me.rep.recording = false ∨ repe = true) : recordStep w long repe s = none := by
  rcases h with h | h <;> simp [recordStep, h]
theorem runDecoded_exec {i : Instr} (h : s.me.rep.recording = false ∨ i = .repe) : runDecoded i w long s = exec i s := by
  rw [runDecoded, recordStep_none (h.imp_right fun h => by simp [h])]
theorem runDecoded_recorded {i : Instr} (hi : i ≠ .repe) (hrec : s.me.rep.recording = true)
    (hok : (if long then recordable32 w else recordable16 w) = true ∧ s.me.rep.buf.length < 32) :
    runDecoded i w long s = .next (retire (.fall (if long then 4 else 2)) (s.setMe { s.me with
      rep := { s.me.rep with buf := s.me.rep.buf ++ [(s.me.pc, BitVec.ofNat 32 w, long)] } })) := by
  simp only [runDecoded, recordStep, beq_eq_false_iff_ne.2 hi, hrec, hok, Bool.not_true, Bool.or_false, Bool.false_eq_true, if_false,
    decide_true, Bool.and_true, if_true, finish]
theorem illegalWord_recording (hrec : s.me.rep.recording = true) :
    finish (illegalWord w s) = traps ⟨0x01, some (BitVec.ofNat 56 (w % 2 ^ 32)), none⟩ (s.setMe { s.me with rep := {} }) := by
  rw [illegalWord, if_pos hrec]
  rfl
theorem illegalWord_running (hrec : s.me.rep.recording = false) :
    finish (illegalWord w s) = traps ⟨0x01, some (BitVec.ofNat 56 (w % 2 ^ 32)), none⟩ s := by
  rw [illegalWord, if_neg (by simp [hrec])]
  rfl
theorem runDecoded_unrecordable {i : Instr} (hi : i ≠ .repe) (hrec : s.me.rep.recording = true)
    (hbad : ¬((if long then recordable32 w else recordable16 w) = true ∧ s.me.rep.buf.length < 32)) :
    runDecoded i w long s =
      traps ⟨0x01, some (BitVec.ofNat 56 (w % 2 ^ 32)), none⟩ (s.setMe { s.me with rep := {} }) := by
  have hno : recordStep w long (i == .repe) s = some (illegalWord w s) := by
    rw [recordStep, if_neg (by simp [hrec, hi]), if_neg (by simpa using hbad)]
  rw [runDecoded, hno]
  exact illegalWord_recording hrec
end

section
variable {s s1 : State} {c : CoreId} {k : CtxId} {w : Nat} {long : Bool} (hk : issuingCtx s c = some k)
  (hf : fetchWord { s with cur := ⟨c, k, false⟩ } = .inr (w, long, s1))
include hk hf

theorem issue_decoded {i : Instr} (hi : decodeWord w = some i) : issue c s = runDecoded i w long s1 := by
  rw [← decode_of_fetchWord hf] at hi
  simp only [issue, hk, hf, hi]
theorem issue_reserved (hi : decodeWord w = none) : issue c s = finish (illegalWord w s1) := by
  rw [← decode_of_fetchWord hf] at hi
  simp only [issue, hk, hf, hi]
end

end Sys2Proof.Machine

namespace Sys2Proof.Settled
open Sys2Proof.Machine

/-- Settles O48: the fetch gives the word and its length, and the word's decoding says what the step does. -/
theorem stepRunsDecoded : Obligations.StepRunsDecoded := by
  intro s c k s0
  refine ⟨?issues, ?idle, ?replays, ?event, ?write, ?diectl⟩
  case issues =>
    rintro ⟨hmove, hk⟩
    refine ⟨fun h s1 hr => ⟨fetchWord_short hr, fun h2 s2 h7 hr2 => fetchWord_long hr h7 hr2⟩, fun w long s1 hf => ?_⟩
    have hrun {i : Instr} (hi : decodeWord w = some i) : step s = runDecoded i w long s1 :=
      (step_issue hmove).trans (issue_decoded hk hf hi)
    refine ⟨fun i hi hrec => ?_, fun hi hrec => ?_, fun hi => ?_, fun i hi hne hrec => ⟨fun hok => ?_, fun hbad => ?_⟩⟩
    · exact (hrun hi).trans (runDecoded_exec (.inl hrec))
    · exact ((step_issue hmove).trans (issue_reserved hk hf hi)).trans (illegalWord_running hrec)
    · exact (hrun hi).trans (runDecoded_exec (.inr rfl))
    · exact (hrun hi).trans (runDecoded_recorded hne hrec hok)
    · exact (hrun hi).trans (runDecoded_unrecordable hne hrec hbad)
  case idle =>
    intro hmove hk
    rw [step_issue hmove, issue, hk]
  case replays =>
    intro w long s1 i hmove hword hi
    simp only [step_replay hmove, replayStep, hword, hi]
  case event => exact fun e hmove he hm => step_event hmove he hm
  case write => exact fun off v by_ hmove hm => step_write hmove hm
  case diectl => exact fun die code hmove hm => step_diectl hmove hm

end Sys2Proof.Settled
end


-- ==== Sys2Proof/Proofs/ExampleWords.lean ====
section
/-! SUPPORT. The spec's example words are the words of well-formed instructions, and decode by the round trip; settles O45. -/
namespace Sys2Proof.Machine

/-- A word decodes to the well-formed instruction that it encodes. -/
theorem decodeWord_of_encode {w : Nat} {i : Instr} (hw : encode i = w) (hi : WellFormed i = true) : decodeWord w = some i :=
  hw ▸ Settled.roundTrip i hi

end Sys2Proof.Machine

namespace Sys2Proof.Settled
open Sys2Proof.Machine

/-- Settles O45: each example is the encoding of its instruction. -/
theorem decodeWords : Obligations.DecodeWords :=
  ⟨decodeWord_of_encode rfl rfl, decodeWord_of_encode rfl rfl, decodeWord_of_encode rfl rfl, decodeWord_of_encode rfl rfl,
    decodeWord_of_encode rfl rfl, decodeWord_of_encode rfl rfl, decodeWord_of_encode rfl rfl, decodeWord_of_encode rfl rfl,
    decodeWord_of_encode rfl rfl, decodeWord_of_encode rfl rfl, decodeWord_of_encode rfl rfl, decodeWord_of_encode rfl rfl,
    decodeWord_of_encode rfl rfl, decodeWord_of_encode rfl rfl, decodeWord_of_encode rfl rfl, decodeWord_of_encode rfl rfl,
    decodeWord_of_encode rfl rfl, decodeWord_of_encode rfl rfl, decodeWord_of_encode rfl rfl⟩

end Sys2Proof.Settled
end


-- ==== Sys2Proof/Proofs/ResetValues.lean ====
section
/-! SUPPORT. The parts of the machine at reset: every numbered map is empty, and what it does not list has its first value (R61, R341);
settles O51. -/
namespace Sys2Proof.Machine

theorem reset_core (c : CoreId) : State.reset.core c = {} := rfl
theorem reset_ctxAt (c : CoreId) (k : CtxId) : State.reset.ctxAt c k = {} := by
  rw [State.ctxAt, reset_core, Core.ctxAt, Vector.get_eq_getElem, Vector.getElem_replicate]
theorem reset_forge_ring (f : ForgeId) (r : Fin 8) : ((State.reset.forge f).rings.get r).conf = none := by
  rw [show State.reset.forge f = {} from rfl, Vector.get_eq_getElem, Vector.getElem_replicate]
theorem reset_die (d : BitVec 2) : State.reset.die d = {} := by
  rw [State.die, State.reset, Vector.get_eq_getElem, Vector.getElem_replicate]
theorem reset_byte (k : Nat) : State.reset.mem.byte k = 0 := rfl
theorem reset_isFull (d : Nat) : State.reset.mem.isFull d = false := rfl
theorem reset_partOf (c : CoreId) : State.reset.partOf c = 0 := rfl

end Sys2Proof.Machine

namespace Sys2Proof.Settled
open Sys2Proof.Machine

/-- Settles O51: reset leaves every part at its first value. -/
theorem resetValues : Obligations.ResetValues := by
  refine ⟨fun c k => ?contexts, fun c => ?cores, fun f => ⟨rfl, reset_forge_ring f⟩, reset_byte, reset_isFull, fun q => ?queues,
    reset_partOf, fun d => ?dies, ?island⟩
  case contexts =>
    rw [reset_ctxAt]
    exact ⟨rfl, rfl, rfl, rfl, rfl, rfl, rfl, rfl, rfl, rfl, rfl, rfl, rfl, rfl, rfl, rfl, rfl, rfl, rfl, rfl, rfl, rfl, rfl⟩
  case cores => exact ⟨fun k => rfl, rfl, rfl, rfl, rfl⟩
  case queues => rfl
  case dies =>
    rw [reset_die]
    exact ⟨rfl, rfl, rfl, rfl⟩
  case island => exact ⟨rfl, rfl, rfl, rfl, rfl, rfl, rfl⟩

end Sys2Proof.Settled
end


-- ==== Sys2Proof/Proofs/IntegerOps.lean ====
section
/-! SUPPORT. Quotients, rotations, bit counts and immediate forms as words of the operands' width (R91 to R95);
settles O2 to O5. -/
namespace Sys2Proof.Machine

/-! ## Quotients (R93) -/

theorem toInt_eq_zero_iff {n : Nat} {x : BitVec n} : x.toInt = 0 ↔ x = 0 := by
  rw [← BitVec.toInt_inj, BitVec.ofNat_eq_ofNat, BitVec.toInt_zero]
theorem toInt_eq_neg_one_iff {n : Nat} (hn : 0 < n) {x : BitVec n} : x.toInt = -1 ↔ x = BitVec.allOnes n := by
  rw [← BitVec.toInt_inj, BitVec.toInt_allOnes, if_pos hn]
theorem toInt_eq_min_iff {n : Nat} (hn : 0 < n) {x : BitVec n} : x.toInt = -2 ^ (n - 1) ↔ x = BitVec.intMin n := by
  rw [← BitVec.toInt_inj, BitVec.toInt_intMin_of_pos hn]
theorem ofInt_max (n : Nat) : BitVec.ofInt n (2 ^ (n - 1) - 1) = BitVec.intMax n := by
  rw [← BitVec.toInt_intMax, BitVec.ofInt_toInt]
/-- Away from the one overflow the signed quotient is exact. -/
theorem toInt_sdiv_exact {n : Nat} {x y : BitVec n} (h : ¬(x = BitVec.intMin n ∧ y = BitVec.allOnes n)) :
    (x.sdiv y).toInt = x.toInt.tdiv y.toInt := by
  refine BitVec.toInt_sdiv_of_ne_or_ne x y ?_
  rw [BitVec.neg_one_eq_allOnes]
  exact Decidable.not_and_iff_not_or_not.1 h
/-- A zero divisor counts as an infinite quotient with the sign of the dividend. -/
theorem ofInt_divS_zero {n : Nat} (hn : 0 < n) (x : BitVec n) : BitVec.ofInt n (divS n x.toInt 0) =
    if x = 0 then 0 else if x.msb then BitVec.intMin n else BitVec.intMax n := by
  rw [divS, if_pos rfl]
  by_cases h0 : x = 0
  · rw [if_pos (toInt_eq_zero_iff.2 h0), if_pos h0]
    rfl
  · have hx : x.toInt ≠ 0 := toInt_eq_zero_iff.not.2 h0
    rw [if_neg hx, if_neg h0, BitVec.msb_eq_toInt]
    by_cases hneg : x.toInt < 0
    · rw [if_neg (by omega), if_pos (decide_eq_true hneg), ← BitVec.toInt_intMin_of_pos hn, BitVec.ofInt_toInt]
    · rw [if_pos (by omega), if_neg (by simpa using hneg), ofInt_max]
theorem divS_overflow {n : Nat} : divS n (-2 ^ (n - 1)) (-1) = 2 ^ (n - 1) - 1 := by
  rw [divS, if_neg (by decide), if_pos ⟨rfl, rfl⟩]
theorem divS_exact {n : Nat} (hn : 0 < n) {x y : BitVec n} (hy : y ≠ 0) (h : ¬(x = BitVec.intMin n ∧ y = BitVec.allOnes n)) :
    divS n x.toInt y.toInt = x.toInt.tdiv y.toInt := by
  rw [divS, if_neg (toInt_eq_zero_iff.not.2 hy), if_neg]
  rwa [toInt_eq_min_iff hn, toInt_eq_neg_one_iff hn]

theorem means_div : Means divV quotS := fun n x y => by
  rcases n.eq_zero_or_pos with rfl | hn
  · exact Subsingleton.elim _ _
  unfold divV quotS
  by_cases hy : y = 0
  · rw [if_pos hy, toInt_eq_zero_iff.2 hy, ofInt_divS_zero hn]
  rw [if_neg hy]
  by_cases ho : x = BitVec.intMin n ∧ y = BitVec.allOnes n
  · rw [if_pos ho, (toInt_eq_min_iff hn).2 ho.1, (toInt_eq_neg_one_iff hn).2 ho.2, divS_overflow, ofInt_max]
  · rw [if_neg ho, divS_exact hn hy ho, ← toInt_sdiv_exact ho, BitVec.ofInt_toInt]
theorem means_rem : Means remV remS := fun n x y => by
  rcases n.eq_zero_or_pos with rfl | hn
  · exact Subsingleton.elim _ _
  unfold remV remS
  by_cases hy : y = 0
  · rw [if_pos hy, toInt_eq_zero_iff.2 hy, mul_zero, sub_zero, BitVec.ofInt_toInt]
  rw [if_neg hy]
  by_cases ho : x = BitVec.intMin n ∧ y = BitVec.allOnes n
  · have hrem : (-2 ^ (n - 1) : Int) - (2 ^ (n - 1) - 1) * -1 = -1 := by ring
    rw [if_pos ho, (toInt_eq_min_iff hn).2 ho.1, (toInt_eq_neg_one_iff hn).2 ho.2, divS_overflow, hrem,
      ← (toInt_eq_neg_one_iff hn).2 rfl, BitVec.ofInt_toInt]
  · rw [if_neg ho, divS_exact hn hy ho, mul_comm, ← Int.tmod_def, ← BitVec.toInt_srem, BitVec.ofInt_toInt]
theorem means_divn : Means divnV quotU := fun n x y => by
  unfold divnV divU quotU
  by_cases hy : y = 0
  · subst hy
    by_cases hx : x = 0
    · simp [hx]
    · have hx' : x.toNat ≠ 0 := fun h => hx (BitVec.eq_of_toNat_eq h)
      have hones : ((2 : Int) ^ n - 1) = (BitVec.allOnes n).toNat := by
        rw [BitVec.toNat_allOnes, Nat.cast_sub Nat.one_le_two_pow]
        norm_cast
      rw [if_pos rfl, if_neg hx, if_pos (by simp), if_neg (by exact_mod_cast hx'), hones, ofInt_toNat]
  · have hy' : y.toNat ≠ 0 := fun h => hy (BitVec.eq_of_toNat_eq h)
    rw [if_neg hy, if_neg (by exact_mod_cast hy'), ← Int.natCast_ediv, ← BitVec.toNat_udiv, ofInt_toNat]
theorem means_remn : Means remnV remU := fun n x y => by
  unfold remnV divU remU
  by_cases hy : y = 0
  · subst hy
    simp
  · have hy' : y.toNat ≠ 0 := fun h => hy (BitVec.eq_of_toNat_eq h)
    rw [if_neg hy, if_neg (by exact_mod_cast hy'), mul_comm, ← Int.emod_def, ← Int.natCast_emod, ← BitVec.toNat_umod, ofInt_toNat]

/-! ## Rotations and the complement (R92, R94) -/

theorem means_andn : Means andnV (fun _ x y => x &&& ~~~y) := fun n x y => by
  have hnot : (2 ^ n - 1 - y.toNat : Int) = (~~~y).toNat := by
    have hy := y.isLt
    rw [BitVec.toNat_not]
    push_cast [Nat.cast_sub (show y.toNat ≤ 2 ^ n - 1 by omega), Nat.cast_sub Nat.one_le_two_pow]
    rfl
  rw [andnV, hnot]
  exact means_and n x (~~~y)
/-- The two parts of a rotated word do not overlap. -/
theorem ofInt_rotL {n : Nat} (hn : 0 < n) (x : BitVec n) (k : Nat) : BitVec.ofInt n (rotL n x.toNat k) = x.rotateLeft k := by
  have hk : k % n < n := Nat.mod_lt _ hn
  have hpow : 2 ^ n = 2 ^ (n - k % n) * 2 ^ (k % n) := by rw [← Nat.pow_add, Nat.sub_add_cancel hk.le]
  have hlow : x.toNat / 2 ^ (n - k % n) < 2 ^ (k % n) := Nat.div_lt_of_lt_mul (hpow ▸ x.isLt)
  have hrot : rotL n x.toNat k = ((x.rotateLeft k).toNat : Int) := by
    rw [BitVec.toNat_rotateLeft, Nat.shiftLeft_eq, hpow, Nat.mul_mod_mul_right, ← Nat.shiftLeft_eq, Nat.shiftRight_eq_div_pow,
      ← Nat.shiftLeft_add_eq_or_of_lt hlow, Nat.shiftLeft_eq, ← Nat.mul_mod_mul_right, ← hpow]
    simp [rotL]
  rw [hrot, ofInt_toNat]
theorem rotateLeft_sub_eq_rotateRight {n : Nat} (hn : 0 < n) (x : BitVec n) (k : Nat) :
    x.rotateLeft (n - k % n) = x.rotateRight (k % n) := by
  have hk : k % n < n := Nat.mod_lt _ hn
  apply BitVec.eq_of_toNat_eq
  rw [BitVec.toNat_rotateLeft, BitVec.toNat_rotateRight, Nat.mod_mod]
  rcases (k % n).eq_zero_or_pos with h0 | hpos
  · rw [h0, Nat.sub_zero, Nat.mod_self, Nat.sub_zero, Nat.or_comm]
    simp [Nat.shiftLeft_eq, Nat.shiftRight_eq_div_pow, Nat.mod_eq_of_lt x.isLt, Nat.div_eq_of_lt x.isLt]
  · rw [Nat.mod_eq_of_lt (by omega : n - k % n < n), Nat.sub_sub_self hk.le, Nat.or_comm]
theorem means_rol : Means rolV (fun n x y => x.rotateLeft (y.toNat % n)) := fun n x y => by
  rcases n.eq_zero_or_pos with rfl | hn
  · exact Subsingleton.elim _ _
  · rw [rolV, ← Int.natCast_mod, ofInt_rotL hn]
theorem means_ror : Means rorV (fun n x y => x.rotateRight (y.toNat % n)) := fun n x y => by
  rcases n.eq_zero_or_pos with rfl | hn
  · exact Subsingleton.elim _ _
  · have hk : ((n : Int) - y.toNat % n) = (n - y.toNat % n : Nat) := by
      rw [Nat.cast_sub (Nat.mod_lt _ hn).le, Int.natCast_mod]
    rw [rorV, hk, ofInt_rotL hn, rotateLeft_sub_eq_rotateRight hn]

/-! ## Amounts of the immediate forms (R94, R95) -/

/-- An amount below the width is not reduced by it. -/
theorem atWidth_amount (g : (n : Nat) → BitVec n → Nat → BitVec n) {w : BitVec 1} {k : BitVec 6} (h : w = 1 → k.toNat < 32)
    (x : Word) : atWidth w (fun n x y => g n x (y.toNat % n)) x (k.setWidth 64) = atWidth w (fun n x _ => g n x k.toNat) x 0 := by
  have hk := k.isLt
  unfold atWidth
  split
  · have h32 := h ‹_›
    have hy : ((k.setWidth 64).setWidth 32).toNat % 32 = k.toNat := by
      rw [BitVec.toNat_setWidth, BitVec.toNat_setWidth]
      omega
    simp only [hy]
  · have hy : (k.setWidth 64).toNat % 64 = k.toNat := by
      rw [BitVec.toNat_setWidth]
      omega
    simp only [hy]

/-! ## Bit counts and reversal (R92) -/

theorem clzN_le (n x : Nat) : clzN n x ≤ n := by
  induction n with
  | zero => exact le_rfl
  | succ n ih =>
    rw [clzN]
    split <;> omega
theorem testBit_of_lt_clzN {n x i : Nat} (h : i < clzN n x) : x.testBit (n - 1 - i) = false := by
  induction n generalizing i with
  | zero => exact absurd h (Nat.not_lt_zero i)
  | succ n ih =>
    rw [clzN] at h
    split at h
    · exact absurd h (Nat.not_lt_zero i)
    · cases i with
      | zero => exact Bool.eq_false_of_not_eq_true ‹_›
      | succ i =>
        rw [show n + 1 - 1 - (i + 1) = n - 1 - i by omega]
        exact ih (by omega)
theorem testBit_clzN {n x : Nat} (h : clzN n x < n) : x.testBit (n - 1 - clzN n x) = true := by
  induction n with
  | zero => exact absurd h (Nat.not_lt_zero _)
  | succ n ih =>
    rw [clzN] at h ⊢
    split
    · assumption
    · rw [if_neg ‹_›] at h
      rw [show n + 1 - 1 - (clzN n x + 1) = n - 1 - clzN n x by omega]
      exact ih (by omega)
theorem ctzN_le (n x : Nat) : ctzN n x ≤ n := by
  induction n generalizing x with
  | zero => exact le_rfl
  | succ n ih =>
    have := ih (x / 2)
    rw [ctzN]
    split <;> omega
theorem testBit_of_lt_ctzN {n x i : Nat} (h : i < ctzN n x) : x.testBit i = false := by
  induction n generalizing x i with
  | zero => exact absurd h (Nat.not_lt_zero i)
  | succ n ih =>
    rw [ctzN] at h
    split at h
    · exact absurd h (Nat.not_lt_zero i)
    · cases i with
      | zero => simpa [Nat.testBit_zero] using ‹¬x % 2 = 1›
      | succ i =>
        rw [Nat.testBit_succ]
        exact ih (by omega)
theorem testBit_ctzN {n x : Nat} (h : ctzN n x < n) : x.testBit (ctzN n x) = true := by
  induction n generalizing x with
  | zero => exact absurd h (Nat.not_lt_zero _)
  | succ n ih =>
    rw [ctzN] at h ⊢
    split
    · simpa [Nat.testBit_zero]
    · rw [if_neg ‹_›] at h
      rw [Nat.testBit_succ]
      exact ih (by omega)
theorem popcN_eq_countP (n x : Nat) : popcN n x = (List.range n).countP x.testBit := by
  induction n generalizing x with
  | zero => rfl
  | succ n ih =>
    have htail : x.testBit ∘ Nat.succ = (x / 2).testBit := funext fun i => Nat.testBit_succ x i
    rw [popcN, ih, List.range_succ_eq_map, List.countP_cons, List.countP_map, htail, Nat.testBit_zero, Nat.add_comm]
    rcases Nat.mod_two_eq_zero_or_one x with h | h <;> simp [h]
theorem brevN_lt (n x : Nat) : brevN n x < 2 ^ n := by
  induction n generalizing x with
  | zero => exact Nat.one_pos
  | succ n ih =>
    have := ih (x / 2)
    rw [brevN, Nat.pow_succ]
    rcases Nat.mod_two_eq_zero_or_one x with h | h <;> rw [h] <;> omega
theorem testBit_brevN {n x i : Nat} (h : i < n) : (brevN n x).testBit (n - 1 - i) = x.testBit i := by
  induction n generalizing x i with
  | zero => exact absurd h (Nat.not_lt_zero i)
  | succ n ih =>
    rw [brevN, Nat.mul_comm, Nat.testBit_two_pow_mul_add _ (brevN_lt n _)]
    cases i with
    | zero => simp [Nat.testBit_zero]
    | succ i =>
      rw [if_pos (by omega), Nat.testBit_succ, ← ih (by omega : i < n)]
      congr 1
      omega

/-- A count of at most n fits n bits. -/
theorem toNat_ofNat_of_le {n k : Nat} (h : k ≤ n) : (BitVec.ofNat n k).toNat = k := by
  rw [BitVec.toNat_ofNat, Nat.mod_eq_of_lt (h.trans_lt Nat.lt_two_pow_self)]
theorem isClz_clzN (n : Nat) (x : BitVec n) : isClz n x (BitVec.ofNat n (clzN n x.toNat)) := by
  rw [isClz, toNat_ofNat_of_le (clzN_le ..)]
  exact ⟨clzN_le .., fun i => testBit_of_lt_clzN, testBit_clzN⟩
theorem isCtz_ctzN (n : Nat) (x : BitVec n) : isCtz n x (BitVec.ofNat n (ctzN n x.toNat)) := by
  rw [isCtz, toNat_ofNat_of_le (ctzN_le ..)]
  exact ⟨ctzN_le .., fun i => testBit_of_lt_ctzN, testBit_ctzN⟩
theorem isPopc_popcN (n : Nat) (x : BitVec n) : isPopc n x (BitVec.ofNat n (popcN n x.toNat)) := by
  have hle : popcN n x.toNat ≤ n := by
    rw [popcN_eq_countP]
    exact List.countP_le_length.trans_eq List.length_range
  rw [isPopc, toNat_ofNat_of_le hle, popcN_eq_countP]
  rfl
theorem isBrev_brevN (n : Nat) (x : BitVec n) : isBrev n x (BitVec.ofNat n (brevN n x.toNat)) := by
  intro i hi
  rw [BitVec.getLsbD, BitVec.toNat_ofNat, Nat.mod_eq_of_lt (brevN_lt ..)]
  exact testBit_brevN hi
/-- A two-register operation writes at each width what its exact value is there. -/
theorem int2_writesG {f : Nat → Nat → Nat} {spec : (n : Nat) → BitVec n → BitVec n → Prop}
    (h : ∀ n x, spec n x (BitVec.ofNat n (f n x.toNat))) {s : State} (hs : s.plain = true) (word word' : Nat) (d a : BitVec 5) :
    (∃ r, spec 64 (s.me.getG a) r ∧ int2 word d a 0 f s = writesG 4 s d r) ∧
    (∃ r, spec 32 ((s.me.getG a).setWidth 32) r ∧ int2 word' d a 1 f s = writesG 4 s d (r.signExtend 64)) := by
  refine ⟨⟨_, h 64 _, ?_⟩, ⟨_, h 32 _, ?_⟩⟩
  · rw [int2_plain hs, narrow, BitVec.ofInt_natCast]
    show writesG 4 s d ((BitVec.ofNat 64 (f 64 ((s.me.getG a).setWidth 64).toNat)).signExtend 64) = _
    rw [BitVec.signExtend_eq, BitVec.setWidth_eq]
  · rw [int2_plain hs, narrow, BitVec.ofInt_natCast]
    rfl

end Sys2Proof.Machine

namespace Sys2Proof.Settled
open Sys2Proof.Machine

/-- Settles O2: quotients and remainders by the cases of a zero divisor, the signed overflow and the exact quotient. -/
theorem division : Obligations.Division := by
  refine ⟨?div, ?divn, ?rem, ?remn⟩ <;> intro s d a b w hs
  case div => exact int3_writesG means_div hs ..
  case divn => exact int3_writesG means_divn hs ..
  case rem => exact int3_writesG means_rem hs ..
  case remn => exact int3_writesG means_remn hs ..

/-- Settles O3: each of them writes its exact value, cut to the width. -/
theorem logicAndShifts : Obligations.LogicAndShifts := by
  refine ⟨?and, ?or, ?xor, ?andn, ?shl, ?shr, ?sra, ?rol, ?ror⟩ <;> intro s d a b w hs
  case and => exact int3_writesG means_and hs ..
  case or => exact int3_writesG means_or hs ..
  case xor => exact int3_writesG means_xor hs ..
  case andn => exact int3_writesG means_andn hs ..
  case shl => exact int3_writesG means_shl hs ..
  case shr => exact int3_writesG means_shr hs ..
  case sra => exact int3_writesG means_sra hs ..
  case rol => exact int3_writesG means_rol hs ..
  case ror => exact int3_writesG means_ror hs ..

/-- Settles O4: the counts and the reversal, each by the recursion of its definition over the bits. -/
theorem bitCounts : Obligations.BitCounts :=
  ⟨fun _ _ _ hs => int2_writesG isClz_clzN hs .., fun _ _ _ hs => int2_writesG isCtz_ctzN hs ..,
    fun _ _ _ hs => int2_writesG isPopc_popcN hs .., fun _ _ _ hs => int2_writesG isBrev_brevN hs ..⟩

/-- Settles O5: an immediate form is the operation with the immediate in the place of a register; an amount below the width is
not reduced. -/
theorem integerImmediates : Obligations.IntegerImmediates := by
  intro s d a i w k hs
  refine ⟨intImm_writesG means_add hs .., intImm_writesG means_and hs .., intImm_writesG means_or hs ..,
    intImm_writesG means_xor hs .., intImm_writesG means_slt hs .., fun hk => ?_⟩
  have hshl := atWidth_amount (fun n (x : BitVec n) k => x <<< k) hk (s.me.getG a)
  have hshr := atWidth_amount (fun n (x : BitVec n) k => x >>> k) hk (s.me.getG a)
  have hsra := atWidth_amount (fun n (x : BitVec n) k => x.sshiftRight k) hk (s.me.getG a)
  rw [← hshl, ← hshr, ← hsra]
  exact ⟨intImm_writesG means_shl hs .., intImm_writesG means_shr hs .., intImm_writesG means_sra hs ..⟩

end Sys2Proof.Settled
end


-- ==== Sys2Proof/Proofs/FieldsAndRegions.lean ====
section
/-! SUPPORT. Bit fields as words: a field taken out, a field replaced, and the base of a region (R63, R96 to R99); settles O6. -/
namespace Sys2Proof.Machine

/-! ## Fields of a word (R1, R98) -/

theorem setWidth_ushiftRight (x : Word) (p len : Nat) : (x >>> p).setWidth len = BitVec.ofNat len (nbits x.toNat p len) := by
  apply BitVec.eq_of_toNat_eq
  rw [BitVec.toNat_setWidth, BitVec.toNat_ushiftRight, Nat.shiftRight_eq_div_pow, BitVec.toNat_ofNat, nbits, Nat.mod_mod]
theorem ofNat_nbits (x : Word) (p len : Nat) :
    BitVec.ofNat 64 (nbits x.toNat p len) = ((x >>> p).setWidth len).setWidth 64 := by
  rw [setWidth_ushiftRight, ← BitVec.ofNat_toNat 64 (BitVec.ofNat len _), BitVec.toNat_ofNat, nbits, Nat.mod_mod]
theorem sextW_nbits (x : Word) (p : Nat) {len : Nat} (h : len ≤ 64) :
    sextW len (BitVec.ofNat 64 (nbits x.toNat p len)) = ((x >>> p).setWidth len).signExtend 64 := by
  rw [ofNat_nbits, sextW, BitVec.setWidth_setWidth_of_le _ h, BitVec.setWidth_eq]
/-- The ones at the `len` places from `lo`. -/
def fieldMask (lo len : Nat) : Word := (BitVec.allOnes len).setWidth 64 <<< lo
/-- A number cut to `len` bits and put at `lo` lies under the field's mask. -/
theorem toNat_placed (v : Nat) {lo len : Nat} (h : lo + len ≤ 64) :
    v % 2 ^ len * 2 ^ lo = ((BitVec.ofNat len v).setWidth 64 <<< lo).toNat := by
  have hv : v % 2 ^ len < 2 ^ len := Nat.mod_lt _ (Nat.two_pow_pos len)
  have hlen : v % 2 ^ len < 2 ^ 64 := hv.trans_le (Nat.pow_le_pow_right (by decide) (by omega))
  have hfits : v % 2 ^ len * 2 ^ lo < 2 ^ 64 := calc
    v % 2 ^ len * 2 ^ lo < 2 ^ len * 2 ^ lo := Nat.mul_lt_mul_of_pos_right hv (Nat.two_pow_pos lo)
    _ = 2 ^ (lo + len) := by rw [← Nat.pow_add, Nat.add_comm]
    _ ≤ 2 ^ 64 := Nat.pow_le_pow_right (by decide) h
  rw [BitVec.toNat_shiftLeft, BitVec.toNat_setWidth, BitVec.toNat_ofNat, Nat.mod_eq_of_lt hlen, Nat.shiftLeft_eq,
    Nat.mod_eq_of_lt hfits]
/-- A field in its place is the word under the field's mask. -/
theorem nbits_mul_eq_toNat_and (x : Word) {lo len : Nat} (h : lo + len ≤ 64) :
    nbits x.toNat lo len * 2 ^ lo = (x &&& fieldMask lo len).toNat := by
  have hplaced : x &&& fieldMask lo len = ((x >>> lo).setWidth len).setWidth 64 <<< lo := by
    refine BitVec.eq_of_getLsbD_eq fun i hi => ?_
    by_cases hlo : i < lo
    · simp [fieldMask, hlo]
    · have hplace : lo + (i - lo) = i := by omega
      have hin : i - lo < 64 := by omega
      simp [fieldMask, hlo, hplace, hi, hin, Bool.and_comm]
  rw [hplaced, setWidth_ushiftRight, ← toNat_placed _ h, nbits, Nat.mod_mod]
theorem insertBits_eq (x : Word) {lo len : Nat} (h : lo + len ≤ 64) (v : Nat) :
    insertBits x lo len v = (x &&& ~~~fieldMask lo len) ||| (BitVec.ofNat len v).setWidth 64 <<< lo := by
  have hsplit : (x &&& fieldMask lo len) &&& (x &&& ~~~fieldMask lo len) = 0#64 := by
    rw [BitVec.and_comm x (~~~_), ← BitVec.and_assoc, BitVec.and_assoc x, BitVec.and_not_self]
    exact (congrArg (· &&& x) BitVec.and_zero).trans BitVec.zero_and
  have hjoin : (x &&& fieldMask lo len) ||| (x &&& ~~~fieldMask lo len) = x := by
    rw [← BitVec.and_or_distrib_left, BitVec.or_not_self, BitVec.and_allOnes]
  have happart : (x &&& ~~~fieldMask lo len) &&& (BitVec.ofNat len v).setWidth 64 <<< lo = 0#64 := by
    ext i
    suffices x[i] = true → i < lo ∨ len ≤ i - lo → lo ≤ i → (BitVec.ofNat len v).getLsbD (i - lo) = false by simpa [fieldMask]
    exact fun _ hout hlo => BitVec.getLsbD_of_ge _ _ (by omega)
  have hrest : x.toNat - (x &&& fieldMask lo len).toNat = (x &&& ~~~fieldMask lo len).toNat := by
    have hsum := BitVec.toNat_add_of_and_eq_zero hsplit
    rw [BitVec.add_eq_or_of_and_eq_zero _ _ hsplit, hjoin] at hsum
    omega
  rw [insertBits, nbits_mul_eq_toNat_and x h, toNat_placed v h, hrest, ← BitVec.toNat_add_of_and_eq_zero happart,
    BitVec.add_eq_or_of_and_eq_zero _ _ happart, BitVec.ofNat_toNat, BitVec.setWidth_eq]

/-! ## Regions (R63) -/

theorem fld_top (rgn : Word) : fld rgn 56 8 = (rgn >>> 56).toNat := by
  have h := rgn.isLt
  rw [fld, nbits, BitVec.toNat_ushiftRight, Nat.shiftRight_eq_div_pow]
  omega
theorem regionOk_iff {rgn ga : Word} {o : BitVec 7} : regionOk rgn ga o.toNat 1 = true ↔
    (rgn >>> 56).toNat ≠ 0 ∧ (ga + o.setWidth 64 + 1).toNat ≤ (rgn >>> 56).toNat * 1024 := by
  rw [← fld_top, ← BitVec.ofNat_toNat]
  simp [regionOk]
theorem regionBase_eq (rgn : Word) : regionBase rgn = rgn &&& 0x00FFFFFFFFFFFFF8 := by
  have hfld : fld rgn 3 53 * 8 = (rgn &&& fieldMask 3 53).toNat := nbits_mul_eq_toNat_and rgn (by decide)
  rw [regionBase, hfld, BitVec.ofNat_toNat, BitVec.setWidth_eq]
  rfl

/-! ## The instructions -/

section
variable {s : State} (hs : s.plain = true)
include hs

theorem execLdhi_plain (d : BitVec 5) (i : BitVec 16) {k : BitVec 2} (hk : k ≠ 3) : execLdhi d i k s = writesG 4 s d
    ((s.me.getG d &&& ~~~(0xFFFF#64 <<< (16 * (k.toNat + 1)))) ||| i.setWidth 64 <<< (16 * (k.toNat + 1))) := by
  have hat : 16 * (k.toNat + 1) + 16 ≤ 64 := by bv_omega
  rw [execLdhi, fieldOp_plain hs, insertBits_eq _ hat, BitVec.ofNat_toNat, BitVec.setWidth_eq]
  rfl
theorem execLea_plain (d a : BitVec 5) (i : BitVec 11) :
    execLea d a i s = writesG 4 s d (s.me.getG a + i.signExtend 64) := fieldOp_plain hs ..
theorem execLeaScaled_plain (d a b : BitVec 5) (sh : BitVec 3) :
    execLeaScaled d a b sh s = writesG 4 s d (s.me.getG a + s.me.getG b <<< sh.toNat) := fieldOp_plain hs ..
theorem execSel_plain (d a b c : BitVec 5) :
    execSel d a b c s = writesG 4 s d (if s.me.getG c ≠ 0 then s.me.getG a else s.me.getG b) := fieldOp_plain hs ..
theorem execBfxn_plain (d a l : BitVec 5) (p : BitVec 6) : execBfxn d a l p s = writesG 4 s d
    (((s.me.getG a >>> p.toNat).setWidth (l.toNat + 1)).setWidth 64) := by
  rw [execBfxn, fieldOp_plain hs, bitField, ofNat_nbits]
  rfl
theorem execBfx_plain (d a l : BitVec 5) (p : BitVec 6) : execBfx d a l p s = writesG 4 s d
    (((s.me.getG a >>> p.toNat).setWidth (l.toNat + 1)).signExtend 64) := by
  rw [execBfx, fieldOp_plain hs, bitField, sextW_nbits _ _ (by omega)]
  rfl
theorem execBfi_plain (d a : BitVec 5) {l : BitVec 5} {p : BitVec 6} (h : p.toNat + (l.toNat + 1) ≤ 64) :
    execBfi d a l p s = writesG 4 s d ((s.me.getG d &&& ~~~((BitVec.allOnes (l.toNat + 1)).setWidth 64 <<< p.toNat)) |||
      ((s.me.getG a).setWidth (l.toNat + 1)).setWidth 64 <<< p.toNat) := by
  rw [execBfi, fieldOp_plain hs, insertBits_eq _ h, BitVec.ofNat_toNat]
  rfl
theorem execLeaRegion_plain (d a : BitVec 5) (n : BitVec 4) (o : BitVec 7) :
    execLeaRegion d a n o s = if regionOk (s.me.ctl.region n) (s.me.getG a) o.toNat 1 then
      writesG 4 s d (regionBase (s.me.ctl.region n) + s.me.getG a + o.setWidth 64) else traps ⟨0x07, none, none⟩ s := by
  rw [execLeaRegion, withRegs_plain hs, apply_ite finish, State.writeG_plain hs]
  rfl
end

end Sys2Proof.Machine

namespace Sys2Proof.Settled
open Sys2Proof.Machine

/-- Settles O6: each form writes a field or a sum; LEA of a region traps exactly where its check fails. -/
theorem constantsAndFields : Obligations.ConstantsAndFields := by
  intro s d a b c l i16 k i sh n o p hs
  refine ⟨execLdhi_plain hs d i16, execLea_plain hs d a i, execLeaScaled_plain hs d a b sh,
    fun hsize hin => (execLeaRegion_plain hs ..).trans ?inside, fun hout => (execLeaRegion_plain hs ..).trans (if_neg ?outside),
    fun hp => ⟨execBfx_plain hs d a l p, execBfxn_plain hs d a l p, execBfi_plain hs d a hp⟩, execSel_plain hs d a b c⟩
  case inside => rw [if_pos (regionOk_iff.2 ⟨hsize, hin⟩), regionBase_eq]
  case outside =>
    rw [regionOk_iff]
    omega

end Sys2Proof.Settled
end


-- ==== Sys2Proof/Proofs/ControlFlow.lean ====
section
/-! SUPPORT. Transfers of control and the hardware loop: targets, links, the loop's beginning and the rule at each retirement
(R102 to R107); settles O8 to O11. -/
namespace Sys2Proof.Machine

/-! ## Transfers of control (R102 to R105) -/

/-- Retiring does not see a write that changes nothing. -/
theorem retire_setMe_self (fl : Flow) (s : State) : retire fl (s.setMe s.me) = retire fl s := by
  simp only [retire, State.me_setMe, State.setMe_setMe, State.setMe_cur]
/-- g0 discards what is written (R55). -/
theorem retire_gSet_zero (fl : Flow) (s : State) (w : Word) : retire fl (s.gSet 0 w) = retire fl s := retire_setMe_self fl s
theorem jumpsTo_gSet_zero {i : Instr} {s : State} {t : Int} {w : Word} (h : JumpsTo i s t (s.gSet 0 w)) : JumpsTo i s t s := by
  simpa only [JumpsTo, retire_gSet_zero] using h
/-- An instruction that ends in jump_to has a jump's three outcomes. -/
theorem jumpsTo_of_jumpTo {i : Instr} {s : State} {t : Int} {k : State → State} (h : exec i s = finish (jumpTo t s k)) :
    JumpsTo i s t (k s) := by
  obtain ⟨hodd, e⟩ | ⟨heven, hout, e⟩ | ⟨heven, hlo, hhi, e⟩ := jumpTo_cases t s k <;> rw [e] at h
  · exact ⟨fun h0 => by omega, fun _ => h, fun h0 => by omega⟩
  · exact ⟨fun _ _ _ => by omega, fun h1 => by omega, fun _ _ => ⟨_, h⟩⟩
  · exact ⟨fun _ _ _ => h, fun h1 => by omega, fun _ _ => by omega⟩
theorem jumpsTo_of_jump {i : Instr} {s : State} {len word : Nat} {d : BitVec 5} {off : Int} (hs : s.plain = true)
    (h : exec i s = jump len word d off s) :
    JumpsTo i s (s.me.pc.toNat + 2 * off) (s.gSet d (s.me.pc + BitVec.ofNat 64 len)) := by
  rw [State.gSet, ← State.writeG_plain hs]
  refine jumpsTo_of_jumpTo (k := fun s => s.writeG d (s.me.pc + BitVec.ofNat 64 len)) ?_
  rw [h, jump, withRegs_plain hs]
theorem jumpsTo_of_jumpReg {i : Instr} {s : State} {len word : Nat} {d a : BitVec 5} {imm : Int} (hs : s.plain = true)
    (h : exec i s = jumpReg len word d a imm s) :
    JumpsTo i s ((s.me.getG a).toNat + imm) (s.gSet d (s.me.pc + BitVec.ofNat 64 len)) := by
  rw [State.gSet, ← State.writeG_plain hs]
  refine jumpsTo_of_jumpTo (k := fun s => s.writeG d (s.me.pc + BitVec.ofNat 64 len)) ?_
  rw [h, jumpReg, withRegs_plain hs]
theorem branches_of_branch {i : Instr} {s : State} {len word : Nat} {a b : BitVec 5} {off : Int} {c : Word → Word → Bool}
    (hs : s.plain = true) (h : exec i s = branch len word a b off c s) : Branches i len s a b off c := by
  rw [branch_plain hs] at h
  refine ⟨fun hc => ?_, fun hc => ?_⟩
  · rw [if_pos hc] at h
    exact jumpsTo_of_jumpTo h
  · rw [hc] at h
    exact h
theorem cNe_eq : cNe = fun x y => x != y := by
  funext x y
  rw [cNe, decide_not]
  rfl

/-! ## The hardware loop (R106, R107) -/

theorem illegal_loop (a : BitVec 5) (i : BitVec 11) : illegal (wordI 0x0F i.toNat a.toNat 0 1) = illegalOf (.loop a i) := by
  have hword : wordI 0x0F i.toNat a.toNat 0 1 % 2 ^ 32 = encode (.loop a i) := by
    have ha := a.isLt
    have hi := i.isLt
    simp only [wordI, word32, encode]
    omega
  rw [illegal, hword, illegalOf]
theorem retire_own_setMe {s : State} (h : s.cur.replay = false) (x : Ctx) :
    retire .own (s.setMe x) = s.setMe { x with wait := none } := by
  rw [retire_own (by exact h), State.me_setMe, State.setMe_setMe]
theorem execLoop_plain {s : State} (hs : s.plain = true) (a : BitVec 5) (i : BitVec 11) (hl : s.me.loop = none) :
    execLoop a i s = finish (
      if s.me.getG a = 0 then .ok .own (s.setMe { s.me with pc := s.me.pc + 4 + BitVec.ofNat 64 (2 * i.toNat) })
      else .ok .own (s.setMe { s.me with
        pc := s.me.pc + 4, loop := some ⟨s.me.pc + 4, s.me.pc + 4 + BitVec.ofNat 64 (2 * i.toNat), s.me.getG a⟩ })) := by
  rw [execLoop, hl, withRegs_plain hs]
  rfl
theorem execLoop_active {s : State} (a : BitVec 5) (i : BitVec 11) (hl : s.me.loop ≠ none) :
    execLoop a i s = traps (illegalOf (.loop a i)) s := by
  rw [execLoop, if_pos (Option.isSome_iff_ne_none.2 hl), illegal_loop, finish_trap, traps]
/-- The last pass ends the loop. -/
theorem loopNext_last {l : Loop} {nxt : Word} (h : nxt = l.stop) (hl : l.left = 1) : loopNext (some l) false nxt = (nxt, none) := by
  simp [loopNext, h, hl]
/-- Any other pass begins the next one. -/
theorem loopNext_again {l : Loop} {nxt : Word} (h : nxt = l.stop) (hl : l.left ≠ 1) :
    loopNext (some l) false nxt = (l.start, some { l with left := l.left - 1 }) := by
  have hleft : l.left - 1 ≠ 0 := fun e => hl ((BitVec.sub_eq_iff_eq_add.1 e).trans (BitVec.zero_add 1))
  simp only [loopNext, h, Bool.not_false, decide_true, Bool.and_self, if_true, if_neg hleft]
/-- A jump, and an address other than the end, leave the loop exactly outside its body. -/
theorem loopNext_leaves {l : Loop} {taken : Bool} {nxt : Word} (h : taken = true ∨ nxt ≠ l.stop) :
    loopNext (some l) taken nxt = (nxt, if nxt < l.start ∨ l.stop ≤ nxt then none else some l) := by
  have hend : ¬((!taken && decide (nxt = l.stop)) = true) := by
    rcases h with rfl | h
    · simp
    · simp [h]
  simp only [loopNext, if_neg hend, Bool.or_eq_true, decide_eq_true_eq]
  split <;> rfl

end Sys2Proof.Machine

namespace Sys2Proof.Settled
open Sys2Proof.Machine

/-- Settles O8: each is a branch on its own condition. -/
theorem conditionalBranches : Obligations.ConditionalBranches := by
  intro s a b o a4 o7 hs
  refine ⟨branches_of_branch hs rfl, ?bne, branches_of_branch hs rfl, branches_of_branch hs rfl, branches_of_branch hs rfl,
    branches_of_branch hs rfl, branches_of_branch hs rfl, ?bneCb, branches_of_branch hs rfl, branches_of_branch hs rfl⟩
  case bne => exact cNe_eq ▸ branches_of_branch hs rfl
  case bneCb => exact cNe_eq ▸ branches_of_branch hs rfl

/-- Settles O9: the link is written in the state that the target was read in, and only where the jump goes there. -/
theorem jumps : Obligations.Jumps := by
  intro s d a o o13 i a4 hs
  refine ⟨jumpsTo_gSet_zero (jumpsTo_of_jump hs rfl), jumpsTo_of_jump hs rfl, jumpsTo_gSet_zero (jumpsTo_of_jump hs rfl),
    jumpsTo_of_jumpReg hs rfl, ?link, ?nolink⟩
  case link =>
    rw [← Int.add_zero (Nat.cast _)]
    exact jumpsTo_of_jumpReg hs rfl
  case nolink =>
    rw [← Int.add_zero (Nat.cast _)]
    exact jumpsTo_gSet_zero (jumpsTo_of_jumpReg hs rfl)

/-- Settles O10: with no loop active the count decides; in a loop the instruction is illegal before it reads. -/
theorem loopBegins : Obligations.LoopBegins := by
  intro s a i hs hr
  refine ⟨fun hl h0 => ?skips, fun hl h0 => ?begins, fun hl => execLoop_active a i hl⟩
  case skips =>
    refine (execLoop_plain hs a i hl).trans ?_
    rw [if_pos h0, finish_ok, retire_own_setMe hr]
  case begins =>
    refine (execLoop_plain hs a i hl).trans ?_
    rw [if_neg h0, finish_ok, retire_own_setMe hr]

/-- Settles O11: retiring writes what the loop rule answers to the acting context, by the rule's cases. -/
theorem retiring : Obligations.Retiring := by
  intro s n t hr
  rw [retire_fall hr, retire_jump hr]
  refine ⟨⟨_, _, rfl⟩, ⟨_, _, rfl⟩, fun hl => ?outside, fun l hl => ?inside⟩
  case outside => simp [hl, loopNext_none]
  case inside =>
    simp only [State.me_setMe, hl, loopNext_leaves (taken := true) (.inl rfl), and_self, and_true]
    refine ⟨fun h h1 => ?last, fun h h1 => ?again, fun h => ?within⟩
    case last => simp only [loopNext_last h h1, and_self]
    case again => simp only [loopNext_again h h1, and_self]
    case within => simp only [loopNext_leaves (.inr h), and_self]

end Sys2Proof.Settled
end


-- ==== Sys2Proof/Proofs/TrapsTaken.lean ====
section
/-! SUPPORT. What taking a trap leaves, in the acting context, in the others and in the mesh (R248, R261, R267); settles O12. -/
namespace Sys2Proof.Machine

/-! ## Fields of a descriptor and of a source word (R152, R166) -/

theorem ofNat_eq_of_eq_toNat {n k : Nat} {x : BitVec n} (h : k = x.toNat) : BitVec.ofNat n k = x := by
  rw [h, BitVec.ofNat_toNat, BitVec.setWidth_eq]

section
variable (pkg : BitVec 13) (core : CoreId)

theorem mkDesc_toNat (cls prio vnet cap : Nat) : (mkDesc pkg core cls prio vnet cap).toNat = pkg.toNat * 2 ^ 51 +
    core.toNat * 2 ^ 38 + cls % 256 * 2 ^ 30 + prio % 64 * 2 ^ 24 + vnet % 4 * 2 ^ 22 + cap % 65536 := by
  have hp := pkg.isLt
  have hc := core.isLt
  rw [mkDesc, BitVec.toNat_ofNat, Nat.mod_eq_of_lt (by omega)]
theorem fld_mkDesc_core (cls prio vnet cap : Nat) : fld (mkDesc pkg core cls prio vnet cap) 38 13 = core.toNat := by
  have hc := core.isLt
  rw [fld, nbits, mkDesc_toNat]
  omega
theorem fld_mkDesc_cls (cls prio vnet cap : Nat) : fld (mkDesc pkg core cls prio vnet cap) 30 8 = cls % 256 := by
  rw [fld, nbits, mkDesc_toNat]
  omega
theorem fld_mkDesc_prio (cls prio vnet cap : Nat) : fld (mkDesc pkg core cls prio vnet cap) 24 6 = prio % 64 := by
  rw [fld, nbits, mkDesc_toNat]
  omega
theorem setWidth_mkDesc (cls prio vnet : Nat) (cap : BitVec 16) : (mkDesc pkg core cls prio vnet cap.toNat).setWidth 16 = cap := by
  have hc := cap.isLt
  apply BitVec.eq_of_toNat_eq
  rw [BitVec.toNat_setWidth, mkDesc_toNat]
  omega

variable (ctx : CtxId) (prv : BitVec 1) (seq : Nat)

theorem mkSrc_toNat : (mkSrc pkg core ctx prv seq).toNat =
    pkg.toNat * 2 ^ 51 + core.toNat * 2 ^ 38 + ctx.toNat * 2 ^ 36 + prv.toNat * 2 ^ 35 + seq % 65536 := by
  have hp := pkg.isLt
  have hc := core.isLt
  have hx := ctx.isLt
  have hv := prv.isLt
  rw [mkSrc, BitVec.toNat_ofNat, Nat.mod_eq_of_lt (by omega)]
theorem fld_mkSrc_core : fld (mkSrc pkg core ctx prv seq) 38 13 = core.toNat := by
  have hc := core.isLt
  have hx := ctx.isLt
  have hv := prv.isLt
  rw [fld, nbits, mkSrc_toNat]
  omega
theorem fld_mkSrc_ctx : fld (mkSrc pkg core ctx prv seq) 36 2 = ctx.toNat := by
  have hx := ctx.isLt
  have hv := prv.isLt
  rw [fld, nbits, mkSrc_toNat]
  omega
theorem getLsbD_mkSrc_prv : (mkSrc pkg core ctx prv seq).getLsbD 35 = decide (prv = 1) := by
  have hv := prv.isLt
  rw [BitVec.getLsbD, Nat.testBit_eq_decide_div_mod_eq, mkSrc_toNat, decide_eq_decide, ← BitVec.toNat_inj]
  show _ ↔ prv.toNat = 1
  omega
end

/-! ## Taking a trap -/

/-- The notice of a trap in the acting context, with what the trap saves there (R248, R261). -/
def trapNotice (s : State) (cause faddr epc : Word) (estat : BitVec 2) : Flight :=
  { notice := true, msg := ⟨mkSrc s.pkg s.cur.core s.cur.ctx 1 0,
      mkDesc s.pkg (s.supervisor (s.partOf s.cur.core)) 1 63 3 (s.part (s.partOf s.cur.core)).key.toNat,
      #v[BitVec.ofNat 64 (s.cur.ctx.toNat * 65536 + s.cur.core.toNat), cause, faddr, epc, estat.setWidth 64, s.cyc s.me.ctl]⟩ }
theorem takeTrap_mesh (t : Trap) {s : State} (h : s.cur.replay = false) : (takeTrap t s).mesh = s.mesh ++ [trapNotice s
    (t.info.getD (Config.freeInfo s.tick) ++ t.code) (t.addr.getD s.me.ctl.faddr)
    (BitVec.ofNat 64 (s.me.pc.toNat % 2 ^ 56 / 2 * 2)) (s.me.ctl.priv.setWidth 2)] := by
  simp only [takeTrap, h, State.log_mesh]
  split <;> simp <;> rfl
/-- A trap touches no core but the acting one, and there the acting context alone. -/
theorem takeTrap_ctxAt_other (t : Trap) (s : State) {c : CoreId} {k : CtxId} (h : c ≠ s.cur.core ∨ k ≠ s.cur.ctx) :
    (takeTrap t s).ctxAt c k = s.ctxAt c k := by
  obtain ⟨x, hx⟩ : ∃ x, (takeTrap t s).cores = (s.setMe x).cores := by
    simp only [takeTrap, State.log_cores, State.notice_cores]
    split <;> exact ⟨_, rfl⟩
  calc (takeTrap t s).ctxAt c k = (s.setMe x).ctxAt c k := by simp only [State.ctxAt, State.core, hx]
    _ = s.ctxAt c k := State.ctxAt_setCtxAt_other s h x

end Sys2Proof.Machine

namespace Sys2Proof.Settled
open Sys2Proof.Machine

/-- Settles O12: TRAP and BRK are their traps, and a trap writes the acting context and sends one notice. -/
theorem takingATrap : Obligations.TakingATrap := by
  refine ⟨fun s i => ⟨rfl, rfl⟩, fun t s hr => ?_⟩
  dsimp only
  rw [takeTrap_me t s hr]
  refine ⟨rfl, rfl, ?code, ?info, rfl, epc_written _, rfl, takeTrap_mem t s, fun c k => takeTrap_ctxAt_other t s, ?notice⟩
  case code => exact BitVec.setWidth_append_eq_right
  case info =>
    rintro info hinfo
    simp [hinfo]
  case notice =>
    refine ⟨_, takeTrap_mesh t hr, rfl, ?core, fld_mkDesc_cls .., fld_mkDesc_prio .., getLsbD_mkSrc_prv .., ?score, ?sctx,
      setWidth_mkDesc .., rfl⟩
    case core => exact ofNat_eq_of_eq_toNat (fld_mkDesc_core ..)
    case score => exact ofNat_eq_of_eq_toNat (fld_mkSrc_core ..)
    case sctx => exact ofNat_eq_of_eq_toNat (fld_mkSrc_ctx ..)

end Sys2Proof.Settled
end

