-- ==== Sys2Proof/Proofs/ScalarFloat.lean ====
section
/-! SUPPORT. Scalar floating-point results in their registers: operands and boxes by precision, flags, comparisons by their NaNs,
and conversions with their draw (R56, R115 to R125); settles O21 and O22. -/
namespace Sys2Proof.Machine

/-! ## Operands and results by precision (R56, R115) -/

theorem fBits_prec (s : State) (r : BitVec 5) (p : BitVec 1) : s.fBits r (prec p) = fOperand s.me r p := by
  rcases (by decide : ∀ p : BitVec 1, p = 0 ∨ p = 1) p with rfl | rfl
  · exact (BitVec.toNat_setWidth 32 (s.me.getF r)).symm
  · exact Nat.mod_eq_of_lt (s.me.getF r).isLt
/-- Every bit of an f register above a result is one. -/
theorem boxF_eq (n x : Nat) : boxF n x = BitVec.ofNat 64 (2 ^ 64 - 2 ^ n + x % 2 ^ n) := by
  rw [boxF, Nat.add_comm]
theorem boxF_prec (p : BitVec 1) (r : Nat) : boxF (prec p).width r = boxed p r := by
  rcases (by decide : ∀ p : BitVec 1, p = 0 ∨ p = 1) p with rfl | rfl
  · show boxF 32 r = BitVec.ofNat 32 0xFFFFFFFF ++ BitVec.ofNat 32 r
    apply BitVec.eq_of_toNat_eq
    rw [boxF, BitVec.toNat_append, BitVec.toNat_ofNat, BitVec.toNat_ofNat, BitVec.toNat_ofNat,
      ← Nat.shiftLeft_add_eq_or_of_lt (Nat.mod_lt _ (Nat.two_pow_pos 32)), Nat.shiftLeft_eq]
    omega
  · show boxF 64 r = BitVec.ofNat 64 r
    apply BitVec.eq_of_toNat_eq
    simp [boxF]

/-! ## What the shared forms write -/

theorem Ctx.flagged_zero (x : Ctx) : x.flagged 0 = x := by simp [Ctx.flagged]
theorem writesF_of_fpOut (s : State) (d : BitVec 5) (p : BitVec 1) (r : Nat × FFlags) :
    finish (.ok (.fall 4) (s.fpOut d (prec p) r)) = writesF s d p r := by
  rw [State.fpOut, boxF_prec, State.addFlags, State.writeF, State.withCtl, State.me_setMe, State.setMe_setMe]
  rfl

section
variable {s : State} (hs : s.plain = true)
include hs

theorem writesF_of_fp3 {i : Instr} {word : Nat} {d a b : BitVec 5} {p : BitVec 1} {f : Fmt → Ctl → Nat → Nat → Nat × FFlags}
    (hi : exec i s = fp3 word d a b p f s) :
    exec i s = writesF s d p (f (fmtP p) s.me.ctl (fOperand s.me a p) (fOperand s.me b p)) := by
  rw [hi, fp3, withRegs_plain hs, writesF_of_fpOut, fBits_prec, fBits_prec]
  rfl
theorem writesF_of_fp2 {i : Instr} {word : Nat} {d a : BitVec 5} {p : BitVec 1} {f : Fmt → Ctl → Nat → Nat × FFlags}
    (hi : exec i s = fp2 word d a p f s) : exec i s = writesF s d p (f (fmtP p) s.me.ctl (fOperand s.me a p)) := by
  rw [hi, fp2, withRegs_plain hs, writesF_of_fpOut, fBits_prec]
  rfl
theorem writesF_of_fp4 {i : Instr} {word : Nat} {d a b : BitVec 5} {p : BitVec 1}
    {f : Fmt → Ctl → Nat → Nat → Nat → Nat × FFlags} (hi : exec i s = fp4 word d a b p f s) :
    exec i s = writesF s d p (f (fmtP p) s.me.ctl (fOperand s.me a p) (fOperand s.me b p) (fOperand s.me d p)) := by
  rw [hi, fp4, withRegs_plain hs, writesF_of_fpOut, fBits_prec, fBits_prec, fBits_prec]
  rfl
theorem writesGF_of_writeG (d : BitVec 5) (w : Word) (fl : FFlags) :
    finish (.ok (.fall 4) ((s.writeG d w).addFlags fl)) = writesGF s d w fl := by
  rw [State.writeG_plain hs, State.addFlags, State.withCtl, State.me_setMe, State.setMe_setMe]
  rfl
theorem writesGF_zero_of_writeG (d : BitVec 5) (w : Word) : finish (.ok (.fall 4) (s.writeG d w)) = writesGF s d w 0 := by
  rw [State.writeG_plain hs, writesGF, Ctx.flagged_zero]
  rfl
end

/-! ## Comparisons (R118) -/

/-- One of two operands is a NaN, or a signalling one. -/
def Fmt.anyNan (f : Fmt) (x y : Nat) : Bool := (f.decode x).isNan || (f.decode y).isNan
def Fmt.anySnan (f : Fmt) (x y : Nat) : Bool := (f.decode x).isSnan || (f.decode y).isSnan
theorem Num.isNan_of_isSnan {a : Num} (h : a.isSnan = true) : a.isNan = true := by
  cases a with
  | nan => rfl
  | zero _ | fin _ _ _ | inf _ => exact absurd h Bool.false_ne_true
theorem Fmt.anySnan_of_not_anyNan {f : Fmt} {x y : Nat} (h : f.anyNan x y = false) : f.anySnan x y = false := by
  rw [Fmt.anyNan, Bool.or_eq_false_iff] at h
  obtain ⟨hx, hy⟩ := h
  rw [Fmt.anySnan, Bool.or_eq_false_iff]
  exact ⟨Bool.eq_false_iff.2 fun h => Bool.eq_false_iff.1 hx (Num.isNan_of_isSnan h),
    Bool.eq_false_iff.2 fun h => Bool.eq_false_iff.1 hy (Num.isNan_of_isSnan h)⟩
/-- A comparison that signals for every NaN. -/
theorem Fmt.compare_signalling (f : Fmt) (c : Num → Num → Bool) (x y : Nat) : f.compare c false x y =
    (!f.anyNan x y && c (f.decode x) (f.decode y), if f.anyNan x y then flagNV else 0) := by
  rw [Fmt.compare, ← Fmt.anyNan]
  cases f.anyNan x y <;> rfl
/-- A comparison that signals for a signalling NaN alone. -/
theorem Fmt.compare_quiet (f : Fmt) (c : Num → Num → Bool) (x y : Nat) : f.compare c true x y =
    (!f.anyNan x y && c (f.decode x) (f.decode y), if f.anySnan x y then flagNV else 0) := by
  rw [Fmt.compare, ← Fmt.anyNan]
  cases h : f.anyNan x y
  · rw [Fmt.anySnan_of_not_anyNan h]
    rfl
  · rfl
theorem cmpLe_eq (a b : Num) : cmpLe a b = (a.lt b || !b.lt a) := by
  rw [cmpLe, Num.eq]
  cases a.lt b <;> rfl
theorem cmpEq_eq (a b : Num) : cmpEq a b = (!a.lt b && !b.lt a) := rfl
section
variable {s : State} (hs : s.plain = true) (d a b : BitVec 5) (p : BitVec 1)
include hs

theorem fpCmp_writesGF (word : Nat) (c : Num → Num → Bool) (quietOk : Bool) :
    fpCmp word d a b p c quietOk s =
      let r := (fmtP p).compare c quietOk (fOperand s.me a p) (fOperand s.me b p)
      writesGF s d (if r.1 then BitVec.allOnes 64 else 0) r.2 := by
  rw [fpCmp, withRegs_plain hs, ← BitVec.neg_one_eq_allOnes, fBits_prec, fBits_prec]
  exact writesGF_of_writeG hs ..
theorem execFclass_writesGF : execFclass d a p s = writesGF s d ((fmtP p).classWord (fOperand s.me a p)) 0 := by
  rw [execFclass, withRegs_plain hs, fBits_prec]
  exact writesGF_zero_of_writeG hs ..
theorem execFmvg_writesGF : execFmvg d a s = writesGF s d (s.me.getF a) 0 := by
  rw [execFmvg, withRegs_plain hs]
  exact writesGF_zero_of_writeG hs ..
theorem execFmvf_plain : execFmvf d a s = .next (retire (.fall 4) (s.setMe (s.me.setF d (s.me.getG a)))) := by
  rw [execFmvf, withRegs_plain hs]
  rfl
end

/-! ## Conversions (R121, R122) -/

theorem State.plain_withCtl {s : State} (hs : s.plain = true) (f : Ctl → Ctl) : (s.withCtl f).plain = true := by
  obtain ⟨howed, hbinds, hstreams, hreplay⟩ := State.plain_iff.1 hs
  refine State.plain_iff.2 ?_
  rw [State.withCtl, State.me_setMe]
  exact ⟨howed, hbinds, hstreams, hreplay⟩
/-- The generator's state and the flags that a conversion leaves (R36, R42). -/
def Ctl.converted (c : Ctl) (seed : BitVec 32) (fl : FFlags) : Ctl := { c with rseed := seed, fflags := c.fflags ||| fl }
theorem converted_of_withCtl (s : State) (seed : BitVec 32) (fl : FFlags) :
    (s.withCtl fun c => { c with rseed := seed }).addFlags fl = s.withCtl fun c => c.converted seed fl := by
  rw [State.addFlags, State.withCtl, State.withCtl, State.me_setMe, State.setMe_setMe]
  rfl
theorem drawsFor_iff (s d : Nat) (mode : Rnd) : drawsFor s d mode = true ↔ mode = .sr ∧ (s < 7 ∨ d < 7) := by
  simp [drawsFor]
/-- The generator's state after FCVT. -/
def fcvtSeed (c : Ctl) (r : BitVec 3) (sT dT : BitVec 4) : BitVec 32 :=
  if convMode c r = .sr ∧ (sT.toNat < 7 ∨ dT.toNat < 7) then draw c.rseed else c.rseed
/-- What FCVT converts its operand to, with the random word of its draw. -/
def fcvtGives (x : Ctx) (a : BitVec 5) (r : BitVec 3) (sT dT : BitVec 4) : Nat × FFlags :=
  convert sT.toNat dT.toNat (convMode x.ctl r) x.ctl.ovn ((fcvtSeed x.ctl r sT dT).toNat / 65536)
    ((if sT.toNat < 7 then x.getF a else x.getG a).toNat % 2 ^ typeBits sT.toNat)
theorem Ctx.setG_with_ctl (x : Ctx) (d : BitVec 5) (w : Word) (c : Ctl) :
    { x with ctl := c }.setG d w = { x.setG d w with ctl := c } := by
  unfold Ctx.setG
  split <;> rfl

section
variable {s : State} (hs : s.plain = true) (d a : BitVec 5) (r : BitVec 3) (sT dT : BitVec 4)
include hs

theorem execFcvt_plain : execFcvt d a r sT dT s = .next (retire (.fall 4) (
    let st := s.withCtl fun c => c.converted (fcvtSeed s.me.ctl r sT dT) (fcvtGives s.me a r sT dT).2
    if dT.toNat < 7 then st.writeF d (boxF (typeBits dT.toNat) (fcvtGives s.me a r sT dT).1)
    else st.writeG d (intToG dT.toNat (fcvtGives s.me a r sT dT).1))) := by
  simp only [execFcvt, withRegs_plain hs, finish_ok, converted_of_withCtl, drawsFor_iff, drawWord]
  rfl
theorem execFcvt_toFloat (h : dT.toNat < 7) : execFcvt d a r sT dT s = .next (retire (.fall 4) (s.setMe
    { s.me.setF d (BitVec.ofNat 64 (2 ^ 64 - 2 ^ typeBits dT.toNat + (fcvtGives s.me a r sT dT).1 % 2 ^ typeBits dT.toNat)) with
      ctl := s.me.ctl.converted (fcvtSeed s.me.ctl r sT dT) (fcvtGives s.me a r sT dT).2 })) := by
  rw [execFcvt_plain hs, if_pos h, boxF_eq, State.writeF, State.withCtl, State.me_setMe, State.setMe_setMe]
  rfl
theorem execFcvt_toInt (h : 7 ≤ dT.toNat) : execFcvt d a r sT dT s = .next (retire (.fall 4) (s.setMe
    { s.me.setG d (intToG dT.toNat (fcvtGives s.me a r sT dT).1) with
      ctl := s.me.ctl.converted (fcvtSeed s.me.ctl r sT dT) (fcvtGives s.me a r sT dT).2 })) := by
  rw [execFcvt_plain hs, if_neg (Nat.not_lt.2 h), State.writeG_plain (State.plain_withCtl hs _), State.withCtl, State.me_setMe,
    State.setMe_setMe, Ctx.withCtl, Ctx.setG_with_ctl]
end

end Sys2Proof.Machine

namespace Sys2Proof.Settled
open Sys2Proof.Machine

/-- Settles O21: a scalar form is its format's operation on the operands' bits, and merges the flags. -/
theorem floatArithmetic : Obligations.FloatArithmetic := by
  intro s d a b r p hs
  refine ⟨?fadd, ?fsub, ?fmul, ?fdiv, ?fsqrt, ?ffma, ?ffms, ?ffnma, ?fmin, ?fmax, ?fsgnj, ?fsgnjn, ?fsgnjx, ?frcpa, ?frsqa,
    ?frcpr, ?frsqr⟩
  case fadd => exact writesF_of_fp3 hs (f := fun f c x y => f.add (arithMode c r) x y) rfl
  case fsub => exact writesF_of_fp3 hs (f := fun f c x y => f.sub (arithMode c r) x y) rfl
  case fmul => exact writesF_of_fp3 hs (f := fun f c x y => f.mul (arithMode c r) x y) rfl
  case fdiv => exact writesF_of_fp3 hs (f := fun f c x y => f.div (arithMode c r) x y) rfl
  case fsqrt => exact writesF_of_fp2 hs (f := fun f c x => f.sqrt (arithMode c r) x) rfl
  case ffma => exact writesF_of_fp4 hs (f := fun f c x y z => f.fma (arithMode c r) false false x y z) rfl
  case ffms => exact writesF_of_fp4 hs (f := fun f c x y z => f.fma (arithMode c r) false true x y z) rfl
  case ffnma => exact writesF_of_fp4 hs (f := fun f c x y z => f.fma (arithMode c r) true false x y z) rfl
  case fmin => exact writesF_of_fp3 hs (f := fun f _ x y => f.minmax false x y) rfl
  case fmax => exact writesF_of_fp3 hs (f := fun f _ x y => f.minmax true x y) rfl
  case fsgnj => exact writesF_of_fp3 hs (f := fun f _ x y => (f.withSign x (y.testBit (f.width - 1)), 0)) rfl
  case fsgnjn => exact writesF_of_fp3 hs (f := fun f _ x y => (f.withSign x (!y.testBit (f.width - 1)), 0)) rfl
  case fsgnjx =>
    exact writesF_of_fp3 hs
      (f := fun f _ x y => (f.withSign x (x.testBit (f.width - 1) != y.testBit (f.width - 1)), 0)) rfl
  case frcpa => exact writesF_of_fp2 hs (f := fun f _ x => f.recip x) rfl
  case frsqa => exact writesF_of_fp2 hs (f := fun f _ x => f.rsqrt x) rfl
  case frcpr => exact writesF_of_fp3 hs (f := fun f c x y => f.newton (arithMode c r) false x y) rfl
  case frsqr => exact writesF_of_fp3 hs (f := fun f c x y => f.newton (arithMode c r) true x y) rfl

/-- Settles O22: comparisons by the NaNs of their operands, FCLASS and the moves, and FCVT by the type it converts to. -/
theorem floatAndInteger : Obligations.FloatAndInteger := by
  intro s d a b r p sT dT hs
  refine ⟨(fpCmp_writesGF hs d a b p _ cmpEq true).trans ?feq, (fpCmp_writesGF hs d a b p _ cmpLt false).trans ?flt,
    (fpCmp_writesGF hs d a b p _ cmpLe false).trans ?fle, execFclass_writesGF hs d a p, execFmvg_writesGF hs d a,
    execFmvf_plain hs d a, fun _ hd => execFcvt_toFloat hs d a r sT dT hd, fun _ hd => execFcvt_toInt hs d a r sT dT hd⟩
  case feq =>
    rw [Fmt.compare_quiet, cmpEq_eq, ← Bool.and_assoc]
    rfl
  case flt =>
    rw [Fmt.compare_signalling]
    rfl
  case fle =>
    rw [Fmt.compare_signalling, cmpLe_eq]
    rfl

end Sys2Proof.Settled
end

