-- ==== Sys2Proof/Proofs/IntegerLanes.lean ====
section
/-! SUPPORT. The integer operations of lanes as words of the lanes' width: saturation, minima, differences, shifts and comparisons
(R126, R127); settles O25. -/
namespace Sys2Proof.Machine

/-! ## Lanes of one width, and forms with one source -/

theorem isIntLane_iff (t : BitVec 3) : isIntLane t = true ↔ t.toNat < 4 := decide_eq_true_iff
theorem lanes_eq (v : Vec) (w n : Nat) : lanes w n v.toNat = (List.range n).map fun j => (laneAt v w j).toNat := by
  simp only [lanes, laneAt_toNat]
theorem State.vLanes_eq (s : State) (a : BitVec 4) (t : BitVec 3) :
    s.vLanes a t = (List.range (128 / laneW t)).map fun j => (laneAt (s.me.getV a) (laneW t) j).toNat :=
  lanes_eq ..
/-- A one-source form is a two-source form that takes its source twice and looks at one. -/
theorem vec2_eq_vec3 {s : State} (hs : s.plain = true) (word : Nat) (d a : BitVec 4) (c : Nat) (t : BitVec 3)
    (fi : Nat → Nat → Nat → Nat) (ff : Fmt → Nat → Nat × FFlags) :
    vec2 word d a c t fi ff s = vec3 4 word d a a c t (fun w c x _ => fi w c x) (fun f _ x _ => ff f x) s := by
  rw [vec2, vec3, withRegs_plain hs, withRegs_plain hs, State.vLanes_eq]
  simp only [List.zip_map', List.map_map]
  rfl
theorem lanesInt_of_vec2 {i : Instr} {s : State} {word : Nat} {d a : BitVec 4} {c : Nat} {t : BitVec 3}
    {fi : Nat → Nat → Nat → Nat} {ff : Fmt → Nat → Nat × FFlags}
    {f : BitVec (laneW t) → BitVec (laneW t) → BitVec (laneW t)}
    (hi : exec i s = vec2 word d a c t fi ff s) (hs : s.plain = true) (ht : isIntLane t = true)
    (hf : ∀ x y, BitVec.ofNat (laneW t) (fi (laneW t) c x.toNat) = f x y) : LanesInt 4 i s d a a (laneW t) f :=
  lanesInt_of_vec3 (hi.trans (vec2_eq_vec3 hs ..)) hs ht hf

/-! ## What the forms run whose lane operation is no operation by name -/

section
variable (s : State) (d a b c : BitVec 4) (t : BitVec 3)

theorem exec_vmin : exec (.vmin d a b c t) s = vec3 4 (wordV 0x20 4 c.toNat b.toNat a.toNat d.toNat t.toNat) d a b c.toNat t
    (vMinMaxI false) (fun f _ x y => f.minmax false x y) s := rfl
theorem exec_vmax : exec (.vmax d a b c t) s = vec3 4 (wordV 0x20 5 c.toNat b.toNat a.toNat d.toNat t.toNat) d a b c.toNat t
    (vMinMaxI true) (fun f _ x y => f.minmax true x y) s := rfl
theorem exec_vabs : exec (.vabs d a c t) s = vec2 (wordV 0x20 6 c.toNat 0 a.toNat d.toNat t.toNat) d a c.toNat t
    (fun w c x => laneSat w c (laneInt w false x).natAbs) (fun f x => (f.withSign x false, 0)) s := rfl
theorem exec_vneg : exec (.vneg d a c t) s = vec2 (wordV 0x20 8 c.toNat 0 a.toNat d.toNat t.toNat) d a c.toNat t
    (fun w c x => laneSat w c (-(laneInt w false x))) (fun f x => (f.withSign x (!x.testBit (f.width - 1)), 0)) s := rfl
theorem exec_vrcpa : exec (.vrcpa d a t) s = vec2 (wordV 0x24 7 0 0 a.toNat d.toNat t.toNat) d a 0 t (fun _ _ x => x)
    (fun f x => f.recip x) s := rfl
theorem exec_vrsqa : exec (.vrsqa d a t) s = vec2 (wordV 0x24 8 0 0 a.toNat d.toNat t.toNat) d a 0 t (fun _ _ x => x)
    (fun f x => f.rsqrt x) s := rfl
end

/-! ## What the integer operations of lanes leave in a lane (R126) -/

section
variable {w : Nat} (x y : BitVec w)

theorem laneInt_signed : laneInt w false x.toNat = x.toInt := by
  rw [laneInt, if_neg Bool.false_ne_true, BitVec.ofNat_toNat, BitVec.setWidth_eq]

theorem clamp_eq_max_min {lo hi : Int} (h : lo ≤ hi) (v : Int) :
    (if v < lo then lo else if hi < v then hi else v) = max lo (min hi v) := by
  split
  · omega
  · split <;> omega
theorem ofNat_laneSat (c : Nat) (v : Int) : BitVec.ofNat w (laneSat w c v) = BitVec.ofInt w (
    let lo : Int := if c = 1 then -2 ^ (w - 1) else 0
    let hi : Int := if c = 1 then 2 ^ (w - 1) - 1 else 2 ^ w - 1
    if c = 0 then v else if v < lo then lo else if hi < v then hi else v) := by
  rw [laneSat, BitVec.ofNat_toNat, BitVec.setWidth_eq]
theorem ofNat_laneSat_signed (v : Int) : BitVec.ofNat w (laneSat w 1 v) = clampS w v := by
  have hpos : (0 : Int) < 2 ^ (w - 1) := by positivity
  rw [ofNat_laneSat, clampS, ← clamp_eq_max_min (by omega)]
  rfl
theorem ofNat_laneSat_unsigned (v : Int) : BitVec.ofNat w (laneSat w 2 v) = clampU w v := by
  have hpos : (0 : Int) < 2 ^ w := by positivity
  rw [ofNat_laneSat, clampU, ← clamp_eq_max_min (by omega)]
  rfl
theorem ofNat_vAddI_signed (sub : Bool) : BitVec.ofNat w (vAddI sub w 1 x.toNat y.toNat) =
    clampS w (if sub then x.toInt - y.toInt else x.toInt + y.toInt) := by
  rw [vAddI, ofNat_laneSat_signed, ← laneInt_signed x, ← laneInt_signed y]
  rfl
theorem ofNat_vAddI_unsigned (sub : Bool) : BitVec.ofNat w (vAddI sub w 2 x.toNat y.toNat) =
    clampU w (if sub then (x.toNat : Int) - y.toNat else x.toNat + y.toNat) :=
  ofNat_laneSat_unsigned _
theorem ofNat_vMulI (c : Nat) : BitVec.ofNat w (vMulI w c x.toNat y.toNat) = x * y := by
  apply BitVec.eq_of_toNat_eq
  rw [vMulI, BitVec.toNat_ofNat, Nat.mod_mod, BitVec.toNat_mul]
/-- The signed order of lanes. -/
theorem laneInt_signed_le : laneInt w false x.toNat ≤ laneInt w false y.toNat ↔ x.sle y = true := by
  rw [laneInt_signed, laneInt_signed, BitVec.sle_iff_toInt_le]
/-- The unsigned order of lanes. -/
theorem laneInt_unsigned_le : laneInt w true x.toNat ≤ laneInt w true y.toNat ↔ x ≤ y := Int.ofNat_le
theorem vMinMaxI_min_signed : vMinMaxI false w 0 x.toNat y.toNat = (if x.sle y then x else y).toNat := by
  simp only [vMinMaxI, Nat.zero_ne_one, decide_false, laneInt_signed_le, Bool.decide_eq_true, Bool.bne_false,
    apply_ite BitVec.toNat]
theorem vMinMaxI_max_signed : vMinMaxI true w 0 x.toNat y.toNat = (if x.sle y then y else x).toNat := by
  simp only [vMinMaxI, Nat.zero_ne_one, decide_false, laneInt_signed_le, Bool.decide_eq_true, Bool.bne_true,
    apply_ite BitVec.toNat]
  cases x.sle y <;> rfl
theorem vMinMaxI_min_unsigned : vMinMaxI false w 1 x.toNat y.toNat = (if x ≤ y then x else y).toNat := by
  simp only [vMinMaxI, decide_true, laneInt_unsigned_le, Bool.bne_false, decide_eq_true_eq, apply_ite BitVec.toNat]
theorem vMinMaxI_max_unsigned : vMinMaxI true w 1 x.toNat y.toNat = (if x ≤ y then y else x).toNat := by
  simp only [vMinMaxI, decide_true, laneInt_unsigned_le, Bool.bne_true, apply_ite BitVec.toNat]
  by_cases h : x ≤ y <;> simp [h]
theorem ofNat_vAbsdI (c : Nat) : BitVec.ofNat w (vAbsdI w c x.toNat y.toNat) =
    BitVec.ofNat w (laneInt w (c = 1) x.toNat - laneInt w (c = 1) y.toNat).natAbs := by
  apply BitVec.eq_of_toNat_eq
  rw [vAbsdI, BitVec.toNat_ofNat, BitVec.toNat_ofNat, Nat.mod_mod]
theorem ofInt_natAbs_toInt : BitVec.ofInt w x.toInt.natAbs = if x.msb then -x else x := by
  rw [BitVec.msb_eq_toInt]
  by_cases h : x.toInt < 0
  · rw [if_pos (decide_eq_true h), Int.ofNat_natAbs_of_nonpos h.le, BitVec.ofInt_neg, BitVec.ofInt_toInt]
  · rw [if_neg (by simpa using h), Int.natAbs_of_nonneg (Int.not_lt.1 h), BitVec.ofInt_toInt]

theorem ofNat_vAbsdI_signed : BitVec.ofNat w (vAbsdI w 0 x.toNat y.toNat) = BitVec.ofNat w (x.toInt - y.toInt).natAbs := by
  rw [ofNat_vAbsdI, ← laneInt_signed x, ← laneInt_signed y]
  rfl
theorem ofNat_laneSat_natAbs : BitVec.ofNat w (laneSat w 0 (laneInt w false x.toNat).natAbs) = if x.msb then -x else x := by
  rw [ofNat_laneSat_wrap, laneInt_signed, ofInt_natAbs_toInt]
theorem ofNat_laneSat_natAbs_signed :
    BitVec.ofNat w (laneSat w 1 (laneInt w false x.toNat).natAbs) = clampS w x.toInt.natAbs := by
  rw [ofNat_laneSat_signed, laneInt_signed]
theorem ofNat_laneSat_neg : BitVec.ofNat w (laneSat w 0 (-laneInt w false x.toNat)) = -x := by
  rw [ofNat_laneSat_wrap, laneInt_signed, BitVec.ofInt_neg, BitVec.ofInt_toInt]
theorem ofNat_laneSat_neg_signed : BitVec.ofNat w (laneSat w 1 (-laneInt w false x.toNat)) = clampS w (-x.toInt) := by
  rw [ofNat_laneSat_signed, laneInt_signed]
theorem ofNat_vShiftI_shl (c : Nat) : BitVec.ofNat w (vShiftI shlN w c x.toNat y.toNat) = x <<< (y.toNat % w) := by
  apply BitVec.eq_of_toNat_eq
  rw [vShiftI, shlN, BitVec.toNat_ofNat, Nat.mod_mod, BitVec.toNat_shiftLeft, Nat.shiftLeft_eq]
theorem ofNat_vShiftI_shr (c : Nat) : BitVec.ofNat w (vShiftI shrN w c x.toNat y.toNat) = x >>> (y.toNat % w) := by
  apply ofNat_eq_of_eq_toNat
  rw [vShiftI, shrN, BitVec.toNat_ushiftRight, Nat.shiftRight_eq_div_pow]
theorem ofNat_vShiftI_sra (c : Nat) : BitVec.ofNat w (vShiftI sraN w c x.toNat y.toNat) = x.sshiftRight (y.toNat % w) := by
  have hsra : BitVec.ofInt w (sraV w x.toNat y.toNat x.toInt y.toInt) = x.sshiftRight (y.toNat % w) := means_sra w x y
  rw [← hsra, sraV, shiftR, toNat_natCast_emod, vShiftI, sraN, ofNat_eq_of_eq_toNat rfl, ofNat_eq_of_eq_toNat rfl]

/-- A comparison of lanes gives all ones or 0. -/
theorem ofNat_vCmpI {f : Int → Int → Bool} {c : Nat} {p : Prop} [Decidable p]
    (h : f (laneInt w (c = 1) x.toNat) (laneInt w (c = 1) y.toNat) = true ↔ p) :
    BitVec.ofNat w (vCmpI f w c x.toNat y.toNat) = if p then BitVec.allOnes w else 0 := by
  have hones : BitVec.ofNat w (2 ^ w - 1) = BitVec.allOnes w := BitVec.eq_of_toNat_eq (by simp)
  rw [vCmpI, apply_ite (BitVec.ofNat w), hones, if_congr h rfl rfl]
  rfl
theorem ofNat_vCmpI_eq : BitVec.ofNat w (vCmpI (fun x y => x = y) w 0 x.toNat y.toNat) = if x = y then BitVec.allOnes w else 0 :=
  ofNat_vCmpI x y <| decide_eq_true_iff.trans <| by
    rw [← BitVec.toInt_inj, ← laneInt_signed x, ← laneInt_signed y]
    rfl
theorem ofNat_vCmpI_lt_signed :
    BitVec.ofNat w (vCmpI (fun x y => x < y) w 0 x.toNat y.toNat) = if x.slt y then BitVec.allOnes w else 0 :=
  ofNat_vCmpI x y <| decide_eq_true_iff.trans <| by
    rw [BitVec.slt_iff_toInt_lt, ← laneInt_signed x, ← laneInt_signed y]
    rfl
theorem ofNat_vCmpI_lt_unsigned :
    BitVec.ofNat w (vCmpI (fun x y => x < y) w 1 x.toNat y.toNat) = if x < y then BitVec.allOnes w else 0 :=
  ofNat_vCmpI x y <| decide_eq_true_iff.trans Int.ofNat_lt
theorem ofNat_vCmpI_le_signed :
    BitVec.ofNat w (vCmpI (fun x y => x ≤ y) w 0 x.toNat y.toNat) = if x.sle y then BitVec.allOnes w else 0 :=
  ofNat_vCmpI x y <| decide_eq_true_iff.trans (laneInt_signed_le x y)
theorem ofNat_vCmpI_le_unsigned :
    BitVec.ofNat w (vCmpI (fun x y => x ≤ y) w 1 x.toNat y.toNat) = if x ≤ y then BitVec.allOnes w else 0 :=
  ofNat_vCmpI x y <| decide_eq_true_iff.trans (laneInt_unsigned_le x y)
end

end Sys2Proof.Machine

namespace Sys2Proof.Settled
open Sys2Proof.Machine

/-- Settles O25: each form does in every lane what its exact value is there, wrapped or clamped. -/
theorem vectorInteger : Obligations.VectorInteger := by
  intro s d a b t hs ht
  have hint : isIntLane t = true := (isIntLane_iff t).2 ht
  refine ⟨?vadd, ?vsub, ?vaddS, ?vsubS, ?vaddU, ?vsubU, ?vmul, ?vmin, ?vminU, ?vmax, ?vmaxU, ?vabsd, ?vabsdU, ?vabs, ?vabsS, ?vneg,
    ?vnegS, ?vshl, ?vshr, ?vsra, ?vcmpeq, ?vcmplt, ?vcmpltU, ?vcmple, ?vcmpleU⟩
  case vadd => exact lanesInt_of_vec3 rfl hs hint fun x y => (vAddI_wrap x y).1
  case vsub => exact lanesInt_of_vec3 rfl hs hint fun x y => (vAddI_wrap x y).2
  case vaddS => exact lanesInt_of_vec3 rfl hs hint fun x y => ofNat_vAddI_signed x y false
  case vsubS => exact lanesInt_of_vec3 rfl hs hint fun x y => ofNat_vAddI_signed x y true
  case vaddU => exact lanesInt_of_vec3 rfl hs hint fun x y => ofNat_vAddI_unsigned x y false
  case vsubU => exact lanesInt_of_vec3 rfl hs hint fun x y => ofNat_vAddI_unsigned x y true
  case vmul => exact lanesInt_of_vec3 rfl hs hint fun x y => ofNat_vMulI x y 0
  case vmin => exact lanesInt_of_vec3 (exec_vmin s d a b 0 t) hs hint fun x y => ofNat_eq_of_eq_toNat (vMinMaxI_min_signed x y)
  case vminU => exact lanesInt_of_vec3 (exec_vmin s d a b 1 t) hs hint fun x y => ofNat_eq_of_eq_toNat (vMinMaxI_min_unsigned x y)
  case vmax => exact lanesInt_of_vec3 (exec_vmax s d a b 0 t) hs hint fun x y => ofNat_eq_of_eq_toNat (vMinMaxI_max_signed x y)
  case vmaxU => exact lanesInt_of_vec3 (exec_vmax s d a b 1 t) hs hint fun x y => ofNat_eq_of_eq_toNat (vMinMaxI_max_unsigned x y)
  case vabsd => exact lanesInt_of_vec3 rfl hs hint fun x y => ofNat_vAbsdI_signed x y
  case vabsdU => exact lanesInt_of_vec3 rfl hs hint fun x y => ofNat_vAbsdI x y 1
  case vabs => exact lanesInt_of_vec2 (exec_vabs s d a 0 t) hs hint fun x _ => ofNat_laneSat_natAbs x
  case vabsS => exact lanesInt_of_vec2 (exec_vabs s d a 1 t) hs hint fun x _ => ofNat_laneSat_natAbs_signed x
  case vneg => exact lanesInt_of_vec2 (exec_vneg s d a 0 t) hs hint fun x _ => ofNat_laneSat_neg x
  case vnegS => exact lanesInt_of_vec2 (exec_vneg s d a 1 t) hs hint fun x _ => ofNat_laneSat_neg_signed x
  case vshl => exact lanesInt_of_vec3 rfl hs hint fun x y => ofNat_vShiftI_shl x y 0
  case vshr => exact lanesInt_of_vec3 rfl hs hint fun x y => ofNat_vShiftI_shr x y 0
  case vsra => exact lanesInt_of_vec3 rfl hs hint fun x y => ofNat_vShiftI_sra x y 0
  case vcmpeq => exact lanesInt_of_vec3 rfl hs hint fun x y => ofNat_vCmpI_eq x y
  case vcmplt => exact lanesInt_of_vec3 rfl hs hint fun x y => ofNat_vCmpI_lt_signed x y
  case vcmpltU => exact lanesInt_of_vec3 rfl hs hint fun x y => ofNat_vCmpI_lt_unsigned x y
  case vcmple => exact lanesInt_of_vec3 rfl hs hint fun x y => ofNat_vCmpI_le_signed x y
  case vcmpleU => exact lanesInt_of_vec3 rfl hs hint fun x y => ofNat_vCmpI_le_unsigned x y

end Sys2Proof.Settled
end

