-- ==== Sys2Proof/Proofs/FloatLanes.lean ====
section
/-! SUPPORT. The floating-point operations of lanes: signs, comparisons and estimates as the scalar operations of the lanes' format
(R118, R119, R127, R134); settles O26. -/
namespace Sys2Proof.Machine

theorem isIntLane_eq_false {t : BitVec 3} (h : 4 ≤ t.toNat) : isIntLane t = false := decide_eq_false (Nat.not_lt.2 h)
theorem laneFmt_width {t : BitVec 3} : isIntLane t = false → (laneFmt t).width = laneW t := by
  revert t
  decide
theorem laneW_pos (t : BitVec 3) : 0 < laneW t := by
  revert t
  decide
/-- What is done in each lane matters on the values of lanes alone. -/
theorem LanesFloat.congr {n : Nat} {i : Instr} {s : State} {d a b : BitVec 4} {w : Nat} {f g : Nat → Nat → Nat × FFlags}
    (h : LanesFloat n i s d a b w f) (hfg : ∀ x y : BitVec w, f x.toNat y.toNat = g x.toNat y.toNat) :
    LanesFloat n i s d a b w g := by
  simpa only [LanesFloat, hfg] using h
theorem lanesFloat_of_vec2 {i : Instr} {s : State} {word : Nat} {d a : BitVec 4} {c : Nat} {t : BitVec 3}
    {fi : Nat → Nat → Nat → Nat} {ff : Fmt → Nat → Nat × FFlags} {f : Nat → Nat → Nat × FFlags}
    (hi : exec i s = vec2 word d a c t fi ff s) (hs : s.plain = true) (ht : isIntLane t = false)
    (hf : ∀ x y : BitVec (laneW t), ff (laneFmt t) x.toNat = f x.toNat y.toNat) : LanesFloat 4 i s d a a (laneW t) f :=
  (lanesFloat_of_vec3 (hi.trans (vec2_eq_vec3 hs ..)) hs ht rfl).congr hf

/-! ## Signs (R119) -/

theorem Fmt.withSign_false (f : Fmt) (x : Nat) : f.withSign x false = x % 2 ^ (f.width - 1) := by
  rw [Fmt.withSign, Fmt.signBit, if_neg Bool.false_ne_true, Nat.zero_add]
/-- The other sign is the sum with the sign bit's weight, kept to the width. -/
theorem Fmt.withSign_not (f : Fmt) (hw : 0 < f.width) {x : Nat} (hx : x < 2 ^ f.width) :
    f.withSign x (!x.testBit (f.width - 1)) = (x + 2 ^ (f.width - 1)) % 2 ^ f.width := by
  obtain ⟨n, hn⟩ := Nat.exists_eq_add_one.2 hw
  rw [hn, Nat.pow_succ] at hx
  rw [Fmt.withSign, Fmt.signBit, hn, Nat.add_sub_cancel, Nat.pow_succ]
  rcases Nat.lt_or_ge x (2 ^ n) with hlt | hge
  · rw [Nat.testBit_lt_two_pow hlt, Bool.not_false, if_pos rfl, Nat.mod_eq_of_lt hlt, Nat.mod_eq_of_lt (by omega), Nat.add_comm]
  · obtain ⟨y, rfl⟩ := Nat.exists_eq_add_of_le hge
    have hy : y < 2 ^ n := by omega
    rw [Nat.testBit_two_pow_add_eq, Nat.testBit_lt_two_pow hy, Nat.add_mod_left, Nat.mod_eq_of_lt hy,
      show 2 ^ n + y + 2 ^ n = 2 ^ n * 2 + y by omega, Nat.add_mod_left, Nat.mod_eq_of_lt (by omega)]
    exact Nat.zero_add y

/-! ## Comparisons (R118, R127) -/

/-- All ones in a lane, or 0. -/
def laneTruth (w : Nat) (c : Bool) : Nat := if c then 2 ^ w - 1 else 0
theorem vCmpF_signalling (c : Num → Num → Bool) (f : Fmt) (m : Rnd) (x y : Nat) : vCmpF c false f m x y =
    (laneTruth f.width (!f.anyNan x y && c (f.decode x) (f.decode y)), if f.anyNan x y then flagNV else 0) := by
  rw [vCmpF, Fmt.compare_signalling]
  rfl
theorem vCmpF_quiet (c : Num → Num → Bool) (f : Fmt) (m : Rnd) (x y : Nat) : vCmpF c true f m x y =
    (laneTruth f.width (!f.anyNan x y && c (f.decode x) (f.decode y)), if f.anySnan x y then flagNV else 0) := by
  rw [vCmpF, Fmt.compare_quiet]
  rfl

end Sys2Proof.Machine

namespace Sys2Proof.Settled
open Sys2Proof.Machine

/-- Settles O26: a lane does what the scalar operation of its format does, and a comparison gives all ones or 0. -/
theorem vectorFloat : Obligations.VectorFloat := by
  intro s d a b t hs ht
  have hflt : isIntLane t = false := isIntLane_eq_false ht
  have hw := laneFmt_width hflt
  refine ⟨?vadd, ?vsub, ?vmul, ?vmin, ?vmax, ?vabs, ?vneg, ?vabsd, ?vcmpeq, ?vcmplt, ?vcmple, ?vrcpa, ?vrsqa⟩
  case vadd => exact lanesFloat_of_vec3 (ff := fun f m x y => f.add m x y) rfl hs hflt rfl
  case vsub => exact lanesFloat_of_vec3 (ff := fun f m x y => f.sub m x y) rfl hs hflt rfl
  case vmul => exact lanesFloat_of_vec3 (ff := fun f m x y => f.mul m x y) rfl hs hflt rfl
  case vmin => exact lanesFloat_of_vec3 (exec_vmin s d a b 0 t) hs hflt rfl
  case vmax => exact lanesFloat_of_vec3 (exec_vmax s d a b 0 t) hs hflt rfl
  case vabs =>
    refine lanesFloat_of_vec2 (exec_vabs s d a 0 t) hs hflt fun x _ => ?_
    rw [Fmt.withSign_false, hw]
    rfl
  case vneg =>
    refine lanesFloat_of_vec2 (exec_vneg s d a 0 t) hs hflt fun x _ => ?_
    rw [Fmt.withSign_not _ (by rw [hw]; exact laneW_pos t) (by rw [hw]; exact x.isLt), hw]
    rfl
  case vabsd => exact lanesFloat_of_vec3 (ff := vAbsdF) rfl hs hflt rfl
  case vcmpeq =>
    refine (lanesFloat_of_vec3 (ff := vCmpF cmpEq true) rfl hs hflt rfl).congr fun x y => ?_
    rw [vCmpF_quiet, cmpEq_eq, ← Bool.and_assoc, hw]
    rfl
  case vcmplt =>
    refine (lanesFloat_of_vec3 (ff := vCmpF cmpLt false) rfl hs hflt rfl).congr fun x y => ?_
    rw [vCmpF_signalling, hw]
    rfl
  case vcmple =>
    refine (lanesFloat_of_vec3 (ff := vCmpF cmpLe false) rfl hs hflt rfl).congr fun x y => ?_
    rw [vCmpF_signalling, cmpLe_eq, hw]
    rfl
  case vrcpa => exact lanesFloat_of_vec2 (exec_vrcpa s d a t) hs hflt fun _ _ => rfl
  case vrsqa => exact lanesFloat_of_vec2 (exec_vrsqa s d a t) hs hflt fun _ _ => rfl

end Sys2Proof.Settled
end

