-- ==== Sys2Proof/Proofs/PairwiseTree.lean ====
section
/-! SUPPORT. The pairwise tree of a reduction: a stage pairs lanes, and the tree of two halves is the operation on the trees of the
halves (R130). -/
namespace Sys2Proof.Machine

variable (f : Nat → Nat → Nat × FFlags)

/-! ## Stages -/

theorem treeStage_length {n : Nat} {l : List Nat} (h : l.length = 2 * n) : (treeStage f l).1.length = n := by
  induction n generalizing l with
  | zero =>
    rw [List.length_eq_zero_iff.1 h]
    rfl
  | succ n ih =>
    match l, h with
    | x :: y :: t, h => simpa [treeStage] using ih (by simpa [Nat.mul_succ] using h)
/-- A stage pairs the lanes of two even parts apart. -/
theorem treeStage_append {n : Nat} {l m : List Nat} (h : l.length = 2 * n) :
    treeStage f (l ++ m) = ((treeStage f l).1 ++ (treeStage f m).1, (treeStage f l).2 ||| (treeStage f m).2) := by
  induction n generalizing l with
  | zero =>
    rw [List.length_eq_zero_iff.1 h]
    simp [treeStage]
  | succ n ih =>
    match l, h with
    | x :: y :: t, h => simp [treeStage, ih (l := t) (by simpa [Nat.mul_succ] using h), BitVec.or_assoc]

/-! ## Trees -/

theorem tree_singleton (n x : Nat) : tree f n [x] = (x, 0) := by
  cases n <;> rfl
theorem tree_succ {l : List Nat} (h : l.length ≠ 1) (n : Nat) :
    tree f (n + 1) l = ((tree f n (treeStage f l).1).1, (treeStage f l).2 ||| (tree f n (treeStage f l).1).2) := by
  match l, h with
  | [], _ => rfl
  | [_], h => exact absurd rfl h
  | _ :: _ :: _, _ => rfl
theorem two_pow_succ_ne_one (k : Nat) : 2 ^ (k + 1) ≠ 1 := (Nat.one_lt_two_pow (Nat.succ_ne_zero k)).ne'
/-- The tree over 2^k lanes is at its end after k stages. -/
theorem tree_add {k : Nat} {l : List Nat} (h : l.length = 2 ^ k) (n : Nat) : tree f (k + n) l = tree f k l := by
  induction k generalizing l with
  | zero =>
    obtain ⟨x, rfl⟩ := List.length_eq_one_iff.1 h
    rw [tree_singleton, tree_singleton]
  | succ k ih =>
    have hne : l.length ≠ 1 := h ▸ two_pow_succ_ne_one k
    rw [Nat.succ_add, tree_succ f hne, tree_succ f hne, ih (treeStage_length f (by rw [h, Nat.pow_succ']))]
/-- The tree over two halves is the operation on what the trees over them give. -/
theorem tree_append {k : Nat} {l m : List Nat} (hl : l.length = 2 ^ k) (hm : m.length = 2 ^ k) :
    tree f (k + 1) (l ++ m) =
      let x := tree f k l
      let y := tree f k m
      let r := f x.1 y.1
      (r.1, x.2 ||| y.2 ||| r.2) := by
  induction k generalizing l m with
  | zero =>
    obtain ⟨x, rfl⟩ := List.length_eq_one_iff.1 hl
    obtain ⟨y, rfl⟩ := List.length_eq_one_iff.1 hm
    simp [tree, treeStage]
  | succ k ih =>
    have hlm : (l ++ m).length ≠ 1 := by
      rw [List.length_append, hl, hm, ← Nat.two_mul, ← Nat.pow_succ']
      exact two_pow_succ_ne_one _
    rw [Nat.pow_succ'] at hl hm
    have hsl := treeStage_length f hl
    have hsm := treeStage_length f hm
    rw [tree_succ f hlm, treeStage_append f hl]
    dsimp only
    rw [ih hsl hsm, tree_succ f (by rw [hl, ← Nat.pow_succ']; exact two_pow_succ_ne_one k),
      tree_succ f (by rw [hm, ← Nat.pow_succ']; exact two_pow_succ_ne_one k)]
    dsimp only
    congr 1
    ac_rfl
theorem range_two_pow_succ_map (g : Nat → Nat) (k i : Nat) : (List.range (2 ^ (k + 1))).map (fun j => g (i * 2 ^ (k + 1) + j)) =
    (List.range (2 ^ k)).map (fun j => g (2 * i * 2 ^ k + j)) ++ (List.range (2 ^ k)).map fun j => g ((2 * i + 1) * 2 ^ k + j) := by
  rw [Nat.pow_succ, Nat.mul_two, List.range_add, List.map_append, List.map_map]
  congr 1 <;> refine List.map_congr_left fun j _ => congrArg g ?_
  · ring
  · dsimp only
    ring
/-- The model's tree over the lanes from i·2^k on is the rule's. -/
theorem tree_eq_pairTree (lane : Nat → Nat) (k i : Nat) :
    tree f k ((List.range (2 ^ k)).map fun j => lane (i * 2 ^ k + j)) = pairTree f lane k i := by
  induction k generalizing i with
  | zero => simp [tree, pairTree]
  | succ k ih => rw [range_two_pow_succ_map, tree_append f (by simp) (by simp), ih, ih, pairTree]
/-- Operations that agree below a bound, and stay below it, make the same tree of lanes below it. -/
theorem pairTree_congr {f g : Nat → Nat → Nat × FFlags} {lane : Nat → Nat} {b : Nat} (hlane : ∀ j, lane j < b)
    (hfg : ∀ x < b, ∀ y < b, f x y = g x y) (hg : ∀ x < b, ∀ y < b, (g x y).1 < b) (k i : Nat) :
    pairTree f lane k i = pairTree g lane k i ∧ (pairTree g lane k i).1 < b := by
  induction k generalizing i with
  | zero => exact ⟨rfl, hlane i⟩
  | succ k ih =>
    obtain ⟨hx, hxb⟩ := ih (2 * i)
    obtain ⟨hy, hyb⟩ := ih (2 * i + 1)
    simp only [pairTree, hx, hy, hfg _ hxb _ hyb]
    exact ⟨trivial, hg _ hxb _ hyb⟩

end Sys2Proof.Machine
end

