-- ==== Sys2Proof/Proofs/VectorMoves.lean ====
section
/-! SUPPORT. The vector forms beyond one operation on two lanes: fused lanes, dot products, selection, permutes, moves between files
and reductions (R127 to R130); settles O27. -/
namespace Sys2Proof.Machine

/-! ## Results made of lanes -/

theorem laneAt_ofLanes_range {w n : Nat} (hw : w * n = 128) (g : Nat → Nat) {j : Nat} (hj : j < n) :
    laneAt (BitVec.ofNat 128 (ofLanes w ((List.range n).map g))) w j = BitVec.ofNat w (g j) := by
  rw [laneAt_ofLanes (by simpa using hw) (by simpa using hj), List.getElem_map, List.getElem_range]

section
variable {s : State} (hs : s.plain = true) (len : Nat) (d : BitVec 4)
include hs

theorem writesV_of_writeV (v : Vec) : finish (.ok (.fall len) (s.writeV d v)) = writesV len s d v 0 := by
  rw [State.writeV_plain hs, writesV, Ctx.flagged_zero]
  rfl
/-- A register written from lanes with their flags, and what each lane then is. -/
theorem writesV_of_vOut {w n : Nat} (hw : w * n = 128) (g : Nat → Nat × FFlags) :
    ∃ r : Vec, finish (.ok (.fall len) (s.vOut d w ((List.range n).map g))) =
        writesV len s d r ((List.range n).foldl (fun fl j => fl ||| (g j).2) 0) ∧
      ∀ j < n, laneAt r w j = BitVec.ofNat w (g j).1 := by
  refine ⟨BitVec.ofNat 128 (ofLanes w ((List.range n).map fun j => (g j).1)), ?_, fun j hj => laneAt_ofLanes_range hw _ hj⟩
  rw [State.vOut_plain hs, List.map_map, List.foldl_map]
  rfl
theorem writesV_of_vOut_quiet {w n : Nat} (hw : w * n = 128) (g : Nat → Nat) :
    ∃ r : Vec, finish (.ok (.fall len) (s.vOut d w ((List.range n).map fun j => (g j, 0)))) = writesV len s d r 0 ∧
      ∀ j < n, laneAt r w j = BitVec.ofNat w (g j) := by
  obtain ⟨r, hr, hl⟩ := writesV_of_vOut hs len d hw fun j => (g j, 0)
  rw [foldl_or_zero] at hr
  exact ⟨r, hr, hl⟩
end

/-- Three registers' lanes side by side. -/
theorem State.vLanes_zip3 (s : State) (a b c : BitVec 4) (t : BitVec 3) :
    (s.vLanes a t).zip ((s.vLanes b t).zip (s.vLanes c t)) = (List.range (128 / laneW t)).map fun j =>
      ((laneAt (s.me.getV a) (laneW t) j).toNat, (laneAt (s.me.getV b) (laneW t) j).toNat,
        (laneAt (s.me.getV c) (laneW t) j).toNat) := by
  rw [State.vLanes_eq, State.vLanes_eq, State.vLanes_eq, List.zip_map', List.zip_map']

theorem toNat_eq_zero_iff {n : Nat} {x : BitVec n} : x.toNat = 0 ↔ x = 0 := by
  rw [← BitVec.toNat_inj, BitVec.ofNat_eq_ofNat, BitVec.toNat_ofNat, Nat.zero_mod]

/-! ## Fused lanes, selection and dot products (R127, R128) -/

section
variable {s : State} (hs : s.plain = true) (d a b c : BitVec 4) {t : BitVec 3}
include hs

theorem execVfma_int (ht : isIntLane t = true) : ∃ r : Vec, execVfma d a b c t s = writesV 4 s d r 0 ∧
    ∀ j < 128 / laneW t, laneAt r (laneW t) j = laneAt (s.me.getV a) (laneW t) j * laneAt (s.me.getV b) (laneW t) j +
      laneAt (s.me.getV c) (laneW t) j := by
  rw [execVfma, withRegs_plain hs]
  simp only [State.vLanes_zip3, List.map_map, Function.comp_def, ht, if_true]
  obtain ⟨r, hr, hl⟩ := writesV_of_vOut_quiet hs 4 d (laneW_mul t) fun j =>
    ((laneAt (s.me.getV a) (laneW t) j).toNat * (laneAt (s.me.getV b) (laneW t) j).toNat +
      (laneAt (s.me.getV c) (laneW t) j).toNat) % 2 ^ laneW t
  refine ⟨r, hr, fun j hj => (hl j hj).trans ?_⟩
  apply BitVec.eq_of_toNat_eq
  rw [BitVec.toNat_ofNat, Nat.mod_mod, BitVec.toNat_add, BitVec.toNat_mul, Nat.mod_add_mod]
theorem execVfma_float (ht : isIntLane t = false) :
    let one (j : Nat) := (laneFmt t).fma (vMode s.me.ctl) false false (laneAt (s.me.getV a) (laneW t) j).toNat
      (laneAt (s.me.getV b) (laneW t) j).toNat (laneAt (s.me.getV c) (laneW t) j).toNat
    ∃ r : Vec,
      execVfma d a b c t s = writesV 4 s d r ((List.range (128 / laneW t)).foldl (fun fl j => fl ||| (one j).2) 0) ∧
      ∀ j < 128 / laneW t, laneAt r (laneW t) j = BitVec.ofNat (laneW t) (one j).1 := by
  rw [execVfma, withRegs_plain hs]
  simp only [State.vLanes_zip3, List.map_map, Function.comp_def, ht]
  exact writesV_of_vOut hs 4 d (laneW_mul t) _
variable (t) in
theorem execVsel_plain : ∃ r : Vec, execVsel d a b c t s = writesV 4 s d r 0 ∧ ∀ j < 128 / laneW t,
    laneAt r (laneW t) j = if laneAt (s.me.getV c) (laneW t) j ≠ 0 then laneAt (s.me.getV a) (laneW t) j
      else laneAt (s.me.getV b) (laneW t) j := by
  rw [execVsel, withRegs_plain hs]
  simp only [State.vLanes_zip3, List.map_map, Function.comp_def]
  obtain ⟨r, hr, hl⟩ := writesV_of_vOut_quiet hs 4 d (laneW_mul t) fun j =>
    if (laneAt (s.me.getV c) (laneW t) j).toNat ≠ 0 then (laneAt (s.me.getV a) (laneW t) j).toNat
    else (laneAt (s.me.getV b) (laneW t) j).toNat
  refine ⟨r, hr, fun j hj => (hl j hj).trans (ofNat_eq_of_eq_toNat ?_)⟩
  rw [← apply_ite BitVec.toNat]
  exact congrArg BitVec.toNat (if_congr (not_congr toNat_eq_zero_iff) rfl rfl)
end

/-- A field of a field is a field. -/
theorem nbits_nbits (x lo len : Nat) {i k : Nat} (h : i + k ≤ len) : nbits (nbits x lo len) i k = nbits x (lo + i) k := by
  obtain ⟨m, rfl⟩ := Nat.exists_eq_add_of_le h
  rw [nbits, nbits, nbits, Nat.add_assoc, Nat.pow_add 2 i, Nat.mod_mul_right_div_self,
    Nat.mod_mod_of_dvd _ (Nat.pow_dvd_pow 2 (by omega)), Nat.div_div_eq_div_mul, ← Nat.pow_add]
/-- The elements that stand in a 32-bit lane. -/
theorem lanes_of_nbits (v : Vec) {w : Nat} (hw : w * (32 / w) = 32) (j : Nat) :
    lanes w (32 / w) (nbits v.toNat (32 * j) 32) = (List.range (32 / w)).map fun i => (laneAt v w (32 / w * j + i)).toNat := by
  refine List.map_congr_left fun i hi => ?_
  have hin : w * i + w ≤ 32 := by
    rw [← Nat.mul_succ]
    exact (Nat.mul_le_mul_left w (List.mem_range.1 hi)).trans_eq hw
  rw [nbits_nbits _ _ _ hin, laneAt_toNat, Nat.mul_add, ← Nat.mul_assoc, hw]

section
variable {s : State} (hs : s.plain = true) (d a b : BitVec 4) {t : BitVec 3} (hw : laneW t * (32 / laneW t) = 32)
include hs hw

theorem execVdot_int (ht : isIntLane t = true) : ∃ r : Vec, execVdot d a b t s = writesV 4 s d r 0 ∧ ∀ j < 4,
    laneAt r 32 j = BitVec.ofInt 32 ((laneAt (s.me.getV d) 32 j).toInt + ((List.range (32 / laneW t)).map fun i =>
      (laneAt (s.me.getV a) (laneW t) (32 / laneW t * j + i)).toInt *
        (laneAt (s.me.getV b) (laneW t) (32 / laneW t * j + i)).toInt).sum) := by
  rw [execVdot, withRegs_plain hs]
  simp only [lanes_of_nbits _ hw, ht, if_true, List.zip_map', List.map_map, Function.comp_def, laneInt_signed]
  obtain ⟨r, hr, hl⟩ := writesV_of_vOut_quiet hs 4 d (w := 32) (n := 4) rfl fun j =>
    (BitVec.ofInt 32 ((nbits (s.me.getV d).toNat (32 * j) 32 : Int) + ((List.range (32 / laneW t)).map fun i =>
      (laneAt (s.me.getV a) (laneW t) (32 / laneW t * j + i)).toInt *
        (laneAt (s.me.getV b) (laneW t) (32 / laneW t * j + i)).toInt).sum)).toNat
  refine ⟨r, hr, fun j hj => (hl j hj).trans (ofNat_eq_of_eq_toNat ?_)⟩
  rw [← laneAt_toNat, BitVec.ofInt_add, BitVec.ofInt_add, ofInt_toNat, BitVec.ofInt_toInt]
theorem execVdot_float (ht : isIntLane t = false) :
    let elems (v : Vec) (j : Nat) := (List.range (32 / laneW t)).map fun i => (laneAt v (laneW t) (32 / laneW t * j + i)).toNat
    let one (j : Nat) := dotLane (laneFmt t) (vMode s.me.ctl) (elems (s.me.getV a) j) (elems (s.me.getV b) j)
      (laneAt (s.me.getV d) 32 j).toNat
    ∃ r : Vec, execVdot d a b t s = writesV 4 s d r ((List.range 4).foldl (fun fl j => fl ||| (one j).2) 0) ∧
      ∀ j < 4, laneAt r 32 j = BitVec.ofNat 32 (one j).1 := by
  rw [execVdot, withRegs_plain hs]
  simp only [lanes_of_nbits _ hw, ht]
  simp only [← laneAt_toNat]
  exact writesV_of_vOut hs 4 d (w := 32) (n := 4) rfl _
end

/-! ## Permutes and moves (R129) -/

theorem setAt_eq_set {α : Type} (l : List α) (i : Nat) (y : α) : setAt l i y = l.set i y := by
  induction l generalizing i with
  | nil => rfl
  | cons x t ih =>
    cases i with
    | zero => rfl
    | succ i => rw [setAt, List.set_cons_succ, ih]
theorem lanes_length (w n x : Nat) : (lanes w n x).length = n := by simp [lanes]
theorem lanes_getElem (v : Vec) {w n j : Nat} (h : j < (lanes w n v.toNat).length) :
    (lanes w n v.toNat)[j] = (laneAt v w j).toNat := by
  simp [lanes, laneAt_toNat]
theorem State.vLanes_length (s : State) (a : BitVec 4) (t : BitVec 3) : (s.vLanes a t).length = 128 / laneW t := lanes_length ..
theorem State.vLanes_getElem {s : State} {a : BitVec 4} {t : BitVec 3} {j : Nat} (h : j < (s.vLanes a t).length) :
    (s.vLanes a t)[j] = (laneAt (s.me.getV a) (laneW t) j).toNat := lanes_getElem _ h
/-- Byte k of the 32 that VPERM chooses from, those of va below those of vb. -/
theorem permByte_eq (va vb : Vec) {k : Nat} (h : k < 32) :
    (lanes 8 16 va.toNat ++ lanes 8 16 vb.toNat).getD k 0 = ((vb ++ va).extractLsb' (8 * k) 8).toNat := by
  rw [List.getD_eq_getElem _ _ (by simpa [lanes_length] using h)]
  rcases Nat.lt_or_ge k 16 with hk | hk
  · rw [List.getElem_append_left (by rwa [lanes_length]), lanes_getElem, BitVec.extractLsb'_append_eq_of_add_le (by omega)]
    rfl
  · rw [List.getElem_append_right (by rwa [lanes_length]), lanes_getElem, BitVec.extractLsb'_append_eq_of_le (by omega), laneAt,
      lanes_length, Nat.mul_sub]
theorem laneW_le (t : BitVec 3) : laneW t ≤ 64 := by
  revert t
  decide

section
variable {s : State} (hs : s.plain = true) (d a b c : BitVec 4) (t : BitVec 3)
include hs

theorem execVperm_plain : ∃ r : Vec, execVperm d a b c s = writesV 4 s d r 0 ∧ ∀ j < 16, laneAt r 8 j =
    if (laneAt (s.me.getV c) 8 j).msb then 0
    else (s.me.getV b ++ s.me.getV a).extractLsb' (8 * ((laneAt (s.me.getV c) 8 j).toNat % 32)) 8 := by
  rw [execVperm, withRegs_plain hs]
  refine ⟨_, writesV_of_writeV hs 4 d _, fun j hj => ?_⟩
  rw [lanes_eq (s.me.getV c), List.map_map, laneAt_ofLanes_range rfl _ hj, Function.comp, BitVec.msb_eq_decide]
  by_cases h : 128 ≤ (laneAt (s.me.getV c) 8 j).toNat
  · rw [if_pos h, if_pos (by simpa using h)]
    rfl
  · rw [if_neg h, if_neg (by simpa using h)]
    exact ofNat_eq_of_eq_toNat (permByte_eq _ _ (Nat.mod_lt _ (by decide)))
theorem execVbcast_plain : ∃ r : Vec, execVbcast d b t s = writesV 4 s d r 0 ∧
    ∀ j < 128 / laneW t, laneAt r (laneW t) j = (s.me.getG (b.setWidth 5)).setWidth (laneW t) := by
  rw [execVbcast, withRegs_plain hs]
  refine ⟨_, writesV_of_writeV hs 4 d _, fun j hj => ?_⟩
  rw [laneAt_ofLanes (by simpa using laneW_mul t) (by simpa using hj), List.getElem_replicate, BitVec.ofNat_toNat]
theorem execVins_plain : ∃ r : Vec, execVins d b c t s = writesV 4 s d r 0 ∧
    ∀ j < 128 / laneW t, laneAt r (laneW t) j = if j = c.toNat then (s.me.getG (b.setWidth 5)).setWidth (laneW t)
      else laneAt (s.me.getV d) (laneW t) j := by
  rw [execVins, withRegs_plain hs]
  refine ⟨_, writesV_of_writeV hs 4 d _, fun j hj => ?_⟩
  rw [setAt_eq_set, laneAt_ofLanes (by simpa [State.vLanes_length] using laneW_mul t) (by simpa [State.vLanes_length] using hj),
    List.getElem_set, State.vLanes_getElem, apply_ite (BitVec.ofNat _), BitVec.ofNat_toNat, ofNat_eq_of_eq_toNat rfl]
  exact if_congr eq_comm rfl rfl
theorem writesG_of_writeG (d : BitVec 5) (x : Word) : finish (.ok (.fall 4) (s.writeG d x)) = writesG 4 s d x := by
  rw [State.writeG_plain hs]
  rfl
theorem execVext_plain (hc : c.toNat < 128 / laneW t) : execVext d a c t s = writesG 4 s (d.setWidth 5)
    (if isIntLane t then (laneAt (s.me.getV a) (laneW t) c.toNat).signExtend 64
      else (laneAt (s.me.getV a) (laneW t) c.toNat).setWidth 64) := by
  rw [execVext, withRegs_plain hs, List.getD_eq_getElem _ _ (by rwa [State.vLanes_length]), State.vLanes_getElem,
    BitVec.ofNat_toNat]
  dsimp only
  rw [sextW, BitVec.setWidth_setWidth_of_le _ (laneW_le t), BitVec.setWidth_eq]
  exact writesG_of_writeG hs ..
end

/-! ## Reductions (R130) -/

theorem laneCount_eq_two_pow (t : BitVec 3) : 128 / laneW t = 2 ^ stagesOf (laneW t) := by
  revert t
  decide
theorem stagesOf_le (w : Nat) : stagesOf w ≤ 4 := by
  unfold stagesOf
  split <;> decide
/-- What a reduction does with two lanes. -/
def reduceOp (s : State) (c : Nat) (t : BitVec 3) (fi : Nat → Nat → Nat → Nat → Nat)
    (ff : Fmt → Rnd → Nat → Nat → Nat × FFlags) (x y : Nat) : Nat × FFlags :=
  if isIntLane t then (fi (laneW t) c x y, 0) else ff (laneFmt t) (vMode s.me.ctl) x y
theorem tree_vLanes (f : Nat → Nat → Nat × FFlags) (s : State) (a : BitVec 4) (t : BitVec 3) : tree f 4 (s.vLanes a t) =
    pairTree f (fun j => (laneAt (s.me.getV a) (laneW t) j).toNat) (stagesOf (laneW t)) 0 := by
  obtain ⟨n, hn⟩ := Nat.exists_eq_add_of_le (stagesOf_le (laneW t))
  rw [State.vLanes_eq, laneCount_eq_two_pow, hn, tree_add f (by simp), ← tree_eq_pairTree]
  simp
theorem reduces_of_reduce {i : Instr} {s : State} {word : Nat} {d a : BitVec 4} {c : Nat} {t : BitVec 3}
    {fi : Nat → Nat → Nat → Nat → Nat} {ff : Fmt → Rnd → Nat → Nat → Nat × FFlags}
    (hi : exec i s = reduce word d a c t fi ff s) (hs : s.plain = true) :
    Reduces i s d a (laneW t) (reduceOp s c t fi ff) := by
  rw [Reduces, hi, reduce, withRegs_plain hs, ← tree_vLanes, ← BitVec.ofNat_toNat, BitVec.toNat_ofNat]
  show finish (.ok (.fall 4) (s.vOut d (laneW t) [tree (reduceOp s c t fi ff) 4 (s.vLanes a t)])) = _
  rw [State.vOut_plain hs]
  simp [ofLanes, writesV]

section
variable {i : Instr} {s : State} {word : Nat} {d a : BitVec 4} {c : Nat} {t : BitVec 3} {fi : Nat → Nat → Nat → Nat → Nat}
  {ff : Fmt → Rnd → Nat → Nat → Nat × FFlags} (hi : exec i s = reduce word d a c t fi ff s) (hs : s.plain = true)
include hi hs

theorem reduces_int (ht : isIntLane t = true) {f : BitVec (laneW t) → BitVec (laneW t) → BitVec (laneW t)}
    (hf : ∀ x y : BitVec (laneW t), fi (laneW t) c x.toNat y.toNat = (f x y).toNat) :
    Reduces i s d a (laneW t) (quietly (laneW t) f) := by
  have hop : ∀ x < 2 ^ laneW t, ∀ y < 2 ^ laneW t, reduceOp s c t fi ff x y = quietly (laneW t) f x y := by
    intro x hx y hy
    have h := hf (BitVec.ofNat _ x) (BitVec.ofNat _ y)
    rw [BitVec.toNat_ofNat, BitVec.toNat_ofNat, Nat.mod_eq_of_lt hx, Nat.mod_eq_of_lt hy] at h
    rw [reduceOp, if_pos ht, h, quietly]
  have htree := pairTree_congr (lane := fun j => (laneAt (s.me.getV a) (laneW t) j).toNat) (fun j => BitVec.isLt _) hop
    (fun x _ y _ => BitVec.isLt _) (stagesOf (laneW t)) 0
  rw [Reduces, ← htree.1]
  exact reduces_of_reduce hi hs
theorem reduces_float (ht : isIntLane t = false) {f : Nat → Nat → Nat × FFlags} (hf : ff (laneFmt t) (vMode s.me.ctl) = f) :
    Reduces i s d a (laneW t) f := by
  have hop : reduceOp s c t fi ff = f := by
    funext x y
    rw [reduceOp, ht, if_neg Bool.false_ne_true, hf]
  exact hop ▸ reduces_of_reduce hi hs
end

section
variable (s : State) (d a c : BitVec 4) (t : BitVec 3)

theorem exec_vredadd : exec (.vredadd d a t) s = reduce (wordV 0x24 0 0 0 a.toNat d.toNat t.toNat) d a 0 t (vAddI false)
    (fun f m x y => f.add m x y) s := rfl
theorem exec_vredmin : exec (.vredmin d a c t) s = reduce (wordV 0x24 1 c.toNat 0 a.toNat d.toNat t.toNat) d a c.toNat t
    (vMinMaxI false) (fun f _ x y => f.minmax false x y) s := rfl
theorem exec_vredmax : exec (.vredmax d a c t) s = reduce (wordV 0x24 2 c.toNat 0 a.toNat d.toNat t.toNat) d a c.toNat t
    (vMinMaxI true) (fun f _ x y => f.minmax true x y) s := rfl
end
theorem vAddI_toNat {w : Nat} (x y : BitVec w) : vAddI false w 0 x.toNat y.toNat = (x + y).toNat := by
  rw [← (vAddI_wrap x y).1, BitVec.toNat_ofNat, Nat.mod_eq_of_lt]
  exact BitVec.isLt _

end Sys2Proof.Machine

namespace Sys2Proof.Settled
open Sys2Proof.Machine

/-- Settles O27: each form by the lanes it takes and leaves; a reduction by the tree of its lanes. -/
theorem vectorMoves : Obligations.VectorMoves := by
  intro s d a b c t hs
  refine ⟨vecBits_writesV hs 4 _ d a b fun x y => x &&& y, vecBits_writesV hs 4 _ d a b fun x y => x ||| y,
    vecBits_writesV hs 4 _ d a b fun x y => x ^^^ y, vecBits_writesV hs 4 _ d a a fun x _ => ~~~x,
    fun ht => execVfma_int hs d a b c ((isIntLane_iff t).2 ht), fun ht => execVfma_float hs d a b c (isIntLane_eq_false ht),
    ?vdotInt, ?vdotFloat, execVsel_plain hs d a b c t, execVperm_plain hs d a b c, execVbcast_plain hs d b t,
    execVins_plain hs d b c t, ?vext, ?reduceInt, ?reduceFloat⟩
  case vdotInt =>
    intro ht
    have hw : ∀ t : BitVec 3, t.toNat < 2 → laneW t * (32 / laneW t) = 32 := by decide
    exact execVdot_int hs d a b (hw t ht) ((isIntLane_iff t).2 (by omega))
  case vdotFloat =>
    rintro (rfl | rfl)
    · exact execVdot_float hs d a b (t := 6) rfl rfl
    · exact execVdot_float hs d a b (t := 7) rfl rfl
  case vext =>
    intro hc
    refine (execVext_plain hs d a c t hc).trans ?_
    simp only [isIntLane_iff]
    rfl
  case reduceInt =>
    intro ht
    have hint := (isIntLane_iff t).2 ht
    exact ⟨reduces_int (exec_vredadd s d a t) hs hint vAddI_toNat,
      reduces_int (exec_vredmin s d a 0 t) hs hint vMinMaxI_min_signed,
      reduces_int (exec_vredmin s d a 1 t) hs hint vMinMaxI_min_unsigned,
      reduces_int (exec_vredmax s d a 0 t) hs hint vMinMaxI_max_signed,
      reduces_int (exec_vredmax s d a 1 t) hs hint vMinMaxI_max_unsigned⟩
  case reduceFloat =>
    intro ht
    have hflt := isIntLane_eq_false ht
    exact ⟨reduces_float (exec_vredadd s d a t) hs hflt rfl, reduces_float (exec_vredmin s d a 0 t) hs hflt rfl,
      reduces_float (exec_vredmax s d a 0 t) hs hflt rfl⟩

end Sys2Proof.Settled
end

