-- ==== Sys2Proof/Proofs/VectorConversion.lean ====
section
/-! SUPPORT. Packed conversions with their draws, lanes narrowed and widened, and the activation threshold as a pass over the lanes
in order (R36, R131 to R133); settles O28. -/
namespace Sys2Proof.Machine

/-! ## Lanes that fill a part of a register -/

theorem toNat_ofLanes {w : Nat} {l : List Nat} (hw : w * l.length ≤ 128) :
    (BitVec.ofNat 128 (ofLanes w l)).toNat = ofLanes w l := by
  rw [BitVec.toNat_ofNat, Nat.mod_eq_of_lt ((ofLanes_lt w l).trans_le (Nat.pow_le_pow_right (by decide) hw))]
theorem laneAt_ofLanes_of_le {w : Nat} {l : List Nat} (hw : w * l.length ≤ 128) {j : Nat} (h : j < l.length) :
    laneAt (BitVec.ofNat 128 (ofLanes w l)) w j = BitVec.ofNat w l[j] := by
  apply BitVec.eq_of_toNat_eq
  rw [laneAt_toNat, toNat_ofLanes hw, nbits_ofLanes w l h, BitVec.toNat_ofNat]
/-- Nothing stands above the lanes. -/
theorem ofLanes_ushiftRight {w : Nat} {l : List Nat} (hw : w * l.length ≤ 128) :
    BitVec.ofNat 128 (ofLanes w l) >>> (w * l.length) = 0 := by
  apply BitVec.eq_of_toNat_eq
  rw [BitVec.toNat_ushiftRight, toNat_ofLanes hw, Nat.shiftRight_eq_div_pow, Nat.div_eq_of_lt (ofLanes_lt w l)]
  rfl
/-- A control register and a vector register written, in the acting context alone. -/
theorem writeV_withCtl {s : State} (hs : s.plain = true) (f : Ctl → Ctl) (d : BitVec 4) (v : Vec) :
    (s.withCtl f).writeV d v = s.setMe { s.me.setV d v with ctl := f s.me.ctl } := by
  rw [State.writeV_plain (State.plain_withCtl hs f), State.withCtl, State.me_setMe, State.setMe_setMe]
  rfl

/-! ## Conversion (R131) -/

/-- The generator's state after j draws, where the conversion draws (R36). -/
def seedAfter (src dst : Nat) (mode : Rnd) (seed : BitVec 32) (j : Nat) : BitVec 32 :=
  if mode = .sr ∧ (src < 7 ∨ dst < 7) then draw^[j] seed else seed
theorem seedAfter_succ (src dst : Nat) (mode : Rnd) (seed : BitVec 32) (j : Nat) :
    seedAfter src dst mode seed (j + 1) = seedAfter src dst mode (seedAfter src dst mode seed 1) j := by
  unfold seedAfter
  split <;> rfl
/-- Element j of a packed conversion, with the random word of its own draw. -/
def convertOne (src dst : Nat) (mode : Rnd) (ovn : Bool) (seed : BitVec 32) (g : Nat → Nat) (j : Nat) : Nat × FFlags :=
  convert src dst mode ovn (drawWord (seedAfter src dst mode seed (j + 1))) (g j)
theorem foldl_or_start {α : Type} (f : α → FFlags) (l : List α) (x : FFlags) :
    l.foldl (fun fl j => fl ||| f j) x = x ||| l.foldl (fun fl j => fl ||| f j) 0 := by
  induction l generalizing x with
  | nil => exact BitVec.or_zero.symm
  | cons y t ih =>
    have hzero : (0 : FFlags) ||| f y = f y := BitVec.zero_or
    rw [List.foldl_cons, List.foldl_cons, hzero, ih, ih (f y), BitVec.or_assoc]
theorem convertAll_range (src dst : Nat) (mode : Rnd) (ovn : Bool) (seed : BitVec 32) (n : Nat) (g : Nat → Nat) :
    convertAll src dst mode ovn seed ((List.range n).map g) =
      ((List.range n).map fun j => (convertOne src dst mode ovn seed g j).1,
        (List.range n).foldl (fun fl j => fl ||| (convertOne src dst mode ovn seed g j).2) 0,
        seedAfter src dst mode seed n) := by
  induction n generalizing seed g with
  | zero =>
    unfold seedAfter
    split <;> rfl
  | succ n ih =>
    have hnext : seedAfter src dst mode seed 1 = if drawsFor src dst mode then draw seed else seed :=
      (if_congr (drawsFor_iff src dst mode) rfl rfl).symm
    have hone : ∀ j, convertOne src dst mode ovn seed g (j + 1) =
        convertOne src dst mode ovn (seedAfter src dst mode seed 1) (g ∘ Nat.succ) j := fun j => by
      rw [convertOne, seedAfter_succ]
      rfl
    simp only [List.range_succ_eq_map, List.map_cons, List.map_map, List.foldl_cons, List.foldl_map, convertAll, ← hnext, ih]
    have hzero (x : FFlags) : 0 ||| x = x := BitVec.zero_or
    rw [hzero, foldl_or_start _ _ (convertOne ..).2]
    simp only [Function.comp_def, hone, Nat.succ_eq_add_one, seedAfter_succ _ _ _ seed n]
    rfl

theorem execVcvt_plain {s : State} (hs : s.plain = true) (d a b c : BitVec 4) (r : BitVec 3) :
    let n := 128 / max (typeBits c.toNat) (typeBits b.toNat)
    let mode := convMode s.me.ctl r
    let one := convertOne c.toNat b.toNat mode s.me.ctl.ovn s.me.ctl.rseed
      fun j => (laneAt (s.me.getV a) (typeBits c.toNat) j).toNat
    ∃ v : Vec, execVcvt d a b c r s = .next (retire (.fall 4) (s.setMe { s.me.setV d v with
        ctl := s.me.ctl.converted (seedAfter c.toNat b.toNat mode s.me.ctl.rseed n)
          ((List.range n).foldl (fun fl j => fl ||| (one j).2) 0) })) ∧
      (∀ j < n, laneAt v (typeBits b.toNat) j = BitVec.ofNat (typeBits b.toNat) (one j).1) ∧
      v >>> (n * typeBits b.toNat) = 0 := by
  intro n mode one
  have hlen : ((List.range n).map fun j => (one j).1).length = n := by simp
  have hfits : typeBits b.toNat * n ≤ 128 :=
    (Nat.mul_le_mul_right n (Nat.le_max_right ..)).trans (Nat.mul_div_le 128 _)
  refine ⟨BitVec.ofNat 128 (ofLanes (typeBits b.toNat) ((List.range n).map fun j => (one j).1)), ?_, fun j hj => ?_, ?_⟩
  · rw [execVcvt, withRegs_plain hs]
    simp only [lanes_eq, convertAll_range]
    rw [converted_of_withCtl, writeV_withCtl hs]
    rfl
  · rw [laneAt_ofLanes_of_le (by rwa [hlen]) (by rwa [hlen]), List.getElem_map, List.getElem_range]
  · have h := ofLanes_ushiftRight (w := typeBits b.toNat) (l := (List.range n).map fun j => (one j).1) (by rwa [hlen])
    rwa [hlen, Nat.mul_comm] at h

/-! ## Narrowing and widening (R132) -/

theorem halfLanes_of_two_registers (t : BitVec 3) : laneW t / 2 * (128 / laneW t + 128 / laneW t) = 128 := by
  revert t
  decide
theorem halfLanes_of_one_register (t : BitVec 3) : laneW t / 2 * (128 / laneW t) = 64 := by
  revert t
  decide
/-- What VPACK leaves of a lane. -/
def packed (w : Nat) (c : BitVec 4) (y : BitVec w) : BitVec (w / 2) :=
  if c = 1 then clampS (w / 2) y.toInt else if c = 2 then clampU (w / 2) y.toInt else y.setWidth (w / 2)
theorem ofNat_laneSat_packed {w : Nat} {c : BitVec 4} (hc : c.toNat < 3) (y : BitVec w) :
    BitVec.ofNat (w / 2) (laneSat (w / 2) c.toNat y.toInt) = packed w c y := by
  rcases (by decide : ∀ c : BitVec 4, c.toNat < 3 → c = 0 ∨ c = 1 ∨ c = 2) c hc with rfl | rfl | rfl
  · refine (ofNat_laneSat_wrap _ _).trans ?_
    exact BitVec.signExtend_eq_setWidth_of_le y (Nat.div_le_self w 2)
  · exact ofNat_laneSat_signed _
  · exact ofNat_laneSat_unsigned _
/-- The half of a register that VUNPK takes. -/
theorem unpackHalf_eq (v : Vec) (up : Bool) :
    (if up then v.toNat / 2 ^ 64 else v.toNat % 2 ^ 64) = nbits v.toNat (if up then 64 else 0) 64 := by
  have hv : v.toNat / 2 ^ 64 < 2 ^ 64 := Nat.div_lt_of_lt_mul v.isLt
  cases up
  · simp [nbits]
  · exact (Nat.mod_eq_of_lt hv).symm
theorem ofInt_laneInt {w w' : Nat} (uns : Bool) (e : BitVec w) :
    BitVec.ofInt w' (laneInt w uns e.toNat) = if uns then e.setWidth w' else e.signExtend w' := by
  cases uns
  · rw [laneInt_signed]
    rfl
  · exact (BitVec.ofInt_natCast ..).trans (BitVec.ofNat_toNat ..)

section
variable {s : State} (hs : s.plain = true) (d a b c : BitVec 4)
include hs

theorem execVpack_plain (t : BitVec 3) (hc : c.toNat < 3) : ∃ v : Vec, execVpack d a b c t s = writesV 4 s d v 0 ∧
    ∀ j < 128 / laneW t,
      laneAt v (laneW t / 2) j = packed (laneW t) c (laneAt (s.me.getV a) (laneW t) j) ∧
      laneAt v (laneW t / 2) (128 / laneW t + j) = packed (laneW t) c (laneAt (s.me.getV b) (laneW t) j) := by
  rw [execVpack, withRegs_plain hs]
  refine ⟨_, writesV_of_writeV hs 4 d _, fun j hj => ?_⟩
  have hhalf := halfLanes_of_two_registers t
  have hlow : j < 128 / laneW t + 128 / laneW t := Nat.lt_add_right _ hj
  constructor
  · rw [laneAt_ofLanes (by simpa [State.vLanes_length] using hhalf) (by simpa [State.vLanes_length] using hlow), List.getElem_map,
      List.getElem_append_left (by rwa [State.vLanes_length]), State.vLanes_getElem, laneInt_signed, ofNat_laneSat_packed hc]
  · rw [laneAt_ofLanes (by simpa [State.vLanes_length] using hhalf) (by simpa [State.vLanes_length] using hj), List.getElem_map,
      List.getElem_append_right (by simp [State.vLanes_length]), State.vLanes_getElem, laneInt_signed, ofNat_laneSat_packed hc,
      State.vLanes_length, Nat.add_sub_cancel_left]
theorem execVunpk_plain (t : BitVec 3) : ∃ v : Vec, execVunpk d a c t s = writesV 4 s d v 0 ∧ ∀ j < 128 / laneW t,
    let e := laneAt (s.me.getV a) (laneW t / 2) (j + if c.getLsbD 1 then 128 / laneW t else 0)
    laneAt v (laneW t) j = if c.getLsbD 0 then e.setWidth (laneW t) else e.signExtend (laneW t) := by
  rw [execVunpk, withRegs_plain hs]
  refine ⟨_, writesV_of_writeV hs 4 d _, fun j hj => ?_⟩
  have hhalf := halfLanes_of_one_register t
  have hin : laneW t / 2 * j + laneW t / 2 ≤ 64 := by
    rw [← Nat.mul_succ]
    exact (Nat.mul_le_mul_left _ hj).trans_eq hhalf
  have hat : (if c.getLsbD 1 then 64 else 0) + laneW t / 2 * j =
      laneW t / 2 * (j + if c.getLsbD 1 then 128 / laneW t else 0) := by
    rw [Nat.mul_add, Nat.add_comm, mul_ite, hhalf, Nat.mul_zero]
  rw [lanes, List.map_map, laneAt_ofLanes_range (laneW_mul t) _ hj, Function.comp, bit, bit, unpackHalf_eq,
    nbits_nbits _ _ _ hin, hat, ← laneAt_toNat, ofNat_eq_of_eq_toNat rfl, ofInt_laneInt]
end

/-! ## The activation threshold (R133) -/

/-- The magnitude of an element that VTHR drops, as a binary32 value. -/
def droppedMagnitude (f : Fmt) (x : Nat) : Nat := (floatToFloat f f32 .rne false 0 (x % 2 ^ (f.width - 1))).1
/-- VTHR drops an element: neither it nor the threshold is a NaN, and its magnitude is below the threshold. -/
def dropsElem (f : Fmt) (thr x : Nat) : Bool :=
  !(f.decode x).isNan && !(f32.decode thr).isNan && (f.decode (x % 2 ^ (f.width - 1))).lt (f32.decode thr)
theorem dropsLane_eq {f : Fmt} {w : Nat} (hw : f.width = w) (thr : BitVec 32) (x : BitVec w) :
    dropsLane f w thr x = dropsElem f thr.toNat x.toNat := by
  rw [dropsElem, hw]
  rfl
theorem droppedMagnitude_eq {f : Fmt} {w : Nat} (hw : f.width = w) (x : Nat) :
    (floatToFloat f f32 .rne false 0 (x % 2 ^ (w - 1))).1 = droppedMagnitude f x := by
  rw [droppedMagnitude, hw]
theorem threshold_eq (f : Fmt) (thr : Nat) (l : List Nat) (sum : Nat) (cnt : Word) : threshold f thr l sum cnt =
    (l.map fun x => if dropsElem f thr x then 0 else x,
      l.foldl (fun z x => if dropsElem f thr x then (f32.add .rne z (droppedMagnitude f x)).1 else z) sum,
      cnt + BitVec.ofNat 64 (l.countP (dropsElem f thr))) := by
  induction l generalizing sum cnt with
  | nil => simp [threshold]
  | cons x t ih =>
    rw [threshold, Fmt.withSign_false, ← dropsElem]
    simp only [ih]
    cases h : dropsElem f thr x
    · simp [h]
    · simp [h, BitVec.ofNat_add, BitVec.add_assoc, BitVec.add_comm, droppedMagnitude]
theorem execVthr_plain {s : State} (hs : s.plain = true) (d a : BitVec 4) (t : BitVec 3) :
    let f := laneFmt t
    let x := s.me.ctl
    let lane (j : Nat) := (laneAt (s.me.getV a) (laneW t) j).toNat
    let drops (j : Nat) := dropsElem f x.athr.toNat (lane j)
    let sum := if (f32.decode x.adrop.toNat).isNan then x.adrop else BitVec.ofNat 32 ((List.range (128 / laneW t)).foldl
      (fun z j => if drops j then (f32.add .rne z (droppedMagnitude f (lane j))).1 else z) x.adrop.toNat)
    ∃ v : Vec, execVthr d a t s = .next (retire (.fall 4) (s.setMe { s.me.setV d v with
        ctl := { x with adrop := sum, adcnt := x.adcnt + BitVec.ofNat 64 ((List.range (128 / laneW t)).countP drops) } })) ∧
      ∀ j < 128 / laneW t, laneAt v (laneW t) j = if drops j then 0 else laneAt (s.me.getV a) (laneW t) j := by
  intro f x lane drops sum
  refine ⟨BitVec.ofNat 128 (ofLanes (laneW t) ((List.range (128 / laneW t)).map fun j => if drops j then 0 else lane j)), ?_,
    fun j hj => ?_⟩
  · rw [execVthr, withRegs_plain hs, State.vLanes_eq]
    simp only [threshold_eq, List.map_map, List.foldl_map, List.countP_map]
    rw [writeV_withCtl hs]
    rfl
  · rw [laneAt_ofLanes_range (laneW_mul t) _ hj, apply_ite (BitVec.ofNat _), ofNat_eq_of_eq_toNat rfl]
    rfl

end Sys2Proof.Machine

namespace Sys2Proof.Settled
open Sys2Proof.Machine

/-- Settles O28: conversions and the threshold as passes over the elements in order, and packing and unpacking lane by lane. -/
theorem vectorConversion : Obligations.VectorConversion := by
  intro s d a b c t r hs
  refine ⟨fun _ => execVcvt_plain hs d a b c r, fun _ hc => execVpack_plain hs d a b c t hc, fun _ _ => execVunpk_plain hs d a c t,
    fun ht => ?vthr⟩
  case vthr =>
    obtain ⟨v, hv, hl⟩ := execVthr_plain hs d a t
    have hw : (formatOf t).width = widthOf t := laneFmt_width (isIntLane_eq_false ht)
    simp only [dropsLane_eq hw, droppedMagnitude_eq hw]
    exact ⟨v, _, hv, hl, rfl⟩

end Sys2Proof.Settled
end

