-- ==== Sys2Proof/Proofs/LineMoves.lean ====
section
/-! SUPPORT. What a move of copies and tokens may touch (R282 to R290): the lines and what the caches hold of them, and the queue
of write-backs. -/
namespace Sys2Proof.Machine

/-- t is s but for where the copies and tokens of lines are, and the write-backs at the controllers. -/
def LinesMoved (s t : State) : Prop :=
  ∃ ctlq hearth proxy proxyTags lines hostLines, t = { s with
    ctlq := ctlq
    mem := { s.mem with
      hearth := hearth, proxy := proxy, proxyTags := proxyTags, lines := lines, hostLines := hostLines } }

namespace LinesMoved
variable {s t u : State}

@[refl] theorem refl (s : State) : LinesMoved s s := ⟨_, _, _, _, _, _, rfl⟩
theorem trans (h : LinesMoved s t) (h' : LinesMoved t u) : LinesMoved s u := by
  obtain ⟨_, _, _, _, _, _, rfl⟩ := h
  obtain ⟨_, _, _, _, _, _, rfl⟩ := h'
  exact ⟨_, _, _, _, _, _, rfl⟩
/-- A line's entry is rewritten. -/
theorem setLine (h : LinesMoved s t) (n : Nat) (x : Line) : LinesMoved s { t with mem := t.mem.setLine n x } :=
  h.trans ⟨_, _, _, _, _, _, rfl⟩
/-- What the slices hold is rewritten. -/
theorem setHearth (h : LinesMoved s t) (l : List Resident) : LinesMoved s { t with mem := { t.mem with hearth := l } } :=
  h.trans ⟨_, _, _, _, _, _, rfl⟩
theorem foldl {α : Type} {f : State → α → State} (hf : ∀ s a, LinesMoved s (f s a)) (l : List α) (s : State) :
    LinesMoved s (l.foldl f s) :=
  List.foldlRecOn (motive := LinesMoved s) l f (refl s) fun t ht a _ => ht.trans (hf t a)

theorem cores (h : LinesMoved s t) : t.cores = s.cores := by obtain ⟨_, _, _, _, _, _, rfl⟩ := h; rfl
theorem cur (h : LinesMoved s t) : t.cur = s.cur := by obtain ⟨_, _, _, _, _, _, rfl⟩ := h; rfl
theorem me (h : LinesMoved s t) : t.me = s.me := by obtain ⟨_, _, _, _, _, _, rfl⟩ := h; rfl
theorem full (h : LinesMoved s t) : t.mem.full = s.mem.full := by obtain ⟨_, _, _, _, _, _, rfl⟩ := h; rfl
end LinesMoved

section
variable (s : State) (n : Nat)

theorem evictHearth_moves : LinesMoved s (s.evictHearth n) := by
  simp only [State.evictHearth]
  repeat' split
  all_goals exact ⟨_, _, _, _, _, _, rfl⟩
theorem reside_moves (k : BitVec 7) (d : Bool) : LinesMoved s (s.reside n k d) := by
  simp only [State.reside]
  repeat' split
  all_goals refine .setHearth ?_ _
  · rfl
  · exact evictHearth_moves ..
  · rfl
  · rfl
theorem noteRequest_moves (c : Option CoreId) : LinesMoved s (s.noteRequest c n) := by
  simp only [State.noteRequest]
  split
  · rfl
  · split
    · exact reside_moves ..
    · exact (reside_moves ..).setLine ..
theorem writeHome_moves : LinesMoved s (s.writeHome n) := by
  simp only [State.writeHome]
  split
  · rfl
  · exact (reside_moves ..).setLine ..
theorem recallLine_moves : LinesMoved s (s.recallLine n) := by
  simp only [State.recallLine]
  split
  · exact (writeHome_moves ..).setLine ..
  · split
    · exact (LinesMoved.refl s).setLine ..
    · rfl
theorem tokenHome_moves : LinesMoved s (s.tokenHome n) := by
  simp only [State.tokenHome]
  split
  · rfl
  · exact (writeHome_moves ..).setLine ..
theorem evictRegion_moves : LinesMoved s (s.evictRegion n) := by
  simp only [State.evictRegion]
  split
  · rfl
  · exact .foldl (f := fun s (l : Nat × Line) => s.tokenHome l.1) (fun s l => tokenHome_moves s l.1) _ s
theorem evictForge_moves (f : ForgeId) : LinesMoved s (s.evictForge f n) := by
  simp only [State.evictForge]
  split
  · rfl
  · exact (LinesMoved.refl s).setLine ..
theorem toForge_moves (f : ForgeId) : LinesMoved s (s.toForge f n) := by
  simp only [State.toForge]
  split
  · rfl
  · refine .setLine ?_ ..
    repeat' split
    · rfl
    · exact evictForge_moves ..
    · rfl
theorem evictL1d_moves (c : CoreId) : LinesMoved s (s.evictL1d c n) := by
  have home (b : Bool) : LinesMoved s (if b then s.writeHome n else s) := by
    split
    · exact writeHome_moves ..
    · rfl
  simp only [State.evictL1d]
  split
  · rfl
  · split
    · exact ((home _).setLine ..).trans (toForge_moves ..)
    · exact (home _).setLine ..
theorem evict_moves (e : Evict) : LinesMoved s (s.evict e) := by
  cases e with
  | l1d c n => exact evictL1d_moves ..
  | l1i c n =>
    simp only [State.evict]
    split
    · rfl
    · exact (LinesMoved.refl s).setLine ..
  | forge f n => exact evictForge_moves ..
  | hearth n =>
    simp only [State.evict]
    split
    · exact evictHearth_moves ..
    · exact (tokenHome_moves ..).trans (evictHearth_moves ..)
  | region r => exact evictRegion_moves ..
theorem makeRoom_moves (c : CoreId) (b : Bool) : LinesMoved s (s.makeRoom c n b) := by
  unfold State.makeRoom
  split
  · rfl
  · extract_lets held roomy regs
    have hroomy : LinesMoved s roomy := by
      unfold roomy
      split
      · rfl
      · split
        · exact evict_moves ..
        · rfl
    refine hroomy.trans ?_
    repeat' split
    · rfl
    · exact evictRegion_moves ..
    · rfl
theorem claimLine_moves (c : CoreId) : LinesMoved s (s.claimLine c n) := by
  simp only [State.claimLine]
  split
  · rfl
  · exact (((noteRequest_moves ..).trans (writeHome_moves ..)).trans (makeRoom_moves ..)).setLine ..
theorem takeToken_moves (c : CoreId) : LinesMoved s (s.takeToken c n) :=
  (claimLine_moves ..).setLine ..
theorem shareLine_moves (c : CoreId) : LinesMoved s (s.shareLine c n) := by
  simp only [State.shareLine]
  split
  · rfl
  · refine .setLine ?_ ..
    split
    · exact makeRoom_moves ..
    · exact ((makeRoom_moves ..).trans (noteRequest_moves ..)).trans (recallLine_moves ..)
theorem toHome_moves (c : Option CoreId) (ps : List Place) : LinesMoved s (s.toHome c ps) :=
  .foldl (fun s n => (noteRequest_moves s n c).trans (tokenHome_moves _ n)) _ s
theorem atHome_moves (c : Option CoreId) (ps : List Place) : LinesMoved s (s.atHome c ps) :=
  (toHome_moves s c ps).trans (.foldl (fun s n => reside_moves s n _ true) _ _)
end

end Sys2Proof.Machine
end

