-- ==== Sys2Proof/Proofs/ReadNotes.lean ====
section
/-! SUPPORT. What an access leaves beside its result (R291, R296 to R303): places in the write order, tagged reads, and the
messages of scope misses with what they count. -/
namespace Sys2Proof.Machine

/-! ## The acting context -/

/-- y is x but for what orders its later reads; cr.syncst has gained bits, and only where an acquire may have missed (`acq`). -/
def Ctx.Noted (acq : Bool) (x y : Ctx) : Prop :=
  ∃ at_ floor tagged sync, y = { x with
    acqAt := at_, floor := floor, tagged := tagged, ctl := { x.ctl with syncst := sync } } ∧
    sync &&& x.ctl.syncst = x.ctl.syncst ∧ (acq = false → sync = x.ctl.syncst)

namespace Ctx.Noted
variable {acq : Bool} {x y z : Ctx}

@[refl] theorem refl (acq : Bool) (x : Ctx) : Noted acq x x := ⟨_, _, _, _, rfl, BitVec.and_self, fun _ => rfl⟩
theorem trans (h : Noted acq x y) (h' : Noted acq y z) : Noted acq x z := by
  obtain ⟨_, _, _, s, rfl, hs, hq⟩ := h
  obtain ⟨_, _, _, t, rfl, ht, hr⟩ := h'
  refine ⟨_, _, _, _, rfl, ?_, fun ha => (hr ha).trans (hq ha)⟩
  dsimp only at hs ht
  rw [← hs, ← BitVec.and_assoc, ht]
/-- What orders its reads is rewritten. -/
theorem marks (acq : Bool) (x : Ctx) (a : Nat) (f : Assoc Nat) (g : List TaggedRead) :
    Noted acq x { x with acqAt := a, floor := f, tagged := g } := ⟨_, _, _, _, rfl, BitVec.and_self, fun _ => rfl⟩
theorem regs (h : Noted acq x y) : SameRegs x y := by
  obtain ⟨_, _, _, _, rfl, -⟩ := h
  exact ⟨rfl, rfl, rfl, rfl, rfl⟩
end Ctx.Noted

/-! ## The state around it -/

/-- t is s but for what an access leaves beside its result: the acting context's marks, copies of lines, and the notices of scope
misses with what they count. -/
structure Beside (acq : Bool) (s t : State) : Prop where
  cur : t.cur = s.cur
  me : s.me.Noted acq t.me
  inbox : t.here.inbox = s.here.inbox
  classes : t.here.classes = s.here.classes
  parts : t.parts = s.parts
  clusterPart : t.clusterPart = s.clusterPart
  saved : ∀ l, s.savedLaunch l = none → t.savedLaunch l = none
  full : t.mem.full = s.mem.full

namespace Beside
variable {acq : Bool} {s t u : State}

@[refl] theorem refl (acq : Bool) (s : State) : Beside acq s s := ⟨rfl, .refl _ _, rfl, rfl, rfl, rfl, fun _ h => h, rfl⟩
theorem trans (h : Beside acq s t) (h' : Beside acq t u) : Beside acq s u :=
  ⟨h'.cur.trans h.cur, h.me.trans h'.me, h'.inbox.trans h.inbox, h'.classes.trans h.classes, h'.parts.trans h.parts,
    h'.clusterPart.trans h.clusterPart, fun l hl => h'.saved l (h.saved l hl), h'.full.trans h.full⟩
theorem foldl {α : Type} {f : State → α → State} (hf : ∀ s a, Beside acq s (f s a)) (l : List α) (s : State) :
    Beside acq s (l.foldl f s) :=
  List.foldlRecOn (motive := Beside acq s) l f (.refl acq s) fun t ht a _ => ht.trans (hf t a)
theorem ite {p : Prop} [Decidable p] (h : Beside acq s t) (h' : Beside acq s u) : Beside acq s (if p then t else u) := by
  split
  · exact h
  · exact h'
/-- The acting context alone is rewritten, in its marks. -/
theorem setMe {x : Ctx} (h : s.me.Noted acq x) : Beside acq s (s.setMe x) := by
  refine ⟨rfl, ?_, ?_, ?_, rfl, rfl, fun _ hl => hl, rfl⟩
  · rwa [State.me_setMe]
  · rw [State.here_setMe]; rfl
  · rw [State.here_setMe]; rfl
/-- Memory is rewritten, but for its full-empty bits. -/
theorem setMem (m : Memory) (h : m.full = s.mem.full) : Beside acq s { s with mem := m } :=
  ⟨rfl, .refl _ _, rfl, rfl, rfl, rfl, fun _ hl => hl, h⟩
/-- The partition of the acting core. -/
theorem part (h : Beside acq s t) (p : BitVec 6) : t.part p = s.part p := by simp only [State.part, h.parts]
theorem partOf (h : Beside acq s t) (c : CoreId) : t.partOf c = s.partOf c := by
  simp only [State.partOf, State.clusterPartition, h.clusterPart]
theorem pc (h : Beside acq s t) : t.me.pc = s.me.pc := by
  obtain ⟨_, _, _, _, e, -⟩ := h.me
  rw [e]
theorem myLaunch (h : Beside acq s t) : t.myLaunch = s.myLaunch := by
  obtain ⟨_, _, _, _, e, -⟩ := h.me
  simp only [State.myLaunch, e]
end Beside

theorem LinesMoved.beside {s t : State} (h : LinesMoved s t) (acq : Bool) : Beside acq s t := by
  obtain ⟨_, _, _, _, _, _, rfl⟩ := h
  exact ⟨rfl, .refl _ _, rfl, rfl, rfl, rfl, fun _ hl => hl, rfl⟩

/-! ## Counts and messages of misses (R272, R303, R351) -/

/-- A saved launch that is rewritten leaves none saved under a number that none was. -/
theorem savedLaunch_setLaunch {s : State} {l : Option Nat} {x y : Launch} (hx : s.savedLaunch l = some x) (hid : y.id = x.id)
    {k : Option Nat} (hk : s.savedLaunch k = none) : (s.setLaunch y).savedLaunch k = none := by
  obtain ⟨n, -, hn⟩ := Option.bind_eq_some_iff.1 hx
  have hsaved := List.find?_some hn
  have hmem := List.mem_of_find?_eq_some hn
  cases k with
  | none => rfl
  | some k =>
    have hnone : ∀ z ∈ s.launches, ¬(z.id = k ∧ z.st = .saved) := by
      simpa [State.savedLaunch, List.find?_eq_none] using hk
    obtain ⟨-, hst⟩ : x.id = n ∧ x.st = .saved := by simpa using hsaved
    have hne : y.id ≠ k := fun e => hnone x hmem ⟨hid.symm.trans e, hst⟩
    simp only [State.savedLaunch, State.setLaunch, Option.bind_some, List.find?_eq_none, List.mem_map]
    rintro _ ⟨z, hz, rfl⟩
    split
    · simp [hne]
    · simpa using hnone z hz

section
variable {acq : Bool} (s : State)

theorem setLaunch_beside {l : Option Nat} {x y : Launch} (hx : s.savedLaunch l = some x) (hid : y.id = x.id) :
    Beside acq s (s.setLaunch y) :=
  ⟨rfl, .refl _ _, rfl, rfl, rfl, rfl, fun _ hk => savedLaunch_setLaunch hx hid hk, rfl⟩
theorem setCore_done_beside (c : CoreId) (d : DoneUnit) : Beside acq s (s.setCore c { s.core c with done := d }) := by
  have hctx (k : CtxId) : (s.setCore c { s.core c with done := d }).ctxAt s.cur.core k = s.ctxAt s.cur.core k := by
    by_cases h : s.cur.core = c
    · subst h
      simp only [State.ctxAt, State.core_setCore]
      rfl
    · rw [State.ctxAt, State.core_setCore_other s h, State.ctxAt]
  have hcore {α : Type} (f : Core → α) (hf : f { s.core c with done := d } = f (s.core c)) :
      f ((s.setCore c { s.core c with done := d }).core s.cur.core) = f (s.core s.cur.core) := by
    by_cases h : s.cur.core = c
    · subst h
      rw [State.core_setCore, hf]
    · rw [State.core_setCore_other s h]
  refine ⟨rfl, ?_, hcore (·.inbox) rfl, hcore (·.classes) rfl, rfl, rfl, fun _ hl => hl, rfl⟩
  rw [show (s.setCore c { s.core c with done := d }).me = s.me from hctx _]
theorem countSent_beside (c : CoreId) (l : Option Nat) (n : Nat) : Beside acq s (s.countSent c l n) := by
  unfold State.countSent
  split
  · next x k h =>
    obtain ⟨y, hy, he⟩ := Option.bind_eq_some_iff.1 h
    obtain ⟨z, -, e⟩ := Option.map_eq_some_iff.1 he
    obtain ⟨rfl, rfl⟩ := Prod.mk.injEq .. ▸ e
    exact setLaunch_beside s hy rfl
  · exact setCore_done_beside ..
theorem countIf_beside (b : Bool) (c : CoreId) (l : Option Nat) (n : Nat) : Beside acq s (s.countIf b c l n) :=
  .ite (countSent_beside ..) (.refl ..)
theorem startIf_beside (b : Bool) (c : CoreId) : Beside acq s (s.startIf b c) :=
  .ite (setCore_done_beside ..) (.refl ..)
theorem sendFor_beside (l : Option Nat) (m : Flight) : Beside acq s (s.sendFor l m) := by
  unfold State.sendFor
  split
  · next x h => exact setLaunch_beside s h rfl
  · exact ⟨rfl, .refl _ _, rfl, rfl, rfl, rfl, fun _ hl => hl, rfl⟩
theorem misses_beside (l : List (Word × Option (BitVec 13) × CoreId)) : Beside acq s { s with misses := l } :=
  ⟨rfl, .refl _ _, rfl, rfl, rfl, rfl, fun _ hl => hl, rfl⟩
theorem reportMiss_beside (t : Tag) (w : BitVec 11) (v : Word) (n : Nat) (who : Word) (src : CoreId × CtxId) (b : Bool) :
    Beside acq s (s.reportMiss t w v n who src b) := by
  unfold State.reportMiss
  extract_lets va out counted key m sent
  have hcounted : Beside acq s counted := .ite (countSent_beside ..) (.refl ..)
  have hsent : Beside acq s sent := hcounted.trans (sendFor_beside ..)
  exact .ite (.refl ..) (.ite hsent (hsent.trans (misses_beside ..)))

/-! ## Acquiring (R298 to R302) -/

theorem acquired_beside (t : Nat) : Beside acq s (s.acquired t) :=
  .ite (.refl ..) (.setMe (.marks ..))
theorem dropProxies_beside (n : Nat) : Beside acq s (s.dropProxies n) :=
  .ite (.setMem _ rfl) (.refl ..)
theorem or_and_self_left {n : Nat} (x y : BitVec n) : (x ||| y) &&& x = x := by
  ext i
  simpa using Or.inl
theorem acquireTag_beside (sc : Nat) (w : BitVec 11) (v : Word) (t : Tag) (c f : Bool) :
    Beside true s (acquireTag sc w v t c s f) := by
  unfold acquireTag
  extract_lets me sync narrow short sticky
  have hsync : Beside true s sync := acquired_beside ..
  have hsticky : Beside true s sticky :=
    .setMe ⟨_, _, _, _, rfl, or_and_self_left .., by simp⟩
  exact .ite hsync (.ite hsync (.ite (.refl ..) (.ite hsticky (hsticky.trans (reportMiss_beside ..)))))
theorem noteFloor_beside (since : Option Nat) (p : Place) (m : Manner) : Beside acq s (s.noteFloor since p m) := by
  unfold State.noteFloor
  split
  · rfl
  · exact .ite (.refl ..) (.setMe (.marks ..))
/-- What a read leaves beside its value; only an acquire touches a control register. -/
theorem noteRead_beside (acq : Option Nat) (pas : List Nat) (ps : List Place) (x y z : Bool) :
    Beside acq.isSome s (noteRead acq pas ps s x y z) := by
  unfold noteRead
  extract_lets since m own at_ firsts read floored
  have hread : Beside acq.isSome s read := by
    refine .foldl (fun s p => .foldl (fun s t => ?_) _ _) _ _
    cases acq with
    | some sc => exact acquireTag_beside ..
    | none => exact .ite (acquired_beside ..) (.ite (.refl ..) (.setMe (.marks ..)))
  have hfloored : Beside acq.isSome s floored := hread.trans (.foldl (fun s p => noteFloor_beside s ..) _ _)
  split
  · exact hfloored.trans (dropProxies_beside ..)
  · exact hfloored
theorem plainRead_beside (acq : Option Nat) (pas : List Nat) (ps : List Place) (x y : Bool) :
    Beside acq.isSome s (plainRead acq pas ps s x y) :=
  ((LinesMoved.foldl (fun s n => shareLine_moves s n s.cur.core) _ s).beside _).trans (noteRead_beside ..)
theorem acquireFence_beside (sc : BitVec 3) : Beside true s (acquireFence sc s) := by
  unfold acquireFence
  extract_lets due holds met left
  have hmet : Beside true s met := .foldl (fun s r => acquireTag_beside s ..) _ _
  exact (hmet.trans (.setMe (.marks ..))).trans (dropProxies_beside ..)
/-- A context's own write is noted in its floor. -/
theorem wrote_beside (ps : List Place) : Beside acq s (s.wrote s.cur.core s.cur.ctx ps) :=
  .ite (.refl ..) (.setMe (.marks ..))
end

end Sys2Proof.Machine
end

