-- ==== Sys2Proof/Proofs/Accesses.lean ====
section
/-! SUPPORT. What an access comes to that names memory, and one that reaches it (R139, R141, R143); and how an instruction retires
whose context goes on. -/
namespace Sys2Proof.Machine

/-! ## Places (R141) -/

theorem interleaved_mod (o : Nat) : (keyDram + interleaved o) % 64 = o % 64 := by
  simp only [interleaved, keyDram, pcBytes]
  omega
theorem scratchByte_mod {role : Word} {h : BitVec 16} {o y : Nat} (e : scratchByte role h o = some y) : y % 64 = o % 64 := by
  simp only [scratchByte] at e
  split at e
  · simp at e
  · obtain ⟨b, -, rfl⟩ := Option.map_eq_some_iff.1 e
    omega
/-- A physical byte's place by its space; the key of memory keeps the byte's place in its line. -/
theorem place_cases {s : State} {h : BitVec 16} {pa : Nat} {p : Place} (e : place s h pa = .ok p) :
    (pa / 2 ^ 48 % 8 = 2 ∧ p = .ways) ∨ ((pa / 2 ^ 48 % 8 < 2 ∨ pa / 2 ^ 48 % 8 = 3) ∧ p = .remote pa) ∨
    (pa / 2 ^ 48 % 8 < 2 ∧ ∃ k l, p = .dram k l ∧ k % 64 = pa % 64) ∨
    (pa / 2 ^ 48 % 8 = 3 ∧ ∃ k, p = .sram k ∧ k % 64 = pa % 64) ∨
    (pa / 2 ^ 48 % 8 = 4 ∧ ∃ k, p = .host k ∧ k % 64 = pa % 64) ∨ (pa / 2 ^ 48 % 8 = 5 ∧ ∃ o, p = .device o) := by
  have hpage : pa % 2 ^ 48 % 64 = pa % 64 := by omega
  simp only [place] at e
  repeat' split at e
  all_goals cases e
  · exact .inl ⟨‹_›, rfl⟩
  · next hspace =>
    simp only [Bool.or_eq_true, decide_eq_true_eq] at hspace
    exact .inr (.inl ⟨by omega, rfl⟩)
  · exact .inr (.inr (.inl ⟨by omega, _, _, rfl, (interleaved_mod _).trans hpage⟩))
  · exact .inr (.inr (.inl ⟨by omega, _, _, rfl, by simp only [keyDram]; omega⟩))
  · exact .inr (.inr (.inr (.inl ⟨‹_›, _, rfl, by simp only [keySram]; omega⟩)))
  · next y hy =>
    have hscratch := scratchByte_mod hy
    exact .inr (.inr (.inr (.inl ⟨‹_›, _, rfl, by simp only [keySram]; omega⟩)))
  · exact .inr (.inr (.inr (.inr (.inl ⟨‹_›, _, rfl, by simp only [keyHost]; omega⟩))))
  · exact .inr (.inr (.inr (.inr (.inr ⟨‹_›, _, rfl⟩))))
theorem place_isSram {s : State} {h : BitVec 16} {pa : Nat} {p : Place} (e : place s h pa = .ok p) : p.isSram = isSramPa pa := by
  rcases place_cases e with ⟨hs, rfl⟩ | ⟨hs, rfl⟩ | ⟨hs, _, _, rfl, -⟩ | ⟨hs, _, rfl, -⟩ | ⟨hs, _, rfl, -⟩ | ⟨hs, _, rfl⟩
  all_goals simp only [Place.isSram, isSramPa]
  all_goals simp; omega
theorem place_key_mod {s : State} {h : BitVec 16} {pa k : Nat} {p : Place} (e : place s h pa = .ok p) (hk : p.key = some k) :
    k % 64 = pa % 64 := by
  rcases place_cases e with ⟨-, rfl⟩ | ⟨-, rfl⟩ | ⟨-, _, _, rfl, hmod⟩ | ⟨-, _, rfl, hmod⟩ | ⟨-, _, rfl, hmod⟩ | ⟨-, _, rfl⟩
  all_goals cases hk
  all_goals exact hmod
/-- A place that accepts a class of access lies in a space that does. -/
theorem place_accepts {s : State} {h : BitVec 16} {pa : Nat} {p : Place} (e : place s h pa = .ok p) {kind : Kind}
    (hd : p.isDevice = false) (ha : p.accepts kind = true) (va n : Nat) : spaceAccepts pa va n kind = true := by
  have hdram (hs : pa / 2 ^ 48 % 8 < 2) : spaceAccepts pa va n kind = true := by
    obtain h | h : pa / 2 ^ 48 % 8 = 0 ∨ pa / 2 ^ 48 % 8 = 1 := by omega
    · simp only [spaceAccepts, h]
    · simp only [spaceAccepts, h]
  have hsram (hs : pa / 2 ^ 48 % 8 = 3) (hk : kind ≠ .bank) : spaceAccepts pa va n kind = true := by
    simp only [spaceAccepts, hs, hk, ne_eq, not_false_eq_true, decide_true]
  rcases place_cases e with ⟨-, rfl⟩ | ⟨hs | hs, rfl⟩ | ⟨hs, _, _, rfl, -⟩ | ⟨hs, _, rfl, -⟩ | ⟨hs, _, rfl, -⟩ | ⟨-, _, rfl⟩
  · cases kind <;> cases ha
  · exact hdram hs
  · refine hsram hs fun hk => ?_
    simp only [Place.accepts, hk, hs] at ha
    exact absurd ha (by decide)
  · exact hdram hs
  · refine hsram hs fun hk => ?_
    simp [Place.accepts, hk] at ha
  · have hk : kind = .plain := by
      cases kind with
      | plain => rfl
      | _ => cases ha
    simp only [spaceAccepts, hs, hk, decide_true]
  · cases hd

/-! ## The places of an access -/

theorem placesOf_cons {s : State} {h : BitVec 16} {pa : Nat} {pas : List Nat} {l : List Place} (e : placesOf s h (pa :: pas) = .ok l) :
    ∃ p ps, l = p :: ps ∧ place s h pa = .ok p ∧ placesOf s h pas = .ok ps := by
  simp only [placesOf] at e
  split at e
  · cases e
  · split at e
    · cases e
    · cases e
      exact ⟨_, _, rfl, ‹_›, ‹_›⟩
/-- The places of bytes are their places one by one. -/
theorem placesOf_forall₂ {s : State} {h : BitVec 16} {pas : List Nat} {ps : List Place} (e : placesOf s h pas = .ok ps) :
    List.Forall₂ (fun pa p => place s h pa = .ok p) pas ps := by
  induction pas generalizing ps with
  | nil => cases e; exact .nil
  | cons pa pas ih =>
    obtain ⟨p, ps, rfl, hp, hps⟩ := placesOf_cons e
    exact .cons hp (ih hps)
theorem placesOf_length {s : State} {h : BitVec 16} {pas : List Nat} {ps : List Place} (e : placesOf s h pas = .ok ps) :
    ps.length = pas.length := (placesOf_forall₂ e).length_eq.symm
theorem spanPas_length (va n pa pa2 : Nat) : (spanPas va n pa pa2).length = n := by simp [spanPas]
theorem all_spaceAccepts {s : State} {h : BitVec 16} {pas : List Nat} {ps : List Place} (e : placesOf s h pas = .ok ps)
    {kind : Kind} (hk : ∀ p ∈ ps, p.isDevice = false ∧ p.accepts kind = true) (va n : Nat) :
    (pas.all fun pa => spaceAccepts pa va n kind) = true := by
  have hplaces := placesOf_forall₂ e
  clear e
  induction hplaces with
  | nil => rfl
  | cons hp _ ih =>
    obtain ⟨hdevice, haccepts⟩ := hk _ List.mem_cons_self
    rw [List.all_cons, place_accepts hp hdevice haccepts, ih fun p h => hk p (List.mem_cons_of_mem _ h), Bool.and_true]
theorem any_isSramPa {s : State} {h : BitVec 16} {pas : List Nat} {ps : List Place} (e : placesOf s h pas = .ok ps) :
    pas.any isSramPa = ps.any (·.isSram) := by
  have hplaces := placesOf_forall₂ e
  clear e
  induction hplaces with
  | nil => rfl
  | cons hp _ ih => rw [List.any_cons, List.any_cons, ih, place_isSram hp]

/-! ## Translation touches the translation caches alone (R360) -/

theorem translateSpan_tlb (s : State) (v : Via) (r : BitVec 48) (va : Word) (n : Nat) (a : Acc) (p : BitVec 1) :
    Gives (fun q => ∃ l, q.2.2 = { s with tlb := l }) (translateSpan s v r va n a p) := by
  unfold translateSpan
  split
  · exact gives_error _
  · next pa s1 e =>
    obtain ⟨l, rfl⟩ := translate_tlb e
    split
    · exact (gives_ok _).2 ⟨l, rfl⟩
    · dsimp only
      split
      · exact gives_error _
      · next pa2 s2 e' =>
        obtain ⟨l', rfl⟩ := translate_tlb e'
        exact (gives_ok _).2 ⟨l', rfl⟩

/-! ## Accesses -/

section
variable {s s1 : State} {va : Word} {n : Nat} {acc : Acc} {kind : Kind} {pas : List Nat} {ps : List Place}

theorem Names.tlb (h : Names s va n acc kind pas ps s1) : ∃ l, s1 = { s with tlb := l } := by
  obtain ⟨-, ⟨pa, pa2, e, -⟩, -⟩ := h
  exact (translateSpan_tlb ..).of_ok _ e
theorem Names.length (h : Names s va n acc kind pas ps s1) : ps.length = n := by
  obtain ⟨-, ⟨pa, pa2, -, rfl⟩, e, -⟩ := h
  rw [placesOf_length e, spanPas_length]
/-- A posted access that names memory goes on with its addresses and places. -/
theorem Names.access_eq (h : Names s va n acc kind pas ps s1) (hpoison : kind = .bank → ∀ p ∈ ps, s1.poisoned p = false) :
    ∃ pa2, ∀ {scope : Nat} {need : Need} {k : List Nat → List Place → Nat → State → Res},
      (scope = 6 → ∀ p ∈ ps, p.isSram = false) → access va n acc kind scope true need s k = k pas ps pa2 s1 := by
  obtain ⟨-, ⟨pa, pa2, e, rfl⟩, eps, hps⟩ := h
  refine ⟨pa2, fun {scope need k} hscope => ?_⟩
  have hsram : (decide (scope = 6) && ps.any (·.isSram)) = false := by simpa using hscope
  have hbank : (decide (kind = .bank) && ps.any s1.poisoned) = false := by simpa using hpoison
  simp only [access, e, all_spaceAccepts eps hps, any_isSramPa eps, hsram, eps, hbank]
  simp
end
/-- Nothing in this package's memory has to be fetched. -/
theorem farLines_near {ps : List Place} (h : ∀ p ∈ ps, ∃ k, p = .sram k ∨ ∃ l, p = .dram k l) : farLines ps = [] := by
  unfold farLines
  rw [List.filter_eq_nil_iff.2]
  · rfl
  · intro p hp
    obtain ⟨k, rfl | ⟨l, rfl⟩⟩ := h p hp <;> simp
/-- A holder that keeps the token from going home by no store keeps it from no core. -/
theorem holdsBack_of_none {s : State} {n : Nat} (h : s.holdsBack none n = false) (c : Option CoreId) : s.holdsBack c n = false := by
  unfold State.holdsBack at h ⊢
  split
  · rfl
  · next o x e =>
    simp only [e] at h
    simp only [Bool.and_eq_false_iff] at h ⊢
    exact .inr (h.resolve_left (by simp))
/-- An access that reaches this package's memory goes on with its addresses and places. -/
theorem Reaches.access_eq {s s1 : State} {va : Word} {n : Nat} {acc : Acc} {kind : Kind} {need : Need} {pas : List Nat} {ps : List Place}
    (h : Reaches s va n acc kind need pas ps s1) (hn : 0 < n) :
    ∃ pa2, ∀ {scope : Nat} {k : List Nat → List Place → Nat → State → Res} {hold : Bool},
      (scope = 6 → ∀ p ∈ ps, p.isSram = false) → hold = false →
      access va n acc kind scope false need s k hold = k pas ps pa2 (s1.dropAnswers false) := by
  obtain ⟨hnames, hready, hown, htoken⟩ := h
  have hlen := hnames.length
  obtain ⟨l, hl⟩ := hnames.tlb
  obtain ⟨-, ⟨pa, pa2, e, rfl⟩, eps, hps⟩ := hnames
  refine ⟨pa2, fun {scope k hold} hscope hhold => ?_⟩
  subst hhold
  have hsram : (decide (scope = 6) && ps.any (·.isSram)) = false := by simpa using hscope
  have hdevice : ps.all (·.isDevice) = false := by
    cases ps with
    | nil => simp at hlen; omega
    | cons p ps => simp [(hps p List.mem_cons_self).1]
  have hblocked : ps.any s1.blocked = false := by simpa using fun p hp => (hready p hp).2.1
  have hpoison : ps.any s1.poisoned = false := by simpa using fun p hp => (hready p hp).2.2.1
  have hask : (ps.findSome? fun p => s1.askFor (some s.cur.core) (need = .token) p) = none := by
    simpa using fun p hp => (hready p hp).2.2.2
  have hmeets : (decide (need ≠ .copy) && s.me.stores.any fun st => st.meets s1 ps) = false := by simpa using hown
  have hfar : farLines ps = [] := farLines_near fun p hp => (hready p hp).1
  have htake : ((linesOf ps).any fun n => decide (need = .token) && s1.holdsBack (some s.cur.core) n) = false := by
    simpa using fun n hn ht => holdsBack_of_none (htoken ht n hn) _
  simp only [access, e, all_spaceAccepts eps hps, any_isSramPa eps, hsram, eps, hdevice, hblocked, hpoison, hask, hmeets, hfar, htake,
    needLines]
  simp
theorem scope_eq_six {sc : BitVec 3} (h : sc.toNat = 6) : sc = 6 := BitVec.eq_of_toNat_eq h

namespace Reaches
variable {s s1 : State} {va : Word} {n : Nat} {acc : Acc} {kind : Kind} {need : Need} {pas : List Nat} {ps : List Place}
  (h : Reaches s va n acc kind need pas ps s1)
include h

theorem length : ps.length = n := h.1.length
/-- It starts in this package's memory. -/
theorem head_place (hn : 0 < n) : ∃ p k, ps.head? = some p ∧ (p = .sram k ∨ ∃ l, p = .dram k l) := by
  have hlen := h.length
  cases ps with
  | nil => simp at hlen; omega
  | cons p ps =>
    obtain ⟨k, hk⟩ := (h.2.1 p List.mem_cons_self).1
    exact ⟨p, k, rfl, hk⟩
/-- The state it goes on in has gained translations and lost answers; nothing else. -/
theorem answered : ∃ l r, s1.dropAnswers false = { s with tlb := l, requests := r } := by
  obtain ⟨l, rfl⟩ := h.1.tlb
  simp only [State.dropAnswers]
  split
  · exact ⟨_, _, rfl⟩
  · exact ⟨_, _, rfl⟩
theorem beside (acq : Bool) : Beside acq s (s1.dropAnswers false) := by
  obtain ⟨l, r, e⟩ := h.answered
  rw [e]
  exact ⟨rfl, .refl _ _, rfl, rfl, rfl, rfl, fun _ hl => hl, rfl⟩
theorem mem : (s1.dropAnswers false).mem = s.mem := by
  obtain ⟨l, r, e⟩ := h.answered
  rw [e]
theorem me : (s1.dropAnswers false).me = s.me := by
  obtain ⟨l, r, e⟩ := h.answered
  rw [e]
  rfl
end Reaches
theorem readValue_dropAnswers (s : State) (f : Bool) (since : Option Nat) (ps : List Place) (m : Manner) :
    readValue (s.dropAnswers f) since ps m = readValue s since ps m := by
  simp only [State.dropAnswers]
  split <;> rfl

/-! ## Retiring -/

/-- The context of an instruction that falls through moves in its pc and its loop. -/
theorem me_retire_fall {u : State} (hr : u.cur.replay = false) (n : Nat) :
    (retire (.fall n) u).me = { u.me with
      pc := (loopNext u.me.loop false (u.me.pc + BitVec.ofNat 64 n)).1
      loop := (loopNext u.me.loop false (u.me.pc + BitVec.ofNat 64 n)).2
      wait := none } := by
  rw [retire_fall hr, State.me_setMe]
/-- An instruction goes on where its meaning has left the pc, the loop and the status of the context alone. -/
theorem goesOn_retire {s u : State} (hr : s.cur.replay = false) (hcur : u.cur = s.cur) (hpc : u.me.pc = s.me.pc)
    (hloop : u.me.loop = s.me.loop) (hstatus : u.me.status = s.me.status) (n : Nat) : GoesOn n s (retire (.fall n) u) := by
  have hru : u.cur.replay = false := by rw [hcur, hr]
  have hme := me_retire_fall hru n
  have hmes := me_retire_fall hr n
  rw [hpc, hloop] at hme
  obtain ⟨y, hy⟩ := retire_setMe (.fall n) u
  exact ⟨by rw [hy, State.setMe_cur, hcur], by rw [hme, hmes], by rw [hme, hmes], by rw [hme]; exact hstatus, by rw [hme]⟩
/-- What retiring leaves of the state: all but the acting context. -/
theorem retire_around (fl : Flow) (u : State) : (retire fl u).cur = u.cur ∧ (retire fl u).mem = u.mem ∧
    (retire fl u).parts = u.parts ∧ (retire fl u).here.inbox = u.here.inbox := by
  obtain ⟨y, hy⟩ := retire_setMe fl u
  rw [hy, State.here_setMe]
  exact ⟨rfl, rfl, rfl, rfl⟩

/-! ## Retiring beside what an access leaves -/

theorem sameRegs_trans {x y z : Ctx} (h : SameRegs x y) (h' : SameRegs y z) : SameRegs x z := by
  obtain ⟨hg, hf, hv, htm, hq⟩ := h
  obtain ⟨hg', hf', hv', htm', hq'⟩ := h'
  exact ⟨hg'.trans hg, hf'.trans hf, hv'.trans hv, htm'.trans htm, hq'.trans hq⟩
/-- What is written to the context is its g and v registers alone. -/
def WritesRegs (put : Ctx → Ctx) : Prop :=
  ∃ (G : Vector Word 32 → Vector Word 32) (V : Vector Vec 16 → Vector Vec 16), ∀ x, put x = { x with g := G x.g, v := V x.v }
theorem writesRegs_id : WritesRegs id := ⟨id, id, fun _ => rfl⟩
theorem writesRegs_setG (d : BitVec 5) (w : Word) : WritesRegs fun x => x.setG d w := by
  by_cases h : d = 0
  · exact ⟨id, id, fun x => if_pos h⟩
  · exact ⟨fun g => g.set d.toNat w d.isLt, id, fun x => if_neg h⟩
theorem writesRegs_setV (d : BitVec 4) (w : Vec) : WritesRegs fun x => x.setV d w :=
  ⟨id, fun v => v.set d.toNat w d.isLt, fun _ => rfl⟩

/-- Writing registers keeps what an access has left beside them. -/
theorem Ctx.Noted.put {acq : Bool} {x y : Ctx} (h : x.Noted acq y) {put : Ctx → Ctx} (hput : WritesRegs put) :
    SameRegs (put x) (put y) ∧ SameCtl x (put y) ∧ (acq = false → (put y).ctl = x.ctl) ∧ (put y).stores = x.stores ∧
      (put y).sendq = x.sendq ∧ (put y).seq = x.seq ∧ (put y).pc = x.pc ∧ (put y).loop = x.loop ∧ (put y).status = x.status := by
  obtain ⟨G, V, hput⟩ := hput
  obtain ⟨_, _, _, z, rfl, hz, hq⟩ := h
  rw [hput x, hput]
  exact ⟨⟨rfl, rfl, rfl, rfl, rfl⟩, ⟨rfl, hz⟩, fun ha => by simp only [hq ha], rfl, rfl, rfl, rfl, rfl, rfl⟩

theorem Beside.plain {acq : Bool} {s u : State} (h : Beside acq s u) (hs : s.plain = true) : u.plain = true := by
  obtain ⟨_, _, _, _, e, -⟩ := h.me
  rw [State.plain_iff] at hs ⊢
  rw [h.cur, e]
  exact hs

/-- t is what an instruction of `n` bytes leaves that goes on from s with registers written, beside the marks of an access. -/
structure Gone (n : Nat) (acq : Bool) (put : Ctx → Ctx) (s t : State) : Prop where
  goes : GoesOn n s t
  regs : SameRegs (put s.me) t.me
  ctl : SameCtl s.me t.me
  quiet : acq = false → t.me.ctl = s.me.ctl
  stores : t.me.stores = s.me.stores
  sendq : t.me.sendq = s.me.sendq
  seq : t.me.seq = s.me.seq
  inbox : t.here.inbox = s.here.inbox
  parts : t.parts = s.parts
  full : t.mem.full = s.mem.full

theorem Beside.gone {acq : Bool} {s u : State} (h : Beside acq s u) (hr : s.cur.replay = false) {put : Ctx → Ctx}
    (hput : WritesRegs put) (n : Nat) : Gone n acq put s (retire (.fall n) (u.setMe (put u.me))) := by
  obtain ⟨hcur, hmem, hparts, hinbox⟩ := retire_around (.fall n) (u.setMe (put u.me))
  have hru : (u.setMe (put u.me)).cur.replay = false := by rw [State.setMe_cur, h.cur, hr]
  have hme := me_retire_fall hru n
  obtain ⟨hregs, hctl, hquiet, hstores, hsendq, hseq, hpc, hloop, hstatus⟩ := h.me.put hput
  rw [State.me_setMe] at hme
  refine ⟨goesOn_retire hr (u := u.setMe (put u.me)) h.cur ?_ ?_ ?_ n, ?_, ?_, fun ha => ?_, ?_, ?_, ?_, ?_,
    hparts.trans h.parts, ?_⟩
  · rwa [State.me_setMe]
  · rwa [State.me_setMe]
  · rwa [State.me_setMe]
  · rw [hme]
    exact hregs
  · rw [hme]
    exact hctl
  · rw [hme]
    exact hquiet ha
  · rw [hme]
    exact hstores
  · rw [hme]
    exact hsendq
  · rw [hme]
    exact hseq
  · rw [hinbox, State.here_setMe]
    exact h.inbox
  · rw [hmem]
    exact h.full

end Sys2Proof.Machine
end

