-- ==== Sys2Proof/Proofs/Loading.lean ====
section
/-! SUPPORT. Loads by base, index and region (R139, R144, R145, R73); settles O14. -/
namespace Sys2Proof.Machine

theorem acqOf_isSome (o : BitVec 2) (sc : BitVec 3) : (acqOf o sc).isSome = o.getLsbD 0 := by
  rw [acqOf, bit]
  cases o.getLsbD 0 <;> rfl
theorem not_getLsbD_of_zero {o : BitVec 2} (i : Nat) (h : o = 0) : o.getLsbD i = false := by
  subst h
  simp
/-- A load puts the number it reads where its destination is, beside the marks of the read. -/
theorem loadMem_of_reaches {s s1 : State} {va : Word} {n : Nat} {pas : List Nat} {ps : List Place}
    (h : Reaches s va n .read .plain .copy pas ps s1) (hn : 0 < n) {o : BitVec 2} {sc : BitVec 3}
    (hord : o ≠ 0 → va.toNat % n = 0 ∧ s.me.stores = []) (hsc : sc = 6 → ∀ p ∈ ps, p.isSram = false) (out : Nat → State → State) :
    ∃ u, loadMem va n o sc out s =
        .ok (.fall 4) (out (readValue s1 (some s.me.acqAt) ps { split := va.toNat % n ≠ 0, acq := o.getLsbD 0 }) u) ∧
      Beside (o.getLsbD 0) s u ∧ u.mem.bytes = s.mem.bytes := by
  have hva : ¬2 ^ 56 ≤ va.toNat := Nat.not_le.2 h.1.1
  have haligned : (decide (o ≠ 0) && decide (va.toNat % n ≠ 0)) = false := by
    simp only [Bool.and_eq_false_iff, decide_eq_false_iff_not, not_not]
    exact or_iff_not_imp_left.2 fun ho => (hord ho).1
  have hstores (f : Store → Bool) : ((acqOf o sc).isSome && (s1.dropAnswers false).me.stores.any f) = false := by
    rw [h.me, acqOf_isSome]
    by_cases ho : o = 0
    · rw [not_getLsbD_of_zero 0 ho, Bool.false_and]
    · rw [(hord ho).2, List.any_nil, Bool.and_false]
  obtain ⟨p, k, hp, hplace⟩ := h.head_place hn
  obtain ⟨pa2, haccess⟩ := h.access_eq hn
  refine ⟨plainRead (acqOf o sc) pas ps (s1.dropAnswers false) false (va.toNat % n ≠ 0), ?_, ?_, ?_⟩
  · rw [loadMem, if_neg hva, haligned, if_neg (by decide), haccess (fun e => hsc (scope_eq_six e)) rfl]
    dsimp only
    rw [hp]
    obtain rfl | ⟨l, rfl⟩ := hplace
    all_goals
      dsimp only
      rw [hstores, if_neg (by decide), readValue_dropAnswers, h.me, acqOf_isSome]
  · rw [← acqOf_isSome o sc]
    exact (h.beside _).trans (plainRead_beside ..)
  · rw [plainRead_bytes, h.mem]

/-- An instruction whose meaning is a load loads. -/
theorem loads_of_loadMem {i : Instr} {len : Nat} {s : State} {va : Word} {n : Nat} (hn : 0 < n) {o : BitVec 2} {sc : BitVec 3}
    {put : Nat → Ctx → Ctx} {out : Nat → State → State} (hs : s.plain = true) (hr : s.cur.replay = false)
    (hput : ∀ v, WritesRegs (put v)) (hout : ∀ v u, u.plain = true → out v u = u.setMe (put v u.me))
    (hexec : ∀ u, loadMem va n o sc out s = .ok (.fall 4) u → exec i s = .next (retire (.fall len) u)) :
    Loads i len s va n o sc put := by
  intro pas ps s1 h hord hsc
  obtain ⟨u, hload, hbeside, hbytes⟩ := loadMem_of_reaches h hn hord hsc out
  rw [hout _ _ (hbeside.plain hs)] at hload
  have hgone := hbeside.gone hr (hput (readValue s1 (some s.me.acqAt) ps { split := va.toNat % n ≠ 0, acq := o.getLsbD 0 })) len
  refine ⟨_, hexec _ hload, hgone.goes, hgone.regs, hgone.ctl, fun ho => hgone.quiet (not_getLsbD_of_zero 0 ho), hgone.stores, ?_,
    hgone.full⟩
  rw [retire_mem, State.setMe_mem, hbytes]

/-! ## Destinations -/

theorem sextW_ofNat {n : Nat} (hn : 8 * n ≤ 64) (v : Nat) :
    sextW (8 * n) (BitVec.ofNat 64 v) = (BitVec.ofNat (8 * n) v).signExtend 64 := by
  rw [sextW, BitVec.setWidth_ofNat_of_le hn]
theorem loadG_plain {u : State} (hu : u.plain = true) (d : BitVec 5) {n : Nat} (hn : 8 * n ≤ 64) (v : Nat) :
    loadG d n v u = u.setMe (putG d n v u.me) := by
  rw [loadG, State.writeG_plain hu, sextW_ofNat hn, putG]
theorem loadV_plain {u : State} (hu : u.plain = true) (d : BitVec 5) (v : Nat) :
    loadV (d.setWidth 4) v u = u.setMe (putV d v u.me) := by
  rw [loadV, State.writeV_plain hu, putV]
theorem size_le (w : BitVec 2) : 8 * 2 ^ w.toNat ≤ 64 := by
  have h := w.isLt
  interval_cases w.toNat <;> decide
theorem regionAddr_ok {x : Ctx} {a : BitVec 5} {n : BitVec 4} {off size : Nat}
    (hin : (x.ctl.region n >>> 56).toNat ≠ 0 ∧
      (x.getG a + BitVec.ofNat 64 off + BitVec.ofNat 64 size).toNat ≤ (x.ctl.region n >>> 56).toNat * 1024) :
    regionAddr x a n off size =
      .ok ((x.ctl.region n &&& 0x00FFFFFFFFFFFFF8) + x.getG a + BitVec.ofNat 64 off) := by
  rw [← fld_top] at hin
  have hok : regionOk (x.ctl.region n) (x.getG a) off size = true := by simpa [regionOk] using hin
  rw [regionAddr, hok, if_pos rfl, regionBase_eq]

section
variable {s : State} (hs : s.plain = true) (hr : s.cur.replay = false)
include hs hr

theorem loadG_loads {i : Instr} {len : Nat} {va : Word} {n : Nat} (hn : 0 < n) (hle : 8 * n ≤ 64) {o : BitVec 2} {sc : BitVec 3}
    {d : BitVec 5}
    (hexec : ∀ u, loadMem va n o sc (loadG d n) s = .ok (.fall 4) u → exec i s = .next (retire (.fall len) u)) :
    Loads i len s va n o sc (putG d n) :=
  loads_of_loadMem hn hs hr (fun _ => writesRegs_setG ..) (fun _ _ hu => loadG_plain hu d hle _) hexec
theorem loadV_loads {i : Instr} {len : Nat} {va : Word} {o : BitVec 2} {sc : BitVec 3} {d : BitVec 5}
    (hexec : ∀ u, loadMem va 16 o sc (loadV (d.setWidth 4)) s = .ok (.fall 4) u → exec i s = .next (retire (.fall len) u)) :
    Loads i len s va 16 o sc (putV d) :=
  loads_of_loadMem (by decide) hs hr (fun _ => writesRegs_setV ..) (fun _ _ hu => loadV_plain hu d _) hexec
end

end Sys2Proof.Machine

namespace Sys2Proof.Settled
open Sys2Proof.Machine

/-- Settles O14: every form is a load at its address, whose number goes to a g or a v register. -/
theorem loading : Obligations.Loading := by
  intro s d a b o sc i w n d4 b4 o4 hs hr
  have hsize : 0 < 2 ^ w.toNat := Nat.two_pow_pos _
  refine ⟨loadG_loads hs hr hsize (size_le w) fun u hu => ?_, loadG_loads hs hr hsize (size_le w) fun u hu => ?_,
    fun hin => loadG_loads hs hr hsize (size_le w) fun u hu => ?_, loadV_loads hs hr fun u hu => ?_, loadV_loads hs hr fun u hu => ?_,
    fun hin => loadV_loads hs hr fun u hu => ?_, loadG_loads hs hr (by decide) (by decide) fun u hu => ?_⟩
  · exact (withRegs_plain hs ..).trans (congrArg finish hu)
  · exact (withRegs_plain hs ..).trans (congrArg finish hu)
  · refine (withRegs_plain hs ..).trans ?_
    rw [regionAddr_ok hin]
    exact congrArg finish hu
  · exact (withRegs_plain hs ..).trans (congrArg finish hu)
  · exact (withRegs_plain hs ..).trans (congrArg finish hu)
  · refine (withRegs_plain hs ..).trans ?_
    rw [regionAddr_ok hin]
    exact congrArg finish hu
  · exact (withRegs_plain hs ..).trans (congrArg (finish ∘ Res.short) hu)

end Sys2Proof.Settled
end

