-- ==== Sys2Proof/Proofs/Storing.lean ====
section
/-! SUPPORT. Stores by base, index and region (R139, R144, R145, R147, R161, R73); settles O16. -/
namespace Sys2Proof.Machine

theorem relOf_zero (sc : BitVec 3) : relOf 0 sc = none := rfl
theorem relOf_two {sc : BitVec 3} : (relOf 2 sc).isSome = true := rfl
theorem widest_none (x : Option (BitVec 3)) : widest none x = x := by cases x <;> rfl
/-- A store that names memory enters the store buffer, after what its release covers. -/
theorem storeMem_of_names {s s1 : State} {va : Word} {n : Nat} {kind : StoreKind} {pas : List Nat} {ps : List Place}
    (h : Names s va n .write (if kind = .plain then .plain else .word) pas ps s1) {o : BitVec 2} {sc : BitVec 3}
    (hord : o ≠ 0 ∨ kind ≠ .plain → va.toNat % n = 0) (hsc : sc = 6 → ∀ p ∈ ps, p.isSram = false)
    (hroom : (s.me.stores.filter fun st => !st.isSpill).length < 16) (val : Vec) :
    ∃ st u, storeMem va n val kind o sc s = .ok (.fall 4) u ∧ u.cur = s.cur ∧ u.mem = s.mem ∧
      u.me = { s.me with serial := s.me.serial + 1, stores := s.me.stores ++ [st] } ∧
      st.va = va ∧ st.size = n ∧ st.val = val ∧ st.kind = kind ∧ st.pa = pas.headD 0 ∧
      st.rel = widest (relOf o sc) s.me.relScope ∧
      st.upTo = if (relOf o sc).isSome then s.me.serial else s.me.fenceUpTo := by
  have hva : ¬2 ^ 56 ≤ va.toNat := Nat.not_le.2 h.1
  have haligned : ((decide (o ≠ 0) || decide (kind ≠ .plain)) && decide (va.toNat % n ≠ 0)) = false := by
    simp only [Bool.and_eq_false_iff, Bool.or_eq_false_iff, decide_eq_false_iff_not]
    by_cases hk : o ≠ 0 ∨ kind ≠ .plain
    · exact .inr (not_not.2 (hord hk))
    · exact .inl (not_or.1 hk)
  have hbank : (if kind = .plain then Kind.plain else .word) = .bank → ∀ p ∈ ps, s1.poisoned p = false := by
    split <;> simp
  have hdevice (o : Nat) : ps.head? ≠ some (.device o) := fun e =>
    absurd (h.2.2.2 _ (List.mem_of_mem_head? e)).1 (by simp [Place.isDevice])
  obtain ⟨l, hl⟩ := h.tlb
  have hme : s1.me = s.me := by rw [hl]; rfl
  obtain ⟨pa2, haccess⟩ := h.access_eq hbank
  rw [storeMem, if_neg hva, haligned, if_neg (by decide), haccess (fun e => hsc (scope_eq_six e))]
  dsimp only
  split
  · next o' e => exact absurd e (hdevice o')
  · rw [bufferStore, hme, if_neg (Nat.not_le.2 hroom)]
    split
    · next o' e => exact absurd e (hdevice o')
    · exact ⟨_, _, rfl, by rw [hl]; rfl, by rw [hl]; rfl, State.me_setMe .., rfl, rfl, rfl, rfl, rfl, rfl, rfl⟩

theorem stores_of_storeMem {i : Instr} {len : Nat} {s : State} {va : Word} {n : Nat} {val : Vec} {kind : StoreKind} {o : BitVec 2}
    {sc : BitVec 3} (hr : s.cur.replay = false)
    (hexec : ∀ u, storeMem va n val kind o sc s = .ok (.fall 4) u → exec i s = .next (retire (.fall len) u)) :
    Stores i len s va n val kind o sc := by
  intro pas ps s1 h hord hsc hroom
  obtain ⟨st, u, hstore, hcur, hmem, hu, hva, hsize, hval, hkind, hpa, hrel, hup⟩ := storeMem_of_names h hord hsc hroom val
  have hme := me_retire_fall (show u.cur.replay = false by rw [hcur, hr]) len
  rw [hu] at hme
  refine ⟨_, st, hexec _ hstore, goesOn_retire hr hcur (by rw [hu]) (by rw [hu]) (by rw [hu]) len, ?_, ?_, ?_, ?_, hva, hsize, hval,
    hkind, hpa, fun ho => ?_, fun ho => ?_⟩
  · rw [hme]
    exact ⟨rfl, rfl, rfl, rfl, rfl⟩
  · rw [hme]
  · rw [retire_mem, hmem]
  · rw [hme]
  · rw [hrel, ho, relOf_zero, widest_none]
  · rw [hup, ho, if_pos relOf_two]

end Sys2Proof.Machine

namespace Sys2Proof.Settled
open Sys2Proof.Machine

/-- Settles O16: every form is a store at its address, which enters the store buffer. -/
theorem storing : Obligations.Storing := by
  intro s d a b o sc i w n d4 b4 o4 hs hr
  refine ⟨stores_of_storeMem hr fun u hu => ?_, stores_of_storeMem hr fun u hu => ?_, fun hin => stores_of_storeMem hr fun u hu => ?_,
    stores_of_storeMem hr fun u hu => ?_, stores_of_storeMem hr fun u hu => ?_, fun hin => stores_of_storeMem hr fun u hu => ?_,
    stores_of_storeMem hr fun u hu => ?_⟩
  · exact (withRegs_plain hs ..).trans (congrArg finish hu)
  · exact (withRegs_plain hs ..).trans (congrArg finish hu)
  · refine (withRegs_plain hs ..).trans ?_
    rw [regionAddr_ok hin]
    exact congrArg finish hu
  · exact (withRegs_plain hs ..).trans (congrArg finish hu)
  · exact (withRegs_plain hs ..).trans (congrArg finish hu)
  · refine (withRegs_plain hs ..).trans ?_
    rw [regionAddr_ok hin]
    exact congrArg finish hu
  · exact (withRegs_plain hs ..).trans (congrArg (finish ∘ Res.short) hu)

end Sys2Proof.Settled
end

