-- ==== Sys2Proof/Proofs/FullEmpty.lean ====
section
/-! SUPPORT. LDF, STF and STE (R147, R148); settles O17. -/
namespace Sys2Proof.Machine

/-- A read of a full-empty word comes to what the word's bit decides, where the store buffer holds no release it waits for. -/
theorem loadFull_of_reaches {s s1 : State} {va : Word} {pas : List Nat} {p : Place} {ps : List Place}
    (h : Reaches s va 8 .read .word .word pas (p :: ps) s1) {k : Nat} (hk : p.key = some k) (ha : va.toNat % 8 = 0)
    {o : BitVec 2} {sc : BitVec 3} (hord : o ≠ 0 → ∀ st ∈ s.me.stores, st.rel = none)
    (hsc : sc = 6 → ∀ p' ∈ p :: ps, p'.isSram = false) (d : BitVec 5) :
    ∃ u, Beside (o.getLsbD 0) s u ∧ u.mem.bytes = s.mem.bytes ∧ loadFull va o sc d s =
      if s.mem.isFull (k / 8) then
        .ok (.fall 4) ((noteRead (acqOf o sc) pas (p :: ps) u true true).writeG d (BitVec.ofNat 64 (readValue s1 none (p :: ps))))
      else .wait (.ldfEmpty (k / 8)) u := by
  have hva : ¬2 ^ 56 ≤ va.toNat := Nat.not_le.2 h.1.1
  have hhold : ((acqOf o sc).isSome && s.me.stores.any fun st => st.rel.isSome) = false := by
    rw [acqOf_isSome]
    by_cases ho : o = 0
    · rw [not_getLsbD_of_zero 0 ho, Bool.false_and]
    · rw [List.any_eq_false.2 fun st hst => by simp [hord ho st hst], Bool.and_false]
  obtain ⟨pa2, haccess⟩ := h.access_eq (by decide)
  have hmoves := LinesMoved.foldl (fun s n => shareLine_moves s n s.cur.core) (linesOf (p :: ps)) (s1.dropAnswers false)
  refine ⟨_, (h.beside _).trans (hmoves.beside _), ?_, ?_⟩
  · rw [State.foldl_shareLine_bytes, h.mem]
  · rw [loadFull, if_neg hva, if_neg (not_not.2 ha), haccess (fun e => hsc (scope_eq_six e)) hhold]
    simp only [List.head?_cons, Option.bind_some, hk, h.mem, readValue_dropAnswers]
    cases s.mem.isFull (k / 8) <;> rfl

section
variable {j : Instr} {s s1 : State} {va : Word} {pas : List Nat} {p : Place} {ps : List Place} {k : Nat} {o : BitVec 2} {sc : BitVec 3}
  {d : BitVec 5} (hexec : exec j s = finish (loadFull va o sc d s)) (h : Reaches s va 8 .read .word .word pas (p :: ps) s1)
  (hk : p.key = some k) (ha : va.toNat % 8 = 0) (hord : o ≠ 0 → ∀ st ∈ s.me.stores, st.rel = none)
  (hsc : sc = 6 → ∀ p' ∈ p :: ps, p'.isSram = false)
include hexec h hk ha hord hsc

/-- A full word is read as it stands, and stays full. -/
theorem loadFull_full (hs : s.plain = true) (hr : s.cur.replay = false) (hfull : s.mem.isFull (k / 8) = true) :
    ∃ t, exec j s = .next t ∧ GoesOn 4 s t ∧ SameRegs (putG d 8 (readValue s1 none (p :: ps)) s.me) t.me ∧
      SameCtl s.me t.me ∧ t.mem.bytes = s.mem.bytes ∧ t.mem.full = s.mem.full := by
  obtain ⟨u, hbeside, hbytes, e⟩ := loadFull_of_reaches h hk ha hord hsc d
  have hnote : Beside (o.getLsbD 0) s (noteRead (acqOf o sc) pas (p :: ps) u true true) := by
    rw [← acqOf_isSome o sc] at hbeside ⊢
    exact hbeside.trans (noteRead_beside ..)
  have hgone := hnote.gone hr (put := putG d 8 (readValue s1 none (p :: ps))) (writesRegs_setG ..) 4
  rw [if_pos hfull, State.writeG_plain (hnote.plain hs)] at e
  refine ⟨_, hexec.trans (congrArg finish e), ?_⟩
  rw [show BitVec.ofNat 64 (readValue s1 none (p :: ps)) = (BitVec.ofNat (8 * 8) (readValue s1 none (p :: ps))).signExtend 64 from
    (BitVec.signExtend_eq _).symm]
  refine ⟨hgone.goes, hgone.regs, hgone.ctl, ?_, hgone.full⟩
  rw [retire_mem, State.setMe_mem, noteRead_bytes, hbytes]
/-- An empty word is waited for. -/
theorem loadFull_empty (hempty : s.mem.isFull (k / 8) = false) :
    ∃ t, exec j s = .next t ∧ t.me.wait = some (.ldfEmpty (k / 8)) ∧ t.me.pc = s.me.pc ∧ SameRegs s.me t.me ∧
      t.mem.bytes = s.mem.bytes ∧ t.mem.full = s.mem.full := by
  obtain ⟨u, hbeside, hbytes, e⟩ := loadFull_of_reaches h hk ha hord hsc d
  rw [if_neg (by simp [hempty])] at e
  obtain ⟨hwait, hpc, hregs⟩ := waiting_leaves u (.ldfEmpty (k / 8))
  refine ⟨_, hexec.trans (congrArg finish e), hwait, hpc.trans hbeside.pc, sameRegs_trans hbeside.me.regs hregs, ?_, ?_⟩
  · rw [waiting_mem, hbytes]
  · rw [waiting_mem, hbeside.full]
end

end Sys2Proof.Machine

namespace Sys2Proof.Settled
open Sys2Proof.Machine

/-- Settles O17: a read of a full-empty word, and stores whose kind carries the bit that they set. -/
theorem fullEmptyWords : Obligations.FullEmptyWords := by
  intro s d a b o sc i hs hr
  refine ⟨fun j va pas p ps s1 k hj ha h hk hord hsc => ?_, stores_of_storeMem hr fun u hu => ?_,
    stores_of_storeMem hr fun u hu => ?_, stores_of_storeMem hr fun u hu => ?_, stores_of_storeMem hr fun u hu => ?_⟩
  · have hexec : exec j s = finish (loadFull va o sc d s) := by
      obtain ⟨rfl, rfl⟩ | ⟨rfl, rfl⟩ := hj
      · exact withRegs_plain hs ..
      · exact withRegs_plain hs ..
    exact ⟨loadFull_full hexec h hk ha hord hsc hs hr, loadFull_empty hexec h hk ha hord hsc⟩
  all_goals exact (withRegs_plain hs ..).trans (congrArg finish hu)

end Sys2Proof.Settled
end

