-- ==== Sys2Proof/Proofs/OutsideAccesses.lean ====
section
/-! SUPPORT. The checks that come before an access (R142, R143, R139, R63); settles O20. -/
namespace Sys2Proof.Machine

/-- The meaning of an access of `n` bytes at `va` traps above 2^56, and at a misaligned address where it must be aligned. -/
def Checked (r : Res) (s : State) (va : Word) (n : Nat) (acc : Acc) (aligned : Bool) : Prop :=
  (va.toNat < 2 ^ 56 → aligned = true → va.toNat % n ≠ 0 → r = .trap (misaligned va) s) ∧
  (2 ^ 56 ≤ va.toNat → r = .trap (rangeFault acc.code s.me.ctl.priv va) s)

section
variable (s : State) (va : Word) (n : Nat) (o : BitVec 2) (sc : BitVec 3)

theorem loadMem_checked (out : Nat → State → State) : Checked (loadMem va n o sc out s) s va n .read (o ≠ 0) :=
  ⟨fun hva ho ha => by rw [loadMem, if_neg (Nat.not_le.2 hva), ho, decide_eq_true ha]; rfl, fun hva => if_pos hva⟩
theorem storeMem_checked (v : Vec) (k : StoreKind) {aligned : Bool} (hk : aligned = true → o ≠ 0 ∨ k ≠ .plain) :
    Checked (storeMem va n v k o sc s) s va n .write aligned :=
  ⟨fun hva ho ha => by
    have hmust : (decide (o ≠ 0) || decide (k ≠ .plain)) = true := by simpa using hk ho
    rw [storeMem, if_neg (Nat.not_le.2 hva), hmust, decide_eq_true ha]; rfl, fun hva => if_pos hva⟩
theorem loadFull_checked (d : BitVec 5) : Checked (loadFull va o sc d s) s va 8 .read true :=
  ⟨fun hva _ ha => by rw [loadFull, if_neg (Nat.not_le.2 hva), if_pos ha], fun hva => if_pos hva⟩
theorem atomicMem_checked (home : Bool) (f : Nat → Option Nat) (d : BitVec 5) :
    Checked (atomicMem va n o sc home f d s) s va n .rmw true :=
  ⟨fun hva _ ha => by rw [atomicMem, if_neg (Nat.not_le.2 hva), if_pos ha], fun hva => if_pos hva⟩
theorem decrementFire_checked (y : Nat) (d : BitVec 5) : Checked (decrementFire va n y o sc d s) s va 64 .rmw true :=
  ⟨fun hva _ ha => by rw [decrementFire, if_neg (Nat.not_le.2 hva), if_pos ha], fun hva => if_pos hva⟩
theorem nmIssue_checked (k : NmKind) (y : Word) : Checked (nmIssue k va y s) s va k.size .write true :=
  ⟨fun hva _ ha => by rw [nmIssue, if_neg (Nat.not_le.2 hva), if_pos ha], fun hva => if_pos hva⟩
end

theorem Checked.short {r : Res} {s : State} {va : Word} {n : Nat} {acc : Acc} {aligned : Bool} (h : Checked r s va n acc aligned) :
    Checked r.short s va n acc aligned :=
  ⟨fun hva hk ha => by rw [h.1 hva hk ha]; rfl, fun hva => by rw [h.2 hva]; rfl⟩
theorem rangeFault_eq (acc : Acc) (p : BitVec 1) (va : Word) :
    rangeFault acc.code p va = ⟨0x10, some (faultInfo acc 3 false p ||| 0x40), some va⟩ := by
  have hinfo : BitVec.ofNat 56 (acc.code + 3 * 4 + (if p = 0 then 32 else 0) + 64) = faultInfo acc 3 false p ||| 0x40 := by
    revert p
    cases acc <;> decide
  rw [rangeFault, hinfo]
/-- What an instruction does whose meaning makes the checks. -/
theorem traps_of_checked {i : Instr} {r : Res} {s : State} {va : Word} {n : Nat} {acc : Acc} {aligned : Bool}
    (hexec : exec i s = finish r) (h : Checked r s va n acc aligned) :
    (va.toNat < 2 ^ 56 → aligned = true → va.toNat % n ≠ 0 → exec i s = traps ⟨0x04, none, some va⟩ s) ∧
      (2 ^ 56 ≤ va.toNat → exec i s = traps ⟨0x10, some (faultInfo acc 3 false s.me.ctl.priv ||| 0x40), some va⟩ s) := by
  refine ⟨fun hva hk ha => ?_, fun hva => ?_⟩
  · rw [hexec, h.1 hva hk ha]
    rfl
  · rw [hexec, h.2 hva, rangeFault_eq]
    rfl

/-- Every memory instruction makes the checks of its form. -/
theorem memoryForms_checked {s : State} (hs : s.plain = true) (d a b i t : BitVec 5) (o z ty : BitVec 2) (sc op : BitVec 3)
    (w : BitVec 1) :
    ∀ f ∈ memoryForms s d a b i t o z ty sc op w, ∃ r, exec f.instr s = finish r ∧ Checked r s f.va f.size f.acc f.aligned := by
  have hload {va n out} : Checked (loadMem va n o sc out s) s va n .read (o ≠ 0) := loadMem_checked ..
  have hshort {va n out} : Checked (loadMem va n 0 0 out s) s va n .read false := loadMem_checked ..
  have hstore {va n v} : Checked (storeMem va n v .plain o sc s) s va n .write (o ≠ 0) :=
    storeMem_checked _ _ _ _ _ _ _ fun ho => .inl (by simpa using ho)
  have hword {va v k} (hk : k ≠ .plain) : Checked (storeMem va 8 v k o sc s) s va 8 .write true :=
    storeMem_checked _ _ _ _ _ _ _ fun _ => .inr hk
  simp only [memoryForms, List.forall_mem_append, List.forall_mem_cons, List.forall_mem_map, List.not_mem_nil]
  refine ⟨⟨⟨_, withRegs_plain hs .., hload⟩, ⟨_, withRegs_plain hs .., hload⟩, ⟨_, withRegs_plain hs .., hshort.short⟩,
    ⟨_, withRegs_plain hs .., hload⟩, ⟨_, withRegs_plain hs .., hload⟩, ⟨_, withRegs_plain hs .., hstore⟩,
    ⟨_, withRegs_plain hs .., hstore⟩, ⟨_, withRegs_plain hs .., .short (storeMem_checked _ _ _ _ _ _ _ nofun)⟩,
    ⟨_, withRegs_plain hs .., hstore⟩, ⟨_, withRegs_plain hs .., hstore⟩, ⟨_, withRegs_plain hs .., loadFull_checked ..⟩,
    ⟨_, withRegs_plain hs .., loadFull_checked ..⟩, ⟨_, withRegs_plain hs .., hword nofun⟩, ⟨_, withRegs_plain hs .., hword nofun⟩,
    ⟨_, withRegs_plain hs .., hword nofun⟩, ⟨_, withRegs_plain hs .., hword nofun⟩, ⟨_, withRegs_plain hs .., decrementFire_checked ..⟩,
    ⟨_, withRegs_plain hs .., ?_⟩, ⟨_, withRegs_plain hs .., nmIssue_checked _ _ (.red op ty) _⟩,
    fun _ h => h.elim⟩, ?_⟩
  · convert nmIssue_checked s _ (nmAddKind t) _ using 1
    revert t
    decide
  · refine ⟨?_, ?_, ?_, ?_, ?_, ?_, ?_, ?_, ?_, ?_, ?_, fun _ h => h.elim⟩
    all_goals exact ⟨_, withRegs_plain hs .., atomicMem_checked ..⟩

theorem regionAddr_error {x : Ctx} {a : BitVec 5} {n : BitVec 4} {off size : Nat}
    (hout : (x.ctl.region n >>> 56).toNat = 0 ∨
      (x.ctl.region n >>> 56).toNat * 1024 < (x.getG a + BitVec.ofNat 64 off + BitVec.ofNat 64 size).toNat) :
    regionAddr x a n off size = .error (regionBounds none) := by
  rw [← fld_top] at hout
  have hbad : regionOk (x.ctl.region n) (x.getG a) off size = false := by
    simp only [regionOk, Bool.and_eq_false_iff, decide_eq_false_iff_not, not_not, Nat.not_le]
    exact hout
  rw [regionAddr, hbad]
  rfl

end Sys2Proof.Machine

namespace Sys2Proof.Settled
open Sys2Proof.Machine

/-- Settles O20: every form checks its address before anything else, and a region form its region before that. -/
theorem misalignedAndOutside : Obligations.MisalignedAndOutside := by
  intro s d a b i t o z ty sc op w n hs
  refine ⟨fun f hf => ?_, ?_⟩
  · obtain ⟨r, hexec, hchecked⟩ := memoryForms_checked hs d a b i t o z ty sc op w f hf
    exact traps_of_checked hexec hchecked
  · simp only [regionForms, List.forall_mem_cons, List.not_mem_nil]
    refine ⟨fun hout => ?_, fun hout => ?_, fun hout => ?_, fun hout => ?_, fun _ h => h.elim⟩
    all_goals
      refine (withRegs_plain hs ..).trans ?_
      rw [regionAddr_error hout]
      rfl

end Sys2Proof.Settled
end

