-- ==== Sys2Proof/Proofs/WideStore.lean ====
section
/-! SUPPORT. A store wider than a line as the statement of the memory system's events admits it; refutes O53. -/
namespace Sys2Proof.Machine

/-- A buffered store of 66 bytes: one at the end of a line, the 64 of the page's last line, and one in the next page. No
instruction buffers a store wider than 16 bytes (R145). -/
def wideStore : Store := { serial := 1, va := 0x3FBF, pa := 0x3FBF, pa2 := 0x4000, size := 66, val := 0 }
/-- It stands in the first context's buffer, and the line of physical address 0, which it does not touch, is in motion (R284). -/
def wideState : State :=
  { State.reset.setCtxAt 0 0 { State.reset.ctxAt 0 0 with stores := [wideStore] } with
    mem := { State.reset.mem with lines := [(2 ^ 43, { moving := some 1 })] } }
/-- What stays of it: all but the first byte, with the second page's base lost by the split. -/
def wideRest : Store := { wideStore with va := 0x3FC0, pa := 0x3FC0, pa2 := 0, size := 65 }

/-- All of an access's places are DRAM of this package, ready for a core to write. -/
def readyDram (s : State) (c : CoreId) (ps : List Place) : Bool :=
  (ps.all fun p => (match p with
    | .dram _ _ => true
    | _ => false) && !s.blocked p && (s.askFor (some c) true p).isNone) && (linesOf ps).all fun n => !s.holdsBack (some c) n
theorem homeReady_of_readyDram {s : State} {c : CoreId} {ps : List Place} (h : readyDram s c ps = true) : HomeReady s (some c) ps := by
  simp only [readyDram, Bool.and_eq_true, List.all_eq_true, Bool.not_eq_true', Option.isNone_iff_eq_none] at h
  obtain ⟨hplaces, hlines⟩ := h
  refine ⟨fun p hp => ?_, hlines⟩
  obtain ⟨⟨hdram, hblocked⟩, hask⟩ := hplaces p hp
  refine ⟨?_, hblocked, hask⟩
  cases p with
  | dram k l => exact ⟨k, .inr ⟨l, rfl⟩⟩
  | _ => cases hdram

/-- The store's places, where they are distinct and ready. -/
def widePlaces : Option (List Place) :=
  match placesOf wideState wideStore.hkey wideStore.pas with
  | .ok ps => if readyDram wideState 0 ps && decide (ps.map (·.key)).Nodup then some ps else none
  | .error _ => none
theorem widePlaces_ready : ∃ ps, placesOf wideState wideStore.hkey wideStore.pas = .ok ps ∧ HomeReady wideState (some 0) ps ∧
    (ps.map (·.key)).Nodup := by
  have hsome : widePlaces.isSome = true := by decide +kernel
  obtain ⟨ps, hps⟩ := Option.isSome_iff_exists.1 hsome
  unfold widePlaces at hps
  split at hps
  · next qs e =>
    split at hps
    · next h =>
      rw [Bool.and_eq_true, decide_eq_true_eq] at h
      exact ⟨qs, e, homeReady_of_readyDram h.1, h.2⟩
    · cases hps
  · cases hps
/-- Performing the store leaves the rest of it in the buffer. -/
theorem wide_stores : ((storeStep 0 0 0 wideStore wideState).ctxAt 0 0).stores = [wideRest] := by decide +kernel
theorem exec_wide : exec (.storePerform 0 0 0) wideState = .next (storeStep 0 0 0 wideStore wideState) := by
  have hbuffer : (wideState.ctxAt 0 0).stores[0]? = some wideStore := by decide +kernel
  have hup : wideState.dieUp (dieOf 0).toNat = true := by decide +kernel
  have hready : wideState.storeReady (wideState.ctxAt 0 0) wideStore = true := by decide +kernel
  change execStorePerform 0 0 0 wideState = _
  simp only [execStorePerform, hbuffer, hup, hready]
  rfl

end Sys2Proof.Machine

namespace Sys2Proof.Settled
open Sys2Proof.Machine

/-- Refutes O53: a buffered store may have any size there, and one of more than a line that spans two pages and two lines leaves
in the buffer a part that names the wrong page, where that page's line is in motion. -/
theorem not_memoryEvents : ¬ Obligations.MemoryEvents := by
  unfold Obligations.MemoryEvents
  intro h
  obtain ⟨-, -, -, hstore, -⟩ := h wideState 0 0 0
  obtain ⟨ps, hps, hready, hkeys⟩ := widePlaces_ready
  obtain ⟨t, hexec, hctx, -⟩ := hstore wideStore ps (by decide +kernel) (by decide +kernel) rfl (by decide +kernel) nofun
    (by decide +kernel) hps hready hkeys
  rw [exec_wide] at hexec
  cases hexec
  have hnone : ((storeStep 0 0 0 wideStore wideState).ctxAt 0 0).stores = [] := by
    rw [hctx]
    decide +kernel
  rw [wide_stores] at hnone
  cases hnone

end Sys2Proof.Settled
end

