-- ==== Sys2Proof/Proofs/WrittenBytes.lean ====
section
/-! SUPPORT. The bytes of memory after a write at places, and the distinct bytes of an aligned access (R2, R141, R143). -/
namespace Sys2Proof.Machine

/-! ## Bytes after a write -/

theorem after_cons (w : Place × Byte) (ws : List (Place × Byte)) (k : Nat) (b : Byte) :
    after (w :: ws) k b = after ws k (if w.1.key = some k then w.2 else b) := rfl
theorem writePlace_byte (m : Memory) (w : Place × Byte) (k : Nat) :
    (writePlace m w.1 w.2).byte k = if w.1.key = some k then w.2 else m.byte k := by
  unfold writePlace
  split
  · next e => simp [e, Place.key, Memory.byte]
  · split
    · next hk => simp [hk]
    · next j hk =>
      by_cases hj : j = k
      · subst hj
        simp [hk]
      · rw [Memory.byte_setByte_other _ (Ne.symm hj), Memory.byte_congr (noteWindow_bytes m w.1), hk, if_neg (by simpa using hj)]
/-- Every byte of memory after a write at places. -/
theorem writeBytes_byte (m : Memory) (w : List (Place × Byte)) (t : Option Tag) (b : Bool) (c : Option CoreId) (k : Nat) :
    (writeBytes m w t b c).byte k = after w k (m.byte k) := by
  unfold writeBytes
  rw [Memory.byte_congr
    (m := w.foldl (fun m p => writePlace m p.1 p.2) ((wordsOf (w.map (·.1))).foldl (Memory.remember c) m)) (by simp)]
  generalize hm : (wordsOf (w.map (·.1))).foldl (Memory.remember c) m = m0
  have e : m0.byte k = m.byte k := Memory.byte_congr (hm ▸ Memory.foldl_bytes (Memory.remember_bytes c) _ m) k
  rw [← e]
  clear hm e
  induction w generalizing m0 with
  | nil => rfl
  | cons p u ih => rw [List.foldl_cons, ih, writePlace_byte, after_cons]
/-- A byte that no place of a write names keeps its value. -/
theorem after_zip_other {ps : List Place} {k : Nat} (h : ∀ p ∈ ps, p.key ≠ some k) (l : List Byte) (b : Byte) :
    after (ps.zip l) k b = b := by
  induction ps generalizing l b with
  | nil => rfl
  | cons p ps ih =>
    cases l with
    | nil => rfl
    | cons c l =>
      rw [List.zip_cons_cons, after_cons, if_neg (h p List.mem_cons_self), ih fun q hq => h q (List.mem_cons_of_mem _ hq)]
/-- Each byte of a write of distinct bytes stands. -/
theorem after_zip_get {ps : List Place} (hps : (ps.map (·.key)).Nodup) {j k : Nat} (hk : (ps[j]?).bind (·.key) = some k)
    {l : List Byte} {c : Byte} (hc : l[j]? = some c) (b : Byte) : after (ps.zip l) k b = c := by
  induction ps generalizing l b j with
  | nil => cases hk
  | cons p ps ih =>
    rw [List.map_cons, List.nodup_cons] at hps
    cases l with
    | nil => cases hc
    | cons d l =>
      rw [List.zip_cons_cons, after_cons]
      cases j with
      | zero =>
        obtain rfl : d = c := by simpa using hc
        have hp : p.key = some k := by simpa using hk
        rw [if_pos hp, after_zip_other]
        intro q hq e
        exact hps.1 (List.mem_map.2 ⟨q, hq, e.trans hp.symm⟩)
      | succ j => exact ih hps.2 (by simpa using hk) (by simpa using hc) _
theorem toBytes_getElem? (v n j : Nat) : (toBytes v n)[j]? = if j < n then some (byteOf v j) else none := by
  induction n generalizing v j with
  | zero => rfl
  | succ n ih =>
    cases j with
    | zero => simp [toBytes, byteOf]
    | succ j => simp [toBytes, ih, byteOf, Nat.pow_succ', Nat.div_div_eq_div_mul]

/-! ## Full-empty bits and the rest of memory under a write -/

theorem noteWindow_full (m : Memory) (p : Place) : (noteWindow m p).full = m.full := by
  unfold noteWindow
  split
  · dsimp only
    rw [apply_ite Memory.full, ite_self]
  · rfl
theorem writePlace_full (m : Memory) (p : Place) (b : Byte) : (writePlace m p b).full = m.full := by
  unfold writePlace
  split
  · rfl
  · split
    · rfl
    · exact noteWindow_full m p
theorem Memory.foldl_full {α : Type} {f : Memory → α → Memory} (hf : ∀ m a, (f m a).full = m.full) (l : List α) (m : Memory) :
    (l.foldl f m).full = m.full :=
  List.foldlRecOn (motive := fun t => t.full = m.full) l f rfl fun t ht a _ => (hf t a).trans ht
theorem remember_full (c : Option CoreId) (m : Memory) (p : Place) : (Memory.remember c m p).full = m.full := by
  unfold Memory.remember
  split <;> rfl
theorem clearPoison_full (m : Memory) (ks : List Nat) : (clearPoison m ks).full = m.full := by
  unfold clearPoison
  split <;> rfl
/-- Writing bytes leaves every full-empty bit. -/
theorem writeBytes_full (m : Memory) (w : List (Place × Byte)) (t : Option Tag) (b : Bool) (c : Option CoreId) :
    (writeBytes m w t b c).full = m.full := by
  unfold writeBytes setTags
  rw [Memory.foldl_full (by intros; rfl), clearPoison_full, Memory.foldl_full (by intros; apply writePlace_full),
    Memory.foldl_full (remember_full c)]

/-! ## The bytes of an aligned access are distinct -/

theorem pageSize_mod (l : Nat) : pageSize l % 64 = 0 := by
  unfold pageSize
  split <;> rfl
/-- An address keeps its place in a line of 64 bytes under translation. -/
theorem outcome_mod (w : Walk) (va : Nat) (acc : Acc) (p : BitVec 1) : Gives (fun pa => pa % 64 = va % 64) (w.outcome va acc p) := by
  unfold Walk.outcome
  split
  · exact gives_error _
  · exact gives_error _
  · next l e =>
    split
    · have hpage := Nat.mod_mod_of_dvd va (Nat.dvd_of_mod_eq_zero (pageSize_mod l))
      refine (gives_ok _).2 ?_
      rw [ptePa]
      omega
    · exact gives_error _
theorem translate_mod (s : State) (v : Via) (r : BitVec 48) (va : Word) (a : Acc) (p : BitVec 1) :
    Gives (fun q => q.1 % 64 = va.toNat % 64) (translate s v r va a p) := by
  simp only [translate]
  split
  · exact gives_error _
  · split
    · split
      · exact gives_error _
      · next e => exact (gives_ok _).2 ((outcome_mod ..).of_ok _ e)
    · split
      · exact gives_error _
      · next e => exact (gives_ok _).2 ((outcome_mod ..).of_ok _ e)
theorem translateSpan_mod (s : State) (v : Via) (r : BitVec 48) (va : Word) (n : Nat) (a : Acc) (p : BitVec 1) :
    Gives (fun q => q.1 % 64 = va.toNat % 64) (translateSpan s v r va n a p) := by
  unfold translateSpan
  split
  · exact gives_error _
  · next pa s1 e =>
    have hmod := (translate_mod ..).of_ok _ e
    split
    · exact (gives_ok _).2 hmod
    · dsimp only
      split
      · exact gives_error _
      · exact (gives_ok _).2 hmod
/-- An aligned access of at most a line lies in one line, so that its bytes in memory lie at rising offsets of a line. -/
theorem Names.key_mod {s s1 : State} {va : Word} {n : Nat} {acc : Acc} {kind : Kind} {pas : List Nat} {ps : List Place}
    (h : Names s va n acc kind pas ps s1) (hdvd : n ∣ 64) (ha : va.toNat % n = 0) {j k : Nat} {p : Place} (hp : ps[j]? = some p)
    (hk : p.key = some k) : j < n ∧ k % 64 = va.toNat % 64 + j := by
  have hlen := h.length
  obtain ⟨-, ⟨pa, pa2, e, rfl⟩, eps, -⟩ := h
  have hmod := (translateSpan_mod ..).of_ok _ e
  obtain ⟨hj, rfl⟩ := List.getElem?_eq_some_iff.1 hp
  have hplace := (placesOf_forall₂ eps).get (i := j) (by rwa [spanPas_length, ← hlen]) hj
  have hkey := place_key_mod hplace hk
  have hjn : j < n := hlen ▸ hj
  have hfits : va.toNat % 64 + j < 64 := by
    obtain ⟨m, hm⟩ := hdvd
    obtain ⟨q, hq⟩ : n ∣ va.toNat % 64 := (Nat.dvd_mod_iff ⟨m, hm⟩).2 (Nat.dvd_of_mod_eq_zero ha)
    have hqm : q < m := Nat.lt_of_mul_lt_mul_left (a := n) (by omega)
    have hroom : n * (q + 1) ≤ n * m := Nat.mul_le_mul_left n hqm
    rw [Nat.mul_add] at hroom
    omega
  refine ⟨hjn, ?_⟩
  simp only [List.get_eq_getElem, spanPas, List.getElem_map, List.getElem_range] at hkey
  rw [if_pos (by omega)] at hkey
  omega
/-- An aligned access of at most a line names each byte of memory once. -/
theorem Names.keys_nodup {s s1 : State} {va : Word} {n : Nat} {acc : Acc} {kind : Kind} {pas : List Nat} {ps : List Place}
    (h : Names s va n acc kind pas ps s1) (hdvd : n ∣ 64) (ha : va.toNat % n = 0) (hkeys : ∀ p ∈ ps, ∃ k, p.key = some k) :
    (ps.map (·.key)).Nodup := by
  rw [List.Nodup, List.pairwise_iff_getElem]
  intro i j hi hj hij e
  simp only [List.getElem_map] at e
  rw [List.length_map] at hi hj
  obtain ⟨k, hk⟩ := hkeys _ (List.getElem_mem hi)
  have hmodi := (h.key_mod hdvd ha (List.getElem?_eq_getElem hi) hk).2
  have hmodj := (h.key_mod hdvd ha (List.getElem?_eq_getElem hj) (e ▸ hk)).2
  omega
/-- An access that reaches memory names its bytes by key. -/
theorem Reaches.key {s s1 : State} {va : Word} {n : Nat} {acc : Acc} {kind : Kind} {need : Need} {pas : List Nat} {ps : List Place}
    (h : Reaches s va n acc kind need pas ps s1) {p : Place} (hp : p ∈ ps) : ∃ k, p.key = some k := by
  obtain ⟨k, rfl | ⟨l, rfl⟩⟩ := (h.2.1 p hp).1
  · exact ⟨k, rfl⟩
  · exact ⟨k, rfl⟩

end Sys2Proof.Machine
end

