-- ==== Sys2Proof/Proofs/Atomics.lean ====
section
/-! SUPPORT. The atomics (R149 to R151); settles O18. -/
namespace Sys2Proof.Machine

/-! ## Numbers and bytes -/

theorem fromBytes_lt (l : List Byte) : fromBytes l < 256 ^ l.length := by
  induction l with
  | nil => exact Nat.one_pos
  | cons b t ih =>
    have hb : b.toNat < 256 := b.isLt
    rw [fromBytes, List.length_cons, Nat.pow_succ]
    omega
theorem readValue_lt (s : State) (since : Option Nat) (ps : List Place) (m : Manner) :
    readValue s since ps m < 2 ^ (8 * ps.length) := by
  have h := fromBytes_lt (ps.map fun p => overlay s s.me.stores p (s.memByte since p m))
  rw [List.length_map] at h
  rwa [Nat.pow_mul]
theorem byteOf_eq_extract {n j : Nat} (hj : j < n) (v : Nat) : byteOf v j = (BitVec.ofNat (8 * n) v).extractLsb' (8 * j) 8 := by
  have h256 : 256 ^ j = 2 ^ (8 * j) := by rw [Nat.pow_mul]
  ext i hi
  rw [byteOf, h256, BitVec.getElem_extractLsb' hi, ← BitVec.getLsbD_eq_getElem, BitVec.getLsbD_ofNat, BitVec.getLsbD_ofNat,
    Nat.testBit_div_two_pow, decide_eq_true hi, decide_eq_true (by omega), Nat.add_comm]
theorem signedN_toNat {w : Nat} (hw : 0 < w) (x : BitVec w) : signedN w x.toNat = x.toInt := by
  have hpow : 2 ^ w = 2 * 2 ^ (w - 1) := by rw [← Nat.pow_succ', Nat.succ_eq_add_one, Nat.sub_add_cancel hw]
  have hcast : (2 : Int) ^ w = (2 ^ w : ℕ) := by push_cast; rfl
  rw [signedN, BitVec.toInt_eq_toNat_cond, hcast]
  split <;> split <;> omega

/-! ## An atomic in this package's memory -/

theorem holdsBack_dropAnswers (s : State) (f : Bool) (c : Option CoreId) (n : Nat) :
    (s.dropAnswers f).holdsBack c n = s.holdsBack c n := by
  simp only [State.dropAnswers]
  split <;> rfl
theorem atomicToken_moves (home write : Bool) (ps : List Place) (s : State) : LinesMoved s (atomicToken home write ps s) := by
  unfold atomicToken
  split
  · split
    · exact .foldl (fun s n => takeToken_moves s n s.cur.core) _ s
    · exact .refl s
  · split
    · exact atHome_moves ..
    · exact toHome_moves ..
theorem atomicWrite_beside (acq : Bool) (s : State) (va : Word) (n : Nat) (rel : Option (BitVec 3)) (ps : List Place) (y : Nat) :
    Beside acq s (atomicWrite va n rel ps y s) :=
  (Beside.setMem _ (writeBytes_full ..)).trans (wrote_beside ..)
theorem atomicWrite_byte (s : State) (va : Word) (n : Nat) (rel : Option (BitVec 3)) (ps : List Place) (y k : Nat) :
    (atomicWrite va n rel ps y s).mem.byte k = after (ps.zip (toBytes y n)) k (s.mem.byte k) := by
  rw [atomicWrite, State.wrote_mem]
  exact writeBytes_byte ..

section
variable {s s1 : State} {va : Word} {n : Nat} {pas : List Nat} {ps : List Place} (h : Reaches s va n .rmw .word .token pas ps s1)
include h

theorem leavesLate_of_reaches (home : Bool) : leavesLate home ps (s1.dropAnswers false) = false := by
  have htoken := h.2.2.2 rfl
  simp only [leavesLate, List.any_eq_false, holdsBack_dropAnswers]
  intro l hl
  simp [htoken l hl]
/-- An atomic reads the word as it stands, and writes it or not as its rule says. -/
theorem atomicMem_of_reaches (hn : 0 < n) (ha : va.toNat % n = 0) (hstores : s.me.stores = []) (hpending : s.mem.pending = [])
    {o : BitVec 2} {sc : BitVec 3} (hsc : sc = 6 → ∀ p ∈ ps, p.isSram = false) (home : Bool) (f : Nat → Option Nat) (d : BitVec 5) :
    ∃ u, Beside (o.getLsbD 0) s u ∧
      atomicMem va n o sc home f d s = .ok (.fall 4) (u.writeG d (sextW (8 * n) (BitVec.ofNat 64 (readValue s1 none ps)))) ∧
      match f (readValue s1 none ps) with
      | none => u.mem.bytes = s.mem.bytes
      | some y => ∀ k, u.mem.byte k = after (ps.zip (toBytes y n)) k (s.mem.byte k) := by
  have hva : ¬2 ^ 56 ≤ va.toNat := Nat.not_le.2 h.1.1
  have hwaits : atomicWaits (relOf o sc) s.me s.mem = false := by simp [atomicWaits, Ctx.storesDone, hstores, hpending]
  obtain ⟨pa2, haccess⟩ := h.access_eq hn
  obtain ⟨p, k, hp, hplace⟩ := h.head_place hn
  have hbegin : atomicMem va n o sc home f d s =
      let x := readValue s1 none ps
      let s2 := atomicToken home (f x).isSome ps (noteRead (acqOf o sc) pas ps (s1.dropAnswers false) true true)
      let s3 := match f x with
        | none => s2
        | some y => atomicWrite va n (relOf o sc) ps y s2
      .ok (.fall 4) (s3.writeG d (sextW (8 * n) (BitVec.ofNat 64 x))) := by
    rw [atomicMem, if_neg hva, if_neg (not_not.2 ha), haccess (fun e => hsc (scope_eq_six e)) hwaits]
    dsimp only
    rw [leavesLate_of_reaches h, if_neg (by decide), hp, readValue_dropAnswers]
    obtain rfl | ⟨l, rfl⟩ := hplace
    · rfl
    · rfl
  have hread : Beside (o.getLsbD 0) s (noteRead (acqOf o sc) pas ps (s1.dropAnswers false) true true) := by
    have hanswered := h.beside (acqOf o sc).isSome
    rw [← acqOf_isSome o sc]
    exact hanswered.trans (noteRead_beside ..)
  have htoken (write : Bool) := hread.trans ((atomicToken_moves home write ps _).beside _)
  have hbytes (write : Bool) :
      (atomicToken home write ps (noteRead (acqOf o sc) pas ps (s1.dropAnswers false) true true)).mem.bytes = s.mem.bytes := by
    rw [atomicToken_bytes, noteRead_bytes, h.mem]
  rw [hbegin]
  dsimp only
  cases f (readValue s1 none ps) with
  | none => exact ⟨_, htoken _, rfl, hbytes _⟩
  | some y =>
    refine ⟨_, (htoken _).trans (atomicWrite_beside ..), rfl, fun k => ?_⟩
    rw [atomicWrite_byte, Memory.byte_congr (hbytes _)]
end

/-! ## Each atomic by its rule -/

/-- An atomic whose rule on numbers is f on words is one by f. -/
theorem atomic_of_atomicOp (body : BitVec 5 → BitVec 5 → BitVec 5 → BitVec 2 → BitVec 3 → BitVec 1 → State →
    Host.Outcome State Fault Refusal) {i : BitVec 5 → BitVec 5 → BitVec 5 → BitVec 2 → BitVec 3 → BitVec 1 → Instr}
    {f : (w : Nat) → BitVec w → BitVec w → BitVec w → Option (BitVec w)} {maj k m1 : Nat} {home : Bool}
    {g : Nat → Nat → Nat → Nat → Option Nat} (hexec : ∀ d a b o sc w s, exec (i d a b o sc w) s = body d a b o sc w s)
    (hbody : ∀ d a b o sc w s, body d a b o sc w s = atomicOp maj k m1 d a b o sc w home g s)
    (hfg : ∀ w (x y e : BitVec w), 0 < w → f w x y e = (g w x.toNat y.toNat e.toNat).map (BitVec.ofNat w)) : Atomic i f := by
  intro s d a b o sc w pas ps s1 hs hr n va ha h hstores hpending hsc x
  have hn : 0 < n ∧ n ∣ 64 ∧ 8 * n ≤ 64 := by
    unfold n
    split <;> decide
  obtain ⟨hpos, hdvd, hle⟩ := hn
  have hx : x.toNat = readValue s1 none ps := by
    rw [BitVec.toNat_ofNat, Nat.mod_eq_of_lt (h.length ▸ readValue_lt ..)]
  obtain ⟨u, hbeside, hatomic, hmem⟩ := atomicMem_of_reaches h hpos ha hstores hpending hsc home
    (fun v => g (8 * n) v ((s.me.getG b).toNat % 2 ^ (8 * n)) ((s.me.getG d).toNat % 2 ^ (8 * n))) d
  have hgone := hbeside.gone hr (put := putG d n (readValue s1 none ps)) (writesRegs_setG ..) 4
  rw [State.writeG_plain (hbeside.plain hs), sextW_ofNat hle] at hatomic
  refine ⟨_, (hexec ..).trans ((hbody ..).trans <| (withRegs_plain hs ..).trans (congrArg finish hatomic)), hgone.goes, hgone.regs,
    hgone.ctl, hgone.full, ?_⟩
  rw [hfg _ _ _ _ (by omega), hx, BitVec.toNat_setWidth, BitVec.toNat_setWidth, retire_mem, State.setMe_mem]
  cases e : g (8 * n) (readValue s1 none ps) ((s.me.getG b).toNat % 2 ^ (8 * n)) ((s.me.getG d).toNat % 2 ^ (8 * n)) with
  | none =>
    rw [e] at hmem
    exact hmem
  | some y =>
    rw [e] at hmem
    have hkeys := h.1.keys_nodup hdvd ha fun p hp => h.key hp
    refine ⟨fun j k hj hk => ?_, fun k hk => ?_⟩
    · rw [hmem, after_zip_get hkeys hk (by rw [toBytes_getElem?, if_pos hj]), byteOf_eq_extract hj]
    · rw [hmem, after_zip_other hk]

section
variable {w : Nat} (x y : BitVec w)

theorem ofNat_pick2 (c : Bool) : (pick2 c x.toNat y.toNat).map (BitVec.ofNat w) = some (if c then x else y) := by
  cases c <;> simp [pick2]
theorem sle_eq_signedN (hw : 0 < w) : x.sle y = decide (signedN w x.toNat ≤ signedN w y.toNat) := by
  rw [signedN_toNat hw, signedN_toNat hw, BitVec.sle_eq_decide]
end

end Sys2Proof.Machine

namespace Sys2Proof.Settled
open Sys2Proof.Machine

/-- Settles O18: each atomic's rule on numbers is its rule on words. -/
theorem atomics : Obligations.Atomics := by
  refine ⟨atomic_of_atomicOp execAadd (fun _ _ _ _ _ _ _ => rfl) (fun _ _ _ _ _ _ _ => rfl) fun w x y e hw => ?vaadd,
    atomic_of_atomicOp execAand (fun _ _ _ _ _ _ _ => rfl) (fun _ _ _ _ _ _ _ => rfl) fun w x y e hw => ?vaand,
    atomic_of_atomicOp execAor (fun _ _ _ _ _ _ _ => rfl) (fun _ _ _ _ _ _ _ => rfl) fun w x y e hw => ?vaor,
    atomic_of_atomicOp execAxor (fun _ _ _ _ _ _ _ => rfl) (fun _ _ _ _ _ _ _ => rfl) fun w x y e hw => ?vaxor,
    atomic_of_atomicOp execAmin (fun _ _ _ _ _ _ _ => rfl) (fun _ _ _ _ _ _ _ => rfl) fun w x y e hw => ?vamin,
    atomic_of_atomicOp execAmax (fun _ _ _ _ _ _ _ => rfl) (fun _ _ _ _ _ _ _ => rfl) fun w x y e hw => ?vamax,
    atomic_of_atomicOp execAminn (fun _ _ _ _ _ _ _ => rfl) (fun _ _ _ _ _ _ _ => rfl) fun w x y e hw => ?vaminn,
    atomic_of_atomicOp execAmaxn (fun _ _ _ _ _ _ _ => rfl) (fun _ _ _ _ _ _ _ => rfl) fun w x y e hw => ?vamaxn,
    atomic_of_atomicOp execAswp (fun _ _ _ _ _ _ _ => rfl) (fun _ _ _ _ _ _ _ => rfl) fun w x y e hw => ?vaswp,
    atomic_of_atomicOp execAcas (fun _ _ _ _ _ _ _ => rfl) (fun _ _ _ _ _ _ _ => rfl) fun w x y e hw => ?vacas,
    atomic_of_atomicOp execAfadd (fun _ _ _ _ _ _ _ => rfl) (fun _ _ _ _ _ _ _ => rfl) fun w x y e hw => ?vafadd⟩
  case vaadd => exact congrArg some (BitVec.eq_of_toNat_eq (by simp))
  case vaand => exact congrArg some (BitVec.eq_of_toNat_eq (by simp))
  case vaor => exact congrArg some (BitVec.eq_of_toNat_eq (by simp))
  case vaxor => exact congrArg some (BitVec.eq_of_toNat_eq (by simp))
  case vamin => rw [ofNat_pick2, ← sle_eq_signedN x y hw]
  case vamax => rw [ofNat_pick2, ← sle_eq_signedN y x hw]
  case vaminn => simp only [ofNat_pick2, BitVec.le_def, decide_eq_true_eq]
  case vamaxn => simp only [ofNat_pick2, BitVec.le_def, decide_eq_true_eq]
  case vaswp => simp
  case vacas =>
    by_cases h : x = e
    · simp [h]
    · simp [h, BitVec.toNat_inj]
  case vafadd => rfl

end Sys2Proof.Settled
end

