-- ==== Sys2Proof/Proofs/Fences.lean ====
section
/-! SUPPORT. Fences, ALIASF, instruction fences, prefetches and bank-side operations (R156 to R160); settles O19. -/
namespace Sys2Proof.Machine

/-! ## A context that goes on with its registers -/

/-- y is where x is, with the registers of x, and its control registers but for bits of cr.syncst. -/
structure Ctx.Going (x y : Ctx) : Prop where
  pc : y.pc = x.pc
  loop : y.loop = x.loop
  status : y.status = x.status
  regs : SameRegs x y
  ctl : SameCtl x y
theorem Ctx.Noted.going {acq : Bool} {x y : Ctx} (h : x.Noted acq y) : x.Going y := by
  obtain ⟨hregs, hctl, -, -, -, -, hpc, hloop, hstatus⟩ := h.put writesRegs_id
  exact ⟨hpc, hloop, hstatus, hregs, hctl⟩
theorem Ctx.Going.of_ctl {x y z : Ctx} (h : y.Going z) (hpc : y.pc = x.pc) (hloop : y.loop = x.loop) (hstatus : y.status = x.status)
    (hregs : SameRegs x y) (hctl : y.ctl = x.ctl) : x.Going z := by
  obtain ⟨hpc', hloop', hstatus', hregs', hctl'⟩ := h
  refine ⟨hpc'.trans hpc, hloop'.trans hloop, hstatus'.trans hstatus, sameRegs_trans hregs hregs', ?_⟩
  rw [SameCtl, ← hctl]
  exact hctl'
theorem Ctx.Going.retire {s u : State} {n : Nat} (h : s.me.Going u.me) (hr : s.cur.replay = false) (hcur : u.cur = s.cur) :
    GoesOn n s (retire (.fall n) u) ∧ SameRegs s.me (retire (.fall n) u).me ∧ SameCtl s.me (retire (.fall n) u).me := by
  refine ⟨goesOn_retire hr hcur h.pc h.loop h.status n, ?_⟩
  rw [me_retire_fall (by rw [hcur, hr])]
  exact ⟨h.regs, h.ctl⟩

/-! ## Fences (R156) -/

/-- What a fence of a kind at a scope makes of its context: a release covers the stores before it. -/
def Ctx.fenced (o : BitVec 2) (sc : BitVec 3) (x : Ctx) : Ctx :=
  if bit o 1 then { x with fenceUpTo := x.serial, relScope := widest (some sc) x.relScope } else x
theorem Ctx.Noted.fenced_going {acq : Bool} {x y : Ctx} {o : BitVec 2} {sc : BitVec 3} (h : (x.fenced o sc).Noted acq y) : x.Going y := by
  revert h
  unfold Ctx.fenced
  split
  · exact fun h => h.going.of_ctl rfl rfl rfl ⟨rfl, rfl, rfl, rfl, rfl⟩ rfl
  · exact fun h => h.going
theorem widest_some_le (sc : BitVec 3) (x : Option (BitVec 3)) : ∃ r, widest (some sc) x = some r ∧ sc ≤ r := by
  cases x with
  | none => exact ⟨sc, rfl, BitVec.le_refl sc⟩
  | some y =>
    by_cases h : sc.toNat < y.toNat
    · exact ⟨y, congrArg some (if_pos h), Nat.le_of_lt h⟩
    · exact ⟨sc, congrArg some (if_neg h), BitVec.le_refl sc⟩
/-- A fence completes where no store is buffered and no write of another package is out. -/
theorem fenceAt_of_empty {s : State} (hstores : s.me.stores = []) (hpending : s.mem.pending = []) (o : BitVec 2) (sc : BitVec 3) :
    ∃ u, fenceAt o sc s = .ok (.fall 4) u ∧ u.cur = s.cur ∧ (s.me.fenced o sc).Noted true u.me ∧ u.mem.bytes = s.mem.bytes := by
  obtain ⟨v, hfence, hcur, hme, hmem⟩ : ∃ v, fenceAt o sc s = .ok (.fall 4) (if bit o 0 then acquireFence sc v else v) ∧
      v.cur = s.cur ∧ v.me = s.me.fenced o sc ∧ v.mem = s.mem := by
    have hready : ¬(bit o 1 && ((decide (o = 3) && !s.me.stores.isEmpty) ||
        ((decide (sc = 5) || decide (sc = 6)) && (!s.me.stores.isEmpty || !s.mem.pending.isEmpty)))) = true := by
      simp [hstores, hpending]
    by_cases ho : bit o 1 = true
    · refine ⟨s.setMe (s.me.fenced o sc), (if_neg hready).trans ?_, rfl, State.me_setMe .., rfl⟩
      rw [Ctx.fenced, if_pos ho, if_pos ho]
    · refine ⟨s, (if_neg hready).trans ?_, rfl, (if_neg ho).symm, rfl⟩
      rw [if_neg ho]
  have hbeside : Beside true v (if bit o 0 then acquireFence sc v else v) := .ite (acquireFence_beside ..) (.refl ..)
  refine ⟨_, hfence, hbeside.cur.trans hcur, hme ▸ hbeside.me, ?_⟩
  rw [← hmem]
  split
  · exact acquireFence_bytes ..
  · rfl
theorem Ctx.Noted.covers {acq : Bool} {x y : Ctx} {o : BitVec 2} {sc : BitVec 3} (h : (x.fenced o sc).Noted acq y) (ho : bit o 1 = true) :
    y.fenceUpTo = x.serial ∧ ∃ r, y.relScope = some r ∧ sc ≤ r := by
  rw [Ctx.fenced, if_pos ho] at h
  obtain ⟨_, _, _, _, rfl, -⟩ := h
  exact ⟨rfl, widest_some_le ..⟩
theorem fence_completes {s : State} (hs : s.plain = true) (hr : s.cur.replay = false) (hstores : s.me.stores = [])
    (hpending : s.mem.pending = []) (o : BitVec 2) (sc : BitVec 3) :
    ∃ t, exec (.fence o sc) s = .next t ∧ GoesOn 4 s t ∧ SameRegs s.me t.me ∧ SameCtl s.me t.me ∧
      t.mem.bytes = s.mem.bytes ∧ (o.getLsbD 1 = true → t.me.fenceUpTo = s.me.serial ∧
        ∃ r, t.me.relScope = some r ∧ sc ≤ r) := by
  obtain ⟨u, hfence, hcur, hnote, hbytes⟩ := fenceAt_of_empty hstores hpending o sc
  obtain ⟨hgoes, hregs, hctl⟩ := hnote.fenced_going.retire (n := 4) hr hcur
  refine ⟨_, (withRegs_plain hs ..).trans (congrArg finish hfence), hgoes, hregs, hctl, ?_, fun ho => ?_⟩
  · rw [retire_mem, hbytes]
  · rw [me_retire_fall (by rw [hcur, hr])]
    exact hnote.covers ho
/-- A full fence waits for the stores of its context. -/
theorem fence_waits {s : State} (hs : s.plain = true) (hstores : s.me.stores ≠ []) (sc : BitVec 3) :
    exec (.fence 3 sc) s = .next (s.waiting .interlock) := by
  refine (withRegs_plain hs ..).trans ?_
  have hwait : fenceAt 3 sc s = .wait .interlock s := by
    rw [fenceAt, if_pos]
    simp [bit, hstores]
  exact congrArg finish hwait

/-! ## ALIASF (R157) -/

theorem aliasf_completes {s : State} (hs : s.plain = true) (hr : s.cur.replay = false) {a b : BitVec 5} {p q : Word}
    (haligned : s.me.aliasing = some (p, q, true)) (hstores : s.me.stores = []) (hpending : s.mem.pending = []) :
    ∃ t, exec (.aliasf a b) s = .next t ∧ GoesOn 4 s t ∧ SameRegs s.me t.me ∧ SameCtl s.me t.me ∧ t.me.aliasing = none ∧
      t.mem.bytes = s.mem.bytes ∧ t.me.fenceUpTo = s.me.serial := by
  have hfence (far : Bool) : ∃ u, (fenceAt 3 (if far then 5 else 4) s) = .ok (.fall 4) u ∧ u.cur = s.cur ∧
      (s.me.fenced 3 (if far then 5 else 4)).Noted true u.me ∧ u.mem.bytes = s.mem.bytes := fenceAt_of_empty hstores hpending ..
  obtain ⟨u, hu, hcur, hnote, hbytes⟩ := hfence ((rangePages (s.me.getG a).toNat (s.me.getG b).toNat).any fun p =>
    match pageAt s s.me.ctl.ptroot p with
    | some pa => pa / 2 ^ 51 ≠ s.pkg.toNat
    | none => false)
  have halias : aliasRange (s.me.getG a) (s.me.getG b) s = .ok (.fall 4) (u.setMe { u.me with aliasing := none }) := by
    simp only [aliasRange, haligned]
    exact congrArg (Res.bind · _) hu
  have hgoing : s.me.Going (u.setMe { u.me with aliasing := none }).me := by
    rw [State.me_setMe]
    obtain ⟨hpc, hloop, hstatus, hregs, hctl⟩ := hnote.fenced_going
    exact ⟨hpc, hloop, hstatus, hregs, hctl⟩
  obtain ⟨hgoes, hregs, hctl⟩ := hgoing.retire (n := 4) hr hcur
  have hme := me_retire_fall (u := u.setMe { u.me with aliasing := none }) (by rw [State.setMe_cur, hcur, hr]) 4
  rw [State.me_setMe] at hme
  refine ⟨_, (withRegs_plain hs ..).trans (congrArg finish halias), hgoes, hregs, hctl, ?_, ?_, ?_⟩
  · rw [hme]
  · rw [retire_mem, State.setMe_mem, hbytes]
  · rw [hme]
    exact (hnote.covers rfl).1
theorem aliasf_begins {s : State} (hs : s.plain = true) (a b : BitVec 5) (hnone : s.me.aliasing = none) :
    ∃ t, exec (.aliasf a b) s = .next t ∧ t.me.aliasing = some (s.me.getG a, s.me.getG b, false) ∧ t.me.pc = s.me.pc := by
  have halias : aliasRange (s.me.getG a) (s.me.getG b) s =
      .wait .interlock (s.setMe { s.me with aliasing := some (s.me.getG a, s.me.getG b, false) }) := by
    simp only [aliasRange, hnone]
  refine ⟨_, (withRegs_plain hs ..).trans (congrArg finish halias), ?_, ?_⟩
  all_goals
    simp only [State.waiting, State.me_setMe]
    split <;> rfl

/-! ## IFENCE (R158) -/

theorem line_setLine (m : Memory) (n k : Nat) (x : Line) : (m.setLine n x).line k = if k = n then x else m.line k := by
  unfold Memory.line Memory.setLine
  split
  · next h => rw [h, Assoc.get?_put_same]; rfl
  · next h => rw [Assoc.get?_put_other _ h]
/-- A core that drops a line from its L1I holds no other line more. -/
theorem fetchers_evict_l1i {s : State} {c : CoreId} {m n : Nat}
    (h : ((s.evict (.l1i c m)).mem.line n).fetchers.contains c = true) :
    (s.mem.line n).fetchers.contains c = true ∧ n ≠ m := by
  simp only [State.evict] at h
  split at h
  · next hm =>
    refine ⟨h, fun e => ?_⟩
    subst e
    rw [h] at hm
    exact absurd hm (by decide)
  · rw [line_setLine] at h
    split at h
    · simp at h
    · exact ⟨h, ‹_›⟩
theorem fetchers_foldl_evict {c : CoreId} (l : List Nat) {s : State} (hc : s.cur.core = c) {n : Nat}
    (h : ((l.foldl (fun s m => s.evict (.l1i s.cur.core m)) s).mem.line n).fetchers.contains c = true) :
    (s.mem.line n).fetchers.contains c = true ∧ n ∉ l := by
  induction l generalizing s with
  | nil => exact ⟨h, List.not_mem_nil⟩
  | cons m l ih =>
    subst hc
    rw [List.foldl_cons] at h
    obtain ⟨hheld, hl⟩ := ih (s := s.evict (.l1i s.cur.core m)) (congrArg (·.core) (evict_moves s _).cur) h
    obtain ⟨hbefore, hm⟩ := fetchers_evict_l1i hheld
    exact ⟨hbefore, by simp [hm, hl]⟩
theorem Assoc.mem_of_get? {α : Type} {m : Assoc α} {k : Nat} {x : α} (h : Assoc.get? m k = some x) : (k, x) ∈ m := by
  induction m with grind [Assoc.get?]
theorem mem_l1i {m : Memory} {c : CoreId} {n : Nat} (h : (m.line n).fetchers.contains c = true) : n ∈ m.l1i c := by
  unfold Memory.line at h
  cases e : Assoc.get? m.lines n with
  | none => simp [e] at h
  | some x =>
    rw [e] at h
    exact List.mem_map.2 ⟨(n, x), List.mem_filter.2 ⟨Assoc.mem_of_get? e, h⟩, rfl⟩
/-- An instruction fence drops every line of its core's L1I, and its later fetches follow what it has acquired. -/
theorem ifence_completes {s : State} (hs : s.plain = true) (hr : s.cur.replay = false) (hstores : s.me.stores = []) :
    ∃ t, exec .ifence s = .next t ∧ GoesOn 4 s t ∧ SameRegs s.me t.me ∧ t.me.ctl = s.me.ctl ∧ t.mem.bytes = s.mem.bytes ∧
      t.me.fetchAt = max s.me.fetchAt s.me.acqAt ∧ ∀ n, (t.mem.line n).fetchers.contains s.cur.core = false := by
  have hdrop : ∃ u, (s.mem.l1i s.cur.core).foldl (fun s n => s.evict (.l1i s.cur.core n)) s = u ∧ LinesMoved s u :=
    ⟨_, rfl, .foldl (f := fun s n => s.evict (.l1i s.cur.core n)) (fun s n => evict_moves s _) _ s⟩
  obtain ⟨u, hu, hmoved⟩ := hdrop
  have hbytes : u.mem.bytes = s.mem.bytes := by
    rw [← hu]
    exact State.foldl_bytes (fun s n => State.evict_bytes s _) _ s
  have hexec : exec .ifence s = .next (retire (.fall 4) (u.setMe { s.me with fetchAt := max s.me.fetchAt s.me.acqAt })) := by
    refine (withRegs_plain hs ..).trans ?_
    rw [hstores, hu, ← hmoved.me]
    rfl
  have hme := me_retire_fall (u := u.setMe { s.me with fetchAt := max s.me.fetchAt s.me.acqAt }) (by
    rw [State.setMe_cur, hmoved.cur, hr]) 4
  rw [State.me_setMe] at hme
  refine ⟨_, hexec, goesOn_retire hr (u := u.setMe _) hmoved.cur ?_ ?_ ?_ 4, ?_, ?_, ?_, ?_, fun n => ?_⟩
  · rw [State.me_setMe]
  · rw [State.me_setMe]
  · rw [State.me_setMe]
  · rw [hme]
    exact ⟨rfl, rfl, rfl, rfl, rfl⟩
  · rw [hme]
  · rw [retire_mem, State.setMe_mem, hbytes]
  · rw [hme]
  · rw [retire_mem, State.setMe_mem, Bool.eq_false_iff]
    intro h
    rw [← hu] at h
    obtain ⟨hheld, hnot⟩ := fetchers_foldl_evict _ rfl h
    exact hnot (mem_l1i hheld)
theorem ifence_waits {s : State} (hs : s.plain = true) (hstores : s.me.stores ≠ []) :
    exec .ifence s = .next (s.waiting .interlock) := by
  refine (withRegs_plain hs ..).trans ?_
  rw [if_pos (by simpa using hstores)]
  rfl

/-! ## Bank-side operations (R160) -/

/-- An NM operation that names memory joins those not yet performed. -/
theorem nmIssue_joins {j : Instr} {s s1 : State} {va y : Word} {k : NmKind} {pas : List Nat} {ps : List Place}
    (hexec : exec j s = finish (nmIssue k va y s)) (hr : s.cur.replay = false) (ha : va.toNat % k.size = 0)
    (h : Names s va k.size .write .bank pas ps s1) (hpoison : ∀ p ∈ ps, s1.poisoned p = false) :
    ∃ t, exec j s = .next t ∧ GoesOn 4 s t ∧ SameRegs s.me t.me ∧ t.me.ctl = s.me.ctl ∧ t.mem = s.mem ∧
      t.me.nms = s.me.nms ++ [⟨s.me.serial, va, pas.headD 0, k, y⟩] := by
  obtain ⟨pa2, haccess⟩ := h.access_eq fun _ => hpoison
  obtain ⟨l, rfl⟩ := h.tlb
  have hissue : ∃ u, nmIssue k va y s = .ok (.fall 4) u ∧ u.cur = s.cur ∧ u.mem = s.mem ∧ u.me = { s.me with
      serial := s.me.serial + 1, nms := s.me.nms ++ [⟨s.me.serial, va, pas.headD 0, k, y⟩] } := by
    rw [nmIssue, if_neg (Nat.not_le.2 h.1), if_neg (not_not.2 ha), haccess (fun e => absurd e (by decide))]
    exact ⟨_, rfl, rfl, rfl, State.me_setMe ..⟩
  obtain ⟨u, hissue, hcur, hmem, hu⟩ := hissue
  have hme := me_retire_fall (show u.cur.replay = false by rw [hcur, hr]) 4
  rw [hu] at hme
  refine ⟨_, hexec.trans (congrArg finish hissue), goesOn_retire hr hcur (by rw [hu]) (by rw [hu]) (by rw [hu]) 4, ?_, ?_, ?_, ?_⟩
  · rw [hme]
    exact ⟨rfl, rfl, rfl, rfl, rfl⟩
  · rw [hme]
  · rw [retire_mem, hmem]
  · rw [hme]
theorem nmfence_completes {s : State} (hs : s.plain = true) (hnms : s.me.nms = [])
    (hbank : ∀ e ∈ s.bank, ¬(e.1 = s.cur.core ∧ e.2.1 = s.cur.ctx)) :
    exec .nmfence s = .next (retire (.fall 4) (s.setMe { s.me with
      floor := s.me.nmDone.foldl (fun f p => Assoc.put f p.1 p.2) s.me.floor, nmDone := [] })) := by
  have hnone : (s.me.nms.isEmpty && !(s.bank.any fun b => b.1 = s.cur.core && b.2.1 = s.cur.ctx)) = true := by
    simpa [hnms] using hbank
  refine (withRegs_plain hs ..).trans ?_
  rw [if_pos hnone]
  rfl
theorem nmfence_waits {s : State} (hs : s.plain = true) (hnms : s.me.nms ≠ []) : exec .nmfence s = .next (s.waiting .interlock) := by
  refine (withRegs_plain hs ..).trans ?_
  rw [if_neg (by simp [hnms])]
  rfl

/-! ## Prefetches (R159) -/

/-- A prefetch leaves every core, and the bytes and full-empty bits of memory. -/
structure Prefetched (s t : State) : Prop where
  cur : t.cur = s.cur
  cores : t.cores = s.cores
  full : t.mem.full = s.mem.full
@[refl] theorem Prefetched.refl (s : State) : Prefetched s s := ⟨rfl, rfl, rfl⟩
theorem Prefetched.trans {s t u : State} (h : Prefetched s t) (h' : Prefetched t u) : Prefetched s u :=
  ⟨h'.cur.trans h.cur, h'.cores.trans h.cores, h'.full.trans h.full⟩
theorem LinesMoved.prefetched {s t : State} (h : LinesMoved s t) : Prefetched s t := ⟨h.cur, h.cores, h.full⟩
theorem transmit_prefetched (s : State) (a b p v : Nat) (c : Came) : Prefetched s (s.transmit a b p v c) := by
  simp only [State.transmit, State.putFlit, State.takeCredit, State.setLink, State.log]
  repeat' split
  all_goals exact ⟨rfl, rfl, rfl⟩
theorem putFlits_prefetched (s : State) (v : Nat) (pas : List Nat) : Prefetched s (s.putFlits v pas) :=
  List.foldlRecOn (motive := Prefetched s) _ _ (.refl s) fun t ht _ _ => ht.trans (transmit_prefetched t ..)
theorem fillProxy_prefetched (n : Nat) (s : State) : Prefetched s (fillProxy n s) := by
  unfold fillProxy
  split
  · rfl
  · have hmoved := reside_moves s (farLine n) (BitVec.ofNat 7 (proxySlice n)) false
    exact ⟨hmoved.cur, hmoved.cores, (Memory.foldl_full (by intros; rfl) ..).trans hmoved.full⟩
theorem prefetchLine_prefetched (w l : Bool) (p : Place) (s : State) : Prefetched s (prefetchLine w l p s) := by
  unfold prefetchLine
  dsimp only
  split
  · split
    · rfl
    · split
      · exact (claimLine_moves ..).prefetched
      · split
        · exact (shareLine_moves ..).prefetched
        · exact (noteRequest_moves ..).prefetched
  · split
    · rfl
    · exact (putFlits_prefetched ..).trans (fillProxy_prefetched ..)
  · rfl
theorem prefetch_prefetched (va : Word) (w l : Bool) (s : State) : Prefetched s (prefetch va w l s) := by
  unfold prefetch
  dsimp only
  split
  · rfl
  · next pa s1 e =>
    obtain ⟨t, rfl⟩ := translate_tlb e
    have htlb : Prefetched s { s with tlb := t } := ⟨rfl, rfl, rfl⟩
    split
    · exact htlb
    · exact htlb.trans (prefetchLine_prefetched ..)
/-- Retiring changes the cores alike where they are alike. -/
theorem retire_cores {s u : State} (hcur : u.cur = s.cur) (hcores : u.cores = s.cores) (fl : Flow) :
    (retire fl u).cores = (retire fl s).cores := by
  have hme : u.me = s.me := by simp only [State.me, State.ctxAt, State.core, hcur, hcores]
  have hset (x : Ctx) : (u.setMe x).cores = (s.setMe x).cores := by
    simp only [State.setMe, State.setCtxAt, State.setCore, State.core, hcur, hcores]
  unfold retire
  rw [hcur, hme]
  split
  · exact hset _
  · cases fl <;> exact hset _
theorem pfx_changes_nothing {s : State} (hs : s.plain = true) (a i : BitVec 5) (w : BitVec 1) (l : BitVec 2) :
    ∃ t, exec (.pfx a i w l) s = .next t ∧ t.cur = s.cur ∧ t.cores = (retire (.fall 4) s).cores ∧
      t.mem.bytes = s.mem.bytes ∧ t.mem.full = s.mem.full := by
  obtain ⟨hcur, hcores, hfull⟩ := prefetch_prefetched (baseAddr s.me a (i.toNat * 64)) (w = 1) (l = 0) s
  refine ⟨_, withRegs_plain hs .., ?_, retire_cores hcur hcores _, ?_, ?_⟩
  · rw [(retire_around ..).1, hcur]
  · rw [retire_mem, prefetch_bytes]
  · rw [retire_mem, hfull]

end Sys2Proof.Machine

namespace Sys2Proof.Settled
open Sys2Proof.Machine

/-- Settles O19, instruction by instruction. -/
theorem fencesAndBankOperations : Obligations.FencesAndBankOperations := by
  intro s a b i t5 o l sc op w ty hs hr
  refine ⟨fun _ hstores hpending => fence_completes hs hr hstores hpending o sc, fun ho hstores => ho ▸ fence_waits hs hstores sc,
    fun p q haligned hstores hpending => aliasf_completes hs hr haligned hstores hpending, aliasf_begins hs a b,
    ifence_completes hs hr, ifence_waits hs, pfx_changes_nothing hs a i w l,
    fun j k pas ps s1 hj ha h hpoison => nmIssue_joins ?_ hr ha h hpoison, nmfence_completes hs, nmfence_waits hs⟩
  obtain ⟨rfl, rfl⟩ | ⟨rfl, rfl⟩ := hj
  · exact withRegs_plain hs ..
  · exact withRegs_plain hs ..

end Sys2Proof.Settled
end

