-- ==== Sys2Proof/Proofs/SpillBlocks.lean ====
section
/-! SUPPORT. A message that spills (R169, R332): what is written to the block of class 5, and what is delivered or diverted. -/
namespace Sys2Proof.Machine

/-! ## Writes of a core -/

theorem after_append (w w' : List (Place × Byte)) (k : Nat) (b : Byte) : after (w ++ w') k b = after w' k (after w k b) :=
  List.foldl_append
theorem transmit_beside (acq : Bool) (s : State) (a b p v : Nat) (c : Came) : Beside acq s (s.transmit a b p v c) := by
  simp only [State.transmit, State.putFlit, State.takeCredit, State.setLink, State.log]
  repeat' split
  all_goals exact ⟨rfl, .refl _ _, rfl, rfl, rfl, rfl, fun _ h => h, rfl⟩
theorem putFlits_beside (acq : Bool) (s : State) (v : Nat) (pas : List Nat) : Beside acq s (s.putFlits v pas) :=
  .foldl (fun s _ => transmit_beside acq s ..) _ s
theorem dropLine_full (m : Memory) (k : Nat) : (dropLine m k).full = m.full := rfl
theorem markPending_full (m : Memory) (n : Nat) : (m.markPending n).full = m.full := dropLine_full m (n * 64)
theorem writeThrough_beside {s : State} {c : CoreId} {k : CtxId} (hc : s.cur.core = c) (hk : s.cur.ctx = k) (acq : Bool)
    (w : List (Place × Byte)) (t : Option Tag) : Beside acq s (writeThrough c k w t s) := by
  subst hc hk
  unfold writeThrough
  extract_lets ps far u m
  have hmoved : Beside acq s ((linesOf ps).foldl (fun u n => u.takeToken s.cur.core n) s) :=
    (LinesMoved.foldl (fun u n => takeToken_moves u n s.cur.core) _ s).beside acq
  have hu : Beside acq s u := hmoved.trans (putFlits_beside ..)
  have hm : (writeBytes m w t false (some s.cur.core)).full = u.mem.full := by
    rw [writeBytes_full]
    exact Memory.foldl_full markPending_full ..
  have hwrote (t : State) (ht : t.cur = s.cur) : Beside acq t (t.wrote s.cur.core s.cur.ctx ps) := by
    rw [← ht]
    exact wrote_beside ..
  exact (hu.trans (.setMem _ hm)).trans (hwrote _ hu.cur)
theorem writeThrough_byte (s : State) (c : CoreId) (k : CtxId) (w : List (Place × Byte)) (t : Option Tag) (j : Nat) :
    (writeThrough c k w t s).mem.byte j = after w j (s.mem.byte j) := by
  rw [writeThrough, State.wrote_mem, writeBytes_byte]
  refine congrArg (after w j) (Memory.byte_congr ?_ j)
  rw [Memory.foldl_bytes Memory.markPending_bytes, State.putFlits_mem]
  exact State.foldl_bytes (fun s n => State.takeToken_bytes s _ n) _ s

/-! ## A block's header -/

/-- HEAD, TAIL, SIZE and ARMED are read, and the spill goes on from there. -/
theorem SpillHead.At.beside {h : SpillHead} {v u : State} {blk : Word} (hat : h.At v blk u) (acq : Bool) :
    Beside acq v u ∧ u.mem = v.mem ∧ u.me = v.me := by
  obtain ⟨hA, hP, tA, zA, zP, aA, s1, s2, s3, s4, h1, h2, h3, h4, rfl, -⟩ := hat
  refine ⟨(((h1.beside acq).trans (h2.beside acq)).trans (h3.beside acq)).trans (h4.beside acq), ?_, ?_⟩
  · rw [h4.mem, h3.mem, h2.mem, h1.mem]
  · rw [h4.me, h3.me, h2.me, h1.me]
/-- A full block: the message is diverted to the supervisor queue with reason 3. -/
def diverted (m : Msg) (counted : Bool) (hA : List Nat) (hP : List Place) (u : State) : State :=
  (((plainRead (some 0) hA hP u true).countIf counted u.cur.core).startIf counted u.cur.core).containment u.cur.core u.cur.ctx 3 m
/-- What the writes to a block leave: the slot at sP, TAIL and ARMED, by a context of core c. -/
def SpillHead.wrote (h : SpillHead) (m : Msg) (blk : Word) (hA aA : List Nat) (hP sP : List Place) (c : CoreId) (ctx : CtxId)
    (v : State) : State :=
  let s := plainRead (some 0) hA hP v true
  let tag := tagFor c ctx s.myLaunch (widest (some 0) s.me.relScope) blk
  let plain := tagFor c ctx s.myLaunch s.me.relScope (h.slot blk)
  let s := writeThrough c ctx (sP.zip ((m.src :: m.desc :: m.pay.toList).flatMap fun (w : Word) => toBytes w.toNat 8)) plain s
  let s := writeThrough c ctx (h.tailAt.zip (toBytes ((h.tail + 1) % 2 ^ 64) 8)) tag s
  writeThrough c ctx (h.armedAt.zip (toBytes 0 8)) tag (noteRead (some 0) aA h.armedAt s true)
/-- The delivery of class 5 in core c that a nonzero ARMED makes. -/
def SpillHead.notify (h : SpillHead) (blk : Word) (c : CoreId) (s : State) : State :=
  if h.armed = 0 then s else
  s.deliver c s.cur.ctx s.me.ctl.priv 63 5 s.myLaunch none #v[blk, s.cur.ctx.setWidth 64, BitVec.ofNat 64 (h.tail + 1), 0, 0, 0]
/-- What a spill makes of a block whose header it has read. -/
def SpillHead.spill (h : SpillHead) (m : Msg) (counted : Bool) (blk : Word) (hA aA : List Nat) (hP : List Place) (u : State)
    (k : State → Res) : Res :=
  if h.size + h.head ≤ h.tail then k (diverted m counted hA hP u)
  else access (h.slot blk) 64 .write .plain 0 false .token u fun _ sP _ s =>
    k (h.notify blk u.cur.core (h.wrote m blk hA aA hP sP u.cur.core u.cur.ctx s))
theorem spillNow_of_header {h : SpillHead} {v u : State} {blk : Word} (hat : h.At v blk u) (m : Msg) (counted : Bool) :
    ∃ hA hP aA, ∀ k, spillNow m counted blk v k = h.spill m counted blk hA aA hP u k := by
  obtain ⟨head, tail, size, armed, tailAt, armedAt⟩ := h
  obtain ⟨hA, hP, tA, zA, zP, aA, s1, s2, s3, s4, h1, h2, h3, h4, rfl, hhead, htail, hsize, harmed⟩ := hat
  dsimp only at h2 h4 hhead htail hsize harmed
  subst hhead htail hsize harmed
  obtain ⟨p1, e1⟩ := h1.access_eq (by decide)
  obtain ⟨p2, e2⟩ := h2.access_eq (by decide)
  obtain ⟨p3, e3⟩ := h3.access_eq (by decide)
  obtain ⟨p4, e4⟩ := h4.access_eq (by decide)
  have hne : (0 : Nat) = 6 → ∀ {ps : List Place}, ∀ p ∈ ps, p.isSram = false := fun e => absurd e (by decide)
  refine ⟨hA, hP, aA, fun k => ?_⟩
  rw [spillNow, e1 (fun e => hne e) rfl, e2 (fun e => hne e) rfl, e3 (fun e => hne e) rfl, e4 (fun e => hne e) rfl]
  rfl
section
variable {h : SpillHead} {u : State} {blk : Word} (m : Msg) (counted : Bool) (hA aA : List Nat) (hP : List Place) (k : State → Res)

theorem SpillHead.spill_of_full (hfull : h.size + h.head ≤ h.tail) :
    h.spill m counted blk hA aA hP u k = k (diverted m counted hA hP u) := if_pos hfull
theorem SpillHead.spill_of_room (hroom : h.tail < h.size + h.head) {sA : List Nat} {sP : List Place} {u2 : State}
    (hslot : Reaches u (h.slot blk) 64 .write .plain .token sA sP u2) :
    h.spill m counted blk hA aA hP u k =
      k (h.notify blk u.cur.core (h.wrote m blk hA aA hP sP u.cur.core u.cur.ctx (u2.dropAnswers false))) := by
  obtain ⟨p5, e5⟩ := hslot.access_eq (by decide)
  rw [SpillHead.spill, if_neg (Nat.not_le.2 hroom), e5 (fun e => absurd e (by decide)) rfl]
end

/-! ## What a diversion and a delivery touch (R252, R262) -/

/-- t is s but outside memory and the acting context. -/
structure Kept (s t : State) : Prop where
  cur : t.cur = s.cur
  me : t.me = s.me
  mem : t.mem = s.mem
@[refl] theorem Kept.refl (s : State) : Kept s s := ⟨rfl, rfl, rfl⟩
theorem Kept.trans {s t u : State} (h : Kept s t) (h' : Kept t u) : Kept s u :=
  ⟨h'.cur.trans h.cur, h'.me.trans h.me, h'.mem.trans h.mem⟩
theorem Kept.ite {s t u : State} {p : Prop} [Decidable p] (h : Kept s t) (h' : Kept s u) : Kept s (if p then t else u) := by
  split
  · exact h
  · exact h'
/-- A core is rewritten but for its contexts. -/
theorem setCore_kept (s : State) {c : CoreId} {y : Core} (h : y.ctx = (s.core c).ctx) : Kept s (s.setCore c y) := by
  refine ⟨rfl, ?_, rfl⟩
  simp only [State.me, State.ctxAt, Core.ctxAt, State.setCore_cur]
  by_cases hc : s.cur.core = c
  · subst hc
    rw [State.core_setCore, h]
  · rw [State.core_setCore_other s hc]
theorem log_kept (s : State) (k src c a : Nat) (d e : Word) : Kept s (s.log k src c a d e) ∧ (s.log k src c a d e).parts = s.parts := by
  unfold State.log
  split
  · exact ⟨.refl s, rfl⟩
  · exact ⟨⟨rfl, rfl, rfl⟩, rfl⟩
theorem notice_kept (s : State) (p : BitVec 6) (n : Nat) (c : CoreId) (k : CtxId) (a b d e f g : Word) :
    Kept s (s.notice p n c k a b d e f g) := ⟨rfl, rfl, rfl⟩
/-- A diverted message enters the supervisor queue where that has room, with a notice. -/
theorem containment_kept (s : State) (c : CoreId) (k : CtxId) (r : Nat) (m : Msg) : Kept s (s.containment c k r m) ∧
    ((s.part (s.partOf c)).supq.length < 512 →
      ((s.containment c k r m).part (s.partOf c)).supq = (s.part (s.partOf c)).supq ++ [⟨BitVec.ofNat 8 r, m⟩]) := by
  unfold State.containment
  extract_lets p x queued logged
  obtain ⟨hlogged, hparts⟩ := log_kept queued 0x02 (dieOf c).toNat c.toNat 0 0 0
  have hqueued : Kept s queued := .ite ⟨rfl, rfl, rfl⟩ ⟨rfl, rfl, rfl⟩
  refine ⟨(hqueued.trans hlogged).trans (.ite (.refl _)
    ((setCore_kept (c := c) (y := { logged.core c with noticeOut := true }) logged rfl).trans (notice_kept ..))), fun hroom => ?_⟩
  have hpart (t : State) (ht : t.parts = queued.parts) : (t.part p).supq = x.supq ++ [⟨BitVec.ofNat 8 r, m⟩] := by
    have hq : queued = s.setPart p { x with supq := x.supq ++ [⟨BitVec.ofNat 8 r, m⟩] } := if_pos hroom
    rw [State.part, ht, ← State.part, hq, State.part_setPart]
  split
  · exact hpart _ hparts
  · exact hpart _ hparts

section
variable {u : State} (m : Msg) (counted : Bool) (hA : List Nat) (hP : List Place)

/-- A message of a full block goes to the supervisor queue, after the read of HEAD. -/
theorem diverted_leaves : (diverted m counted hA hP u).cur = u.cur ∧ u.me.Noted true (diverted m counted hA hP u).me ∧
    (diverted m counted hA hP u).mem.bytes = u.mem.bytes ∧
    ((u.part (u.partOf u.cur.core)).supq.length < 512 →
      ((diverted m counted hA hP u).part (u.partOf u.cur.core)).supq = (u.part (u.partOf u.cur.core)).supq ++ [⟨3, m⟩]) := by
  have hbefore : Beside true u (((plainRead (some 0) hA hP u true).countIf counted u.cur.core).startIf counted u.cur.core) :=
    ((plainRead_beside u (some 0) hA hP true false).trans (countIf_beside ..)).trans (startIf_beside ..)
  obtain ⟨hkept, hsupq⟩ := containment_kept
    (((plainRead (some 0) hA hP u true).countIf counted u.cur.core).startIf counted u.cur.core) u.cur.core u.cur.ctx 3 m
  rw [hbefore.partOf, hbefore.part] at hsupq
  refine ⟨hkept.cur.trans hbefore.cur, ?_, ?_, hsupq⟩
  · rw [diverted, hkept.me]
    exact hbefore.me
  · rw [diverted, hkept.mem, State.startIf_mem, State.countIf_mem, plainRead_bytes]
end

/-- The writes to a block. -/
theorem SpillHead.wrote_leaves (h : SpillHead) (m : Msg) (blk : Word) (hA aA : List Nat) (hP sP : List Place) {c : CoreId} {ctx : CtxId}
    {v : State} (hc : v.cur.core = c) (hk : v.cur.ctx = ctx) :
    Beside true v (h.wrote m blk hA aA hP sP c ctx v) ∧
      ∀ k, (h.wrote m blk hA aA hP sP c ctx v).mem.byte k = after (h.writes m sP) k (v.mem.byte k) := by
  subst hc hk
  unfold SpillHead.wrote
  extract_lets s tag plain s1 s2
  have hs : Beside true v s := plainRead_beside v (some 0) hA hP true false
  have hs1 : Beside true v s1 := hs.trans (writeThrough_beside (by rw [hs.cur]) (by rw [hs.cur]) ..)
  have hs2 : Beside true v s2 := hs1.trans (writeThrough_beside (by rw [hs1.cur]) (by rw [hs1.cur]) ..)
  have hread : Beside true v (noteRead (some 0) aA h.armedAt s2 true) := hs2.trans (noteRead_beside s2 (some 0) ..)
  refine ⟨hread.trans (writeThrough_beside (by rw [hread.cur]) (by rw [hread.cur]) ..), fun k => ?_⟩
  rw [writeThrough_byte, Memory.byte_congr (noteRead_bytes ..), writeThrough_byte, writeThrough_byte,
    Memory.byte_congr (plainRead_bytes ..), SpillHead.writes, after_append, after_append]

/-! ## Deliveries -/

/-- A message of a bound class enters the inbox, ready. -/
theorem accept_inbox {c : CoreId} {e : Entry} {s : State} (hbound : ((s.core c).cls e.msg.cls).state = .bound) :
    ∃ e', ((s.accept c e).core c).inbox = (s.core c).inbox ++ [e'] ∧ e'.msg = e.msg ∧ e'.held = false := by
  rw [State.accept, hbound, decide_eq_true rfl, Bool.or_true, if_pos rfl, State.core_setCore]
  exact ⟨_, rfl, rfl, rfl⟩
theorem accept_kept (c : CoreId) (e : Entry) (s : State) : s.me.Noted true (s.accept c e).me ∧ (s.accept c e).cur = s.cur := by
  have hkept {u : State} (h : Kept s u) : s.me.Noted true u.me ∧ u.cur = s.cur := ⟨h.me ▸ .refl .., h.cur⟩
  unfold State.accept
  dsimp only
  split
  · exact hkept (setCore_kept s rfl)
  · split
    · exact hkept (setCore_kept s rfl)
    · have hstart : Beside true s (s.startIf e.counted c) := startIf_beside ..
      obtain ⟨hdiverted, -⟩ := containment_kept (s.startIf e.counted c) c (if e.inner then e.msg.sctx else 0) 2 e.msg
      exact ⟨hdiverted.me ▸ hstart.me, hdiverted.cur.trans hstart.cur⟩
/-- A delivery inside a core leaves the acting context but for its marks. -/
theorem deliver_leaves (s : State) (c : CoreId) (k : CtxId) (v : BitVec 1) (pr n : Nat) (l : Option Nat)
    (st : Option (Word × BitVec 1 × BitVec 16)) (pay : Vector Word 6) :
    s.me.Noted true (s.deliver c k v pr n l st pay).me ∧ (s.deliver c k v pr n l st pay).cur = s.cur := by
  unfold State.deliver
  extract_lets m l' rel e u
  have hu : Beside true s u := countIf_beside ..
  split
  · next x _ => exact ⟨(show s.me.Noted true (u.setLaunch _).me from hu.me), hu.cur⟩
  · obtain ⟨hme, hcur⟩ := accept_kept c e u
    exact ⟨hu.me.trans hme, hcur.trans hu.cur⟩
theorem core_of_beside {acq : Bool} {s t : State} (h : Beside acq s t) : t.core s.cur.core = t.here := by
  rw [State.here, h.cur]
theorem cls_mkDesc (src : Word) (p : BitVec 13) (c : CoreId) (pr n k : Nat) (pay : Vector Word 6) :
    (⟨src, mkDesc p c 5 pr n k, pay⟩ : Msg).cls = 5 := by
  have hp : p.toNat < 2 ^ 13 := p.isLt
  have hc : c.toNat < 2 ^ 13 := c.isLt
  simp only [Msg.cls, mkDesc, fld, nbits, BitVec.toNat_ofNat]
  omega
/-- One of class 5 for no saved launch enters the core's inbox where the class is bound. -/
theorem deliver_inbox {s : State} (k : CtxId) (v : BitVec 1) (pr : Nat) {l : Option Nat} (pay : Vector Word 6)
    (hbound : (s.here.cls 5).state = .bound) (hl : s.savedLaunch (l.or (s.part (s.partOf s.cur.core)).resident) = none) :
    ∃ e, (s.deliver s.cur.core k v pr 5 l none pay).here.inbox = s.here.inbox ++ [e] ∧ e.msg.cls = 5 ∧ e.held = false ∧
      e.msg.pay = pay := by
  unfold State.deliver
  extract_lets m l' rel e u
  have hu : Beside true s u := countIf_beside ..
  have hnone : u.savedLaunch l' = none := hu.saved _ hl
  have hcls : m.cls = 5 := cls_mkDesc ..
  have hcore : u.core s.cur.core = u.here := core_of_beside hu
  have hcls5 : ((u.core s.cur.core).cls e.msg.cls).state = .bound := by
    rw [hcore, show e.msg.cls = 5 from hcls, Core.cls, hu.classes]
    exact hbound
  split
  · next x hx => rw [hnone] at hx; cases hx
  · obtain ⟨e', hinbox, hmsg, hheld⟩ := accept_inbox hcls5
    refine ⟨e', ?_, ?_, hheld, ?_⟩
    · rw [State.here, (accept_kept ..).2, hu.cur, hinbox, hcore, hu.inbox]
    · rw [hmsg]
      exact hcls
    · rw [hmsg]

/-! ## A spill as a whole -/

section
variable {h : SpillHead} {v u : State} {blk : Word} (hat : h.At v blk u) (m : Msg) (counted : Bool)
include hat

/-- A full block diverts the message. -/
theorem spillNow_of_full (hfull : h.size + h.head ≤ h.tail) :
    ∃ t, (∀ k, spillNow m counted blk v k = k t) ∧ t.cur = v.cur ∧ v.me.Noted true t.me ∧ t.mem.bytes = v.mem.bytes ∧
      ((v.part (v.partOf v.cur.core)).supq.length < 512 →
        (t.part (v.partOf v.cur.core)).supq = (v.part (v.partOf v.cur.core)).supq ++ [⟨3, m⟩]) := by
  obtain ⟨hA, hP, aA, hspill⟩ := spillNow_of_header hat m counted
  obtain ⟨hbefore, hmem, hme⟩ := hat.beside true
  obtain ⟨hcur, hnote, hbytes, hsupq⟩ := diverted_leaves (u := u) m counted hA hP
  rw [hbefore.cur, hbefore.partOf, hbefore.part] at hsupq
  refine ⟨_, fun k => (hspill k).trans (h.spill_of_full m counted hA aA hP k hfull), hcur.trans hbefore.cur, ?_, ?_, hsupq⟩
  · rwa [hme] at hnote
  · rw [hbytes, hmem]
/-- A block with room takes the message, and a nonzero ARMED is answered by a delivery. -/
theorem spillNow_of_room (hroom : h.tail < h.size + h.head) {sA : List Nat} {sP : List Place} {u2 : State}
    (hslot : Reaches u (h.slot blk) 64 .write .plain .token sA sP u2) :
    ∃ t, (∀ k, spillNow m counted blk v k = k t) ∧ t.cur = v.cur ∧ v.me.Noted true t.me ∧
      (∀ k, t.mem.byte k = after (h.writes m sP) k (v.mem.byte k)) ∧ (h.armed = 0 → t.here.inbox = v.here.inbox) ∧
      (h.armed ≠ 0 → (v.here.cls 5).state = .bound →
        v.savedLaunch (v.myLaunch.or (v.part (v.partOf v.cur.core)).resident) = none →
        ∃ e, t.here.inbox = v.here.inbox ++ [e] ∧ e.msg.cls = 5 ∧ e.held = false ∧
          e.msg.pay = #v[blk, v.cur.ctx.setWidth 64, BitVec.ofNat 64 (h.tail + 1), 0, 0, 0]) := by
  obtain ⟨hA, hP, aA, hspill⟩ := spillNow_of_header hat m counted
  obtain ⟨hheader, hmem, -⟩ := hat.beside true
  have hbefore := hheader.trans (hslot.beside true)
  have hcur := (hslot.beside true).cur
  obtain ⟨hwrote, hbytes⟩ := h.wrote_leaves m blk hA aA hP sP (congrArg (·.core) hcur) (congrArg (·.ctx) hcur)
  have hw := hbefore.trans hwrote
  refine ⟨_, fun k => (hspill k).trans (h.spill_of_room m counted hA aA hP k hroom hslot), ?_⟩
  generalize h.wrote m blk hA aA hP sP u.cur.core u.cur.ctx (u2.dropAnswers false) = w at hw hbytes
  have hbyte (k : Nat) : w.mem.byte k = after (h.writes m sP) k (v.mem.byte k) := by rw [hbytes, hslot.mem, hmem]
  unfold SpillHead.notify
  split
  · next harmed => exact ⟨hw.cur, hw.me, hbyte, fun _ => hw.inbox, fun hne => absurd harmed hne⟩
  · next harmed =>
    obtain ⟨hnote, hcurd⟩ := deliver_leaves w u.cur.core w.cur.ctx w.me.ctl.priv 63 5 w.myLaunch none
      #v[blk, w.cur.ctx.setWidth 64, BitVec.ofNat 64 (h.tail + 1), 0, 0, 0]
    refine ⟨hcurd.trans hw.cur, hw.me.trans hnote, fun k => by rw [State.deliver_mem, hbyte], fun he => absurd he harmed,
      fun _ hbound hl => ?_⟩
    have hcore : u.cur.core = w.cur.core := by rw [hw.cur, hheader.cur]
    obtain ⟨e, hinbox, hcls, hheld, hpay⟩ := deliver_inbox (s := w) w.cur.ctx w.me.ctl.priv 63
      #v[blk, w.cur.ctx.setWidth 64, BitVec.ofNat 64 (h.tail + 1), 0, 0, 0] (l := w.myLaunch)
      (by rw [Core.cls, hw.classes]; exact hbound) (by
        rw [hw.myLaunch, hw.part, hw.partOf, hw.cur]
        exact hw.saved _ hl)
    rw [hcore]
    exact ⟨e, hinbox.trans (by rw [hw.inbox]), hcls, hheld, hpay.trans (by rw [hw.cur])⟩
end

end Sys2Proof.Machine
end

