-- ==== Sys2Proof/Proofs/Decrement.lean ====
section
/-! SUPPORT. Decrement and fire (R152 to R154, R169); settles O31. -/
namespace Sys2Proof.Machine

/-! ## Words of a record and of a message -/

theorem recordWord_eq (r i : Nat) : BitVec.ofNat 64 (nbits r (64 * i) 64) = recordWord r i := by
  apply BitVec.eq_of_toNat_eq
  simp [nbits, recordWord]
theorem recordWord_zero_mod (r : Nat) {w : Nat} (hw : w ≤ 64) : (recordWord r 0).toNat % 2 ^ w = r % 2 ^ w := by
  rw [recordWord, Nat.mul_zero, Nat.pow_zero, Nat.div_one, BitVec.toNat_ofNat, Nat.mod_mod_of_dvd _ (Nat.pow_dvd_pow 2 hw)]
theorem toNat_append_add {m n : Nat} (x : BitVec m) (y : BitVec n) : (x ++ y).toNat = x.toNat * 2 ^ n + y.toNat := by
  rw [BitVec.toNat_append, ← Nat.shiftLeft_add_eq_or_of_lt y.isLt, Nat.shiftLeft_eq]
theorem mySrc_eq (s : State) : s.mySrc = sourceOf s := by
  apply BitVec.eq_of_toNat_eq
  have hseq : s.me.seq.toNat < 2 ^ 16 := s.me.seq.isLt
  have hzero : (0 : BitVec 19).toNat = 0 := rfl
  simp only [State.mySrc, mkSrc, sourceOf, BitVec.toNat_setWidth, BitVec.toNat_ofNat, toNat_append_add, hzero]
  omega
theorem cleanDesc_eq (h : Word) : cleanDesc h = h &&& 0xFFFFFFFFFFC0FFFF := by
  have hmask : ~~~fieldMask 16 6 = (0xFFFFFFFFFFC0FFFF : Word) := by decide
  have hzero : (BitVec.ofNat 6 0).setWidth 64 <<< 16 = (0 : Word) := by decide
  rw [cleanDesc, insertBits_eq h (by decide), hmask, hzero]
  exact BitVec.or_zero
theorem descCls_eq (h : Word) : descCls h = clsOf h := by
  simp [descCls, clsOf, fld, nbits, Nat.shiftRight_eq_div_pow]

/-! ## The counter -/

section
variable {w : Nat} (r : Nat) (y : Word)

/-- The decremented counter, on numbers. -/
theorem toNat_sub_counter : (r % 2 ^ w + 2 ^ w - y.toNat % 2 ^ w) % 2 ^ w = (BitVec.ofNat w r - y.setWidth w).toNat := by
  have hy : y.toNat % 2 ^ w < 2 ^ w := Nat.mod_lt _ (Nat.two_pow_pos w)
  rw [BitVec.toNat_sub, BitVec.toNat_ofNat, BitVec.toNat_setWidth]
  congr 1
  omega
/-- The decrement reaches zero. -/
theorem reaches_zero_iff : ((BitVec.ofNat w r - y.setWidth w).toNat = 0 ∧ y.toNat % 2 ^ w ≠ 0) ↔
    BitVec.ofNat w r - y.setWidth w = 0 ∧ y.setWidth w ≠ 0 := by
  rw [← BitVec.toNat_setWidth]
  exact and_congr ⟨fun h => BitVec.eq_of_toNat_eq h, fun h => by rw [h]; rfl⟩
    (not_congr ⟨fun h => BitVec.eq_of_toNat_eq h, fun h => by rw [h]; rfl⟩)
end

/-- What the write of a counter leaves: the record is read, and the counter has its new value. -/
def decremented (va : Word) (n : Nat) (o : BitVec 2) (sc : BitVec 3) (pas : List Nat) (ps : List Place) (new : Nat)
    (s : State) : State :=
  atomicWrite va n (relOf o sc) (ps.take n) new (atomicToken false true ps (noteRead (acqOf o sc) pas ps s true true))
theorem decremented_beside (va : Word) (n : Nat) (o : BitVec 2) (sc : BitVec 3) (pas : List Nat) (ps : List Place) (new : Nat)
    (s : State) : Beside (o.getLsbD 0) s (decremented va n o sc pas ps new s) := by
  have hread : Beside (o.getLsbD 0) s (noteRead (acqOf o sc) pas ps s true true) := by
    rw [← acqOf_isSome o sc]
    exact noteRead_beside ..
  exact (hread.trans ((atomicToken_moves ..).beside _)).trans (atomicWrite_beside ..)
theorem decremented_byte (va : Word) (n : Nat) (o : BitVec 2) (sc : BitVec 3) (pas : List Nat) (ps : List Place) (new : Nat) (s : State)
    (k : Nat) : (decremented va n o sc pas ps new s).mem.byte k = after ((ps.take n).zip (toBytes new n)) k (s.mem.byte k) := by
  rw [decremented, atomicWrite_byte]
  congr 1
  exact Memory.byte_congr (by rw [atomicToken_bytes, noteRead_bytes]) k

/-- How the instruction ends once the counter has its new value. -/
def counted (va : Word) (n : Nat) (o : BitVec 2) (sc : BitVec 3) (d : BitVec 5) (pas : List Nat) (ps : List Place) (r new : Nat)
    (s : State) : Res :=
  .ok (.fall 4) ((decremented va n o sc pas ps new s).writeG d ((BitVec.ofNat (8 * n) r).signExtend 64))

/-- Decrement and fire on a record in this package's memory. -/
theorem decrementFire_of_reaches {s s1 : State} {va : Word} {n : Nat} {pas : List Nat} {ps : List Place}
    (h : Reaches s va 64 .rmw .word .token pas ps s1) (hle : 8 * n ≤ 64) (ha : va.toNat % 64 = 0) (hstores : s.me.stores = [])
    (hpending : s.mem.pending = []) {o : BitVec 2} {sc : BitVec 3} (hsc : sc = 6 → ∀ p ∈ ps, p.isSram = false) (y : Word) (d : BitVec 5)
    {r : Nat} (hread : readValue s1 none ps = r) :
    ∃ rels, decrementFire va n y.toNat o sc d s =
      if BitVec.ofNat (8 * n) r - y.setWidth (8 * n) = 0 ∧ y.setWidth (8 * n) ≠ 0 then
        if s.me.ctl.priv = 0 ∧ clsOf (recordWord r 1) < 16 then .trap privilegeTrap s
        else sendOwn (recordWord r 1)
          #v[recordWord r 2, recordWord r 3, recordWord r 4, recordWord r 5, recordWord r 6, recordWord r 7] (s1.dropAnswers false)
          (fun _ u => counted va n o sc d pas ps r 0 u) rels
      else counted va n o sc d pas ps r (BitVec.ofNat (8 * n) r - y.setWidth (8 * n)).toNat (s1.dropAnswers false) := by
  have hva : ¬2 ^ 56 ≤ va.toNat := Nat.not_le.2 h.1.1
  have hwaits : atomicWaits (relOf o sc) s.me s.mem = false := by simp [atomicWaits, Ctx.storesDone, hstores, hpending]
  have hfar : ps.any (·.isRemote) = false := by
    rw [List.any_eq_false]
    intro p hp
    obtain ⟨k, rfl | ⟨l, rfl⟩⟩ := (h.2.1 p hp).1 <;> simp [Place.isRemote]
  obtain ⟨pa2, haccess⟩ := h.access_eq (by decide)
  refine ⟨firingReleases va pas ps (relOf o sc) (s1.dropAnswers false), ?_⟩
  rw [decrementFire, if_neg hva, if_neg (not_not.2 ha), haccess (fun e => hsc (scope_eq_six e)) hwaits]
  dsimp only
  rw [leavesLate_of_reaches h, if_neg (by decide), hfar, readValue_dropAnswers, h.me, hread]
  have hcounter : (recordWord r 0).toNat % 2 ^ (8 * n) = r % 2 ^ (8 * n) := recordWord_zero_mod r hle
  have hold : sextW (8 * n) (BitVec.ofNat 64 (r % 2 ^ (8 * n))) = (BitVec.ofNat (8 * n) r).signExtend 64 := by
    rw [sextW_ofNat hle]
    exact congrArg _ (BitVec.eq_of_toNat_eq (by simp))
  simp only [Bool.false_eq_true, if_false, recordWord_eq, descCls_eq, hcounter, hold]
  simp only [toNat_sub_counter, Bool.and_eq_true, decide_eq_true_eq, reaches_zero_iff]
  rfl

/-! ## What sending leaves of the context -/

/-- The context with another send queue and next sequence number. -/
def Ctx.sent (x : Ctx) (q : List Queued) (k : BitVec 16) : Ctx := { x with sendq := q, seq := k }
theorem Ctx.Noted.counted_seq {acq : Bool} {x y : Ctx} (h : x.Noted acq y) :
    ({ x with seq := x.seq + 1 } : Ctx).Noted acq { y with seq := y.seq + 1 } := by
  obtain ⟨_, _, _, _, rfl, hs, hq⟩ := h
  exact ⟨_, _, _, _, rfl, hs, hq⟩
theorem Ctx.Noted.mono {acq : Bool} {x y : Ctx} (h : x.Noted acq y) : x.Noted true y := by
  obtain ⟨_, _, _, _, e, hs, -⟩ := h
  exact ⟨_, _, _, _, e, hs, by simp⟩
theorem plain_of_sent {s u : State} {q : List Queued} {k : BitVec 16} (hs : s.plain = true) (hcur : u.cur = s.cur)
    (hnote : (s.me.sent q k).Noted true u.me) : u.plain = true := by
  obtain ⟨_, _, _, _, e, -⟩ := hnote
  rw [State.plain_iff] at hs ⊢
  rw [hcur, e]
  exact hs

/-- A load into a g register is one whatever the send queue holds. -/
theorem sameRegs_putG_sent (x : Ctx) (q : List Queued) (k : BitVec 16) (d : BitVec 5) (n r : Nat) :
    SameRegs (putG d n r x) (putG d n r (x.sent q k)) ∧ SameRegs (putG d n r (x.sent q k)) (putG d n r x) :=
  ⟨sameRegs_setG (x := x) (y := x.sent q k) ⟨rfl, rfl, rfl, rfl, rfl⟩ ..,
    sameRegs_setG (x := x.sent q k) (y := x) ⟨rfl, rfl, rfl, rfl, rfl⟩ ..⟩
theorem putG_sent_sendq (x : Ctx) (q : List Queued) (k : BitVec 16) (d : BitVec 5) (n r : Nat) :
    (putG d n r (x.sent q k)).sendq = q := Ctx.setG_sendq ..
theorem putG_sent_seq (x : Ctx) (q : List Queued) (k : BitVec 16) (d : BitVec 5) (n r : Nat) :
    (putG d n r (x.sent q k)).seq = k := Ctx.setG_seq ..
/-- The instruction that has sent or not, and ends with the counter's new value. -/
structure Decremented (s u : State) (d : BitVec 5) (n r new : Nat) (ps : List Place) (q : List Queued) (k : BitVec 16)
    (t : State) : Prop where
  goes : GoesOn 4 s t
  regs : SameRegs (putG d n r s.me) t.me
  ctl : SameCtl s.me t.me
  sendq : t.me.sendq = q
  seq : t.me.seq = k
  bytes : ∀ j, t.mem.byte j = after ((ps.take n).zip (toBytes new n)) j (u.mem.byte j)
  parts : t.parts = u.parts
  inbox : t.here.inbox = u.here.inbox
theorem finish_counted {s u : State} {q : List Queued} {k : BitVec 16} (hs : s.plain = true) (hr : s.cur.replay = false)
    (hcur : u.cur = s.cur) (hnote : (s.me.sent q k).Noted true u.me) (va : Word) (n : Nat) (o : BitVec 2) (sc : BitVec 3)
    (d : BitVec 5) (pas : List Nat) (ps : List Place) (r new : Nat) :
    ∃ t, finish (counted va n o sc d pas ps r new u) = .next t ∧ Decremented s u d n r new ps q k t := by
  have hbeside := decremented_beside va n o sc pas ps new u
  have hcurw := hbeside.cur.trans hcur
  have hnotew := hnote.trans hbeside.me.mono
  have hplain : (decremented va n o sc pas ps new u).plain = true := plain_of_sent hs hcurw hnotew
  obtain ⟨hregs, hctl, -, -, hsendq, hseq, hpc, hloop, hstatus⟩ :=
    hnotew.put (put := putG d n r) (writesRegs_setG d ((BitVec.ofNat (8 * n) r).signExtend 64))
  have hend : counted va n o sc d pas ps r new u = .ok (.fall 4) ((decremented va n o sc pas ps new u).setMe
      (putG d n r (decremented va n o sc pas ps new u).me)) := by
    rw [counted, State.writeG_plain hplain]
    rfl
  have hbytes := decremented_byte va n o sc pas ps new u
  have hparts := hbeside.parts
  have hinbox := hbeside.inbox
  generalize decremented va n o sc pas ps new u = w at hcurw hend hregs hctl hsendq hseq hpc hloop hstatus hbytes hparts hinbox
  have hme := me_retire_fall (u := w.setMe (putG d n r w.me)) (by rw [State.setMe_cur, hcurw, hr]) 4
  rw [State.me_setMe] at hme
  obtain ⟨-, hmemt, hpartst, hinboxt⟩ := retire_around (.fall 4) (w.setMe (putG d n r w.me))
  refine ⟨_, congrArg finish hend, goesOn_retire hr (u := w.setMe (putG d n r w.me)) hcurw ?_ ?_ ?_ 4, ?_, ?_, ?_, ?_, fun j => ?_,
    hpartst.trans hparts, hinboxt.trans ?_⟩
  · rwa [State.me_setMe]
  · rwa [State.me_setMe]
  · rwa [State.me_setMe]
  · rw [hme]
    exact sameRegs_trans (sameRegs_putG_sent ..).1 hregs
  · rw [hme]
    exact hctl
  · rw [hme]
    exact hsendq
  · rw [hme]
    exact hseq
  · rw [hmemt, State.setMe_mem, hbytes]
  · rw [State.here_setMe]
    exact hinbox
theorem written_of_after {s t : State} {ps : List Place} {n new : Nat} (hkeys : (ps.map (·.key)).Nodup)
    (h : ∀ j, t.mem.byte j = after ((ps.take n).zip (toBytes new n)) j (s.mem.byte j)) : Written s t ps n new := by
  refine ⟨fun j k hj hk => ?_, fun k hk => ?_⟩
  · rw [h, after_zip_get (hkeys.sublist ((List.take_sublist n ps).map _)) (by rwa [List.getElem?_take_of_lt hj])
      (by rw [toBytes_getElem?, if_pos hj])]
    rfl
  · rw [h, after_zip_other hk]

/-! ## Decrement and fire, by what becomes of the message -/

/-- The message that the record holds, from the acting context (R153, R166, R167). -/
def recordMsg (s : State) (r : Nat) : Msg :=
  ⟨sourceOf s, recordWord r 1 &&& 0xFFFFFFFFFFC0FFFF,
    #v[recordWord r 2, recordWord r 3, recordWord r 4, recordWord r 5, recordWord r 6, recordWord r 7]⟩

section
variable {s s1 : State} {va y : Word} {d : BitVec 5} {n : Nat} {o : BitVec 2} {sc : BitVec 3} {pas : List Nat} {ps : List Place} {i : Instr}
  {r : Nat} (hexec : exec i s = finish (decrementFire va n y.toNat o sc d s)) (hs : s.plain = true) (hr : s.cur.replay = false)
  (h : Reaches s va 64 .rmw .word .token pas ps s1) (hle : 8 * n ≤ 64) (ha : va.toNat % 64 = 0) (hstores : s.me.stores = [])
  (hpending : s.mem.pending = []) (hsc : sc = 6 → ∀ p ∈ ps, p.isSram = false) (hread : readValue s1 none ps = r)
include hexec h hle ha hstores hpending hsc hread

include hs hr in
/-- A decrement that does not reach zero writes the counter alone. -/
theorem adf_decrements (hnot : ¬(BitVec.ofNat (8 * n) r - y.setWidth (8 * n) = 0 ∧ y.setWidth (8 * n) ≠ 0)) :
    ∃ t, exec i s = .next t ∧ GoesOn 4 s t ∧ SameRegs (putG d n r s.me) t.me ∧ SameCtl s.me t.me ∧ t.me.sendq = s.me.sendq ∧
      t.me.seq = s.me.seq ∧ Written s t ps n (BitVec.ofNat (8 * n) r - y.setWidth (8 * n)).toNat := by
  obtain ⟨rels, e⟩ := decrementFire_of_reaches h hle ha hstores hpending hsc y d hread
  rw [if_neg hnot] at e
  have hbeside := h.beside true
  obtain ⟨t, ht, hdone⟩ := finish_counted hs hr hbeside.cur (q := s.me.sendq) (k := s.me.seq) hbeside.me va n o sc d pas ps r
    (BitVec.ofNat (8 * n) r - y.setWidth (8 * n)).toNat
  refine ⟨t, (hexec.trans (congrArg finish e)).trans ht, hdone.goes, hdone.regs, hdone.ctl, hdone.sendq, hdone.seq,
    written_of_after (h.1.keys_nodup ⟨1, rfl⟩ ha fun p hp => h.key hp) fun j => ?_⟩
  rw [hdone.bytes, h.mem]
theorem sendOwn_of_reaches (hzero : BitVec.ofNat (8 * n) r - y.setWidth (8 * n) = 0) (hy : y.setWidth (8 * n) ≠ 0)
    (hpriv : s.me.ctl.priv = 1 ∨ 16 ≤ clsOf (recordWord r 1)) :
    ∃ rels, exec i s = finish (enqueueOrSpill (recordMsg s r) rels (s1.dropAnswers false) fun u =>
      counted va n o sc d pas ps r 0 (u.setMe { u.me with seq := u.me.seq + 1 })) := by
  obtain ⟨rels, e⟩ := decrementFire_of_reaches h hle ha hstores hpending hsc y d hread
  have hallowed : ¬(s.me.ctl.priv = 0 ∧ clsOf (recordWord r 1) < 16) := by
    rintro ⟨hp, hc⟩
    rcases hpriv with hp' | hc'
    · rw [hp] at hp'
      exact absurd hp' (by decide)
    · omega
  rw [if_pos ⟨hzero, hy⟩, if_neg hallowed] at e
  have hsrc : (s1.dropAnswers false).mySrc = sourceOf s := by
    obtain ⟨l, q, hv⟩ := h.answered
    rw [hv, ← mySrc_eq]
    rfl
  refine ⟨rels, hexec.trans (congrArg finish (e.trans ?_))⟩
  rw [sendOwn, hsrc, cleanDesc_eq]
  rfl
/-- A message of a class that the context may not send traps. -/
theorem adf_traps (hzero : BitVec.ofNat (8 * n) r - y.setWidth (8 * n) = 0) (hy : y.setWidth (8 * n) ≠ 0)
    (hpriv : s.me.ctl.priv = 0) (hcls : clsOf (recordWord r 1) < 16) : exec i s = traps ⟨0x02, none, none⟩ s := by
  obtain ⟨rels, e⟩ := decrementFire_of_reaches h hle ha hstores hpending hsc y d hread
  rw [if_pos ⟨hzero, hy⟩, if_pos ⟨hpriv, hcls⟩] at e
  exact hexec.trans (congrArg finish e)

variable (hzero : BitVec.ofNat (8 * n) r - y.setWidth (8 * n) = 0) (hy : y.setWidth (8 * n) ≠ 0)
  (hpriv : s.me.ctl.priv = 1 ∨ 16 ≤ clsOf (recordWord r 1))
include hzero hy hpriv

include hs hr in
/-- With room in the send queue the message enters it. -/
theorem adf_sends (hroom : s.me.sendq.length < s.me.ctl.sqdepth.toNat) :
    ∃ t c rels, exec i s = .next t ∧ GoesOn 4 s t ∧ SameRegs (putG d n r s.me) t.me ∧ SameCtl s.me t.me ∧
      t.me.sendq = s.me.sendq ++ [⟨recordMsg s r, s.me.fenceUpTo, c, s.me.relScope, rels⟩] ∧ t.me.seq = s.me.seq + 1 ∧
      Written s t ps n 0 := by
  obtain ⟨rels, e⟩ := sendOwn_of_reaches hexec h hle ha hstores hpending hsc hread hzero hy hpriv
  rw [enqueueOrSpill, h.me, if_pos hroom] at e
  generalize (s1.dropAnswers false).isLaunchMsg (s1.dropAnswers false).cur.core (s1.dropAnswers false).myLaunch (recordMsg s r) = c at e
  have hsent : Beside true ((s1.dropAnswers false).setMe (s.me.enqueue (recordMsg s r) c rels))
      (((s1.dropAnswers false).setMe (s.me.enqueue (recordMsg s r) c rels)).countIf c (s1.dropAnswers false).cur.core) :=
    countIf_beside ..
  have hmem : (((s1.dropAnswers false).setMe (s.me.enqueue (recordMsg s r) c rels)).countIf c
      (s1.dropAnswers false).cur.core).mem = s.mem := by rw [State.countIf_mem, State.setMe_mem, h.mem]
  have hcur : (((s1.dropAnswers false).setMe (s.me.enqueue (recordMsg s r) c rels)).countIf c
      (s1.dropAnswers false).cur.core).cur = s.cur := hsent.cur.trans (h.beside true).cur
  have hnote := hsent.me
  rw [State.me_setMe] at hnote
  generalize ((s1.dropAnswers false).setMe (s.me.enqueue (recordMsg s r) c rels)).countIf c (s1.dropAnswers false).cur.core = u
    at e hmem hcur hnote
  obtain ⟨t, ht, hdone⟩ := finish_counted hs hr (u := u.setMe { u.me with seq := u.me.seq + 1 })
    (q := s.me.sendq ++ [⟨recordMsg s r, s.me.fenceUpTo, c, s.me.relScope, rels⟩]) (k := s.me.seq + 1) hcur
    (by rw [State.me_setMe]; exact hnote.counted_seq) va n o sc d pas ps r 0
  refine ⟨t, c, rels, e.trans ht, hdone.goes, hdone.regs, hdone.ctl, hdone.sendq, hdone.seq,
    written_of_after (h.1.keys_nodup ⟨1, rfl⟩ ha fun p hp => h.key hp) fun j => ?_⟩
  rw [hdone.bytes, State.setMe_mem, hmem]
/-- With a full send queue and no spill block it waits, with the record as it stands. -/
theorem adf_waits (hfull : s.me.ctl.sqdepth.toNat ≤ s.me.sendq.length) (hblock : (s.here.cls 5).block = none) :
    ∃ t, exec i s = .next t ∧ t.me.wait = some .interlock ∧ t.me.pc = s.me.pc ∧ SameRegs s.me t.me ∧ t.me.sendq = s.me.sendq ∧
      t.mem = s.mem := by
  obtain ⟨rels, e⟩ := sendOwn_of_reaches hexec h hle ha hstores hpending hsc hread hzero hy hpriv
  have hhere : (s1.dropAnswers false).here = s.here := by
    obtain ⟨l, q, hv⟩ := h.answered
    rw [hv]
    rfl
  rw [enqueueOrSpill, h.me, if_neg (Nat.not_lt.2 hfull), hhere, hblock] at e
  obtain ⟨hwait, hpc, hregs⟩ := waiting_leaves (s1.dropAnswers false) .interlock
  rw [h.me] at hpc hregs
  refine ⟨_, e, hwait, hpc, hregs, ?_, ?_⟩
  · rw [← h.me, State.waiting, State.me_setMe]
    split <;> rfl
  · rw [waiting_mem, h.mem]
include hs hr in
/-- With a full send queue and a spill block it spills. -/
theorem adf_spills (hfull : s.me.ctl.sqdepth.toNat ≤ s.me.sendq.length) {blk : Word × BitVec 48}
    (hblock : (s.here.cls 5).block = some blk) :
    Spilling i 4 s (s1.dropAnswers false) blk.1 (recordMsg s r) (putG d n r { s.me with seq := s.me.seq + 1 })
      ((ps.take n).zip (toBytes 0 n)) := by
  obtain ⟨rels, e⟩ := sendOwn_of_reaches hexec h hle ha hstores hpending hsc hread hzero hy hpriv
  have hhere : (s1.dropAnswers false).here = s.here := by
    obtain ⟨l, q, hv⟩ := h.answered
    rw [hv]
    rfl
  have hv := h.beside true
  rw [enqueueOrSpill, h.me, if_neg (Nat.not_lt.2 hfull), hhere, hblock] at e
  dsimp only at e
  have hdrain : drainOwn (s1.dropAnswers false).me.stores.length (s1.dropAnswers false) = some (s1.dropAnswers false) := by
    rw [h.me, hstores, List.length_nil, drainOwn, h.me, hstores]
    rfl
  rw [spill, hdrain] at e
  dsimp only at e
  generalize (s1.dropAnswers false).isLaunchMsg (s1.dropAnswers false).cur.core (s1.dropAnswers false).myLaunch (recordMsg s r) = c at e
  have hend {w : State} (hw : w.cur = (s1.dropAnswers false).cur) (hnote : (s1.dropAnswers false).me.Noted true w.me) :=
    finish_counted hs hr (u := w.setMe { w.me with seq := w.me.seq + 1 }) (q := s.me.sendq) (k := s.me.seq + 1)
      (hw.trans hv.cur) (by rw [State.me_setMe]; rw [h.me] at hnote; exact hnote.counted_seq) va n o sc d pas ps r 0
  have hregs {z : Ctx} : SameRegs (putG d n r s.me) z → SameRegs (putG d n r (s.me.sent s.me.sendq (s.me.seq + 1))) z :=
    sameRegs_trans (sameRegs_putG_sent ..).2
  intro head u hat
  refine ⟨fun hfullBlock => ?_, fun hroom sA sP u2 hslot => ?_⟩
  · obtain ⟨w, hspill, hcur, hnote, hbytes, hsupq⟩ := spillNow_of_full hat (recordMsg s r) c hfullBlock
    obtain ⟨t, ht, hdone⟩ := hend hcur hnote
    rw [hspill] at e
    rw [hv.cur, hv.partOf, hv.part] at hsupq
    refine ⟨t, ⟨e.trans ht, hdone.goes, hregs hdone.regs, ?_, ?_, fun k => ?_⟩,
      fun hqueue => ?_⟩
    · exact hdone.sendq.trans (putG_sent_sendq s.me _ (s.me.seq + 1) d n r).symm
    · exact hdone.seq.trans (putG_sent_seq s.me s.me.sendq _ d n r).symm
    · rw [hdone.bytes, State.setMe_mem, Memory.byte_congr hbytes, List.nil_append]
    · rw [State.part, hdone.parts]
      exact hsupq hqueue
  · obtain ⟨w, hspill, hcur, hnote, hbytes, hquiet, hdelivery⟩ := spillNow_of_room hat (recordMsg s r) c hroom hslot
    obtain ⟨t, ht, hdone⟩ := hend hcur hnote
    have hinbox : t.here.inbox = w.here.inbox := by
      rw [hdone.inbox, State.here_setMe]
      rfl
    rw [hspill] at e
    rw [hv.cur, hv.partOf, hv.part, hv.myLaunch, hhere] at hdelivery
    refine ⟨t, ⟨e.trans ht, hdone.goes, hregs hdone.regs, ?_, ?_, fun k => ?_⟩,
      fun hunarmed => ?_, fun harmed hbound hsaved => ?_⟩
    · exact hdone.sendq.trans (putG_sent_sendq s.me _ (s.me.seq + 1) d n r).symm
    · exact hdone.seq.trans (putG_sent_seq s.me s.me.sendq _ d n r).symm
    · rw [hdone.bytes, State.setMe_mem, hbytes, after_append]
    · rw [hinbox, hquiet hunarmed, hhere]
    · rw [hinbox]
      exact hdelivery harmed hbound (hv.saved _ hsaved)
end

end Sys2Proof.Machine

namespace Sys2Proof.Settled
open Sys2Proof.Machine

/-- Settles O31, by whether the counter reaches zero and what becomes of the message. -/
theorem decrementAndFire : Obligations.DecrementAndFire := by
  intro s d a b o sc w pas ps s1 hs hr n x va ha h hstores hpending hsc
  have hle : 8 * n ≤ 64 := by
    unfold n
    split <;> decide
  have hexec : exec (.adf d a b o sc w) s = finish (decrementFire va n (x.getG b).toNat o sc d s) := withRegs_plain hs ..
  exact ⟨adf_decrements hexec hs hr h hle ha hstores hpending hsc rfl,
    adf_sends hexec hs hr h hle ha hstores hpending hsc rfl, fun hzero hy hpriv hfull =>
      ⟨adf_waits hexec h hle ha hstores hpending hsc rfl hzero hy hpriv hfull, fun _ hblock =>
        adf_spills hexec hs hr h hle ha hstores hpending hsc rfl hzero hy hpriv hfull hblock⟩,
    adf_traps hexec h hle ha hstores hpending hsc rfl⟩

end Sys2Proof.Settled
end

