-- ==== Sys2Proof/Proofs/Neighbours.lean ====
section
/-! SUPPORT. What an instruction leaves that rewrites its context alone (R107), and the vectors and credits of neighbours (R176,
R177); settles O33. -/
namespace Sys2Proof.Machine

/-! ## What falls through leaves the context as its meaning does -/

/-- Retiring turns on the acting context alone. -/
theorem me_retire_congr {s u : State} (hcur : u.cur = s.cur) (hme : u.me = s.me) (fl : Flow) : (retire fl u).me = (retire fl s).me := by
  unfold retire
  rw [hcur, hme]
  split
  · rw [State.me_setMe, State.me_setMe]
  · cases fl <;> simp only [State.me_setMe]
theorem retire_ctxAt_other {s u : State} (hcur : u.cur = s.cur) (fl : Flow) {c : CoreId} {k : CtxId}
    (h : c ≠ s.cur.core ∨ k ≠ s.cur.ctx) : (retire fl u).ctxAt c k = u.ctxAt c k := by
  obtain ⟨x, hx⟩ := retire_setMe fl u
  rw [hx, State.setMe, State.ctxAt_setCtxAt_other _ (by rwa [hcur])]
theorem leaves_of {s u : State} {y : Ctx} (n : Nat) (hcur : u.cur = s.cur) (hme : u.me = y) (hmem : u.mem = s.mem)
    (hothers : ∀ c k, c ≠ s.cur.core ∨ k ≠ s.cur.ctx → u.ctxAt c k = s.ctxAt c k) : Leaves n s (retire (.fall n) u) y := by
  obtain ⟨hcurt, hmemt, -⟩ := retire_around (.fall n) u
  refine ⟨hcurt.trans hcur, me_retire_congr (s := s.setMe y) hcur (hme.trans (State.me_setMe s y).symm) _, hmemt.trans hmem, ?_⟩
  exact fun c k h => (retire_ctxAt_other hcur _ h).trans (hothers c k h)
/-- A meaning that rewrites the acting context alone leaves it. -/
theorem leaves_setMe (n : Nat) (s : State) (y : Ctx) : Leaves n s (retire (.fall n) (s.setMe y)) y :=
  leaves_of n rfl (State.me_setMe ..) rfl fun _ _ h => State.ctxAt_setCtxAt_other s h y
/-- A context goes on whose meaning has rewritten neither its pc nor its loop nor its status. -/
theorem goesOn_setMe {s u : State} (hr : s.cur.replay = false) {y : Ctx} (hcur : u.cur = s.cur) (hpc : y.pc = s.me.pc)
    (hloop : y.loop = s.me.loop) (hstatus : y.status = s.me.status) (n : Nat) : GoesOn n s (retire (.fall n) (u.setMe y)) := by
  refine goesOn_retire hr (u := u.setMe y) hcur ?_ ?_ ?_ n
  all_goals rwa [State.me_setMe]

/-! ## The grid (R176) -/

theorem direction_cases (m : BitVec 2) : m = 0 ∨ m = 1 ∨ m = 2 ∨ m = 3 := by revert m; decide
theorem neighbour_of_side {p q : Prop} [Decidable p] [Decidable q] {x : CoreId} {n : Nat} {k : BitVec 2} (hedge : p ↔ ¬q)
    (hx : q → x = BitVec.ofNat 13 n) :
    (if p then none else some x) = (if q then some (n, k) else none).map fun y => BitVec.ofNat 13 y.1 := by
  by_cases h : q
  · rw [if_neg (mt hedge.1 (not_not.2 h)), if_pos h, hx h]
    rfl
  · rw [if_pos (hedge.2 h), if_neg h]
    rfl
/-- The neighbour of a core lies where R176 says. -/
theorem neighbour_eq (c : CoreId) (m : BitVec 2) : neighbour c m = (neighbourIn c m).map fun p => BitVec.ofNat 13 p.1 := by
  have hc := c.isLt
  obtain rfl | rfl | rfl | rfl := direction_cases m
  all_goals
    refine neighbour_of_side ?_ fun h => congrArg (BitVec.ofNat 13) ?_
    all_goals
      simp only [coreX, coreY]
      omega
/-- A vector lands in the queue of the opposite side. -/
theorem landing_of_neighbourIn {c : CoreId} {m q : BitVec 2} {n : Nat} (h : neighbourIn c m = some (n, q)) : landing m = q := by
  have hlands {p : Prop} [Decidable p] {a : Nat} {k : BitVec 2} (e : (if p then some (a, k) else none) = some (n, q)) : k = q := by
    obtain ⟨-, e⟩ := Option.ite_none_right_eq_some.1 e
    cases e
    rfl
  obtain rfl | rfl | rfl | rfl := direction_cases m
  all_goals exact hlands h

/-! ## Windows (R177) -/

/-- A field of a word of any width (R1). -/
theorem fld_eq_toNat_extract {w : Nat} (x : BitVec w) (lo len : Nat) : fld x lo len = (x.extractLsb' lo len).toNat := by
  rw [fld, nbits, BitVec.extractLsb'_toNat, Nat.shiftRight_eq_div_pow]

theorem credit_setCredit (c : Ctl) (m i : BitVec 2) (v : BitVec 3) :
    (c.setCredit m v).credit i = if i = m then v else c.credit i := by
  by_cases h : i = m
  · subst h
    simp [Ctl.setCredit, Ctl.credit, Vector.get_eq_getElem]
  · have h' : m.toNat ≠ i.toNat := fun e => h (BitVec.eq_of_toNat_eq e).symm
    simp [Ctl.setCredit, Ctl.credit, Vector.get_eq_getElem, h, h']
theorem sentOut_setOut (x : Ctx) (m i : BitVec 2) (n : Nat) : (x.setOut m n).sentOut i = if i = m then n else x.sentOut i := by
  by_cases h : i = m
  · subst h
    simp [Ctx.setOut, Ctx.sentOut, Vector.get_eq_getElem]
  · have h' : m.toNat ≠ i.toNat := fun e => h (BitVec.eq_of_toNat_eq e).symm
    simp [Ctx.setOut, Ctx.sentOut, Vector.get_eq_getElem, h, h']
theorem windowOf_toNat (size out : Nat) : (windowOf size out).toNat = min size 4 - out := by
  rw [windowOf, BitVec.toNat_ofNat]
  omega

/-- The context of a sender once a vector has left it in direction m. -/
def Ctx.vecSent (x : Ctx) (m : BitVec 2) : Ctx :=
  (x.setOut m (x.sentOut m + 1)).withCtl fun c => c.setCredit m (c.credit m - 1)
/-- The windows that WINSET leaves for the sizes in a word. -/
def Ctx.windows (x : Ctx) (w : Word) : Ctl :=
  (((x.ctl.setCredit 0 (windowOf (fld w 0 3) (x.sentOut 0))).setCredit 1 (windowOf (fld w 4 3) (x.sentOut 1))).setCredit 2
    (windowOf (fld w 8 3) (x.sentOut 2))).setCredit 3 (windowOf (fld w 12 3) (x.sentOut 3))
theorem setCredit_eq {c d : Ctl} (h : d = { c with win := d.win }) (m : BitVec 2) (v : BitVec 3) :
    d.setCredit m v = { c with win := (d.setCredit m v).win } := by
  generalize d.win = w at h
  subst h
  rfl
theorem windows_eq (x : Ctx) (w : Word) : x.windows w = { x.ctl with win := (x.windows w).win } :=
  setCredit_eq (setCredit_eq (setCredit_eq (setCredit_eq rfl ..) ..) ..) ..
theorem credit_windows (x : Ctx) (w : Word) (i : BitVec 2) :
    ((x.windows w).credit i).toNat = min (w.extractLsb' (4 * i.toNat) 3).toNat 4 - x.sentOut i := by
  rw [← fld_eq_toNat_extract]
  obtain rfl | rfl | rfl | rfl := direction_cases i
  all_goals
    simp only [Ctx.windows, credit_setCredit]
    exact windowOf_toNat ..

section
variable {s : State} (hs : s.plain = true) (a : BitVec 5) (m : BitVec 2)
include hs

theorem exec_nsend : exec (.nsend a m) s = finish (sendVec m (s.me.getV (a.setWidth 4)) s) := withRegs_plain hs ..
theorem nsend_past_edge (h : neighbourIn s.cur.core m = none) : exec (.nsend a m) s = traps ⟨0x12, some 3, none⟩ s := by
  rw [exec_nsend hs, sendVec, neighbour_eq, h]
  rfl

section
variable {n : Nat} {q : BitVec 2} (h : neighbourIn s.cur.core m = some (n, q))
include h

theorem nsend_to_neighbour : exec (.nsend a m) s =
    if s.partOf (BitVec.ofNat 13 n) ≠ s.partOf s.cur.core then traps ⟨0x13, none, none⟩ s
    else if s.me.ctl.credit m ≠ 0 ∧ inQueue s (BitVec.ofNat 13 n) q < 4 then
      .next (retire (.fall 4) (({ s with
        vecs := s.vecs ++ [(BitVec.ofNat 13 n, q, ⟨s.me.getV (a.setWidth 4), s.cur.core, s.cur.ctx, m⟩)] } : State).setMe
          (s.me.vecSent m)))
    else .next (s.waiting (.noCredit m)) := by
  have hq := landing_of_neighbourIn h
  have hmay : s.maySend s.me (BitVec.ofNat 13 n) m = true ↔ s.me.ctl.credit m ≠ 0 ∧ inQueue s (BitVec.ofNat 13 n) q < 4 := by
    rw [State.maySend, hq, Bool.and_eq_true, decide_eq_true_iff, decide_eq_true_iff]
    rfl
  rw [exec_nsend hs, sendVec, neighbour_eq, h]
  dsimp only [Option.map_some]
  rw [apply_ite finish, hq]
  refine ite_congr rfl (fun _ => rfl) fun _ => ?_
  by_cases hgo : s.maySend s.me (BitVec.ofNat 13 n) m = true
  · rw [if_neg (by simp [hgo]), if_pos (hmay.1 hgo)]
    rfl
  · rw [if_pos (by simp [hgo]), if_neg (fun hc => hgo (hmay.2 hc))]
    rfl
/-- A vector takes a credit of its direction and is on its way. -/
theorem nsend_sends (hr : s.cur.replay = false) (hpart : s.partOf (BitVec.ofNat 13 n) = s.partOf s.cur.core)
    (hcredit : s.me.ctl.credit m ≠ 0) (hroom : inQueue s (BitVec.ofNat 13 n) q < 4) :
    ∃ t, exec (.nsend a m) s = .next t ∧ GoesOn 4 s t ∧ SameRegs s.me t.me ∧
      t.vecs = s.vecs ++ [(BitVec.ofNat 13 n, q, ⟨s.me.getV (a.setWidth 4), s.cur.core, s.cur.ctx, m⟩)] ∧
      t.me.ctl.credit m = s.me.ctl.credit m - 1 ∧ t.me.sentOut m = s.me.sentOut m + 1 ∧
      (∀ i, i ≠ m → t.me.ctl.credit i = s.me.ctl.credit i ∧ t.me.sentOut i = s.me.sentOut i) ∧
      t.me.ctl = { s.me.ctl with win := t.me.ctl.win } ∧ t.mem = s.mem := by
  rw [nsend_to_neighbour hs a m h, if_neg (not_not.2 hpart), if_pos ⟨hcredit, hroom⟩]
  generalize hu : ({ s with
    vecs := s.vecs ++ [(BitVec.ofNat 13 n, q, ⟨s.me.getV (a.setWidth 4), s.cur.core, s.cur.ctx, m⟩)] } : State) = u
  have hcur : u.cur = s.cur := by rw [← hu]
  have hme := me_retire_fall (u := u.setMe (s.me.vecSent m)) (by rw [State.setMe_cur, hcur, hr]) 4
  rw [State.me_setMe] at hme
  have hctl : (retire (.fall 4) (u.setMe (s.me.vecSent m))).me.ctl = (s.me.vecSent m).ctl := by rw [hme]
  have hout (i : BitVec 2) : (retire (.fall 4) (u.setMe (s.me.vecSent m))).me.sentOut i = (s.me.vecSent m).sentOut i := by
    rw [hme]
    rfl
  have hcreditOf (i : BitVec 2) : (s.me.vecSent m).ctl.credit i = if i = m then s.me.ctl.credit m - 1 else s.me.ctl.credit i :=
    credit_setCredit ..
  have houtOf (i : BitVec 2) : (s.me.vecSent m).sentOut i = if i = m then s.me.sentOut m + 1 else s.me.sentOut i :=
    sentOut_setOut ..
  refine ⟨_, rfl, goesOn_setMe (y := s.me.vecSent m) hr hcur rfl rfl rfl 4, ?regs, ?vecs, ?_, ?_, fun i hi => ⟨?_, ?_⟩, ?_, ?_⟩
  case regs =>
    rw [hme]
    exact ⟨rfl, rfl, rfl, rfl, rfl⟩
  case vecs =>
    obtain ⟨y, hy⟩ := retire_setMe (.fall 4) (u.setMe (s.me.vecSent m))
    rw [hy, State.setMe_vecs, State.setMe_vecs, ← hu]
  · rw [hctl, hcreditOf, if_pos rfl]
  · rw [hout, houtOf, if_pos rfl]
  · rw [hctl, hcreditOf, if_neg hi]
  · rw [hout, houtOf, if_neg hi]
  · rw [hctl]
    rfl
  · rw [retire_mem, State.setMe_mem, ← hu]
end

theorem winset_windows (hr : s.cur.replay = false) : ∃ t, exec (.winset a) s = .next t ∧ GoesOn 4 s t ∧ SameRegs s.me t.me ∧ t.mem = s.mem ∧
    t.me.ctl = { s.me.ctl with win := t.me.ctl.win } ∧
    ∀ i, (t.me.ctl.credit i).toNat = min ((s.me.getG a).extractLsb' (4 * i.toNat) 3).toNat 4 - s.me.sentOut i := by
  have hexec : exec (.winset a) s = .next (retire (.fall 4) (s.setMe { s.me with ctl := s.me.windows (s.me.getG a) })) :=
    withRegs_plain hs ..
  have hcredit := credit_windows s.me (s.me.getG a)
  have hwin := windows_eq s.me (s.me.getG a)
  generalize s.me.windows (s.me.getG a) = l at hexec hcredit hwin
  have hme := me_retire_fall (u := s.setMe { s.me with ctl := l }) hr 4
  rw [State.me_setMe] at hme
  have hctl : (retire (.fall 4) (s.setMe { s.me with ctl := l })).me.ctl = l := by rw [hme]
  refine ⟨_, hexec, goesOn_setMe (y := { s.me with ctl := l }) hr rfl rfl rfl rfl 4, ?_, ?_, ?_, fun i => ?_⟩
  · rw [hme]
    exact ⟨rfl, rfl, rfl, rfl, rfl⟩
  · rw [retire_mem, State.setMe_mem]
  · rw [hctl]
    exact hwin
  · rw [hctl]
    exact hcredit i
end

end Sys2Proof.Machine

namespace Sys2Proof.Settled
open Sys2Proof.Machine

/-- Settles O33, by what stands in the direction of NSEND. -/
theorem neighbours : Obligations.Neighbours := by
  intro s a m hs hr
  refine ⟨nsend_past_edge hs a m, fun n q h => ⟨fun hpart => ?_, fun hpart hcredit hroom => nsend_sends hs a m h hr hpart hcredit hroom,
    fun hpart hfull => ?_⟩, winset_windows hs a hr⟩
  · rw [nsend_to_neighbour hs a m h, if_pos hpart]
  · rw [nsend_to_neighbour hs a m h, if_neg (not_not.2 hpart), if_neg]
    rintro ⟨hcredit, hroom⟩
    rcases hfull with h0 | hge
    · exact hcredit h0
    · omega

end Sys2Proof.Settled
end

