-- ==== Sys2Proof/Proofs/QueuesAndStreams.lean ====
section
/-! SUPPORT. Queue bindings, streams, recording and replay, where a register may be bound or streaming (R178 to R183); settles O34. -/
namespace Sys2Proof.Machine

/-! ## Fields of a word of any width (R1) -/

theorem ofNat_fld {w : Nat} (x : BitVec w) (lo len : Nat) : BitVec.ofNat len (fld x lo len) = x.extractLsb' lo len :=
  ofNat_eq_of_eq_toNat (fld_eq_toNat_extract ..)
theorem fld_ne_zero_iff {w : Nat} (x : BitVec w) (lo len : Nat) : fld x lo len ≠ 0 ↔ x.extractLsb' lo len ≠ 0 := by
  rw [fld_eq_toNat_extract, Ne, Ne, ← BitVec.toNat_inj]
  rfl

/-! ## What waits or traps has popped nothing -/

/-- A stream once what an instruction popped of it is undone: its next element is fetched anew where it was the trap's fault (R180). -/
def Stream.undone (trap : Option Trap) (y : Stream) : Stream :=
  match y.buf with
  | .fault c i a :: _ => if trap = some ⟨c, some i, some a⟩ then { y with buf := [], next := y.popped } else y
  | _ => y
/-- A trap that gives no address is that of no stream's next element. -/
theorem Stream.undone_of_noAddr {t : Trap} (ht : t.addr = none) (y : Stream) : y.undone (some t) = y := by
  unfold Stream.undone
  split
  · rw [if_neg]
    rintro e
    obtain rfl := Option.some.inj e
    cases ht
  · rfl
theorem undoPops_eq {s u : State} (hs : ¬s.plain = true) (hcredits : u.credits = s.credits) (p : Option Trap) : undoPops s u p =
    let v := u.setMe { u.me with g := s.me.g, v := s.me.v, q := s.me.q, streams := s.me.streams.map (Stream.undone p) }
    { v.setHere { v.here with nq := s.here.nq } with credits := s.credits } := by
  rw [undoPops, if_neg hs, hcredits, List.drop_length]
  rfl
/-- Where a meaning has touched no register, queue, stream or neighbour queue, its trap finds nothing to undo. -/
theorem finish_trap_untouched {s u : State} {t : Trap} (ht : t.addr = none) (hg : u.me.g = s.me.g) (hv : u.me.v = s.me.v)
    (hq : u.me.q = s.me.q) (hst : u.me.streams = s.me.streams) (hnq : u.here.nq = s.here.nq) (hcredits : u.credits = s.credits) :
    finish ((Res.trap t u).precise s) = traps t u := by
  rw [Res.precise, finish, traps]
  by_cases hs : s.plain = true
  · rw [undoPops, if_pos hs]
  · have hstreams : s.me.streams.map (Stream.undone (some t)) = u.me.streams := by
      rw [hst, List.map_congr_left fun y _ => Stream.undone_of_noAddr ht y, List.map_id']
    have hundo : undoPops s u (some t) = u.setMe u.me := by
      rw [undoPops_eq hs hcredits, hstreams, ← hg, ← hv, ← hq, ← hnq, ← hcredits]
      exact congrArg (fun v : State => { v with credits := u.credits }) (State.setHere_setMe_self u u.me)
    rw [hundo, takeTrap_setMe_self]

/-! ## Operands that are neither bound nor streaming -/

section
variable {s : State} (howed : s.me.owed = []) (hrep : s.me.replay = none)
include howed hrep

theorem prepare_of_pops (w : Nat) (rd : List Reg) : s.plain = true ∨
    prepare w rd [] false s = (rd.filter (!·.isF)).eraseDups.foldl (fun a x => a.bind (popReg x.vec x.num)) (.ok .own s) := by
  by_cases hs : s.plain = true
  · exact .inl hs
  · have howes (r : Reg) : s.me.owes r = false := by cases r <;> simp [Ctx.owes, howed]
    have hreplaying : s.me.replaying = false := by simp [Ctx.replaying, hrep]
    refine .inr ?_
    rw [prepare, if_neg hs, if_neg (by simp [howes]), if_neg (by simp [hreplaying])]
    rfl
theorem prepare_nothing (w : Nat) : prepare w [] [] false s = .ok .own s := by
  rcases prepare_of_pops howed hrep w [] with hs | h
  · exact prepare_plain hs
  · exact h
theorem withRegs_nothing (w : Nat) (k : State → Res) : withRegs w [] [] s k = finish ((k s).precise s) := by
  rw [withRegs, prepare_nothing howed hrep, Res.bind]
theorem withRegs_free {a : BitVec 5} (hbind : ∀ y ∈ s.me.binds, ¬(y.vec = false ∧ y.reg = a))
    (hstream : ∀ y ∈ s.me.streams, ¬(y.vec = false ∧ y.reg = a)) (w : Nat) (k : State → Res) :
    withRegs w [.g a] [] s k = finish ((k s).precise s) := by
  have hpop : popReg false a s = .ok .own s := by
    have hb : s.me.binding false a = none := by simpa [Ctx.binding, List.find?_eq_none] using hbind
    have ht : s.me.stream false a = none := by simpa [Ctx.stream, List.find?_eq_none] using hstream
    simp only [popReg, hb, ht]
  have hprepare : prepare w [.g a] [] false s = .ok .own s := by
    rcases prepare_of_pops howed hrep w [.g a] with hs | h
    · exact prepare_plain hs
    · exact h.trans hpop
  rw [withRegs, hprepare, Res.bind]
omit howed in
theorem not_replaying : s.me.replaying = false := by rw [Ctx.replaying, hrep]
omit howed in
/-- The context is without a replay as it stands. -/
theorem no_replay (r : Repeat) : ({ s.me with replay := none, rep := r } : Ctx) = { s.me with rep := r } := by rw [← hrep]
end

/-! ## Registers bound and streaming -/

theorem binding_isSome_iff (x : Ctx) (vec : Bool) (r : BitVec 5) :
    (x.binding vec r).isSome = true ↔ ∃ y ∈ x.binds, y.vec = vec ∧ y.reg = r := by
  simp [Ctx.binding, List.find?_isSome]
theorem stream_isSome_iff (x : Ctx) (vec : Bool) (r : BitVec 5) :
    (x.stream vec r).isSome = true ↔ ∃ y ∈ x.streams, y.vec = vec ∧ y.reg = r := by
  simp [Ctx.stream, List.find?_isSome]

/-! ## Queue bindings (R178) -/

section
variable (x : Ctx) (w : Word)

/-- The binding that a configuration word asks for. -/
def boundBy : Binding := ⟨w.getLsbD 4, w.extractLsb' 5 5, w.extractLsb' 0 3⟩
/-- What a queue leaves of the bindings where it is bound anew. -/
def bindsBut : List Binding := x.binds.filter fun y => y.q ≠ (boundBy w).q
/-- A configuration word that QCFG refuses. -/
def QueueClash : Prop :=
  w.extractLsb' 10 54 ≠ 0 ∨ ((boundBy w).vec = false ∧ (boundBy w).reg = 0) ∨ ((boundBy w).vec = true ∧ 16 ≤ (boundBy w).reg.toNat) ∨
    (∃ y ∈ x.binds, y.vec = (boundBy w).vec ∧ y.reg = (boundBy w).reg) ∨
    (∃ t ∈ x.streams, t.vec = (boundBy w).vec ∧ t.reg = (boundBy w).reg) ∨ ∃ t ∈ x.streams, t.q.toNat = (boundBy w).q.toNat
end

/-- A stream's queue is one of the first four. -/
theorem any_queue_iff (x : Ctx) (q : BitVec 3) : (decide (q.toNat < 4) && x.streams.any fun t => t.q.toNat = q.toNat) = true ↔
    ∃ t ∈ x.streams, t.q.toNat = q.toNat := by
  simp only [Bool.and_eq_true, List.any_eq_true, decide_eq_true_iff]
  refine ⟨fun h => h.2, fun ⟨t, ht, e⟩ => ⟨?_, t, ht, e⟩⟩
  have hq := t.q.isLt
  omega
open Classical in
theorem bindQueue_eq (word : Nat) (w : Word) (s : State) : bindQueue word w s =
    if w.getLsbD 3 = false then .ok (.fall 4) (s.setMe { s.me with binds := bindsBut s.me w })
    else if QueueClash s.me w then .trap (illegal word) s
    else .ok (.fall 4) (s.setMe { s.me with binds := bindsBut s.me w ++ [boundBy w] }) := by
  simp only [bindQueue, ofNat_fld]
  refine ite_congr (by simp [bit]) (fun _ => rfl) fun _ => ite_congr ?_ (fun _ => rfl) fun _ => rfl
  rw [Bool.or_eq_true, any_queue_iff, Bool.or_eq_true, stream_isSome_iff, Bool.or_eq_true, binding_isSome_iff]
  simp only [Bool.or_eq_true, Bool.and_eq_true, decide_eq_true_iff, fld_ne_zero_iff, Bool.not_eq_true', or_assoc]
  rfl
theorem illegal_qcfg (a : BitVec 5) : illegal (wordR 0x29 2 0 a.toNat 0 0) = illegalOf (.qcfg a) := by
  have ha := a.isLt
  have hword : wordR 0x29 2 0 a.toNat 0 0 % 2 ^ 32 = encode (.qcfg a) := by
    simp only [wordR, word32, encode]
    omega
  rw [illegal, hword, illegalOf]

/-! ## Streams (R180, R181) -/

theorem ne_one_iff (k : BitVec 1) : ¬k = 1 ↔ k = 0 := by revert k; decide
theorem streamable_iff (vec : Bool) (m : BitVec 512) : streamable vec m = true ↔
    (m.extractLsb' 56 3).toNat ≤ 3 ∧ m.getLsbD 124 = false ∧ (m.extractLsb' 59 5).toNat ≤ 15 ∧
      (vec = true → ((m.extractLsb' 128 20).toNat + 1) * typeBits (m.extractLsb' 59 5).toNat % 128 = 0) ∧
      (vec = false → (m.extractLsb' 59 5).toNat ≠ 6 ∧ (m.extractLsb' 59 5).toNat ≠ 7) := by
  have hsize : mapSize m 0 = (m.extractLsb' 128 20).toNat + 1 := by rw [mapSize, if_pos (Nat.zero_le _), fld_eq_toNat_extract]
  simp only [streamable, hsize, mapFmt, mapDims, mapCway, fld_eq_toNat_extract, bit, Bool.and_eq_true, decide_eq_true_iff,
    Bool.not_eq_true', and_assoc, ← Nat.lt_succ_iff (n := 15)]
  cases vec <;> simp

section
variable (x : Ctx) (vec : Bool) (d b : BitVec 5)

/-- The register or the queue is in use, or there is no such queue. -/
def StreamBusy : Prop :=
  (∃ t ∈ x.streams, t.vec = vec ∧ t.reg = d) ∨ (∃ y ∈ x.binds, y.vec = vec ∧ y.reg = d) ∨ 4 ≤ b.toNat ∨
    (∃ y ∈ x.binds, y.q.toNat = b.toNat) ∨ ∃ t ∈ x.streams, t.q.toNat = b.toNat
theorem streamBusy_iff : ((x.stream vec d).isSome || (x.binding vec d).isSome || decide (4 ≤ b.toNat) ||
    (x.binds.any fun y => y.q.toNat = (b.setWidth 2).toNat) || x.streams.any fun t => t.q = b.setWidth 2) = true ↔
    StreamBusy x vec d b := by
  rw [Bool.or_eq_true, Bool.or_eq_true, Bool.or_eq_true, Bool.or_eq_true, stream_isSome_iff, binding_isSome_iff, decide_eq_true_iff,
    StreamBusy, or_assoc, or_assoc, or_assoc]
  refine or_congr_right (or_congr_right ?_)
  by_cases hb : 4 ≤ b.toNat
  · simp only [hb, true_or]
  · have hlow : (b.setWidth 2).toNat = b.toNat := by
      rw [BitVec.toNat_setWidth]
      omega
    simp only [List.any_eq_true, decide_eq_true_iff, ← BitVec.toNat_inj, hlow]
end
section
variable (word : Nat) {vec : Bool} {d b : BitVec 5} {tm : BitVec 4} {s : State}

theorem startStream_busy (hbusy : StreamBusy s.me vec d b) : startStream word vec d tm b s = .trap (illegal word) s := by
  rw [startStream, if_pos ((streamBusy_iff ..).2 hbusy)]
variable (hfree : ¬StreamBusy s.me vec d b)
include hfree
theorem startStream_unloaded (hm : s.me.getTm tm = none) : startStream word vec d tm b s = .trap mapNotLoaded s := by
  rw [startStream, if_neg (mt (streamBusy_iff ..).1 hfree), hm]
theorem startStream_loaded {m : BitVec 512} (hm : s.me.getTm tm = some m) : startStream word vec d tm b s =
    if streamable vec m = true then
      .ok (.fall 4) (s.setMe { s.me with streams := s.me.streams ++ [{ vec := vec, reg := d, map := m, q := b.setWidth 2 }] })
    else .trap (badMap 1) s := by
  rw [startStream, if_neg (mt (streamBusy_iff ..).1 hfree), hm]
  dsimp only
  cases streamable vec m <;> rfl
end
theorem illegal_strm (d a b : BitVec 5) (k : BitVec 1) :
    illegal (wordR 0x2A 0 b.toNat a.toNat d.toNat k.toNat) = illegalOf (.strm d a b k) := by
  have hd := d.isLt
  have ha := a.isLt
  have hb := b.isLt
  have hk := k.isLt
  have hword : wordR 0x2A 0 b.toNat a.toNat d.toNat k.toNat % 2 ^ 32 = encode (.strm d a b k) := by
    simp only [wordR, word32, encode]
    omega
  rw [illegal, hword, illegalOf]
theorem illegal_repe : illegal (wordR 0x2A 3 0 0 0 0) = illegalOf .repe := rfl
theorem illegal_repgo (a : BitVec 5) : illegal (wordR 0x2A 4 0 a.toNat 0 0) = illegalOf (.repgo a) := by
  have ha := a.isLt
  have hword : wordR 0x2A 4 0 a.toNat 0 0 % 2 ^ 32 = encode (.repgo a) := by
    simp only [wordR, word32, encode]
    omega
  rw [illegal, hword, illegalOf]

/-! ## The instructions -/

/-- An instruction whose meaning rewrites its context alone leaves that. -/
theorem leaves_of_ok {i : Instr} {s : State} {y : Ctx} {r : Res} (hexec : exec i s = finish (r.precise s))
    (hok : r = .ok (.fall 4) (s.setMe y)) : ∃ t, exec i s = .next t ∧ Leaves 4 s t y := by
  subst hok
  exact ⟨_, hexec, leaves_setMe ..⟩
/-- A meaning that traps as it starts traps from the state it started in. -/
theorem traps_of_trap {i : Instr} {s : State} {t : Trap} {r : Res} (hexec : exec i s = finish (r.precise s))
    (htrap : r = .trap t s) (ht : t.addr = none) : exec i s = traps t s := by
  subst htrap
  exact hexec.trans (finish_trap_untouched ht rfl rfl rfl rfl rfl rfl)

section
variable {s : State} (howed : s.me.owed = []) (hrep : s.me.replay = none)
include howed hrep

section
variable {a : BitVec 5} (hbind : ∀ y ∈ s.me.binds, ¬(y.vec = false ∧ y.reg = a))
  (hstream : ∀ y ∈ s.me.streams, ¬(y.vec = false ∧ y.reg = a))
include hbind hstream

theorem exec_qcfg : exec (.qcfg a) s = finish ((bindQueue (wordR 0x29 2 0 a.toNat 0 0) (s.me.getG a) s).precise s) :=
  withRegs_free howed hrep hbind hstream ..
theorem qcfg_unbinds (h3 : (s.me.getG a).getLsbD 3 = false) :
    ∃ t, exec (.qcfg a) s = .next t ∧ Leaves 4 s t { s.me with binds := bindsBut s.me (s.me.getG a) } :=
  leaves_of_ok (exec_qcfg howed hrep hbind hstream) (by rw [bindQueue_eq, if_pos h3])
theorem qcfg_binds (h3 : (s.me.getG a).getLsbD 3 = true) (hfree : ¬QueueClash s.me (s.me.getG a)) :
    ∃ t, exec (.qcfg a) s = .next t ∧
      Leaves 4 s t { s.me with binds := bindsBut s.me (s.me.getG a) ++ [boundBy (s.me.getG a)] } :=
  leaves_of_ok (exec_qcfg howed hrep hbind hstream) (by rw [bindQueue_eq, if_neg (by simp [h3]), if_neg hfree])
theorem qcfg_clashes (h3 : (s.me.getG a).getLsbD 3 = true) (hclash : QueueClash s.me (s.me.getG a)) :
    exec (.qcfg a) s = traps (illegalOf (.qcfg a)) s := by
  refine traps_of_trap (exec_qcfg howed hrep hbind hstream) ?_ rfl
  rw [bindQueue_eq, if_neg (by simp [h3]), if_pos hclash, illegal_qcfg]

/-- REPGO as it stands where no replay is under way. -/
theorem exec_repgo : exec (.repgo a) s = finish (Res.precise s (
    if s.me.rep.complete = false then .trap (illegalOf (.repgo a)) s
    else .ok (.fall 4) (s.setMe { s.me with
      replay := if (s.me.getG a).toNat = 0 ∨ s.me.rep.buf = [] then none else some { total := (s.me.getG a).toNat } }))) := by
  refine (withRegs_free howed hrep hbind hstream ..).trans (congrArg (fun r => finish (Res.precise s r)) ?_)
  simp only [not_replaying hrep, illegal_repgo, Bool.not_eq_true', Bool.or_eq_true, decide_eq_true_iff, List.isEmpty_iff]
  rfl
theorem repgo_starts (hcomplete : s.me.rep.complete = true) (hbuf : 0 < s.me.rep.buf.length) (hw : s.me.getG a ≠ 0)
    (hr : s.cur.replay = false) : ∃ t, exec (.repgo a) s = .next t ∧ t.cur = s.cur ∧
      t.me = { s.me with replay := some { total := (s.me.getG a).toNat }, pc := t.me.pc, loop := t.me.loop, wait := none } ∧
      t.me.pc = (retire (.fall 4) s).me.pc ∧ t.mem = s.mem := by
  have hstarts : ¬((s.me.getG a).toNat = 0 ∨ s.me.rep.buf = []) := by
    rintro (h | h)
    · exact hw (BitVec.eq_of_toNat_eq h)
    · rw [h] at hbuf
      exact absurd hbuf (by decide)
  have hexec := exec_repgo howed hrep hbind hstream
  rw [if_neg (by simp [hcomplete]), if_neg hstarts] at hexec
  have hme := me_retire_fall (u := s.setMe { s.me with replay := some { total := (s.me.getG a).toNat } }) hr 4
  have hmes := me_retire_fall hr 4
  rw [State.me_setMe] at hme
  obtain ⟨hcur, hmem, -⟩ := retire_around (.fall 4) (s.setMe { s.me with replay := some { total := (s.me.getG a).toNat } })
  exact ⟨_, hexec, hcur, by rw [hme], by rw [hme, hmes], hmem⟩
theorem repgo_zero (hcomplete : s.me.rep.complete = true) (hw : s.me.getG a = 0) :
    ∃ t, exec (.repgo a) s = .next t ∧ Leaves 4 s t s.me := by
  refine leaves_of_ok (exec_repgo howed hrep hbind hstream) ?_
  have hnone : ({ s.me with replay := none } : Ctx) = s.me := by rw [← hrep]
  rw [if_neg (by simp [hcomplete]), if_pos (.inl (by rw [hw]; rfl)), hnone]
theorem repgo_incomplete (hcomplete : s.me.rep.complete = false) : exec (.repgo a) s = traps (illegalOf (.repgo a)) s :=
  traps_of_trap (exec_repgo howed hrep hbind hstream) (if_pos hcomplete) rfl
end

variable (d a b : BitVec 5) (k : BitVec 1)

theorem exec_strm : exec (.strm d a b k) s =
    finish ((startStream (wordR 0x2A 0 b.toNat a.toNat d.toNat k.toNat) (k = 1) d (a.setWidth 4) b s).precise s) := by
  have howes : s.me.owes (.g d) = false := by simp [Ctx.owes, howed]
  refine (withRegs_nothing howed hrep ..).trans ?_
  simp only [not_replaying hrep, howes, Bool.and_false, Bool.false_and]
  rfl
theorem strm_busy (hbusy : StreamBusy s.me (k = 1) d b) : exec (.strm d a b k) s = traps (illegalOf (.strm d a b k)) s := by
  refine traps_of_trap (exec_strm howed hrep d a b k) ?_ rfl
  rw [startStream_busy _ hbusy, illegal_strm]
section
variable (hfree : ¬StreamBusy s.me (k = 1) d b)
include hfree

theorem strm_unloaded (hm : s.me.getTm (a.setWidth 4) = none) : exec (.strm d a b k) s = traps ⟨0x08, none, none⟩ s :=
  traps_of_trap (exec_strm howed hrep d a b k) (startStream_unloaded _ hfree hm) rfl
variable {m : BitVec 512} (hm : s.me.getTm (a.setWidth 4) = some m)
include hm
theorem strm_starts (hok : streamable (k = 1) m = true) : ∃ t, exec (.strm d a b k) s = .next t ∧ Leaves 4 s t { s.me with
    streams := s.me.streams ++ [{ vec := decide (k = 1), reg := d, map := m, q := b.setWidth 2 }] } := by
  refine leaves_of_ok (exec_strm howed hrep d a b k) ?_
  rw [startStream_loaded _ hfree hm, if_pos hok]
theorem strm_bad_map (hok : ¬streamable (k = 1) m = true) : exec (.strm d a b k) s = traps ⟨0x0B, some 1, none⟩ s := by
  refine traps_of_trap (exec_strm howed hrep d a b k) ?_ rfl
  rw [startStream_loaded _ hfree hm, if_neg hok]
  rfl
end
theorem strmoff_ends : ∃ t, exec (.strmoff d k) s = .next t ∧
    Leaves 4 s t { s.me with streams := s.me.streams.filter fun y => ¬(y.vec = decide (k = 1) ∧ y.reg = d) } := by
  refine leaves_of_ok (withRegs_nothing howed hrep ..) ?_
  have hvec (y : Stream) : ((y.vec = true) = (k = 1)) ↔ y.vec = decide (k = 1) := by cases y.vec <;> simp
  have hfilter : (s.me.streams.filter fun y => !(decide ((y.vec = true) = (k = 1)) && decide (y.reg = d))) =
      s.me.streams.filter fun y => ¬(y.vec = decide (k = 1) ∧ y.reg = d) :=
    List.filter_congr fun y _ => by rw [← Bool.decide_and, decide_not, decide_eq_decide.2 (and_congr_left' (hvec y))]
  simp only [not_replaying hrep, Bool.and_false, Bool.false_and, hfilter]
  rfl
theorem repb_records : ∃ t, exec (.repb d a b) s = .next t ∧
    Leaves 4 s t { s.me with rep := { recording := true, sacc := d.setWidth 1, sf := a, sv := b.setWidth 4 } } := by
  refine leaves_of_ok (withRegs_nothing howed hrep ..) ?_
  simp only [not_replaying hrep, ← no_replay hrep]
  rfl
theorem repe_completes (hrec : s.me.rep.recording = true) : ∃ t, exec .repe s = .next t ∧
    Leaves 4 s t { s.me with rep := { s.me.rep with recording := false, complete := true } } := by
  refine leaves_of_ok (withRegs_nothing howed hrep ..) ?_
  simp only [not_replaying hrep, hrec]
  rfl
theorem repe_misplaced (hrec : s.me.rep.recording = false) :
    exec .repe s = traps (illegalOf .repe) (s.setMe { s.me with rep := {} }) := by
  refine (withRegs_nothing howed hrep ..).trans ?_
  simp only [not_replaying hrep, hrec, no_replay hrep, illegal_repe]
  refine finish_trap_untouched rfl ?_ ?_ ?_ ?_ ?_ rfl
  · rw [State.me_setMe]
  · rw [State.me_setMe]
  · rw [State.me_setMe]
  · rw [State.me_setMe]
  · rw [State.here_setMe]
    rfl
end

end Sys2Proof.Machine

namespace Sys2Proof.Settled
open Sys2Proof.Machine

/-- Settles O34, instruction by instruction. -/
theorem queuesStreamsAndReplays : Obligations.QueuesStreamsAndReplays := by
  intro s d a b k howed hrep
  refine ⟨fun hbind hstream => ⟨qcfg_unbinds howed hrep hbind hstream, qcfg_binds howed hrep hbind hstream,
      qcfg_clashes howed hrep hbind hstream, repgo_starts howed hrep hbind hstream, repgo_zero howed hrep hbind hstream,
      repgo_incomplete howed hrep hbind hstream⟩,
    strm_busy howed hrep d a b k, strm_unloaded howed hrep d a b k, fun m hfree hm => ?_, strmoff_ends howed hrep d k,
    repb_records howed hrep d a b, repe_completes howed hrep, repe_misplaced howed hrep⟩
  intro fmt ok
  have hok : streamable (k = 1) m = true ↔ ok := by
    rw [streamable_iff, decide_eq_true_iff, decide_eq_false_iff_not, ne_one_iff]
  exact ⟨fun h => strm_starts howed hrep d a b k hfree hm (hok.2 h), fun h => strm_bad_map howed hrep d a b k hfree hm fun h' => h (hok.1 h')⟩

end Sys2Proof.Settled
end

