-- ==== Sys2Proof/Proofs/LoadingMaps.lean ====
section
/-! SUPPORT. Loading tensor maps (R66, R68, R185); settles O35. -/
namespace Sys2Proof.Machine

section
variable {s s1 : State} {va : Word} {pas : List Nat} {ps : List Place} (h : Reaches s va 64 .read .plain .copy pas ps s1)
  (ha : va.toNat % 64 = 0)
include h ha

/-- A map in this package's memory is read whole, checked, and stands in its register. -/
theorem loadMap_of_reaches (d : BitVec 4) {m : BitVec 512} (hm : BitVec.ofNat 512 (readValue s1 (some s.me.acqAt) ps) = m) :
    ∃ u, Beside false s u ∧ u.mem.bytes = s.mem.bytes ∧ loadMap d va s =
      if mapOk m (s.me.ctl.fgmask.getLsbD d.toNat) = true then .ok (.fall 4) (u.setMe (u.me.setTm d m)) else .trap (badMap 0) s := by
  obtain ⟨pa2, haccess⟩ := h.access_eq (by decide)
  refine ⟨plainRead none pas ps (s1.dropAnswers false),
    (h.beside _).trans (plainRead_beside (s1.dropAnswers false) none pas ps false false), ?_, ?_⟩
  · rw [plainRead_bytes, h.mem]
  · rw [loadMap, if_neg (Nat.not_le.2 h.1.1), if_neg (not_not.2 ha), haccess (fun e => absurd e (by decide)) rfl]
    dsimp only
    rw [readValue_dropAnswers, h.me, hm, bit]
    cases mapOk m (s.me.ctl.fgmask.getLsbD d.toNat) <;> rfl
end

section
variable {s : State} (hs : s.plain = true) (d a : BitVec 5) (i : BitVec 11)
include hs

theorem exec_tmld : exec (.tmld d a i) s = finish (loadMap (d.setWidth 4) (s.me.getG a + i.signExtend 64 * 64) s) := withRegs_plain hs ..
theorem tmld_misaligned (hva : (s.me.getG a + i.signExtend 64 * 64).toNat < 2 ^ 56)
    (ha : (s.me.getG a + i.signExtend 64 * 64).toNat % 64 ≠ 0) :
    exec (.tmld d a i) s = traps (misaligned (s.me.getG a + i.signExtend 64 * 64)) s := by
  rw [exec_tmld hs, loadMap, if_neg (Nat.not_le.2 hva), if_pos ha]
  rfl
end
theorem setTm_setWidth (x : Ctx) (d : BitVec 5) (m : BitVec 512) :
    (x.setTm (d.setWidth 4) m).tm = x.tm.set (d.toNat % 16) (some m) (Nat.mod_lt _ (by decide)) := by
  have hd : (d.setWidth 4).toNat = d.toNat % 16 := BitVec.toNat_setWidth ..
  simp only [Ctx.setTm, hd]
/-- A map that passes its checks is all that a context gains by it. -/
theorem tmld_goes {s u : State} (hr : s.cur.replay = false) (h : Beside false s u) (d : BitVec 5) (m : BitVec 512) {t : State}
    (ht : t = retire (.fall 4) (u.setMe (u.me.setTm (d.setWidth 4) m))) : GoesOn 4 s t ∧
    t.me.tm = s.me.tm.set (d.toNat % 16) (some m) (Nat.mod_lt _ (by decide)) ∧ t.me.g = s.me.g ∧ t.me.f = s.me.f ∧
    t.me.v = s.me.v ∧ t.me.q = s.me.q ∧ t.me.ctl = s.me.ctl := by
  subst ht
  have hme := me_retire_fall (u := u.setMe (u.me.setTm (d.setWidth 4) m)) (by rw [State.setMe_cur, h.cur, hr]) 4
  obtain ⟨at_, floor, tagged, sync, e, -, hsync⟩ := h.me
  obtain rfl := hsync rfl
  have htm : (u.me.setTm (d.setWidth 4) m).tm = s.me.tm.set (d.toNat % 16) (some m) (Nat.mod_lt _ (by decide)) := by
    rw [setTm_setWidth, e]
  rw [State.me_setMe] at hme
  refine ⟨goesOn_setMe (y := u.me.setTm (d.setWidth 4) m) hr h.cur ?_ ?_ ?_ 4, ?_, ?_, ?_, ?_, ?_, ?_⟩
  · rw [e]; rfl
  · rw [e]; rfl
  · rw [e]; rfl
  · rw [hme, ← htm]
  all_goals
    rw [hme, e]
    rfl

end Sys2Proof.Machine

namespace Sys2Proof.Settled
open Sys2Proof.Machine

/-- Settles O35: the map is read whole before it is checked. -/
theorem loadingMaps : Obligations.LoadingMaps := by
  intro s d a i hs hr
  have hd : (d.setWidth 4).toNat = d.toNat % 16 := BitVec.toNat_setWidth ..
  refine ⟨fun hva ha => ⟨_, tmld_misaligned hs d a i hva ha⟩, fun pas ps s1 h ha => ?_⟩
  obtain ⟨u, hu, hbytes, hload⟩ := loadMap_of_reaches h ha (d.setWidth 4) rfl
  have hexec := exec_tmld hs d a i
  rw [hload, hd] at hexec
  refine ⟨fun hok => ?_, fun hbad => ?_⟩
  · rw [if_pos hok] at hexec
    obtain ⟨hgoes, htm, hg, hf, hv, hq, hctl⟩ := tmld_goes hr hu d _ rfl
    exact ⟨_, hexec, hgoes, htm, hg, hf, hv, hq, hctl, by rw [retire_mem, State.setMe_mem, hbytes],
      by rw [retire_mem, State.setMe_mem, hu.full]⟩
  · rwa [if_neg (by simp [hbad])] at hexec

end Sys2Proof.Settled
end

