-- ==== Sys2Proof/Proofs/Sending.lean ====
section
/-! SUPPORT. Messages that a context sends: into its queue, into the spill block, behind its stores (R166 to R170, R332); settles O30. -/
namespace Sys2Proof.Machine

/-! ## What counts of messages touch (R272) -/

/-- t is s but for what the done units of cores and the saved launches have counted. -/
structure OnlyCounts (s t : State) : Prop where
  core : ∀ c, ∃ d, t.core c = { s.core c with done := d }
  rest : ∃ cores launches, t = { s with cores := cores, launches := launches }

namespace OnlyCounts
variable {s t : State}

@[refl] theorem refl (s : State) : OnlyCounts s s := ⟨fun _ => ⟨_, rfl⟩, _, _, rfl⟩
theorem field (h : OnlyCounts s t) {α : Type} {f : Core → α} (hf : ∀ x d, f { x with done := d } = f x) (c : CoreId) :
    f (t.core c) = f (s.core c) := by
  obtain ⟨d, e⟩ := h.core c
  rw [e, hf]
theorem ctxAt (h : OnlyCounts s t) (c : CoreId) (k : CtxId) : t.ctxAt c k = s.ctxAt c k :=
  h.field (f := fun x => x.ctxAt k) (fun _ _ => rfl) c
theorem cur (h : OnlyCounts s t) : t.cur = s.cur := by obtain ⟨_, _, e⟩ := h.rest; rw [e]
theorem mem (h : OnlyCounts s t) : t.mem = s.mem := by obtain ⟨_, _, e⟩ := h.rest; rw [e]
theorem mesh (h : OnlyCounts s t) : t.mesh = s.mesh := by obtain ⟨_, _, e⟩ := h.rest; rw [e]
theorem parts (h : OnlyCounts s t) : t.parts = s.parts := by obtain ⟨_, _, e⟩ := h.rest; rw [e]
theorem me (h : OnlyCounts s t) : t.me = s.me := by rw [State.me, h.cur, h.ctxAt, State.me]
theorem here_field (h : OnlyCounts s t) {α : Type} {f : Core → α} (hf : ∀ x d, f { x with done := d } = f x) : f t.here = f s.here := by
  rw [State.here, h.cur]
  exact h.field hf _
end OnlyCounts

section
variable (s : State)

/-- A core's done unit is rewritten. -/
theorem setCore_done_counts (c : CoreId) (d : DoneUnit) : OnlyCounts s (s.setCore c { s.core c with done := d }) := by
  refine ⟨fun e => ?_, _, _, rfl⟩
  by_cases h : e = c
  · subst h
    exact ⟨d, State.core_setCore ..⟩
  · exact ⟨(s.core e).done, State.core_setCore_other s h _⟩
theorem countSent_counts (c : CoreId) (l : Option Nat) (n : Nat) : OnlyCounts s (s.countSent c l n) := by
  unfold State.countSent
  split
  · exact ⟨fun _ => ⟨_, rfl⟩, _, _, rfl⟩
  · exact setCore_done_counts ..
theorem countIf_counts (b : Bool) (c : CoreId) (l : Option Nat) (n : Nat) : OnlyCounts s (s.countIf b c l n) := by
  cases b
  · exact .refl s
  · exact countSent_counts ..
theorem startIf_counts (b : Bool) (c : CoreId) : OnlyCounts s (s.startIf b c) := by
  cases b
  · exact .refl s
  · exact setCore_done_counts ..
theorem doneMerge_counts (c : CoreId) (w : Word) : OnlyCounts s (s.doneMerge c w) := setCore_done_counts ..
end

/-! ## The context's own stores, performed before a spill (R161, R169) -/

/-- v is s after some stores of the acting context have been performed: bytes and full-empty bits aside, the context lacks the stores, and the
marks of accesses are beside it. -/
structure Drained (s v : State) : Prop where
  cur : v.cur = s.cur
  me : ∃ l, ({ s.me with stores := l } : Ctx).Noted true v.me
  inbox : v.here.inbox = s.here.inbox
  classes : v.here.classes = s.here.classes
  parts : v.parts = s.parts
  clusterPart : v.clusterPart = s.clusterPart
  saved : ∀ l, s.savedLaunch l = none → v.savedLaunch l = none

namespace Drained
variable {s t v : State}

@[refl] theorem refl (s : State) : Drained s s := ⟨rfl, ⟨s.me.stores, .refl ..⟩, rfl, rfl, rfl, rfl, fun _ h => h⟩
theorem trans (h : Drained s t) (h' : Drained t v) : Drained s v := by
  refine ⟨h'.cur.trans h.cur, ?_, h'.inbox.trans h.inbox, h'.classes.trans h.classes, h'.parts.trans h.parts,
    h'.clusterPart.trans h.clusterPart, fun l hl => h'.saved l (h.saved l hl)⟩
  obtain ⟨l, hnote⟩ := h.me
  obtain ⟨l', hnote'⟩ := h'.me
  obtain ⟨_, _, _, _, e, hs, hq⟩ := hnote
  rw [e] at hnote'
  exact ⟨l', .trans ⟨_, _, _, _, rfl, hs, hq⟩ hnote'⟩
end Drained
theorem Beside.drained {acq : Bool} {s t : State} (h : Beside acq s t) : Drained s t :=
  ⟨h.cur, ⟨s.me.stores, h.me.mono⟩, h.inbox, h.classes, h.parts, h.clusterPart, h.saved⟩
theorem setMem_drained (s : State) (m : Memory) : Drained s { s with mem := m } :=
  ⟨rfl, ⟨s.me.stores, .refl ..⟩, rfl, rfl, rfl, rfl, fun _ h => h⟩
theorem dropStore_drained (s : State) (k : Nat) : Drained s (s.dropStore s.cur.core s.cur.ctx k) := by
  have e : s.dropStore s.cur.core s.cur.ctx k = s.setMe { s.me with stores := dropAt s.me.stores k } := rfl
  rw [e]
  refine ⟨rfl, ⟨dropAt s.me.stores k, ?_⟩, ?_, ?_, rfl, rfl, fun _ h => h⟩
  · rw [State.me_setMe]
  · rw [State.here_setMe]
    rfl
  · rw [State.here_setMe]
    rfl
/-- A store's bytes are written through, whole or one by one, and its full-empty bit is set. -/
theorem performStore_drained (s : State) (st : Store) (ps : List Place) : Drained s (performStore s.cur.core s.cur.ctx st ps s) := by
  unfold performStore
  extract_lets tag u
  have hone (w : List (Place × Byte)) (t : State) (ht : t.cur = s.cur) : Beside true t (writeThrough s.cur.core s.cur.ctx w tag t) :=
    writeThrough_beside (by rw [ht]) (by rw [ht]) ..
  have hall (l : List (Place × Byte)) :
      Beside true s (l.foldl (fun t b => writeThrough s.cur.core s.cur.ctx [b] tag t) s) :=
    List.foldlRecOn (motive := Beside true s) l _ (.refl ..) fun t ht b _ => ht.trans (hone [b] t ht.cur)
  have hu : Drained s u := by
    unfold u
    split
    · exact (hone _ s rfl).drained
    · exact (hall _).drained
  split
  · exact hu
  · exact hu.trans (setMem_drained ..)
  · exact hu.trans (setMem_drained ..)
  · exact hu
theorem drainOwn_drained {n : Nat} {s v : State} (h : drainOwn n s = some v) : Drained s v := by
  induction n generalizing s with
  | zero =>
    obtain ⟨-, e⟩ := Option.ite_none_right_eq_some.1 h
    cases e
    rfl
  | succ n ih =>
    rw [drainOwn] at h
    split at h
    · cases h
      rfl
    · next st _ _ =>
      obtain ⟨-, h⟩ := Option.ite_none_left_eq_some.1 h
      split at h
      · cases h
      · next ps _ =>
        dsimp only at h
        obtain ⟨-, h⟩ := Option.ite_none_right_eq_some.1 h
        have hperform := performStore_drained s st ps
        have hdrop := dropStore_drained (performStore s.cur.core s.cur.ctx st ps s) 0
        rw [hperform.cur] at hdrop
        exact (hperform.trans hdrop).trans (ih h)

/-! ## How a sending instruction ends -/

/-- Writing registers looks at registers alone. -/
theorem WritesRegs.sameRegs {put : Ctx → Ctx} (hput : WritesRegs put) {x y : Ctx} (h : SameRegs x y) : SameRegs (put x) (put y) := by
  obtain ⟨G, V, hput⟩ := hput
  obtain ⟨hg, hf, hv, htm, hq⟩ := h
  rw [hput, hput]
  exact ⟨congrArg G hg, hf, congrArg V hv, htm, hq⟩
theorem WritesRegs.queue {put : Ctx → Ctx} (hput : WritesRegs put) (x : Ctx) : (put x).sendq = x.sendq ∧ (put x).seq = x.seq := by
  obtain ⟨G, V, hput⟩ := hput
  rw [hput]
  exact ⟨rfl, rfl⟩
/-- A context once it has used its next sequence number. -/
def Ctx.numbered (x : Ctx) : Ctx := { x with seq := x.seq + 1 }
/-- An instruction of `len` bytes sends a message of its context, and writes registers once that has its number. -/
def SendsOwn (i : Instr) (len : Nat) (s : State) (m : Msg) (put : Ctx → Ctx) : Prop :=
  ∃ fin : State → Res, exec i s = finish (enqueueOrSpill m [] s fun u => fin (u.setMe u.me.numbered)) ∧
    ∀ (u : State) (y : Ctx), (u.setMe y).plain = true → fin (u.setMe y) = .ok (.fall len) (u.setMe (put y))
/-- What such an instruction leaves that ends in w, its number taken. -/
structure SentFrom (len : Nat) (put : Ctx → Ctx) (s w : State) (l : List Store) (t : State) : Prop where
  goes : GoesOn len s t
  regs : SameRegs (put s.me.numbered) t.me
  sendq : t.me.sendq = s.me.sendq
  seq : t.me.seq = s.me.seq + 1
  stores : t.me.stores = l
  mem : t.mem = w.mem
  parts : t.parts = w.parts
  inbox : t.here.inbox = w.here.inbox

section
variable {s : State} (hs : s.plain = true) (hr : s.cur.replay = false) {put : Ctx → Ctx} (hput : WritesRegs put)
include hs hr hput

theorem finish_sent {w : State} (hcur : w.cur = s.cur) {l : List Store} {k : Nat}
    (hnote : ({ s.me with stores := l, serial := k } : Ctx).Noted true w.me) {fin : State → Res} {len : Nat}
    (hfin : ∀ (u : State) (y : Ctx), (u.setMe y).plain = true → fin (u.setMe y) = .ok (.fall len) (u.setMe (put y))) :
    ∃ t, finish (fin (w.setMe w.me.numbered)) = .next t ∧ SentFrom len put s w l t := by
  have hplain : (w.setMe w.me.numbered).plain = true := by
    obtain ⟨_, _, _, _, e, -⟩ := hnote
    rw [State.plain_iff] at hs ⊢
    rw [State.me_setMe, State.setMe_cur, hcur, e]
    exact hs
  obtain ⟨hregs, -, -, hstores, hsendq, hseq, hpc, hloop, hstatus⟩ := hnote.counted_seq.put hput
  have hme := me_retire_fall (u := w.setMe (put w.me.numbered)) (by rw [State.setMe_cur, hcur, hr]) len
  rw [State.me_setMe] at hme
  obtain ⟨-, hmem, hparts, hinbox⟩ := retire_around (.fall len) (w.setMe (put w.me.numbered))
  refine ⟨retire (.fall len) (w.setMe (put w.me.numbered)), ?_, goesOn_setMe hr hcur hpc hloop hstatus len, ?_, ?_, ?_, ?_, hmem,
    hparts, ?_⟩
  · rw [hfin _ _ hplain, finish]
  · rw [hme]
    exact sameRegs_trans (hput.sameRegs (y := ({ s.me with stores := l, serial := k } : Ctx).numbered) ⟨rfl, rfl, rfl, rfl, rfl⟩) hregs
  · rw [hme]
    exact hsendq
  · rw [hme]
    exact hseq
  · rw [hme]
    exact hstores
  · rw [hinbox, State.here_setMe]
    rfl
end

/-! ## A message of the acting context -/

section
variable {i : Instr} {len : Nat} {s : State} {m : Msg} {put : Ctx → Ctx} (hsend : SendsOwn i len s m put)
include hsend

section
variable (hs : s.plain = true)
include hs

/-- With room in the queue the message enters it. -/
theorem sendsOwn_enqueues (hroom : s.me.sendq.length < s.me.ctl.sqdepth.toNat) :
    ∃ t c, exec i s = .next t ∧ Leaves len s t (put { s.me with
      sendq := s.me.sendq ++ [⟨m, s.me.fenceUpTo, c, s.me.relScope, []⟩], seq := s.me.seq + 1 }) := by
  obtain ⟨fin, hexec, hfin⟩ := hsend
  rw [enqueueOrSpill, if_pos hroom] at hexec
  generalize s.isLaunchMsg s.cur.core s.myLaunch m = c at hexec
  have hcounts := countIf_counts (s.setMe (s.me.enqueue m c [])) c s.cur.core none 1
  generalize (s.setMe (s.me.enqueue m c [])).countIf c s.cur.core = w at hexec hcounts
  have hme : w.me = s.me.enqueue m c [] := hcounts.me.trans (State.me_setMe ..)
  have hplain : (w.setMe w.me.numbered).plain = true := by
    rw [State.plain_iff] at hs ⊢
    rw [State.me_setMe, State.setMe_cur, hcounts.cur, hme]
    exact hs
  rw [hfin _ _ hplain, hme] at hexec
  refine ⟨_, c, hexec, leaves_of len hcounts.cur (State.me_setMe ..) hcounts.mem fun e k h => ?_⟩
  have hcur : w.cur = s.cur := hcounts.cur
  rw [State.setMe, State.ctxAt_setCtxAt_other _ (by rwa [hcur]), hcounts.ctxAt, State.setMe, State.ctxAt_setCtxAt_other _ h]
end

/-- With a full queue and no spill block it waits. -/
theorem sendsOwn_waits (hfull : s.me.ctl.sqdepth.toNat ≤ s.me.sendq.length) (hblock : (s.here.cls 5).block = none) :
    exec i s = .next (s.waiting .interlock) := by
  obtain ⟨fin, hexec, -⟩ := hsend
  rwa [enqueueOrSpill, if_neg (Nat.not_lt.2 hfull), hblock] at hexec

variable (hs : s.plain = true) (hr : s.cur.replay = false) (hput : WritesRegs put)
  (hfull : s.me.ctl.sqdepth.toNat ≤ s.me.sendq.length) {b : Word × BitVec 48} (hblock : (s.here.cls 5).block = some b)
include hs hr hput hfull hblock

/-- With a full queue and a spill block it spills once the context's earlier stores have been performed. -/
theorem sendsOwn_spills {v : State} (hdrain : drainOwn s.me.stores.length s = some v) :
    Spilling i len s v b.1 m (put s.me.numbered) [] := by
  obtain ⟨fin, hexec, hfin⟩ := hsend
  rw [enqueueOrSpill, if_neg (Nat.not_lt.2 hfull), hblock] at hexec
  dsimp only at hexec
  rw [spill, hdrain] at hexec
  dsimp only at hexec
  generalize s.isLaunchMsg s.cur.core s.myLaunch m = c at hexec
  have hv := drainOwn_drained hdrain
  obtain ⟨l, hnotev⟩ := hv.me
  have hpart (p : BitVec 6) : v.part p = s.part p := by simp only [State.part, hv.parts]
  have hpartOf : v.partOf v.cur.core = s.partOf s.cur.core := by
    simp only [State.partOf, State.clusterPartition, hv.clusterPart, hv.cur]
  have hcls : (v.here.cls 5).state = (s.here.cls 5).state := by simp only [Core.cls, hv.classes]
  have hlaunch : v.myLaunch = s.myLaunch := by
    obtain ⟨_, _, _, _, e, -⟩ := hnotev
    simp only [State.myLaunch, e]
  intro head u hat
  have hend {w : State} (hw : w.cur = v.cur) (hnote : v.me.Noted true w.me) :=
    finish_sent hs hr hput (hw.trans hv.cur) (l := l) (k := s.me.serial) (hnotev.trans hnote) hfin
  have hdone {w t : State} (ht : SentFrom len put s w l t) : t.me.sendq = (put s.me.numbered).sendq ∧
      t.me.seq = (put s.me.numbered).seq := 
    ⟨ht.sendq.trans (hput.queue s.me.numbered).1.symm, ht.seq.trans (hput.queue s.me.numbered).2.symm⟩
  refine ⟨fun hfullBlock => ?_, fun hroom sA sP u2 hslot => ?_⟩
  · obtain ⟨w, hspill, hcur, hnote, hbytes, hsupq⟩ := spillNow_of_full hat m c hfullBlock
    obtain ⟨t, ht, hsent⟩ := hend hcur hnote
    rw [hspill] at hexec
    rw [hpartOf, hpart] at hsupq
    refine ⟨t, ⟨hexec.trans ht, hsent.goes, hsent.regs, (hdone hsent).1, (hdone hsent).2, fun k => ?_⟩, fun hqueue => ?_⟩
    · rw [hsent.mem, Memory.byte_congr hbytes]
      rfl
    · rw [State.part, hsent.parts]
      exact hsupq hqueue
  · obtain ⟨w, hspill, hcur, hnote, hbytes, hquiet, hdelivery⟩ := spillNow_of_room hat m c hroom hslot
    obtain ⟨t, ht, hsent⟩ := hend hcur hnote
    rw [hspill] at hexec
    rw [hpartOf, hpart, hlaunch, hcls, hv.inbox, hv.cur] at hdelivery
    refine ⟨t, ⟨hexec.trans ht, hsent.goes, hsent.regs, (hdone hsent).1, (hdone hsent).2, fun k => ?_⟩, fun hunarmed => ?_,
      fun harmed hbound hsaved => ?_⟩
    · rw [hsent.mem, hbytes, List.append_nil]
    · rw [hsent.inbox, hquiet hunarmed, hv.inbox]
    · rw [hsent.inbox]
      exact hdelivery harmed hbound (hv.saved _ hsaved)
/-- Where something keeps one of them, the message follows them in the store buffer. -/
theorem sendsOwn_follows (hdrain : drainOwn s.me.stores.length s = none) {pa pa2 : Nat} {s1 : State}
    (hspan : translateSpan s (.data s.cur.core) s.me.ctl.ptroot b.1 32 .rmw s.me.ctl.priv = .ok (pa, pa2, s1)) :
    ∃ t st c, exec i s = .next t ∧ GoesOn len s t ∧ SameRegs (put s.me.numbered) t.me ∧
      t.me.seq = (put s.me.numbered).seq ∧ t.me.sendq = (put s.me.numbered).sendq ∧
      t.mem = s.mem ∧ t.me.stores = s.me.stores ++ [st] ∧ st.va = b.1 ∧ st.kind = .spill m c s.me.ctl.ptroot := by
  obtain ⟨fin, hexec, hfin⟩ := hsend
  rw [enqueueOrSpill, if_neg (Nat.not_lt.2 hfull), hblock] at hexec
  dsimp only at hexec
  rw [spill, hdrain] at hexec
  dsimp only at hexec
  rw [hspan] at hexec
  dsimp only at hexec
  obtain ⟨tlb, rfl⟩ := (translateSpan_tlb ..).of_ok _ hspan
  obtain ⟨t, ht, hsent⟩ := finish_sent (w := State.spillLater { s with tlb := tlb } m (s.isLaunchMsg s.cur.core s.myLaunch m) b.1)
    hs hr hput rfl (by rw [State.spillLater, State.me_setMe]; exact .refl ..) hfin
  exact ⟨t, _, _, hexec.trans ht, hsent.goes, hsent.regs, hsent.seq.trans (hput.queue s.me.numbered).2.symm,
    hsent.sendq.trans (hput.queue s.me.numbered).1.symm, hsent.mem, hsent.stores, rfl, rfl⟩
end

theorem fullQueue_of_sendsOwn {i : Instr} {len : Nat} {s : State} {m : Msg} {put : Ctx → Ctx} (hsend : SendsOwn i len s m put)
    (hs : s.plain = true) (hr : s.cur.replay = false) (hput : WritesRegs put)
    (hfull : s.me.ctl.sqdepth.toNat ≤ s.me.sendq.length) : FullQueue i len s m (put s.me.numbered) :=
  ⟨sendsOwn_waits hsend hfull, fun _ hblock => ⟨fun _ hdrain => sendsOwn_spills hsend hs hr hput hfull hblock hdrain,
    fun hdrain _ _ _ hspan => sendsOwn_follows hsend hs hr hput hfull hblock hdrain hspan⟩⟩

/-! ## SEND and its short form (R74, R167) -/

theorem not_forbidden {s : State} {h : Word} (hpriv : s.me.ctl.priv = 1 ∨ 16 ≤ clsOf h) : ¬(s.me.ctl.priv = 0 ∧ clsOf h < 16) := by
  rintro ⟨hp, hc⟩
  rcases hpriv with hp' | hc'
  · rw [hp] at hp'
    exact absurd hp' (by decide)
  · omega
theorem forbidden_iff {s : State} {h : Word} :
    (decide (s.me.ctl.priv = 0) && decide (descCls h < 16)) = true ↔ s.me.ctl.priv = 0 ∧ clsOf h < 16 := by
  rw [Bool.and_eq_true, decide_eq_true_iff, decide_eq_true_iff, descCls_eq]
/-- The descriptor of the short SEND. -/
theorem shortDesc_eq (h : Word) (k : BitVec 4) :
    cleanDesc (insertBits (insertBits h 22 16 0) 24 14 ((16 + k.toNat) * 64 + 63)) =
      ((h.extractLsb' 38 26 : BitVec 26) ++ (16 + k.setWidth 8 : BitVec 8) ++ (63 : BitVec 6) ++ (0 : BitVec 8) ++
        (h.setWidth 16 : BitVec 16)).setWidth 64 := by
  have hh := h.isLt
  have hk := k.isLt
  have hcls : (16 + k.setWidth 8 : BitVec 8).toNat = 16 + k.toNat := by
    rw [BitVec.toNat_add, BitVec.toNat_setWidth]
    show (16 + k.toNat % 256) % 256 = _
    omega
  have hzero : (0 : BitVec 8).toNat = 0 := rfl
  have hprio : (63 : BitVec 6).toNat = 63 := rfl
  have hclear (x : Word) : (insertBits x 22 16 0).toNat = x.toNat / 2 ^ 38 * 2 ^ 38 + x.toNat % 2 ^ 22 := by
    have hx := x.isLt
    rw [insertBits, nbits, BitVec.toNat_ofNat]
    omega
  have hput (x : Word) : (insertBits x 24 14 ((16 + k.toNat) * 64 + 63)).toNat =
      x.toNat / 2 ^ 38 * 2 ^ 38 + ((16 + k.toNat) * 64 + 63) * 2 ^ 24 + x.toNat % 2 ^ 24 := by
    have hx := x.isLt
    rw [insertBits, nbits, BitVec.toNat_ofNat]
    omega
  have hclean (x : Word) : (cleanDesc x).toNat = x.toNat / 2 ^ 22 * 2 ^ 22 + x.toNat % 2 ^ 16 := by
    have hx := x.isLt
    rw [cleanDesc, insertBits, nbits, BitVec.toNat_ofNat]
    omega
  apply BitVec.eq_of_toNat_eq
  simp only [hclean, hput, hclear, BitVec.toNat_setWidth, toNat_append_add, hcls, hzero, hprio, BitVec.extractLsb'_toNat,
    Nat.shiftRight_eq_div_pow]
  omega

section
variable {s : State} (hs : s.plain = true)
include hs

theorem send_sendsOwn (d a b : BitVec 5) (hpriv : s.me.ctl.priv = 1 ∨ 16 ≤ clsOf (s.me.getG a)) :
    SendsOwn (.send d a b) 4 s ⟨sourceOf s, s.me.getG a &&& 0xFFFFFFFFFFC0FFFF, s.me.payload b⟩
      fun x => x.setG d (s.me.seq.setWidth 64) := by
  refine ⟨fun u => .ok (.fall 4) (u.writeG d (s.me.seq.setWidth 64)), (withRegs_plain hs ..).trans (congrArg finish ?_), fun u y hu => ?_⟩
  · dsimp only
    rw [if_neg (mt forbidden_iff.1 (not_forbidden hpriv)), sendOwn, mySrc_eq, cleanDesc_eq]
    rfl
  · dsimp only
    rw [State.writeG_plain hu, State.me_setMe, State.setMe_setMe]
theorem send_traps (d a b : BitVec 5) (hpriv : s.me.ctl.priv = 0) (hcls : clsOf (s.me.getG a) < 16) :
    exec (.send d a b) s = traps ⟨0x02, none, none⟩ s := by
  refine (withRegs_plain hs ..).trans (?_ : _ = finish (.trap privilegeTrap s))
  exact congrArg finish (if_pos (forbidden_iff.2 ⟨hpriv, hcls⟩))
theorem sendC_sendsOwn (a k : BitVec 4) :
    SendsOwn (.sendC a k) 2 s ⟨sourceOf s, (((s.me.getG (a.setWidth 5)).extractLsb' 38 26 : BitVec 26) ++ (16 + k.setWidth 8 : BitVec 8) ++
      (63 : BitVec 6) ++ (0 : BitVec 8) ++ ((s.me.getG (a.setWidth 5)).setWidth 16 : BitVec 16)).setWidth 64, s.me.payload 1⟩ id := by
  refine ⟨fun u => .ok (.fall 2) u, (withRegs_plain hs ..).trans (congrArg finish ?_), fun _ _ _ => rfl⟩
  rw [sendOwn, mySrc_eq, shortDesc_eq]
  rfl
end

/-! ## SENDR (R170) -/

theorem waiting_sendq (s : State) (w : Wait) : (s.waiting w).me.sendq = s.me.sendq := by
  simp only [State.waiting, State.me_setMe, apply_ite Ctx.sendq, ite_self]
/-- The message that SENDR sends of a record. -/
def recordSent (s : State) (n : Nat) : Msg :=
  ⟨if s.me.ctl.priv = 0 then sourceOf s else recordWord n 0, recordWord n 1 &&& 0xFFFFFFFFFFC0FFFF,
    #v[recordWord n 2, recordWord n 3, recordWord n 4, recordWord n 5, recordWord n 6, recordWord n 7]⟩
theorem ofNat_fld_low (w : Word) : BitVec.ofNat 64 (fld w 0 16) = w &&& 0xFFFF := by
  rw [fld_zero_eq_toNat_and w (by decide), BitVec.ofNat_toNat, BitVec.setWidth_eq]
  rfl

section
variable {s s1 : State} (d : BitVec 5) {va : Word} {pas : List Nat} {ps : List Place} {n : Nat}
  (h : Reaches s va 64 .read .plain .copy pas ps s1) (ha : va.toNat % 64 = 0) (hn : readValue s1 (some s.me.acqAt) ps = n)
include h ha hn

/-- A record in this package's memory is read whole before its class is checked and the queue looked at. -/
theorem sendRecord_of_reaches : sendRecord va d s =
    if s.me.ctl.priv = 0 ∧ clsOf (recordWord n 1) < 16 then .trap privilegeTrap s
    else if s.me.ctl.sqdepth.toNat ≤ s.me.sendq.length then .wait .sendrFull (s1.dropAnswers false)
    else
      let u := plainRead none pas ps (s1.dropAnswers false)
      let c := (s1.dropAnswers false).isLaunchMsg s.cur.core (s1.dropAnswers false).myLaunch (recordSent s n)
      .ok (.fall 4) (((u.setMe { u.me.enqueue (recordSent s n) c [] with
        seq := if s.me.ctl.priv = 0 then u.me.seq + 1 else u.me.seq }).countIf c u.cur.core).writeG d
          ((recordSent s n).src &&& 0xFFFF)) := by
  obtain ⟨pa2, haccess⟩ := h.access_eq (by decide)
  have hcur : (s1.dropAnswers false).cur = s.cur := (h.beside true).cur
  have hsrc : (s1.dropAnswers false).mySrc = sourceOf s := by
    obtain ⟨l, q, e⟩ := h.answered
    rw [e, ← mySrc_eq]
    rfl
  rw [sendRecord, if_neg (Nat.not_le.2 h.1.1), if_neg (not_not.2 ha), haccess (fun e => absurd e (by decide)) rfl]
  dsimp only
  rw [readValue_dropAnswers, h.me, hn, hsrc, hcur]
  simp only [recordWord_eq, cleanDesc_eq, descCls_eq, ofNat_fld_low, Bool.and_eq_true, decide_eq_true_iff]
  rfl
variable {i : Instr} (hexec : exec i s = finish (sendRecord va d s))
include hexec

theorem sendr_traps (hpriv : s.me.ctl.priv = 0) (hcls : clsOf (recordWord n 1) < 16) : exec i s = traps ⟨0x02, none, none⟩ s := by
  rw [hexec, sendRecord_of_reaches d h ha hn, if_pos ⟨hpriv, hcls⟩]
  rfl
variable (hpriv : s.me.ctl.priv = 1 ∨ 16 ≤ clsOf (recordWord n 1))
include hpriv

theorem sendr_waits (hfull : s.me.ctl.sqdepth.toNat ≤ s.me.sendq.length) : ∃ t, exec i s = .next t ∧ t.me.wait = some .sendrFull ∧
    t.me.pc = s.me.pc ∧ SameRegs s.me t.me ∧ t.me.sendq = s.me.sendq ∧ t.mem = s.mem := by
  rw [hexec, sendRecord_of_reaches d h ha hn, if_neg (not_forbidden hpriv), if_pos hfull]
  obtain ⟨hwait, hpc, hregs⟩ := waiting_leaves (s1.dropAnswers false) .sendrFull
  rw [h.me] at hpc hregs
  refine ⟨_, rfl, hwait, hpc, hregs, ?_, ?_⟩
  · rw [waiting_sendq, h.me]
  · rw [waiting_mem, h.mem]
theorem sendr_sends (hs : s.plain = true) (hr : s.cur.replay = false) (hroom : s.me.sendq.length < s.me.ctl.sqdepth.toNat) :
    ∃ t c, exec i s = .next t ∧ GoesOn 4 s t ∧ SameRegs (s.me.setG d ((recordSent s n).src &&& 0xFFFF)) t.me ∧
      t.me.ctl = s.me.ctl ∧ t.mem.bytes = s.mem.bytes ∧ t.mem.full = s.mem.full ∧
      t.me.sendq = s.me.sendq ++ [⟨recordSent s n, s.me.fenceUpTo, c, s.me.relScope, []⟩] ∧
      t.me.seq = if s.me.ctl.priv = 0 then s.me.seq + 1 else s.me.seq := by
  rw [hexec, sendRecord_of_reaches d h ha hn, if_neg (not_forbidden hpriv), if_neg (Nat.not_le.2 hroom)]
  dsimp only
  generalize (s1.dropAnswers false).isLaunchMsg s.cur.core (s1.dropAnswers false).myLaunch (recordSent s n) = c
  generalize (recordSent s n).src &&& 0xFFFF = v
  have hread : Beside false s (plainRead none pas ps (s1.dropAnswers false)) :=
    (h.beside _).trans (plainRead_beside (s1.dropAnswers false) none pas ps false false)
  have hbytes : (plainRead none pas ps (s1.dropAnswers false)).mem.bytes = s.mem.bytes := by rw [plainRead_bytes, h.mem]
  generalize plainRead none pas ps (s1.dropAnswers false) = u at hread hbytes
  generalize hy : ({ u.me.enqueue (recordSent s n) c [] with seq := if s.me.ctl.priv = 0 then u.me.seq + 1 else u.me.seq } : Ctx) = y
  have hcounts := countIf_counts (u.setMe y) c u.cur.core none 1
  generalize (u.setMe y).countIf c u.cur.core = w at hcounts
  have hcur : w.cur = s.cur := hcounts.cur.trans hread.cur
  have hme : w.me = y := hcounts.me.trans (State.me_setMe ..)
  obtain ⟨at_, floor, tagged, sync, e, -, hsync⟩ := hread.me
  obtain rfl := hsync rfl
  rw [e] at hy
  have hplain : w.plain = true := by
    rw [State.plain_iff] at hs ⊢
    rw [hcur, hme, ← hy]
    exact hs
  obtain ⟨G, V, hput⟩ := writesRegs_setG d v
  dsimp only at hput
  have hget := me_retire_fall (u := w.setMe (w.me.setG d v)) (by rw [State.setMe_cur, hcur, hr]) 4
  rw [State.me_setMe, hme, hput, ← hy] at hget
  rw [State.writeG_plain hplain, hput s.me]
  refine ⟨_, c, rfl, goesOn_setMe (y := w.me.setG d v) hr hcur ?_ ?_ ?_ 4, ?_, ?_, ?_, ?_, ?_, ?_⟩
  · rw [hput, hme, ← hy]; rfl
  · rw [hput, hme, ← hy]; rfl
  · rw [hput, hme, ← hy]; rfl
  · rw [hme, hput, ← hy, hget]
    exact ⟨rfl, rfl, rfl, rfl, rfl⟩
  · rw [hme, hput, ← hy, hget]
    rfl
  · rw [retire_mem, State.setMe_mem, hcounts.mem, State.setMe_mem, hbytes]
  · rw [retire_mem, State.setMe_mem, hcounts.mem, State.setMe_mem, hread.full]
  · rw [hme, hput, ← hy, hget]
    rfl
  · rw [hme, hput, ← hy, hget]
end

end Sys2Proof.Machine

namespace Sys2Proof.Settled
open Sys2Proof.Machine

/-- Settles O30: SEND and its short form send a message of the context, and SENDR that of a record. -/
theorem sending : Obligations.Sending := by
  intro s d a b a4 k hs hr x h h4 pay m m4
  have hsend := send_sendsOwn hs d a b
  have hshort := sendC_sendsOwn hs a4 k
  have hput := writesRegs_setG d (s.me.seq.setWidth 64)
  have hexec : exec (.sendr d a) s = finish (sendRecord (s.me.getG a) d s) := withRegs_plain hs ..
  refine ⟨fun hroom => ⟨fun hpriv => ?_, ?_⟩, fun hfull => ⟨fun hpriv => fullQueue_of_sendsOwn (hsend hpriv) hs hr hput hfull,
    fullQueue_of_sendsOwn hshort hs hr writesRegs_id hfull⟩, send_traps hs d a b, fun pas ps s1 h ha =>
      ⟨sendr_traps d h ha rfl hexec, fun hpriv => ⟨fun hroom => ?_, sendr_waits d h ha rfl hexec hpriv⟩⟩⟩
  · obtain ⟨t, c, ht, hleaves⟩ := sendsOwn_enqueues (hsend hpriv) hs hroom
    exact ⟨t, c, ht, hleaves⟩
  · obtain ⟨t, c, ht, hleaves⟩ := sendsOwn_enqueues hshort hs hroom
    exact ⟨t, c, ht, hleaves⟩
  · obtain ⟨t, c, ht, hgoes⟩ := sendr_sends d h ha rfl hexec hpriv hs hr hroom
    exact ⟨t, c, ht, hgoes⟩

end Sys2Proof.Settled
end

