-- ==== Sys2Proof/Proofs/CoreFrames.lean ====
section
/-! SUPPORT. What the accesses of engines (R214, R290), and diversions of messages (R252), leave of the cores; for O32 and O54. -/
namespace Sys2Proof.Machine

/-! ## Lists -/

theorem dropAt_eq_eraseIdx {α : Type} (l : List α) (k : Nat) : dropAt l k = l.eraseIdx k := by
  induction l generalizing k with
  | nil => rfl
  | cons a l ih => cases k with
    | zero => rfl
    | succ k => exact congrArg (a :: ·) (ih k)

/-! ## Engines leave the cores -/

/-- t is s but for memory, the links, the record and the translation caches. -/
structure CoresStay (s t : State) : Prop where
  cur : t.cur = s.cur
  cores : t.cores = s.cores
  steals : t.steals = s.steals
namespace CoresStay
variable {s t u : State}

@[refl] theorem refl (s : State) : CoresStay s s := ⟨rfl, rfl, rfl⟩
theorem trans (h : CoresStay s t) (h' : CoresStay t u) : CoresStay s u :=
  ⟨h'.cur.trans h.cur, h'.cores.trans h.cores, h'.steals.trans h.steals⟩
theorem core (h : CoresStay s t) (c : CoreId) : t.core c = s.core c := by simp only [State.core, h.cores]
theorem here (h : CoresStay s t) : t.here = s.here := by rw [State.here, h.cur, h.core, State.here]
theorem foldl {α : Type} {f : State → α → State} (hf : ∀ s a, CoresStay s (f s a)) (l : List α) (s : State) :
    CoresStay s (l.foldl f s) :=
  List.foldlRecOn (motive := CoresStay s) l f (refl s) fun t ht a _ => ht.trans (hf t a)
end CoresStay
theorem LinesMoved.coresStay {s t : State} (h : LinesMoved s t) : CoresStay s t := by
  obtain ⟨_, _, _, _, _, _, rfl⟩ := h
  exact ⟨rfl, rfl, rfl⟩
theorem transmit_coresStay (s : State) (a b p v : Nat) (c : Came) : CoresStay s (s.transmit a b p v c) := by
  simp only [State.transmit, State.putFlit, State.takeCredit, State.setLink, State.log]
  repeat' split
  all_goals exact ⟨rfl, rfl, rfl⟩
theorem fillHost_coresStay (s : State) (n : Nat) (b : Bool) : CoresStay s (s.fillHost n b) := by
  unfold State.fillHost
  split
  · exact ⟨rfl, rfl, rfl⟩
  · exact ⟨rfl, rfl, rfl⟩
theorem engineSpan_coresStay (s : State) (i : Issuer) (va n : Nat) (a : Acc) :
    Gives (fun r => CoresStay s r.2.2) (engineSpan s i va n a) := by
  simp only [engineSpan]
  split
  · split
    · exact gives_error _
    · exact gives_error _
  · next pa pa2 s1 e =>
    obtain ⟨l, rfl⟩ := (translateSpan_tlb ..).of_ok _ e
    repeat' split
    any_goals exact gives_error _
    refine (gives_ok _).2 (CoresStay.trans ?_ (.foldl (fun t _ => transmit_coresStay t ..) _ _))
    refine .trans (t := { s with tlb := l }) ⟨rfl, rfl, rfl⟩ (.foldl (fun t p => ?_) _ _)
    split
    · exact fillHost_coresStay ..
    · rfl
theorem engineRead_coresStay (s : State) (i : Issuer) (va n : Nat) (c : CoreId) :
    Gives (fun r => CoresStay s r.2) (engineRead s i va n c) := by
  unfold engineRead
  split
  · exact gives_error _
  · next ps s1 e =>
    split
    · exact gives_error _
    · refine (gives_ok _).2 (((engineSpan_coresStay ..).of_ok _ e).trans (LinesMoved.coresStay ?_))
      exact .foldl (fun t n => (noteRequest_moves t n _).trans (recallLine_moves ..)) _ _
theorem engineWrite_coresStay (s : State) (i : Issuer) (va : Nat) (l : List Byte) (full : Bool) (t : Option Tag) (b : Bool) (c : CoreId) :
    Gives (fun r => CoresStay s r.2) (engineWrite s i va l full t b c) := by
  unfold engineWrite
  split
  · exact gives_error _
  · next pas ps s1 e =>
    have hspan : CoresStay s s1 := (engineSpan_coresStay ..).of_ok _ e
    have hstore : CoresStay s (engineStore s1 (some c) (ps.zip l) t b) :=
      (hspan.trans (atHome_moves s1 (some c) ((ps.zip l).map (·.1))).coresStay).trans ⟨rfl, rfl, rfl⟩
    refine (gives_ok _).2 ?_
    dsimp only
    split
    · exact hstore.trans ⟨rfl, rfl, rfl⟩
    · exact hstore

/-! ## Diversions leave contexts and class tables -/

/-- t is s but for the inboxes and done units of cores, for the launches, and for the notices of diverted messages. -/
structure Diverts (s t : State) : Prop where
  cur : t.cur = s.cur
  mem : t.mem = s.mem
  ctx : ∀ c, (t.core c).ctx = (s.core c).ctx
  classes : ∀ c, (t.core c).classes = (s.core c).classes
  mesh : ∃ l, t.mesh = s.mesh ++ l
namespace Diverts
variable {s t u : State}

@[refl] theorem refl (s : State) : Diverts s s := ⟨rfl, rfl, fun _ => rfl, fun _ => rfl, [], (List.append_nil _).symm⟩
theorem trans (h : Diverts s t) (h' : Diverts t u) : Diverts s u := by
  refine ⟨h'.cur.trans h.cur, h'.mem.trans h.mem, fun c => (h'.ctx c).trans (h.ctx c), fun c => (h'.classes c).trans (h.classes c), ?_⟩
  obtain ⟨l, hl⟩ := h.mesh
  obtain ⟨l', hl'⟩ := h'.mesh
  exact ⟨l ++ l', by rw [hl', hl, List.append_assoc]⟩
theorem foldl {α : Type} {f : State → α → State} (hf : ∀ s a, Diverts s (f s a)) (l : List α) (s : State) :
    Diverts s (l.foldl f s) :=
  List.foldlRecOn (motive := Diverts s) l f (refl s) fun t ht a _ => ht.trans (hf t a)
theorem ctxAt (h : Diverts s t) (c : CoreId) (k : CtxId) : t.ctxAt c k = s.ctxAt c k := by
  simp only [State.ctxAt, Core.ctxAt, h.ctx]
theorem cls (h : Diverts s t) (c : CoreId) (k : Nat) : (t.core c).cls k = (s.core c).cls k := by
  simp only [Core.cls, h.classes]
end Diverts
theorem OnlyCounts.diverts {s t : State} (h : OnlyCounts s t) : Diverts s t :=
  ⟨h.cur, h.mem, h.field fun _ _ => rfl, h.field fun _ _ => rfl, [], by rw [h.mesh, List.append_nil]⟩
/-- A core is rewritten but for its contexts and its class table. -/
theorem setCore_diverts (s : State) {c : CoreId} {y : Core} (hctx : y.ctx = (s.core c).ctx) (hclasses : y.classes = (s.core c).classes) :
    Diverts s (s.setCore c y) := by
  have hcore {α : Type} (f : Core → α) (h : f y = f (s.core c)) (d : CoreId) : f ((s.setCore c y).core d) = f (s.core d) := by
    by_cases hd : d = c
    · rw [hd, State.core_setCore, h]
    · rw [State.core_setCore_other s hd]
  exact ⟨rfl, rfl, hcore Core.ctx hctx, hcore Core.classes hclasses, [], (List.append_nil _).symm⟩
theorem log_diverts (s : State) (k src c a : Nat) (d e : Word) : Diverts s (s.log k src c a d e) ∧ (s.log k src c a d e).cores = s.cores := by
  unfold State.log
  split
  · exact ⟨.refl s, rfl⟩
  · exact ⟨⟨rfl, rfl, fun _ => rfl, fun _ => rfl, [], (List.append_nil _).symm⟩, rfl⟩
theorem notice_diverts (s : State) (p : BitVec 6) (n : Nat) (c : CoreId) (k : CtxId) (a b d e f g : Word) :
    Diverts s (s.notice p n c k a b d e f g) := ⟨rfl, rfl, fun _ => rfl, fun _ => rfl, _, rfl⟩
/-- A containment fault leaves every inbox as it is. -/
theorem containment_diverts (s : State) (c : CoreId) (k : CtxId) (r : Nat) (m : Msg) : Diverts s (s.containment c k r m) ∧
    ∀ d, ((s.containment c k r m).core d).inbox = (s.core d).inbox := by
  unfold State.containment
  extract_lets p x queued logged
  have hqueued : Diverts s queued ∧ queued.cores = s.cores := by
    unfold queued
    split
    · exact ⟨⟨rfl, rfl, fun _ => rfl, fun _ => rfl, [], (List.append_nil _).symm⟩, rfl⟩
    · exact ⟨⟨rfl, rfl, fun _ => rfl, fun _ => rfl, [], (List.append_nil _).symm⟩, rfl⟩
  obtain ⟨hlogged, hcores⟩ := log_diverts queued 0x02 (dieOf c).toNat c.toNat 0 0 0
  have hcore (d : CoreId) : logged.core d = s.core d := by simp only [State.core, logged, hcores, hqueued.2]
  have hd : Diverts s logged := hqueued.1.trans hlogged
  split
  · exact ⟨hd, fun d => by rw [hcore]⟩
  · refine ⟨hd.trans ((setCore_diverts (c := c) (y := { logged.core c with noticeOut := true }) logged rfl rfl).trans
      (notice_diverts ..)), fun d => ?_⟩
    change ((logged.setCore c { logged.core c with noticeOut := true }).core d).inbox = _
    by_cases hdc : d = c
    · rw [hdc, State.core_setCore, hcore]
    · rw [State.core_setCore_other _ hdc, hcore]

/-! ## Classes of a core -/

theorem Core.cls_setCls (x : Core) (k : Nat) (e : ClassEntry) : (x.setCls k e).cls k = e := by
  rw [Core.cls, Core.setCls, Assoc.get?_put_same, Option.getD_some]
theorem Core.cls_setCls_other (x : Core) {k j : Nat} (h : j ≠ k) (e : ClassEntry) : (x.setCls k e).cls j = x.cls j := by
  rw [Core.cls, Core.setCls, Assoc.get?_put_other _ h, Core.cls]
theorem Core.cls_release (x : Core) (k n j : Nat) : (x.release k n).cls j = x.cls j := rfl
/-- What a retiring instruction leaves of its core, but for the contexts. -/
theorem retire_here {α : Type} {f : Core → α} (hf : ∀ (x : Core) (v : Vector Ctx 4), f { x with ctx := v } = f x) (fl : Flow) (u : State) :
    f (retire fl u).here = f u.here := by
  obtain ⟨y, hy⟩ := retire_setMe fl u
  rw [hy, State.here_setMe, Core.setCtx, hf]

end Sys2Proof.Machine
end

