-- ==== Sys2Proof/Proofs/TaskInstructions.lean ====
section
/-! SUPPORT. FORK, DONE, CLSBIND and END (R111, R172 to R175, R186, R270); settles O32. -/
namespace Sys2Proof.Machine

/-! ## FORK (R172, R270) -/

/-- The entry that FORK pushes. -/
def forkOf (s : State) (a b : BitVec 5) : Fork :=
  ⟨BitVec.ofNat 8 (clsOf (s.me.getG a)), (s.me.getG a).extractLsb' 24 6, s.me.payload b, s.cur.core, s.cur.ctx, s.me.ctl.priv,
    s.me.serial, s.forkLaunch (clsOf (s.me.getG a))⟩
theorem forkOf_cls (s : State) (a b : BitVec 5) : (forkOf s a b).cls.toNat = clsOf (s.me.getG a) := by
  rw [forkOf, clsOf, BitVec.ofNat_toNat, BitVec.setWidth_eq]
/-- An entry enters the deque of the acting core, counted where it is a launch's. -/
def State.pushFork (s : State) (f : Fork) : State :=
  (s.setHere { s.here with deque := s.here.deque ++ [f] }).countIf f.launch.isSome s.cur.core

theorem pushFork_diverts (s : State) (f : Fork) : Diverts s (s.pushFork f) :=
  (setCore_diverts s (y := { s.here with deque := s.here.deque ++ [f] }) rfl rfl).trans (countIf_counts ..).diverts
theorem pushFork_deque (s : State) (f : Fork) :
    (s.pushFork f).here.deque = s.here.deque ++ [f] ∧ (s.pushFork f).here.spilled = s.here.spilled := by
  have hcounts := countIf_counts (s.setHere { s.here with deque := s.here.deque ++ [f] }) f.launch.isSome s.cur.core none 1
  refine ⟨(hcounts.here_field (f := Core.deque) fun _ _ => rfl).trans ?_, (hcounts.here_field (f := Core.spilled) fun _ _ => rfl).trans ?_⟩
  · rw [State.here_setHere]
  · rw [State.here_setHere]
theorem Diverts.me {s t : State} (h : Diverts s t) : t.me = s.me := by rw [State.me, h.cur, h.ctxAt, State.me]
/-- What falls through after a diversion leaves the acting context gone on. -/
theorem Diverts.leaves {s t : State} (h : Diverts s t) (n : Nat) : Leaves n s (retire (.fall n) t) s.me :=
  leaves_of n h.cur h.me h.mem fun c k _ => h.ctxAt c k

theorem map_fst_zipIdx {α β : Type} (l : List α) (f : α → β) : ((l.zipIdx.map fun p => (p.2, f p.1)).map (·.1)) = List.range l.length := by
  rw [List.map_map, List.range_eq_range', ← List.zipIdx_map_snd 0 l]
  rfl
/-- The oldest 128 entries of a full deque move to a chunk; nothing else of the cores changes. -/
theorem spillDeque_some {c : CoreId} {s u : State} (hfull : 256 ≤ (s.core c).deque.length) (h : spillDeque c s = some u) :
    ∃ v k, CoresStay s v ∧ k.marks.map (·.1) = List.range 128 ∧
      u = v.setCore c { s.core c with deque := (s.core c).deque.drop 128, spilled := (s.core c).spilled ++ [k] } := by
  obtain ⟨l, -, h⟩ := Option.bind_eq_some_iff.1 h
  obtain ⟨va, -, h⟩ := Option.bind_eq_some_iff.1 h
  dsimp only at h
  split at h
  · cases h
  · next v hwrite =>
    have hv := (engineWrite_coresStay ..).of_ok _ hwrite
    refine ⟨v, ⟨spillIssuer c l, va, ((s.core c).deque.take 128).zipIdx.map fun f => (f.2, f.1.upTo, f.1.launch)⟩, hv, ?_, ?_⟩
    · refine (map_fst_zipIdx _ fun f : Fork => (f.upTo, f.launch)).trans ?_
      rw [List.length_take, Nat.min_eq_left (Nat.le_trans (by decide) hfull)]
    · rw [← Option.some.inj h, hv.core]

section
variable {s : State} (hs : s.plain = true) (a b : BitVec 5)
include hs

theorem fork_traps (hpriv : s.me.ctl.priv = 0) (hcls : clsOf (s.me.getG a) < 16) :
    exec (.fork a b) s = traps ⟨0x02, none, none⟩ s :=
  (withRegs_plain hs ..).trans (congrArg finish (if_pos (forbidden_iff.2 ⟨hpriv, hcls⟩)))

variable (hpriv : s.me.ctl.priv = 1 ∨ 16 ≤ clsOf (s.me.getG a))
include hpriv

/-- A deque with room, or once its oldest entries have moved, takes the entry. -/
theorem fork_pushes {u : State} (hu : (if 256 ≤ s.here.deque.length then spillDeque s.cur.core s else some s) = some u) :
    exec (.fork a b) s = .next (retire (.fall 4) (u.pushFork (forkOf s a b))) := by
  refine (withRegs_plain hs ..).trans ?_
  rw [if_neg (mt forbidden_iff.1 (not_forbidden hpriv)), hu, descCls_eq, ofNat_fld]
  rfl
theorem fork_waits (hfull : 256 ≤ s.here.deque.length) (hspill : spillDeque s.cur.core s = none) :
    exec (.fork a b) s = .next (s.waiting .interlock) := by
  refine (withRegs_plain hs ..).trans ?_
  rw [if_neg (mt forbidden_iff.1 (not_forbidden hpriv)), if_pos hfull, hspill]
  rfl
end

/-- FORK on a full deque whose oldest entries have moved. -/
theorem fork_spills {s u : State} (hs : s.plain = true) (a b : BitVec 5) (hpriv : s.me.ctl.priv = 1 ∨ 16 ≤ clsOf (s.me.getG a))
    (hfull : 256 ≤ s.here.deque.length) (hspill : spillDeque s.cur.core s = some u) :
    ∃ t k, exec (.fork a b) s = .next t ∧ t.me = (retire (.fall 4) s).me ∧ t.mem = u.mem ∧
      t.here.deque = s.here.deque.drop 128 ++ [forkOf s a b] ∧ t.here.spilled = s.here.spilled ++ [k] ∧
      k.marks.map (·.1) = List.range 128 := by
  have hexec := fork_pushes hs a b hpriv ((if_pos hfull).trans hspill)
  obtain ⟨v, k, hv, hmarks, hu⟩ := spillDeque_some hfull hspill
  have hcur : u.cur = s.cur := by rw [hu, State.setCore_cur, hv.cur]
  have hhere : u.here = { s.here with deque := s.here.deque.drop 128, spilled := s.here.spilled ++ [k] } := by
    rw [State.here, hcur, hu, State.core_setCore, State.here]
  have hme : u.me = s.me := by
    rw [State.me, hcur, hu, State.ctxAt, State.core_setCore]
    rfl
  have hpushed := pushFork_diverts u (forkOf s a b)
  obtain ⟨hdeque, hspilled⟩ := pushFork_deque u (forkOf s a b)
  refine ⟨_, k, hexec, me_retire_congr (hpushed.cur.trans hcur) (hpushed.me.trans hme) _, ?_, ?_, ?_, hmarks⟩
  · rw [retire_mem, hpushed.mem]
  · rw [retire_here (f := Core.deque) fun _ _ => rfl, hdeque, hhere]
  · rw [retire_here (f := Core.spilled) fun _ _ => rfl, hspilled, hhere]

/-! ## DONE (R173) -/

theorem merge_code (d : DoneUnit) (w : Word) : (d.merge w).code.toNat = max d.code.toNat (w.extractLsb' 56 8).toNat := by
  rw [DoneUnit.merge, ofNat_fld, fld_eq_toNat_extract]
  dsimp only
  split
  · next h => rw [Nat.max_eq_right (Nat.le_of_lt h)]
  · next h => rw [Nat.max_eq_left (Nat.le_of_not_lt h)]
theorem merge_flags (d : DoneUnit) (w : Word) : (d.merge w).flags = d.flags ||| w.extractLsb' 48 8 := by
  rw [DoneUnit.merge, ← ofNat_fld]
theorem done_doneMerge (s : State) (w : Word) : (s.doneMerge s.cur.core w).here.done = s.here.done.merge w := by
  rw [State.here, State.doneMerge, State.setCore_cur, State.core_setCore, State.here]
/-- What DONE leaves, whatever its length. -/
theorem doneMerge_merges (s : State) (n : Nat) (w : Word) :
    let t := retire (.fall n) (s.doneMerge s.cur.core w)
    Leaves n s t s.me ∧ t.here.done.code.toNat = max s.here.done.code.toNat (w.extractLsb' 56 8).toNat ∧
      t.here.done.flags = s.here.done.flags ||| w.extractLsb' 48 8 ∧ t.here.done.count = s.here.done.count + w.extractLsb' 0 48 := by
  dsimp only
  rw [retire_here (f := Core.done) fun _ _ => rfl, done_doneMerge]
  refine ⟨(doneMerge_counts ..).diverts.leaves n, merge_code .., merge_flags .., ?_⟩
  rw [← BitVec.setWidth_eq_extractLsb' (by decide)]
  rfl

/-! ## Binding a class (R175) -/

section
variable (x : Core) (now cls : Nat) (h : Handler) (block : Option (Word × BitVec 48))

theorem bind_other {j : Nat} (hj : j ≠ cls) (op : Nat) : (x.bind now cls op h block).cls j = x.cls j ∧
    (x.bind now cls op h block).ctx = x.ctx := by
  have hset (e : ClassEntry) : (x.setCls cls e).cls j = x.cls j := x.cls_setCls_other hj e
  unfold Core.bind
  dsimp only
  repeat' split
  all_goals exact ⟨hset _, rfl⟩
theorem bind_unbinds : ((x.bind now cls 0 h block).cls cls).state = .unbound := by
  rw [Core.bind, Core.cls_setCls]
/-- OP 01, after which the entry is bound. -/
theorem bind_binds : (x.bind now cls 1 h block).cls cls =
    { x.cls cls with state := .bound, handler := h, block := block, old := [], gen := (x.cls cls).gen + 1 } := by
  rw [Core.bind, Core.cls_release, Core.cls_setCls]

section
variable {x cls}

/-- OP 10 on an entry that no task holds is OP 01. -/
theorem bind_of_unbound (hstate : (x.cls cls).state = .unbound) : x.bind now cls 2 h block = x.bind now cls 1 h block := by
  simp only [Core.bind, hstate]
  rfl
theorem bind_of_idle (hstate : (x.cls cls).state = .bound) (hrun : x.running cls = []) :
    x.bind now cls 2 h block = x.bind now cls 1 h block := by
  simp only [Core.bind, hstate, hrun]
  rfl
theorem bind_of_busy (hstate : (x.cls cls).state = .bound) (hrun : x.running cls ≠ []) : (x.bind now cls 2 h block).cls cls =
    { x.cls cls with state := .draining, pending := h, pendingBlock := block, old := x.running cls } := by
  simp only [Core.bind, hstate, List.isEmpty_iff, if_neg hrun, Core.cls_setCls]
theorem bind_of_draining (hstate : (x.cls cls).state = .draining) (hold : (x.cls cls).old ≠ []) : (x.bind now cls 2 h block).cls cls =
    { x.cls cls with state := .draining, pending := h, pendingBlock := block, old := (x.cls cls).old } := by
  simp only [Core.bind, hstate, List.isEmpty_iff, if_neg hold, Core.cls_setCls]
end
end

/-- Holding messages of a class that is not bound leaves contexts and class tables. -/
theorem holdLost_diverts (s : State) (c : CoreId) (k : CtxId) (cls : Nat) : Diverts s (s.holdLost c k cls) := by
  unfold State.holdLost
  extract_lets x r
  split
  · rfl
  · exact .trans (setCore_diverts (y := { x with inbox := r.1 }) s rfl rfl)
      (.foldl (fun t e => (startIf_counts t ..).diverts.trans (containment_diverts ..).1) _ _)

/-! ## CLSBIND's checks (R174) -/

/-- A class 5 binding, which alone names a spill block. -/
def BindsFive (w : Word) : Prop := w.extractLsb' 0 8 = 5 ∧ (w.extractLsb' 16 2 = 1 ∨ w.extractLsb' 16 2 = 2)
/-- The binding word has no reserved bit or value, and no spill block stands where none may. -/
def AttrFormed (d : BitVec 5) (w : Word) : Prop := w.extractLsb' 18 46 = 0 ∧ w.extractLsb' 15 1 = 0 ∧ w.extractLsb' 16 2 ≠ 3 ∧
  w.extractLsb' 8 6 ≠ 63 ∧ (d = 0 ∨ BindsFive w)
/-- The handler that the binding word gives. -/
def boundHandler (h w : Word) : Handler := ⟨h, w.extractLsb' 14 1, w.extractLsb' 8 6⟩
/-- The spill block that the operands give. -/
def boundBlock (d : BitVec 5) (w blk : Word) (root : BitVec 48) : Option (Word × BitVec 48) :=
  if (fld w 0 8 = 5 && (fld w 16 2 = 1 || fld w 16 2 = 2)) && d ≠ 0 then some (blk, root) else none

theorem fld_eq_iff {w n : Nat} (x : BitVec w) (lo len : Nat) (hn : n < 2 ^ len) : fld x lo len = n ↔ x.extractLsb' lo len = BitVec.ofNat len n := by
  rw [fld_eq_toNat_extract, ← BitVec.toNat_inj, BitVec.toNat_ofNat, Nat.mod_eq_of_lt hn]
theorem bit_iff {w : Nat} (x : BitVec w) (i : Nat) : bit x i = true ↔ x.extractLsb' i 1 ≠ 0 := by
  have hzero : fld x i 1 = 0 ↔ x.extractLsb' i 1 = 0 := fld_eq_iff x i 1 (by decide)
  rw [Ne, ← hzero, bit, fld, nbits, BitVec.getLsbD, Nat.testBit_eq_decide_div_mod_eq, decide_eq_true_iff]
  omega
theorem eq_one_iff (v : BitVec 1) : v = 1 ↔ ¬v = 0 := by revert v; decide
theorem eq_zero_iff (v : BitVec 1) : v = 0 ↔ ¬v = 1 := by revert v; decide
theorem bindsFive_iff (w : Word) : (decide (fld w 0 8 = 5) && (decide (fld w 16 2 = 1) || decide (fld w 16 2 = 2))) = true ↔ BindsFive w := by
  rw [Bool.and_eq_true, Bool.or_eq_true, decide_eq_true_iff, decide_eq_true_iff, decide_eq_true_iff, fld_eq_iff _ _ _ (by decide),
    fld_eq_iff _ _ _ (by decide), fld_eq_iff _ _ _ (by decide)]
  rfl
theorem illegal_clsbind (d a b : BitVec 5) : illegal (wordR 0x28 4 b.toNat a.toNat d.toNat 0) = illegalOf (.clsbind d a b) := by
  have hd := d.isLt
  have ha := a.isLt
  have hb := b.isLt
  have hword : wordR 0x28 4 b.toNat a.toNat d.toNat 0 % 2 ^ 32 = encode (.clsbind d a b) := by
    simp only [wordR, word32, encode]
    omega
  rw [illegal, hword, illegalOf]

section
variable {s : State} {word : Nat} {d : BitVec 5} {h w blk : Word}

open Classical in
/-- CLSBIND's checks in their order, and what follows them. -/
theorem bindClass_eq : bindClass word d h w blk s =
    if ¬AttrFormed d w then .trap (illegal word) s else
    if ¬(s.me.ctl.priv = 1 ∨ 16 ≤ (w.extractLsb' 0 8).toNat ∧ w.extractLsb' 14 1 = 0) then .trap privilegeTrap s else
    if ¬(w.extractLsb' 16 2 = 0 ∨ h.toNat % 2 = 0) then .trap (misaligned h) s else
    if ¬(¬BindsFive w ∨ d = 0 ∨ blk.toNat % 64 = 0) then .trap (misaligned blk) s else
    if ¬(w.extractLsb' 16 2 = 0 ∨ h.toNat < 2 ^ 56) then .trap (rangeFault 2 s.me.ctl.priv h) s else
    if s.me.stores ≠ [] then .wait .interlock s else
    .ok (.fall 4) ((s.setHere (s.here.bind s.now (w.extractLsb' 0 8).toNat (w.extractLsb' 16 2).toNat (boundHandler h w)
      (boundBlock d w blk s.me.ctl.ptroot))).holdLost s.cur.core s.cur.ctx (w.extractLsb' 0 8).toNat) := by
  have hfive := bindsFive_iff w
  have hop0 : fld w 16 2 = 0 ↔ w.extractLsb' 16 2 = 0 := fld_eq_iff _ _ _ (by decide)
  have hop3 : fld w 16 2 = 3 ↔ w.extractLsb' 16 2 = 3 := fld_eq_iff _ _ _ (by decide)
  have hprio : fld w 8 6 = 63 ↔ w.extractLsb' 8 6 = 63 := fld_eq_iff _ _ _ (by decide)
  rw [bindClass]
  refine if_congr ?_ rfl (if_congr ?_ rfl (if_congr ?_ rfl (if_congr ?_ rfl (if_congr ?_ rfl (if_congr ?_ rfl ?_)))))
  · simp only [AttrFormed, Bool.or_eq_true, Bool.and_eq_true, decide_eq_true_iff, Bool.not_eq_true', ← Bool.not_eq_true, hfive,
      fld_ne_zero_iff, bit_iff, hop3, hprio, ne_eq, not_and_or, not_or, not_not, or_assoc]
  · simp only [Bool.or_eq_true, Bool.and_eq_true, decide_eq_true_iff, ofNat_fld, fld_eq_toNat_extract w 0 8,
      eq_one_iff (w.extractLsb' 14 1), eq_zero_iff s.me.ctl.priv, ← Nat.not_le, not_or, not_and_or]
  · simp only [Bool.and_eq_true, decide_eq_true_iff, ne_eq, hop0, not_or, Nat.mod_two_ne_zero]
  · simp only [Bool.and_eq_true, decide_eq_true_iff, ne_eq, hfive, not_or, not_not, and_assoc]
  · simp only [Bool.and_eq_true, decide_eq_true_iff, ne_eq, hop0, not_or, Nat.not_lt]
  · simp
  · rw [← fld_eq_toNat_extract w 0 8, ← fld_eq_toNat_extract w 16 2, boundHandler, ← ofNat_fld w 14 1, ← ofNat_fld w 8 6]
    rfl
end

/-! ## What CLSBIND leaves (R175) -/

/-- An entry is bound as the operands say. -/
def ClassEntry.BoundBy (u : ClassEntry) (d : BitVec 5) (h w blk : Word) (root : BitVec 48) : Prop :=
  u.state = .bound ∧ u.handler = boundHandler h w ∧ (w.extractLsb' 0 8 = 5 → u.block = if d = 0 then none else some (blk, root))
theorem boundBlock_of_five {w : Word} (hcls : w.extractLsb' 0 8 = 5) (hop : w.extractLsb' 16 2 = 1 ∨ w.extractLsb' 16 2 = 2)
    (d : BitVec 5) (blk : Word) (root : BitVec 48) : boundBlock d w blk root = if d = 0 then none else some (blk, root) := by
  rw [boundBlock, (bindsFive_iff w).2 ⟨hcls, hop⟩, Bool.true_and]
  by_cases hd : d = 0
  · rw [if_pos hd, if_neg (by simp [hd])]
  · rw [if_neg hd, if_pos (decide_eq_true hd)]
theorem bind_boundBy {w : Word} (hop : w.extractLsb' 16 2 = 1 ∨ w.extractLsb' 16 2 = 2) (x : Core) (now cls : Nat) (d : BitVec 5)
    (h blk : Word) (root : BitVec 48) :
    ((x.bind now cls 1 (boundHandler h w) (boundBlock d w blk root)).cls cls).BoundBy d h w blk root := by
  rw [bind_binds]
  exact ⟨rfl, rfl, fun hcls => boundBlock_of_five hcls hop ..⟩

/-- What OP 00, 01 and 10 make of the entry. -/
theorem binds_of_table {x : Core} {now : Nat} {d : BitVec 5} {h w blk : Word} {root : BitVec 48} {u : ClassEntry}
    (hu : u = (x.bind now (w.extractLsb' 0 8).toNat (w.extractLsb' 16 2).toNat (boundHandler h w) (boundBlock d w blk root)).cls
      (w.extractLsb' 0 8).toNat) :
    let op := w.extractLsb' 16 2
    let cls := (w.extractLsb' 0 8).toNat
    let e := x.cls cls
    (op = 0 → u.state = .unbound) ∧ (op = 1 → u.BoundBy d h w blk root) ∧ (op = 2 → e.state = .unbound → u.BoundBy d h w blk root) ∧
      (op = 2 → e.state = .draining → e.old ≠ [] → u.state = .draining ∧ u.pending = boundHandler h w ∧ u.old = e.old) ∧
      (op = 2 → e.state = .bound → x.running cls = [] → u.BoundBy d h w blk root) ∧
      (op = 2 → e.state = .bound → x.running cls ≠ [] →
        u.state = .draining ∧ u.pending = boundHandler h w ∧ u.handler = e.handler) := by
  intro op cls e
  have hbinds := fun hop => bind_boundBy (w := w) hop x now cls d h blk root
  have hat (n : BitVec 2) (hop : w.extractLsb' 16 2 = n) :
      u = (x.bind now cls n.toNat (boundHandler h w) (boundBlock d w blk root)).cls cls := by rw [hu, hop]
  have hu2 (hop : op = 2) : u = (x.bind now cls 2 (boundHandler h w) (boundBlock d w blk root)).cls cls := hat 2 hop
  refine ⟨fun hop => ?_, fun hop => ?_, fun hop hstate => ?_, fun hop hstate hold => ?_, fun hop hstate hrun => ?_,
    fun hop hstate hrun => ?_⟩
  · rw [hat 0 hop]
    exact bind_unbinds ..
  · rw [hat 1 hop]
    exact hbinds (.inl hop)
  · rw [hu2 hop, bind_of_unbound _ _ _ hstate]
    exact hbinds (.inr hop)
  · rw [hu2 hop, bind_of_draining _ _ _ hstate hold]
    exact ⟨rfl, rfl, rfl⟩
  · rw [hu2 hop, bind_of_idle _ _ _ hstate hrun]
    exact hbinds (.inr hop)
  · rw [hu2 hop, bind_of_busy _ _ _ hstate hrun]
    exact ⟨rfl, rfl, rfl⟩

section
variable {s : State} (hs : s.plain = true) (d a b : BitVec 5)
include hs

theorem exec_clsbind : exec (.clsbind d a b) s =
    finish (bindClass (wordR 0x28 4 b.toNat a.toNat d.toNat 0) d (s.me.getG a) (s.me.getG b) (s.me.getG d) s) := withRegs_plain hs ..

theorem clsbind_illegal (hformed : ¬AttrFormed d (s.me.getG b)) : exec (.clsbind d a b) s = traps (illegalOf (.clsbind d a b)) s := by
  rw [exec_clsbind hs, bindClass_eq, if_pos hformed, illegal_clsbind]
  rfl
section
variable (hformed : AttrFormed d (s.me.getG b))
include hformed

theorem clsbind_forbidden (hpermitted : ¬(s.me.ctl.priv = 1 ∨
    16 ≤ ((s.me.getG b).extractLsb' 0 8).toNat ∧ (s.me.getG b).extractLsb' 14 1 = 0)) :
    exec (.clsbind d a b) s = traps ⟨0x02, none, none⟩ s := by
  rw [exec_clsbind hs, bindClass_eq, if_neg (not_not.2 hformed), if_pos hpermitted]
  rfl
variable (hpermitted : s.me.ctl.priv = 1 ∨ 16 ≤ ((s.me.getG b).extractLsb' 0 8).toNat ∧ (s.me.getG b).extractLsb' 14 1 = 0)
include hpermitted

theorem clsbind_odd (heven : ¬((s.me.getG b).extractLsb' 16 2 = 0 ∨ (s.me.getG a).toNat % 2 = 0)) :
    exec (.clsbind d a b) s = traps ⟨0x04, none, some (s.me.getG a)⟩ s := by
  rw [exec_clsbind hs, bindClass_eq, if_neg (not_not.2 hformed), if_neg (not_not.2 hpermitted), if_pos heven]
  rfl
variable (heven : (s.me.getG b).extractLsb' 16 2 = 0 ∨ (s.me.getG a).toNat % 2 = 0)
include heven

theorem clsbind_misaligned (haligned : ¬(¬BindsFive (s.me.getG b) ∨ d = 0 ∨ (s.me.getG d).toNat % 64 = 0)) :
    exec (.clsbind d a b) s = traps ⟨0x04, none, some (s.me.getG d)⟩ s := by
  rw [exec_clsbind hs, bindClass_eq, if_neg (not_not.2 hformed), if_neg (not_not.2 hpermitted), if_neg (not_not.2 heven),
    if_pos haligned]
  rfl
variable (haligned : ¬BindsFive (s.me.getG b) ∨ d = 0 ∨ (s.me.getG d).toNat % 64 = 0)
include haligned

theorem clsbind_far (hnear : ¬((s.me.getG b).extractLsb' 16 2 = 0 ∨ (s.me.getG a).toNat < 2 ^ 56)) :
    exec (.clsbind d a b) s = traps (rangeFault 2 s.me.ctl.priv (s.me.getG a)) s := by
  rw [exec_clsbind hs, bindClass_eq, if_neg (not_not.2 hformed), if_neg (not_not.2 hpermitted), if_neg (not_not.2 heven),
    if_neg (not_not.2 haligned), if_pos hnear]
  rfl
variable (hnear : (s.me.getG b).extractLsb' 16 2 = 0 ∨ (s.me.getG a).toNat < 2 ^ 56)
include hnear

theorem clsbind_waits (hstores : s.me.stores ≠ []) : exec (.clsbind d a b) s = .next (s.waiting .interlock) := by
  rw [exec_clsbind hs, bindClass_eq, if_neg (not_not.2 hformed), if_neg (not_not.2 hpermitted), if_neg (not_not.2 heven),
    if_neg (not_not.2 haligned), if_neg (not_not.2 hnear), if_pos hstores]
  rfl
/-- With every check passed the class table of the core is that of R175. -/
theorem clsbind_binds (hstores : s.me.stores = []) : ∃ t, exec (.clsbind d a b) s = .next t ∧ Leaves 4 s t s.me ∧
    ∀ k, t.here.cls k = (s.here.bind s.now ((s.me.getG b).extractLsb' 0 8).toNat ((s.me.getG b).extractLsb' 16 2).toNat
      (boundHandler (s.me.getG a) (s.me.getG b)) (boundBlock d (s.me.getG b) (s.me.getG d) s.me.ctl.ptroot)).cls k := by
  rw [exec_clsbind hs, bindClass_eq, if_neg (not_not.2 hformed), if_neg (not_not.2 hpermitted), if_neg (not_not.2 heven),
    if_neg (not_not.2 haligned), if_neg (not_not.2 hnear), if_neg (not_not.2 hstores)]
  generalize ((s.me.getG b).extractLsb' 0 8).toNat = cls
  generalize ((s.me.getG b).extractLsb' 16 2).toNat = op
  generalize boundHandler (s.me.getG a) (s.me.getG b) = h
  generalize boundBlock d (s.me.getG b) (s.me.getG d) s.me.ctl.ptroot = block
  have hctx : (s.here.bind s.now cls op h block).ctx = s.here.ctx := (bind_other s.here s.now cls h block (Nat.succ_ne_self cls) op).2
  generalize s.here.bind s.now cls op h block = y at hctx
  have hheld : Diverts (s.setHere y) ((s.setHere y).holdLost s.cur.core s.cur.ctx cls) := holdLost_diverts ..
  generalize (s.setHere y).holdLost s.cur.core s.cur.ctx cls = u at hheld
  have hsame (c : CoreId) (k : CtxId) : (s.setHere y).ctxAt c k = s.ctxAt c k := by
    by_cases hc : c = s.cur.core
    · rw [hc, State.setHere, State.ctxAt, State.core_setCore, Core.ctxAt, hctx]
      rfl
    · rw [State.setHere, State.ctxAt, State.core_setCore_other s hc, State.ctxAt]
  refine ⟨_, rfl, leaves_of 4 hheld.cur (hheld.me.trans (hsame ..)) hheld.mem fun c k _ => (hheld.ctxAt c k).trans (hsame c k), fun k => ?_⟩
  rw [retire_here (f := fun x => x.cls k) fun _ _ => rfl, State.here, hheld.cur, hheld.cls, ← State.here, State.here_setHere]
end
end

/-! ## END (R111, R186, R269) -/

/-- What neither the class table nor a release of messages touches stays. -/
theorem drained_field {α : Type} {f : Core → α} (hset : ∀ x k e, f (Core.setCls x k e) = f x)
    (hrelease : ∀ x k n, f (Core.release x k n) = f x) (x : Core) (now : Nat) (k : CtxId) : f (x.drained now k) = f x := by
  refine List.foldlRecOn (motive := fun y : Core => f y = f x) _ _ rfl fun y hy e _ => ?_
  dsimp only
  split
  · exact hy
  · split
    · rw [hrelease, hset, hy]
    · rw [hset, hy]
theorem endTask_ctxAt (s : State) (c : CoreId) (k : CtxId) : (s.endTask c k).ctxAt c k = (s.ctxAt c k).ended ∧
    ∀ d j, d ≠ c ∨ j ≠ k → (s.endTask c k).ctxAt d j = s.ctxAt d j := by
  have hctx (d : CoreId) (j : CtxId) : (s.endTask c k).ctxAt d j = (s.setCtxAt c k (s.ctxAt c k).ended).ctxAt d j := by
    rw [State.endTask, State.ctxAt]
    by_cases h : d = c
    · rw [h, State.core_setCore, Core.ctxAt, drained_field (f := Core.ctx) (fun _ _ _ => rfl) fun _ _ _ => rfl]
      rfl
    · rw [State.core_setCore_other _ h]
      rfl
  refine ⟨(hctx c k).trans (State.ctxAt_setCtxAt ..), fun d j h => (hctx d j).trans (State.ctxAt_setCtxAt_other s h _)⟩
theorem end_ends {s : State} (hs : s.plain = true) (hrep : s.me.replay = none) : ∃ t, finish (endNow s) = .next t ∧ t.cur = s.cur ∧
    t.mem = s.mem ∧ t.me = s.me.ended ∧ ∀ c k, c ≠ s.cur.core ∨ k ≠ s.cur.ctx → t.ctxAt c k = s.ctxAt c k := by
  obtain ⟨howed, -⟩ := State.plain_iff.1 hs
  obtain ⟨hended, hothers⟩ := endTask_ctxAt s s.cur.core s.cur.ctx
  have hidle : (!s.me.owed.isEmpty || s.me.replaying) = false := by simp [howed, Ctx.replaying, hrep]
  rw [endNow, hidle]
  change ∃ t, Host.Outcome.next (retire .own (s.endTask s.cur.core s.cur.ctx)) = .next t ∧ _
  generalize hu : s.endTask s.cur.core s.cur.ctx = u at hended hothers
  have hcur : u.cur = s.cur := by rw [← hu]; rfl
  have hmem : u.mem = s.mem := by rw [← hu]; rfl
  have hme : u.me = s.me.ended := by rw [State.me, hcur, hended, State.me]
  obtain ⟨hcurt, hmemt, -⟩ := retire_around .own u
  refine ⟨_, rfl, hcurt.trans hcur, hmemt.trans hmem, ?_, fun c k h => (retire_ctxAt_other hcur .own h).trans (hothers c k h)⟩
  rw [retire, hme]
  split
  · rw [State.me_setMe]
    rfl
  · rw [State.me_setMe]
    rfl

end Sys2Proof.Machine

namespace Sys2Proof.Settled
open Sys2Proof.Machine

/-- Settles O32, instruction by instruction. -/
theorem taskInstructions : Obligations.TaskInstructions := by
  intro s d a b a4 hs x h w here forked
  refine ⟨fun hpriv => ⟨fun hroom => ?_, fun hfull hspill => ?_, fun u hfull hspill => ?_⟩, fork_traps hs a b, fun i n g hi => ?_, ?_,
    fun i hi hrep => ?_⟩
  · obtain ⟨hdeque, hspilled⟩ := pushFork_deque s (forkOf s a b)
    refine ⟨_, forkOf s a b, fork_pushes hs a b hpriv (if_neg (Nat.not_le.2 hroom)), (pushFork_diverts ..).leaves 4,
      ⟨forkOf_cls .., rfl, rfl, rfl, rfl, rfl⟩, ?_, ?_⟩
    · rw [retire_here (f := Core.deque) fun _ _ => rfl, hdeque]
    · rw [retire_here (f := Core.spilled) fun _ _ => rfl, hspilled]
  · obtain ⟨hwait, hpc, -⟩ := waiting_leaves s .interlock
    refine ⟨_, fork_waits hs a b hpriv hfull hspill, hwait, hpc, ?_⟩
    rw [State.waiting, State.here_setMe]
    rfl
  · obtain ⟨t, k, ht, hme, hmem, hdeque, hspilled, hmarks⟩ := fork_spills hs a b hpriv hfull hspill
    exact ⟨t, forkOf s a b, k, ht, hme, ⟨forkOf_cls .., rfl, rfl, rfl, rfl, rfl⟩, hmem, hdeque, hspilled, hmarks⟩
  · obtain ⟨rfl, rfl, rfl⟩ | ⟨rfl, rfl, rfl⟩ := hi
    · exact ⟨_, withRegs_plain hs .., doneMerge_merges ..⟩
    · exact ⟨_, withRegs_plain hs .., doneMerge_merges ..⟩
  · refine ⟨clsbind_illegal hs d a b, clsbind_forbidden hs d a b,
      fun hformed hpermitted heven => ⟨_, clsbind_odd hs d a b hformed hpermitted heven⟩,
      fun hformed hpermitted heven haligned => ⟨_, clsbind_misaligned hs d a b hformed hpermitted heven haligned⟩,
      fun hformed hpermitted heven haligned hnear => ⟨_, clsbind_far hs d a b hformed hpermitted heven haligned hnear⟩,
      clsbind_waits hs d a b, fun hformed hpermitted heven haligned hnear hstores => ?_⟩
    obtain ⟨t, ht, hleaves, htable⟩ := clsbind_binds hs d a b hformed hpermitted heven haligned hnear hstores
    exact ⟨t, ht, hleaves, fun k hk => (htable k).trans (bind_other _ _ _ _ _ hk _).1, binds_of_table (htable _)⟩
  · have hexec : exec i s = finish (endNow s) := by
      obtain rfl | rfl := hi
      · rfl
      · rfl
    rw [hexec]
    exact end_ends hs hrep

end Sys2Proof.Settled
end

