-- ==== Sys2Proof/Proofs/Arrivals.lean ====
section
/-! SUPPORT. Messages that arrive, class-7 control, and what leaves a core (R168, R176, R177, R257 to R260, R268); for O54. -/
namespace Sys2Proof.Machine

/-! ## One core alone -/

theorem setCore_onlyCore (s : State) (c : CoreId) (y : Core) : OnlyCore s (s.setCore c y) c :=
  ⟨fun _ hd => State.core_setCore_other s hd y, rfl⟩
theorem setCtxAt_onlyCore (s : State) (c : CoreId) (k : CtxId) (x : Ctx) : OnlyCore s (s.setCtxAt c k x) c := setCore_onlyCore ..
theorem OnlyCore.trans {s t u : State} {c : CoreId} (h : OnlyCore s t c) (h' : OnlyCore t u c) : OnlyCore s u c :=
  ⟨fun d hd => (h'.1 d hd).trans (h.1 d hd), h'.2.trans h.2⟩

/-! ## A message that is diverted (R252, R258, R259) -/

theorem containment_part (s : State) (c : CoreId) (k : CtxId) (r : Nat) (m : Msg) :
    let p := s.partOf c
    ((s.part p).supq.length < 512 → ((s.containment c k r m).part p).supq = (s.part p).supq ++ [⟨BitVec.ofNat 8 r, m⟩]) ∧
      (512 ≤ (s.part p).supq.length → ((s.containment c k r m).part p).drops = (s.part p).drops + 1) := by
  refine ⟨(containment_kept s c k r m).2, fun hfull => ?_⟩
  unfold State.containment
  extract_lets p x queued logged
  have hparts : logged.parts = queued.parts := (log_kept queued 0x02 (dieOf c).toNat c.toNat 0 0 0).2
  have hpart (t : State) (ht : t.parts = queued.parts) : (t.part p).drops = x.drops + 1 := by
    have hq : queued = s.setPart p { x with drops := x.drops + 1 } := if_neg (Nat.not_lt.2 hfull)
    rw [State.part, ht, ← State.part, hq, State.part_setPart]
  split
  · exact hpart _ hparts
  · exact hpart _ hparts
/-- A message is diverted to the supervisor queue of a core's partition, or dropped and counted. -/
def Refuses (s t : State) (c : CoreId) (r : Nat) (m : Msg) : Prop :=
  (t.core c).inbox = (s.core c).inbox ∧
  ((s.part (s.partOf c)).supq.length < 512 →
    (t.part (s.partOf c)).supq = (s.part (s.partOf c)).supq ++ [⟨BitVec.ofNat 8 r, m⟩]) ∧
  (512 ≤ (s.part (s.partOf c)).supq.length → (t.part (s.partOf c)).drops = (s.part (s.partOf c)).drops + 1)
theorem startIf_containment_refuses (s : State) (b : Bool) (c : CoreId) (k : CtxId) (r : Nat) (m : Msg) :
    Refuses s ((s.startIf b c).containment c k r m) c r m := by
  have hcounts := startIf_counts s b c
  have hinbox : ((s.startIf b c).core c).inbox = (s.core c).inbox := hcounts.field (f := Core.inbox) (fun _ _ => rfl) c
  obtain ⟨cores, launches, e⟩ := hcounts.rest
  generalize s.startIf b c = v at e hinbox
  have hpartOf : v.partOf c = s.partOf c := by rw [e]; rfl
  have hpart (p : BitVec 6) : v.part p = s.part p := by rw [e]; rfl
  have hqueue := containment_part v c k r m
  dsimp only at hqueue
  rw [hpartOf, hpart] at hqueue
  exact ⟨((containment_diverts v c k r m).2 c).trans hinbox, hqueue⟩

/-! ## Entering a core (R258 to R260) -/

section
variable {s : State} {c : CoreId} {e : Entry}

theorem accept_of_bound (hbound : ((s.core c).cls e.msg.cls).state = .bound) : s.accept c e = s.setCore c { s.core c with
    inbox := (s.core c).inbox ++ [{ e with held := false, stamp := (s.core c).clock, age := 0, since := s.now }]
    clock := (s.core c).clock + 1 } := by
  rw [State.accept, hbound, decide_eq_true rfl, Bool.or_true, if_pos rfl]
variable (hstart : e.start = none) (hunbound : ((s.core c).cls e.msg.cls).state ≠ .bound)
include hstart hunbound

theorem accept_of_room (hroom : (s.core c).heldCount e.msg.cls < 8) :
    s.accept c e = s.setCore c { s.core c with inbox := (s.core c).inbox ++ [{ e with held := true }] } := by
  rw [State.accept, if_neg (by simp [hstart, hunbound]), if_pos hroom]
theorem accept_of_full (hfull : 8 ≤ (s.core c).heldCount e.msg.cls) :
    s.accept c e = (s.startIf e.counted c).containment c (if e.inner then e.msg.sctx else 0) 2 e.msg := by
  rw [State.accept, if_neg (by simp [hstart, hunbound]), if_neg (Nat.not_lt.2 hfull)]
end
theorem accept_diverts (c : CoreId) (e : Entry) (s : State) : Diverts s (s.accept c e) := by
  unfold State.accept
  dsimp only
  split
  · exact setCore_diverts s rfl rfl
  · split
    · exact setCore_diverts s rfl rfl
    · exact (startIf_counts ..).diverts.trans (containment_diverts ..).1
theorem enter_diverts (c : CoreId) (f : Flight) (s : State) : Diverts s (enter c f s) := by
  unfold enter
  dsimp only
  split
  · exact (startIf_counts ..).diverts.trans (containment_diverts ..).1
  · split
    · exact setCore_diverts s rfl rfl
    · split
      · split
        · exact setCore_diverts s rfl rfl
        · rfl
      · exact accept_diverts ..
theorem enter_of_cap {c : CoreId} {f : Flight} {s : State} (hcap : f.msg.cap ≠ (s.core c).pkey) :
    enter c f s = (s.startIf f.counted c).containment c 0 1 f.msg := by
  rw [enter, if_pos (by simp [hcap])]
/-- The entry that an admitted message becomes. -/
def Flight.entry (f : Flight) : Entry := { msg := f.msg, counted := f.counted, deflt := f.deflt, rels := f.rels }
theorem enter_of_admitted {c : CoreId} {f : Flight} {s : State} (hcap : f.msg.cap = (s.core c).pkey) (h3 : f.msg.cls ≠ 3)
    (h7 : f.msg.cls ≠ 7) : enter c f s = s.accept c f.entry := by
  rw [enter, if_neg (by simp [hcap, h3, h7]), if_neg h3, if_neg h7]
  rfl

/-! ## MESSAGE_ARRIVAL (R257, R258) -/

/-- The arrival of a containment notice touches one mark of a core. -/
theorem noticeArrived_core (s : State) (f : Flight) (c : CoreId) : ∃ b, (s.noticeArrived f).core c = { s.core c with noticeOut := b } := by
  unfold State.noticeArrived
  split
  · by_cases h : c = f.msg.score
    · exact ⟨false, by rw [h, State.core_setCore]⟩
    · exact ⟨(s.core c).noticeOut, State.core_setCore_other s h _⟩
  · exact ⟨_, rfl⟩
theorem noticeArrived_rest (s : State) (f : Flight) : ∃ cores, s.noticeArrived f = { s with cores := cores } := by
  unfold State.noticeArrived
  split
  · exact ⟨_, rfl⟩
  · exact ⟨s.cores, rfl⟩

section
variable {s : State} {k : Nat} {f : Flight}

theorem messageArrival_enters (hf : s.mesh[k]? = some f) (hfirst : firstOfSender s.mesh k f = true) (hreach : s.unreachable f.msg = false)
    (hpkg : f.msg.pkg = s.pkg.toNat) (hroom : (s.core f.msg.core).roomFor f.msg.vnet = true) :
    exec (.messageArrival k) s = .next (enter f.msg.core f (({ s with mesh := dropAt s.mesh k }).noticeArrived f)) := by
  show execMessageArrival k s = _
  rw [execMessageArrival, hf]
  dsimp only
  rw [hfirst, hreach, hroom, if_neg (by decide), if_neg (by decide), if_neg (not_not.2 hpkg), if_neg (by decide)]
/-- What an arriving message leaves, admitted or refused. -/
theorem messageArrival_leaves (hf : s.mesh[k]? = some f) (hfirst : firstOfSender s.mesh k f = true) (hreach : s.unreachable f.msg = false)
    (hpkg : f.msg.pkg = s.pkg.toNat) (hroom : (s.core f.msg.core).roomFor f.msg.vnet = true) :
    let here := s.core f.msg.core
    let admitted := f.msg.cap = here.pkey ∧ f.msg.cls ≠ 3 ∧ f.msg.cls ≠ 7
    ∃ t, exec (.messageArrival k) s = .next t ∧ t.mesh.take (s.mesh.length - 1) = dropAt s.mesh k ∧ t.mem = s.mem ∧
      (admitted → (here.cls f.msg.cls).state = .bound → ∃ e, (t.core f.msg.core).inbox = here.inbox ++ [e] ∧ e.msg = f.msg ∧
        e.held = false ∧ e.stamp = here.clock ∧ t.mesh = dropAt s.mesh k) ∧
      (admitted → (here.cls f.msg.cls).state ≠ .bound → here.heldCount f.msg.cls < 8 →
        ∃ e, (t.core f.msg.core).inbox = here.inbox ++ [e] ∧ e.msg = f.msg ∧ e.held = true ∧ t.mesh = dropAt s.mesh k) ∧
      (f.msg.cap ≠ here.pkey → Refuses s t f.msg.core 1 f.msg) ∧
      (admitted → (here.cls f.msg.cls).state ≠ .bound → 8 ≤ here.heldCount f.msg.cls → Refuses s t f.msg.core 2 f.msg) := by
  intro here admitted
  have hexec := messageArrival_enters hf hfirst hreach hpkg hroom
  obtain ⟨b, hcore⟩ := noticeArrived_core { s with mesh := dropAt s.mesh k } f f.msg.core
  obtain ⟨cores, hrest⟩ := noticeArrived_rest { s with mesh := dropAt s.mesh k } f
  generalize ({ s with mesh := dropAt s.mesh k } : State).noticeArrived f = u at hexec hcore hrest
  have hmesh : u.mesh = dropAt s.mesh k := by rw [hrest]
  have hcore : u.core f.msg.core = { here with noticeOut := b } := hcore
  have hcls : (u.core f.msg.core).cls f.msg.cls = here.cls f.msg.cls := by rw [hcore]; rfl
  have hheld : (u.core f.msg.core).heldCount f.msg.cls = here.heldCount f.msg.cls := by rw [hcore]; rfl
  have hrefuses {t : State} {r : Nat} (h : Refuses u t f.msg.core r f.msg) : Refuses s t f.msg.core r f.msg := by
    rw [Refuses, hcore, hrest] at h
    exact h
  have hadmitted (h : admitted) : enter f.msg.core f u = u.accept f.msg.core f.entry :=
    enter_of_admitted (by rw [hcore]; exact h.1) h.2.1 h.2.2
  have hdiverts := enter_diverts f.msg.core f u
  refine ⟨_, hexec, ?_, ?_, fun h hbound => ?_, fun h hunbound hfew => ?_, fun hcap => ?_, fun h hunbound hmany => ?_⟩
  · obtain ⟨l, hl⟩ := hdiverts.mesh
    obtain ⟨hlt, -⟩ := List.getElem?_eq_some_iff.1 hf
    have hlength : (dropAt s.mesh k).length = s.mesh.length - 1 := by rw [dropAt_eq_eraseIdx, List.length_eraseIdx_of_lt hlt]
    rw [hl, hmesh, ← hlength, List.take_left]
  · rw [hdiverts.mem, hrest]
  · rw [hadmitted h, accept_of_bound (by rw [← hbound]; exact congrArg ClassEntry.state hcls), State.core_setCore, hcore]
    exact ⟨_, rfl, rfl, rfl, rfl, hmesh⟩
  · rw [hadmitted h, accept_of_room rfl (by rw [← hcls] at hunbound; exact hunbound) (by rw [← hheld] at hfew; exact hfew),
      State.core_setCore, hcore]
    exact ⟨_, rfl, rfl, rfl, hmesh⟩
  · rw [enter_of_cap (by rw [hcore]; exact hcap)]
    exact hrefuses (startIf_containment_refuses ..)
  · rw [hadmitted h, accept_of_full rfl (by rw [← hcls] at hunbound; exact hunbound) (by rw [← hheld] at hmany; exact hmany)]
    exact hrefuses (startIf_containment_refuses ..)
end

/-! ## Class-7 control (R268) -/

theorem heldControl_acts {s : State} {c : CoreId} {m : Msg} {rest : List Msg} (hcontrol : (s.core c).control = m :: rest)
    (hheld : (s.ctxAt c m.heldCtx).status = .held) (act : CtxId → Msg → State → State) :
    heldControl c m.action act s = act m.heldCtx m (s.setCore c { s.core c with control := rest }) := by
  rw [heldControl, hcontrol]
  dsimp only
  rw [if_neg (not_not.2 rfl)]
  exact if_pos hheld
theorem makeReady_leaves (s : State) (c : CoreId) (k : CtxId) (y : Ctx) : OnlyCore s (s.makeReady c k y) c ∧
    (s.makeReady c k y).ctxAt c k = { y with status := .ready, readyAt := (s.core c).clock } ∧
    ((s.makeReady c k y).core c).control = (s.core c).control := by
  refine ⟨setCore_onlyCore .., ?_, ?_⟩
  · rw [State.makeReady, State.ctxAt, State.core_setCore]
    exact Core.ctxAt_setCtx ..
  · rw [State.makeReady, State.core_setCore]
    rfl

theorem ctxAt_setControl (s : State) (core : CoreId) (rest : List Msg) (k : CtxId) :
    (s.setCore core { s.core core with control := rest }).ctxAt core k = s.ctxAt core k := by
  rw [State.ctxAt, State.core_setCore]
  rfl

section
variable {s : State} {core : CoreId} {m : Msg} {rest : List Msg} (hcontrol : (s.core core).control = m :: rest)
  (hheld : (s.ctxAt core m.heldCtx).status = .held)
include hcontrol hheld

/-- A context that an action makes ready, as the action leaves it. -/
theorem heldControl_makesReady (f : Ctx → Msg → Ctx) :
    let t := heldControl core m.action (fun k m s => s.makeReady core k (f (s.ctxAt core k) m)) s
    OnlyCore s t core ∧ (t.core core).control = rest ∧
      t.ctxAt core m.heldCtx = { f (s.ctxAt core m.heldCtx) m with status := .ready, readyAt := (s.core core).clock } := by
  dsimp only
  rw [heldControl_acts hcontrol hheld, ctxAt_setControl]
  obtain ⟨honly, hctx, hrest⟩ := makeReady_leaves (s.setCore core { s.core core with control := rest }) core m.heldCtx
    (f (s.ctxAt core m.heldCtx) m)
  rw [State.core_setCore] at hctx hrest
  exact ⟨(setCore_onlyCore ..).trans honly, hrest, hctx⟩
theorem heldContextRetry_leaves (hact : m.action = 0) (hagain : (s.ctxAt core m.heldCtx).ctl.estat.getLsbD 1 = false) :
    let x := s.ctxAt core m.heldCtx
    ∃ t, exec (.heldContextRetry core) s = .next t ∧ OnlyCore s t core ∧ (t.core core).control = rest ∧
      (t.ctxAt core m.heldCtx).status = .ready ∧ (t.ctxAt core m.heldCtx).pc = x.ctl.epc ∧
      (t.ctxAt core m.heldCtx).ctl = { x.ctl with priv := x.ctl.estat.setWidth 1 } ∧ SameRegs x (t.ctxAt core m.heldCtx) := by
  obtain ⟨honly, hrest, hctx⟩ := heldControl_makesReady hcontrol hheld fun x _ => returnFromTrap x
  rw [hact] at honly hrest hctx
  refine ⟨_, rfl, honly, hrest, ?_⟩
  rw [hctx, returnFromTrap, hagain]
  exact ⟨rfl, rfl, rfl, rfl, rfl, rfl, rfl, rfl⟩
theorem heldContextEnter_leaves (hact : m.action = 1) :
    let x := s.ctxAt core m.heldCtx
    ∃ t, exec (.heldContextEnter core) s = .next t ∧ OnlyCore s t core ∧ (t.core core).control = rest ∧
      (t.ctxAt core m.heldCtx).status = .ready ∧ (t.ctxAt core m.heldCtx).pc = m.pay.get 1 ∧
      (t.ctxAt core m.heldCtx).ctl = { x.ctl with priv := 1 } ∧ SameRegs x (t.ctxAt core m.heldCtx) := by
  obtain ⟨honly, hrest, hctx⟩ := heldControl_makesReady hcontrol hheld fun x m => { x with pc := m.operand, ctl := { x.ctl with priv := 1 } }
  rw [hact] at honly hrest hctx
  refine ⟨_, rfl, honly, hrest, ?_⟩
  rw [hctx]
  exact ⟨rfl, rfl, rfl, rfl, rfl, rfl, rfl, rfl⟩
theorem heldContextTerminate_leaves (hact : m.action = 2) (howed : (s.ctxAt core m.heldCtx).owed = [])
    (hreplay : ∀ r, (s.ctxAt core m.heldCtx).replay = some r → r.halted = true) :
    ∃ t, exec (.heldContextTerminate core) s = .next t ∧ OnlyCore s t core ∧ (t.core core).control = rest ∧
      (t.ctxAt core m.heldCtx).status = .free ∧
      (t.core core).done.code.toNat = max (s.core core).done.code.toNat ((m.pay.get 1).extractLsb' 56 8).toNat ∧
      (t.core core).done.count = (s.core core).done.count + (m.pay.get 1).setWidth 48 := by
  have hexec : exec (.heldContextTerminate core) s =
      .next (heldControl core 2 (fun k m s => (s.doneMerge core m.operand).endTask core k) s) := by
    have hidle : ((s.ctxAt core m.heldCtx).replay.any fun r => !r.halted) = false := by
      cases h : (s.ctxAt core m.heldCtx).replay with
      | none => rfl
      | some r => simp [hreplay r h]
    show execHeldContextTerminate core s = _
    rw [execHeldContextTerminate, hcontrol]
    exact congrArg Host.Outcome.next (if_neg (by simp [howed, hidle]))
  rw [← hact, heldControl_acts hcontrol hheld] at hexec
  have hfree (u : State) : ((u.endTask core m.heldCtx).ctxAt core m.heldCtx).status = .free := by
    rw [(endTask_ctxAt u core m.heldCtx).1]
    rfl
  have hfield {α : Type} {f : Core → α} (hset : ∀ x k e, f (Core.setCls x k e) = f x) (hrelease : ∀ x k n, f (Core.release x k n) = f x)
      (hctx : ∀ x k y, f (Core.setCtx x k y) = f x) (u : State) : f ((u.endTask core m.heldCtx).core core) = f (u.core core) := by
    rw [State.endTask, State.core_setCore, drained_field hset hrelease, State.setCtxAt, State.core_setCore, hctx]
  refine ⟨_, hexec, ?_, ?_, hfree _, ?_, ?_⟩
  · exact ((setCore_onlyCore ..).trans (setCore_onlyCore ..)).trans ((setCtxAt_onlyCore ..).trans (setCore_onlyCore ..))
  · rw [hfield (f := Core.control) (fun _ _ _ => rfl) (fun _ _ _ => rfl) (fun _ _ _ => rfl), State.doneMerge, State.core_setCore,
      State.core_setCore]
  · rw [hfield (f := Core.done) (fun _ _ _ => rfl) (fun _ _ _ => rfl) (fun _ _ _ => rfl), State.doneMerge, State.core_setCore,
      State.core_setCore]
    exact merge_code ..
  · rw [hfield (f := Core.done) (fun _ _ _ => rfl) (fun _ _ _ => rfl) (fun _ _ _ => rfl), State.doneMerge, State.core_setCore,
      State.core_setCore]
    rfl
end

/-! ## Leaving a send queue (R168, R403) -/

/-- The oldest message of a network leaves its place. -/
theorem findIdx?_oldest {pre post : List Queued} {q : Queued} {n : Nat} (hq : q.msg.vnet = n) (hpre : ∀ p ∈ pre, p.msg.vnet ≠ n) :
    ((pre ++ q :: post).findIdx? fun p => p.msg.vnet = n) = some pre.length := by
  have hnone : (pre.findIdx? fun p => p.msg.vnet = n) = none := List.findIdx?_eq_none_iff.2 fun p hp => by simp [hpre p hp]
  rw [List.findIdx?_append, hnone, List.findIdx?_cons, decide_eq_true hq]
  simp
/-- A notice of hardware is one message to the supervisor of its partition. -/
theorem refusedNotice_noticed (s : State) (c : CoreId) (k : CtxId) (i : Nat) (va : Word) (m : Option Msg) :
    Noticed s (s.refusedNotice c k i va m) c k 1 := by
  refine ⟨_, rfl, rfl, ?core, fld_mkDesc_cls .., fld_mkDesc_prio .., getLsbD_mkSrc_prv .., ?score, ?sctx⟩
  case core => exact ofNat_eq_of_eq_toNat (fld_mkDesc_core ..)
  case score => exact ofNat_eq_of_eq_toNat (fld_mkSrc_core ..)
  case sctx => exact ofNat_eq_of_eq_toNat (fld_mkSrc_ctx ..)

section
variable {s : State} {core : CoreId} {ctx : CtxId} {pre post : List Queued} {q : Queued} {vnet : BitVec 2}
  (hqueue : (s.ctxAt core ctx).sendq = pre ++ q :: post) (hq : q.msg.vnet = vnet.toNat) (hpre : ∀ p ∈ pre, p.msg.vnet ≠ vnet.toNat)
  (hstores : ∀ st ∈ (s.ctxAt core ctx).stores, q.upTo ≤ st.serial)
include hqueue hq hpre hstores

theorem sendqTransmit_eq : exec (.sendqTransmit core ctx vnet) s =
    let s1 := s.setCtxAt core ctx { s.ctxAt core ctx with sendq := pre ++ post }
    .next (if !s.dieUp (dieOf core).toNat then s1
      else if s.unreachable q.msg then s1.refusedNotice core ctx 2 0 (some q.msg)
      else { s1 with mesh := s1.mesh ++ [{ msg := q.msg, counted := q.counted, who := some (core, ctx), rels := q.rels ++
        (q.scope.map fun sc => (⟨{ core := core, ctx := ctx, scope := sc, page := 0, launch := none, time := s.mem.time }, none⟩ :
          Release)).toList }] }) := by
  have hdone : (s.ctxAt core ctx).storesDone q.upTo = true := List.all_eq_true.2 fun st hst => decide_eq_true (hstores st hst)
  have hat : (pre ++ q :: post)[pre.length]? = some q := by simp
  have hdrop : dropAt (pre ++ q :: post) pre.length = pre ++ post := by
    rw [dropAt_eq_eraseIdx, List.eraseIdx_append_of_length_le (Nat.le_refl _), Nat.sub_self]
    rfl
  show execSendqTransmit core ctx vnet s = _
  rw [execSendqTransmit, hqueue, findIdx?_oldest hq hpre]
  dsimp only
  rw [hat]
  dsimp only
  rw [hdone, if_neg (by decide), hdrop]
theorem sendqTransmit_leaves : (s.dieUp (dieOf core).toNat = false → exec (.sendqTransmit core ctx vnet) s =
      .next (s.setCtxAt core ctx { s.ctxAt core ctx with sendq := pre ++ post })) ∧
    (s.dieUp (dieOf core).toNat = true → ∃ t r, exec (.sendqTransmit core ctx vnet) s = .next t ∧
      t.ctxAt core ctx = { s.ctxAt core ctx with sendq := pre ++ post } ∧ t.mem = s.mem ∧
      (s.unreachable q.msg = false → t.mesh = s.mesh ++
        [{ msg := q.msg, counted := q.counted, who := some (core, ctx), rels := q.rels ++ r }] ∧ (q.scope = none → r = [])) ∧
      (s.unreachable q.msg = true → Noticed s t core ctx 1)) := by
  rw [sendqTransmit_eq hqueue hq hpre hstores]
  dsimp only
  generalize hx : ({ s.ctxAt core ctx with sendq := pre ++ post } : Ctx) = x
  refine ⟨fun hdown => ?_, fun hup => ?_⟩
  · rw [hdown]
    rfl
  · rw [hup, if_neg (by decide)]
    cases hreach : s.unreachable q.msg with
    | false =>
      refine ⟨_, _, rfl, State.ctxAt_setCtxAt s core ctx x, rfl, fun _ => ⟨rfl, fun hscope => ?_⟩, fun h => absurd h (by decide)⟩
      rw [hscope]
      rfl
    | true =>
      exact ⟨_, [], rfl, State.ctxAt_setCtxAt s core ctx x, rfl, fun h => absurd h (by decide), fun _ =>
        refusedNotice_noticed (s.setCtxAt core ctx x) ..⟩
end

/-! ## Neighbours (R176, R177) -/

theorem getNq_setNq (x : Core) (q : BitVec 2) (l : List Sent) : (x.setNq q l).getNq q = l := by
  simp [Core.getNq, Core.setNq, Vector.get_eq_getElem]
theorem nsendArrival_lands {s : State} {k : Nat} {core : CoreId} {q : BitVec 2} {v : Sent} (hv : s.vecs[k]? = some (core, q, v))
    (hfirst : ∀ w ∈ s.vecs.take k, ¬(w.1 = core ∧ w.2.1 = q)) : ∃ t, exec (.nsendArrival k) s = .next t ∧ OnlyCore s t core ∧
      t.vecs = dropAt s.vecs k ∧ (t.core core).getNq q = (s.core core).getNq q ++ [v] := by
  have hnone : ((s.vecs.take k).any fun w => w.1 = core && w.2.1 = q) = false :=
    List.any_eq_false.2 fun w hw => by simpa using hfirst w hw
  have hexec : exec (.nsendArrival k) s = .next (({ s with vecs := dropAt s.vecs k }).setCore core
      ((s.core core).setNq q ((s.core core).getNq q ++ [v]))) := by
    show execNsendArrival k s = _
    rw [execNsendArrival, hv]
    dsimp only
    rw [hnone, if_neg (by decide)]
  refine ⟨_, hexec, setCore_onlyCore { s with vecs := dropAt s.vecs k } .., rfl, ?_⟩
  rw [State.core_setCore, getNq_setNq]
theorem creditBack_toNat (n : BitVec 3) : (if 4 ≤ n.toNat then 4 else n + 1).toNat = min 4 (n.toNat + 1) := by
  revert n
  decide
theorem nsendCreditReturn_credits {s : State} {k : Nat} {core : CoreId} {ctx : CtxId} {m : BitVec 2}
    (hm : s.credits[k]? = some (core, ctx, m)) :
    let x := s.ctxAt core ctx
    ∃ t, exec (.nsendCreditReturn k) s = .next t ∧ OnlyCore s t core ∧ t.credits = dropAt s.credits k ∧
      (t.ctxAt core ctx).outst = x.outst ∧
      ((t.ctxAt core ctx).ctl.win.get ⟨m.toNat, m.isLt⟩).toNat = min 4 ((x.ctl.win.get ⟨m.toNat, m.isLt⟩).toNat + 1) := by
  intro x
  have hexec : exec (.nsendCreditReturn k) s = .next (({ s with credits := dropAt s.credits k }).setCtxAt core ctx
      (x.withCtl fun l => l.setCredit m (if 4 ≤ (x.ctl.credit m).toNat then 4 else x.ctl.credit m + 1))) := by
    show execNsendCreditReturn k s = _
    rw [execNsendCreditReturn, hm]
  refine ⟨_, hexec, setCtxAt_onlyCore { s with credits := dropAt s.credits k } .., rfl, ?_, ?_⟩
  · rw [State.ctxAt_setCtxAt]
    rfl
  · rw [State.ctxAt_setCtxAt, ← creditBack_toNat]
    have hcredit := credit_setCredit x.ctl m m (if 4 ≤ (x.ctl.credit m).toNat then 4 else x.ctl.credit m + 1)
    rw [if_pos rfl] at hcredit
    exact congrArg BitVec.toNat hcredit

end Sys2Proof.Machine
end

