-- ==== Sys2Proof/Proofs/TaskEvents.lean ====
section
/-! SUPPORT. Streams that are filled, contexts chosen, parked and woken, aging, stealing and the done tree (R180, R254 to R256, R263 to
R266, R271 to R273); settles O54. -/
namespace Sys2Proof.Machine

/-! ## Streams (R180) -/

theorem find?_replaced {l : List Stream} {q : BitVec 2} {y z : Stream} (hfind : l.find? (fun t => t.q = q) = some y) (hz : z.q = q) :
    (l.map fun u => if u.q = q then z else u).find? (fun t => t.q = q) = some z := by
  induction l with
  | nil => cases hfind
  | cons u l ih =>
    by_cases hu : u.q = q
    · rw [List.map_cons, if_pos hu, List.find?_cons_of_pos (by simpa using hz)]
    · rw [List.find?_cons_of_neg (by simp [hu])] at hfind
      rw [List.map_cons, if_neg hu, List.find?_cons_of_neg (by simp [hu]), ih hfind]
/-- An element in this package's memory enters the buffer of its stream. -/
theorem fillNext_of_reaches {s s1 : State} {q : BitVec 2} {y : Stream} {pas : List Nat} {ps : List Place} (hy : y.q = q)
    (haddr : (y.elem y.next).1 < 2 ^ 56) (hlen : 0 < (y.elem y.next).2)
    (h : Reaches s (BitVec.ofNat 64 (y.elem y.next).1) (y.elem y.next).2 .read .plain .copy pas ps s1) :
    ∃ u, Beside false s u ∧ u.mem.bytes = s.mem.bytes ∧ fillNext y s = u.setMe { u.me with
      streams := u.me.streams.map fun t => if t.q = q then { y with
        buf := y.buf ++ [.value (y.widen (y.elem y.next).2 (readValue s1 (some s.me.acqAt) ps))], next := y.next + 1 } else t } := by
  obtain ⟨pa2, haccess⟩ := h.access_eq hlen
  obtain ⟨p, k, hp, hplace⟩ := h.head_place hlen
  refine ⟨plainRead none pas ps (s1.dropAnswers false), (h.beside _).trans (plainRead_beside _ none pas ps false false), ?_, ?_⟩
  · rw [plainRead_bytes, h.mem]
  · rw [fillNext, if_neg (Nat.not_le.2 haddr), haccess (fun e => absurd e (by decide)) rfl, hp, hy]
    obtain rfl | ⟨l, rfl⟩ := hplace
    · dsimp only
      rw [readValue_dropAnswers, h.me]
    · dsimp only
      rw [readValue_dropAnswers, h.me]
theorem streamFill_fills {s : State} {core : CoreId} {ctx : CtxId} {q : BitVec 2} {y : Stream}
    (hfind : (s.ctxAt core ctx).streams.find? (fun t => t.q = q) = some y) (hmore : y.next < y.total) (hroom : y.buf.length < 8)
    (hvalues : ∀ f ∈ y.buf, ∃ v, f = .value v) (hrun : (s.ctxAt core ctx).halted = false) (hup : s.coreUp core = true)
    {pas : List Nat} {ps : List Place} {s1 : State} (haddr : (y.elem y.next).1 < 2 ^ 56) (hlen : 0 < (y.elem y.next).2)
    (h : Reaches { s with cur := ⟨core, ctx, false⟩ } (BitVec.ofNat 64 (y.elem y.next).1) (y.elem y.next).2 .read .plain .copy pas ps s1) :
    ∃ t, exec (.streamFill core ctx q) s = .next t ∧ t.cur = s.cur ∧ t.mem.bytes = s.mem.bytes ∧
      (t.ctxAt core ctx).streams.find? (fun t => t.q = q) = some { y with
        buf := y.buf ++ [.value (y.widen (y.elem y.next).2 (readValue s1 (some (s.ctxAt core ctx).acqAt) ps))], next := y.next + 1 } := by
  have hq : y.q = q := by simpa using List.find?_some hfind
  have hexec : exec (.streamFill core ctx q) s = .next { fillNext y { s with cur := ⟨core, ctx, false⟩ } with cur := s.cur } := by
    show execStreamFill core ctx q s = _
    rw [execStreamFill, hfind]
    refine if_neg ?_
    simp only [Bool.or_eq_true, decide_eq_true_iff, not_or, Nat.not_le, hrun, hup]
    refine ⟨⟨⟨⟨hmore, hroom⟩, fun hmarked => ?_⟩, by decide⟩, by decide⟩
    obtain ⟨f, hf, hfault⟩ := List.any_eq_true.1 hmarked
    obtain ⟨v, rfl⟩ := hvalues f hf
    cases hfault
  obtain ⟨u, hu, hbytes, hfill⟩ := fillNext_of_reaches hq haddr hlen h
  obtain ⟨at_, floor, tagged, sync, hme, -⟩ := hu.me
  rw [hfill] at hexec
  refine ⟨_, hexec, rfl, hbytes, ?_⟩
  have hstreams : u.me.streams = (s.ctxAt core ctx).streams := by rw [hme]; rfl
  have hat (v : State) (hv : v.cur = ⟨core, ctx, false⟩) (x : Ctx) : ({ v.setMe x with cur := s.cur } : State).ctxAt core ctx = x := by
    show (v.setCtxAt v.cur.core v.cur.ctx x).ctxAt core ctx = x
    rw [hv, State.ctxAt_setCtxAt]
  rw [hat u hu.cur]
  dsimp only
  rw [hstreams]
  exact find?_replaced hfind hq

/-! ## What a starting task acquires (R154, R171, R264) -/

/-- The deques of t's cores are those of s. -/
structure DequesStay (s t : State) : Prop where
  deque : ∀ c, (t.core c).deque = (s.core c).deque
@[refl] theorem DequesStay.refl (s : State) : DequesStay s s := ⟨fun _ => rfl⟩
theorem DequesStay.trans {s t u : State} (h : DequesStay s t) (h' : DequesStay t u) : DequesStay s u :=
  ⟨fun c => (h'.deque c).trans (h.deque c)⟩
theorem dequesStay_of_cores {s t : State} (h : t.cores = s.cores) : DequesStay s t := ⟨fun c => by rw [State.core, h, State.core]⟩
theorem OnlyCounts.dequesStay {s t : State} (h : OnlyCounts s t) : DequesStay s t := ⟨h.field fun _ _ => rfl⟩
theorem setMe_dequesStay (s : State) (x : Ctx) : DequesStay s (s.setMe x) := by
  refine ⟨fun c => ?_⟩
  by_cases h : c = s.cur.core
  · rw [h, ← State.here, ← State.setMe_cur s x, ← State.here, State.here_setMe]
    rfl
  · rw [State.setMe, State.setCtxAt, State.core_setCore_other _ h]
theorem reportMiss_dequesStay (s : State) (t : Tag) (w : BitVec 11) (v : Word) (n : Nat) (who : Word) (src : CoreId × CtxId) (b : Bool) :
    DequesStay s (s.reportMiss t w v n who src b) := by
  have hsend (u : State) (l : Option Nat) (f : Flight) : DequesStay u (u.sendFor l f) := by
    unfold State.sendFor
    split
    · exact dequesStay_of_cores rfl
    · exact dequesStay_of_cores rfl
  unfold State.reportMiss
  extract_lets va out counted key m sent
  have hsent : DequesStay s sent := (countIf_counts s b src.1 t.launch 1).dequesStay.trans (hsend ..)
  split
  · rfl
  · split
    · exact hsent
    · exact hsent.trans (dequesStay_of_cores rfl)
theorem startAcquire_dequesStay (s : State) (r : Release) : DequesStay s (startAcquire s r) := by
  have hproxies (u : State) (n : Nat) : DequesStay u (u.dropProxies n) := by
    unfold State.dropProxies
    split
    · exact dequesStay_of_cores rfl
    · rfl
  have hacquired (n : Nat) : DequesStay s (s.acquired n) := by
    unfold State.acquired
    split
    · rfl
    · exact setMe_dequesStay ..
  unfold startAcquire
  dsimp only
  split
  · exact (hacquired _).trans (hproxies ..)
  · split
    · rfl
    · exact (setMe_dequesStay ..).trans (reportMiss_dequesStay ..)
theorem startAcquire_beside (s : State) (r : Release) : Beside true s (startAcquire s r) := by
  unfold startAcquire
  dsimp only
  split
  · exact (acquired_beside ..).trans (dropProxies_beside ..)
  · split
    · rfl
    · exact (Beside.setMe ⟨_, _, _, _, rfl, or_and_self_left .., by simp⟩).trans (reportMiss_beside ..)
/-- Acquiring touches the marks of the context that starts, and neither the inbox nor the deque of its core. -/
theorem acquireStart_leaves (s : State) (c : CoreId) (k : CtxId) (l : List Release) :
    (s.ctxAt c k).Noted true ((s.acquireStart c k l).ctxAt c k) ∧ ((s.acquireStart c k l).core c).inbox = (s.core c).inbox ∧
      ((s.acquireStart c k l).core c).deque = (s.core c).deque := by
  have hbeside : Beside true { s with cur := ⟨c, k, false⟩ } (l.foldl startAcquire { s with cur := ⟨c, k, false⟩ }) :=
    .foldl startAcquire_beside ..
  have hdeques : DequesStay { s with cur := ⟨c, k, false⟩ } (l.foldl startAcquire { s with cur := ⟨c, k, false⟩ }) :=
    List.foldlRecOn (motive := DequesStay _) l startAcquire (.refl _) fun t ht r _ => ht.trans (startAcquire_dequesStay t r)
  rw [State.acquireStart]
  generalize l.foldl startAcquire { s with cur := ⟨c, k, false⟩ } = u at hbeside hdeques
  have hcur : u.cur = ⟨c, k, false⟩ := hbeside.cur
  have hme := hbeside.me
  have hinbox := hbeside.inbox
  rw [State.me, State.me, hcur] at hme
  rw [State.here, State.here, hcur] at hinbox
  exact ⟨hme, hinbox, hdeques.deque c⟩

/-! ## The start of a task (R54, R264) -/

theorem Ctx.Noted.startRegs {acq : Bool} {x y : Ctx} (h : x.Noted acq y) {p : Vector Word 6} (hregs : startRegs p x) : startRegs p y := by
  obtain ⟨_, _, _, _, rfl, -⟩ := h
  exact hregs
theorem startTask_regs (x : Ctx) (now after : Nat) (pay : Vector Word 6) (src : Word) (mcls prio : Nat) (xid : Option (BitVec 16))
    (priv : BitVec 1) (pc : Word) (t : Task) : startRegs pay (x.startTask now after pay src mcls prio xid priv pc t) := by
  refine ⟨fun i => ?_, fun r hr => ?_, rfl, rfl, rfl, rfl, rfl, rfl, rfl⟩
  · have hi := i.isLt
    have hat : (BitVec.ofNat 5 (i.val + 1)).toNat = i.val + 1 := by
      rw [BitVec.toNat_ofNat, Nat.mod_eq_of_lt (by omega)]
    have hne : BitVec.ofNat 5 (i.val + 1) ≠ 0 := fun h => by
      rw [h] at hat
      exact absurd hat (by simp)
    rw [Ctx.getG, if_neg hne, Ctx.startTask, Vector.get_eq_getElem]
    simp [hat, Vector.get_eq_getElem]
  · have hne : r ≠ 0 := fun h => by
      rw [h] at hr
      exact absurd hr (by decide)
    rw [Ctx.getG, if_neg hne, Ctx.startTask, Vector.get_eq_getElem]
    have hpast : pay[r.toNat - 1]? = none := Vector.getElem?_eq_none (by omega)
    simp [hpast]

/-- A context that has started a task, but for what it has acquired. -/
theorem started_leaves (s : State) {c : CoreId} {k : CtxId} {z : Core} {y : Ctx} (b : Bool) (l : List Release) (hz : z.ctxAt k = y) :
    let t := ((s.setCore c z).startIf b c).acquireStart c k l
    y.Noted true (t.ctxAt c k) ∧ (t.core c).inbox = z.inbox ∧ (t.core c).deque = z.deque := by
  intro t
  have hcounts := startIf_counts (s.setCore c z) b c
  have hctx : ((s.setCore c z).startIf b c).ctxAt c k = y := by rw [hcounts.ctxAt, State.ctxAt, State.core_setCore, hz]
  obtain ⟨hnote, hinbox, hdeque⟩ := acquireStart_leaves ((s.setCore c z).startIf b c) c k l
  rw [hctx] at hnote
  refine ⟨hnote, hinbox.trans ?_, hdeque.trans ?_⟩
  · rw [hcounts.field (f := Core.inbox) fun _ _ => rfl, State.core_setCore]
  · rw [hcounts.field (f := Core.deque) fun _ _ => rfl, State.core_setCore]

/-! ## Choosing (R255) -/

section
variable {α : Type} {hi lo : α → Nat}

theorem best_mem {l : List α} {a : α} (h : best hi lo l = some a) : a ∈ l := by
  induction l generalizing a with
  | nil => cases h
  | cons b l ih =>
    rw [best] at h
    cases hbest : best hi lo l with
    | none =>
      rw [hbest] at h
      exact Option.some.inj h ▸ List.mem_cons_self
    | some c =>
      rw [hbest] at h
      dsimp only at h
      split at h
      · exact Option.some.inj h ▸ List.mem_cons_of_mem _ (ih hbest)
      · exact Option.some.inj h ▸ List.mem_cons_self
theorem best_eq_none {l : List α} (h : best hi lo l = none) : l = [] := by
  cases l with
  | nil => rfl
  | cons b l =>
    rw [best] at h
    split at h
    · cases h
    · split at h
      · cases h
      · cases h
/-- None of a list has a larger first key than the best. -/
theorem le_best {l : List α} {a : α} (h : best hi lo l = some a) : ∀ b ∈ l, hi b ≤ hi a := by
  induction l generalizing a with
  | nil => cases h
  | cons c l ih =>
    rw [best] at h
    cases hbest : best hi lo l with
    | none =>
      rw [hbest] at h
      obtain rfl := Option.some.inj h
      intro b hb
      rw [best_eq_none hbest, List.mem_singleton] at hb
      rw [hb]
    | some d =>
      rw [hbest] at h
      dsimp only at h
      have htail := ih hbest
      split at h
      · next hless =>
        obtain rfl := Option.some.inj h
        simp only [Bool.or_eq_true, Bool.and_eq_true, decide_eq_true_iff] at hless
        rintro b (_ | ⟨_, hb⟩)
        · omega
        · exact htail b hb
      · next hless =>
        obtain rfl := Option.some.inj h
        simp only [Bool.or_eq_true, Bool.and_eq_true, decide_eq_true_iff, not_or] at hless
        rintro b (_ | ⟨_, hb⟩)
        · exact Nat.le_refl _
        · have := htail b hb
          omega
end
theorem mem_inState (x : Core) (st : Status) (k : CtxId) : k ∈ x.inState st ↔ (x.ctxAt k).status = st ∧ (x.ctxAt k).halted = false := by
  have hall : ∀ k : CtxId, k ∈ [(0 : CtxId), 1, 2, 3] := by decide
  rw [Core.inState, List.mem_filter, and_iff_right (hall k), Bool.and_eq_true, decide_eq_true_iff, Bool.not_eq_true']

/-- A choice is the best of the ready contexts, or starts a task where a context is free. -/
theorem choose_cases {s : State} {c : CoreId} {w : Candidate} (h : s.choose c = some w) :
    let x := s.core c
    (∃ k, w = .ready k ∧ best (fun k => (x.ctxAt k).ctl.prio.toNat) (fun k => (x.ctxAt k).readyAt) (x.inState .ready) = some k) ∨
      (x.inState .free ≠ [] ∧ ((∃ i e l, w = .entry i e l) ∨ ∃ f, w = .fork f)) := by
  intro x
  obtain ⟨⟨p, w'⟩, hbest, rfl⟩ := Option.map_eq_some_iff.1 h
  have hmem := best_mem hbest
  simp only [List.mem_append, Option.mem_toList] at hmem
  obtain (hready | hentry) | hfork := hmem
  · obtain ⟨k, hk, e⟩ := Option.map_eq_some_iff.1 hready
    exact .inl ⟨k, (congrArg Prod.snd e).symm, hk⟩
  · obtain ⟨hfree, hentry⟩ := Option.ite_none_right_eq_some.1 hentry
    obtain ⟨q, -, e⟩ := Option.map_eq_some_iff.1 hentry
    exact .inr ⟨by simpa using hfree, .inl ⟨_, _, _, (congrArg Prod.snd e).symm⟩⟩
  · obtain ⟨hfree, hfork⟩ := Option.ite_none_right_eq_some.1 hfork
    obtain ⟨f, -, hfork⟩ := Option.bind_eq_some_iff.1 hfork
    obtain ⟨-, e⟩ := Option.ite_none_right_eq_some.1 hfork
    rw [Bool.and_eq_true] at hfree
    exact .inr ⟨by simpa using hfree.1, .inr ⟨f, (congrArg Prod.snd (Option.some.inj e)).symm⟩⟩
theorem choose_ready {s : State} {c : CoreId} {r : CtxId} (h : s.choose c = some (.ready r)) (j : CtxId)
    (hstatus : (s.ctxAt c j).status = .ready) (hrun : (s.ctxAt c j).halted = false) : (s.ctxAt c j).ctl.prio ≤ (s.ctxAt c r).ctl.prio := by
  obtain ⟨k, hk, hbest⟩ | ⟨-, ⟨_, _, _, hk⟩ | ⟨_, hk⟩⟩ := choose_cases h
  · cases hk
    exact le_best hbest j ((mem_inState ..).2 ⟨hstatus, hrun⟩)
  · cases hk
  · cases hk
/-- A context that a core gives its next task. -/
def State.freeCtx (s : State) (c : CoreId) : CtxId :=
  (((s.core c).inState .free)[Config.pick s.tick 3 % ((s.core c).inState .free).length]?).getD 0
theorem freeCtx_free {s : State} {c : CoreId} (h : (s.core c).inState .free ≠ []) : (s.ctxAt c (s.freeCtx c)).status = .free := by
  have hlt : Config.pick s.tick 3 % ((s.core c).inState .free).length < ((s.core c).inState .free).length :=
    Nat.mod_lt _ (List.length_pos_iff.2 h)
  rw [State.freeCtx, List.getElem?_eq_getElem hlt, Option.getD_some]
  exact ((mem_inState ..).1 (List.getElem_mem hlt)).1

/-! ## CONTEXT_SELECT (R254, R255, R264) -/

theorem contextSelect_eq {s : State} {core : CoreId} (hup : s.coreUp core = true)
    (hidle : ∀ k, (s.ctxAt core k).status = .issuing → (s.ctxAt core k).halted = true) : exec (.contextSelect core) s =
    .next (((s.refill core).choose core).elim (s.refill core) fun w => (s.refill core).take core w) := by
  have hnone : (s.core core).inState .issuing = [] := List.eq_nil_iff_forall_not_mem.2 fun k hk => by
    obtain ⟨hstatus, hrun⟩ := (mem_inState ..).1 hk
    exact Bool.noConfusion (hrun.symm.trans (hidle k hstatus))
  show execContextSelect core s = _
  rw [execContextSelect, hup, hnone, if_neg (by decide)]
  dsimp only
  cases (s.refill core).choose core <;> rfl

/-- The context that starts the task of a message. -/
def State.entryTask (s : State) (c : CoreId) (e : Entry) (l : Option Nat) : Ctx :=
  let x := s.core c
  let h := (x.cls e.msg.cls).handler
  let start := (x.ctxAt (s.freeCtx c)).startTask s.now (s.startOf l) e.msg.pay e.msg.src (e.msg.vnet * 256 + e.msg.cls) (x.effPrio s.now e)
  let t : Task := { cls := BitVec.ofNat 8 e.msg.cls, launch := l, bulk := !e.inner && bulkNet e.msg.vnet
                    gen := if e.start.isSome then 0 else (x.cls e.msg.cls).gen }
  match e.start with
  | some (pc, prv, xid) => start (some xid) prv pc t
  | none => start none h.prv h.addr t
/-- The context that starts the task of a deque entry. -/
def State.forkTask (s : State) (c : CoreId) (f : Fork) : Ctx :=
  let x := s.core c
  let e := x.cls f.cls.toNat
  let own := if supervisorClass f.cls.toNat then none else s.resident c
  (x.ctxAt (s.freeCtx c)).startTask s.now (s.startOf own) f.pay (mkSrc s.pkg f.core f.ctx f.prv 0) (3 * 256 + f.cls.toNat) (x.forkPrio f) none
    e.handler.prv e.handler.addr { cls := f.cls, launch := own, bulk := true, gen := e.gen }

theorem entryTask_starts (s : State) (c : CoreId) (e : Entry) (l : Option Nat) :
    let y := s.entryTask c e l
    let h := ((s.core c).cls e.msg.cls).handler
    y.status = .issuing ∧ startRegs e.msg.pay y ∧ y.ctl.src = e.msg.src ∧ y.ctl.mcls.toNat = e.msg.vnet * 256 + e.msg.cls ∧
      (e.start = none → y.pc = h.addr ∧ y.ctl.priv = h.prv) ∧
      ∀ pc prv id, e.start = some (pc, prv, id) → y.pc = pc ∧ y.ctl.priv = prv ∧ y.ctl.xid = id := by
  have hmcls : (BitVec.ofNat 10 (e.msg.vnet * 256 + e.msg.cls)).toNat = e.msg.vnet * 256 + e.msg.cls := by
    have hv : e.msg.vnet < 2 ^ 2 := Nat.mod_lt _ (Nat.two_pow_pos 2)
    have hc : e.msg.cls < 2 ^ 8 := Nat.mod_lt _ (Nat.two_pow_pos 8)
    rw [BitVec.toNat_ofNat, Nat.mod_eq_of_lt (by omega)]
  unfold State.entryTask
  dsimp only
  split
  · next pc prv xid hstart =>
    refine ⟨rfl, startTask_regs .., rfl, hmcls, fun h => ?_, fun pc' prv' id h => ?_⟩
    · rw [hstart] at h
      cases h
    · rw [hstart] at h
      cases h
      exact ⟨rfl, rfl, rfl⟩
  · next hstart =>
    refine ⟨rfl, startTask_regs .., rfl, hmcls, fun _ => ⟨rfl, rfl⟩, fun pc prv id h => ?_⟩
    rw [hstart] at h
    cases h

/-- What a task's start decides of a context, its marks leave. -/
theorem Ctx.Noted.start {acq : Bool} {x y : Ctx} (h : x.Noted acq y) : y.status = x.status ∧ y.pc = x.pc ∧ y.ctl.priv = x.ctl.priv ∧
    y.ctl.src = x.ctl.src ∧ y.ctl.mcls = x.ctl.mcls ∧ y.ctl.xid = x.ctl.xid := by
  obtain ⟨_, _, _, _, rfl, -⟩ := h
  exact ⟨rfl, rfl, rfl, rfl, rfl, rfl⟩
theorem take_entry_leaves (s : State) (c : CoreId) (i : Nat) (e : Entry) (l : Option Nat) :
    (s.entryTask c e l).Noted true ((s.take c (.entry i e l)).ctxAt c (s.freeCtx c)) ∧
      ((s.take c (.entry i e l)).core c).inbox = dropAt (s.core c).inbox i := by
  obtain ⟨hnote, hinbox, -⟩ := started_leaves s (c := c) (z := { (s.core c).setCtx (s.freeCtx c) (s.entryTask c e l) with
    inbox := dropAt (s.core c).inbox i }) e.counted e.rels (Core.ctxAt_setCtx (s.core c) (s.freeCtx c) (s.entryTask c e l))
  unfold State.take
  dsimp only
  split
  · exact ⟨hnote, hinbox⟩
  · exact ⟨hnote, hinbox⟩
theorem take_fork_leaves (s : State) (c : CoreId) (f : Fork) :
    (s.forkTask c f).Noted true ((s.take c (.fork f)).ctxAt c (s.freeCtx c)) ∧
      ((s.take c (.fork f)).core c).deque = (s.core c).deque.dropLast := by
  obtain ⟨hnote, -, hdeque⟩ := started_leaves s (c := c) (z := { (s.core c).setCtx (s.freeCtx c) (s.forkTask c f) with
    deque := (s.core c).deque.dropLast }) f.launch.isSome [s.forkRelease f] (Core.ctxAt_setCtx (s.core c) (s.freeCtx c) (s.forkTask c f))
  exact ⟨hnote, hdeque⟩

section
variable {s : State} {c : CoreId}

theorem take_entry {i : Nat} {e : Entry} {l : Option Nat} (h : s.choose c = some (.entry i e l)) :
    ∃ r, (s.ctxAt c r).status = .free ∧
      let y := (s.take c (.entry i e l)).ctxAt c r
      y.status = .issuing ∧ startRegs e.msg.pay y ∧ y.ctl.src = e.msg.src ∧ y.ctl.mcls.toNat = e.msg.vnet * 256 + e.msg.cls ∧
      (e.start = none → y.pc = ((s.core c).cls e.msg.cls).handler.addr ∧ y.ctl.priv = ((s.core c).cls e.msg.cls).handler.prv) ∧
      (∀ pc prv id, e.start = some (pc, prv, id) → y.pc = pc ∧ y.ctl.priv = prv ∧ y.ctl.xid = id) ∧
      ((s.take c (.entry i e l)).core c).inbox = dropAt (s.core c).inbox i := by
  obtain ⟨k, hk, -⟩ | ⟨hfree, -⟩ := choose_cases h
  · cases hk
  obtain ⟨hnote, hinbox⟩ := take_entry_leaves s c i e l
  obtain ⟨hstatus, hregs, hsrc, hmcls, hbound, hgiven⟩ := entryTask_starts s c e l
  refine ⟨s.freeCtx c, freeCtx_free hfree, ?_⟩
  obtain ⟨estatus, epc, epriv, esrc, emcls, exid⟩ := hnote.start
  dsimp only
  rw [estatus, epc, epriv, esrc, emcls, exid]
  exact ⟨hstatus, hnote.startRegs hregs, hsrc, hmcls, hbound, hgiven, hinbox⟩
theorem take_fork {f : Fork} (h : s.choose c = some (.fork f)) : ∃ r, (s.ctxAt c r).status = .free ∧
      let y := (s.take c (.fork f)).ctxAt c r
      y.status = .issuing ∧ startRegs f.pay y ∧ y.pc = ((s.core c).cls f.cls.toNat).handler.addr ∧
      ((s.take c (.fork f)).core c).deque = (s.core c).deque.dropLast := by
  obtain ⟨k, hk, -⟩ | ⟨hfree, -⟩ := choose_cases h
  · cases hk
  obtain ⟨hnote, hdeque⟩ := take_fork_leaves s c f
  refine ⟨s.freeCtx c, freeCtx_free hfree, ?_⟩
  obtain ⟨hstatus, hpc, -⟩ := hnote.start
  exact ⟨hstatus, hnote.startRegs (startTask_regs ..), hpc, hdeque⟩
end

/-! ## Parking (R266) and aging (R263) -/

theorem parks_of_ne {w : Wait} (h : w ≠ .interlock) (h' : w ≠ .reply) : w.parks = true := by
  unfold Wait.parks
  split
  · exact absurd rfl h
  · exact absurd rfl h'
  · rfl
theorem parkTimeout_parks {s : State} {core : CoreId} {ctx : CtxId} {w : Wait} (hwait : (s.ctxAt core ctx).wait = some w)
    (hw : w ≠ .interlock) (hw' : w ≠ .reply) (hstatus : (s.ctxAt core ctx).status = .issuing)
    (hlate : (s.ctxAt core ctx).waitFrom + (s.ctxAt core ctx).ctl.parkt.toNat ≤ s.now) :
    exec (.parkTimeout core ctx) s = .next (s.setCtxAt core ctx { s.ctxAt core ctx with status := .parked }) := by
  show execParkTimeout core ctx s = _
  rw [execParkTimeout, hwait]
  dsimp only
  rw [if_pos (by simp [parks_of_ne hw hw', hstatus, hlate]), hwait]
theorem parkedWake_wakes {s : State} {core : CoreId} {ctx : CtxId} {w : Wait} (hwait : (s.ctxAt core ctx).wait = some w)
    (hstatus : (s.ctxAt core ctx).status = .parked) (hwoken : s.woken core ctx w = true) : ∃ t, exec (.parkedWake core ctx) s = .next t ∧
      OnlyCore s t core ∧
      t.ctxAt core ctx = { s.ctxAt core ctx with wait := none, status := .ready, readyAt := (s.core core).clock } := by
  have hexec : exec (.parkedWake core ctx) s = .next (s.makeReady core ctx { s.ctxAt core ctx with wait := none }) := by
    show execParkedWake core ctx s = _
    rw [execParkedWake, hwait]
    exact congrArg Host.Outcome.next (if_pos (by simp [hstatus, hwoken]))
  obtain ⟨honly, hctx, -⟩ := makeReady_leaves s core ctx { s.ctxAt core ctx with wait := none }
  exact ⟨_, hexec, honly, hctx⟩
theorem aged_later {e : Entry} {now : Nat} (h : e.since + 4096 ≤ now) :
    ({ e with age := e.age + 1, since := e.since + 4096 } : Entry).aged now = e.aged now := by
  simp only [Entry.aged]
  omega
theorem runQueueAging_ages {s : State} {core : CoreId} {k : Nat} {e : Entry} (he : (s.core core).inbox[k]? = some e)
    (hready : e.held = false) (hdue : e.since + 4096 ≤ s.now) :
    let e' : Entry := { e with age := e.age + 1, since := e.since + 4096 }
    ∃ t, exec (.runQueueAging core k) s = .next t ∧ OnlyCore s t core ∧ (t.core core).inbox[k]? = some e' ∧
      (t.core core).effPrio s.now e' = (s.core core).effPrio s.now e := by
  intro e'
  have hexec : exec (.runQueueAging core k) s =
      .next (s.setCore core { s.core core with inbox := setAt (s.core core).inbox k e' }) := by
    show execRunQueueAging core k s = _
    rw [execRunQueueAging, he]
    exact if_neg (by simp [hready, hdue])
  obtain ⟨hlt, -⟩ := List.getElem?_eq_some_iff.1 he
  refine ⟨_, hexec, setCore_onlyCore .., ?_, ?_⟩
  · rw [State.core_setCore, setAt_eq_set, List.getElem?_set_self hlt]
  · rw [State.core_setCore, Core.effPrio, aged_later hdue]
    rfl

/-! ## Stealing (R271) -/

theorem stealAttempt_asks {s : State} {core : CoreId} {l : Launch} (hl : s.launchAt core = some l) (hsteal : (s.core core).stealing = false)
    (hfree : ∃ k, (s.ctxAt core k).status = .free ∧ (s.ctxAt core k).halted = false) (hbulk : (s.core core).bulkFull = false)
    (hinbox : ∀ e ∈ (s.core core).inbox, e.held = true) (hdeque : (s.core core).deque = []) (hspilled : (s.core core).spilled = [])
    (hnext : (s.core core).nextSteal ≤ s.now) (hvictims : l.victims core ≠ []) (hup : s.coreUp core = true) :
    ∃ t v, exec (.stealAttempt core) s = .next t ∧ OnlyCore s t core ∧ v ∈ l.victims core ∧ t.steals = s.steals ++ [(core, v)] ∧
      (t.core core).stealing = true ∧ (t.core core).steal = xorshift (s.core core).steal := by
  have hsome : (s.core core).inState .free ≠ [] := by
    obtain ⟨k, hk⟩ := hfree
    exact List.ne_nil_of_mem ((mem_inState ..).2 hk)
  have hlt : Config.pick s.tick 4 % (l.victims core).length < (l.victims core).length := Nat.mod_lt _ (List.length_pos_iff.2 hvictims)
  have hexec : exec (.stealAttempt core) s = .next (({ s with steals := s.steals ++
      [(core, ((l.victims core)[Config.pick s.tick 4 % (l.victims core).length]?).getD core)] }).setCore core
        { s.core core with steal := xorshift (s.core core).steal, stealing := true }) := by
    have hready : ((s.core core).inbox.any (!·.held)) = false := List.any_eq_false.2 fun e he => by simp [hinbox e he]
    show execStealAttempt core s = _
    rw [execStealAttempt, hl]
    exact if_neg (by simp only [hsteal, hbulk, hready, hdeque, hspilled, hup, Nat.not_lt.2 hnext]; simp [hsome, hvictims])
  refine ⟨_, _, hexec, setCore_onlyCore { s with steals := _ } .., ?_, rfl, ?_, ?_⟩
  · rw [List.getElem?_eq_getElem hlt, Option.getD_some]
    exact List.getElem_mem hlt
  · rw [State.core_setCore]
  · rw [State.core_setCore]

/-- A core that gives up an entry changes alone. -/
theorem takeOldest_leaves {s t : State} {c : CoreId} {ok : Fork → Bool} {f : Fork} (h : s.takeOldest c ok = some (f, t)) :
    t.steals = s.steals ∧ ∀ d, d ≠ c → t.core d = s.core d := by
  have hread {u : State} {k : Chunk} {m : List (Nat × Nat × Option Nat)} {l : List Fork} (e : readChunk s k m = some (l, u)) :
      CoresStay s u := by
    unfold readChunk at e
    split at e
    · cases e
    · next bytes v hbytes =>
      cases e
      exact (engineRead_coresStay ..).of_ok _ hbytes
  unfold State.takeOldest at h
  split at h
  · split at h
    · next v e =>
      obtain ⟨-, h⟩ := Option.ite_none_right_eq_some.1 h
      cases h
      have hstay := hread e
      exact ⟨hstay.steals, fun d hd => (State.core_setCore_other _ hd _).trans (hstay.core d)⟩
    · cases h
  · split at h
    · obtain ⟨-, h⟩ := Option.ite_none_right_eq_some.1 h
      cases h
      exact ⟨rfl, fun d hd => State.core_setCore_other _ hd _⟩
    · cases h
theorem takeOldest_deque {s : State} {c : CoreId} {f : Fork} {rest : List Fork} (hspilled : (s.core c).spilled = [])
    (hdeque : (s.core c).deque = f :: rest) {ok : Fork → Bool} (hok : ok f = true) :
    s.takeOldest c ok = some (f, s.setCore c { s.core c with deque := rest }) := by
  rw [State.takeOldest, hspilled, hdeque]
  exact if_pos hok

section
variable {s : State} {k : Nat} {core victim : CoreId} (hsteal : s.steals[k]? = some (core, victim))
include hsteal

theorem stealRequest_empty (hspilled : (s.core victim).spilled = []) (hdeque : (s.core victim).deque = []) :
    ∃ t, exec (.stealRequest k) s = .next t ∧ t.steals = dropAt s.steals k ∧ (t.core core).stealing = false ∧
      (t.core core).nextSteal = s.now + (s.core core).backoff ∧ (t.core core).backoff = min 4096 (2 * (s.core core).backoff) ∧
      OnlyCore s t core := by
  have hexec : exec (.stealRequest k) s = .next (({ s with steals := dropAt s.steals k }).setCore core { s.core core with
      stealing := false, nextSteal := s.now + (s.core core).backoff, backoff := min 4096 (2 * (s.core core).backoff) }) := by
    show execStealRequest k s = _
    rw [execStealRequest, hsteal]
    exact if_pos (by simp [hspilled, hdeque])
  refine ⟨_, hexec, rfl, ?_, ?_, ?_, setCore_onlyCore { s with steals := _ } ..⟩
  · rw [State.core_setCore]
  · rw [State.core_setCore]
  · rw [State.core_setCore]
/-- The victim gives its oldest entry, and the thief's deque takes it. -/
theorem stealRequest_gives (hvictim : victim ≠ core) (hsome : ¬((s.core victim).deque = [] ∧ (s.core victim).spilled = [])) {f : Fork}
    {y : State} (htake : ({ s with steals := dropAt s.steals k } : State).takeOldest victim
      (fun f => (s.ctxAt f.core f.ctx).storesDone f.upTo) = some (f, y)) :
    ∃ t, (exec (.stealRequest k) s = .next t ∧ t.steals = dropAt s.steals k ∧ (t.core core).deque = (s.core core).deque ++ [f] ∧
      (t.core core).stealing = false ∧ (t.core core).backoff = 64) ∧ t.core victim = y.core victim := by
  have hexec : exec (.stealRequest k) s = .next (y.setCore core { y.core core with
      deque := (y.core core).deque ++ [f], stealing := false, backoff := 64, nextSteal := 0 }) := by
    show execStealRequest k s = _
    rw [execStealRequest, hsteal]
    dsimp only
    rw [if_neg (by simpa using hsome), htake]
  obtain ⟨hsteals, hcores⟩ := takeOldest_leaves htake
  refine ⟨_, ⟨hexec, hsteals, ?_, ?_, ?_⟩, State.core_setCore_other _ hvictim _⟩
  · rw [State.core_setCore, hcores core hvictim.symm]
    rfl
  · rw [State.core_setCore]
  · rw [State.core_setCore]
end

/-! ## The done tree (R272, R273) -/

/-- The class-3 message of a wave (R273). -/
def doneReport (s : State) (core p : CoreId) : Flight :=
  let d := (s.core core).done
  { notice := true, msg := ⟨mkSrc s.pkg core 0 1 0, mkDesc s.pkg p 3 63 3 (s.part (s.partOf core)).key.toNat,
      #v[d.totals.2.2, BitVec.ofNat 64 d.totals.1, BitVec.ofNat 64 d.totals.2.1, BitVec.ofNat 64 d.wave, 0, 0]⟩ }

section
variable {s : State} {core : CoreId} {l : Launch} (htree : (s.core core).done.inTree = true)
  (hbegun : (s.core core).done.wave ≤ (s.core l.root).done.begun) (hquiet : s.quiescent core l.id = true) (hup : s.coreUp core = true)
  (hreports : ∀ c ∈ (s.core core).done.children, ∃ r ∈ (s.core core).done.reports, r.1 = c ∧ r.2.1 = (s.core core).done.wave)
include htree hbegun hquiet hup hreports

theorem mayReport : ¬(!(s.core core).done.inTree || (s.core l.root).done.begun < (s.core core).done.wave || !s.quiescent core l.id ||
    !s.coreUp core || !((s.core core).done.children.all fun c => (s.core core).done.reports.any fun r =>
      r.1 = c && r.2.1 = (s.core core).done.wave)) = true := by
  have hall : ((s.core core).done.children.all fun c => (s.core core).done.reports.any fun r => r.1 = c && r.2.1 = (s.core core).done.wave) =
      true := by
    simpa [List.all_eq_true, List.any_eq_true] using hreports
  simp only [htree, hquiet, hup, hall, Nat.not_lt.2 hbegun]
  decide
variable (hl : s.launchAt core = some l)
include hl

theorem doneWaveReport_reports {p : CoreId} (hp : (s.core core).done.parent = some p) : exec (.doneWaveReport core) s =
    .next (({ s with mesh := s.mesh ++ [doneReport s core p] } : State).setCore core { s.core core with done := (s.core core).done.next }) := by
  have hmay := mayReport htree hbegun hquiet hup hreports
  show execDoneWaveReport core s = _
  rw [execDoneWaveReport, hl]
  dsimp only
  rw [if_neg hmay, hp]
  rfl
variable (hp : (s.core core).done.parent = none)
include hp

theorem doneWaveReport_finishes (hlast : (s.core core).done.last = some (s.core core).done.totals)
    (hsum : (s.core core).done.totals.1 = (s.core core).done.totals.2.1) : exec (.doneWaveReport core) s =
    .next ((s.setCore core { s.core core with
        done := { (s.core core).done.next with inTree := false, begun := (s.core core).done.begun } }).setLaunch
      { l with st := .finished, status := (s.core core).done.totals.2.2, durBase := l.durBase + (s.now - l.durFrom) }) := by
  have hmay := mayReport htree hbegun hquiet hup hreports
  show execDoneWaveReport core s = _
  rw [execDoneWaveReport, hl]
  dsimp only
  rw [if_neg hmay, hp]
  exact if_pos (by simp [hlast, hsum])
theorem doneWaveReport_goesOn (hmore : (s.core core).done.last ≠ some (s.core core).done.totals ∨
      (s.core core).done.totals.1 ≠ (s.core core).done.totals.2.1) : exec (.doneWaveReport core) s =
    .next (s.setCore core { s.core core with done := { (s.core core).done.next with last := some (s.core core).done.totals } }) := by
  have hmay := mayReport htree hbegun hquiet hup hreports
  show execDoneWaveReport core s = _
  rw [execDoneWaveReport, hl]
  dsimp only
  rw [if_neg hmay, hp]
  exact if_neg (by simpa [Classical.or_iff_not_imp_left] using hmore)
end

/-- The report of a wave goes to the parent; at the root it is the launch's end, or the last one before another. -/
theorem doneWaveReport_leaves {s : State} {core : CoreId} {l : Launch} (hl : s.launchAt core = some l)
    (htree : (s.core core).done.inTree = true) (hbegun : (s.core core).done.wave ≤ (s.core l.root).done.begun)
    (hquiet : s.quiescent core l.id = true) (hup : s.coreUp core = true)
    (hreports : ∀ c ∈ (s.core core).done.children, ∃ r ∈ (s.core core).done.reports, r.1 = c ∧ r.2.1 = (s.core core).done.wave) :
    let d := (s.core core).done
    let sum := d.totals
    ∃ t, exec (.doneWaveReport core) s = .next t ∧ t.mem = s.mem ∧ (t.core core).done.wave = d.wave + 1 ∧
      (∀ p, d.parent = some p → ∃ m : Flight, t.mesh = s.mesh ++ [m] ∧ m.msg.core = p ∧ m.msg.cls = 3 ∧
        m.msg.pay = #v[sum.2.2, BitVec.ofNat 64 sum.1, BitVec.ofNat 64 sum.2.1, BitVec.ofNat 64 d.wave, 0, 0]) ∧
      (d.parent = none → d.last = some sum → sum.1 = sum.2.1 →
        ∀ y ∈ t.launches, y.id = l.id → y.st = .finished ∧ y.status = sum.2.2) ∧
      (d.parent = none → d.last ≠ some sum ∨ sum.1 ≠ sum.2.1 → (t.core core).done.last = some sum ∧ t.launches = s.launches) := by
  intro d sum
  cases hp : (s.core core).done.parent with
  | some p =>
    refine ⟨_, doneWaveReport_reports htree hbegun hquiet hup hreports hl hp, rfl, ?_, fun p' hp' => ?_, fun h => ?_, fun h => ?_⟩
    · rw [State.core_setCore]
      rfl
    · obtain rfl : p' = p := (Option.some.inj hp').symm
      exact ⟨doneReport s core p', rfl, ofNat_eq_of_eq_toNat (fld_mkDesc_core ..), fld_mkDesc_cls .., rfl⟩
    · cases h
    · cases h
  | none =>
    by_cases hend : (s.core core).done.last = some (s.core core).done.totals ∧ (s.core core).done.totals.1 = (s.core core).done.totals.2.1
    · obtain ⟨hlast, hsum⟩ := hend
      refine ⟨_, doneWaveReport_finishes htree hbegun hquiet hup hreports hl hp hlast hsum, rfl, ?_, fun p h => ?_,
        fun _ _ _ y hy hid => ?_, fun _ hmore => ?_⟩
      · change ((s.setCore core _).core core).done.wave = _
        rw [State.core_setCore]
        rfl
      · cases h
      · obtain ⟨z, -, rfl⟩ := List.mem_map.1 hy
        by_cases hz : z.id = l.id
        · rw [if_pos hz]
          exact ⟨rfl, rfl⟩
        · rw [if_neg hz] at hid
          exact absurd hid hz
      · obtain h | h := hmore
        · exact absurd hlast h
        · exact absurd hsum h
    · have hmore := not_and_or.1 hend
      refine ⟨_, doneWaveReport_goesOn htree hbegun hquiet hup hreports hl hp hmore, rfl, ?_, fun p h => ?_,
        fun _ hlast hsum => absurd ⟨hlast, hsum⟩ hend, fun _ _ => ⟨?_, rfl⟩⟩
      · rw [State.core_setCore]
        rfl
      · cases h
      · rw [State.core_setCore]

/-- What CONTEXT_SELECT leaves, by what the core chooses. -/
theorem contextSelect_leaves {s : State} {core : CoreId} (hup : s.coreUp core = true)
    (hidle : ∀ k, (s.ctxAt core k).status = .issuing → (s.ctxAt core k).halted = true) :
    let s2 := s.refill core
    ∃ t, exec (.contextSelect core) s = .next t ∧ (s2.choose core = none → t = s2) ∧
      ∀ w, s2.choose core = some w → t = s2.take core w := by
  refine ⟨_, contextSelect_eq hup hidle, fun h => ?_, fun w h => ?_⟩
  · rw [h]
    rfl
  · rw [h]
    rfl

end Sys2Proof.Machine

namespace Sys2Proof.Settled
open Sys2Proof.Machine

/-- Settles O54, event by event. -/
theorem taskEvents : Obligations.TaskEvents := by
  intro s core ctx k x here
  refine ⟨?arrival, ?held, fun pre q post vnet hqueue hq hpre hstores => sendqTransmit_leaves hqueue hq hpre hstores,
    fun q v hv hfirst => nsendArrival_lands hv hfirst, fun m hm => nsendCreditReturn_credits hm,
    fun q y hfind hmore hroom hvalues hrun hup pas ps s1 haddr hlen h =>
      streamFill_fills hfind hmore hroom hvalues hrun hup haddr hlen h,
    fun hup hidle => ?select, fun w hwait hw hw' hstatus hlate => parkTimeout_parks hwait hw hw' hstatus hlate,
    fun w hwait hstatus hwoken => parkedWake_wakes hwait hstatus hwoken, fun e he hready hdue => runQueueAging_ages he hready hdue,
    fun l hl hsteal hfree hbulk hinbox hdeque hspilled hnext hvictims hup =>
      stealAttempt_asks hl hsteal hfree hbulk hinbox hdeque hspilled hnext hvictims hup,
    fun victim hsteal hvictim => ?steal,
    fun l hl htree hbegun hquiet hup hreports => doneWaveReport_leaves hl htree hbegun hquiet hup hreports⟩
  case arrival =>
    rintro f hf hfirst hreach hpkg rfl hroom
    obtain ⟨t, ht, hmesh, hmem, hbound, hheld, hcap, hfull⟩ := messageArrival_leaves hf hfirst hreach hpkg hroom
    exact ⟨t, ht, hmesh, hmem, hbound, hheld, hcap, hfull⟩
  case held =>
    rintro m rest hcontrol rfl hstatus
    exact ⟨heldContextRetry_leaves hcontrol hstatus, heldContextEnter_leaves hcontrol hstatus,
      heldContextTerminate_leaves hcontrol hstatus⟩
  case select =>
    obtain ⟨t, ht, hnone, hsome⟩ := contextSelect_leaves hup hidle
    refine ⟨t, ht, hnone, fun r hr => ?_, fun i e l he => ?_, fun f hf => ?_⟩
    · rw [hsome _ hr]
      exact ⟨State.ctxAt_setCtxAt .., choose_ready hr⟩
    · rw [hsome _ he]
      exact take_entry he
    · rw [hsome _ hf]
      exact take_fork hf
  case steal =>
    refine ⟨fun f rest hspilled hdeque hstores => ?_, fun f y hspilled htake => ?_, stealRequest_empty hsteal⟩
    · have hok : (s.ctxAt f.core f.ctx).storesDone f.upTo = true := List.all_eq_true.2 fun st hst => decide_eq_true (hstores st hst)
      obtain ⟨t, hgiven, hcore⟩ := stealRequest_gives hsteal hvictim (fun h => List.cons_ne_nil f rest (hdeque.symm.trans h.1))
        (takeOldest_deque (s := { s with steals := dropAt s.steals k }) hspilled hdeque hok)
      exact ⟨t, hgiven, hcore.trans (State.core_setCore ..)⟩
    · exact stealRequest_gives hsteal hvictim (fun h => hspilled h.2) htake

end Sys2Proof.Settled
end
